-- ==== Sys2Proof/Word.lean ====
section
/-! DEFINITION. The word type of the MZ8's memory (R5). -/

namespace Sys2Proof

/-- A byte of memory. -/
abbrev Byte := BitVec 8

end Sys2Proof
end

