-- ==== Sys2Proof/Syntax.lean ====
section
/-! DEFINITION. The operations of spec/opcode_table.json as one inductive type: slot operations, branch-tree kinds and the device's events, each with its operands.
The three branch kinds carry the whole tree; the vector, reduction, matrix and port forms carry the field record of their format (R73). -/

namespace Sys2Proof

/-- Width of a vector or reduction operation, the W field of R73. -/
inductive Width where
  | w256 | w512 | w1024
deriving DecidableEq, Repr

/-- Width in bits. -/
def Width.bits : Width → Nat
  | .w256 => 256
  | .w512 => 512
  | .w1024 => 1024

/-- Element type, the T field of R73. -/
inductive ETy where
  | f32 | bf16 | f16 | i32 | i16 | i8 | u8
deriving DecidableEq, Repr

/-- Element width e in bits. -/
def ETy.bits : ETy → Nat
  | .f32 | .i32 => 32
  | .bf16 | .f16 | .i16 => 16
  | .i8 | .u8 => 8

/-- The floating types, the set F of 07_vector_reduction_sampling.md. -/
def ETy.isF : ETy → Bool
  | .f32 | .bf16 | .f16 => true
  | _ => false

/-- The signed integer types of I. -/
def ETy.isSigned : ETy → Bool
  | .i32 | .i16 | .i8 => true
  | _ => false

/-- Scope of a release or an acquire (R156). -/
inductive Scope where
  | core | clus | die | pkg | sys
deriving DecidableEq, Repr

/-- Which product MULH takes the high half of (R117). -/
inductive MulhKind where
  | ss | uu | su
deriving DecidableEq, Repr

/-- The slot classes, each with its own opcode space (R72). -/
inductive Cls where
  | scalar | ls | vec | red | mx | ap | ec
deriving DecidableEq, Repr

/-- The fields of the vector format V (R73). -/
structure VF where
  w : Width
  t : ETy
  d : BitVec 5
  a : BitVec 5
  b : BitVec 5
  sb : Bool
  k : BitVec 3
  md : BitVec 2
deriving DecidableEq, Repr

/-- The fields of the reduction format RD (R73). -/
structure RF where
  w : Width
  latch : BitVec 2
  va : BitVec 5
  sa : Bool
  k : BitVec 3
  mode : BitVec 2
deriving DecidableEq, Repr

/-- The fields of the matrix format MX (R73). -/
structure MF where
  md : BitVec 4
  ma : BitVec 4
  mb : BitVec 4
  bank : BitVec 4
  fmt : BitVec 5
  mods : BitVec 5
deriving DecidableEq, Repr

/-- The fields of the accumulator port format AP (R73). -/
structure AF where
  bank : BitVec 4
  stream : BitVec 5
  vreg : BitVec 5
  x : BitVec 4
  hist : Bool
  mods : BitVec 7
deriving DecidableEq, Repr

/-- The fields of an LS vector form (R162). -/
structure LF where
  v : BitVec 5
  st : BitVec 5
  w : Width
  k : BitVec 3
  t : ETy
  form : BitVec 8
deriving DecidableEq, Repr

/-- A branch tree: its tests, path tags and targets (R79, R81, R82). A test is {invert, predicate number}. A short tree has no path word: its tags read 7. -/
structure Tree where
  full : Bool
  nt : BitVec 2
  t0 : BitVec 5
  t1 : BitVec 5
  t2 : BitVec 5
  t3 : BitVec 5
  path : BitVec 30
  e0 : BitVec 16
  e1 : BitVec 16
  e2 : BitVec 16
  e3 : BitVec 16
deriving DecidableEq, Repr

/-- Operands of `ecopy` from its slot word and its two extension words (R225). -/
structure EcopyF where
  a : BitVec 5
  out : Bool
  wmem : Bool
  ring : Bool
  bar : BitVec 6
  row : BitVec 13
  rows : BitVec 14
  h : BitVec 3
  stride : BitVec 32
deriving DecidableEq, Repr

/-- Operands of `spawn` (R249, R250). -/
structure SpawnF where
  a : BitVec 5
  d : BitVec 5
  g : BitVec 5
  remote : Bool
  raise : Bool
  stage : BitVec 3
  entry : BitVec 32
deriving DecidableEq, Repr

/-- Where an uncorrectable error arises, on the core or die the event names (R279, R352): an 8-byte word of a scratchpad; a row of ACC; an MRF granule, held by a register or free; a line of an L1; an 8-byte word of memory; a cached translation; other state that no job holds. -/
inductive ErrSite where
  | pad (wmem : Bool) (word : Nat)
  | acc (row : Nat)
  | mrf (held : Option (BitVec 4))
  | l1Line (addr : Nat)
  | mem (pa : Nat)
  | xlate (asid : Nat) (va : Nat)
  | unheld
deriving DecidableEq, Repr

/-- Class of a flit (R376). -/
inductive FlitClass where
  | ordered | bulk | critical | idle
deriving DecidableEq, Repr

/-- Every row of the table: slot operations, branch-tree kinds, device events. -/
inductive Instr where
  -- scalar (R117 to R131)
  | add (d a b : BitVec 5)
  | sub (d a b : BitVec 5)
  | mul (d a b : BitVec 5)
  | mulh (d a b : BitVec 5) (f : MulhKind)
  | div (d a b : BitVec 5) (u : Bool)
  | rem (d a b : BitVec 5) (u : Bool)
  | and (d a b : BitVec 5)
  | or (d a b : BitVec 5)
  | xor (d a b : BitVec 5)
  | sll (d a b : BitVec 5)
  | srl (d a b : BitVec 5)
  | sra (d a b : BitVec 5)
  | slli (d a : BitVec 5) (n : BitVec 6)
  | srli (d a : BitVec 5) (n : BitVec 6)
  | srai (d a : BitVec 5) (n : BitVec 6)
  | min (d a b : BitVec 5) (u : Bool)
  | max (d a b : BitVec 5) (u : Bool)
  | clz (d a : BitVec 5)
  | ctz (d a : BitVec 5)
  | popc (d a : BitVec 5)
  | bext (d a : BitVec 5) (l p : BitVec 6) (x : Bool)
  | bins (d a : BitVec 5) (l p : BitVec 6)
  | sel (d a b : BitVec 5) (i : Bool) (n : BitVec 4)
  | addsh (d a b : BitVec 5) (h : BitVec 3)
  | kset (k : BitVec 3) (a : BitVec 5) (h : Bool)
  | kget (d : BitVec 5) (k : BitVec 3) (h : Bool)
  | crrd (d : BitVec 5) (c : BitVec 8)
  | crwr (a : BitVec 5) (c : BitVec 8)
  | fadd (d a b : BitVec 5) (m : BitVec 2)
  | fmul (d a b : BitVec 5) (m : BitVec 2)
  | fcvt (d a : BitVec 5) (k : BitVec 3) (m : BitVec 2)
  | addi (d a : BitVec 5) (i : BitVec 16)
  | andi (d a : BitVec 5) (i : BitVec 16)
  | ori (d a : BitVec 5) (i : BitVec 16)
  | xori (d a : BitVec 5) (i : BitVec 16)
  | movi (d : BitVec 5) (i : BitVec 16)
  | movh (d a : BitVec 5) (i : BitVec 16)
  | lix (d : BitVec 5) (long : Bool) (lo hi : BitVec 32)
  | cmpeq (p : BitVec 4) (a b : BitVec 5)
  | cmpeqImm (p : BitVec 4) (a : BitVec 5) (i : BitVec 10)
  | cmpne (p : BitVec 4) (a b : BitVec 5)
  | cmpneImm (p : BitVec 4) (a : BitVec 5) (i : BitVec 10)
  | cmplt (p : BitVec 4) (a b : BitVec 5)
  | cmpltImm (p : BitVec 4) (a : BitVec 5) (i : BitVec 10)
  | cmple (p : BitVec 4) (a b : BitVec 5)
  | cmpleImm (p : BitVec 4) (a : BitVec 5) (i : BitVec 10)
  | cmpltu (p : BitVec 4) (a b : BitVec 5)
  | cmpltuImm (p : BitVec 4) (a : BitVec 5) (i : BitVec 10)
  | cmpleu (p : BitVec 4) (a b : BitVec 5)
  | cmpleuImm (p : BitVec 4) (a : BitVec 5) (i : BitVec 10)
  | fcmp (p : BitVec 4) (a b : BitVec 5) (r : BitVec 2)
  | pand (p : BitVec 4) (x : Bool) (a : BitVec 4) (y : Bool) (b : BitVec 4)
  | por (p : BitVec 4) (x : Bool) (a : BitVec 4) (y : Bool) (b : BitVec 4)
  | pxor (p : BitVec 4) (x : Bool) (a : BitVec 4) (y : Bool) (b : BitVec 4)
  -- branch-tree kinds (R79 to R84)
  | br (t : Tree)
  | call (t : Tree)
  | brx (t : Tree)
  -- load/store (R156 to R165)
  | ld (d a : BitVec 5) (o : BitVec 16)
  | st (v a : BitVec 5) (o : BitVec 16)
  | ldacq (d a : BitVec 5) (s : Scope) (o : BitVec 13)
  | strel (v a : BitVec 5) (s : Scope) (o : BitVec 13)
  | pf (h : Bool) (a : BitVec 5) (o : BitVec 16)
  | fence (s : Scope) (k : BitVec 2)
  | amoadd (d a b : BitVec 5) (s : Scope) (o : BitVec 2)
  | amoand (d a b : BitVec 5) (s : Scope) (o : BitVec 2)
  | amoor (d a b : BitVec 5) (s : Scope) (o : BitVec 2)
  | amoxor (d a b : BitVec 5) (s : Scope) (o : BitVec 2)
  | amomin (d a b : BitVec 5) (s : Scope) (o : BitVec 2) (u : Bool)
  | amomax (d a b : BitVec 5) (s : Scope) (o : BitVec 2) (u : Bool)
  | amoswap (d a b : BitVec 5) (s : Scope) (o : BitVec 2)
  | amocas (d a b : BitVec 5) (s : Scope) (o : BitVec 2)
  | stld (n a : BitVec 5) (o : BitVec 16)
  | stset (n a : BitVec 5) (s : BitVec 3)
  | stget (d n : BitVec 5) (s : BitVec 3)
  | stadv (n a : BitVec 5)
  | vld (f : LF)
  | vst (f : LF)
  | vldb (f : LF)
  | vpf (f : LF)
  | vscat (f : LF)
  | vscadd (f : LF)
  | vscmax (f : LF)
  | vredst (f : LF)
  -- vector (R166 to R181, R187 to R191)
  | vadd (f : VF)
  | vsub (f : VF)
  | vmul (f : VF)
  | vfma (f : VF)
  | vfms (f : VF)
  | vfnma (f : VF)
  | vmulh (f : VF)
  | vmin (f : VF)
  | vmax (f : VF)
  | vabs (f : VF)
  | vneg (f : VF)
  | vclamp (f : VF)
  | vrnd (f : VF)
  | vand (f : VF)
  | vor (f : VF)
  | vxor (f : VF)
  | vnot (f : VF)
  | vsll (f : VF)
  | vsrl (f : VF)
  | vsra (f : VF)
  | vcmpeq (f : VF)
  | vcmpne (f : VF)
  | vcmplt (f : VF)
  | vcmple (f : VF)
  | vclass (f : VF)
  | vsel (f : VF)
  | vmov (f : VF)
  | vbcast (f : VF)
  | vins (f : VF)
  | vext (f : VF)
  | vgath (f : VF)
  | vcvt (f : VF)
  | vcvt8 (f : VF)
  | vquant (f : VF)
  | vdequant (f : VF)
  | vpack (f : VF)
  | vunpk (f : VF)
  | vshuf (f : VF)
  | vrotm (f : VF)
  | vzip (f : VF)
  | vuzp (f : VF)
  | vrev (f : VF)
  | vslide (f : VF)
  | vpark (f : VF)
  | vunpark (f : VF)
  | vexp2 (f : VF)
  | vlog2 (f : VF)
  | vrcp (f : VF)
  | vrsqrt (f : VF)
  | vsin (f : VF)
  | vcos (f : VF)
  | vtanh (f : VF)
  | vqraw (f : VF)
  | vunif (f : VF)
  | vnorm (f : VF)
  | vcat (f : VF)
  | vtopk (f : VF)
  | vtemp (f : VF)
  -- reduction (R182)
  | rsum (f : RF)
  | rmax (f : RF)
  | rmin (f : RF)
  | rsumsq (f : RF)
  | rmov (f : RF)
  | rclr (f : RF)
  -- matrix (R194)
  | mld (f : MF)
  | mldu (f : MF)
  | mldv (f : MF)
  | mst (f : MF)
  | mstu (f : MF)
  | mstv (f : MF)
  | mmov (f : MF)
  | mmac (f : MF)
  | mmacs (f : MF)
  | mmacr (f : MF)
  | mmacm (f : MF)
  | mmul (f : MF)
  | madd (f : MF)
  | msub (f : MF)
  | mscale (f : MF)
  | mtr (f : MF)
  | recomp (f : MF)
  | densify (f : MF)
  | mctl (d : BitVec 4) (l : BitVec 7) (x : Bool)
  | mfree (f : MF)
  | macrd (f : MF)
  | macwr (f : MF)
  -- accumulator port (R217)
  | accld (f : AF)
  | accwr (f : AF)
  | accadd (f : AF)
  | accst (f : AF)
  | accqst (f : AF)
  | accclr (f : AF)
  | accmv (f : AF)
  | accscl (f : AF)
  -- engine and control (R225 to R273)
  | ecopy (f : EcopyF)
  | own (s : BitVec 2) (b : Bool) (f c : BitVec 7)
  | rset (n : BitVec 3) (b : Bool) (f c : BitVec 7) (d : Bool)
  | rwait (h : BitVec 3) (k : Bool) (n : BitVec 8) (l : BitVec 5)
  | radv (h : BitVec 3) (i : Bool) (n : BitVec 8)
  | barr (n : BitVec 6) (r : Bool) (d : BitVec 5)
  | bwait (n : BitVec 6) (l : BitVec 5) (c : BitVec 5)
  | bwaitImm (n : BitVec 6) (l : BitVec 5) (c : BitVec 8)
  | breset (n : BitVec 6)
  | balloc (p : BitVec 4) (n : BitVec 6)
  | bfree (n : BitVec 6)
  | hxch (n : BitVec 5) (f b : BitVec 6)
  | reshard (e v : BitVec 4) (b : BitVec 6)
  | rsload (v : BitVec 4) (a : BitVec 5)
  | coll (a : BitVec 5) (b : BitVec 6)
  | edisp (a : BitVec 5) (b : BitVec 6)
  | ecomb (a : BitVec 5) (b : BitVec 6)
  | put (a : BitVec 5) (b : BitVec 6)
  | get (a : BitVec 5) (b : BitVec 6)
  | spawn (f : SpawnF)
  | done (j : Bool)
  | jraise (a : BitVec 5)
  | cpost (a b : BitVec 5) (s : Scope) (j : Bool)
  | slice (b : BitVec 5) (y : Bool) (lo hi : BitVec 32)
  | trap (a : BitVec 5)
  | tsub (n : BitVec 3) (a : BitVec 5) (b : BitVec 6) (p : BitVec 4)
  | rverd (v : BitVec 2)
  | tlog (a b : BitVec 5)
  | tsload (n : BitVec 3) (a : BitVec 5) (p : BitVec 4)
  | tsstat (d : BitVec 5) (n g s : BitVec 3)
  | sqset (n : BitVec 3) (a : BitVec 5)
  | sqapp (n : BitVec 3) (d : BitVec 5) (c : BitVec 8)
  | sqacc (n : BitVec 3) (a : BitVec 5)
  | sqrej (n : BitVec 3)
  | lyrd (d : BitVec 5) (e : BitVec 4) (s : BitVec 3)
  | lywr (e : BitVec 4) (a : BitVec 5) (s : BitVec 3)
  | tlbinv (k : BitVec 2) (a b : BitVec 5)
  | aclwr (a b : BitVec 5)
  | ckpt (a : BitVec 5) (b : BitVec 6)
  -- events of the device with operands
  | offCoreLoadResponse (id : Nat)
  | queueEntryPerform (store : Bool)
  | offCoreFaultReport (id : Nat)
  | engineCommandCompletion (id : Nat)
  | engineFailureReport (id : Nat)
  | ringBlockTransfer (id : Nat)
  | pipeTileCopy (gang : Nat) (pipe : Nat)
  | haloFaceArrival (id : Nat)
  | reshardStep (id : Nat)
  | stepTokenArrival (id : Nat)
  | barrierArrival (id : Nat)
  | recordAdmission (id : Nat)
  | recordCompletion (set : Nat) (place : Nat)
  | packetExpansion (die : Nat)
  | gangClaim (gang : Nat)
  | gangAdmission (gang : Nat)
  | gangResume (gang : Nat)
  | jobCompletion (jcb : Nat)
  | completionSignal (jcb : Nat)
  | resume (handle : Nat)
  | fault (handle : Nat)
  | endTrapped (handle : Nat)
  | endPost (handle : Nat)
  | requestArrival (id : Nat)
  | acknowledgement (id : Nat)
  | checkpointCopy (id : Nat)
  | checkpointCommit (id : Nat)
  -- events from outside, and errors
  | push (kind : BitVec 2) (die : Nat) (queue : Nat) (off : Nat) (bytes : List (BitVec 8))
  | uncorrectableError (cid : Nat) (e : ErrSite)
  | correctedError (die : Nat)
  | flitArrival (port : Nat) (plane : Bool) (c : FlitClass) (intact : Bool)
  | planeFailure (port : Nat) (plane : Bool)
  | planeRejoin (port : Nat) (plane : Bool)
  | linkTraining (port : Nat) (plane : Bool)
  | rekey (port : Nat) (plane : Bool)
  | slotAlignmentLoss (port : Nat) (plane : Bool)
  | bar0Write (pkg : Nat) (kind : BitVec 2) (off : Nat) (v : BitVec 64)
  | claim (pkg : Nat) (kind : BitVec 2)
  | handover (pkg : Nat) (kind : BitVec 2) (v : BitVec 64)
  | attest (pkg : Nat) (kind : BitVec 2) (v : BitVec 64)
  | bar4Write (pkg : Nat) (kind : BitVec 2) (off : Nat) (bytes : List (BitVec 8))
  | bar4Read (pkg : Nat) (kind : BitVec 2) (off : Nat) (n : Nat)
  | boot (die : Nat) (signed : Bool) (version : BitVec 64) (root : Nat)
  | resumption (die : Nat)
  | throttle (die : Nat) (celsius : Nat)
  | ownerLinkDown (pkg : Nat)
  | powerRemoval (pkg : Nat)
  -- operations and events without operands
  | nop
  | idle
  | mark
  | l1inv
  | yield
  | brk
  | repetitionIssue
  | resultLanding
  | matrixResultLanding
  | waitConditionMet
  | waitTimeout
  | safePoint
  | save
  | budgetExhausted
  | safepointOverdue
  | spawnEnqueue
  | dispatch
  | trapRecordClaim
  | translationWalk
  | tlbinvCompletion
  | criticalResend
  | criticalFlitLost
  | endToEndResend
  | fabricOutcomeUnknown
  | handoverLapse
  | quoteCompletion
deriving DecidableEq, Repr

end Sys2Proof
end

