-- ==== Sys2Proof/WellFormed.lean ====
section
/-! DEFINITION. Which operand values an assigned form accepts: the RESERVED conditions of R85 that a form's entry states (a reserved bit is judged in Decode by encoding the form again). -/

namespace Sys2Proof

/-- The assigned control-register numbers of R20. -/
def crAssigned (c : BitVec 8) : Bool :=
  [0x00, 0x01, 0x02, 0x03, 0x08, 0x09, 0x0A, 0x10, 0x11, 0x12, 0x13, 0x14, 0x18, 0x20, 0x21, 0x22, 0x23, 0x28, 0x29, 0x2A].contains c.toNat

/-- MOD is legal under R54: four rounding modes for a floating type, wrap and saturate for an integer type. -/
def VF.r54 (f : VF) : Bool := f.t.isF || decide (f.md.toNat ≤ 1)
/-- The fields vb and SB are reserved and zero. -/
def VF.noB (f : VF) : Bool := f.b == 0 && !f.sb
/-- The field va is reserved and zero. -/
def VF.noA (f : VF) : Bool := f.a == 0
/-- MOD is reserved and zero. -/
def VF.md0 (f : VF) : Bool := f.md == 0
/-- Type field of a conversion source, coded as T (R172); none for 0b111. -/
def etyOf (n : Nat) : Option ETy :=
  match n with
  | 0 => some .f32
  | 1 => some .bf16
  | 2 => some .f16
  | 3 => some .i32
  | 4 => some .i16
  | 5 => some .i8
  | 6 => some .u8
  | _ => none
/-- The operands R172 allows for `vcvt`. -/
def VF.cvtOk (f : VF) : Bool :=
  match etyOf (f.b.toNat % 8) with
  | none => false
  | some ts =>
    let p := f.b.toNat / 8
    let n := f.w.bits / Nat.max ts.bits f.t.bits
    !f.sb && ts != f.t && decide ((p + 1) * n * Nat.min ts.bits f.t.bits ≤ 1024)
      && (ts.bits != f.t.bits || p == 0) && (ts.isF || f.r54)
/-- The operands R173 allows for `vcvt8`. -/
def VF.cvt8Ok (f : VF) : Bool :=
  let p := f.b.toNat / 8
  let dir := f.b.toNat % 4
  f.t.isF && !f.sb && f.b.toNat / 4 % 2 == 0 && decide ((p + 1) * (f.w.bits / f.t.bits) ≤ 128)
    && (decide (dir ≤ 1) || f.md0)
/-- The operands R174 allows for `vquant` and `vdequant`. -/
def VF.quantOk (f : VF) : Bool :=
  f.t == .f32 && f.w != .w256 && f.md0 && f.k == 0 && !f.sb && [0, 1, 2, 3, 6, 7, 8].contains f.b.toNat
/-- The operands R181 allows for a special function. -/
def VF.specialOk (f : VF) : Bool := f.t.isF && f.md0 && f.noB
/-- A compare of R171: vd names a mask in [2:0]. -/
def VF.cmpOk (f : VF) : Bool := f.md0 && decide (f.d.toNat < 8)

/-- A matrix form uses exactly the fields R194 names: the others are zero. -/
def MF.only (f : MF) (md ma mb bank fmt : Bool) (modMask : Nat) : Bool :=
  (md || f.md == 0) && (ma || f.ma == 0) && (mb || f.mb == 0) && (bank || f.bank == 0) && (fmt || f.fmt == 0)
    && (f.mods.toNat &&& (31 - modMask)) == 0
/-- Operand formats of `mmac` and `mmul` (R194). -/
def MF.fmtOk (f : MF) : Bool := [0, 1, 2, 3, 7, 8, 9, 10, 11, 12, 13].contains f.fmt.toNat

/-- The fields of a half-row port form (R217). -/
def AF.halfOk (f : AF) : Bool := f.stream == 0 && decide (f.x.toNat ≤ 1) && !f.hist
/-- The fields of a port store (R217). -/
def AF.storeOk (f : AF) : Bool := f.vreg == 0 && decide (f.x.toNat ≤ 5)

/-- A tree's own RESERVED conditions (R79, R81, R82): unused tests and entries are zero, tags 5 and 6 never. The tags of absent slots are judged with the bundle. -/
def Tree.wf (t : Tree) (indirect : Bool) : Bool :=
  let n := t.nt.toNat
  (t.full || (decide (n ≤ 1) && t.path == 0))
    && (decide (1 ≤ n) || (t.t1 == 0 && t.e1 == 0))
    && (decide (2 ≤ n) || (t.t2 == 0 && t.e2 == 0))
    && (decide (3 ≤ n) || (t.t3 == 0 && t.e3 == 0))
    && (!indirect || [t.e0, t.e1, t.e2, t.e3].all fun e => decide (e.toNat < 32))
    && (List.range 10).all fun i => !([5, 6].contains (t.path.toNat / 8 ^ i % 8))

/-- The operand values an operation accepts. Events take any operands. -/
def Instr.wf : Instr → Bool
  | .fcvt _ _ k m => (k != 5 && k != 7) || m == 0
  | .crrd _ c => crAssigned c
  | .crwr _ c => crAssigned c
  | .lix _ long _ hi => long || hi == 0
  | .br t => t.wf false
  | .call t => t.wf false
  | .brx t => t.wf true
  | .fence _ k => k != 0
  | .amoadd _ _ _ s o => o != 0 || s == .core
  | .amoand _ _ _ s o => o != 0 || s == .core
  | .amoor _ _ _ s o => o != 0 || s == .core
  | .amoxor _ _ _ s o => o != 0 || s == .core
  | .amomin _ _ _ s o _ => o != 0 || s == .core
  | .amomax _ _ _ s o _ => o != 0 || s == .core
  | .amoswap _ _ _ s o => o != 0 || s == .core
  | .amocas _ _ _ s o => o != 0 || s == .core
  | .stset _ a s => decide (s.toNat ≤ 5) && (s != 5 || a == 0)
  | .stget _ _ s => s != 7
  | .vld f => f.form == 0
  | .vst f => f.form == 0
  | .vldb f => f.form == 0
  | .vpf f => f.form == 0
  | .vscat f => f.form == 0
  | .vscadd f => f.form == 0
  | .vscmax f => f.form == 0
  | .vredst f => f.form.toNat % 2 == 0 && f.form.toNat / 2 % 4 != 3 && [ETy.f32, .bf16, .i32].contains f.t
  | .vadd f => f.r54
  | .vsub f => f.r54
  | .vmul f => f.r54
  | .vfma f => f.r54
  | .vfms f => f.r54
  | .vfnma f => f.r54
  | .vmulh f => !f.t.isF && f.md0
  | .vmin f => f.md0
  | .vmax f => f.md0
  | .vabs f => f.noB && (if f.t.isF then f.md0 else f.r54)
  | .vneg f => f.noB && (if f.t.isF then f.md0 else f.r54)
  | .vclamp f => f.md0
  | .vrnd f => f.noB && f.t.isF
  | .vand f => f.md0
  | .vor f => f.md0
  | .vxor f => f.md0
  | .vnot f => f.noB && f.md0
  | .vsll f => !f.t.isF && f.md0
  | .vsrl f => !f.t.isF && f.md0
  | .vsra f => !f.t.isF && f.md0
  | .vcmpeq f => f.cmpOk
  | .vcmpne f => f.cmpOk
  | .vcmplt f => f.cmpOk
  | .vcmple f => f.cmpOk
  | .vclass f => f.t.isF && f.noB && f.md0
  | .vsel f => f.md0
  | .vmov f => f.noA && f.md0
  | .vbcast f => f.noB && f.md0
  | .vins f => !f.sb && f.md0
  | .vext f => !f.sb && f.md0
  | .vgath f => f.sb && f.noA && f.md0
  | .vcvt f => f.cvtOk
  | .vcvt8 f => f.cvt8Ok
  | .vquant f => f.quantOk
  | .vdequant f => f.quantOk
  | .vpack f => [ETy.i16, .i8, .u8].contains f.t && decide (f.md.toNat ≤ 1)
  | .vunpk f => [ETy.i16, .i8, .u8].contains f.t && f.noB && decide (f.md.toNat ≤ 1)
  | .vshuf f => f.md0
  | .vrotm f => f.sb && f.noA && f.md0
  | .vzip f => decide (f.md.toNat ≤ 1)
  | .vuzp f => decide (f.md.toNat ≤ 1)
  | .vrev f => f.noB && f.md0
  | .vslide f => !f.sb && f.md0
  | .vpark f => f.w == .w1024 && f.t == .f32 && f.k == 0 && !f.sb && decide (f.md.toNat ≤ 1) && f.d == 0
  | .vunpark f => f.w == .w1024 && f.t == .f32 && f.k == 0 && f.noB && f.noA && f.md0
  | .vexp2 f => f.specialOk
  | .vlog2 f => f.specialOk
  | .vrcp f => f.specialOk
  | .vrsqrt f => f.specialOk
  | .vsin f => f.specialOk
  | .vcos f => f.specialOk
  | .vtanh f => f.specialOk
  | .vqraw f => f.t == .i32 && f.noA && f.noB && f.md0
  | .vunif f => f.t == .f32 && f.noA && f.noB && f.md0
  | .vnorm f => f.t == .f32 && f.noA && f.noB && f.md0
  | .vcat f => f.t == .f32 && f.noA && f.md0
  | .vtopk f => f.cmpOk && !f.sb
  | .vtemp f => f.t.isF && !f.sb
  | .rsum f => decide (f.mode.toNat ≤ 1)
  | .rmax f => decide (f.mode.toNat ≤ 1)
  | .rmin f => decide (f.mode.toNat ≤ 1)
  | .rsumsq f => decide (f.mode.toNat ≤ 1)
  | .rmov f => f.w == .w256 && !f.sa && decide (f.mode.toNat ≤ 1)
  | .rclr f => f.w == .w256 && !f.sa && f.va == 0 && f.k == 0 && f.mode == 0
  | .mld f => f.only true true false false false 1
  | .mldu f => f.only true true false false false 1
  | .mldv f => f.only true true false false false 1
  | .mst f => f.only false true false true false 16
  | .mstu f => f.only false true false true false 16
  | .mstv f => f.only false true false true false 16
  | .mmov f => f.only true true false false false 0
  | .mmac f => f.only false true true true true 24 && f.fmtOk
  | .mmacs f => f.only false true true true false 27
  | .mmacr f => f.only false true true true false 27
  | .mmacm f => f.only false true true true false 27
  | .mmul f => f.only true true true false true 0 && f.fmtOk
  | .madd f => f.only true true true false false 0
  | .msub f => f.only true true true false false 0
  | .mscale f => f.only true true false false false 31
  | .mtr f => f.only true true false false false 0
  | .recomp f => f.only true true false false false 0
  | .densify f => f.only true true false false false 0
  | .mctl _ l _ => decide (1 ≤ l.toNat) && decide (l.toNat ≤ 64)
  | .mfree f => f.only true false false false false 0
  | .macrd f => f.only true false false true false 16
  | .macwr f => f.only false true false true false 16
  | .accld f => f.halfOk
  | .accwr f => f.halfOk
  | .accadd f => f.halfOk
  | .accst f => f.storeOk
  | .accqst f => f.storeOk
  | .accclr f => f.stream == 0 && f.vreg == 0 && f.x == 0 && !f.hist
  | .accmv f => decide (f.stream.toNat < 16) && f.vreg == 0 && f.x == 0 && !f.hist && f.stream.toNat != f.bank.toNat
  | .accscl f => f.stream == 0 && f.x == 0 && !f.hist
  | .ecopy f => f.rows != 0 && (if f.ring then !f.wmem && f.row == 0 else f.h == 0)
  | .own s _ _ _ => s == 0 || s == 2
  | .hxch _ f _ => f != 0
  | .cpost a b _ j => a != 0 || (b == 0 && j)
  | .rverd v => v != 3
  | .tsstat _ _ _ s => s != 7
  | .sqapp _ _ c => c != 0
  | .lyrd _ _ s => decide (s.toNat ≤ 3)
  | .lywr _ _ s => [0, 1, 3].contains s.toNat
  | .tlbinv k _ _ => k != 3
  | _ => true

/-- The slot classes that hold an operation: a tree and an event have none, `nop` and `idle` several (R72, R101). -/
def Instr.classes : Instr → List Cls
  | .nop => [.scalar, .ec]
  | .idle => [.ls, .vec, .red, .mx, .ap]
  | .add .. | .sub .. | .mul .. | .mulh .. | .div .. | .rem .. | .and .. | .or ..
  | .xor .. | .sll .. | .srl .. | .sra .. | .slli .. | .srli .. | .srai .. | .min ..
  | .max .. | .clz .. | .ctz .. | .popc .. | .bext .. | .bins .. | .sel .. | .addsh ..
  | .kset .. | .kget .. | .crrd .. | .crwr .. | .fadd .. | .fmul .. | .fcvt .. | .addi ..
  | .andi .. | .ori .. | .xori .. | .movi .. | .movh .. | .lix .. | .cmpeqImm .. | .cmpeq ..
  | .cmpneImm .. | .cmpne .. | .cmpltImm .. | .cmplt .. | .cmpleImm .. | .cmple .. | .cmpltuImm .. | .cmpltu ..
  | .cmpleuImm .. | .cmpleu .. | .fcmp .. | .pand .. | .por .. | .pxor .. => [.scalar]
  | .ld .. | .st .. | .ldacq .. | .strel .. | .pf .. | .mark .. | .fence .. | .amoadd ..
  | .amoand .. | .amoor .. | .amoxor .. | .amomin .. | .amomax .. | .amoswap .. | .amocas .. | .stld ..
  | .stset .. | .stget .. | .stadv .. | .l1inv .. | .vld .. | .vst .. | .vldb .. | .vpf ..
  | .vscat .. | .vscadd .. | .vscmax .. | .vredst .. => [.ls]
  | .vadd .. | .vsub .. | .vmul .. | .vfma .. | .vfms .. | .vfnma .. | .vmulh .. | .vmin ..
  | .vmax .. | .vabs .. | .vneg .. | .vclamp .. | .vrnd .. | .vand .. | .vor .. | .vxor ..
  | .vnot .. | .vsll .. | .vsrl .. | .vsra .. | .vcmpeq .. | .vcmpne .. | .vcmplt .. | .vcmple ..
  | .vclass .. | .vsel .. | .vmov .. | .vbcast .. | .vins .. | .vext .. | .vgath .. | .vcvt ..
  | .vcvt8 .. | .vquant .. | .vdequant .. | .vpack .. | .vunpk .. | .vshuf .. | .vrotm .. | .vzip ..
  | .vuzp .. | .vrev .. | .vslide .. | .vpark .. | .vunpark .. | .vexp2 .. | .vlog2 .. | .vrcp ..
  | .vrsqrt .. | .vsin .. | .vcos .. | .vtanh .. | .vqraw .. | .vunif .. | .vnorm .. | .vcat ..
  | .vtopk .. | .vtemp .. => [.vec]
  | .rsum .. | .rmax .. | .rmin .. | .rsumsq .. | .rmov .. | .rclr .. => [.red]
  | .mld .. | .mldu .. | .mldv .. | .mst .. | .mstu .. | .mstv .. | .mmov .. | .mmac ..
  | .mmacs .. | .mmacr .. | .mmacm .. | .mmul .. | .madd .. | .msub .. | .mscale .. | .mtr ..
  | .recomp .. | .densify .. | .mfree .. | .macrd .. | .macwr .. | .mctl .. => [.mx]
  | .accld .. | .accwr .. | .accadd .. | .accst .. | .accqst .. | .accclr .. | .accmv .. | .accscl .. => [.ap]
  | .ecopy .. | .own .. | .rset .. | .rwait .. | .radv .. | .barr .. | .bwaitImm .. | .bwait ..
  | .breset .. | .balloc .. | .bfree .. | .hxch .. | .reshard .. | .rsload .. | .coll .. | .edisp ..
  | .ecomb .. | .put .. | .get .. | .spawn .. | .yield .. | .done .. | .jraise .. | .cpost ..
  | .slice .. | .trap .. | .brk .. | .tsub .. | .rverd .. | .tlog .. | .tsload .. | .tsstat ..
  | .sqset .. | .sqapp .. | .sqacc .. | .sqrej .. | .lyrd .. | .lywr .. | .tlbinv .. | .aclwr ..
  | .ckpt .. => [.ec]
  | _ => []
/-- The tree of a branch-tree kind. -/
def Instr.tree : Instr → Option Tree
  | .br t | .call t | .brx t => some t
  | _ => none

end Sys2Proof
end

