-- ==== Sys2Proof/Decode.lean ====
section
/-! DEFINITION. Reading slot words and bundles, and writing slot words: the formats of R73, the opcode grids of R104 to R110, the extension words of R111, the tree words of R79 to R82, and the decode checks of R85 in their order. -/

namespace Sys2Proof

/-- The n-bit field of w whose lowest bit is lo. -/
def fld (w lo n : Nat) : BitVec n := BitVec.ofNat n (w / 2 ^ lo)
/-- Bit i of w. -/
def bit (w i : Nat) : Bool := w / 2 ^ i % 2 == 1
/-- Opcode code in [31:26] (R72). -/
def op (code : Nat) : Nat := code * 2 ^ 26
/-- A field value v placed at bit lo, over the word r so far. -/
def put (lo v r : Nat) : Nat := v * 2 ^ lo + r
/-- Extension word i, and zero where none was given. -/
def extNat (ext : List Nat) (i : Nat) : Nat := ext.getD i 0
def extWord (ext : List Nat) (i : Nat) : BitVec 32 := BitVec.ofNat 32 (extNat ext i)

/-- Code of W (R73). -/
def Width.code : Width → Nat
  | .w256 => 0
  | .w512 => 1
  | .w1024 => 2
def Width.ofCode : Nat → Option Width
  | 0 => some .w256
  | 1 => some .w512
  | 2 => some .w1024
  | _ => none
/-- Code of T (R73). -/
def ETy.code : ETy → Nat
  | .f32 => 0
  | .bf16 => 1
  | .f16 => 2
  | .i32 => 3
  | .i16 => 4
  | .i8 => 5
  | .u8 => 6
/-- Code of SCOPE (R156). -/
def Scope.code : Scope → Nat
  | .core => 0
  | .clus => 1
  | .die => 2
  | .pkg => 3
  | .sys => 4
def Scope.ofCode : Nat → Option Scope
  | 0 => some .core
  | 1 => some .clus
  | 2 => some .die
  | 3 => some .pkg
  | 4 => some .sys
  | _ => none
/-- Function code of `mulh` (R117). -/
def MulhKind.code : MulhKind → Nat
  | .ss => 0
  | .uu => 1
  | .su => 2
def MulhKind.ofCode : Nat → Option MulhKind
  | 0 => some .ss
  | 1 => some .uu
  | 2 => some .su
  | _ => none

/-- The SR format. -/
def sr (code : Nat) (d a b : BitVec 5) (f : Nat) : Nat := op code + d.toNat * 2 ^ 21 + a.toNat * 2 ^ 16 + b.toNat * 2 ^ 11 + f
/-- The fields below the opcode of each record format (R73, R162). -/
def LF.bits (f : LF) : Nat := f.v.toNat * 2 ^ 21 + f.st.toNat * 2 ^ 16 + f.w.code * 2 ^ 14 + f.k.toNat * 2 ^ 11 + f.t.code * 2 ^ 8 + f.form.toNat
def VF.bits (f : VF) : Nat := f.w.code * 2 ^ 24 + f.t.code * 2 ^ 21 + f.d.toNat * 2 ^ 16 + f.a.toNat * 2 ^ 11 + f.b.toNat * 2 ^ 6 + f.sb.toNat * 2 ^ 5 + f.k.toNat * 2 ^ 2 + f.md.toNat
def RF.bits (f : RF) : Nat := f.w.code * 2 ^ 24 + f.latch.toNat * 2 ^ 22 + f.va.toNat * 2 ^ 17 + f.sa.toNat * 2 ^ 16 + f.k.toNat * 2 ^ 13 + f.mode.toNat * 2 ^ 11
def MF.bits (f : MF) : Nat := f.md.toNat * 2 ^ 22 + f.ma.toNat * 2 ^ 18 + f.mb.toNat * 2 ^ 14 + f.bank.toNat * 2 ^ 10 + f.fmt.toNat * 2 ^ 5 + f.mods.toNat
def AF.bits (f : AF) : Nat := f.bank.toNat * 2 ^ 22 + f.stream.toNat * 2 ^ 17 + f.vreg.toNat * 2 ^ 12 + f.x.toNat * 2 ^ 8 + f.hist.toNat * 2 ^ 7 + f.mods.toNat

/-- The slot word of a slot operation. A branch tree and an event have none: 0 stands for it. -/
def encodeWord : Instr → Nat
  | .add d a b => sr 1 d a b 0
  | .sub d a b => sr 2 d a b 0
  | .mul d a b => sr 3 d a b 0
  | .and d a b => sr 7 d a b 0
  | .or d a b => sr 8 d a b 0
  | .xor d a b => sr 9 d a b 0
  | .sll d a b => sr 10 d a b 0
  | .srl d a b => sr 11 d a b 0
  | .sra d a b => sr 12 d a b 0
  | .mulh d a b f => sr 4 d a b f.code
  | .div d a b u => sr 5 d a b u.toNat
  | .rem d a b u => sr 6 d a b u.toNat
  | .min d a b u => sr 16 d a b u.toNat
  | .max d a b u => sr 17 d a b u.toNat
  | .slli d a n => sr 13 d a 0 n.toNat
  | .srli d a n => sr 14 d a 0 n.toNat
  | .srai d a n => sr 15 d a 0 n.toNat
  | .clz d a => sr 18 d a 0 0
  | .ctz d a => sr 19 d a 0 0
  | .popc d a => sr 20 d a 0 0
  | .bext d a l p x => put 0 (x.toNat) (put 4 (p.toNat) (put 10 (l.toNat) (put 16 (a.toNat) (put 21 (d.toNat) (op 0x15)))))
  | .bins d a l p => put 4 (p.toNat) (put 10 (l.toNat) (put 16 (a.toNat) (put 21 (d.toNat) (op 0x16))))
  | .sel d a b i n => sr 0x17 d a b (i.toNat * 16 + n.toNat)
  | .addsh d a b h => sr 0x18 d a b h.toNat
  | .kset k a h => put 0 (h.toNat) (put 16 (a.toNat) (put 21 (k.toNat) (op 0x19)))
  | .kget d k h => put 0 (h.toNat) (put 16 (k.toNat) (put 21 (d.toNat) (op 0x1A)))
  | .crrd d c => put 0 (c.toNat) (put 21 (d.toNat) (op 0x1B))
  | .crwr a c => put 0 (c.toNat) (put 16 (a.toNat) (op 0x1C))
  | .fadd d a b m => sr 0x1d d a b m.toNat
  | .fmul d a b m => sr 0x1e d a b m.toNat
  | .fcvt d a k m => sr 0x1F d a 0 (k.toNat * 4 + m.toNat)
  | .addi d a i => put 0 (i.toNat) (put 16 (a.toNat) (put 21 (d.toNat) (op 0x20)))
  | .andi d a i => put 0 (i.toNat) (put 16 (a.toNat) (put 21 (d.toNat) (op 0x21)))
  | .ori d a i => put 0 (i.toNat) (put 16 (a.toNat) (put 21 (d.toNat) (op 0x22)))
  | .xori d a i => put 0 (i.toNat) (put 16 (a.toNat) (put 21 (d.toNat) (op 0x23)))
  | .movh d a i => put 0 (i.toNat) (put 16 (a.toNat) (put 21 (d.toNat) (op 0x25)))
  | .movi d i => put 0 (i.toNat) (put 21 (d.toNat) (op 0x24))
  | .lix d long _ _ => put 0 (long.toNat) (put 21 (d.toNat) (op 0x26))
  | .cmpeq p a b => put 11 (b.toNat) (put 16 (a.toNat) (put 22 (p.toNat) (op 0x28)))
  | .cmpeqImm p a i => put 0 (i.toNat) (put 10 1 (put 16 (a.toNat) (put 22 (p.toNat) (op 0x28))))
  | .cmpne p a b => put 11 (b.toNat) (put 16 (a.toNat) (put 22 (p.toNat) (op 0x29)))
  | .cmpneImm p a i => put 0 (i.toNat) (put 10 1 (put 16 (a.toNat) (put 22 (p.toNat) (op 0x29))))
  | .cmplt p a b => put 11 (b.toNat) (put 16 (a.toNat) (put 22 (p.toNat) (op 0x2a)))
  | .cmpltImm p a i => put 0 (i.toNat) (put 10 1 (put 16 (a.toNat) (put 22 (p.toNat) (op 0x2a))))
  | .cmple p a b => put 11 (b.toNat) (put 16 (a.toNat) (put 22 (p.toNat) (op 0x2b)))
  | .cmpleImm p a i => put 0 (i.toNat) (put 10 1 (put 16 (a.toNat) (put 22 (p.toNat) (op 0x2b))))
  | .cmpltu p a b => put 11 (b.toNat) (put 16 (a.toNat) (put 22 (p.toNat) (op 0x2c)))
  | .cmpltuImm p a i => put 0 (i.toNat) (put 10 1 (put 16 (a.toNat) (put 22 (p.toNat) (op 0x2c))))
  | .cmpleu p a b => put 11 (b.toNat) (put 16 (a.toNat) (put 22 (p.toNat) (op 0x2d)))
  | .cmpleuImm p a i => put 0 (i.toNat) (put 10 1 (put 16 (a.toNat) (put 22 (p.toNat) (op 0x2d))))
  | .fcmp p a b r => put 0 (r.toNat) (put 11 (b.toNat) (put 16 (a.toNat) (put 22 (p.toNat) (op 0x2E))))
  | .pand p x a y b => put 11 (b.toNat) (put 15 (y.toNat) (put 16 (a.toNat) (put 20 (x.toNat) (put 22 (p.toNat) (op 0x30)))))
  | .por p x a y b => put 11 (b.toNat) (put 15 (y.toNat) (put 16 (a.toNat) (put 20 (x.toNat) (put 22 (p.toNat) (op 0x31)))))
  | .pxor p x a y b => put 11 (b.toNat) (put 15 (y.toNat) (put 16 (a.toNat) (put 20 (x.toNat) (put 22 (p.toNat) (op 0x32)))))
  | .ld d a o => put 0 (o.toNat) (put 16 (a.toNat) (put 21 (d.toNat) (op 1)))
  | .st v a o => put 0 (o.toNat) (put 16 (a.toNat) (put 21 (v.toNat) (op 2)))
  | .ldacq d a s o => put 0 (o.toNat) (put 13 (s.code) (put 16 (a.toNat) (put 21 (d.toNat) (op 3))))
  | .strel d a s o => put 0 (o.toNat) (put 13 (s.code) (put 16 (a.toNat) (put 21 (d.toNat) (op 4))))
  | .pf h a o => put 0 (o.toNat) (put 16 (a.toNat) (put 21 (h.toNat) (op 5)))
  | .mark => op 6
  | .fence s k => put 21 (k.toNat) (put 23 (s.code) (op 7))
  | .amoadd d a b s o => put 6 (o.toNat) (put 8 (s.code) (put 11 (b.toNat) (put 16 (a.toNat) (put 21 (d.toNat) (op 8)))))
  | .amoand d a b s o => put 6 (o.toNat) (put 8 (s.code) (put 11 (b.toNat) (put 16 (a.toNat) (put 21 (d.toNat) (op 9)))))
  | .amoor d a b s o => put 6 (o.toNat) (put 8 (s.code) (put 11 (b.toNat) (put 16 (a.toNat) (put 21 (d.toNat) (op 10)))))
  | .amoxor d a b s o => put 6 (o.toNat) (put 8 (s.code) (put 11 (b.toNat) (put 16 (a.toNat) (put 21 (d.toNat) (op 11)))))
  | .amomin d a b s o u => put 5 (u.toNat) (put 6 (o.toNat) (put 8 (s.code) (put 11 (b.toNat) (put 16 (a.toNat) (put 21 (d.toNat) (op 12))))))
  | .amomax d a b s o u => put 5 (u.toNat) (put 6 (o.toNat) (put 8 (s.code) (put 11 (b.toNat) (put 16 (a.toNat) (put 21 (d.toNat) (op 13))))))
  | .amoswap d a b s o => put 6 (o.toNat) (put 8 (s.code) (put 11 (b.toNat) (put 16 (a.toNat) (put 21 (d.toNat) (op 14)))))
  | .amocas d a b s o => put 6 (o.toNat) (put 8 (s.code) (put 11 (b.toNat) (put 16 (a.toNat) (put 21 (d.toNat) (op 15)))))
  | .stld n a o => put 0 (o.toNat) (put 16 (a.toNat) (put 21 (n.toNat) (op 0x10)))
  | .stset n a s => put 13 (s.toNat) (put 16 (a.toNat) (put 21 (n.toNat) (op 0x11)))
  | .stget d n s => put 13 (s.toNat) (put 16 (n.toNat) (put 21 (d.toNat) (op 0x12)))
  | .stadv n a => put 16 (a.toNat) (put 21 (n.toNat) (op 0x13))
  | .l1inv => op 0x14
  | .vld f => put 0 (f.bits) (op 0x18)
  | .vst f => put 0 (f.bits) (op 0x19)
  | .vldb f => put 0 (f.bits) (op 0x1a)
  | .vpf f => put 0 (f.bits) (op 0x1b)
  | .vscat f => put 0 (f.bits) (op 0x1c)
  | .vscadd f => put 0 (f.bits) (op 0x1d)
  | .vscmax f => put 0 (f.bits) (op 0x1e)
  | .vredst f => put 0 (f.bits) (op 0x1f)
  | .vadd f => put 0 (f.bits) (op 0x1)
  | .vsub f => put 0 (f.bits) (op 0x2)
  | .vmul f => put 0 (f.bits) (op 0x3)
  | .vfma f => put 0 (f.bits) (op 0x4)
  | .vfms f => put 0 (f.bits) (op 0x5)
  | .vfnma f => put 0 (f.bits) (op 0x6)
  | .vmulh f => put 0 (f.bits) (op 0x7)
  | .vmin f => put 0 (f.bits) (op 0x8)
  | .vmax f => put 0 (f.bits) (op 0x9)
  | .vabs f => put 0 (f.bits) (op 0xa)
  | .vneg f => put 0 (f.bits) (op 0xb)
  | .vclamp f => put 0 (f.bits) (op 0xc)
  | .vrnd f => put 0 (f.bits) (op 0xd)
  | .vand f => put 0 (f.bits) (op 0xe)
  | .vor f => put 0 (f.bits) (op 0xf)
  | .vxor f => put 0 (f.bits) (op 0x10)
  | .vnot f => put 0 (f.bits) (op 0x11)
  | .vsll f => put 0 (f.bits) (op 0x12)
  | .vsrl f => put 0 (f.bits) (op 0x13)
  | .vsra f => put 0 (f.bits) (op 0x14)
  | .vcmpeq f => put 0 (f.bits) (op 0x15)
  | .vcmpne f => put 0 (f.bits) (op 0x16)
  | .vcmplt f => put 0 (f.bits) (op 0x17)
  | .vcmple f => put 0 (f.bits) (op 0x18)
  | .vclass f => put 0 (f.bits) (op 0x19)
  | .vsel f => put 0 (f.bits) (op 0x1a)
  | .vmov f => put 0 (f.bits) (op 0x1b)
  | .vbcast f => put 0 (f.bits) (op 0x1c)
  | .vins f => put 0 (f.bits) (op 0x1d)
  | .vext f => put 0 (f.bits) (op 0x1e)
  | .vgath f => put 0 (f.bits) (op 0x1f)
  | .vcvt f => put 0 (f.bits) (op 0x20)
  | .vcvt8 f => put 0 (f.bits) (op 0x21)
  | .vquant f => put 0 (f.bits) (op 0x22)
  | .vdequant f => put 0 (f.bits) (op 0x23)
  | .vpack f => put 0 (f.bits) (op 0x24)
  | .vunpk f => put 0 (f.bits) (op 0x25)
  | .vshuf f => put 0 (f.bits) (op 0x28)
  | .vrotm f => put 0 (f.bits) (op 0x29)
  | .vzip f => put 0 (f.bits) (op 0x2a)
  | .vuzp f => put 0 (f.bits) (op 0x2b)
  | .vrev f => put 0 (f.bits) (op 0x2c)
  | .vslide f => put 0 (f.bits) (op 0x2d)
  | .vpark f => put 0 (f.bits) (op 0x2e)
  | .vunpark f => put 0 (f.bits) (op 0x2f)
  | .vexp2 f => put 0 (f.bits) (op 0x30)
  | .vlog2 f => put 0 (f.bits) (op 0x31)
  | .vrcp f => put 0 (f.bits) (op 0x32)
  | .vrsqrt f => put 0 (f.bits) (op 0x33)
  | .vsin f => put 0 (f.bits) (op 0x34)
  | .vcos f => put 0 (f.bits) (op 0x35)
  | .vtanh f => put 0 (f.bits) (op 0x36)
  | .vqraw f => put 0 (f.bits) (op 0x38)
  | .vunif f => put 0 (f.bits) (op 0x39)
  | .vnorm f => put 0 (f.bits) (op 0x3a)
  | .vcat f => put 0 (f.bits) (op 0x3b)
  | .vtopk f => put 0 (f.bits) (op 0x3c)
  | .vtemp f => put 0 (f.bits) (op 0x3d)
  | .rsum f => put 0 (f.bits) (op 0x1)
  | .rmax f => put 0 (f.bits) (op 0x2)
  | .rmin f => put 0 (f.bits) (op 0x3)
  | .rsumsq f => put 0 (f.bits) (op 0x4)
  | .rmov f => put 0 (f.bits) (op 0x5)
  | .rclr f => put 0 (f.bits) (op 0x6)
  | .mld f => put 0 (f.bits) (op 0x1)
  | .mldu f => put 0 (f.bits) (op 0x2)
  | .mldv f => put 0 (f.bits) (op 0x3)
  | .mst f => put 0 (f.bits) (op 0x4)
  | .mstu f => put 0 (f.bits) (op 0x5)
  | .mstv f => put 0 (f.bits) (op 0x6)
  | .mmov f => put 0 (f.bits) (op 0x7)
  | .mmac f => put 0 (f.bits) (op 0x8)
  | .mmacs f => put 0 (f.bits) (op 0x9)
  | .mmacr f => put 0 (f.bits) (op 0xa)
  | .mmacm f => put 0 (f.bits) (op 0xb)
  | .mmul f => put 0 (f.bits) (op 0x10)
  | .madd f => put 0 (f.bits) (op 0x11)
  | .msub f => put 0 (f.bits) (op 0x12)
  | .mscale f => put 0 (f.bits) (op 0x13)
  | .mtr f => put 0 (f.bits) (op 0x14)
  | .recomp f => put 0 (f.bits) (op 0x18)
  | .densify f => put 0 (f.bits) (op 0x19)
  | .mfree f => put 0 (f.bits) (op 0x1b)
  | .macrd f => put 0 (f.bits) (op 0x1c)
  | .macwr f => put 0 (f.bits) (op 0x1d)
  | .accld f => put 0 (f.bits) (op 0x1)
  | .accwr f => put 0 (f.bits) (op 0x2)
  | .accadd f => put 0 (f.bits) (op 0x3)
  | .accst f => put 0 (f.bits) (op 0x4)
  | .accqst f => put 0 (f.bits) (op 0x5)
  | .accclr f => put 0 (f.bits) (op 0x6)
  | .accmv f => put 0 (f.bits) (op 0x7)
  | .accscl f => put 0 (f.bits) (op 0x8)
  | .mctl d l x => put 14 (x.toNat) (put 15 (l.toNat) (put 22 (d.toNat) (op 0x1A)))
  | .ecopy f => put 12 (f.bar.toNat) (put 18 (f.ring.toNat) (put 19 (f.wmem.toNat) (put 20 (f.out.toNat) (put 21 (f.a.toNat) (op 1)))))
  | .own s b f c => put 9 (c.toNat) (put 16 (f.toNat) (put 23 (b.toNat) (put 24 (s.toNat) (op 2))))
  | .rset n b f c d => put 7 (d.toNat) (put 8 (c.toNat) (put 15 (f.toNat) (put 22 (b.toNat) (put 23 (n.toNat) (op 3)))))
  | .rwait h k n l => put 9 (l.toNat) (put 14 (n.toNat) (put 22 (k.toNat) (put 23 (h.toNat) (op 4))))
  | .radv h i n => put 14 (n.toNat) (put 22 (i.toNat) (put 23 (h.toNat) (op 5)))
  | .barr n r d => put 14 (d.toNat) (put 19 (r.toNat) (put 20 (n.toNat) (op 8)))
  | .bwait n l c => put 9 (c.toNat) (put 15 (l.toNat) (put 20 (n.toNat) (op 9)))
  | .bwaitImm n l c => put 6 (c.toNat) (put 14 1 (put 15 (l.toNat) (put 20 (n.toNat) (op 9))))
  | .breset n => put 20 (n.toNat) (op 10)
  | .balloc p n => put 16 (n.toNat) (put 22 (p.toNat) (op 11))
  | .bfree n => put 20 (n.toNat) (op 12)
  | .hxch n f b => put 9 (b.toNat) (put 15 (f.toNat) (put 21 (n.toNat) (op 0x10)))
  | .reshard e v b => put 12 (b.toNat) (put 18 (v.toNat) (put 22 (e.toNat) (op 0x11)))
  | .rsload v a => put 17 (a.toNat) (put 22 (v.toNat) (op 0x12))
  | .coll a b => put 15 (b.toNat) (put 21 (a.toNat) (op 0x13))
  | .edisp a b => put 15 (b.toNat) (put 21 (a.toNat) (op 0x14))
  | .ecomb a b => put 15 (b.toNat) (put 21 (a.toNat) (op 0x15))
  | .put a b => put 15 (b.toNat) (put 21 (a.toNat) (op 0x16))
  | .get a b => put 15 (b.toNat) (put 21 (a.toNat) (op 0x17))
  | .spawn f => put 6 (f.stage.toNat) (put 9 (f.raise.toNat) (put 10 (f.remote.toNat) (put 11 (f.g.toNat) (put 16 (f.d.toNat) (put 21 (f.a.toNat) (op 0x18))))))
  | .yield => op 0x19
  | .done j => put 25 (j.toNat) (op 0x1A)
  | .jraise a => put 21 (a.toNat) (op 0x1B)
  | .cpost a b s j => put 12 (j.toNat) (put 13 (s.code) (put 16 (b.toNat) (put 21 (a.toNat) (op 0x1C))))
  | .slice b y _ _ => put 20 (y.toNat) (put 21 (b.toNat) (op 0x1D))
  | .trap a => put 21 (a.toNat) (op 0x1E)
  | .brk => op 0x1F
  | .tsub n a b p => put 8 (p.toNat) (put 12 (b.toNat) (put 18 (a.toNat) (put 23 (n.toNat) (op 0x20))))
  | .rverd v => put 24 (v.toNat) (op 0x21)
  | .tlog a b => put 16 (b.toNat) (put 21 (a.toNat) (op 0x22))
  | .tsload n a p => put 14 (p.toNat) (put 18 (a.toNat) (put 23 (n.toNat) (op 0x23)))
  | .tsstat d n g s => put 12 (s.toNat) (put 15 (g.toNat) (put 18 (n.toNat) (put 21 (d.toNat) (op 0x24))))
  | .sqset n a => put 18 (a.toNat) (put 23 (n.toNat) (op 0x28))
  | .sqapp n d c => put 10 (c.toNat) (put 18 (d.toNat) (put 23 (n.toNat) (op 0x29)))
  | .sqacc n a => put 18 (a.toNat) (put 23 (n.toNat) (op 0x2A))
  | .sqrej n => put 23 (n.toNat) (op 0x2B)
  | .lyrd d e s => put 14 (s.toNat) (put 17 (e.toNat) (put 21 (d.toNat) (op 0x2C)))
  | .lywr e a s => put 14 (s.toNat) (put 17 (a.toNat) (put 22 (e.toNat) (op 0x2D)))
  | .tlbinv k a b => put 14 (b.toNat) (put 19 (a.toNat) (put 24 (k.toNat) (op 0x30)))
  | .aclwr a b => put 16 (b.toNat) (put 21 (a.toNat) (op 0x31))
  | .ckpt a b => put 15 (b.toNat) (put 21 (a.toNat) (op 0x32))
  | _ => 0

/-- The extension words of a form (R111). -/
def encodeExt : Instr → List Nat
  | .lix _ long lo hi => if long then [lo.toNat, hi.toNat] else [lo.toNat]
  | .ecopy f => [f.row.toNat * 2 ^ 17 + f.rows.toNat * 2 ^ 3 + f.h.toNat, f.stride.toNat]
  | .spawn f => [f.entry.toNat]
  | .slice _ _ lo hi => [lo.toNat, hi.toNat]
  | _ => []

/-- Why a slot word is refused (R85). -/
inductive Bad where
  | opcode
  | reserved
deriving DecidableEq, Repr

/-- Scalar class (R104). -/
def rawScalar (w : Nat) (ext : List Nat) : Except Bad Instr :=
  let d := fld w 21 5
  let a := fld w 16 5
  let b := fld w 11 5
  let p := fld w 22 4
  match w / 2 ^ 26 with
  | 0x0 => .ok .nop
  | 0x1 => .ok (.add d a b)
  | 0x2 => .ok (.sub d a b)
  | 0x3 => .ok (.mul d a b)
  | 0x4 => match MulhKind.ofCode (w % 4) with
    | some f => .ok (.mulh d a b f)
    | none => .error .reserved
  | 0x5 => .ok (.div d a b (bit w 0))
  | 0x6 => .ok (.rem d a b (bit w 0))
  | 0x7 => .ok (.and d a b)
  | 0x8 => .ok (.or d a b)
  | 0x9 => .ok (.xor d a b)
  | 0xa => .ok (.sll d a b)
  | 0xb => .ok (.srl d a b)
  | 0xc => .ok (.sra d a b)
  | 0xd => .ok (.slli d a (fld w 0 6))
  | 0xe => .ok (.srli d a (fld w 0 6))
  | 0xf => .ok (.srai d a (fld w 0 6))
  | 0x10 => .ok (.min d a b (bit w 0))
  | 0x11 => .ok (.max d a b (bit w 0))
  | 0x12 => .ok (.clz d a)
  | 0x13 => .ok (.ctz d a)
  | 0x14 => .ok (.popc d a)
  | 0x15 => .ok (.bext d a (fld w 10 6) (fld w 4 6) (bit w 0))
  | 0x16 => .ok (.bins d a (fld w 10 6) (fld w 4 6))
  | 0x17 => .ok (.sel d a b (bit w 4) (fld w 0 4))
  | 0x18 => .ok (.addsh d a b (fld w 0 3))
  | 0x19 => .ok (.kset (fld w 21 3) a (bit w 0))
  | 0x1a => .ok (.kget d (fld w 16 3) (bit w 0))
  | 0x1b => .ok (.crrd d (fld w 0 8))
  | 0x1c => .ok (.crwr a (fld w 0 8))
  | 0x1d => .ok (.fadd d a b (fld w 0 2))
  | 0x1e => .ok (.fmul d a b (fld w 0 2))
  | 0x1f => .ok (.fcvt d a (fld w 2 3) (fld w 0 2))
  | 0x20 => .ok (.addi d a (fld w 0 16))
  | 0x21 => .ok (.andi d a (fld w 0 16))
  | 0x22 => .ok (.ori d a (fld w 0 16))
  | 0x23 => .ok (.xori d a (fld w 0 16))
  | 0x24 => .ok (.movi d (fld w 0 16))
  | 0x25 => .ok (.movh d a (fld w 0 16))
  | 0x26 => .ok (.lix d (bit w 0) (extWord ext 0) (if bit w 0 then extWord ext 1 else 0))
  | 0x28 => .ok (if bit w 10 then .cmpeqImm p a (fld w 0 10) else .cmpeq p a b)
  | 0x29 => .ok (if bit w 10 then .cmpneImm p a (fld w 0 10) else .cmpne p a b)
  | 0x2a => .ok (if bit w 10 then .cmpltImm p a (fld w 0 10) else .cmplt p a b)
  | 0x2b => .ok (if bit w 10 then .cmpleImm p a (fld w 0 10) else .cmple p a b)
  | 0x2c => .ok (if bit w 10 then .cmpltuImm p a (fld w 0 10) else .cmpltu p a b)
  | 0x2d => .ok (if bit w 10 then .cmpleuImm p a (fld w 0 10) else .cmpleu p a b)
  | 0x2e => .ok (.fcmp p a b (fld w 0 2))
  | 0x30 => .ok (.pand p (bit w 20) (fld w 16 4) (bit w 15) (fld w 11 4))
  | 0x31 => .ok (.por p (bit w 20) (fld w 16 4) (bit w 15) (fld w 11 4))
  | 0x32 => .ok (.pxor p (bit w 20) (fld w 16 4) (bit w 15) (fld w 11 4))
  | _ => .error .opcode

/-- The fields of an LS vector form. -/
def readLF (w : Nat) : Option LF :=
  match Width.ofCode (w / 2 ^ 14 % 4), etyOf (w / 2 ^ 8 % 8) with
  | some wd, some t => some { v := fld w 21 5, st := fld w 16 5, w := wd, k := fld w 11 3, t := t, form := fld w 0 8 }
  | _, _ => none
/-- The fields of a vector form. -/
def readVF (w : Nat) : Option VF :=
  match Width.ofCode (w / 2 ^ 24 % 4), etyOf (w / 2 ^ 21 % 8) with
  | some wd, some t => some { w := wd, t := t, d := fld w 16 5, a := fld w 11 5, b := fld w 6 5, sb := bit w 5, k := fld w 2 3, md := fld w 0 2 }
  | _, _ => none
/-- The fields of a reduction form. -/
def readRF (w : Nat) : Option RF :=
  match Width.ofCode (w / 2 ^ 24 % 4) with
  | some wd => some { w := wd, latch := fld w 22 2, va := fld w 17 5, sa := bit w 16, k := fld w 13 3, mode := fld w 11 2 }
  | none => none
/-- The fields of a matrix form. -/
def readMF (w : Nat) : MF := { md := fld w 22 4, ma := fld w 18 4, mb := fld w 14 4, bank := fld w 10 4, fmt := fld w 5 5, mods := fld w 0 5 }
/-- The fields of an accumulator port form. -/
def readAF (w : Nat) : AF := { bank := fld w 22 4, stream := fld w 17 5, vreg := fld w 12 5, x := fld w 8 4, hist := bit w 7, mods := fld w 0 7 }

/-- Load/store class (R105). -/
def rawLs (w : Nat) : Except Bad Instr :=
  let d := fld w 21 5
  let a := fld w 16 5
  match w / 2 ^ 26 with
  | 0x0 => .ok .idle
  | 0x1 => .ok (.ld d a (fld w 0 16))
  | 0x2 => .ok (.st d a (fld w 0 16))
  | 0x3 => match Scope.ofCode (w / 2 ^ 13 % 8) with
    | some s => .ok (.ldacq d a s (fld w 0 13))
    | none => .error .reserved
  | 0x4 => match Scope.ofCode (w / 2 ^ 13 % 8) with
    | some s => .ok (.strel d a s (fld w 0 13))
    | none => .error .reserved
  | 0x5 => .ok (.pf (bit w 21) a (fld w 0 16))
  | 0x6 => .ok .mark
  | 0x7 => match Scope.ofCode (w / 2 ^ 23 % 8) with
    | some s => .ok (.fence s (fld w 21 2))
    | none => .error .reserved
  | 0x8 => match Scope.ofCode (w / 2 ^ 8 % 8) with
    | some s => .ok (.amoadd d a (fld w 11 5) s (fld w 6 2))
    | none => .error .reserved
  | 0x9 => match Scope.ofCode (w / 2 ^ 8 % 8) with
    | some s => .ok (.amoand d a (fld w 11 5) s (fld w 6 2))
    | none => .error .reserved
  | 0xa => match Scope.ofCode (w / 2 ^ 8 % 8) with
    | some s => .ok (.amoor d a (fld w 11 5) s (fld w 6 2))
    | none => .error .reserved
  | 0xb => match Scope.ofCode (w / 2 ^ 8 % 8) with
    | some s => .ok (.amoxor d a (fld w 11 5) s (fld w 6 2))
    | none => .error .reserved
  | 0xc => match Scope.ofCode (w / 2 ^ 8 % 8) with
    | some s => .ok (.amomin d a (fld w 11 5) s (fld w 6 2) (bit w 5))
    | none => .error .reserved
  | 0xd => match Scope.ofCode (w / 2 ^ 8 % 8) with
    | some s => .ok (.amomax d a (fld w 11 5) s (fld w 6 2) (bit w 5))
    | none => .error .reserved
  | 0xe => match Scope.ofCode (w / 2 ^ 8 % 8) with
    | some s => .ok (.amoswap d a (fld w 11 5) s (fld w 6 2))
    | none => .error .reserved
  | 0xf => match Scope.ofCode (w / 2 ^ 8 % 8) with
    | some s => .ok (.amocas d a (fld w 11 5) s (fld w 6 2))
    | none => .error .reserved
  | 0x10 => .ok (.stld d a (fld w 0 16))
  | 0x11 => .ok (.stset d a (fld w 13 3))
  | 0x12 => .ok (.stget d a (fld w 13 3))
  | 0x13 => .ok (.stadv d a)
  | 0x14 => .ok .l1inv
  | o =>
    if 0x18 ≤ o ∧ o ≤ 0x1F then
      match readLF w with
      | none => .error .reserved
      | some f =>
        match o with
        | 0x18 => .ok (.vld f)
        | 0x19 => .ok (.vst f)
        | 0x1a => .ok (.vldb f)
        | 0x1b => .ok (.vpf f)
        | 0x1c => .ok (.vscat f)
        | 0x1d => .ok (.vscadd f)
        | 0x1e => .ok (.vscmax f)
        | _ => .ok (.vredst f)
    else .error .opcode

/-- Constructor of a vector opcode (R106). -/
def vecForm (o : Nat) (f : VF) : Option Instr :=
  match o with
  | 0x1 => some (.vadd f)
  | 0x2 => some (.vsub f)
  | 0x3 => some (.vmul f)
  | 0x4 => some (.vfma f)
  | 0x5 => some (.vfms f)
  | 0x6 => some (.vfnma f)
  | 0x7 => some (.vmulh f)
  | 0x8 => some (.vmin f)
  | 0x9 => some (.vmax f)
  | 0xa => some (.vabs f)
  | 0xb => some (.vneg f)
  | 0xc => some (.vclamp f)
  | 0xd => some (.vrnd f)
  | 0xe => some (.vand f)
  | 0xf => some (.vor f)
  | 0x10 => some (.vxor f)
  | 0x11 => some (.vnot f)
  | 0x12 => some (.vsll f)
  | 0x13 => some (.vsrl f)
  | 0x14 => some (.vsra f)
  | 0x15 => some (.vcmpeq f)
  | 0x16 => some (.vcmpne f)
  | 0x17 => some (.vcmplt f)
  | 0x18 => some (.vcmple f)
  | 0x19 => some (.vclass f)
  | 0x1a => some (.vsel f)
  | 0x1b => some (.vmov f)
  | 0x1c => some (.vbcast f)
  | 0x1d => some (.vins f)
  | 0x1e => some (.vext f)
  | 0x1f => some (.vgath f)
  | 0x20 => some (.vcvt f)
  | 0x21 => some (.vcvt8 f)
  | 0x22 => some (.vquant f)
  | 0x23 => some (.vdequant f)
  | 0x24 => some (.vpack f)
  | 0x25 => some (.vunpk f)
  | 0x28 => some (.vshuf f)
  | 0x29 => some (.vrotm f)
  | 0x2a => some (.vzip f)
  | 0x2b => some (.vuzp f)
  | 0x2c => some (.vrev f)
  | 0x2d => some (.vslide f)
  | 0x2e => some (.vpark f)
  | 0x2f => some (.vunpark f)
  | 0x30 => some (.vexp2 f)
  | 0x31 => some (.vlog2 f)
  | 0x32 => some (.vrcp f)
  | 0x33 => some (.vrsqrt f)
  | 0x34 => some (.vsin f)
  | 0x35 => some (.vcos f)
  | 0x36 => some (.vtanh f)
  | 0x38 => some (.vqraw f)
  | 0x39 => some (.vunif f)
  | 0x3a => some (.vnorm f)
  | 0x3b => some (.vcat f)
  | 0x3c => some (.vtopk f)
  | 0x3d => some (.vtemp f)
  | _ => none
/-- Vector class (R106). -/
def rawVec (w : Nat) : Except Bad Instr :=
  if w / 2 ^ 26 = 0 then .ok .idle
  else
    match readVF w with
    | none => .error .reserved
    | some f =>
      match vecForm (w / 2 ^ 26) f with
      | some i => .ok i
      | none => .error .opcode

/-- Constructor of a reduction opcode (R107). -/
def redForm (o : Nat) (f : RF) : Option Instr :=
  match o with
  | 0x1 => some (.rsum f)
  | 0x2 => some (.rmax f)
  | 0x3 => some (.rmin f)
  | 0x4 => some (.rsumsq f)
  | 0x5 => some (.rmov f)
  | 0x6 => some (.rclr f)
  | _ => none
/-- Reduction class (R107). -/
def rawRed (w : Nat) : Except Bad Instr :=
  if w / 2 ^ 26 = 0 then .ok .idle
  else
    match readRF w with
    | none => .error .reserved
    | some f =>
      match redForm (w / 2 ^ 26) f with
      | some i => .ok i
      | none => .error .opcode

/-- Matrix class (R108, R194). -/
def rawMx (w : Nat) : Except Bad Instr :=
  let f := readMF w
  match w / 2 ^ 26 with
  | 0x0 => .ok .idle
  | 0x1 => .ok (.mld f)
  | 0x2 => .ok (.mldu f)
  | 0x3 => .ok (.mldv f)
  | 0x4 => .ok (.mst f)
  | 0x5 => .ok (.mstu f)
  | 0x6 => .ok (.mstv f)
  | 0x7 => .ok (.mmov f)
  | 0x8 => .ok (.mmac f)
  | 0x9 => .ok (.mmacs f)
  | 0xa => .ok (.mmacr f)
  | 0xb => .ok (.mmacm f)
  | 0x10 => .ok (.mmul f)
  | 0x11 => .ok (.madd f)
  | 0x12 => .ok (.msub f)
  | 0x13 => .ok (.mscale f)
  | 0x14 => .ok (.mtr f)
  | 0x18 => .ok (.recomp f)
  | 0x19 => .ok (.densify f)
  | 0x1b => .ok (.mfree f)
  | 0x1c => .ok (.macrd f)
  | 0x1d => .ok (.macwr f)
  | 0x1A => .ok (.mctl (fld w 22 4) (fld w 15 7) (bit w 14))
  | _ => .error .opcode

/-- Accumulator port class (R109, R217). -/
def rawAp (w : Nat) : Except Bad Instr :=
  let f := readAF w
  match w / 2 ^ 26 with
  | 0x0 => .ok .idle
  | 0x1 => .ok (.accld f)
  | 0x2 => .ok (.accwr f)
  | 0x3 => .ok (.accadd f)
  | 0x4 => .ok (.accst f)
  | 0x5 => .ok (.accqst f)
  | 0x6 => .ok (.accclr f)
  | 0x7 => .ok (.accmv f)
  | 0x8 => .ok (.accscl f)
  | _ => .error .opcode

/-- Engine and control class (R110). -/
def rawEc (w : Nat) (ext : List Nat) : Except Bad Instr :=
  match w / 2 ^ 26 with
  | 0x0 => .ok .nop
  | 0x1 => .ok (.ecopy { a := fld w 21 5, out := bit w 20, wmem := bit w 19, ring := bit w 18, bar := fld w 12 6, row := fld (extNat ext 0) 17 13, rows := fld (extNat ext 0) 3 14, h := fld (extNat ext 0) 0 3, stride := extWord ext 1 })
  | 0x2 => .ok (.own (fld w 24 2) (bit w 23) (fld w 16 7) (fld w 9 7))
  | 0x3 => .ok (.rset (fld w 23 3) (bit w 22) (fld w 15 7) (fld w 8 7) (bit w 7))
  | 0x4 => .ok (.rwait (fld w 23 3) (bit w 22) (fld w 14 8) (fld w 9 5))
  | 0x5 => .ok (.radv (fld w 23 3) (bit w 22) (fld w 14 8))
  | 0x8 => .ok (.barr (fld w 20 6) (bit w 19) (fld w 14 5))
  | 0x9 => .ok (if bit w 14 then .bwaitImm (fld w 20 6) (fld w 15 5) (fld w 6 8) else .bwait (fld w 20 6) (fld w 15 5) (fld w 9 5))
  | 0xa => .ok (.breset (fld w 20 6))
  | 0xb => .ok (.balloc (fld w 22 4) (fld w 16 6))
  | 0xc => .ok (.bfree (fld w 20 6))
  | 0x10 => .ok (.hxch (fld w 21 5) (fld w 15 6) (fld w 9 6))
  | 0x11 => .ok (.reshard (fld w 22 4) (fld w 18 4) (fld w 12 6))
  | 0x12 => .ok (.rsload (fld w 22 4) (fld w 17 5))
  | 0x13 => .ok (.coll (fld w 21 5) (fld w 15 6))
  | 0x14 => .ok (.edisp (fld w 21 5) (fld w 15 6))
  | 0x15 => .ok (.ecomb (fld w 21 5) (fld w 15 6))
  | 0x16 => .ok (.put (fld w 21 5) (fld w 15 6))
  | 0x17 => .ok (.get (fld w 21 5) (fld w 15 6))
  | 0x18 => .ok (.spawn { a := fld w 21 5, d := fld w 16 5, g := fld w 11 5, remote := bit w 10, raise := bit w 9, stage := fld w 6 3, entry := extWord ext 0 })
  | 0x19 => .ok .yield
  | 0x1a => .ok (.done (bit w 25))
  | 0x1b => .ok (.jraise (fld w 21 5))
  | 0x1c => match Scope.ofCode (w / 2 ^ 13 % 8) with
    | some s => .ok (.cpost (fld w 21 5) (fld w 16 5) s (bit w 12))
    | none => .error .reserved
  | 0x1d => .ok (.slice (fld w 21 5) (bit w 20) (extWord ext 0) (extWord ext 1))
  | 0x1e => .ok (.trap (fld w 21 5))
  | 0x1f => .ok .brk
  | 0x20 => .ok (.tsub (fld w 23 3) (fld w 18 5) (fld w 12 6) (fld w 8 4))
  | 0x21 => .ok (.rverd (fld w 24 2))
  | 0x22 => .ok (.tlog (fld w 21 5) (fld w 16 5))
  | 0x23 => .ok (.tsload (fld w 23 3) (fld w 18 5) (fld w 14 4))
  | 0x24 => .ok (.tsstat (fld w 21 5) (fld w 18 3) (fld w 15 3) (fld w 12 3))
  | 0x28 => .ok (.sqset (fld w 23 3) (fld w 18 5))
  | 0x29 => .ok (.sqapp (fld w 23 3) (fld w 18 5) (fld w 10 8))
  | 0x2a => .ok (.sqacc (fld w 23 3) (fld w 18 5))
  | 0x2b => .ok (.sqrej (fld w 23 3))
  | 0x2c => .ok (.lyrd (fld w 21 5) (fld w 17 4) (fld w 14 3))
  | 0x2d => .ok (.lywr (fld w 22 4) (fld w 17 5) (fld w 14 3))
  | 0x30 => .ok (.tlbinv (fld w 24 2) (fld w 19 5) (fld w 14 5))
  | 0x31 => .ok (.aclwr (fld w 21 5) (fld w 16 5))
  | 0x32 => .ok (.ckpt (fld w 21 5) (fld w 15 6))
  | _ => .error .opcode

/-- The reading of a word in its class, its reserved bits not yet judged. -/
def raw (c : Cls) (w : Nat) (ext : List Nat) : Except Bad Instr :=
  match c with
  | .scalar => rawScalar w ext
  | .ls => rawLs w
  | .vec => rawVec w
  | .red => rawRed w
  | .mx => rawMx w
  | .ap => rawAp w
  | .ec => rawEc w ext

/-- Codes assigned in each class: R113's counts are theirs. -/
def opAssigned (c : Cls) (o : Nat) : Bool :=
  match c with
  | .scalar => decide (o ≤ 0x26) || (decide (0x28 ≤ o) && decide (o ≤ 0x2E)) || (decide (0x30 ≤ o) && decide (o ≤ 0x32))
  | .ls => decide (o ≤ 0x14) || (decide (0x18 ≤ o) && decide (o ≤ 0x1F))
  | .vec => decide (o ≤ 0x25) || (decide (0x28 ≤ o) && decide (o ≤ 0x36)) || (decide (0x38 ≤ o) && decide (o ≤ 0x3D))
  | .red => decide (o ≤ 0x06)
  | .mx => decide (o ≤ 0x0B) || (decide (0x10 ≤ o) && decide (o ≤ 0x14)) || (decide (0x18 ≤ o) && decide (o ≤ 0x1D))
  | .ap => decide (o ≤ 0x08)
  | .ec => decide (o ≤ 0x05) || (decide (0x08 ≤ o) && decide (o ≤ 0x0C)) || (decide (0x10 ≤ o) && decide (o ≤ 0x24)) || (decide (0x28 ≤ o) && decide (o ≤ 0x2D)) || (decide (0x30 ≤ o) && decide (o ≤ 0x32))

/-- A word in its class: assigned opcode, every reserved bit zero (the reading encodes to the same words), operands the form accepts (R85, R101, R166). -/
def decodeSlot (c : Cls) (w : Nat) (ext : List Nat) : Except Bad Instr :=
  if opAssigned c (w / 2 ^ 26) then
    match raw c w ext with
    | .error e => .error e
    | .ok i => if encodeWord i = w ∧ encodeExt i = ext ∧ i.wf = true then .ok i else .error .reserved
  else .error .opcode

/-- Extension words a slot word requires (R74, R111). -/
def extCount (c : Cls) (w : Nat) : Nat :=
  match c, w / 2 ^ 26 with
  | .scalar, 0x26 => 1 + w % 2
  | .ec, 0x01 => 2
  | .ec, 0x18 => 1
  | .ec, 0x1D => 2
  | _, _ => 0
/-- Extension words that no form refuses: with them a slot word is judged by itself (R416). -/
def extPlain (c : Cls) (w : Nat) : List Nat :=
  match c, w / 2 ^ 26 with
  | .scalar, 0x26 => List.replicate (1 + w % 2) 0
  | .ec, 0x01 => [8, 0]
  | .ec, 0x18 => [0]
  | .ec, 0x1D => [0, 0]
  | _, _ => []

/-- Class of the slot with a PRESENT index (R72). -/
def slotCls (i : Nat) : Cls :=
  match i with
  | 0 | 1 => .scalar
  | 2 => .ls
  | 3 | 4 => .vec
  | 5 => .red
  | 6 => .mx
  | 7 | 8 => .ap
  | _ => .ec

/-! Branch trees. -/

/-- Tree word (R79) of KIND k. -/
def treeWord (k : Nat) (t : Tree) : Nat :=
  k * 2 ^ 30 + t.nt.toNat * 2 ^ 28 + t.t0.toNat * 2 ^ 23 + t.t1.toNat * 2 ^ 18 + t.t2.toNat * 2 ^ 13 + t.t3.toNat * 2 ^ 8
/-- The words of a tree: tree word, path word, target words (R71, R81, R82). -/
def treeWords (k : Nat) (t : Tree) : List Nat :=
  if t.full then [treeWord k t, t.path.toNat, t.e0.toNat + t.e1.toNat * 2 ^ 16, t.e2.toNat + t.e3.toNat * 2 ^ 16]
  else [treeWord k t, t.e0.toNat + t.e1.toNat * 2 ^ 16]
/-- The words of a branch-tree kind, and none for another instruction. -/
def encodeTree : Instr → List Nat
  | .br t => treeWords 0 t
  | .call t => treeWords 1 t
  | .brx t => treeWords 2 t
  | _ => []
/-- The fields of a tree from its words. -/
def readTree (full : Bool) (ws : List Nat) : Tree :=
  let w := ws.getD 0 0
  let p := if full then ws.getD 1 0 else 0
  let g1 := if full then ws.getD 2 0 else ws.getD 1 0
  let g2 := if full then ws.getD 3 0 else 0
  { full := full, nt := fld w 28 2, t0 := fld w 23 5, t1 := fld w 18 5, t2 := fld w 13 5, t3 := fld w 8 5, path := fld p 0 30,
    e0 := fld g1 0 16, e1 := fld g1 16 16, e2 := fld g2 0 16, e3 := fld g2 16 16 }
/-- A branch tree from its words; none where a field is reserved (R79, R81, R82, R112). -/
def decodeTree (full : Bool) (ws : List Nat) : Option Instr :=
  let t := readTree full ws
  let i := match ws.getD 0 0 / 2 ^ 30 % 4 with
    | 0 => some (Instr.br t)
    | 1 => some (.call t)
    | 2 => some (.brx t)
    | _ => none
  match i with
  | some i => if encodeTree i = ws ∧ i.wf = true then some i else none
  | none => none
/-- Path tag of a slot: 7 where there is no path word (R82). -/
def Tree.tag (t : Tree) (slot : Nat) : Nat := if t.full then t.path.toNat / 8 ^ slot % 8 else 7

/-! Bundles. -/

/-- Head word fields (R70). -/
def headTag (h : Nat) : Nat := h / 2 ^ 26
def headPresent (h i : Nat) : Bool := bit h (16 + i)
def headRep (h : Nat) : Nat := h / 2 ^ 10 % 64
def headBr (h : Nat) : Nat := h / 2 ^ 6 % 4
def headNimm (h : Nat) : Nat := h / 2 ^ 4 % 4
/-- PRESENT indices of the mentioned slots, ascending. -/
def presentSlots (h : Nat) : List Nat := (List.range 10).filter (headPresent h)
/-- Words of the tree part (R69). -/
def treeLen (h : Nat) : Nat :=
  match headBr h with
  | 1 => 2
  | 2 => 4
  | _ => 0
/-- Length of the bundle in words (R69). -/
def bundleLen (h : Nat) : Nat := 1 + (presentSlots h).length + treeLen h + headNimm h

/-- A decoded bundle: its mentioned slots by PRESENT index, its tree, and the head's modifiers. -/
structure Bundle where
  slots : List (Nat × Instr)
  tree : Option Instr
  rep : Nat
  drain : Bool
  safe : Bool
  len : Nat
deriving DecidableEq, Repr

/-- Subcodes of ILLEGAL_BUNDLE (R85). -/
def subHtag : Nat := 0x01
def subOpcode : Nat := 0x02
def subReserved : Nat := 0x03
def subBrRep : Nat := 0x04
def subWidth : Nat := 0x05
def subBank : Nat := 0x06

/-- The slot words with the extension words each takes, in PRESENT order (R74). -/
def withExt : List (Nat × Nat) → List Nat → List (Nat × Nat × List Nat)
  | [], _ => []
  | (i, w) :: r, ext =>
    let n := extCount (slotCls i) w
    (i, w, ext.take n) :: withExt r (ext.drop n)
/-- Decode each slot; the first slot at fault stops it. -/
def decodeSlots : List (Nat × Nat × List Nat) → Except Nat (List (Nat × Instr))
  | [] => .ok []
  | (i, w, ext) :: r =>
    match decodeSlot (slotCls i) w ext with
    | .error _ => .error i
    | .ok x =>
      match decodeSlots r with
      | .error j => .error j
      | .ok xs => .ok ((i, x) :: xs)
/-- Tags of a tree: absent slots hold 0b000 (R82). -/
def tagsOk (h : Nat) : Option Instr → Bool
  | some (.br t) | some (.call t) | some (.brx t) => !t.full || (List.range 10).all fun i => headPresent h i || t.tag i == 0
  | _ => true
/-- The words of a bundle, decoded under the checks of R85 that need no standing operation, in their order: an error is the subcode and the slot named (R100, R416). -/
def decodeBundle (ws : List Nat) : Except (Nat × Option Nat) Bundle :=
  let h := ws.getD 0 0
  let idx := presentSlots h
  let slotWs := (ws.drop 1).take idx.length
  let treeWs := (ws.drop (1 + idx.length)).take (treeLen h)
  let ext := (ws.drop (1 + idx.length + treeLen h)).take (headNimm h)
  let pairs := idx.zip slotWs
  if headTag h ≠ 0x35 then .error (subHtag, none)
  else
    match pairs.find? fun p => !opAssigned (slotCls p.1) (p.2 / 2 ^ 26) with
    | some p => .error (subOpcode, some p.1)
    | none =>
      let need := (pairs.map fun p => extCount (slotCls p.1) p.2).sum
      let nimmOk := need == headNimm h
      match decodeSlots (if nimmOk then withExt pairs ext else pairs.map fun p => (p.1, p.2, extPlain (slotCls p.1) p.2)) with
      | .error i => .error (subReserved, some i)
      | .ok slots =>
        let tree := if treeLen h = 0 then none else decodeTree (headBr h == 2) treeWs
        if !nimmOk || h % 16 ≠ 0 || headBr h == 3 || (treeLen h ≠ 0 && tree.isNone) || !tagsOk h tree then .error (subReserved, none)
        else if headBr h ≠ 0 ∧ headRep h ≠ 0 then .error (subBrRep, none)
        else .ok { slots := slots, tree := tree, rep := headRep h, drain := bit h 9, safe := bit h 8, len := bundleLen h }

/-- The bundle of one slot operation at a PRESENT index, with DRAIN, SAFE and REP clear. -/
def encodeBundle (slot : Nat) (i : Instr) : List Nat :=
  [0x35 * 2 ^ 26 + 2 ^ (16 + slot) + (encodeExt i).length * 16, encodeWord i] ++ encodeExt i
/-- The bundle of a branch tree alone. -/
def encodeTreeBundle (i : Instr) : List Nat :=
  let ws := encodeTree i
  [0x35 * 2 ^ 26 + (if ws.length = 4 then 2 else 1) * 2 ^ 6] ++ ws

/-- PRESENT index of the first slot of a class. -/
def clsSlot : Cls → Nat
  | .scalar => 0
  | .ls => 2
  | .vec => 3
  | .red => 5
  | .mx => 6
  | .ap => 7
  | .ec => 9
/-- A word of opcode_table.json does not name its class (R72): the classes are tried in this order, and the first that accepts the word has it. Log entry 6. -/
def tableClasses : List Cls := [.red, .ap, .mx, .ec, .ls, .scalar, .vec]
/-- The first class of a list that accepts a word, with its reading. -/
def firstClass (w : Nat) (ext : Nat → List Nat) : List Cls → Option (Cls × Instr)
  | [] => none
  | c :: r =>
    match decodeSlot c w (ext (extCount c w)) with
    | .ok i => some (c, i)
    | .error _ => firstClass w ext r
/-- The class and reading of a table word: w's low 32 bits are the slot word, the bits above it the extension words. -/
def tableInstr (w : Nat) : Option (Cls × Instr) :=
  firstClass (w % 2 ^ 32) (fun n => (List.range n).map fun j => w / 2 ^ (32 * (j + 1)) % 2 ^ 32) tableClasses
/-- The instruction the decoder reads from a word of spec/opcode_table.json; the bits above nbits are zero. -/
def decodeTableWord (nbits w : Nat) : Option Instr := (tableInstr (w % 2 ^ nbits)).map Prod.snd

end Sys2Proof
end

