-- ==== Sys2Proof/Config.lean ====
section
/-! DEFINITION. What an implementation fixes, and the values the spec gives no source for. -/

namespace Sys2Proof.Config

/-- The measurements of a quote (R406): byte n of the four digests, of a package that runs firmware of a version. What the digests are of is fixed by the package, its firmware and its boot; the spec gives no value. Nothing constrains them. Log entry 32. -/
opaque measByte : Nat → Nat → Nat → BitVec 8

/-- The signature of a quote (R406): byte n of r and s, by the package's fused key, over bytes 0x00 to 0xFF of the quote, at a count of free values, since two signatures of one message may differ. Nothing constrains them. Log entry 32. -/
opaque sigByte : Nat → List (BitVec 8) → Nat → Nat → BitVec 8

/-- Whether a fused multiply-add of infinity and zero with a quiet NaN addend sets NV: IEEE 754 leaves it open, and R53 follows IEEE 754. Nothing constrains it. Log entry 38. -/
opaque fmaInvalidQuietNan : Bool

/-- The barrier of an in-flight record that a resumption reloads: neither FLIST nor the header holds it (R370, R355). Given by the die and the place. Nothing constrains it. Log entry 38. -/
opaque reloadedBarrier : Nat → Nat → BitVec 6

/-- TIMEB as the boot sequence loads it (R21, R405): the spec gives no value. Given by a count of free values. Nothing constrains it. Log entry 4. -/
opaque bootTime : Nat → BitVec 63

/-- Entries of the load queue (R153). -/
def loadQueueSize : Nat := 96
/-- Entries of the store queue (R153). -/
def storeQueueSize : Nat := 64
/-- Leaf entries of a core translation cache (R290). -/
def coreTcSize : Nat := 64
/-- Leaf entries of a die's translation unit (R290). -/
def tuSize : Nat := 16384
/-- Root and non-leaf entries a die's translation unit caches (R290). -/
def tuNodeSize : Nat := 512
/-- Entries of the miss table (R290). -/
def missTableSize : Nat := 4096
/-- Walk engines of a die (R290). -/
def walkEngines : Nat := 64
/-- Packets in a launch queue (R308). -/
def launchQueueSize : Nat := 256
/-- Ready-queue entries of a core, a cluster and the base die (R326). -/
def coreLevelSize : Nat := 8
def clusterLevelSize : Nat := 64
def dieLevelSize : Nat := 65536
/-- Entries of the deduplication table of a die (R386). -/
def dedupSize : Nat := 65536
/-- Unacknowledged requests of one source to one destination (R378). -/
def maxUnacked : Nat := 1024
/-- Sequence numbers a destination records for each source (R378). -/
def maxRecorded : Nat := 2048

end Sys2Proof.Config
end

