-- ==== Sys2Proof/Machine/State.lean ====
section
/-! DEFINITION. The state of an MZ8 system (R9 to R40, R253 to R415): plain data. The cores, dies, fabric and host attachment are held in sparse maps keyed by number; one core at a time is the focused core. -/

namespace Sys2Proof.Machine

/-! Sparse maps in one canonical form: keys strictly rising, no entry equal to the value an unlisted key holds. -/

/-- A sparse map from numbers. -/
abbrev FMap (α : Type) := List (Nat × α)

/-! Continuation registers (R11). -/

/-- A stream (R13, R139): the 64-byte image and the position block. -/
structure Stream where
  img : BitVec 512
  pos0 : BitVec 32
  pos1 : BitVec 32
  pos2 : BitVec 32
  lygen : BitVec 16
  lyent : BitVec 4
  checked : Bool
  valid : Bool
deriving DecidableEq, Repr

/-- What the granules of a matrix register hold (R15, R192): 64 rows of 64 FP32, or the columns of U and of V, 64 FP32 each. -/
inductive MBody where
  | empty
  | dense (rows : List (BitVec 2048))
  | factored (u v : List (BitVec 2048))
deriving DecidableEq, Repr

/-- A matrix register (R15). -/
structure MReg where
  ad : Bool
  limit : BitVec 7
  body : MBody
deriving DecidableEq, Repr

/-- A ring handle (R18). -/
structure Ring where
  valid : Bool
  wmem : Bool
  first : BitVec 7
  count : BitVec 8
  head : BitVec 16
  tail : BitVec 16
deriving DecidableEq, Repr

/-- A sequence cursor (R19). -/
structure Cursor where
  valid : Bool
  region : BitVec 56
  cap : BitVec 32
  clen : BitVec 32
  tlen : BitVec 32
deriving DecidableEq, Repr

/-- PARKMAP (R30). -/
structure ParkMap where
  amem : Bool
  base : BitVec 13
  rows : BitVec 16
  regs : BitVec 32
deriving DecidableEq, Repr

/-- Control registers of a continuation (R20), and the job's ASID and LAYBASE as this continuation sees them (R25). MRFOCC is computed (R16). -/
structure Ctl where
  deadline : BitVec 64
  budget : BitVec 32
  spbound : BitVec 16
  tol : BitVec 32
  tolmode : Bool
  park : ParkMap
  vflags : BitVec 6
  qkey0 : BitVec 32
  qkey1 : BitVec 32
  qctrlo : BitVec 64
  qctrhi : BitVec 64
  traprec : BitVec 64
  asid : BitVec 12
  laybase : BitVec 56
deriving DecidableEq, Repr

/-- What a held wait waits for (R231). -/
inductive WaitFor where
  | fill (h : BitVec 3) (n : Nat)
  | free (h : BitVec 3) (n : Nat)
  | barrier (b : BitVec 6) (n : Nat)
deriving DecidableEq, Repr

/-- A held wait: its limit and the cycles of it that remain (R231, R232). -/
structure Wait where
  what : WaitFor
  lim : Nat
  rem : Nat
deriving DecidableEq, Repr

/-- The chain of a vector slot's `vcat` issues (R189): its destination and the state after the last issue. -/
structure Vcat where
  vd : BitVec 5
  bs : BitVec 32
  bi : BitVec 32
  nb : BitVec 32
deriving DecidableEq, Repr

/-- The program-visible state of the resident continuation. -/
structure Ctx where
  pc : BitVec 56
  s : Vector (BitVec 64) 32
  p : BitVec 16
  v : Vector (BitVec 1024) 32
  k : Vector (BitVec 128) 8
  st : Vector Stream 32
  m : Vector MReg 16
  q : Vector (BitVec 256) 4
  h : Vector Ring 8
  sq : Vector Cursor 8
  acc : FMap (BitVec 2048)
  stand : Vector (BitVec 32) 7
  ctl : Ctl
  vcat0 : Option Vcat
  vcat1 : Option Vcat
deriving DecidableEq, Repr

/-! Traps. -/

/-- A trap raised or reported, with what its record will hold (R340, R346). -/
structure Trap where
  cause : Nat
  sub : Nat := 0
  slot : Option Nat := none
  repidx : Nat := 0
  pc : Nat := 0
  addr : Nat := 0
  info0 : Nat := 0
  info1 : Nat := 0
  opc : Nat := 0
  resumable : Bool := false
  report : Bool := false
deriving DecidableEq, Repr

/-- A trap on its way to its record (R346): the die on which it is taken or reported, the continuation it names, the job, the handler's deadline, the save slot that holds a suspended state. -/
structure TrapJob where
  die : Nat
  key : Option Nat
  jcb : Nat
  deadline : BitVec 64
  trap : Trap
  deferred : Bool
  sslot : Option Nat
deriving DecidableEq, Repr

/-! Effects and the issue of a repetition. -/

/-- One row access of a stream: the row, the section, or nothing where BOUNDS ZERO reads zero bits (R145, R147). -/
structure RowRead where
  wmem : Bool
  core : Nat
  addr : Nat
  bytes : Nat
deriving DecidableEq, Repr

/-- The operands of a vector or reduction operation, as read at issue. -/
structure Cap where
  slot : Nat
  issued : Nat
  pc : Nat
  rep : Nat
  a : BitVec 1024
  b : BitVec 1024
  d : BitVec 1024
  k : BitVec 128
  sa : BitVec 64
  sb : BitVec 64
  words : List (BitVec 32)
  reads : List (Option RowRead)
  streams : List Stream
  diag : Bool
  ma : MBody
  aux : List Nat
deriving DecidableEq, Repr

/-- A write that takes effect when it lands (R91). -/
inductive Eff where
  | sreg (n : BitVec 5) (v : BitVec 64)
  | preg (n : BitVec 4) (v : Bool)
  | kreg (n : BitVec 3) (mask v : BitVec 128)
  | vreg (n : BitVec 5) (mask v : BitVec 1024)
  | flags (f : BitVec 6)
  | step (n : BitVec 5) (unit : Nat)
  | checked (n : BitVec 5)
  | stream (n : BitVec 5) (sel : Nat) (v : BitVec 64)
  | adv (n : BitVec 5) (unit : Nat)
  | ring (n : BitVec 3) (r : Ring)
  | cursor (n : BitVec 3) (c : Cursor)
  | ctl (n : BitVec 8) (v : BitVec 64)
  | latch (n : BitVec 2) (kind : Nat) (lanes : List (Nat × BitVec 32))
  | latchClear (n : BitVec 2)
  | stand (i : Nat) (w : BitVec 32)
  | vcat (slot : Nat) (c : Option Vcat)
  | vcatNext (slot : Nat) (c : Vcat)
  | qctr (n : Nat)
  | parkSet (amem : Bool) (base : BitVec 13) (a : BitVec 5)
  | parkClear (d : BitVec 5)
  | amem (row : Nat) (mask v : BitVec 2048)
  | hist (row : Nat) (counts : List Nat)
  | acc (row : Nat) (mask v : BitVec 2048)
  | tiles (wmem : Bool) (list : List Nat) (owner : Nat)
  | tileFree (wmem : Bool) (first n : Nat)
  | tileTake (wmem : Bool) (first n : Nat) (tag : BitVec 16)
  | arrive (n jcb : Nat)
  | verdict (set idx stage : Nat) (pass : Bool) (cycles handle : Nat)
  | barReset (n : BitVec 6)
  | barFree (n : BitVec 6)
  | barAlloc (n : BitVec 6) (p : BitVec 4)
  | layWrite (e : BitVec 4) (sel : Nat) (v : BitVec 64) (began : Nat)
  | queue (load store : Bool) (i : Instr) (args : List Nat) (vec : BitVec 1024) (mask : BitVec 128)
  | mreg (n : BitVec 4) (b : MBody)
  | mctl (n : BitVec 4) (limit : BitVec 7) (ad : Bool)
  | accBlocks (tile : Nat) (z : Bool) (blocks : List (List (BitVec 32)))
  | accRows (tile : Nat) (rows : List (BitVec 2048))
  | accAdd (tile : Nat) (z : Bool) (rows : List (BitVec 2048))
  | mregAcc (n : BitVec 4) (tile : Nat)
  | mxBusy (free : Nat)
  | calc (i : Instr) (c : Cap)
  | posted
  | yield
  | ends (post : Bool)
  | hold (w : Wait)
  | reshard (e v : BitVec 4)
  | place (set idx hdr : Nat) (bar : BitVec 6) (deadline : BitVec 64)
  | logAppend (set idx stage : Nat)
  | setTake (set desc stamp : Nat)
  | setFree (set : Nat)
  | unrecord
  | quiesce
deriving DecidableEq, Repr

/-- An effect in flight: the cycle at whose end it lands, the PRESENT index of its slot (10 for a call link) and its order of issue, its bundle and repetition. -/
structure Pend where
  due : Nat
  slot : Nat
  seq : Nat
  pc : Nat
  rep : Nat
  eff : Eff
deriving DecidableEq, Repr

/-- Which part of a slot operation exec carries out: its issue, or the computation of its result once its stream operands are sampled. -/
inductive Phase where
  | issue
  | compute (c : Cap)
deriving DecidableEq, Repr

/-- The issue of one repetition: what its slots emit and raise before it is settled (R94, R95). -/
structure Iss where
  todo : List (Nat × Instr)
  slot : Nat
  standing : Bool
  phase : Phase
  effs : List Pend
  raised : List (Nat × Trap)
  atEnd : List Pend
  target : Option (BitVec 56)
  outcome : Nat
  link : Bool
  rep : Nat
  lastRep : Nat
  safe : Bool
  drain : Bool
  len : Nat
deriving DecidableEq, Repr

/-! Queues and loads of a core (R153). -/

/-- An entry of an off-core queue: the form, the bundle that issued it, its operands as read at issue. -/
structure QEnt where
  id : Nat
  both : Bool
  pc : Nat
  i : Instr
  args : List Nat
  vec : BitVec 1024
  mask : BitVec 128
  handle : Nat
  jcb : Nat
  asid : Nat
deriving DecidableEq, Repr

/-- Destination of an off-core load (R93); `head`: the entry at the head of its queue, which performs with what is read. -/
inductive Dest where
  | none
  | sreg (n : BitVec 5)
  | vreg (n : BitVec 5) (mask : BitVec 1024)
  | stream (n : BitVec 5)
  | cursor (n : BitVec 3)
  | set (n : BitVec 3)
  | slot (n : BitVec 4)
  | head
deriving DecidableEq, Repr

/-- What the response of an off-core access brings. `stop`: why the entry at the head of its queue cannot read what it performs with. -/
inductive Resp where
  | value (v : Nat)
  | cursor (c : Cursor)
  | drop
  | fault (t : Trap)
  | stop (t : Trap)
  | remote
deriving DecidableEq, Repr

/-- An off-core access that has left its queue and not completed: what it will write, and when its response arrives. `buf` holds the bytes that a device read of several pieces has had so far. -/
structure Outst where
  id : Nat
  q : QEnt
  dest : Dest
  resp : Resp
  due : Nat
  load : Bool
  acq : Bool
  buf : List (BitVec 8)
deriving DecidableEq, Repr

/-- A line of a first-level cache (R280, R282). -/
structure Line where
  asid : Nat
  line : Nat
  data : BitVec 512
deriving DecidableEq, Repr

/-- A cached leaf entry (R290): page base, level of the leaf, the entry. -/
structure Leaf where
  die : Nat
  asid : Nat
  page : Nat
  level : Nat
  entry : BitVec 64
deriving DecidableEq, Repr

/-- A tile record (R277). -/
structure Tile where
  jtag : BitVec 16
  owner : BitVec 2
deriving DecidableEq, Repr

/-- What a core is doing. -/
inductive Mode where
  | idle
  | starting
  | run
  | held (w : Wait)
  | saving (why : Nat)
  | stopping (why : Nat)
deriving DecidableEq, Repr

/-- A core: its buffers, caches, queues, and the continuation resident on it. Of a terminating access fault reported to the resident the number of its entry stands in `dropFrom` (R154); rows with an uncorrectable error stand in `padBad` and `accBad`, matrix registers with one in `mrfBad` (R352). -/
structure Core where
  res : Option Nat
  jcb : Nat
  mode : Mode
  ctx : Ctx
  amem : FMap (BitVec 2048)
  wmem : FMap (BitVec 2048)
  atile : FMap Tile
  wtile : FMap Tile
  mrfCap : Nat
  l1d : List Line
  l1i : List Line
  tc : List Leaf
  loadQ : List QEnt
  storeQ : List QEnt
  outst : List Outst
  pend : List Pend
  iss : Iss
  rep : Nat
  words : List (BitVec 32)
  lastPc : BitVec 56
  issueAt : Nat
  saveDone : Nat
  mxFree : Nat
  spCount : Nat
  charged : Nat
  dropFrom : Option Nat
  padBad : List (Bool × Nat)
  accBad : List Nat
  mrfBad : List Nat
deriving DecidableEq, Repr

/-! Die state. -/

/-- A barrier (R37). -/
structure Barrier where
  count : BitVec 32
  job : Option Nat
deriving DecidableEq, Repr

/-- An entry of a die's layout table copy (R31), whether a `reshard` of it is in progress (R241), and how many have begun (R270). -/
structure LyEnt where
  handle : BitVec 32
  kind : BitVec 2
  gen : BitVec 16
  shape : BitVec 48
  busy : Bool
  began : Nat
deriving DecidableEq, Repr

/-- The layout table copy of a job on a die. -/
structure LayCopy where
  die : Nat
  jcb : Nat
  ents : List LyEnt
deriving DecidableEq, Repr

/-- A continuation record (R322) and what the device keeps with it. -/
structure Cont where
  jcb : Nat
  jtag : BitVec 16
  pc : BitVec 56
  deadline : BitVec 64
  budget : BitVec 32
  stage : BitVec 3
  state : Nat
  posted : Bool
  bound : Option Nat
  savedOn : Option Nat
  seq : Nat
  kdesc : BitVec 56
  slot : Option Nat
  lcoord : BitVec 32
  arg0 : BitVec 64
  arg1 : BitVec 64
  reports : List Trap
  held : Option Wait
  acquire : Option Scope
  handlerOf : Option (Nat × Option Nat × Bool)
  record : Option (Nat × Nat)
  gang : Option (Nat × Nat)
  charged : Nat
  mark : Option Nat
  traprec : BitVec 64
  lastCause : Nat
  fixups : Option (Option Trap)
  atEnd : List Pend
  action : Option (Nat × Nat × Nat)
deriving DecidableEq, Repr

/-- An item of a ready queue (R326): a continuation, a gang, an unexpanded packet's remaining units. -/
inductive ReadyItem where
  | cont (h : Nat)
  | gang (g : Nat)
  | packet (p : BitVec 512) (next : Nat)
deriving DecidableEq, Repr

/-- Level of a ready-queue entry (R326). -/
inductive Level where
  | core (c : Nat)
  | cluster (c : Nat)
  | die
deriving DecidableEq, Repr

/-- A ready-queue entry with its key. -/
structure Ready where
  die : Nat
  level : Level
  deadline : Nat
  seq : Nat
  item : ReadyItem
deriving DecidableEq, Repr

/-- State of a gang (R329). -/
inductive GangState where
  | pending
  | claiming
  | admitted
  | draining
  | parked
deriving DecidableEq, Repr

/-- A named pipe of a gang (R315, R316), with the next consumer index it fills. -/
structure Pipe where
  fromStage : Nat
  toStage : Nat
  ptile : Nat
  ctile : Nat
  depth : Nat
  ph : BitVec 3
  ch : BitVec 3
  prod : Nat
  cons : Nat
deriving DecidableEq, Repr

/-- A gang: its members by stage, the cores claimed for them, its pipes. -/
structure Gang where
  id : Nat
  die : Nat
  state : GangState
  members : List Nat
  cores : List Nat
  pipes : List Pipe
  packet : BitVec 512
  unit : Nat
deriving DecidableEq, Repr

/-- A stage entry of a stage set (R353). -/
structure StageEnt where
  kdesc : BitVec 56
  pass : BitVec 16
  cost : BitVec 16
deriving DecidableEq, Repr

/-- A record in flight (R356). `step` counts the writes of its completion that have been made. -/
structure Place where
  hdr : Nat
  deadline : BitVec 64
  bar : BitVec 6
  done : BitVec 8
  verd : BitVec 8
  fstg : Option (BitVec 3)
  draws : BitVec 32
  lcnt : List Nat
  log : Nat
  lcap : Nat
  outcome : Nat
  running : Option (Nat × Nat)
  sub : Nat
  pc : Nat
  admitted : Bool
  since : Nat
  step : Nat
deriving DecidableEq, Repr

/-- A stage set (R38, R353). `stamp` names the `tsload` that took it last. -/
structure TSet where
  holder : Option Nat
  desc : Nat
  stamp : Nat
  loading : Nat
  nstg : Nat
  qcap : Nat
  rtseed : BitVec 64
  lctr : BitVec 128
  acc : BitVec 32
  rej : BitVec 32
  draws : BitVec 32
  flist : Nat
  stages : List StageEnt
  places : FMap (Option Place)
deriving DecidableEq, Repr

/-- A viaduct slot of a die's router (R240, R392): the image as loaded, its token counts, whether a `reshard` uses it. -/
structure VSlot where
  loaded : Bool
  inUse : Bool
  image : List (BitVec 8)
  tok : FMap Nat
deriving DecidableEq, Repr

/-- What a `put` or a `get` takes with it as it performs (R247, R389): its descriptor, its handler, and of the multicast group entry it names the number and the two words. -/
structure PutCap where
  dst : Nat
  src : Nat
  len : Nat
  handler : Option Cont
  group : Option (Nat × BitVec 64 × BitVec 64)
deriving DecidableEq, Repr

/-- An engine command from its issue to its completion (R220). `buf` holds the bytes of the read it is at, `sent` counts the bytes of the write it is at that have gone out, `items` are the writes a checkpoint has still to make. -/
structure Cmd where
  id : Nat
  die : Nat
  core : Nat
  handle : Nat
  jcb : Nat
  asid : Nat
  pc : Nat
  i : Instr
  args : List Nat
  st : Stream
  tilesW : Bool
  tiles : List Nat
  since : Nat
  due : Nat
  pos : Nat
  aux : List Nat
  buf : List (BitVec 8)
  sent : Nat
  items : List (Nat × List (BitVec 8))
  put : Option PutCap
  fail : Option Trap
  finished : Bool
  status : Option (BitVec 64)
deriving DecidableEq, Repr

/-- A halo face on its way to its receiver (R238, R239): its bytes by number, but for those an uncorrectable error kept back, its length, and how many have left the sender. -/
structure Face where
  id : Nat
  dst : Nat
  core : Nat
  st : Nat
  dir : Nat
  gen : BitVec 16
  cmd : Nat
  jcb : Nat
  handle : Nat
  pc : Nat
  bytes : List (Nat × BitVec 8)
  len : Nat
  out : Nat
deriving DecidableEq, Repr

/-- A checkpoint in progress on a die (R410). -/
structure Ckpt where
  die : Nat
  cmd : Nat
deriving DecidableEq, Repr

/-! Fabric. -/

/-- What an ordered or bulk request asks its destination to do (R376, R378). A `lane` of a scatter names the place of each of its bytes. -/
inductive ReqKind where
  | read (pa n : Nat)
  | get (pa n : Nat)
  | write (pa : Nat) (bytes : List (BitVec 8))
  | cells (pa : Nat) (bytes : List (Nat × BitVec 8))
  | atomic (pa : Nat) (code : Nat) (b d : BitVec 64)
  | lane (pas : List Nat) (form : Nat) (t : ETy) (v : BitVec 32)
  | reduce (pa : Nat) (op : Nat) (t : ETy) (lanes : List (Nat × BitVec 32)) (token : BitVec 64)
  | bitOp (pa : Nat) (set : Bool) (bit : Nat)
  | clear (pa : Nat) (mask : BitVec 64)
  | data (bytes : List (BitVec 8))
  | face (face n : Nat)
  | spawn (c : Cont) (raise : Bool)
  | push (queue : Nat) (pkt : BitVec 512)
  | handler (c : Cont) (len : Nat)
deriving DecidableEq, Repr

/-- Who waits for a request's answer. -/
inductive ReqOwner where
  | load (cid outst : Nat)
  | store (cid : Nat) (q : QEnt)
  | cmd (id : Nat)
  | agent (key pc opc : Nat)
  | walk (die asid region : Nat)
deriving DecidableEq, Repr

/-- A request in flight: its virtual address at its issuer, the cycles of its first and its latest send, what its destination answered, when it or its acknowledgement arrives. A request or an acknowledgement that a dead link dropped is lost until it is sent again. One that its pair may not yet send by its new route is `held` (R377), and so is such an answer. An answer that carries data is a flit of its own: `back` gives its place in the send order of its pair, `bpath` its route, `bsent` the cycle it left. Of an access of several sectors one failure is reported: the other requests are `told`. -/
structure Req where
  id : Nat
  src : Nat
  dst : Nat
  seq : Nat
  bulk : Bool
  jcb : Nat
  va : Nat
  kind : ReqKind
  owner : ReqOwner
  first : Nat
  sent : Nat
  tries : Nat
  arrived : Bool
  lost : Bool
  answer : Option (Nat × Nat)
  due : Nat
  path : List (Nat × Nat)
  held : Bool
  told : Bool
  back : Nat
  bpath : List (Nat × Nat)
  bsent : Nat
deriving DecidableEq, Repr

/-- What a critical flit carries (R376). -/
inductive Crit where
  | arrival (bar : Nat) (die : Nat)
  | token (handle : BitVec 32) (step : Nat)
  | reduceTag (cmd : Nat)
  | ack (req : Nat)
  | receipt (msg : Nat)
deriving DecidableEq, Repr

/-- A critical flit at a hop (R385), until its sender has the receipt of that hop: the hops of its route that are left, the first of them the one it is at, with its critical number there, the cycles of its first and its latest send on it and of its arrival. `lost`: no copy of it is on the link. `heard`: the receiver of the hop has it. Where its copy on one plane has arrived corrupt, `spoilt` names the plane. -/
structure Msg where
  id : Nat
  src : Nat
  dst : Nat
  crit : Crit
  jcb : Nat
  issuer : Nat
  pc : Nat
  opc : Nat
  core : Nat
  path : List (Nat × Nat)
  number : Nat
  first : Nat
  sent : Nat
  due : Nat
  lost : Bool
  heard : Bool
  spoilt : Option Bool
deriving DecidableEq, Repr

/-- One plane of one port (R374, R375, R382). -/
structure Plane where
  down : Bool
  fails : Nat
  sendCtr : BitVec 64
  recvCtr : BitVec 64
  epoch : Nat
  slots : Nat
  replays : Nat
deriving DecidableEq, Repr

/-- The critical numbers of one direction of a port (R385). -/
structure CritPort where
  next : BitVec 16
  seen : List Nat
deriving DecidableEq, Repr

/-- An answer a destination recorded (R378). -/
structure Recorded where
  src : Nat
  dst : Nat
  seq : Nat
  answer : Option (Nat × Nat)
deriving DecidableEq, Repr

/-- An entry of a deduplication table (R386). -/
structure Dedup where
  die : Nat
  jcb : Nat
  token : BitVec 64
  sector : Nat
deriving DecidableEq, Repr

/-- The handler of a `put` at its target (R247): the command, the die, the continuation, and the bytes of the payload that have still to perform. -/
structure Handler where
  cmd : Nat
  die : Nat
  cont : Cont
  left : Nat
deriving DecidableEq, Repr

/-- `lostColl`: a die whose command of a job's collective is still to come, of a group that has lost a member (R397). -/
structure Fab where
  reqs : List Req
  msgs : List Msg
  seqs : FMap Nat
  recorded : List Recorded
  planes : FMap Plane
  crit : FMap CritPort
  dedup : List Dedup
  mgroups : FMap (BitVec 64)
  lostColl : List (Nat × Nat × Nat)
  handlers : List Handler
deriving DecidableEq, Repr

/-! Translation units (R290, R291). -/

/-- A cached root or non-leaf entry: the level it was read at (0 for the root, k + 1 for a level-k entry) and the virtual address bits that select it. -/
structure Node where
  die : Nat
  asid : Nat
  level : Nat
  key : Nat
  entry : BitVec 64
deriving DecidableEq, Repr

/-- A walk in the miss table: the entries it has had from tables homed elsewhere, by address, none where the read failed; the address of one it waits for; the entry reads it has been given time for. When it has ended its result stands for one cycle, for the accesses that joined it: a leaf entry and its level, or a fault kind. -/
structure Miss where
  die : Nat
  asid : Nat
  region : Nat
  started : Nat
  due : Nat
  stale : Bool
  got : List (Nat × Option Nat)
  asked : Option Nat
  timed : Nat
  ended : Option (Except Nat (Nat × Nat))
deriving DecidableEq, Repr

structure Xl where
  root : FMap (BitVec 64)
  leaf : List Leaf
  node : List Node
  miss : List Miss
  inval : List (Nat × Nat × Nat)
deriving DecidableEq, Repr

/-! Scheduling (R308 to R339). -/

/-- A job tag given by a die (R322). -/
structure JTag where
  die : Nat
  jcb : Nat
  tag : BitVec 16
deriving DecidableEq, Repr

/-- A job at its completion condition, draining (R337). -/
structure Ending where
  jcb : Nat
deriving DecidableEq, Repr

/-- A continuation that has ended, and the DEADLINE it had then (R347). -/
structure Ended where
  key : Nat
  jcb : Nat
  deadline : BitVec 64
deriving DecidableEq, Repr

/-- `lostTags` and `lostSets`: the tags and stage sets of dies that lost power, which a resumption on the spare needs to read the records (R413; log entry 76). -/
structure Sched where
  launch : FMap (List (BitVec 512))
  rr : FMap Nat
  acl : FMap (BitVec 64)
  jtags : List JTag
  conts : FMap (Option Cont)
  nextHandle : FMap Nat
  seq : FMap Nat
  ready : List Ready
  gangs : List Gang
  ending : List Ending
  ckpts : List Ckpt
  traps : List TrapJob
  ended : List Ended
  lostTags : List JTag
  lostSets : FMap TSet
deriving DecidableEq, Repr

/-! Host attachment (R399 to R415). -/

/-- The host attachment of one package: its BAR0 registers, those of a port by KIND, the fused rollback counter, what it has sent to its hosts. `offer`: a hand-over stands and has not lapsed; `wonAt`: the cycle in which a claim won an ownership that nobody held; `temps` and `steps`: the junction of each die, in °C, and the throttle step it has (R415); `firmware`: the version it runs. -/
structure HostSt where
  owner : BitVec 2
  ansaddr : FMap (BitVec 64)
  winbase : FMap (BitVec 64)
  errcnt : BitVec 64
  attest : BitVec 64
  quoting : Bool
  handover : BitVec 3
  offer : Bool
  handoverDue : Nat
  wonAt : Option Nat
  therm : BitVec 16
  temps : FMap Nat
  steps : FMap Nat
  bootst : BitVec 8
  firmware : BitVec 64
  rollback : BitVec 64
  answers : List (Nat × BitVec 64)
  reads : List (BitVec 8)
  unsupported : Nat
deriving DecidableEq, Repr

/-- What a system is built as, and what its boot fixes (R27, R371, R404, R407). -/
structure SysCfg where
  variant : BitVec 2
  sx : Nat
  sy : Nat
  sz : Nat
  safeGiB : Nat
  serial : BitVec 32
deriving DecidableEq, Repr

/-- The model's clock: the cycle of the unthrottled core clock, the cycle and the value of TIMEB at its load (R21, R405), the cores still to move in it, outside events to come, durations the spec leaves open, and the counter of free values. -/
structure Clk where
  now : Nat
  base : Nat
  time0 : Nat
  turn : List Nat
  env : List Instr
  slack : List Nat
  free : Nat
  nextId : Nat
deriving DecidableEq, Repr

/-- The whole system. `running` lists the dies whose boot has succeeded, `dark` the packages without power, `bad` the 8-byte words of memory that hold an uncorrectable error (R352). -/
structure State where
  cfg : SysCfg
  clk : Clk
  cid : Nat
  core : Core
  cores : FMap Core
  mem : List Host.Cell
  bar : FMap Barrier
  lay : List LayCopy
  sets : FMap TSet
  via : FMap VSlot
  cmds : List Cmd
  faces : List Face
  sched : Sched
  xl : Xl
  fab : Fab
  host : FMap HostSt
  running : List Nat
  dark : List Nat
  bad : List Nat
deriving DecidableEq, Repr

/-! Reset values. -/

def Stream.reset : Stream := { img := 0, pos0 := 0, pos1 := 0, pos2 := 0, lygen := 0, lyent := 0, checked := false, valid := false }
/-- LIMIT 64, FORM empty (R15). -/
def MReg.reset : MReg := { ad := false, limit := 64, body := .empty }
def Ring.reset : Ring := { valid := false, wmem := false, first := 0, count := 0, head := 0, tail := 0 }
def Cursor.reset : Cursor := { valid := false, region := 0, cap := 0, clen := 0, tlen := 0 }
def ParkMap.reset : ParkMap := { amem := false, base := 0, rows := 0, regs := 0 }
/-- Reset values of R20. DEADLINE, BUDGET, ASID and LAYBASE come from the creating event: 0 until then (log entry 4). -/
def Ctl.reset : Ctl :=
  { deadline := 0, budget := 0, spbound := 2048, tol := 0, tolmode := false, park := ParkMap.reset, vflags := 0, qkey0 := 0, qkey1 := 0,
    qctrlo := 0, qctrhi := 0, traprec := 0, asid := 0, laybase := 0 }
/-- The register tables of 01_machine_state.md. `s0`, `p0` and `k0` hold what they read as. -/
def Ctx.reset : Ctx :=
  { pc := 0, s := Vector.replicate 32 0, p := 1, v := Vector.replicate 32 0, k := (Vector.replicate 8 0).set 0 (BitVec.allOnes 128),
    st := Vector.replicate 32 Stream.reset, m := Vector.replicate 16 MReg.reset, q := Vector.replicate 4 0, h := Vector.replicate 8 Ring.reset,
    sq := Vector.replicate 8 Cursor.reset, acc := [], stand := Vector.replicate 7 0, ctl := Ctl.reset, vcat0 := none, vcat1 := none }
def Iss.reset : Iss :=
  { todo := [], slot := 0, standing := false, phase := .issue, effs := [], raised := [], atEnd := [], target := none, outcome := 4, link := false,
    rep := 0, lastRep := 0, safe := false, drain := false, len := 0 }
/-- A core at reset: no continuation resident, buffers and caches empty, every tile unassigned. -/
def Core.reset : Core :=
  { res := none, jcb := 0, mode := .idle, ctx := Ctx.reset, amem := [], wmem := [], atile := [], wtile := [], mrfCap := 512, l1d := [], l1i := [],
    tc := [], loadQ := [], storeQ := [], outst := [], pend := [], iss := Iss.reset, rep := 0, words := [], lastPc := 0, issueAt := 0, saveDone := 0, mxFree := 0,
    spCount := 0, charged := 0, dropFrom := none, padBad := [], accBad := [], mrfBad := [] }
/-- R277. -/
def Tile.reset : Tile := { jtag := 0xFFFF, owner := 0 }
def Barrier.reset : Barrier := { count := 0, job := none }
def TSet.reset : TSet :=
  { holder := none, desc := 0, stamp := 0, loading := 0, nstg := 0, qcap := 0, rtseed := 0, lctr := 0, acc := 0, rej := 0, draws := 0, flist := 0,
    stages := [], places := [] }
def VSlot.reset : VSlot := { loaded := false, inUse := false, image := [], tok := [] }
def Plane.reset : Plane := { down := false, fails := 0, sendCtr := 0, recvCtr := 0, epoch := 0, slots := 0, replays := 0 }
def CritPort.reset : CritPort := { next := 0, seen := [] }
def LyEnt.reset : LyEnt := { handle := 0, kind := 0, gen := 0, shape := 0, busy := false, began := 0 }

/-- The BAR0 registers at reset (R399): OWNER 3, the rest 0. -/
def HostSt.reset : HostSt :=
  { owner := 3, ansaddr := [], winbase := [], errcnt := 0, attest := 0, quoting := false, handover := 0, offer := false, handoverDue := 0, wonAt := none, therm := 0,
    temps := [], steps := [], bootst := 0, firmware := 0, rollback := 0, answers := [], reads := [], unsupported := 0 }

/-- The system right after reset: no job, no continuation, nothing in flight; OWNER reads 3 and BOOTST 0 (R399), no die has booted. The configuration is the model's (log entry 4). -/
def State.reset : State :=
  { cfg := { variant := 0, sx := 2, sy := 2, sz := 2, safeGiB := 0, serial := 0 },
    clk := { now := 0, base := 0, time0 := 0, turn := [], env := [], slack := [], free := 0, nextId := 0 },
    cid := 0, core := Core.reset, cores := [], mem := [], bar := [], lay := [], sets := [], via := [], cmds := [], faces := [],
    sched := { launch := [], rr := [], acl := [], jtags := [], conts := [], nextHandle := [], seq := [], ready := [], gangs := [], ending := [],
               ckpts := [], traps := [], ended := [], lostTags := [], lostSets := [] },
    xl := { root := [], leaf := [], node := [], miss := [], inval := [] },
    fab := { reqs := [], msgs := [], seqs := [], recorded := [], planes := [], crit := [], dedup := [], mgroups := [], lostColl := [], handlers := [] },
    host := [], running := [], dark := [], bad := [] }

/-- Why the machine stops. -/
inductive Fault where
  /-- Raised by every step once POWER_REMOVAL (R415) has taken the power of every package: nothing runs without power. Safe: the machine has no further behaviour to speak of. -/
  | noPower
deriving DecidableEq, Repr

/-- Why an instruction has no meaning. -/
inductive Refusal where
  /-- Raised by the arm of an instruction that has no meaning yet. Safe: the model stops where the hardware goes on. -/
  | notModelled (mnemonic : String)
deriving DecidableEq, Repr

end Sys2Proof.Machine
end

