-- ==== Sys2Proof/Machine/Bits.lean ====
section
/-! DEFINITION. Sparse maps, bytes, lanes and bit fields: the small operations every other file uses (R5 to R7, R12, R42). -/

namespace Sys2Proof.Machine

/-! Sparse maps. -/

/-- Value of a key; keys rise, so a larger key ends the search. -/
def fget {α : Type} (d : α) : FMap α → Nat → α
  | [], _ => d
  | (k', v) :: r, k => if k < k' then d else if k = k' then v else fget d r k
/-- Drop leading entries whose key is at most k. -/
def dropLe {α : Type} (k : Nat) : FMap α → FMap α
  | [] => []
  | (k', v) :: r => if k' ≤ k then dropLe k r else (k', v) :: r
/-- Set a key; the default value removes the entry. -/
def fput {α : Type} [DecidableEq α] (d : α) (k : Nat) (v : α) : FMap α → FMap α
  | [] => if v = d then [] else [(k, v)]
  | (k', v') :: r =>
    if k < k' then (if v = d then (k', v') :: r else (k, v) :: (k', v') :: r)
    else if k = k' then (if v = d then dropLe k r else (k, v) :: dropLe k r)
    else (k', v') :: fput d k v r
/-- The canonical form: every key above lo, rising, no default value. -/
def fwfFrom {α : Type} [DecidableEq α] (d : α) : Option Nat → FMap α → Bool
  | _, [] => true
  | lo, (k, v) :: r => (match lo with | none => true | some l => decide (l < k)) && decide (v ≠ d) && fwfFrom d (some k) r
def fwf {α : Type} [DecidableEq α] (d : α) (m : FMap α) : Bool := fwfFrom d none m
/-- Change a key's value by a function. -/
def fmod {α : Type} [DecidableEq α] (d : α) (k : Nat) (f : α → α) (m : FMap α) : FMap α := fput d k (f (fget d m k)) m
/-- Keys listed. -/
def fkeys {α : Type} (m : FMap α) : List Nat := m.map Prod.fst

/-! Numbers, bytes, lanes. -/

def b2n (b : Bool) : Nat := if b then 1 else 0
/-- Bits [hi:lo] of a number. -/
def bits (x lo n : Nat) : Nat := x / 2 ^ lo % 2 ^ n
/-- Little-endian value of bytes. -/
def leNat : List (BitVec 8) → Nat
  | [] => 0
  | b :: r => b.toNat + 256 * leNat r
/-- The n low bytes of a number, little-endian. -/
def natLe : Nat → Nat → List (BitVec 8)
  | 0, _ => []
  | n + 1, x => BitVec.ofNat 8 x :: natLe n (x / 256)
/-- Value of lanes of e bits, lane 0 least significant. -/
def fromLanes (e : Nat) : List Nat → Nat
  | [] => 0
  | x :: r => x % 2 ^ e + 2 ^ e * fromLanes e r
/-- The n low lanes of e bits of a number. -/
def toLanes (e : Nat) : Nat → Nat → List Nat
  | 0, _ => []
  | n + 1, x => x % 2 ^ e :: toLanes e n (x / 2 ^ e)
/-- Two's-complement value of the low n bits. -/
def sval (n x : Nat) : Int := let y := x % 2 ^ n; if 2 * y < 2 ^ n then (y : Int) else (y : Int) - (2 ^ n : Nat)
/-- Low n bits of an integer. -/
def wrapN (n : Nat) (x : Int) : Nat := (x % (2 ^ n : Nat)).toNat
/-- Sign extension of the low n bits to 64 bits, SX of 05_scalar_control.md. -/
def sx64 (n x : Nat) : BitVec 64 := BitVec.ofInt 64 (sval n x)
/-- A mask of e-bit lanes from lane-mask bits: lane i of n is all ones where bit i is set (R12). -/
def laneMask (e n : Nat) (k : Nat) : Nat := fromLanes e ((List.range n).map fun i => if k.testBit i then 2 ^ e - 1 else 0)
/-- Bits of new where mask is set, of old elsewhere. -/
def mixBits {w : Nat} (mask new old : BitVec w) : BitVec w := (new &&& mask) ||| (old &&& ~~~mask)
/-- Round up to a multiple. -/
def roundUp (x m : Nat) : Nat := (x + m - 1) / m * m
def ceilDiv (x m : Nat) : Nat := (x + m - 1) / m
/-- Position in a list of the first element that satisfies a test. -/
def findIdx? {α : Type} (p : α → Bool) : List α → Option Nat
  | [] => none
  | x :: r => if p x then some 0 else (findIdx? p r).map (· + 1)
/-- Insert by a strict order, after equals. -/
def insertBy {α : Type} (lt : α → α → Bool) (x : α) : List α → List α
  | [] => [x]
  | y :: r => if lt x y then x :: y :: r else y :: insertBy lt x r
/-- Stable sort. -/
def sortBy {α : Type} (lt : α → α → Bool) : List α → List α
  | [] => []
  | x :: r => insertByFront lt x (sortBy lt r)
where
  /-- Insert before equals: x stood earlier. -/
  insertByFront (lt : α → α → Bool) (x : α) : List α → List α
    | [] => [x]
    | y :: r => if lt y x then y :: insertByFront lt x r else x :: y :: r

end Sys2Proof.Machine
end

