-- ==== Sys2Proof/Machine/Float.lean ====
section
/-! DEFINITION. Number formats and their rounding: decoding and encoding of R44, the IEEE operations of R53 to R55, the conversions of R56. A value is exact: a sign, a natural significand and a power of two. -/

namespace Sys2Proof.Machine

/-- A binary format: significand bits with the hidden one, exponent bits, bias. -/
structure Fmt where
  p : Nat
  ew : Nat
  bias : Nat
deriving DecidableEq, Repr

def f32 : Fmt := { p := 24, ew := 8, bias := 127 }
def bf16 : Fmt := { p := 8, ew := 8, bias := 127 }
def f16 : Fmt := { p := 11, ew := 5, bias := 15 }
def e4m3 : Fmt := { p := 4, ew := 4, bias := 7 }
def e5m2 : Fmt := { p := 3, ew := 5, bias := 15 }
def e3m2 : Fmt := { p := 3, ew := 3, bias := 3 }
def e2m1 : Fmt := { p := 2, ew := 2, bias := 1 }

/-- A decoded value: (-1)^neg · m · 2^e where finite. -/
inductive FV where
  | nan (signalling : Bool)
  | inf (neg : Bool)
  | fin (neg : Bool) (m : Nat) (e : Int)
deriving DecidableEq, Repr

/-- VFLAGS bits (R29). -/
def flNV : Nat := 1
def flDZ : Nat := 2
def flOF : Nat := 4
def flUF : Nat := 8
def flNX : Nat := 16
def flSAT : Nat := 32
/-- Union of two sets of flags. -/
def orF (a b : Nat) : Nat := a ||| b

/-- Decode a pattern of a format whose all-ones exponent holds infinities and NaNs (R44). -/
def unpack (f : Fmt) (x : Nat) : FV :=
  let fr := x % 2 ^ (f.p - 1)
  let be := x / 2 ^ (f.p - 1) % 2 ^ f.ew
  let neg := x.testBit (f.p - 1 + f.ew)
  if be = 2 ^ f.ew - 1 then
    if fr = 0 then .inf neg else .nan (!fr.testBit (f.p - 2))
  else if be = 0 then .fin neg fr (1 - f.bias - (f.p - 1))
  else .fin neg (2 ^ (f.p - 1) + fr) ((be : Int) - f.bias - (f.p - 1))
/-- Decode a pattern of a format without infinities: E2M1, E3M2, and E4M3 but for its NaN (R44). -/
def unpackSmall (f : Fmt) (x : Nat) : FV :=
  let fr := x % 2 ^ (f.p - 1)
  let be := x / 2 ^ (f.p - 1) % 2 ^ f.ew
  let neg := x.testBit (f.p - 1 + f.ew)
  if be = 0 then .fin neg fr (1 - f.bias - (f.p - 1)) else .fin neg (2 ^ (f.p - 1) + fr) ((be : Int) - f.bias - (f.p - 1))
/-- E4M3: S.1111.111 is the one NaN, and it is quiet (R44). -/
def unpackE4M3 (x : Nat) : FV := if x % 128 = 127 then .nan false else unpackSmall e4m3 x

/-- Number of bits of m. -/
def nbitsOf (m : Nat) : Nat := if m = 0 then 0 else Nat.log2 m + 1

/-- m / 2^sh to an integer in a rounding mode (R54): 0 nearest even, 1 toward zero, 2 toward +∞, 3 toward −∞. The Bool says inexact. -/
def roundShift (mode : Nat) (neg : Bool) (m sh : Nat) : Nat × Bool :=
  let q := m / 2 ^ sh
  let r := m % 2 ^ sh
  if r = 0 then (q, false)
  else
    let up := match mode with
      | 0 => decide (2 * r > 2 ^ sh) || (decide (2 * r = 2 ^ sh) && decide (q % 2 = 1))
      | 2 => !neg
      | 3 => neg
      | _ => false
    (if up then q + 1 else q, true)
/-- m · 2^e at the quantum 2^q. -/
def atQuantum (mode : Nat) (neg : Bool) (m : Nat) (e q : Int) : Nat × Bool :=
  if q ≤ e then (m * 2 ^ (e - q).toNat, false) else roundShift mode neg m (q - e).toNat

/-- Outcome of rounding: a significand at a quantum, whether inexact, tiny after rounding, beyond the largest finite value. -/
structure Rounded where
  m : Nat
  q : Int
  inexact : Bool
  tiny : Bool
  ovf : Bool

/-- Round m · 2^e to precision p with least exponent emin, judging overflow against the largest finite value maxM · 2^maxQ. -/
def roundTo (mode : Nat) (p : Nat) (emin : Int) (maxM : Nat) (maxQ : Int) (neg : Bool) (m : Nat) (e : Int) : Rounded :=
  let top : Int := e + nbitsOf m - 1
  let q : Int := max top emin - (p - 1 : Nat)
  let (r, ix) := atQuantum mode neg m e q
  let (r2, q2) := if r = 2 ^ p then (2 ^ (p - 1), q + 1) else (r, q)
  let uq : Int := top - (p - 1 : Nat)
  let (u, _) := atQuantum mode neg m e uq
  let utop : Int := if u = 2 ^ p then top + 1 else top
  let ovf := decide (r2 ≠ 0) && (decide (q2 > maxQ) || (decide (q2 = maxQ) && decide (r2 > maxM)))
  { m := r2, q := q2, inexact := ix, tiny := decide (m ≠ 0) && decide (utop < emin), ovf := ovf }

/-- Pattern of a rounded significand. -/
def packFin (f : Fmt) (neg : Bool) (m : Nat) (q : Int) : Nat :=
  let s := b2n neg * 2 ^ (f.p - 1 + f.ew)
  if m < 2 ^ (f.p - 1) then s + m else s + (q + (f.p - 1 : Nat) + f.bias).toNat * 2 ^ (f.p - 1) + (m - 2 ^ (f.p - 1))
def emin (f : Fmt) : Int := 1 - (f.bias : Int)
/-- Largest finite significand and quantum of an IEEE format. -/
def maxM (f : Fmt) : Nat := 2 ^ f.p - 1
def maxQ (f : Fmt) : Int := (2 ^ f.ew - 2 : Nat) - (f.bias : Int) - (f.p - 1 : Nat)
def infOf (f : Fmt) (neg : Bool) : Nat := b2n neg * 2 ^ (f.p - 1 + f.ew) + (2 ^ f.ew - 1) * 2 ^ (f.p - 1)
/-- The canonical NaN of a type (R53). -/
def nanOf (f : Fmt) : Nat := (2 ^ f.ew - 1) * 2 ^ (f.p - 1) + 2 ^ (f.p - 2)
def zeroOf (f : Fmt) (neg : Bool) : Nat := b2n neg * 2 ^ (f.p - 1 + f.ew)
def maxFin (f : Fmt) (neg : Bool) : Nat := infOf f neg - 1

/-- Round an exact value to an IEEE format: pattern and flags (R54, R55). -/
def roundF (f : Fmt) (mode : Nat) (neg : Bool) (m : Nat) (e : Int) : Nat × Nat :=
  if m = 0 then (zeroOf f neg, 0)
  else
    let r := roundTo mode f.p (emin f) (maxM f) (maxQ f) neg m e
    if r.ovf then
      let toInf := match mode with
        | 0 => true
        | 2 => !neg
        | 3 => neg
        | _ => false
      (if toInf then infOf f neg else maxFin f neg, flOF + flNX)
    else (packFin f neg r.m r.q, (if r.inexact then flNX else 0) + (if r.tiny && r.inexact then flUF else 0))

/-- A quiet NaN result, with NV when an input signals (R53). -/
def nanRes (f : Fmt) (invalid : Bool) : Nat × Nat := (nanOf f, if invalid then flNV else 0)
def FV.isNan : FV → Bool
  | .nan _ => true
  | _ => false
def FV.isSig : FV → Bool
  | .nan s => s
  | _ => false
/-- The value is a number, not an infinity. -/
def FV.isFin : FV → Bool
  | .fin _ _ _ => true
  | _ => false
/-- The sign of a value, of a zero too. -/
def FV.sign : FV → Bool
  | .nan _ => false
  | .inf n => n
  | .fin n _ _ => n
/-- Significand and exponent of a number. -/
def FV.signif : FV → Nat
  | .fin _ m _ => m
  | _ => 0
def FV.expo : FV → Int
  | .fin _ _ e => e
  | _ => 0
def FV.neg : FV → FV
  | .nan s => .nan s
  | .inf n => .inf (!n)
  | .fin n m e => .fin (!n) m e
/-- Sign of an exact sum that is zero (IEEE 754): of both addends where they agree, else + but − toward −∞. -/
def zeroSign (mode : Nat) (a b : Bool) : Bool := if a = b then a else decide (mode = 3)
/-- Exact sum of two finite values, on a common quantum. -/
def addExact (an : Bool) (am : Nat) (ae : Int) (bn : Bool) (bm : Nat) (be : Int) : Int × Int :=
  let q := min ae be
  let x : Int := am * 2 ^ (ae - q).toNat
  let y : Int := bm * 2 ^ (be - q).toNat
  ((if an then -x else x) + (if bn then -y else y), q)
/-- Round a signed exact integer at a quantum; a zero takes the sign given. -/
def roundInt (f : Fmt) (mode : Nat) (v q : Int) (zs : Bool) : Nat × Nat :=
  if v = 0 then (zeroOf f zs, 0) else roundF f mode (decide (v < 0)) v.natAbs q

/-- a + b of decoded values. -/
def addV (f : Fmt) (mode : Nat) (a b : FV) : Nat × Nat :=
  match a, b with
  | .nan s, y => nanRes f (s || y.isSig)
  | x, .nan s => nanRes f (s || x.isSig)
  | .inf n, .inf m => if n = m then (infOf f n, 0) else nanRes f true
  | .inf n, _ => (infOf f n, 0)
  | _, .inf n => (infOf f n, 0)
  | .fin an am ae, .fin bn bm be =>
    let (v, q) := addExact an am ae bn bm be
    roundInt f mode v q (zeroSign mode an bn)
/-- a · b of decoded values. -/
def mulV (f : Fmt) (mode : Nat) (a b : FV) : Nat × Nat :=
  match a, b with
  | .nan s, y => nanRes f (s || y.isSig)
  | x, .nan s => nanRes f (s || x.isSig)
  | .inf n, .inf m => (infOf f (n != m), 0)
  | .inf n, .fin bn m _ => if m = 0 then nanRes f true else (infOf f (n != bn), 0)
  | .fin an m _, .inf n => if m = 0 then nanRes f true else (infOf f (an != n), 0)
  | .fin an am ae, .fin bn bm be => roundF f mode (an != bn) (am * bm) (ae + be)
/-- a · b + c with one rounding. IEEE 754 leaves open whether ∞ · 0 with a quiet NaN addend is invalid: Config's free value says. -/
def fmaV (f : Fmt) (mode : Nat) (a b c : FV) : Nat × Nat :=
  let invalidProd := match a, b with
    | .inf _, .fin _ m _ => decide (m = 0)
    | .fin _ m _, .inf _ => decide (m = 0)
    | _, _ => false
  if a.isNan || b.isNan || c.isNan then
    if a.isSig || b.isSig || c.isSig then nanRes f true
    else if invalidProd then nanRes f Config.fmaInvalidQuietNan else nanRes f false
  else if invalidProd then nanRes f true
  else
    match a, b, c with
    | .fin an am ae, .fin bn bm be, .fin cn cm ce =>
      let (v, q) := addExact (an != bn) (am * bm) (ae + be) cn cm ce
      roundInt f mode v q (zeroSign mode (an != bn) cn)
    | .fin _ _ _, .fin _ _ _, .inf n => (infOf f n, 0)
    | x, y, z =>
      let sg : FV → Bool := fun v => match v with
        | .inf n => n
        | .fin n _ _ => n
        | .nan _ => false
      let pn := sg x != sg y
      match z with
      | .inf n => if n = pn then (infOf f n, 0) else nanRes f true
      | _ => (infOf f pn, 0)
/-- Exact quotient with a sticky bit: enough bits for any format here. -/
def divBits (a b : Nat) (extra : Nat) : Nat × Int :=
  let n := a * 2 ^ extra
  (2 * (n / b) + (if n % b = 0 then 0 else 1), -(extra : Int) - 1)
/-- a / b of decoded values. -/
def divV (f : Fmt) (mode : Nat) (a b : FV) : Nat × Nat :=
  match a, b with
  | .nan s, y => nanRes f (s || y.isSig)
  | x, .nan s => nanRes f (s || x.isSig)
  | .inf _, .inf _ => nanRes f true
  | .inf n, .fin bn _ _ => (infOf f (n != bn), 0)
  | .fin an _ _, .inf n => (zeroOf f (an != n), 0)
  | .fin an am ae, .fin bn bm be =>
    if bm = 0 then (if am = 0 then nanRes f true else (infOf f (an != bn), flDZ))
    else if am = 0 then (zeroOf f (an != bn), 0)
    else
      let (m, e) := divBits am bm (nbitsOf bm + f.p + 3)
      roundF f mode (an != bn) m (ae - be + e)
/-- Integer square root by bits, from bit i down. -/
def isqrtFrom : Nat → Nat → Nat → Nat
  | 0, n, r => let c := r + 1; if c * c ≤ n then c else r
  | i + 1, n, r => let c := r + 2 ^ (i + 1); isqrtFrom i n (if c * c ≤ n then c else r)
def isqrt (n : Nat) : Nat := if n = 0 then 0 else isqrtFrom (nbitsOf n / 2 + 1) n 0
/-- Square root, nearest even. -/
def sqrtV (f : Fmt) (a : FV) : Nat × Nat :=
  match a with
  | .nan s => nanRes f s
  | .inf n => if n then nanRes f true else (infOf f false, 0)
  | .fin n m e =>
    if m = 0 then (zeroOf f n, 0)
    else if n then nanRes f true
    else
      let sh := 2 * f.p + 6 + (if (e - (2 * f.p + 6 : Nat)) % 2 = 0 then 0 else 1)
      let x := m * 2 ^ sh
      let r := isqrt x
      roundF f 0 false (2 * r + (if r * r = x then 0 else 1)) ((e - (sh : Int)) / 2 - 1)

/-! Operations on patterns. -/

def addF (f : Fmt) (mode a b : Nat) : Nat × Nat := addV f mode (unpack f a) (unpack f b)
def subF (f : Fmt) (mode a b : Nat) : Nat × Nat := addV f mode (unpack f a) (unpack f b).neg
def mulF (f : Fmt) (mode a b : Nat) : Nat × Nat := mulV f mode (unpack f a) (unpack f b)
def fmaF (f : Fmt) (mode a b c : Nat) : Nat × Nat := fmaV f mode (unpack f a) (unpack f b) (unpack f c)
/-- Invert the sign bit. -/
def negBits (f : Fmt) (a : Nat) : Nat := a ^^^ 2 ^ (f.p - 1 + f.ew)
def absBits (f : Fmt) (a : Nat) : Nat := a % 2 ^ (f.p - 1 + f.ew)

/-- Order of two decoded numbers; none with a NaN. -/
def cmpV (a b : FV) : Option Ordering :=
  match a, b with
  | .nan _, _ => none
  | _, .nan _ => none
  | .inf n, .inf m => some (if n = m then .eq else if n then .lt else .gt)
  | .inf n, _ => some (if n then .lt else .gt)
  | _, .inf n => some (if n then .gt else .lt)
  | .fin an am ae, .fin bn bm be =>
    let (v, _) := addExact an am ae (!bn) bm be
    some (if v = 0 then .eq else if v < 0 then .lt else .gt)
/-- MAX and MIN of R170: a NaN gives the canonical NaN, +0 is larger than −0. -/
def maxF (f : Fmt) (a b : Nat) : Nat × Nat :=
  let x := unpack f a
  let y := unpack f b
  match cmpV x y with
  | none => nanRes f (x.isSig || y.isSig)
  | some .lt => (b, 0)
  | some .gt => (a, 0)
  | some .eq => (if a.testBit (f.p - 1 + f.ew) then b else a, 0)
def minF (f : Fmt) (a b : Nat) : Nat × Nat :=
  let x := unpack f a
  let y := unpack f b
  match cmpV x y with
  | none => nanRes f (x.isSig || y.isSig)
  | some .lt => (a, 0)
  | some .gt => (b, 0)
  | some .eq => (if a.testBit (f.p - 1 + f.ew) then a else b, 0)

/-! Conversions (R56). -/

/-- Exact widening or rounding of a decoded value into an IEEE format. -/
def cvtV (f : Fmt) (mode : Nat) (a : FV) : Nat × Nat :=
  match a with
  | .nan s => nanRes f s
  | .inf n => (infOf f n, 0)
  | .fin n m e => roundF f mode n m e
/-- To E4M3: overflow and infinity saturate at 448, with OF and NX. -/
def toE4M3 (mode : Nat) (a : FV) : Nat × Nat :=
  match a with
  | .nan s => (0x7F, if s then flNV else 0)
  | .inf n => (b2n n * 128 + 0x7E, flOF + flNX)
  | .fin n m e =>
    if m = 0 then (b2n n * 128, 0)
    else
      let r := roundTo mode 4 (-6) 14 5 n m e
      if r.ovf then (b2n n * 128 + 0x7E, flOF + flNX)
      else (packFin e4m3 n r.m r.q, (if r.inexact then flNX else 0) + (if r.tiny && r.inexact then flUF else 0))
/-- To E5M2: as an IEEE format; a NaN gives 0x7E. -/
def toE5M2 (mode : Nat) (a : FV) : Nat × Nat :=
  match a with
  | .nan s => (0x7E, if s then flNV else 0)
  | .inf n => (infOf e5m2 n, 0)
  | .fin n m e => roundF e5m2 mode n m e
/-- A finite value rounded to an integer in a mode, and whether inexact. -/
def toInt (mode : Nat) (neg : Bool) (m : Nat) (e : Int) : Int × Bool :=
  let (r, ix) := if 0 ≤ e then (m * 2 ^ e.toNat, false) else roundShift mode neg m (-e).toNat
  (if neg then -(r : Int) else r, ix)
/-- Floating to an integer range [lo, hi]: NaN gives 0 with NV, out of range saturates with NV. -/
def toIntSat (mode : Nat) (lo hi : Int) (a : FV) : Int × Nat :=
  match a with
  | .nan _ => (0, flNV)
  | .inf n => (if n then lo else hi, flNV)
  | .fin n m e =>
    let (v, ix) := toInt mode n m e
    if v < lo then (lo, flNV) else if hi < v then (hi, flNV) else (v, if ix then flNX else 0)
/-- Integer to floating. -/
def ofInt (f : Fmt) (mode : Nat) (v : Int) : Nat × Nat := roundInt f mode v 0 false
/-- RNEINT: the integer nearest to m · 2^e, ties to even. -/
def rneInt (neg : Bool) (m : Nat) (e : Int) : Int := (toInt 0 neg m e).1
/-- Floor of log2 of m · 2^e, m not zero. -/
def flog2 (m : Nat) (e : Int) : Int := e + nbitsOf m - 1
/-- Round an FP value to an integral value of its type (R170): no NX, sign of zero kept. -/
def rndF (f : Fmt) (mode a : Nat) : Nat × Nat :=
  match unpack f a with
  | .nan s => nanRes f s
  | .inf n => (infOf f n, 0)
  | .fin n m e =>
    let (v, _) := toInt mode n m e
    if v = 0 then (zeroOf f n, 0) else ((roundInt f 0 v 0 n).1, 0)

/-! FP32 shorthands, nearest even. -/

/-- RNE32 of an exact value. -/
def rne32 (neg : Bool) (m : Nat) (e : Int) : Nat := (roundF f32 0 neg m e).1
def add32 (a b : Nat) : Nat := (addF f32 0 a b).1
def sub32 (a b : Nat) : Nat := (subF f32 0 a b).1
def mul32 (a b : Nat) : Nat := (mulF f32 0 a b).1
def fma32 (a b c : Nat) : Nat := (fmaF f32 0 a b c).1
def div32 (a b : Nat) : Nat := (divV f32 0 (unpack f32 a) (unpack f32 b)).1
def sqrt32 (a : Nat) : Nat := (sqrtV f32 (unpack f32 a)).1
def neg32 (a : Nat) : Nat := negBits f32 a
def one32 : Nat := 0x3F800000
def nan32 : Nat := 0x7FC00000
/-- a < b, a ≤ b of FP32 patterns, false with a NaN. -/
def lt32 (a b : Nat) : Bool := cmpV (unpack f32 a) (unpack f32 b) == some .lt
def le32 (a b : Nat) : Bool := let c := cmpV (unpack f32 a) (unpack f32 b); c == some .lt || c == some .eq
def eq32 (a b : Nat) : Bool := cmpV (unpack f32 a) (unpack f32 b) == some .eq

end Sys2Proof.Machine
end

