-- ==== Sys2Proof/Machine/Numeric.lean ====
section
/-! DEFINITION. Evaluation orders fixed bit for bit: the special functions of R58 to R64, the block formats and QUANT of R42, R43, R57, the block products of R45 to R48, the Quill generator of R184 to R186. FP32 patterns are numbers. -/

namespace Sys2Proof.Machine

/-! Special functions. A step is a pattern with its flags. -/

/-- FMA, product and sum to nearest even: a step adds only NX to the flags so far, the final rounding (the L forms) all of its flags (R58). -/
def fmaS (a b c : Nat) (fl : Nat) : Nat × Nat := let r := fmaF f32 0 a b c; (r.1, orF fl (r.2 &&& flNX))
def mulS (a b : Nat) (fl : Nat) : Nat × Nat := let r := mulF f32 0 a b; (r.1, orF fl (r.2 &&& flNX))
def addS (a b : Nat) (fl : Nat) : Nat × Nat := let r := addF f32 0 a b; (r.1, orF fl (r.2 &&& flNX))
def subS (a b : Nat) (fl : Nat) : Nat × Nat := let r := subF f32 0 a b; (r.1, orF fl (r.2 &&& flNX))
def fmaL (a b c : Nat) (fl : Nat) : Nat × Nat := let r := fmaF f32 0 a b c; (r.1, orF fl r.2)
def mulL (a b : Nat) (fl : Nat) : Nat × Nat := let r := mulF f32 0 a b; (r.1, orF fl r.2)
def addL (a b : Nat) (fl : Nat) : Nat × Nat := let r := addF f32 0 a b; (r.1, orF fl r.2)
/-- Horner steps p := FMA(p, x, c) over the coefficients. -/
def horner (x : Nat) : List Nat → Nat × Nat → Nat × Nat
  | [], r => r
  | c :: cs, (p, fl) => horner x cs (fmaS p x c fl)
/-- Scale a pattern by ±2^k, rounding once. -/
def scaleS (neg : Bool) (y : Nat) (k : Int) (fl : Nat) : Nat × Nat :=
  match unpack f32 y with
  | .fin n m e => let r := roundF f32 0 (n != neg) m (e + k); (r.1, orF fl r.2)
  | .inf n => (infOf f32 (n != neg), fl)
  | .nan _ => (nan32, fl)
/-- RNE32(a / b) of naturals. -/
def ratio32 (a b : Nat) : Nat := let (m, e) := divBits a b (nbitsOf b + 28); rne32 false m e
/-- The mantissa m in [1, 2) of a finite non-zero value and its exponent: m · 2^-(k) as (M, k), e. -/
def normalise (m : Nat) (e : Int) : Nat × Nat × Int := (m, nbitsOf m - 1, e + nbitsOf m - 1)
/-- floor((m/2^k − 1) · n) for m/2^k in [1, 2). -/
def stepIdx (m k n : Nat) : Nat := (m - 2 ^ k) * n / 2 ^ k
/-- Pattern of m / 2^k, exact for at most 24 bits. -/
def pat (m k : Nat) : Nat := rne32 false m (-(k : Int))

/-- Reciprocal (R59). -/
def recip (x : Nat) : Nat × Nat :=
  match unpack f32 x with
  | .nan s => nanRes f32 s
  | .inf n => (zeroOf f32 n, 0)
  | .fin n m e =>
    if m = 0 then (infOf f32 n, flDZ)
    else
      let (mm, k, ex) := normalise m e
      let j := stepIdx mm k 64
      let y := ratio32 128 (128 + 2 * j + 1)
      let nm := neg32 (pat mm k)
      let (t, fl) := fmaS nm y one32 0
      let (y, fl) := fmaS y t y fl
      let (t, fl) := fmaS nm y one32 fl
      let (y, fl) := fmaS y t y fl
      scaleS n y (-ex) fl
/-- RNE32(1 / √(a / b)). -/
def rsqrtSeed (a b : Nat) : Nat :=
  let n := b * 2 ^ 80 / a
  let r := isqrt n
  let st := if b * 2 ^ 80 % a = 0 ∧ r * r = n then 0 else 1
  rne32 false (2 * r + st) (-41)
/-- Reciprocal square root (R60). -/
def rsqrt (x : Nat) : Nat × Nat :=
  match unpack f32 x with
  | .nan s => nanRes f32 s
  | .inf n => if n then nanRes f32 true else (0, 0)
  | .fin n m e =>
    if m = 0 then (infOf f32 n, flDZ)
    else if n then nanRes f32 true
    else
      let (mm, k, ex) := normalise m e
      let odd := decide (ex % 2 = 1)
      let kk := (ex - (if odd then 1 else 0)) / 2
      let mp := rne32 false mm ((if odd then 1 else 0) - (k : Int))
      let seed :=
        if odd then let j := (2 * mm - 2 * 2 ^ k) * 8 / 2 ^ k; rsqrtSeed (32 + 2 * j + 1) 16
        else let j := stepIdx mm k 16; rsqrtSeed (32 + 2 * j + 1) 32
      let (h, fl) := mulS 0x3F000000 mp 0
      let iter := fun (yf : Nat × Nat) =>
        let (t, fl) := mulS yf.1 yf.1 yf.2
        let (u, fl) := fmaS (neg32 h) t 0x3FC00000 fl
        mulS yf.1 u fl
      let (y, fl) := iter (iter (iter (seed, fl)))
      scaleS false y (-kk) fl

/-- E2T[j] := RNE32(2^(j/32)) for j in −16..16 (R61). -/
def e2t (j : Int) : Nat :=
  [0x3f3504f3, 0x3f38fbaf, 0x3f3d08a4, 0x3f412c4d, 0x3f45672a, 0x3f49b9be, 0x3f4e248c, 0x3f52a81e, 0x3f5744fd, 0x3f5bfbb8, 0x3f60ccdf,
   0x3f65b907, 0x3f6ac0c7, 0x3f6fe4ba, 0x3f75257d, 0x3f7a83b3, 0x3f800000, 0x3f82cd87, 0x3f85aac3, 0x3f88980f, 0x3f8b95c2, 0x3f8ea43a,
   0x3f91c3d3, 0x3f94f4f0, 0x3f9837f0, 0x3f9b8d3a, 0x3f9ef532, 0x3fa27043, 0x3fa5fed7, 0x3fa9a15b, 0x3fad583f, 0x3fb123f6, 0x3fb504f3].getD
    (j + 16).toNat 0
/-- exp2 (R61). -/
def exp2 (x : Nat) : Nat × Nat :=
  match unpack f32 x with
  | .nan s => nanRes f32 s
  | .inf n => (if n then 0 else infOf f32 false, 0)
  | .fin n m e =>
    if flog2 (m + 1) e > 9 then
      -- |x| ≥ 2^9: n is so large that the final scaling over- or underflows whatever the fraction
      let y := 0x3F800000
      scaleS false y (if n then -1000 else 1000) flNX
    else
      let i := rneInt n m e
      let (v, q) := addExact n m e true i.natAbs 0
      let (v, q) := if i < 0 then addExact n m e false i.natAbs 0 else (v, q)
      let j := rneInt (decide (v < 0)) v.natAbs (q + 5)
      let (g, gq) := addExact (decide (v < 0)) v.natAbs q (decide (0 < j)) j.natAbs (-5)
      let gr := roundInt f32 0 g gq false
      let gp := gr.1
      let (p, fl) := fmaS gp 0x3d635847 0x3e75fdf0 gr.2
      let (p, fl) := fmaS gp p 0x3f317218 fl
      let (p, fl) := mulS gp p fl
      let (y, fl) := fmaS (e2t j) p (e2t j) fl
      scaleS false y i fl

/-- L2T[j] := RNE32(log2(1 + j/64)) for j in −16..32 (R62). -/
def l2t (j : Int) : Nat :=
  [0xbed47fcc, 0xbec544c0, 0xbeb6587b, 0xbea7b7de, 0xbe995ff7, 0xbe8b4e03, 0xbe7afec5, 0xbe5fe33d, 0xbe4544c0, 0xbe2b1ee1, 0xbe116d6e,
   0xbdf058d7, 0xbdbeb025, 0xbd8dd995, 0xbd3b9ca6, 0xbcba1f74, 0x0, 0x3cb73cb4, 0x3d35d69c, 0x3d8759c5, 0x3db31fb8, 0x3dde4212, 0x3e0462c4,
   0x3e19574f, 0x3e2e00d2, 0x3e42615f, 0x3e567af1, 0x3e6a4f72, 0x3e7de0b6, 0x3e88983f, 0x3e92203d, 0x3e9b8926, 0x3ea4d3c2, 0x3eae00d2,
   0x3eb7110e, 0x3ec0052b, 0x3ec8ddd4, 0x3ed19bb0, 0x3eda3f60, 0x3ee2c97d, 0x3eeb3a9f, 0x3ef39355, 0x3efbd42b, 0x3f01fed4, 0x3f060828,
   0x3f0a0650, 0x3f0df989, 0x3f11e20f, 0x3f15c01a].getD (j + 16).toNat 0
/-- log2 (R62). -/
def log2f (x : Nat) : Nat × Nat :=
  match unpack f32 x with
  | .nan s => nanRes f32 s
  | .inf n => if n then nanRes f32 true else (infOf f32 false, 0)
  | .fin n m e =>
    if m = 0 then (infOf f32 true, flDZ)
    else if n then nanRes f32 true
    else
      let (mm, k, ex) := normalise m e
      let half := decide (2 * mm ≥ 3 * 2 ^ k)
      let ex := if half then ex + 1 else ex
      let k := if half then k + 1 else k
      -- (mm/2^k − 1) · 64, rounded to an integer
      let d : Int := (mm : Int) - (2 ^ k : Nat)
      let j := rneInt (decide (d < 0)) d.natAbs (6 - (k : Int))
      let (tv, tq) := addExact false mm (-(k : Int)) true (64 + j).toNat (-6)
      let (t, _) := roundInt f32 0 tv tq false
      let (r, fl) := mulS t (ratio32 64 (64 + j).toNat) 0
      let (p, fl) := fmaS r 0xbeb8aa3b 0x3ef6384f fl
      let (p, fl) := fmaS r p 0xbf38aa3b fl
      let (p, fl) := fmaS r p 0x3fb8aa3b fl
      let (p, fl) := mulS r p fl
      let (y, fl) := addS (ofInt f32 0 ex).1 (l2t j) fl
      addL y p fl

/-- floor(π · 2^768). Log entry 37. -/
def piFix : Nat := 0x3243f6a8885a308d313198a2e03707344a4093822299f31d0082efa98ec4e6c89452821e638d01377be5466cf34e90c6cc0ac29b7c97c50dd3f84d5b5b54709179216d5d98979fb1bd1310ba698dfb5ac2ffd72dbd01adfb7b8e1afed6a267e96
/-- Reduction of R63: n := RNEINT(x · 2/π) and f := RNE32(x − n · π/2), with the flags of f's rounding. -/
def trigReduce (neg : Bool) (m : Nat) (e : Int) : Int × Nat × Nat :=
  -- x at the quantum 2^-769, where π/2 is piFix
  let x := m * 2 ^ (e + 769).toNat
  let q := (2 * x + piFix) / (2 * piFix)
  let r : Int := (x : Int) - (q * piFix : Nat)
  let r := if neg then -r else r
  let (f, fl) := roundInt f32 0 r (-769) neg
  (if neg then -(q : Int) else q, f, if q = 0 then 0 else orF (fl &&& flNX) flNX)
def sinKernel (f z : Nat) (fl : Nat) : Nat × Nat :=
  let (p, fl) := horner z [0xb9500d01, 0x3c088889, 0xbe2aaaab] (0x3638ef1d, fl)
  let (p, fl) := mulS z p fl
  fmaL f p f fl
def cosKernel (z : Nat) (fl : Nat) : Nat × Nat :=
  let (p, fl) := horner z [0x37d00d01, 0xbab60b61, 0x3d2aaaab, 0xbf000000] (0xb493f27e, fl)
  fmaL z p one32 fl
/-- sin, or cos with quarter 1 (R63). -/
def trig (quarter : Nat) (x : Nat) : Nat × Nat :=
  match unpack f32 x with
  | .nan s => nanRes f32 s
  | .inf _ => nanRes f32 true
  | .fin n m e =>
    if m = 0 ∧ quarter = 0 then (zeroOf f32 n, 0)
    else
      let (i, f, fl) := trigReduce n m e
      let (z, fl) := mulS f f fl
      let qd := ((i + quarter) % 4).toNat
      let (v, fl) := if qd % 2 = 0 then sinKernel f z fl else cosKernel z fl
      (if qd ≥ 2 then neg32 v else v, fl)
def sinf (x : Nat) : Nat × Nat := trig 0 x
def cosf (x : Nat) : Nat × Nat := trig 1 x
/-- tanh (R64). -/
def tanhf (x : Nat) : Nat × Nat :=
  match unpack f32 x with
  | .nan s => nanRes f32 s
  | .inf n => (b2n n * 2 ^ 31 + one32, 0)
  | .fin n m _ =>
    let a := absBits f32 x
    if m = 0 then (zeroOf f32 n, 0)
    else if le32 0x41100000 a then (b2n n * 2 ^ 31 + one32, 0)
    else if lt32 a 0x3E000000 then
      let (z, fl) := mulS x x 0
      let (p, fl) := horner z [0x3e088889, 0xbeaaaaab] (0xbd5d0dd1, fl)
      let (p, fl) := mulS z p fl
      fmaL x p x fl
    else
      let (aa, fl) := mulS a 0x4038aa3b 0
      let (ex, fe) := exp2 (neg32 aa)
      let (d, fl) := subS one32 ex (orF fl fe)
      let (s, fl) := addS one32 ex fl
      let (r, fr) := recip s
      let (y, fl) := mulL d r (orF fl fr)
      (if n then neg32 y else y, fl)

/-! Block formats. -/

/-- Element width of a format code of R41; 0 for a reserved code. -/
def fmtBits (c : Nat) : Nat :=
  match c with
  | 0 | 4 | 5 | 9 | 10 => 8
  | 1 | 8 => 6
  | 2 | 6 | 7 => 4
  | 3 => 2
  | 11 | 12 => 16
  | 13 => 32
  | _ => 0
/-- Field width w of R41. -/
def fmtField (c : Nat) : Nat :=
  match c with
  | 0 | 4 | 8 | 10 => 8
  | 1 | 7 => 6
  | 2 | 6 => 4
  | 3 => 2
  | 5 | 9 => 10
  | 11 => 12
  | 12 => 16
  | 13 => 26
  | _ => 2
/-- The format has a block scale (R41). -/
def fmtScaled (c : Nat) : Bool := [0, 1, 2, 3, 6, 7, 8].contains c
/-- Bytes of a 16-element block (R42). -/
def fmtBlock (c : Nat) : Nat := fmtBits c * 2
def fmtIsInt (c : Nat) : Bool := [0, 1, 2, 3, 4, 5, 6].contains c
/-- The floating format of a code; none for an integer code. -/
def fmtFloat (c : Nat) : Fmt :=
  match c with
  | 7 => e2m1
  | 8 => e3m2
  | 9 => e4m3
  | 10 => e5m2
  | 11 => bf16
  | 12 => f16
  | _ => f32
/-- Decoded value of an element of a floating format (R44). -/
def fmtDecode (c x : Nat) : FV :=
  match c with
  | 7 => unpackSmall e2m1 x
  | 8 => unpackSmall e3m2 x
  | 9 => unpackE4M3 x
  | _ => unpack (fmtFloat c) x

/-- A block's scale value (R43): none for a NaN scale, else c · 2^e. -/
def scaleOf (c : Nat) (byte ts : Nat) : Option (Int × Int) :=
  if c = 6 then
    match unpackE4M3 byte, unpack f32 ts with
    | .fin n m e, .fin tn tm te => some ((if n != tn then -((m * tm : Nat) : Int) else ((m * tm : Nat) : Int)), e + te)
    | _, _ => none
  else if fmtScaled c then (if byte = 0xFF then none else some (1, (byte : Int) - 127))
  else some (1, 0)

/-- A block of 16 elements with its scale. -/
structure Block where
  fmt : Nat
  els : List Nat
  scale : Option (Int × Int)
deriving DecidableEq, Repr

/-- Value of element x of a block as a decoded number (R43, R44): for the movement forms. -/
def elemValue (b : Block) (x : Nat) : FV :=
  match b.scale with
  | none => .nan false
  | some (c, e) =>
    if fmtIsInt b.fmt then
      let q : Int := if b.fmt = 5 then (x : Int) else sval (fmtBits b.fmt) x
      .fin (decide (q * c < 0)) (q * c).natAbs e
    else
      match fmtDecode b.fmt x with
      | .fin n m ee => .fin n m (ee + e)
      | v => v

/-- A block aligned (R45): the integers, their exponent, the scale integer. -/
def alignBlock (b : Block) : List Int × Int × Int :=
  match b.scale with
  | none => ([], 0, 0)
  | some (c, e) =>
    if fmtIsInt b.fmt then (b.els.map fun (x : Nat) => if b.fmt = 5 then (x : Int) else sval (fmtBits b.fmt) x, e, c)
    else
      let f := fmtFloat b.fmt
      let w := fmtField b.fmt
      let eb := fun x => Nat.max (x / 2 ^ (f.p - 1) % 2 ^ f.ew) 1
      let eblk := b.els.foldl (fun m x => Nat.max m (eb x)) 1
      let q := b.els.map fun (x : Nat) =>
        match fmtDecode b.fmt x with
        | .fin n m _ => rneInt n m ((w : Int) - 1 - f.p + eb x - eblk)
        | _ => 0
      (q, (eblk : Int) - f.bias - w + 2 + (if fmtScaled b.fmt then e else 0), 1)
/-- Sum of products. -/
def dotInt : List Int → List Int → Int
  | x :: xs, y :: ys => x * y + dotInt xs ys
  | _, _ => 0
/-- Decoded elements of a block before alignment; integer elements are finite. -/
def blockFV (b : Block) : List FV := b.els.map fun x => if fmtIsInt b.fmt then .fin false (if x = 0 then 0 else 1) 0 else fmtDecode b.fmt x
/-- The infinities of a block pair (R47): which signs its products give, and whether one is a NaN. -/
def infPairs : List FV → List FV → Bool × Bool × Bool
  | x :: xs, y :: ys =>
    let (p, n, nan) := infPairs xs ys
    match x, y with
    | .inf a, .inf b => if a != b then (p, true, nan) else (true, n, nan)
    | .inf a, .fin b m _ => if m = 0 then (p, n, true) else if a != b then (p, true, nan) else (true, n, nan)
    | .fin a m _, .inf b => if m = 0 then (p, n, true) else if a != b then (p, true, nan) else (true, n, nan)
    | _, _ => (p, n, nan)
  | _, _ => (false, false, false)
/-- Sign of an integer element for R47's products of infinities. -/
def intSigned (b : Block) (v : FV) (x : Nat) : FV :=
  if fmtIsInt b.fmt then
    match v with
    | .fin _ m e =>
      let q : Int := if b.fmt = 5 then (x : Int) else sval (fmtBits b.fmt) x
      let c := match b.scale with
        | some (c, _) => c
        | none => 1
      .fin (decide (q * c < 0)) (if q * c = 0 then 0 else m) e
    | v => v
  else v
/-- Value of one block dot product, an FP32 pattern (R46, R47). -/
def blockValue (a b : Block) : Nat :=
  let va := List.zipWith (intSigned a) (blockFV a) a.els
  let vb := List.zipWith (intSigned b) (blockFV b) b.els
  if a.scale.isNone || b.scale.isNone || va.any FV.isNan || vb.any FV.isNan then nan32
  else
    let hasInf := fun (l : List FV) => l.any fun v => match v with
      | .inf _ => true
      | _ => false
    if hasInf va || hasInf vb then
      let (p, n, nan) := infPairs va vb
      if nan || (p && n) then nan32 else if n then infOf f32 true else infOf f32 false
    else
      let (qa, ea, ca) := alignBlock a
      let (qb, eb, cb) := alignBlock b
      let s := dotInt qa qb * ca * cb
      if s = 0 then 0 else rne32 (decide (s < 0)) s.natAbs (ea + eb)

/-! Quantisation (R57). -/

def clampInt (lo hi v : Int) : Int := if v < lo then lo else if hi < v then hi else v
/-- Largest magnitude of finite values, as m · 2^e. -/
def maxAbs : List FV → Nat × Int
  | [] => (0, 0)
  | .fin _ m e :: r =>
    let (bm, be) := maxAbs r
    let (v, _) := addExact false m e true bm be
    if 0 < v then (m, e) else (bm, be)
  | _ :: r => maxAbs r
/-- Round to a small format, saturating; inexact and clamped (R57). -/
def toSmall (f : Fmt) (maxMag : Nat) (maxE : Int) (n : Bool) (m : Nat) (e : Int) : Nat × Bool × Bool :=
  if m = 0 then (b2n n * 2 ^ (f.p - 1 + f.ew), false, false)
  else
    let r := roundTo 0 f.p (emin f) maxMag maxE n m e
    if r.ovf then (packFin f n maxMag maxE, true, true) else (packFin f n r.m r.q, r.inexact, false)
/-- Exact rational m·2^e / (bm·2^be) to an integer, nearest even, and whether inexact. -/
def divInt (n : Bool) (m : Nat) (e : Int) (bm : Nat) (be : Int) : Int × Bool :=
  let d := e - be
  let num := if 0 ≤ d then m * 2 ^ d.toNat else m
  let den := if 0 ≤ d then bm else bm * 2 ^ (-d).toNat
  let q := num / den
  let r := num % den
  let q' := if 2 * r > den ∨ (2 * r = den ∧ q % 2 = 1) then q + 1 else q
  (if n then -(q' : Int) else q', decide (r ≠ 0))
/-- An operation on every number of a block: what it gives, whether inexact, whether clamped. -/
def overBlock {α : Type} (none : α) (op : Bool → Nat → Int → α × Bool × Bool) (v : List FV) : List (α × Bool × Bool) :=
  v.map fun x => match x with
    | .fin n m e => op n m e
    | _ => (none, false, false)
/-- The flags of a block's elements: NX where one is inexact, SAT where one is clamped. -/
def blockFlags {α : Type} (q : List (α × Bool × Bool)) : Nat := (if q.any (fun t => t.2.1) then flNX else 0) + if q.any (fun t => t.2.2) then flSAT else 0
/-- A rounded element clamped to ±hi. -/
def clampElem (hi : Int) (r : Int × Bool) : Int × Bool × Bool :=
  let clamped := decide (r.1 < -hi) || decide (hi < r.1)
  (clampInt (-hi) hi r.1, r.2 || clamped, clamped)
/-- Integer elements of w bits and their flags. -/
def quantInts (w : Nat) (hi : Int) (op : Bool → Nat → Int → Int × Bool) (v : List FV) : List Nat × Nat :=
  let q := overBlock 0 (fun n m e => clampElem hi (op n m e)) v
  (q.map fun t => wrapN w t.1, blockFlags q)
/-- Elements of a small format scaled by 2^sh, and their flags. -/
def quantFloats (f : Fmt) (maxMag : Nat) (maxE sh : Int) (v : List FV) : List Nat × Nat :=
  let q := overBlock 0 (fun n m e => toSmall f maxMag maxE n m (e + sh)) v
  (q.map Prod.fst, blockFlags q)
/-- An SCINT4 block with the tensor scale tm · 2^te. -/
def quantScint (tm : Nat) (te : Int) (am : Nat) (ae : Int) (v : List FV) : Nat × List Nat × Nat :=
  let d := divBits am (7 * tm) (nbitsOf (7 * tm) + 16)
  let sb := (toE4M3 0 (.fin false d.1 (ae - te + d.2))).1
  match unpackE4M3 sb with
  | .fin _ sm se =>
    if sm = 0 then (sb, v.map fun _ => 0, if am = 0 then 0 else flNX)
    else (sb, quantInts 4 7 (fun n m e => divInt n m e (sm * tm) (se + te)) v)
  | _ => (sb, v.map fun _ => 0, 0)
/-- QUANT: the scale byte, the 16 element patterns, the flags it sets where it sets any. ts is the per-tensor scale of SCINT4. -/
def quant (xs : List Nat) (c : Nat) (ts : Nat) : Nat × List Nat × Nat :=
  let v := xs.map (unpack f32)
  let t := unpack f32 ts
  let nv := v.any fun x => !x.isFin && (!x.isNan || x.isSig)
  let zeros := xs.map fun _ => 0
  -- R174 sets NV for every such ts, whatever the block holds (log entry 89)
  if c = 6 ∧ !(t.isFin && !t.sign && t.signif != 0) then (0x7F, zeros, flNV)
  else if v.any fun x => !x.isFin then (if c = 6 then 0x7F else 0xFF, zeros, if nv then flNV else 0)
  else
    let (am, ae) := maxAbs v
    if c = 6 then quantScint t.signif t.expo am ae v
    else if am = 0 then (127, zeros, 0)
    else
      let w := fmtBits c
      let emax : Int := if c = 7 then 2 else if c = 8 then 4 else (w : Int) - 2
      let x := (clampInt 0 254 (flog2 am ae - emax + 127)).toNat
      let sh : Int := 127 - (x : Int)
      (x, if c = 7 then quantFloats e2m1 3 1 sh v else if c = 8 then quantFloats e3m2 7 2 sh v else quantInts w (2 ^ (w - 1) - 1) (fun n m e => toInt 0 n m (e + sh)) v)

/-! Quill (R184 to R186). -/

def rotl32 (x n : Nat) : Nat := (x * 2 ^ n % 2 ^ 32) + x / 2 ^ (32 - n)
def quillRounds (k0 k1 : Nat) : Nat → Nat → Nat × Nat × Nat × Nat → Nat × Nat × Nat × Nat
  | 0, _, x => x
  | n + 1, r, (x0, x1, x2, x3) =>
    let x0 := (x0 + x1 + (if r % 2 = 0 then k0 else k1)) % 2 ^ 32
    let x1 := rotl32 x1 7 ^^^ x0
    let x2 := (x2 + x3 + 0x6B43A9B5 * (r + 1)) % 2 ^ 32
    let x3 := rotl32 x3 13 ^^^ x2
    quillRounds k0 k1 n (r + 1) (x0, x3, x2, x1)
/-- The four words of QUILL(c). -/
def quill (k0 k1 c : Nat) : List Nat :=
  let (a, b, d, e) := quillRounds k0 k1 8 0 (bits c 0 32, bits c 32 32, bits c 64 32, bits c 96 32)
  [a, b, d, e]
/-- The first n words drawn from a counter on (R185). -/
def quillWords (k0 k1 c n : Nat) : List Nat := ((List.range (ceilDiv n 4)).map fun j => quill k0 k1 ((c + j) % 2 ^ 128)).flatten.take n
/-- UNIF(w) (R186). -/
def unif (w : Nat) : Nat := rne32 false (2 * (w / 2 ^ 9) + 1) (-24)

/-! Conversions of blocks for products (R201). -/

/-- CONV(x, F) of 16 FP32 elements. -/
def convBlock (c : Nat) (xs : List Nat) : Block :=
  if c = 13 then { fmt := 13, els := xs, scale := some (1, 0) }
  else if c = 9 then { fmt := 9, els := xs.map fun x => (toE4M3 0 (unpack f32 x)).1, scale := some (1, 0) }
  else if c = 10 then { fmt := 10, els := xs.map fun x => (toE5M2 0 (unpack f32 x)).1, scale := some (1, 0) }
  else if c = 11 ∨ c = 12 then { fmt := c, els := xs.map fun x => (cvtV (fmtFloat c) 0 (unpack f32 x)).1, scale := some (1, 0) }
  else
    let (s, q, _) := quant xs c 0
    { fmt := c, els := q, scale := scaleOf c s 0 }
/-- Cut a list into blocks of 16, the last padded with +0.0. -/
def blocksOf : Nat → List Nat → List (List Nat)
  | 0, _ => []
  | n + 1, l => (l.take 16 ++ List.replicate (16 - (l.take 16).length) 0) :: blocksOf n (l.drop 16)
/-- The block values of BDOT, ascending K (R201). -/
def bdotVals (c : Nat) (x y : List Nat) : List Nat :=
  let n := ceilDiv x.length 16
  List.zipWith (fun a b => blockValue (convBlock c a) (convBlock c b)) (blocksOf n x) (blocksOf n y)
/-- acc := RNE32(acc + v) over the block values (R48). -/
def accumulate (acc : Nat) (vs : List Nat) : Nat := vs.foldl add32 acc
/-- DOT(x, y, n): a chain of FMAs from +0.0. -/
def dot32 (x y : List Nat) : Nat := (List.zip x y).foldl (fun acc p => fma32 p.1 p.2 acc) 0

end Sys2Proof.Machine
end

