-- ==== Sys2Proof/Machine/Topo.lean ====
section
/-! DEFINITION. The torus as it stands: numbers of dies, cores and packages, ports, planes, routes and their time (R284, R371 to R377, R398). -/

namespace Sys2Proof.Machine

/-! Addresses. -/

/-- Home die and offset of a physical address (R284). -/
def paDie (pa : Nat) : Nat := pa / 2 ^ 36 % 2 ^ 23
def paOff (pa : Nat) : Nat := pa % 2 ^ 36
/-- The die's coordinates (R371). -/
def dieX (d : Nat) : Nat := d % 256
def dieY (d : Nat) : Nat := d / 256 % 256
def dieZ (d : Nat) : Nat := d / 65536
def mkDie (x y z : Nat) : Nat := x + 256 * y + 65536 * z
/-- The die number is in the system (R371). -/
def State.dieOk (s : State) (d : Nat) : Bool := decide (dieX d < s.cfg.sx) && decide (dieY d < s.cfg.sy) && decide (dieZ d < s.cfg.sz)
/-- Package of a die (R372). -/
def pkgOf (d : Nat) : Nat := mkDie (dieX d / 2) (dieY d / 2) (dieZ d / 2)
/-- Core keys: die, core. -/
def dieOf (cid : Nat) : Nat := cid / 64
def coreOf (cid : Nat) : Nat := cid % 64
def State.die (s : State) : Nat := dieOf s.cid
/-- Throttle step of a die (R415). -/
def State.stepOf (s : State) (die : Nat) : Nat := fget 0 (fget HostSt.reset s.host (pkgOf die)).steps die
/-- The die's cores have this cycle: with k steps of 100 MHz taken from 2.1 GHz they have 21 − k of every 21 (log entry 33). -/
def State.awake (s : State) (die : Nat) : Bool := decide (s.stepOf die ≤ s.clk.now % 21)
/-! Ports and routes. -/

/-- Extent of a dimension. -/
def State.extent (s : State) (dim : Nat) : Nat :=
  match dim with
  | 0 => s.cfg.sx
  | 1 => s.cfg.sy
  | _ => s.cfg.sz
/-- Coordinate of a die in a dimension. -/
def dieCoord (d dim : Nat) : Nat :=
  match dim with
  | 0 => dieX d
  | 1 => dieY d
  | _ => dieZ d
def setCoord (d dim c : Nat) : Nat :=
  match dim with
  | 0 => mkDie c (dieY d) (dieZ d)
  | 1 => mkDie (dieX d) c (dieZ d)
  | _ => mkDie (dieX d) (dieY d) c
/-- The neighbour of a die in a direction (R373): 2·dim for +, 2·dim + 1 for −. -/
def State.neighbour (s : State) (d dir : Nat) : Nat :=
  let n := s.extent (dir / 2)
  let c := dieCoord d (dir / 2)
  setCoord d (dir / 2) (if dir % 2 = 0 then (c + 1) % n else (c + n - 1) % n)
/-- The port that serves a direction (R373, R382): with extent 2 both directions use the on-package port. -/
def State.portOf (s : State) (d dir : Nat) : Nat :=
  if s.extent (dir / 2) = 2 then 2 * (dir / 2) + dieCoord d (dir / 2) % 2 else dir
/-- The link in a direction stays in the package (R373). -/
def State.onPkg (s : State) (d dir : Nat) : Bool := decide (pkgOf d = pkgOf (s.neighbour d dir))
/-- Key of a plane of a port of a die; ports are numbered 8·die + port. -/
def planeKey (port : Nat) (plane : Bool) : Nat := 2 * port + b2n plane
def State.plane (s : State) (port : Nat) (plane : Bool) : Plane := fget Plane.reset s.fab.planes (planeKey port plane)
/-- A port with both planes failed is dead (R375). -/
def State.portDead (s : State) (port : Nat) : Bool := (s.plane port false).down && (s.plane port true).down
/-- A link can be used: the ports at both its ends live. -/
def State.linkLive (s : State) (d dir : Nat) : Bool :=
  !s.portDead (8 * d + s.portOf d dir) && !s.portDead (8 * s.neighbour d dir + s.portOf (s.neighbour d dir) (if dir % 2 = 0 then dir + 1 else dir - 1))
/-- The hops of n steps in one direction; none where a link is dead. -/
def State.walkDir (s : State) (dir : Nat) : Nat → Nat → Option (List (Nat × Nat))
  | 0, _ => some []
  | n + 1, d => if s.linkLive d dir then (s.walkDir dir n (s.neighbour d dir)).map ((d, dir) :: ·) else none
/-- The hops in one dimension: the shorter direction, + on a tie; the other where a link of it is dead (R376, R377). -/
def State.dimRoute (s : State) (d dst dim : Nat) : Option (List (Nat × Nat)) :=
  let n := s.extent dim
  let k := (dieCoord dst dim + n - dieCoord d dim) % n
  if k = 0 then some []
  else
    let fwd := s.walkDir (2 * dim) k d
    let bwd := s.walkDir (2 * dim + 1) (n - k) d
    if k ≤ n - k then fwd.orElse fun _ => bwd else bwd.orElse fun _ => fwd
/-- The dimension-ordered route: x, then y, then z. -/
def State.route (s : State) (d dst : Nat) : Option (List (Nat × Nat)) :=
  let d1 := setCoord d 0 (dieX dst)
  let d2 := setCoord d1 1 (dieY dst)
  match s.dimRoute d dst 0, s.dimRoute d1 dst 1, s.dimRoute d2 dst 2 with
  | some a, some b, some c => some (a ++ b ++ c)
  | _, _, _ => none
/-- The minimal adaptive route of bulk flits: at each router the lowest live direction that shortens the path; the ordered route where there is none (R376, R377). -/
def State.bulkRoute (s : State) (dst : Nat) : Nat → Nat → Option (List (Nat × Nat))
  | 0, _ => none
  | f + 1, d =>
    if d = dst then some []
    else
      let shortens := fun dir =>
        let n := s.extent (dir / 2)
        let k := (dieCoord dst (dir / 2) + n - dieCoord d (dir / 2)) % n
        decide (k ≠ 0) && (if dir % 2 = 0 then decide (k ≤ n - k) else decide (n - k ≤ k))
      match (List.range 6).find? fun dir => shortens dir && s.linkLive d dir with
      | some dir => (s.bulkRoute dst f (s.neighbour d dir)).map ((d, dir) :: ·)
      | none => s.route d dst
/-- The route of a class; none where the destination is unreachable. -/
def State.routeOf (s : State) (bulk : Bool) (d dst : Nat) : Option (List (Nat × Nat)) :=
  if bulk then s.bulkRoute dst 400 d else s.route d dst
/-- Time of a hop, and one-way time of a route: 40 + 24·a + 180·b (R398). -/
def State.hopTime (s : State) (d dir : Nat) : Nat := if s.onPkg d dir then 24 else 180
def State.routeTime (s : State) (hops : List (Nat × Nat)) : Nat := 40 + (hops.map fun h => s.hopTime h.1 h.2).sum

end Sys2Proof.Machine
end

