-- ==== Sys2Proof/Machine/Memory.lean ====
section
/-! DEFINITION. Physical memory (R284), the page tables and their faults (R285 to R289, R294), the caches of translations and of lines (R280 to R283, R290). -/

namespace Sys2Proof.Machine

/-! Physical memory: a list of cells in the canonical form. An unlisted byte reads 0x00 (log entry 1). A word with an uncorrectable error keeps it until a write touches it (log entry 90). -/

/-- The canonical form: addresses strictly rising, no byte equal to what an unlisted address reads as. -/
def Memory.wf (m : List Host.Cell) : Bool := fwf (0 : BitVec 8) m
def State.rdByte (s : State) (pa : Nat) : Byte := fget 0 s.mem pa
/-- A word among n bytes at a physical address holds an uncorrectable error (R279). -/
def State.flawed (s : State) (pa n : Nat) : Bool := s.bad.any fun w => decide (pa / 8 ≤ w) && decide (8 * w < pa + n)
/-- The words of n bytes are written: their errors are gone. -/
def repaired (bad : List Nat) (pa n : Nat) : List Nat := bad.filter fun w => !(decide (pa / 8 ≤ w) && decide (8 * w < pa + n))
def State.wrByte (s : State) (pa : Nat) (b : BitVec 8) : State := { s with mem := fput 0 pa b s.mem, bad := repaired s.bad pa 1 }
def memRead (m : List Host.Cell) (pa : Nat) : Nat → List (BitVec 8)
  | 0 => []
  | n + 1 => fget 0 m pa :: memRead m (pa + 1) n
def memWrite (m : List Host.Cell) (pa : Nat) : List (BitVec 8) → List Host.Cell
  | [] => m
  | b :: r => memWrite (fput 0 pa b m) (pa + 1) r
/-- n bytes at a physical address. -/
def State.rdBytes (s : State) (pa n : Nat) : List (BitVec 8) := memRead s.mem pa n
def State.wrBytes (s : State) (pa : Nat) (bs : List (BitVec 8)) : State := { s with mem := memWrite s.mem pa bs, bad := repaired s.bad pa bs.length }
/-- An n-byte little-endian number (R6). -/
def State.rd (s : State) (pa n : Nat) : Nat := leNat (s.rdBytes pa n)
def State.wr (s : State) (pa n v : Nat) : State := s.wrBytes pa (natLe n v)

/-! Parts of a stack. -/

/-- Bytes of a stack below the fabric window and the safe-tier reservation (R387, R407). -/
def windowOff : Nat := 0xFFFF00000
def State.safeBase (s : State) : Nat := windowOff - s.cfg.safeGiB * 2 ^ 30
/-- The address lies in a fabric window (R387). -/
def inWindow (pa : Nat) : Bool := decide (windowOff ≤ paOff pa)
/-- PA_RANGE of R294: the die is not in the system, or the offset lies in the safe-tier reservation. -/
def State.paBad (s : State) (pa : Nat) : Bool := !s.dieOk (paDie pa) || (decide (s.safeBase ≤ paOff pa) && decide (paOff pa < windowOff))

/-! Page tables. -/

/-- Index bits of a level: lowest bit and width (R285). -/
def lvlLo (l : Nat) : Nat :=
  match l with
  | 0 => 43
  | 1 => 30
  | 2 => 21
  | _ => 16
def lvlBits (l : Nat) : Nat :=
  match l with
  | 0 => 13
  | 1 => 13
  | 2 => 9
  | _ => 5
/-- Size of the table read at a level, in bytes (R285). -/
def tableSize (l : Nat) : Nat := 8 * 2 ^ lvlBits l
/-- Page size of a leaf read at a level. -/
def pageSize (l : Nat) : Nat := 2 ^ lvlLo l

/-- Kinds of access a permission is judged for (R288). -/
inductive Acc where
  | read
  | write
  | rw
  | fetch
deriving DecidableEq, Repr

/-- Translation fault kinds (R294). -/
def xfRoot : Nat := 0x10
def xfNotValid : Nat := 0x11
def xfRsvd : Nat := 0x12
def xfRead : Nat := 0x13
def xfWrite : Nat := 0x14
def xfFetch : Nat := 0x15
def xfRange : Nat := 0x16
def xfWalk : Nat := 0x17
/-! What else ends an access of the device by virtual address: an uncorrectable error in what it reads, a home it may not or cannot reach (R352, R380, R381, R387). -/
def xfFlaw : Nat := 0x100
/-- FABRIC_REMOTE_FAULT with a subcode of R381, from a die. -/
def xfRemote (sub die : Nat) : Nat := 0x200 + sub + 2 ^ 16 * die
/-- An uncorrectable error at the home of a read of a die: one elsewhere is remote, under a subcode of the model's own (R381). -/
def xfFlawAt (die home : Nat) : Nat := if home = die then xfFlaw else xfRemote 0xFF home
/-- A walk needs a table entry that its home elsewhere has still to bring. -/
def xfNeed (pa : Nat) : Nat := 0x180 + 2 ^ 16 * pa

/-- Bits of a table entry. -/
def ptV (e : Nat) : Bool := e.testBit 0
def ptLeaf (e : Nat) : Bool := e.testBit 1
def ptR (e : Nat) : Bool := e.testBit 2
def ptW (e : Nat) : Bool := e.testBit 3
def ptX (e : Nat) : Bool := e.testBit 4
def ptNC (e : Nat) : Bool := e.testBit 5
/-- Next table's physical address of a non-leaf entry. -/
def ptNext (e : Nat) : Nat := bits e 8 51 * 2 ^ 8
/-- Page's physical address of a leaf entry. -/
def ptPage (e : Nat) : Nat := bits e 16 43 * 2 ^ 16
/-- Judge a table entry at a level: an error, or whether it is a leaf (R287, R294). -/
def judgeEntry (l e : Nat) : Except Nat Bool :=
  if !ptV e then .error xfNotValid
  else if ptLeaf e then
    if l = 0 ∨ bits e 59 5 ≠ 0 ∨ bits e 6 10 ≠ 0 ∨ (ptW e ∧ !ptR e) ∨ ptPage e % pageSize l ≠ 0 then .error xfRsvd else .ok true
  else if l ≥ 3 ∨ bits e 59 5 ≠ 0 ∨ bits e 2 6 ≠ 0 ∨ ptNext e % tableSize (l + 1) ≠ 0 then .error xfRsvd
  else .ok false

/-- What a walk found: the leaf entry and its level, the non-leaf entries read, the home dies of the tables it read. -/
structure Walk where
  res : Except Nat (Nat × Nat)
  nodes : List (Nat × Nat × Nat)
  reads : List Nat
/-- Key of the entry read at a level: the address bits that select it. -/
def nodeKey (l va : Nat) : Nat := va % 2 ^ 56 / 2 ^ lvlLo l
/-- Read the table at a level, and on down. A cached non-leaf entry is used in place of a read; an entry that cannot be read ends the walk. -/
def walkFrom (rdE : Nat → Nat) (bad : Nat → Option Nat) (cached : Nat → Option Nat) (va : Nat) : Nat → Nat → Nat → Walk
  | 0, _, _ => { res := .error xfRsvd, nodes := [], reads := [] }
  | f + 1, l, table =>
    let fresh := (cached l).isNone
    let at' := table + 8 * bits va (lvlLo l) (lvlBits l)
    let no := if fresh then bad at' else none
    let e := match cached l with
      | some e => e
      | none => rdE at'
    let n := if fresh then [paDie table] else []
    match no with
    | some c => { res := .error c, nodes := [], reads := [] }
    | none =>
      match judgeEntry l e with
      | .error c => { res := .error c, nodes := [], reads := n }
      | .ok true => { res := .ok (e, l), nodes := [], reads := n }
      | .ok false =>
        let w := walkFrom rdE bad cached va f (l + 1) (ptNext e)
        { w with nodes := (if fresh then [(l + 1, nodeKey l va, e)] else []) ++ w.nodes, reads := n ++ w.reads }
/-- Why a table entry cannot be read by a die's walk (R294): it lies outside the system or in a safe-tier reservation; it lies in a fabric window, its home is out of reach, or it holds an uncorrectable error. -/
def State.tableBad (s : State) (die pa : Nat) : Option Nat :=
  if s.paBad pa then some xfRange else if inWindow pa || (paDie pa != die && (s.route die (paDie pa)).isNone) || s.flawed pa 8 then some xfWalk else none
/-- A walk from the root entry of an ASID on a die (R285, R286, R289), with what reading a table entry gives and why it cannot be read. A root entry with a reserved bit set fails as a table entry does (log entry 115). Level tags of nodes: 0 the root, l + 1 an entry read at level l. -/
def State.walkWith (s : State) (rdE : Nat → Nat) (bad : Nat → Option Nat) (die asid va : Nat) : Walk :=
  let cachedAt := fun (tag key : Nat) => (s.xl.node.find? fun n => n.die == die && n.asid == asid && n.level == tag && n.key == key).map fun n => n.entry.toNat
  let rootC := cachedAt 0 0
  let rootAt := (fget 0 s.xl.root die).toNat + 8 * asid
  let rootE := match rootC with
    | some e => e
    | none => s.rd rootAt 8
  let n := if rootC.isNone then [die] else []
  if rootC.isNone && s.flawed rootAt 8 then { res := .error xfWalk, nodes := [], reads := n }
  else if !ptV rootE then { res := .error xfRoot, nodes := [], reads := n }
  else if bits rootE 59 5 ≠ 0 ∨ bits rootE 1 15 ≠ 0 then { res := .error xfRsvd, nodes := [], reads := n }
  else
    let w := walkFrom rdE bad (fun l => cachedAt (l + 1) (nodeKey l va)) va 4 0 (bits rootE 16 43 * 2 ^ 16)
    { w with nodes := (if rootC.isNone then [(0, 0, rootE)] else []) ++ w.nodes, reads := n ++ w.reads }
/-- A walk that reads every table entry at once. -/
def State.walk (s : State) (die asid va : Nat) : Walk := s.walkWith (fun pa => s.rd pa 8) (s.tableBad die) die asid va

/-- Judge a leaf entry for an access: the physical address, or the fault kind (R288, R294). -/
def State.leafPa (s : State) (e level va : Nat) (k : Acc) : Except Nat Nat :=
  let pa := ptPage e + va % pageSize level
  if (k == .read || k == .rw) && !ptR e then .error xfRead
  else if (k == .write || k == .rw) && !ptW e then .error xfWrite
  else if k == .fetch && !ptX e then .error xfFetch
  else if s.paBad pa then .error xfRange
  else .ok pa
/-- A cached leaf that covers an address. -/
def leafHit (l : List Leaf) (die asid va : Nat) : Option Leaf :=
  l.find? fun x => x.die == die && x.asid == asid && x.page == va % 2 ^ 56 / pageSize x.level * pageSize x.level
/-- Translate by the die's translation unit, walking where it misses: caches are left as they are. -/
def State.xlate (s : State) (die asid va : Nat) (k : Acc) : Except Nat Nat :=
  let va := va % 2 ^ 56
  match leafHit s.xl.leaf die asid va with
  | some x => s.leafPa x.entry.toNat x.level va k
  | none =>
    match (s.walk die asid va).res with
    | .error c => .error c
    | .ok (e, l) => s.leafPa e l va k
/-- Keep the latest n of a list that grows at its end. -/
def keepLast {α : Type} (n : Nat) (l : List α) : List α := l.drop (l.length - n)
/-- The same of the elements that satisfy a test; the others stay. -/
def keepLastOf {α : Type} (p : α → Bool) (n : Nat) (l : List α) : List α :=
  go ((l.filter p).length - n) l
where
  go : Nat → List α → List α
    | _, [] => []
    | 0, l => l
    | k + 1, x :: r => if p x then go k r else x :: go (k + 1) r
/-- Cache what a walk read on a die (R290); entries of an invalidation in progress are not passed here. -/
def State.cacheWalk (s : State) (die asid va : Nat) (w : Walk) : State :=
  let va := va % 2 ^ 56
  let nodes := w.nodes.map fun t => ({ die := die, asid := asid, level := t.1, key := t.2.1, entry := BitVec.ofNat 64 t.2.2 } : Node)
  let leaves := match w.res with
    | .ok (e, l) => [({ die := die, asid := asid, page := va / pageSize l * pageSize l, level := l, entry := BitVec.ofNat 64 e } : Leaf)]
    | .error _ => []
  { s with xl := { s.xl with node := keepLastOf (fun n => n.die == die) Config.tuNodeSize (s.xl.node ++ nodes), leaf := keepLastOf (fun l => l.die == die) Config.tuSize (s.xl.leaf ++ leaves) } }

/-! Access by the device to a job's structures, translated on a die (R425): bytes read page by page. -/

/-- Why the home of a physical address does not serve a die: a fabric window, or no route (R380, R387). -/
def State.homeBad (s : State) (die pa : Nat) : Option Nat :=
  if inWindow pa then some (xfRemote 0x06 (paDie pa))
  else if paDie pa ≠ die ∧ (s.route die (paDie pa)).isNone then some (xfRemote 0x01 (paDie pa))
  else none
/-- Translate for an access, and judge whether its home serves the die. -/
def State.reachable (s : State) (die asid va : Nat) (k : Acc) : Except Nat Nat :=
  match s.xlate die asid va k with
  | .error c => .error c
  | .ok pa =>
    match s.homeBad die pa with
    | some c => .error c
    | none => .ok pa
/-- Translate, and judge whether n bytes there can be read. -/
def State.readable (s : State) (die asid va n : Nat) : Except Nat Nat :=
  match s.reachable die asid va .read with
  | .error c => .error c
  | .ok pa => if s.flawed pa n then .error (xfFlawAt die (paDie pa)) else .ok pa
/-- Translate, and judge whether bytes there can be written. -/
def State.writable (s : State) (die asid va : Nat) : Except Nat Nat := s.reachable die asid va .write

/-- Read n bytes at a virtual address, checking every 64 KiB page they touch; the fault kind and the address that failed otherwise. -/
def State.rdVirt (s : State) (die asid va n : Nat) : Except (Nat × Nat) (List (BitVec 8)) :=
  go ((n + 2 ^ 16 - 1) / 2 ^ 16 + 1) va n
where
  go : Nat → Nat → Nat → Except (Nat × Nat) (List (BitVec 8))
    | 0, _, _ => .ok []
    | f + 1, va, n =>
      if n = 0 then .ok []
      else
        let m := Nat.min n (2 ^ 16 - va % 2 ^ 16)
        match s.readable die asid va m with
        | .error c => .error (c, va)
        | .ok pa =>
          match go f (va + m) (n - m) with
          | .error e => .error e
          | .ok r => .ok (s.rdBytes pa m ++ r)
/-- Write bytes at a virtual address; pages before a failing one are written. -/
def State.wrVirt (s : State) (die asid va : Nat) (bs : List (BitVec 8)) : State × Option (Nat × Nat) :=
  go (bs.length / 2 ^ 16 + 2) s va bs
where
  go : Nat → State → Nat → List (BitVec 8) → State × Option (Nat × Nat)
    | 0, s, _, _ => (s, none)
    | f + 1, s, va, bs =>
      if bs.isEmpty then (s, none)
      else
        let m := 2 ^ 16 - va % 2 ^ 16
        match s.writable die asid va with
        | .error c => (s, some (c, va))
        | .ok pa => go f (s.wrBytes pa (bs.take m)) (va + m) (bs.drop m)
/-- Read a number of n bytes, for structures that lie in one page. -/
def State.rdV (s : State) (die asid va n : Nat) : Except (Nat × Nat) Nat :=
  match s.rdVirt die asid va n with
  | .ok b => .ok (leNat b)
  | .error e => .error e

/-! First-level caches (R280, R282): lines in order of allocation; a set keeps four. -/

def lineSet (va : Nat) : Nat := bits va 6 8
def lineOf (va : Nat) : Nat := va % 2 ^ 56 / 64
def lineHit (l : List Line) (asid va : Nat) : Option Line := l.find? fun x => x.asid == asid && x.line == lineOf va
/-- Allocate a line, replacing the oldest of a full set (log entry 8). -/
def lineFill (l : List Line) (asid va : Nat) (data : BitVec 512) : List Line :=
  let keep := l.filter fun x => !(x.asid == asid && x.line == lineOf va)
  let set := keep.filter fun x => x.line % 256 == lineSet va
  let keep := if set.length < 4 then keep else
    match set with
    | o :: _ => keep.filter fun x => x != o
    | [] => keep
  keep ++ [{ asid := asid, line := lineOf va, data := data }]
/-- Update a present line with bytes at an offset. -/
def lineStore (l : List Line) (asid va : Nat) (bs : List (BitVec 8)) : List Line :=
  let o := va % 64
  let n := bs.length
  l.map fun x => if x.asid == asid && x.line == lineOf va then
      { x with data := mixBits (BitVec.ofNat 512 ((2 ^ (8 * n) - 1) * 2 ^ (8 * o))) (BitVec.ofNat 512 (leNat bs * 2 ^ (8 * o))) x.data }
    else x
/-- Drop the line that holds an address. -/
def lineDrop (l : List Line) (asid va : Nat) : List Line := l.filter fun x => !(x.asid == asid && x.line == lineOf va)

end Sys2Proof.Machine
end

