-- ==== Sys2Proof/Machine/Ops.lean ====
section
/-! DEFINITION. The named operations over the state: registers, effects and their landing, jobs and continuations, the ready queue, taking a trap and returning from one. -/

namespace Sys2Proof.Machine

abbrev Out := Host.Outcome State Fault Refusal

/-! Parts of the state. -/

def State.onCore (s : State) (f : Core → Core) : State := { s with core := f s.core }
def State.onCtx (s : State) (f : Ctx → Ctx) : State := s.onCore fun c => { c with ctx := f c.ctx }
def State.onCtl (s : State) (f : Ctl → Ctl) : State := s.onCtx fun c => { c with ctl := f c.ctl }
def State.onIss (s : State) (f : Iss → Iss) : State := s.onCore fun c => { c with iss := f c.iss }
def State.onSched (s : State) (f : Sched → Sched) : State := { s with sched := f s.sched }
def State.onFab (s : State) (f : Fab → Fab) : State := { s with fab := f s.fab }
def State.onXl (s : State) (f : Xl → Xl) : State := { s with xl := f s.xl }
def State.hostAt (s : State) (pkg : Nat) : HostSt := fget HostSt.reset s.host pkg
def State.onHost (s : State) (pkg : Nat) (f : HostSt → HostSt) : State := { s with host := fmod HostSt.reset pkg f s.host }
def State.onClk (s : State) (f : Clk → Clk) : State := { s with clk := f s.clk }
def State.now (s : State) : Nat := s.clk.now
/-- A fresh identifier. -/
def State.fresh (s : State) : State × Nat := (s.onClk fun c => { c with nextId := c.nextId + 1 }, s.clk.nextId)
/-- A duration the spec leaves open: the next of clk.slack, 0 when there is none. -/
def State.takeSlack (s : State) : State × Nat :=
  match s.clk.slack with
  | [] => (s, 0)
  | x :: r => (s.onClk fun c => { c with slack := r }, x)

/-- Make a core the focused one. -/
def State.focus (s : State) (cid : Nat) : State :=
  if cid = s.cid then s
  else
    let saved := fput Core.reset s.cid s.core s.cores
    { s with core := fget Core.reset saved cid, cores := fput Core.reset cid Core.reset saved, cid := cid }
/-- A core by number, focused or not. -/
def State.coreAt (s : State) (cid : Nat) : Core := if cid = s.cid then s.core else fget Core.reset s.cores cid
/-- Change a core by number. -/
def State.onCoreAt (s : State) (cid : Nat) (f : Core → Core) : State :=
  if cid = s.cid then s.onCore f else { s with cores := fput Core.reset cid (f (fget Core.reset s.cores cid)) s.cores }
/-- The cores that differ from a core at reset, the focused one among them, ascending. -/
def State.coreIds (s : State) : List Nat := insertBy (fun a b => decide (a < b)) s.cid ((fkeys s.cores).filter (· ≠ s.cid))

/-- Device time in ns (R21): 2.1 cycles of the unthrottled clock to the nanosecond (R50), from its load on (R405). -/
def State.timeb (s : State) : Nat := s.clk.time0 + (s.clk.now - s.clk.base) * 1000 / 2100

/-! Registers as they read (R11). -/

def State.rs (s : State) (n : BitVec 5) : BitVec 64 := if n = 0 then 0 else s.core.ctx.s[n.toNat]
def State.rp (s : State) (n : BitVec 4) : Bool := if n = 0 then true else s.core.ctx.p.getLsbD n.toNat
def State.rk (s : State) (n : BitVec 3) : BitVec 128 := if n = 0 then BitVec.allOnes 128 else s.core.ctx.k[n.toNat]
def State.rv (s : State) (n : BitVec 5) : BitVec 1024 := s.core.ctx.v[n.toNat]
def State.rst (s : State) (n : BitVec 5) : Stream := s.core.ctx.st[n.toNat]
def State.rm (s : State) (n : BitVec 4) : MReg := s.core.ctx.m[n.toNat]
def State.rq (s : State) (n : BitVec 2) : BitVec 256 := s.core.ctx.q[n.toNat]
def State.rh (s : State) (n : BitVec 3) : Ring := s.core.ctx.h[n.toNat]
def State.rsq (s : State) (n : BitVec 3) : Cursor := s.core.ctx.sq[n.toNat]
def State.ctl (s : State) : Ctl := s.core.ctx.ctl
def State.racc (s : State) (row : Nat) : BitVec 2048 := fget 0 s.core.ctx.acc row

/-! Registers as they are written: `s0`, `p0` and `k0` discard (R11). -/

def State.ws (s : State) (n : BitVec 5) (v : BitVec 64) : State := if n = 0 then s else s.onCtx fun c => { c with s := c.s.set n.toNat v }
def State.wp (s : State) (n : BitVec 4) (v : Bool) : State :=
  if n = 0 then s else s.onCtx fun c => { c with p := (c.p &&& ~~~(1#16 <<< n.toNat)) ||| ((BitVec.ofBool v).setWidth 16 <<< n.toNat) }
def State.wk (s : State) (n : BitVec 3) (mask v : BitVec 128) : State :=
  if n = 0 then s else s.onCtx fun c => { c with k := c.k.set n.toNat (mixBits mask v c.k[n.toNat]) }
def State.wv (s : State) (n : BitVec 5) (mask v : BitVec 1024) : State := s.onCtx fun c => { c with v := c.v.set n.toNat (mixBits mask v c.v[n.toNat]) }
def State.wst (s : State) (n : BitVec 5) (f : Stream → Stream) : State := s.onCtx fun c => { c with st := c.st.set n.toNat (f c.st[n.toNat]) }
def State.wm (s : State) (n : BitVec 4) (f : MReg → MReg) : State := s.onCtx fun c => { c with m := c.m.set n.toNat (f c.m[n.toNat]) }
def State.wq (s : State) (n : BitVec 2) (v : BitVec 256) : State := s.onCtx fun c => { c with q := c.q.set n.toNat v }
def State.wh (s : State) (n : BitVec 3) (r : Ring) : State := s.onCtx fun c => { c with h := c.h.set n.toNat r }
def State.wsq (s : State) (n : BitVec 3) (r : Cursor) : State := s.onCtx fun c => { c with sq := c.sq.set n.toNat r }
/-- Write bits of a row of ACC; an uncorrectable error of the row is gone (log entry 90). -/
def State.wacc (s : State) (row : Nat) (mask v : BitVec 2048) : State :=
  (s.onCtx fun c => { c with acc := fmod 0 row (mixBits mask v) c.acc }).onCore fun c => { c with accBad := c.accBad.filter fun r => r != row }
def State.orFlags (s : State) (f : BitVec 6) : State := s.onCtl fun c => { c with vflags := c.vflags ||| f }

/-- Granules a register occupies (R15). -/
def MBody.granules : MBody → Nat
  | .empty => 0
  | .dense _ => 32
  | .factored u _ => u.length
/-- MRFOCC (R16). -/
def State.mrfOcc (s : State) : Nat := (s.core.ctx.m.toList.map fun r => r.body.granules).sum
/-- Matrix register header word (R15). -/
def MReg.header (r : MReg) : Nat :=
  b2n r.ad * 2 ^ 15 + r.limit.toNat * 2 ^ 8 +
    (match r.body with
      | .empty => 0
      | .dense _ => 1
      | .factored u _ => (u.length - 1) * 4 + 2)

/-! Scratchpads: rows, tiles (R274, R277). -/

def State.arow (s : State) (wmem : Bool) (row : Nat) : BitVec 2048 := fget 0 (if wmem then s.core.wmem else s.core.amem) row
/-- Write bits of a row; an uncorrectable error in a word that is written is gone (log entry 90). -/
def Core.putRow (c : Core) (wmem : Bool) (row : Nat) (mask v : BitVec 2048) : Core :=
  let c := if wmem then { c with wmem := fmod 0 row (mixBits mask v) c.wmem } else { c with amem := fmod 0 row (mixBits mask v) c.amem }
  { c with padBad := c.padBad.filter fun f => !(f.1 == wmem && f.2 / 32 == row && (mask >>> (64 * (f.2 % 32))).setWidth 64 != 0#64) }
def State.wrow (s : State) (wmem : Bool) (row : Nat) (mask v : BitVec 2048) : State := s.onCore fun c => c.putRow wmem row mask v
def Core.tile (c : Core) (wmem : Bool) (t : Nat) : Tile := fget Tile.reset (if wmem then c.wtile else c.atile) t
def Core.setTile (c : Core) (wmem : Bool) (t : Nat) (f : Tile → Tile) : Core :=
  if wmem then { c with wtile := fmod Tile.reset t f c.wtile } else { c with atile := fmod Tile.reset t f c.atile }
def ownT : BitVec 2 := 0
def ownE : BitVec 2 := 1
def ownL : BitVec 2 := 2
def Core.setOwner (c : Core) (wmem : Bool) (ts : List Nat) (o : BitVec 2) : Core :=
  ts.foldl (fun c t => c.setTile wmem t fun x => { x with owner := o }) c
/-- Give every tile of a run one record. -/
def Core.setRun (c : Core) (wmem : Bool) (first n : Nat) (x : Tile) : Core := (List.range n).foldl (fun c i => c.setTile wmem (first + i) fun _ => x) c
/-- Word of a tile record (R277). -/
def Tile.word (t : Tile) : Nat := t.jtag.toNat * 4 + t.owner.toNat

/-! Effects: emitted by a slot into the issue buffer, or a trap raised there. -/

/-- The bundle and the repetition that the slot at work belongs to. -/
def State.issPc (s : State) : Nat :=
  match s.core.iss.phase with
  | .issue => s.core.ctx.pc.toNat
  | .compute c => c.pc
def State.issRep (s : State) : Nat :=
  match s.core.iss.phase with
  | .issue => s.core.iss.rep
  | .compute c => c.rep
/-- Emit an effect that lands at the end of cycle t + L − 1 (R91). -/
def State.emit (s : State) (L : Nat) (e : Eff) : State :=
  s.onIss fun i => { i with effs := i.effs ++ [{ due := s.clk.now + L - 1, slot := i.slot, seq := s.clk.nextId, pc := s.issPc, rep := s.issRep, eff := e }] }
/-- Emit an effect that takes effect at the end of the bundle (R77, R126). -/
def State.emitEnd (s : State) (e : Eff) : State :=
  s.onIss fun i => { i with atEnd := i.atEnd ++ [{ due := 0, slot := i.slot, seq := s.clk.nextId, pc := s.issPc, rep := s.issRep, eff := e }] }
/-- Raise a trap at Issue from the slot that issues. -/
def State.raise (s : State) (t : Trap) : State :=
  s.onIss fun i => { i with raised := i.raised ++ [(i.slot, { t with slot := some i.slot, repidx := s.issRep, pc := s.issPc })] }

/-! Causes (R340). -/

def cIllegal : Nat := 0x01
def cAlign : Nat := 0x02
def cUnimpl : Nat := 0x03
def cPriv : Nat := 0x04
def cAccess : Nat := 0x08
def cPerm : Nat := 0x09
def cOwner : Nat := 0x0A
def cGather : Nat := 0x0B
def cStale : Nat := 0x0C
def cRank : Nat := 0x10
def cMrf : Nat := 0x11
def cTimeout : Nat := 0x18
def cBudget : Nat := 0x19
def cOverdue : Nat := 0x1A
def cSide : Nat := 0x1B
def cUnknown : Nat := 0x20
def cRemote : Nat := 0x21
def cMulti : Nat := 0x22
def cStage : Nat := 0x28
def cCursor : Nat := 0x29
def cRange : Nat := 0x30
def cLate : Nat := 0x31
def cBreak : Nat := 0x38
def cMachine : Nat := 0x3F
/-- ACCESS_FAULT with a subcode, an address and INFO0. -/
def accessFault (sub addr info0 : Nat) : Trap := { cause := cAccess, sub := sub, addr := addr, info0 := info0 }
def remoteFault (sub addr die : Nat) : Trap := { cause := cRemote, addr := addr, info0 := die, info1 := 0x21 + sub * 256 }
/-- MACHINE_CHECK (R352). -/
def machineCheck (sub addr : Nat) : Trap := { cause := cMachine, sub := sub, addr := addr }
/-- An uncorrectable error at a home elsewhere (R352, R381). -/
def remoteFlaw (addr die : Nat) : Trap := { cause := cRemote, addr := addr, info0 := die, info1 := 0x3F + 6 * 2 ^ 8 }
/-- The trap of an access that a translation, an error in memory or the fabric ended, by its code: a kind of R294, `xfFlaw`, an `xfRemote`. -/
def reachTrap (code addr info0 : Nat) : Trap :=
  if code < xfFlaw then accessFault code addr info0
  else if code = xfFlaw then machineCheck 6 addr
  else if code % 2 ^ 16 = 0x2FF then remoteFlaw addr (code / 2 ^ 16)
  else remoteFault (code % 2 ^ 16 - 0x200) addr (code / 2 ^ 16)
/-- Subcode of ACCESS_FAULT where R425 gives that cause for every failure: 0 for one that R294 does not number (log entry 90). -/
def xfSub (code : Nat) : Nat := if code < xfFlaw then code else 0

/-! Streams: fields of the image (R139). -/

def Stream.f (st : Stream) (byte n : Nat) : Nat := bits st.img.toNat (8 * byte) (8 * n)
def Stream.base (st : Stream) : Nat := st.f 0 8
def Stream.space (st : Stream) : Nat := bits st.base 62 2
def Stream.addr (st : Stream) : Nat := bits st.base 0 56
def Stream.str (st : Stream) (d : Nat) : Int := sval 32 (st.f (8 + 4 * d) 4)
def Stream.ext (st : Stream) (d : Nat) : Nat := st.f (0x14 + 2 * d) 2
def Stream.cext (st : Stream) : Nat := st.f 0x1A 2
def Stream.cpos (st : Stream) : Nat := st.f 0x1C 2
def Stream.fmt (st : Stream) : Nat := bits (st.f 0x1E 1) 0 5
def Stream.ctlb (st : Stream) : Nat := st.f 0x1F 1
def Stream.bounds (st : Stream) : Nat := bits st.ctlb 6 2
def Stream.idx (st : Stream) : Bool := st.ctlb.testBit 5
def Stream.diag (st : Stream) : Bool := st.ctlb.testBit 4
def Stream.pad (st : Stream) : Bool := st.ctlb.testBit 3
def Stream.ly (st : Stream) : Bool := st.ctlb.testBit 2
def Stream.halo (st : Stream) (d : Nat) : Nat := if st.pad then bits (st.f 0x20 1) (2 * d) 2 + 1 else 0
def Stream.remote (st : Stream) : Bool := (st.f 0x22 1).testBit 7
def Stream.rcore (st : Stream) : Nat := bits (st.f 0x22 1) 0 3
def Stream.lyref (st : Stream) : Nat := bits (st.f 0x23 1) 0 4
def Stream.hbase (st : Stream) : Int := sval 8 (st.f 0x24 1)
def Stream.hrow (st : Stream) : Nat := bits (st.f 0x26 2) 0 13
def Stream.sbase (st : Stream) : Nat := st.f 0x28 8
def Stream.sstr (st : Stream) : Nat := st.f 0x30 2
def Stream.org (st : Stream) (d : Nat) : Int := sval 4 (bits (st.f 0x32 2) (4 * d) 4)
def Stream.tscale (st : Stream) : Nat := st.f 0x34 4
def Stream.ibase (st : Stream) : Nat := st.f 0x38 8
def Stream.posd (st : Stream) (d : Nat) : Nat :=
  match d with
  | 0 => st.pos0.toNat
  | 1 => st.pos1.toNat
  | _ => st.pos2.toNat
def Stream.setField (st : Stream) (byte n v : Nat) : Stream :=
  { st with img := mixBits (BitVec.ofNat 512 ((2 ^ (8 * n) - 1) * 2 ^ (8 * byte))) (BitVec.ofNat 512 (v % 2 ^ (8 * n) * 2 ^ (8 * byte))) st.img }
def Stream.setCpos (st : Stream) (v : Nat) : Stream := st.setField 0x1C 2 v
def Stream.setPos (st : Stream) (d v : Nat) : Stream :=
  match d with
  | 0 => { st with pos0 := BitVec.ofNat 32 v }
  | 1 => { st with pos1 := BitVec.ofNat 32 v }
  | _ => { st with pos2 := BitVec.ofNat 32 v }
/-- FLAGS byte of the position block (R13). -/
def Stream.flagsByte (st : Stream) : Nat := b2n st.checked * 2 + b2n st.valid
/-- STEP (R142). A stream with a zero modulus never reaches here. -/
def Stream.step (st : Stream) (n : Nat) : Stream :=
  if st.idx then st.setPos 0 ((st.posd 0 + n) % st.cext)
  else
    let t := st.cpos + n
    let st1 := st.setCpos (t % st.cext)
    let c0 := t / st.cext
    let t0 := st.posd 0 + c0
    let t1 := st.posd 1 + t0 / st.ext 0
    let t2 := st.posd 2 + t1 / st.ext 1
    { st1 with pos0 := BitVec.ofNat 32 (t0 % st.ext 0), pos1 := BitVec.ofNat 32 (t1 % st.ext 1), pos2 := BitVec.ofNat 32 (t2 % st.ext 2) }
/-- `stset` (R151): one selection. -/
def Stream.setSel (st : Stream) (sel : Nat) (a : BitVec 64) : Stream :=
  match sel with
  | 0 => st.setPos 0 (a.toNat % (if st.idx then st.cext else st.ext 0))
  | 1 => st.setPos 1 (a.toNat % st.ext 1)
  | 2 => st.setPos 2 (a.toNat % st.ext 2)
  | 3 => st.setCpos (a.toNat % st.cext)
  | 4 => st.setField 0 8 (bits st.base 56 8 * 2 ^ 56 + a.toNat % 2 ^ 56)
  | _ => { (st.setCpos 0) with pos0 := 0, pos1 := 0, pos2 := 0 }

/-! Die state. -/

def State.barrier (s : State) (die n : Nat) : Barrier := fget Barrier.reset s.bar (die * 64 + n)
def State.onBarrier (s : State) (die n : Nat) (f : Barrier → Barrier) : State := { s with bar := fmod Barrier.reset (die * 64 + n) f s.bar }
/-- An arrival at a barrier: counts when the job holds it, saturating (R37, R235). -/
def State.arrive (s : State) (die n jcb : Nat) : State :=
  if (s.barrier die n).job = some jcb then
    s.onBarrier die n fun b => { b with count := if b.count = BitVec.allOnes 32 then b.count else b.count + 1 }
  else s
/-- The die's copy of a job's layout table. -/
def State.layCopy (s : State) (die jcb : Nat) : Option LayCopy := s.lay.find? fun l => l.die == die && l.jcb == jcb
def State.layEnt (s : State) (die jcb e : Nat) : LyEnt :=
  match s.layCopy die jcb with
  | some l => l.ents.getD e LyEnt.reset
  | none => LyEnt.reset
def State.onLayEnt (s : State) (die jcb e : Nat) (f : LyEnt → LyEnt) : State :=
  { s with lay := s.lay.map fun l => if l.die == die && l.jcb == jcb then { l with ents := l.ents.modify e f } else l }
def State.tset (s : State) (die n : Nat) : TSet := fget TSet.reset s.sets (die * 8 + n)
def State.onTset (s : State) (die n : Nat) (f : TSet → TSet) : State := { s with sets := fmod TSet.reset (die * 8 + n) f s.sets }
def State.vslot (s : State) (die n : Nat) : VSlot := fget VSlot.reset s.via (die * 16 + n)
def State.onVslot (s : State) (die n : Nat) (f : VSlot → VSlot) : State := { s with via := fmod VSlot.reset (die * 16 + n) f s.via }
def State.onCmd (s : State) (id : Nat) (f : Cmd → Cmd) : State := { s with cmds := s.cmds.map fun c => if c.id == id then f c else c }
def State.cmd (s : State) (id : Nat) : Option Cmd := s.cmds.find? fun c => c.id == id

/-! Jobs: the JCB in memory (R313), read at each use (R426). -/

def jcbExpect (s : State) (j : Nat) : Nat := s.rd j 4
def jcbDone (s : State) (j : Nat) : Nat := s.rd (j + 4) 4
def jcbPending (s : State) (j : Nat) : Nat := s.rd (j + 8) 2
def jcbFlags (s : State) (j : Nat) : Nat := s.rd (j + 0x0A) 1
def jcbPriv (s : State) (j : Nat) : Bool := (jcbFlags s j).testBit 0
def jcbComplete (s : State) (j : Nat) : Bool := (jcbFlags s j).testBit 1
def jcbAsid (s : State) (j : Nat) : Nat := s.rd (j + 0x0C) 2 % 4096
def jcbLaybase (s : State) (j : Nat) : Nat := s.rd (j + 0x10) 8 % 2 ^ 56 / 512 * 512
def jcbSigaddr (s : State) (j : Nat) : Nat := s.rd (j + 0x18) 8 % 2 ^ 56 / 8 * 8
def jcbSigval (s : State) (j : Nat) : Nat := s.rd (j + 0x20) 8
def jcbHkdesc (s : State) (j : Nat) : Nat := s.rd (j + 0x28) 8 % 2 ^ 56
def jcbTrapbase (s : State) (j : Nat) : Nat := s.rd (j + 0x30) 8
def jcbSavebase (s : State) (j : Nat) : Nat := s.rd (j + 0x38) 8 % 2 ^ 56
def jcbSaveslots (s : State) (j : Nat) : Nat := s.rd (j + 0x40) 4
/-- The job's tag on a die (R322); 0xFFFF where it has none. -/
def State.jtag (s : State) (die jcb : Nat) : BitVec 16 :=
  match s.sched.jtags.find? fun t => t.die == die && t.jcb == jcb with
  | some t => t.tag
  | none => 0xFFFF
/-- Give the job a tag on a die: the lowest that no job of the die has. -/
def State.giveJtag (s : State) (die jcb : Nat) : State :=
  match s.sched.jtags.find? fun t => t.die == die && t.jcb == jcb with
  | some _ => s
  | none =>
    let used := (s.sched.jtags.filter fun t => t.die == die).map fun t => t.tag.toNat
    match (List.range (used.length + 1)).find? fun n => !used.contains n with
    | some n => s.onSched fun c => { c with jtags := c.jtags ++ [{ die := die, jcb := jcb, tag := BitVec.ofNat 16 n }] }
    | none => s

/-! Continuations (R322). A key names one by die and handle. -/

def contKey (die h : Nat) : Nat := die * 2 ^ 32 + h
def keyDie (k : Nat) : Nat := k / 2 ^ 32
def keyHandle (k : Nat) : Nat := k % 2 ^ 32
def State.cont (s : State) (k : Nat) : Option Cont := fget none s.sched.conts k
def State.setCont (s : State) (k : Nat) (c : Option Cont) : State := s.onSched fun x => { x with conts := fput none k c x.conts }
def State.onCont (s : State) (k : Nat) (f : Cont → Cont) : State :=
  match s.cont k with
  | some c => s.setCont k (some (f c))
  | none => s
/-- State codes (R323). -/
def stReady : Nat := 1
def stRunning : Nat := 2
def stHeld : Nat := 3
def stSaved : Nat := 4
def stSuspended : Nat := 5
def stGangwait : Nat := 6
/-- The next enqueue number of a die (R327). -/
def State.nextSeq (s : State) (die : Nat) : State × Nat := (s.onSched fun c => { c with seq := fmod 0 die (· + 1) c.seq }, fget 0 s.sched.seq die)
/-- Core on which a continuation is resident. -/
def State.residentOn (s : State) (k : Nat) : Option Nat := s.coreIds.find? fun c => (s.coreAt c).res == some k
/-- The continuation resident on the focused core. -/
def State.self (s : State) : Option Cont := s.core.res.bind s.cont
def State.selfKey (s : State) : Nat := s.core.res.getD 0

/-- A continuation with the reset values of R11; its creator fills it in. -/
def Cont.blank (jcb : Nat) : Cont :=
  { jcb := jcb, jtag := 0xFFFF, pc := 0, deadline := 0, budget := 0, stage := 0, state := stReady, posted := false, bound := none, savedOn := none, seq := 0,
    kdesc := 0, slot := none, lcoord := 0, arg0 := 0, arg1 := 0, reports := [], held := none, acquire := none, handlerOf := none,
    record := none, gang := none, charged := 0, mark := none, traprec := 0, lastCause := 0, fixups := none, atEnd := [], action := none }

/-! Kernel descriptors (R314). -/

structure Kdesc where
  code : Nat
  clen : Nat
  entry : Nat
  bmap : Nat
  side : Nat
  budget : Nat
  spb : Nat
  afirst : Nat
  acnt : Nat
  wfirst : Nat
  wcnt : Nat
  rsvdOk : Bool
deriving DecidableEq, Repr
def parseKdesc (b : List (BitVec 8)) : Kdesc :=
  let x := leNat b
  let g := fun o n => bits x (8 * o) (8 * n)
  { code := g 0 8 % 2 ^ 56, clen := g 8 4, entry := g 0xC 4, bmap := g 0x10 8 % 2 ^ 56, side := g 0x18 8 % 2 ^ 56, budget := g 0x20 4, spb := g 0x24 2,
    afirst := g 0x26 1 % 128, acnt := g 0x27 1, wfirst := g 0x28 1 % 128, wcnt := g 0x29 1,
    rsvdOk := g 7 1 == 0 && g 0x26 1 / 128 == 0 && g 0x28 1 / 128 == 0 && g 0x2A 22 == 0 }
/-- The descriptor at a virtual address, as the device reads it on a die. -/
def State.kdesc (s : State) (die asid va : Nat) : Except (Nat × Nat) Kdesc :=
  match s.rdVirt die asid va 64 with
  | .ok b => .ok (parseKdesc b)
  | .error e => .error e
/-- The checks of R321 on a descriptor. -/
def Kdesc.ok (k : Kdesc) : Bool :=
  k.rsvdOk && decide (k.clen ≠ 0) && decide (k.entry < k.clen) && decide (k.afirst + k.acnt ≤ 128) && decide (k.wfirst + k.wcnt ≤ 128)
/-- The descriptor of the resident continuation, under the ASID of its own view (R25); a blank one where it cannot be read. -/
def State.selfKdesc (s : State) : Kdesc :=
  match s.self with
  | some c => (match s.kdesc s.die s.ctl.asid.toNat c.kdesc.toNat with
    | .ok k => k
    | .error _ => parseKdesc [])
  | none => parseKdesc []

/-- The resident continuation is the stage of a record (R258). -/
def State.inStage (s : State) : Bool :=
  match s.self with
  | some c => c.record.isSome
  | none => false
/-- A form that a stage continuation may not use (R263). -/
def State.stageTrap? (s : State) : Option Trap := if s.inStage then some (accessFault 0x04 0 0) else none

/-! The ready queue (R326, R327). -/

def readyKeyLt (a b : Ready) : Bool := decide (a.deadline < b.deadline) || (decide (a.deadline = b.deadline) && decide (a.seq < b.seq))
def State.levelEntries (s : State) (die : Nat) (l : Level) : List Ready := s.sched.ready.filter fun r => r.die == die && r.level == l
/-- The run of a continuation's tiles is free on a core: every tile unassigned, or assigned to it already. -/
def State.tilesFree (s : State) (cid : Nat) (k : Kdesc) (tag : BitVec 16) (bound : Bool) : Bool :=
  let c := s.coreAt cid
  let free := fun w t => (c.tile w t).jtag == 0xFFFF || (bound && (c.tile w t).jtag == tag)
  (List.range k.acnt).all (fun i => free false (k.afirst + i)) && (List.range k.wcnt).all fun i => free true (k.wfirst + i)
/-- Slots of a job's pool that its continuations hold. -/
def State.usedSlots (s : State) (jcb : Nat) : List Nat :=
  s.sched.conts.filterMap fun p => match p.2 with
    | some c => if c.jcb = jcb then c.slot else none
    | none => none
/-- The lowest free slot of a pool. -/
def State.freeSlot (s : State) (jcb : Nat) : Option Nat :=
  let used := s.usedSlots jcb
  (List.range (Nat.min (jcbSaveslots s jcb) (used.length + 1))).find? fun n => !used.contains n
/-- The job of a checkpoint in progress. -/
def State.ckptJob (s : State) (k : Ckpt) : Option Nat := (s.cmd k.cmd).map Cmd.jcb
/-- Eligibility of a continuation on a core (R325); a job being checkpointed on the die starts nothing there (R410). -/
def State.eligible (s : State) (key cid : Nat) : Bool :=
  match s.cont key with
  | none => false
  | some c =>
    decide (keyDie key = dieOf cid) && c.gang.isNone && !(s.sched.ckpts.any fun k => k.die == dieOf cid && s.ckptJob k == some c.jcb) &&
      (match c.bound with
        | some b => decide (b = coreOf cid)
        | none => true) &&
      (match s.kdesc (dieOf cid) (jcbAsid s c.jcb) c.kdesc.toNat with
        | .ok k => c.bound.isSome || s.tilesFree cid k c.jtag false
        | .error _ => true) &&
      (c.slot.isSome || (s.freeSlot c.jcb).isSome)
/-- Level of an enqueue (R326): the lowest whose latest entry the continuation precedes, among cores and clusters on which it could be eligible. -/
def State.enqueueLevel (s : State) (die : Nat) (key : Nat) (r : Ready) : Level :=
  let could := fun c => match (s.cont key).bind Cont.bound with
    | some b => decide (b = c)
    | none => true
  let precedes := fun (l : Level) => match (s.levelEntries die l).reverse with
    | [] => true
    | x :: _ => readyKeyLt r x
  match (List.range 64).find? fun c => could c && precedes (.core c) with
  | some c => .core c
  | none =>
    match (List.range 8).find? fun g => (List.range 8).any (fun i => could (8 * g + i)) && precedes (.cluster g) with
    | some g => .cluster g
    | none => .die
/-- A level with more than its entries moves its 8 latest up, the entry just inserted counted among them (R326; log entry 116). -/
def overflow (die : Nat) (lo up : Level) (n : Nat) (l : List Ready) : List Ready :=
  let mine := l.filter fun x => x.die == die && x.level == lo
  let late := mine.drop (mine.length - 8)
  if mine.length ≤ n then l else l.map fun x => if late.contains x then { x with level := up } else x
/-- Insert an entry, ready lists in key order; full levels overflow, one into the next, and the base die level holds what reaches it (log entry 116). -/
def State.insertReady (s : State) (r : Ready) : State :=
  let cluster := fun (g : Nat) (l : List Ready) => overflow r.die (.cluster g) .die Config.clusterLevelSize l
  let l := insertBy readyKeyLt r s.sched.ready
  let l := match r.level with
    | .core c => cluster (c / 8) (overflow r.die (.core c) (.cluster (c / 8)) Config.coreLevelSize l)
    | .cluster g => cluster g l
    | .die => l
  s.onSched fun c => { c with ready := l }
/-- Enqueue a continuation under its DEADLINE and SEQ. -/
def State.enqueue (s : State) (key : Nat) : State :=
  match s.cont key with
  | none => s
  | some c =>
    let r : Ready := { die := keyDie key, level := .die, deadline := c.deadline.toNat, seq := c.seq, item := .cont key }
    s.insertReady { r with level := s.enqueueLevel (keyDie key) key r }
/-- Free entries of a die's base level. -/
def State.dieLevelFree (s : State) (die : Nat) : Bool := decide ((s.levelEntries die .die).length < Config.dieLevelSize)
/-- Create a continuation on a die: it gets a handle, the job's tag, a new SEQ, and enters the ready queue (R322, R323). -/
def State.create (s : State) (die : Nat) (c : Cont) : State × Nat :=
  let s := s.giveJtag die c.jcb
  let h := fget 0 s.sched.nextHandle die
  let s := s.onSched fun x => { x with nextHandle := fmod 0 die (· + 1) x.nextHandle }
  let (s, q) := s.nextSeq die
  let key := contKey die h
  let s := s.setCont key (some { c with jtag := s.jtag die c.jcb, seq := q })
  (if c.gang.isSome then s else s.enqueue key, key)

/-! Ending a continuation (R323, R324). -/

/-- An effect that takes its place among those of a core's cycle without a slot of a bundle. -/
def Core.soon (c : Core) (now seq : Nat) (e : Eff) : Core := { c with pend := c.pend ++ [{ due := now, slot := 10, seq := seq, pc := 0, rep := 0, eff := e }] }
/-- The tile records of a run change at the end of the cycle (R278): they are assigned, or return to reset. -/
def State.tilesTake (s : State) (cid : Nat) (k : Kdesc) (tag : BitVec 16) : State :=
  s.onCoreAt cid fun c => (c.soon s.now s.clk.nextId (.tileTake false k.afirst k.acnt tag)).soon s.now s.clk.nextId (.tileTake true k.wfirst k.wcnt tag)
def State.tilesFreed (s : State) (cid : Nat) (k : Kdesc) : State :=
  s.onCoreAt cid fun c => (c.soon s.now s.clk.nextId (.tileFree false k.afirst k.acnt)).soon s.now s.clk.nextId (.tileFree true k.wfirst k.wcnt)
/-- The DEADLINE of a continuation, or the one it had when it ended. -/
def State.deadlineOf (s : State) (key : Nat) : BitVec 64 :=
  match s.cont key with
  | some c => c.deadline
  | none => ((s.sched.ended.find? fun e => e.key == key).map Ended.deadline).getD 0
/-- Release what an ended or faulted continuation holds: its record, its slot, its tiles; its deadline stands for what is reported later (R347). -/
def State.release (s : State) (key : Nat) : State :=
  match s.cont key with
  | none => s
  | some c =>
    let s := match c.bound with
      | none => s
      | some b =>
        match s.kdesc (keyDie key) (jcbAsid s c.jcb) c.kdesc.toNat with
        | .error _ => s
        | .ok k => s.tilesFreed (keyDie key * 64 + b) k
    let s := s.onSched fun x => { x with ready := x.ready.filter fun r => r.item != .cont key, ended := x.ended ++ [{ key := key, jcb := c.jcb, deadline := c.deadline }] }
    s.setCont key none
/-- The effect is on the die's state and outlives the continuation that gave rise to it: an arrival, a verdict, a change of tile records (R236, R261, R278). -/
def Eff.outlives (e : Eff) : Bool :=
  match e with
  | .arrive _ _ | .verdict _ _ _ _ _ _ | .tiles _ _ _ | .tileFree _ _ _ | .tileTake _ _ _ _ => true
  | _ => false
/-- The focused core falls idle: registers return to reset, what its queues hold stays, and so do effects on the die's state. -/
def Core.vacate (c : Core) : Core :=
  { c with res := none, jcb := 0, mode := .idle, ctx := Ctx.reset, iss := Iss.reset, rep := 0, words := [], lastPc := 0, issueAt := 0, saveDone := 0, spCount := 0, charged := 0, pend := c.pend.filter fun p => p.eff.outlives, dropFrom := none, mrfBad := [] }

/-- The L1 of a core is emptied; a line on its way is not allocated (R158). -/
def Core.dropL1 (c : Core) : Core :=
  { c with l1d := [], outst := c.outst.map fun o => if o.resp = .remote then { o with q := { o.q with args := o.q.args.set 3 0 } } else o }

/-! Job counts (R253, R337). -/

/-- The completion condition, judged where it may first hold: the job starts to drain. -/
def State.judgeJob (s : State) (jcb : Nat) : State :=
  if jcbPending s jcb = 0 ∧ jcbDone s jcb = jcbExpect s jcb ∧ !jcbComplete s jcb ∧ !(s.sched.ending.any fun e => e.jcb == jcb) then
    s.onSched fun c => { c with ending := c.ending ++ [{ jcb := jcb }] }
  else s
/-- The uncorrectable error that a post or a raise meets in the words of the JCB it reads (R352). -/
def State.jcbFlaw (s : State) (die jcb : Nat) : Option Trap := if s.flawed jcb 16 then some (reachTrap (xfFlawAt die (paDie jcb)) jcb 0) else none
/-- Add one to the completed count; posts to a completed job are discarded (R255). -/
def State.post (s : State) (jcb : Nat) : State :=
  if jcbComplete s jcb || s.sched.ending.any (fun e => e.jcb == jcb) then s
  else (s.wr (jcb + 4) 4 ((jcbDone s jcb + 1) % 2 ^ 32)).judgeJob jcb
/-- Raise the expected total: refused when the job has completed or the total would overflow. -/
def State.raiseExpect (s : State) (jcb n : Nat) : State × Option Trap :=
  if jcbComplete s jcb || s.sched.ending.any (fun e => e.jcb == jcb) then (s, some { cause := cLate, info0 := n, report := true })
  else if jcbExpect s jcb + n ≥ 2 ^ 32 then (s, some { cause := cRange, info0 := n, report := true })
  else ((s.wr jcb 4 (jcbExpect s jcb + n)).judgeJob jcb, none)

/-! Reports and traps. -/

/-- Hand a trap to the trap machinery of a die: it claims a record for it (R346). -/
def State.toTraps (s : State) (t : TrapJob) : State := s.onSched fun c => { c with traps := c.traps ++ [t] }
/-- Deliver a Report: to a live continuation it stays pending; for one that ended, the job's handler gets it, deferred (R224, R344). -/
def State.report (s : State) (key jcb : Nat) (t : Trap) : State :=
  let t := { t with report := true }
  match s.cont key with
  | some _ => s.onCont key fun c => { c with reports := c.reports ++ [t] }
  | none => s.toTraps { die := keyDie key, key := some key, jcb := jcb, deadline := s.deadlineOf key, trap := t, deferred := true, sslot := none }

/-- Reports that a continuation never took go to the job's handler, deferred (R344). -/
def State.deferReports (s : State) (key : Nat) : State :=
  match s.cont key with
  | none => s
  | some c =>
    (s.onSched fun x => { x with traps := x.traps ++ (c.reports.filter Trap.report).map fun t =>
      { die := keyDie key, key := some key, jcb := c.jcb, deadline := c.deadline, trap := t, deferred := true, sslot := none } }).onCont key fun c => { c with reports := [] }
/-- The job that holds a tile, given by a row of it. -/
def State.tileJob (s : State) (cid : Nat) (wmem : Bool) (row : Nat) : Option Nat :=
  (s.sched.jtags.find? fun t => t.die == dieOf cid && t.tag == ((s.coreAt cid).tile wmem (row / 64)).jtag).map JTag.jcb
/-- An engine or a save meets an uncorrectable error in a scratchpad: the job that holds the tile gets a deferred record that names no continuation (R352; log entry 30). -/
def State.padRecord (s : State) (cid : Nat) (wmem : Bool) (t : Trap) : State :=
  match s.tileJob cid wmem (t.addr / 256) with
  | some jcb => s.toTraps { die := dieOf cid, key := none, jcb := jcb, deadline := BitVec.ofNat 64 s.timeb, trap := { t with report := true }, deferred := true, sslot := none }
  | none => s

/-- Why a core saves or stops its continuation: codes of Mode.saving and Mode.stopping. -/
def whyPreempt : Nat := 0
def whyYield : Nat := 1
def whyTrap : Nat := 2
def whyDone : Nat := 3
def whyFault : Nat := 4
def whyJobEnd : Nat := 5
def whyCkpt : Nat := 6

/-! Taking a trap, in three parts. At the bundle boundary or the issue (`takeTrap`): the continuation issues no more. When its core has drained and, for a resumable trap, its state is saved: the trap goes to the trap machinery. There (`claimRecord`): the record is written, the handler created, the continuation left SUSPENDED or FAULTED (R345 to R348). -/

/-- Take a trap at the focused core's continuation. The trap is kept first among its reports until the core has drained. -/
def State.takeTrap (s : State) (t : Trap) : State :=
  -- a handler's resumable trap is handled as a terminating one (R350)
  let t := if (s.self.bind Cont.handlerOf).isSome then { t with resumable := false } else t
  let s := s.onCont s.selfKey fun c => { c with reports := t :: c.reports, lastCause := t.cause }
  s.onCore fun c => { c with mode := .stopping (if t.resumable then whyTrap else whyFault) }

/-- Record of a stage continuation in error: the record completes with OUTCOME 0b11, FSTG naming the stage (R366). -/
def State.stageError (s : State) (die set place stage : Nat) : State :=
  s.onTset die set fun t => { t with places := fmod none place (fun p => p.map fun p =>
    { p with outcome := 3, fstg := some (BitVec.ofNat 3 stage), running := none, since := s.now }) t.places }
/-- The trap that reports a stage error (R340, R366). -/
def stageTrap (hdr stage sub : Nat) : Trap := { cause := cStage, sub := sub, info0 := hdr, info1 := stage, report := true }
/-- Header address of the record a continuation is the stage of. -/
def State.recordHdr (s : State) (die : Nat) (r : Nat × Nat) : Nat :=
  match fget none (s.tset die r.1).places r.2 with
  | some p => p.hdr
  | none => 0

/-- FAULTED: the Reports it never took are deferred (R344), the record and what it holds are freed; a resumable continuation whose handler faulted is FAULTED with it, and its trap record freed (R323, R350; log entry 43). -/
def State.faultOne (s : State) (key : Nat) : State :=
  match s.cont key with
  | none => s
  | some c =>
    let s := s.deferReports key
    let s := match c.record with
      | some r => s.stageError (keyDie key) r.1 r.2 c.stage.toNat
      | none => s
    s.release key
def State.faultCont (s : State) (key : Nat) : State :=
  match s.cont key with
  | none => s
  | some c =>
    let s := s.faultOne key
    match c.handlerOf with
    | some (rec, some target, true) =>
      match s.cont target with
      | some t =>
        -- a resumable trap's stage whose handler faults: a second record, of the stage error (R366)
        let s := match t.record with
          | some r => s.toTraps { die := keyDie target, key := some target, jcb := t.jcb, deadline := t.deadline,
                                  trap := stageTrap (s.recordHdr (keyDie target) r) t.stage.toNat t.lastCause, deferred := false, sslot := none }
          | none => s
        ((s.faultOne target).wrVirt (keyDie key) (jcbAsid s c.jcb) (rec + 4) [0]).1
      | none => s
    | _ => s

/-- The 64 bytes of a trap record (R346). -/
def trapRecord (tj : TrapJob) (nested : Bool) : Nat :=
  let t := tj.trap
  let cont := match tj.key with
    | some k => keyDie k * 2 ^ 32 + keyHandle k
    | none => tj.die * 2 ^ 32 + 0xFFFFFFFF
  let slot := match t.slot with
    | some n => 0x80 + n
    | none => 0
  let flags := b2n nested * 8 + b2n tj.deferred * 4 + b2n t.report * 2 + b2n t.resumable
  fromLanes 8 [t.cause, t.sub, slot, t.repidx, 1, flags, 1, t.opc]
    + 2 ^ 64 * (t.pc % 2 ^ 56) + 2 ^ 128 * (t.addr % 2 ^ 64) + 2 ^ 192 * (t.info0 % 2 ^ 64) + 2 ^ 256 * (t.info1 % 2 ^ 64)
    + 2 ^ 320 * (tj.sslot.getD 0xFFFFFFFF) + 2 ^ 448 * cont
/-- The lowest-numbered record whose RSTATE is 0, among n from j on (R346); none where there is none or a read fails. -/
def State.freeRecord (s : State) (die asid area : Nat) : Nat → Nat → Option Nat
  | 0, _ => none
  | n + 1, j =>
    match s.rdV die asid (area + 64 + 64 * j + 4) 1 with
    | .error _ => none
    | .ok 0 => some (area + 64 + 64 * j)
    | .ok _ => s.freeRecord die asid area n (j + 1)
/-- A lost trap: LOST and LASTCAUSE of the trap area header (R345, R346). -/
def State.countLost (s : State) (die asid area cause : Nat) : State :=
  match s.rdV die asid area 4 with
  | .error _ => s
  | .ok n => (s.wrVirt die asid area (natLe 4 (Nat.min (n + 1) (2 ^ 32 - 1)) ++ [BitVec.ofNat 8 cause])).1
/-- The handler continuation of a record (R347): its registers, deadline and placement; none without HKDESC or where its descriptor cannot be read (log entry 26). -/
def State.handler (s : State) (tj : TrapJob) (rec : Nat) : Option Cont :=
  let hk := jcbHkdesc s tj.jcb
  if hk = 0 then none
  else
    match s.kdesc tj.die (jcbAsid s tj.jcb) hk with
    | .error _ => none
    | .ok k =>
      if !k.ok then none
      else some { Cont.blank tj.jcb with
        pc := BitVec.ofNat 56 (k.code + 4 * k.entry), deadline := tj.deadline, budget := BitVec.ofNat 32 k.budget, kdesc := BitVec.ofNat 56 hk,
        arg0 := BitVec.ofNat 64 rec, arg1 := BitVec.ofNat 64 tj.trap.cause, lcoord := BitVec.ofNat 32 (tj.die * 64), acquire := some .sys,
        traprec := BitVec.ofNat 64 rec, handlerOf := some (rec, if tj.deferred then none else tj.key, tj.trap.resumable) }
/-- Claim a record for a trap, write it, create the handler; without a record the trap is lost and the continuation FAULTED (R346, R347, R350, R366). -/
def State.claimRecord (s : State) (tj : TrapJob) : State :=
  let asid := jcbAsid s tj.jcb
  let tb := jcbTrapbase s tj.jcb
  let area := tb % 2 ^ 56 / 64 * 64
  let self := if tj.deferred then none else tj.key.bind s.cont
  let nested := match self with
    | some c => c.handlerOf.isSome
    | none => false
  -- a stage continuation that this trap makes FAULTED reports ROUTER_STAGE_ERROR in place of its own record
  let faults := !tj.trap.resumable || nested || (s.handler tj 0).isNone
  let tj := match self with
    | some c => (match c.record with
      | some r => if faults && tj.trap.cause != cStage then { tj with trap := { stageTrap (s.recordHdr tj.die r) c.stage.toNat tj.trap.cause with pc := tj.trap.pc } } else tj
      | none => tj)
    | none => tj
  -- a FAULTED continuation keeps no slot (R323, R346)
  let tj := if faults then { tj with sslot := none } else tj
  match (if s.flawed (tj.jcb + 0x28) 16 then none else s.freeRecord tj.die asid area (tb / 2 ^ 56) 0) with
  | none =>
    let s := if s.flawed (tj.jcb + 0x28) 16 then s else s.countLost tj.die asid area tj.trap.cause
    if self.isSome then s.faultCont (tj.key.getD 0) else s
  | some rec =>
    let (s', err) := s.wrVirt tj.die asid rec (natLe 64 (trapRecord tj nested))
    if err.isSome then
      let s := s.countLost tj.die asid area tj.trap.cause
      if self.isSome then s.faultCont (tj.key.getD 0) else s
    else
      let s := s'
      let (s, spawned) := if nested then (s, false) else
        match s.handler tj rec with
        | some c => ((s.create tj.die c).1, true)
        | none => (s, false)
      if self.isSome && (!tj.trap.resumable || !spawned) then s.faultCont (tj.key.getD 0) else s

/-! Returning from a trap: the handler's `done` reads its record and the suspended continuation takes the ACTION (R349). -/

/-- What a handler's `done` does with its record: for a resumable trap the target's action is set; RSTATE returns to 0. -/
def State.handlerDone (s : State) (die jcb rec : Nat) (target : Option Nat) (resumable : Bool) : State :=
  let asid := jcbAsid s jcb
  let s := match target with
    | none => s
    | some k =>
      if !resumable then s
      else
        match s.rdVirt die asid rec 64 with
        | .error _ => s.onCont k fun c => { c with action := some (0xFF, 0, 0) }
        | .ok b => let x := leNat b; s.onCont k fun c => { c with action := some (bits x 48 8, bits x 352 32, bits x 384 64) }
  (s.wrVirt die asid (rec + 4) [0]).1
/-- RESUME: the continuation becomes SAVED under a new SEQ, with NBUDGET and NDEADLINE where they are not zero, and is enqueued. -/
def State.resumeCont (s : State) (key nbudget ndeadline : Nat) : State :=
  let (s, q) := s.nextSeq (keyDie key)
  let s := s.onCont key fun c => { c with state := stSaved, seq := q, action := none, budget := if nbudget = 0 then c.budget else BitVec.ofNat 32 nbudget, deadline := if ndeadline = 0 then c.deadline else BitVec.ofNat 64 ndeadline }
  match s.cont key with
  | some c => if c.gang.isSome then s else s.enqueue key
  | none => s
/-- ENDED: with post, one is added to the completed count where POSTED is clear (R252); a stage continuation ends in error (R366). -/
def State.endCont (s : State) (key : Nat) (post : Bool) : State :=
  match s.cont key with
  | none => s
  | some c =>
    match c.record with
    | some r =>
      let s := s.toTraps { die := keyDie key, key := some key, jcb := c.jcb, deadline := c.deadline,
                           trap := stageTrap (s.recordHdr (keyDie key) r) c.stage.toNat 0, deferred := true, sslot := none }
      (s.stageError (keyDie key) r.1 r.2 c.stage.toNat).release key
    | none =>
      let s := s.release key
      if post && !c.posted then (match s.jcbFlaw (keyDie key) c.jcb with
        | some t => s.report key c.jcb t
        | none => s.post c.jcb) else s

end Sys2Proof.Machine
end

