-- ==== Sys2Proof/Machine/Operands.lean ====
section
/-! DEFINITION. Operand forms: the address generator of streams and its checks (R140 to R148), row sections and their sampling (R91, R145), index lists, tile reads (R198). -/

namespace Sys2Proof.Machine

/-! Address generation (R141). -/

def Stream.coord (st : Stream) (d : Nat) : Int := st.posd d + st.org d
def Stream.low (st : Stream) (d : Nat) : Int := -(st.halo d : Int)
def Stream.high (st : Stream) (d : Nat) : Int := (st.ext d : Int) + st.halo d - 1
def Stream.dimOk (st : Stream) (d : Nat) : Bool := decide (st.low d ≤ st.coord d) && decide (st.coord d ≤ st.high d)
/-- Every coordinate of the access is in range (R141). -/
def Stream.inRange (st : Stream) : Bool := st.dimOk 0 && st.dimOk 1 && st.dimOk 2
/-- The coordinate an access uses: clamped under BOUNDS CLAMP (R147). -/
def Stream.useCoord (st : Stream) (d : Nat) : Int :=
  if st.bounds = 2 then min (max (st.coord d) (st.low d)) (st.high d) else st.coord d
/-- Bytes of the space of a SPACE code: 2^21 for a scratchpad, 2^56 for global. -/
def spaceSize (space : Nat) : Nat := if space = 2 then 2 ^ 56 else 2 ^ 21
/-- ADDR at given coordinates and channel position. -/
def Stream.addrAt (st : Stream) (c0 c1 c2 : Int) (cpos o : Nat) : Nat :=
  ((st.addr : Int) + cpos + o + (c0 + st.halo 0) * st.str 0 + (c1 + st.halo 1) * st.str 1 + (c2 + st.halo 2) * st.str 2).emod (spaceSize st.space) |>.toNat
/-- ADDR(st, o) (R141). -/
def Stream.addrOf (st : Stream) (o : Nat) : Nat := st.addrAt (st.useCoord 0) (st.useCoord 1) (st.useCoord 2) st.cpos o
/-- SADDR of the block that holds byte b of the channel run (R143). -/
def Stream.saddr (st : Stream) (b : Nat) : Nat :=
  let e := fun d => (st.ext d : Int) + 2 * st.halo d
  let c := fun d => st.useCoord d + st.halo d
  let lin := c 0 + e 0 * (c 1 + e 1 * c 2)
  let bb := fmtBlock st.fmt
  ((bits st.sbase 0 56 : Int) + (lin * (st.cext / bb : Nat) + (b / bb : Nat)) * st.sstr).emod (spaceSize (bits st.sbase 62 2)) |>.toNat
/-- Elements of an index stream's table (R148). -/
def Stream.nel (st : Stream) : Nat := st.ext 0 * st.ext 1 * st.ext 2

/-! Checks. -/

/-- Who accesses through a stream (R146). -/
inductive Accessor where
  | vec
  | lsRead
  | lsWrite
  | mx (remoteOk : Bool)
  | ap
deriving DecidableEq, Repr
/-- The accessor uses the block scales of a block-scaled map (R140). -/
def Accessor.scales : Accessor → Bool
  | .mx _ => true
  | .ap => true
  | _ => false
def Accessor.writes : Accessor → Bool
  | .lsWrite => true
  | .ap => true
  | _ => false

/-- The conditions of R140 under which the first access takes ACCESS_FAULT; `scales`: the access uses the block scales. What the format or the form does not use is not checked. -/
def Stream.mapBad (st : Stream) (scales : Bool) : Bool :=
  let scaled := fmtScaled st.fmt && !st.idx
  st.space == 3 || decide (0x0E ≤ st.fmt) || st.bounds == 3 || st.ext 0 == 0 || st.ext 1 == 0 || st.ext 2 == 0 || st.cext == 0
    || (!st.idx && decide (st.cext % 32 ≠ 0))
    || (scaled && (decide (st.cext % fmtBlock st.fmt ≠ 0) || (scales && (st.sstr == 0 || decide (bits st.sbase 56 6 ≠ 0)))))
    || (List.range 3).any (fun d => decide (st.org d < -4) || decide (4 < st.org d))
    || (st.diag && decide (st.space ≠ 0))
    || (st.remote && decide (1 < st.space))
    || (st.idx && (decide (bits st.ibase 62 2 ≠ 0) || decide (bits st.ibase 56 6 ≠ 0)))
    || decide (bits st.base 56 6 ≠ 0) || decide (bits (st.f 0x1E 1) 5 3 ≠ 0) || decide (bits st.ctlb 0 2 ≠ 0) || decide (bits (st.f 0x22 1) 3 4 ≠ 0)
    || decide (bits (st.f 0x23 1) 4 4 ≠ 0) || decide (st.f 0x25 1 ≠ 0) || decide (bits (st.f 0x32 2) 12 4 ≠ 0)
    || (!st.idx && st.pad && decide (bits (st.f 0x20 1) 6 2 ≠ 0))

/-- The job of the resident continuation and its tag on this die. -/
def State.jcb (s : State) : Nat := s.core.jcb
def State.myTag (s : State) : BitVec 16 := s.jtag s.die s.jcb
/-- The layout check of R14 and R32: a stale trap, or none. -/
def State.layoutTrap (s : State) (st : Stream) : Option Trap :=
  if !st.ly then none
  else
    let e := s.layEnt s.die s.jcb st.lyent.toNat
    if e.kind = 3 ∨ (!st.checked ∧ e.gen ≠ st.lygen) then
      some { cause := cStale, info0 := st.lyent.toNat + st.lygen.toNat * 2 ^ 16, info1 := e.gen.toNat + e.kind.toNat * 2 ^ 16, resumable := true }
    else none
/-- INFO0 of BUFFER_PERMISSION for a SPACE code. -/
def permInfo (space : Nat) : Nat := if space = 2 then 4 else space
/-- The permission check of R146. -/
def permTrap (st : Stream) (a : Accessor) : Option Trap :=
  let ok := match a with
    | .vec => st.space == 0 && !st.remote
    | .lsRead => (st.space == 0 || st.space == 2) && !st.remote
    | .lsWrite => (st.space == 0 || st.space == 2) && !st.remote
    | .mx r => (st.space == 0 || st.space == 1) && (r || !st.remote)
    | .ap => st.space == 0 && !st.remote
  if ok then none else some { cause := cPerm, info0 := permInfo st.space }
/-- The owner check of a scratchpad address (R33, R146, R278): the tile must be the job's, T for a write, T or L for a read; a remote tile must be the job's and lent. -/
def State.ownerTrap (s : State) (cid : Nat) (wmem : Bool) (addr : Nat) (write remote : Bool) : Option Trap :=
  let t := (s.coreAt cid).tile wmem (addr / 2 ^ 14 % 128)
  let ok := t.jtag == s.myTag && (if remote then t.owner == ownL else t.owner == ownT || (!write && t.owner == ownL))
  if ok then none else some { cause := cOwner, addr := addr, info0 := t.word, info1 := b2n remote }
/-- The bounds check of R147: ACCESS_FAULT in mode FAULT. -/
def boundsTrap (st : Stream) (n : BitVec 5) : Option Trap :=
  if !st.idx && !st.inRange && st.bounds == 0 then some (accessFault 0x02 (st.addrOf 0) n.toNat) else none
/-- The access is discarded: out of range in mode ZERO. -/
def Stream.zeroed (st : Stream) : Bool := !st.idx && !st.inRange && st.bounds == 1
/-- First of two checks that fails. -/
def orTrap (a : Option Trap) (b : Option Trap) : Option Trap :=
  match a with
  | some t => some t
  | none => b
/-- First of a list of checks that fails. -/
def firstTrap : List (Option Trap) → Option Trap
  | [] => none
  | some t :: _ => some t
  | none :: r => firstTrap r
/-- VALID, then the map, then the layout, then the space: the checks every access makes before its address (log entry 10). -/
def State.streamTrap (s : State) (n : BitVec 5) (a : Accessor) : Option Trap :=
  let st := s.rst n
  if !st.valid then some (accessFault 0x03 0 n.toNat)
  else if st.mapBad a.scales then some (accessFault 0x01 st.addr n.toNat)
  else orTrap (s.layoutTrap st) (permTrap st a)

/-! Rows. -/

/-- The core a stream reads: this one, or the named core of the cluster (R139, R146). -/
def State.streamCore (s : State) (st : Stream) : Nat := if st.remote then s.cid / 8 * 8 + st.rcore else s.cid
/-- Physical position of byte b of row r under diagonal placement (R144). -/
def diagByte (diag : Bool) (r b : Nat) : Nat := if diag then (b / 16 + r) % 16 * 16 + b % 16 else b
/-- Counts added to a histogram row, saturating (R66). -/
def histAdd (counts : List Nat) (v : BitVec 2048) : BitVec 2048 :=
  let old := toLanes 32 32 v.toNat
  mixBits (BitVec.ofNat 2048 (2 ^ 1024 - 1)) (BitVec.ofNat 2048 (fromLanes 32 (List.zipWith (fun a b => Nat.min (a + b) (2 ^ 32 - 1)) old counts))) v
/-- A row of a buffer as a sample in cycle t sees it: the row as it stands with the writes that become visible by then. -/
def rowAt (c : Core) (wmem : Bool) (row t : Nat) : BitVec 2048 :=
  let base := fget 0 (if wmem then c.wmem else c.amem) row
  if wmem then base
  else
    let ws := (sortBy (fun (a b : Pend) => decide (a.due < b.due) || (decide (a.due = b.due) && (decide (a.slot < b.slot) || (decide (a.slot = b.slot) && decide (a.seq < b.seq))))) (c.pend.filter fun p => decide (p.due < t)))
    ws.foldl (fun v p => match p.eff with
      | .amem r m x => if r = row then mixBits m x v else v
      | .hist r cs => if r = row then histAdd cs v else v
      | _ => v) base
/-- Bytes of a buffer as seen in cycle t, from an address on, modulo 2^21. -/
def padAt (c : Core) (wmem diag : Bool) (addr n t : Nat) : Nat :=
  fromLanes 8 ((List.range n).map fun i =>
    let a := (addr + i) % 2 ^ 21
    bits (rowAt c wmem (a / 256) t).toNat (8 * diagByte diag (a / 256) (a % 256)) 8)
/-- MACHINE_CHECK of a scratchpad read that meets an uncorrectable error (R352): none where none of its words holds one. -/
def Core.padFlaw (c : Core) (wmem diag : Bool) (addr n : Nat) : Option Trap :=
  if c.padBad.isEmpty then none
  else if (List.range n).any fun i => let a := (addr + i) % 2 ^ 21; c.padBad.contains (wmem, a / 256 * 32 + diagByte diag (a / 256) (a % 256) / 8)
  then some (machineCheck (if wmem then 2 else 1) addr) else none
/-- The aligned section of an access (R145). -/
def sectionOf (addr bytes : Nat) : Nat := addr / bytes * bytes
/-- A section of one row, as seen in cycle t. -/
def sectAt (c : Core) (wmem diag : Bool) (addr bytes t : Nat) : Nat :=
  let a := sectionOf addr bytes
  let row := (rowAt c wmem (a / 256 % 8192) t).toNat
  if !diag then bits row (8 * (a % 256)) (8 * bytes)
  else if bytes < 16 then bits row (8 * diagByte true (a / 256 % 8192) (a % 256)) (8 * bytes)
  else fromLanes 128 ((List.range (ceilDiv bytes 16)).map fun i => bits row (8 * diagByte true (a / 256 % 8192) (a % 256 + 16 * i)) 128)
/-- A write of a section: the row's mask and value, for lanes given as a byte mask and bytes. -/
def sectWrite (diag : Bool) (addr bytes : Nat) (mask v : Nat) : Eff :=
  let a := sectionOf addr bytes
  let row := a / 256 % 8192
  let place := fun x => if diag then
      ((List.range (ceilDiv bytes 16)).map fun i => bits x (128 * i) 128 * 2 ^ (8 * diagByte true row (a % 256 + 16 * i))).sum
    else x % 2 ^ (8 * bytes) * 2 ^ (8 * (a % 256))
  .amem row (BitVec.ofNat 2048 (place mask)) (BitVec.ofNat 2048 (place v))

/-! Vector and reduction operands (R167). -/

/-- The checks of a section access: stream, bounds, owner. -/
def State.sectTrap (s : State) (n : BitVec 5) (a : Accessor) (bytes : Nat) : Option Trap :=
  let st := s.rst n
  firstTrap [s.streamTrap n a, if st.idx then some (accessFault 0x04 st.addr n.toNat) else none, boundsTrap st n,
    if st.zeroed || st.space == 2 then none else s.ownerTrap (s.streamCore st) (st.space == 1) (sectionOf (st.addrOf 0) bytes) a.writes st.remote]
/-- The section an access will read; none where it reads zero bits. -/
def State.sectRead (s : State) (n : BitVec 5) (bytes : Nat) : Option RowRead :=
  let st := s.rst n
  if st.zeroed then none else some { wmem := st.space == 1, core := s.streamCore st, addr := sectionOf (st.addrOf 0) bytes, bytes := bytes }
/-- Sample a section in a cycle. -/
def State.sample (s : State) (diag : Bool) (t : Nat) (r : Option RowRead) : Nat :=
  match r with
  | none => 0
  | some r => sectAt (s.coreAt r.core) r.wmem diag r.addr r.bytes t

/-! Index lists (R148). -/

/-- Address of entry j of an index list from the current position. -/
def Stream.idxAddr (st : Stream) (j : Nat) : Nat := (bits st.ibase 0 56 + 4 * ((st.posd 0 + j) % st.cext)) % 2 ^ 21
/-- Owner check of the index rows of the unmasked lanes. -/
def State.idxOwner (s : State) (st : Stream) (lanes : List Nat) : Option Trap :=
  firstTrap (lanes.map fun j => orTrap (s.ownerTrap s.cid false (st.idxAddr j) false false) (s.ownerTrap s.cid false ((st.idxAddr j + 3) % 2 ^ 21) false false))
/-- Index of lane j, sampled in the issue cycle. -/
def State.idxOf (s : State) (st : Stream) (j : Nat) : Int := sval 32 (padAt s.core false false (st.idxAddr j) 4 s.clk.now)
/-- GATHER_INDEX for the lowest faulting lane, in mode FAULT. -/
def State.gatherTrap (s : State) (st : Stream) (lanes : List Nat) : Option Trap :=
  if st.bounds ≠ 0 then none
  else
    match lanes.find? fun j => let i := s.idxOf st j; decide (i < 0) || decide ((st.nel : Int) ≤ i) with
    | some j => some { cause := cGather, info0 := j, info1 := (BitVec.ofInt 64 (s.idxOf st j)).toNat, resumable := true }
    | none => none
/-- The index of lane j is in range. -/
def State.idxIn (s : State) (st : Stream) (j : Nat) : Bool := decide (0 ≤ s.idxOf st j) && decide (s.idxOf st j < (st.nel : Int))
/-- Element address of lane j of e bytes; none where the lane reads zero or its write is discarded. -/
def State.elemAddr (s : State) (st : Stream) (e j : Nat) : Option Nat :=
  let i := s.idxOf st j
  if s.idxIn st j then some (((st.addr : Int) + i * e).emod (spaceSize st.space)).toNat
  else if st.bounds = 2 then some (((st.addr : Int) + (if i < 0 then 0 else (st.nel : Int) - 1) * e).emod (spaceSize st.space)).toNat
  else none
/-- Unmasked lanes among the first n. -/
def lanesOf (k : BitVec 128) (n : Nat) : List Nat := (List.range n).filter fun i => k.getLsbD i
/-- The checks of an index access whose elements lie in AMEM or, for the LS slot, global space: VALID, map, layout, space, index rows, indices, element owners. -/
def State.idxTrap (s : State) (n : BitVec 5) (a : Accessor) (e : Nat) (lanes : List Nat) : Option Trap :=
  let st := s.rst n
  firstTrap [s.streamTrap n a, if st.idx then none else some (accessFault 0x04 st.addr n.toNat), s.idxOwner st lanes, s.gatherTrap st lanes,
    if st.space == 2 then none else firstTrap (lanes.map fun j => match s.elemAddr st e j with
      | some x => orTrap (s.ownerTrap s.cid false x a.writes false) (s.ownerTrap s.cid false ((x + e - 1) % 2 ^ 21) a.writes false)
      | none => none)]

/-! The common tail of a stream access: CHECKED and the step (R14, R78). -/

def State.touch (s : State) (n : BitVec 5) (unit : Nat) : State :=
  let s := if (s.rst n).ly && !(s.rst n).checked then s.emit 1 (.checked n) else s
  s.emit 1 (.step n unit)

/-- Emit an effect that lands at the end of a given cycle. -/
def State.emitDue (s : State) (due : Nat) (e : Eff) : State :=
  s.onIss fun i => { i with effs := i.effs ++ [{ due := due, slot := i.slot, seq := s.clk.nextId, pc := s.issPc, rep := s.issRep, eff := e }] }
def State.emitAll (s : State) (due : Nat) (es : List Eff) : State := es.foldl (fun s e => s.emitDue due e) s
/-- A modulus that STEP uses is zero (R142). -/
def Stream.zeroMod (st : Stream) : Bool := st.cext == 0 || (!st.idx && (st.ext 0 == 0 || st.ext 1 == 0 || st.ext 2 == 0))
/-- Write of an element of k bytes at a buffer address: one effect for each row it touches. -/
def elemEffs (diag : Bool) (addr k v : Nat) : List Eff :=
  let place := fun r (x : Nat) => ((List.range k).map fun i =>
    let a := (addr + i) % 2 ^ 21
    if a / 256 = r then bits x (8 * i) 8 * 2 ^ (8 * diagByte diag r (a % 256)) else 0).sum
  let one := fun r => Eff.amem r (BitVec.ofNat 2048 (place r (2 ^ (8 * k) - 1))) (BitVec.ofNat 2048 (place r v))
  let r0 := addr / 256 % 8192
  let r1 := (addr + k - 1) % 2 ^ 21 / 256
  if r0 = r1 then [one r0] else [one r0, one r1]

/-! Operands of vector and reduction forms. -/

/-- A blank operand record. -/
def Cap.blank : Cap :=
  { slot := 0, issued := 0, pc := 0, rep := 0, a := 0, b := 0, d := 0, k := 0, sa := 0, sb := 0, words := [], reads := [], streams := [], diag := false,
    ma := .empty, aux := [] }
/-- The record of an operation that issues now: its slot, its cycle, its bundle and its repetition. -/
def State.cap0 (s : State) : Cap := { Cap.blank with slot := s.core.iss.slot, issued := s.clk.now, pc := s.core.ctx.pc.toNat, rep := s.core.iss.rep }
/-- Lanes of T in width W. -/
def lanesIn (w : Width) (t : ETy) : Nat := w.bits / t.bits
/-- Registers of a vector form as they stand at issue. -/
def State.capture (s : State) (f : VF) : Cap :=
  { s.cap0 with a := s.rv f.a, b := s.rv f.b, d := s.rv f.d, k := s.rk f.k, sa := s.rs f.a, sb := s.rs f.b }

/-! Tile reads of the matrix slot (R198). -/

/-- Bytes of a row of 64 elements: RB. -/
def rowBytes (fmt : Nat) : Nat := 8 * fmtBits fmt
/-- The stream at each row of a tile read of n rows. -/
def tileStreams (st : Stream) (rb : Nat) : Nat → List Stream
  | 0 => []
  | n + 1 => st :: tileStreams (st.step rb) rb n
/-- The owner checks of one row of a tile read: both ends of its bytes, and the scale byte of each of its four blocks (R143, R146). -/
def State.rowOwner (s : State) (x : Stream) : Option Trap :=
  let rb := rowBytes x.fmt
  let a := x.addrOf 0 / 16 * 16
  if x.zeroed then none
  else firstTrap ([s.ownerTrap (s.streamCore x) (x.space == 1) a false x.remote, s.ownerTrap (s.streamCore x) (x.space == 1) ((a + rb - 1) % 2 ^ 21) false x.remote]
    ++ if fmtScaled x.fmt then (List.range 4).map fun j => s.ownerTrap (s.streamCore x) (bits x.sbase 62 2 == 1) (x.saddr (x.cpos + j * fmtBlock x.fmt)) false x.remote else [])
/-- Checks of a tile read at issue: bounds of every row and, on this core's own tiles, owners, row by row. -/
def State.tileTrap (s : State) (n : BitVec 5) (remoteOk trans : Bool) (rows : Nat) : Option Trap :=
  let st := s.rst n
  orTrap (s.streamTrap n (.mx remoteOk))
    (if st.idx || (trans && fmtScaled st.fmt) then some (accessFault 0x04 st.addr n.toNat)
     else if fmtScaled st.fmt && decide (2 ≤ bits st.sbase 62 2) then some { cause := cPerm, info0 := 4 }
     else
      firstTrap ((tileStreams st (rowBytes st.fmt) rows).map fun x => orTrap (boundsTrap x n) (if x.remote then none else s.rowOwner x)))
/-- The owner judgement of a cluster-remote tile read, made at the start of its sample cycle (R278). -/
def State.remoteTrap (s : State) (st : Stream) (rows : Nat) : Option Trap :=
  if st.remote then firstTrap ((tileStreams st (rowBytes st.fmt) rows).map s.rowOwner) else none
/-- The blocks of a tile read, sampled in cycle t: for each row, its four blocks of 16 elements. -/
def State.tileRead (s : State) (st : Stream) (rows t : Nat) : List (List Block) :=
  let rb := rowBytes st.fmt
  let e := fmtBits st.fmt
  let c := s.coreAt (s.streamCore st)
  (tileStreams st rb rows).map fun x =>
    let raw := if x.zeroed then 0 else padAt c (x.space == 1) x.diag (x.addrOf 0 / 16 * 16) rb t
    (List.range 4).map fun j =>
      let byte := if x.zeroed then 0 else if fmtScaled st.fmt then padAt c (bits x.sbase 62 2 == 1) false (x.saddr (x.cpos + j * fmtBlock st.fmt)) 1 t else 0
      { fmt := st.fmt, els := toLanes e 16 (raw / 2 ^ (16 * e * j)), scale := scaleOf st.fmt byte st.tscale }
/-- The uncorrectable error that a tile read meets. -/
def State.tileFlaw (s : State) (st : Stream) (rows : Nat) : Option Trap :=
  let c := s.coreAt (s.streamCore st)
  if c.padBad.isEmpty then none
  else firstTrap ((tileStreams st (rowBytes st.fmt) rows).map fun x =>
    if x.zeroed then none
    else firstTrap (c.padFlaw (x.space == 1) x.diag (x.addrOf 0 / 16 * 16) (rowBytes st.fmt) ::
      if fmtScaled st.fmt then (List.range 4).map fun j => c.padFlaw (bits x.sbase 62 2 == 1) false (x.saddr (x.cpos + j * fmtBlock st.fmt)) 1 else []))
/-- Transposed tile: element (i, k) is element i of row k, for formats without a block scale. -/
def transposeBlocks (b : List (List Block)) : List (List Block) :=
  let fmt := ((b.getD 0 []).getD 0 { fmt := 13, els := [], scale := none }).fmt
  let flat := b.map fun r => (r.map Block.els).flatten
  (List.range 64).map fun i =>
    let row := flat.map fun r => r.getD i 0
    (List.range 4).map fun j => { fmt := fmt, els := (row.drop (16 * j)).take 16, scale := some (1, 0) }

end Sys2Proof.Machine
end

