-- ==== Sys2Proof/Machine/Flags.lean ====
section
/-! DEFINITION. The control registers as they read and as they are written (R20 to R30), VFLAGS and the flag computations of element operations (R29, R54 to R56). -/

namespace Sys2Proof.Machine

/-! Control registers. -/

/-- DEVID (R20): part, revision, variant, serial. -/
def SysCfg.devid (c : SysCfg) : BitVec 64 :=
  BitVec.ofNat 16 (if c.variant = 2 then 0x0D04 else 0x0D08) ++ (0x01#8 ++ (c.variant.setWidth 8 ++ c.serial))
/-- DEVFEAT (R27). -/
def SysCfg.devfeat (c : SysCfg) : BitVec 64 :=
  if c.variant = 2 then 0x0000000408080001 else if c.variant = 1 then 0x0000000808080006 else 0x0000000808080007
/-- COORD of a core (R28). -/
def coordOf (cid : Nat) : BitVec 64 :=
  let d := dieOf cid
  let c := coreOf cid
  0#9 ++ (BitVec.ofNat 23 d ++ (BitVec.ofNat 8 (dieX d) ++ (BitVec.ofNat 8 (dieY d) ++ (0#1 ++ (BitVec.ofNat 7 (dieZ d) ++ (0#2 ++ (BitVec.ofNat 3 (c / 8) ++ BitVec.ofNat 3 (c % 8))))))))
/-- PARKMAP as it reads (R30). -/
def ParkMap.word (p : ParkMap) : BitVec 64 := 0#2 ++ (BitVec.ofBool p.amem ++ (p.base ++ (p.rows ++ p.regs)))
/-- A control register as it stands (R20, R126). -/
def State.crRead (s : State) (c : BitVec 8) : BitVec 64 :=
  let r := s.ctl
  match c.toNat with
  | 0x00 => s.cfg.devid
  | 0x01 => s.cfg.devfeat
  | 0x02 => coordOf s.cid
  | 0x03 => BitVec.ofNat 64 s.timeb
  | 0x08 => r.deadline
  | 0x09 => r.budget.setWidth 64
  | 0x0A => r.spbound.setWidth 64
  | 0x10 => r.tol.setWidth 64
  | 0x11 => (BitVec.ofBool r.tolmode).setWidth 64
  | 0x12 => BitVec.ofNat 64 s.mrfOcc
  | 0x13 => BitVec.ofNat 64 s.core.mrfCap
  | 0x14 => r.park.word
  | 0x18 => r.vflags.setWidth 64
  | 0x20 => r.qkey0.setWidth 64
  | 0x21 => r.qkey1.setWidth 64
  | 0x22 => r.qctrlo
  | 0x23 => r.qctrhi
  | 0x28 => r.asid.setWidth 64
  | 0x29 => r.traprec
  | 0x2A => r.laybase.setWidth 64
  | _ => 0
/-- The privileged control registers (R20). -/
def crPriv (c : BitVec 8) : Bool := c == 0x28 || c == 0x2A
/-- The job's LAYBASE and ASID fields in its JCB (R25). -/
def State.wrJcbAsid (s : State) (a : BitVec 12) : State :=
  let old := s.rd (s.jcb + 0x0C) 2
  s.wr (s.jcb + 0x0C) 2 (old / 4096 * 4096 + a.toNat)
def State.wrJcbLaybase (s : State) (a : BitVec 56) : State :=
  let old := s.rd (s.jcb + 0x10) 8
  s.wr (s.jcb + 0x10) 8 (old / 2 ^ 56 * 2 ^ 56 + a.toNat)
/-- The write of a control register takes effect (R22 to R26, R29): read-only registers keep their value, RSVD bits are discarded, VFLAGS clears the bits written as one. -/
def State.crWrite (s : State) (c : BitVec 8) (v : BitVec 64) : State :=
  match c.toNat with
  | 0x08 => (s.onCtl fun r => { r with deadline := v }).onCont s.selfKey fun k => { k with deadline := v }
  | 0x09 => s.onCtl fun r => { r with budget := v.setWidth 32 }
  | 0x0A => s.onCtl fun r => { r with spbound := v.setWidth 16 }
  | 0x10 => s.onCtl fun r => { r with tol := v.setWidth 32 }
  | 0x11 => s.onCtl fun r => { r with tolmode := v.getLsbD 0 }
  | 0x18 => s.onCtl fun r => { r with vflags := r.vflags &&& ~~~(v.setWidth 6) }
  | 0x20 => s.onCtl fun r => { r with qkey0 := v.setWidth 32 }
  | 0x21 => s.onCtl fun r => { r with qkey1 := v.setWidth 32 }
  | 0x22 => s.onCtl fun r => { r with qctrlo := v }
  | 0x23 => s.onCtl fun r => { r with qctrhi := v }
  | 0x28 => (s.onCtl fun r => { r with asid := v.setWidth 12 }).wrJcbAsid (v.setWidth 12)
  | 0x2A =>
    let a : BitVec 56 := v.setWidth 56 &&& ~~~0x1FF#56
    (s.onCtl fun r => { r with laybase := a }).wrJcbLaybase a
  | _ => s

/-! Flags of element operations: six bits, SAT NX UF OF DZ NV from bit 5 down (R29). -/

/-- A result of an element operation: its bits and the flags it raises. -/
abbrev EltRes := Nat × Nat
/-- Type format of a floating element type (R49). -/
def etFmt : ETy → Fmt
  | .bf16 => bf16
  | .f16 => f16
  | _ => f32
/-- Range of an integer element type. -/
def etLo (t : ETy) : Int := if t.isSigned then -(2 ^ (t.bits - 1) : Nat) else 0
def etHi (t : ETy) : Int := if t.isSigned then (2 ^ (t.bits - 1) : Nat) - 1 else (2 ^ t.bits : Nat) - 1
/-- Integer value of an element. -/
def etIval (t : ETy) (x : Nat) : Int := if t.isSigned then sval t.bits x else (x % 2 ^ t.bits : Nat)
/-- Narrow an exact integer result (R54): wrap under MOD 0b00, saturate with SAT under MOD 0b01. -/
def etNarrow (t : ETy) (md : Nat) (v : Int) : EltRes :=
  if md = 0 then (wrapN t.bits v, 0)
  else if v < etLo t then (wrapN t.bits (etLo t), flSAT)
  else if etHi t < v then (wrapN t.bits (etHi t), flSAT)
  else (wrapN t.bits v, 0)
/-- Results of lanes: their values and the union of their flags. -/
def laneRes (rs : List EltRes) : List Nat × Nat := (rs.map Prod.fst, rs.foldl (fun f r => orF f r.2) 0)
/-- Flags as VFLAGS bits. -/
def flagBits (f : Nat) : BitVec 6 := BitVec.ofNat 6 f

end Sys2Proof.Machine
end

