-- ==== Sys2Proof/Machine/Port.lean ====
section
/-! DEFINITION. The accumulator port slots (R217 to R219) and the histogram of a store (R66). -/

namespace Sys2Proof.Machine

/-- Row key of ACC: 128 rows to a bank. -/
def accRow (bank : BitVec 4) (row : Nat) : Nat := 128 * bank.toNat + row % 128
/-- Index of the standing operation of the slot that issues: 5 for AP0, 6 for AP1. -/
def State.apStand (s : State) : Nat := s.core.iss.slot - 2
/-- The standing operation holds the next row (R218). -/
def State.nextRow (s : State) (f : AF) (mk : AF → Instr) : State :=
  s.emit 1 (.stand s.apStand (BitVec.ofNat 32 (encodeWord (mk { f with mods := f.mods + 1 }))))
/-- The standing operation holds the next half row: P = 2ρ + HALF, modulo 256. -/
def State.nextHalf (s : State) (f : AF) (mk : AF → Instr) : State :=
  let p := (2 * f.mods.toNat + b2n (f.x.getLsbD 0) + 1) % 256
  s.emit 1 (.stand s.apStand (BitVec.ofNat 32 (encodeWord (mk { f with mods := BitVec.ofNat 7 (p / 2), x := BitVec.ofNat 4 (p % 2) }))))
/-- Shift of a half row in its row, in bits. -/
def halfShift (f : AF) : Nat := if f.x.getLsbD 0 then 1024 else 0
/-- The half row as it stands at issue. -/
def State.halfRow (s : State) (f : AF) : Nat := bits (s.racc (accRow f.bank f.mods.toNat)).toNat (halfShift f) 1024
/-- The write of a half row. -/
def halfWrite (f : AF) (v : Nat) : Eff :=
  .acc (accRow f.bank f.mods.toNat) (BitVec.ofNat 2048 ((2 ^ 1024 - 1) * 2 ^ halfShift f)) (BitVec.ofNat 2048 (v % 2 ^ 1024 * 2 ^ halfShift f))

/-! The forms (R217): results land at the end of cycle t + 1. -/

def execAccld (f : AF) (s : State) : Out :=
  .next ((s.emit 2 (.vreg f.vreg (BitVec.allOnes 1024) (BitVec.ofNat 1024 (s.halfRow f)))).nextHalf f .accld)
def execAccwr (f : AF) (s : State) : Out := .next ((s.emit 2 (halfWrite f (s.rv f.vreg).toNat)).nextHalf f .accwr)
def execAccadd (f : AF) (s : State) : Out :=
  let r := laneRes (List.zipWith (addF f32 0) (toLanes 32 32 (s.halfRow f)) (toLanes 32 32 (s.rv f.vreg).toNat))
  .next (((s.emit 2 (halfWrite f (fromLanes 32 r.1))).emit 2 (.flags (flagBits r.2))).nextHalf f .accadd)
def execAccclr (f : AF) (s : State) : Out :=
  .next ((s.emit 2 (.acc (accRow f.bank f.mods.toNat) (BitVec.allOnes 2048) 0)).nextRow f .accclr)
def execAccmv (f : AF) (s : State) : Out :=
  .next ((s.emit 2 (.acc (accRow (f.stream.setWidth 4) f.mods.toNat) (BitVec.allOnes 2048) (s.racc (accRow f.bank f.mods.toNat)))).nextRow f .accmv)
def execAccscl (f : AF) (s : State) : Out :=
  let v := toLanes 32 32 (s.rv f.vreg).toNat
  let r := laneRes (List.zipWith (mulF f32 0) (toLanes 32 64 (s.racc (accRow f.bank f.mods.toNat)).toNat) (v ++ v))
  .next (((s.emit 2 (.acc (accRow f.bank f.mods.toNat) (BitVec.allOnes 2048) (BitVec.ofNat 2048 (fromLanes 32 r.1)))).emit 2 (.flags (flagBits r.2))).nextRow f .accscl)

/-! Stores (R219). -/

/-- Row and element of the tile that o[j] takes under a layout transform. -/
def layoutXf (x i j : Nat) : Nat × Nat :=
  match x with
  | 1 => (j, i)
  | 2 => (i / 4 % 4 + 4 * (i / 16) + 16 * (i % 4), j)
  | 3 => (i, (j + 64 - i) % 64)
  | 4 => (i, 16 * (j % 4) + j / 4)
  | 5 => (i, 4 * (j % 16) + j / 16)
  | _ => (i, j)
/-- The output row. -/
def State.portRow (s : State) (f : AF) : List Nat :=
  let h := f.mods.toNat / 64
  (List.range 64).map fun j =>
    let p := layoutXf f.x.toNat (f.mods.toNat % 64) j
    bits (s.racc (accRow f.bank (64 * h + p.1))).toNat (32 * p.2) 32
/-- Histogram bin of a value (R66). -/
def histBin (hbase : Int) (x : Nat) : Nat :=
  match unpack f32 x with
  | .fin _ m e =>
    if m = 0 then 0
    else
      let d := flog2 m e - hbase
      if d ≤ 0 then 1 else if 29 ≤ d then 30 else (d + 1).toNat
  | _ => 31
def histCounts (hbase : Int) (xs : List Nat) : List Nat :=
  let b := xs.map (histBin hbase)
  (List.range 32).map fun k => (b.filter (· == k)).length
/-- Conversion of an element of `accst` to the format of the stream (R56). -/
def portCvt (fmt x : Nat) : EltRes :=
  match fmt with
  | 9 => toE4M3 0 (unpack f32 x)
  | 10 => toE5M2 0 (unpack f32 x)
  | c => cvtV (fmtFloat c) 0 (unpack f32 x)
/-- Space of the scale bytes. -/
def Stream.sspace (st : Stream) : Nat := bits st.sbase 62 2
/-- Address of the scale byte of block m. -/
def Stream.portScale (st : Stream) (m : Nat) : Nat := st.saddr (st.cpos + m * fmtBlock st.fmt)
/-- The checks of a port store: stream, kind, format, space of the scales, bounds, owners. -/
def State.portTrap (s : State) (f : AF) (okFmt : Nat → Bool) : Option Trap :=
  let st := s.rst f.stream
  let n := 8 * fmtBits st.fmt
  let a := st.addrOf 0 / 16 * 16
  firstTrap [if st.valid && f.hist && bits (st.f 0x26 2) 13 3 != 0 then some (accessFault 0x01 st.addr f.stream.toNat) else none, s.streamTrap f.stream .ap, if st.idx || !okFmt st.fmt then some (accessFault 0x04 st.addr f.stream.toNat) else none,
    if fmtScaled st.fmt && st.sspace != 0 then some { cause := cPerm, info0 := permInfo st.sspace } else none,
    boundsTrap st f.stream,
    if st.zeroed then none else
      firstTrap ([s.ownerTrap s.cid false a true false, s.ownerTrap s.cid false ((a + n - 1) % 2 ^ 21) true false]
        ++ (if fmtScaled st.fmt then (List.range 4).map fun m => s.ownerTrap s.cid false (st.portScale m) true false else [])
        ++ (if f.hist then [s.ownerTrap s.cid false (256 * st.hrow) true false] else []))]
/-- A port store: its bytes, its flags and its counts all land at the end of cycle t + 3. -/
def State.portStore (s : State) (f : AF) (okFmt : Nat → Bool) (enc : Stream → List Nat → List Eff × Nat × Nat) (mk : AF → Instr) : Out :=
  match s.portTrap f okFmt with
  | some t => .next (s.raise t)
  | none =>
    let st := s.rst f.stream
    let o := s.portRow f
    let (scales, v, fl) := enc st o
    let n := 8 * fmtBits st.fmt
    let es := if st.zeroed then [] else elemEffs st.diag (st.addrOf 0 / 16 * 16) n v ++ scales ++ (if f.hist then [.hist st.hrow (histCounts st.hbase o)] else [])
    .next (((s.emitAll (s.now + 3) (es ++ [.flags (flagBits fl)])).touch f.stream n).nextRow f mk)
def execAccst (f : AF) (s : State) : Out :=
  s.portStore f (fun c => [9, 10, 11, 12, 13].contains c)
    (fun st o => let r := laneRes (o.map (portCvt st.fmt)); ([], fromLanes (fmtBits st.fmt) r.1, r.2)) .accst
def execAccqst (f : AF) (s : State) : Out :=
  s.portStore f fmtScaled
    (fun st o =>
      let q := (blocksOf 4 o).map fun b => quant b st.fmt st.tscale
      ((List.zipIdx q).flatMap fun p => elemEffs false (st.portScale p.2) 1 p.1.1,
        fromLanes (fmtBits st.fmt) (q.map fun r => r.2.1).flatten, q.foldl (fun a r => orF a r.2.2) 0)) .accqst

end Sys2Proof.Machine
end

