-- ==== Sys2Proof/Machine/Control.lean ====
section
/-! DEFINITION. The branch tree (R79 to R84, R132 to R135): the outcome, its target and the call link, left in the issue buffer; the step takes them when the bundle retires. -/

namespace Sys2Proof.Machine

/-- Test i of a tree: invert flag at [4], predicate number at [3:0] (R79). -/
def treeTest (t : Tree) (i : Nat) : BitVec 5 :=
  match i with
  | 0 => t.t0
  | 1 => t.t1
  | 2 => t.t2
  | _ => t.t3
/-- Target entry of an outcome (R81). -/
def treeEntry (t : Tree) (o : Nat) : BitVec 16 :=
  match o with
  | 0 => t.e0
  | 1 => t.e1
  | 2 => t.e2
  | _ => t.e3
/-- A test holds: the predicate differs from the invert bit (R80). -/
def State.testHolds (s : State) (x : BitVec 5) : Bool := xor (s.rp (x.setWidth 4)) (x.getLsbD 4)
/-- The outcome: the first true test, or 4 for NT (R80). -/
def State.outcome (s : State) (t : Tree) : Nat := ((List.range (t.nt.toNat + 1)).find? fun i => s.testHolds (treeTest t i)).getD 4
/-- Address of the next sequential bundle (R69). -/
def State.nextPc (s : State) : BitVec 56 := s.core.ctx.pc + BitVec.ofNat 56 (4 * s.core.iss.len)
/-- Target of a jump or a call: the bundle address + 4·offset (R81). -/
def State.jumpTarget (s : State) (t : Tree) (o : Nat) : BitVec 56 := s.core.ctx.pc + ((treeEntry t o).signExtend 56 <<< 2)
/-- Target of an indirect tree: the register with bits [1:0] and [63:56] ignored (R81). -/
def State.indirectTarget (s : State) (t : Tree) (o : Nat) : BitVec 56 := (s.rs ((treeEntry t o).setWidth 5)).setWidth 56 &&& ~~~3#56
/-- The tree's choice, kept until the bundle retires. -/
def State.choose (s : State) (o : Nat) (target : Option (BitVec 56)) : State := s.onIss fun i => { i with outcome := o, target := target }

/-- A jump tree (R80, R81). -/
def execBr (t : Tree) (s : State) : Out :=
  let o := s.outcome t
  .next (s.choose o (if o = 4 then none else some (s.jumpTarget t o)))
/-- A call tree: on a taken outcome the address of the next sequential bundle goes to `s31` (R83). -/
def execCall (t : Tree) (s : State) : Out :=
  let o := s.outcome t
  if o = 4 then .next (s.choose o none)
  else .next ((s.choose o (some (s.jumpTarget t o))).emit 1 (.sreg 31 (s.nextPc.setWidth 64)))
/-- An indirect tree (R81). -/
def execBrx (t : Tree) (s : State) : Out :=
  let o := s.outcome t
  .next (s.choose o (if o = 4 then none else some (s.indirectTarget t o)))

end Sys2Proof.Machine
end

