-- ==== Sys2Proof/Machine/Hazard.lean ====
section
/-! DEFINITION. The interlocks that hold a repetition (R93, R153, R195, R260): the registers a slot operation reads or writes, against the destinations of off-core loads and the matrix results in flight. -/

namespace Sys2Proof.Machine

/-- Scalar and vector registers, streams, cursors and stage sets that an operation names. -/
structure Use where
  s : List (BitVec 5) := []
  v : List (BitVec 5) := []
  st : List (BitVec 5) := []
  sq : List (BitVec 3) := []
  ts : List (BitVec 3) := []
deriving DecidableEq, Repr

/-- Operand b of a vector form: a register or a stream. -/
def vfB (f : VF) (u : Use) : Use := if f.sb then { u with st := f.b :: u.st } else { u with v := f.b :: u.v }
/-- Forms of vd and va. -/
def vfOne (f : VF) : Use := { v := [f.d, f.a] }
/-- Forms of vd, va and B. -/
def vfTwo (f : VF) : Use := vfB f { v := [f.d, f.a] }
/-- Forms of va and B into a mask or predicate register. -/
def vfCmp (f : VF) : Use := vfB f { v := [f.a] }
def rfUse (f : RF) : Use := if f.sa then { st := [f.va] } else { v := [f.va] }
def lfUse (f : LF) : Use := { v := [f.v], st := [f.st] }
def afVec (f : AF) : Use := { v := [f.vreg] }
def afStr (f : AF) : Use := { st := [f.stream] }
/-- What a tree reads or writes on an outcome: the link of a taken call, the register of the entry that an indirect tree takes. -/
def treeUse (o : Nat) (i : Instr) : Use :=
  match i with
  | .call _ => if o = 4 then {} else { s := [31] }
  | .brx t => if o = 4 then {} else { s := [(treeEntry t o).setWidth 5] }
  | _ => {}
/-- What a slot operation reads or writes. -/
def useOf (i : Instr) : Use :=
  match i with
  | .add d a b | .sub d a b | .mul d a b | .mulh d a b _ | .div d a b _ | .rem d a b _ | .and d a b | .or d a b | .xor d a b | .sll d a b
  | .srl d a b | .sra d a b | .min d a b _ | .max d a b _ | .sel d a b _ _ | .addsh d a b _ | .fadd d a b _ | .fmul d a b _ => { s := [d, a, b] }
  | .slli d a _ | .srli d a _ | .srai d a _ | .clz d a | .ctz d a | .popc d a | .bext d a _ _ _ | .bins d a _ _ | .fcvt d a _ _ | .addi d a _
  | .andi d a _ | .ori d a _ | .xori d a _ | .movh d a _ => { s := [d, a] }
  | .kset _ a _ => { s := [a] }
  | .kget d _ _ | .crrd d _ | .movi d _ | .lix d _ _ _ => { s := [d] }
  | .crwr a _ => { s := [a] }
  | .cmpeq _ a b | .cmpne _ a b | .cmplt _ a b | .cmple _ a b | .cmpltu _ a b | .cmpleu _ a b | .fcmp _ a b _ => { s := [a, b] }
  | .cmpeqImm _ a _ | .cmpneImm _ a _ | .cmpltImm _ a _ | .cmpleImm _ a _ | .cmpltuImm _ a _ | .cmpleuImm _ a _ => { s := [a] }
  | .ld d a _ | .ldacq d a _ _ => { s := [d, a] }
  | .st v a _ | .strel v a _ _ => { s := [v, a] }
  | .pf _ a _ => { s := [a] }
  | .amoadd d a b _ _ | .amoand d a b _ _ | .amoor d a b _ _ | .amoxor d a b _ _ | .amomin d a b _ _ _ | .amomax d a b _ _ _ | .amoswap d a b _ _
  | .amocas d a b _ _ => { s := [d, a, b] }
  | .stld n a _ | .stset n a _ | .stadv n a => { s := [a], st := [n] }
  | .stget d n _ => { s := [d], st := [n] }
  | .vld f | .vst f | .vldb f | .vscat f | .vscadd f | .vscmax f => lfUse f
  | .vpf f => { st := [f.st] }
  | .vredst f => { lfUse f with s := [f.form.extractLsb' 3 5] }
  | .vadd f | .vsub f | .vmul f | .vfma f | .vfms f | .vfnma f | .vmulh f | .vmin f | .vmax f | .vclamp f | .vand f | .vor f | .vxor f | .vsll f
  | .vsrl f | .vsra f | .vsel f | .vpack f | .vshuf f | .vzip f | .vuzp f => vfTwo f
  | .vabs f | .vneg f | .vrnd f | .vnot f | .vclass f | .vcvt f | .vcvt8 f | .vquant f | .vdequant f | .vunpk f | .vrev f | .vexp2 f | .vlog2 f
  | .vrcp f | .vrsqrt f | .vsin f | .vcos f | .vtanh f => vfOne f
  | .vmov f => vfB f { v := [f.d] }
  | .vcmpeq f | .vcmpne f | .vcmplt f | .vcmple f => vfCmp f
  | .vbcast f => { s := [f.a], v := [f.d] }
  | .vins f => { s := [f.a, f.b], v := [f.d] }
  | .vext f | .vslide f | .vtemp f => { s := [f.b], v := [f.d, f.a] }
  | .vtopk f => { s := [f.b], v := [f.a] }
  | .vgath f | .vrotm f => { v := [f.d], st := [f.b] }
  | .vpark f => { s := [f.b], v := [f.a] }
  | .vunpark f | .vqraw f | .vunif f | .vnorm f => { v := [f.d] }
  | .vcat f => vfB f { v := [f.d] }
  | .rsum f | .rmax f | .rmin f | .rsumsq f => rfUse f
  | .rmov f => { v := [f.va] }
  | .mld f | .mldu f | .mldv f => { st := [f.ma.setWidth 5] }
  | .mmacs f | .mmacr f | .mmacm f => { st := [f.ma.setWidth 5, f.mb.setWidth 5] }
  | .accld f | .accwr f | .accadd f | .accscl f => afVec f
  | .accst f | .accqst f => afStr f
  | .ecopy f => { s := [f.a] }
  | .rwait _ _ _ l => { s := [l] }
  | .barr _ r d => if r then { s := [d] } else {}
  | .bwait _ l c => { s := [l, c] }
  | .bwaitImm _ l _ => { s := [l] }
  | .hxch n _ _ => { st := [n] }
  | .rsload _ a | .coll a _ | .edisp a _ | .ecomb a _ | .put a _ | .get a _ | .jraise a | .trap a | .ckpt a _ => { s := [a] }
  | .spawn f => { s := f.a :: f.d :: (if f.remote then [f.g] else []) }
  | .cpost a b _ _ | .tlog a b | .aclwr a b => { s := [a, b] }
  | .slice b _ _ _ => { s := [b] }
  | .tsub n a _ _ => { s := [a], ts := [n] }
  | .tsload _ a _ => { s := [a] }
  | .tsstat d _ _ _ | .lyrd d _ _ => { s := [d] }
  | .sqset n a => { s := [a], sq := [n] }
  | .sqapp n d _ => { s := [d], sq := [n] }
  | .sqacc n a => { s := [a], sq := [n] }
  | .sqrej n => { sq := [n] }
  | .lywr _ a _ => { s := [a] }
  | .tlbinv k a b => if k = 0 then {} else if k = 1 then { s := [a] } else { s := [a, b] }
  | _ => {}

/-! Off-core loads. -/

/-- Destination of a queue entry (R153). -/
def destOf (i : Instr) (vmask : BitVec 1024) : Dest :=
  let sr := fun (d : BitVec 5) => if d = 0 then Dest.none else .sreg d
  match i with
  | .ld d _ _ | .ldacq d _ _ _ => sr d
  | .amoadd d _ _ _ _ | .amoand d _ _ _ _ | .amoor d _ _ _ _ | .amoxor d _ _ _ _ | .amomin d _ _ _ _ _ | .amomax d _ _ _ _ _ | .amoswap d _ _ _ _
  | .amocas d _ _ _ _ => sr d
  | .vld f | .vldb f => .vreg f.v vmask
  | .stld n _ _ => .stream n
  | .sqset n _ => .cursor n
  | .tsload n _ _ => .set n
  | .rsload v _ => .slot v
  | _ => .none
/-- A use names a destination. -/
def Use.hits (u : Use) (d : Dest) : Bool :=
  match d with
  | .none | .head => false
  | .sreg n => u.s.contains n
  | .vreg n _ => u.v.contains n
  | .stream n => u.st.contains n
  | .cursor n => u.sq.contains n
  | .set n => u.ts.contains n
  | .slot _ => false
/-- Loads of the resident continuation that have not landed: still queued, or on their way. -/
def State.openLoads (s : State) : List Dest :=
  ((s.core.loadQ.filter fun e => e.handle == s.selfKey).map fun e => destOf e.i 0) ++ ((s.core.outst.filter fun o => o.q.handle == s.selfKey).map Outst.dest)
/-- The off-core interlock (R93) of operations that issue with an outcome. -/
def State.loadHold (s : State) (o : Nat) (is : List Instr) : Bool :=
  let us := is.map useOf ++ is.map (treeUse o)
  s.openLoads.any fun d => us.any fun u => u.hits d
/-- Every scoreboarded load has landed (R88). -/
def State.loadsLanded (s : State) : Bool := s.openLoads.all fun d => d == .none || d == .head
/-- A `tsload` of a set the continuation names has not landed, whoever issued it (R260). -/
def State.setHold (s : State) (is : List Instr) : Bool := (is.flatMap fun i => (useOf i).ts).any fun n => (s.tset s.die n.toNat).loading != 0

/-! The matrix unit. -/

/-- Matrix registers an operation reads or writes. -/
def mregsOf (i : Instr) : List (BitVec 4) :=
  match i with
  | .mld f | .mldu f | .mldv f | .mfree f | .macrd f => [f.md]
  | .mst f | .mstu f | .mstv f | .macwr f => [f.ma]
  | .mmov f | .mscale f | .mtr f | .recomp f | .densify f => [f.md, f.ma]
  | .mmac f => [f.ma, f.mb]
  | .mmul f | .madd f | .msub f => [f.md, f.ma, f.mb]
  | .mctl d _ _ => [d]
  | _ => []
/-- Matrix registers whose granules an operation reads. -/
def mregsRead (i : Instr) : List (BitVec 4) :=
  match i with
  | .mst f | .mstu f | .mstv f | .macwr f | .mmov f | .mscale f | .mtr f | .recomp f | .densify f => [f.ma]
  | .mmac f | .mmul f | .madd f | .msub f => [f.ma, f.mb]
  | _ => []
/-- The result in flight is into one of the registers. -/
def Eff.intoMreg (e : Eff) (ms : List (BitVec 4)) : Bool :=
  match e with
  | .mreg n _ => ms.contains n
  | .mctl n _ _ => ms.contains n
  | .mregAcc n _ => ms.contains n
  | .calc (.mld f) _ => ms.contains f.md
  | .calc (.mldu f) _ => ms.contains f.md
  | .calc (.mldv f) _ => ms.contains f.md
  | _ => false
/-- The result in flight is into a bank. -/
def Eff.intoBank (e : Eff) (b : BitVec 4) : Bool :=
  match e with
  | .accBlocks t _ _ => t / 2 == b.toNat
  | .accRows t _ => t / 2 == b.toNat
  | .accAdd t _ _ => t / 2 == b.toNat
  | .calc (.mmacs f) _ => f.bank == b
  | .calc (.mmacr f) _ => f.bank == b
  | .calc (.mmacm f) _ => f.bank == b
  | _ => false
/-- The bank a `macrd` reads. -/
def bankRead (i : Instr) : Option (BitVec 4) :=
  match i with
  | .macrd f => some f.bank
  | _ => none
/-- The matrix-unit interlock (R93, R195). -/
def State.mxHold (s : State) (i : Instr) : Bool :=
  decide (s.now < s.core.mxFree) || s.core.pend.any fun p => p.eff.intoMreg (mregsOf i) || (match bankRead i with
    | some b => p.eff.intoBank b
    | none => false)

end Sys2Proof.Machine
end

