-- ==== Sys2Proof/Machine/Matrix.lean ====
section
/-! DEFINITION. The matrix slot (R192 to R216): register bodies, products, recompression, the forms and their costs. -/

namespace Sys2Proof.Machine

/-! Tiles as lists of FP32 patterns: a dense tile by rows, factors by columns. -/

def rowList (r : BitVec 2048) : List Nat := toLanes 32 64 r.toNat
def rowBv (l : List Nat) : BitVec 2048 := BitVec.ofNat 2048 (fromLanes 32 l)
def zeros (n : Nat) : List Nat := List.replicate n 0
inductive Mat where
  | dense (rows : List (List Nat))
  | fact (u v : List (List Nat))
deriving DecidableEq, Repr
/-- What a source register reads as: an empty one is a dense tile of +0.0 (R15). -/
def matOf (b : MBody) : Mat :=
  match b with
  | .empty => .dense (List.replicate 64 (zeros 64))
  | .dense rows => .dense (rows.map rowList)
  | .factored u v => .fact (u.map rowList) (v.map rowList)
def bodyOf (m : Mat) : MBody :=
  match m with
  | .dense rows => .dense (rows.map rowBv)
  | .fact u v => .factored (u.map rowBv) (v.map rowBv)
/-- Transpose n columns out of rows. -/
def transposeL (rows : List (List Nat)) (n : Nat) : List (List Nat) := (List.range n).map fun j => rows.map fun r => r.getD j 0
/-- Identity of order n. -/
def identL (n : Nat) : List (List Nat) := (List.range n).map fun i => (List.range n).map fun j => if i = j then one32 else 0
def isFact (b : MBody) : Bool :=
  match b with
  | .factored _ _ => true
  | _ => false
def rankOf (b : MBody) : Nat :=
  match b with
  | .factored u _ => u.length
  | _ => 0

/-! Products (R201, R202, R205). -/

def convBlocks (F : Nat) (x : List Nat) : List Block := (blocksOf (ceilDiv x.length 16) x).map (convBlock F)
def blockVals (a b : List Block) : List Nat := List.zipWith blockValue a b
def bdotB (a b : List Block) : Nat := accumulate 0 (blockVals a b)
/-- PROD(A, B, F). -/
def prodM (F : Nat) (a b : Mat) : Mat :=
  match a, b with
  | .dense x, .dense y =>
    let cols := (transposeL y 64).map (convBlocks F)
    .dense (x.map fun r => let rb := convBlocks F r; cols.map fun c => bdotB rb c)
  | .dense x, .fact ub vb =>
    let rows := x.map (convBlocks F)
    .fact (ub.map fun c => let cb := convBlocks F c; rows.map fun r => bdotB r cb) vb
  | .fact ua va, .dense y =>
    let cols := (transposeL y 64).map (convBlocks F)
    .fact ua (va.map fun c => let cb := convBlocks F c; cols.map fun r => bdotB r cb)
  | .fact ua va, .fact ub vb =>
    let cm := va.map fun x => let xb := convBlocks F x; ub.map fun y => bdotB xb (convBlocks F y)
    if ua.length ≤ ub.length then
      let rows := (transposeL vb 64).map (convBlocks F)
      .fact ua (cm.map fun ck => let cb := convBlocks F ck; rows.map fun r => bdotB r cb)
    else
      let rows := (transposeL ua 64).map (convBlocks F)
      .fact ((transposeL cm ub.length).map fun cl => let cb := convBlocks F cl; rows.map fun r => bdotB r cb) vb
/-- MAC count of a product (R205). -/
def macs (a b : MBody) : Nat :=
  match isFact a, isFact b with
  | false, false => 262144
  | false, true => 4096 * rankOf b
  | true, false => 4096 * rankOf a
  | true, true => 128 * rankOf a * rankOf b
/-- MAC lanes of a pair of formats (R50). -/
def macLanes (fa fb : Nat) : Nat := 131072 / ((fmtField fa / 2) * (fmtField fb / 2))
/-- DENSIFY (R203). -/
def densifyM (m : Mat) : List (List Nat) :=
  match m with
  | .dense r => r
  | .fact u v =>
    let vr := transposeL v 64
    (transposeL u 64).map fun x => vr.map fun y => dot32 x y
/-- Invert the sign of every element. -/
def negL (l : List (List Nat)) : List (List Nat) := l.map fun r => r.map neg32
/-- A + B or A − B (R204). -/
def sumM (sub : Bool) (a b : Mat) : Mat :=
  match a, b with
  | .fact ua va, .fact ub vb => .fact (ua ++ ub) (va ++ (if sub then negL vb else vb))
  | _, _ => .dense (List.zipWith (List.zipWith (if sub then sub32 else add32)) (densifyM a) (densifyM b))
/-- x · 2^s, rounded (R213). -/
def scale32 (s : Int) (x : Nat) : Nat :=
  match unpack f32 x with
  | .fin n m e => rne32 n m (e + s)
  | .inf _ => x
  | .nan _ => nan32

/-! Recompression (R215). -/

/-- v := v − R·q, element by element with one FMA each. -/
def subProj (r : Nat) (q v : List Nat) : List Nat := List.zipWith (fun a b => fma32 (neg32 r) a b) q v
/-- One column of MGS against the earlier ones: the remaining vector and its coefficients. -/
def mgsCol : List (List Nat) → List Nat → List Nat × List Nat
  | [], v => (v, [])
  | q :: qs, v =>
    let r := dot32 q v
    let (v', rs) := mgsCol qs (subProj r q v)
    (v', r :: rs)
/-- MGS: the columns of Q and the columns of R (each of length r). -/
def mgsLoop (r : Nat) : List (List Nat) → List (List Nat) → List (List Nat) → List (List Nat) × List (List Nat)
  | [], qs, rs => (qs, rs)
  | x :: xs, qs, rs =>
    let (v, cs) := mgsCol qs x
    let d := sqrt32 (dot32 v v)
    let q := if eq32 d 0 then v.map fun _ => 0 else v.map fun y => div32 y d
    mgsLoop r xs (qs ++ [q]) (rs ++ [cs ++ [d] ++ zeros (r - cs.length - 1)])
def mgs (xs : List (List Nat)) : List (List Nat) × List (List Nat) := mgsLoop xs.length xs [] []
/-- Rotate a pair of columns. -/
def rotPair (c s : Nat) (xp xq : List Nat) : List Nat × List Nat :=
  (List.zipWith (fun a b => fma32 c a (mul32 (neg32 s) b)) xp xq, List.zipWith (fun a b => fma32 s a (mul32 c b)) xp xq)
def setTwo (l : List (List Nat)) (p q : Nat) (x : List Nat × List Nat) : List (List Nat) := (l.set p x.1).set q x.2
/-- One pair of the Jacobi sweep, on the columns of W and of Z. -/
def jacobiPair (wz : List (List Nat) × List (List Nat)) (p q : Nat) : List (List Nat) × List (List Nat) :=
  let wp := wz.1.getD p []
  let wq := wz.1.getD q []
  let a := dot32 wp wp
  let b := dot32 wq wq
  let g := dot32 wp wq
  if eq32 g 0 then wz
  else
    let z := div32 (sub32 b a) (mul32 0x40000000 g)
    let den := add32 (absBits f32 z) (sqrt32 (fma32 z z one32))
    let t := div32 (if lt32 z 0 then neg32 one32 else one32) den
    let c := div32 one32 (sqrt32 (fma32 t t one32))
    let s := mul32 c t
    (setTwo wz.1 p q (rotPair c s wp wq), setTwo wz.2 p q (rotPair c s (wz.2.getD p []) (wz.2.getD q [])))
/-- All pairs in lexicographic order. -/
def pairsOf (r : Nat) : List (Nat × Nat) := ((List.range r).map fun p => (List.range (r - p - 1)).map fun i => (p, p + 1 + i)).flatten
def sweep (r : Nat) (wz : List (List Nat) × List (List Nat)) : List (List Nat) × List (List Nat) :=
  (pairsOf r).foldl (fun x pq => jacobiPair x pq.1 pq.2) wz
def sweeps (r : Nat) : Nat → List (List Nat) × List (List Nat) → List (List Nat) × List (List Nat)
  | 0, x => x
  | n + 1, x => sweeps r n (sweep r x)
/-- Descending order of σ, a NaN above every number. -/
def sigBefore (a b : Nat × Nat) : Bool :=
  let na := (unpack f32 a.1).isNan
  let nb := (unpack f32 b.1).isNan
  (na && !nb) || (!na && !nb && lt32 b.1 a.1)
/-- Tail sums T[0..r]. -/
def tailSums : List Nat → List Nat
  | [] => [0]
  | s :: r =>
    let t := tailSums r
    fma32 s s (t.headD 0) :: t
/-- Linear combination of columns: element i is DOT(Q[i, .], w). -/
def combine (q : List (List Nat)) (w : List Nat) : List Nat := (transposeL q 64).map fun row => dot32 row w
/-- `recomp`: none for an empty result. -/
def recompM (tol : Nat) (absolute : Bool) (limit : Nat) (b : MBody) : MBody :=
  match b with
  | .empty => .empty
  | _ =>
    let (u, v) := match matOf b with
      | .dense d => (transposeL d 64, identL 64)
      | .fact u v => (u, v)
    let r := u.length
    let (qu, ru) := mgs u
    let (qv, rv) := mgs v
    let rur := transposeL ru r
    let rvr := transposeL rv r
    let kcols := rvr.map fun y => rur.map fun x => dot32 x y
    let (w, z) := sweeps r 8 (kcols, identL r)
    let sig := w.map fun c => sqrt32 (dot32 c c)
    let order := sortBy sigBefore (List.zipIdx sig)
    let t := tailSums (order.map Prod.fst)
    let tau0 := mul32 tol tol
    let tau := if absolute then tau0 else mul32 tau0 (t.headD 0)
    let k := Nat.min ((t.findIdx? fun x => le32 x tau).getD r) limit
    if k = 0 then .empty
    else
      let pick := (order.take k).map Prod.snd
      .factored (pick.map fun p => rowBv (combine qu (w.getD p []))) (pick.map fun p => rowBv (combine qv (z.getD p [])))

/-! Occupancy and the end of a form (R16, R195, R196). -/

/-- Granules a register will hold once the results in flight land (R16, R196). -/
def State.mregGranules (s : State) (n : Nat) : Nat :=
  let r := s.rm (BitVec.ofNat 4 n)
  let mine := s.core.pend.filterMap fun p => match p.eff with
    | .mreg m b => if m.toNat = n then some b.granules else none
    | .mregAcc m _ => if m.toNat = n then some 32 else none
    | .calc (.mld f) _ => if f.md.toNat = n then some 32 else none
    | .calc (.mldu f) _ => if f.md.toNat = n then some r.limit.toNat else none
    | .calc (.mldv f) _ => if f.md.toNat = n then some r.limit.toNat else none
    | _ => none
  mine.getLastD r.body.granules
def State.mrfOccNext (s : State) : Nat := ((List.range 16).map s.mregGranules).sum
/-- The occupancy check of a claim of g granules by md (R16): results in flight count; the record holds MRFOCC as it stands (R340; log entry 31). -/
def State.mrfTrap (s : State) (md : BitVec 4) (g : Nat) : Option Trap :=
  if s.core.mrfCap < s.mrfOccNext - s.mregGranules md.toNat + g then
    some { cause := cMrf, info0 := s.mrfOcc + s.core.mrfCap * 2 ^ 16, info1 := g, resumable := true }
  else none
/-- RANK_OVERFLOW of a factored result (R196). -/
def rankTrap (md : BitVec 4) (r limit : Nat) : Trap := { cause := cRank, info0 := md.toNat + r * 2 ^ 8 + limit * 2 ^ 16, resumable := true }
/-- Every cost is at least 1; results land at the end of cycle t + cost + 11 (R195, R216). -/
def State.mxLand (s : State) (cost : Nat) (e : Eff) : State :=
  (s.emit 1 (.mxBusy (s.now + Nat.max 1 cost))).emitDue (s.now + Nat.max 1 cost + 11) e
/-- A result written to md: the rank rule, the occupancy, then the landing. The cost may depend on the granules of the result as it is stored (R216). -/
def State.mxResult (s : State) (md : BitVec 4) (b : MBody) (cost : Nat → Nat) (claim : Option Nat) : Out :=
  let reg := s.rm md
  let tooBig := isFact b && decide (reg.limit.toNat < rankOf b)
  if tooBig && !reg.ad then .next (s.raise (rankTrap md (rankOf b) reg.limit.toNat))
  else
    let b' := if tooBig then bodyOf (.dense (densifyM (matOf b))) else b
    let cost' := if tooBig then cost b'.granules + 8 * rankOf b else cost b'.granules
    match s.mrfTrap md (claim.getD b'.granules) with
    | some t => .next (s.raise t)
    | none => .next (s.mxLand cost' (.mreg md b'))
/-- Index of an ACC tile: two to a bank. -/
def accTile (bank : BitVec 4) (mods : BitVec 5) : Nat := 2 * bank.toNat + b2n (mods.getLsbD 4)
/-- The standing word with Z clear (R197). -/
def State.clearZ (s : State) (f : MF) (mk : MF → Instr) : State :=
  if f.mods.getLsbD 3 then s.emit 1 (.stand 4 (BitVec.ofNat 32 (encodeWord (mk { f with mods := f.mods &&& 0b10111#5 })))) else s

/-! Tile reads (R198, R199). -/

/-- Feed cycles of n bytes (R199, R216). -/
def feed (remote : Bool) (n : Nat) : Nat := ceilDiv n (if remote then 128 else 256)
/-- Transposition time (R199). -/
def transTime (trans diag : Bool) : Nat := if trans then (if diag then 4 else 64) else 0
/-- A tile, transposed where asked. -/
def State.tile (s : State) (st : Stream) (rows t : Nat) (trans : Bool) : List (List Block) :=
  let b := s.tileRead st rows t
  if trans then transposeBlocks b else b
/-- FP32 values of a row of blocks (R206). -/
def rowValues (r : List Block) : List Nat := (r.map fun b => b.els.map fun x => (cvtV f32 0 (elemValue b x)).1).flatten
/-- A load form: rows of its read, then its effect when the tile has been sampled. -/
def State.mload (s : State) (i : Instr) (f : MF) (rowsN : Nat) (claim : Nat) (body : List (List Nat) → MBody → Nat → MBody) : Out :=
  let ta := f.mods.getLsbD 0
  match s.core.iss.phase with
  | .compute c =>
    match c.streams with
    | st :: _ =>
      let vals := (s.tile st (c.aux.getD 1 0) (c.issued + 3) ta).map rowValues
      .next (s.emitDue (c.issued + c.aux.getD 0 0 + 11) (.mreg f.md (body vals c.ma (c.aux.getD 2 0))))
    | [] => .next s
  | .issue =>
    let n := f.ma.setWidth 5
    let st := s.rst n
    match orTrap (s.tileTrap n false ta rowsN) (s.mrfTrap f.md claim) with
    | some t => .next (s.raise t)
    | none =>
      let cost := Nat.max 1 (feed false (rowsN * rowBytes st.fmt) + transTime ta st.diag)
      let c := { s.cap0 with streams := [st], ma := (s.rm f.md).body, aux := [cost, rowsN, (s.rm f.md).limit.toNat] }
      .next (((s.emit 2 (.calc i c)).emit 1 (.mxBusy (s.now + cost))).touch n (rowsN * rowBytes st.fmt))
/-- Rows of a factor load (R206). -/
def State.factRows (s : State) (f : MF) : Nat := if f.mods.getLsbD 0 then 64 else (s.rm f.md).limit.toNat
/-- The factor pair of a factor load: the other factor kept where md was factored at rank L. -/
def factLoad (isU : Bool) (vals : List (List Nat)) (old : MBody) (l : Nat) : MBody :=
  let cols := (vals.take l).map rowBv
  let z := List.replicate l (0 : BitVec 2048)
  let (u, v) := match old with
    | .factored u v => if u.length = l then (u, v) else (z, z)
    | _ => (z, z)
  if isU then .factored cols v else .factored u cols

/-! The forms. -/

/-- R206. -/
def execMld (f : MF) (s : State) : Out := s.mload (.mld f) f 64 32 fun vals _ _ => bodyOf (.dense vals)
/-- R206. -/
def execMldu (f : MF) (s : State) : Out := s.mload (.mldu f) f (s.factRows f) (s.rm f.md).limit.toNat fun vals old l => factLoad true vals old l
/-- R206. -/
def execMldv (f : MF) (s : State) : Out := s.mload (.mldv f) f (s.factRows f) (s.rm f.md).limit.toNat fun vals old l => factLoad false vals old l
/-- R207: rows of DENSIFY. -/
def execMst (f : MF) (s : State) : Out :=
  let b := (s.rm f.ma).body
  .next (s.mxLand (16 + 8 * rankOf b) (.accRows (accTile f.bank f.mods) ((densifyM (matOf b)).map rowBv)))
/-- The rows of a factor store (R207). -/
def factRowsOf (isU : Bool) (b : MBody) : List (BitVec 2048) :=
  match b with
  | .factored u v => if isU then u else v
  | _ => if isU then (transposeL (densifyM (matOf b)) 64).map rowBv else (identL 64).map rowBv
def execMstu (f : MF) (s : State) : Out :=
  let r := factRowsOf true (s.rm f.ma).body
  .next (s.mxLand (ceilDiv r.length 4) (.accRows (accTile f.bank f.mods) r))
def execMstv (f : MF) (s : State) : Out :=
  let r := factRowsOf false (s.rm f.ma).body
  .next (s.mxLand (ceilDiv r.length 4) (.accRows (accTile f.bank f.mods) r))
/-- R213: a copy; the same register changes nothing, and the rank rule asks nothing of it even where its rank is above LIMIT (log entry 105). -/
def execMmov (f : MF) (s : State) : Out :=
  let b := (s.rm f.ma).body
  if f.md = f.ma then .next (s.emit 1 (.mxBusy (s.now + Nat.max 1 (ceilDiv b.granules 8)))) else s.mxResult f.md b (ceilDiv · 8) none
/-- R209. -/
def execMmac (f : MF) (s : State) : Out :=
  let a := (s.rm f.ma).body
  let b := (s.rm f.mb).body
  let F := f.fmt.toNat
  let z := f.mods.getLsbD 3
  let tile := accTile f.bank f.mods
  let cost := ceilDiv (macs a b) (macLanes F F)
  let s' :=
    match matOf a, matOf b with
    | .dense x, .dense y =>
      let cols := (transposeL y 64).map (convBlocks F)
      let vals := (x.map fun r => let rb := convBlocks F r; cols.map fun c => (blockVals rb c).map (BitVec.ofNat 32)).flatten
      s.mxLand cost (.accBlocks tile z vals)
    | x, y =>
      let p := prodM F x y
      s.mxLand (cost + 8 * rankOf (bodyOf p)) (.accAdd tile z ((densifyM p).map rowBv))
  .next (s'.clearZ f .mmac)
/-- A stream product (R199, R210). The owner of a cluster-remote tile is judged at the start of its sample cycle, t + 3 (R278): a violation is reported, and the product gives no result (log entry 41). -/
def State.mstream (s : State) (i : Instr) (mk : MF → Instr) (f : MF) (remoteOk : Bool) : Out :=
  let ta := f.mods.getLsbD 0
  let tb := f.mods.getLsbD 1
  let z := f.mods.getLsbD 3
  let na := f.ma.setWidth 5
  let nb := f.mb.setWidth 5
  match s.core.iss.phase with
  | .compute c =>
    match c.streams with
    | sa :: sb :: _ =>
      (match orTrap (s.remoteTrap sa 64) (s.remoteTrap sb 64) with
        | some t => .next (s.raise t)
        | none =>
          let a := s.tile sa 64 (c.issued + 3) ta
          let b := s.tile sb 64 (c.issued + 3) tb
          let vals := (a.map fun r => b.map fun q => (blockVals r q).map (BitVec.ofNat 32)).flatten
          .next (s.emitDue (c.issued + c.aux.getD 0 0 + 11) (.accBlocks (accTile f.bank f.mods) z vals)))
    | _ => .next s
  | .issue =>
    let sa := s.rst na
    let sb := s.rst nb
    match orTrap (s.tileTrap na remoteOk ta 64) (s.tileTrap nb remoteOk tb 64) with
    | some t => .next (s.raise t)
    | none =>
      let ba := 64 * rowBytes sa.fmt
      let bb := 64 * rowBytes sb.fmt
      let cost := Nat.max 1 (Nat.max (ceilDiv 262144 (macLanes sa.fmt sb.fmt)) (Nat.max (feed sa.remote ba) (feed sb.remote bb)) + transTime ta sa.diag + transTime tb sb.diag)
      let c := { s.cap0 with streams := [sa, sb], aux := [cost] }
      .next (((((s.emit (if sa.remote || sb.remote then 4 else 2) (.calc i c)).emit 1 (.mxBusy (s.now + cost))).touch na ba).touch nb bb).clearZ f mk)
/-- R210. -/
def execMmacs (f : MF) (s : State) : Out := s.mstream (.mmacs f) .mmacs f false
/-- R200, R210. -/
def execMmacr (f : MF) (s : State) : Out := s.mstream (.mmacr f) .mmacr f true
/-- R200: the result and the cost of `mmacr`. -/
def execMmacm (f : MF) (s : State) : Out := s.mstream (.mmacm f) .mmacm f true
/-- R211. -/
def execMmul (f : MF) (s : State) : Out :=
  let a := (s.rm f.ma).body
  let b := (s.rm f.mb).body
  s.mxResult f.md (bodyOf (prodM f.fmt.toNat (matOf a) (matOf b))) (fun _ => ceilDiv (macs a b) (macLanes f.fmt.toNat f.fmt.toNat)) none
/-- Cost of a sum whose result takes g granules (R216). -/
def sumCost (a b : MBody) (g : Nat) : Nat :=
  match isFact a, isFact b with
  | true, true => ceilDiv g 8
  | false, false => 16
  | _, _ => 16 + 8 * (rankOf a + rankOf b)
/-- R212. -/
def execMadd (f : MF) (s : State) : Out :=
  s.mxResult f.md (bodyOf (sumM false (matOf (s.rm f.ma).body) (matOf (s.rm f.mb).body))) (sumCost (s.rm f.ma).body (s.rm f.mb).body) none
/-- R212. -/
def execMsub (f : MF) (s : State) : Out :=
  s.mxResult f.md (bodyOf (sumM true (matOf (s.rm f.ma).body) (matOf (s.rm f.mb).body))) (sumCost (s.rm f.ma).body (s.rm f.mb).body) none
/-- Cost of a form that transforms one register. -/
def oneCost (b : MBody) : Nat :=
  match b with
  | .dense _ => 16
  | _ => ceilDiv (rankOf b) 8
/-- R213: FORM and rank are kept, an empty register's too. -/
def execMscale (f : MF) (s : State) : Out :=
  let b := (s.rm f.ma).body
  let sc := fun (r : BitVec 2048) => rowBv ((rowList r).map (scale32 f.mods.toInt))
  let r := match b with
    | .empty => .empty
    | .dense rows => .dense (rows.map sc)
    | .factored u v => .factored (u.map sc) v
  s.mxResult f.md r (fun _ => oneCost b) none
/-- R213. -/
def execMtr (f : MF) (s : State) : Out :=
  let b := (s.rm f.ma).body
  let r := match b with
    | .empty => .empty
    | .dense rows => .dense ((transposeL (rows.map rowList) 64).map rowBv)
    | .factored u v => .factored v u
  s.mxResult f.md r (fun _ => oneCost b) none
/-- Rank a recompression works at. -/
def recompRank (b : MBody) : Nat :=
  match b with
  | .dense _ => 64
  | _ => rankOf b
/-- R215; the claim is min(r, LIMIT) (R196). -/
def execRecomp (f : MF) (s : State) : Out :=
  let b := (s.rm f.ma).body
  let r := recompRank b
  let lim := (s.rm f.md).limit.toNat
  s.mxResult f.md (recompM s.ctl.tol.toNat s.ctl.tolmode lim b) (fun _ => 8 * r * r + 48 * r + 32) (some (Nat.min r lim))
/-- R214. -/
def execDensify (f : MF) (s : State) : Out :=
  let b := (s.rm f.ma).body
  s.mxResult f.md (bodyOf (.dense (densifyM (matOf b)))) (fun _ => 16 + 8 * rankOf b) none
/-- R214: LIMIT and AD only. -/
def execMctl (d : BitVec 4) (l : BitVec 7) (x : Bool) (s : State) : Out := .next (s.mxLand 1 (.mctl d l x))
/-- R214. -/
def execMfree (f : MF) (s : State) : Out := .next (s.mxLand 1 (.mreg f.md .empty))
/-- R208: ACC as it stands at the start of the landing cycle. -/
def execMacrd (f : MF) (s : State) : Out :=
  match s.mrfTrap f.md 32 with
  | some t => .next (s.raise t)
  | none => .next (s.mxLand 16 (.mregAcc f.md (accTile f.bank f.mods)))
/-- R208. -/
def execMacwr (f : MF) (s : State) : Out :=
  let b := (s.rm f.ma).body
  .next (s.mxLand (16 + 8 * rankOf b) (.accAdd (accTile f.bank f.mods) false ((densifyM (matOf b)).map rowBv)))

end Sys2Proof.Machine
end

