-- ==== Sys2Proof/Machine/Route.lean ====
section
/-! DEFINITION. The sending of requests and critical flits (R378, R385), and what a request does at its home. -/

namespace Sys2Proof.Machine

def State.onPlane (s : State) (port : Nat) (plane : Bool) (f : Plane → Plane) : State :=
  s.onFab fun x => { x with planes := fmod Plane.reset (planeKey port plane) f x.planes }

/-! Requests. -/

/-- Unacknowledged requests of a source to a destination (R378). -/
def State.unacked (s : State) (src dst : Nat) : Nat := (s.fab.reqs.filter fun r => r.src == src && r.dst == dst).length
def reqFull (s : State) (src dst : Nat) : Bool := decide (Config.maxUnacked ≤ s.unacked src dst)
/-- Key of a pair of dies. -/
def pairKey (src dst : Nat) : Nat := src * 2 ^ 23 + dst
/-- The answer carries data: it is a flit of its own, and the acknowledgement comes with it (R378). -/
def ReqKind.answers (k : ReqKind) : Bool :=
  match k with
  | .read _ _ | .get _ _ | .atomic _ _ _ _ | .push _ _ => true
  | _ => false
/-- The answer is the payload of a `get`, which is bulk (R376; log entry 106). -/
def ReqKind.bulkAnswer (k : ReqKind) : Bool :=
  match k with
  | .get _ _ => true
  | _ => false
/-- What of a request is on its way is an ordered flit: itself, or the answer that carries data. -/
def Req.ordered (r : Req) : Bool := if r.arrived then r.kind.answers && !r.kind.bulkAnswer else !r.bulk
/-- The dies that it is on its way from and to, and its place in the send order of that pair. -/
def Req.sender (r : Req) : Nat := if r.arrived then r.dst else r.src
def Req.receiver (r : Req) : Nat := if r.arrived then r.src else r.dst
def Req.stamp (r : Req) : Nat := if r.arrived then r.back else r.id
/-- It has yet to arrive. -/
def Req.away (r : Req) (now : Nat) : Bool := r.held || r.lost || decide (now < r.due)
/-- An earlier ordered flit of the pair has yet to arrive (R376); a request sent again that has performed holds nothing up. -/
def State.comesBehind (s : State) (r : Req) : Bool :=
  r.ordered && s.fab.reqs.any fun x => x.ordered && (x.arrived || x.answer.isNone) && x.sender == r.sender && x.receiver == r.receiver && decide (x.stamp < r.stamp) && x.away s.now
/-- An ordered flit of a pair may not leave by a route yet: an earlier one, not acknowledged, is held or went by another (R377). -/
def State.mustHold (s : State) (src dst stamp : Nat) (hops : List (Nat × Nat)) : Bool :=
  s.fab.reqs.any fun x =>
    (x.src == src && x.dst == dst && !x.bulk && decide (x.id < stamp) && ((x.held && !x.arrived) || x.path != hops))
      || (x.src == dst && x.dst == src && x.arrived && x.ordered && decide (x.back < stamp) && (x.held || x.bpath != hops))
/-- Send a request (R378): it takes the pair's next sequence number and arrives after the time of its route. A destination unreachable before the first send is not reached at all: the second component is false (R380). An ordered request on another route than an earlier flit of its pair is held until that is acknowledged or lost (R377). -/
def State.sendReq (s : State) (src dst jcb va : Nat) (bulk : Bool) (k : ReqKind) (o : ReqOwner) : State × Bool :=
  match s.routeOf bulk src dst with
  | none => (s, false)
  | some hops =>
    let seq := fget 0 s.fab.seqs (pairKey src dst)
    let (s, id) := s.fresh
    let held := !bulk && s.mustHold src dst id hops
    let r : Req := { id := id, src := src, dst := dst, seq := seq, bulk := bulk, jcb := jcb, va := va, kind := k, owner := o, first := s.now, sent := s.now, tries := 0, arrived := false, lost := false, answer := none, due := s.now + s.routeTime hops, path := hops, held := held, told := false, back := 0, bpath := [], bsent := 0 }
    (s.onFab fun x => { x with reqs := x.reqs ++ [r], seqs := fput 0 (pairKey src dst) ((seq + 1) % 2 ^ 32) x.seqs }, true)
/-- The critical flit enters a hop: it takes the next number of the port (R385). With no hop left it is where it goes; a die that no live route leaves keeps it, as lost, until a resend. -/
def State.enterHop (s : State) (m : Msg) (here lead : Nat) : State × Msg :=
  match s.route here m.dst with
  | none => (s, { m with path := [(here, 0)], first := s.now, sent := s.now, lost := true, heard := false, spoilt := none })
  | some [] => (s, { m with path := [], first := s.now, sent := s.now, due := s.now + lead, lost := false, heard := false, spoilt := none })
  | some ((d, dir) :: r) =>
    let port := 8 * d + s.portOf d dir
    let number := (fget CritPort.reset s.fab.crit port).next
    (s.onFab fun x => { x with crit := fmod CritPort.reset port (fun p => { p with next := p.next + 1 }) x.crit },
     { m with path := (d, dir) :: r, number := number.toNat, first := s.now, sent := s.now, due := s.now + lead + s.hopTime d dir, lost := false, heard := false, spoilt := none })
/-- Send a critical flit (R385): it goes hop by hop. -/
def State.sendCrit (s : State) (src dst : Nat) (c : Crit) (jcb issuer pc opc core : Nat) : State :=
  let (s, id) := s.fresh
  let (s, m) := s.enterHop { id := id, src := src, dst := dst, crit := c, jcb := jcb, issuer := issuer, pc := pc, opc := opc, core := core, path := [], number := 0, first := s.now, sent := s.now, due := s.now, lost := false, heard := false, spoilt := none } src 40
  s.onFab fun x => { x with msgs := x.msgs ++ [m] }
/-- The flit is where it goes. -/
def Msg.here (m : Msg) (now : Nat) : Bool := !m.lost && m.path.isEmpty && decide (m.due ≤ now)
/-- What becomes of the flit can be told to a job: an arrival, a token, a reduce tag (R235, R385, R393). -/
def Msg.tells (m : Msg) : Bool :=
  match m.crit with
  | .arrival _ _ | .token _ _ | .reduceTag _ => true
  | .ack _ | .receipt _ => false
/-- The die that holds the flit: the one it is to leave, or where it goes. -/
def Msg.holder (m : Msg) : Nat := (m.path.head?.map Prod.fst).getD m.dst

/-! What a request does at its home (R164, R165, R283, R300, R386). An answer is (0, value), or the remote subcode of R381, or xfFlaw. -/

/-- The element operation of a scatter or a reduce-store: 0 store, 1 add, 2 max, 3 min (R164, R165). -/
def laneOp (op : Nat) (t : ETy) (m v : Nat) : Nat :=
  let isMax := op == 2
  match op with
  | 0 => v
  | 1 => if t.isF then (addF (etFmt t) 0 m v).1 else wrapN t.bits (etIval t m + etIval t v)
  | _ => if t.isF then (if isMax then maxF (etFmt t) m v else minF (etFmt t) m v).1
         else if isMax then (if etIval t m < etIval t v then v else m) else if etIval t v < etIval t m then v else m
/-- New value of the word of an atomic (R160): 0 add, 1 and, 2 or, 3 xor, 4 min, 5 max, 6 min unsigned, 7 max unsigned, 8 swap, 9 compare and swap. -/
def atomicNew (code : Nat) (m b d : BitVec 64) : BitVec 64 :=
  match code with
  | 0 => m + b
  | 1 => m &&& b
  | 2 => m ||| b
  | 3 => m ^^^ b
  | 4 => if b.toInt < m.toInt then b else m
  | 5 => if m.toInt < b.toInt then b else m
  | 6 => if b.toNat < m.toNat then b else m
  | 7 => if m.toNat < b.toNat then b else m
  | 8 => b
  | _ => if m = d then b else m
/-- Apply the unmasked lanes of a reduce-store to a sector. -/
def State.reduceLanes (s : State) (pa op : Nat) (t : ETy) : List (Nat × BitVec 32) → State
  | [] => s
  | (off, v) :: r =>
    let n := t.bits / 8
    (s.wr (pa + off) n (laneOp (match op with
      | 0 => 1
      | 1 => 2
      | _ => 3) t (s.rd (pa + off) n) v.toNat)).reduceLanes pa op t r
/-- The bytes a plain access reads at its home: those of a load, and those that an update computes from. -/
def ReqKind.reads (k : ReqKind) : List (Nat × Nat) :=
  match k with
  | .read pa n | .get pa n => [(pa, n)]
  | .atomic pa _ _ _ => [(pa, 8)]
  | .lane pas form _ _ => if form = 0 then [] else pas.map fun a => (a, 1)
  | .reduce pa _ t lanes _ => lanes.map fun l => (pa + l.1, t.bits / 8)
  | .bitOp pa _ bit => [(pa + bit / 8, 1)]
  | .clear pa _ => [(pa, 8)]
  | .write _ _ | .cells _ _ | .data _ | .face _ _ | .spawn _ _ | .push _ _ | .handler _ _ => []
/-- Bytes written at places of their own. -/
def State.wrPlaces (s : State) : List Nat → List (BitVec 8) → State
  | a :: r, b :: bs => (s.wrByte a b).wrPlaces r bs
  | _, _ => s
/-- Bytes of a command's payload have performed: those that its handler still waits for. -/
def State.credit (s : State) (id n : Nat) : State := s.onFab fun x => { x with handlers := x.handlers.map fun h => if h.cmd == id then { h with left := h.left - n } else h }
/-- The target of a `put` takes the record of its handler (R247). -/
def State.holdHandler (s : State) (id die : Nat) (h : Cont) (len : Nat) : State := s.onFab fun x => { x with handlers := x.handlers ++ [{ cmd := id, die := die, cont := h, left := len }] }
/-- No bulk flit has entered a link of the route in this cycle or the two before: another may without exceeding a port's rate, that of one plane too (R375, R427). -/
def State.linkFree (s : State) (src dst : Nat) : Bool :=
  match s.routeOf true src dst with
  | some h => !(s.fab.reqs.any fun r => (r.bulk && decide (s.now < r.sent + 3) && r.path.any h.contains) || (r.arrived && r.kind.bulkAnswer && decide (s.now < r.bsent + 3) && r.bpath.any h.contains))
  | none => true
/-- The deduplication entry of a reduce-store with a token (R386). -/
def ReqKind.dedup (k : ReqKind) (jcb : Nat) : Option Dedup :=
  match k with
  | .reduce pa _ _ _ token => if token = 0 then none else some { die := paDie pa, jcb := jcb, token := token, sector := pa / 64 }
  | _ => none
/-- The update has been applied before: it is acknowledged and has no effect (R386). -/
def State.applied (s : State) (jcb : Nat) (k : ReqKind) : Bool := (k.dedup jcb).elim false s.fab.dedup.contains
/-- Perform a plain access at its home; of what it reads an uncorrectable error leaves all as it is. -/
def State.performAccess (s : State) (jcb : Nat) (k : ReqKind) : State × (Nat × Nat) :=
  if s.applied jcb k then (s, (0, 0))
  else if k.reads.any fun r => s.flawed r.1 r.2 then (s, (xfFlaw, 0))
  else
  match k with
  | .read pa n | .get pa n => (s, (0, s.rd pa n))
  | .write pa bs => (s.wrBytes pa bs, (0, 0))
  | .cells pa cs => (cs.foldl (fun s c => s.wrByte (pa + c.1) c.2) s, (0, 0))
  | .atomic pa code b d =>
    let m := BitVec.ofNat 64 (s.rd pa 8)
    (s.wr pa 8 (atomicNew code m b d).toNat, (0, m.toNat))
  | .lane pas form t v => (s.wrPlaces pas (natLe pas.length (laneOp form t (leNat (pas.map s.rdByte)) v.toNat)), (0, 0))
  | .reduce pa op t lanes _ =>
    (match k.dedup jcb with
      | none => (s.reduceLanes pa op t lanes, (0, 0))
      | some e =>
        if Config.dedupSize ≤ (s.fab.dedup.filter fun x => x.die == paDie pa).length then (s, (2, 0))
        else ((s.reduceLanes pa op t lanes).onFab fun x => { x with dedup := x.dedup ++ [e] }, (0, 0)))
  | .bitOp pa set bit =>
    let b := s.rd (pa + bit / 8) 1
    let m := 2 ^ (bit % 8)
    (s.wr (pa + bit / 8) 1 (if set then b ||| m else if b.testBit (bit % 8) then b - m else b), (0, 0))
  | .clear pa mask => (s.wr pa 8 (BitVec.ofNat 64 (s.rd pa 8) &&& ~~~mask).toNat, (0, 0))
  | .data _ | .face _ _ | .spawn _ _ | .push _ _ | .handler _ _ => (s, (0, 0))
/-- The trap that an answer of the home reports: local accesses meet an error of their own die's memory, remote ones what R381 names. -/
def answerTrap (code va here home : Nat) : Trap :=
  if code = xfFlaw then (if home = here then machineCheck 6 va else remoteFlaw va home) else remoteFault code va home

end Sys2Proof.Machine
end

