-- ==== Sys2Proof/Machine/LoadStore.lean ====
section
/-! DEFINITION. The load/store slot at issue: scalar forms, mark, fence, atomics, stream forms, vector memory forms (R149 to R165). An off-core access leaves an entry for a queue; its performing is in Queue.lean. -/

namespace Sys2Proof.Machine

/-- Effective address: base + offset, bits [63:56] ignored (R156). -/
def State.ea (s : State) (a : BitVec 5) (off : BitVec 64) : Nat := (s.rs a + off).toNat % 2 ^ 56
/-- Emit a queue entry; it enters at the end of the cycle. -/
def State.enq (s : State) (load store : Bool) (i : Instr) (args : List Nat) : State := s.emit 1 (.queue load store i args 0 0)

/-! Scalar forms (R156). -/

def execLd (d a : BitVec 5) (o : BitVec 16) (s : State) : Out := .next (s.enq true false (.ld d a o) [s.ea a (o.signExtend 64 <<< 3)])
/-- A form that a stage continuation may not use (R263). -/
def State.unstaged (s : State) (o : Out) : Out :=
  match s.stageTrap? with
  | some t => .next (s.raise t)
  | none => o
def execSt (v a : BitVec 5) (o : BitVec 16) (s : State) : Out :=
  s.unstaged (.next (s.enq false true (.st v a o) [s.ea a (o.signExtend 64 <<< 3), (s.rs v).toNat]))
def execLdacq (d a : BitVec 5) (sc : Scope) (o : BitVec 13) (s : State) : Out := .next (s.enq true false (.ldacq d a sc o) [s.ea a (o.signExtend 64 <<< 3)])
def execStrel (v a : BitVec 5) (sc : Scope) (o : BitVec 13) (s : State) : Out :=
  s.unstaged (.next (s.enq false true (.strel v a sc o) [s.ea a (o.signExtend 64 <<< 3), (s.rs v).toNat]))
def execPf (h : Bool) (a : BitVec 5) (o : BitVec 16) (s : State) : Out := .next (s.enq true false (.pf h a o) [s.ea a (o.signExtend 64 <<< 6)])
/-- R157. -/
def execMark (s : State) : Out := .next (s.enq true true .mark [])
/-- R158. -/
def execFence (sc : Scope) (k : BitVec 2) (s : State) : Out := .next (s.enq true true (.fence sc k) [])
/-- R159. -/
def execL1inv (s : State) : Out := .next (s.enq true false .l1inv [])

/-! Atomics (R160, R161): address, b and d as read at issue. -/

def State.amo (s : State) (i : Instr) (d a b : BitVec 5) : Out :=
  s.unstaged (.next (s.enq true true i [(s.rs a).toNat % 2 ^ 56, (s.rs b).toNat, (s.rs d).toNat]))
def execAmoadd (d a b : BitVec 5) (sc : Scope) (o : BitVec 2) (s : State) : Out := s.amo (.amoadd d a b sc o) d a b
def execAmoand (d a b : BitVec 5) (sc : Scope) (o : BitVec 2) (s : State) : Out := s.amo (.amoand d a b sc o) d a b
def execAmoor (d a b : BitVec 5) (sc : Scope) (o : BitVec 2) (s : State) : Out := s.amo (.amoor d a b sc o) d a b
def execAmoxor (d a b : BitVec 5) (sc : Scope) (o : BitVec 2) (s : State) : Out := s.amo (.amoxor d a b sc o) d a b
def execAmomin (d a b : BitVec 5) (sc : Scope) (o : BitVec 2) (u : Bool) (s : State) : Out := s.amo (.amomin d a b sc o u) d a b
def execAmomax (d a b : BitVec 5) (sc : Scope) (o : BitVec 2) (u : Bool) (s : State) : Out := s.amo (.amomax d a b sc o u) d a b
def execAmoswap (d a b : BitVec 5) (sc : Scope) (o : BitVec 2) (s : State) : Out := s.amo (.amoswap d a b sc o) d a b
def execAmocas (d a b : BitVec 5) (sc : Scope) (o : BitVec 2) (s : State) : Out := s.amo (.amocas d a b sc o) d a b

/-! Stream forms (R149 to R152). -/

def execStld (n a : BitVec 5) (o : BitVec 16) (s : State) : Out := .next (s.enq true false (.stld n a o) [s.ea a (o.signExtend 64 <<< 6)])
/-- The modulus of a selection is zero (R142, R150). -/
def Stream.selZero (st : Stream) (sel : Nat) : Bool :=
  match sel with
  | 0 => if st.idx then st.cext == 0 else st.ext 0 == 0
  | 1 => st.ext 1 == 0
  | 2 => st.ext 2 == 0
  | 3 => st.cext == 0
  | _ => false
/-- VALID and the modulus: the only checks of a stream form that makes no access (R140, R142, R150, R152). -/
def State.posTrap (s : State) (n : BitVec 5) (zero : Bool) : Option Trap :=
  let st := s.rst n
  if !st.valid then some (accessFault 0x03 0 n.toNat)
  else if zero then some (accessFault 0x01 st.addr n.toNat)
  else none
def execStset (n a : BitVec 5) (sel : BitVec 3) (s : State) : Out :=
  match s.posTrap n ((s.rst n).selZero sel.toNat) with
  | some t => .next (s.raise t)
  | none => .next (s.emit 1 (.stream n sel.toNat (s.rs a)))
/-- What `stget` returns (R151). -/
def Stream.getSel (st : Stream) (sel : Nat) : BitVec 64 :=
  if !st.valid then 0
  else
    match sel with
    | 0 => st.pos0.setWidth 64
    | 1 => st.pos1.setWidth 64
    | 2 => st.pos2.setWidth 64
    | 3 => BitVec.ofNat 64 st.cpos
    | 4 => BitVec.ofNat 64 st.base
    | 5 => BitVec.ofNat 64 (st.space * 2 ^ 62 + st.addrAt (st.coord 0) (st.coord 1) (st.coord 2) st.cpos 0)
    | _ => BitVec.ofNat 64 (st.lygen.toNat * 2 ^ 16 + st.lyent.toNat * 2 ^ 8 + st.flagsByte)
def execStget (d n : BitVec 5) (sel : BitVec 3) (s : State) : Out := .next (s.emit 1 (.sreg d ((s.rst n).getSel sel.toNat)))
def execStadv (n a : BitVec 5) (s : State) : Out :=
  match s.posTrap n (s.rst n).zeroMod with
  | some t => .next (s.raise t)
  | none => .next (s.emit 1 (.adv n ((s.rs a).toNat % 2 ^ 32)))

/-! Vector memory forms (R162 to R165). -/

/-- Lanes of a form, its element bytes, its unmasked lanes. -/
def lfN (f : LF) : Nat := lanesIn f.w f.t
def lfE (f : LF) : Nat := f.t.bits / 8
def State.lfLanes (s : State) (f : LF) : List Nat := lanesOf (s.rk f.k) (lfN f)
/-- Mask of the unmasked lanes over the register (R12). -/
def lfMask (f : LF) (k : BitVec 128) : BitVec 1024 := BitVec.ofNat 1024 (laneMask f.t.bits (lfN f) k.toNat)
/-- The 64-byte pieces of the section that holds an address: address + 1, or 0 where no unmasked lane lies in the piece. -/
def State.piecesAt (s : State) (f : LF) (addr : Nat) : List Nat :=
  let bytes := f.w.bits / 8
  let a := sectionOf addr bytes
  (List.range (ceilDiv bytes 64)).map fun i =>
    if (s.lfLanes f).any fun j => decide (j * lfE f / 64 = i) then (a + 64 * i) % 2 ^ 56 + 1 else 0
/-- The pieces of an access: none where it is discarded. -/
def State.pieces (s : State) (f : LF) : List Nat :=
  let st := s.rst f.st
  if st.zeroed then List.replicate (ceilDiv (f.w.bits / 8) 64) 0 else s.piecesAt f (st.addrOf 0)
/-- Element addresses of an index access, lane by lane: address + 1, or 0 for a lane that accesses nothing. -/
def State.laneAddrs (s : State) (f : LF) : List Nat :=
  let st := s.rst f.st
  (List.range (lfN f)).map fun j =>
    if (s.rk f.k).getLsbD j then (match s.elemAddr st (lfE f) j with
      | some x => x + 1
      | none => 0) else 0
/-- Unit of the step of an LS vector form (R142). -/
def lfUnit (st : Stream) (f : LF) : Nat := if st.idx then lfN f else f.w.bits / 8
/-- The queue entry of a vector form: its addresses, the register and the mask as read at issue. -/
def State.enqV (s : State) (load : Bool) (i : Instr) (f : LF) (args : List Nat) : State :=
  s.emit 1 (.queue load (!load) i args (s.rv f.v) (s.rk f.k))
/-- The operand record of a scratchpad load: its mask and the rows it will read. -/
def State.lfCap (s : State) (f : LF) (reads : List (Option RowRead)) : Cap :=
  { s.cap0 with k := s.rk f.k, diag := (s.rst f.st).diag, reads := reads }
/-- Sample one element. -/
def State.sampleElem (s : State) (diag : Bool) (t : Nat) (r : Option RowRead) : Nat :=
  match r with
  | none => 0
  | some r => padAt (s.coreAt r.core) r.wmem diag r.addr r.bytes t

/-- `vld` (R163). From AMEM the row is sampled in cycle t + 3 and lands with latency 4. -/
def execVld (f : LF) (s : State) : Out :=
  match s.core.iss.phase with
  | .compute c =>
    let v := if c.reads.length ≤ 1 && c.aux.isEmpty then s.sample c.diag (c.issued + 3) (c.reads.getD 0 none) else fromLanes f.t.bits (c.reads.map (s.sampleElem c.diag (c.issued + 3)))
    .next (s.emitDue (c.issued + 3) (.vreg f.v (lfMask f c.k) (BitVec.ofNat 1024 v)))
  | .issue =>
    let st := s.rst f.st
    match (if st.valid && st.idx then s.idxTrap f.st .lsRead (lfE f) (s.lfLanes f) else s.sectTrap f.st .lsRead (f.w.bits / 8)) with
    | some t => .next (s.raise t)
    | none =>
      let s' :=
        if st.space = 2 then s.enqV true (.vld f) f (if st.idx then s.laneAddrs f else s.pieces f)
        else if st.idx then
          s.emit 2 (.calc (.vld f) { s.lfCap f ((s.laneAddrs f).map fun a => if a = 0 then none else some { wmem := false, core := s.cid, addr := a - 1, bytes := lfE f }) with aux := [1] })
        else s.emit 2 (.calc (.vld f) (s.lfCap f [s.sectRead f.st (f.w.bits / 8)]))
      .next (s'.touch f.st (lfUnit st f))
/-- `vldb` (R163): one element into every unmasked lane. -/
def execVldb (f : LF) (s : State) : Out :=
  match s.core.iss.phase with
  | .compute c =>
    let v := s.sample c.diag (c.issued + 3) (c.reads.getD 0 none)
    .next (s.emitDue (c.issued + 3) (.vreg f.v (lfMask f c.k) (BitVec.ofNat 1024 (fromLanes f.t.bits (List.replicate (lfN f) v)))))
  | .issue =>
    let st := s.rst f.st
    match s.sectTrap f.st .lsRead (lfE f) with
    | some t => .next (s.raise t)
    | none =>
      let a := sectionOf (st.addrOf 0) (lfE f)
      let s' :=
        if st.space = 2 then s.enqV true (.vldb f) f [if st.zeroed || (s.lfLanes f).isEmpty then 0 else a + 1]
        else s.emit 2 (.calc (.vldb f) (s.lfCap f [s.sectRead f.st (lfE f)]))
      .next (s'.touch f.st (lfE f))
/-- A write to global space by a stage continuation (R263). -/
def State.stageStore (s : State) (n : BitVec 5) : Option Trap := if (s.rst n).space = 2 then s.stageTrap? else none
/-- `vst` (R163): the row's section is visible to samples from cycle t + 2. -/
def execVst (f : LF) (s : State) : Out :=
  let st := s.rst f.st
  match orTrap (s.sectTrap f.st .lsWrite (f.w.bits / 8)) (s.stageStore f.st) with
  | some t => .next (s.raise t)
  | none =>
    let s' :=
      if st.space = 2 then s.enqV false (.vst f) f (s.pieces f)
      else if st.zeroed then s
      else s.emit 2 (sectWrite st.diag (st.addrOf 0) (f.w.bits / 8) (lfMask f (s.rk f.k)).toNat (s.rv f.v).toNat)
    .next (s'.touch f.st (lfUnit st f))
/-- `vpf` (R163): the sectors a `vld` would read, in global space only: on a direct stream those of the section at ADDR, whose coordinates no bounds mode judges. -/
def execVpf (f : LF) (s : State) : Out :=
  let st := s.rst f.st
  match s.posTrap f.st st.zeroMod with
  | some t => .next (s.raise t)
  | none =>
    let fetch :=
      if st.mapBad false || st.space ≠ 2 then []
      else if st.idx then
        (s.lfLanes f).filterMap fun j => if (s.idxOwner st [j]).isSome || !s.idxIn st j then none else s.elemAddr st (lfE f) j
      else (s.piecesAt f (st.addrAt (st.coord 0) (st.coord 1) (st.coord 2) st.cpos 0)).filterMap fun a => if a = 0 then none else some (a - 1)
    let s' := if st.space = 2 then s.enqV true (.vpf f) f (fetch.map (· + 1)) else s
    .next (s'.emit 1 (.step f.st (lfUnit st f)))
/-- Elements of a scatter to AMEM, in ascending lane order: each lane's element as its write finds it, then the write (R164, R298). -/
def scatLanes (op : Nat) (t : ETy) (diag : Bool) (now : Nat) (vec : List Nat) : Nat → List Nat → Core → List Eff
  | _, [], _ => []
  | j, a :: r, c =>
    if a = 0 then scatLanes op t diag now vec (j + 1) r c
    else
      let n := t.bits / 8
      let m := if op = 0 then 0 else padAt c false diag (a - 1) n (now + 1)
      let v := laneOp op t m (vec.getD j 0)
      let es := elemEffs diag (a - 1) n v
      let c := { c with pend := c.pend ++ es.map fun e => { due := now, slot := 10, seq := 0, pc := 0, rep := 0, eff := e } }
      es ++ scatLanes op t diag now vec (j + 1) r c
/-- A scatter form (R164). -/
def State.scatter (s : State) (op : Nat) (i : Instr) (f : LF) : Out :=
  let st := s.rst f.st
  match orTrap (s.idxTrap f.st .lsWrite (lfE f) (s.lfLanes f)) (s.stageStore f.st) with
  | some t => .next (s.raise t)
  | none =>
    let as := s.laneAddrs f
    let s' :=
      if st.space = 2 then s.enqV false i f as
      else s.emitAll (s.now + 1) (scatLanes op f.t st.diag s.now (toLanes f.t.bits (lfN f) (s.rv f.v).toNat) 0 as s.core)
    .next (s'.touch f.st (lfUnit st f))
def execVscat (f : LF) (s : State) : Out := s.scatter 0 (.vscat f) f
def execVscadd (f : LF) (s : State) : Out := s.scatter 1 (.vscadd f) f
def execVscmax (f : LF) (s : State) : Out := s.scatter 2 (.vscmax f) f
/-- `vredst` (R165): the token is `s`R at bundle start. -/
def execVredst (f : LF) (s : State) : Out :=
  let st := s.rst f.st
  let perm : Option Trap := orTrap (s.streamTrap f.st .lsWrite) (if st.space = 2 then none else some { cause := cPerm, info0 := permInfo st.space })
  match firstTrap [perm, s.sectTrap f.st .lsWrite (f.w.bits / 8), s.stageTrap?] with
  | some t => .next (s.raise t)
  | none =>
    .next ((s.enqV false (.vredst f) f ((s.rs (f.form.extractLsb' 3 5)).toNat :: s.pieces f)).touch f.st (lfUnit st f))

end Sys2Proof.Machine
end

