-- ==== Sys2Proof/Machine/Vector.lean ====
section
/-! DEFINITION. The vector slots: arithmetic, logic, compares, moves, conversions, quantisation, permutations, gather, parking, special functions (R166 to R181). -/

namespace Sys2Proof.Machine

/-! Lanes (R166). -/

/-- Lanes of the form's type and width. -/
def lanesV (f : VF) (x : BitVec 1024) : List Nat := toLanes f.t.bits (lanesIn f.w f.t) x.toNat
/-- The write of lanes 0.. of vd: only lanes whose mask bit is set (R12, R166). -/
def putLanes (f : VF) (k : BitVec 128) (vals : List Nat) : Eff :=
  .vreg f.d (BitVec.ofNat 1024 (laneMask f.t.bits vals.length k.toNat)) (BitVec.ofNat 1024 (fromLanes f.t.bits vals))
/-- Union of the flags of the written lanes. -/
def laneFlags (k : BitVec 128) (rs : List EltRes) : Nat := (List.zipIdx rs).foldl (fun a p => if k.getLsbD p.2 then orF a p.1.2 else a) 0
/-- Results with flags: the lanes and the flags land together (R29). -/
def putRes (f : VF) (k : BitVec 128) (rs : List EltRes) : List Eff := [putLanes f k (rs.map Prod.fst), .flags (flagBits (laneFlags k rs))]
def zip3 {α : Type} (op : Nat → Nat → Nat → α) : List Nat → List Nat → List Nat → List α
  | a :: as, b :: bs, d :: ds => op a b d :: zip3 op as bs ds
  | _, _, _ => []
/-- A lane operation of A, B and D with flags. -/
def map3 (f : VF) (c : Cap) (op : Nat → Nat → Nat → EltRes) : List Eff := putRes f c.k (zip3 op (lanesV f c.a) (lanesV f c.b) (lanesV f c.d))
/-- A lane operation of A and B without flags. -/
def map2 (f : VF) (c : Cap) (op : Nat → Nat → Nat) : List Eff := [putLanes f c.k (List.zipWith op (lanesV f c.a) (lanesV f c.b))]
/-- A lane operation of A with flags. -/
def map1 (f : VF) (c : Cap) (op : Nat → EltRes) : List Eff := putRes f c.k ((lanesV f c.a).map op)

/-- Run a vector form of latency L: at once on registers; with a stream operand B, its checks and its step now and its result from the sampled section (R167, log entry 9). -/
def State.vrun (s : State) (f : VF) (i : Instr) (L : Nat) (go : Cap → List Eff) : Out :=
  match s.core.iss.phase with
  | .compute c => .next (s.emitAll (c.issued + L - 1) (go { c with b := BitVec.ofNat 1024 (s.sample c.diag (c.issued + 3) (c.reads.getD 0 none)) }))
  | .issue =>
    if f.sb then
      match s.sectTrap f.b .vec (f.w.bits / 8) with
      | some t => .next (s.raise t)
      | none => .next ((s.emit 2 (.calc i { s.capture f with reads := [s.sectRead f.b (f.w.bits / 8)], diag := (s.rst f.b).diag })).touch f.b (f.w.bits / 8))
    else .next (s.emitAll (s.now + L - 1) (go (s.capture f)))

/-! Element operations. -/

def eltAdd (t : ETy) (md a b : Nat) : EltRes := if t.isF then addF (etFmt t) md a b else etNarrow t md (etIval t a + etIval t b)
def eltSub (t : ETy) (md a b : Nat) : EltRes := if t.isF then subF (etFmt t) md a b else etNarrow t md (etIval t a - etIval t b)
def eltMul (t : ETy) (md a b : Nat) : EltRes := if t.isF then mulF (etFmt t) md a b else etNarrow t md (etIval t a * etIval t b)
/-- A·B + D. -/
def eltFma (t : ETy) (md a b d : Nat) : EltRes := if t.isF then fmaF (etFmt t) md a b d else etNarrow t md (etIval t a * etIval t b + etIval t d)
/-- A·B − D. -/
def eltFms (t : ETy) (md a b d : Nat) : EltRes :=
  if t.isF then fmaF (etFmt t) md a b (negBits (etFmt t) d) else etNarrow t md (etIval t a * etIval t b - etIval t d)
/-- D − A·B. -/
def eltFnma (t : ETy) (md a b d : Nat) : EltRes :=
  if t.isF then fmaF (etFmt t) md (negBits (etFmt t) a) b d else etNarrow t md (etIval t d - etIval t a * etIval t b)
def eltMin (t : ETy) (a b : Nat) : EltRes := if t.isF then minF (etFmt t) a b else (if etIval t b < etIval t a then b else a, 0)
def eltMax (t : ETy) (a b : Nat) : EltRes := if t.isF then maxF (etFmt t) a b else (if etIval t a < etIval t b then b else a, 0)
/-- MIN(MAX(D, A), B). -/
def eltClamp (t : ETy) (a b d : Nat) : EltRes :=
  let m := eltMax t d a
  let r := eltMin t m.1 b
  (r.1, orF m.2 r.2)
def eltAbs (t : ETy) (md a : Nat) : EltRes := if t.isF then (absBits (etFmt t) a, 0) else etNarrow t md (etIval t a).natAbs
def eltNeg (t : ETy) (md a : Nat) : EltRes := if t.isF then (negBits (etFmt t) a, 0) else etNarrow t md (-(etIval t a))
/-- Class bits of a floating element (R171). -/
def eltClass (t : ETy) (a : Nat) : Nat :=
  let f := etFmt t
  let neg := a.testBit (f.p - 1 + f.ew)
  match unpack f a with
  | .nan true => 2 ^ 8
  | .nan false => 2 ^ 9
  | .inf n => if n then 1 else 2 ^ 7
  | .fin _ m _ =>
    if m = 0 then (if neg then 2 ^ 3 else 2 ^ 4)
    else if absBits f a < 2 ^ (f.p - 1) then (if neg then 2 ^ 2 else 2 ^ 5)
    else if neg then 2 ^ 1 else 2 ^ 6
/-- A relation of two elements: 0 eq, 1 ne, 2 lt, 3 le; its value and its flags (R171, R130). -/
def eltRel (r : Nat) (t : ETy) (a b : Nat) : Bool × Nat :=
  if t.isF then
    let x := unpack (etFmt t) a
    let y := unpack (etFmt t) b
    let nv := if (if r ≤ 1 then x.isSig || y.isSig else x.isNan || y.isNan) then flNV else 0
    let c := cmpV x y
    match r with
    | 0 => (c == some .eq, nv)
    | 1 => (c != some .eq, nv)
    | 2 => (c == some .lt, nv)
    | _ => (c == some .lt || c == some .eq, nv)
  else
    let x := etIval t a
    let y := etIval t b
    match r with
    | 0 => (decide (x = y), 0)
    | 1 => (decide (x ≠ y), 0)
    | 2 => (decide (x < y), 0)
    | _ => (decide (x ≤ y), 0)
/-- Bits of a list of Booleans, bit i first. -/
def boolBits : List Bool → Nat
  | [] => 0
  | b :: r => b2n b + 2 * boolBits r
/-- The write of a compare: bits of unmasked lanes, and bits n and above cleared (R171). -/
def putMask (f : VF) (k : BitVec 128) (rs : List Bool) : Eff :=
  let n := rs.length
  .kreg (f.d.setWidth 3) ((k &&& BitVec.ofNat 128 (2 ^ n - 1)) ||| BitVec.ofNat 128 (2 ^ 128 - 2 ^ n)) (BitVec.ofNat 128 (boolBits rs))
def compare (r : Nat) (f : VF) (c : Cap) : List Eff :=
  let rs := List.zipWith (eltRel r f.t) (lanesV f c.a) (lanesV f c.b)
  [putMask f c.k (rs.map Prod.fst), .flags (flagBits (laneFlags c.k (rs.map fun x => (b2n x.1, x.2))))]

/-- R169. -/
def execVadd (f : VF) (s : State) : Out := s.vrun f (.vadd f) 2 fun c => map3 f c fun a b _ => eltAdd f.t f.md.toNat a b
/-- R169. -/
def execVsub (f : VF) (s : State) : Out := s.vrun f (.vsub f) 2 fun c => map3 f c fun a b _ => eltSub f.t f.md.toNat a b
/-- R169. -/
def execVmul (f : VF) (s : State) : Out := s.vrun f (.vmul f) 4 fun c => map3 f c fun a b _ => eltMul f.t f.md.toNat a b
/-- R169. -/
def execVfma (f : VF) (s : State) : Out := s.vrun f (.vfma f) 4 fun c => map3 f c fun a b d => eltFma f.t f.md.toNat a b d
/-- R169. -/
def execVfms (f : VF) (s : State) : Out := s.vrun f (.vfms f) 4 fun c => map3 f c fun a b d => eltFms f.t f.md.toNat a b d
/-- R169. -/
def execVfnma (f : VF) (s : State) : Out := s.vrun f (.vfnma f) 4 fun c => map3 f c fun a b d => eltFnma f.t f.md.toNat a b d
/-- R169: the high half. -/
def execVmulh (f : VF) (s : State) : Out := s.vrun f (.vmulh f) 4 fun c => map2 f c fun a b => wrapN f.t.bits (etIval f.t a * etIval f.t b / (2 ^ f.t.bits : Nat))
/-- R169, R170. -/
def execVmin (f : VF) (s : State) : Out := s.vrun f (.vmin f) 2 fun c => map3 f c fun a b _ => eltMin f.t a b
/-- R169, R170. -/
def execVmax (f : VF) (s : State) : Out := s.vrun f (.vmax f) 2 fun c => map3 f c fun a b _ => eltMax f.t a b
/-- R170. -/
def execVabs (f : VF) (s : State) : Out := s.vrun f (.vabs f) 2 fun c => map1 f c fun a => eltAbs f.t f.md.toNat a
/-- R170. -/
def execVneg (f : VF) (s : State) : Out := s.vrun f (.vneg f) 2 fun c => map1 f c fun a => eltNeg f.t f.md.toNat a
/-- R169. -/
def execVclamp (f : VF) (s : State) : Out := s.vrun f (.vclamp f) 2 fun c => map3 f c fun a b d => eltClamp f.t a b d
/-- R170. -/
def execVrnd (f : VF) (s : State) : Out := s.vrun f (.vrnd f) 2 fun c => map1 f c fun a => rndF (etFmt f.t) f.md.toNat a
/-- R169. -/
def execVand (f : VF) (s : State) : Out := s.vrun f (.vand f) 2 fun c => map2 f c fun a b => a &&& b
/-- R169. -/
def execVor (f : VF) (s : State) : Out := s.vrun f (.vor f) 2 fun c => map2 f c fun a b => a ||| b
/-- R169. -/
def execVxor (f : VF) (s : State) : Out := s.vrun f (.vxor f) 2 fun c => map2 f c fun a b => a ^^^ b
/-- R169. -/
def execVnot (f : VF) (s : State) : Out := s.vrun f (.vnot f) 2 fun c => [putLanes f c.k ((lanesV f c.a).map fun a => 2 ^ f.t.bits - 1 - a)]
/-- R169: the shift is the low log2(e) bits of B. -/
def execVsll (f : VF) (s : State) : Out := s.vrun f (.vsll f) 2 fun c => map2 f c fun a b => a * 2 ^ (b % f.t.bits) % 2 ^ f.t.bits
/-- R169. -/
def execVsrl (f : VF) (s : State) : Out := s.vrun f (.vsrl f) 2 fun c => map2 f c fun a b => a / 2 ^ (b % f.t.bits)
/-- R169: as `vsrl` for UINT8, whose elements are not negative. -/
def execVsra (f : VF) (s : State) : Out := s.vrun f (.vsra f) 2 fun c => map2 f c fun a b => wrapN f.t.bits (etIval f.t a / (2 ^ (b % f.t.bits) : Nat))
/-- R171. -/
def execVcmpeq (f : VF) (s : State) : Out := s.vrun f (.vcmpeq f) 2 fun c => compare 0 f c
/-- R171. -/
def execVcmpne (f : VF) (s : State) : Out := s.vrun f (.vcmpne f) 2 fun c => compare 1 f c
/-- R171. -/
def execVcmplt (f : VF) (s : State) : Out := s.vrun f (.vcmplt f) 2 fun c => compare 2 f c
/-- R171. -/
def execVcmple (f : VF) (s : State) : Out := s.vrun f (.vcmple f) 2 fun c => compare 3 f c
/-- R171. -/
def execVclass (f : VF) (s : State) : Out := s.vrun f (.vclass f) 2 fun c => [putLanes f c.k ((lanesV f c.a).map (eltClass f.t))]
/-- R171: every lane is written. -/
def execVsel (f : VF) (s : State) : Out := s.vrun f (.vsel f) 2 fun c => 
  let m := List.zipIdx (List.zip (lanesV f c.a) (lanesV f c.b))
  [putLanes f (BitVec.allOnes 128) (m.map fun x => if c.k.getLsbD x.2 then x.1.1 else x.1.2)]
/-- R171. -/
def execVmov (f : VF) (s : State) : Out := s.vrun f (.vmov f) 2 fun c => [putLanes f c.k (lanesV f c.b)]
/-- R171. -/
def execVbcast (f : VF) (s : State) : Out := s.vrun f (.vbcast f) 2 fun c => [putLanes f c.k (List.replicate (lanesIn f.w f.t) (c.sa.toNat % 2 ^ f.t.bits))]
/-- R171: one lane. -/
def execVins (f : VF) (s : State) : Out := s.vrun f (.vins f) 2 fun c => 
  let n := lanesIn f.w f.t
  let l := c.sb.toNat % n
  [putLanes f (c.k &&& BitVec.ofNat 128 (2 ^ l)) (List.replicate n (c.sa.toNat % 2 ^ f.t.bits))]
/-- R171. -/
def execVext (f : VF) (s : State) : Out := s.vrun f (.vext f) 2 fun c => 
  let n := lanesIn f.w f.t
  [putLanes f c.k (List.replicate n ((lanesV f c.a).getD (c.sb.toNat % n) 0))]

/-! Conversions (R172 to R175). -/

/-- One element from type ts to type td (R56, R172). -/
def eltCvt (ts td : ETy) (md x : Nat) : EltRes :=
  if ts.isF then
    if td.isF then cvtV (etFmt td) md (unpack (etFmt ts) x)
    else let r := toIntSat md (etLo td) (etHi td) (unpack (etFmt ts) x); (wrapN td.bits r.1, r.2)
  else if td.isF then ofInt (etFmt td) md (etIval ts x)
  else etNarrow td md (etIval ts x)
/-- Elements off .. off + n − 1 of width e. -/
def elems (e off n : Nat) (x : BitVec 1024) : List Nat := toLanes e n (x.toNat / 2 ^ (e * off))
/-- The write of n elements of width e from element off on, each under its own mask bit. -/
def putElems (d : BitVec 5) (e off : Nat) (k : BitVec 128) (rs : List EltRes) : List Eff :=
  let kk := k >>> off
  [.vreg d (BitVec.ofNat 1024 (laneMask e rs.length kk.toNat * 2 ^ (e * off))) (BitVec.ofNat 1024 (fromLanes e (rs.map Prod.fst) * 2 ^ (e * off))),
   .flags (flagBits (laneFlags kk rs))]
def vcvtGo (f : VF) (c : Cap) : List Eff :=
  match etyOf (f.b.toNat % 8) with
  | none => []
  | some ts =>
    let p := f.b.toNat / 8
    let es := ts.bits
    let ed := f.t.bits
    let n := f.w.bits / Nat.max es ed
    putElems f.d ed (if ed < es then p * n else 0) c.k ((elems es (if es < ed then p * n else 0) n c.a).map (eltCvt ts f.t f.md.toNat))
def vcvt8Go (f : VF) (c : Cap) : List Eff :=
  let p := f.b.toNat / 8
  let e := f.t.bits
  let n := f.w.bits / e
  match f.b.toNat % 4 with
  | 0 => putElems f.d 8 (p * n) c.k ((elems e 0 n c.a).map fun x => toE4M3 f.md.toNat (unpack (etFmt f.t) x))
  | 1 => putElems f.d 8 (p * n) c.k ((elems e 0 n c.a).map fun x => toE5M2 f.md.toNat (unpack (etFmt f.t) x))
  | 2 => putElems f.d e 0 c.k ((elems 8 (p * n) n c.a).map fun x => cvtV (etFmt f.t) 0 (unpackE4M3 x))
  | _ => putElems f.d e 0 c.k ((elems 8 (p * n) n c.a).map fun x => cvtV (etFmt f.t) 0 (unpack e5m2 x))
/-- Blocks a form carries: one for W = 512, two for W = 1,024 (R174). -/
def quantBlocks (f : VF) : Nat := f.w.bits / 512
def vquantGo (f : VF) (c : Cap) : List Eff :=
  let fc := f.b.toNat
  let ts := c.d.toNat % 2 ^ 32
  let x := c.a.toNat
  let r := (List.range (quantBlocks f)).map fun b => quant (toLanes 32 16 (x / 2 ^ (512 * b))) fc ts
  let image := ((List.zipIdx r).map fun q => fromLanes (fmtBits fc) q.1.2.1 * 2 ^ (8 * fmtBlock fc * q.2) + q.1.1 * 2 ^ (8 * (96 + q.2))).sum
  [.vreg f.d (BitVec.allOnes 1024) (BitVec.ofNat 1024 image), .flags (flagBits (r.foldl (fun a q => orF a q.2.2) 0))]
def vdequantGo (f : VF) (c : Cap) : List Eff :=
  let fc := f.b.toNat
  let ts := c.d.toNat % 2 ^ 32
  let x := c.a.toNat
  let vals := ((List.range (quantBlocks f)).map fun b =>
    let els := toLanes (fmtBits fc) 16 (x / 2 ^ (8 * fmtBlock fc * b))
    let blk : Block := { fmt := fc, els := els, scale := scaleOf fc (bits x (8 * (96 + b)) 8) ts }
    els.map fun q => cvtV f32 0 (elemValue blk q)).flatten
  putRes f c.k vals
def vpackGo (f : VF) (c : Cap) : List Eff :=
  let n := lanesIn f.w f.t
  let e := 2 * f.t.bits
  let half := fun (x : BitVec 1024) => (toLanes e (n / 2) x.toNat).map fun y => etNarrow f.t f.md.toNat (sval e y)
  putRes f c.k (half c.a ++ half c.b)
def vunpkGo (f : VF) (c : Cap) : List Eff :=
  let e := f.t.bits
  let n := f.w.bits / (2 * e)
  putElems f.d (2 * e) 0 c.k ((elems e (if f.md.getLsbD 0 then n else 0) n c.a).map fun x => (wrapN (2 * e) (etIval f.t x), 0))

/-- R172. -/
def execVcvt (f : VF) (s : State) : Out := s.vrun f (.vcvt f) 2 fun c => vcvtGo f c
/-- R173. -/
def execVcvt8 (f : VF) (s : State) : Out := s.vrun f (.vcvt8 f) 2 fun c => vcvt8Go f c
/-- R174. -/
def execVquant (f : VF) (s : State) : Out := s.vrun f (.vquant f) 4 fun c => vquantGo f c
/-- R174. -/
def execVdequant (f : VF) (s : State) : Out := s.vrun f (.vdequant f) 4 fun c => vdequantGo f c
/-- R175. -/
def execVpack (f : VF) (s : State) : Out := s.vrun f (.vpack f) 2 fun c => vpackGo f c
/-- R175. -/
def execVunpk (f : VF) (s : State) : Out := s.vrun f (.vunpk f) 2 fun c => vunpkGo f c

/-! Permutations (R176). -/

/-- R176. -/
def execVshuf (f : VF) (s : State) : Out := s.vrun f (.vshuf f) 2 fun c => 
  let a := lanesV f c.a
  [putLanes f c.k ((lanesV f c.b).map fun b => a.getD (b % a.length) 0)]
/-- R176. -/
def execVzip (f : VF) (s : State) : Out := s.vrun f (.vzip f) 2 fun c => 
  let a := lanesV f c.a
  let b := lanesV f c.b
  let h := b2n (f.md.getLsbD 0) * (a.length / 2)
  [putLanes f c.k ((List.range a.length).map fun i => if i % 2 = 0 then a.getD (i / 2 + h) 0 else b.getD (i / 2 + h) 0)]
/-- R176. -/
def execVuzp (f : VF) (s : State) : Out := s.vrun f (.vuzp f) 2 fun c => 
  let q := lanesV f c.a ++ lanesV f c.b
  [putLanes f c.k ((List.range (lanesIn f.w f.t)).map fun i => q.getD (2 * i + b2n (f.md.getLsbD 0)) 0)]
/-- R176. -/
def execVrev (f : VF) (s : State) : Out := s.vrun f (.vrev f) 2 fun c => [putLanes f c.k (lanesV f c.a).reverse]
/-- R176. -/
def execVslide (f : VF) (s : State) : Out := s.vrun f (.vslide f) 2 fun c => 
  let a := lanesV f c.a
  [putLanes f c.k ((List.range a.length).map fun (i : Nat) =>
    let j : Int := i + c.sb.toInt
    if 0 ≤ j ∧ j < a.length then a.getD j.toNat 0 else 0)]

/-- `vgath` (R177): an index stream in AMEM; every lane sampled in cycle t + 3. -/
def execVgath (f : VF) (s : State) : Out :=
  match s.core.iss.phase with
  | .compute c => .next (s.emitDue (c.issued + 3) (putLanes f c.k (c.reads.map (s.sampleElem c.diag (c.issued + 3)))))
  | .issue =>
    let st := s.rst f.b
    let n := lanesIn f.w f.t
    let e := f.t.bits / 8
    let k := s.rk f.k
    match s.idxTrap f.b .vec e (lanesOf k n) with
    | some t => .next (s.raise t)
    | none =>
      let reads := (List.range n).map fun j => if k.getLsbD j then (s.elemAddr st e j).map fun a => ({ wmem := false, core := s.cid, addr := a, bytes := e } : RowRead) else none
      .next ((s.emit 2 (.calc (.vgath f) { s.capture f with reads := reads, diag := st.diag })).touch f.b n)
/-- `vrotm` (R178): a misaligned section composed of two; both rows are judged for their owner. -/
def execVrotm (f : VF) (s : State) : Out :=
  let wb := f.w.bits / 8
  match s.core.iss.phase with
  | .compute c =>
    let o := c.aux.getD 0 0
    let t := c.issued + 3
    let v := s.sample c.diag t (c.reads.getD 0 none) + 2 ^ (8 * wb) * s.sample c.diag t (c.reads.getD 1 none)
    .next (s.emitDue t (putLanes f c.k (toLanes f.t.bits (lanesIn f.w f.t) (v / 2 ^ (8 * o)))))
  | .issue =>
    let st := s.rst f.b
    let a := st.addrOf 0
    let a1 := (sectionOf a wb + wb) % 2 ^ 21
    match orTrap (s.sectTrap f.b .vec wb) (if st.zeroed then none else s.ownerTrap s.cid false a1 false false) with
    | some t => .next (s.raise t)
    | none =>
      let r0 := s.sectRead f.b wb
      let c := { s.capture f with reads := [r0, r0.map fun r => { r with addr := a1 }], diag := st.diag, aux := [a % wb] }
      .next ((s.emit 2 (.calc (.vrotm f) c)).touch f.b wb)

/-! Parking (R30, R179). -/

/-- Row and half of a parked register. -/
def parkRow (base : Nat) (r : BitVec 5) : Nat := base + r.toNat / 2
def parkShift (r : BitVec 5) : Nat := 1024 * (r.toNat % 2)
/-- PARKMAP after a `vpark`: BUF and BASE are set where REGS is zero. -/
def ParkMap.set (p : ParkMap) (amem : Bool) (base : BitVec 13) (a : BitVec 5) : ParkMap :=
  let p := if p.regs = 0 then { p with amem := amem, base := base } else p
  { p with regs := p.regs ||| (1#32 <<< a.toNat), rows := p.rows ||| (1#16 <<< (a.toNat / 2)) }
/-- PARKMAP as a `vpark` finds it: with the `vpark`s issued before it whose update has not landed (R30; log entry 45). -/
def State.parkIssued (s : State) : ParkMap :=
  (s.core.pend ++ s.core.iss.effs).foldl (fun m e => match e.eff with
    | .parkSet amem base a => m.set amem base a
    | _ => m) s.ctl.park
/-- The owner rule of an AMEM park row (R179). -/
def State.parkTrap (s : State) (amem : Bool) (row : Nat) : Option Trap := if amem then s.ownerTrap s.cid false (row * 256 % 2 ^ 21) true false else none
def execVpark (f : VF) (s : State) : Out :=
  let p := s.parkIssued
  let new := p.regs == 0
  let amem := if new then f.md.getLsbD 0 else p.amem
  let sb := (s.rs f.b).toNat
  let base := if new then sb % 2 ^ 13 else p.base.toNat
  if new && decide ((if f.md.getLsbD 0 then 8176 else 2032) < sb) then .next (s.raise (accessFault 0x04 0 0))
  else
    let row := parkRow base f.a
    match s.parkTrap amem row with
    | some t => .next (s.raise t)
    | none =>
      let m := BitVec.ofNat 2048 ((2 ^ 1024 - 1) * 2 ^ parkShift f.a)
      let v := BitVec.ofNat 2048 ((s.rv f.a).toNat * 2 ^ parkShift f.a)
      .next ((s.emit 2 (if amem then .amem row m v else .acc row m v)).emit 2 (.parkSet amem (BitVec.ofNat 13 base) f.a))
def execVunpark (f : VF) (s : State) : Out :=
  match s.core.iss.phase with
  | .compute c =>
    let row := c.aux.getD 1 0
    let v := if c.aux.getD 0 0 = 1 then s.arow false row else s.racc row
    .next (s.emitDue (c.issued + 3) (.vreg f.d (BitVec.allOnes 1024) (BitVec.ofNat 1024 (v.toNat / 2 ^ parkShift f.d))))
  | .issue =>
    let p := s.ctl.park
    if !p.regs.getLsbD f.d.toNat then .next s
    else
      let row := parkRow p.base.toNat f.d
      match s.parkTrap p.amem row with
      | some t => .next (s.raise t)
      | none => .next ((s.emit 4 (.calc (.vunpark f) { s.capture f with aux := [b2n p.amem, row] })).emit 2 (.parkClear f.d))

/-! Special functions (R181): FP32 inside, BF16 and FP16 widened before and narrowed after (R58). -/

/-- Exact widening to an FP32 pattern, a signalling NaN kept signalling. -/
def widen32 (t : ETy) (x : Nat) : Nat :=
  match unpack (etFmt t) x with
  | .nan true => 0x7FA00000
  | .nan false => nan32
  | v => (cvtV f32 0 v).1
def eltSpecial (fn : Nat → Nat × Nat) (t : ETy) (a : Nat) : EltRes :=
  let r := fn (widen32 t a)
  if t == .f32 then r else let n := cvtV (etFmt t) 0 (unpack f32 r.1); (n.1, orF r.2 n.2)

/-- R181. -/
def execVexp2 (f : VF) (s : State) : Out := s.vrun f (.vexp2 f) 8 fun c => map1 f c (eltSpecial exp2 f.t)
/-- R181. -/
def execVlog2 (f : VF) (s : State) : Out := s.vrun f (.vlog2 f) 8 fun c => map1 f c (eltSpecial log2f f.t)
/-- R181. -/
def execVrcp (f : VF) (s : State) : Out := s.vrun f (.vrcp f) 8 fun c => map1 f c (eltSpecial recip f.t)
/-- R181. -/
def execVrsqrt (f : VF) (s : State) : Out := s.vrun f (.vrsqrt f) 8 fun c => map1 f c (eltSpecial rsqrt f.t)
/-- R181. -/
def execVsin (f : VF) (s : State) : Out := s.vrun f (.vsin f) 8 fun c => map1 f c (eltSpecial sinf f.t)
/-- R181. -/
def execVcos (f : VF) (s : State) : Out := s.vrun f (.vcos f) 8 fun c => map1 f c (eltSpecial cosf f.t)
/-- R181. -/
def execVtanh (f : VF) (s : State) : Out := s.vrun f (.vtanh f) 8 fun c => map1 f c (eltSpecial tanhf f.t)

end Sys2Proof.Machine
end

