-- ==== Sys2Proof/Machine/Reduction.lean ====
section
/-! DEFINITION. The reduction slot (R65, R182, R183). -/

namespace Sys2Proof.Machine

/-- Element type of a reduction stream by its FMT (R182). -/
def redTy (fmt : Nat) : Option ETy :=
  match fmt with
  | 0x0D => some .f32
  | 0x0B => some .bf16
  | 0x0C => some .f16
  | 0x04 => some .i8
  | 0x05 => some .u8
  | _ => none
/-- Exact widening to FP32, a NaN of its own kind (R65). -/
def redWiden (t : ETy) (x : Nat) : Nat := if t.isF then widen32 t x else (ofInt f32 0 (etIval t x)).1
/-- One level of the tree: neighbours combined, with flags. -/
def treeLevel (op : Nat → Nat → EltRes) : List Nat → List EltRes
  | a :: b :: r => op a b :: treeLevel op r
  | [a] => [(a, 0)]
  | [] => []
/-- The tree (R65): the value and the union of the flags. -/
def treeFold (op : Nat → Nat → EltRes) : Nat → List Nat → EltRes
  | 0, w => (w.headD 0, 0)
  | n + 1, w =>
    match w with
    | [] => (0, 0)
    | [a] => (a, 0)
    | _ =>
      let l := treeLevel op w
      let r := treeFold op n (l.map Prod.fst)
      (r.1, l.foldl (fun f x => orF f x.2) r.2)
/-- Operation of a latch: 0 add, 1 max, 2 min. -/
def redOp (kind : Nat) (a b : Nat) : EltRes :=
  match kind with
  | 0 => addF f32 0 a b
  | 1 => maxF f32 a b
  | _ => minF f32 a b
/-- Lanes of a reduction, widened; a masked lane enters as +0.0. -/
def redLanes (t : ETy) (n : Nat) (k : BitVec 128) (v : Nat) : List Nat :=
  (List.zipIdx (toLanes t.bits n v)).map fun p => if k.getLsbD p.2 then redWiden t p.1 else 0
/-- The effects of a reduction form: one value for each group, added to the latch when it lands. -/
def redGo (f : RF) (kind : Nat) (square : Bool) (t : ETy) (k : BitVec 128) (v : Nat) : List Eff :=
  let n := f.w.bits / t.bits
  let w := (redLanes t n k v).map fun x => if square then mulF f32 0 x x else (x, 0)
  let fl0 := w.foldl (fun a x => orF a x.2) 0
  let xs := w.map Prod.fst
  let groups := if f.mode = 0 then [(0, xs)] else (List.range 8).map fun g => (g, ((List.zipIdx xs).filter fun p => p.2 % 8 == g).map Prod.fst)
  let r := groups.map fun g => (g.1, treeFold (redOp kind) 8 g.2)
  [.latch f.latch kind (r.map fun x => (x.1, BitVec.ofNat 32 x.2.1)), .flags (flagBits (r.foldl (fun a x => orF a x.2.2) fl0))]
/-- A reduction form: results land 10 cycles after issue (R183). -/
def State.reduce (s : State) (f : RF) (i : Instr) (kind : Nat) (square : Bool) : Out :=
  match s.core.iss.phase with
  | .compute c =>
    let t := (redTy (c.aux.getD 0 0)).getD .f32
    .next (s.emitAll (c.issued + 9) (redGo f kind square t c.k (s.sample c.diag (c.issued + 3) (c.reads.getD 0 none))))
  | .issue =>
    if f.sa then
      let st := s.rst f.va
      let wb := f.w.bits / 8
      match orTrap (s.sectTrap f.va .vec wb) (if (redTy st.fmt).isSome then none else some (accessFault 0x04 st.addr f.va.toNat)) with
      | some t => .next (s.raise t)
      | none =>
        .next ((s.emit 2 (.calc i { s.cap0 with k := s.rk f.k, reads := [s.sectRead f.va wb], diag := st.diag, aux := [st.fmt] })).touch f.va wb)
    else .next (s.emitAll (s.now + 9) (redGo f kind square .f32 (s.rk f.k) (s.rv f.va).toNat))
/-- R182. -/
def execRsum (f : RF) (s : State) : Out := s.reduce f (.rsum f) 0 false
/-- R182. -/
def execRmax (f : RF) (s : State) : Out := s.reduce f (.rmax f) 1 false
/-- R182. -/
def execRmin (f : RF) (s : State) : Out := s.reduce f (.rmin f) 2 false
/-- R182: each widened lane squared first. -/
def execRsumsq (f : RF) (s : State) : Out := s.reduce f (.rsumsq f) 0 true
/-- R182, R183: the latch as it stands at issue, latency 2; `.clr` clears at the end of the issue cycle. -/
def execRmov (f : RF) (s : State) : Out :=
  let s1 := s.emit 2 (.vreg f.va (BitVec.ofNat 1024 (laneMask 32 8 (s.rk f.k).toNat)) ((s.rq f.latch).setWidth 1024))
  .next (if f.mode = 1 then s1.emit 1 (.latchClear f.latch) else s1)
/-- R182, R183. -/
def execRclr (f : RF) (s : State) : Out := .next (s.emit 1 (.latchClear f.latch))

end Sys2Proof.Machine
end

