-- ==== Sys2Proof/Machine/Sampling.lean ====
section
/-! DEFINITION. The Quill generator and the sampling forms (R184 to R191). -/

namespace Sys2Proof.Machine

/-- The counter a sampling issue draws from: QCTR, advanced by what earlier slots of the repetition drew (R185). -/
def State.qctr (s : State) : Nat :=
  s.ctl.qctrlo.toNat + 2 ^ 64 * s.ctl.qctrhi.toNat + (s.core.iss.effs.map fun p => match p.eff with
    | .qctr n => n
    | _ => 0).sum
/-- Calls an issue of n words consumes. -/
def quillCalls (n : Nat) : Nat := ceilDiv n 4
/-- The words of an issue. -/
def State.words (s : State) (n : Nat) : List Nat := quillWords s.ctl.qkey0.toNat s.ctl.qkey1.toNat (s.qctr % 2 ^ 128) n
/-- A sampling form without operands: its lanes, and the advance of the counter at the end of the issue cycle. -/
def State.draw (s : State) (f : VF) (L : Nat) (g : Nat → Nat) : Out :=
  let n := lanesIn f.w f.t
  .next ((s.emitDue (s.now + L - 1) (putLanes f (s.rk f.k) ((s.words n).map g))).emit 1 (.qctr (quillCalls n)))
/-- R187. -/
def execVqraw (f : VF) (s : State) : Out := s.draw f 4 id
/-- R187. -/
def execVunif (f : VF) (s : State) : Out := s.draw f 4 unif

/-- Constants of R187. -/
def ln2 : Nat := 0x3f317218
def sqrt2 : Nat := 0x3fb504f3
def normLow : List Nat := [0x34b84b36, 0xb66c7357, 0xb6935ac1, 0x396532db, 0xbaa45408, 0xbb88e4ef, 0x3e7c8f63, 0x3fc02e2f]
def normHigh : List Nat := [0x38d3b56b, 0x3ab0dc72, 0xbb70bde7, 0x3bbc127b, 0xbbf9c5d7, 0x3c1aa57e, 0x3f8036db, 0x40354f7e]
/-- The normal variate of one word (R187). -/
def vnormWord (w : Nat) : Nat :=
  let u := unif w
  let x := fma32 0x40000000 u (neg32 one32)
  let t := mul32 (sub32 one32 x) (add32 one32 x)
  let w := neg32 (mul32 (log2f t).1 ln2)
  let p :=
    if lt32 w 0x40A00000 then
      let v := sub32 w 0x40200000
      normLow.foldl (fun p c => fma32 p v c) 0x32f16588
    else
      let v := sub32 (mul32 w (rsqrt w).1) 0x40400000
      normHigh.foldl (fun p c => fma32 p v c) 0xb951f09b
  mul32 (mul32 p x) sqrt2
/-- R187. -/
def execVnorm (f : VF) (s : State) : Out := s.draw f 8 vnormWord

/-! `vcat` (R188, R189). -/

/-- One lane of the scan: state, index of the lane, its word, its logit. -/
def vcatLane (k : BitVec 128) (st : Vcat) (j w b : Nat) : Vcat :=
  match unpack f32 b with
  | .nan _ => st
  | _ =>
    if !k.getLsbD j then st
    else
      let l1 := neg32 (mul32 (log2f (unif w)).1 ln2)
      let g := neg32 (mul32 (log2f l1).1 ln2)
      let sc := add32 b g
      if lt32 st.bs.toNat sc then { st with bs := BitVec.ofNat 32 sc, bi := st.nb + BitVec.ofNat 32 j } else st
def vcatScan (k : BitVec 128) : Vcat → Nat → List Nat → List Nat → Vcat
  | st, j, w :: ws, b :: bs => vcatScan k (vcatLane k st j w b) (j + 1) ws bs
  | st, _, _, _ => st
/-- NV for a NaN logit of an unmasked lane. -/
def vcatNv (k : BitVec 128) (bs : List Nat) : Bool := (List.zipIdx bs).any fun p => k.getLsbD p.2 && (unpack f32 p.1).isNan
/-- The state of a register. -/
def vcatOf (vd : BitVec 5) (d : BitVec 1024) : Vcat := { vd := vd, bs := d.extractLsb' 0 32, bi := d.extractLsb' 32 32, nb := d.extractLsb' 64 32 }
/-- The chain of a vector slot. -/
def Ctx.chain (c : Ctx) (slot : Nat) : Option Vcat := if slot = 3 then c.vcat0 else c.vcat1
/-- `vcat`: its scan runs one cycle after its issue, so that successive issues pass the state on in issue order; the register receives it with latency 8. -/
def execVcat (f : VF) (s : State) : Out :=
  let n := lanesIn f.w f.t
  match s.core.iss.phase with
  | .compute c =>
    let b := if f.sb then s.sample c.diag (c.issued + 3) (c.reads.getD 0 none) else c.b.toNat
    let bs := toLanes 32 n b
    let st0 := if c.aux.getD 0 0 = 1 then (s.core.ctx.chain c.slot).getD (vcatOf f.d c.d) else vcatOf f.d c.d
    let st1 := vcatScan c.k st0 0 (c.words.map BitVec.toNat) bs
    let st2 := { st1 with nb := st0.nb + BitVec.ofNat 32 n }
    let s := s.emitDue s.now (.vcatNext c.slot st2)
    let s := s.emitDue (c.issued + 7) (.vreg f.d (BitVec.ofNat 1024 (2 ^ 96 - 1)) ((st2.nb ++ (st2.bi ++ st2.bs)).setWidth 1024))
    .next (s.emitDue (c.issued + 7) (.flags (flagBits (if vcatNv c.k bs then flNV else 0))))
  | .issue =>
    let slot := s.core.iss.slot
    let linked := match s.core.ctx.chain slot with
      | some v => v.vd == f.d
      | none => false
    let cap := { s.capture f with words := (s.words n).map (BitVec.ofNat 32), aux := [b2n linked] }
    let go := fun (s : State) (cap : Cap) =>
      let s := s.emit 2 (.calc (.vcat f) cap)
      let s := if linked then s else s.emit 1 (.vcat slot (some (vcatOf f.d cap.d)))
      s.emit 1 (.qctr (quillCalls n))
    if f.sb then
      match s.sectTrap f.b .vec (f.w.bits / 8) with
      | some t => .next (s.raise t)
      | none => .next ((go s { cap with reads := [s.sectRead f.b (f.w.bits / 8)], diag := (s.rst f.b).diag }).touch f.b (f.w.bits / 8))
    else .next (go s cap)

/-! `vtopk` and `vtemp` (R190, R191). -/

/-- Lane a ranks before lane b: larger value, +0 above −0; ties rank the lower lane first. -/
def ranksBefore (t : ETy) (a b : Nat × Nat) : Bool :=
  let gt := fun x y => if t.isF then
      (match cmpV (unpack (etFmt t) x) (unpack (etFmt t) y) with
        | some .gt => true
        | some .eq => !x.testBit (t.bits - 1) && y.testBit (t.bits - 1)
        | _ => false)
    else decide (etIval t y < etIval t x)
  gt a.1 b.1 || (!gt b.1 a.1 && decide (a.2 < b.2))
/-- Lanes chosen by `vtopk`. -/
def topk (f : VF) (c : Cap) : List Nat :=
  let el := (List.zipIdx (lanesV f c.a)).filter fun p => c.k.getLsbD p.2 && !(f.t.isF && (unpack (etFmt f.t) p.1).isNan)
  ((sortBy (ranksBefore f.t) el).take c.sb.toNat).map Prod.snd
/-- R190: no flag, for a signalling NaN either (log entry 48). -/
def execVtopk (f : VF) (s : State) : Out := s.vrun f (.vtopk f) 8 fun c =>
  [.kreg (f.d.setWidth 3) (BitVec.allOnes 128) (BitVec.ofNat 128 ((topk f c).map fun i => 2 ^ i).sum)]
/-- One lane of `vtemp`: A·r with one rounding in the lane type. -/
def vtempLane (t : ETy) (md temp a : Nat) : EltRes :=
  match unpack f32 temp with
  | .nan _ => (nanOf (etFmt t), flNV)
  | .inf true => (nanOf (etFmt t), flNV)
  | .fin n m _ =>
    if n || m = 0 then (nanOf (etFmt t), flNV) else mulV (etFmt t) md (unpack (etFmt t) a) (unpack f32 (recip temp).1)
  | .inf false => mulV (etFmt t) md (unpack (etFmt t) a) (unpack f32 0)
def execVtemp (f : VF) (s : State) : Out := s.vrun f (.vtemp f) 4 fun c => map1 f c (vtempLane f.t f.md.toNat (c.sb.toNat % 2 ^ 32))

end Sys2Proof.Machine
end

