-- ==== Sys2Proof/Machine/Engine.lean ====
section
/-! DEFINITION. The engine and control slot at issue: engine commands, tile ownership, rings, waits, barriers (R220 to R247). A command's operands are copied into its queue entry; its performing is in Queue.lean. -/

namespace Sys2Proof.Machine

/-! Tiles. -/

def tileRun (first n : Nat) : List Nat := (List.range n).map (first + ·)
/-- The tiles of a ring. -/
def Ring.tiles (r : Ring) : List Nat := tileRun r.first.toNat r.count.toNat
/-- The engine slot's check: every tile assigned to the job and in state T (R222). -/
def State.tilesMine (s : State) (wmem : Bool) (ts : List Nat) : Option Trap :=
  firstTrap (ts.map fun t =>
    let r := s.core.tile wmem t
    if r.jtag == s.myTag && r.owner == ownT then none else some { cause := cOwner, addr := t * 2 ^ 14, info0 := r.word })
/-- The cycle at whose end the writes to tiles that have issued, those of this repetition included, have landed (R222, R226). -/
def State.tilesLand (s : State) (wmem : Bool) (ts : List Nat) : Nat :=
  let hit := fun (p : Pend) => match p.eff with
    | .amem r _ _ => !wmem && ts.contains (r / 64)
    | .hist r _ => !wmem && ts.contains (r / 64)
    | _ => false
  ((s.core.pend ++ s.core.iss.effs).filter hit).foldl (fun m p => Nat.max m p.due) s.now
/-- Queue entries of the core that stand for engine commands, and the commands its engines carry out. -/
def State.ecopyRings (s : State) : List (Bool × List Nat) :=
  let q := s.core.storeQ.filterMap fun e => match e.i with
    | .ecopy f => if f.ring then some (e.args.getD 4 0 == 1, tileRun (e.args.getD 2 0) (e.args.getD 3 0)) else none
    | _ => none
  let c := s.cmds.filterMap fun e => match e.i with
    | .ecopy f => if f.ring && e.core == s.cid then some (e.tilesW, e.tiles) else none
    | _ => none
  q ++ c
/-- Tiles that an `hxch` in progress holds (R226, R237). -/
def State.hxchTiles (s : State) : List Nat :=
  let q := s.core.storeQ.flatMap fun e => match e.i with
    | .hxch _ _ _ => e.args.drop 2
    | _ => []
  let c := s.cmds.flatMap fun e => match e.i with
    | .hxch _ _ _ => if e.core == s.cid then e.tiles else []
    | _ => []
  q ++ c
/-- Issue of a store-queue form. -/
def State.enqS (s : State) (i : Instr) (args : List Nat) : State := s.emit 1 (.queue false true i args 0 0)
/-- A form of the engine slot: its checks, then its effects. -/
def State.checked (s : State) (t : Option Trap) (f : State → State) : Out :=
  match t with
  | some t => .next (s.raise t)
  | none => .next (f s)
/-- An operand limit (subcode 0x04). -/
def limitIf (b : Bool) (addr info : Nat) : Option Trap := if b then some (accessFault 0x04 addr info) else none

/-- An effect on the die's shared state has issued in this cycle, on some core, and not landed: forms that test and take see it, cores in ascending order. The core's job comes with it. -/
def State.pendOn (s : State) (p : Nat → Eff → Bool) : Bool :=
  (s.coreIds.filter fun c => dieOf c = s.die).any fun c => let k := s.coreAt c; (k.pend ++ k.iss.effs).any fun x => p k.jcb x.eff

/-! Rings (R18, R227 to R230). -/

def Ring.modulus (r : Ring) : Nat := r.count.toNat * (2 ^ 16 / r.count.toNat)
/-- Filled slots. -/
def Ring.filled (r : Ring) : Nat := (r.tail.toNat + r.modulus - r.head.toNat) % r.modulus
def Ring.free (r : Ring) : Nat := r.count.toNat - r.filled
/-- Tile of ring slot j. -/
def Ring.tileOf (r : Ring) (j : Nat) : Nat := r.first.toNat + j % r.modulus % r.count.toNat
/-- Pass over consecutive slots whose tiles are in state T, at most n of them. -/
def Ring.pass (r : Ring) (c : Core) : Nat → Nat → Nat
  | 0, j => j
  | n + 1, j => if (c.tile r.wmem (r.tileOf j)).owner == ownT then Ring.pass r c n ((j + 1) % r.modulus) else j
/-- Starting slot of an engine command in ring form (R228). -/
def Ring.start (r : Ring) (c : Core) (out : Bool) : Nat := if out then r.pass c r.filled r.head.toNat else r.pass c r.free r.tail.toNat
/-- The handle check. -/
def State.ringTrap (s : State) (h : BitVec 3) : Option Trap := if (s.rh h).valid then none else some (accessFault 0x03 0 h.toNat)
/-- R227. -/
def execRset (n : BitVec 3) (b : Bool) (f c : BitVec 7) (d : Bool) (s : State) : Out :=
  let ts := tileRun f.toNat (c.toNat + 1)
  s.checked (orTrap (limitIf (decide (128 < f.toNat + (c.toNat + 1))) 0 n.toNat) (s.tilesMine b ts)) fun s =>
    let s := s.emit 1 (.ring n { valid := true, wmem := b, first := f, count := BitVec.ofNat 8 (c.toNat + 1), head := 0, tail := 0 })
    if d then s else s.emit 1 (.tiles b ts 1)
/-- R229: the wait is judged when the bundle has retired. -/
def execRwait (h : BitVec 3) (k : Bool) (n : BitVec 8) (l : BitVec 5) (s : State) : Out :=
  let lim := (s.rs l).toNat % 2 ^ 32
  s.checked (s.ringTrap h) fun s => s.emitEnd (.hold { what := if k then .free h n.toNat else .fill h n.toNat, lim := lim, rem := lim })
/-- R230: I = 0 the head, 1 the tail; each tile passes once the writes to it are visible. -/
def execRadv (h : BitVec 3) (i : Bool) (n : BitVec 8) (s : State) : Out :=
  let r := s.rh h
  let k := n.toNat
  s.checked (orTrap (s.ringTrap h) (limitIf (decide ((if i then r.free else r.filled) < k)) 0 h.toNat)) fun s =>
    let from0 := if i then r.tail.toNat else r.head.toNat
    let ts := (List.range k).map fun j => r.tileOf (from0 + j)
    let x := BitVec.ofNat 16 ((from0 + k) % r.modulus)
    ts.foldl (fun s t => s.emitDue (s.tilesLand r.wmem [t]) (.tiles r.wmem [t] 1)) (s.emit 1 (.ring h (if i then { r with tail := x } else { r with head := x })))

/-! Tile ownership (R226). -/

/-- The check of one tile: assigned, not E, not held by an exchange. -/
def State.ownTrap (s : State) (b : Bool) (t : Nat) : Option Trap :=
  let r := s.core.tile b t
  if r.jtag == s.myTag && r.owner != ownE && (b || !s.hxchTiles.contains t) then none else some { cause := cOwner, addr := t * 2 ^ 14, info0 := r.word }
def execOwn (st : BitVec 2) (b : Bool) (f c : BitVec 7) (s : State) : Out :=
  let ts := tileRun f.toNat (c.toNat + 1)
  s.checked (orTrap (limitIf (decide (127 < f.toNat + c.toNat)) 0 0) (firstTrap (ts.map (s.ownTrap b)))) fun s =>
    if st = 2 then s.emitDue (s.tilesLand b ts) (.tiles b ts 2) else s.emit 1 (.tiles b ts 0)

/-! Barriers (R233 to R236). -/

/-- The running job holds the barrier of this die. -/
def State.holdsBar (s : State) (n : BitVec 6) : Bool := (s.barrier s.die n.toNat).job == some s.jcb
def State.barTrap (s : State) (n : BitVec 6) : Option Trap := limitIf (!s.holdsBar n) 0 0
/-- R236: an arrival at the barrier of this die, or of the die that D names; it is sent when its queue entry performs. -/
def execBarr (n : BitVec 6) (r : Bool) (d : BitVec 5) (s : State) : Out :=
  let die := if r then (s.rs d).toNat % 2 ^ 23 else s.die
  s.checked (if r then limitIf (!s.dieOk die) 0 0 else s.barTrap n) fun s => s.enqS (.barr n r d) [die]
def State.bwaitFor (s : State) (n : BitVec 6) (l : BitVec 5) (k : Nat) : Out :=
  let lim := (s.rs l).toNat % 2 ^ 32
  s.checked (s.barTrap n) fun s => s.emitEnd (.hold { what := .barrier n k, lim := lim, rem := lim })
def execBwait (n : BitVec 6) (l c : BitVec 5) (s : State) : Out := s.bwaitFor n l ((s.rs c).toNat % 2 ^ 32)
def execBwaitImm (n : BitVec 6) (l : BitVec 5) (c : BitVec 8) (s : State) : Out := s.bwaitFor n l c.toNat
def execBreset (n : BitVec 6) (s : State) : Out := s.checked (s.barTrap n) fun s => s.emit 1 (.barReset n)
def execBfree (n : BitVec 6) (s : State) : Out := s.checked (s.barTrap n) fun s => s.emit 1 (.barFree n)
/-- R233 to R235: the barrier is judged, and pd written, after the `bfree`s of the cycle. -/
def execBalloc (p : BitVec 4) (n : BitVec 6) (s : State) : Out := .next (s.emit 1 (.barAlloc n p))

/-! Copy (R225, R228). -/

/-- Tiles of a run of rows. -/
def rowTiles (row n : Nat) : List Nat := if n = 0 then [] else tileRun (row / 64) ((row + n - 1) / 64 - row / 64 + 1)
/-- Operands: the global address, and for a ring form the starting slot and FIRST, COUNT, BUF of the handle. -/
def execEcopy (f : EcopyF) (s : State) : Out :=
  let ga := (s.rs f.a).toNat % 2 ^ 56 / 256 * 256
  if f.ring then
    let r := s.rh f.h
    let bad := s.ecopyRings.find? fun x => x.1 == r.wmem && x.2.any r.tiles.contains
    let over1 := bad.map fun x =>
      let t := (x.2.find? r.tiles.contains).getD 0
      ({ cause := cOwner, addr := t * 2 ^ 14, info0 := (s.core.tile r.wmem t).word } : Trap)
    s.checked (firstTrap [s.stageTrap?, s.ringTrap f.h, limitIf (decide (f.rows.toNat % 64 ≠ 0)) 0 f.h.toNat, over1]) fun s =>
      s.enqS (.ecopy f) [ga, r.start s.core f.out, r.first.toNat, r.count.toNat, b2n r.wmem]
  else
    let ts := rowTiles f.row.toNat f.rows.toNat
    s.checked (firstTrap [s.stageTrap?, limitIf (decide (8192 < f.row.toNat + f.rows.toNat)) (256 * f.row.toNat) 0, s.tilesMine f.wmem ts]) fun s =>
      (s.enqS (.ecopy f) [ga, 0, 0, 0, b2n f.wmem]).emit 1 (.tiles f.wmem ts 1)

/-! Halo exchange (R237). -/

/-- Coordinates from a to b. -/
def coords (a b : Int) : List Int := (List.range (b - a + 1).toNat).map fun (i : Nat) => a + (i : Int)
/-- Tiles that n bytes from a buffer address on touch. -/
def byteTiles (a n : Nat) : List Nat := if n = 0 then [] else (List.range ((a % 2 ^ 14 + n - 1) / 2 ^ 14 + 1)).map fun i => (a / 2 ^ 14 + i) % 128
/-- Address of the channel run of a position, with CPOS taken as 0. -/
def Stream.runAddr (st : Stream) (c0 c1 c2 : Int) : Nat := st.addrAt c0 c1 c2 0 0
/-- The tiles that hold a byte of the stored block. -/
def Stream.blockTiles (st : Stream) : List Nat :=
  let r := fun d => coords (st.low d) (st.high d)
  (r 2).foldl (fun acc c2 => (r 1).foldl (fun acc c1 => (r 0).foldl (fun acc c0 =>
    (byteTiles (st.runAddr c0 c1 c2) st.cext).foldl (fun acc t => if acc.contains t then acc else insertBy (fun a b => decide (a < b)) t acc) acc) acc) acc) []
/-- The checks of `hxch` on its stream. -/
def State.hxchTrap (s : State) (n : BitVec 5) (f : BitVec 6) : Option Trap :=
  let st := s.rst n
  let e := s.layEnt s.die s.jcb st.lyent.toNat
  firstTrap [s.stageTrap?, if st.valid then none else some (accessFault 0x03 0 n.toNat), if st.mapBad false then some (accessFault 0x01 st.addr n.toNat) else none,
    limitIf (st.idx || st.space != 0 || st.remote || !st.pad || !st.ly) st.addr n.toNat, s.layoutTrap st,
    if e.kind = 0 then none else
      some { cause := cStale, info0 := st.lyent.toNat + st.lygen.toNat * 2 ^ 16, info1 := e.gen.toNat + e.kind.toNat * 2 ^ 16, resumable := true },
    if s.cfg.variant = 2 && decide (16 ≤ f.toNat) then some { cause := cUnimpl, sub := 0x01 } else none,
    s.tilesMine false st.blockTiles]
/-- Operands: LYGEN, LYENT, then the tiles; the stream's image goes with the entry. -/
def execHxch (n : BitVec 5) (f b : BitVec 6) (s : State) : Out :=
  let st := s.rst n
  s.checked (s.hxchTrap n f) fun s =>
    let ts := st.blockTiles
    let s := if st.checked then s else s.emit 1 (.checked n)
    (s.emit 1 (.queue false true (.hxch n f b) (st.lygen.toNat :: st.lyent.toNat :: ts) (st.img.setWidth 1024) 0)).emit 1 (.tiles false ts 2)

/-! Re-sharding (R240, R241, R392). -/

/-- Fields of a viaduct image. -/
def VSlot.f (v : VSlot) (off n : Nat) : Nat := leNat ((v.image.drop off).take n)
def VSlot.nstep (v : VSlot) : Nat := v.f 6 2
/-- R241: nothing changes where the slot is not loaded, is in use, or does not name the entry's tensor. -/
def execReshard (e v : BitVec 4) (b : BitVec 6) (s : State) : Out :=
  let x := s.vslot s.die v.toNat
  let taken := s.pendOn fun _ i => match i with
    | .reshard _ w => w == v
    | _ => false
  s.checked (orTrap s.stageTrap? (limitIf (!x.loaded || x.inUse || taken || decide (x.f 0 4 ≠ (s.layEnt s.die s.jcb e.toNat).handle.toNat)) 0 0)) fun s =>
    (s.enqS (.reshard e v b) []).emit 1 (.reshard e v)
/-- R240: one entry in both queues (R419). -/
def execRsload (v : BitVec 4) (a : BitVec 5) (s : State) : Out :=
  s.checked (limitIf (s.vslot s.die v.toNat).inUse 0 0) fun s => s.emit 1 (.queue true true (.rsload v a) [(s.rs a).toNat % 2 ^ 56, 0] 0 0)

/-! Collectives, dispatch, combine, put, get (R242, R246): the address of the parameter block. -/

def execColl (a : BitVec 5) (b : BitVec 6) (s : State) : Out := s.checked s.stageTrap? fun s => s.enqS (.coll a b) [(s.rs a).toNat % 2 ^ 56 / 128 * 128]
def execEdisp (a : BitVec 5) (b : BitVec 6) (s : State) : Out := s.checked s.stageTrap? fun s => s.enqS (.edisp a b) [(s.rs a).toNat % 2 ^ 56 / 128 * 128]
def execEcomb (a : BitVec 5) (b : BitVec 6) (s : State) : Out := s.checked s.stageTrap? fun s => s.enqS (.ecomb a b) [(s.rs a).toNat % 2 ^ 56 / 128 * 128]
def execPut (a : BitVec 5) (b : BitVec 6) (s : State) : Out := s.checked s.stageTrap? fun s => s.enqS (.put a b) [(s.rs a).toNat % 2 ^ 56 / 64 * 64]
def execGet (a : BitVec 5) (b : BitVec 6) (s : State) : Out := s.checked s.stageTrap? fun s => s.enqS (.get a b) [(s.rs a).toNat % 2 ^ 56 / 64 * 64]

end Sys2Proof.Machine
end

