-- ==== Sys2Proof/Machine/Task.lean ====
section
/-! DEFINITION. The engine and control slot at issue: tasks, job counts, slices, deliberate traps (R250 to R257), sequence cursors (R265 to R268), the Trestle forms (R258 to R264), layout and system forms (R269 to R273). -/

namespace Sys2Proof.Machine

/-! Creating and ending continuations. -/

def State.posted (s : State) : Bool :=
  match s.self with
  | some c => c.posted
  | none => false
/-- A raise after the continuation's own posting (R253). -/
def State.lateTrap (s : State) (n : Nat) : Option Trap := if s.posted then some { cause := cLate, info0 := n } else none
/-- R250: die, `s1`, deadline, PC and descriptor of the child. -/
def execSpawn (f : SpawnF) (s : State) : Out :=
  let die := if f.remote then (s.rs f.g).toNat % 2 ^ 23 else s.die
  s.checked (firstTrap [s.stageTrap?, limitIf (!s.dieOk die) 0 0, if f.raise then s.lateTrap 1 else none]) fun s =>
    let pc := (s.selfKdesc.code + 4 * f.entry.toNat) % 2 ^ 56
    let kd := match s.self with
      | some c => c.kdesc.toNat
      | none => 0
    s.enqS (.spawn f) [die, (s.rs f.a).toNat, if f.d = 0 then s.ctl.deadline.toNat else (s.rs f.d).toNat, pc, kd]
/-- R251. -/
def execYield (s : State) : Out := .next (s.emitEnd .yield)
/-- R252: whether the entry adds to the completed count is judged at issue; a stage continuation's J is ignored (R366). A handler's entry names its record, its target and the class of the trap (R349). -/
def execDone (j : Bool) (s : State) : Out :=
  let post := j && !s.posted && !s.inStage
  let h := match s.self.bind Cont.handlerOf with
    | some (rec, target, resumable) => [1, rec, (match target with
      | some k => k + 1
      | none => 0), b2n resumable]
    | none => [0, 0, 0, 0]
  let s := (s.enqS (.done j) (b2n post :: h)).emitEnd (.ends post)
  .next (if post then s.emit 1 .posted else s)
/-- R253. -/
def execJraise (a : BitVec 5) (s : State) : Out :=
  let n := (s.rs a).toNat % 2 ^ 32
  s.checked (orTrap s.stageTrap? (s.lateTrap n)) fun s => s.enqS (.jraise a) [n]
/-- R254: the word's address (0 and no bitmap for `cpost.j`), the bit, whether it posts. -/
def execCpost (a b : BitVec 5) (sc : Scope) (j : Bool) (s : State) : Out :=
  s.checked s.stageTrap? fun s =>
    let i := (s.rs b).toNat % 2 ^ 32
    let post := j && !s.posted
    let s := s.enqS (.cpost a b sc j) [((s.rs a).toNat + 8 * (i / 64)) % 2 ^ 56 / 8 * 8, i % 64, b2n post, b2n (a != 0)]
    if post then s.emit 1 .posted else s
/-- R256: both writes take effect at the end of the bundle. -/
def execSlice (b : BitVec 5) (y : Bool) (lo hi : BitVec 32) (s : State) : Out :=
  let s := s.emitEnd (.ctl 0x08 (hi ++ lo))
  let s := if b = 0 then s else s.emitEnd (.ctl 0x09 (s.rs b))
  .next (if y then s.emitEnd .yield else s)
/-- R257. -/
def execTrap (a : BitVec 5) (s : State) : Out := .next (s.raise { cause := cBreak, sub := 0x01, info0 := (s.rs a).toNat })
/-- R257: resumable. -/
def execBrk (s : State) : Out := .next (s.raise { cause := cBreak, resumable := true })

/-! Sequence cursors. -/

/-- R266: the address of the region header. -/
def execSqset (n : BitVec 3) (a : BitVec 5) (s : State) : Out := .next (s.emit 1 (.queue true false (.sqset n a) [(s.rs a).toNat % 2 ^ 56 / 64 * 64] 0 0))
def State.cursorTrap (s : State) (n : BitVec 3) : Option Trap := if (s.rsq n).valid then none else some (accessFault 0x03 0 n.toNat)
def rangeTrap (bad : Bool) (n : BitVec 3) (k : Nat) : Option Trap := if bad then some { cause := cCursor, info0 := n.toNat, info1 := k } else none
/-- R267. -/
def execSqapp (n : BitVec 3) (d : BitVec 5) (c : BitVec 8) (s : State) : Out :=
  let q := s.rsq n
  let e := q.clen.toNat + q.tlen.toNat
  s.checked (orTrap (s.cursorTrap n) (rangeTrap (decide (q.cap.toNat < e + c.toNat)) n c.toNat)) fun s =>
    (s.emit 1 (.sreg d (BitVec.ofNat 64 e))).emit 1 (.cursor n { q with tlen := q.tlen + c.setWidth 32 })
/-- R268: the register changes at issue; the entry holds the region, the new committed length and the old end. -/
def State.commit (s : State) (i : Instr) (n : BitVec 3) (k : Nat) : Out :=
  let q := s.rsq n
  s.checked (firstTrap [s.stageTrap?, s.cursorTrap n, rangeTrap (decide (q.tlen.toNat < k)) n k]) fun s =>
    (s.emit 1 (.cursor n { q with clen := q.clen + BitVec.ofNat 32 k, tlen := 0 })).enqS i [q.region.toNat, q.clen.toNat + k, q.clen.toNat + q.tlen.toNat]
def execSqacc (n : BitVec 3) (a : BitVec 5) (s : State) : Out := s.commit (.sqacc n a) n ((s.rs a).toNat % 2 ^ 32)
def execSqrej (n : BitVec 3) (s : State) : Out := s.commit (.sqrej n) n 0

/-! Trestle. -/

/-- The running job holds the set. -/
def State.setTrap (s : State) (n : BitVec 3) : Option Trap := limitIf ((s.tset s.die n.toNat).holder != some s.jcb) 0 0
/-- The lowest free place of a set, those that other cores take in this cycle apart; none where it is full (R260). -/
def State.freePlace (s : State) (n : Nat) : Option Nat :=
  let t := s.tset s.die n
  (List.range t.qcap).find? fun i => (fget none t.places i).isNone && !s.pendOn fun _ e => match e with
    | .place m j _ _ _ => m == n && j == i
    | _ => false
/-- Records in flight: those whose `tsub` has performed (R356). -/
def TSet.flight (t : TSet) : Nat := (t.places.filter fun p => match p.2 with
  | some x => x.admitted
  | none => false).length
/-- R260: the place is reserved at issue. -/
def execTsub (n : BitVec 3) (a : BitVec 5) (b : BitVec 6) (p : BitVec 4) (s : State) : Out :=
  s.checked (orTrap s.stageTrap? (s.setTrap n)) fun s =>
    let hdr := (s.rs a).toNat % 2 ^ 56 / 64 * 64
    match s.freePlace n.toNat with
    | none => s.emit 1 (.preg p false)
    | some i => ((s.emit 1 (.preg p true)).emit 1 (.place n.toNat i hdr b s.ctl.deadline)).enqS (.tsub n a b p) [i, hdr]
/-- The record of the running stage continuation: its set, its place. -/
def State.myRecord (s : State) : Option (Nat × Nat) := s.self.bind Cont.record
def State.myPlace (s : State) : Option Place := s.myRecord.bind fun r => fget none (s.tset s.die r.1).places r.2
/-- R261: the entry holds the record's set and place, the stage, and the cycles charged so far (R358); the continuation's end is then no stage error. -/
def execRverd (v : BitVec 2) (s : State) : Out :=
  match s.myRecord, s.self with
  | some r, some c => .next (((s.enqS (.rverd v) [r.1, r.2, c.stage.toNat, c.charged + s.core.charged + 1]).emitEnd .unrecord).emitEnd (.ends false))
  | _, _ => .next (s.raise (accessFault 0x04 0 0))
/-- R262, R357: the entry's place in the stage log, the target, the value; the count rises at issue. -/
def execTlog (a b : BitVec 5) (s : State) : Out :=
  match s.myRecord, s.myPlace, s.self with
  | some r, some p, some c =>
    let st := c.stage.toNat
    let j := p.lcnt.getD st 0
    let ta := (s.rs a).toNat % 2 ^ 56 / 8 * 8
    s.checked (limitIf (decide (p.lcap ≤ j)) ta 0) fun s =>
      (s.emit 1 (.logAppend r.1 r.2 st)).enqS (.tlog a b) [(p.log + 16 * (p.lcap * st + j)) % 2 ^ 56, ta, (s.rs b).toNat]
  | _, _, _ => .next (s.raise (accessFault 0x04 0 0))
/-- R258, R259: a set that another job holds is refused; pd is 1 where no record is in flight, those whose `tsub` has not performed apart (R356); with A = 0 a success frees the set. Every form takes its place in both queues, as a `mark` where nothing is loaded (R249). -/
def execTsload (n : BitVec 3) (a : BitVec 5) (p : BitVec 4) (s : State) : Out :=
  let t := s.tset s.die n.toNat
  let other := s.pendOn fun j e => match e with
    | .setTake m _ _ => m == n.toNat && j != s.jcb
    | _ => false
  s.checked (limitIf ((t.holder.isSome && t.holder != some s.jcb) || other) 0 0) fun s =>
    if t.flight = 0 then
      let s := s.emit 1 (.preg p true)
      if a = 0 then (s.emit 1 (.setFree n.toNat)).emit 1 (.queue true true .mark [] 0 0)
      else
        let va := (s.rs a).toNat % 2 ^ 56 / 256 * 256
        (s.emit 1 (.setTake n.toNat va s.clk.nextId)).emit 1 (.queue true true (.tsload n a p) [va, s.clk.nextId] 0 0)
    else (s.emit 1 (.preg p false)).emit 1 (.queue true true .mark [] 0 0)
/-- Depth of a stage: its stage continuations that have not ended (R359). -/
def State.depth (s : State) (die set stage : Nat) : Nat :=
  (s.sched.conts.filter fun p => match p.2 with
    | some c => keyDie p.1 == die && c.stage.toNat == stage && (c.record.map Prod.fst) == some set
    | none => false).length
/-- R264. -/
def execTsstat (d : BitVec 5) (n g sl : BitVec 3) (s : State) : Out :=
  s.checked (s.setTrap n) fun s =>
    let t := s.tset s.die n.toNat
    let have_ := decide (g.toNat < t.nstg)
    let e := t.stages.getD g.toNat { kdesc := 0, pass := 0, cost := 0 }
    let v := match sl.toNat with
      | 0 => if have_ then e.pass.toNat else 0
      | 1 => if have_ then e.cost.toNat else 0
      | 2 => if have_ then s.depth s.die n.toNat g.toNat else 0
      | 3 => t.acc.toNat
      | 4 => t.rej.toNat
      | 5 => t.flight
      | _ => t.draws.toNat
    s.emit 1 (.sreg d (BitVec.ofNat 64 v))

/-! The layout table (R269, R270). -/

def execLyrd (d : BitVec 5) (e : BitVec 4) (sl : BitVec 3) (s : State) : Out :=
  let x := s.layEnt s.die s.jcb e.toNat
  .next (s.emit 1 (.sreg d (match sl.toNat with
    | 0 => x.handle.setWidth 64
    | 1 => x.kind.setWidth 64
    | 2 => x.gen.setWidth 64
    | _ => x.shape.setWidth 64)))
def execLywr (e : BitVec 4) (a : BitVec 5) (sl : BitVec 3) (s : State) : Out :=
  s.checked (limitIf ((s.layEnt s.die s.jcb e.toNat).kind == 3 || (sl == 1 && (s.rs a).setWidth 2 == 3#2)) 0 0) fun s =>
    s.emitEnd (.layWrite e sl.toNat (s.rs a) (s.layEnt s.die s.jcb e.toNat).began)

/-! System forms (R271 to R273): privileged. -/

def State.privTrap (s : State) (opcode : Nat) : Option Trap := if jcbPriv s s.jcb then none else some { cause := cPriv, info0 := opcode }
def execTlbinv (k : BitVec 2) (a b : BitVec 5) (s : State) : Out :=
  s.checked (s.privTrap 0x30) fun s => s.emit 1 (.queue true true (.tlbinv k a b) [(s.rs a).toNat % 4096, (s.rs b).toNat % 2 ^ 56] 0 0)
def execAclwr (a b : BitVec 5) (s : State) : Out :=
  s.checked (orTrap (s.privTrap 0x31) (limitIf (decide (63 < (s.rs a).toNat)) 0 0)) fun s =>
    s.emit 1 (.queue true true (.aclwr a b) [(s.rs a).toNat, (s.rs b).toNat] 0 0)
def execCkpt (a : BitVec 5) (b : BitVec 6) (s : State) : Out :=
  s.checked (s.privTrap 0x32) fun s => (s.enqS (.ckpt a b) [(s.rs a).toNat % 2 ^ 56 / 64 * 64]).emitEnd .quiesce

end Sys2Proof.Machine
end

