-- ==== Sys2Proof/Machine/Landing.lean ====
section
/-! DEFINITION. The landing of results (R91, R92): what each effect does at the end of its cycle, and the order of the effects of one cycle. -/

namespace Sys2Proof.Machine

/-! Latches and ACC tiles. -/

/-- A latch after values are added to some of its lanes, and the flags of the additions (R182, R183). -/
def latchAdd (kind : Nat) (q : BitVec 256) (lanes : List (Nat × BitVec 32)) : BitVec 256 × Nat :=
  let old := toLanes 32 8 q.toNat
  let r := (List.zipIdx old).map fun p => match lanes.find? fun l => l.1 == p.2 with
    | some l => redOp kind p.1 l.2.toNat
    | none => (p.1, 0)
  (BitVec.ofNat 256 (fromLanes 32 (r.map Prod.fst)), r.foldl (fun f x => orF f x.2) 0)
/-- Block values added to every element of a tile in ascending order of K (R48). -/
def State.landBlocks (s : State) (tile : Nat) (z : Bool) (blocks : List (List (BitVec 32))) : State :=
  (List.range 64).foldl (fun s i =>
    let row := 64 * tile + i
    let old := toLanes 32 64 (s.racc row).toNat
    let new := (List.zipIdx old).map fun p => accumulate (if z then 0 else p.1) ((blocks.getD (64 * i + p.2) []).map BitVec.toNat)
    s.wacc row (BitVec.allOnes 2048) (rowBv new)) s
/-- Rows of a tile stored from row 0 on. -/
def State.landRows (s : State) (tile : Nat) (rows : List (BitVec 2048)) : State :=
  (List.zipIdx rows).foldl (fun s p => s.wacc (64 * tile + p.2) (BitVec.allOnes 2048) p.1) s
/-- Rows added to a tile, one addition for each element. -/
def State.landAdd (s : State) (tile : Nat) (z : Bool) (rows : List (BitVec 2048)) : State :=
  (List.zipIdx rows).foldl (fun s p =>
    let row := 64 * tile + p.2
    let old := if z then zeros 64 else rowList (s.racc row)
    s.wacc row (BitVec.allOnes 2048) (rowBv (List.zipWith add32 old (rowList p.1)))) s
/-- A result into a matrix register. A result that no longer fits MRFCAP changes nothing, and MRF_FULL is taken at the next boundary (R16). -/
def State.landMreg (s : State) (n : BitVec 4) (b : MBody) : State :=
  let occ := s.mrfOcc - (s.rm n).body.granules + b.granules
  if s.core.mrfCap < occ ∧ (s.rm n).body.granules < b.granules then
    s.onCont s.selfKey fun c => { c with reports := c.reports ++ [{ cause := cMrf, info0 := s.mrfOcc + s.core.mrfCap * 2 ^ 16, info1 := b.granules, resumable := true, pc := s.core.ctx.pc.toNat }] }
  else (s.wm n fun r => { r with body := b }).onCore fun c => { c with mrfBad := c.mrfBad.filter fun r => r != n.toNat }

/-! Queues. -/

/-- An entry enters its queue, or both (R153). -/
def State.enterQueue (s : State) (load store : Bool) (i : Instr) (args : List Nat) (vec : BitVec 1024) (mask : BitVec 128) : State :=
  let (s, id) := s.fresh
  let e : QEnt := { id := id, both := load && store, pc := s.core.ctx.pc.toNat, i := i, args := args, vec := vec, mask := mask, handle := s.selfKey, jcb := s.jcb, asid := s.ctl.asid.toNat }
  s.onCore fun c => { c with loadQ := if load then c.loadQ ++ [e] else c.loadQ, storeQ := if store then c.storeQ ++ [e] else c.storeQ }

/-! Layout entries, stage sets. -/

/-- `lywr` at the end of its bundle: discarded where a `reshard` of the entry is in progress or has begun since it issued; else the field changes and GEN advances (R270). -/
def State.landLay (s : State) (e : BitVec 4) (sel : Nat) (v : BitVec 64) (began : Nat) : State :=
  s.onLayEnt s.die s.jcb e.toNat fun x =>
    if x.busy ∨ x.began ≠ began then x
    else
      let x := { x with gen := x.gen + 1 }
      match sel with
      | 0 => { x with handle := v.setWidth 32 }
      | 1 => { x with kind := v.setWidth 2 }
      | _ => { x with shape := v.setWidth 48 }
/-- A place reserved for a record (R260). -/
def Place.fresh (hdr : Nat) (bar : BitVec 6) (deadline : BitVec 64) : Place :=
  { hdr := hdr, deadline := deadline, bar := bar, done := 0, verd := 0, fstg := none, draws := 0, lcnt := List.replicate 8 0, log := 0, lcap := 0,
    outcome := 0, running := none, sub := 0, pc := 0, admitted := false, since := 0, step := 0 }
/-- A set that its job gives up or takes anew: nothing of it stands but the places of records whose `tsub` has not performed, and the loads that have not landed. -/
def TSet.fresh (t : TSet) : TSet :=
  { TSet.reset with loading := t.loading, places := t.places.filter fun p => match p.2 with
      | some x => !x.admitted
      | none => false }
def State.onPlace (s : State) (die set idx : Nat) (f : Place → Place) : State :=
  s.onTset die set fun t => { t with places := fmod none idx (fun p => p.map f) t.places }

/-- An estimate moves a 32nd of the way (R358). -/
def estimate (old x : Nat) : Nat := ((old : Int) + ((x : Int) - old) / 32).toNat
def StageEnt.update (t : StageEnt) (pass : Bool) (cycles : Nat) : StageEnt :=
  { t with pass := BitVec.ofNat 16 (estimate t.pass.toNat (if pass then 65535 else 0)), cost := BitVec.ofNat 16 (estimate t.cost.toNat (Nat.min (ceilDiv cycles 64) 65535)) }
/-- A verdict counts (R261, R355, R358): the estimates of its stage move, its bit of DONE is set, and of VERD where it passes. -/
def State.landVerdict (s : State) (set idx st : Nat) (pass : Bool) (cycles handle : Nat) : State :=
  let live := match fget none (s.tset s.die set).places idx with
    | some p => p.running == some (handle, st)
    | none => false
  if !live then s
  else
    let s := s.onTset s.die set fun t => { t with stages := t.stages.modify st fun x => x.update pass cycles }
    let bit := 1#8 <<< st
    s.onPlace s.die set idx fun p =>
      { p with done := p.done ||| bit, verd := if pass then p.verd ||| bit else p.verd, running := none, since := s.now,
               fstg := if pass then p.fstg else some (BitVec.ofNat 3 st), outcome := if pass then p.outcome else 2 }

/-! One effect. -/

def State.dropL1 (s : State) : State := s.onCore Core.dropL1
def State.setMode (s : State) (m : Mode) : State := s.onCore fun c => { c with mode := m }
/-- What an effect does when it lands. -/
def State.land (s : State) (e : Eff) : State :=
  match e with
  | .sreg n v => s.ws n v
  | .preg n v => s.wp n v
  | .kreg n m v => s.wk n m v
  | .vreg n m v => s.wv n m v
  | .flags f => s.orFlags f
  | .step n u => s.wst n fun st => st.step u
  | .checked n => s.wst n fun st => { st with checked := true }
  | .stream n sel v => s.wst n fun st => st.setSel sel v
  | .adv n u => s.wst n fun st => st.step u
  | .ring n r => s.wh n r
  | .cursor n c => s.wsq n c
  | .ctl n v => s.crWrite n v
  | .latch n k l => s.wq n (latchAdd k (s.rq n) l).1
  | .latchClear n => s.wq n 0
  | .stand i w => s.onCtx fun c => { c with stand := c.stand.setIfInBounds i w }
  | .vcat slot c => s.onCtx fun x => if slot = 3 then { x with vcat0 := c } else { x with vcat1 := c }
  | .vcatNext slot c =>
    match s.core.ctx.chain slot with
    | some v => if v.vd = c.vd then s.onCtx fun x => if slot = 3 then { x with vcat0 := some c } else { x with vcat1 := some c } else s
    | none => s
  | .qctr n =>
    let q := (s.ctl.qctrlo.toNat + 2 ^ 64 * s.ctl.qctrhi.toNat + n) % 2 ^ 128
    s.onCtl fun c => { c with qctrlo := BitVec.ofNat 64 q, qctrhi := BitVec.ofNat 64 (q / 2 ^ 64) }
  | .parkSet amem base a => s.onCtl fun c => { c with park := c.park.set amem base a }
  | .parkClear d =>
    s.onCtl fun c =>
      let p := c.park
      let regs := p.regs &&& ~~~(1#32 <<< d.toNat)
      let pair := 2 * (d.toNat / 2)
      let rows := if regs.getLsbD pair || regs.getLsbD (pair + 1) then p.rows else p.rows &&& ~~~(1#16 <<< (d.toNat / 2))
      { c with park := if regs = 0 then { ParkMap.reset with rows := rows } else { p with regs := regs, rows := rows } }
  | .amem row m v => s.wrow false row m v
  | .hist row n => s.onCore fun c => { c with amem := fmod 0 row (histAdd n) c.amem }
  | .acc row m v => s.wacc row m v
  | .tiles w l o => s.onCore fun c => c.setOwner w l (BitVec.ofNat 2 o)
  | .tileFree w f n => s.onCore fun c => c.setRun w f n Tile.reset
  | .tileTake w f n tag => s.onCore fun c => c.setRun w f n { jtag := tag, owner := ownT }
  | .arrive n jcb => s.arrive s.die n jcb
  | .verdict set idx st pass k h => s.landVerdict set idx st pass k h
  | .barReset n => s.onBarrier s.die n.toNat fun b => { b with count := 0 }
  | .barFree n => s.onBarrier s.die n.toNat fun _ => Barrier.reset
  | .barAlloc n p =>
    if (s.barrier s.die n.toNat).job.isNone then (s.onBarrier s.die n.toNat fun _ => { count := 0, job := some s.jcb }).wp p true else s.wp p false
  | .layWrite e sel v b => s.landLay e sel v b
  | .queue l st i args vec m => s.enterQueue l st i args vec m
  | .mreg n b => s.landMreg n b
  | .mctl n l a => s.wm n fun r => { r with limit := l, ad := a }
  | .accBlocks t z b => s.landBlocks t z b
  | .accRows t r => s.landRows t r
  | .accAdd t z r => s.landAdd t z r
  | .mregAcc n t => s.landMreg n (.dense ((List.range 64).map fun i => s.racc (64 * t + i)))
  | .mxBusy f => s.onCore fun c => { c with mxFree := Nat.max c.mxFree f }
  | .calc _ _ => s
  | .posted => s.onCont s.selfKey fun c => { c with posted := true }
  | .yield => s.setMode (.stopping whyYield)
  | .ends _ => s.setMode (.stopping whyDone)
  | .hold w => (s.onCont s.selfKey fun c => { c with state := stHeld, held := some w }).setMode (.held w)
  | .reshard e v =>
    (s.onLayEnt s.die s.jcb e.toNat fun x => { x with kind := 3, busy := true, began := x.began + 1 }).onVslot s.die v.toNat fun x => { x with inUse := true }
  | .place set idx hdr bar dl => s.onTset s.die set fun t => { t with places := fput none idx (some (Place.fresh hdr bar dl)) t.places }
  | .logAppend set idx st => s.onPlace s.die set idx fun p => { p with lcnt := p.lcnt.modify st (· + 1) }
  | .setTake set desc stamp => s.onTset s.die set fun t => { t.fresh with holder := some s.jcb, desc := desc, stamp := stamp, loading := t.loading + 1, qcap := t.qcap }
  | .setFree set => s.onTset s.die set TSet.fresh
  | .quiesce => (s.onIss fun i => { i with safe := false }).setMode (.stopping whyCkpt)
  | .unrecord => s.onCont s.selfKey fun c => { c with record := none }

/-! The order of a cycle's effects. -/

/-- Matrix results come first; then stream steps, and the clears of latches, to which a reduction that lands in the same cycle adds (R183); then the writes of the slots and the call link; then writes to streams by `stset` and `stadv`; then the writes of the end of the bundle; then flags. -/
def Eff.rank (e : Eff) : Nat :=
  match e with
  | .mreg _ _ | .mctl _ _ _ | .accBlocks _ _ _ | .accRows _ _ | .accAdd _ _ _ | .mregAcc _ _ => 0
  | .step _ _ | .checked _ | .qctr _ | .latchClear _ => 1
  | .barFree _ | .tileFree _ _ _ => 2
  | .barReset _ | .tileTake _ _ _ _ => 3
  | .barAlloc _ _ => 4
  | .arrive _ _ => 5
  | .reshard _ _ => 5
  | .stream _ _ _ | .adv _ _ => 6
  | .ctl _ _ | .layWrite _ _ _ _ | .unrecord => 7
  | .flags _ => 8
  | .yield | .ends _ | .hold _ | .quiesce => 9
  | _ => 5
/-- The effect is a matrix result. -/
def Eff.isMx (e : Eff) : Bool := e.rank == 0
/-- The effect is on state that cores share: it lands with those of the other cores, once every core has had its turn. -/
def Eff.isShared (e : Eff) : Bool :=
  match e with
  | .barFree _ | .barReset _ | .barAlloc _ _ | .arrive _ _ | .layWrite _ _ _ _ | .reshard _ _ | .setTake _ _ _ | .setFree _ | .place _ _ _ _ _
  | .verdict _ _ _ _ _ _ => true
  | _ => false
/-- The effect changes tile records, which every sample and every engine of the cycle still sees as they were (R278). -/
def Eff.isTiles (e : Eff) : Bool :=
  match e with
  | .tiles _ _ _ | .tileFree _ _ _ | .tileTake _ _ _ _ => true
  | _ => false
def Pend.before (a b : Pend) : Bool :=
  decide (a.eff.rank < b.eff.rank) || (decide (a.eff.rank = b.eff.rank) &&
    (decide (a.slot < b.slot) || (decide (a.slot = b.slot) && decide (a.seq < b.seq))))
/-- Flags of the latch update an effect makes: ORed with the other flags of the cycle. -/
def State.latchFlags (s : State) (e : Eff) : Nat :=
  match e with
  | .latch n k l => (latchAdd k (s.rq n) l).2
  | _ => 0
/-- The uncorrectable error that an effect meets in what it reads as it lands: the histogram row it adds to, the ACC rows it adds to or copies (R352). -/
def State.effFlaw (s : State) (e : Eff) : Option Trap :=
  let acc := fun (tile : Nat) => (s.core.accBad.find? fun r => r / 64 == tile).map fun r => machineCheck 3 (256 * r)
  match e with
  | .hist row _ => s.core.padFlaw false false (256 * row) 128
  | .accBlocks t z _ | .accAdd t z _ => if z then none else acc t
  | .mregAcc _ t => acc t
  | _ => none
/-- Land effects one after another, then OR the flags of the latch updates among them. One that meets an uncorrectable error writes nothing, and is reported. -/
def State.landList (s : State) (fl : Nat) : List Pend → State
  | [] => s.orFlags (flagBits fl)
  | p :: r =>
    match s.effFlaw p.eff with
    | none => (s.land p.eff).landList (orF fl (s.latchFlags p.eff)) r
    | some t => (s.report s.selfKey s.jcb { t with pc := p.pc, repidx := p.rep, slot := some p.slot }).landList fl r
/-- The write of a control register, by number. -/
def Eff.ctlOf (e : Eff) : Option (BitVec 8) :=
  match e with
  | .ctl n _ => some n
  | _ => none
/-- Of several writes of one control register in one bundle the last alone takes effect (R126). -/
def lastCtl : List Pend → List Pend
  | [] => []
  | p :: r => if p.eff.ctlOf.isSome && r.any (fun q => q.eff.ctlOf == p.eff.ctlOf) then lastCtl r else p :: lastCtl r
/-- Land a list of effects in order. -/
def State.landAll (s : State) (l : List Pend) : State := s.landList 0 (lastCtl (sortBy Pend.before l))
/-- The effects of the focused core that are due and satisfy a test land and leave the list. -/
def State.landDue (s : State) (t : Eff → Bool) : State :=
  let due := s.core.pend.filter fun p => decide (p.due ≤ s.now) && t p.eff
  (s.onCore fun c => { c with pend := c.pend.filter fun p => !(decide (p.due ≤ s.now) && t p.eff) }).landAll due

/-- RESULT_LANDING (R91): the results due in this cycle land, matrix results and those on shared state and tile records apart. -/
def execResultLanding (s : State) : Out := .next (s.landDue fun e => !e.isMx && !e.isShared && !e.isTiles)
/-- MATRIX_RESULT_LANDING (R195): the matrix results due in this cycle land together. -/
def execMatrixResultLanding (s : State) : Out := .next (s.landDue Eff.isMx)

end Sys2Proof.Machine
end

