-- ==== Sys2Proof/Machine/Save.lean ====
section
/-! DEFINITION. The save slot (R39, R40, R335, R336, R422): live-state masks and the side-table search (R89, R90), what a save writes, what a restore loads. -/

namespace Sys2Proof.Machine

/-! Live-state masks. -/

/-- A live-state mask, as a side-table entry holds it (R89). -/
structure Mask where
  offset : Nat
  sregs : Nat
  vregs : Nat
  streams : Nat
  accb : Nat
  latch : Nat
  rings : Nat
  curs : Nat
deriving DecidableEq, Repr

def Mask.ofBytes (b : List (BitVec 8)) : Mask :=
  let x := leNat b
  let g := fun o n => bits x (8 * o) (8 * n)
  { offset := g 0 4, sregs := g 4 4, vregs := g 8 4, streams := g 0xC 4, accb := g 0x10 2, latch := g 0x12 1 % 16, rings := g 0x13 1, curs := g 0x14 1 }
def Mask.bytes (m : Mask) : List (BitVec 8) :=
  natLe 4 m.offset ++ natLe 4 m.sregs ++ natLe 4 m.vregs ++ natLe 4 m.streams ++ natLe 2 m.accb ++ natLe 1 m.latch ++ natLe 1 m.rings ++ natLe 1 m.curs ++ natLe 11 0
/-- The mask that names every item. -/
def Mask.all (offset : Nat) : Mask :=
  { offset := offset, sregs := 2 ^ 32 - 2, vregs := 2 ^ 32 - 1, streams := 2 ^ 32 - 1, accb := 2 ^ 16 - 1, latch := 15, rings := 255, curs := 255 }
/-- Banks saved: those of the mask, and those that hold a parked row (R180). -/
def Mask.banks (m : Mask) (p : ParkMap) : List Nat :=
  (List.range 16).filter fun b => m.accb.testBit b || (!p.amem && (List.range 16).any fun j => p.rows.getLsbD j && decide ((p.base.toNat + j) / 128 = b))
/-- Vector registers saved: a parked one is saved in place. -/
def Mask.vecs (m : Mask) (p : ParkMap) : List Nat := (List.range 32).filter fun i => m.vregs.testBit i && !p.regs.getLsbD i
/-- Bits of a mask as numbers below n. -/
def picks (x n : Nat) : List Nat := (List.range n).filter fun i => x.testBit i

/-- The binary search of R90; a read that fails gives the fault and its address. -/
def State.sideSearch (s : State) (asid side off : Nat) : Nat → Int → Int → Except (Nat × Nat) (Option Mask)
  | 0, _, _ => .ok none
  | n + 1, lo, hi =>
    if hi < lo then .ok none
    else
      let mid := (lo + hi) / 2
      let va := (side + 32 + 32 * mid.toNat) % 2 ^ 56
      match s.rdV s.die asid va 4 with
      | .error e => .error e
      | .ok o =>
        if o = off then
          (match s.rdVirt s.die asid va 32 with
            | .error e => .error e
            | .ok b => .ok (some (Mask.ofBytes b)))
        else if o < off then s.sideSearch asid side off n (mid + 1) hi
        else s.sideSearch asid side off n lo (mid - 1)
/-- Word offset of the PC in the code image. -/
def State.pcOffset (s : State) : Nat := (s.core.ctx.pc.toNat - s.selfKdesc.code) / 4
/-- The mask of the safe point at the PC (R90). -/
def State.sideMask (s : State) : Except (Nat × Nat) (Option Mask) :=
  let side := s.selfKdesc.side
  let asid := s.ctl.asid.toNat
  match s.rdV s.die asid side 4 with
  | .error e => .error e
  | .ok n => s.sideSearch asid side s.pcOffset 34 0 ((n : Int) - 1)
/-- The mask of a save: the side-table entry's where the save is made at a safe point that has one, else every item (R94, R251, R348). -/
def State.saveMask (s : State) (atSafe : Bool) : Mask :=
  if atSafe then
    match s.sideMask with
    | .ok (some m) => { m with offset := s.pcOffset }
    | _ => Mask.all s.pcOffset
  else Mask.all s.pcOffset

/-! Images of the items. -/

/-- Stream state: image and position block (R13). -/
def Stream.bytes (st : Stream) : List (BitVec 8) :=
  natLe 64 st.img.toNat ++ natLe 4 st.pos0.toNat ++ natLe 4 st.pos1.toNat ++ natLe 4 st.pos2.toNat ++ natLe 2 0 ++ natLe 2 st.lygen.toNat ++ natLe 1 0
    ++ natLe 1 st.lyent.toNat ++ natLe 1 st.flagsByte ++ natLe 13 0
/-- A stream from its bytes; the RSVD byte of the image is taken as zero (R14, R336). -/
def Stream.ofBytes (b : List (BitVec 8)) : Stream :=
  let x := leNat b
  let g := fun o n => bits x (8 * o) (8 * n)
  { img := BitVec.ofNat 512 (x - g 0x25 1 * 2 ^ 296), pos0 := BitVec.ofNat 32 (g 0x40 4), pos1 := BitVec.ofNat 32 (g 0x44 4), pos2 := BitVec.ofNat 32 (g 0x48 4),
    lygen := BitVec.ofNat 16 (g 0x4E 2), lyent := BitVec.ofNat 4 (g 0x51 1), checked := (g 0x52 1).testBit 1, valid := (g 0x52 1).testBit 0 }
/-- R18. -/
def Ring.bytes (r : Ring) : List (BitVec 8) :=
  natLe 1 (b2n r.wmem * 2 + b2n r.valid) ++ natLe 1 0 ++ natLe 1 r.first.toNat ++ natLe 1 r.count.toNat ++ natLe 2 r.head.toNat ++ natLe 2 r.tail.toNat ++ natLe 8 0
def Ring.ofBytes (b : List (BitVec 8)) : Ring :=
  let x := leNat b
  let g := fun o n => bits x (8 * o) (8 * n)
  { valid := (g 0 1).testBit 0, wmem := (g 0 1).testBit 1, first := BitVec.ofNat 7 (g 2 1), count := BitVec.ofNat 8 (g 3 1), head := BitVec.ofNat 16 (g 4 2), tail := BitVec.ofNat 16 (g 6 2) }
/-- R19. -/
def Cursor.bytes (c : Cursor) : List (BitVec 8) :=
  natLe 8 c.region.toNat ++ natLe 4 (b2n c.valid) ++ natLe 4 c.cap.toNat ++ natLe 4 c.clen.toNat ++ natLe 4 c.tlen.toNat ++ natLe 8 0
def Cursor.ofBytes (b : List (BitVec 8)) : Cursor :=
  let x := leNat b
  let g := fun o n => bits x (8 * o) (8 * n)
  { valid := (g 8 1).testBit 0, region := BitVec.ofNat 56 (g 0 8), cap := BitVec.ofNat 32 (g 0xC 4), clen := BitVec.ofNat 32 (g 0x10 4), tlen := BitVec.ofNat 32 (g 0x14 4) }
/-- Granules of a register, 512 bytes each (R192). -/
def MBody.granBytes (b : MBody) : List (List (BitVec 8)) :=
  match b with
  | .empty => []
  | .dense rows => (List.range 32).map fun g => natLe 256 (rows.getD (2 * g) 0).toNat ++ natLe 256 (rows.getD (2 * g + 1) 0).toNat
  | .factored u v => List.zipWith (fun a b => natLe 256 a.toNat ++ natLe 256 b.toNat) u v
/-- Granules that a header names (R15). -/
def headerGran (h : Nat) : Nat :=
  match h % 4 with
  | 1 => 32
  | 2 => bits h 2 6 + 1
  | _ => 0
/-- The header is one that a restore refuses (R422). -/
def headerBad (h : Nat) : Bool := bits h 8 7 == 0 || decide (64 < bits h 8 7) || h % 4 == 3
/-- A register from its header and its granules. -/
def MReg.ofSaved (h : Nat) (g : List (List (BitVec 8))) : MReg :=
  let half := fun (k : Nat) (x : List (BitVec 8)) => BitVec.ofNat 2048 (leNat ((x.drop (256 * k)).take 256))
  { ad := h.testBit 15, limit := BitVec.ofNat 7 (bits h 8 7),
    body := match h % 4 with
      | 1 => .dense (g.flatMap fun x => [half 0 x, half 1 x])
      | 2 => .factored (g.map (half 0)) (g.map (half 1))
      | _ => .empty }
/-- The fixed block (R335). -/
def fixedBytes (c : Ctx) (rep : Nat) (w : Option Wait) : List (BitVec 8) :=
  let k := c.ctl
  let regs : List Nat := [k.spbound.toNat, k.tol.toNat, b2n k.tolmode, k.park.word.toNat, k.vflags.toNat, k.qkey0.toNat, k.qkey1.toNat, k.qctrlo.toNat, k.qctrhi.toNat, k.traprec.toNat]
  natLe 8 c.p.toNat ++ (c.k.toList.drop 1).flatMap (fun x => natLe 16 x.toNat) ++ c.stand.toList.flatMap (fun x => natLe 4 x.toNat) ++ natLe 1 0 ++ natLe 1 rep
    ++ natLe 1 (b2n w.isSome * 2 + b2n (decide (rep ≠ 0))) ++ natLe 1 0 ++ natLe 4 (match w with
      | some w => w.rem
      | none => 0) ++ natLe 4 0 ++ regs.flatMap (natLe 8) ++ natLe 16 0

/-! The save. -/

/-- Pieces of stage 1, in order: offset and bytes. -/
def stage1 (c : Ctx) (m : Mask) : List (Nat × List (BitVec 8)) :=
  ((m.banks c.ctl.park).map fun b => (0x80000 + 32768 * b, (List.range 128).flatMap fun i => natLe 256 (fget 0 c.acc (128 * b + i)).toNat))
    ++ [(0x2100, c.m.toList.flatMap fun r => natLe 8 r.header)]
    ++ (List.zipIdx (c.m.toList.flatMap fun r => r.body.granBytes)).map fun p => (0x2180 + 512 * p.2, p.1)
/-- Pieces of stage 2. -/
def stage2 (c : Ctx) (m : Mask) (rep : Nat) (w : Option Wait) : List (Nat × List (BitVec 8)) :=
  [(0, fixedBytes c rep w), (0x100, m.bytes)]
    ++ (picks m.latch 4).map (fun i => (0x120 + 32 * i, natLe 32 (c.q.toList.getD i 0).toNat))
    ++ (picks m.rings 8).map (fun i => (0x1A0 + 16 * i, (c.h.toList.getD i Ring.reset).bytes))
    ++ (picks m.curs 8).map (fun i => (0x220 + 32 * i, (c.sq.toList.getD i Cursor.reset).bytes))
    ++ ((picks m.sregs 32).filter (· ≠ 0)).map (fun i => (0x320 + 8 * (i - 1), natLe 8 (c.s.toList.getD i 0).toNat))
    ++ (picks m.streams 32).map (fun i => (0x420 + 96 * i, (c.st.toList.getD i Stream.reset).bytes))
    ++ (m.vecs c.ctl.park).map (fun i => (0x1100 + 128 * i, natLe 128 (c.v.toList.getD i 0).toNat))
/-- Bytes of a stage. -/
def stageSize (l : List (Nat × List (BitVec 8))) : Nat := (l.map fun p => p.2.length).sum
/-- Cycles of a save or a restore. -/
def saveCycles (c : Ctx) (m : Mask) (rep : Nat) (w : Option Wait) : Nat := ceilDiv (stageSize (stage1 c m)) 256 + ceilDiv (stageSize (stage2 c m rep w)) 128 + 24
/-- Write pieces in order; a failure stops the save, with the fault and the address. -/
def State.writePieces (s : State) (asid base : Nat) : List (Nat × List (BitVec 8)) → State × Option (Nat × Nat)
  | [] => (s, none)
  | (o, b) :: r =>
    match s.wrVirt s.die asid (base + o) b with
    | (s', none) => s'.writePieces asid base r
    | (s', some e) => (s', some e)
/-- Address of a save slot (R325, R426). -/
def slotAddr (s : State) (jcb k : Nat) : Nat := jcbSavebase s jcb + 2 ^ 20 * k

/-! The restore. -/

/-- The 8-byte words of a slot that say which items there are, whatever errors they hold: those are met as the items are read (log entry 104). -/
def State.slotLook (s : State) (asid va : Nat) : Nat → Except (Nat × Nat) (List (BitVec 8))
  | 0 => .ok []
  | n + 1 =>
    match s.reachable s.die asid va .read, s.slotLook asid (va + 8) n with
    | .error c, _ => .error (c, va)
    | _, .error e => .error e
    | .ok pa, .ok r => .ok (s.rdBytes pa 8 ++ r)
/-- One item of a slot; where it cannot be read, the address of its first word that fails (R425). -/
def State.slotItem (s : State) (asid va n : Nat) : Except (Nat × Nat) (List (BitVec 8)) :=
  match s.rdVirt s.die asid va n with
  | .ok b => .ok b
  | .error (c, a) => .error (c, (((List.range (n / 8)).map fun i => va + 8 * i).find? fun w => (s.readable s.die asid w 8).toOption.isNone).getD a)
/-- Items of a slot, by offset and length, read in the order given. -/
def State.slotItems (s : State) (asid base : Nat) : List (Nat × Nat) → Except (Nat × Nat) (List (Nat × List (BitVec 8)))
  | [] => .ok []
  | (o, n) :: r =>
    match s.slotItem asid (base + o) n, s.slotItems asid base r with
    | .error e, _ => .error e
    | _, .error e => .error e
    | .ok b, .ok l => .ok ((o, b) :: l)
/-- The items that a restore reads, in the reverse of the order in which a save writes them (R335, R336): those its mask names, the granules and headers, the banks. -/
def slotOrder (m : Mask) (p : ParkMap) (grans : Nat) : List (Nat × Nat) :=
  ([(0x2100, 128)] ++ (List.range grans).map (fun i => (0x2180 + 512 * i, 512))).reverse
    |> fun g => ([(0, 256), (0x100, 32)] ++ (picks m.latch 4).map (fun i => (0x120 + 32 * i, 32)) ++ (picks m.rings 8).map (fun i => (0x1A0 + 16 * i, 16))
        ++ (picks m.curs 8).map (fun i => (0x220 + 32 * i, 32)) ++ ((picks m.sregs 32).filter (· ≠ 0)).map (fun i => (0x320 + 8 * (i - 1), 8))
        ++ (picks m.streams 32).map (fun i => (0x420 + 96 * i, 96)) ++ (m.vecs p).map (fun i => (0x1100 + 128 * i, 128))).reverse
      ++ g ++ ((m.banks p).map fun b => (0x80000 + 32768 * b, 32768)).reverse
/-- The matrix registers that headers and granules make. -/
def mregsOfSaved (hs : List Nat) (grans : List (List (BitVec 8))) : List MReg :=
  (hs.foldl (fun (acc : List MReg × List (List (BitVec 8))) h => (acc.1 ++ [MReg.ofSaved h (acc.2.take (headerGran h))], acc.2.drop (headerGran h))) ([], grans)).1
/-- What a restore loads (R336, R40): the context, the repetition, the wait's remaining cycles, the header fault if any, the errors of parked rows. -/
structure Restored where
  ctx : Ctx
  rep : Nat
  waits : Option Nat
  bad : Option Trap
  flaws : List Trap
  cycles : Nat
/-- A vector from a list, the default where the list ends. -/
def vecOf {α : Type} (n : Nat) (d : α) (l : List α) : Vector α n := Vector.ofFn fun i : Fin n => l.getD i.val d
/-- PARKMAP of a fixed block. -/
def parkOfFixed (b : List (BitVec 8)) : ParkMap :=
  let pw := leNat ((b.drop 0xB8).take 8)
  { amem := pw.testBit 61, base := BitVec.ofNat 13 (bits pw 48 13), rows := BitVec.ofNat 16 (bits pw 32 16), regs := BitVec.ofNat 32 pw }
/-- Control registers of a fixed block (R335). -/
def ctlOfFixed (b : List (BitVec 8)) : Ctl :=
  let g := fun o => leNat ((b.drop (0xA0 + 8 * o)).take 8)
  { Ctl.reset with
    spbound := BitVec.ofNat 16 (g 0), tol := BitVec.ofNat 32 (g 1), tolmode := (g 2).testBit 0, park := parkOfFixed b, vflags := BitVec.ofNat 6 (g 4), qkey0 := BitVec.ofNat 32 (g 5),
    qkey1 := BitVec.ofNat 32 (g 6), qctrlo := BitVec.ofNat 64 (g 7), qctrhi := BitVec.ofNat 64 (g 8), traprec := BitVec.ofNat 64 (g 9) }
/-- The context of the items of a slot: what the mask does not name has its reset value; a register parked in AMEM is read there, and one whose row holds an error keeps its reset value. -/
def State.slotCtx (s : State) (m : Mask) (hs : List Nat) (got : List (Nat × List (BitVec 8))) : Ctx :=
  let at_ := fun (o : Nat) => (got.find? fun p => p.1 == o).elim [] Prod.snd
  let fb := at_ 0
  let park := parkOfFixed fb
  let num := fun (mask i o : Nat) => if mask.testBit i then leNat (at_ o) else 0
  let bank := fun (a : FMap (BitVec 2048)) (b : Nat) => (List.range 128).foldl (fun a i => fput 0 (128 * b + i) (BitVec.ofNat 2048 (leNat (((at_ (0x80000 + 32768 * b)).drop (256 * i)).take 256))) a) a
  let acc := (m.banks park).foldl bank []
  let parked := fun (i : Nat) =>
    let row := park.base.toNat + i / 2
    if park.amem then (if (s.core.padFlaw false false (256 * row + 128 * (i % 2)) 128).isSome then 0 else (s.arow false row).toNat / 2 ^ (1024 * (i % 2)))
    else (fget 0 acc row).toNat / 2 ^ (1024 * (i % 2))
  { Ctx.reset with
    s := vecOf 32 0 (0 :: (List.range 31).map fun i => BitVec.ofNat 64 (num m.sregs (i + 1) (0x320 + 8 * i))),
    p := BitVec.ofNat 16 (leNat (fb.take 8)) ||| 1,
    v := vecOf 32 0 ((List.range 32).map fun i => BitVec.ofNat 1024 (if park.regs.getLsbD i then parked i else num m.vregs i (0x1100 + 128 * i))),
    k := vecOf 8 0 (BitVec.allOnes 128 :: (List.range 7).map fun i => BitVec.ofNat 128 (leNat ((fb.drop (8 + 16 * i)).take 16))),
    st := vecOf 32 Stream.reset ((List.range 32).map fun i => if m.streams.testBit i then Stream.ofBytes (at_ (0x420 + 96 * i)) else Stream.reset),
    m := vecOf 16 MReg.reset (mregsOfSaved hs ((List.range (hs.map headerGran).sum).map fun i => at_ (0x2180 + 512 * i))),
    q := vecOf 4 0 ((List.range 4).map fun i => BitVec.ofNat 256 (num m.latch i (0x120 + 32 * i))),
    h := vecOf 8 Ring.reset ((List.range 8).map fun i => if m.rings.testBit i then Ring.ofBytes (at_ (0x1A0 + 16 * i)) else Ring.reset),
    sq := vecOf 8 Cursor.reset ((List.range 8).map fun i => if m.curs.testBit i then Cursor.ofBytes (at_ (0x220 + 32 * i)) else Cursor.reset),
    acc := acc, stand := vecOf 7 0 ((List.range 7).map fun i => BitVec.ofNat 32 (leNat ((fb.drop (0x78 + 4 * i)).take 4))), ctl := ctlOfFixed fb }
/-- The errors of the AMEM rows that hold parked registers (R352). -/
def State.parkFlaws (s : State) (p : ParkMap) : List Trap :=
  if p.amem then (picks p.regs.toNat 32).filterMap fun i => s.core.padFlaw false false (256 * (p.base.toNat + i / 2) + 128 * (i % 2)) 128 else []
/-- Restore a slot on the focused core (R336): item by item, those the mask names; the first that cannot be read ends it. -/
def State.restoreSlot (s : State) (asid base : Nat) : Except (Nat × Nat) Restored :=
  match s.slotLook asid (base + 0x100) 4, s.slotLook asid base 32, s.slotLook asid (base + 0x2100) 16 with
  | .error e, _, _ => .error e
  | _, .error e, _ => .error e
  | _, _, .error e => .error e
  | .ok mb, .ok fb, .ok hb =>
    let m := Mask.ofBytes mb
    let park := parkOfFixed fb
    let hs := (List.range 16).map fun i => leNat ((hb.drop (8 * i)).take 8)
    match s.slotItems asid base (slotOrder m park (hs.map headerGran).sum) with
    | .error e => .error e
    | .ok got =>
      let ctx := s.slotCtx m hs got
      let flags := leNat ((fb.drop 0x96).take 1)
      .ok { ctx := ctx, rep := if flags.testBit 0 then leNat ((fb.drop 0x95).take 1) % 64 else 0, waits := if flags.testBit 1 then some (leNat ((fb.drop 0x98).take 4)) else none,
            bad := ((List.zipIdx hs).find? fun p => headerBad p.1).map fun p => accessFault 0x04 (base + 0x2100 + 8 * p.2) p.2, flaws := s.parkFlaws park, cycles := saveCycles ctx m 0 none }

end Sys2Proof.Machine
end

