-- ==== Sys2Proof/Machine/Translate.lean ====
section
/-! DEFINITION. The translation of a core's accesses: core translation cache, translation unit, miss table, walks, invalidation (R271, R289 to R294). -/

namespace Sys2Proof.Machine

/-! Translation by a core. -/

/-- What a translation gives: the physical address, the cycles of R292 and NC; a wait; a fault kind. -/
inductive Xlated where
  | done (pa lat : Nat) (nc : Bool)
  | wait
  | fault (kind : Nat)
deriving DecidableEq, Repr

/-- Cycles of R292: an L1 hit, a core translation cache hit, a translation unit hit or an ended walk, each entry read. -/
def latL1 : Nat := 6
def latTc : Nat := 36
def latTu : Nat := 54
def latRead : Nat := 32
def State.judged (s : State) (entry level va : Nat) (k : Acc) (lat : Nat) : Xlated :=
  match s.leafPa entry level va k with
  | .ok pa => .done pa lat (ptNC entry)
  | .error c => .fault c
/-- The leaf enters the focused core's translation cache. -/
def State.fillTc (s : State) (x : Leaf) : State := s.onCore fun c => { c with tc := keepLast Config.coreTcSize (c.tc ++ [x]) }
def regionOf (va : Nat) : Nat := va % 2 ^ 56 / 2 ^ 16
/-- The walk of a region that is in the miss table or has just ended. -/
def State.missOf (s : State) (die asid va : Nat) : Option Miss := s.xl.miss.find? fun m => m.die == die && m.asid == asid && m.region == regionOf va
/-- Translate by a die's translation unit (R290, R291): a miss takes or joins a walk and waits. With it the leaf that a core may cache. -/
def State.tuXlate (s : State) (die asid va : Nat) (k : Acc) : State × Xlated × Option Leaf :=
  let va := va % 2 ^ 56
  match leafHit s.xl.leaf die asid va with
  | some x => (s, s.judged x.entry.toNat x.level va k latTu, some x)
  | none =>
    match s.missOf die asid va with
    | some m =>
      (match m.ended with
        | none => (s, .wait, none)
        | some (.error c) => (s, .fault c, none)
        | some (.ok (e, l)) =>
          let x : Leaf := { die := die, asid := asid, page := va / pageSize l * pageSize l, level := l, entry := BitVec.ofNat 64 e }
          (s, s.judged e l va k latTu, if m.stale then none else some x))
    | none =>
      if (s.xl.miss.filter fun m => m.die == die).length < Config.missTableSize then
        (s.onXl fun x => { x with miss := x.miss ++ [{ die := die, asid := asid, region := regionOf va, started := s.now, due := 0, stale := false, got := [], asked := none, timed := 0, ended := none }] }, .wait, none)
      else (s, .wait, none)
/-- Translate an access of the focused core: its own cache first. -/
def State.coreXlate (s : State) (asid va : Nat) (k : Acc) : State × Xlated :=
  match leafHit s.core.tc s.die asid (va % 2 ^ 56) with
  | some x => (s, s.judged x.entry.toNat x.level (va % 2 ^ 56) k latTc)
  | none =>
    match s.tuXlate s.die asid va k with
    | (s, r, some x) => (s.fillTc x, r)
    | (s, r, none) => (s, r)
/-- The translation unit can answer for an address now: it caches the page, or a walk of it has just ended. -/
def State.tuReady (s : State) (die asid va : Nat) : Bool :=
  (leafHit s.xl.leaf die asid (va % 2 ^ 56)).isSome || (match s.missOf die asid va with
    | some m => m.ended.isSome
    | none => false)
/-- Translate by what a core has at hand: its own cache, its die's translation unit, a walk that has just ended; else by a walk at once (log entry 10). -/
def State.xlateNow (s : State) (asid va : Nat) (k : Acc) : Except Nat Nat :=
  match leafHit s.core.tc s.die asid (va % 2 ^ 56) with
  | some x => s.leafPa x.entry.toNat x.level (va % 2 ^ 56) k
  | none =>
    match leafHit s.xl.leaf s.die asid (va % 2 ^ 56), (s.missOf s.die asid va).bind Miss.ended with
    | none, some (.error c) => .error c
    | none, some (.ok (e, l)) => s.leafPa e l (va % 2 ^ 56) k
    | _, _ => s.xlate s.die asid va k
/-- The 64 KiB regions that n bytes touch. -/
def regionsOf (va n : Nat) : List Nat := if n = 0 then [] else (List.range ((va % 2 ^ 16 + n - 1) / 2 ^ 16 + 1)).map fun i => (va / 2 ^ 16 + i) * 2 ^ 16

/-! Pieces of an access of many bytes. -/

/-- Bytes of data in a flit (R374). -/
def flitData : Nat := 192
/-- The next piece of some ranges from a position on: its address and length, within a page and a flit. -/
def nextPiece : List (Nat × Nat) → Nat → Option (Nat × Nat)
  | [], _ => none
  | (va, n) :: r, p =>
    if p < n then
      (let a := (va + p) % 2 ^ 56
       some (a, Nat.min (n - p) (Nat.min (flitData - a % 64) (2 ^ 16 - a % 2 ^ 16))))
    else nextPiece r (p - n)
def rangesLen (rs : List (Nat × Nat)) : Nat := (rs.map Prod.snd).sum

/-! Walks. -/

/-- The walk of a miss as far as it can go: a table homed elsewhere is read over the fabric (R289, R376). -/
def State.missWalk (s : State) (m : Miss) : Walk :=
  let got := fun (pa : Nat) => (m.got.find? fun g => g.1 == pa).map Prod.snd
  s.walkWith (fun pa => if paDie pa = m.die then s.rd pa 8 else ((got pa).getD none).getD 0)
    (fun pa => if paDie pa = m.die then s.tableBad m.die pa
      else match got pa with
        | some (some _) => none
        | some none => some xfWalk
        | none => (s.tableBad m.die pa).orElse fun _ => some (xfNeed pa)) m.die m.asid (m.region * 2 ^ 16)
/-- Walk engines start walks in the order of their entries, and go on with those whose read has come: 32 cycles for each entry read (R292). -/
def State.startWalks (s : State) (die : Nat) : State :=
  let flying := (s.xl.miss.filter fun m => m.die == die && m.ended.isNone).take Config.walkEngines
  let start := fun (m : Miss) => if (flying.contains m && m.due == 0 && m.asked.isNone) = true then
      (let n := (s.missWalk m).reads.length
       { m with due := Nat.max 1 (s.now + latRead * (n - m.timed) - 1), timed := n })
    else m
  s.onXl fun x => { x with miss := x.miss.map start }
def State.onMiss (s : State) (m : Miss) (f : Miss → Miss) : State := s.onXl fun x => { x with miss := x.miss.map fun y => if y = m then f y else y }
/-- End one walk: what it read is cached unless an invalidation covers it. One that has come to a table homed elsewhere asks for the entry. -/
def State.endWalk (s : State) (m : Miss) : State :=
  let w := s.missWalk m
  let finish := fun (_ : Unit) => (if m.stale then s else s.cacheWalk m.die m.asid (m.region * 2 ^ 16) w).onMiss m fun y => { y with ended := some w.res }
  match w.res with
  | .error c =>
    let pa := c / 2 ^ 16
    if c = xfNeed pa then
      if reqFull s m.die (paDie pa) then s
      else
        match s.sendReq m.die (paDie pa) 0 (m.region * 2 ^ 16) false (.read pa 8) (.walk m.die m.asid m.region) with
        | (s, true) => s.onMiss m fun y => { y with due := 0, asked := some pa }
        | (s, false) => s.onMiss m fun y => { y with due := 0, got := y.got ++ [(pa, none)] }
    else finish ()
  | .ok _ => finish ()
/-- A table entry asked for has come, or its read has failed. -/
def State.walkGets (s : State) (die asid region : Nat) (v : Option Nat) : State :=
  s.onXl fun x => { x with miss := x.miss.map fun m =>
    match m.asked with
    | some pa => if (m.die == die && m.asid == asid && m.region == region && m.ended.isNone) = true then { m with asked := none, got := m.got ++ [(pa, v)] } else m
    | none => m }
/-- TRANSLATION_WALK (R289, R291): the walks that ended in an earlier cycle leave their miss tables, waiting ones start, those that are due end. -/
def execTranslationWalk (s : State) : Out :=
  let s := s.onXl fun x => { x with miss := x.miss.filter fun m => m.ended.isNone }
  let s := (s.xl.miss.map Miss.die).dedup.foldl State.startWalks s
  .next ((s.xl.miss.filter fun m => m.due != 0 && decide (m.due ≤ s.now)).foldl State.endWalk s)

/-! Invalidation (R271, R293). -/

/-- An invalidation covers a cached item: kind 0 everything, 1 an ASID, 2 a page of it at every size; every root and non-leaf entry of the ASID goes too. -/
def invCovers (kind asid a : Nat) (inPage : Bool) : Bool := kind == 0 || (a == asid && (kind == 1 || inPage))
def Leaf.covered (x : Leaf) (kind asid va : Nat) : Bool := invCovers kind asid x.asid (decide (x.page = va / pageSize x.level * pageSize x.level))
/-- The walk's region lies in a page of some size that holds the address: the walk's own page is judged when its leaf is known, so every size is taken. -/
def Miss.covered (m : Miss) (kind asid va : Nat) : Bool := invCovers kind asid m.asid (decide (m.region * 2 ^ 16 / 2 ^ 30 = va / 2 ^ 30))
/-- Mark the walks in flight that an invalidation covers. -/
def State.staleWalks (s : State) (die kind asid va : Nat) : State :=
  s.onXl fun x => { x with miss := x.miss.map fun m => if (m.die == die && m.covered kind asid va) = true then { m with stale := true } else m }
/-- Discard cached translations of a die: its translation unit and its cores. -/
def State.invalidate (s : State) (die kind asid va : Nat) : State :=
  let s := s.onXl fun x => { x with leaf := x.leaf.filter (fun l => l.die != die || !l.covered kind asid va), node := x.node.filter fun n => n.die != die || !(kind == 0 || n.asid == asid) }
  (s.coreIds.filter fun c => dieOf c = die).foldl (fun s c => s.onCoreAt c fun k => { k with tc := k.tc.filter fun l => !l.covered kind asid va }) s
/-- The queue entry of a `tlbinv` in progress. -/
def State.invEntry (s : State) (id : Nat) : Option QEnt :=
  (s.coreIds.filterMap fun c => (s.coreAt c).loadQ.find? fun e => e.id == id).head?
/-- The invalidations that can complete: every walk of the die taken before them has ended. -/
def State.invReady (s : State) : List (Nat × Nat × Nat) :=
  s.xl.inval.filter fun v => !(s.xl.miss.any fun m => m.die == v.1 && m.ended.isNone && decide (m.started ≤ v.2.2))
/-- Complete one invalidation. -/
def State.finishInv (s : State) (v : Nat × Nat × Nat) : State :=
  let s := s.onXl fun x => { x with inval := x.inval.filter (· ≠ v) }
  match s.invEntry v.2.1 with
  | some e =>
    (match e.i with
      | .tlbinv k _ _ =>
        let asid := e.args.getD 0 0
        let va := e.args.getD 1 0
        (s.staleWalks v.1 k.toNat asid va).invalidate v.1 k.toNat asid va
      | _ => s)
  | none => s
/-- TLBINV_COMPLETION (R293). -/
def execTlbinvCompletion (s : State) : Out := .next (s.invReady.foldl State.finishInv s)

end Sys2Proof.Machine
end

