-- ==== Sys2Proof/Machine/Issue.lean ====
section
/-! DEFINITION. The issue of bundles: fetch (R282, R423), the bundle boundary and its traps (R87, R342), safe points (R88, R332 to R334), decode-time checks (R85, R86, R416), held waits (R231, R232), the end of a slice and its save. -/

namespace Sys2Proof.Machine

/-! Fetch. -/

/-- The 64-byte line of code that holds an address: from the instruction cache, else from memory with execute permission (R282). A failed fetch is an ACCESS_FAULT at the address (R295), one of a fabric window or an unreachable home a FABRIC_REMOTE_FAULT (R387; log entry 42), one of a line with an uncorrectable error a MACHINE_CHECK, or its remote form (R352, R381). -/
def State.fetchLine (s : State) (va : Nat) : Except Trap (BitVec 512) :=
  let asid := s.ctl.asid.toNat
  match lineHit s.core.l1i asid va with
  | some l => .ok l.data
  | none =>
    match s.xlateNow asid (va / 64 * 64) .fetch with
    | .error c => .error (accessFault c va 0)
    | .ok pa =>
      match s.homeBad s.die pa with
      | some c => .error (reachTrap c va 0)
      | none => if s.flawed pa 64 then .error (reachTrap (xfFlawAt s.die (paDie pa)) va 0) else .ok (BitVec.ofNat 512 (leNat (s.rdBytes pa 64)))
def State.fetchWord (s : State) (va : Nat) : Except Trap (BitVec 32) :=
  match s.fetchLine va with
  | .error t => .error t
  | .ok l => .ok (l.extractLsb' (8 * (va % 64)) 32)
def State.fetchN (s : State) (va : Nat) : Nat → Except Trap (List (BitVec 32))
  | 0 => .ok []
  | n + 1 =>
    match s.fetchWord va with
    | .error t => .error t
    | .ok w =>
      match s.fetchN ((va + 4) % 2 ^ 56) n with
      | .error t => .error t
      | .ok r => .ok (w :: r)
/-- The words of the next bundle: the head gives the length (R69). -/
def State.nextWords (s : State) : Except Trap (List (BitVec 32)) :=
  match s.fetchWord s.core.ctx.pc.toNat with
  | .error t => .error t
  | .ok h => s.fetchN s.core.ctx.pc.toNat (bundleLen h.toNat)
/-- The head word of the next bundle, 0 where it cannot be fetched. -/
def State.nextHead (s : State) : Nat :=
  match s.fetchWord s.core.ctx.pc.toNat with
  | .error _ => 0
  | .ok h => h.toNat
/-- Pages that the next boundary reads by translation: those of the bundle's lines that the instruction cache does not hold, and that of its bitmap byte. -/
def State.codePages (s : State) : List Nat :=
  let pc := s.core.ctx.pc.toNat
  let asid := s.ctl.asid.toNat
  let k := s.selfKdesc
  let miss := fun (va : Nat) => (lineHit s.core.l1i asid va).isNone
  let last := (pc + 4 * (bundleLen s.nextHead - 1)) % 2 ^ 56
  (k.bmap + (pc - k.code) / 4 / 8) % 2 ^ 56 :: (if miss pc then [pc] else if miss last then [last] else [])
/-- The fetch waits for a walk of one of those pages: it takes or joins an entry of the miss table, and the boundary is judged again in the next cycle (R290, R291). -/
def State.fetchGate (s : State) : State :=
  if s.core.mode ≠ .run ∨ s.now < s.core.issueAt ∨ (s.core.rep ≠ 0 ∧ !s.core.words.isEmpty) then s
  else
    let asid := s.ctl.asid.toNat
    let cold := s.codePages.filter fun va => (leafHit s.core.tc s.die asid (va % 2 ^ 56)).isNone && !s.tuReady s.die asid va
    if cold.isEmpty then s
    else (cold.foldl (fun s va => (s.tuXlate s.die asid va .fetch).1) s).onCore fun c => { c with issueAt := s.now + 1 }
/-- The lines of a fetched bundle enter the instruction cache. -/
def State.fillCode (s : State) (n : Nat) : State :=
  let pc := s.core.ctx.pc.toNat
  [pc, (pc + 4 * (n - 1)) % 2 ^ 56].foldl (fun s va =>
    match lineHit s.core.l1i s.ctl.asid.toNat va, s.fetchLine va with
    | none, .ok d => s.onCore fun c => { c with l1i := lineFill c.l1i s.ctl.asid.toNat va d }
    | _, _ => s) s

/-! The boundary. -/

/-- BUNDLE_ALIGN of the address just reached (R87); the bundle that led there is named. -/
def State.alignTrap (s : State) : Option Trap :=
  let k := s.selfKdesc
  let pc := s.core.ctx.pc.toNat
  let bad : Option Trap := some { cause := cAlign, pc := s.core.lastPc.toNat, addr := pc }
  if pc < k.code ∨ (pc - k.code) % 4 ≠ 0 ∨ k.clen ≤ (pc - k.code) / 4 then bad
  else
    let w := (pc - k.code) / 4
    match s.rdV s.die s.ctl.asid.toNat ((k.bmap + w / 8) % 2 ^ 56) 1 with
    | .error (c, va) => some { reachTrap c va 0 with pc := pc }
    | .ok b =>
      if !b.testBit (w % 8) then bad
      else
        match s.fetchWord pc with
        | .error _ => none
        | .ok h => if k.clen < w + bundleLen h.toNat then bad else none
/-- Traps of the first boundary of a resumption: an edited header, then MRF_FULL (R36, R422). -/
def State.fixupTrap (s : State) : Option Trap :=
  match s.self.bind Cont.fixups with
  | none => none
  | some bad => orTrap bad (if s.core.mrfCap < s.mrfOcc then some { cause := cMrf, info0 := s.mrfOcc + s.core.mrfCap * 2 ^ 16, info1 := s.mrfOcc, resumable := true } else none)
/-- The earliest pending Report; MRF_FULL of a landing names the bundle before which it is taken (R346). -/
def State.reportTrap (s : State) : Option Trap :=
  s.self.bind fun c => c.reports.head?.map fun t => if t.report then t else { t with pc := s.core.ctx.pc.toNat }
/-- The continuation stands at a bundle boundary: held there, or about to issue. -/
def State.atBoundary (s : State) : Bool :=
  match s.core.mode with
  | .run => decide (s.core.issueAt ≤ s.now) && (decide (s.core.rep = 0) || ((s.self.bind Cont.fixups).isSome))
  | .held _ => true
  | _ => false
/-- Items 1 to 3 of R342; the bitmap is read at every boundary a bundle ends at and after every resumption (R87). -/
def State.boundaryTrap (s : State) : Option Trap :=
  let pc := s.core.ctx.pc.toNat
  firstTrap [if s.core.rep = 0 || (s.self.bind Cont.fixups).isSome then s.alignTrap else none, s.reportTrap, s.fixupTrap.map fun t => { t with pc := pc }]
/-- The next bundle carries SAFE. -/
def State.nextSafe (s : State) : Bool := s.nextHead.testBit 8
/-- Every result has landed and every load is back (R88). -/
def State.drained (s : State) : Bool := s.core.pend.isEmpty && s.loadsLanded
/-- Take a trap at the boundary: a Report leaves the pending list, a held wait is kept for the resumption (R231, R341). A save that follows is made by the mask of the SAFE bundle that stands there, where its wait is over or a wait is held before it (R348). -/
def State.takeBoundary (s : State) (t : Trap) : State :=
  let key := s.selfKey
  let s := if s.reportTrap == some t then s.onCont key fun c => { c with reports := c.reports.drop 1 } else s
  let s := match s.core.mode with
    | .held w => s.onCont key fun c => { c with held := some w }
    | _ => s
  let waited := match s.core.mode with
    | .held _ => true
    | _ => s.drained
  let safe := s.nextSafe && s.core.rep == 0 && waited
  (s.onIss fun i => { i with safe := safe }).takeTrap t

/-! Safe points. -/

/-- The wait of R88 is over. -/
def State.waitOver (s : State) : Bool := !(s.nextSafe || s.nextHead.testBit 9) || s.drained
/-- The continuation is at a safe point: before a SAFE bundle whose wait is over, or held before one; nothing earlier in R342 holds. -/
def State.atSafePoint (s : State) : Bool :=
  s.atBoundary && s.nextSafe && s.boundaryTrap.isNone && decide (s.core.rep = 0) &&
    (match s.core.mode with
      | .run => s.drained && decide (s.core.spCount ≤ s.ctl.spbound.toNat)
      | _ => true)
/-- The mark that asks the continuation to leave at its next safe point (R332, R410). -/
def State.marked (s : State) : Option Nat := s.self.bind Cont.mark
/-- Leave the core: a held wait keeps the cycles that remain. -/
def State.leave (s : State) (why : Nat) (atSafe : Bool) : State :=
  let s := match s.core.mode with
    | .held w => s.onCont s.selfKey fun c => { c with held := some w }
    | _ => s
  (s.onIss fun i => { i with safe := atSafe }).setMode (.stopping why)
/-- Marks above this value belong to checkpoints, above the next to gangs. -/
def markCkpt : Nat := 2 ^ 60
def markGang : Nat := 2 ^ 61
/-- BUDGET_EXHAUSTED (R22, R334): at a safe point with BUDGET at zero. -/
def execBudgetExhausted (s : State) : Out :=
  .next (if s.atSafePoint && s.ctl.budget == 0 then
      let t : Trap := { cause := cBudget, pc := s.core.ctx.pc.toNat, resumable := true }
      (s.takeBoundary t).onIss fun i => { i with safe := true }
    else s)
/-- The dispatcher pre-empts a marked continuation at its safe point (R332); the side table must answer (R90). -/
def execSafePoint (s : State) : Out :=
  .next (if s.atSafePoint && s.ctl.budget != 0 then
      match s.marked with
      | none => s
      | some m =>
        let pc := s.core.ctx.pc.toNat
        match s.sideMask with
        | .error (c, va) => s.takeBoundary { accessFault (xfSub c) va 0 with pc := pc }
        | .ok none => s.takeBoundary { cause := cSide, addr := s.pcOffset, pc := pc }
        | .ok (some _) => s.leave (if markCkpt ≤ m ∧ m < markGang then whyCkpt else whyPreempt) true
    else s)

/-! The repetition that would issue. -/

/-- Sticky classes: LS vector forms, V, RD, MX, AP (R72). -/
def stickyIdx (slot : Nat) : Option Nat := if 2 ≤ slot ∧ slot ≤ 8 then some (slot - 2) else none
/-- An LS form that becomes the standing operation. -/
def lsSticky (i : Instr) : Bool :=
  match i with
  | .vld _ | .vst _ | .vldb _ | .vpf _ | .vscat _ | .vscadd _ | .vscmax _ | .vredst _ => true
  | _ => false
/-- Standing word that an issue leaves in a sticky slot (R76). -/
def standWord (slot : Nat) (i : Instr) : Nat := if slot = 2 ∧ !lsSticky i then 0 else encodeWord i
/-- Slots whose standing operations re-issue, with their words: those not mentioned, and in later repetitions every sticky slot. -/
def State.standing (s : State) (mentioned : List Nat) : List (Nat × Nat) :=
  (List.range 7).filterMap fun j =>
    let w := (s.core.ctx.stand.toList.getD j 0).toNat
    if w = 0 || mentioned.contains (j + 2) then none else some (j + 2, w)
/-- Standing words that fail decode, with their subcodes: at fault at their own slot (R416). -/
def standErrors (l : List (Nat × Nat)) : List (Nat × Option Nat) :=
  l.filterMap fun p => match decodeSlot (slotCls p.1) p.2 [] with
    | .ok _ => none
    | .error .opcode => some (subOpcode, some p.1)
    | .error .reserved => some (subReserved, some p.1)
/-- The repetition: its decode error, or the operations that issue in order (the tree first, as slot 10) with the outcome. -/
structure Plan where
  bundle : Bundle
  outcome : Nat
  ops : List (Nat × Instr)
deriving DecidableEq, Repr
/-- Earlier of two decode errors: lower subcode, then a lower slot, a named slot before none (R85, R416). -/
def earlierBad (a b : Nat × Option Nat) : Bool := decide (a.1 < b.1) || (a.1 == b.1 && decide (a.2.getD 99 < b.2.getD 99))
/-- The outcome of a tree operation. -/
def State.treeOutcome (s : State) (i : Option Instr) : Nat :=
  match i with
  | some (.br t) | some (.call t) | some (.brx t) => s.outcome t
  | _ => 4
/-- The slot of a bundle runs on an outcome (R82). -/
def runsOn (tree : Option Instr) (slot o : Nat) : Bool :=
  match tree with
  | some (.br t) | some (.call t) | some (.brx t) => t.tag slot == 7 || t.tag slot == o
  | _ => true
def State.plan (s : State) (ws : List (BitVec 32)) : Except (Nat × Option Nat) Plan :=
  let mentioned := presentSlots (ws.getD 0 0).toNat
  let st := s.standing (if s.core.rep = 0 then mentioned else [])
  let bad := standErrors st
  match decodeBundle (ws.map BitVec.toNat) with
  | .error e => .error (bad.foldl (fun a b => if earlierBad b a then b else a) e)
  | .ok b =>
    match bad with
    | e :: r => .error (r.foldl (fun a b => if earlierBad b a then b else a) e)
    | [] =>
      let o := if s.core.rep = 0 then s.treeOutcome b.tree else 4
      let own := if s.core.rep = 0 then b.slots.filter fun p => runsOn b.tree p.1 o else []
      let again := st.filterMap fun p => match decodeSlot (slotCls p.1) p.2 [] with
        | .ok i => some (p.1, i)
        | .error _ => none
      let tree := if s.core.rep = 0 then (match b.tree with
        | some t => [(10, t)]
        | none => []) else []
      .ok { bundle := b, outcome := o, ops := tree ++ sortBy (fun a b => decide (a.1 < b.1)) (own ++ again) }

/-! WIDTH_SUM and BANK_CONFLICT (R86). -/

/-- Width of an operation of V0, V1 or RD. -/
def opWidth (slot : Nat) (i : Instr) : Nat :=
  if 3 ≤ slot ∧ slot ≤ 5 ∧ i ≠ .idle then
    (match encodeWord i / 2 ^ 24 % 4 with
      | 0 => 256
      | 1 => 512
      | _ => 1024)
  else 0
/-- Banks that an operation of MX, AP0 or AP1 names. -/
def opBanks (slot : Nat) (i : Instr) : List Nat :=
  let w := encodeWord i
  let o := w / 2 ^ 26
  if i = .idle then []
  else if slot = 6 then (if [0x04, 0x05, 0x06, 0x08, 0x09, 0x0A, 0x0B, 0x1C, 0x1D].contains o then [w / 2 ^ 10 % 16] else [])
  else if slot = 7 ∨ slot = 8 then (w / 2 ^ 22 % 16) :: (match i with
    | .accmv f => [f.stream.toNat % 16]
    | _ => [])
  else []
def widthBad (acc : Nat) : List (Nat × Instr) → Option Nat
  | [] => none
  | p :: r => let a := acc + opWidth p.1 p.2; if 2048 < a then some p.1 else widthBad a r
def bankBad (used : List Nat) : List (Nat × Instr) → Option Nat
  | [] => none
  | p :: r => let b := opBanks p.1 p.2; if b.any used.contains then some p.1 else bankBad (used ++ b) r
/-- The decode-time trap of a repetition. -/
def State.illegal (s : State) (ws : List (BitVec 32)) (sub : Nat) (slot : Option Nat) : Trap :=
  { cause := cIllegal, sub := sub, slot := slot, pc := s.core.ctx.pc.toNat, info0 := (ws.getD 0 0).toNat }
def State.planTrap (s : State) (ws : List (BitVec 32)) (p : Plan) : Option Trap :=
  if s.core.rep ≠ 0 then none
  else
    match widthBad 0 p.ops, bankBad [] p.ops with
    | some n, _ => some (s.illegal ws subWidth (some n))
    | none, some n => some (s.illegal ws subBank (some n))
    | none, none => none
/-- The interlocks of R93 and R260 hold the repetition. -/
def State.planHold (s : State) (p : Plan) : Bool :=
  let is := p.ops.map Prod.snd
  s.loadHold p.outcome is || s.setHold is || (p.ops.any fun o => o.1 == 6 && o.2 != .idle && s.mxHold o.2)
/-- The repetition would be held. -/
def State.wouldHold (s : State) : Bool :=
  match s.nextWords with
  | .error _ => false
  | .ok ws => (match s.plan ws with
    | .error _ => false
    | .ok p => s.planHold p)
/-- SAFEPOINT_OVERDUE (R333): when the next bundle would issue. -/
def execSafepointOverdue (s : State) : Out :=
  .next (if s.atBoundary && decide (s.core.mode = .run) && decide (s.ctl.spbound.toNat < s.core.spCount) && s.boundaryTrap.isNone && s.waitOver && !s.wouldHold then
      s.takeBoundary { cause := cOverdue, pc := s.core.ctx.pc.toNat, info0 := s.core.spCount, info1 := s.ctl.spbound.toNat }
    else s)
/-- Put the operations of a repetition into the issue buffer. -/
def State.arm (s : State) (ws : List (BitVec 32)) (p : Plan) : State :=
  s.onCore fun c => { c with words := ws, iss := { c.iss with todo := p.ops, effs := [], raised := [], target := none, outcome := p.outcome, rep := c.rep, lastRep := p.bundle.rep, safe := p.bundle.safe && c.rep == 0, drain := p.bundle.drain, len := p.bundle.len } }
/-- REPETITION_ISSUE (R77, R78): at a boundary the traps of R342; else, once no wait and no interlock holds it, the next repetition is put into the issue buffer. -/
def execRepetitionIssue (s : State) : Out :=
  .next (
    if s.atBoundary && s.boundaryTrap.isSome then
      match s.boundaryTrap with
      | some t => s.takeBoundary t
      | none => s
    else if s.core.mode ≠ .run ∨ s.now < s.core.issueAt then s
    else
      match (if s.core.rep ≠ 0 && !s.core.words.isEmpty then .ok s.core.words else s.nextWords) with
      | .error t => s.takeBoundary { t with pc := s.core.ctx.pc.toNat, addr := if t.cause = cAccess then s.core.ctx.pc.toNat else t.addr }
      | .ok ws =>
        let s := if s.core.words.isEmpty then s.fillCode ws.length else s
        if s.core.rep = 0 && !s.waitOver then s
        else
          match s.plan ws with
          | .error (sub, slot) => s.takeBoundary (s.illegal ws sub slot)
          | .ok p =>
            match s.planTrap ws p with
            | some t => s.takeBoundary t
            | none => if s.planHold p then s else s.arm ws p)

/-! The wait forms (R229, R231, R235). -/

/-- The handle as the wait's cycle updates it (R229). -/
def Ring.passed (r : Ring) (c : Core) (free : Bool) : Ring :=
  if free then { r with head := BitVec.ofNat 16 (r.pass c r.filled r.head.toNat) } else { r with tail := BitVec.ofNat 16 (r.pass c r.free r.tail.toNat) }
/-- A wait's judgement on the focused core: what it waits for now stands so. -/
def State.waitUpdate (s : State) (w : Wait) : State :=
  match w.what with
  | .fill h _ => s.wh h ((s.rh h).passed s.core false)
  | .free h _ => s.wh h ((s.rh h).passed s.core true)
  | .barrier _ _ => s
def State.waitHolds (s : State) (w : Wait) : Bool :=
  match w.what with
  | .fill h n => decide (n ≤ (s.rh h).filled)
  | .free h n => decide (n ≤ (s.rh h).free)
  | .barrier b n => s.holdsBar b && decide (n ≤ (s.barrier s.die b.toNat).count.toNat)
/-- Continuations whose wait is judged in this cycle: held, in their time. -/
def State.heldWait (s : State) : Option Wait :=
  match s.core.mode with
  | .held w => some w
  | _ => none
/-- WAIT_CONDITION_MET (R231, R236): the hold ends; a satisfied barrier wait is an acquire at die scope. -/
def execWaitConditionMet (s : State) : Out :=
  .next (match s.heldWait with
    | none => s
    | some w =>
      let s := s.waitUpdate w
      if !s.waitHolds w then s
      else
        let s := (s.onCont s.selfKey fun c => { c with state := stRunning, held := none }).setMode .run
        match w.what with
        | .barrier _ _ => s.dropL1
        | _ => s)
/-- Record of a wait that timed out (R231, R340). -/
def State.timeoutTrap (s : State) (w : Wait) : Trap :=
  let base : Trap := { cause := cTimeout, pc := s.core.ctx.pc.toNat, resumable := true }
  let ring := fun (sub : Nat) (h : BitVec 3) =>
    let r := s.rh h
    { base with sub := sub, info0 := h.toNat + r.first.toNat * 2 ^ 8 + b2n r.wmem * 2 ^ 15 + r.head.toNat * 2 ^ 32 + r.tail.toNat * 2 ^ 48, info1 := w.lim }
  match w.what with
  | .fill h _ => ring 1 h
  | .free h _ => ring 2 h
  | .barrier b n => { base with sub := 3, info0 := b.toNat + (s.barrier s.die b.toNat).count.toNat * 2 ^ 32, info1 := w.lim + n * 2 ^ 32 }
/-- WAIT_TIMEOUT and the count of a wait's cycles (R231, R232): a freed barrier is an ACCESS_FAULT (R235); else after LIM cycles the trap, before that one cycle fewer. -/
def execWaitTimeout (s : State) : Out :=
  .next (match s.heldWait with
    | none => s
    | some w =>
      if s.waitHolds w then s
      else
        let gone := match w.what with
          | .barrier b _ => !s.holdsBar b
          | _ => false
        -- what stands earlier in R342 is taken first, at the boundary of the next cycle
        if s.boundaryTrap.isSome || (s.atSafePoint && (s.ctl.budget == 0 || s.marked.isSome)) then s
        else if gone then s.takeBoundary { accessFault 0x04 0 0 with pc := s.core.ctx.pc.toNat }
        else if w.rem = 0 then
          let safe := s.nextSafe
          ((s.setMode (.held { w with rem := w.lim })).takeBoundary (s.timeoutTrap w)).onIss fun i => { i with safe := safe }
        else s.setMode (.held { w with rem := w.rem - 1 }))

/-! Leaving the core. -/

/-- The trap taken and its job: the first of the reports. -/
def State.trapJob (s : State) (key : Nat) (sslot : Option Nat) : Option TrapJob :=
  (s.cont key).bind fun c => c.reports.head?.map fun t => { die := keyDie key, key := some key, jcb := c.jcb, deadline := c.deadline, trap := t, deferred := false, sslot := sslot }
/-- Hand the trap taken over, leaving the Reports behind it pending. -/
def State.handTrap (s : State) (key : Nat) (sslot : Option Nat) : State :=
  match s.trapJob key sslot with
  | none => s
  | some j => (s.onCont key fun c => { c with reports := c.reports.drop 1 }).toTraps j
/-- The continuation record takes what it keeps of the state (R322). -/
def State.toRecord (s : State) : State :=
  let c := s.core
  s.onCont s.selfKey fun k => { k with pc := c.ctx.pc, budget := c.ctx.ctl.budget, deadline := c.ctx.ctl.deadline, savedOn := some s.cid, charged := k.charged + c.charged, atEnd := c.iss.atEnd, fixups := none }
/-- A `ckpt` of this continuation is still on its way (R410). -/
def State.ckptOpen (s : State) (key : Nat) : Bool :=
  (s.core.storeQ.any fun e => e.handle == key && (match e.i with
    | .ckpt _ _ => true
    | _ => false)) ||
  (match s.cont key with
    | some c => s.sched.ckpts.any fun k => k.die == keyDie key && s.ckptJob k == some c.jcb
    | none => false)
/-- The slot of the resident continuation. -/
def State.mySlot (s : State) : Nat := (s.self.bind Cont.slot).getD 0
/-- The pieces of the save in progress. -/
def State.savePieces (s : State) : List (Nat × List (BitVec 8)) :=
  let m := s.saveMask s.core.iss.safe
  let w := s.self.bind Cont.held
  stage1 s.core.ctx m ++ stage2 s.core.ctx m s.core.rep w
def State.vacate (s : State) : State := s.onCore Core.vacate
/-- A saved bank of ACC, or a matrix register, holds an uncorrectable error (R352). -/
def State.saveFlaw (s : State) : Option Trap :=
  let banks := (s.saveMask s.core.iss.safe).banks s.core.ctx.ctl.park
  orTrap ((s.core.accBad.find? fun r => banks.contains (r / 128)).map fun r => machineCheck 3 (256 * r)) (if s.core.mrfBad.isEmpty then none else some (machineCheck 4 0))
/-- The save cannot be made: the continuation is FAULTED with this trap's record, in place of any that caused the save (R425). -/
def State.saveFails (s : State) (why : Nat) (t : Trap) : State :=
  let key := s.selfKey
  let s := if why = whyTrap then s.onCont key fun x => { x with reports := x.reports.drop 1 } else s
  let s := (s.toRecord).onCont key fun x => { x with reports := { t with pc := s.core.ctx.pc.toNat } :: x.reports, lastCause := t.cause }
  ((s.handTrap key none).deferReports key).vacate
/-- SAVE (R335): the slot is written and the core freed; the continuation is SAVED and enqueued, or SUSPENDED with its trap on the way. A slot that cannot be written makes it FAULTED (R425). -/
def execSave (s : State) : Out :=
  .next (match s.core.mode with
    | .saving why =>
      if s.now < s.core.saveDone then s
      else
        let key := s.selfKey
        let k := s.mySlot
        match s.saveFlaw, s.writePieces s.ctl.asid.toNat (slotAddr s s.jcb k) s.savePieces with
        | some t, _ => s.saveFails why t
        | none, (s, some (c, va)) => s.saveFails why (accessFault (xfSub c) va 0)
        | none, (s, none) =>
          let s := s.toRecord
          if why = whyTrap then ((s.onCont key fun c => { c with state := stSuspended }).handTrap key (some k)).vacate
          else
            let opn := why = whyCkpt && s.ckptOpen key
            let s := s.onCont key fun c => { c with state := stSaved, mark := none }
            let (s, q) := if why = whyYield then s.nextSeq s.die else (s, (s.cont key).elim 0 Cont.seq)
            let s := s.onCont key fun c => { c with seq := q }
            let gang := ((s.cont key).bind Cont.gang).isSome
            let s := if gang || opn then s else s.enqueue key
            s.vacate
    | _ => s)
/-- A stopped continuation goes on to its end, its trap or its save once what it waits for is over (R88, R252, R334, R345). -/
def State.settleStop (s : State) : State :=
  match s.core.mode with
  | .stopping why =>
    let key := s.selfKey
    if !s.core.pend.isEmpty then s
    else if why = whyJobEnd then (s.release key).vacate
    else if why = whyDone then ((s.deferReports key).endCont key false).vacate
    else if why = whyFault then
      ((s.toRecord.handTrap key none).deferReports key).vacate
    else if !s.loadsLanded then s
    else
      let safe := if why = whyYield then s.nextSafe && s.core.rep == 0 else s.core.iss.safe
      let s := s.onIss fun i => { i with safe := safe }
      let n := saveCycles s.core.ctx (s.saveMask safe) s.core.rep (s.self.bind Cont.held)
      (s.onCore fun c => { c with saveDone := s.now + n }).setMode (.saving why)
  | _ => s

end Sys2Proof.Machine
end

