-- ==== Sys2Proof/Machine/Queue.lean ====
section
/-! DEFINITION. The off-core queues: how an entry performs (R153 to R165, R221, R249 to R273, R280, R298 to R306), and how a load's value or a fault comes back. -/

namespace Sys2Proof.Machine

/-! Entries, their reports, what they wait for. -/

/-- Register that an ACCESS_FAULT of an access names (R340). -/
def regOf (i : Instr) : Nat :=
  match i with
  | .vld f | .vst f | .vldb f | .vscat f | .vscadd f | .vscmax f | .vredst f => f.st.toNat
  | .stld n _ _ => n.toNat
  | .sqset n _ | .sqacc n _ | .sqrej n => n.toNat
  | _ => 0
/-- A prefetch: its failures are dropped (R156, R295). -/
def quietForm (i : Instr) : Bool :=
  match i with
  | .pf _ _ _ | .vpf _ => true
  | _ => false
/-- Opcode of an entry's form. -/
def opcOf (i : Instr) : Nat := encodeWord i / 2 ^ 26
/-- A trap as the record of an entry's failure holds it (R154, R224). -/
def QEnt.trap (e : QEnt) (t : Trap) : Trap := { t with pc := e.pc, opc := opcOf e.i, report := true }
def State.entryReport (s : State) (e : QEnt) (t : Trap) : State := s.report e.handle e.jcb (e.trap t)
/-- An access leaves its queue and is under way. -/
def State.addOutst (s : State) (e : QEnt) (d : Dest) (r : Resp) (due : Nat) (load acq : Bool) : State × Nat :=
  let (s, id) := s.fresh
  (s.onCore fun c => { c with outst := c.outst ++ [{ id := id, q := e, dest := d, resp := r, due := due, load := load, acq := acq, buf := [] }] }, id)
/-- The access fails: its report comes with the response. -/
def State.failEntry (s : State) (e : QEnt) (d : Dest) (t : Trap) : State := (s.addOutst e d (.fault (e.trap t)) (s.now + latTu - 2) false false).1
/-- The entry is an acquire of the load queue alone. -/
def QEnt.isLdacq (e : QEnt) : Bool :=
  match e.i with
  | .ldacq _ _ _ _ => true
  | _ => false
/-- An acquire that precedes an entry has not completed: it is outstanding, or it still stands in the load queue (R158). -/
def State.acqBlocked (s : State) (e : QEnt) : Bool := s.core.outst.any Outst.acq || s.core.loadQ.any fun x => x.isLdacq && decide (x.id < e.id)
/-- The tiles that a queued engine command holds, and in which buffer; a ring's do not pass at issue (R222). -/
def QEnt.tiles (e : QEnt) : Bool × List Nat :=
  match e.i with
  | .ecopy f => (e.args.getD 4 0 == 1, if f.ring then [] else rowTiles f.row.toNat f.rows.toNat)
  | .hxch _ _ _ => (false, e.args.drop 2)
  | _ => (false, [])
/-- A multicast `put` (R391). -/
def Cmd.multicast (c : Cmd) : Bool :=
  match c.put with
  | some p => p.group.isSome
  | none => false
/-- A request is an unacknowledged store of a continuation, atomics included. -/
def State.ownStore (s : State) (h : Nat) (r : Req) : Bool :=
  match r.owner with
  | .store _ q => q.handle == h
  | .load cid o => (match r.kind with
    | .atomic _ _ _ _ => (s.coreAt cid).outst.any fun x => x.id == o && x.q.handle == h
    | _ => false)
  | .cmd id => s.cmds.any fun c => c.id == id && c.handle == h && c.multicast
  | .agent _ _ _ | .walk _ _ _ => false
/-- A request is an unacknowledged store of a core, atomics included, whatever continuation issued it (R301, R304). -/
def coreStore (cid : Nat) (r : Req) : Bool :=
  match r.owner with
  | .store c _ => c == cid
  | .load c _ => c == cid && (match r.kind with
    | .atomic _ _ _ _ => true
    | _ => false)
  | _ => false
/-- Every earlier store of a continuation has performed at a scope (R158). A store homed on the issuing die performs as it leaves the queue; a multicast `put` has performed once every member has acknowledged (R391). -/
def State.released (s : State) (h : Nat) (sc : Scope) : Bool :=
  match sc with
  | .core | .clus | .die => true
  | .pkg => !(s.fab.reqs.any fun r => s.ownStore h r && pkgOf r.dst == pkgOf s.die)
  | .sys => !(s.fab.reqs.any fun r => s.ownStore h r) && !(s.cmds.any fun c => c.handle == h && c.multicast && !c.finished && c.fail.isNone)
/-- Every earlier load and atomic of a continuation has completed. -/
def State.loadsDone (s : State) (h : Nat) : Bool := !(s.core.outst.any fun o => o.load && o.q.handle == h)
/-- Scopes at which an acquire invalidates the L1 (R158). -/
def wideScope (sc : Scope) : Bool := sc != .core

/-! Parts of an access: each lies in one 64-byte line. -/

/-- One part of an access: the address named in a fault, the address, the bytes, the place in the destination. -/
structure Part where
  va : Nat
  addr : Nat
  n : Nat
  off : Nat
deriving DecidableEq, Repr
/-- Where a part is served. -/
inductive Src where
  | line (v : Nat)
  | reg (v : Nat)
  | home (pa lat : Nat) (nc : Bool)
  | wait
  | bad (t : Trap)
deriving DecidableEq, Repr
/-- Words of multicast group entries in a fabric window (R387, R389): the number of the 8-byte word. -/
def mgroupWord (pa : Nat) : Option Nat :=
  let o := paOff pa
  if windowOff + 0x10000 ≤ o ∧ o < windowOff + 0x10000 + 1024 then some ((o - windowOff - 0x10000) / 8) else none
/-- The bits of a multicast group word that hold a value; RSVD bits are stored as zero. -/
def mgroupMask (w : Nat) : Nat := if w % 2 = 0 then 0x8000_03FF_FF7F_FFFF else 0xF_FFFF_FFC0
/-- Translate a part that does not hit the L1. -/
def State.sourceOf (s : State) (e : QEnt) (k : Acc) (p : Part) : State × Src :=
  match s.coreXlate e.asid p.addr k with
  | (s, .wait) => (s, .wait)
  | (s, .fault c) => (s, .bad (accessFault c p.va (regOf e.i)))
  | (s, .done pa lat nc) =>
    if !inWindow pa then (s, .home pa lat nc)
    else
      match e.i, mgroupWord pa with
      | .ld _ _ _, some w => (s, if paDie pa = s.die then .reg (fget 0 s.fab.mgroups (s.die * 128 + w)).toNat else .bad (remoteFault 0x06 p.va (paDie pa)))
      | .st _ _ _, some _ => (s, if paDie pa = s.die then .home pa lat nc else .bad (remoteFault 0x06 p.va (paDie pa)))
      | _, _ => (s, .bad (remoteFault 0x06 p.va (paDie pa)))
/-- A read of a line homed elsewhere is on its way to the core. -/
def State.lineComing (s : State) (asid va : Nat) : Bool :=
  s.core.outst.any fun o => o.resp == .remote && o.q.asid == asid && lineOf (o.q.args.getD 0 0) == lineOf va
/-- A part of a load: the L1 first (R281), but not a line that an earlier load is still to read at its home (R301). -/
def State.loadSource (s : State) (e : QEnt) (bypass : Bool) (p : Part) : State × Src :=
  match (if bypass || s.lineComing e.asid p.addr then none else lineHit s.core.l1d e.asid p.addr) with
  | some l => (s, .line (bits l.data.toNat (8 * (p.addr % 64)) (8 * p.n)))
  | none => s.sourceOf e .read p
/-- Resolve parts one after another. -/
def resolveParts (f : State → Part → State × Src) : List Part → State → State × List (Part × Src)
  | [], s => (s, [])
  | p :: r, s =>
    let (s, x) := f s p
    let (s, xs) := resolveParts f r s
    (s, (p, x) :: xs)
def anyWait (l : List (Part × Src)) : Bool := l.any fun x => x.2 == .wait
def firstBad : List (Part × Src) → Option Trap
  | [] => none
  | (_, .bad t) :: _ => some t
  | _ :: r => firstBad r

/-! Loads. -/

/-- A store of this core to the sector of a remote address is unacknowledged: a load of it waits. -/
def State.sectorBusy (s : State) (pa : Nat) : Bool :=
  s.fab.reqs.any fun r => coreStore s.cid r && (match r.kind with
    | .write a bs => decide (a / 64 ≤ pa / 64) && decide (pa / 64 ≤ (a + bs.length - 1) / 64)
    | .lane pas _ _ _ => pas.any fun a => a / 64 == pa / 64
    | .cells a _ | .atomic a _ _ _ | .reduce a _ _ _ _ | .bitOp a _ _ | .clear a _ => a / 64 == pa / 64
    | _ => false)
/-- Requests to several dies find room there (R378). -/
def State.roomFor (s : State) (dies : List Nat) : Bool := dies.all fun d => decide (s.unacked s.die d + dies.count d ≤ Config.maxUnacked)
/-- Remote parts. -/
def State.remoteParts (s : State) (l : List (Part × Src)) : List (Part × Nat × Nat × Bool) :=
  l.filterMap fun x => match x.2 with
    | .home pa lat nc => if paDie pa = s.die then none else some (x.1, pa, lat, nc)
    | _ => none
/-- Value of the parts served here, in place, and the longest of their times. -/
def State.localValue (s : State) (l : List (Part × Src)) : Nat × Nat :=
  l.foldl (fun a x => match x.2 with
    | .line v => (a.1 + v * 2 ^ x.1.off, Nat.max a.2 latL1)
    | .reg v => (a.1 + v * 2 ^ x.1.off, Nat.max a.2 latTc)
    | .home pa lat _ => if paDie pa = s.die then (a.1 + s.rd pa x.1.n * 2 ^ x.1.off, Nat.max a.2 lat) else a
    | _ => a) (0, latL1)
/-- Lines of the parts served by the home L2 of this die enter the L1, but for pages with NC (R280) and lines that hold an uncorrectable error. -/
def State.fillLines (s : State) (asid : Nat) (l : List (Part × Src)) : State :=
  l.foldl (fun s x => match x.2 with
    | .home pa _ nc => if paDie pa = s.die ∧ !nc ∧ !s.flawed (pa / 64 * 64) 64 then
        (let d := BitVec.ofNat 512 (s.rd (pa / 64 * 64) 64)
         s.onCore fun c => { c with l1d := lineFill c.l1d asid x.1.addr d })
        else s
    | _ => s) s
/-- Bits of a destination that the remote parts fill. -/
def remoteBits (l : List (Part × Nat × Nat × Bool)) : Nat := l.foldl (fun m x => m ||| (2 ^ (8 * x.1.n) - 1) * 2 ^ x.1.off) 0
/-- The destination restricted to some of its bits. -/
def Dest.narrow (d : Dest) (m : Nat) : Dest :=
  match d with
  | .vreg n mask => .vreg n (mask &&& BitVec.ofNat 1024 m)
  | d => d
/-- The destination of a part of a load that brings some of its bits: the one element of a `vldb` fills every lane. -/
def QEnt.destPart (e : QEnt) (d : Dest) (m : Nat) : Dest :=
  match e.i with
  | .vldb _ => if m % 2 = 1 then d else d.narrow 0
  | _ => d.narrow m
/-- Nothing of the destination is left beside its remote parts. -/
def Dest.spent (d : Dest) : Bool :=
  match d with
  | .vreg _ mask => mask == 0
  | _ => true
/-- Send the read of one remote part. Its entry keeps the address, the size, the place, whether its line is allocated, and whether the whole line is asked for. -/
def State.sendRead (s : State) (e : QEnt) (d : Dest) (bypass load acq : Bool) (x : Part × Nat × Nat × Bool) : State :=
  let p := x.1
  let pa := x.2.1
  let fill := !bypass && !x.2.2.2
  let e := { e with args := [p.addr, p.n, p.off, b2n fill, b2n fill] }
  let (s, id) := s.addOutst e (e.destPart d ((2 ^ (8 * p.n) - 1) * 2 ^ p.off)) .remote x.2.2.1 load acq
  (s.sendReq s.die (paDie pa) e.jcb p.va false (if fill then .read (pa / 64 * 64) 64 else .read pa p.n) (.load s.cid id)).1
/-- Why a resolved part of a load fails: its address, its home, an uncorrectable error in the line or the bytes it reads here. -/
def State.partFail (s : State) (e : QEnt) (bypass : Bool) (x : Part × Src) : Option Trap :=
  match x.2 with
  | .bad t => some t
  | .home pa _ nc =>
    if paDie pa ≠ s.die then (if (s.routeOf false s.die (paDie pa)).isNone then some (remoteFault 0x01 x.1.va (paDie pa)) else none)
    else if (if bypass || nc || quietForm e.i then s.flawed pa x.1.n else s.flawed (pa / 64 * 64) 64) then some (machineCheck 6 x.1.va) else none
  | _ => none
/-- Perform a load of parts, all of it or nothing: whether it leaves its queue. Of a prefetch the parts that fail are dropped (R295). -/
def State.performLoad (s : State) (e : QEnt) (d : Dest) (parts : List Part) (bypass load acq : Bool) : State × Bool :=
  let (s, l) := resolveParts (fun s p => s.loadSource e bypass p) parts s
  if anyWait l then (s, false)
  else
    let l := if quietForm e.i then l.filter fun x => (s.partFail e bypass x).isNone else l
    match firstTrap (l.map (s.partFail e bypass)) with
    | some t => (s.failEntry e d t, true)
    | none =>
      let far := s.remoteParts l
      if far.any (fun x => s.sectorBusy x.2.1) || !s.roomFor (far.map fun x => paDie x.2.1) then (s, false)
      else
        let (v, lat) := s.localValue l
        let s := if bypass then s else s.fillLines e.asid l
        let own := 2 ^ 1024 - 1 - remoteBits far
        let s := if !far.isEmpty && (e.destPart d own).spent then s else (s.addOutst e (e.destPart d own) (.value v) (s.now + lat - 2) load acq).1
        (far.foldl (fun s x => s.sendRead e d bypass load acq x) s, true)
/-- Parts of a vector load: 64-byte pieces of a section, or elements of an index access, each part in one line. -/
def pieceParts (bytes : Nat) (args : List Nat) : List Part :=
  (List.zipIdx args).filterMap fun a => if a.1 = 0 then none else some { va := a.1 - 1, addr := a.1 - 1, n := Nat.min 64 bytes, off := 512 * a.2 }
def elemParts (va n off : Nat) : List Part :=
  let r := 64 - va % 64
  if n ≤ r then [{ va := va, addr := va, n := n, off := off }]
  else [{ va := va, addr := va, n := r, off := off }, { va := va, addr := (va + r) % 2 ^ 56, n := n - r, off := off + 8 * r }]
def laneParts (n : Nat) (args : List Nat) : List Part :=
  (List.zipIdx args).flatMap fun a => if a.1 = 0 then [] else elemParts (a.1 - 1) n (8 * n * a.2)
/-- Parts of a prefetch: one sector each. -/
def sectorPart (a : Nat) : Part := { va := a, addr := a / 64 * 64, n := 64, off := 0 }
/-- The entry came from an index stream: one address for each lane. -/
def QEnt.byLane (e : QEnt) (f : LF) : Bool := decide (e.args.length = lfN f) && decide (e.args.length ≠ ceilDiv (f.w.bits / 8) 64)

/-! Stores. -/

/-- One write of a store: the address, the address at which it goes on in another page, and what the home does, given where the two lie. -/
structure Wr where
  part : Part
  next : Option Nat
  kind : Nat → Nat → ReqKind
/-- A write that lies in one page. -/
def wrAt (p : Part) (k : Nat → ReqKind) : Wr := { part := p, next := none, kind := fun pa _ => k pa }
def Wr.parts (w : Wr) : List Part :=
  w.part :: (match w.next with
    | some a => [{ w.part with addr := a }]
    | none => [])
/-- Lines that a write touches. -/
def Wr.lines (w : Wr) : List Nat := [lineOf w.part.addr, lineOf (w.part.addr + w.part.n - 1)]
/-- A store that leaves its queue updates a present line, or drops it where the home computes the value; a load of that line on its way does not allocate it. -/
def State.storeLine (s : State) (asid : Nat) (w : Wr) : State :=
  let s := s.onCore fun c => { c with outst := c.outst.map fun o =>
    if o.resp = .remote ∧ o.q.asid = asid ∧ (w.lines.contains (lineOf (o.q.args.getD 0 0)) = true) then { o with q := { o.q with args := o.q.args.set 3 0 } } else o }
  match w.kind 0 0 with
  | .write _ bs => s.onCore fun c => { c with l1d := lineStore c.l1d asid w.part.addr bs }
  | .lane _ 0 _ v => s.onCore fun c => { c with l1d := (List.zipIdx (natLe w.part.n v.toNat)).foldl (fun l x => lineStore l asid ((w.part.addr + x.2) % 2 ^ 56) [x.1]) c.l1d }
  | .cells _ cs => s.onCore fun c => { c with l1d := cs.foldl (fun l x => lineStore l asid (w.part.addr + x.1) [x.2]) c.l1d }
  | _ => s.onCore fun c => { c with l1d := lineDrop (lineDrop c.l1d asid w.part.addr) asid (w.part.addr + w.part.n - 1) }
/-- Perform one write at its home, or send it there. -/
def State.doWrite (s : State) (e : QEnt) (w : Wr) (pa next : Nat) : State :=
  let s := s.storeLine e.asid w
  match mgroupWord pa with
  | some k => (match w.kind pa next with
    | .write _ bs => s.onFab fun x => { x with mgroups := fput 0 (s.die * 128 + k) (BitVec.ofNat 64 (leNat bs &&& mgroupMask k)) x.mgroups }
    | _ => s)
  | none =>
    if paDie pa = s.die then
      match s.performAccess e.jcb (w.kind pa next) with
      | (s, (0, _)) => s
      | (s, (c, _)) => s.failEntry e .none (answerTrap c w.part.va s.die s.die)
    else (s.sendReq s.die (paDie pa) e.jcb w.part.va true (w.kind pa next) (.store s.cid e)).1
/-- Physical address of a resolved part. -/
def Src.pa (x : Src) : Nat :=
  match x with
  | .home pa _ _ => pa
  | _ => 0
/-- Perform writes whose parts have been resolved, in order. -/
def State.doWrites (s : State) (e : QEnt) : List Wr → List (Part × Src) → State
  | [], _ => s
  | _, [] => s
  | w :: ws, x :: l =>
    match w.next, l with
    | some _, y :: l => (s.doWrite e w x.2.pa y.2.pa).doWrites e ws l
    | _, l => (s.doWrite e w x.2.pa x.2.pa).doWrites e ws l
/-- Perform a store, all its writes in order or none: whether it leaves its queue. -/
def State.performStore (s : State) (e : QEnt) (k : Acc) (ws : List Wr) : State × Bool :=
  let (s, l) := resolveParts (fun s p => s.sourceOf e k p) (ws.flatMap Wr.parts) s
  if anyWait l then (s, false)
  else
    match firstBad l with
    | some t => (s.failEntry e .none t, true)
    | none =>
      match (s.remoteParts l).find? fun x => (s.routeOf true s.die (paDie x.2.1)).isNone with
      | some x => (s.failEntry e .none (remoteFault 0x01 x.1.va (paDie x.2.1)), true)
      | none =>
        if !s.roomFor ((s.remoteParts l).map fun x => paDie x.2.1) then (s, false)
        else (s.doWrites e ws l, true)
/-- An aligned 8-byte store. -/
def wordWrite (ea v : Nat) : Wr := wrAt { va := ea, addr := ea / 8 * 8, n := 8, off := 0 } fun pa => .write pa (natLe 8 v)
/-- Writes of a `vst`: the unmasked bytes of each piece. -/
def vstWrites (f : LF) (e : QEnt) : List Wr :=
  let bytes := natLe 128 e.vec.toNat
  let m := lfMask f e.mask
  (List.zipIdx e.args).filterMap fun a => if a.1 = 0 then none else
    let n := Nat.min 64 (f.w.bits / 8)
    let cells := (List.range n).filterMap fun i => if m.getLsbD (8 * (64 * a.2 + i)) then some (i, bytes.getD (64 * a.2 + i) 0) else none
    some (wrAt { va := a.1 - 1, addr := a.1 - 1, n := n, off := 0 } fun pa => .cells pa cells)
/-- The write of one lane of a scatter of n bytes, which its home performs as one, across a line or a page too (R164; log entry 107). -/
def laneWrite (op : Nat) (t : ETy) (va n v : Nat) : Wr :=
  let r := 2 ^ 16 - va % 2 ^ 16
  { part := { va := va, addr := va, n := n, off := 0 }, next := if n ≤ r then none else some ((va + r) % 2 ^ 56),
    kind := fun pa pb => .lane ((List.range n).map fun i => if i < r then pa + i else pb + (i - r)) op t (BitVec.ofNat 32 v) }
/-- Writes of a scatter, lane by lane: 0 store, 1 add, 2 larger. -/
def scatWrites (op : Nat) (f : LF) (e : QEnt) : List Wr :=
  let v := toLanes f.t.bits (lfN f) e.vec.toNat
  (List.zipIdx e.args).filterMap fun a => if a.1 = 0 then none else some (laneWrite op f.t (a.1 - 1) (lfE f) (v.getD a.2 0))
/-- Updates of a `vredst`, one for each sector with an unmasked lane. -/
def redWrites (f : LF) (e : QEnt) : List Wr :=
  let v := toLanes f.t.bits (lfN f) e.vec.toNat
  let op := (f.form.toNat / 2) % 4
  let token := BitVec.ofNat 64 (e.args.getD 0 0)
  let per := 64 / lfE f
  (List.zipIdx (e.args.drop 1)).filterMap fun a => if a.1 = 0 then none else
    let lanes := (List.range (Nat.min per (lfN f))).filterMap fun j =>
      let i := per * a.2 + j
      if e.mask.getLsbD i then some (lfE f * j, BitVec.ofNat 32 (v.getD i 0)) else none
    some (wrAt { va := a.1 - 1, addr := a.1 - 1, n := 64, off := 0 } fun pa => .reduce pa op f.t lanes token)

/-! Atomics. -/

/-- Code, scope and order of an atomic (R160): bit 0 of ORD acquires, bit 1 releases. -/
def atomicOf (i : Instr) : Option (Nat × Scope × BitVec 2) :=
  match i with
  | .amoadd _ _ _ sc o => some (0, sc, o)
  | .amoand _ _ _ sc o => some (1, sc, o)
  | .amoor _ _ _ sc o => some (2, sc, o)
  | .amoxor _ _ _ sc o => some (3, sc, o)
  | .amomin _ _ _ sc o u => some (if u then 6 else 4, sc, o)
  | .amomax _ _ _ sc o u => some (if u then 7 else 5, sc, o)
  | .amoswap _ _ _ sc o => some (8, sc, o)
  | .amocas _ _ _ sc o => some (9, sc, o)
  | _ => none
def State.performAtomic (s : State) (e : QEnt) (code : Nat) (sc : Scope) (o : BitVec 2) : State × Bool :=
  if o.getLsbD 1 && !s.released e.handle sc then (s, false)
  else
    let ea := e.args.getD 0 0
    let b := BitVec.ofNat 64 (e.args.getD 1 0)
    let d := BitVec.ofNat 64 (e.args.getD 2 0)
    let p : Part := { va := ea, addr := ea / 8 * 8, n := 8, off := 0 }
    let dest := destOf e.i 0
    match s.sourceOf e .rw p with
    | (s, .home pa lat _) =>
      let acq := o.getLsbD 0
      if paDie pa ≠ s.die ∧ (s.routeOf false s.die (paDie pa)).isNone then (s.failEntry e dest (remoteFault 0x01 ea (paDie pa)), true)
      else if paDie pa ≠ s.die ∧ (reqFull s s.die (paDie pa) || s.sectorBusy pa) then (s, false)
      else
        let s := s.storeLine e.asid (wrAt p fun pa => .atomic pa code b d)
        if paDie pa = s.die then
          let (s, r) := s.performAccess e.jcb (.atomic pa code b d)
          if r.1 = 0 then ((s.addOutst e dest (.value r.2) (s.now + lat - 2) true acq).1, true) else (s.failEntry e dest (answerTrap r.1 ea s.die s.die), true)
        else
          let (s, id) := s.addOutst { e with args := [p.addr, 8, 0, 0, 0] } dest .remote lat true acq
          ((s.sendReq s.die (paDie pa) e.jcb ea false (.atomic pa code b d) (.load s.cid id)).1, true)
    | (s, .bad t) => (s.failEntry e dest t, true)
    | (s, _) => (s, false)

/-! Device reads of a core's forms: cursors, stage sets, viaduct images. -/

/-- A region header (R265): its fields, and whether it is well formed under R266. -/
structure Region where
  cbmp : Nat
  esz : Nat
  cap : Nat
  clen : Nat
  links : List Nat
  ok : Bool
def parseRegion (b : List (BitVec 8)) : Region :=
  let x := leNat b
  let g := fun o n => bits x (8 * o) (8 * n)
  let links := [g 0x20 8, g 0x28 8]
  { cbmp := g 8 8 % 2 ^ 56, esz := g 0x10 4, cap := g 0x14 4, clen := g 0x18 4, links := (links.filter (· ≠ 0)).map fun l => l % 2 ^ 56 / 64 * 64,
    ok := g 7 1 == 0 && g 0xF 1 == 0 && g 0x1C 4 == 0 && g 0x27 1 == 0 && g 0x2F 1 == 0 && g 0x30 16 == 0
      && decide (g 0x10 4 % 64 = 0) && decide (64 ≤ g 0x10 4) && decide (g 0x10 4 ≤ 65536) && decide (g 0x18 4 ≤ g 0x14 4) }
/-- The headers read, of a region and of those it links, with their addresses. -/
def headersOf (va : Nat) (b : List (BitVec 8)) : List (Nat × Region) :=
  (List.zipIdx (va :: (parseRegion b).links)).map fun x => (x.1, parseRegion (b.drop (64 * x.2)))
/-- What `sqset` brings (R266). -/
def cursorResp (e : QEnt) (b : List (BitVec 8)) : Resp :=
  let va := e.args.getD 0 0
  let r := parseRegion b
  if !r.ok || ((headersOf va b).drop 1).any (fun l => !l.2.ok || decide (l.2.cap < r.cap)) then .fault (e.trap (accessFault 0x04 va (regOf e.i)))
  else .cursor { valid := true, region := BitVec.ofNat 56 va, cap := BitVec.ofNat 32 r.cap, clen := BitVec.ofNat 32 r.clen, tlen := 0 }
/-- A stage-set descriptor is malformed (R353). -/
def descBad (b : List (BitVec 8)) : Bool :=
  let x := leNat b
  let g := fun o n => bits x (8 * o) (8 * n)
  let n := g 0 1
  n == 0 || decide (8 < n) || g 1 1 == 0 || decide (64 < g 1 1) || g 2 2 != 0 || g 4 4 != 0 || g 0x2C 4 != 0 || g 0x37 1 != 0 || g 0x38 8 != 0 || g 0xC0 64 != 0
    || (List.range 8).any fun i => decide (i < n) && (g (0x40 + 16 * i) 8 == 0 || g (0x47 + 16 * i) 1 != 0 || g (0x4C + 16 * i) 4 != 0)
/-- A viaduct image is malformed (R392). -/
def imageBad (b : List (BitVec 8)) (n : Nat) : Bool :=
  let g := fun o k => leNat ((b.drop o).take k)
  n == 0 || decide (4095 < n) || bits (g 4 1) 2 6 != 0 || bits (g 4 1) 0 2 == 3 || g 5 1 != 0 || g 0xE 2 != 0 || decide (2 ^ 23 ≤ g 0x10 4) || g 0x1A 38 != 0
    || (List.range n).any fun k =>
      let o := 64 + 32 * k
      g (o + 0x1A) 6 != 0 || decide (g (o + 0x10) 4 % 64 ≠ 0) || decide (2 ^ 24 < g (o + 0x10) 4)
/-- Steps that a viaduct image announces: none where the number is out of its limits. -/
def imageSteps (b : List (BitVec 8)) : Nat :=
  let n := leNat ((b.drop 6).take 2)
  if 4095 < n then 0 else n
/-- Bytes that `tsload` or `rsload` brings, checked. -/
def imageResp (e : QEnt) (b : List (BitVec 8)) (bad : Bool) (v : Nat) : Resp :=
  if bad then .fault (e.trap (accessFault 0x04 (e.args.getD 0 0) 0)) else .value (leNat b + v)

/-! Put and get (R246, R247, R389): descriptors and handler images. -/

/-- A descriptor: DST, SRC, LEN, whether it names a handler and where its image is. -/
structure PutDesc where
  dst : Nat
  src : Nat
  len : Nat
  hnd : Bool
  hrec : Nat
  ok : Bool
def parsePut (b : List (BitVec 8)) : PutDesc :=
  let x := leNat (b.take 64)
  let g := fun o n => bits x (8 * o) (8 * n)
  { dst := g 0 8 % 2 ^ 56 / 64 * 64, src := g 8 8 % 2 ^ 56 / 64 * 64, len := g 0x10 4, hnd := (g 0x14 1).testBit 0, hrec := g 0x18 8 % 2 ^ 56,
    ok := g 0x15 3 == 0 && g 0x20 32 == 0 && bits (g 0x14 1) 1 7 == 0 && g 0x10 4 % 64 == 0 && decide (64 ≤ g 0x10 4) && decide (g 0x10 4 ≤ 2 ^ 24) }

/-! Reads of the device for a core's forms (R291, R374, R376): cursors, stage sets and viaduct images, which come back as off-core loads; and what the entry at the head of a queue performs with: region headers, a descriptor and its handler image, a record header, a kernel descriptor. Each is read piece by piece, with a walk or a request of its own where it needs one. -/

/-- The ranges that an entry reads, as far as what it has read names them. A header that is malformed names no further one. -/
def QEnt.reads (e : QEnt) (b : List (BitVec 8)) : List (Nat × Nat) :=
  let va := e.args.getD 0 0
  let more := fun (l : List (Nat × Nat)) => if 64 ≤ b.length then l else []
  match e.i with
  | .sqset _ _ => (va, 64) :: more (if (parseRegion b).ok then (parseRegion b).links.map fun l => (l, 64) else [])
  | .sqacc _ _ | .sqrej _ => (va, 64) :: more ((parseRegion b).links.map fun l => (l, 64))
  | .rsload _ _ => (va, 64) :: more [((va + 64) % 2 ^ 56, 32 * imageSteps b)]
  | .tsload _ _ _ => [(va, 256)]
  | .put _ _ | .get _ _ => (va, 64) :: more (if (parsePut b).ok && (parsePut b).hnd then [((parsePut b).hrec, 64)] else [])
  | .tsub _ _ _ _ => [(e.args.getD 1 0, 64)]
  | .spawn _ => [(e.args.getD 4 0, 64)]
  | _ => []
/-- What the bytes of a device read bring. -/
def QEnt.response (e : QEnt) (b : List (BitVec 8)) : Resp :=
  match e.i with
  | .sqset _ _ => cursorResp e b
  | .rsload _ _ => imageResp e b (imageBad b (imageSteps b)) (2 ^ (8 * b.length))
  | _ => imageResp e b (descBad b) 0
/-- The reads of an access of the focused core that is under way. -/
def State.onRead (s : State) (id : Nat) (f : Outst → Outst) : State := s.onCore fun c => { c with outst := c.outst.map fun o => if o.id == id then f o else o }
/-- The read fails: of an entry at the head of a queue that is for the entry to tell. -/
def Outst.failed (o : Outst) (t : Trap) (due : Nat) : Outst :=
  if o.dest = .head then { o with resp := .stop t } else { o with resp := .fault (o.q.trap t), due := due }
/-- Read on, piece by piece: here at once, elsewhere one request at a time. -/
def State.readOn (s : State) (id : Nat) : Nat → State
  | 0 => s
  | f + 1 =>
    match s.core.outst.find? fun o => o.id == id && o.resp == .remote with
    | none => s
    | some o =>
      let fails := fun (s : State) (t : Trap) => s.onRead id fun x => x.failed t (s.now + latTu - 2)
      match nextPiece (o.q.reads o.buf) o.buf.length with
      | none => if o.dest = .head then s else s.onRead id fun x => { x with resp := x.q.response x.buf, due := s.now + latTu - 2 }
      | some (va, n) =>
        if s.fab.reqs.any fun r => r.owner == .load s.cid id then s
        else
          match s.tuXlate s.die o.q.asid va .read with
          | (s, .wait, _) => s
          | (s, .fault c, _) => fails s (accessFault c va (regOf o.q.i))
          | (s, .done pa _ _, _) =>
            match s.homeBad s.die pa with
            | some c => fails s (reachTrap c va (regOf o.q.i))
            | none =>
              if paDie pa = s.die then (if s.flawed pa n then fails s (machineCheck 6 va) else (s.onRead id fun x => { x with buf := x.buf ++ s.rdBytes pa n }).readOn id f)
              else if reqFull s s.die (paDie pa) || s.sectorBusy pa then s
              else (s.sendReq s.die (paDie pa) o.q.jcb va false (.read pa n) (.load s.cid id)).1
/-- Pieces that the longest of these reads can take. -/
def readPieces : Nat := 1024
/-- The access is a read of this kind. -/
def Outst.isDevice (o : Outst) : Bool :=
  match o.dest with
  | .cursor _ | .set _ | .slot _ | .head => true
  | _ => false
/-- The focused core's reads of this kind go on. -/
def State.workDevices (s : State) : State :=
  ((s.core.outst.filter fun o => o.isDevice && o.resp == .remote).map Outst.id).foldl (fun s id => s.readOn id readPieces) s
/-- A read begins. -/
def State.startRead (s : State) (e : QEnt) (d : Dest) (load : Bool) : State :=
  let (s, id) := s.addOutst e d .remote 0 load false
  s.readOn id readPieces
/-- What an entry at the head of its queue performs with: none while its read goes on; why it failed, or the bytes. -/
def State.headBytes (s : State) (e : QEnt) : State × Option (Except Trap (List (BitVec 8))) :=
  let mine := fun (s : State) => s.core.outst.find? fun o => o.dest == .head && o.q.id == e.id
  let s := if (mine s).isNone then s.startRead e .head false else s
  (s, match mine s with
    | none => none
    | some o => (match o.resp with
      | .stop t => some (.error t)
      | _ => if (nextPiece (o.q.reads o.buf) o.buf.length).isNone then some (.ok o.buf) else none))
/-- Replace the entry at the head of the store queue, and of both queues. -/
def State.setHead (s : State) (e : QEnt) : State := s.onCore fun c => { c with storeQ := e :: c.storeQ.drop 1 }
def State.setBoth (s : State) (e : QEnt) : State := (s.setHead e).onCore fun c => { c with loadQ := e :: c.loadQ.drop 1 }
/-- A device read of the load queue alone leaves it as its first piece is read or asked for; one of both queues stays at their heads until what it reads has landed (R240, R259). -/
def State.performDevice (s : State) (e : QEnt) (d : Dest) : State × Bool :=
  if !e.both then
    match s.tuXlate s.die e.asid (e.args.getD 0 0) .read with
    | (s, .wait, _) => (s, false)
    | (s, .done pa _ _, _) => if paDie pa ≠ s.die && (reqFull s s.die (paDie pa) || s.sectorBusy pa) then (s, false) else (s.startRead e d true, true)
    | (s, .fault _, _) => (s.startRead e d true, true)
  else if e.args.length > 2 then (s, !(s.core.outst.any fun o => o.q.id == e.id))
  else ((s.startRead e d true).setBoth { e with args := e.args ++ [1] }, false)

/-! Engine commands. -/

/-- A command leaves the store queue for its engine; it starts in the next cycle. The stream image of an `hxch` goes with it, and what a `put` or a `get` has read. -/
def State.startCmd (s : State) (e : QEnt) (tilesW : Bool) (tiles : List Nat) (put : Option PutCap) (fail : Option Trap) : State × Bool :=
  let (s, id) := s.fresh
  let (s, slack) := s.takeSlack
  let c : Cmd := { id := id, die := s.die, core := s.cid, handle := e.handle, jcb := e.jcb, asid := e.asid, pc := e.pc, i := e.i, args := e.args,
                   st := { Stream.reset with img := e.vec.setWidth 512 }, tilesW := tilesW, tiles := tiles, since := s.now, due := s.now + 1 + slack, pos := 0, aux := [],
                   buf := [], sent := 0, items := [], put := put, fail := fail, finished := false, status := none }
  ({ s with cmds := s.cmds ++ [c] }, true)

/-! Groups of dies (R390). -/

structure Group where
  origin : Nat
  ex : Nat
  ey : Nat
  ez : Nat
deriving DecidableEq, Repr
def Group.size (g : Group) : Nat := g.ex * g.ey * g.ez
/-- Member m. -/
def State.member (s : State) (g : Group) (m : Nat) : Nat :=
  mkDie ((dieX g.origin + m % g.ex) % s.cfg.sx) ((dieY g.origin + m / g.ex % g.ey) % s.cfg.sy) ((dieZ g.origin + m / (g.ex * g.ey)) % s.cfg.sz)
def State.members (s : State) (g : Group) : List Nat := (List.range g.size).map (s.member g)
/-- No extent is 0 or exceeds the system's, so no die is two members. -/
def State.groupOk (s : State) (g : Group) : Bool :=
  decide (1 ≤ g.ex) && decide (1 ≤ g.ey) && decide (1 ≤ g.ez) && decide (g.ex ≤ s.cfg.sx) && decide (g.ey ≤ s.cfg.sy) && decide (g.ez ≤ s.cfg.sz)

/-! Put and get as they perform (R246, R247, R389). -/

/-- The continuation a record image describes (R322); none where it is malformed. -/
def recordImage (jcb : Nat) (sc : Scope) (b : List (BitVec 8)) : Option Cont :=
  let x := leNat b
  let g := fun o n => bits x (8 * o) (8 * n)
  if bits (g 0x17 1) 0 4 ≠ stReady ∨ bits (g 0x17 1) 6 2 ≠ 0 ∨ g 0x28 4 ≠ 0xFFFFFFFF ∨ bits (g 0x16 1) 3 5 ≠ 0 ∨ g 7 1 ≠ 0 ∨ g 0x27 1 ≠ 0 ∨ bits (g 0x2C 4) 29 3 ≠ 0 then none
  else some { Cont.blank jcb with
    pc := BitVec.ofNat 56 (g 0 8), deadline := BitVec.ofNat 64 (g 8 8), budget := BitVec.ofNat 32 (g 0x10 4), stage := BitVec.ofNat 3 (g 0x16 1), kdesc := BitVec.ofNat 56 (g 0x20 8),
    lcoord := BitVec.ofNat 32 (g 0x2C 4), arg1 := BitVec.ofNat 64 (g 0x30 8), arg0 := BitVec.ofNat 64 (g 0x38 8), acquire := some sc }
/-- The multicast target of this die that a physical address is, for a `put` without a handler: its number and its words (R387, R389). -/
def State.targetOf (s : State) (d : PutDesc) (pa : Nat) : Option (Nat × BitVec 64 × BitVec 64) :=
  let o := paOff pa - windowOff
  if inWindow pa ∧ 0x20000 ≤ o ∧ o < 0x21000 ∧ o % 64 = 0 ∧ !d.hnd ∧ paDie pa = s.die then
    (let g := (o - 0x20000) / 64
     some (g, fget 0 s.fab.mgroups (s.die * 128 + 2 * g), fget 0 s.fab.mgroups (s.die * 128 + 2 * g + 1)))
  else none
/-- What a `put` or a `get` takes with it, of what it has read: descriptor, handler image, checked, and the words of a multicast target. -/
def putCap (e : QEnt) (sc : Scope) (b : List (BitVec 8)) (group : Option (Nat × BitVec 64 × BitVec 64)) : Except Trap PutCap :=
  let d := parsePut b
  let cap := fun h => ({ dst := d.dst, src := d.src, len := d.len, handler := h, group := group } : PutCap)
  if !d.ok then .error (accessFault 0x04 (e.args.getD 0 0) 0)
  else if !d.hnd then .ok (cap none)
  else
    match recordImage e.jcb sc (b.drop 64) with
    | none => .error (accessFault 0x04 d.hrec 0)
    | some h => .ok (cap (some h))
/-- `put` and `get` leave the queue with what they have read; with a handler a `put` waits as a release at sys scope does (R221). -/
def State.performPut (s : State) (e : QEnt) (sc : Scope) : State × Bool :=
  match s.headBytes e with
  | (s, none) => (s, false)
  | (s, some (.error t)) => s.startCmd e false [] none (some t)
  | (s, some (.ok b)) =>
    let go := fun (s : State) (g : Option (Nat × BitVec 64 × BitVec 64)) =>
      match putCap e sc b g with
      | .error t => s.startCmd e false [] none (some t)
      | .ok p => if sc = .sys && p.handler.isSome && !s.released e.handle .sys then (s, false) else s.startCmd e false [] (some p) none
    if sc = .sys && (parsePut b).ok && !(parsePut b).hnd then
      match s.tuXlate s.die e.asid (parsePut b).dst .write with
      | (s, .wait, _) => (s, false)
      | (s, .fault _, _) => go s none
      | (s, .done pa _ _, _) => go s (s.targetOf (parsePut b) pa)
    else go s none
/-- A multicast group entry by its words: valid, its group, BASE (R389). -/
def groupOfWords (a b : BitVec 64) : Bool × Group × Nat :=
  (a.getLsbD 63, { origin := a.toNat % 2 ^ 23, ex := bits a.toNat 24 6 + 1, ey := bits a.toNat 30 6 + 1, ez := bits a.toNat 36 6 + 1 }, bits b.toNat 6 30 * 64)

/-! Checkpoints leave the queue. -/

/-- A `ckpt` leaves the queue: the die's checkpoint, unless another is in progress there (R409). -/
def State.startCkpt (s : State) (e : QEnt) : State × Bool :=
  let busy := s.sched.ckpts.any fun k => k.die == s.die
  let (s, _) := s.startCmd e false [] none none
  let id := (s.cmds.getLast?.map Cmd.id).getD 0
  (if busy then s else s.onSched fun c => { c with ckpts := c.ckpts ++ [{ die := s.die, cmd := id }] }, true)

/-! Task, router and system forms. -/

/-- Why this die cannot read the counts of a JCB: its home is out of reach, or one of their words holds an uncorrectable error (R352). -/
def State.jcbStop (s : State) (jcb : Nat) : Option Trap :=
  if paDie jcb != s.die && (s.route s.die (paDie jcb)).isNone then some (remoteFault 0x01 0 (paDie jcb)) else s.jcbFlaw s.die jcb
/-- Add a post, or report why the JCB cannot be read. -/
def State.postFrom (s : State) (e : QEnt) : State :=
  match s.jcbStop e.jcb with
  | some t => s.entryReport e t
  | none => s.post e.jcb
/-- Make a raise: whether it was made, and the report otherwise. -/
def State.raiseFrom (s : State) (e : QEnt) (n : Nat) : State × Bool :=
  match s.jcbStop e.jcb with
  | some t => (s.entryReport e t, false)
  | none =>
    match s.raiseExpect e.jcb n with
    | (s, none) => (s, true)
    | (s, some t) => (s.entryReport e t, false)
def State.performJraise (s : State) (e : QEnt) : State × Bool := ((s.raiseFrom e (e.args.getD 0 0)).1, true)
/-- `done` (R252, R349). -/
def State.performDone (s : State) (e : QEnt) : State × Bool :=
  if !s.released e.handle .sys then (s, false)
  else
    let s := if e.args.getD 0 0 = 1 then s.postFrom e else s
    if e.args.getD 1 0 = 1 then
      let t := e.args.getD 3 0
      (s.handlerDone (keyDie e.handle) e.jcb (e.args.getD 2 0) (if t = 0 then none else some (t - 1)) (e.args.getD 4 0 == 1), true)
    else (s, true)
/-- A request of a store-queue entry is unacknowledged. -/
def State.entryOut (s : State) (e : QEnt) : Bool :=
  s.fab.reqs.any fun r => match r.owner with
    | .store _ q => q.id == e.id
    | _ => false
/-- `cpost` (R254): the bit, then, once it is set, the post. The last number: 1 the bit is to be set, 2 its acknowledgement is awaited, 0 done. -/
def State.performCpost (s : State) (e : QEnt) (sc : Scope) : State × Bool :=
  let va := e.args.getD 0 0
  let phase := e.args.getD 3 0
  let fin := fun (s : State) => (if e.args.getD 2 0 = 1 then s.postFrom e else s, true)
  if phase = 2 then (if s.entryOut e then (s, false) else fin s)
  else if !s.released e.handle sc then (s, false)
  else if phase = 0 then fin s
  else
    match s.sourceOf e .rw { va := va, addr := va, n := 8, off := 0 } with
    | (s, .home pa _ _) =>
      let k : ReqKind := .bitOp pa true (e.args.getD 1 0)
      if paDie pa = s.die then
        let (s, a) := s.performAccess e.jcb k
        if a.1 = 0 then fin (s.storeLine e.asid (wrAt (sectorPart va) fun _ => k)) else (s.failEntry e .none (answerTrap a.1 va s.die s.die), true)
      else if (s.routeOf false s.die (paDie pa)).isNone then (s.failEntry e .none (remoteFault 0x01 va (paDie pa)), true)
      else if reqFull s s.die (paDie pa) then (s, false)
      else
        let s := s.storeLine e.asid (wrAt (sectorPart va) fun _ => k)
        let e2 := { e with args := e.args.set 3 2 }
        (((s.sendReq s.die (paDie pa) e.jcb va false k (.store s.cid e2)).1).setHead e2, false)
    | (s, .bad t) => (s.failEntry e .none t, true)
    | (s, _) => (s, false)
/-- What `sqacc` and `sqrej` do in memory, in order: each word of bits cleared, then each length stored (R265, R268): an address, and the mask of a clear or the bytes of a length. -/
def commitActs (rs : List (Nat × Region)) (clen old : Nat) : List (Nat × (BitVec 64 ⊕ List (BitVec 8))) :=
  (rs.flatMap fun r => (List.range (if clen < old then (old - 1) / 64 - clen / 64 + 1 else 0)).map fun i =>
    let w := clen / 64 + i
    let m := (List.range 64).foldl (fun (m : Nat) b => if clen ≤ 64 * w + b ∧ 64 * w + b < old then m + 2 ^ b else m) 0
    ((r.2.cbmp / 8 * 8 + 8 * w) % 2 ^ 56, Sum.inl (BitVec.ofNat 64 m)))
    ++ rs.map fun r => (r.1 + 0x18, Sum.inr (natLe 4 clen))
/-- Perform the actions from a number on: at their home here, as requests elsewhere; the lengths once every clear is acknowledged. The number of the action it stops at, and the trap of one that fails. -/
def State.commitFrom (s : State) (e : QEnt) : List (Nat × (BitVec 64 ⊕ List (BitVec 8))) → Nat → State × Nat × Option Trap
  | [], k => (s, k, none)
  | (va, act) :: r, k =>
    if act.isRight && s.entryOut e && (s.fab.reqs.any fun q => (match q.owner, q.kind with
      | .store _ x, .clear _ _ => x.id == e.id
      | _, _ => false)) then (s, k, none)
    else
      match s.sourceOf e (if act.isLeft then .rw else .write) { va := va, addr := va, n := 4, off := 0 } with
      | (s, .home pa _ _) =>
        let (kind, wr) : ReqKind × Wr := match act with
          | .inl m => (.clear pa m, wrAt { va := va, addr := va, n := 8, off := 0 } fun pa => .clear pa m)
          | .inr b => (.write pa b, wrAt { va := va, addr := va, n := 4, off := 0 } fun pa => .write pa b)
        if paDie pa = s.die then
          let (s, a) := s.performAccess e.jcb kind
          if a.1 = 0 then (s.storeLine e.asid wr).commitFrom e r (k + 1) else (s, k, some (answerTrap a.1 va s.die s.die))
        else if (s.routeOf false s.die (paDie pa)).isNone then (s, k, some (remoteFault 0x01 va (paDie pa)))
        else if reqFull s s.die (paDie pa) then (s, k, none)
        else (((s.storeLine e.asid wr).sendReq s.die (paDie pa) e.jcb va act.isRight kind (.store s.cid e)).1).commitFrom e r (k + 1)
      | (s, .bad t) => (s, k, some t)
      | (s, _) => (s, k, none)
/-- `sqacc` and `sqrej` (R268). -/
def State.performCommit (s : State) (e : QEnt) : State × Bool :=
  match s.headBytes e with
  | (s, none) => (s, false)
  | (s, some (.error t)) => (s.failEntry e .none t, true)
  | (s, some (.ok b)) =>
    let acts := commitActs (headersOf (e.args.getD 0 0) b) (e.args.getD 1 0) (e.args.getD 2 0)
    match s.commitFrom e (acts.drop (e.args.getD 3 0)) (e.args.getD 3 0) with
    | (s, _, some t) => (s.failEntry e .none t, true)
    | (s, k, none) => if k = acts.length then (s, true) else (s.setHead { e with args := e.args.take 3 ++ [k] }, false)
/-- An effect on state that cores share, made by the core as an entry performs: it takes its place among those of this cycle. -/
def State.effNow (s : State) (e : Eff) : State :=
  s.onCore fun c => c.soon s.clk.now s.clk.nextId e
/-- `barr` (R236): a local arrival is one of this cycle's (R235). -/
def State.performBarr (s : State) (e : QEnt) (n : BitVec 6) (remote : Bool) : State × Bool :=
  let die := e.args.getD 0 0
  if !remote then (s.effNow (.arrive n.toNat e.jcb), true)
  else if !s.released e.handle .sys then (s, false)
  else (s.sendCrit s.die die (.arrival n.toNat die) e.jcb e.handle e.pc (opcOf e.i) s.cid, true)
/-- The job has met its completion condition and drains (R337). -/
def State.isEnding (s : State) (jcb : Nat) : Bool := s.sched.ending.any fun e => e.jcb == jcb
/-- `rverd` (R261): the verdict on its record: 0 passes, 1 fails, 2 is an error. The records of a job that has ended are abandoned (R367). -/
def State.performRverd (s : State) (e : QEnt) (v : BitVec 2) : State × Bool :=
  let set := e.args.getD 0 0
  let idx := e.args.getD 1 0
  let st := e.args.getD 2 0
  let live := match fget none (s.tset s.die set).places idx with
    | some p => p.running == some (e.handle, st)
    | none => false
  if !live || s.isEnding e.jcb then (s, true)
  else if v = 2 then
    let t := stageTrap (s.recordHdr s.die (set, idx)) st 0
    let s := (s.stageError s.die set idx st).onPlace s.die set idx fun p => { p with done := p.done ||| (1#8 <<< st) }
    (s.toTraps { die := s.die, key := some e.handle, jcb := e.jcb, deadline := s.deadlineOf e.handle, trap := e.trap t, deferred := true, sslot := none }, true)
  else (s.effNow (.verdict set idx st (v = 0) (e.args.getD 3 0) e.handle), true)
/-- `tlbinv` (R271, R293): it waits at the head of both queues from its start to its completion. -/
def State.performTlbinv (s : State) (e : QEnt) (k : BitVec 2) : State × Bool :=
  let started := e.args.length > 2
  if started then (s, !(s.xl.inval.any fun v => v.2.1 == e.id))
  else if !s.loadsDone e.handle then (s, false)
  else
    let e2 := { e with args := e.args ++ [1] }
    let s := s.staleWalks s.die k.toNat (e.args.getD 0 0) (e.args.getD 1 0)
    let s := s.onXl fun x => { x with inval := x.inval ++ [(s.die, e.id, s.now)] }
    (s.setBoth e2, false)

/-! The heads of the queues. -/

/-- Perform an entry at the head of its queue, or of both: whether it leaves. -/
def State.perform (s : State) (e : QEnt) : State × Bool :=
  let va := e.args.getD 0 0
  match e.i with
  | .ld _ _ _ => s.performLoad e (destOf e.i 0) [{ va := va, addr := va / 8 * 8, n := 8, off := 0 }] false true false
  | .ldacq _ _ sc _ => s.performLoad e (destOf e.i 0) [{ va := va, addr := va / 8 * 8, n := 8, off := 0 }] (wideScope sc) true true
  | .stld _ _ _ => s.performLoad e (destOf e.i 0) [{ sectorPart va with va := va }] false true false
  | .pf h _ _ => if h then (s, true) else s.performLoad e .none [sectorPart va] false false false
  | .vpf _ => s.performLoad e .none (e.args.filterMap fun a => if a = 0 then none else some (sectorPart (a - 1))) false false false
  | .vld f => s.performLoad e (destOf e.i (lfMask f e.mask)) (if e.byLane f then laneParts (lfE f) e.args else pieceParts (f.w.bits / 8) e.args) false true false
  | .vldb f => s.performLoad e (destOf e.i (lfMask f e.mask)) (laneParts (lfE f) e.args) false true false
  | .l1inv => (s.dropL1, true)
  | .mark => (s, true)
  | .fence sc k =>
    let acq := k.getLsbD 0
    let rel := k.getLsbD 1
    if (acq && !s.loadsDone e.handle) || (rel && !s.released e.handle sc) then (s, false)
    else (if acq && wideScope sc then s.dropL1 else s, true)
  | .st _ _ _ => s.performStore e .write [wordWrite va (e.args.getD 1 0)]
  | .strel _ _ sc _ => if s.released e.handle sc then s.performStore e .write [wordWrite va (e.args.getD 1 0)] else (s, false)
  | .vst f => s.performStore e .write (vstWrites f e)
  | .vscat f => s.performStore e .write (scatWrites 0 f e)
  | .vscadd f => s.performStore e .rw (scatWrites 1 f e)
  | .vscmax f => s.performStore e .rw (scatWrites 2 f e)
  | .vredst f => s.performStore e .rw (redWrites f e)
  | .ecopy f => s.startCmd e (e.args.getD 4 0 == 1) (if f.ring then tileRun (e.args.getD 2 0) (e.args.getD 3 0) else rowTiles f.row.toNat f.rows.toNat) none none
  | .hxch _ _ _ => s.startCmd e false (e.args.drop 2) none none
  | .reshard _ _ _ | .coll _ _ | .edisp _ _ | .ecomb _ _ => s.startCmd e false [] none none
  | .put _ _ => s.performPut e .sys
  | .get _ _ => s.performPut e .die
  | .barr n r _ => s.performBarr e n r
  | .done _ => s.performDone e
  | .jraise _ => s.performJraise e
  | .cpost _ _ sc _ => s.performCpost e sc
  | .sqset _ _ => s.performDevice e (destOf e.i 0)
  | .sqacc _ _ | .sqrej _ => s.performCommit e
  | .rverd v => s.performRverd e v
  | .tlog _ _ => s.performStore e .write [wrAt { va := va, addr := va, n := 16, off := 0 } fun pa => .write pa (natLe 8 (e.args.getD 1 0) ++ natLe 8 (e.args.getD 2 0))]
  | .tsload _ _ _ => s.performDevice e (destOf e.i 0)
  | .rsload _ _ => s.performDevice e (destOf e.i 0)
  | .tlbinv k _ _ => s.performTlbinv e k
  | .aclwr _ _ => (s.onSched fun c => { c with acl := fput 0 (s.die * 64 + e.args.getD 0 0) (BitVec.ofNat 64 (e.args.getD 1 0)) c.acl }, true)
  | .ckpt _ _ => if s.released e.handle .sys then s.startCkpt e else (s, false)
  | i =>
    match atomicOf i with
    | some (code, sc, o) => s.performAtomic e code sc o
    | none => (s, true)
/-- The entry at the head of the load queue or the store queue. -/
def State.headOf (s : State) (store : Bool) : Option QEnt := if store then s.core.storeQ.head? else s.core.loadQ.head?
/-- What an entry has read to perform with goes with it. -/
def Core.dropHeads (c : Core) (gone : QEnt → Bool) : Core := { c with outst := c.outst.filter fun o => !(o.dest == .head && gone o.q) }
/-- An entry leaves its queue, or both. -/
def State.leaveQueue (s : State) (e : QEnt) (store : Bool) : State :=
  (s.onCore fun c => c.dropHeads fun q => q.id == e.id).onCore fun c => { c with
    loadQ := if !store || e.both then c.loadQ.drop 1 else c.loadQ, storeQ := if store || e.both then c.storeQ.drop 1 else c.storeQ }
/-- An entry of both queues stands at the head of both. -/
def State.bothHead (s : State) : Bool :=
  match s.headOf false, s.headOf true with
  | some a, some b => a.both && a.id == b.id
  | _, _ => false
/-- QUEUE_ENTRY_PERFORM (R153): the head of a queue performs if nothing holds it. An entry of both queues is performed from the load queue's side, at the head of both. -/
def execQueueEntryPerform (store : Bool) (s : State) : Out :=
  .next (match s.headOf store with
      | none => s
      | some e =>
        if s.acqBlocked e || (e.both && (store || !s.bothHead)) then s
        else
          let (s, ok) := s.perform e
          if ok then s.leaveQueue e store else s)

/-! SPAWN_ENQUEUE (R250). -/

/-- The child of a `spawn`, given its kernel descriptor. -/
def QEnt.child (e : QEnt) (f : SpawnF) (k : Kdesc) : Cont :=
  { Cont.blank e.jcb with
    pc := BitVec.ofNat 56 (e.args.getD 3 0), deadline := BitVec.ofNat 64 (e.args.getD 2 0), budget := BitVec.ofNat 32 k.budget, stage := f.stage,
    kdesc := BitVec.ofNat 56 (e.args.getD 4 0), arg0 := BitVec.ofNat 64 (e.args.getD 1 0), lcoord := BitVec.ofNat 32 (e.args.getD 0 0 * 64),
    acquire := some (if f.remote then .sys else .die) }
/-- The child is enqueued when the die's ready queue has room; a refused raise creates nothing; a die that cannot be reached is reported. One for another die stays at the head until that die has answered. -/
def State.performSpawn (s : State) (e : QEnt) (f : SpawnF) : State × Bool :=
  let die := e.args.getD 0 0
  if e.args.length > 5 then (s, !s.entryOut e)
  else if f.remote && !s.released e.handle .sys then (s, false)
  else
    match s.headBytes e with
    | (s, none) => (s, false)
    | (s, some (.error t)) => (s.entryReport e t, true)
    | (s, some (.ok b)) =>
      let c := e.child f (parseKdesc b)
      if die ≠ s.die ∧ (s.routeOf false s.die die).isNone then (s.entryReport e (remoteFault 0x01 0 die), true)
      else if (if die = s.die then !s.dieLevelFree die else reqFull s s.die die) then (s, false)
      else
        let (s, ok) := if f.raise then s.raiseFrom e 1 else (s, true)
        if !ok then (s, true)
        else if die = s.die then ((s.create die c).1, true)
        else
          let e2 := { e with args := e.args ++ [1] }
          (((s.sendReq s.die die e.jcb 0 false (.spawn c f.raise) (.store s.cid e2)).1).setHead e2, false)
def execSpawnEnqueue (s : State) : Out :=
  .next (match s.headOf true with
    | none => s
    | some e =>
      match e.i with
      | .spawn f =>
        if s.acqBlocked e then s
        else
          let (s, ok) := s.performSpawn e f
          if ok then s.leaveQueue e true else s
      | _ => s)

/-! RECORD_ADMISSION (R356). -/

/-- A record header that R356 refuses. -/
def headerRefused (b : List (BitVec 8)) : Bool :=
  let x := leNat b
  let g := fun o n => bits x (8 * o) (8 * n)
  g 0x17 1 != 0 || g 0x10 1 % 16 != 0 || g 0x1A 6 != 0 || g 0x2C 4 != 0 || decide (2 ^ 24 < g 0x28 4) || g 0 1 % 64 != 0 || bits (g 3 1) 3 4 != 0
/-- A `tsub` performs with the header it has read: the record is in flight, or its place is freed and the submitter told. A set that its job no longer holds takes no record (R258; log entry 108). -/
def State.admitRecord (s : State) (e : QEnt) (set : Nat) (r : Except Trap (List (BitVec 8))) : State :=
  let idx := e.args.getD 0 0
  let hdr := e.args.getD 1 0
  let drop := fun (t : Trap) => (s.onTset s.die set fun x => { x with places := fput none idx none x.places }).entryReport e t
  if (s.tset s.die set).holder ≠ some e.jcb ∨ (fget none (s.tset s.die set).places idx).isNone then drop (accessFault 0x04 0 0)
  else
    match r with
    | .error t => drop t
    | .ok b =>
      if headerRefused b then drop (accessFault 0x04 hdr 0)
      else
        let x := leNat b
        s.onPlace s.die set idx fun p => { p with log := bits x 128 56, lcap := bits x 192 16, sub := e.handle, pc := e.pc, admitted := true, since := s.now }
/-- RECORD_ADMISSION: the head of the store queue, a `tsub`, reads its record's header, then performs. -/
def execRecordAdmission (id : Nat) (s : State) : Out :=
  .next (match s.headOf true with
    | some e =>
      (match e.i with
        | .tsub n _ _ _ =>
          if e.id ≠ id ∨ s.acqBlocked e then s
          else
            match s.headBytes e with
            | (s, none) => s
            | (s, some r) => (s.admitRecord e n.toNat r).leaveQueue e true
        | _ => s)
    | none => s)

/-! Responses. -/

/-- Modes of a stage set from its descriptor (R353, R259). -/
def TSet.ofDesc (t : TSet) (b : Nat) : TSet :=
  let g := fun o n => bits b (8 * o) (8 * n)
  { t with loading := t.loading - 1, nstg := g 0 1, qcap := g 1 1, rtseed := BitVec.ofNat 64 (g 8 8), lctr := BitVec.ofNat 128 (g 0x10 16), acc := BitVec.ofNat 32 (g 0x20 4), rej := BitVec.ofNat 32 (g 0x24 4),
           draws := BitVec.ofNat 32 (g 0x28 4), flist := g 0x30 7,
           stages := (List.range 8).map fun i => { kdesc := BitVec.ofNat 56 (g (0x40 + 16 * i) 7), pass := BitVec.ofNat 16 (g (0x48 + 16 * i) 2), cost := BitVec.ofNat 16 (g (0x4A + 16 * i) 2) } }
/-- A tensor map lands in a stream (R149); the generation is copied where its LY bit is set (R14, R140). -/
def State.landStream (s : State) (n : BitVec 5) (jcb v : Nat) : State :=
  let img := BitVec.ofNat 512 v
  let st : Stream := { Stream.reset with img := img, valid := true }
  let st := { st with lyent := BitVec.ofNat 4 st.lyref, lygen := if st.ly then (s.layEnt s.die jcb st.lyref).gen else 0 }
  s.wst n fun _ => if st.cext = 0 then st else st.setCpos (st.cpos % st.cext)
/-- A register that a load writes takes its value among the results of the cycle, in the order of the LS slot (R10). -/
def State.loadEff (s : State) (id : Nat) (e : Eff) : State :=
  s.onCore fun c => { c with pend := c.pend ++ [{ due := s.clk.now, slot := 2, seq := id, pc := 0, rep := 0, eff := e }] }
/-- What a response writes. A descriptor lands in its stage set only where the set is still the one its `tsload` took (R259). -/
def State.landLoad (s : State) (o : Outst) : State :=
  let v := match o.resp with
    | .value v => v
    | _ => 0
  match o.dest with
  | .none | .head => s
  | .sreg n => s.loadEff o.id (.sreg n (BitVec.ofNat 64 v))
  | .vreg n m =>
    let w := match o.q.i with
      | .vldb f => fromLanes f.t.bits (List.replicate (lfN f) v)
      | _ => v
    s.loadEff o.id (.vreg n m (BitVec.ofNat 1024 w))
  | .stream n => s.landStream n o.q.jcb v
  | .cursor n => (match o.resp with
    | .cursor c => s.wsq n c
    | _ => s)
  | .set n => s.onTset s.die n.toNat fun t => if t.stamp = o.q.args.getD 1 0 ∧ t.holder.isSome then t.ofDesc v else { t with loading := t.loading - 1 }
  | .slot n => s.onVslot s.die n.toNat fun x =>
      let len := 64 + 32 * bits v 48 16
      { x with loaded := true, image := natLe len v, tok := [] }
/-- OFF_CORE_LOAD_RESPONSE (R153): the value lands and the destination is free again; an acquire empties the L1 (R158). A result for a continuation that has left the core, or one discarded behind a fault, writes nothing. -/
def execOffCoreLoadResponse (id : Nat) (s : State) : Out :=
  .next (match s.core.outst.find? fun o => o.id == id with
    | none => s
    | some o =>
      let s := s.onCore fun c => { c with outst := c.outst.filter fun x => x.id ≠ id }
      let sc := match o.q.i with
        | .ldacq _ _ sc _ => sc
        | i => (match atomicOf i with
          | some (_, sc, _) => sc
          | none => .core)
      let s := if o.acq && wideScope sc then s.dropL1 else s
      let device := match o.dest with
        | .set _ | .slot _ => true
        | _ => false
      let dropped := match s.core.dropFrom with
        | some n => decide (n < o.q.id)
        | none => false
      if o.resp = .drop ∨ ((o.q.handle ≠ s.selfKey ∨ dropped = true) ∧ !device) then s else s.landLoad o)
/-- A terminating access fault of the resident continuation: the results of its later loads are discarded until it stops (R154). -/
def Core.dropLater (c : Core) (handle id : Nat) : Core :=
  if c.res = some handle then { c with dropFrom := some (match c.dropFrom with
    | some n => Nat.min n id
    | none => id) }
  else c
/-- OFF_CORE_FAULT_REPORT (R154): the trap is reported and nothing is written, by no part of the access; later loads of the continuation are discarded where the trap ends it. A failed `tsload` leaves the set free, a failed `rsload` the slot unloaded (R259, R392). -/
def execOffCoreFaultReport (id : Nat) (s : State) : Out :=
  .next (match s.core.outst.find? fun o => o.id == id with
    | none => s
    | some o =>
      let s := s.onCore fun c => { c with outst := (c.outst.filter fun x => x.id ≠ id).map fun x => if x.q.id = o.q.id then { x with resp := .drop } else x }
      let s := match o.dest with
        | .set n => s.onTset s.die n.toNat fun t => { (if t.stamp = o.q.args.getD 1 0 then t.fresh else t) with loading := t.loading - 1 }
        | .slot n => s.onVslot s.die n.toNat fun x => { x with loaded := false }
        | _ => s
      match o.resp with
      | .fault t =>
        let s := if t.resumable then s else s.onCore fun c => c.dropLater o.q.handle o.q.id
        s.report o.q.handle o.q.jcb t
      | _ => s)

end Sys2Proof.Machine
end

