-- ==== Sys2Proof/Machine/Sched.lean ====
section
/-! DEFINITION. The dispatcher: pushes and launch queues, expansion, dispatch, pre-emption marks, gangs (R308 to R332), trap records and their actions (R345 to R350), the end of a job (R337, R367). -/

namespace Sys2Proof.Machine

/-! Launch packets (R312). -/

def pktF (p : BitVec 512) (o n : Nat) : Nat := bits p.toNat (8 * o) (8 * n)
def pktJcb (p : BitVec 512) : Nat := pktF p 0 8 % 2 ^ 59
def pktKdesc (p : BitVec 512) : Nat := pktF p 8 8 % 2 ^ 56
def pktArg (p : BitVec 512) : Nat := pktF p 0x10 8
def pktDeadline (p : BitVec 512) : Nat := pktF p 0x18 8
def pktCount (p : BitVec 512) : Nat := pktF p 0x20 4
def pktBudget (p : BitVec 512) : Nat := pktF p 0x24 4
def pktGang (p : BitVec 512) : Bool := (pktF p 0x28 1).testBit 0
def pktMalformed (p : BitVec 512) : Bool :=
  pktF p 0x29 23 != 0 || bits (pktF p 0x28 1) 1 7 != 0 || bits (pktF p 0 8) 59 5 != 0 || pktF p 0 8 % 128 != 0 || pktF p 0xF 1 != 0 || pktF p 8 8 % 64 != 0

/-! Pushes (R308 to R310). -/

/-- The access-control entry matches a pusher: its kind, and its die where the pusher is a die. -/
def aclMatch (e : BitVec 64) (kind die : Nat) : Bool :=
  e.getLsbD 63 && decide (bits e.toNat 61 2 = kind) && bits e.toNat 16 22 == 0 && decide (bits e.toNat 38 23 = if kind = 3 then die else 0)
/-- A pusher may push to a queue. -/
def State.aclAllows (s : State) (die kind pusher q : Nat) : Bool :=
  match (List.range 64).find? fun i => aclMatch (fget 0 s.sched.acl (die * 64 + i)) kind pusher with
  | some i => (fget 0 s.sched.acl (die * 64 + i)).getLsbD q
  | none => false
def State.launchQ (s : State) (die q : Nat) : List (BitVec 512) := fget [] s.sched.launch (die * 16 + q)
/-- The checks of a push, in the order of R309. -/
def State.pushResult (s : State) (kind pusher die q : Nat) (p : BitVec 512) : Nat :=
  if !s.aclAllows die kind pusher q then 0x02
  else if pktMalformed p then 0x03
  else if 2 ^ 24 < pktCount p then 0x30
  else if Config.launchQueueSize ≤ (s.launchQ die q).length then 0x01
  else 0x00
/-- A push: the state, and the push answer. -/
def State.pushTo (s : State) (kind pusher die q : Nat) (p : BitVec 512) : State × BitVec 64 :=
  let r := s.pushResult kind pusher die q p
  let s := if r = 0 then s.onSched fun c => { c with launch := fmod [] (die * 16 + q) (· ++ [p]) c.launch } else s
  (s, BitVec.ofNat 64 (r + (s.launchQ die q).length * 2 ^ 8))

/-! Gang descriptors (R315, R316). -/

structure GangDesc where
  members : List Nat
  pipes : List Pipe
  rsvdOk : Bool
def parsePipe (e : Nat) : Pipe :=
  { fromStage := bits e 40 3, toStage := bits e 37 3, ptile := bits e 49 7, ctile := bits e 56 7, depth := bits e 43 6 + 1, ph := BitVec.ofNat 3 (bits e 34 3), ch := BitVec.ofNat 3 (bits e 31 3), prod := 0, cons := 0 }
def parseGang (b : List (BitVec 8)) : GangDesc :=
  let x := leNat b
  let es := (List.range 8).map fun p => bits x (512 + 64 * p) 64
  { members := ((List.range 8).map fun m => bits x (64 * m) 64).takeWhile (· ≠ 0), pipes := (es.filter fun e => e.testBit 63).map parsePipe, rsvdOk := es.all fun e => bits e 0 31 == 0 }
/-- A pipe lies in its members' runs and joins two of them. -/
def Pipe.ok (p : Pipe) (ks : List Kdesc) : Bool :=
  match ks[p.fromStage]?, ks[p.toStage]? with
  | some f, some t => p.fromStage != p.toStage && decide (f.afirst ≤ p.ptile) && decide (p.ptile + p.depth ≤ f.afirst + f.acnt) && decide (t.afirst ≤ p.ctile) && decide (p.ctile + p.depth ≤ t.afirst + t.acnt)
  | _, _ => false
/-- The handles that the pipes give a member. -/
def pipeHandles (ps : List Pipe) (m : Nat) : List (BitVec 3) :=
  (ps.filterMap fun p => if p.fromStage = m then some p.ph else none) ++ ps.filterMap fun p => if p.toStage = m then some p.ch else none
/-- Kernel descriptors of the members, checked under R321. -/
def State.memberDescs (s : State) (die asid : Nat) : List Nat → Option (List Kdesc)
  | [] => some []
  | a :: r =>
    match s.kdesc die asid (a % 2 ^ 56), s.memberDescs die asid r with
    | .ok k, some ks => if k.ok then some (k :: ks) else none
    | _, _ => none
/-- The gang descriptor of a packet, when it passes R321. -/
def State.gangDesc (s : State) (die asid va : Nat) : Option GangDesc :=
  match s.rdVirt die asid va 128 with
  | .error _ => none
  | .ok b =>
    let g := parseGang b
    match s.memberDescs die asid g.members with
    | none => none
    | some ks =>
      if g.members.isEmpty || !g.rsvdOk || g.pipes.any (fun p => !p.ok ks) || (List.range 8).any (fun m => !(pipeHandles g.pipes m).Nodup) then none else some g

/-! Creating units (R318). -/

/-- A continuation with a number of its own, not enqueued. -/
def State.createAt (s : State) (die seq : Nat) (c : Cont) : State × Nat :=
  let s := s.giveJtag die c.jcb
  let h := fget 0 s.sched.nextHandle die
  let s := s.onSched fun x => { x with nextHandle := fmod 0 die (· + 1) x.nextHandle }
  (s.setCont (contKey die h) (some { c with jtag := s.jtag die c.jcb, seq := seq }), contKey die h)
/-- Unit i of a packet, from a kernel descriptor. It sees what the host wrote before the push (R401). -/
def unitCont (die : Nat) (p : BitVec 512) (i stage kd : Nat) (k : Kdesc) : Cont :=
  { Cont.blank (pktJcb p) with
    pc := BitVec.ofNat 56 (k.code + 4 * k.entry), deadline := BitVec.ofNat 64 (pktDeadline p),
    budget := BitVec.ofNat 32 (if pktBudget p = 0 then k.budget else pktBudget p), stage := BitVec.ofNat 3 stage, kdesc := BitVec.ofNat 56 kd,
    arg0 := BitVec.ofNat 64 (pktArg p), arg1 := BitVec.ofNat 64 i, acquire := some .sys,
    lcoord := BitVec.ofNat 32 (die % 2 ^ 23 * 64 + i / 8 % 8 * 8 + (if pktGang p then stage else i % 8)) }
/-- Create gang unit i: its members wait, its entry stands in the base die. -/
def State.createGang (s : State) (die : Nat) (p : BitVec 512) (i seq : Nat) : State :=
  match s.gangDesc die (jcbAsid s (pktJcb p)) (pktKdesc p) with
  | none => s
  | some g =>
    let (s, id) := s.fresh
    let ms := List.zipIdx g.members
    let (s, keys) := ms.foldl (fun (acc : State × List Nat) m =>
      match acc.1.kdesc die (jcbAsid acc.1 (pktJcb p)) (m.1 % 2 ^ 56) with
      | .error _ => acc
      | .ok k =>
        let (s, key) := acc.1.createAt die seq { unitCont die p i m.2 (m.1 % 2 ^ 56) k with gang := some (id, m.2), state := stGangwait }
        (s, acc.2 ++ [key])) (s, [])
    let gang : Gang := { id := id, die := die, state := .pending, members := keys, cores := [], pipes := g.pipes, packet := p, unit := i }
    (s.onSched fun c => { c with gangs := c.gangs ++ [gang] }).insertReady { die := die, level := .die, deadline := pktDeadline p, seq := seq, item := .gang id }

/-! Expansion (R311, R317 to R321). -/

/-- RSVD fields of a JCB. -/
def State.jcbBad (s : State) (j : Nat) : Bool :=
  s.rd (j + 0xE) 2 != 0 || bits (jcbFlags s j) 2 6 != 0 || s.rd (j + 0x44) 4 != 0 || s.rd (j + 0x58) 40 != 0 || s.rd (j + 0xD) 1 / 16 != 0 || s.rd (j + 0x1F) 1 != 0 || s.rd (j + 0x3F) 1 != 0
/-- The cause of a launch failure, or the number of members of a unit. -/
def State.launchCheck (s : State) (die : Nat) (p : BitVec 512) : Except Nat Nat :=
  let j := pktJcb p
  let asid := jcbAsid s j
  let m := if s.flawed j 128 || s.jcbBad j then none
    else if pktGang p then (s.gangDesc die asid (pktKdesc p)).map fun g => g.members.length
    else
      match s.kdesc die asid (pktKdesc p) with
      | .ok k => if k.ok then some 1 else none
      | .error _ => none
  match m with
  | none => .error cAccess
  | some m => if jcbExpect s j + pktCount p * m < 2 ^ 32 then .ok m else .error cRange
/-- Lower PENDING, keep the cause of the first failure in STATUS. -/
def State.lowerPending (s : State) (j : Nat) : State := s.wr (j + 8) 2 ((jcbPending s j + 2 ^ 16 - 1) % 2 ^ 16)
def State.setStatus (s : State) (j cause : Nat) : State := if s.rd (j + 0xB) 1 = 0 then s.wr (j + 0xB) 1 cause else s
/-- Reserve consecutive enqueue numbers. -/
def State.reserveSeq (s : State) (die n : Nat) : State × Nat := (s.onSched fun c => { c with seq := fmod 0 die (· + n) c.seq }, fget 0 s.sched.seq die)
/-- Expand a packet on a die. A JCB outside the memory of the system cannot be read, and nothing can be written there. -/
def State.expand (s : State) (die : Nat) (p : BitVec 512) : State :=
  let j := pktJcb p
  if s.paBad j || inWindow j || (paDie j != die && (s.route die (paDie j)).isNone) then s
  else
    match s.launchCheck die p with
    | .error c => ((s.lowerPending j).setStatus j c).judgeJob j
    | .ok m =>
      let s := s.giveJtag die j
      let s := (s.wr j 4 (jcbExpect s j + pktCount p * m)).lowerPending j
      let s := if s.rd (j + 0x48) 8 = 0 then s.wr (j + 0x48) 8 s.timeb else s
      let s := s.judgeJob j
      if pktCount p = 0 ∨ (s.sched.ending.any fun e => e.jcb == j) then s
      else
        let (s, seq) := s.reserveSeq die (pktCount p)
        if pktGang p then s.createGang die p 0 seq
        else s.insertReady { die := die, level := .die, deadline := pktDeadline p, seq := seq, item := .packet p 0 }
/-- The queue whose turn it is: the first non-empty one after the one served last. -/
def State.nextQueue (s : State) (die : Nat) : Option Nat :=
  let last := fget 0 s.sched.rr die
  ((List.range 16).map fun i => (last + i) % 16).find? fun q => !(s.launchQ die q).isEmpty
/-- PACKET_EXPANSION (R311, R317): one packet, when the die level has a free entry. -/
def execPacketExpansion (die : Nat) (s : State) : Out :=
  .next (if !s.dieLevelFree die then s
    else
      match s.nextQueue die with
      | none => s
      | some q =>
        match s.launchQ die q with
        | [] => s
        | p :: r => (s.onSched fun c => { c with launch := fput [] (die * 16 + q) r c.launch, rr := fput 0 die ((q + 1) % 16) c.rr }).expand die p)

/-! Starting a continuation on a core (R324, R328, R336). -/

/-- The die's copy of a job's layout table from its image (R31). -/
def parseLayout (b : List (BitVec 8)) : List LyEnt :=
  (List.range 16).map fun i =>
    let x := leNat ((b.drop (32 * i)).take 32)
    { handle := BitVec.ofNat 32 x, kind := BitVec.ofNat 2 (bits x 32 8), gen := BitVec.ofNat 16 (bits x 48 16), shape := BitVec.ofNat 48 (bits x 64 48), busy := false, began := 0 }
/-- Load the copy where the die has none: the subcode of a failure. -/
def State.loadLayout (s : State) (die jcb : Nat) : State × Option Nat :=
  match s.layCopy die jcb with
  | some _ => (s, none)
  | none =>
    match s.rdVirt die (jcbAsid s jcb) (jcbLaybase s jcb) 512 with
    | .error (c, _) => (s, some c)
    | .ok b => ({ s with lay := s.lay ++ [{ die := die, jcb := jcb, ents := parseLayout b }] }, none)
/-- A continuation that cannot start is FAULTED with an ACCESS_FAULT record (R425). -/
def State.failStart (s : State) (key : Nat) (t : Trap) : State :=
  match s.cont key with
  | none => s
  | some c =>
    ((s.onCont key fun c => { c with lastCause := t.cause, state := stRunning }).toTraps
      { die := keyDie key, key := some key, jcb := c.jcb, deadline := c.deadline, trap := { t with pc := c.pc.toNat }, deferred := false, sslot := none }).deferReports key
/-- Registers of a first dispatch (R11, R25, R318). -/
def firstCtx (s : State) (c : Cont) (k : Kdesc) : Ctx :=
  { Ctx.reset with
    pc := c.pc, s := (Ctx.reset.s.set 1 c.arg0).set 2 c.arg1,
    ctl := { Ctl.reset with deadline := c.deadline, budget := c.budget, spbound := BitVec.ofNat 16 (if k.spb = 0 then 2048 else k.spb), traprec := c.traprec,
                            asid := BitVec.ofNat 12 (jcbAsid s c.jcb), laybase := BitVec.ofNat 56 (jcbLaybase s c.jcb) } }
/-- Registers of a restore: the slot's, with what the record and the JCB hold (R40). -/
def againCtx (s : State) (c : Cont) (r : Restored) : Ctx :=
  { r.ctx with pc := c.pc, ctl := { r.ctx.ctl with deadline := c.deadline, budget := c.budget, asid := BitVec.ofNat 12 (jcbAsid s c.jcb), laybase := BitVec.ofNat 56 (jcbLaybase s c.jcb) } }
/-- The core takes the continuation; its first bundle issues after the delay of the dispatch and the cycles of a restore. -/
def State.seat (s : State) (key cid : Nat) (c : Cont) (ctx : Ctx) (rep delay load : Nat) : State :=
  let s := s.onCont key fun x => { x with state := stRunning, acquire := none, atEnd := [] }
  let s := if c.acquire.isSome then s.onCoreAt cid Core.dropL1 else s
  s.onCoreAt cid fun k => { k with
    res := some key, jcb := c.jcb, mode := .starting, ctx := ctx, iss := { Iss.reset with atEnd := c.atEnd }, rep := rep, words := [], lastPc := ctx.pc,
    issueAt := s.now + delay + load, saveDone := s.now + delay, spCount := 0, charged := 0,
    dropFrom := none,
    l1d := if c.state = stSaved && c.savedOn != some cid then k.l1d.filter fun l => l.asid != ctx.ctl.asid.toNat else k.l1d }
/-- Start a continuation on a core: its slot, its tiles, the layout copy, its registers. -/
def State.startOn (s : State) (key cid delay : Nat) : State :=
  let s := s.focus cid
  let s := s.onSched fun x => { x with ready := x.ready.filter fun r => r.item != .cont key }
  match s.cont key with
  | none => s
  | some c =>
    match s.kdesc s.die (jcbAsid s c.jcb) c.kdesc.toNat with
    | .error (e, a) => s.failStart key (reachTrap e a 0)
    | .ok k =>
      let slot := c.slot.orElse fun _ => s.freeSlot c.jcb
      let binds := c.bound.isNone && (k.acnt != 0 || k.wcnt != 0)
      let s := if binds then s.tilesTake cid k c.jtag else s
      let s := s.onCont key fun x => { x with slot := slot, bound := if binds then some (coreOf cid) else x.bound }
      match s.loadLayout s.die c.jcb with
      | (s, some e) => s.failStart key (accessFault (xfSub e) (jcbLaybase s c.jcb) 0)
      | (s, none) =>
        if c.state = stSaved then
          match s.restoreSlot (jcbAsid s c.jcb) (slotAddr s c.jcb (slot.getD 0)) with
          | .error (e, a) => s.failStart key (accessFault (xfSub e) a 0)
          | .ok r =>
            let s := r.flaws.foldl (fun s t => s.padRecord cid false t) s
            let s := s.onCont key fun x => { x with fixups := some r.bad, held := match x.held, r.waits with
              | some w, some n => some { w with rem := n }
              | _, _ => none }
            s.seat key cid c (againCtx s c r) r.rep delay r.cycles
        else s.seat key cid c (firstCtx s c k) 0 delay 0

/-! Dispatch (R325 to R328). -/

/-- Every store a continuation issued has performed at its home (R155). -/
def State.storesQuiet (s : State) (key : Nat) : Bool :=
  !(s.fab.reqs.any fun r => s.ownStore key r) && !(s.coreIds.any fun c => (s.coreAt c).storeQ.any fun e => e.handle == key)
/-- A unit of a packet is eligible on a core. -/
def State.packetOk (s : State) (p : BitVec 512) (cid : Nat) : Bool :=
  (match s.kdesc (dieOf cid) (jcbAsid s (pktJcb p)) (pktKdesc p) with
    | .ok k => s.tilesFree cid k 0xFFFF false
    | .error _ => true) && (s.freeSlot (pktJcb p)).isSome && !(s.sched.ckpts.any fun k => k.die == dieOf cid && s.ckptJob k == some (pktJcb p))
/-- An entry is eligible on a core (R325). -/
def State.itemOk (s : State) (r : Ready) (cid : Nat) : Bool :=
  r.die == dieOf cid && (match r.item with
    | .cont h => s.eligible h cid && ((s.cont h).elim false fun c => c.state != stSaved || s.storesQuiet h)
    | .packet p _ => s.packetOk p cid
    | .gang _ => false)
/-- Cores that a claiming gang holds. -/
def State.claimed (s : State) (cid : Nat) : Bool := s.sched.gangs.any fun g => g.state == .claiming && g.cores.contains cid
def State.idleCore (s : State) (cid : Nat) : Bool := (s.coreAt cid).res.isNone
def dieCores (die : Nat) : List Nat := (List.range 64).map fun c => die * 64 + c
/-- Move up to 8 earliest entries of a level that could become eligible into a lower one that holds fewer than 4 (R326): all 8, whatever room they leave (log entry 116). -/
def State.refillLevel (s : State) (die : Nat) (lo up : Level) (could : Ready → Bool) : State :=
  if 4 ≤ (s.levelEntries die lo).length then s
  else
    let mv := ((s.levelEntries die up).filter could).take 8
    s.onSched fun c => { c with ready := c.ready.map fun r => if mv.contains r then { r with level := lo } else r }
/-- A continuation could become eligible on some of a set of cores. -/
def State.couldRun (s : State) (cores : List Nat) (r : Ready) : Bool :=
  match r.item with
  | .cont h => (match (s.cont h).bind Cont.bound with
    | some b => cores.contains b
    | none => true)
  | _ => false
/-- Every cluster level of a die, then every core level, is refilled. -/
def State.refill (s : State) (die : Nat) : State :=
  let s := (List.range 8).foldl (fun s g => s.refillLevel die (.cluster g) .die (s.couldRun ((List.range 8).map fun i => 8 * g + i))) s
  (List.range 64).foldl (fun s c => s.refillLevel die (.core c) (.cluster (c / 8)) (s.couldRun [c])) s
/-- Cycles from the decision to the first bundle (R328). -/
def Level.delay : Level → Nat
  | .core _ => 8
  | .cluster _ => 24
  | .die => 160
/-- Take an entry and start it on a core. -/
def State.take (s : State) (r : Ready) (cid : Nat) : State :=
  match r.item with
  | .cont h => s.startOn h cid r.level.delay
  | .packet p i =>
    let next : Ready := { r with seq := r.seq + 1, item := .packet p (i + 1) }
    let s := s.onSched fun c => { c with ready := if i + 1 < pktCount p then c.ready.map fun x => if x = r then next else x else c.ready.filter (· ≠ r) }
    match s.kdesc (dieOf cid) (jcbAsid s (pktJcb p)) (pktKdesc p) with
    | .error (e, a) =>
      let (s, key) := s.createAt (dieOf cid) r.seq (unitCont (dieOf cid) p i 0 (pktKdesc p) (parseKdesc []))
      s.failStart key (reachTrap e a 0)
    | .ok k =>
      let (s, key) := s.createAt (dieOf cid) r.seq (unitCont (dieOf cid) p i 0 (pktKdesc p) k)
      s.startOn key cid r.level.delay
  | .gang _ => s
/-- DISPATCH for one core. -/
def State.dispatchCore (s : State) (cid : Nat) : State :=
  if !s.idleCore cid || s.claimed cid || !s.running.contains (dieOf cid) then s
  else
    match s.sched.ready.find? fun r => s.itemOk r cid with
    | none => s
    | some r => s.take r cid

/-! Pre-emption marks (R332). -/

/-- Identity of a ready entry, as a mark names it. -/
def Ready.ident (r : Ready) : Nat :=
  match r.item with
  | .cont h => h
  | .packet _ _ => 2 ^ 59 + r.seq
  | .gang g => markGang + g
/-- The key of the continuation resident on a core. -/
def State.residentKey (s : State) (cid : Nat) : Option (Nat × Nat) :=
  (s.coreAt cid).res.bind fun k => (s.cont k).map fun c => ((s.coreAt cid).ctx.ctl.deadline.toNat, c.seq)
def keyLt (a b : Nat × Nat) : Bool := decide (a.1 < b.1) || (decide (a.1 = b.1) && decide (a.2 < b.2))
/-- A claiming or parked gang as an entry: its cores and its key. -/
def State.gangEntry (s : State) (g : Gang) : Ready :=
  let keys := g.members.filterMap fun m => (s.cont m).map fun c => (c.deadline.toNat, c.seq)
  let k := keys.foldl (fun a b => if keyLt b a then b else a) (2 ^ 64, 0)
  { die := g.die, level := .die, deadline := k.1, seq := k.2, item := .gang g.id }
/-- Everything that waits for a core of a die, in key order. -/
def State.waiting (s : State) (die : Nat) : List Ready :=
  let gs := (s.sched.gangs.filter fun g => g.die == die && (g.state == .claiming || g.state == .parked)).map s.gangEntry
  gs.foldl (fun l g => insertBy readyKeyLt g l) (s.sched.ready.filter fun r => r.die == die)
/-- The entry would be eligible on a core if its resident left. -/
def State.wouldRun (s : State) (r : Ready) (cid : Nat) : Bool :=
  match r.item with
  | .gang g => s.sched.gangs.any fun x => x.id == g && (x.state == .claiming || x.state == .parked) && x.cores.contains cid
  | _ => s.itemOk r cid && !s.claimed cid
/-- The mark is a checkpoint's. -/
def ckMarked (m : Nat) : Bool := decide (markCkpt ≤ m) && decide (m < markGang)
/-- A mark still stands: its entry waits, and comes before the marked continuation. Marks of a checkpoint stand until it ends. -/
def State.markStands (s : State) (cid : Nat) (m : Nat) : Bool :=
  ckMarked m ||
    (s.waiting (dieOf cid)).any fun r => r.ident == m && (match s.residentKey cid with
      | some k => keyLt (r.deadline, r.seq) k
      | none => false)
/-- The gang that a continuation is a member of is draining: its members' marks stand until it is parked (R331). -/
def State.draining (s : State) (key : Nat) : Bool :=
  match (s.cont key).bind Cont.gang with
  | some (g, _) => s.sched.gangs.any fun x => x.id == g && x.state == .draining
  | none => false
/-- The mark of a continuation is to go: it stands no longer, or the continuation has left its core. -/
def State.markGone (s : State) (key : Nat) : Bool :=
  match s.residentOn key, (s.cont key).bind Cont.mark with
  | some cid, some m => !s.markStands cid m && !s.draining key
  | none, some m => !ckMarked m
  | _, none => false
/-- Drop the marks of a die that are to go (R332). -/
def State.dropMarks (s : State) (die : Nat) : State :=
  ((fkeys s.sched.conts).filter fun k => keyDie k == die && s.markGone k).foldl (fun s k => s.onCont k fun c => { c with mark := none }) s
/-- Mark a continuation; the mark of a checkpoint stays (R410). -/
def Cont.marked (c : Cont) (m : Nat) : Cont := if c.mark.elim false ckMarked then c else { c with mark := some m }
/-- Mark a continuation; a gang's members are all marked (R331). -/
def State.markFor (s : State) (key m : Nat) : State :=
  match (s.cont key).bind Cont.gang with
  | none => s.onCont key fun c => c.marked m
  | some (g, _) =>
    let ms := (s.sched.gangs.filter fun x => x.id == g).flatMap Gang.members
    let s := ms.foldl (fun s k => s.onCont k fun c => c.marked m) s
    s.onSched fun x => { x with gangs := x.gangs.map fun y => if y.id == g then { y with state := .draining } else y }
/-- Residents that an entry would displace, with their keys. -/
def State.displaced (s : State) (r : Ready) : List (Nat × Nat × Nat) :=
  (dieCores r.die).filterMap fun cid =>
    match (s.coreAt cid).res, s.residentKey cid with
    | some k, some key => if s.wouldRun r cid && keyLt (r.deadline, r.seq) key then some (k, key) else none
    | _, _ => none
def State.markPending (s : State) (m : Nat) : Bool := s.sched.conts.any fun p => (p.2.bind Cont.mark) == some m
/-- An entry that no idle core can take; a gang, unless all its cores are idle. -/
def State.noIdle (s : State) (r : Ready) : Bool :=
  match r.item with
  | .gang g => s.sched.gangs.any fun x => x.id == g && !x.cores.all s.idleCore
  | _ => !((dieCores r.die).any fun c => s.idleCore c && s.wouldRun r c)
/-- The dispatcher marks for the least entry that no idle core can take. While a core of the die has yet to issue its first bundle no mark is made (log entry 25). -/
def State.markDie (s : State) (die : Nat) : State :=
  if (dieCores die).any fun c => (s.coreAt c).mode == .starting then s
  else
    match (s.waiting die).find? s.noIdle with
    | none => s
    | some r =>
      match r.item with
      | .gang _ => (s.displaced r).foldl (fun s d => if ((s.cont d.1).bind Cont.mark) == some r.ident then s else s.markFor d.1 r.ident) s
      | _ =>
        if s.markPending r.ident then s
        else
          match s.displaced r with
          | [] => s
          | d :: ds => s.markFor (ds.foldl (fun a b => if keyLt a.2 b.2 then b else a) d).1 r.ident
/-- Dies with work for the dispatcher. -/
def State.schedDies (s : State) : List Nat := ((s.sched.ready.map Ready.die) ++ (s.sched.gangs.map Gang.die) ++ (s.sched.conts.filterMap fun p => (p.2.bind Cont.mark).map fun _ => keyDie p.1)).dedup
/-- DISPATCH (R328): idle cores of every die, in ascending number; then the marks. -/
def execDispatch (s : State) : Out :=
  .next (s.schedDies.foldl (fun s die => (((((dieCores die).foldl State.dispatchCore s)).refill die).dropMarks die).markDie die) s)

/-! Gangs (R329 to R331). -/

def State.gang (s : State) (g : Nat) : Option Gang := s.sched.gangs.find? fun x => x.id == g
def State.onGang (s : State) (g : Nat) (f : Gang → Gang) : State := s.onSched fun x => { x with gangs := x.gangs.map fun y => if y.id == g then f y else y }
/-- The members' kernel descriptors. -/
def State.gangKdescs (s : State) (g : Gang) : List Kdesc :=
  g.members.filterMap fun m => (s.cont m).bind fun c => match s.kdesc g.die (jcbAsid s c.jcb) c.kdesc.toNat with
    | .ok k => some k
    | .error _ => none
/-- Cores of a cluster on which every member's runs are free. -/
def State.gangCores (s : State) (g : Gang) (cl : Nat) : List Nat :=
  ((List.range 8).map fun i => g.die * 64 + 8 * cl + i).filter fun cid => !s.claimed cid && (s.gangKdescs g).all fun k => s.tilesFree cid k 0xFFFF false
def State.gangFits (s : State) (g : Gang) (cl : Nat) : Bool := decide (g.members.length ≤ (s.gangCores g cl).length)
/-- Free slots of a pool. -/
def State.freeSlots (s : State) (jcb : Nat) : Nat := jcbSaveslots s jcb - (s.usedSlots jcb).length
/-- The gang has the least key among the entries that could run in a cluster, parked gangs among them. -/
def State.gangLeast (s : State) (g : Gang) (cl : Nat) : Bool :=
  let e := s.gangEntry g
  !((s.waiting g.die).any fun r => readyKeyLt r e && (match r.item with
    | .gang x => x != g.id && (s.sched.gangs.any fun y => y.id == x && ((y.state == .pending && s.gangFits y cl) || (y.state == .parked && y.cores.any fun c => coreOf c / 8 == cl)))
    | _ => (List.range 8).any fun i => s.itemOk r (g.die * 64 + 8 * cl + i)))
/-- GANG_CLAIM (R330): the lowest cluster that fits; the next unit of the packet becomes a gang. -/
def execGangClaim (gang : Nat) (s : State) : Out :=
  .next (match s.gang gang with
    | none => s
    | some g =>
      let fits := (List.range 8).filter fun cl => s.gangFits g cl
      let room := decide (g.members.length ≤ s.freeSlots (pktJcb g.packet)) && !(s.sched.ckpts.any fun k => k.die == g.die && s.ckptJob k == some (pktJcb g.packet))
      if g.state ≠ .pending ∨ !room ∨ !(fits.any fun cl => s.gangLeast g cl) then s
      else
        match fits with
        | [] => s
        | cl :: _ =>
          let seq := (s.gangEntry g).seq
          let s := (s.onGang gang fun x => { x with state := .claiming, cores := (s.gangCores g cl).take g.members.length }).onSched fun c => { c with ready := c.ready.filter fun r => r.item != .gang gang }
          if g.unit + 1 < pktCount g.packet then s.createGang g.die g.packet (g.unit + 1) (seq + 1) else s)
/-- Set up a pipe's two handles and the owners of its tiles (R316). -/
def State.setPipe (s : State) (g : Gang) (p : Pipe) : State :=
  match g.cores[p.fromStage]?, g.cores[p.toStage]? with
  | some a, some b =>
    let ring := fun (first : Nat) => ({ valid := true, wmem := false, first := BitVec.ofNat 7 first, count := BitVec.ofNat 8 p.depth, head := 0, tail := 0 } : Ring)
    let own := fun (first o : Nat) (c : Core) => c.soon s.now s.clk.nextId (.tiles false (tileRun first p.depth) o)
    let s := s.onCoreAt a fun c => own p.ptile 0 { c with ctx := { c.ctx with h := c.ctx.h.set p.ph.toNat (ring p.ptile) } }
    s.onCoreAt b fun c => own p.ctile 1 { c with ctx := { c.ctx with h := c.ctx.h.set p.ch.toNat (ring p.ctile) } }
  | _, _ => s
def State.gangIdle (s : State) (g : Gang) : Bool := g.cores.all s.idleCore
/-- Start members of a gang on their cores. -/
def State.startMembers (s : State) (l : List (Nat × Nat)) : State := l.foldl (fun s m => s.startOn m.1 m.2 160) s
/-- Members of a gang that hold no save slot yet. -/
def State.needSlots (s : State) (g : Gang) : Nat := (g.members.filter fun m => ((s.cont m).bind Cont.slot).isNone).length
/-- GANG_ADMISSION (R330): every member starts in one cycle, with the pipes set up; each gets a save slot there (R324). -/
def execGangAdmission (gang : Nat) (s : State) : Out :=
  .next (match s.gang gang with
    | none => s
    | some g =>
      if g.state ≠ .claiming ∨ !s.gangIdle g ∨ s.freeSlots (pktJcb g.packet) < s.needSlots g then s
      else g.pipes.foldl (fun s p => s.setPipe g p) ((s.onGang gang fun x => { x with state := .admitted }).startMembers (g.members.zip g.cores)))
/-- Members that are SAVED, with their cores. -/
def State.savedMembers (s : State) (g : Gang) : List (Nat × Nat) := (g.members.zip g.cores).filter fun m => (s.cont m.1).elim false fun c => c.state == stSaved && s.storesQuiet m.1
/-- No ready entry that could run on a core comes before a key. -/
def State.firstOn (s : State) (cid : Nat) (k : Ready) : Bool := !(s.sched.ready.any fun r => readyKeyLt r k && s.itemOk r cid)
/-- GANG_RESUME (R329, R331): a parked gang resumes when all its cores are idle, those of ended members too, all its members at once; a member that an admitted gang has saved, by a yield or a handler's RESUME, goes on beside the others (log entry 91). -/
def execGangResume (gang : Nat) (s : State) : Out :=
  .next (match s.gang gang with
    | none => s
    | some g =>
      let live := (g.members.zip g.cores).filter fun m => (s.cont m.1).isSome
      let saved := s.savedMembers g
      let e := s.gangEntry g
      let free := fun (c : Nat) => s.idleCore c && !s.claimed c && s.firstOn c e
      let ck := s.sched.ckpts.any fun k => k.die == g.die && s.ckptJob k == some (pktJcb g.packet)
      if ck then s
      else if g.state = .parked then
        (if g.cores.all free && live.all saved.contains then (s.onGang gang fun x => { x with state := .admitted }).startMembers saved else s)
      else if g.state = .admitted then s.startMembers (saved.filter fun m => free m.2)
      else s)
/-- What follows from the members' states: a draining gang whose members have all stopped is parked, a gang without members is gone. -/
def State.gangStates (s : State) : State :=
  s.onSched fun x => { x with gangs := (x.gangs.filter fun g => g.members.any fun m => (s.cont m).isSome).map fun g =>
    if g.state == .draining && g.members.all (fun m => (s.residentOn m).isNone) then { g with state := .parked } else g }
def State.planGangs (s : State) : List Instr := s.sched.gangs.filterMap fun g => match g.state with
  | .pending => some (.gangClaim g.id)
  | .claiming => some (.gangAdmission g.id)
  | .parked | .admitted => some (.gangResume g.id)
  | .draining => none

/-! Trap records and their actions (R345 to R350). -/

/-- TRAP_RECORD_CLAIM (R346): every trap on its way claims its record, in order. -/
def execTrapRecordClaim (s : State) : Out :=
  .next (s.sched.traps.foldl State.claimRecord (s.onSched fun c => { c with traps := [] }))
/-- A stage continuation that a handler ends in error: a second record (R366). -/
def State.secondRecord (s : State) (key : Nat) : State :=
  match s.cont key with
  | none => s
  | some c =>
    match c.record with
    | none => s
    | some r => s.toTraps { die := keyDie key, key := some key, jcb := c.jcb, deadline := c.deadline, trap := stageTrap (s.recordHdr (keyDie key) r) c.stage.toNat c.lastCause, deferred := true, sslot := none }
/-- The action that a suspended continuation's handler left (R349). -/
def State.actionOf (s : State) (key : Nat) : Option (Nat × Nat × Nat) := (s.cont key).bind Cont.action
/-- RESUME. -/
def execResume (handle : Nat) (s : State) : Out :=
  .next (match s.actionOf handle with
    | some (0, nb, nd) => s.resumeCont handle nb nd
    | _ => s)
/-- FAULT, and any action R349 does not name. -/
def execFault (handle : Nat) (s : State) : Out :=
  .next (match s.actionOf handle with
    | some (a, _, _) => if a = 0 ∨ a = 2 ∨ a = 3 then s else ((s.secondRecord handle).deferReports handle).faultCont handle
    | none => s)
/-- END: as by `done`. -/
def execEndTrapped (handle : Nat) (s : State) : Out :=
  .next (match s.actionOf handle with
    | some (2, _, _) => (s.deferReports handle).endCont handle false
    | _ => s)
/-- ENDPOST: as by `done.j`. -/
def execEndPost (handle : Nat) (s : State) : Out :=
  .next (match s.actionOf handle with
    | some (3, _, _) => (s.deferReports handle).endCont handle true
    | _ => s)
def State.planActions (s : State) : List Instr := s.sched.conts.filterMap fun p => match p.2.bind Cont.action with
  | none => none
  | some (0, _, _) => some (.resume p.1)
  | some (2, _, _) => some (.endTrapped p.1)
  | some (3, _, _) => some (.endPost p.1)
  | some _ => some (.fault p.1)

/-! The end of a job (R337, R367). -/

/-- An entry is of a job. -/
def State.itemOf (s : State) (jcb : Nat) (r : Ready) : Bool :=
  match r.item with
  | .cont h => (s.cont h).elim false fun c => c.jcb == jcb
  | .packet p _ => pktJcb p == jcb
  | .gang g => (s.gang g).elim false fun x => pktJcb x.packet == jcb
/-- Stop the resident continuation of the job on a core at its boundary, or at once in a wait. -/
def State.stopResident (s : State) (jcb cid : Nat) : State :=
  let c := s.coreAt cid
  if c.res.isNone ∨ c.jcb ≠ jcb then s
  else
    match c.mode with
    | .held _ | .starting => s.onCoreAt cid fun k => { k with mode := .stopping whyJobEnd }
    | .run => if c.rep = 0 then s.onCoreAt cid fun k => { k with mode := .stopping whyJobEnd } else s
    | _ => s
/-- JOB_COMPLETION (R337 step 1): every other continuation of the job ends, its records in flight are abandoned (R367). -/
def execJobCompletion (jcb : Nat) (s : State) : Out :=
  .next (if !(s.sched.ending.any fun e => e.jcb == jcb) then s
    else
      let s := s.onSched fun x => { x with ready := x.ready.filter fun r => !s.itemOf jcb r, gangs := x.gangs.filter fun g => pktJcb g.packet != jcb, traps := x.traps.filter fun t => t.jcb != jcb }
      let gone := (s.sched.conts.filter fun p => (p.2.elim false fun c => c.jcb == jcb) && (s.residentOn p.1).isNone).map Prod.fst
      let s := gone.foldl State.release s
      let s := { s with sets := s.sets.map fun (t : Nat × TSet) => if t.2.holder = some jcb then (t.1, { t.2 with places := [] }) else t }
      s.coreIds.foldl (fun s c => s.stopResident jcb c) s)
/-- The job has drained (R337 step 2): no continuation, no queue entry or access under way, no engine command, no request, no handler of a `put` still to start, no critical flit of it that may still be reported remains. -/
def State.jobDrained (s : State) (jcb : Nat) : Bool :=
  !(s.sched.conts.any fun p => p.2.elim false fun c => c.jcb == jcb) && !(s.cmds.any fun c => c.jcb == jcb) && !(s.fab.reqs.any fun r => r.jcb == jcb) && !(s.fab.handlers.any fun h => h.cont.jcb == jcb) && !(s.fab.msgs.any fun m => m.jcb == jcb && m.tells)
    && !(s.coreIds.any fun c => (s.coreAt c).storeQ.any (fun e => e.jcb == jcb) || (s.coreAt c).loadQ.any (fun e => e.jcb == jcb) || (s.coreAt c).outst.any (fun o => o.q.jcb == jcb))
/-- The 512-byte image of a layout table copy (R31). -/
def layoutBytes (l : List LyEnt) : List (BitVec 8) :=
  l.flatMap fun e => natLe 4 e.handle.toNat ++ natLe 1 e.kind.toNat ++ natLe 1 0 ++ natLe 2 e.gen.toNat ++ natLe 6 e.shape.toNat ++ natLe 18 0
/-- Free what the job holds (R337 step 3): barriers, sets, tiles, tags, deduplication entries; the layout copies go back to their images. Code may have been rewritten once the job completes, so the instruction caches are emptied (R282). -/
def State.freeJob (s : State) (jcb : Nat) : State :=
  let s := (s.lay.filter fun l => l.jcb == jcb).foldl (fun s l => (s.wrVirt l.die (jcbAsid s jcb) (jcbLaybase s jcb) (layoutBytes l.ents)).1) s
  let tags := s.sched.jtags.filter fun t => t.jcb == jcb
  let s := s.coreIds.foldl (fun s cid => s.onCoreAt cid fun c => { c with l1i := [] }) s
  let s := s.coreIds.foldl (fun s cid =>
    match tags.find? fun t => t.die == dieOf cid with
    | none => s
    | some t => s.onCoreAt cid fun c => { c with atile := c.atile.filter fun x => x.2.jtag != t.tag, wtile := c.wtile.filter fun x => x.2.jtag != t.tag }) s
  let s := { s with lay := s.lay.filter (fun l => l.jcb != jcb), bar := s.bar.filter (fun b => b.2.job != some jcb), sets := s.sets.filter (fun t => t.2.holder != some jcb), faces := s.faces.filter fun f => f.jcb != jcb }
  (s.onSched fun x => { x with jtags := x.jtags.filter (fun t => t.jcb != jcb), lostTags := x.lostTags.filter (fun t => t.jcb != jcb), lostSets := x.lostSets.filter (fun t => t.2.holder != some jcb), ended := x.ended.filter fun e => e.jcb != jcb }).onFab fun x =>
    { x with dedup := x.dedup.filter (fun d => d.jcb != jcb), lostColl := x.lostColl.filter fun l => l.2.1 != jcb }
/-- COMPLETION_SIGNAL (R337 steps 3 to 5), once the job has drained. -/
def execCompletionSignal (jcb : Nat) (s : State) : Out :=
  .next (if !(s.sched.ending.any fun e => e.jcb == jcb) || !s.jobDrained jcb then s
    else
      let s := s.freeJob jcb
      let s := s.wr (jcb + 0xA) 1 (jcbFlags s jcb ||| 2)
      let s := s.wr (jcb + 0x50) 8 s.timeb
      let s := (s.wrVirt (paDie jcb) (jcbAsid s jcb) (jcbSigaddr s jcb) (natLe 8 (jcbSigval s jcb))).1
      s.onSched fun x => { x with ending := x.ending.filter fun e => e.jcb != jcb })
def State.planJobs (s : State) : List Instr := s.sched.ending.flatMap fun e => [.jobCompletion e.jcb, .completionSignal e.jcb]

end Sys2Proof.Machine
end

