-- ==== Sys2Proof/Machine/Router.lean ====
section
/-! DEFINITION. The Trestle router: draws and hand-offs (R360 to R362), the completion of a record (R363, R366). -/

namespace Sys2Proof.Machine

/-- Stages of a set below NSTG that a record has still to pass. -/
def TSet.remaining (t : TSet) (p : Place) : List Nat := (List.range t.nstg).filter fun s => !p.done.getLsbD s
/-- A record waits to be routed: it is in flight, no stage of it runs, it has changed in an earlier cycle. -/
def Place.routable (p : Place) (t : TSet) (now : Nat) : Bool :=
  p.admitted && p.running.isNone && p.outcome == 0 && decide (p.since < now) && !(t.remaining p).isEmpty
/-- Tickets of a stage (R360). -/
def tickets (e : StageEnt) (depth : Nat) : Nat := (65536 - e.pass.toNat) * 4096 / ((e.cost.toNat + 1) * (depth + 1)) + 1
/-- The stage that a pick chooses. -/
def drawStage (pick : Nat) : Nat → List (Nat × Nat) → Nat
  | _, [] => 0
  | _, [(s, _)] => s
  | acc, (s, t) :: r => if pick < acc + t then s else drawStage pick (acc + t) r
/-- Choose the next stage of a record: no draw for one remaining stage, else one word of the set's generator. -/
def State.chooseStage (s : State) (die set idx : Nat) (p : Place) : State × Nat :=
  let t := s.tset die set
  match t.remaining p with
  | [n] => (s, n)
  | rem =>
    let ts := rem.map fun n => (n, tickets (t.stages.getD n { kdesc := 0, pass := 0, cost := 0 }) (s.depth die set n))
    let total := (ts.map Prod.snd).sum
    let w := (quill (t.rtseed.toNat % 2 ^ 32) (t.rtseed.toNat / 2 ^ 32) t.lctr.toNat).getD 0 0
    let s := s.onTset die set fun x => { x with lctr := x.lctr + 1, draws := x.draws + 1 }
    (s.onPlace die set idx fun x => { x with draws := x.draws + 1 }, drawStage (w * total / 2 ^ 32) 0 ts)
/-- A failed hand-off: the error of R366 with SUB 0x08. -/
def State.failHandoff (s : State) (die set idx stage jcb : Nat) (p : Place) : State :=
  (s.stageError die set idx stage).toTraps
    { die := die, key := none, jcb := jcb, deadline := p.deadline, trap := stageTrap p.hdr stage 0x08, deferred := false, sslot := none }
/-- Hand a record to a stage (R258, R362). -/
def State.handOff (s : State) (die set idx stage jcb : Nat) (p : Place) : State :=
  let kd := ((s.tset die set).stages.getD stage { kdesc := 0, pass := 0, cost := 0 }).kdesc
  match s.kdesc die (jcbAsid s jcb) kd.toNat with
  | .error _ => s.failHandoff die set idx stage jcb p
  | .ok k =>
    if !k.ok then s.failHandoff die set idx stage jcb p
    else
      let (s, key) := s.create die { Cont.blank jcb with
        pc := BitVec.ofNat 56 (k.code + 4 * k.entry), deadline := p.deadline, budget := BitVec.ofNat 32 k.budget, stage := BitVec.ofNat 3 stage, kdesc := kd,
        arg0 := BitVec.ofNat 64 p.hdr, arg1 := BitVec.ofNat 64 stage, lcoord := BitVec.ofNat 32 (die * 64 + set * 8 + stage), acquire := some .die, record := some (set, idx) }
      s.onPlace die set idx fun x => { x with running := some (key, stage) }
/-- Route one record, when the ready queue has room for its stage. -/
def State.routeRecord (s : State) (die set idx : Nat) : State :=
  let t := s.tset die set
  match fget none t.places idx, t.holder with
  | some p, some jcb =>
    if !p.routable t s.now || !s.dieLevelFree die || s.isEnding jcb then s
    else
      let (s, n) := s.chooseStage die set idx p
      s.handOff die set idx n jcb p
  | _, _ => s
/-- The routing of a cycle: sets in order, records in ascending place (R361). -/
def State.routeAll (s : State) : State :=
  (fkeys s.sets).foldl (fun s k => (fkeys (s.tset (k / 8) (k % 8)).places).foldl (fun s i => s.routeRecord (k / 8) (k % 8) i) s) s

/-! Completion (R363). -/

/-- The outcome of a record that completes: every stage passed, a stage failed, an error. -/
def Place.final (p : Place) (t : TSet) (now : Nat) : Option Nat :=
  if !p.admitted || !decide (p.since < now) || p.running.isSome then none
  else if p.outcome ≠ 0 then some p.outcome
  else if (t.remaining p).isEmpty then some 1
  else none
/-- A failure of the router's writes, reported to the submitter. -/
def State.recordFault (s : State) (jcb : Nat) (p : Place) (t : Trap) : State := s.report p.sub jcb { t with pc := p.pc, opc := 0x20 }
/-- The header's fields at completion or at a checkpoint: offset and bytes. -/
def Place.headerBytes (p : Place) (outcome : Nat) : List (Nat × List (BitVec 8)) :=
  [(0, natLe 1 (outcome * 64) ++ natLe 1 p.done.toNat ++ natLe 1 p.verd.toNat ++ natLe 1 (match p.fstg with
      | some f => 0x80 + f.toNat
      | none => 0) ++ natLe 4 p.draws.toNat ++ natLe 8 p.deadline.toNat),
   (0x20, p.lcnt.flatMap (natLe 1))]
/-- The bytes of the one header write, by offset. -/
def Place.headerCells (p : Place) (outcome : Nat) : List (Nat × BitVec 8) :=
  (p.headerBytes outcome).flatMap fun w => (List.zipIdx w.2).map fun b => (w.1 + b.2, b.1)
/-- A write of the router's (R363): at once where its home is the set's die, else as a bulk request (R376); one that fails is reported and not performed. None while the home can take no more (R378). -/
def State.routerWrite (s : State) (die jcb : Nat) (p : Place) (va : Nat) (k : Nat → ReqKind) : Option State :=
  match s.writable die (jcbAsid s jcb) va with
  | .error c => some (s.recordFault jcb p (reachTrap c va 0))
  | .ok pa =>
    if paDie pa = die then some (s.performAccess jcb (k pa)).1
    else if reqFull s die (paDie pa) then none
    else some (s.sendReq die (paDie pa) jcb va true (k pa) (.agent p.sub p.pc 0x20)).1
/-- Commit one log entry: it is read, and performs as an 8-byte store (R262). -/
def State.commitEntry (s : State) (die jcb : Nat) (p : Place) (va : Nat) : Option State :=
  match s.rdVirt die (jcbAsid s jcb) va 16 with
  | .error (c, a) => some (s.recordFault jcb p (reachTrap c a 0))
  | .ok b => s.routerWrite die jcb p (leNat (b.take 8) % 2 ^ 56 / 8 * 8) fun pa => .write pa (b.drop 8)
/-- The writes of a completion in order: the log entries of an accepted record, stages ascending, entries ascending; then the header. -/
def Place.acts (p : Place) (outcome : Nat) : List (Nat ⊕ List (Nat × BitVec 8)) :=
  (if outcome = 1 then (List.zipIdx p.lcnt).flatMap fun n => (List.range n.1).map fun j => Sum.inl ((p.log + 16 * (p.lcap * n.2 + j)) % 2 ^ 56) else [])
    ++ [Sum.inr (p.headerCells outcome)]
/-- Make the writes as far as the fabric takes them: how many were made. -/
def State.routerActs (s : State) (die jcb : Nat) (p : Place) : List (Nat ⊕ List (Nat × BitVec 8)) → Nat → State × Nat
  | [], n => (s, n)
  | a :: r, n =>
    match (match a with
      | .inl va => s.commitEntry die jcb p va
      | .inr w => s.routerWrite die jcb p p.hdr fun pa => .cells pa w) with
    | none => (s, n)
    | some s => s.routerActs die jcb p r (n + 1)
/-- The record leaves its place, counts, and arrives on its barrier (R363). -/
def State.endRecord (s : State) (die set idx jcb : Nat) (p : Place) (outcome : Nat) : State :=
  let s := s.onTset die set fun x => { x with
    acc := if outcome = 1 then x.acc + 1 else x.acc, rej := if outcome = 1 then x.rej else x.rej + 1, places := fput none idx none x.places }
  if (s.barrier die p.bar.toNat).job = some jcb then s.arrive die p.bar.toNat jcb else s.recordFault jcb p (accessFault 0x04 0 0)
/-- The records of a set that can complete, those of a job that has completed apart (R367): the set, the place, the cycle of their last change. -/
def State.finals (s : State) (k : Nat) (t : TSet) : List (Nat × Nat × Nat) :=
  if t.holder.elim true s.isEnding then []
  else t.places.filterMap fun p => p.2.bind fun x => if (x.final t s.now).isSome then some (k, p.1, x.since) else none
/-- A record of the die that completed earlier has still to commit (R364; log entry 57). -/
def State.laterThan (s : State) (die since : Nat) : Bool :=
  (s.sets.filter fun e => e.1 / 8 == die).any fun e => (s.finals e.1 e.2).any fun x => decide (x.2.2 < since)
/-- RECORD_COMPLETION (R363) of a place of a set, sets numbered over the dies. The records of a job that has completed are abandoned (R367). -/
def execRecordCompletion (set place : Nat) (s : State) : Out :=
  let die := set / 8
  let t := s.tset die (set % 8)
  .next (match fget none t.places place, t.holder with
    | some p, some jcb =>
      (match p.final t s.now with
        | none => s
        | some o =>
          if s.isEnding jcb ∨ s.laterThan die p.since then s
          else
            let acts := p.acts o
            let (s, n) := s.routerActs die jcb p (acts.drop p.step) p.step
            if n < acts.length then s.onPlace die (set % 8) place fun x => { x with step := n } else s.endRecord die (set % 8) place jcb p o)
    | _, _ => s)
/-- The completions of a cycle, in the order in which the records completed (R364). -/
def State.planRecords (s : State) : List Instr :=
  (sortBy (fun (a b : Nat × Nat × Nat) => decide (a.2.2 < b.2.2)) (s.sets.flatMap fun e => s.finals e.1 e.2)).map fun x => .recordCompletion x.1 x.2.1

end Sys2Proof.Machine
end

