-- ==== Sys2Proof/Machine/Cycle.lean ====
section
/-! DEFINITION. One step of the machine: a core cycle of one core, an event from outside, or the shared agents' part of a cycle. Every operation is carried out by `ex`, the machine's exec. -/

namespace Sys2Proof.Machine

/-! Running operations one after another. -/

def thenDo (o : Out) (f : State → Out) : Out :=
  match o with
  | .next s => f s
  | .fault r => .fault r
  | .refused r => .refused r
def runAll (ex : Instr → State → Out) : List Instr → State → Out
  | [], s => .next s
  | i :: r, s => thenDo (ex i s) (runAll ex r)
/-- A stage of the shared agents: what follows from the state alone, then the events it plans. -/
structure Stage where
  prepare : State → State
  plan : State → List Instr
/-- Stages one after another: each is prepared and planned after the stages before it. -/
def runStages (ex : Instr → State → Out) : List Stage → State → Out
  | [], s => .next s
  | p :: r, s => let s := p.prepare s; thenDo (runAll ex (p.plan s) s) (runStages ex r)

/-! The slots of a repetition. -/

/-- An LS, V, RD, MX or AP slot takes the standing operation it issues (R76); a vector operation other than `vcat` ends the chain of its slot (R189). -/
def enterSlot (k : Nat) (i : Instr) (s : State) : State :=
  let s := s.onIss fun x => { x with slot := k, phase := .issue }
  let s := match stickyIdx k with
    | some j => s.emit 1 (.stand j (BitVec.ofNat 32 (standWord k i)))
    | none => s
  match i with
  | .vcat _ | .idle => s
  | _ => if k = 3 ∨ k = 4 then s.emit 1 (.vcat k none) else s
/-- The uncorrectable error that the index rows of a stream's lanes hold. -/
def State.idxFlaw (s : State) (n : BitVec 5) (lanes : List Nat) : Option Trap :=
  let st := s.rst n
  if st.valid && st.idx then firstTrap (lanes.map fun j => s.core.padFlaw false false (st.idxAddr j) 4) else none
/-- The uncorrectable error that rows of ACC hold. -/
def State.accFlaw (s : State) (rows : List Nat) : Option Trap := (rows.find? s.core.accBad.contains).map fun r => machineCheck 3 (256 * r)
/-- The uncorrectable error that a form meets in what it reads as it issues (R352): index rows, the elements that a scatter operates on, rows of ACC, matrix registers. -/
def State.issueFlaw (s : State) (i : Instr) : Option Trap :=
  match i with
  | .vld f | .vpf f | .vscat f => s.idxFlaw f.st (s.lfLanes f)
  | .vscadd f | .vscmax f =>
    orTrap (s.idxFlaw f.st (s.lfLanes f))
      (if (s.rst f.st).space == 2 then none else firstTrap ((s.laneAddrs f).map fun a => if a = 0 then none else s.core.padFlaw false (s.rst f.st).diag (a - 1) (lfE f)))
  | .vgath f => s.idxFlaw f.b (lanesOf (s.rk f.k) (lanesIn f.w f.t))
  | .accld f | .accadd f | .accmv f | .accscl f => s.accFlaw [accRow f.bank f.mods.toNat]
  | .accst f | .accqst f => s.accFlaw ((List.range 64).map fun j => accRow f.bank (64 * (f.mods.toNat / 64) + (layoutXf f.x.toNat (f.mods.toNat % 64) j).1))
  | i => if (mregsRead i).any fun m => s.core.mrfBad.contains m.toNat then some (machineCheck 4 0) else none
/-- A slot that reads an uncorrectable error raises MACHINE_CHECK. -/
def raiseFlaw (i : Instr) (s : State) : State :=
  if s.core.padBad.isEmpty && s.core.accBad.isEmpty && s.core.mrfBad.isEmpty then s
  else
    match s.issueFlaw i with
    | some t => s.raise t
    | none => s
def runSlots (ex : Instr → State → Out) : List (Nat × Instr) → State → Out
  | [], s => .next s
  | (k, i) :: r, s => thenDo (ex i (enterSlot k i s)) fun s => runSlots ex r (raiseFlaw i s)

/-! Settling a repetition (R77, R94, R95, R153). -/

def Eff.isQueue (e : Eff) : Bool :=
  match e with
  | .queue _ _ _ _ _ _ => true
  | _ => false
/-- Entries that the repetition would place in the load queue and the store queue. -/
def State.newEntries (s : State) (store : Bool) : Nat :=
  (s.core.iss.effs.filter fun p => match p.eff with
    | .queue l st _ _ _ _ => (if store then st else l) && !(s.core.iss.raised.any fun r => r.1 == p.slot)
    | _ => false).length
def State.queuesFull (s : State) : Bool :=
  (s.newEntries false ≠ 0 && decide (Config.loadQueueSize < s.core.loadQ.length + s.newEntries false)) ||
    (s.newEntries true ≠ 0 && decide (Config.storeQueueSize < s.core.storeQ.length + s.newEntries true))
/-- Clear the issue buffer, keeping the end-of-bundle writes that pass a test. -/
def State.clearIss (s : State) (keep : Pend → Bool) : State :=
  s.onIss fun i => { Iss.reset with atEnd := i.atEnd.filter keep, safe := i.safe }
/-- Emitted in an earlier repetition of the bundle. -/
def State.earlier (s : State) (p : Pend) : Bool := decide (p.seq < s.clk.nextId)
def Eff.endsRun (e : Eff) : Bool :=
  match e with
  | .yield | .ends _ | .hold _ | .quiesce | .unrecord => true
  | _ => false
/-- The bundle holds `done` or `rverd`: its tree transfers nothing and writes no link (R252). -/
def State.ending (s : State) : Bool := s.core.iss.atEnd.any fun p => match p.eff with
  | .ends _ => true
  | _ => false
/-- The trap of the lowest slot. -/
def lowestTrap : List (Nat × Trap) → Option Trap
  | [] => none
  | p :: r => some ((r.foldl (fun a b => if b.1 < a.1 then b else a) p).2)
/-- The effects of a repetition take place: queue entries enter, the rest lands when due. -/
def State.commitEffs (s : State) (l : List Pend) : State :=
  let s := ((l.filter fun p => p.eff.isQueue).map Pend.eff).foldl State.land s
  s.onCore fun c => { c with pend := c.pend ++ l.filter fun p => !p.eff.isQueue }
/-- The end of a bundle: its end-of-bundle writes land at the end of this cycle; a taken branch costs two cycles more (R84). -/
def State.retire (s : State) (effs atEnd : List Pend) (target : Option (BitVec 56)) : State :=
  let next := s.nextPc
  let s := s.commitEffs effs
  s.onCore fun c => { c with
    pend := c.pend ++ atEnd.map fun p => { p with due := s.now }, lastPc := c.ctx.pc, ctx := { c.ctx with pc := target.getD next },
    issueAt := s.now + (if target.isSome then 3 else 1), rep := 0, words := [] }
/-- Settle the repetition whose slots have all issued. A resumable trap in a handler withholds its repetition, and then ends the handler as a terminating one would (log entry 112). -/
def State.settle (s : State) : State :=
  let i := s.core.iss
  if s.queuesFull then s.clearIss s.earlier
  else
    let term := i.raised.filter fun r => !r.2.resumable
    let ok := fun (p : Pend) => !(i.raised.any fun r => r.1 == p.slot)
    let s := s.onClk fun c => { c with nextId := c.nextId + 1 }
    match lowestTrap term, lowestTrap i.raised with
    | some t, _ =>
      let effs := i.effs.filter fun p => ok p && !(match p.eff with
        | .queue _ _ (.done _) _ _ _ | .queue _ _ (.rverd _) _ _ _ | .posted => true
        | .sreg _ _ => p.slot == 10
        | _ => false)
      let s := s.commitEffs effs
      let s := s.onCore fun c => { c with pend := c.pend ++ (i.atEnd.filter fun p => ok p && !p.eff.endsRun).map fun p => { p with due := s.now } }
      let s := s.onCont s.selfKey fun c => { c with fixups := none }
      (s.clearIss fun _ => false).takeTrap t
    | none, some t => ((s.clearIss fun p => decide (p.seq + 1 < s.clk.nextId)).onIss fun x => { x with safe := i.safe }).takeTrap t
    | none, none =>
      let s := s.onCont s.selfKey fun c => { c with fixups := none }
      let s := if i.safe && i.rep == 0 then s.onCore fun c => { c with spCount := 0 } else s
      if i.rep < i.lastRep then
        (s.commitEffs i.effs).onCore fun c => { c with rep := c.rep + 1, issueAt := s.now + 1, iss := { Iss.reset with atEnd := i.atEnd, safe := i.safe } }
      else
        let ends := s.ending
        (s.retire (if ends then i.effs.filter fun p => p.slot ≠ 10 else i.effs) i.atEnd (if ends then none else i.target)).clearIss fun _ => false
/-- Issue what the repetition holds, and settle it. -/
def issueRepetition (ex : Instr → State → Out) (s : State) : Out :=
  if s.core.iss.len = 0 then .next s
  else thenDo (runSlots ex s.core.iss.todo s) fun s => .next s.settle

/-! The results whose computation is due: from their sampled operands (R91). -/

def Eff.isCalc (e : Eff) : Bool :=
  match e with
  | .calc _ _ => true
  | _ => false
/-- The uncorrectable error that a computation meets in the rows it samples (R352). -/
def State.calcFlaw (s : State) (i : Instr) (c : Cap) : Option Trap :=
  let rows := match i with
    | .mld _ | .mldu _ | .mldv _ => c.aux.getD 1 0
    | _ => 64
  firstTrap [firstTrap (c.reads.map fun r => r.elim none fun r => (s.coreAt r.core).padFlaw r.wmem c.diag r.addr r.bytes), firstTrap (c.streams.map fun st => s.tileFlaw st rows),
    match i with
    | .vunpark f => if c.aux.getD 0 0 = 1 then s.core.padFlaw false false (256 * c.aux.getD 1 0 + parkShift f.d / 8) 128 else s.accFlaw [c.aux.getD 1 0]
    | _ => none]
/-- A trap that a computation meets is reported: its bundle has issued, and it gives no result. -/
def State.reportCalc (s : State) (c : Cap) (t : Trap) : State := s.report s.selfKey s.jcb { t with pc := c.pc, repidx := c.rep, slot := some c.slot }
/-- Run one computation; what it emits keeps its order of issue. -/
def runCalc (ex : Instr → State → Out) (p : Pend) (s : State) : Out :=
  match p.eff with
  | .calc i c =>
    let kept := s.core.iss
    let s := s.onCore fun x => { x with pend := x.pend.filter (· ≠ p), iss := { kept with effs := [], raised := [], slot := c.slot, phase := .compute c } }
    match s.calcFlaw i c with
    | some t => .next ((s.onIss fun _ => kept).reportCalc c t)
    | none =>
      thenDo (ex i s) fun s =>
        let raised := s.core.iss.raised
        let s := s.onCore fun x => { x with pend := x.pend ++ x.iss.effs.map (fun e => { e with seq := p.seq }), iss := kept }
        .next (raised.foldl (fun s r => s.reportCalc c r.2) s)
  | _ => .next s
def runCalcs (ex : Instr → State → Out) : List Pend → State → Out
  | [], s => .next s
  | p :: r, s => thenDo (runCalc ex p s) (runCalcs ex r)
def State.dueCalcs (s : State) : List Pend := sortBy Pend.before (s.core.pend.filter fun p => p.eff.isCalc && decide (p.due ≤ s.now))

/-! A core's cycle. -/

/-- A dispatched continuation begins once its core is loaded (R325, R336): a held wait goes on where it stood. -/
def State.begin (s : State) : State :=
  if s.core.mode = .starting ∧ s.core.issueAt ≤ s.now then
    match s.self.bind Cont.held with
    | some w => (s.onCont s.selfKey fun c => { c with state := stHeld }).setMode (.held w)
    | none => s.setMode .run
  else s
/-- Cycles charged to BUDGET, to the record and to SPBOUND (R22, R333, R358): those of a dispatch up to the restore count, those of a save and a restore do not. -/
def State.charge (s : State) : State :=
  let running := match s.core.mode with
    | .run | .held _ | .stopping _ => true
    | .starting => decide (s.now < s.core.saveDone)
    | _ => false
  let counts := match s.core.mode with
    | .run | .stopping _ => true
    | _ => false
  let s := if running then (s.onCore fun c => { c with charged := c.charged + 1 }).onCtl fun c => { c with budget := c.budget - (if c.budget = 0 then 0 else 1) } else s
  if counts then s.onCore fun c => { c with spCount := c.spCount + 1 } else s
/-- The response has come, and is no fault. -/
def Outst.ready (o : Outst) (now : Nat) : Bool :=
  decide (o.due ≤ now) && (match o.resp with
    | .fault _ | .remote | .stop _ => false
    | _ => true)
/-- The responses due in this cycle, in the order of their accesses: the parts of one access together, once every one has come without a fault (R154). -/
def State.dueLoads (s : State) : List Instr :=
  s.core.outst.filterMap fun o => match o.resp with
    | .fault _ => if o.due ≤ s.now then some (.offCoreFaultReport o.id) else none
    | _ => if (s.core.outst.filter fun x => x.q.id == o.q.id).all fun x => x.ready s.now then some (.offCoreLoadResponse o.id) else none
/-- The queue entries that may perform in this cycle: the head of each queue, one event where it heads both. -/
def State.queueEvents (s : State) : List Instr :=
  if s.bothHead then [.queueEntryPerform false]
  else .queueEntryPerform false :: (match s.headOf true with
    | none => []
    | some e => (match e.i with
      | .spawn _ => [.spawnEnqueue]
      | .tsub _ _ _ _ => [.recordAdmission e.id]
      | _ => [.queueEntryPerform true]))
/-- What a core does in a cycle before its bundle issues: its queues perform, then the boundary is judged and the repetition planned. -/
def coreHead (ex : Instr → State → Out) (s : State) : Out :=
  let s := s.begin.fetchGate.workDevices
  runAll ex (s.queueEvents ++ [.safepointOverdue, .budgetExhausted, .safePoint, .repetitionIssue]) s
/-- What a core does in a cycle after its bundle has issued: it is charged, results land, responses arrive, a save or a stop goes on. -/
def coreTail (ex : Instr → State → Out) (s : State) : Out :=
  let s := s.charge
  thenDo (runCalcs ex s.dueCalcs s) fun s =>
  thenDo (runAll ex s.dueLoads s) fun s =>
  thenDo (runAll ex [.matrixResultLanding, .resultLanding] s) fun s =>
  thenDo (ex .save s) fun s => .next s.settleStop
def coreCycle (ex : Instr → State → Out) (s : State) : Out :=
  thenDo (coreHead ex s) fun s => thenDo (issueRepetition ex s) (coreTail ex)

/-! Effects on state that cores share (R235, R270, R278, R358): they land once every core has had its turn, in one order over all cores. -/

/-- The order among them: their ranks, verdicts in ascending stage and place, then cores. -/
def sharedKey (p : Nat × Pend) : Nat × Nat :=
  (p.2.eff.rank, match p.2.eff with
    | .verdict _ idx st _ _ _ => 64 * st + idx
    | _ => 0)
def sharedBefore (a b : Nat × Pend) : Bool :=
  let x := sharedKey a
  let y := sharedKey b
  decide (x.1 < y.1) || (decide (x.1 = y.1) && (decide (x.2 < y.2) || (decide (x.2 = y.2) && (decide (a.1 < b.1) || (decide (a.1 = b.1) && a.2.before b.2)))))
/-- Land the due effects of all cores that satisfy a test. -/
def State.landOver (s : State) (t : Eff → Bool) : State :=
  let due := fun (p : Pend) => decide (p.due ≤ s.now) && t p.eff
  let l := s.coreIds.flatMap fun c => ((s.coreAt c).pend.filter due).map fun p => (c, p)
  let s := (l.map Prod.fst).dedup.foldl (fun s c => s.onCoreAt c fun k => { k with pend := k.pend.filter fun p => !due p }) s
  (sortBy sharedBefore l).foldl (fun s p => (s.focus p.1).land p.2.eff) s

/-! The shared agents. -/

/-- A core with something to do. -/
def Core.busy (c : Core) : Bool := c.res.isSome || !c.loadQ.isEmpty || !c.storeQ.isEmpty || !c.outst.isEmpty || !c.pend.isEmpty
def State.busyCores (s : State) : List Nat := s.coreIds.filter fun c => (s.coreAt c).busy
/-- Held waits, core by core. -/
def runWaits (ex : Instr → State → Out) : List Nat → State → Out
  | [], s => .next s
  | c :: r, s => thenDo (runAll ex [.waitConditionMet, .waitTimeout] (s.focus c)) (runWaits ex r)
def State.heldCores (s : State) : List Nat := s.coreIds.filter fun c => s.awake (dieOf c) && (match (s.coreAt c).mode with
  | .held _ => true
  | _ => false)
/-- A time that has not passed moves by one cycle. -/
def later (now t : Nat) : Nat := if now ≤ t then t + 1 else t
/-- What a core has under way comes a cycle later. -/
def Core.stretch (now : Nat) (c : Core) : Core :=
  { c with pend := c.pend.map (fun p => { p with due := later now p.due }), outst := c.outst.map (fun o => { o with due := if o.resp = .remote then o.due else later now o.due }),
           issueAt := later now c.issueAt, saveDone := later now c.saveDone, mxFree := later now c.mxFree }
/-- A throttled die sits a cycle out (R415): what its cores, its engines and its translation unit have under way comes a cycle later. -/
def State.stretchDie (s : State) (die : Nat) : State :=
  let s := (s.coreIds.filter fun c => dieOf c == die).foldl (fun s c => s.onCoreAt c (Core.stretch s.now)) s
  let s := { s with cmds := s.cmds.map fun (c : Cmd) => if c.die == die then { c with due := later s.now c.due } else c }
  s.onXl fun x => { x with miss := x.miss.map fun (m : Miss) => if m.die == die then { m with due := later s.now m.due } else m }
/-- The dies that sit the cycle out. -/
def State.asleep (s : State) : List Nat := (s.host.flatMap fun h => h.2.steps.map Prod.fst).filter fun d => !s.awake d
/-- The end of a cycle: the next begins; every busy core of a die that does not sit it out has its turn in it. -/
def State.tick (s : State) : State :=
  let s := s.onClk fun c => { c with now := c.now + 1 }
  let s := s.asleep.foldl State.stretchDie s
  s.onClk fun c => { c with turn := s.busyCores.filter fun c => s.awake (dieOf c) }
/-- The shared part of a cycle: the cores' effects on shared state, the agents stage by stage, the tile records as the cycle leaves them (R278), held waits; then the next cycle begins, with the draws that read what this one has left (R360). -/
def sharedCycle (ex : Instr → State → Out) (stages : List Stage) (s : State) : Out :=
  thenDo (runStages ex stages (s.landOver Eff.isShared)) fun s =>
    let s := s.landOver Eff.isTiles
    thenDo (runWaits ex s.heldCores s) fun s => .next s.tick.routeAll

/-! The step. -/

/-- Packages of the system. -/
def State.packages (s : State) : Nat := ceilDiv s.cfg.sx 2 * ceilDiv s.cfg.sy 2 * ceilDiv s.cfg.sz 2
/-- No package has power (R415). -/
def State.allDark (s : State) : Bool := decide (s.packages ≤ s.dark.length)

def stepBy (ex : Instr → State → Out) (stages : List Stage) (s : State) : Out :=
  if s.allDark then .fault .noPower
  else
    match s.clk.turn with
    | c :: r => coreCycle ex ((s.onClk fun k => { k with turn := r }).focus c)
    | [] =>
      match s.clk.env with
      | i :: r => ex i (s.onClk fun k => { k with env := r })
      | [] => sharedCycle ex stages s

end Sys2Proof.Machine
end

