-- ==== Sys2Proof/Machine/Exchange.lean ====
section
/-! DEFINITION. The engines of a die at work: copies, rings, pipes, halo faces, re-sharding, put and get; step tokens and barrier arrivals; the end of a command (R220 to R248, R316, R387 to R393). -/

namespace Sys2Proof.Machine

/-! A command's state and its end. -/

/-- Completion barrier of a command. -/
def barOf (i : Instr) : BitVec 6 :=
  match i with
  | .ecopy f => f.bar
  | .hxch _ _ b => b
  | .reshard _ _ b => b
  | .coll _ b | .edisp _ b | .ecomb _ b | .put _ b | .get _ b | .ckpt _ b => b
  | _ => 0
/-- A command in ring form: its tiles are those of the ring, and did not pass at issue (R222). -/
def Cmd.isRing (c : Cmd) : Bool :=
  match c.i with
  | .ecopy f => f.ring
  | _ => false
/-- No request of the command is unacknowledged. -/
def State.cmdIdle (s : State) (id : Nat) : Bool := !(s.fab.reqs.any fun r => r.owner == .cmd id)
/-- Layout entry and slot of a `reshard`. -/
def reshardOf (i : Instr) : Option (BitVec 4 × BitVec 4) :=
  match i with
  | .reshard e v _ => some (e, v)
  | _ => none
/-- A `reshard` is over without having changed its entry: that keeps KIND 0b11 and its GEN, the slot is free (R393). -/
def State.freeReshard (s : State) (die jcb : Nat) (i : Instr) : State :=
  match reshardOf i with
  | some (e, v) => (s.onLayEnt die jcb e.toNat fun x => { x with busy := false }).onVslot die v.toNat fun x => { x with inUse := false }
  | none => s
/-- The handler of a `put` whose payload is not sent to its end does not start (R248). -/
def State.dropHandler (s : State) (c : Cmd) : State :=
  if c.pos < 4 then s.onFab fun x => { x with handlers := x.handlers.filter fun h => h.cmd ≠ c.id } else s
/-- The command fails; the first failure stands. -/
def State.failCmd (s : State) (id : Nat) (t : Trap) : State :=
  match s.cmd id with
  | none => s
  | some c =>
    let s := if c.fail.isNone then (s.freeReshard c.die c.jcb c.i).dropHandler c else s
    s.onCmd id fun c => { c with fail := c.fail.orElse fun _ => some t }
/-- The command's work is done. -/
def State.finishCmd (s : State) (id : Nat) : State := s.onCmd id fun c => { c with finished := true }
/-- The command is at work in this cycle. -/
def Cmd.active (c : Cmd) (now : Nat) : Bool := c.fail.isNone && !c.finished && decide (c.due ≤ now)
/-- A report of a command's failure to its issuer (R224). -/
def State.reportCmd (s : State) (c : Cmd) (t : Trap) : State := s.report c.handle c.jcb { t with pc := c.pc, opc := opcOf c.i }
/-- The tiles that a command holds return to T; ring tiles follow the ring's own rules (R222). -/
def State.handBack (s : State) (c : Cmd) : State :=
  if c.isRing then s
  else
    let tag := s.jtag c.die c.jcb
    s.onCoreAt c.core fun k => k.setOwner c.tilesW (c.tiles.filter fun t => (k.tile c.tilesW t).jtag == tag && (k.tile c.tilesW t).owner != ownT) ownT
def State.dropCmd (s : State) (id : Nat) : State := { s with cmds := s.cmds.filter fun c => c.id ≠ id }
/-- Arrive on a command's barrier, or report the arrival that is withheld (R223). -/
def State.arriveCmd (s : State) (c : Cmd) : State :=
  if (s.barrier c.die (barOf c.i).toNat).job = some c.jcb then s.arrive c.die (barOf c.i).toNat c.jcb else s.reportCmd c (accessFault 0x04 0 0)
/-- The command's face arrivals take the place of its completion arrival. -/
def Cmd.byFaces (c : Cmd) : Bool :=
  match c.i with
  | .hxch _ _ _ => true
  | _ => false
/-- The command can end: done or failed, nothing of it in flight. -/
def State.canEnd (s : State) (c : Cmd) : Bool := s.cmdIdle c.id && (c.finished || c.fail.isSome)

/-! Access of an engine to global memory: piece by piece, as the bulk and ordered classes carry it (R374, R376, R427). -/

/-- What a cycle's work gives: done, to be gone on with, failed. -/
inductive Work where
  | done (s : State)
  | wait (s : State)
  | bad (s : State) (t : Trap)
/-- Where an address lies for an engine. A fabric window, or a home out of reach, fails. -/
inductive Home where
  | at (s : State) (pa : Nat)
  | wait (s : State)
  | bad (t : Trap)
def State.engHome (s : State) (c : Cmd) (k : Acc) (bulk : Bool) (va : Nat) : Home :=
  match s.tuXlate c.die c.asid va k with
  | (s, .wait, _) => .wait s
  | (_, .fault e, _) => .bad (accessFault e va 0)
  | (s, .done pa _ _, _) =>
    if inWindow pa then .bad (remoteFault 0x06 va (paDie pa))
    else if paDie pa ≠ c.die ∧ (s.routeOf bulk c.die (paDie pa)).isNone then .bad (remoteFault 0x01 va (paDie pa))
    else .at s pa

/-- The request by which a command reads: a `get` asks for its payload as bulk data (R376). -/
def Cmd.readKind (c : Cmd) (pa n : Nat) : ReqKind :=
  match c.i with
  | .get _ _ => .get pa n
  | _ => .read pa n
/-- Read on into the command's buffer, from the bytes it holds: a home elsewhere is asked for one piece at a time. -/
def State.fetchGo (s : State) (c : Cmd) (rs : List (Nat × Nat)) : Nat → List (BitVec 8) → Work
  | 0, buf => .wait (s.onCmd c.id fun x => { x with buf := buf })
  | f + 1, buf =>
    let keep := fun (s : State) => s.onCmd c.id fun x => { x with buf := buf }
    match nextPiece rs buf.length with
    | none => .done (keep s)
    | some (va, n) =>
      match s.engHome c .read false va with
      | .wait s => .wait (keep s)
      | .bad t => .bad s t
      | .at s pa =>
        if paDie pa = c.die then (if s.flawed pa n then .bad s (machineCheck 6 va) else s.fetchGo c rs f (buf ++ s.rdBytes pa n))
        else if !s.cmdIdle c.id || reqFull s c.die (paDie pa) then .wait (keep s)
        else .wait (keep (s.sendReq c.die (paDie pa) c.jcb va false (c.readKind pa n) (.cmd c.id)).1)
def State.engFetch (s : State) (c : Cmd) (rs : List (Nat × Nat)) : Work := s.fetchGo c rs (rangesLen rs + 1) c.buf
/-- Write on from the bytes that have gone out: at once where the home is this die, as bulk requests elsewhere. -/
def State.writeGo (s : State) (c : Cmd) (rs : List (Nat × Nat)) (bs : List (BitVec 8)) : Nat → Nat → Work
  | 0, p => .wait (s.onCmd c.id fun x => { x with sent := p })
  | f + 1, p =>
    let keep := fun (s : State) => s.onCmd c.id fun x => { x with sent := p }
    match nextPiece rs p with
    | none => .done (s.onCmd c.id fun x => { x with sent := 0 })
    | some (va, n) =>
      match s.engHome c .write true va with
      | .wait s => .wait (keep s)
      | .bad t => .bad s t
      | .at s pa =>
        let b := (bs.drop p).take n
        if paDie pa = c.die then ((s.wrBytes pa b).credit c.id n).writeGo c rs bs f (p + n)
        else if reqFull s c.die (paDie pa) || !s.linkFree c.die (paDie pa) then .wait (keep s)
        else ((s.sendReq c.die (paDie pa) c.jcb va true (.write pa b) (.cmd c.id)).1).writeGo c rs bs f (p + n)
def State.engWrite (s : State) (c : Cmd) (rs : List (Nat × Nat)) (bs : List (BitVec 8)) : Work := s.writeGo c rs bs (rangesLen rs + 1) c.sent
/-- Go on with a command: what follows once the work is done, the failure otherwise. -/
def Work.andThen (w : Work) (id : Nat) (f : State → State) : State :=
  match w with
  | .done s => f s
  | .wait s => s
  | .bad s t => s.failCmd id t
/-- Bytes that a command has read. -/
def State.cmdBuf (s : State) (id : Nat) : List (BitVec 8) := (s.cmd id).elim [] Cmd.buf
/-- ENGINE_COMMAND_COMPLETION (R223): a status word is written first; then the tiles return and the barrier is arrived on. A status word that cannot be written fails the command. -/
def execEngineCommandCompletion (id : Nat) (s : State) : Out :=
  .next (match s.cmd id with
    | none => s
    | some c =>
      if !s.canEnd c ∨ c.fail.isSome then s
      else
        match c.status with
        | some v => (s.engWrite c [((c.args.getD 0 0 + 0x40) % 2 ^ 56, 8)] (natLe 8 v.toNat)).andThen id fun s => s.onCmd id fun x => { x with status := none }
        | none =>
          let s := (s.handBack c).dropCmd id
          if c.byFaces then s else s.arriveCmd c)
/-- Every byte of a face is at its receiver. -/
def State.faceHere (s : State) (f : Face) : Bool :=
  decide (f.len ≤ f.out) && !(s.fab.reqs.any fun r => r.answer.isNone && (match r.kind with
    | .face id _ => id == f.id
    | _ => false))
/-- ENGINE_FAILURE_REPORT (R224): the tiles return, the issuer gets the trap, nothing arrives. Faces not yet delivered are not sent. -/
def execEngineFailureReport (id : Nat) (s : State) : Out :=
  .next (match s.cmd id with
    | none => s
    | some c =>
      match c.fail with
      | none => s
      | some t =>
        if s.canEnd c then
          (let s := { s with faces := s.faces.filter fun f => f.cmd != id || s.faceHere f }
           ((s.handBack c).dropCmd id).reportCmd c t)
        else s)

/-! Scratchpads. -/

/-- Writes to tiles of a core that have issued and have not landed (R222). -/
def Core.tilePending (c : Core) (ts : List Nat) : Bool :=
  c.pend.any fun p => match p.eff with
    | .amem r _ _ => ts.contains (r / 64)
    | .hist r _ => ts.contains (r / 64)
    | _ => false

/-! Copies (R225, R228): a core's copy engine moves one row in a cycle (R427). -/

def Cmd.isCopy (c : Cmd) : Bool :=
  match c.i with
  | .ecopy _ => true
  | _ => false
/-- No other copy of the core has moved a row in this cycle: one that has is at work again in the next. -/
def State.copyFree (s : State) (c : Cmd) : Bool := !(s.cmds.any fun x => x.isCopy && x.core == c.core && x.id != c.id && x.due == s.now + 1)

/-- Move one row. One that an uncorrectable error spoils is not moved, and the job that holds its tile is told (R352). -/
def State.copyRow (s : State) (c : Cmd) (out : Bool) (row va : Nat) : Work :=
  let k := s.coreAt c.core
  if out then
    match k.padFlaw c.tilesW false (256 * row) 256 with
    | some t => .done (s.padRecord c.core c.tilesW t)
    | none => s.engWrite c [(va, 256)] (natLe 256 ((fget 0 (if c.tilesW then k.wmem else k.amem) row).toNat))
  else
    match s.engFetch c [(va, 256)] with
    | .done s => .done (s.onCoreAt c.core fun k => k.putRow c.tilesW row (BitVec.allOnes 2048) (BitVec.ofNat 2048 (leNat (s.cmdBuf c.id))))
    | w => w
/-- Global address of row i. -/
def rowVa (ga : Nat) (stride : BitVec 32) (i : Nat) : Nat := wrapN 56 ((ga : Int) + stride.toInt * i) / 256 * 256
/-- The command's next row, to or from a row of the scratchpad. -/
def State.stepCopy (s : State) (c : Cmd) (f : EcopyF) (row : Nat) (after : State → State) : State :=
  (s.copyRow c f.out row (rowVa (c.args.getD 0 0) f.stride c.pos)).andThen c.id fun s =>
    let s := after (s.onCmd c.id fun x => { x with pos := c.pos + 1, buf := [], sent := 0, due := s.now + 1 })
    if f.rows.toNat ≤ c.pos + 1 then s.finishCmd c.id else s
/-- A copy that is not a ring's: its rows in ascending order, once writes to its tiles have landed. -/
def State.workCopy (s : State) (c : Cmd) (f : EcopyF) : State :=
  if f.ring ∨ (!c.tilesW ∧ (s.coreAt c.core).tilePending c.tiles) ∨ !s.copyFree c then s else s.stepCopy c f (f.row.toNat + c.pos) id
/-- The tile of the block a ring command is at. -/
def Cmd.ringTile (c : Cmd) : Nat :=
  let n := Nat.max 1 (c.args.getD 3 0)
  c.args.getD 2 0 + (c.args.getD 1 0 + c.pos / 64) % (n * (2 ^ 16 / n)) % n
/-- The ring command's next block can move: its tile is the engine's. -/
def State.ringReady (s : State) (c : Cmd) : Bool :=
  match c.i with
  | .ecopy f =>
    let k := s.coreAt c.core
    let t := k.tile c.tilesW c.ringTile
    f.ring && c.active s.now && s.copyFree c && t.owner == ownE && t.jtag == s.jtag c.die c.jcb && (c.tilesW || !k.tilePending [c.ringTile])
  | _ => false
/-- RING_BLOCK_TRANSFER (R228): the next row of the block; after the last of its 64 the tile is the thread's. -/
def execRingBlockTransfer (id : Nat) (s : State) : Out :=
  .next (match s.cmd id with
    | none => s
    | some c =>
      match c.i with
      | .ecopy f =>
        if !s.ringReady c then s
        else s.stepCopy c f (64 * c.ringTile + c.pos % 64) fun s => if c.pos % 64 = 63 then s.onCoreAt c.core fun k => k.setOwner c.tilesW [c.ringTile] ownT else s
      | _ => s)

/-! Named pipes (R316). -/

/-- A pipe can copy: its next producer slot and its next consumer slot are both the engine's. -/
def State.pipeReady (s : State) (g : Gang) (p : Pipe) : Bool :=
  match g.cores[p.fromStage]?, g.cores[p.toStage]?, (g.members[p.fromStage]?).bind s.cont with
  | some a, some b, some m =>
    let x := (s.coreAt a).tile false (p.ptile + p.prod % p.depth)
    let y := (s.coreAt b).tile false (p.ctile + p.cons % p.depth)
    x.owner == ownE && x.jtag == m.jtag && y.owner == ownE && y.jtag == m.jtag && !(s.coreAt a).tilePending [p.ptile + p.prod % p.depth]
      && g.state != .pending && g.state != .claiming
  | _, _, _ => false
/-- PIPE_TILE_COPY (R316): the tile's 64 rows; then the consumer's tile returns, then the producer's. -/
def execPipeTileCopy (gang pipe : Nat) (s : State) : Out :=
  .next (match s.sched.gangs.find? (fun g => g.id == gang) with
    | none => s
    | some g =>
      match g.pipes[pipe]? with
      | none => s
      | some p =>
        match g.cores[p.fromStage]?, g.cores[p.toStage]? with
        | some a, some b =>
          if !s.pipeReady g p then s
          else
            let x := p.ptile + p.prod % p.depth
            let y := p.ctile + p.cons % p.depth
            let k := s.coreAt a
            let s := (List.range 64).foldl (fun s i => match k.padFlaw false false (256 * (64 * x + i)) 256 with
              | some t => s.padRecord a false t
              | none => s.onCoreAt b fun q => q.putRow false (64 * y + i) (BitVec.allOnes 2048) (fget 0 k.amem (64 * x + i))) s
            let s := s.onCoreAt b fun q => q.setOwner false [y] ownT
            let s := s.onCoreAt a fun k => k.setOwner false [x] ownT
            s.onSched fun c => { c with gangs := c.gangs.map fun z => if z.id == gang then { z with pipes := z.pipes.set pipe { p with prod := p.prod + 1, cons := p.cons + 1 } } else z }
        | _, _ => s)
def State.planPipes (s : State) : List Instr :=
  (s.sched.gangs.filter fun g => s.awake g.die).flatMap fun g => (List.zipIdx g.pipes).filterMap fun p => if s.pipeReady g p.1 then some (.pipeTileCopy g.id p.2) else none

/-! Halo exchange (R237 to R239). -/

/-- Coordinates of the slab of a face: interior layers of the sender, or the opposite border of the receiver, in the order of dimension 2, 1, 0. -/
def Stream.slab (st : Stream) (dir : Nat) (border : Bool) : List (Int × Int × Int) :=
  let r := fun (d : Nat) =>
    if d ≠ dir / 2 then coords (st.low d) (st.high d)
    else
      let e : Int := st.ext d
      let h : Int := st.halo d
      if border then (if dir % 2 = 0 then coords (-h) (-1) else coords e (e + h - 1))
      else if dir % 2 = 0 then coords (e - h) (e - 1) else coords 0 (h - 1)
  (r 2).flatMap fun c2 => (r 1).flatMap fun c1 => (r 0).map fun c0 => (c0, c1, c2)
/-- Addresses of the bytes of a slab, run by run from byte 0 of each run; an engine sees the physical rows, whatever DIAG (R144). -/
def Stream.slabRuns (st : Stream) (dir : Nat) (border : Bool) : List Nat := (st.slab dir border).map fun c => st.runAddr c.1 c.2.1 c.2.2
/-- One byte of AMEM. -/
def Core.putByte (k : Core) (addr : Nat) (b : BitVec 8) : Core :=
  let a := addr % 2 ^ 21
  let o := 8 * (a % 256)
  k.putRow false (a / 256) (BitVec.ofNat 2048 (255 * 2 ^ o)) (BitVec.ofNat 2048 (b.toNat * 2 ^ o))
/-- Write the bytes of a face, by number, into the border: those for which it has a place (log entry 70). -/
def Stream.writeFace (st : Stream) (k : Core) (dir : Nat) (bytes : List (Nat × BitVec 8)) : Core :=
  let runs := st.slabRuns dir true
  bytes.foldl (fun k x => match runs[x.1 / st.cext]? with
    | some a => k.putByte (a + x.1 % st.cext) x.2
    | none => k) k
/-- Faces of a command. -/
def hxFaces (i : Instr) : List Nat :=
  match i with
  | .hxch _ f _ => (List.range 6).filter fun d => f.getLsbD d
  | _ => []
def hxStream (i : Instr) : Nat :=
  match i with
  | .hxch n _ _ => n.toNat
  | _ => 0
/-- Read the slabs: a face for each, to the neighbour in its direction, with the sender's generation. A run that an uncorrectable error spoils is not sent, and the job that holds its tile is told (R352). -/
def State.readFaces (s : State) (c : Cmd) : State :=
  let k := s.coreAt c.core
  let s := (hxFaces c.i).foldl (fun s dir =>
    let runs := List.zipIdx (c.st.slabRuns dir false)
    let s := runs.foldl (fun s r => match k.padFlaw false false r.1 c.st.cext with
      | some t => s.padRecord c.core false t
      | none => s) s
    let bytes := runs.flatMap fun r => if (k.padFlaw false false r.1 c.st.cext).isSome then []
      else (List.zipIdx (natLe c.st.cext (padAt k false false r.1 c.st.cext s.now))).map fun b => (c.st.cext * r.2 + b.2, b.1)
    let (s, id) := s.fresh
    let face : Face := { id := id, dst := s.neighbour c.die dir, core := coreOf c.core, st := hxStream c.i, dir := dir, gen := BitVec.ofNat 16 (c.args.getD 0 0), cmd := c.id,
                         jcb := c.jcb, handle := c.handle, pc := c.pc, bytes := bytes, len := c.st.cext * runs.length, out := 0 }
    { s with faces := s.faces ++ [face] }) s
  s.onCmd c.id fun x => { x with pos := 1 }
/-- Receiving port of a face. -/
def State.facePort (s : State) (f : Face) : Nat := s.portOf f.dst (if f.dir % 2 = 0 then f.dir + 1 else f.dir - 1)
/-- The face may go to its receiver, or is there: no earlier face of its port and stream number stands before it. -/
def State.faceSent (s : State) (f : Face) : Bool :=
  (s.faces.find? fun x => x.dst == f.dst && x.core == f.core && x.st == f.st && x.jcb == f.jcb && s.facePort x == s.facePort f) == some f
/-- Send the next flits of the faces that may go. -/
def State.sendFaces (s : State) (c : Cmd) : State :=
  (s.faces.filter fun f => f.cmd == c.id && decide (f.out < f.len)).foldl (fun s f =>
    if !s.faceSent f || reqFull s c.die f.dst || !s.linkFree c.die f.dst then s
    else
      let n := Nat.min flitData (f.len - f.out)
      match s.sendReq c.die f.dst c.jcb 0 true (.face f.id n) (.cmd c.id) with
      | (s, true) => { s with faces := s.faces.map fun x => if x.id == f.id then { x with out := x.out + n } else x }
      | (s, false) => s.failCmd c.id (remoteFault 0x01 0 f.dst)) s
/-- The exchange that expects a face: the core's, on the stream number, of the job, which has sent its own. -/
def State.faceTarget (s : State) (f : Face) : Option Cmd :=
  s.cmds.find? fun c => c.die == f.dst && coreOf c.core == f.core && c.jcb == f.jcb && hxStream c.i == f.st && (hxFaces c.i).contains f.dir && !c.aux.contains f.dir && c.pos == 1 && c.fail.isNone && !c.finished
/-- The exchange's own faces have been sent. -/
def State.facesSent (s : State) (c : Cmd) : Bool := s.cmdIdle c.id && (s.faces.filter fun f => f.cmd == c.id).all fun f => decide (f.len ≤ f.out)
/-- HALO_FACE_ARRIVAL (R239): the face is written into the border and arrives on the receiver's barrier; the last one after the tiles have returned. A face of another generation is discarded, and its sender told, whose exchange goes on (log entry 109). A face no exchange expects stays held. -/
def execHaloFaceArrival (id : Nat) (s : State) : Out :=
  .next (match s.faces.find? (fun f => f.id == id) with
    | none => s
    | some f =>
      match s.faceTarget f with
      | none => s
      | some c =>
        if !s.faceHere f then s
        else
          let drop := { s with faces := s.faces.filter fun x => x.id ≠ id }
          if (s.layEnt f.dst f.jcb (c.args.getD 1 0)).gen ≠ f.gen then
            drop.report f.handle f.jcb { remoteFault 0x04 0 f.dst with pc := f.pc, opc := opcOf c.i }
          else
            let s := drop.onCoreAt c.core fun k => c.st.writeFace k f.dir f.bytes
            let s := s.onCmd c.id fun x => { x with aux := x.aux ++ [f.dir] }
            if (hxFaces c.i).length ≤ c.aux.length + 1 then
              if s.facesSent c then ((s.handBack c).finishCmd c.id).arriveCmd c else s.onCmd c.id fun x => { x with pos := 2 }
            else s.arriveCmd c)
/-- An exchange whose faces have all landed while a face of its own was held back: it ends once that is sent. -/
def State.workHalo (s : State) (c : Cmd) : State :=
  if c.pos = 0 then (if (s.coreAt c.core).tilePending c.tiles then s else s.readFaces c)
  else if c.pos = 2 ∧ s.facesSent c then ((s.handBack c).finishCmd c.id).arriveCmd c
  else s.sendFaces c
def State.planFaces (s : State) : List Instr :=
  s.faces.filterMap fun f => if s.faceHere f && (s.faceTarget f).isSome then some (.haloFaceArrival f.id) else none

/-! Re-sharding (R241, R393). -/

/-- A step entry of a viaduct image. -/
structure VStep where
  src : Nat
  dst : Nat
  len : Nat
  peer : Nat
  waitn : Nat
  tstep : Nat
def VSlot.step (v : VSlot) (k : Nat) : VStep :=
  let f := fun o n => v.f (64 + 32 * k + o) n
  { src := f 0 8, dst := f 8 8, len := f 0x10 4, peer := f 0x14 2, waitn := f 0x16 2, tstep := f 0x18 2 }
def VSlot.group (v : VSlot) : Group := { origin := v.f 0x10 4 % 2 ^ 23, ex := v.f 0x14 2, ey := v.f 0x16 2, ez := v.f 0x18 2 }
/-- The step after k, or the end of the schedule. A command's first number is its phase in a step: 0 tokens awaited, 1 reading, 2 writing, 3 acknowledgements awaited. -/
def State.nextStep (s : State) (c : Cmd) (e v : BitVec 4) (k : Nat) : State :=
  let x := s.vslot c.die v.toNat
  if k + 1 < x.nstep then s.onCmd c.id fun y => { y with pos := k + 1, aux := [0], buf := [], sent := 0 }
  else
    let s := s.onLayEnt c.die c.jcb e.toNat fun y => { y with kind := BitVec.ofNat 2 (x.f 4 1), shape := BitVec.ofNat 48 (x.f 8 6), gen := y.gen + 1, busy := false }
    (s.onVslot c.die v.toNat fun y => { y with inUse := false }).finishCmd c.id
/-- The data of a step has been acknowledged: its token goes out, the next step begins. -/
def State.endStep (s : State) (c : Cmd) (e v : BitVec 4) (st : VStep) (peer : Nat) : State :=
  let s := if st.tstep = 0xFFFF then s
    else s.sendCrit c.die peer (.token (BitVec.ofNat 32 ((s.vslot c.die v.toNat).f 0 4)) st.tstep) c.jcb c.handle c.pc (opcOf c.i) c.core
  s.nextStep c e v c.pos
/-- Homes of the pages of a range: none while a translation is awaited. -/
def State.homesOf (s : State) (c : Cmd) : List Nat → State × Option (Except Trap (List Nat))
  | [] => (s, some (.ok []))
  | va :: r =>
    match s.engHome c .write true va with
    | .wait s => (s, none)
    | .bad t => (s, some (.error t))
    | .at s pa =>
      match s.homesOf c r with
      | (s, some (.ok l)) => (s, some (.ok (paDie pa :: l)))
      | x => x
/-- Addresses of a range, one in each page. -/
def pagesOf (va n : Nat) : List Nat := if n = 0 then [] else (regionsOf va n).map fun r => Nat.max va r % 2 ^ 56
/-- Go on with a step: its data to its peer, then its token. -/
def State.goStep (s : State) (c : Cmd) (e v : BitVec 4) (st : VStep) (g : Group) : State :=
  let peer := s.member g st.peer
  let phase := fun (n : Nat) (s : State) => s.onCmd c.id fun y => { y with aux := [n] }
  match c.aux.getD 0 0 with
  | 0 =>
    if !s.groupOk g ∨ g.size ≤ st.peer then s.failCmd c.id (accessFault 0x04 0 0)
    else if st.len = 0 then s.endStep c e v st peer
    else
      match s.homesOf c (pagesOf (st.dst % 2 ^ 56) st.len) with
      | (s, none) => s
      | (s, some (.error t)) => s.failCmd c.id t
      | (s, some (.ok l)) => if l.any fun d => d != peer then s.failCmd c.id (accessFault 0x04 (st.dst % 2 ^ 56) 0) else phase 1 s
  | 1 => (s.engFetch c [(st.src % 2 ^ 56, st.len)]).andThen c.id (phase 2)
  | 2 => (s.engWrite c [(st.dst % 2 ^ 56, st.len)] c.buf).andThen c.id (phase 3)
  | _ => if s.cmdIdle c.id then s.endStep c e v st peer else s
/-- The command has a step to go on with: its tokens have arrived. -/
def State.stepReady (s : State) (c : Cmd) : Bool :=
  match reshardOf c.i with
  | none => false
  | some (_, v) =>
    let x := s.vslot c.die v.toNat
    c.active s.now && (c.aux.getD 0 0 != 0 || decide ((x.step c.pos).waitn ≤ fget 0 x.tok c.pos))
/-- RESHARD_STEP (R393). -/
def execReshardStep (id : Nat) (s : State) : Out :=
  .next (match s.cmd id with
    | none => s
    | some c =>
      match reshardOf c.i with
      | none => s
      | some (e, v) =>
        if !s.stepReady c then s
        else
          let x := s.vslot c.die v.toNat
          s.goStep c e v (x.step c.pos) x.group)

/-! Critical flits that arrive (R235, R393). -/

def State.msg (s : State) (id : Nat) : Option Msg := s.fab.msgs.find? fun m => m.id == id
def State.dropMsg (s : State) (id : Nat) : State := s.onFab fun x => { x with msgs := x.msgs.filter fun m => m.id ≠ id }
/-- Tell the issuer of a critical flit what became of it. -/
def State.reportMsg (s : State) (m : Msg) (sub : Nat) : State := s.report m.issuer m.jcb { remoteFault sub 0 m.dst with pc := m.pc, opc := m.opc }
/-- Lowest slot of a die that holds a handle. -/
def State.slotOf (s : State) (die : Nat) (h : BitVec 32) : Option Nat :=
  (List.range 16).find? fun v => (s.vslot die v).loaded && (s.vslot die v).f 0 4 == h.toNat
/-- STEP_TOKEN_ARRIVAL (R393): counted, or discarded and its sender told. -/
def execStepTokenArrival (id : Nat) (s : State) : Out :=
  .next (match s.msg id with
    | none => s
    | some m =>
      match m.crit with
      | .token h k =>
        if !m.here s.now then s
        else
          let s := s.dropMsg id
          (match s.slotOf m.dst h with
            | none => s.reportMsg m 0x05
            | some v => if k < (s.vslot m.dst v).nstep then s.onVslot m.dst v fun x => { x with tok := fmod 0 k (· + 1) x.tok } else s.reportMsg m 0x05)
      | _ => s)
/-- BARRIER_ARRIVAL (R235): it counts at a barrier that the job holds; else it is discarded, and its issuer told. -/
def execBarrierArrival (id : Nat) (s : State) : Out :=
  .next (match s.msg id with
    | none => s
    | some m =>
      match m.crit with
      | .arrival b die =>
        if !m.here s.now then s
        else
          let s := s.dropMsg id
          if (s.barrier die b).job = some m.jcb then s.arrive die b m.jcb else s.reportMsg m 0x03
      | _ => s)

/-! Put and get (R246 to R248, R387 to R391). -/

/-- What the destination of a `put` is. -/
inductive PutTo where
  | memory
  | queue (die q : Nat)
  | group
  | bad (t : Trap)
deriving DecidableEq, Repr
/-- Judge the physical address of the destination. -/
def Cmd.putTo (c : Cmd) (p : PutCap) (pa : Nat) : PutTo :=
  let o := paOff pa - windowOff
  if !inWindow pa then .memory
  else if o < 0x10000 ∧ o % 4096 = 0 ∧ p.len = 64 ∧ p.handler.isNone then .queue (paDie pa) (o / 4096)
  else if 0x20000 ≤ o ∧ o < 0x21000 ∧ o % 64 = 0 ∧ p.group.isSome ∧ paDie pa = c.die then .group
  else .bad (remoteFault 0x06 p.dst (paDie pa))
/-- Bits of a bitmap of members. -/
def maskOf (n : Nat) (p : Nat → Bool) : Nat := ((List.range n).map fun i => if p i then 2 ^ i else 0).sum
/-- The checks of a multicast (R390). -/
def State.groupTrap (s : State) (c : Cmd) (p : PutCap) (v : Bool) (gr : Group) (base : Nat) : Option Trap :=
  if !v ∨ 64 < gr.size ∨ !s.groupOk gr ∨ !s.dieOk gr.origin then some (accessFault 0x04 p.dst 0)
  else if windowOff < base + p.len then some (remoteFault 0x06 p.dst c.die)
  else if s.safeBase < base + p.len then some (accessFault xfRange p.dst 0)
  else none
/-- The group of a multicast as the `put` took it. -/
def PutCap.gr (p : PutCap) : Bool × Group × Nat :=
  match p.group with
  | some (_, a, b) => groupOfWords a b
  | none => groupOfWords 0 0
/-- Take a member out of the performed ones. -/
def State.unperformed (s : State) (id m : Nat) : State :=
  s.onCmd id fun x => { x with aux := x.aux.modify 1 fun perf => if perf.testBit m then perf - 2 ^ m else perf }
/-- Send a multicast on: member after member, flit after flit (R390). A member that cannot be reached is not performed. -/
def State.multiGo (s : State) (c : Cmd) (p : PutCap) (g : Group) (base : Nat) : Nat → Nat → State
  | 0, k => s.onCmd c.id fun x => { x with sent := k }
  | f + 1, k =>
    let keep := fun (s : State) => s.onCmd c.id fun x => { x with sent := k }
    if g.size * p.len ≤ k then s.onCmd c.id fun x => { x with sent := 0, pos := 4 }
    else
      let m := k / p.len
      let o := k % p.len
      let die := s.member g m
      let n := Nat.min flitData (p.len - o)
      let b := (c.buf.drop o).take n
      let pa := die * 2 ^ 36 + base + o
      if die = c.die then (s.wrBytes pa b).multiGo c p g base f (k + n)
      else if reqFull s c.die die || !s.linkFree c.die die then keep s
      else
        match s.sendReq c.die die c.jcb ((p.dst + o) % 2 ^ 56) true (.write pa b) (.cmd c.id) with
        | (s, true) => s.multiGo c p g base f (k + n)
        | (s, false) => (s.unperformed c.id m).multiGo c p g base f ((m + 1) * p.len)
/-- The handler's record goes before the payload, which performs only once the target has it: so the handler starts if every sector performs, and only then (R247, R248; log entry 110). -/
def State.sendHandler (s : State) (c : Cmd) (h : Cont) (die len : Nat) : State :=
  if die = c.die then (s.holdHandler c.id die h len).onCmd c.id fun y => { y with aux := [0, die] }
  else if reqFull s c.die die then s
  else
    match s.sendReq c.die die c.jcb 0 false (.handler h len) (.cmd c.id) with
    | (s, true) => s.onCmd c.id fun y => { y with aux := [0, die] }
    | (s, false) => s.failCmd c.id (remoteFault 0x01 0 die)
/-- The payload goes to its destination: to memory, as a push to a launch queue, to the members of a group. -/
def State.sendPut (s : State) (c : Cmd) (p : PutCap) (push : State → Nat → Nat → BitVec 512 → State × BitVec 64) : State :=
  match s.tuXlate c.die c.asid p.dst .write with
  | (s, .wait, _) => s
  | (s, .fault e, _) => s.failCmd c.id (accessFault e p.dst 0)
  | (s, .done pa _ _, _) =>
    match c.putTo p pa with
    | .bad t => s.failCmd c.id t
    | .queue die q =>
      let x := BitVec.ofNat 512 (leNat c.buf)
      if die = c.die then
        let (s, a) := push s die q x
        s.onCmd c.id fun y => { y with pos := 3, aux := [2, a.toNat] }
      else if reqFull s c.die die then s
      else
        match s.sendReq c.die die c.jcb p.dst false (.push q x) (.cmd c.id) with
        | (s, true) => s.onCmd c.id fun y => { y with pos := 3, aux := [2] }
        | (s, false) => s.failCmd c.id (remoteFault 0x01 p.dst die)
    | .group =>
      let (v, g, base) := p.gr
      (match s.groupTrap c p v g base with
        | some t => s.failCmd c.id t
        | none =>
          let s := if c.aux.isEmpty then s.onCmd c.id fun y => { y with aux := [1, maskOf g.size fun _ => true, maskOf g.size fun _ => true] } else s
          s.multiGo c p g base (g.size * p.len + 1) c.sent)
    | .memory =>
      match (if c.aux.isEmpty then p.handler else none) with
      | none => (s.engWrite c [(p.dst, p.len)] c.buf).andThen c.id fun s => s.onCmd c.id fun y => { y with pos := 4 }
      | some h => s.sendHandler c h (paDie pa) p.len
/-- Start the handler of a `get` once there is room for it (R247). -/
def State.startHandler (s : State) (c : Cmd) (h : Cont) : State :=
  if s.cmdIdle c.id && s.dieLevelFree c.die then (s.create c.die h).1.onCmd c.id fun x => { x with pos := 4 } else s
/-- All of a `put` or a `get` has been acknowledged: it is done, or a multicast that missed members fails (R391). -/
def State.endPut (s : State) (c : Cmd) : State :=
  if !s.cmdIdle c.id then s
  else
    match c.aux with
    | 1 :: perf :: named :: _ => if perf = named then s.finishCmd c.id else s.failCmd c.id { cause := cMulti, info0 := perf, info1 := named, resumable := true }
    | _ => s.finishCmd c.id
/-- A `put`, by its position: 0 it reads its payload, 1 it sends its handler and its payload, 3 it writes the answer of a push to SRC, 4 it waits for acknowledgements. -/
def State.workPut (s : State) (c : Cmd) (push : State → Nat → Nat → BitVec 512 → State × BitVec 64) : State :=
  match c.put with
  | none => s
  | some p =>
    match c.pos with
    | 0 => (s.engFetch c [(p.src, p.len)]).andThen c.id fun s => s.onCmd c.id fun x => { x with pos := 1 }
    | 1 => s.sendPut c p push
    | 3 => (match c.aux with
      | _ :: a :: _ => (s.engWrite c [(p.src, 8)] (natLe 8 a)).andThen c.id fun s => s.onCmd c.id fun x => { x with pos := 4, aux := [] }
      | _ => s)
    | _ => s.endPut c
/-- A `get`: it reads its source at its home, writes it, starts its handler. -/
def State.workGet (s : State) (c : Cmd) : State :=
  match c.put with
  | none => s
  | some p =>
    match c.pos with
    | 0 => (s.engFetch c [(p.src, p.len)]).andThen c.id fun s => s.onCmd c.id fun x => { x with pos := 1 }
    | 1 => (s.engWrite c [(p.dst, p.len)] c.buf).andThen c.id fun s => s.onCmd c.id fun x => { x with pos := if p.handler.isSome then 2 else 4 }
    | 2 => p.handler.elim s (s.startHandler c)
    | _ => s.endPut c

end Sys2Proof.Machine
end

