-- ==== Sys2Proof/Machine/Collective.lean ====
section
/-! DEFINITION. Collectives, dispatch and combine (R242 to R245, R67, R394 to R397). -/

namespace Sys2Proof.Machine

/-! The parameter block (R242). -/

structure Coll where
  src : Nat
  dst : Nat
  fbuf : Nat
  count : Nat
  op : Nat
  dtype : Nat
  cmpr : Nat
  algo : Nat
  group : Group
  root : Nat
  epd : Nat
  cap : Nat
  aux : Nat
  ok : Bool
deriving DecidableEq, Repr
/-- Fields of a block given as a number; ok: no reserved code, no RSVD bit set. -/
def parseColl (x : Nat) : Coll :=
  let g := fun o n => bits x (8 * o) (8 * n)
  { src := g 0 8 % 2 ^ 56, dst := g 8 8 % 2 ^ 56, fbuf := g 0x10 8 % 2 ^ 56, count := g 0x18 4, op := g 0x20 1, dtype := g 0x21 1, cmpr := g 0x22 1, algo := g 0x23 1,
    group := { origin := g 0x24 4 % 2 ^ 23, ex := g 0x28 2, ey := g 0x2A 2, ez := g 0x2C 2 }, root := g 0x2E 2, epd := g 0x30 4, cap := g 0x34 4, aux := g 0x38 8 % 2 ^ 56,
    ok := g 0x1C 4 == 0 && g 0x48 56 == 0 && decide (g 0x20 1 ≤ 8) && decide (g 0x21 1 ≤ 3) && decide (g 0x22 1 ≤ 1) && decide (g 0x23 1 ≤ 3) && decide (g 0x24 4 < 2 ^ 23) }
/-- The fields in which members must agree. -/
def Coll.same (a b : Coll) : Bool :=
  a.op == b.op && a.dtype == b.dtype && a.count == b.count && a.cmpr == b.cmpr && a.algo == b.algo && a.group == b.group && a.root == b.root && a.epd == b.epd && a.cap == b.cap
/-- CMPR names an operation or a type that is not compressed: STATUS MISMATCH. -/
def Coll.badCmpr (b : Coll) : Bool := b.cmpr == 1 && (!(b.op == 0 || b.op == 3) || decide (2 ≤ b.dtype))
/-- Bytes of an element. -/
def Coll.esz (b : Coll) : Nat := if b.dtype = 1 ∨ b.dtype = 2 then 2 else 4
/-- The form is a collective, with whether it is `coll`. -/
def collKind (i : Instr) : Option Bool :=
  match i with
  | .coll _ _ => some true
  | .edisp _ _ | .ecomb _ _ => some false
  | _ => none
/-- The checks of R243, in order. -/
def State.collTrap (s : State) (c : Cmd) (b : Coll) : Option Trap :=
  let va := c.args.getD 0 0
  let kind := (collKind c.i).getD true
  if !b.ok ∨ (kind ∧ 7 ≤ b.op) ∨ (!kind ∧ b.op < 7) ∨ !s.groupOk b.group ∨ !(s.members b.group).contains c.die ∨ (b.op = 5 ∧ b.group.size ≤ b.root) then some (accessFault 0x04 va 0)
  else if b.cmpr = 1 ∧ s.cfg.variant = 2 then some { cause := cUnimpl, sub := 0x02 }
  else if b.cmpr = 1 ∧ !b.badCmpr ∧ b.count % (16 * b.group.size) ≠ 0 then some (accessFault 0x04 va 0)
  else none
/-! The group comes together. A command's position: 0 it reads its block, 1 it waits for its group, 2 it reads its source, 3 it waits for the others, 4 it reads its rows and waits for the others to have read theirs, 5 it sends its data, 6 it waits for the others', 7 it writes, 8 it waits for the others to have written. From 2 on its numbers are the block, the members' commands, then the status, the count and the ranges it writes. -/

/-- Block of a command that has started. -/
def Cmd.block (c : Cmd) : Coll := parseColl (c.aux.getD 0 0)
/-- A group as a number. -/
def Group.key (g : Group) : Nat := g.origin + 2 ^ 23 * g.ex + 2 ^ 39 * g.ey + 2 ^ 55 * g.ez
/-- The command waits for its group. -/
def Cmd.gathered (c : Cmd) (now : Nat) : Bool := (collKind c.i).isSome && c.pos == 1 && c.active now
/-- The command of a member that a collective meets: the earliest of the same group, else the earliest whose group holds this die. -/
def State.partner (s : State) (c : Cmd) (die : Nat) : Option Cmd :=
  let open' := s.cmds.filter fun x => x.die == die && x.jcb == c.jcb && x.gathered s.now
  (open'.find? fun x => x.block.group == c.block.group).orElse fun _ => open'.find? fun x => (s.members x.block.group).contains c.die
/-- A tag of the command is on its way. -/
def State.tagOut (s : State) (id : Nat) : Bool := s.fab.msgs.any fun m => m.crit == .reduceTag id && !m.heard && !(m.here s.now)
/-- End a command with a status (R242). -/
def State.endColl (s : State) (id code count : Nat) : State := s.onCmd id fun c => if c.finished then c else { c with finished := true, status := some (BitVec.ofNat 64 (code + count * 2 ^ 8)) }
/-- Commands of the members, once they are bound together. -/
def Cmd.ids (c : Cmd) : List Nat := (c.aux.drop 1).take c.block.group.size
def State.bound (s : State) (c : Cmd) : List Cmd := c.ids.filterMap s.cmd
/-- A member is lost: every surviving member of the group ends with MEMBER_LOST, one that has yet to start as it starts (R397). -/
def State.loseMember (s : State) (id : Nat) : State :=
  match s.cmd id with
  | none => s
  | some c =>
    if c.finished || c.fail.isSome then s
    else if 2 ≤ c.pos then (s.bound c).foldl (fun s x => s.endColl x.id 2 0) s
    else
      let mine := s.cmds.filter fun x => x.id == id || (x.jcb == c.jcb && (collKind x.i).isSome && x.pos == 1 && x.block.group == c.block.group)
      let hit := mine.filter fun x => x.id == id || x.gathered s.now
      let late := (s.members c.block.group).filter fun d => !(mine.any fun x => x.die == d)
      let s := s.onFab fun x => { x with lostColl := x.lostColl ++ late.map fun d => (d, c.jcb, c.block.group.key) }
      hit.foldl (fun s x => s.endColl x.id 2 0) s
/-- A member's command fails: the others end with FAULT (R243). -/
def State.failColl (s : State) (c : Cmd) (t : Trap) : State := ((s.bound c).filter fun x => x.id != c.id).foldl (fun s x => s.endColl x.id 4 0) (s.failCmd c.id t)
/-- Go on with a member's command. -/
def State.collThen (w : Work) (c : Cmd) (f : State → State) : State :=
  match w with
  | .done s => f s
  | .wait s => s
  | .bad s t => s.failColl c t
/-- The engine reads and checks the block; the member tells the others that it is there. -/
def State.startColl (s : State) (c : Cmd) : State :=
  (s.engFetch c [(c.args.getD 0 0, 128)]).andThen c.id fun s =>
    let x := leNat (s.cmdBuf c.id)
    let b := parseColl x
    match s.collTrap c b with
    | some t => s.failCmd c.id t
    | none =>
      let s := s.onCmd c.id fun y => { y with pos := 1, aux := [x], buf := [] }
      let lost := (c.die, c.jcb, b.group.key)
      if s.fab.lostColl.contains lost then (s.onFab fun y => { y with lostColl := y.lostColl.erase lost }).endColl c.id 2 0
      else ((s.members b.group).filter (· ≠ c.die)).foldl (fun s m => s.sendCrit c.die m (.reduceTag c.id) c.jcb c.handle c.pc (opcOf c.i) c.core) s

/-! Folds (R394). -/

def foldOne (f : Nat → Nat → Nat) : List Nat → Nat
  | [] => 0
  | x :: r => r.foldl f x
/-- Cut a list into m pieces of n. -/
def cut {α : Type} (n : Nat) : Nat → List α → List (List α)
  | 0, _ => []
  | m + 1, l => l.take n :: cut n m (l.drop n)
/-- RING: from member c + 1 on, the members in turn. -/
def ringFold (f : Nat → Nat → Nat) (c : Nat) (xs : List Nat) : Nat := foldOne f (xs.drop ((c + 1) % xs.length) ++ xs.take ((c + 1) % xs.length))
/-- DIM: along x, then y, then z. -/
def dimFold (f : Nat → Nat → Nat) (g : Group) (xs : List Nat) : Nat :=
  let r := (cut g.ex (g.ey * g.ez) xs).map (foldOne f)
  foldOne f ((cut g.ey g.ez r).map (foldOne f))
/-- One level of the tree. -/
def pairUp (f : Nat → Nat → Nat) : List Nat → List Nat
  | a :: b :: r => f a b :: pairUp f r
  | l => l
def pairFold (f : Nat → Nat → Nat) : Nat → List Nat → Nat
  | 0, l => l.headD 0
  | n + 1, l => if l.length ≤ 1 then l.headD 0 else pairFold f n (pairUp f l)
/-- First element of chunk c. -/
def chunkLo (g count c : Nat) : Nat := c * count / g
def chunkOf (g count e : Nat) : Nat := ((List.range g).find? fun c => decide (chunkLo g count c ≤ e) && decide (e < chunkLo g count (c + 1))).getD 0
def Coll.fold (b : Coll) (e : Nat) (xs : List Nat) : Nat :=
  let t : ETy := if b.dtype = 3 then .i32 else .f32
  let f := laneOp (match b.op with
    | 1 => 2
    | 2 => 3
    | _ => 1) t
  match b.algo with
  | 1 => ringFold f (chunkOf b.group.size b.count e) xs
  | 3 => pairFold f b.group.size xs
  | _ => dimFold f b.group xs
/-- Exact widening to FP32, and the rounding of a result. -/
def Coll.widen (b : Coll) (x : Nat) : Nat :=
  match b.dtype with
  | 1 => x * 2 ^ 16
  | 2 => (cvtV f32 0 (unpack f16 x)).1
  | _ => x
def Coll.narrow (b : Coll) (x : Nat) : Nat :=
  match b.dtype with
  | 1 => (cvtV bf16 0 (unpack f32 x)).1
  | 2 => (cvtV f16 0 (unpack f32 x)).1
  | _ => x
def Coll.elems (b : Coll) (bs : List (BitVec 8)) : List Nat := (cut b.esz b.count bs).map fun x => b.widen (leNat x)
def Coll.bytes (b : Coll) (xs : List Nat) : List (BitVec 8) := xs.flatMap fun x => natLe b.esz (b.narrow x)

/-! Compression with error feedback (R67, R395). -/

/-- The 9 bytes of a block on the wire: its packed elements, then its scale (R42, R67). -/
def packBlock (q : List Nat) (sc : Nat) : List (BitVec 8) := natLe 8 (fromLanes 4 q) ++ natLe 1 sc
/-- The 16 values that a receiver takes from the 9 bytes of a block. -/
def unpackBlock (w : List (BitVec 8)) : List Nat :=
  let sc := leNat (w.drop 8)
  (toLanes 4 16 (leNat (w.take 8))).map fun v => if sc = 0xFF then nan32 else let i := sval 4 v; rne32 (decide (i < 0)) i.natAbs ((sc : Int) - 127)
/-- A block of 16 as its sender sends it, and the feedback after the send. -/
def sendBlock (x fb : List Nat) : List (BitVec 8) × List Nat :=
  let y := List.zipWith add32 x fb
  let (sc, q, _) := quant y 2 0
  let w := packBlock (q.map (· % 16)) sc
  (w, if sc = 0xFF then y.map fun _ => 0 else List.zipWith sub32 y (unpackBlock w))
/-- Replace 16 elements of a list. -/
def putAt (l : List Nat) (i : Nat) (x : List Nat) : List Nat := l.take i ++ x ++ l.drop (i + x.length)
/-- What a compressed ring has made: the sums, the feedback of each member, the blocks that have travelled with their senders. -/
structure RingRun where
  sums : List Nat
  fbs : List (List Nat)
  sent : List (Nat × List (BitVec 8))
/-- The ring over one block: the partial sum travels from member to member. -/
def ringBlock (xs : List (List Nat)) (c b0 : Nat) : Nat → Nat → RingRun → RingRun
  | 0, _, r => r
  | n + 1, j, r =>
    let g := xs.length
    let s := (c + j - 1) % g
    let (w, fb) := sendBlock r.sums (((r.fbs.getD s []).drop b0).take 16)
    let x := ((xs.getD ((c + j) % g) []).drop b0).take 16
    ringBlock xs c b0 n (j + 1) { sums := List.zipWith add32 (unpackBlock w) x, fbs := r.fbs.modify s fun l => putAt l b0 fb, sent := r.sent ++ [(s, w)] }
/-- Every block of every chunk. -/
def compressed (b : Coll) (xs fbs : List (List Nat)) : RingRun :=
  (List.range (b.count / 16)).foldl (fun acc i =>
    let g := b.group.size
    let b0 := 16 * i
    let c := chunkOf g b.count b0
    let r := ringBlock xs c b0 (g - 1) 2 { acc with sums := ((xs.getD ((c + 1) % g) []).drop b0).take 16 }
    { r with sums := acc.sums ++ r.sums }) { sums := [], fbs := fbs, sent := [] }

/-! What the members read and write. -/

/-- Ranges that a member reads first: its source and feedback, or its entry list and the bits of dropped entries. -/
def Coll.needs (b : Coll) (m : Nat) : List (Nat × Nat) :=
  if 7 ≤ b.op then [(b.aux, 16 * b.count), ((b.aux + 16 * b.count) % 2 ^ 56, if b.op = 7 then ceilDiv b.count 8 else 0)]
  else
    let n := b.count * b.esz
    [(b.src, if b.op = 5 then (if m = b.root then n else 0) else if b.op = 6 then b.group.size * n else n), (b.fbuf, if b.cmpr = 1 then 4 * b.count else 0)]
/-- Feedback values that the members have read. -/
def feedbacks (b : Coll) (data : List (List (List (BitVec 8)))) : List (List Nat) := data.map fun d => (cut 4 b.count (d.getD 1 [])).map leNat
/-- The part of a result that is a member's chunk. -/
def chunkPart {α : Type} (b : Coll) (m k : Nat) (l : List α) : List α :=
  (l.drop (k * chunkLo b.group.size b.count m)).take (k * (chunkLo b.group.size b.count (m + 1) - chunkLo b.group.size b.count m))
/-- What a member m of a reduction or a data movement sends to a member d (R376, R395; log entry 111): its source, of it the chunk or the block that d needs, or, compressed, the blocks it passes on round the ring and then its finished chunk. -/
def collSends (b : Coll) (data : List (List (List (BitVec 8)))) (m d : Nat) : List (BitVec 8) :=
  let g := b.group.size
  let src := (data.getD m []).getD 0 []
  let n := b.count * b.esz
  match b.op with
  | 4 => src
  | 5 => if m = b.root then src else []
  | 6 => (src.drop (d * n)).take n
  | op =>
    if b.cmpr = 1 then
      let z := compressed b (data.map fun x => b.elems (x.getD 0 [])) (feedbacks b data)
      (if d = (m + 1) % g then (z.sent.filter fun x => x.1 == m).flatMap Prod.snd else []) ++ (if op = 0 then b.bytes (chunkPart b m 1 z.sums) else [])
    else if op = 3 then chunkPart b d b.esz src else src
/-- Writes of a member, with its status code and count. -/
abbrev CollOut := List (Nat × List (BitVec 8)) × Nat × Nat
/-- Reductions and data movement. -/
def collOuts (bs : List Coll) (data : List (List (List (BitVec 8)))) : List CollOut :=
  match bs with
  | [] => []
  | b :: _ =>
    let g := b.group.size
    let src := data.map fun d => d.getD 0 []
    let n := b.count * b.esz
    let outs : List (List (BitVec 8)) × List (List Nat) :=
      if b.op = 4 then (List.replicate g src.flatten, [])
      else if b.op = 5 then (List.replicate g (src.getD b.root []), [])
      else if b.op = 6 then ((List.range g).map fun m => src.flatMap fun d => (d.drop (m * n)).take n, [])
      else
        let xs := src.map b.elems
        let (r, fbs) := if b.cmpr = 1 then (let z := compressed b xs (feedbacks b data); (z.sums, z.fbs))
          else ((List.range b.count).map fun e => b.fold e (xs.map fun x => x.getD e 0), [])
        (if b.op = 3 then (List.range g).map fun m => b.bytes (chunkPart b m 1 r) else List.replicate g (b.bytes r), fbs)
    (List.zipIdx bs).map fun x =>
      ((x.1.dst, outs.1.getD x.2 []) :: (if b.cmpr = 1 then [(x.1.fbuf, (outs.2.getD x.2 []).flatMap (natLe 4))] else []), 0, 0)

/-! Dispatch and combine (R244, R245). -/

/-- An entry of a member's list. -/
structure Entry where
  member : Nat
  index : Nat
  token : Nat
  expert : Nat
  alt : Nat
  gate : Nat
deriving DecidableEq, Repr
def entriesOf (m : Nat) (bs : List (BitVec 8)) (n : Nat) : List Entry :=
  (List.range n).map fun i =>
    let x := leNat ((bs.drop (16 * i)).take 16)
    { member := m, index := i, token := bits x 0 32, expert := bits x 32 16, alt := bits x 48 16, gate := bits x 64 32 }
/-- An expert has a member that holds it; an entry that names another finds its expert full (log entry 113). -/
def Coll.expertOk (b : Coll) (e : Nat) : Bool := b.epd != 0 && decide (e < b.epd * b.group.size)
/-- Slots taken by expert, and the slot an entry gets. -/
def takeSlot (b : Coll) (e : Nat) (cnt : FMap Nat) : FMap Nat × Option (Nat × Nat) :=
  let k := fget 0 cnt e
  if b.expertOk e ∧ k < b.cap then (fput 0 e (k + 1) cnt, some (e, k)) else (cnt, none)
/-- First choices in order of member and entry, then alternates in the same order: expert and slot of each entry. -/
def assign (b : Coll) (es : List Entry) : List (Entry × Option (Nat × Nat)) :=
  let (first, cnt) := es.foldl (fun (acc : List (Entry × Option (Nat × Nat)) × FMap Nat) e => let (c, r) := takeSlot b e.expert acc.2; (acc.1 ++ [(e, r)], c)) ([], [])
  (first.foldl (fun (acc : List (Entry × Option (Nat × Nat)) × FMap Nat) x =>
    match x.2 with
    | some _ => (acc.1 ++ [x], acc.2)
    | none => if x.1.alt = 0xFFFF then (acc.1 ++ [x], acc.2) else (let (c, r) := takeSlot b x.1.alt acc.2; (acc.1 ++ [(x.1, r)], c))) ([], cnt)).1
/-- Offset of a slot at its member's DST: the areas of the member's experts follow one another (log entry 113). -/
def Coll.slotOff (b : Coll) (x : Nat × Nat) : Nat := (x.1 % b.epd * b.cap + x.2) * 272
/-- Rows that a member reads: its tokens' rows for a dispatch, the returned rows of its slots for a combine, each after the header of the slot that the entries give it again (log entry 113). -/
def Coll.rowNeeds (b : Coll) (m : Nat) (asg : List (Entry × Option (Nat × Nat))) : List (Nat × Nat) :=
  asg.filterMap fun a => a.2.bind fun x =>
    if b.op = 7 then (if a.1.member = m then some ((b.src + 256 * a.1.token) % 2 ^ 56, 256) else none)
    else if x.1 / b.epd = m then some ((b.src + b.slotOff x + 16) % 2 ^ 56, 256) else none
/-- Delivered entries with their rows. -/
def withRows (bs : List Coll) (asg : List (Entry × Option (Nat × Nat))) (rows : List (List (List (BitVec 8)))) : List (Entry × (Nat × Nat) × List (BitVec 8)) :=
  match bs with
  | [] => []
  | b :: _ =>
    (asg.foldl (fun (acc : List (Entry × (Nat × Nat) × List (BitVec 8)) × List (List (List (BitVec 8)))) a =>
      match a.2 with
      | none => acc
      | some x =>
        let m := if b.op = 7 then a.1.member else x.1 / b.epd
        (acc.1 ++ [(a.1, x, (acc.2.getD m []).headD [])], acc.2.modify m fun l => l.drop 1)) ([], rows)).1
/-- Bits of dropped entries ORed into the bytes that follow the list. -/
def dropBits (old : List (BitVec 8)) (n : Nat) (dropped : List Nat) : List (BitVec 8) := natLe (ceilDiv n 8) (leNat old ||| (dropped.map fun i => 2 ^ i).sum)
/-- The slot of a delivered entry: its header, then its row. -/
def slotBytes (d : Entry × (Nat × Nat) × List (BitVec 8)) : List (BitVec 8) := natLe 4 d.1.member ++ natLe 4 d.1.index ++ natLe 4 d.1.gate ++ natLe 4 0 ++ d.2.2
def dispatchOuts (bs : List Coll) (data : List (List (List (BitVec 8)))) (asg : List (Entry × Option (Nat × Nat))) (rows : List (List (List (BitVec 8)))) : List CollOut :=
  let del := withRows bs asg rows
  (List.zipIdx bs).map fun x =>
    let b := x.1
    let recv := (del.filter fun d => d.2.1.1 / b.epd == x.2).map fun d =>
      ((b.dst + b.slotOff d.2.1) % 2 ^ 56, slotBytes d)
    let dropped := (asg.filter fun a => a.1.member == x.2 && a.2.isNone).map fun a => a.1.index
    let bitsW := if dropped.isEmpty then [] else [((b.aux + 16 * b.count) % 2 ^ 56, dropBits ((data.getD x.2 []).getD 1 []) b.count dropped)]
    (recv ++ bitsW, if dropped.isEmpty then 0 else 3, dropped.length)
/-- `out + gate · row`, element by element. -/
def gateAdd (out : List Nat) (gate : Nat) (row : List (BitVec 8)) : List Nat := List.zipWith (fun o r => add32 o (mul32 gate r)) out ((cut 4 64 row).map leNat)
def combineOuts (bs : List Coll) (asg : List (Entry × Option (Nat × Nat))) (rows : List (List (List (BitVec 8)))) : List CollOut :=
  let del := withRows bs asg rows
  (List.zipIdx bs).map fun x =>
    let mine := del.filter fun d => d.1.member == x.2
    let tokens := ((asg.filter fun a => a.1.member == x.2).map fun a => a.1.token).dedup
    (tokens.map fun t =>
      let ds := sortBy (fun (a b : Entry × (Nat × Nat) × List (BitVec 8)) => decide (a.2.1.1 < b.2.1.1) || (decide (a.2.1.1 = b.2.1.1) && decide (a.1.index < b.1.index))) (mine.filter fun d => d.1.token == t)
      ((x.1.dst + 256 * t) % 2 ^ 56, (ds.foldl (fun o d => gateAdd o d.1.gate d.2.2) (List.replicate 64 0)).flatMap (natLe 4)), 0, 0)

/-! The group runs together. -/

/-- Cut a list into pieces of given lengths. -/
def cuts {α : Type} : List Nat → List α → List (List α)
  | [], _ => []
  | n :: r, l => l.take n :: cuts r (l.drop n)
/-- What the members have read, range by range. -/
def collData (ps : List Cmd) : List (List (List (BitVec 8))) := (List.zipIdx ps).map fun p => cuts ((p.1.block.needs p.2).map Prod.snd) p.1.buf
/-- Slots of a dispatch or a combine. -/
def collAsg (ps : List Cmd) : List (Entry × Option (Nat × Nat)) :=
  match ps with
  | [] => []
  | p :: _ => assign p.block ((List.zipIdx (collData ps)).flatMap fun d => entriesOf d.2 (d.1.getD 0 []) p.block.count)
/-- Everything that a member reads. -/
def collReads (ps : List Cmd) (c : Cmd) (m : Nat) : List (Nat × Nat) := c.block.needs m ++ (if 7 ≤ c.block.op then c.block.rowNeeds m (collAsg ps) else [])
/-- Rows that the members of a dispatch or a combine have read. -/
def collRows (ps : List Cmd) : List (List (List (BitVec 8))) :=
  (List.zipIdx ps).map fun p => cuts ((p.1.block.rowNeeds p.2 (collAsg ps)).map Prod.snd) (p.1.buf.drop (rangesLen (p.1.block.needs p.2)))
/-- What member m sends to member d: of a dispatch or a combine its entry list, and the slots or the rows that go there. -/
def collWire (ps : List Cmd) (m d : Nat) : List (BitVec 8) :=
  let bs := ps.map Cmd.block
  let b := bs.headD (parseColl 0)
  if b.op < 7 then collSends b (collData ps) m d
  else
    let del := withRows bs (collAsg ps) (collRows ps)
    (((collData ps).getD m []).getD 0 []) ++
      (if b.op = 7 then (del.filter fun x => x.1.member == m && x.2.1.1 / b.epd == d).flatMap slotBytes
       else (del.filter fun x => x.2.1.1 / b.epd == m && x.1.member == d).flatMap fun x => x.2.2)
/-- Outputs of the members. -/
def collResult (ps : List Cmd) : List CollOut :=
  let bs := ps.map Cmd.block
  let b := bs.headD (parseColl 0)
  if b.op < 7 then collOuts bs (collData ps)
  else
    let asg := collAsg ps
    let rows := collRows ps
    if b.op = 7 then dispatchOuts bs (collData ps) asg rows else combineOuts bs asg rows
/-- The members are all there: they are bound together, or they disagree (R243). OP says what work is done, and members of different mnemonics disagree (log entry 114). -/
def State.bindColl (s : State) (ps : List Cmd) : State :=
  match ps with
  | [] => s
  | p :: _ =>
    if ps.any fun x => !x.block.same p.block || x.block.badCmpr || opcOf x.i != opcOf p.i then ps.foldl (fun s x => s.endColl x.id 1 0) s
    else ps.foldl (fun s x => s.onCmd x.id fun y => { y with pos := 2, aux := y.aux ++ ps.map Cmd.id }) s
/-- Every member has sent its data: each takes what it writes. -/
def State.takeOuts (s : State) (ps : List Cmd) : State :=
  (ps.zip (collResult ps)).foldl (fun s x => s.onCmd x.1.id fun y =>
    { y with pos := 7, aux := y.aux ++ [x.2.2.1, x.2.2.2] ++ x.2.1.flatMap (fun w => [w.1, w.2.length]), buf := x.2.1.flatMap Prod.snd, sent := 0 }) s
/-- Ranges from a list of numbers. -/
def rangesOf : List Nat → List (Nat × Nat)
  | va :: n :: r => (va, n) :: rangesOf r
  | _ => []
/-- The numbers of a command after its members. -/
def Cmd.out (c : Cmd) : List Nat := c.aux.drop (1 + c.block.group.size)
/-- A member begins to send: to each of the others what goes there. -/
def State.startSend (s : State) (c : Cmd) (ps : List Cmd) (m : Nat) : State :=
  s.onCmd c.id fun x => { x with pos := 5, sent := 0, items := ((List.zipIdx ps).filter fun p => p.2 != m).map fun p => (p.1.die, collWire ps m p.2) }
/-- Send the next flit of a member's data to the others, one of them after another (R374, R376, R427). -/
def State.sendData (s : State) (c : Cmd) : State :=
  match c.items with
  | [] => s.onCmd c.id fun x => { x with pos := 6 }
  | (d, bs) :: r =>
    if bs.isEmpty then s.onCmd c.id fun x => { x with items := r }
    else if reqFull s c.die d || !s.linkFree c.die d then s
    else
      match s.sendReq c.die d c.jcb 0 true (.data (bs.take flitData)) (.cmd c.id) with
      | (s, true) => s.onCmd c.id fun x => { x with items := (d, bs.drop flitData) :: r }
      | (s, false) => s.loseMember c.id
/-- A cycle of a collective's engine on one member's command. -/
def State.workColl (s : State) (c : Cmd) : State :=
  let ps := s.bound c
  let m := ps.idxOf c
  let all := fun (n : Nat) => ps.all fun x => decide (n ≤ x.pos) && s.cmdIdle x.id
  let next := fun (n : Nat) (s : State) => s.onCmd c.id fun x => { x with pos := n, sent := 0 }
  if c.pos = 0 then s.startColl c
  else if c.pos = 1 then
    let ps := (s.members c.block.group).filterMap fun m => s.partner c m
    if ps.length ≠ c.block.group.size ∨ !ps.contains c ∨ ps.any (fun x => s.tagOut x.id) then s else s.bindColl ps
  else if ps.length < c.block.group.size then s.loseMember c.id
  else
    match c.pos with
    | 2 => State.collThen (s.engFetch c (c.block.needs m)) c (next 3)
    | 3 => if ps.all fun x => decide (3 ≤ x.pos) then (if c.block.op < 7 then s.startSend c ps m else next 4 s) else s
    | 4 =>
      if c.sent = 0 then State.collThen (s.engFetch c (collReads ps c m)) c fun s => s.onCmd c.id fun x => { x with sent := 1 }
      else if ps.all fun x => decide (5 ≤ x.pos) || (x.pos == 4 && x.sent == 1) then s.startSend c ps m
      else s
    | 5 => s.sendData c
    | 6 => if all 6 then s.takeOuts ps else s
    | 7 => State.collThen (s.engWrite c (rangesOf (c.out.drop 2)) c.buf) c (next 8)
    | _ => if all 8 then ps.foldl (fun s x => s.endColl x.id (x.out.getD 0 0) (x.out.getD 1 0)) s else s
/-- Reduce tags that have arrived are done with once their command has run or gone. -/
def State.dropTags (s : State) : State :=
  s.onFab fun x => { x with msgs := x.msgs.filter fun m => match m.crit with
    | .reduceTag _ => !(m.here s.now)
    | _ => true }

end Sys2Proof.Machine
end

