-- ==== Sys2Proof/Machine/Fabric.lean ====
section
/-! DEFINITION. The fabric end to end and link by link: requests and acknowledgements (R378 to R381), resends and unknown outcomes (R306, R380), the critical class (R385), planes, link protection and keys (R374, R375, R382 to R384). -/

namespace Sys2Proof.Machine

/-! Requests at their destination. -/

def State.req (s : State) (id : Nat) : Option Req := s.fab.reqs.find? fun r => r.id == id
def State.onReq (s : State) (id : Nat) (f : Req → Req) : State := s.onFab fun x => { x with reqs := x.reqs.map fun r => if r.id == id then f r else r }
def State.dropReq (s : State) (id : Nat) : State := s.onFab fun x => { x with reqs := x.reqs.filter fun r => r.id ≠ id }
/-- Physical ranges that a request writes. -/
def ReqKind.writes (k : ReqKind) : List (Nat × Nat) :=
  match k with
  | .write pa bs => [(pa, bs.length)]
  | .lane pas _ _ _ => pas.map fun a => (a, 1)
  | .cells pa _ | .atomic pa _ _ _ | .reduce pa _ _ _ _ | .clear pa _ => [(pa, 1)]
  | .bitOp pa _ bit => [(pa + bit / 8, 1)]
  | _ => []
/-- Two lists of ranges share a sector. -/
def shareSector (a b : List (Nat × Nat)) : Bool :=
  a.any fun x => b.any fun y => decide (x.1 / 64 ≤ (y.1 + y.2 - 1) / 64) && decide (y.1 / 64 ≤ (x.1 + x.2 - 1) / 64)
/-- A request comes behind an earlier one of its pair: an ordered one behind every ordered flit that has yet to arrive (R376), a write behind the writes of its sectors that have yet to perform (R379). -/
def State.reqBehind (s : State) (r : Req) : Bool :=
  s.comesBehind r || (s.fab.reqs.takeWhile fun x => x.id ≠ r.id).any fun x =>
    x.src == r.src && x.dst == r.dst && x.answer.isNone && shareSector x.kind.writes r.kind.writes
/-- The record of the handler of a command has yet to reach its target: the payload waits there (R248; log entry 110). -/
def Req.isHandlerOf (x r : Req) : Bool :=
  x.owner == r.owner && x.answer.isNone && (match x.kind with
    | .handler _ _ => true
    | _ => false)
/-- Perform a request at its destination: its answer, or none while it must wait there: for a free entry of the ready queue, for the record of its handler, for a port to carry its payload. -/
def State.performReq (s : State) (r : Req) : Option (State × (Nat × Nat)) :=
  match r.kind with
  | .spawn c _ => if s.dieLevelFree r.dst then some ((s.create r.dst c).1, (0, 0)) else none
  | .handler c len => (match r.owner with
    | .cmd id => some (s.holdHandler id r.dst c len, (0, 0))
    | _ => some (s, (0, 0)))
  | .push q p => let (s, a) := s.pushTo 3 r.src r.dst q p; some (s, (0, a.toNat))
  | .get pa n => if s.linkFree r.dst r.src then some (s.performAccess r.jcb (.get pa n)) else none
  | .write pa bs => if s.fab.reqs.any fun x => x.isHandlerOf r then none else (match r.owner with
    | .cmd id => let (s, a) := s.performAccess r.jcb (.write pa bs); some (s.credit id bs.length, a)
    | _ => some (s.performAccess r.jcb (.write pa bs)))
  | k => some (s.performAccess r.jcb k)
/-- Keep the latest numbers of a pair that the destination has performed. -/
def recordAnswer (l : List Recorded) (x : Recorded) : List Recorded :=
  let mine := l.filter fun y => y.src == x.src && y.dst == x.dst
  let l := if mine.length < Config.maxRecorded then l else
    match mine with
    | o :: _ => l.filter (· ≠ o)
    | [] => l
  l ++ [x]
/-- An answer that carries data leaves for the source: an ordered one by the dimension-ordered route, held while an earlier flit of its pair went by another (R377), the payload of a `get` as bulk. -/
def State.sendAnswer (s : State) (r : Req) : State :=
  let (s, k) := s.fresh
  let bulk := r.kind.bulkAnswer
  match s.routeOf bulk r.dst r.src with
  | none => s.onReq r.id fun x => { x with back := k, lost := true, held := false }
  | some h =>
    let held := !bulk && s.mustHold r.dst r.src k h
    s.onReq r.id fun x => { x with back := k, bpath := h, bsent := s.now, held := held, due := s.now + s.routeTime h }
/-- The answer goes back, with it the acknowledgement; an acknowledgement alone goes as a critical flit (R378). -/
def State.sendAck (s : State) (r : Req) (a : Nat × Nat) : State :=
  let s := s.onReq r.id fun x => { x with arrived := true, answer := some a }
  if r.kind.answers then s.sendAnswer r else s.sendCrit r.dst r.src (.ack r.id) r.jcb 0 0 0 0
/-- REQUEST_ARRIVAL (R378): a request is performed once; a number that is recorded is answered again as before. -/
def execRequestArrival (id : Nat) (s : State) : Out :=
  .next (match s.req id with
    | none => s
    | some r =>
      if r.arrived ∨ r.away s.now = true ∨ s.reqBehind r = true then s
      else
        match s.fab.recorded.find? fun x => x.src == r.src && x.dst == r.dst && x.seq == r.seq with
        | some x => s.sendAck r (x.answer.getD (0, 0))
        | none =>
          match s.performReq r with
          | none => s
          | some (s, a) => (s.onFab fun x => { x with recorded := recordAnswer x.recorded { src := r.src, dst := r.dst, seq := r.seq, answer := some a } }).sendAck r a)

/-! Acknowledgements at their source. -/

/-- An outstanding access of a core. -/
def State.onOutst (s : State) (cid id : Nat) (f : Outst → Outst) : State := s.onCoreAt cid fun c => { c with outst := c.outst.map fun o => if o.id == id then f o else o }
/-- The bytes of a remote load part return: they land after the time of its translation; their line enters the L1 where nothing forbids it, and no older answer of the line after it; where something does, no older copy of it stays. A read of several pieces takes the piece and goes on. -/
def State.loadReturns (s : State) (cid id v n : Nat) : State :=
  match (s.coreAt cid).outst.find? fun o => o.id == id && o.resp == .remote with
  | none => s
  | some o =>
    if o.isDevice then s.onOutst cid id fun x => { x with buf := x.buf ++ natLe n v }
    else
      let addr := o.q.args.getD 0 0
      let whole := o.q.args.getD 4 0 = 1
      let part := bits v (if whole then 8 * (addr % 64) else 0) (8 * o.q.args.getD 1 8)
      let s := s.onCoreAt cid fun c =>
        if o.q.args.getD 3 0 = 1 then { c with
          l1d := lineFill c.l1d o.q.asid addr (BitVec.ofNat 512 v),
          outst := c.outst.map fun x => if x.id < id ∧ x.resp = .remote ∧ x.q.asid = o.q.asid ∧ lineOf (x.q.args.getD 0 0) = lineOf addr then { x with q := { x.q with args := x.q.args.set 3 0 } } else x }
        else { c with l1d := lineDrop c.l1d o.q.asid addr }
      s.onOutst cid id fun o => { o with resp := .value (part * 2 ^ o.q.args.getD 2 0), due := s.now + o.due - 2 }
/-- An access under way ends in a trap; a prefetch is dropped (R295). -/
def State.loadFails (s : State) (cid id : Nat) (t : Trap) : State :=
  s.onOutst cid id fun o => if quietForm o.q.i then { o with resp := .drop, due := s.now } else o.failed t s.now
/-- Report of a store's failure, once for an access of several sectors (log entry 44); a terminating one discards what later loads bring (R154). -/
def State.storeReport (s : State) (r : Req) (cid : Nat) (q : QEnt) (t : Trap) : State :=
  if r.told then s
  else
    let s := s.onFab fun x => { x with reqs := x.reqs.map fun y => match y.owner with
      | .store _ e => if e.id == q.id then { y with told := true } else y
      | _ => y }
    let s := if t.resumable then s else s.onCoreAt cid fun c => c.dropLater q.handle q.id
    s.report q.handle q.jcb (q.trap t)
/-- Bytes that a request asks for. -/
def ReqKind.size (k : ReqKind) : Nat :=
  match k with
  | .read _ n | .get _ n => n
  | _ => 8
/-- A request of a command fails: of a collective that is at work the other members end with FAULT (R243). -/
def State.cmdFails (s : State) (id : Nat) (t : Trap) : State :=
  match s.cmd id with
  | none => s
  | some c => if (collKind c.i).isSome && !c.finished then s.failColl c t else s.failCmd id t
/-- What the acknowledgement of a request brings its owner. -/
def State.ackOwner (s : State) (r : Req) (a : Nat × Nat) : State :=
  let t := answerTrap a.1 r.va r.src r.dst
  match r.owner with
  | .load cid o => if a.1 = 0 then s.loadReturns cid o a.2 r.kind.size else s.loadFails cid o t
  | .store cid q => if a.1 = 0 then s else s.storeReport r cid q t
  | .walk die asid region => s.walkGets die asid region (if a.1 = 0 then some a.2 else none)
  | .agent key pc opc => if a.1 = 0 then s else s.report key r.jcb { t with pc := pc, opc := opc }
  | .cmd id =>
    if a.1 ≠ 0 then s.cmdFails id t
    else
      match r.kind with
      | .push _ _ => s.onCmd id fun c => { c with aux := [2, a.2] }
      | .read _ n | .get _ n => s.onCmd id fun c => { c with buf := c.buf ++ natLe n a.2 }
      | _ => s
/-- An acknowledgement alone is at its source. -/
def State.ackHere (s : State) (id : Nat) : Bool := s.fab.msgs.any fun m => m.crit == .ack id && m.here s.now
/-- ACKNOWLEDGEMENT (R378). -/
def execAcknowledgement (id : Nat) (s : State) : Out :=
  .next (match s.req id with
    | none => s
    | some r =>
      match r.answer with
      | none => s
      | some a => if (if r.kind.answers then !r.arrived || r.away s.now || s.comesBehind r else !s.ackHere id) then s else (s.dropReq id).ackOwner r a)

/-! Resends and unknown outcomes (R380). -/

/-- 8 µs, 40 µs and 1 µs in cycles of 2.1 GHz, of which the model's clock counts every one, whatever dies are throttled (log entry 88). -/
def resendAfter : Nat := 16800
def unknownAfter : Nat := 84000
def hopAfter : Nat := 2100
/-- Send a request again on its current route. While it or its answer is on its way, the second copy changes nothing; one that was performed is answered again. -/
def State.resendReq (s : State) (r : Req) : State :=
  s.onReq r.id fun x =>
    let x := { x with tries := x.tries + 1, sent := s.now }
    if !x.lost && (!x.arrived || x.kind.answers) then x
    else
      match s.routeOf r.bulk r.src r.dst with
      | some h => { x with lost := false, held := false, arrived := false, path := h, due := s.now + s.routeTime h }
      | none => x
def Req.toResend (r : Req) (now : Nat) : Bool := (r.arrived || !r.held) && decide (r.tries < 4) && decide (r.sent + resendAfter ≤ now) && decide (now < r.first + unknownAfter)
/-- END_TO_END_RESEND: every request whose time has come. -/
def execEndToEndResend (s : State) : Out := .next ((s.fab.reqs.filter fun r => r.toResend s.now).foldl State.resendReq s)
/-- The scope of an entry that releases (R303). -/
def releaseScope (s : State) (e : QEnt) : Option Scope :=
  match e.i with
  | .strel _ _ sc _ => some sc
  | .fence sc k => if k.getLsbD 1 then some sc else none
  | .cpost _ _ sc _ => if e.args.getD 3 0 = 2 then none else some sc
  | .barr _ true _ => some .sys
  | .done _ | .ckpt _ _ => some .sys
  | .spawn f => if f.remote then some .sys else none
  | .put _ _ => (match s.rdV (keyDie e.handle) e.asid (e.args.getD 0 0 + 0x14) 1 with
    | .ok f => if f.testBit 0 then some .sys else none
    | .error _ => none)
  | i => (match atomicOf i with
    | some (_, sc, o) => if o.getLsbD 1 then some sc else none
    | none => none)
/-- The release waits for a store to a die. -/
def scopeCovers (sc : Scope) (src dst : Nat) : Bool :=
  match sc with
  | .sys => true
  | .pkg => pkgOf src == pkgOf dst
  | _ => false
/-- A queued entry will never perform: the tiles of an engine command return (R351), a `reshard`, a record's place and a set's load are over. -/
def State.undoEntry (s : State) (cid : Nat) (e : QEnt) : State :=
  let die := dieOf cid
  let tag := s.jtag die e.jcb
  let s := s.onCoreAt cid fun k => k.dropHeads fun q => q.id == e.id
  let s := s.onCoreAt cid fun k => k.setOwner e.tiles.1 (e.tiles.2.filter fun t => (k.tile e.tiles.1 t).jtag == tag && (k.tile e.tiles.1 t).owner != ownT) ownT
  match e.i with
  | .reshard _ _ _ => s.freeReshard die e.jcb e.i
  | .tsub n _ _ _ => s.onTset die n.toNat fun t => { t with places := fput none (e.args.getD 0 0) none t.places }
  | .tsload n _ _ => s.onTset die n.toNat fun t => { t with loading := t.loading - 1 }
  | _ => s
/-- The first release of the continuation that waits for a store, and every entry behind it, do not perform (R306). -/
def State.dropBehind (s : State) (cid handle src dst : Nat) : State :=
  let c := s.coreAt cid
  let waits := fun (e : QEnt) => e.handle == handle && (match releaseScope s e with
    | some sc => scopeCovers sc src dst
    | none => false)
  match (c.storeQ ++ c.loadQ).filter waits with
  | [] => s
  | e :: r =>
    let first := r.foldl (fun m x => Nat.min m x.id) e.id
    let keep := fun (q : QEnt) => q.handle != handle || decide (q.id < first)
    let gone := (c.storeQ.filter fun q => !keep q) ++ c.loadQ.filter fun q => !keep q && !q.both
    let s := s.onCoreAt cid fun c => { c with storeQ := c.storeQ.filter keep, loadQ := c.loadQ.filter keep }
    gone.foldl (fun s q => s.undoEntry cid q) s
def unknownTrap (va dst : Nat) : Trap := { cause := cUnknown, addr := va, info0 := dst, resumable := true }
/-- A command learns that the outcome of one of its requests is unknown. -/
def State.cmdUnknown (s : State) (r : Req) (c : Cmd) : State :=
  match c.i with
  | .get _ _ | .ckpt _ _ => s.failCmd c.id (remoteFault 0x01 r.va r.dst)
  | .coll _ _ | .edisp _ _ | .ecomb _ _ => if c.finished then s.failCmd c.id (unknownTrap r.va r.dst) else if 1 ≤ c.pos ∧ r.kind.answers = false then s.loseMember c.id else s.failColl c (remoteFault 0x01 r.va r.dst)
  | _ =>
    match r.kind with
    | .read _ _ => s.failCmd c.id (remoteFault 0x01 r.va r.dst)
    | _ =>
      if c.multicast then
        match c.put.map fun p => (s.members p.gr.2.1).idxOf r.dst with
        | some m => s.unperformed c.id m
        | none => s
      else s.failCmd c.id (unknownTrap r.va r.dst)
/-- The record of a handler that never reached its target: no sector of the payload performs any more (R248). -/
def State.dropPayload (s : State) (r : Req) : State :=
  match r.kind with
  | .handler _ _ => if r.answer.isNone then s.onFab fun x => { x with reqs := x.reqs.filter fun y => !(y.owner == r.owner && y.answer.isNone) } else s
  | _ => s
/-- The issuer of a request is told that its outcome is unknown. -/
def State.unknownReq (s : State) (r : Req) : State :=
  let s := (s.dropReq r.id).dropPayload r
  match r.owner with
  | .load cid o =>
    (match r.kind with
      | .atomic _ _ _ _ =>
        let h := ((s.coreAt cid).outst.find? fun x => x.id == o).elim 0 fun x => x.q.handle
        (s.loadFails cid o (unknownTrap r.va r.dst)).dropBehind cid h r.src r.dst
      | _ => s.loadFails cid o (remoteFault 0x01 r.va r.dst))
  | .store cid q =>
    let s := s.onCoreAt cid fun c => { c with storeQ := c.storeQ.filter fun e => e.id ≠ q.id }
    (s.storeReport r cid q (unknownTrap r.va r.dst)).dropBehind cid q.handle r.src r.dst
  | .walk die asid region => s.walkGets die asid region none
  | .agent key pc opc => s.report key r.jcb { unknownTrap r.va r.dst with pc := pc, opc := opc }
  | .cmd id =>
    (match s.cmd id with
      | none => s
      | some c => s.cmdUnknown r c)
/-- A request was unreachable before its first send: it has not been performed (R380). -/
def State.unreachReq (s : State) (r : Req) : State :=
  let t := remoteFault 0x01 r.va r.dst
  let s := (s.dropReq r.id).dropPayload r
  match r.owner with
  | .load cid o => s.loadFails cid o t
  | .store cid q => (s.onCoreAt cid fun c => { c with storeQ := c.storeQ.filter fun e => e.id ≠ q.id }).storeReport r cid q t
  | .walk die asid region => s.walkGets die asid region none
  | .agent key pc opc => s.report key r.jcb { t with pc := pc, opc := opc }
  | .cmd id => s.cmdFails id t
/-- FABRIC_OUTCOME_UNKNOWN: every request without an acknowledgement 40 µs after its first send. -/
def execFabricOutcomeUnknown (s : State) : Out :=
  .next ((s.fab.reqs.filter fun r => (r.arrived || !r.held) && decide (r.first + unknownAfter ≤ s.now)).foldl (fun s r => (s.req r.id).elim s s.unknownReq) s)

/-! The critical class (R385). -/

/-- Put an entry in place of the one of its number. -/
def State.putMsg (s : State) (m : Msg) : State := s.onFab fun x => { x with msgs := x.msgs.map fun y => if y.id == m.id then m else y }
/-- The flit is a hop receipt: it has none of its own (log entry 102). -/
def Msg.isReceipt (m : Msg) : Bool :=
  match m.crit with
  | .receipt _ => true
  | _ => false
/-- Send a critical flit again on both planes, with the same number where it leaves by the same port; where a port of its route is dead it takes the other direction. One that the receiver of its hop has goes there again by its own port (log entry 102). -/
def State.resendMsg (s : State) (m : Msg) : State :=
  let again := fun (p : List (Nat × Nat)) (h : Nat × Nat) => s.putMsg { m with path := p, sent := s.now, lost := false, spoilt := none, due := s.now + s.hopTime h.1 h.2 }
  let turn := fun (_ : Unit) => (let (s, n) := s.enterHop m m.holder 0; s.putMsg { n with first := m.first })
  match m.path with
  | [] => s
  | g :: gs =>
    if m.heard then (if s.portDead (8 * g.1 + s.portOf g.1 g.2) then s.putMsg { m with sent := s.now } else again (g :: gs) g)
    else
      match s.route g.1 m.dst with
      | some (h :: r) => if h = g then again (h :: r) h else turn ()
      | some [] => turn ()
      | none => s.putMsg { m with sent := s.now }
/-- CRITICAL_RESEND: the flits without a receipt 1 µs after their latest send. -/
def execCriticalResend (s : State) : Out :=
  .next ((s.fab.msgs.filter fun m => m.lost && !m.isReceipt && decide (m.sent + hopAfter ≤ s.now) && decide (s.now < m.first + unknownAfter)).foldl State.resendMsg s)
/-- CRITICAL_FLIT_LOST: the flits without a receipt 40 µs after their first send. -/
def execCriticalFlitLost (s : State) : Out :=
  .next ((s.fab.msgs.filter fun m => m.lost && decide (m.first + unknownAfter ≤ s.now)).foldl (fun s m =>
    let s := s.dropMsg m.id
    match m.crit with
    | .reduceTag id => s.loseMember id
    | .ack _ | .receipt _ => s
    | _ => s.reportMsg m 0x01) s)

/-! Links (R374, R375, R382 to R384). -/

/-- The port serves a direction on this variant: with extent 2 in a dimension only the on-package one, with extent 1 none (R1, R373). -/
def State.portThere (s : State) (port : Nat) : Bool :=
  let dir := port % 8
  s.dieOk (port / 8) && decide (dir < 6) && decide (1 < s.extent (dir / 2)) && s.portOf (port / 8) dir == dir
/-- The port at the other end of a port's link. -/
def State.peerPort (s : State) (port : Nat) : Nat :=
  let d := port / 8
  let dir := port % 8
  let n := s.neighbour d dir
  8 * n + s.portOf n (if dir % 2 = 0 then dir + 1 else dir - 1)
/-- A hop ends at a port; it is over the link of a port, from either end. -/
def State.hopInto (s : State) (port : Nat) (h : Nat × Nat) : Bool := s.peerPort (8 * h.1 + s.portOf h.1 h.2) == port
def State.hopIs (s : State) (port : Nat) (h : Nat × Nat) : Bool := 8 * h.1 + s.portOf h.1 h.2 == port || s.hopInto port h
/-- The hops of what of a request is on its way: its own, or those of the answer that carries data. -/
def Req.hops (r : Req) : List (Nat × Nat) := if r.arrived then (if r.kind.answers then r.bpath else []) else r.path
/-- What of a request is on a route that takes a hop that satisfies a test. -/
def Req.onWay (r : Req) (now : Nat) (hop : Nat × Nat → Bool) : Bool := !r.held && !r.lost && decide (now < r.due) && r.hops.any hop
/-- A critical flit is on a hop that satisfies a test. -/
def Msg.onWay (m : Msg) (now : Nat) (hop : Nat × Nat → Bool) : Bool := !m.lost && decide (now < m.due) && m.path.head?.elim false hop
/-- What of a request is on its way is a bulk flit. -/
def Req.isBulk (r : Req) : Bool := if r.arrived then r.kind.bulkAnswer else r.bulk
/-- Round trip of the hop at a port (R398). -/
def State.hopTrip (s : State) (port : Nat) : Nat := 2 * s.hopTime (port / 8) (port % 8)
/-- A flit slot passes on a plane: the counters of both ends advance. -/
def State.slotPasses (s : State) (port : Nat) (plane : Bool) : State :=
  (s.onPlane port plane fun p => { p with recvCtr := p.recvCtr + 1, slots := p.slots + 1 }).onPlane (s.peerPort port) plane fun p => { p with sendCtr := p.sendCtr + 1 }
/-- Delay the earliest flit of a class on its way into a port, a request or an answer, by one round trip of the hop: it is replayed. -/
def State.delayOne (s : State) (port : Nat) (bulk : Bool) : State :=
  match s.fab.reqs.find? fun r => (if bulk then r.isBulk else r.ordered) && r.onWay s.now (s.hopInto port) with
  | some r => s.onReq r.id fun x => { x with due := x.due + s.hopTrip port }
  | none => s
/-- The earliest critical flit on its way into a port. -/
def State.msgAt (s : State) (port : Nat) : Option Msg := s.fab.msgs.find? fun m => m.onWay s.now (s.hopInto port)
/-- A copy of it arrives corrupt on a plane: with the other plane's copy corrupt too, or that plane down, it is lost until its sender sends it again (R385). -/
def State.spoilMsg (s : State) (port : Nat) (plane : Bool) : State :=
  match s.msgAt port with
  | some m => s.putMsg (if (s.plane port (!plane)).down || m.spoilt == some (!plane) then { m with lost := true, spoilt := none } else { m with spoilt := some plane })
  | none => s
/-- The port at which a hop ends has a critical number among the last 32,768 it received (R385). -/
def State.critSeen (s : State) (port n : Nat) : Bool := (fget CritPort.reset s.fab.crit port).seen.contains n
def State.noteCrit (s : State) (port n : Nat) : State :=
  s.onFab fun x => { x with crit := fmod CritPort.reset port (fun p => { p with seen := if p.seen.contains n then p.seen else keepLast 32768 (p.seen ++ [n]) }) x.crit }
/-- The receiver returns a hop receipt, itself a critical flit, with a number of its own port. None leaves by a dead port. -/
def State.sendReceipt (s : State) (m : Msg) (port : Nat) : State :=
  if s.portDead port then s
  else
    let (s, id) := s.fresh
    let number := (fget CritPort.reset s.fab.crit port).next
    let r := { m with
      id := id, src := port / 8, dst := m.holder, crit := .receipt m.id, path := [(port / 8, port % 8)], number := number.toNat, first := s.now, sent := s.now,
      due := s.now + s.hopTime (port / 8) (port % 8), lost := false, heard := false, spoilt := none }
    s.onFab fun x => { x with crit := fmod CritPort.reset port (fun p => { p with next := p.next + 1 }) x.crit, msgs := x.msgs ++ [r] }
/-- The first copy of a flit goes on from the receiver: by its next hop, or where it goes (R385). -/
def State.forward (s : State) (m : Msg) (here : Nat) : State :=
  let (s, id) := s.fresh
  let (s, n) := if here = m.dst then (s, { m with path := [], due := s.now, first := s.now, sent := s.now, lost := false, heard := false, spoilt := none }) else s.enterHop m here 0
  s.onFab fun x => { x with msgs := x.msgs ++ [{ n with id := id }] }
/-- The end of a hop: the receiver notes the number and returns a receipt, and the flit goes on unless it had the number before; the sender's entry stands until the receipt has come. A receipt ends that entry and itself. -/
def State.endHop (s : State) (m : Msg) : State :=
  match m.path with
  | [] => s
  | h :: _ =>
    let port := s.peerPort (8 * h.1 + s.portOf h.1 h.2)
    let seen := s.critSeen port m.number
    let s := s.noteCrit port m.number
    match m.crit with
    | .receipt id => (s.dropMsg id).dropMsg m.id
    | _ =>
      let s := (s.putMsg { m with lost := true, heard := true, spoilt := none }).sendReceipt m port
      if seen then s else s.forward m (s.neighbour h.1 h.2)
/-- Flits at the end of their hops go on; lost receipts and the acknowledgements of requests that are over go. -/
def State.hopMsgs (s : State) : State :=
  let s := s.onFab fun x => { x with msgs := x.msgs.filter fun m => match m.crit with
    | .ack id => !(m.here s.now) || x.reqs.any fun r => r.id == id
    | .receipt _ => !m.lost
    | _ => true }
  (s.fab.msgs.filter fun m => !m.lost && !m.path.isEmpty && decide (m.due ≤ s.now)).foldl State.endHop s
/-- A held flit whose pair may switch is sent on its current route (R377). With no route left a request fails as unreachable, and an answer is lost. -/
def State.sendHeld (s : State) (r : Req) : State :=
  match s.route r.sender r.receiver with
  | none => if r.arrived then s.onReq r.id fun x => { x with held := false, lost := true } else s.unreachReq r
  | some h =>
    if s.mustHold r.sender r.receiver r.stamp h then s
    else if r.arrived then s.onReq r.id fun x => { x with held := false, bpath := h, bsent := s.now, due := s.now + s.routeTime h }
    else s.onReq r.id fun x => { x with held := false, path := h, first := s.now, sent := s.now, due := s.now + s.routeTime h }
def State.releaseHeld (s : State) : State := (s.fab.reqs.filter fun r => r.held).foldl State.sendHeld s
/-- The handlers of `put`s whose every sector has performed start, where the ready queue has room (R247); those that can no longer start go. -/
def State.startHandlers (s : State) : State :=
  s.fab.handlers.foldl (fun s h =>
    let drop := fun (s : State) => s.onFab fun x => { x with handlers := x.handlers.erase h }
    if h.left = 0 then (if s.dieLevelFree h.die then drop (s.create h.die h.cont).1 else s)
    else if (s.cmd h.cmd).isNone ∧ s.cmdIdle h.cmd then drop s else s) s
/-- FLIT_ARRIVAL (R374, R383): a slot passes, an idle one too; an intact flit is delivered; of a corrupt one nothing is: an ordered or bulk one is replayed, a critical one lives on in the copy of the other plane. -/
def execFlitArrival (port : Nat) (plane : Bool) (c : FlitClass) (intact : Bool) (s : State) : Out :=
  .next (
    if !s.portThere port then s
    else
    let s := s.slotPasses port plane
    if intact then s.onPlane port plane fun p => { p with fails := 0 }
    else
      let s := s.onPlane port plane fun p => { p with fails := p.fails + 1 }
      match c with
      | .ordered => (s.onPlane (s.peerPort port) plane fun p => { p with replays := p.replays + 1 }).delayOne port false
      | .bulk => (s.onPlane (s.peerPort port) plane fun p => { p with replays := p.replays + 1 }).delayOne port true
      | .critical => s.spoilMsg port plane
      | .idle => s)
/-- A plane of a port fails (R375). Where the port is dead with it, what was crossing the link is lost until it is sent again. -/
def State.failPlane (s : State) (port : Nat) (plane : Bool) : State :=
  let reqs := (s.fab.reqs.filter fun r => r.onWay s.now (s.hopIs port)).map Req.id
  let msgs := (s.fab.msgs.filter fun m => m.onWay s.now (s.hopIs port)).map Msg.id
  if !s.portThere port then s
  else
  let s := s.onPlane port plane fun p => { p with down := true }
  if s.portDead port then
    s.onFab fun x => { x with reqs := x.reqs.map (fun r => if reqs.contains r.id then { r with lost := true } else r), msgs := x.msgs.map fun m => if msgs.contains m.id then { m with lost := true } else m }
  else s
/-- PLANE_FAILURE (R375): a loss of lock; `State.moveFabric` gives the same effect after 16 failed slots in a row. -/
def execPlaneFailure (port : Nat) (plane : Bool) (s : State) : Out := .next (s.failPlane port plane)
/-- The link identity of a sending plane of a port (R382). -/
def linkId (port : Nat) (plane : Bool) : Nat := port / 8 + port % 8 * 2 ^ 23 + b2n plane * 2 ^ 26
/-- The 96-bit nonces of the next slot that a plane sends and of the next that it receives (R382): the sender's link identity, then the slot counter. -/
def State.sendNonce (s : State) (port : Nat) (plane : Bool) : Nat := linkId port plane * 2 ^ 64 + (s.plane port plane).sendCtr.toNat
def State.recvNonce (s : State) (port : Nat) (plane : Bool) : Nat := linkId (s.peerPort port) plane * 2 ^ 64 + (s.plane port plane).recvCtr.toNat
/-- New keys for both directions of a plane of a link: the slot counters begin again. -/
def State.newKeys (s : State) (port : Nat) (plane : Bool) : State :=
  let f := fun (p : Plane) => { p with epoch := p.epoch + 1, sendCtr := 0, recvCtr := 0, slots := 0, fails := 0 }
  let s := s.onPlane port plane f
  if s.peerPort port = port then s else s.onPlane (s.peerPort port) plane f
/-- PLANE_REJOIN (R375): the failed plane has retrained, and takes new keys under R384. -/
def execPlaneRejoin (port : Nat) (plane : Bool) (s : State) : Out :=
  .next (if s.portThere port then (s.newKeys port plane).onPlane port plane fun p => { p with down := false } else s)
/-- LINK_TRAINING (R384). -/
def execLinkTraining (port : Nat) (plane : Bool) (s : State) : Out := .next (if s.portThere port then s.newKeys port plane else s)
/-- A plane's link takes new keys at one slot, with no slot lost, once 2^40 slots have passed (R384). -/
def State.rekey (s : State) (port : Nat) (plane : Bool) : State :=
  if !s.portThere port ∨ (s.plane port plane).slots < 2 ^ 40 then s
  else
    let f := fun (p : Plane) => { p with epoch := p.epoch + 1, slots := 0 }
    (s.onPlane port plane f).onPlane (s.peerPort port) plane f
/-- REKEY (R384). -/
def execRekey (port : Nat) (plane : Bool) (s : State) : Out := .next (s.rekey port plane)
/-- SLOT_ALIGNMENT_LOSS (R384): the link retrains and takes new keys, and its unacknowledged flits are replayed. -/
def execSlotAlignmentLoss (port : Nat) (plane : Bool) (s : State) : Out :=
  .next (
    if !s.portThere port then s
    else
    let hit := (s.fab.reqs.filter fun r => r.onWay s.now (s.hopIs port)).map Req.id
    let s := (s.newKeys port plane).onPlane port plane fun p => { p with replays := p.replays + hit.length }
    s.onFab fun x => { x with reqs := x.reqs.map fun r => if hit.contains r.id then { r with due := r.due + s.hopTrip port } else r })

/-! The plan of a cycle. -/

/-- What a plane of a link does of itself: it fails after 16 failed slots in a row (R375), and takes new keys after 2^40 slots (R384). -/
def State.movePlane (s : State) (k : Nat) : State :=
  let p := s.plane (k / 2) (k % 2 == 1)
  (if 16 ≤ p.fails ∧ !p.down then s.failPlane (k / 2) (k % 2 == 1) else s).rekey (k / 2) (k % 2 == 1)
/-- What moves in the fabric of itself in a cycle: planes fail and take new keys, critical flits hop on, held flits go, handlers of `put`s start. -/
def State.moveFabric (s : State) : State := ((fkeys s.fab.planes).foldl State.movePlane s).hopMsgs.releaseHeld.startHandlers
/-- What a request's next event is. -/
def State.planReq (s : State) (r : Req) : Option Instr :=
  if r.arrived then
    (if r.kind.answers then (if r.away s.now then none else some (.acknowledgement r.id)) else if s.ackHere r.id then some (.acknowledgement r.id) else none)
  else if r.away s.now then (if s.ackHere r.id then some (.acknowledgement r.id) else none)
  else some (.requestArrival r.id)
def State.planFabric (s : State) : List Instr :=
  s.fab.reqs.filterMap s.planReq
    ++ (s.fab.msgs.filterMap fun m => if !m.here s.now then none else match m.crit with
      | .arrival _ _ => some (.barrierArrival m.id)
      | .token _ _ => some (.stepTokenArrival m.id)
      | .reduceTag _ | .ack _ | .receipt _ => none)
    ++ (if s.fab.reqs.isEmpty then [] else [.endToEndResend, .fabricOutcomeUnknown]) ++ (if s.fab.msgs.isEmpty then [] else [.criticalResend, .criticalFlitLost])

end Sys2Proof.Machine
end

