-- ==== Sys2Proof/Machine/Ckpt.lean ====
section
/-! DEFINITION. Checkpoint and resumption (R273, R370, R407 to R413). -/

namespace Sys2Proof.Machine

/-! The descriptor (R408, R409). -/

structure CkDesc where
  buddy : Nat
  nreg : Nat
  epoch : Nat
  rlist : Nat
  ok : Bool
def parseCk (b : List (BitVec 8)) : CkDesc :=
  let x := leNat b
  let g := fun o n => bits x (8 * o) (8 * n)
  { buddy := g 0 4 % 2 ^ 23, nreg := g 4 4, epoch := g 8 8, rlist := g 0x10 8 % 2 ^ 56,
    ok := g 0x18 40 == 0 && g 0x17 1 == 0 && g 0x10 1 % 64 == 0 && decide (g 0 4 < 2 ^ 23) && decide (1 ≤ g 4 4) && decide (g 4 4 ≤ 4096) }
/-- Region entries: address and length. -/
def parseRegions (b : List (BitVec 8)) (n : Nat) : List (Nat × Nat) :=
  (List.range n).map fun i => (leNat ((b.drop (16 * i)).take 8), leNat ((b.drop (16 * i + 8)).take 8))
/-- Half of the safe tier of a stack, in bytes. -/
def State.halfSize (s : State) : Nat := s.cfg.safeGiB * 2 ^ 30 / 2
/-- A region entry breaks its limits. -/
def regionBad (r : Nat × Nat) : Bool := r.1 % 2 ^ 16 != 0 || decide (2 ^ 56 ≤ r.1) || r.2 == 0 || r.2 % 2 ^ 16 != 0
/-- A buddy out of the system, out of the package of an MZ8-S, or out of reach (R404, R409). -/
def State.ckBuddy (s : State) (c : Cmd) (buddy : Nat) : Option Trap :=
  if s.cfg.variant = 1 ∧ (!s.dieOk buddy ∨ pkgOf buddy ≠ pkgOf c.die) then some { cause := cUnimpl, sub := 0x03 }
  else if !s.dieOk buddy ∨ (s.routeOf true c.die buddy).isNone then some (remoteFault 0x01 0 buddy)
  else none
/-- What the command has read: its descriptor and its regions. -/
def Cmd.ckDesc (c : Cmd) : CkDesc := parseCk (c.buf.take 64)
def Cmd.ckRegions (c : Cmd) : List (Nat × Nat) := parseRegions (c.buf.drop 64) c.ckDesc.nreg
/-- The command's checkpoint is the die's. -/
def State.ckHolds (s : State) (c : Cmd) : Bool := s.sched.ckpts.any fun k => k.cmd == c.id
/-- Read the descriptor, judge the buddy, then the descriptor and that no other checkpoint is in progress on the die; read the regions. -/
def State.ckRead (s : State) (c : Cmd) : State :=
  let va := c.args.getD 0 0
  (s.engFetch c [(va, 64)]).andThen c.id fun s =>
    let d := { c with buf := s.cmdBuf c.id }.ckDesc
    match s.ckBuddy c d.buddy with
    | some t => s.failCmd c.id t
    | none =>
      if !d.ok ∨ !s.ckHolds c then s.failCmd c.id (accessFault 0x04 va 0)
      else
        (s.engFetch { c with buf := s.cmdBuf c.id } [(va, 64), (d.rlist, 16 * d.nreg)]).andThen c.id fun s =>
          let rs := { c with buf := s.cmdBuf c.id }.ckRegions
          if rs.any regionBad ∨ s.halfSize < (rs.map Prod.snd).sum then s.failCmd c.id (accessFault 0x04 d.rlist 0)
          else s.onCmd c.id fun x => { x with pos := 1, aux := [0, 0] }
/-- Where a page of a region lies: it must be readable and homed on the die. -/
def State.ckPage (s : State) (c : Cmd) (va : Nat) : Home :=
  match s.tuXlate c.die c.asid va .read with
  | (s, .wait, _) => .wait s
  | (_, .fault e, _) => .bad (accessFault e va 0)
  | (s, .done pa _ _, _) => if paDie pa ≠ c.die ∨ inWindow pa then .bad (accessFault 0x04 va 0) else .at s pa
/-- The 64 KiB pages of the regions in entry order. -/
def regionPieces (rs : List (Nat × Nat)) : List Nat := rs.flatMap fun r => (List.range (r.2 / 2 ^ 16)).map fun i => r.1 + 2 ^ 16 * i
/-- Physical address of the target half. -/
def State.halfPa (s : State) (d : CkDesc) : Nat := d.buddy * 2 ^ 36 + s.safeBase + d.epoch % 2 * s.halfSize

/-! Quiesce and drain (R410 steps 1 and 2). -/

/-- Continuations of the command's job on its die. -/
def State.ckConts (s : State) (die jcb : Nat) : List (Nat × Cont) :=
  s.sched.conts.filterMap fun p => match p.2 with
    | some c => if keyDie p.1 = die ∧ c.jcb = jcb then some (p.1, c) else none
    | none => none
/-- The job's continuations on the die are marked. -/
def State.ckMark (s : State) (c : Cmd) : State :=
  let s := (s.ckConts c.die c.jcb).foldl (fun s p => if (s.residentOn p.1).isSome then s.markFor p.1 (markCkpt + c.id) else s) s
  s.onCmd c.id fun x => { x with pos := 2 }
/-- Judge the pages from number i on; after the last the checkpoint begins. -/
def State.ckJudge (s : State) (c : Cmd) : List Nat → Nat → State
  | [], _ => s.ckMark c
  | va :: r, i =>
    match s.ckPage c va with
    | .wait s => s.onCmd c.id fun x => { x with aux := [i, 0] }
    | .bad t => s.failCmd c.id t
    | .at s _ => s.ckJudge c r (i + 1)
/-- No record of the job on the die is to be routed or completed: each has a stage, which is saved (R370; log entry 59). -/
def State.recordsQuiet (s : State) (die jcb : Nat) : Bool :=
  (s.sets.filter fun t => t.1 / 8 == die && t.2.holder == some jcb).all fun t => t.2.places.all fun p => p.2.elim true fun x => !x.admitted || x.running.isSome
/-- The job is quiet on the die: nothing of it runs, no queue entry, no other command, no request of it remains. -/
def State.ckQuiet (s : State) (c : Cmd) : Bool :=
  s.recordsQuiet c.die c.jcb && !(s.fab.handlers.any fun h => h.die == c.die && h.cont.jcb == c.jcb && h.left == 0) && !((s.ckConts c.die c.jcb).any fun p => (s.residentOn p.1).isSome) && !(s.cmds.any fun x => x.id != c.id && x.die == c.die && x.jcb == c.jcb) && !(s.fab.reqs.any fun r => r.src == c.die && r.jcb == c.jcb)
    && !((s.coreIds.filter fun k => dieOf k = c.die).any fun k => (s.coreAt k).storeQ.any (fun e => e.jcb == c.jcb) || (s.coreAt k).loadQ.any (fun e => e.jcb == c.jcb) || (s.coreAt k).outst.any fun o => o.q.jcb == c.jcb)

/-! Write back (step 3, R31, R370). -/

/-- The device fields of a held set, its flight list, the headers of its records. -/
def TSet.backWrites (t : TSet) : List (Nat × List (BitVec 8)) :=
  [(t.desc + 0x10, natLe 16 t.lctr.toNat ++ natLe 4 t.acc.toNat ++ natLe 4 t.rej.toNat ++ natLe 4 t.draws.toNat)]
    ++ (List.zipIdx (t.stages.take t.nstg)).map (fun x => (t.desc + 0x48 + 16 * x.2, natLe 2 x.1.pass.toNat ++ natLe 2 x.1.cost.toNat))
    ++ [(t.flist, (List.range 64).flatMap fun i => natLe 8 ((fget none t.places i).elim 0 Place.hdr))]
    ++ t.places.flatMap fun p => p.2.elim [] fun x => (x.headerBytes 0).map fun w => (x.hdr + w.1, w.2)
/-- The writes of step 3: the die's layout table copy, its held sets. -/
def State.ckWriteBack (s : State) (c : Cmd) : List (Nat × List (BitVec 8)) :=
  let lay := match s.layCopy c.die c.jcb with
    | some l => [(jcbLaybase s c.jcb, layoutBytes l.ents)]
    | none => []
  (lay ++ (s.sets.filter fun t => t.1 / 8 == c.die && t.2.holder == some c.jcb && t.2.loading == 0).flatMap fun t => t.2.backWrites).map fun w => (w.1 % 2 ^ 56, w.2)

/-! Invalidate, copy, commit (steps 4 to 6, R411). -/

/-- Write to the safe tier from the bytes that have gone out: at once where the half is this die's, as bulk requests elsewhere. A buddy out of reach fails the command. -/
def State.safeGo (s : State) (c : Cmd) (pa len : Nat) (src : Nat → Nat → List (BitVec 8)) : Nat → Nat → Work
  | 0, p => .wait (s.onCmd c.id fun x => { x with sent := p })
  | f + 1, p =>
    if len ≤ p then .done (s.onCmd c.id fun x => { x with sent := 0 })
    else
      let n := Nat.min (len - p) (flitData - (pa + p) % 64)
      if paDie pa = c.die then (s.wrBytes (pa + p) (src p n)).safeGo c pa len src f (p + n)
      else if reqFull s c.die (paDie pa) || !s.linkFree c.die (paDie pa) then .wait (s.onCmd c.id fun x => { x with sent := p })
      else
        match s.sendReq c.die (paDie pa) c.jcb 0 true (.write (pa + p) (src p n)) (.cmd c.id) with
        | (s, true) => s.safeGo c pa len src f (p + n)
        | (s, false) => .bad s (remoteFault 0x01 0 (paDie pa))
def State.safeWrite (s : State) (c : Cmd) (pa len : Nat) (src : Nat → Nat → List (BitVec 8)) : Work := s.safeGo c pa len src (len + 1) c.sent
/-- The next of the writes the command has still to make, in the safe tier or in the job's memory; what follows once none is left. -/
def State.ckItems (s : State) (c : Cmd) (safe : Bool) (next : State → State) : State :=
  match c.items with
  | [] => next s
  | (a, b) :: r =>
    (if safe then s.safeWrite c a b.length (fun p n => (b.drop p).take n) else s.engWrite c [(a, b.length)] b).andThen c.id fun s =>
      s.onCmd c.id fun x => { x with items := r }
/-- The same, and every one of them acknowledged. -/
def State.ckSettled (s : State) (c : Cmd) (safe : Bool) (next : State → State) : State := s.ckItems c safe fun s => if s.cmdIdle c.id then next s else s
/-- A continuation record (R322). -/
def Cont.record64 (c : Cont) : List (BitVec 8) :=
  natLe 8 c.pc.toNat ++ natLe 8 c.deadline.toNat ++ natLe 4 c.budget.toNat ++ natLe 2 c.jtag.toNat ++ natLe 1 c.stage.toNat ++ natLe 1 (c.state + 16 * b2n c.posted + 32 * b2n c.bound.isSome)
    ++ natLe 8 c.seq ++ natLe 8 c.kdesc.toNat ++ natLe 4 (c.slot.getD 0xFFFFFFFF) ++ natLe 4 c.lcoord.toNat ++ natLe 8 c.arg1.toNat ++ natLe 8 c.arg0.toNat
/-- Offsets of the records and of the data. -/
def recOff (nreg : Nat) : Nat := roundUp (0x1000 + 16 * nreg) 64
def dataOff (nreg ncont : Nat) : Nat := roundUp (recOff nreg + 64 * ncont) (2 ^ 16)
/-- Step 5 begins: the half must hold the records and the regions. -/
def State.ckRecords (s : State) (c : Cmd) (d : CkDesc) (rs : List (Nat × Nat)) : State :=
  let recs := s.ckConts c.die c.jcb
  if s.halfSize < dataOff d.nreg recs.length + (rs.map Prod.snd).sum then s.failCmd c.id (accessFault 0x04 d.rlist 0)
  else s.onCmd c.id fun x => { x with pos := 5, aux := [0, recs.length], items := [(s.halfPa d + recOff d.nreg, recs.flatMap fun p => p.2.record64)] }
/-- The next page of the regions. -/
def State.ckCopy (s : State) (c : Cmd) (d : CkDesc) (rs : List (Nat × Nat)) : State :=
  let i := c.aux.getD 0 0
  let n := c.aux.getD 1 0
  match (regionPieces rs)[i]? with
  | none => s.onCmd c.id fun x => { x with pos := 7 }
  | some va =>
    match s.ckPage c va with
    | .wait s => s
    | .bad t => s.failCmd c.id t
    | .at s pa =>
      if s.flawed pa (2 ^ 16) then s.failCmd c.id (machineCheck 6 va)
      else (s.safeWrite c (s.halfPa d + dataOff d.nreg n + 2 ^ 16 * i) (2 ^ 16) (fun p m => s.rdBytes (pa + p) m)).andThen c.id fun s => s.onCmd c.id fun x => { x with aux := [i + 1, n] }
/-- CHECKPOINT_COPY (R410 steps 3 to 5), by the command's position: 2 it waits for the job to be quiet, 3 its tables and sets are written back, 4 the half is invalidated, 5 the records are copied, 6 the regions. -/
def execCheckpointCopy (id : Nat) (s : State) : Out :=
  .next (match s.cmd id with
    | none => s
    | some c =>
      let d := c.ckDesc
      if !c.active s.now then s
      else
        match c.pos with
        | 2 => if s.ckQuiet c then s.onCmd id fun x => { x with pos := 3, items := s.ckWriteBack c } else s
        | 3 => s.ckSettled c false fun s => s.onCmd id fun x => { x with pos := 4, items := [(s.halfPa d + 0xC, [0])] }
        | 4 => s.ckSettled c true fun s => s.ckRecords c d c.ckRegions
        | 5 => s.ckItems c true fun s => s.onCmd id fun x => { x with pos := 6 }
        | 6 => s.ckCopy c d c.ckRegions
        | _ => s)
/-- The header of a half (R411), COMPLETE clear. -/
def ckHeader (d : CkDesc) (die ncont total : Nat) : List (BitVec 8) :=
  natLe 8 d.epoch ++ natLe 4 die ++ natLe 4 0 ++ natLe 4 d.nreg ++ natLe 4 ncont ++ natLe 8 0 ++ natLe 8 0x1000 ++ natLe 8 (recOff d.nreg) ++ natLe 8 (dataOff d.nreg ncont) ++ natLe 8 total
/-- A checkpoint of a die is over: its marks go, the continuations it saved are enqueued (step 7). -/
def State.releaseCkpt (s : State) (die jcb : Nat) : State :=
  let s := s.onSched fun x => { x with ckpts := x.ckpts.filter fun k => k.die != die }
  (s.ckConts die jcb).foldl (fun s p =>
    let s := s.onCont p.1 fun c => { c with mark := c.mark.bind fun m => if markCkpt ≤ m ∧ m < markGang then none else some m }
    if p.2.state = stSaved ∧ p.2.gang.isNone ∧ (s.residentOn p.1).isNone ∧ !(s.sched.ready.any fun r => r.item == .cont p.1) then s.enqueue p.1 else s) s
/-- The entries and the header of a half (R411). -/
def State.ckEntries (s : State) (c : Cmd) (d : CkDesc) (rs : List (Nat × Nat)) : List (Nat × List (BitVec 8)) :=
  [(s.halfPa d + 0x1000, rs.flatMap fun r => natLe 8 r.1 ++ natLe 8 r.2), (s.halfPa d, ckHeader d c.die (c.aux.getD 1 0) ((rs.map Prod.snd).sum))]
/-- CHECKPOINT_COMMIT (R410 steps 6 and 7), by the command's position: 7 every sector is acknowledged, 8 the entries and the header are written, 9 COMPLETE; then the continuations go on and the command completes. -/
def execCheckpointCommit (id : Nat) (s : State) : Out :=
  .next (match s.cmd id with
    | none => s
    | some c =>
      let d := c.ckDesc
      if !c.active s.now then s
      else
        match c.pos with
        | 7 => if s.cmdIdle id then s.onCmd id fun x => { x with pos := 8, items := s.ckEntries c d c.ckRegions } else s
        | 8 => s.ckSettled c true fun s => s.onCmd id fun x => { x with pos := 9, items := [(s.halfPa d + 0xC, [1])] }
        | 9 => s.ckSettled c true fun s => (s.releaseCkpt c.die c.jcb).finishCmd id
        | _ => s)
/-- Checkpoints whose command has failed: the continuations go on. -/
def State.failedCkpts (s : State) : State :=
  s.sched.ckpts.foldl (fun s k => match s.cmd k.cmd with
    | some c => if c.fail.isSome then s.releaseCkpt k.die c.jcb else s
    | none => s.onSched fun x => { x with ckpts := x.ckpts.filter (· ≠ k) }) s
/-- A `ckpt` before its checkpoint begins: 0 it reads its descriptor, 1 it judges its regions. -/
def State.workCkpt (s : State) (c : Cmd) : State :=
  match c.pos with
  | 0 => s.ckRead c
  | 1 => s.ckJudge c ((regionPieces c.ckRegions).drop (c.aux.getD 0 0)) (c.aux.getD 0 0)
  | _ => s
def State.planCkpts (s : State) : List Instr :=
  s.cmds.filterMap fun c => match c.i with
    | .ckpt _ _ => if !(c.active s.now && s.awake c.die) || decide (c.pos < 2) then none else if c.pos ≤ 6 then some (.checkpointCopy c.id) else some (.checkpointCommit c.id)
    | _ => none

/-! Resumption (R413). -/

/-- Headers of halves with COMPLETE set: their physical addresses. -/
def State.completeHalves (s : State) (die : Nat) : List Nat :=
  (s.mem.filterMap fun c =>
    let o := paOff c.1
    if (o = s.safeBase + 0xC ∨ o = s.safeBase + s.halfSize + 0xC) ∧ c.2.getLsbD 0 then some (c.1 - 0xC) else none).filter fun pa => s.rd (pa + 8) 4 == die
/-- The half with the greater EPOCH. -/
def State.newestHalf (s : State) (die : Nat) : Option Nat :=
  match s.completeHalves die with
  | [] => none
  | h :: r => some (r.foldl (fun a b => if s.rd a 8 < s.rd b 8 then b else a) h)
/-- Rewrite the regions: entry by entry, page by page. -/
def State.reloadPages (s : State) (die asid src : Nat) : List Nat → State
  | [] => s
  | va :: r =>
    match s.xlate die asid va .read with
    | .error _ => s.reloadPages die asid (src + 2 ^ 16) r
    | .ok pa => (s.wrBytes pa (s.rdBytes src (2 ^ 16))).reloadPages die asid (src + 2 ^ 16) r
/-- A continuation from its record, saved or still to begin: unbound where the record does not say to which core it was bound. -/
def contOfRecord (jcb : Nat) (b : List (BitVec 8)) : Cont :=
  let x := leNat b
  let g := fun o n => bits x (8 * o) (8 * n)
  { Cont.blank jcb with
    pc := BitVec.ofNat 56 (g 0 8), deadline := BitVec.ofNat 64 (g 8 8), budget := BitVec.ofNat 32 (g 0x10 4), jtag := BitVec.ofNat 16 (g 0x14 2), stage := BitVec.ofNat 3 (g 0x16 1),
    state := g 0x17 1 % 16, posted := (g 0x17 1).testBit 4, seq := g 0x18 8, kdesc := BitVec.ofNat 56 (g 0x20 8), slot := if g 0x28 4 = 0xFFFFFFFF then none else some (g 0x28 4),
    acquire := if g 0x17 1 % 16 = stReady then some .sys else none, lcoord := BitVec.ofNat 32 (g 0x2C 4),
    arg1 := BitVec.ofNat 64 (g 0x30 8), arg0 := BitVec.ofNat 64 (g 0x38 8) }
/-- OUTCOME of a record whose header names a stage that failed or erred and gives none: rejected where the stage gave its verdict, else an error (R355; log entry 59). -/
def reloadOutcome (stat done fstg : Nat) : Nat :=
  if stat / 64 ≠ 0 ∨ !fstg.testBit 7 then stat / 64 else if done.testBit (fstg % 8) then 2 else 3
/-- An in-flight record from its header. -/
def State.reloadPlace (s : State) (die asid idx hdr : Nat) : Option Place :=
  match s.rdVirt die asid hdr 64 with
  | .error _ => none
  | .ok b =>
    let x := leNat b
    let g := fun o n => bits x (8 * o) (8 * n)
    some { hdr := hdr, deadline := BitVec.ofNat 64 (g 8 8), bar := Config.reloadedBarrier die idx, done := BitVec.ofNat 8 (g 1 1), verd := BitVec.ofNat 8 (g 2 1),
           fstg := if (g 3 1).testBit 7 then some (BitVec.ofNat 3 (g 3 1)) else none, draws := BitVec.ofNat 32 (g 4 4), lcnt := (List.range 8).map fun i => g (0x20 + i) 1,
           log := g 0x10 8 % 2 ^ 56, lcap := g 0x18 2, outcome := reloadOutcome (g 0 1) (g 1 1) (g 3 1), running := none, sub := 0, pc := 0, admitted := true, since := s.now, step := 0 }
/-- A set of the job from its descriptor image and flight list. -/
def State.reloadSet (s : State) (die asid n : Nat) : State :=
  let t := s.tset die n
  match s.rdVirt die asid t.desc 256 with
  | .error _ => s
  | .ok b =>
    let t := ({ TSet.reset with holder := t.holder, desc := t.desc }).ofDesc (leNat b)
    let fl := match s.rdVirt die asid t.flist 512 with
      | .error _ => []
      | .ok f => (List.range 64).map fun i => leNat ((f.drop (8 * i)).take 8)
    let places := (List.zipIdx fl).foldl (fun (m : FMap (Option Place)) (x : Nat × Nat) => if x.1 = 0 then m else fput none x.2 (s.reloadPlace die asid x.2 x.1) m) []
    s.onTset die n fun _ => { t with places := places }
/-- The record that a reloaded continuation tests: its logical coordinate names the set and the stage (R362), its first argument the record (R258). -/
def State.recordOf (s : State) (die : Nat) (c : Cont) : Option (Nat × Nat) :=
  let l := c.lcoord.toNat
  let t := s.tset die (l / 8 % 8)
  let st := l % 8
  if l / 64 = die ∧ t.holder = some c.jcb ∧ st < t.nstg ∧ c.stage.toNat = st ∧ (t.stages.getD st { kdesc := 0, pass := 0, cost := 0 }).kdesc = c.kdesc then
    (t.places.find? fun p => p.2.elim false fun x => decide (x.hdr = c.arg0.toNat) && x.running.isNone && !x.done.getLsbD st).map fun p => (l / 8 % 8, p.1)
  else none
/-- The saved continuations and those still to begin, in ascending SEQ, under new handles and numbers; that of a stage goes on with its record. -/
def State.reloadConts (s : State) (die : Nat) (l : List Cont) : State :=
  (sortBy (fun (a b : Cont) => decide (a.seq < b.seq)) l).foldl (fun s c =>
    let h := fget 0 s.sched.nextHandle die
    let s := s.onSched fun x => { x with nextHandle := fmod 0 die (· + 1) x.nextHandle }
    let (s, q) := s.nextSeq die
    let place := s.recordOf die c
    let s := match place with
      | some (set, idx) => s.onPlace die set idx fun x => { x with running := some (contKey die h, c.stage.toNat) }
      | none => s
    (s.setCont (contKey die h) (some { c with seq := q, jtag := s.jtag die c.jcb, record := place })).enqueue (contKey die h)) s
/-- RESUMPTION (R413) of a die on which nothing runs: the newest complete half is loaded. -/
def execResumption (die : Nat) (s : State) : Out :=
  .next (match s.newestHalf die with
    | none => s
    | some half =>
      if (s.coreIds.filter fun c => dieOf c = die).any fun c => (s.coreAt c).res.isSome then s
      else
        let nreg := s.rd (half + 0x10) 4
        let ncont := s.rd (half + 0x14) 4
        let recs := (List.range ncont).map fun i => s.rdBytes (half + s.rd (half + 0x28) 8 + 64 * i) 64
        let jobOf := fun (b : List (BitVec 8)) => ((s.sched.lostTags ++ s.sched.jtags).find? fun t => t.die == die && t.tag.toNat == leNat ((b.drop 0x14).take 2)).map JTag.jcb
        match recs.findSome? jobOf with
        | none => s
        | some jcb =>
          let asid := jcbAsid s jcb
          let s := s.reloadPages die asid (half + s.rd (half + 0x30) 8) (regionPieces (parseRegions (s.rdBytes (half + 0x1000) (16 * nreg)) nreg))
          let s := { s with lay := s.lay.filter fun l => l.die != die || l.jcb != jcb }
          let s := (s.loadLayout die jcb).1
          let s := (List.range 8).foldl (fun s n =>
            let t := if (s.tset die n).holder = some jcb then s.tset die n else fget TSet.reset s.sched.lostSets (die * 8 + n)
            if t.holder = some jcb then (s.onTset die n fun _ => t).reloadSet die asid n else s) s
          let s := (s.giveJtag die jcb).onSched fun x => { x with lostTags := x.lostTags.filter (fun t => t.die != die), lostSets := x.lostSets.filter fun t => t.1 / 8 != die }
          let s := ((s.ckConts die jcb).map Prod.fst).foldl State.release s
          s.reloadConts die ((recs.filter fun b => [stSaved, stReady].contains (leNat ((b.drop 0x17).take 1) % 16)).map (contOfRecord jcb)))

end Sys2Proof.Machine
end

