-- ==== Sys2Proof/Machine/HostIf.lean ====
section
/-! DEFINITION. The world outside: host ports, ownership, attestation, boot (R399 to R406), memory errors (R279, R352), heat and power (R415). -/

namespace Sys2Proof.Machine

/-! Packages. -/

/-- Number of a die in its package (R399). -/
def pkgIndex (die : Nat) : Nat := dieX die % 2 + 2 * (dieY die % 2) + 4 * (dieZ die % 2)
/-- Dies of a package that are in the system. -/
def State.pkgDies (s : State) (pkg : Nat) : List Nat :=
  ((List.range 8).map fun d => mkDie (2 * dieX pkg + d % 2) (2 * dieY pkg + d / 2 % 2) (2 * dieZ pkg + d / 4)).filter s.dieOk
def State.unsupported (s : State) (pkg : Nat) : State := s.onHost pkg fun h => { h with unsupported := h.unsupported + 1 }
/-- A master is the owner: the others have read-only access (R402). -/
def State.isOwner (s : State) (pkg : Nat) (kind : BitVec 2) : Bool := kind != 3 && (s.hostAt pkg).owner == kind

/-! Pushes (R400). -/

/-- PUSH: a write to a push slot, checked and answered; one that is not 64 aligned bytes is MALFORMED. The answer goes to the answer block of the port. -/
def execPush (kind : BitVec 2) (die queue off : Nat) (bytes : List (BitVec 8)) (s : State) : Out :=
  .next (
    let pkg := pkgOf die
    if kind = 3 ∨ 16 ≤ queue ∨ !s.dieOk die ∨ s.dark.contains pkg then s.unsupported pkg
    else
      let (s, a) :=
        if bytes.length = 64 ∧ off % 64 = 0 then s.pushTo kind.toNat 0 die queue (BitVec.ofNat 512 (leNat bytes))
        else
          let r := if s.aclAllows die kind.toNat 0 queue then 0x03 else 0x02
          (s, BitVec.ofNat 64 (r + (s.launchQ die queue).length * 2 ^ 8))
      s.onHost pkg fun h => { h with answers := h.answers ++ [((fget 0 h.ansaddr kind.toNat).toNat + 8 * (16 * pkgIndex die + queue), a)] })

/-! BAR0 (R399), ownership (R402, R403). -/

/-- BAR0_WRITE: ANSADDR, WINBASE, ERRCNT; a register without behaviour discards RSVD bits, a read-only or a reserved one discards the write, another offset is no register of the block. -/
def execBar0Write (pkg : Nat) (kind : BitVec 2) (off : Nat) (v : BitVec 64) (s : State) : Out :=
  .next (if 0x10000 ≤ off then s.unsupported pkg
    else if !s.isOwner pkg kind then s
    else if off = 0x18 then s.onHost pkg fun h => { h with ansaddr := fput 0 kind.toNat (v &&& 0xFFFF_FFFF_FFFF_FC00) h.ansaddr }
    else if off = 0x20 then s.onHost pkg fun h => { h with winbase := fput 0 kind.toNat (v &&& 0xFFFF_FFFC_0000_0000) h.winbase }
    else if off = 0x28 then s.onHost pkg fun h => { h with errcnt := v }
    else s)
/-- A read of a BAR0 register, by any master (R399, R402): CLAIM, the reserved bits and the rest of the block read as zero; each port sees its own ANSADDR and WINBASE. -/
def State.bar0Read (s : State) (pkg : Nat) (kind : BitVec 2) (off : Nat) : BitVec 64 :=
  let h := s.hostAt pkg
  match off with
  | 0x00 => h.owner.setWidth 64
  | 0x10 => h.handover.setWidth 64
  | 0x18 => fget 0 h.ansaddr kind.toNat
  | 0x20 => fget 0 h.winbase kind.toNat
  | 0x28 => h.errcnt
  | 0x30 => h.therm.setWidth 64
  | 0x38 => h.attest
  | 0x40 => h.bootst.setWidth 64
  | _ => 0
/-- Access-control entry of an owner (R405). -/
def ownerEntry (kind : BitVec 2) : BitVec 64 := BitVec.ofNat 64 (2 ^ 63 + kind.toNat * 2 ^ 61 + 0xFFFF)
/-- A master owns the package; a hand-over that stood is over. HANDOVER keeps what was written (R6). -/
def State.setOwner (s : State) (pkg : Nat) (kind : BitVec 2) : State := s.onHost pkg fun h => { h with owner := kind, offer := false }
/-- The firmware writes the owner's entry 0 on some dies (R405). -/
def State.ownerEntries (s : State) (dies : List Nat) (kind : BitVec 2) : State :=
  s.onSched fun c => { c with acl := dies.foldl (fun (m : FMap (BitVec 64)) d => fput 0 (d * 64) (ownerEntry kind) m) c.acl }
/-- A master is elected: OWNER, and the firmware's entry 0 on every die. -/
def State.elect (s : State) (pkg : Nat) (kind : BitVec 2) : State := (s.setOwner pkg kind).ownerEntries (s.pkgDies pkg) kind
/-- Rewrite KIND in every valid entry that names the old owner. -/
def State.renameOwner (s : State) (pkg : Nat) (old new : BitVec 2) : State :=
  let dies := s.pkgDies pkg
  s.onSched fun c => { c with acl := c.acl.map fun p =>
    if (dies.contains (p.1 / 64) && p.2.getLsbD 63 && bits p.2.toNat 61 2 == old.toNat) = true then (p.1, (p.2 &&& 0x9FFF_FFFF_FFFF_FFFF) ||| (new.setWidth 64 <<< 61)) else p }
/-- A hand-over to a master stands and has not lapsed. -/
def State.offered (s : State) (pkg : Nat) (kind : BitVec 2) : Bool :=
  let h := s.hostAt pkg
  h.offer && h.handover.setWidth 2 == kind && decide (s.timeb ≤ h.handoverDue)
/-- CLAIM (R402, R403): while nobody owns, the lowest KIND of the first cycle in which a claim comes wins; a target accepts its hand-over; the management controller takes ownership at once. -/
def execClaim (pkg : Nat) (kind : BitVec 2) (s : State) : Out :=
  .next (
    let h := s.hostAt pkg
    if kind = 3 then s
    else if h.owner = 3 then (s.elect pkg kind).onHost pkg fun x => { x with wonAt := some s.now }
    else if h.wonAt = some s.now then (if kind < h.owner then s.elect pkg kind else s)
    else if s.offered pkg kind then (s.renameOwner pkg h.owner kind).setOwner pkg kind
    else if kind = 2 then s.elect pkg kind
    else s)
/-- HANDOVER (R403): the owner names a target, or none. -/
def execHandover (pkg : Nat) (kind : BitVec 2) (v : BitVec 64) (s : State) : Out :=
  .next (if s.isOwner pkg kind then s.onHost pkg fun h => { h with handover := v.setWidth 3, offer := v.getLsbD 2, handoverDue := s.timeb + 1000000000 } else s)
/-- HANDOVER_LAPSE (R403): hand-overs not accepted within 1 s. -/
def execHandoverLapse (s : State) : Out :=
  .next ((fkeys s.host).foldl (fun s pkg => if (s.hostAt pkg).offer ∧ (s.hostAt pkg).handoverDue < s.timeb then s.onHost pkg fun h => { h with offer := false } else s) s)
/-- OWNER_LINK_DOWN (R403): OWNER becomes 3, the access-control entries stay. -/
def execOwnerLinkDown (pkg : Nat) (s : State) : Out := .next (s.onHost pkg fun h => { h with owner := 3, wonAt := none })

/-! Attestation (R406). -/

/-- ATTEST: the owner's write starts a quote, unless one is being made. -/
def execAttest (pkg : Nat) (kind : BitVec 2) (v : BitVec 64) (s : State) : Out :=
  .next (if s.isOwner pkg kind ∧ !(s.hostAt pkg).quoting then s.onHost pkg fun h => { h with attest := v &&& 0x00FF_FFFF_FFFF_FFFF, quoting := true } else s)
/-- An address that the device can reach as memory: the safe tier among it, which a host may only read (R407, R411). -/
def State.paMemory (s : State) (pa : Nat) : Bool := s.dieOk (paDie pa) && !inWindow pa && decide (pa < 2 ^ 59)
/-- A range that may be written: memory, and none of it in the safe tier. -/
def State.paWritable (s : State) (pa n : Nat) : Bool :=
  s.paMemory pa && s.paMemory (pa + n - 1) && !s.paBad pa && !s.paBad (pa + n - 1)
def quoteMagic : Nat := 0x51544F4D5A380001
/-- Write one quote: CTR, the measurements, the signature over bytes 0x00 to 0xFF, MAGIC last. -/
def State.writeQuote (s : State) (pkg : Nat) : State :=
  let h := s.hostAt pkg
  let pa := h.attest.toNat
  let n := s.clk.free
  let meas := (List.range 0xC0).map (Config.measByte pkg h.firmware.toNat)
  let text := natLe 8 quoteMagic ++ natLe 8 h.rollback.toNat ++ s.rdBytes (pa + 0x10) 0x30 ++ meas
  let s := s.onClk fun c => { c with free := c.free + 1 }
  let s := s.onHost pkg fun h => { h with quoting := false }
  if !s.paWritable pa 0x160 then s
  else (((s.wr (pa + 8) 8 h.rollback.toNat).wrBytes (pa + 0x40) meas).wrBytes (pa + 0x100) ((List.range 0x60).map (Config.sigByte pkg text n))).wr pa 8 quoteMagic
/-- QUOTE_COMPLETION. -/
def execQuoteCompletion (s : State) : Out := .next ((fkeys s.host).foldl (fun s pkg => if (s.hostAt pkg).quoting then s.writeQuote pkg else s) s)

/-! BAR4 (R401). -/

/-- Device physical address of an offset of the window of a port. -/
def State.windowPa (s : State) (pkg : Nat) (kind : BitVec 2) (off : Nat) : Nat := ((fget 0 (s.hostAt pkg).winbase kind.toNat).toNat + off) % 2 ^ 59
/-- BAR4_WRITE: it performs at its home; one of a master that does not own is discarded. One that is no memory, or lies in the safe tier, is answered as unsupported (log entry 95). -/
def execBar4Write (pkg : Nat) (kind : BitVec 2) (off : Nat) (bytes : List (BitVec 8)) (s : State) : Out :=
  .next (let pa := s.windowPa pkg kind off
    if !s.isOwner pkg kind then s
    else if 2 ^ 34 < off + bytes.length ∨ !s.paWritable pa bytes.length then s.unsupported pkg
    else s.wrBytes pa bytes)
/-- BAR4_READ: any master reads the home. -/
def execBar4Read (pkg : Nat) (kind : BitVec 2) (off n : Nat) (s : State) : Out :=
  .next (let pa := s.windowPa pkg kind off
    if 2 ^ 34 < off + n ∨ !s.paMemory pa ∨ !s.paMemory (pa + n - 1) then s.unsupported pkg
    else s.onHost pkg fun h => { h with reads := s.rdBytes pa n })

/-! Boot (R404, R405). -/

/-- An even extent from 2 to a limit. -/
def evenUpTo (lim n : Nat) : Bool := n % 2 == 0 && decide (2 ≤ n) && decide (n ≤ lim)
/-- The extents suit the variant (R371, R404), and the reservation is at most 32 GiB (R407). -/
def SysCfg.bootable (c : SysCfg) : Bool :=
  evenUpTo 256 c.sx && evenUpTo 256 c.sy && decide (c.safeGiB ≤ 32) &&
    (if c.variant = 1 then c.sx == 2 && c.sy == 2 && c.sz == 2 else if c.variant = 2 then c.sz == 1 else evenUpTo 128 c.sz)
/-- The boot of the first die loads TIMEB (R21): an open value, no lower than what it had; the dies that follow are synchronised to it. -/
def State.loadTimeb (s : State) : State := s.onClk fun c => { c with base := c.now, time0 := Nat.max s.timeb (Config.bootTime c.free).toNat, free := c.free + 1 }
/-- BOOT of a die, or of the spare in the place of one that lost power: a rejected image, a version below the fused counter, or the links of its ports trained, the root table address loaded, the access-control table cleared but for the entry of an owner already elected, TIMEB loaded where no die runs yet, and BOOTST 1. -/
def execBoot (die : Nat) (signed : Bool) (version : BitVec 64) (root : Nat) (s : State) : Out :=
  .next (
    let pkg := pkgOf die
    if !s.dieOk die ∨ !s.cfg.bootable ∨ s.running.contains die then s
    else if !signed then s.onHost pkg fun h => { h with bootst := 2 }
    else if version < (s.hostAt pkg).rollback then s.onHost pkg fun h => { h with bootst := 3 }
    else
      let train := fun (s : State) (port : Nat) (plane : Bool) => if s.portThere port then (s.newKeys port plane).onPlane port plane fun x => { x with down := false } else s
      let s := (List.range 6).foldl (fun s p => train (train s (8 * die + p) false) (8 * die + p) true) s
      let s := s.onXl fun x => { x with root := fput 0 die (BitVec.ofNat 64 (root % 2 ^ 59)) x.root }
      let s := s.onSched fun c => { c with acl := c.acl.filter fun p => p.1 / 64 != die }
      let s := if (s.hostAt pkg).owner = 3 then s else s.ownerEntries [die] (s.hostAt pkg).owner
      let s := if s.running.isEmpty then s.loadTimeb else s
      { s.onHost pkg fun h => { h with bootst := 1, firmware := version } with running := s.running ++ [die], dark := s.dark.filter fun p => p != pkg })

/-! Memory errors (R36, R279, R352). -/

def satAdd32 (x : Nat) : Nat := Nat.min (x + 1) (2 ^ 32 - 1)
/-- Count an error in state that no job holds (R399). -/
def State.countError (s : State) (die : Nat) (corrected : Bool) : State :=
  s.onHost (pkgOf die) fun h =>
    let lo := h.errcnt.toNat % 2 ^ 32
    let hi := h.errcnt.toNat / 2 ^ 32
    { h with errcnt := BitVec.ofNat 64 (if corrected then hi * 2 ^ 32 + satAdd32 lo else satAdd32 hi * 2 ^ 32 + lo) }
/-- Report a machine check to the continuation resident on a core; an error that nobody holds is counted. -/
def State.checkResident (s : State) (cid sub addr : Nat) : State :=
  match (s.coreAt cid).res with
  | some k => s.report k (s.coreAt cid).jcb { machineCheck sub addr with pc := (s.coreAt cid).lastPc.toNat }
  | none => s.countError (dieOf cid) false
/-- UNCORRECTABLE_ERROR (R279, R352): a word of a scratchpad, a row of ACC or a word of memory goes bad, and stays so until it is written; whoever reads it meets the error. An MRF granule is retired, and the register that held it cannot be read until it is written; a line of an L1 and a cached translation are discarded. What no job holds is counted. -/
def execUncorrectableError (cid : Nat) (e : ErrSite) (s : State) : Out :=
  .next (
    let die := dieOf cid
    match e with
    | .pad wmem w =>
      let s := s.onCoreAt cid fun c => { c with padBad := c.padBad ++ [(wmem, w % 2 ^ 18)] }
      if (s.tileJob cid wmem (w % 2 ^ 18 / 32)).isSome then s else s.countError die false
    | .acc row => if (s.coreAt cid).res.isSome then s.onCoreAt cid fun c => { c with accBad := c.accBad ++ [row] } else s.countError die false
    | .mrf held =>
      if (s.coreAt cid).mrfCap ≤ 448 then s.checkResident cid 5 0
      else
        let s := s.onCoreAt cid fun c => { c with mrfCap := c.mrfCap - 1 }
        match held with
        | some r => (s.onCoreAt cid fun c => { c with mrfBad := c.mrfBad ++ [r.toNat] }).checkResident cid 4 0
        | none => s
    | .l1Line addr => s.onCoreAt cid fun c => { c with l1d := c.l1d.filter (fun x => x.line != lineOf addr), l1i := c.l1i.filter fun x => x.line != lineOf addr }
    | .mem pa => { s with bad := (pa / 8) :: s.bad.filter fun w => w != pa / 8 }
    | .xlate asid va =>
      let covers := fun (l : Leaf) => l.covered 2 asid va
      let s := s.onXl fun x => { x with leaf := x.leaf.filter (fun l => l.die != die || !covers l), node := x.node.filter fun n => n.die != die || n.asid != asid }
      s.onCoreAt cid fun c => { c with tc := c.tc.filter fun l => !covers l }
    | .unheld => s.countError die false)
/-- CORRECTED_ERROR: no visible state changes; in state that no job holds it is counted. -/
def execCorrectedError (die : Nat) (s : State) : Out := .next (s.countError die true)

/-! Heat and power (R415). -/

/-- The hottest junction of a package, and the largest step of its dies. -/
def HostSt.hottest (h : HostSt) : Nat := h.temps.foldl (fun m t => Nat.max m t.2) 0
def HostSt.slowest (h : HostSt) : Nat := h.steps.foldl (fun m t => Nat.max m t.2) 0
/-- POWER_REMOVAL: everything of the package's dies is gone, but for its fuses, and the host sees link loss. -/
def execPowerRemoval (pkg : Nat) (s : State) : Out :=
  .next (
    let dies := s.pkgDies pkg
    let gone := fun (d : Nat) => dies.contains d
    let cores := s.coreIds.filter fun c => gone (dieOf c)
    let s := cores.foldl (fun s c => s.onCoreAt c fun _ => Core.reset) s
    let s := s.onSched fun c => { c with
      lostTags := (c.lostTags.filter fun t => !gone t.die) ++ c.jtags.filter fun t => gone t.die,
      lostSets := (c.lostSets.filter fun t => !gone (t.1 / 8)) ++ s.sets.filter fun t => gone (t.1 / 8) }
    let s := { s with
      mem := s.mem.filter (fun c => !gone (paDie c.1)), bad := s.bad.filter (fun w => !gone (paDie (8 * w))), faces := s.faces.filter (fun f => !gone f.dst), bar := s.bar.filter fun b => !gone (b.1 / 64), lay := s.lay.filter fun l => !gone l.die,
      sets := s.sets.filter fun t => !gone (t.1 / 8), via := s.via.filter fun v => !gone (v.1 / 16), cmds := s.cmds.filter fun c => !gone c.die,
      running := s.running.filter fun d => !gone d, dark := if s.dark.contains pkg then s.dark else s.dark ++ [pkg] }
    let s := s.onSched fun c => { c with
      launch := c.launch.filter fun l => !gone (l.1 / 16), acl := c.acl.filter fun a => !gone (a.1 / 64), jtags := c.jtags.filter fun t => !gone t.die,
      conts := c.conts.filter fun k => !gone (keyDie k.1), ready := c.ready.filter fun r => !gone r.die, gangs := c.gangs.filter fun g => !gone g.die,
      ckpts := c.ckpts.filter fun k => !gone k.die, traps := c.traps.filter fun t => !gone t.die }
    let s := s.onXl fun x => { x with leaf := x.leaf.filter fun l => !gone l.die, node := x.node.filter fun n => !gone n.die, miss := x.miss.filter fun m => !gone m.die, inval := x.inval.filter fun v => !gone v.1 }
    let s := s.onFab fun x => { x with reqs := x.reqs.filter fun r => !gone r.src, msgs := x.msgs.filter fun m => !gone m.src && !gone m.holder, mgroups := x.mgroups.filter fun g => !gone (g.1 / 128), dedup := x.dedup.filter (fun d => !gone d.die), handlers := x.handlers.filter fun h => !gone h.die }
    let s := dies.foldl (fun s d => ((List.range 6).filter fun p => s.portThere (8 * d + p)).foldl (fun s p => ((s.onPlane (8 * d + p) false fun x => { x with down := true }).onPlane (8 * d + p) true fun x => { x with down := true })) s) s
    s.onHost pkg fun h => { HostSt.reset with rollback := h.rollback })

/-- The next throttle step of a die at a temperature: one more above 105 °C, to 1.4 GHz at the lowest, one less below 100 °C. -/
def nextThrottle (step celsius : Nat) : Nat := if 105 < celsius ∧ step < 7 then step + 1 else if celsius < 100 ∧ 0 < step then step - 1 else step
/-- THROTTLE: the junction of a die moves its own step; at 120 °C its package loses power. THERM holds the hottest junction of the package and its largest step (R399; log entry 33). TIMEB counts on in nanoseconds. -/
def execThrottle (die celsius : Nat) (s : State) : Out :=
  if 120 ≤ celsius then execPowerRemoval (pkgOf die) s
  else .next (s.onHost (pkgOf die) fun h =>
    let h := { h with temps := fput 0 die celsius h.temps, steps := fput 0 die (nextThrottle (fget 0 h.steps die) celsius) h.steps }
    { h with therm := BitVec.ofNat 16 (h.slowest * 256 + Nat.min h.hottest 255) })

/-! The plan of a cycle. -/

def State.planHost (s : State) : List Instr :=
  (if s.host.any fun h => h.2.offer then [.handoverLapse] else []) ++ (if s.host.any fun h => h.2.quoting then [.quoteCompletion] else [])

end Sys2Proof.Machine
end

