-- ==== Sys2Proof/Machine/Scalar.lean ====
section
/-! DEFINITION. The scalar slots: integer, bit, immediate, mask, control-register, floating, compare and predicate forms (R114 to R131). Every result has latency 1. -/

namespace Sys2Proof.Machine

/-- A scalar result, a predicate result: one effect that lands at the end of the issue cycle (R114). -/
def State.putS (s : State) (d : BitVec 5) (v : BitVec 64) : Out := .next (s.emit 1 (.sreg d v))
def State.putP (s : State) (p : BitVec 4) (v : Bool) : Out := .next (s.emit 1 (.preg p v))
/-- A floating scalar result with its flags. -/
def State.putF (s : State) (d : BitVec 5) (r : Nat × Nat) : Out :=
  .next ((s.emit 1 (.sreg d (BitVec.ofNat 64 r.1))).emit 1 (.flags (flagBits r.2)))
/-- Bits [31:0] of a scalar. -/
def State.rs32 (s : State) (n : BitVec 5) : Nat := (s.rs n).toNat % 2 ^ 32

/-- `nop` (R101): nothing. -/
def execNop (s : State) : Out := .next s
/-- `idle` (R72, R76): the slot issues nothing; its standing operation, replaced with the slot word by the issue, becomes idle. -/
def execIdle (s : State) : Out := .next s

/-- R117. -/
def execAdd (d a b : BitVec 5) (s : State) : Out := s.putS d (s.rs a + s.rs b)
/-- R117. -/
def execSub (d a b : BitVec 5) (s : State) : Out := s.putS d (s.rs a - s.rs b)
/-- R117. -/
def execMul (d a b : BitVec 5) (s : State) : Out := s.putS d (s.rs a * s.rs b)
/-- The 128-bit product a `mulh` form takes the high half of (R117). -/
def mulhProd (f : MulhKind) (a b : BitVec 64) : Int :=
  match f with
  | .ss => a.toInt * b.toInt
  | .uu => (a.toNat : Int) * b.toNat
  | .su => a.toInt * b.toNat
/-- R117. -/
def execMulh (d a b : BitVec 5) (f : MulhKind) (s : State) : Out := s.putS d (BitVec.ofInt 64 (mulhProd f (s.rs a) (s.rs b) / 2 ^ 64))
/-- Quotient and remainder of R118. -/
def divRem (u : Bool) (a b : BitVec 64) : BitVec 64 × BitVec 64 :=
  if b = 0 then (BitVec.allOnes 64, a)
  else if u then (BitVec.ofNat 64 (a.toNat / b.toNat), BitVec.ofNat 64 (a.toNat % b.toNat))
  else if a.toInt = -2 ^ 63 ∧ b.toInt = -1 then (BitVec.ofInt 64 (-2 ^ 63), 0)
  else
    let q := Int.tdiv a.toInt b.toInt
    (BitVec.ofInt 64 q, BitVec.ofInt 64 (a.toInt - q * b.toInt))
/-- R118. -/
def execDiv (d a b : BitVec 5) (u : Bool) (s : State) : Out := s.putS d (divRem u (s.rs a) (s.rs b)).1
/-- R118. -/
def execRem (d a b : BitVec 5) (u : Bool) (s : State) : Out := s.putS d (divRem u (s.rs a) (s.rs b)).2
/-- R117. -/
def execAnd (d a b : BitVec 5) (s : State) : Out := s.putS d (s.rs a &&& s.rs b)
/-- R117. -/
def execOr (d a b : BitVec 5) (s : State) : Out := s.putS d (s.rs a ||| s.rs b)
/-- R117. -/
def execXor (d a b : BitVec 5) (s : State) : Out := s.putS d (s.rs a ^^^ s.rs b)
/-- R117: the shift is b[5:0]. -/
def execSll (d a b : BitVec 5) (s : State) : Out := s.putS d (s.rs a <<< ((s.rs b).toNat % 64))
/-- R117. -/
def execSrl (d a b : BitVec 5) (s : State) : Out := s.putS d (s.rs a >>> ((s.rs b).toNat % 64))
/-- R117. -/
def execSra (d a b : BitVec 5) (s : State) : Out := s.putS d ((s.rs a).sshiftRight ((s.rs b).toNat % 64))
/-- R117. -/
def execSlli (d a : BitVec 5) (n : BitVec 6) (s : State) : Out := s.putS d (s.rs a <<< n.toNat)
/-- R117. -/
def execSrli (d a : BitVec 5) (n : BitVec 6) (s : State) : Out := s.putS d (s.rs a >>> n.toNat)
/-- R117. -/
def execSrai (d a : BitVec 5) (n : BitVec 6) (s : State) : Out := s.putS d ((s.rs a).sshiftRight n.toNat)
/-- Order of two scalars as the U bit says. -/
def lessU (u : Bool) (a b : BitVec 64) : Bool := if u then decide (a.toNat < b.toNat) else decide (a.toInt < b.toInt)
/-- R117. -/
def execMin (d a b : BitVec 5) (u : Bool) (s : State) : Out := s.putS d (if lessU u (s.rs b) (s.rs a) then s.rs b else s.rs a)
/-- R117. -/
def execMax (d a b : BitVec 5) (u : Bool) (s : State) : Out := s.putS d (if lessU u (s.rs a) (s.rs b) then s.rs b else s.rs a)
/-- Counts of R119. -/
def clz64 (x : BitVec 64) : Nat := ((List.range 64).find? fun i => x.getLsbD (63 - i)).getD 64
def ctz64 (x : BitVec 64) : Nat := ((List.range 64).find? fun i => x.getLsbD i).getD 64
def popc64 (x : BitVec 64) : Nat := ((List.range 64).filter fun i => x.getLsbD i).length
/-- R119. -/
def execClz (d a : BitVec 5) (s : State) : Out := s.putS d (BitVec.ofNat 64 (clz64 (s.rs a)))
/-- R119. -/
def execCtz (d a : BitVec 5) (s : State) : Out := s.putS d (BitVec.ofNat 64 (ctz64 (s.rs a)))
/-- R119. -/
def execPopc (d a : BitVec 5) (s : State) : Out := s.putS d (BitVec.ofNat 64 (popc64 (s.rs a)))
/-- Length of a bit field: it never extends past bit 63 (R120). -/
def fieldLen (l p : BitVec 6) : Nat := Nat.min (l.toNat + 1) (64 - p.toNat)
def bextVal (a : BitVec 64) (l p : BitVec 6) (x : Bool) : BitVec 64 :=
  let n := fieldLen l p
  let f := bits a.toNat p.toNat n
  if x then sx64 n f else BitVec.ofNat 64 f
def binsVal (d a : BitVec 64) (l p : BitVec 6) : BitVec 64 :=
  let n := fieldLen l p
  mixBits (BitVec.ofNat 64 ((2 ^ n - 1) * 2 ^ p.toNat)) (BitVec.ofNat 64 (bits a.toNat 0 n * 2 ^ p.toNat)) d
/-- R120. -/
def execBext (d a : BitVec 5) (l p : BitVec 6) (x : Bool) (s : State) : Out := s.putS d (bextVal (s.rs a) l p x)
/-- R120. -/
def execBins (d a : BitVec 5) (l p : BitVec 6) (s : State) : Out := s.putS d (binsVal (s.rs d) (s.rs a) l p)
/-- R121. -/
def execSel (d a b : BitVec 5) (i : Bool) (n : BitVec 4) (s : State) : Out := s.putS d (if xor (s.rp n) i then s.rs a else s.rs b)
/-- R122. -/
def execAddsh (d a b : BitVec 5) (h : BitVec 3) (s : State) : Out := s.putS d (s.rs a + s.rs b <<< h.toNat)
/-- R125: one half of a lane mask. -/
def execKset (k : BitVec 3) (a : BitVec 5) (h : Bool) (s : State) : Out := 
  .next (s.emit 1 (.kreg k ((BitVec.allOnes 64).setWidth 128 <<< (64 * b2n h)) ((s.rs a).setWidth 128 <<< (64 * b2n h))))
/-- R125. -/
def execKget (d : BitVec 5) (k : BitVec 3) (h : Bool) (s : State) : Out := s.putS d ((s.rk k).extractLsb' (64 * b2n h) 64)
/-- R126. -/
def execCrrd (d : BitVec 5) (c : BitVec 8) (s : State) : Out := s.putS d (s.crRead c)
/-- R126: the write takes effect at the end of the bundle; a privileged register takes PRIVILEGE from an unprivileged job (R20). -/
def execCrwr (a : BitVec 5) (c : BitVec 8) (s : State) : Out := 
  if crPriv c && !jcbPriv s s.jcb then .next (s.raise { cause := cPriv, info0 := 0x1C + 256 * c.toNat }) else .next (s.emitEnd (.ctl c (s.rs a)))
/-- R127. -/
def execFadd (d a b : BitVec 5) (m : BitVec 2) (s : State) : Out := s.putF d (addF f32 m.toNat (s.rs32 a) (s.rs32 b))
/-- R127. -/
def execFmul (d a b : BitVec 5) (m : BitVec 2) (s : State) : Out := s.putF d (mulF f32 m.toNat (s.rs32 a) (s.rs32 b))
/-- `fcvt` (R128): one function for each kind. -/
def fcvtVal (k m : Nat) (a : BitVec 64) : Nat × Nat :=
  let x := a.toNat % 2 ^ 32
  match k with
  | 0 => let r := toIntSat m (-2 ^ 63) (2 ^ 63 - 1) (unpack f32 x); (wrapN 64 r.1, r.2)
  | 1 => let r := toIntSat m 0 (2 ^ 64 - 1) (unpack f32 x); (wrapN 64 r.1, r.2)
  | 2 => ofInt f32 m a.toInt
  | 3 => ofInt f32 m a.toNat
  | 4 => cvtV bf16 m (unpack f32 x)
  | 5 => cvtV f32 0 (unpack bf16 (x % 2 ^ 16))
  | 6 => cvtV f16 m (unpack f32 x)
  | _ => cvtV f32 0 (unpack f16 (x % 2 ^ 16))
/-- R128. -/
def execFcvt (d a : BitVec 5) (k : BitVec 3) (m : BitVec 2) (s : State) : Out := s.putF d (fcvtVal k.toNat m.toNat (s.rs a))
/-- R123. -/
def execAddi (d a : BitVec 5) (i : BitVec 16) (s : State) : Out := s.putS d (s.rs a + i.signExtend 64)
/-- R123. -/
def execAndi (d a : BitVec 5) (i : BitVec 16) (s : State) : Out := s.putS d (s.rs a &&& i.setWidth 64)
/-- R123. -/
def execOri (d a : BitVec 5) (i : BitVec 16) (s : State) : Out := s.putS d (s.rs a ||| i.setWidth 64)
/-- R123. -/
def execXori (d a : BitVec 5) (i : BitVec 16) (s : State) : Out := s.putS d (s.rs a ^^^ i.setWidth 64)
/-- R123. -/
def execMovi (d : BitVec 5) (i : BitVec 16) (s : State) : Out := s.putS d (i.signExtend 64)
/-- R123. -/
def execMovh (d a : BitVec 5) (i : BitVec 16) (s : State) : Out := s.putS d (s.rs a <<< 16 ||| i.setWidth 64)
/-- R124. -/
def execLix (d : BitVec 5) (long : Bool) (lo hi : BitVec 32) (s : State) : Out := s.putS d (if long then hi ++ lo else lo.signExtend 64)
/-- R129. -/
def execCmpeq (p : BitVec 4) (a b : BitVec 5) (s : State) : Out := s.putP p (decide (s.rs a = s.rs b))
/-- R129, IMM = 1. -/
def execCmpeqImm (p : BitVec 4) (a : BitVec 5) (i : BitVec 10) (s : State) : Out := s.putP p (decide (s.rs a = (i.signExtend 64)))
/-- R129. -/
def execCmpne (p : BitVec 4) (a b : BitVec 5) (s : State) : Out := s.putP p (decide (s.rs a ≠ s.rs b))
/-- R129, IMM = 1. -/
def execCmpneImm (p : BitVec 4) (a : BitVec 5) (i : BitVec 10) (s : State) : Out := s.putP p (decide (s.rs a ≠ (i.signExtend 64)))
/-- R129. -/
def execCmplt (p : BitVec 4) (a b : BitVec 5) (s : State) : Out := s.putP p (decide ((s.rs a).toInt < (s.rs b).toInt))
/-- R129, IMM = 1. -/
def execCmpltImm (p : BitVec 4) (a : BitVec 5) (i : BitVec 10) (s : State) : Out := s.putP p (decide ((s.rs a).toInt < (i.signExtend 64).toInt))
/-- R129. -/
def execCmple (p : BitVec 4) (a b : BitVec 5) (s : State) : Out := s.putP p (decide ((s.rs a).toInt ≤ (s.rs b).toInt))
/-- R129, IMM = 1. -/
def execCmpleImm (p : BitVec 4) (a : BitVec 5) (i : BitVec 10) (s : State) : Out := s.putP p (decide ((s.rs a).toInt ≤ (i.signExtend 64).toInt))
/-- R129. -/
def execCmpltu (p : BitVec 4) (a b : BitVec 5) (s : State) : Out := s.putP p (decide ((s.rs a).toNat < (s.rs b).toNat))
/-- R129, IMM = 1. -/
def execCmpltuImm (p : BitVec 4) (a : BitVec 5) (i : BitVec 10) (s : State) : Out := s.putP p (decide ((s.rs a).toNat < (i.setWidth 64).toNat))
/-- R129. -/
def execCmpleu (p : BitVec 4) (a b : BitVec 5) (s : State) : Out := s.putP p (decide ((s.rs a).toNat ≤ (s.rs b).toNat))
/-- R129, IMM = 1. -/
def execCmpleuImm (p : BitVec 4) (a : BitVec 5) (i : BitVec 10) (s : State) : Out := s.putP p (decide ((s.rs a).toNat ≤ (i.setWidth 64).toNat))
/-- `fcmp` (R130): the relation and whether NV is set. -/
def fcmpVal (r a b : Nat) : Bool × Nat :=
  let x := unpack f32 a
  let y := unpack f32 b
  let un := x.isNan || y.isNan
  let sig := x.isSig || y.isSig
  let c := cmpV x y
  match r with
  | 0 => (c == some .eq, if sig then flNV else 0)
  | 1 => (c == some .lt, if un then flNV else 0)
  | 2 => (c == some .lt || c == some .eq, if un then flNV else 0)
  | _ => (un, if sig then flNV else 0)
/-- R130. -/
def execFcmp (p : BitVec 4) (a b : BitVec 5) (r : BitVec 2) (s : State) : Out := 
  let c := fcmpVal r.toNat (s.rs32 a) (s.rs32 b)
  .next ((s.emit 1 (.preg p c.1)).emit 1 (.flags (flagBits c.2)))
/-- R131. -/
def execPand (p : BitVec 4) (x : Bool) (a : BitVec 4) (y : Bool) (b : BitVec 4) (s : State) : Out := s.putP p (xor (s.rp a) x && xor (s.rp b) y)
/-- R131. -/
def execPor (p : BitVec 4) (x : Bool) (a : BitVec 4) (y : Bool) (b : BitVec 4) (s : State) : Out := s.putP p (xor (s.rp a) x || xor (s.rp b) y)
/-- R131. -/
def execPxor (p : BitVec 4) (x : Bool) (a : BitVec 4) (y : Bool) (b : BitVec 4) (s : State) : Out := s.putP p (xor (xor (s.rp a) x) (xor (s.rp b) y))

end Sys2Proof.Machine
end

