-- ==== Sys2Proof/Machine/Dispatch.lean ====
section
/-! DEFINITION. One arm for each constructor of Instr: a direct call of its meaning. -/

namespace Sys2Proof.Machine

def exec (i : Instr) (s : State) : Host.Outcome State Fault Refusal :=
  match i with
  | .add d a b => Sys2Proof.Machine.execAdd d a b s
  | .sub d a b => Sys2Proof.Machine.execSub d a b s
  | .mul d a b => Sys2Proof.Machine.execMul d a b s
  | .mulh d a b f => Sys2Proof.Machine.execMulh d a b f s
  | .div d a b u => Sys2Proof.Machine.execDiv d a b u s
  | .rem d a b u => Sys2Proof.Machine.execRem d a b u s
  | .and d a b => Sys2Proof.Machine.execAnd d a b s
  | .or d a b => Sys2Proof.Machine.execOr d a b s
  | .xor d a b => Sys2Proof.Machine.execXor d a b s
  | .sll d a b => Sys2Proof.Machine.execSll d a b s
  | .srl d a b => Sys2Proof.Machine.execSrl d a b s
  | .sra d a b => Sys2Proof.Machine.execSra d a b s
  | .slli d a n => Sys2Proof.Machine.execSlli d a n s
  | .srli d a n => Sys2Proof.Machine.execSrli d a n s
  | .srai d a n => Sys2Proof.Machine.execSrai d a n s
  | .min d a b u => Sys2Proof.Machine.execMin d a b u s
  | .max d a b u => Sys2Proof.Machine.execMax d a b u s
  | .clz d a => Sys2Proof.Machine.execClz d a s
  | .ctz d a => Sys2Proof.Machine.execCtz d a s
  | .popc d a => Sys2Proof.Machine.execPopc d a s
  | .bext d a l p x => Sys2Proof.Machine.execBext d a l p x s
  | .bins d a l p => Sys2Proof.Machine.execBins d a l p s
  | .sel d a b inv n => Sys2Proof.Machine.execSel d a b inv n s
  | .addsh d a b h => Sys2Proof.Machine.execAddsh d a b h s
  | .kset k a h => Sys2Proof.Machine.execKset k a h s
  | .kget d k h => Sys2Proof.Machine.execKget d k h s
  | .crrd d c => Sys2Proof.Machine.execCrrd d c s
  | .crwr a c => Sys2Proof.Machine.execCrwr a c s
  | .fadd d a b m => Sys2Proof.Machine.execFadd d a b m s
  | .fmul d a b m => Sys2Proof.Machine.execFmul d a b m s
  | .fcvt d a k m => Sys2Proof.Machine.execFcvt d a k m s
  | .addi d a imm => Sys2Proof.Machine.execAddi d a imm s
  | .andi d a imm => Sys2Proof.Machine.execAndi d a imm s
  | .ori d a imm => Sys2Proof.Machine.execOri d a imm s
  | .xori d a imm => Sys2Proof.Machine.execXori d a imm s
  | .movi d imm => Sys2Proof.Machine.execMovi d imm s
  | .movh d a imm => Sys2Proof.Machine.execMovh d a imm s
  | .lix d long lo hi => Sys2Proof.Machine.execLix d long lo hi s
  | .cmpeq p a b => Sys2Proof.Machine.execCmpeq p a b s
  | .cmpeqImm p a imm => Sys2Proof.Machine.execCmpeqImm p a imm s
  | .cmpne p a b => Sys2Proof.Machine.execCmpne p a b s
  | .cmpneImm p a imm => Sys2Proof.Machine.execCmpneImm p a imm s
  | .cmplt p a b => Sys2Proof.Machine.execCmplt p a b s
  | .cmpltImm p a imm => Sys2Proof.Machine.execCmpltImm p a imm s
  | .cmple p a b => Sys2Proof.Machine.execCmple p a b s
  | .cmpleImm p a imm => Sys2Proof.Machine.execCmpleImm p a imm s
  | .cmpltu p a b => Sys2Proof.Machine.execCmpltu p a b s
  | .cmpltuImm p a imm => Sys2Proof.Machine.execCmpltuImm p a imm s
  | .cmpleu p a b => Sys2Proof.Machine.execCmpleu p a b s
  | .cmpleuImm p a imm => Sys2Proof.Machine.execCmpleuImm p a imm s
  | .fcmp p a b r => Sys2Proof.Machine.execFcmp p a b r s
  | .pand p x a y b => Sys2Proof.Machine.execPand p x a y b s
  | .por p x a y b => Sys2Proof.Machine.execPor p x a y b s
  | .pxor p x a y b => Sys2Proof.Machine.execPxor p x a y b s
  | .br t => Sys2Proof.Machine.execBr t s
  | .call t => Sys2Proof.Machine.execCall t s
  | .brx t => Sys2Proof.Machine.execBrx t s
  | .ld d a o => Sys2Proof.Machine.execLd d a o s
  | .st v a o => Sys2Proof.Machine.execSt v a o s
  | .ldacq d a sel o => Sys2Proof.Machine.execLdacq d a sel o s
  | .strel v a sel o => Sys2Proof.Machine.execStrel v a sel o s
  | .pf h a o => Sys2Proof.Machine.execPf h a o s
  | .fence sel k => Sys2Proof.Machine.execFence sel k s
  | .amoadd d a b sel o => Sys2Proof.Machine.execAmoadd d a b sel o s
  | .amoand d a b sel o => Sys2Proof.Machine.execAmoand d a b sel o s
  | .amoor d a b sel o => Sys2Proof.Machine.execAmoor d a b sel o s
  | .amoxor d a b sel o => Sys2Proof.Machine.execAmoxor d a b sel o s
  | .amomin d a b sel o u => Sys2Proof.Machine.execAmomin d a b sel o u s
  | .amomax d a b sel o u => Sys2Proof.Machine.execAmomax d a b sel o u s
  | .amoswap d a b sel o => Sys2Proof.Machine.execAmoswap d a b sel o s
  | .amocas d a b sel o => Sys2Proof.Machine.execAmocas d a b sel o s
  | .stld n a o => Sys2Proof.Machine.execStld n a o s
  | .stset n a sel => Sys2Proof.Machine.execStset n a sel s
  | .stget d n sel => Sys2Proof.Machine.execStget d n sel s
  | .stadv n a => Sys2Proof.Machine.execStadv n a s
  | .vld f => Sys2Proof.Machine.execVld f s
  | .vst f => Sys2Proof.Machine.execVst f s
  | .vldb f => Sys2Proof.Machine.execVldb f s
  | .vpf f => Sys2Proof.Machine.execVpf f s
  | .vscat f => Sys2Proof.Machine.execVscat f s
  | .vscadd f => Sys2Proof.Machine.execVscadd f s
  | .vscmax f => Sys2Proof.Machine.execVscmax f s
  | .vredst f => Sys2Proof.Machine.execVredst f s
  | .vadd f => Sys2Proof.Machine.execVadd f s
  | .vsub f => Sys2Proof.Machine.execVsub f s
  | .vmul f => Sys2Proof.Machine.execVmul f s
  | .vfma f => Sys2Proof.Machine.execVfma f s
  | .vfms f => Sys2Proof.Machine.execVfms f s
  | .vfnma f => Sys2Proof.Machine.execVfnma f s
  | .vmulh f => Sys2Proof.Machine.execVmulh f s
  | .vmin f => Sys2Proof.Machine.execVmin f s
  | .vmax f => Sys2Proof.Machine.execVmax f s
  | .vabs f => Sys2Proof.Machine.execVabs f s
  | .vneg f => Sys2Proof.Machine.execVneg f s
  | .vclamp f => Sys2Proof.Machine.execVclamp f s
  | .vrnd f => Sys2Proof.Machine.execVrnd f s
  | .vand f => Sys2Proof.Machine.execVand f s
  | .vor f => Sys2Proof.Machine.execVor f s
  | .vxor f => Sys2Proof.Machine.execVxor f s
  | .vnot f => Sys2Proof.Machine.execVnot f s
  | .vsll f => Sys2Proof.Machine.execVsll f s
  | .vsrl f => Sys2Proof.Machine.execVsrl f s
  | .vsra f => Sys2Proof.Machine.execVsra f s
  | .vcmpeq f => Sys2Proof.Machine.execVcmpeq f s
  | .vcmpne f => Sys2Proof.Machine.execVcmpne f s
  | .vcmplt f => Sys2Proof.Machine.execVcmplt f s
  | .vcmple f => Sys2Proof.Machine.execVcmple f s
  | .vclass f => Sys2Proof.Machine.execVclass f s
  | .vsel f => Sys2Proof.Machine.execVsel f s
  | .vmov f => Sys2Proof.Machine.execVmov f s
  | .vbcast f => Sys2Proof.Machine.execVbcast f s
  | .vins f => Sys2Proof.Machine.execVins f s
  | .vext f => Sys2Proof.Machine.execVext f s
  | .vgath f => Sys2Proof.Machine.execVgath f s
  | .vcvt f => Sys2Proof.Machine.execVcvt f s
  | .vcvt8 f => Sys2Proof.Machine.execVcvt8 f s
  | .vquant f => Sys2Proof.Machine.execVquant f s
  | .vdequant f => Sys2Proof.Machine.execVdequant f s
  | .vpack f => Sys2Proof.Machine.execVpack f s
  | .vunpk f => Sys2Proof.Machine.execVunpk f s
  | .vshuf f => Sys2Proof.Machine.execVshuf f s
  | .vrotm f => Sys2Proof.Machine.execVrotm f s
  | .vzip f => Sys2Proof.Machine.execVzip f s
  | .vuzp f => Sys2Proof.Machine.execVuzp f s
  | .vrev f => Sys2Proof.Machine.execVrev f s
  | .vslide f => Sys2Proof.Machine.execVslide f s
  | .vpark f => Sys2Proof.Machine.execVpark f s
  | .vunpark f => Sys2Proof.Machine.execVunpark f s
  | .vexp2 f => Sys2Proof.Machine.execVexp2 f s
  | .vlog2 f => Sys2Proof.Machine.execVlog2 f s
  | .vrcp f => Sys2Proof.Machine.execVrcp f s
  | .vrsqrt f => Sys2Proof.Machine.execVrsqrt f s
  | .vsin f => Sys2Proof.Machine.execVsin f s
  | .vcos f => Sys2Proof.Machine.execVcos f s
  | .vtanh f => Sys2Proof.Machine.execVtanh f s
  | .vqraw f => Sys2Proof.Machine.execVqraw f s
  | .vunif f => Sys2Proof.Machine.execVunif f s
  | .vnorm f => Sys2Proof.Machine.execVnorm f s
  | .vcat f => Sys2Proof.Machine.execVcat f s
  | .vtopk f => Sys2Proof.Machine.execVtopk f s
  | .vtemp f => Sys2Proof.Machine.execVtemp f s
  | .rsum f => Sys2Proof.Machine.execRsum f s
  | .rmax f => Sys2Proof.Machine.execRmax f s
  | .rmin f => Sys2Proof.Machine.execRmin f s
  | .rsumsq f => Sys2Proof.Machine.execRsumsq f s
  | .rmov f => Sys2Proof.Machine.execRmov f s
  | .rclr f => Sys2Proof.Machine.execRclr f s
  | .mld f => Sys2Proof.Machine.execMld f s
  | .mldu f => Sys2Proof.Machine.execMldu f s
  | .mldv f => Sys2Proof.Machine.execMldv f s
  | .mst f => Sys2Proof.Machine.execMst f s
  | .mstu f => Sys2Proof.Machine.execMstu f s
  | .mstv f => Sys2Proof.Machine.execMstv f s
  | .mmov f => Sys2Proof.Machine.execMmov f s
  | .mmac f => Sys2Proof.Machine.execMmac f s
  | .mmacs f => Sys2Proof.Machine.execMmacs f s
  | .mmacr f => Sys2Proof.Machine.execMmacr f s
  | .mmacm f => Sys2Proof.Machine.execMmacm f s
  | .mmul f => Sys2Proof.Machine.execMmul f s
  | .madd f => Sys2Proof.Machine.execMadd f s
  | .msub f => Sys2Proof.Machine.execMsub f s
  | .mscale f => Sys2Proof.Machine.execMscale f s
  | .mtr f => Sys2Proof.Machine.execMtr f s
  | .recomp f => Sys2Proof.Machine.execRecomp f s
  | .densify f => Sys2Proof.Machine.execDensify f s
  | .mctl d l x => Sys2Proof.Machine.execMctl d l x s
  | .mfree f => Sys2Proof.Machine.execMfree f s
  | .macrd f => Sys2Proof.Machine.execMacrd f s
  | .macwr f => Sys2Proof.Machine.execMacwr f s
  | .accld f => Sys2Proof.Machine.execAccld f s
  | .accwr f => Sys2Proof.Machine.execAccwr f s
  | .accadd f => Sys2Proof.Machine.execAccadd f s
  | .accst f => Sys2Proof.Machine.execAccst f s
  | .accqst f => Sys2Proof.Machine.execAccqst f s
  | .accclr f => Sys2Proof.Machine.execAccclr f s
  | .accmv f => Sys2Proof.Machine.execAccmv f s
  | .accscl f => Sys2Proof.Machine.execAccscl f s
  | .ecopy f => Sys2Proof.Machine.execEcopy f s
  | .own sel b f c => Sys2Proof.Machine.execOwn sel b f c s
  | .rset n b f c d => Sys2Proof.Machine.execRset n b f c d s
  | .rwait h k n l => Sys2Proof.Machine.execRwait h k n l s
  | .radv h tail n => Sys2Proof.Machine.execRadv h tail n s
  | .barr n r d => Sys2Proof.Machine.execBarr n r d s
  | .bwait n l c => Sys2Proof.Machine.execBwait n l c s
  | .bwaitImm n l c => Sys2Proof.Machine.execBwaitImm n l c s
  | .breset n => Sys2Proof.Machine.execBreset n s
  | .balloc p n => Sys2Proof.Machine.execBalloc p n s
  | .bfree n => Sys2Proof.Machine.execBfree n s
  | .hxch n f b => Sys2Proof.Machine.execHxch n f b s
  | .reshard e v b => Sys2Proof.Machine.execReshard e v b s
  | .rsload v a => Sys2Proof.Machine.execRsload v a s
  | .coll a b => Sys2Proof.Machine.execColl a b s
  | .edisp a b => Sys2Proof.Machine.execEdisp a b s
  | .ecomb a b => Sys2Proof.Machine.execEcomb a b s
  | .put a b => Sys2Proof.Machine.execPut a b s
  | .get a b => Sys2Proof.Machine.execGet a b s
  | .spawn f => Sys2Proof.Machine.execSpawn f s
  | .done j => Sys2Proof.Machine.execDone j s
  | .jraise a => Sys2Proof.Machine.execJraise a s
  | .cpost a b sel j => Sys2Proof.Machine.execCpost a b sel j s
  | .slice b y lo hi => Sys2Proof.Machine.execSlice b y lo hi s
  | .trap a => Sys2Proof.Machine.execTrap a s
  | .tsub n a b p => Sys2Proof.Machine.execTsub n a b p s
  | .rverd v => Sys2Proof.Machine.execRverd v s
  | .tlog a b => Sys2Proof.Machine.execTlog a b s
  | .tsload n a p => Sys2Proof.Machine.execTsload n a p s
  | .tsstat d n g sel => Sys2Proof.Machine.execTsstat d n g sel s
  | .sqset n a => Sys2Proof.Machine.execSqset n a s
  | .sqapp n d c => Sys2Proof.Machine.execSqapp n d c s
  | .sqacc n a => Sys2Proof.Machine.execSqacc n a s
  | .sqrej n => Sys2Proof.Machine.execSqrej n s
  | .lyrd d e sel => Sys2Proof.Machine.execLyrd d e sel s
  | .lywr e a sel => Sys2Proof.Machine.execLywr e a sel s
  | .tlbinv k a b => Sys2Proof.Machine.execTlbinv k a b s
  | .aclwr a b => Sys2Proof.Machine.execAclwr a b s
  | .ckpt a b => Sys2Proof.Machine.execCkpt a b s
  | .offCoreLoadResponse id => Sys2Proof.Machine.execOffCoreLoadResponse id s
  | .queueEntryPerform store => Sys2Proof.Machine.execQueueEntryPerform store s
  | .offCoreFaultReport id => Sys2Proof.Machine.execOffCoreFaultReport id s
  | .engineCommandCompletion id => Sys2Proof.Machine.execEngineCommandCompletion id s
  | .engineFailureReport id => Sys2Proof.Machine.execEngineFailureReport id s
  | .ringBlockTransfer id => Sys2Proof.Machine.execRingBlockTransfer id s
  | .pipeTileCopy gang pipe => Sys2Proof.Machine.execPipeTileCopy gang pipe s
  | .haloFaceArrival id => Sys2Proof.Machine.execHaloFaceArrival id s
  | .reshardStep id => Sys2Proof.Machine.execReshardStep id s
  | .stepTokenArrival id => Sys2Proof.Machine.execStepTokenArrival id s
  | .barrierArrival id => Sys2Proof.Machine.execBarrierArrival id s
  | .recordAdmission id => Sys2Proof.Machine.execRecordAdmission id s
  | .recordCompletion set place => Sys2Proof.Machine.execRecordCompletion set place s
  | .packetExpansion die => Sys2Proof.Machine.execPacketExpansion die s
  | .gangClaim gang => Sys2Proof.Machine.execGangClaim gang s
  | .gangAdmission gang => Sys2Proof.Machine.execGangAdmission gang s
  | .gangResume gang => Sys2Proof.Machine.execGangResume gang s
  | .jobCompletion jcb => Sys2Proof.Machine.execJobCompletion jcb s
  | .completionSignal jcb => Sys2Proof.Machine.execCompletionSignal jcb s
  | .resume handle => Sys2Proof.Machine.execResume handle s
  | .fault handle => Sys2Proof.Machine.execFault handle s
  | .endTrapped handle => Sys2Proof.Machine.execEndTrapped handle s
  | .endPost handle => Sys2Proof.Machine.execEndPost handle s
  | .requestArrival id => Sys2Proof.Machine.execRequestArrival id s
  | .acknowledgement id => Sys2Proof.Machine.execAcknowledgement id s
  | .checkpointCopy id => Sys2Proof.Machine.execCheckpointCopy id s
  | .checkpointCommit id => Sys2Proof.Machine.execCheckpointCommit id s
  | .push kind die queue off bytes => Sys2Proof.Machine.execPush kind die queue off bytes s
  | .uncorrectableError cid e => Sys2Proof.Machine.execUncorrectableError cid e s
  | .correctedError die => Sys2Proof.Machine.execCorrectedError die s
  | .flitArrival port plane c intact => Sys2Proof.Machine.execFlitArrival port plane c intact s
  | .planeFailure port plane => Sys2Proof.Machine.execPlaneFailure port plane s
  | .planeRejoin port plane => Sys2Proof.Machine.execPlaneRejoin port plane s
  | .linkTraining port plane => Sys2Proof.Machine.execLinkTraining port plane s
  | .rekey port plane => Sys2Proof.Machine.execRekey port plane s
  | .slotAlignmentLoss port plane => Sys2Proof.Machine.execSlotAlignmentLoss port plane s
  | .bar0Write pkg kind off v => Sys2Proof.Machine.execBar0Write pkg kind off v s
  | .claim pkg kind => Sys2Proof.Machine.execClaim pkg kind s
  | .handover pkg kind v => Sys2Proof.Machine.execHandover pkg kind v s
  | .attest pkg kind v => Sys2Proof.Machine.execAttest pkg kind v s
  | .bar4Write pkg kind off bytes => Sys2Proof.Machine.execBar4Write pkg kind off bytes s
  | .bar4Read pkg kind off n => Sys2Proof.Machine.execBar4Read pkg kind off n s
  | .boot die signed version root => Sys2Proof.Machine.execBoot die signed version root s
  | .resumption die => Sys2Proof.Machine.execResumption die s
  | .throttle die celsius => Sys2Proof.Machine.execThrottle die celsius s
  | .ownerLinkDown pkg => Sys2Proof.Machine.execOwnerLinkDown pkg s
  | .powerRemoval pkg => Sys2Proof.Machine.execPowerRemoval pkg s
  | .nop => Sys2Proof.Machine.execNop s
  | .idle => Sys2Proof.Machine.execIdle s
  | .mark => Sys2Proof.Machine.execMark s
  | .l1inv => Sys2Proof.Machine.execL1inv s
  | .yield => Sys2Proof.Machine.execYield s
  | .brk => Sys2Proof.Machine.execBrk s
  | .repetitionIssue => Sys2Proof.Machine.execRepetitionIssue s
  | .resultLanding => Sys2Proof.Machine.execResultLanding s
  | .matrixResultLanding => Sys2Proof.Machine.execMatrixResultLanding s
  | .waitConditionMet => Sys2Proof.Machine.execWaitConditionMet s
  | .waitTimeout => Sys2Proof.Machine.execWaitTimeout s
  | .safePoint => Sys2Proof.Machine.execSafePoint s
  | .save => Sys2Proof.Machine.execSave s
  | .budgetExhausted => Sys2Proof.Machine.execBudgetExhausted s
  | .safepointOverdue => Sys2Proof.Machine.execSafepointOverdue s
  | .spawnEnqueue => Sys2Proof.Machine.execSpawnEnqueue s
  | .dispatch => Sys2Proof.Machine.execDispatch s
  | .trapRecordClaim => Sys2Proof.Machine.execTrapRecordClaim s
  | .translationWalk => Sys2Proof.Machine.execTranslationWalk s
  | .tlbinvCompletion => Sys2Proof.Machine.execTlbinvCompletion s
  | .criticalResend => Sys2Proof.Machine.execCriticalResend s
  | .criticalFlitLost => Sys2Proof.Machine.execCriticalFlitLost s
  | .endToEndResend => Sys2Proof.Machine.execEndToEndResend s
  | .fabricOutcomeUnknown => Sys2Proof.Machine.execFabricOutcomeUnknown s
  | .handoverLapse => Sys2Proof.Machine.execHandoverLapse s
  | .quoteCompletion => Sys2Proof.Machine.execQuoteCompletion s

end Sys2Proof.Machine
end

