-- ==== Sys2Proof/Machine/Plan.lean ====
section
/-! DEFINITION. What the shared agents of the system do in a cycle, stage by stage, and the placing of a program. -/

namespace Sys2Proof.Machine

/-- The engines' work of a cycle on one command, where its die does not sit the cycle out. -/
def State.workCmd (s : State) (id : Nat) : State :=
  match s.cmd id with
  | none => s
  | some c =>
    if !(c.active s.now && s.awake c.die) then s
    else
      match c.i with
      | .ecopy f => s.workCopy c f
      | .hxch _ _ _ => s.workHalo c
      | .coll _ _ | .edisp _ _ | .ecomb _ _ => s.workColl c
      | .put _ _ => s.workPut c fun s die q p => s.pushTo 3 c.die die q p
      | .get _ _ => s.workGet c
      | .ckpt _ _ => s.workCkpt c
      | _ => s
def State.workEngines (s : State) : State := ((s.cmds.map Cmd.id).foldl State.workCmd s.dropTags).failedCkpts
/-- Events of the engines: blocks, steps and pages that can move, then the commands that end. -/
def State.planEngines (s : State) : List Instr :=
  ((s.cmds.filter fun c => s.awake c.die).filterMap fun c => if s.ringReady c then some (.ringBlockTransfer c.id) else if s.stepReady c then some (.reshardStep c.id) else none) ++ s.planCkpts ++ s.planPipes ++ s.planFaces
def State.planEnds (s : State) : List Instr :=
  s.cmds.filterMap fun c => if !s.canEnd c then none else if c.fail.isSome then some (.engineFailureReport c.id) else some (.engineCommandCompletion c.id)
/-- Walks and invalidations. -/
def State.planWalks (s : State) : List Instr :=
  (if s.xl.miss.isEmpty then [] else [.translationWalk]) ++ (if s.xl.inval.isEmpty then [] else [.tlbinvCompletion])
/-- Dies with a packet waiting. -/
def State.planPackets (s : State) : List Instr := ((s.sched.launch.map fun q => q.1 / 16).dedup.filter s.running.contains).map .packetExpansion
/-- The stages of a cycle of the shared agents: fabric, engines, translation, router, scheduler, host. -/
def sharedStages : List Stage :=
  [{ prepare := State.moveFabric, plan := State.planFabric }, { prepare := State.workEngines, plan := State.planEngines }, { prepare := State.failedCkpts, plan := State.planEnds },
   { prepare := id, plan := State.planWalks }, { prepare := id, plan := State.planRecords },
   { prepare := id, plan := fun s => (if s.sched.traps.isEmpty then [] else [.trapRecordClaim]) ++ s.planActions ++ s.planJobs ++ s.planPackets },
   { prepare := State.gangStates, plan := fun s => s.planGangs ++ (if s.schedDies.isEmpty then [] else [.dispatch]) }, { prepare := id, plan := State.planHost }]

/-! Placing a program (log entry 5): the load of a kernel from outside. -/

/-- The bundle of a table word: a head, the word in the first slot of its class, its extension words (R69, R74); a word that no class accepts stands in S0. -/
def tableBundle (w : Nat) : List Nat :=
  let c := match tableInstr w with
    | some p => p.1
    | none => .scalar
  let n := extCount c (w % 2 ^ 32)
  [0x35 * 2 ^ 26 + 2 ^ (16 + clsSlot c) + n * 16, w % 2 ^ 32] ++ (List.range n).map fun j => w / 2 ^ (32 * (j + 1)) % 2 ^ 32
/-- Physical addresses of what the loader places on a die: the root table, the two table levels, the JCB, the page. -/
def ldRoot (d : Nat) : Nat := d * 2 ^ 36 + 0x10000
def ldL0 (d : Nat) : Nat := d * 2 ^ 36 + 0x20000
def ldL1 (d : Nat) : Nat := d * 2 ^ 36 + 0x30000
def ldJcb (d : Nat) : Nat := d * 2 ^ 36 + 0x1000
def ldPage (d : Nat) : Nat := d * 2 ^ 36 + 0x40000000
/-- Virtual addresses in the page: kernel descriptor, instruction bitmap, code image, side table, trap area, save slots. -/
def ldKdesc : Nat := 0x1000
def ldBmap : Nat := 0x2000
def ldCode : Nat := 0x3000
def ldSide : Nat := 0x5000
def ldTrap : Nat := 0x8000
def ldSave : Nat := 0x100000
/-- Memory of the loaded kernel: the tables of ASID 0, one job, one descriptor, one bundle. -/
def State.placeImage (s : State) (d : Nat) (ws : List Nat) : State :=
  let s := s.wr (ldRoot d) 8 (ldL0 d + 1)
  let s := s.wr (ldL0 d) 8 (ldL1 d + 1)
  let s := s.wr (ldL1 d) 8 (ldPage d + 0x1F)
  let s := s.wr (ldJcb d) 4 1
  let s := s.wr (ldJcb d + 0x0A) 1 1
  let s := s.wr (ldJcb d + 0x30) 8 (16 * 2 ^ 56 + ldTrap)
  let s := s.wr (ldJcb d + 0x38) 8 ldSave
  let s := s.wr (ldJcb d + 0x40) 4 1
  let s := s.wr (ldPage d + ldKdesc) 8 ldCode
  let s := s.wr (ldPage d + ldKdesc + 8) 4 ws.length
  let s := s.wr (ldPage d + ldKdesc + 0x10) 8 ldBmap
  let s := s.wr (ldPage d + ldKdesc + 0x18) 8 ldSide
  let s := s.wr (ldPage d + ldBmap) 1 1
  s.wrBytes (ldPage d + ldCode) (ws.flatMap (natLe 4))
/-- The kernel runs on the focused core, in its first cycle. -/
def State.placeKernel (s : State) (ws : List Nat) : State :=
  let d := s.die
  let key := contKey d 0
  let s := s.placeImage d ws
  let s := s.onXl fun x => { x with root := fput 0 d (BitVec.ofNat 64 (ldRoot d)) x.root, leaf := x.leaf.filter (fun l => l.die != d || l.asid != 0), node := x.node.filter fun n => n.die != d || n.asid != 0 }
  let s := { s with lay := { die := d, jcb := ldJcb d, ents := List.replicate 16 LyEnt.reset } :: s.lay.filter fun l => l.die != d || l.jcb != ldJcb d }
  let s := s.giveJtag d (ldJcb d)
  let s := s.setCont key (some { Cont.blank (ldJcb d) with
    jtag := s.jtag d (ldJcb d), pc := BitVec.ofNat 56 ldCode, state := stRunning, bound := some (coreOf s.cid), kdesc := BitVec.ofNat 56 ldKdesc, slot := some 0, lcoord := BitVec.ofNat 32 s.cid })
  let s := s.onSched fun x => { x with nextHandle := fmod 0 d (Nat.max 1) x.nextHandle }
  let s := { s.onHost (pkgOf d) fun h => { h with bootst := 1 } with running := if s.running.contains d then s.running else s.running ++ [d] }
  let s := s.onClk fun k => { k with turn := [s.cid] }
  let leaf : Leaf := { die := d, asid := 0, page := 0, level := 1, entry := BitVec.ofNat 64 (ldPage d + 0x1F) }
  s.onCore fun c => { c with
    tc := [leaf], res := some key, jcb := ldJcb d, mode := .run, ctx := { c.ctx with pc := BitVec.ofNat 56 ldCode, ctl := { c.ctx.ctl with asid := 0 } }, l1i := [],
    iss := Iss.reset, rep := 0, words := [], lastPc := 0, issueAt := s.now, spCount := 0 }

end Sys2Proof.Machine
end

