-- ==== Sys2Proof/Machine/Step.lean ====
section
/-! DEFINITION. The step of the machine, and how an instruction is placed where the next step fetches it. -/

namespace Sys2Proof.Machine

/-- One step: a core cycle of the core whose turn it is, an event from outside, or the shared agents' part of a cycle. -/
def step (s : State) : Host.Outcome State Fault Refusal := stepBy exec sharedStages s

/-- The state with the instruction of a table word placed where the next step fetches: a bundle that holds it alone, in the code image of a kernel that a privileged continuation runs on the focused core, whose turn it is. Log entry 5. -/
def State.withFetchWord (s : State) (nbits w : Nat) : State := s.placeKernel (tableBundle (w % 2 ^ nbits))

end Sys2Proof.Machine
end

