-- ==== Sys2Proof/Safety.lean ====
section
/-! DEFINITION. The terms the statements use: what an operation leaves in the issue buffer, what landing makes of it, what stays as it was, and the invariant of a run. -/

namespace Sys2Proof.Machine

/-- The state after effects are emitted by the issuing slot, each given with its latency, in order (R91). -/
def State.emits (s : State) (es : List (Nat × Eff)) : State := es.foldl (fun t e => t.emit e.1 e.2) s
/-- The operation completes: it raises no trap and leaves exactly these effects behind. -/
def Emits (i : Instr) (s : State) (es : List (Nat × Eff)) : Prop := exec i s = .next (s.emits es)
/-- The operation completes with writes that take effect at the end of its bundle (R77, R126). -/
def EmitsEnd (i : Instr) (s : State) (es : List Eff) : Prop := exec i s = .next (es.foldl State.emitEnd s)
/-- The operation raises a trap at its issue and does nothing else (R94). -/
def Raises (i : Instr) (s : State) (t : Trap) : Prop := exec i s = .next (s.raise t)
/-- The operation issues: the next state differs in the issue buffer alone. -/
def IssuesOnly (i : Instr) (s : State) : Prop := ∃ x : Iss, exec i s = .next (s.onIss fun _ => x)

/-- A vector form of latency L that computes `go` from its operands (R91, R167): on registers it emits its results at once; with a stream operand B whose checks pass it notes the section it will sample and steps the stream, and computes from the sample; a failing check raises its trap and nothing else. -/
def VectorForm (f : VF) (i : Instr) (L : Nat) (go : Cap → List Eff) : Prop :=
  ∀ s : State,
    (s.core.iss.phase = .issue → f.sb = false → exec i s = .next (s.emitAll (s.now + L - 1) (go (s.capture f)))) ∧
    (s.core.iss.phase = .issue → f.sb = true → s.sectTrap f.b .vec (f.w.bits / 8) = none →
      exec i s = .next ((s.emit 2 (.calc i { s.capture f with reads := [s.sectRead f.b (f.w.bits / 8)], diag := (s.rst f.b).diag })).touch f.b (f.w.bits / 8))) ∧
    (∀ t, s.core.iss.phase = .issue → f.sb = true → s.sectTrap f.b .vec (f.w.bits / 8) = some t → Raises i s t) ∧
    ∀ c, s.core.iss.phase = .compute c →
      exec i s = .next (s.emitAll (c.issued + L - 1) (go { c with b := BitVec.ofNat 1024 (s.sample c.diag (c.issued + 3) (c.reads.getD 0 none)) }))
/-- A form that writes a body to matrix register md (R16, R195, R196, R216): where its rank fits LIMIT or AD makes it dense, and its granules fit MRFCAP, it lands 11 cycles after its cost, which may depend on the granules of the result; else it raises RANK_OVERFLOW or MRF_FULL and does nothing. -/
def MatrixResult (s : State) (i : Instr) (md : BitVec 4) (b : MBody) (cost : Nat → Nat) (claim : Option Nat) : Prop :=
  let limit := (s.rm md).limit.toNat
  let big := isFact b = true ∧ limit < rankOf b
  let d := bodyOf (.dense (densifyM (matOf b)))
  (¬big → s.mrfTrap md (claim.getD b.granules) = none → exec i s = .next (s.mxLand (cost b.granules) (.mreg md b))) ∧
  (¬big → ∀ t, s.mrfTrap md (claim.getD b.granules) = some t → Raises i s t) ∧
  (big → (s.rm md).ad = false → Raises i s (rankTrap md (rankOf b) limit)) ∧
  (big → (s.rm md).ad = true → s.mrfTrap md (claim.getD d.granules) = none → exec i s = .next (s.mxLand (cost d.granules + 8 * rankOf b) (.mreg md d))) ∧
  (big → (s.rm md).ad = true → ∀ t, s.mrfTrap md (claim.getD d.granules) = some t → Raises i s t)
/-- The position of a direct stream as one number: CPOS fastest, then POS0, POS1, POS2 (R142). -/
def Stream.linear (st : Stream) : Nat := st.cpos + st.cext * (st.posd 0 + st.ext 0 * (st.posd 1 + st.ext 1 * st.posd 2))

/-! What rounding means (R44, R53 to R56), apart from how the model computes it. -/

/-- The exponent of the unit of a format: its least subnormal is 2 to the power −unitExp. -/
def Fmt.unitExp (f : Fmt) : Nat := f.bias + f.p - 2
/-- A finite value in units of its format's least subnormal (R44). -/
def Fmt.units (f : Fmt) (v : FV) : Int :=
  match v with
  | .fin n m e => (if n then -1 else 1) * (m * 2 ^ (e + f.unitExp).toNat : Nat)
  | _ => 0
/-- The place of a pattern in the order of the numbers of its format: the magnitude bits with the sign. -/
def Fmt.orderKey (f : Fmt) (x : Nat) : Int := if x.testBit (f.p - 1 + f.ew) then -(x % 2 ^ (f.p - 1 + f.ew) : Nat) else (x % 2 ^ (f.p - 1 + f.ew) : Nat)
/-- The integer v is x / d rounded in a direction of R54: to nearest with ties to even, toward zero, toward +∞, toward −∞. -/
def RoundsTo (mode : Nat) (v x : Int) (d : Nat) : Prop :=
  (mode = 0 → 2 * (v * d - x).natAbs ≤ d ∧ (2 * (v * d - x).natAbs = d → v % 2 = 0)) ∧
  (mode = 1 → (v * d).natAbs ≤ x.natAbs ∧ x.natAbs < (v * d).natAbs + d ∧ 0 ≤ v * x) ∧
  (mode = 2 → x ≤ v * d ∧ v * d < x + d) ∧ (mode = 3 → v * d ≤ x ∧ x < v * d + d)
/-- The pattern x, of a format decoded by `dec` whose largest finite value is `max` units, is the exact value of P units over 2^j, P not zero, rounded in a direction (R53 to R55): P at the quantum of the result's exponent, which is at least one unit. `large`: it lies beyond the largest finite value; `inexact`; `tiny`: below the least normal number after rounding as though exponents had no end. -/
def RoundsAt (f : Fmt) (dec : Nat → FV) (max mode : Nat) (P : Int) (j x : Nat) (inexact tiny large : Bool) : Prop :=
  let top := Nat.log2 P.natAbs
  let q := top - j - (f.p - 1)
  ∃ v u : Int, RoundsTo mode v P (2 ^ (q + j)) ∧ RoundsTo mode u P (2 ^ (top - (f.p - 1))) ∧
    inexact = decide (v * (2 ^ (q + j) : Nat) ≠ P) ∧ tiny = decide (u.natAbs * 2 ^ (top - (f.p - 1)) < 2 ^ (f.p - 1 + j)) ∧ large = decide (max < v.natAbs * 2 ^ q) ∧
    (large = false → x < 2 ^ (f.p + f.ew) ∧ (∃ m e, dec x = .fin (decide (P < 0)) m e) ∧ f.units (dec x) = v * (2 ^ q : Nat))
/-- The flags of a rounding that does not overflow (R55). -/
def roundFlags (inexact tiny : Bool) : Nat := (if inexact then flNX else 0) + if inexact && tiny then flUF else 0
/-- r is the result of such a rounding, with its flags, in a format with infinities: beyond the largest finite value it is by the direction an infinity or that value, with OF and NX. -/
def RoundsIn (f : Fmt) (mode : Nat) (P : Int) (j : Nat) (r : Nat × Nat) : Prop :=
  ∃ inexact tiny large : Bool, RoundsAt f (unpack f) ((2 ^ f.p - 1) * 2 ^ (2 ^ f.ew - 3)) mode P j r.1 inexact tiny large ∧
    (large = false → r.2 = roundFlags inexact tiny) ∧
    (large = true → r = (infOf f (decide (P < 0)) - (if mode = 0 ∨ (mode = 2 ∧ 0 < P) ∨ (mode = 3 ∧ P < 0) then 0 else 1), flOF + flNX))

/-- R53: an operation with a NaN among its inputs. -/
def nanResult (f : Fmt) (vs : List FV) : Nat × Nat := (nanOf f, if vs.any FV.isSig then flNV else 0)
/-- r is a + b, a format's own values, with one rounding. -/
def SumIs (f : Fmt) (mode : Nat) (a b : FV) (r : Nat × Nat) : Prop :=
  ((a.isNan || b.isNan) = true → r = nanResult f [a, b]) ∧
  ((a.isNan || b.isNan) = false →
    (∀ n, a = .inf n → r = if b = .inf (!n) then (nanOf f, flNV) else (infOf f n, 0)) ∧
    (∀ n, b = .inf n → r = if a = .inf (!n) then (nanOf f, flNV) else (infOf f n, 0)) ∧
    ((a.isFin && b.isFin) = true → (f.units a + f.units b ≠ 0 → RoundsIn f mode (f.units a + f.units b) 0 r) ∧
      (f.units a + f.units b = 0 → r = (zeroOf f (if a.sign = b.sign then a.sign else decide (mode = 3)), 0))))
/-- r is a · b with one rounding to a's format f; b is of format g. -/
def ProdIs (f : Fmt) (mode : Nat) (g : Fmt) (a b : FV) (r : Nat × Nat) : Prop :=
  ((a.isNan || b.isNan) = true → r = nanResult f [a, b]) ∧
  ((a.isNan || b.isNan) = false →
    ((a.isFin && b.isFin) = false → r = if a.isFin && f.units a == 0 || b.isFin && g.units b == 0 then (nanOf f, flNV) else (infOf f (a.sign != b.sign), 0)) ∧
    ((a.isFin && b.isFin) = true → (f.units a * g.units b ≠ 0 → RoundsIn f mode (f.units a * g.units b) g.unitExp r) ∧
      (f.units a * g.units b = 0 → r = (zeroOf f (a.sign != b.sign), 0))))
/-- r is a · b + c with one rounding. Whether ∞ · 0 with a quiet NaN for c sets NV is open (log entry 38). -/
def FmaIs (f : Fmt) (mode : Nat) (a b c : FV) (r : Nat × Nat) : Prop :=
  let n := a.sign != b.sign
  let bad := (a.isFin != b.isFin) && (a.isFin && f.units a == 0 || b.isFin && f.units b == 0)
  ((a.isNan || b.isNan || c.isNan) = true → r.1 = nanOf f ∧ ((a.isSig || b.isSig || c.isSig) = true → r.2 = flNV) ∧
    ((a.isSig || b.isSig || c.isSig) = false → (a.isNan || b.isNan || !bad) = true → r.2 = 0) ∧ (r.2 = 0 ∨ r.2 = flNV)) ∧
  ((a.isNan || b.isNan || c.isNan) = false →
    ((a.isFin && b.isFin) = false → r = if bad || c == .inf (!n) then (nanOf f, flNV) else (infOf f n, 0)) ∧
    ((a.isFin && b.isFin) = true → c.isFin = false → r = (infOf f c.sign, 0)) ∧
    ((a.isFin && b.isFin && c.isFin) = true →
      let P := f.units a * f.units b + f.units c * (2 ^ f.unitExp : Nat)
      (P ≠ 0 → RoundsIn f mode P f.unitExp r) ∧ (P = 0 → r = (zeroOf f (if n = c.sign then n else decide (mode = 3)), 0))))
/-- r is a value of format g converted to format f (R56). -/
def CvtIs (f : Fmt) (mode : Nat) (g : Fmt) (a : FV) (r : Nat × Nat) : Prop :=
  (a.isNan = true → r = nanResult f [a]) ∧ (∀ n, a = .inf n → r = (infOf f n, 0)) ∧
  (a.isFin = true → (g.units a ≠ 0 → RoundsIn f mode (g.units a * (2 ^ f.unitExp : Nat)) g.unitExp r) ∧ (g.units a = 0 → r = (zeroOf f a.sign, 0)))
/-- r is a value of format g converted to E4M3 (R56): ±448 beyond the largest finite value. -/
def CvtE4M3Is (mode : Nat) (g : Fmt) (a : FV) (r : Nat × Nat) : Prop :=
  let sat := fun n : Bool => (b2n n * 128 + 0x7E, flOF + flNX)
  (a.isNan = true → r = (0x7F, if a.isSig then flNV else 0)) ∧ (∀ n, a = .inf n → r = sat n) ∧
  (a.isFin = true → (g.units a = 0 → r = (zeroOf e4m3 a.sign, 0)) ∧ (g.units a ≠ 0 →
    ∃ inexact tiny large : Bool, RoundsAt e4m3 unpackE4M3 (14 * 2 ^ 14) mode (g.units a * (2 ^ e4m3.unitExp : Nat)) g.unitExp r.1 inexact tiny large ∧
      (large = false → r.2 = roundFlags inexact tiny) ∧ (large = true → r = sat a.sign)))
/-- r is a value of format g converted to an integer of a range (R56). -/
def CvtIntIs (mode : Nat) (lo hi : Int) (g : Fmt) (a : FV) (r : Int × Nat) : Prop :=
  (a.isNan = true → r = (0, flNV)) ∧ (∀ n, a = .inf n → r = (if n then lo else hi, flNV)) ∧
  (a.isFin = true → ∃ v, RoundsTo mode v (g.units a) (2 ^ g.unitExp) ∧ (v < lo → r = (lo, flNV)) ∧ (lo ≤ v → hi < v → r = (hi, flNV)) ∧
    (lo ≤ v → v ≤ hi → r = (v, if v * (2 ^ g.unitExp : Nat) = g.units a then 0 else flNX)))
/-- r is an integer converted to format f (R56). -/
def FromIntIs (f : Fmt) (mode : Nat) (v : Int) (r : Nat × Nat) : Prop :=
  (v = 0 → r = (0, 0)) ∧ (v ≠ 0 → RoundsIn f mode (v * (2 ^ f.unitExp : Nat)) 0 r)
/-- The rank of a pattern for MIN, MAX and `vtopk`: the order of the numbers, with −0 just below +0 (R170, R190). -/
def Fmt.rankKey (f : Fmt) (x : Nat) : Int := if x.testBit (f.p - 1 + f.ew) then -(x % 2 ^ (f.p - 1 + f.ew) : Nat) - 1 else (x % 2 ^ (f.p - 1 + f.ew) : Nat)
/-- The rank of an element: that of its number. -/
def eltRank (t : ETy) (x : Nat) : Int := if t.isF then (etFmt t).rankKey x else etIval t x
/-- r is MIN or MAX of two patterns by that rank; a NaN on either side is the result (R170). -/
def PickIs (f : Fmt) (pick : Int → Int → Int) (a b : Nat) (r : Nat × Nat) : Prop :=
  let x := unpack f a
  let y := unpack f b
  ((x.isNan || y.isNan) = true → r = nanResult f [x, y]) ∧
  ((x.isNan || y.isNan) = false → r.2 = 0 ∧ (r.1 = a ∨ r.1 = b) ∧ f.rankKey r.1 = pick (f.rankKey a) (f.rankKey b))
/-- r is a value rounded to an integral value of its format (R170): no NX, the sign kept. -/
def IntegralIs (f : Fmt) (mode : Nat) (a : FV) (r : Nat × Nat) : Prop :=
  (a.isNan = true → r = nanResult f [a]) ∧ (∀ n, a = .inf n → r = (infOf f n, 0)) ∧
  (a.isFin = true → r.2 = 0 ∧ (unpack f r.1).isFin = true ∧ (unpack f r.1).sign = a.sign ∧
    ∃ v, RoundsTo mode v (f.units a) (2 ^ f.unitExp) ∧ f.units (unpack f r.1) = v * (2 ^ f.unitExp : Nat))
/-- r is element x of type ts converted to type td (R56, R172). -/
def Converted (ts td : ETy) (mode x : Nat) (r : Nat × Nat) : Prop :=
  (ts.isF = true → td.isF = true → CvtIs (etFmt td) mode (etFmt ts) (unpack (etFmt ts) x) r) ∧
  (ts.isF = true → td.isF = false → ∃ v, CvtIntIs mode (etLo td) (etHi td) (etFmt ts) (unpack (etFmt ts) x) (v, r.2) ∧ r.1 = wrapN td.bits v) ∧
  (ts.isF = false → td.isF = true → FromIntIs (etFmt td) mode (etIval ts x) r) ∧
  (ts.isF = false → td.isF = false → r = etNarrow td mode (etIval ts x))

/-! Quantisation (R57, R174). -/

/-- The flags of a quantised block: NX where an element is inexact or clamped, SAT where one is clamped. -/
def quantFlags (inexact clamped : Nat → Bool) : Nat :=
  (if (List.range 16).any fun i => inexact i || clamped i then flNX else 0) + if (List.range 16).any clamped then flSAT else 0
/-- The elements q of w bits are U·scale / D rounded to nearest even and clamped to ±hi. -/
def QuantInts (w : Nat) (hi : Int) (D : Nat) (scale : Int) (U : Nat → Int) (q : List Nat) (fl : Nat) : Prop :=
  ∃ v : Nat → Int, (∀ i, i < 16 → RoundsTo 0 (v i) (U i * scale) D) ∧ q = (List.range 16).map (fun i => wrapN w (max (-hi) (min hi (v i)))) ∧
    fl = quantFlags (fun i => decide (v i * D ≠ U i * scale)) (fun i => decide (hi < (v i).natAbs))
/-- The elements q are U·2^(127−X) rounded to nearest even in a small format, beyond `max` units the largest magnitude `top`. -/
def QuantFloats (f : Fmt) (max top X : Nat) (sign : Nat → Bool) (U : Nat → Int) (q : List Nat) (fl : Nat) : Prop :=
  ∃ inexact clamped : Nat → Bool, fl = quantFlags inexact clamped ∧ q.length = 16 ∧ ∀ i, i < 16 →
    (U i = 0 → q.getD i 0 = zeroOf f (sign i) ∧ inexact i = false ∧ clamped i = false) ∧
    (U i ≠ 0 → (∃ tiny, RoundsAt f (unpackSmall f) max 0 (U i * (2 ^ f.unitExp : Nat)) (22 + X) (q.getD i 0) (inexact i) tiny (clamped i)) ∧
      (clamped i = true → q.getD i 0 = zeroOf f (sign i) + top))
/-- r is QUANT of a block of 16 FP32 patterns in format code c, SCINT4 with per-tensor scale ts: the scale byte, the elements, the flags. The scale of SCINT4 is amax / (7 · ts) rounded at the quantum of its place, in units of 2^-9, and at most 448. -/
def Quantised (c ts : Nat) (xs : List Nat) (r : Nat × List Nat × Nat) : Prop :=
  let el := fun i => unpack f32 (xs.getD i 0)
  let U := fun i => f32.units (el i)
  let fin := (List.range 16).all fun i => (el i).isFin
  let t := (f32.units (unpack f32 ts)).toNat
  let tsOk := (unpack f32 ts).isFin && decide (0 < t)
  let A := (List.range 16).foldl (fun m i => Nat.max m (U i).natAbs) 0
  let zeros := List.replicate 16 0
  let u := (e4m3.units (unpackE4M3 r.1)).toNat
  let q := Nat.log2 (A * 512 / (7 * t)) - 3
  (c = 6 → tsOk = false → r = (0x7F, zeros, flNV)) ∧
  ((c = 6 → tsOk = true) → fin = false →
    r = (if c = 6 then 0x7F else 0xFF, zeros, if (List.range 16).any fun i => !(el i).isFin && (!(el i).isNan || (el i).isSig) then flNV else 0)) ∧
  (fin = true → A = 0 → c ≠ 6 → r = (127, zeros, 0)) ∧
  (fin = true → A ≠ 0 → c ≤ 3 → r.1 = Nat.min 254 (Nat.log2 A - (20 + fmtBits c)) ∧ QuantInts (fmtBits c) (2 ^ (fmtBits c - 1) - 1) (2 ^ (22 + r.1)) 1 U r.2.1 r.2.2) ∧
  (fin = true → A ≠ 0 → c = 7 → r.1 = Nat.min 254 (Nat.log2 A - 24) ∧ QuantFloats e2m1 12 7 r.1 (fun i => (el i).sign) U r.2.1 r.2.2) ∧
  (fin = true → A ≠ 0 → c = 8 → r.1 = Nat.min 254 (Nat.log2 A - 26) ∧ QuantFloats e3m2 448 31 r.1 (fun i => (el i).sign) U r.2.1 r.2.2) ∧
  (fin = true → tsOk = true → c = 6 → r.1 < 127 ∧ (∃ v : Nat, RoundsTo 0 v (A * 512 : Nat) (7 * t * 2 ^ q) ∧ u = Nat.min (v * 2 ^ q) (14 * 2 ^ 14)) ∧
    (u = 0 → r.2 = (zeros, if A = 0 then 0 else flNX)) ∧ (u ≠ 0 → QuantInts 4 7 (u * t) 512 U r.2.1 r.2.2))
/-- r is element q of a block of format code c with that scale byte and per-tensor scale, in FP32: RNE32(q·σ) (R43, R174). -/
def Dequantised (c ts scale q : Nat) (r : Nat × Nat) : Prop :=
  let w := unpackE4M3 scale
  let t := unpack f32 ts
  let a := if c = 7 then unpackSmall e2m1 q else unpackSmall e3m2 q
  let g := if c = 7 then e2m1 else e3m2
  let P := sval 4 q * e4m3.units w * f32.units t
  (c ≠ 6 → scale = 0xFF → r = (nanOf f32, 0)) ∧
  (c ≤ 3 → scale ≠ 0xFF → (sval (fmtBits c) q = 0 → r = (0, 0)) ∧ (sval (fmtBits c) q ≠ 0 → RoundsIn f32 0 (sval (fmtBits c) q * (2 ^ (scale + 22) : Nat)) 0 r)) ∧
  ((c = 7 ∨ c = 8) → scale ≠ 0xFF → (g.units a = 0 → r = (zeroOf f32 a.sign, 0)) ∧ (g.units a ≠ 0 → RoundsIn f32 0 (g.units a * (2 ^ (scale + 22) : Nat)) g.unitExp r)) ∧
  (c = 6 → (w.isNan || !t.isFin) = true → r = (nanOf f32, 0)) ∧
  (c = 6 → (w.isNan || !t.isFin) = false → (P = 0 → r = (0, 0)) ∧ (P ≠ 0 → RoundsIn f32 0 P 9 r))

/-! Lanes of a result (R12, R29, R166). -/

/-- Lane i of e bits. -/
def laneAt (e i x : Nat) : Nat := x / 2 ^ (e * i) % 2 ^ e
/-- The effects write register d in lanes of e bits: lane i becomes `r i`'s value where it gives one and keeps its own else, and the flags are those of the lanes written. -/
def WritesLanes (es : List Eff) (d : BitVec 5) (e : Nat) (r : Nat → Option (Nat × Nat)) : Prop :=
  ∃ (m v : BitVec 1024) (fl : BitVec 6), es = [.vreg d m v, .flags fl] ∧
    (∀ i, i < 1024 / e → (∀ x, r i = some x → laneAt e i m.toNat = 2 ^ e - 1 ∧ laneAt e i v.toNat = x.1 % 2 ^ e) ∧ (r i = none → laneAt e i m.toNat = 0)) ∧
    ∀ b, b < 6 → (fl.getLsbD b = true ↔ ∃ i x, i < 1024 / e ∧ r i = some x ∧ x.2.testBit b = true)

/-- The memory invariant: physical memory is in its canonical form. -/
def State.MemOk (s : State) : Prop := Memory.wf s.mem = true

/-- A safe step: it does not stop. -/
def Steps (s : State) : Prop := ∃ t, step s = .next t

end Sys2Proof.Machine
end

