-- ==== Sys2Proof/Certificates/Slice0/Obligations.lean ====
section
/-! DEFINITION. The statements for the provers. Each docstring names the rules it rests on; a clause that is the model's own choice names its log entry. -/

open Sys2Proof Sys2Proof.Machine

/-! Scalar forms (R117 to R131). -/

/-- R117: the three-register integer forms and the immediate shifts, each as the bits it writes to d. Nothing else changes at issue. R119 to R125: counts, bit fields, selection, address form, immediates, lane-mask halves. -/
def Obligations.ScalarIntegerAndBitForms : Prop :=
  (∀ (s : State) (d a b : BitVec 5) (n : BitVec 6),
      Emits (.add d a b) s [(1, .sreg d (s.rs a + s.rs b))] ∧
      Emits (.sub d a b) s [(1, .sreg d (s.rs a - s.rs b))] ∧
      Emits (.mul d a b) s [(1, .sreg d (s.rs a * s.rs b))] ∧
      Emits (.mulh d a b .ss) s [(1, .sreg d (BitVec.ofInt 64 ((s.rs a).toInt * (s.rs b).toInt / 2 ^ 64)))] ∧
      Emits (.mulh d a b .uu) s [(1, .sreg d (BitVec.ofNat 64 ((s.rs a).toNat * (s.rs b).toNat / 2 ^ 64)))] ∧
      Emits (.mulh d a b .su) s [(1, .sreg d (BitVec.ofInt 64 ((s.rs a).toInt * (s.rs b).toNat / 2 ^ 64)))] ∧
      Emits (.and d a b) s [(1, .sreg d (s.rs a &&& s.rs b))] ∧
      Emits (.or d a b) s [(1, .sreg d (s.rs a ||| s.rs b))] ∧
      Emits (.xor d a b) s [(1, .sreg d (s.rs a ^^^ s.rs b))] ∧
      Emits (.sll d a b) s [(1, .sreg d (s.rs a <<< ((s.rs b).toNat % 64)))] ∧
      Emits (.srl d a b) s [(1, .sreg d (s.rs a >>> ((s.rs b).toNat % 64)))] ∧
      Emits (.sra d a b) s [(1, .sreg d ((s.rs a).sshiftRight ((s.rs b).toNat % 64)))] ∧
      Emits (.slli d a n) s [(1, .sreg d (s.rs a <<< n.toNat))] ∧
      Emits (.srli d a n) s [(1, .sreg d (s.rs a >>> n.toNat))] ∧
      Emits (.srai d a n) s [(1, .sreg d ((s.rs a).sshiftRight n.toNat))] ∧
      Emits (.min d a b false) s [(1, .sreg d (if (s.rs a).toInt ≤ (s.rs b).toInt then s.rs a else s.rs b))] ∧
      Emits (.min d a b true) s [(1, .sreg d (if (s.rs a).toNat ≤ (s.rs b).toNat then s.rs a else s.rs b))] ∧
      Emits (.max d a b false) s [(1, .sreg d (if (s.rs b).toInt ≤ (s.rs a).toInt then s.rs a else s.rs b))] ∧
      Emits (.max d a b true) s [(1, .sreg d (if (s.rs b).toNat ≤ (s.rs a).toNat then s.rs a else s.rs b))]) ∧
  (∀ (s : State) (d a b : BitVec 5),
      (∃ n, Emits (.clz d a) s [(1, .sreg d (BitVec.ofNat 64 n))] ∧ n ≤ 64 ∧ (∀ i, i < n → (s.rs a).getLsbD (63 - i) = false) ∧ (n < 64 → (s.rs a).getLsbD (63 - n) = true)) ∧
      (∃ n, Emits (.ctz d a) s [(1, .sreg d (BitVec.ofNat 64 n))] ∧ n ≤ 64 ∧ (∀ i, i < n → (s.rs a).getLsbD i = false) ∧ (n < 64 → (s.rs a).getLsbD n = true)) ∧
      Emits (.popc d a) s [(1, .sreg d (BitVec.ofNat 64 ((List.range 64).countP fun i => (s.rs a).getLsbD i)))] ∧
      (∀ (l p : BitVec 6), ∃ n, n = Nat.min (l.toNat + 1) (64 - p.toNat) ∧
        Emits (.bext d a l p false) s [(1, .sreg d (BitVec.ofNat 64 ((s.rs a).toNat / 2 ^ p.toNat % 2 ^ n)))] ∧
        Emits (.bext d a l p true) s [(1, .sreg d (sx64 n ((s.rs a).toNat / 2 ^ p.toNat % 2 ^ n)))] ∧
        ∃ v : BitVec 64, Emits (.bins d a l p) s [(1, .sreg d v)] ∧
          ∀ i, i < 64 → v.getLsbD i = if p.toNat ≤ i ∧ i < p.toNat + n then (s.rs a).getLsbD (i - p.toNat) else (s.rs d).getLsbD i) ∧
      (∀ (x : Bool) (n : BitVec 4), Emits (.sel d a b x n) s [(1, .sreg d (if xor (s.rp n) x then s.rs a else s.rs b))]) ∧
      (∀ h : BitVec 3, Emits (.addsh d a b h) s [(1, .sreg d (s.rs a + s.rs b * 2 ^ h.toNat))]) ∧
      (∀ i : BitVec 16, Emits (.addi d a i) s [(1, .sreg d (s.rs a + i.signExtend 64))] ∧
        Emits (.andi d a i) s [(1, .sreg d (s.rs a &&& i.setWidth 64))] ∧ Emits (.ori d a i) s [(1, .sreg d (s.rs a ||| i.setWidth 64))] ∧
        Emits (.xori d a i) s [(1, .sreg d (s.rs a ^^^ i.setWidth 64))] ∧ Emits (.movi d i) s [(1, .sreg d (i.signExtend 64))] ∧
        Emits (.movh d a i) s [(1, .sreg d (s.rs a <<< 16 ||| i.setWidth 64))]) ∧
      (∀ lo hi : BitVec 32, Emits (.lix d false lo hi) s [(1, .sreg d (lo.signExtend 64))] ∧ Emits (.lix d true lo hi) s [(1, .sreg d (hi ++ lo))]) ∧
      (∀ k : BitVec 3, Emits (.kset k a false) s [(1, .kreg k (BitVec.ofNat 128 (2 ^ 64 - 1)) ((s.rs a).setWidth 128))] ∧
        Emits (.kset k a true) s [(1, .kreg k (BitVec.ofNat 128 ((2 ^ 64 - 1) * 2 ^ 64)) ((s.rs a).setWidth 128 <<< 64))] ∧
        Emits (.kget d k false) s [(1, .sreg d ((s.rk k).extractLsb' 0 64))] ∧ Emits (.kget d k true) s [(1, .sreg d ((s.rk k).extractLsb' 64 64))]))

/-- R118: division never traps. By zero the quotient is all ones and the remainder the dividend; −2^63 / −1 gives −2^63 and 0; else the quotient is truncated toward zero and the remainder is a − q·b. -/
def Obligations.DivisionForms : Prop :=
  ∀ (s : State) (d a b : BitVec 5) (u : Bool),
    (s.rs b = 0 → Emits (.div d a b u) s [(1, .sreg d (BitVec.allOnes 64))] ∧ Emits (.rem d a b u) s [(1, .sreg d (s.rs a))]) ∧
    ((s.rs a).toInt = -2 ^ 63 → (s.rs b).toInt = -1 →
      Emits (.div d a b false) s [(1, .sreg d (BitVec.ofInt 64 (-2 ^ 63)))] ∧ Emits (.rem d a b false) s [(1, .sreg d 0)]) ∧
    (s.rs b ≠ 0 → ¬((s.rs a).toInt = -2 ^ 63 ∧ (s.rs b).toInt = -1) →
      ∃ q : Int, q = Int.tdiv (s.rs a).toInt (s.rs b).toInt ∧ Emits (.div d a b false) s [(1, .sreg d (BitVec.ofInt 64 q))] ∧
        Emits (.rem d a b false) s [(1, .sreg d (BitVec.ofInt 64 ((s.rs a).toInt - q * (s.rs b).toInt)))]) ∧
    (s.rs b ≠ 0 → ∃ q : Nat, q = (s.rs a).toNat / (s.rs b).toNat ∧ Emits (.div d a b true) s [(1, .sreg d (BitVec.ofNat 64 q))] ∧
      Emits (.rem d a b true) s [(1, .sreg d (BitVec.ofNat 64 ((s.rs a).toNat - q * (s.rs b).toNat)))])

/-- R129 to R131: the integer compares on registers and on the 10-bit immediate, the floating compare with its flags, predicate logic; `nop` and `idle` do nothing at issue. -/
def Obligations.ComparesAndPredicates : Prop :=
  ∀ (s : State) (p : BitVec 4) (a b : BitVec 5) (i : BitVec 10),
    Emits (.cmpeq p a b) s [(1, .preg p (decide (s.rs a = s.rs b)))] ∧
    Emits (.cmpne p a b) s [(1, .preg p (decide (s.rs a ≠ s.rs b)))] ∧
    Emits (.cmplt p a b) s [(1, .preg p (decide ((s.rs a).toInt < (s.rs b).toInt)))] ∧
    Emits (.cmple p a b) s [(1, .preg p (decide ((s.rs a).toInt ≤ (s.rs b).toInt)))] ∧
    Emits (.cmpltu p a b) s [(1, .preg p (decide ((s.rs a).toNat < (s.rs b).toNat)))] ∧
    Emits (.cmpleu p a b) s [(1, .preg p (decide ((s.rs a).toNat ≤ (s.rs b).toNat)))] ∧
    Emits (.cmpeqImm p a i) s [(1, .preg p (decide ((s.rs a).toInt = i.toInt)))] ∧
    Emits (.cmpneImm p a i) s [(1, .preg p (decide ((s.rs a).toInt ≠ i.toInt)))] ∧
    Emits (.cmpltImm p a i) s [(1, .preg p (decide ((s.rs a).toInt < i.toInt)))] ∧
    Emits (.cmpleImm p a i) s [(1, .preg p (decide ((s.rs a).toInt ≤ i.toInt)))] ∧
    Emits (.cmpltuImm p a i) s [(1, .preg p (decide ((s.rs a).toNat < i.toNat)))] ∧
    Emits (.cmpleuImm p a i) s [(1, .preg p (decide ((s.rs a).toNat ≤ i.toNat)))] ∧
    (∀ (x y : Bool) (m n : BitVec 4),
      Emits (.pand p x m y n) s [(1, .preg p (xor (s.rp m) x && xor (s.rp n) y))] ∧
      Emits (.por p x m y n) s [(1, .preg p (xor (s.rp m) x || xor (s.rp n) y))] ∧
      Emits (.pxor p x m y n) s [(1, .preg p (xor (xor (s.rp m) x) (xor (s.rp n) y)))]) ∧
    (∀ r : BitVec 2, ∃ c nv : Bool, Emits (.fcmp p a b r) s [(1, .preg p c), (1, .flags (if nv then 1#6 else 0#6))] ∧
      let x := unpack f32 (s.rs32 a)
      let y := unpack f32 (s.rs32 b)
      (r = 3 → c = (x.isNan || y.isNan)) ∧ (r ≠ 3 → (x.isNan || y.isNan) = true → c = false) ∧
      (r ≠ 3 → (x.isNan || y.isNan) = false → let m := f32.orderKey (s.rs32 a)
        let n := f32.orderKey (s.rs32 b)
        c = (if r = 0 then decide (m = n) else if r = 1 then decide (m < n) else decide (m ≤ n))) ∧
      (nv = if r = 1 ∨ r = 2 then (x.isNan || y.isNan) else (x.isSig || y.isSig))) ∧
    exec .nop s = .next s ∧ exec .idle s = .next s

/-- R126 to R128: `crrd` returns the register as it reads; `crwr` writes it at the end of the bundle, and to a privileged register takes PRIVILEGE from an unprivileged job; `fadd`, `fmul` and `fcvt` write d and raise their flags together: the sum and the product with one rounding, and each conversion of the table, in the direction of MOD (R53 to R56). -/
def Obligations.ControlAndFloatForms : Prop :=
  ∀ (s : State) (d a b : BitVec 5) (c : BitVec 8) (m : BitVec 2),
    let A := s.rs32 a
    let x := unpack f32 A
    let y := unpack f32 (s.rs32 b)
    let md := m.toNat
    let writes := fun (i : Instr) (v : BitVec 64) (fl : Nat) => Emits i s [(1, .sreg d v), (1, .flags (flagBits fl))]
    let result := fun (i : Instr) (r : Nat × Nat) => writes i (BitVec.ofNat 64 r.1) r.2
    Emits (.crrd d c) s [(1, .sreg d (s.crRead c))] ∧
    ((crPriv c = false ∨ jcbPriv s s.jcb = true) → EmitsEnd (.crwr a c) s [.ctl c (s.rs a)]) ∧
    (crPriv c = true → jcbPriv s s.jcb = false → Raises (.crwr a c) s { cause := cPriv, info0 := 0x1C + 256 * c.toNat }) ∧
    (∃ r, SumIs f32 md x y r ∧ result (.fadd d a b m) r) ∧ (∃ r, ProdIs f32 md f32 x y r ∧ result (.fmul d a b m) r) ∧
    (∃ r, CvtIntIs md (-2 ^ 63) (2 ^ 63 - 1) f32 x r ∧ writes (.fcvt d a 0 m) (BitVec.ofInt 64 r.1) r.2) ∧
    (∃ r, CvtIntIs md 0 (2 ^ 64 - 1) f32 x r ∧ writes (.fcvt d a 1 m) (BitVec.ofInt 64 r.1) r.2) ∧
    (∃ r, FromIntIs f32 md (s.rs a).toInt r ∧ result (.fcvt d a 2 m) r) ∧ (∃ r, FromIntIs f32 md (s.rs a).toNat r ∧ result (.fcvt d a 3 m) r) ∧
    (∃ r, CvtIs bf16 md f32 x r ∧ result (.fcvt d a 4 m) r) ∧ (∃ r, CvtIs f32 0 bf16 (unpack bf16 (A % 2 ^ 16)) r ∧ result (.fcvt d a 5 m) r) ∧
    (∃ r, CvtIs f16 md f32 x r ∧ result (.fcvt d a 6 m) r) ∧ (∃ r, CvtIs f32 0 f16 (unpack f16 (A % 2 ^ 16)) r ∧ result (.fcvt d a 7 m) r)

/-! Branch trees (R79 to R84). -/

/-- R80: the tree is a decision list. The outcome is the first test that is true, in the order TEST0 to TESTnt; it is 4 exactly when none is; a test is true when its predicate, as it stood when the bundle began, differs from its invert bit. -/
def Obligations.TreeOutcome : Prop :=
  ∀ (s : State) (t : Tree),
    let holds := fun i => xor (s.rp ((treeTest t i).setWidth 4)) ((treeTest t i).getLsbD 4) = true
    (s.outcome t = 4 ∨ s.outcome t ≤ t.nt.toNat) ∧
    (s.outcome t = 4 ↔ ∀ i, i ≤ t.nt.toNat → ¬holds i) ∧
    (s.outcome t ≠ 4 → holds (s.outcome t) ∧ ∀ i, i < s.outcome t → ¬holds i)

/-- R81, R83: each tree kind leaves its outcome and its target in the issue buffer: for a jump or a call the bundle address + 4·offset, for an indirect tree the register with bits [1:0] and [63:56] ignored; no target on outcome 4. A call that is taken writes the address of the next sequential bundle to `s31` with latency 1. -/
def Obligations.TreeForms : Prop :=
  ∀ (s : State) (t : Tree),
    let o := s.outcome t
    let dest := some (s.core.ctx.pc + 4 * (treeEntry t o).signExtend 56)
    (o = 4 → exec (.br t) s = .next (s.choose 4 none) ∧ exec (.call t) s = .next (s.choose 4 none) ∧ exec (.brx t) s = .next (s.choose 4 none)) ∧
    (o ≠ 4 → exec (.br t) s = .next (s.choose o dest) ∧
      exec (.call t) s = .next ((s.choose o dest).emit 1 (.sreg 31 ((s.core.ctx.pc + BitVec.ofNat 56 (4 * s.core.iss.len)).setWidth 64))) ∧
      exec (.brx t) s = .next (s.choose o (some ((s.rs ((treeEntry t o).setWidth 5)).setWidth 56 &&& ~~~3#56))))

/-! The load/store slot (R149 to R165). -/

/-- R153, R156 to R161, R149: an off-core scalar form leaves one queue entry with its operands as read at issue; loads, prefetches and `l1inv` one of the load queue, stores one of the store queue, `mark`, `fence` and the atomics one of both. In a stage continuation a store or an atomic takes ACCESS_FAULT, subcode 0x04 (R263). -/
def Obligations.OffCoreScalarForms : Prop :=
  ∀ (s : State) (d a b : BitVec 5) (o : BitVec 16) (o13 : BitVec 13) (o2 : BitVec 2) (sc : Scope) (h u : Bool),
    let ea := fun (x : BitVec 64) => (s.rs a + x).toNat % 2 ^ 56
    let amo := [(s.rs a).toNat % 2 ^ 56, (s.rs b).toNat, (s.rs d).toNat]
    Emits (.ld d a o) s [(1, .queue true false (.ld d a o) [ea (o.signExtend 64 * 8)] 0 0)] ∧
    Emits (.ldacq d a sc o13) s [(1, .queue true false (.ldacq d a sc o13) [ea (o13.signExtend 64 * 8)] 0 0)] ∧
    Emits (.pf h a o) s [(1, .queue true false (.pf h a o) [ea (o.signExtend 64 * 64)] 0 0)] ∧
    Emits (.stld d a o) s [(1, .queue true false (.stld d a o) [ea (o.signExtend 64 * 64)] 0 0)] ∧
    Emits .l1inv s [(1, .queue true false .l1inv [] 0 0)] ∧
    Emits .mark s [(1, .queue true true .mark [] 0 0)] ∧
    Emits (.fence sc o2) s [(1, .queue true true (.fence sc o2) [] 0 0)] ∧
    (s.inStage = false →
      Emits (.st d a o) s [(1, .queue false true (.st d a o) [ea (o.signExtend 64 * 8), (s.rs d).toNat] 0 0)] ∧
      Emits (.strel d a sc o13) s [(1, .queue false true (.strel d a sc o13) [ea (o13.signExtend 64 * 8), (s.rs d).toNat] 0 0)] ∧
      ∀ i ∈ [Instr.amoadd d a b sc o2, .amoand d a b sc o2, .amoor d a b sc o2, .amoxor d a b sc o2, .amomin d a b sc o2 u, .amomax d a b sc o2 u,
          .amoswap d a b sc o2, .amocas d a b sc o2], Emits i s [(1, .queue true true i amo 0 0)]) ∧
    (s.inStage = true →
      ∀ i ∈ [Instr.st d a o, .strel d a sc o13, .amoadd d a b sc o2, .amoand d a b sc o2, .amoor d a b sc o2, .amoxor d a b sc o2, .amomin d a b sc o2 u,
          .amomax d a b sc o2 u, .amoswap d a b sc o2, .amocas d a b sc o2], Raises i s (accessFault 0x04 0 0))

/-- R150 to R152: `stget` reads a stream as it stood and never traps; `stset` and `stadv` change a valid stream with latency 1, and take ACCESS_FAULT on an invalid one (subcode 0x03) and where the modulus they use is zero (subcode 0x01); that ADDR is 0 on an invalid stream and the stream's address else is log entry 10. -/
def Obligations.StreamForms : Prop :=
  ∀ (s : State) (d n a : BitVec 5) (sel : BitVec 3),
    Emits (.stget d n sel) s [(1, .sreg d ((s.rst n).getSel sel.toNat))] ∧
    ((s.rst n).valid = true → (s.rst n).selZero sel.toNat = false → Emits (.stset n a sel) s [(1, .stream n sel.toNat (s.rs a))]) ∧
    ((s.rst n).valid = true → (s.rst n).zeroMod = false → Emits (.stadv n a) s [(1, .adv n ((s.rs a).toNat % 2 ^ 32))]) ∧
    ((s.rst n).valid = false → Raises (.stset n a sel) s (accessFault 0x03 0 n.toNat) ∧ Raises (.stadv n a) s (accessFault 0x03 0 n.toNat)) ∧
    ((s.rst n).valid = true → (s.rst n).selZero sel.toNat = true → Raises (.stset n a sel) s (accessFault 0x01 (s.rst n).addr n.toNat)) ∧
    ((s.rst n).valid = true → (s.rst n).zeroMod = true → Raises (.stadv n a) s (accessFault 0x01 (s.rst n).addr n.toNat))

/-- R142: STEP of a direct stream whose position lies inside its extents advances the walk by n bytes, modulo the whole walk, and ends inside them; it changes nothing of the map but CPOS. STEP of an index stream advances POS0 modulo CEXT and changes nothing else. -/
def Obligations.StreamStep : Prop :=
  ∀ (st : Stream) (n : Nat), st.zeroMod = false →
    (st.idx = false → st.cpos < st.cext → st.posd 0 < st.ext 0 → st.posd 1 < st.ext 1 → st.posd 2 < st.ext 2 →
      Stream.linear (st.step n) = (Stream.linear st + n) % (st.cext * (st.ext 0 * (st.ext 1 * st.ext 2))) ∧
      (st.step n).cpos < st.cext ∧ (st.step n).posd 0 < st.ext 0 ∧ (st.step n).posd 1 < st.ext 1 ∧ (st.step n).posd 2 < st.ext 2 ∧
      ((st.step n).setCpos st.cpos).img = (st.setCpos st.cpos).img ∧ (st.step n).valid = st.valid ∧ (st.step n).lygen = st.lygen) ∧
    (st.idx = true → st.step n = { st with pos0 := BitVec.ofNat 32 ((st.posd 0 + n) % st.cext) })

/-- R162, R163, R167: the LS vector forms on AMEM, where their checks pass: `vld` and `vldb` note the rows they sample in cycle t + 3 and write their unmasked lanes with latency 4; `vst` writes its section, visible to samples from cycle t + 2; each then steps its stream. Through an index stream `vld` notes the element of every unmasked lane, and `vldb` and `vst` take ACCESS_FAULT, subcode 0x04. A failing check raises its trap and nothing else. -/
def Obligations.VectorMemoryForms : Prop :=
  ∀ (s : State) (f : LF), s.core.iss.phase = .issue →
    let st := s.rst f.st
    let wb := f.w.bits / 8
    let e := f.t.bits / 8
    (st.idx = false → st.space = 0 →
      (s.sectTrap f.st .lsRead wb = none → exec (.vld f) s = .next ((s.emit 2 (.calc (.vld f) (s.lfCap f [s.sectRead f.st wb]))).touch f.st wb)) ∧
      (s.sectTrap f.st .lsRead e = none → exec (.vldb f) s = .next ((s.emit 2 (.calc (.vldb f) (s.lfCap f [s.sectRead f.st e]))).touch f.st e)) ∧
      (s.sectTrap f.st .lsWrite wb = none → st.zeroed = false → exec (.vst f) s =
        .next ((s.emit 2 (sectWrite st.diag (st.addrOf 0) wb (lfMask f (s.rk f.k)).toNat (s.rv f.v).toNat)).touch f.st wb)) ∧
      (s.sectTrap f.st .lsWrite wb = none → st.zeroed = true → exec (.vst f) s = .next (s.touch f.st wb))) ∧
    ((st.valid && st.idx) = false → ∀ t, s.sectTrap f.st .lsRead wb = some t → Raises (.vld f) s t) ∧
    (∀ t, s.sectTrap f.st .lsRead e = some t → Raises (.vldb f) s t) ∧ (∀ t, s.sectTrap f.st .lsWrite wb = some t → Raises (.vst f) s t) ∧
    (st.valid = true → st.idx = true →
      (∀ t, s.idxTrap f.st .lsRead e (s.lfLanes f) = some t → Raises (.vld f) s t) ∧
      (s.idxTrap f.st .lsRead e (s.lfLanes f) = none → st.space = 0 → exec (.vld f) s =
        .next ((s.emit 2 (.calc (.vld f) { s.lfCap f ((List.range (lfN f)).map fun j => if (s.rk f.k).getLsbD j then (s.elemAddr st e j).map fun a => { wmem := false, core := s.cid, addr := a, bytes := e } else none)
          with aux := [1] })).touch f.st (lfN f))) ∧
      (s.streamTrap f.st .lsRead = none → Raises (.vldb f) s (accessFault 0x04 st.addr f.st.toNat)) ∧
      (s.streamTrap f.st .lsWrite = none → Raises (.vst f) s (accessFault 0x04 st.addr f.st.toNat))) ∧
    ∀ (c : Cap) (u : State), u.core.iss.phase = .compute c →
      exec (.vld f) u = .next (u.emitDue (c.issued + 3) (.vreg f.v (lfMask f c.k) (BitVec.ofNat 1024
          (if c.reads.length ≤ 1 && c.aux.isEmpty then u.sample c.diag (c.issued + 3) (c.reads.getD 0 none)
           else fromLanes f.t.bits (c.reads.map (u.sampleElem c.diag (c.issued + 3))))))) ∧
      exec (.vldb f) u = .next (u.emitDue (c.issued + 3) (.vreg f.v (lfMask f c.k) (BitVec.ofNat 1024
          (fromLanes f.t.bits (List.replicate (f.w.bits / f.t.bits) (u.sample c.diag (c.issued + 3) (c.reads.getD 0 none)))))))

/-- R163 to R165 on global space: `vld`, `vst` and `vredst` leave a queue entry with the pieces of their section, `vpf` one with the sectors a `vld` would read, judging nothing but VALID and the moduli, the scatter forms one with the addresses of their lanes, with vd and the mask as read at issue; on AMEM a scatter writes its elements lane by lane from cycle t + 2. -/
def Obligations.GlobalVectorForms : Prop :=
  ∀ (s : State) (f : LF), s.core.iss.phase = .issue → s.inStage = false →
    let st := s.rst f.st
    let entry := fun load i args => s.emit 1 (.queue load (!load) i args (s.rv f.v) (s.rk f.k))
    (st.idx = false → st.space = 2 → s.sectTrap f.st .lsRead (f.w.bits / 8) = none →
      exec (.vld f) s = .next ((entry true (.vld f) (s.pieces f)).touch f.st (f.w.bits / 8))) ∧
    (st.idx = false → st.space = 2 → s.sectTrap f.st .lsWrite (f.w.bits / 8) = none →
      exec (.vst f) s = .next ((entry false (.vst f) (s.pieces f)).touch f.st (f.w.bits / 8)) ∧
      exec (.vredst f) s = .next ((entry false (.vredst f) ((s.rs (f.form.extractLsb' 3 5)).toNat :: s.pieces f)).touch f.st (f.w.bits / 8))) ∧
    (st.idx = true → st.valid = true → st.space = 2 → s.idxTrap f.st .lsRead (lfE f) (s.lfLanes f) = none →
      exec (.vld f) s = .next ((entry true (.vld f) (s.laneAddrs f)).touch f.st (lfN f))) ∧
    (st.valid = true → st.zeroMod = false → st.mapBad false = false → st.space = 2 →
      (st.idx = false → exec (.vpf f) s =
        .next ((entry true (.vpf f) ((s.piecesAt f (st.addrAt (st.coord 0) (st.coord 1) (st.coord 2) st.cpos 0)).filter (· ≠ 0))).emit 1 (.step f.st (f.w.bits / 8)))) ∧
      (st.idx = true → exec (.vpf f) s = .next ((entry true (.vpf f) ((s.lfLanes f).filterMap fun j =>
        if (s.idxOwner st [j]).isNone && s.idxIn st j then (s.elemAddr st (lfE f) j).map (· + 1) else none)).emit 1 (.step f.st (lfN f))))) ∧
    (st.valid = true → st.zeroMod = false → st.space ≠ 2 → exec (.vpf f) s = .next (s.emit 1 (.step f.st (if st.idx then lfN f else f.w.bits / 8)))) ∧
    (st.valid = false → Raises (.vpf f) s (accessFault 0x03 0 f.st.toNat)) ∧
    (st.valid = true → st.zeroMod = true → Raises (.vpf f) s (accessFault 0x01 st.addr f.st.toNat)) ∧
    (st.idx = true → st.space = 2 → s.idxTrap f.st .lsWrite (lfE f) (s.lfLanes f) = none →
      ∀ i ∈ [Instr.vscat f, .vscadd f, .vscmax f], exec i s = .next ((entry false i (s.laneAddrs f)).touch f.st (lfN f))) ∧
    (st.idx = true → st.space = 0 → s.idxTrap f.st .lsWrite (lfE f) (s.lfLanes f) = none →
      ∀ p ∈ [(0, Instr.vscat f), (1, .vscadd f), (2, .vscmax f)], exec p.2 s =
        .next ((s.emitAll (s.now + 1) (scatLanes p.1 f.t st.diag s.now (toLanes f.t.bits (lfN f) (s.rv f.v).toNat) 0 (s.laneAddrs f) s.core)).touch f.st (lfN f)))

/-! Vector forms (R166 to R191). -/

/-- R169, R170, R54: the arithmetic, logic and shift forms: each lane of the form's width and type under the element operation, vd written under the mask, the flags of the written lanes with it. -/
def Obligations.VectorArithmeticForms : Prop :=
  ∀ f : VF,
    VectorForm f (.vadd f) 2 (fun c => map3 f c fun a b _ => eltAdd f.t f.md.toNat a b) ∧
    VectorForm f (.vsub f) 2 (fun c => map3 f c fun a b _ => eltSub f.t f.md.toNat a b) ∧
    VectorForm f (.vmul f) 4 (fun c => map3 f c fun a b _ => eltMul f.t f.md.toNat a b) ∧
    VectorForm f (.vfma f) 4 (fun c => map3 f c fun a b d => eltFma f.t f.md.toNat a b d) ∧
    VectorForm f (.vfms f) 4 (fun c => map3 f c fun a b d => eltFms f.t f.md.toNat a b d) ∧
    VectorForm f (.vfnma f) 4 (fun c => map3 f c fun a b d => eltFnma f.t f.md.toNat a b d) ∧
    VectorForm f (.vmulh f) 4 (fun c => map2 f c fun a b => wrapN f.t.bits (etIval f.t a * etIval f.t b / (2 ^ f.t.bits : Nat))) ∧
    VectorForm f (.vmin f) 2 (fun c => map3 f c fun a b _ => eltMin f.t a b) ∧
    VectorForm f (.vmax f) 2 (fun c => map3 f c fun a b _ => eltMax f.t a b) ∧
    VectorForm f (.vabs f) 2 (fun c => map1 f c fun a => eltAbs f.t f.md.toNat a) ∧
    VectorForm f (.vneg f) 2 (fun c => map1 f c fun a => eltNeg f.t f.md.toNat a) ∧
    VectorForm f (.vclamp f) 2 (fun c => map3 f c fun a b d => eltClamp f.t a b d) ∧
    VectorForm f (.vrnd f) 2 (fun c => map1 f c fun a => rndF (etFmt f.t) f.md.toNat a) ∧
    VectorForm f (.vand f) 2 (fun c => map2 f c fun a b => a &&& b) ∧
    VectorForm f (.vor f) 2 (fun c => map2 f c fun a b => a ||| b) ∧
    VectorForm f (.vxor f) 2 (fun c => map2 f c fun a b => a ^^^ b) ∧
    VectorForm f (.vnot f) 2 (fun c => [putLanes f c.k ((lanesV f c.a).map fun a => 2 ^ f.t.bits - 1 - a)]) ∧
    VectorForm f (.vsll f) 2 (fun c => map2 f c fun a b => a * 2 ^ (b % f.t.bits) % 2 ^ f.t.bits) ∧
    VectorForm f (.vsrl f) 2 (fun c => map2 f c fun a b => a / 2 ^ (b % f.t.bits)) ∧
    VectorForm f (.vsra f) 2 (fun c => map2 f c fun a b => wrapN f.t.bits (etIval f.t a / (2 ^ (b % f.t.bits) : Nat)))

/-- R171, R176: compares into a lane mask, class, select, moves, broadcasts, lane insert and extract, and the permutations. -/
def Obligations.VectorMoveForms : Prop :=
  ∀ f : VF,
    VectorForm f (.vcmpeq f) 2 (fun c => compare 0 f c) ∧
    VectorForm f (.vcmpne f) 2 (fun c => compare 1 f c) ∧
    VectorForm f (.vcmplt f) 2 (fun c => compare 2 f c) ∧
    VectorForm f (.vcmple f) 2 (fun c => compare 3 f c) ∧
    VectorForm f (.vclass f) 2 (fun c => [putLanes f c.k ((lanesV f c.a).map (eltClass f.t))]) ∧
    VectorForm f (.vsel f) 2 (fun c =>
      let m := List.zipIdx (List.zip (lanesV f c.a) (lanesV f c.b))
      [putLanes f (BitVec.allOnes 128) (m.map fun x => if c.k.getLsbD x.2 then x.1.1 else x.1.2)]) ∧
    VectorForm f (.vmov f) 2 (fun c => [putLanes f c.k (lanesV f c.b)]) ∧
    VectorForm f (.vbcast f) 2 (fun c => [putLanes f c.k (List.replicate (lanesIn f.w f.t) (c.sa.toNat % 2 ^ f.t.bits))]) ∧
    VectorForm f (.vins f) 2 (fun c =>
      let n := lanesIn f.w f.t
      let l := c.sb.toNat % n
      [putLanes f (c.k &&& BitVec.ofNat 128 (2 ^ l)) (List.replicate n (c.sa.toNat % 2 ^ f.t.bits))]) ∧
    VectorForm f (.vext f) 2 (fun c =>
      let n := lanesIn f.w f.t
      [putLanes f c.k (List.replicate n ((lanesV f c.a).getD (c.sb.toNat % n) 0))]) ∧
    VectorForm f (.vshuf f) 2 (fun c =>
      let a := lanesV f c.a
      [putLanes f c.k ((lanesV f c.b).map fun b => a.getD (b % a.length) 0)]) ∧
    VectorForm f (.vzip f) 2 (fun c =>
      let a := lanesV f c.a
      let b := lanesV f c.b
      let h := b2n (f.md.getLsbD 0) * (a.length / 2)
      [putLanes f c.k ((List.range a.length).map fun i => if i % 2 = 0 then a.getD (i / 2 + h) 0 else b.getD (i / 2 + h) 0)]) ∧
    VectorForm f (.vuzp f) 2 (fun c =>
      let q := lanesV f c.a ++ lanesV f c.b
      [putLanes f c.k ((List.range (lanesIn f.w f.t)).map fun i => q.getD (2 * i + b2n (f.md.getLsbD 0)) 0)]) ∧
    VectorForm f (.vrev f) 2 (fun c => [putLanes f c.k (lanesV f c.a).reverse]) ∧
    VectorForm f (.vslide f) 2 (fun c =>
      let a := lanesV f c.a
      [putLanes f c.k ((List.range a.length).map fun (i : Nat) =>
        let j : Int := i + c.sb.toInt
        if 0 ≤ j ∧ j < a.length then a.getD j.toNat 0 else 0)])

/-- R172 to R175, R181, R190, R191: conversions, quantisation, packing, the special functions (latency 8), `vtopk` and `vtemp`: when each samples, traps and lands. What they compute is LaneConversions. -/
def Obligations.VectorConversionForms : Prop :=
  ∀ f : VF,
    VectorForm f (.vcvt f) 2 (fun c => vcvtGo f c) ∧
    VectorForm f (.vcvt8 f) 2 (fun c => vcvt8Go f c) ∧
    VectorForm f (.vquant f) 4 (fun c => vquantGo f c) ∧
    VectorForm f (.vdequant f) 4 (fun c => vdequantGo f c) ∧
    VectorForm f (.vpack f) 2 (fun c => vpackGo f c) ∧
    VectorForm f (.vunpk f) 2 (fun c => vunpkGo f c) ∧
    VectorForm f (.vexp2 f) 8 (fun c => map1 f c (eltSpecial exp2 f.t)) ∧
    VectorForm f (.vlog2 f) 8 (fun c => map1 f c (eltSpecial log2f f.t)) ∧
    VectorForm f (.vrcp f) 8 (fun c => map1 f c (eltSpecial recip f.t)) ∧
    VectorForm f (.vrsqrt f) 8 (fun c => map1 f c (eltSpecial rsqrt f.t)) ∧
    VectorForm f (.vsin f) 8 (fun c => map1 f c (eltSpecial sinf f.t)) ∧
    VectorForm f (.vcos f) 8 (fun c => map1 f c (eltSpecial cosf f.t)) ∧
    VectorForm f (.vtanh f) 8 (fun c => map1 f c (eltSpecial tanhf f.t)) ∧
    VectorForm f (.vtopk f) 8 (fun c => [.kreg (f.d.setWidth 3) (BitVec.allOnes 128) (BitVec.ofNat 128 ((topk f c).map fun i => 2 ^ i).sum)]) ∧
    VectorForm f (.vtemp f) 4 (fun c => map1 f c (vtempLane f.t f.md.toNat (c.sb.toNat % 2 ^ 32)))

/-- R177 to R179: `vgath` notes the element of every unmasked lane and writes them with latency 4; `vrotm` composes a misaligned section of two rows: its bytes stand from the misalignment on in the two sections laid end to end; `vpark` writes its register to the park row of PARKMAP and `vunpark` lands the half row of its register where it is parked, else does nothing. That vparks already on their way count for PARKMAP (`parkIssued`) is log entry 45. -/
def Obligations.VectorGatherAndParkForms : Prop :=
  ∀ (s : State) (f : VF),
    let wb := f.w.bits / 8
    let e := f.t.bits / 8
    let lanes := lanesOf (s.rk f.k) (lanesIn f.w f.t)
    let a1 := (sectionOf ((s.rst f.b).addrOf 0) wb + wb) % 2 ^ 21
    let park := fun (amem : Bool) (base : Nat) =>
      let row := base + f.a.toNat / 2
      let m := BitVec.ofNat 2048 ((2 ^ 1024 - 1) * 2 ^ (1024 * (f.a.toNat % 2)))
      let v := BitVec.ofNat 2048 ((s.rv f.a).toNat * 2 ^ (1024 * (f.a.toNat % 2)))
      exec (.vpark f) s = .next ((s.emit 2 (if amem then .amem row m v else .acc row m v)).emit 2 (.parkSet amem (BitVec.ofNat 13 base) f.a))
    (s.core.iss.phase = .issue → s.idxTrap f.b .vec e lanes = none → exec (.vgath f) s =
      .next ((s.emit 2 (.calc (.vgath f) { s.capture f with
        reads := (List.range (lanesIn f.w f.t)).map fun j => if (s.rk f.k).getLsbD j then (s.elemAddr (s.rst f.b) e j).map fun a => { wmem := false, core := s.cid, addr := a, bytes := e } else none,
        diag := (s.rst f.b).diag })).touch f.b (lanesIn f.w f.t))) ∧
    (∀ c, s.core.iss.phase = .compute c →
      exec (.vgath f) s = .next (s.emitDue (c.issued + 3) (putLanes f c.k (c.reads.map (s.sampleElem c.diag (c.issued + 3)))))) ∧
    (s.core.iss.phase = .issue → s.sectTrap f.b .vec wb = none → (s.rst f.b).zeroed = false → s.ownerTrap s.cid false a1 false false = none → exec (.vrotm f) s =
      .next ((s.emit 2 (.calc (.vrotm f) { s.capture f with
        reads := [s.sectRead f.b wb, (s.sectRead f.b wb).map fun r => { r with addr := a1 }], diag := (s.rst f.b).diag, aux := [(s.rst f.b).addrOf 0 % wb] })).touch f.b wb)) ∧
    (∀ c, s.core.iss.phase = .compute c →
      let pair := s.sample c.diag (c.issued + 3) (c.reads.getD 0 none) + 2 ^ (8 * wb) * s.sample c.diag (c.issued + 3) (c.reads.getD 1 none)
      exec (.vrotm f) s = .next (s.emitDue (c.issued + 3) (putLanes f c.k ((List.range (lanesIn f.w f.t)).map fun i => laneAt f.t.bits i (pair / 2 ^ (8 * c.aux.getD 0 0)))))) ∧
    (∀ c, s.core.iss.phase = .compute c →
      let row := c.aux.getD 1 0
      exec (.vunpark f) s = .next (s.emitDue (c.issued + 3) (.vreg f.d (BitVec.allOnes 1024)
        ((if c.aux.getD 0 0 = 1 then s.arow false row else s.racc row).extractLsb' (1024 * (f.d.toNat % 2)) 1024)))) ∧
    (s.parkIssued.regs ≠ 0 → s.parkTrap s.parkIssued.amem (s.parkIssued.base.toNat + f.a.toNat / 2) = none → park s.parkIssued.amem s.parkIssued.base.toNat) ∧
    (s.parkIssued.regs = 0 → (s.rs f.b).toNat ≤ (if f.md.getLsbD 0 then 8176 else 2032) → s.parkTrap (f.md.getLsbD 0) ((s.rs f.b).toNat + f.a.toNat / 2) = none →
      park (f.md.getLsbD 0) (s.rs f.b).toNat) ∧
    (s.core.iss.phase = .issue → s.ctl.park.regs.getLsbD f.d.toNat = false → exec (.vunpark f) s = .next s) ∧
    (s.core.iss.phase = .issue → s.ctl.park.regs.getLsbD f.d.toNat = true → s.parkTrap s.ctl.park.amem (s.ctl.park.base.toNat + f.d.toNat / 2) = none →
      exec (.vunpark f) s = .next ((s.emit 4 (.calc (.vunpark f) { s.capture f with aux := [b2n s.ctl.park.amem, s.ctl.park.base.toNat + f.d.toNat / 2] })).emit 2 (.parkClear f.d)))

/-- R184 to R189: `vqraw`, `vunif` and `vnorm` write the words that Quill gives at the counter, or their images, under the mask, and advance the counter by one call for four words at the end of the issue cycle; `vcat` draws the same way, of a register or a stream, and continues or begins the chain of its slot: over its lanes in order it keeps the best score, each an unmasked number's logit with its Gumbel noise, where that is above the best so far, and counts its lanes; NV is set for an unmasked NaN. -/
def Obligations.SamplingForms : Prop :=
  ∀ (s : State) (f : VF),
    let n := lanesIn f.w f.t
    let words := quillWords s.ctl.qkey0.toNat s.ctl.qkey1.toNat (s.qctr % 2 ^ 128) n
    let calls := (n + 3) / 4
    (∀ p ∈ [(Instr.vqraw f, 4, id), (.vunif f, 4, unif), (.vnorm f, 8, vnormWord)],
      exec p.1 s = .next ((s.emitDue (s.now + p.2.1 - 1) (putLanes f (s.rk f.k) (words.map p.2.2))).emit 1 (.qctr calls))) ∧
    (s.core.iss.phase = .issue → f.sb = false →
      let cap := fun linked => { s.capture f with words := words.map (BitVec.ofNat 32), aux := [b2n linked] }
      ((∃ v, s.core.ctx.chain s.core.iss.slot = some v ∧ v.vd = f.d) →
        exec (.vcat f) s = .next ((s.emit 2 (.calc (.vcat f) (cap true))).emit 1 (.qctr calls))) ∧
      ((∀ v, s.core.ctx.chain s.core.iss.slot = some v → v.vd ≠ f.d) →
        exec (.vcat f) s = .next (((s.emit 2 (.calc (.vcat f) (cap false))).emit 1 (.vcat s.core.iss.slot (some (vcatOf f.d (s.rv f.d))))).emit 1 (.qctr calls)))) ∧
    (s.core.iss.phase = .issue → f.sb = true →
      let wb := f.w.bits / 8
      let cap := fun linked => { s.capture f with words := words.map (BitVec.ofNat 32), aux := [b2n linked], reads := [s.sectRead f.b wb], diag := (s.rst f.b).diag }
      (∀ t, s.sectTrap f.b .vec wb = some t → Raises (.vcat f) s t) ∧
      (s.sectTrap f.b .vec wb = none →
        ((∃ v, s.core.ctx.chain s.core.iss.slot = some v ∧ v.vd = f.d) →
          exec (.vcat f) s = .next (((s.emit 2 (.calc (.vcat f) (cap true))).emit 1 (.qctr calls)).touch f.b wb)) ∧
        ((∀ v, s.core.ctx.chain s.core.iss.slot = some v → v.vd ≠ f.d) →
          exec (.vcat f) s = .next ((((s.emit 2 (.calc (.vcat f) (cap false))).emit 1 (.vcat s.core.iss.slot (some (vcatOf f.d (s.rv f.d))))).emit 1 (.qctr calls)).touch f.b wb)))) ∧
    (∀ c, s.core.iss.phase = .compute c → c.words.length = n →
      let b := if f.sb then s.sample c.diag (c.issued + 3) (c.reads.getD 0 none) else c.b.toNat
      let first := if c.aux.getD 0 0 = 1 then (s.core.ctx.chain c.slot).getD (vcatOf f.d c.d) else vcatOf f.d c.d
      let logit := fun j => laneAt 32 j b
      let noise := fun j => neg32 (mul32 (log2f (neg32 (mul32 (log2f (unif (c.words.getD j 0).toNat)).1 ln2))).1 ln2)
      ∃ best : Nat → BitVec 32 × BitVec 32, best 0 = (first.bs, first.bi) ∧
        (∀ j, j < n →
          let sc := add32 (logit j) (noise j)
          let takes := c.k.getLsbD j && !(unpack f32 (logit j)).isNan && lt32 (best j).1.toNat sc
          best (j + 1) = if takes then (BitVec.ofNat 32 sc, first.nb + BitVec.ofNat 32 j) else best j) ∧
        let nb := first.nb + BitVec.ofNat 32 n
        let nv := (List.range n).any fun j => c.k.getLsbD j && (unpack f32 (logit j)).isNan
        exec (.vcat f) s = .next (((s.emitDue s.now (.vcatNext c.slot { first with bs := (best n).1, bi := (best n).2, nb := nb })).emitDue (c.issued + 7)
          (.vreg f.d (BitVec.ofNat 1024 (2 ^ 96 - 1)) ((nb ++ ((best n).2 ++ (best n).1)).setWidth 1024))).emitDue (c.issued + 7) (.flags (if nv then flagBits flNV else 0))))

/-! Reduction and accumulator port (R182, R183, R217 to R219). -/

/-- R182, R183: `rsum`, `rmax`, `rmin` and `rsumsq` of a register add their group values to the latch 10 cycles after issue; `rmov` writes the eight values of the latch with latency 2, and with `.clr` clears it at the end of the issue cycle, as `rclr` does. R217, R218: the half-row and row forms of the accumulator port land at the end of cycle t + 1 and leave the next half row or row in the standing operation. R219: a port store whose checks pass writes its converted row at the end of cycle t + 3 with its flags, steps its stream and leaves the next row in the standing operation; `accqst` writes its block scales too. Under BOUNDS ZERO an access out of range writes nothing, and the histogram counts nothing (log entry 56). -/
def Obligations.ReductionAndPortForms : Prop :=
  (∀ (s : State) (f : RF),
    (∀ p ∈ [(Instr.rsum f, 0, false), (.rmax f, 1, false), (.rmin f, 2, false), (.rsumsq f, 0, true)],
      (s.core.iss.phase = .issue → f.sa = false → exec p.1 s = .next (s.emitAll (s.now + 9) (redGo f p.2.1 p.2.2 .f32 (s.rk f.k) (s.rv f.va).toNat))) ∧
      (s.core.iss.phase = .issue → f.sa = true → s.sectTrap f.va .vec (f.w.bits / 8) = none → (redTy (s.rst f.va).fmt).isSome = true → exec p.1 s =
        .next ((s.emit 2 (.calc p.1 { s.cap0 with k := s.rk f.k, reads := [s.sectRead f.va (f.w.bits / 8)], diag := (s.rst f.va).diag, aux := [(s.rst f.va).fmt] })).touch f.va (f.w.bits / 8)))) ∧
    (let v := Eff.vreg f.va (BitVec.ofNat 1024 (laneMask 32 8 (s.rk f.k).toNat)) ((s.rq f.latch).setWidth 1024)
     (f.mode ≠ 1 → Emits (.rmov f) s [(2, v)]) ∧ (f.mode = 1 → Emits (.rmov f) s [(2, v), (1, .latchClear f.latch)])) ∧
    Emits (.rclr f) s [(1, .latchClear f.latch)]) ∧
  (∀ (s : State) (f : AF),
      let half := bits (s.racc (accRow f.bank f.mods.toNat)).toNat (if f.x.getLsbD 0 then 1024 else 0) 1024
      let sums := List.zipWith (addF f32 0) (toLanes 32 32 half) (toLanes 32 32 (s.rv f.vreg).toNat)
      let v := toLanes 32 32 (s.rv f.vreg).toNat
      let prods := List.zipWith (mulF f32 0) (toLanes 32 64 (s.racc (accRow f.bank f.mods.toNat)).toNat) (v ++ v)
      let row := fun x => Eff.acc (accRow f.bank f.mods.toNat) (BitVec.allOnes 2048) x
      exec (.accld f) s = .next ((s.emit 2 (.vreg f.vreg (BitVec.allOnes 1024) (BitVec.ofNat 1024 half))).nextHalf f .accld) ∧
      exec (.accwr f) s = .next ((s.emit 2 (halfWrite f (s.rv f.vreg).toNat)).nextHalf f .accwr) ∧
      exec (.accadd f) s = .next (((s.emit 2 (halfWrite f (fromLanes 32 (sums.map Prod.fst)))).emit 2 (.flags (flagBits (laneRes sums).2))).nextHalf f .accadd) ∧
      exec (.accclr f) s = .next ((s.emit 2 (row 0)).nextRow f .accclr) ∧
      exec (.accmv f) s = .next ((s.emit 2 (.acc (accRow (f.stream.setWidth 4) f.mods.toNat) (BitVec.allOnes 2048) (s.racc (accRow f.bank f.mods.toNat)))).nextRow f .accmv) ∧
      exec (.accscl f) s = .next (((s.emit 2 (row (BitVec.ofNat 2048 (fromLanes 32 (prods.map Prod.fst))))).emit 2 (.flags (flagBits (laneRes prods).2))).nextRow f .accscl)) ∧
  (∀ (s : State) (f : AF),
      let st := s.rst f.stream
      let n := 8 * fmtBits st.fmt
      let o := s.portRow f
      let hist := if f.hist then [Eff.hist st.hrow (histCounts st.hbase o)] else []
      let q := (blocksOf 4 o).map fun b => quant b st.fmt st.tscale
      (s.portTrap f (fun c => [9, 10, 11, 12, 13].contains c) = none →
        let r := laneRes (o.map (portCvt st.fmt))
        exec (.accst f) s = .next (((s.emitAll (s.now + 3)
          ((if st.zeroed then [] else elemEffs st.diag (st.addrOf 0 / 16 * 16) n (fromLanes (fmtBits st.fmt) r.1) ++ hist) ++ [.flags (flagBits r.2)])).touch f.stream n).nextRow f .accst)) ∧
      (s.portTrap f fmtScaled = none → exec (.accqst f) s = .next (((s.emitAll (s.now + 3)
          ((if st.zeroed then [] else elemEffs st.diag (st.addrOf 0 / 16 * 16) n (fromLanes (fmtBits st.fmt) (q.map fun r => r.2.1).flatten) ++
            ((List.zipIdx q).flatMap fun p => elemEffs false (st.portScale p.2) 1 p.1.1) ++ hist) ++ [.flags (flagBits (q.foldl (fun a r => orF a r.2.2) 0))])).touch f.stream n).nextRow f .accqst)) ∧
      (∀ t, s.portTrap f (fun c => [9, 10, 11, 12, 13].contains c) = some t → Raises (.accst f) s t) ∧
      (∀ t, s.portTrap f fmtScaled = some t → Raises (.accqst f) s t))

/-! The matrix slot (R194 to R216). -/

/-- R206, R210: a tile load or a stream product whose checks pass notes its streams, occupies the matrix unit for its cost, steps the streams; the loads claim their granules first. R206: `mld` lands the 64 rows as its dense body, `mldu` and `mldv` the first LIMIT rows as their factor, beside the other factor of a body of that rank or one of zeros. R210, R278: the product is formed from the tiles as cycle t + 3 samples them and lands 11 cycles after its cost; a cluster-remote tile that is not in state L in that cycle raises its trap, and no result (log entry 41). -/
def Obligations.MatrixStreamForms : Prop :=
  ∀ (s : State) (f : MF), s.core.iss.phase = .issue →
    let ta := f.mods.getLsbD 0
    let tb := f.mods.getLsbD 1
    let na := f.ma.setWidth 5
    let nb := f.mb.setWidth 5
    let limit := (s.rm f.md).limit.toNat
    (∀ p ∈ [(Instr.mld f, 64, 32), (.mldu f, if ta then 64 else limit, limit), (.mldv f, if ta then 64 else limit, limit)],
      s.tileTrap na false ta p.2.1 = none → s.mrfTrap f.md p.2.2 = none →
        let cost := Nat.max 1 (feed false (p.2.1 * rowBytes (s.rst na).fmt) + transTime ta (s.rst na).diag)
        exec p.1 s = .next (((s.emit 2 (.calc p.1 { s.cap0 with streams := [s.rst na], ma := (s.rm f.md).body, aux := [cost, p.2.1, limit] })).emit 1
          (.mxBusy (s.now + cost))).touch na (p.2.1 * rowBytes (s.rst na).fmt))) ∧
    (∀ (u : State) (c : Cap) (st : Stream) (l : List Stream), u.core.iss.phase = .compute c → c.streams = st :: l →
      let rows := ((u.tile st (c.aux.getD 1 0) (c.issued + 3) ta).map rowValues).map rowBv
      let L := c.aux.getD 2 0
      let zero := List.replicate L (0 : BitVec 2048)
      let lands := fun i b => exec i u = .next (u.emitDue (c.issued + c.aux.getD 0 0 + 11) (.mreg f.md b))
      lands (.mld f) (.dense rows) ∧
      (∀ p q, c.ma = .factored p q → p.length = L → lands (.mldu f) (.factored (rows.take L) q) ∧ lands (.mldv f) (.factored p (rows.take L))) ∧
      ((∀ p q, c.ma = .factored p q → p.length ≠ L) → lands (.mldu f) (.factored (rows.take L) zero) ∧ lands (.mldv f) (.factored zero (rows.take L)))) ∧
    (∀ p ∈ [(Instr.mmacs f, Instr.mmacs, false), (.mmacr f, .mmacr, true), (.mmacm f, .mmacm, true)],
      s.tileTrap na p.2.2 ta 64 = none → s.tileTrap nb p.2.2 tb 64 = none →
        let sa := s.rst na
        let sb := s.rst nb
        let ba := 64 * rowBytes sa.fmt
        let bb := 64 * rowBytes sb.fmt
        let cost := Nat.max 1 (Nat.max (ceilDiv 262144 (macLanes sa.fmt sb.fmt)) (Nat.max (feed sa.remote ba) (feed sb.remote bb)) + transTime ta sa.diag + transTime tb sb.diag)
        exec p.1 s = .next (((((s.emit (if sa.remote || sb.remote then 4 else 2) (.calc p.1 { s.cap0 with streams := [sa, sb], aux := [cost] })).emit 1
          (.mxBusy (s.now + cost))).touch na ba).touch nb bb).clearZ f p.2.1)) ∧
    (∀ p ∈ [Instr.mmacs f, .mmacr f, .mmacm f], ∀ (u : State) (c : Cap) (sa sb : Stream) (l : List Stream), u.core.iss.phase = .compute c → c.streams = sa :: sb :: l →
      (u.remoteTrap sa 64 = none → u.remoteTrap sb 64 = none → exec p u = .next (u.emitDue (c.issued + c.aux.getD 0 0 + 11) (.accBlocks (2 * f.bank.toNat + b2n (f.mods.getLsbD 4)) (f.mods.getLsbD 3)
        ((u.tile sa 64 (c.issued + 3) ta).map fun r => (u.tile sb 64 (c.issued + 3) tb).map fun q => (blockVals r q).map (BitVec.ofNat 32)).flatten))) ∧
      (∀ t, u.remoteTrap sa 64 = some t → Raises p u t))

/-- R196, R211 to R215: the forms that write a matrix register from registers: the result, the cost, the rank rule, the occupancy; `mmov` of a register to itself only occupies the unit. What an empty register gives (log entries 47, 94) and that results in flight count in MRF_FULL (log entry 31) are deduced. -/
def Obligations.MatrixRegisterForms : Prop :=
  ∀ (s : State) (f : MF),
    let a := (s.rm f.ma).body
    let b := (s.rm f.mb).body
    let sc := fun (r : BitVec 2048) => rowBv ((rowList r).map (scale32 f.mods.toInt))
    let rank := recompRank a
    let limit := (s.rm f.md).limit.toNat
    (f.md = f.ma → exec (.mmov f) s = .next (s.emit 1 (.mxBusy (s.now + Nat.max 1 ((a.granules + 7) / 8))))) ∧
    (f.md ≠ f.ma → MatrixResult s (.mmov f) f.md a (ceilDiv · 8) none) ∧
    MatrixResult s (.mmul f) f.md (bodyOf (prodM f.fmt.toNat (matOf a) (matOf b))) (fun _ => ceilDiv (macs a b) (macLanes f.fmt.toNat f.fmt.toNat)) none ∧
    MatrixResult s (.madd f) f.md (bodyOf (sumM false (matOf a) (matOf b))) (sumCost a b) none ∧
    MatrixResult s (.msub f) f.md (bodyOf (sumM true (matOf a) (matOf b))) (sumCost a b) none ∧
    (∀ r, r = (match a with
        | .empty => MBody.empty
        | .dense rows => .dense (rows.map sc)
        | .factored u v => .factored (u.map sc) v) → MatrixResult s (.mscale f) f.md r (fun _ => oneCost a) none) ∧
    (∀ r, r = (match a with
        | .empty => MBody.empty
        | .dense rows => .dense ((transposeL (rows.map rowList) 64).map rowBv)
        | .factored u v => .factored v u) → MatrixResult s (.mtr f) f.md r (fun _ => oneCost a) none) ∧
    MatrixResult s (.recomp f) f.md (recompM s.ctl.tol.toNat s.ctl.tolmode limit a) (fun _ => 8 * rank * rank + 48 * rank + 32) (some (Nat.min rank limit)) ∧
    MatrixResult s (.densify f) f.md (bodyOf (.dense (densifyM (matOf a)))) (fun _ => 16 + 8 * rankOf a) none

/-- R207 to R209, R214: the forms between matrix registers and ACC, `mctl` and `mfree`: each lands (R195) with the cost of its entry (R216); `macrd` claims a dense body's granules and takes MRF_FULL where they do not fit (R16, R196), results in flight counted (log entry 31). -/
def Obligations.MatrixAccForms : Prop :=
  ∀ (s : State) (f : MF) (d : BitVec 4) (l : BitVec 7) (x : Bool),
    let a := (s.rm f.ma).body
    let b := (s.rm f.mb).body
    let tile := 2 * f.bank.toNat + b2n (f.mods.getLsbD 4)
    let dense := (densifyM (matOf a)).map rowBv
    let z := f.mods.getLsbD 3
    let F := f.fmt.toNat
    exec (.mst f) s = .next (s.mxLand (16 + 8 * rankOf a) (.accRows tile dense)) ∧
    exec (.mstu f) s = .next (s.mxLand (ceilDiv (factRowsOf true a).length 4) (.accRows tile (factRowsOf true a))) ∧
    exec (.mstv f) s = .next (s.mxLand (ceilDiv (factRowsOf false a).length 4) (.accRows tile (factRowsOf false a))) ∧
    (∀ p q, matOf a = .dense p → matOf b = .dense q → exec (.mmac f) s =
      .next ((s.mxLand (ceilDiv (macs a b) (macLanes F F)) (.accBlocks tile z
        (p.map fun r => ((transposeL q 64).map (convBlocks F)).map fun c => (blockVals (convBlocks F r) c).map (BitVec.ofNat 32)).flatten)).clearZ f .mmac)) ∧
    ((isFact a = true ∨ isFact b = true) → exec (.mmac f) s =
      .next ((s.mxLand (ceilDiv (macs a b) (macLanes F F) + 8 * rankOf (bodyOf (prodM F (matOf a) (matOf b)))) (.accAdd tile z ((densifyM (prodM F (matOf a) (matOf b))).map rowBv))).clearZ f .mmac)) ∧
    (s.mrfTrap f.md 32 = none → exec (.macrd f) s = .next (s.mxLand 16 (.mregAcc f.md tile))) ∧
    (∀ t, s.mrfTrap f.md 32 = some t → Raises (.macrd f) s t) ∧
    exec (.macwr f) s = .next (s.mxLand (16 + 8 * rankOf a) (.accAdd tile false dense)) ∧
    exec (.mctl d l x) s = .next (s.mxLand 1 (.mctl d l x)) ∧
    exec (.mfree f) s = .next (s.mxLand 1 (.mreg f.md .empty))

/-! The engine and control slot (R220 to R273). -/

/-- R222, R226 to R231: tile ownership and rings. `own` moves tiles that the job holds and no engine has; `rset` makes a valid empty handle over a run of the job's own tiles and, without D, gives them to the engines at the end of the issue cycle; `rwait` leaves a hold for the end of its bundle; `radv` passes n slots, and each of their tiles goes back to the engines once its own writes have landed. -/
def Obligations.RingAndTileForms : Prop :=
  ∀ (s : State) (h : BitVec 3) (b k : Bool) (f c : BitVec 7) (n : BitVec 8) (l : BitVec 5) (st : BitVec 2),
    let ts := (List.range (c.toNat + 1)).map (f.toNat + ·)
    let r := s.rh h
    let lim := (s.rs l).toNat % 2 ^ 32
    let start := if k then r.tail.toNat else r.head.toNat
    let passed := (List.range n.toNat).map fun j => r.tileOf (start + j)
    let x := BitVec.ofNat 16 ((start + n.toNat) % r.modulus)
    (f.toNat + c.toNat ≤ 127 → firstTrap (ts.map (s.ownTrap b)) = none →
      (st = 2 → exec (.own st b f c) s = .next (s.emitDue (s.tilesLand b ts) (.tiles b ts 2))) ∧ (st ≠ 2 → Emits (.own st b f c) s [(1, .tiles b ts 0)])) ∧
    (f.toNat + c.toNat ≤ 127 → s.tilesMine b ts = none →
      let ring := Eff.ring h { valid := true, wmem := b, first := f, count := BitVec.ofNat 8 (c.toNat + 1), head := 0, tail := 0 }
      Emits (.rset h b f c true) s [(1, ring)] ∧ Emits (.rset h b f c false) s [(1, ring), (1, .tiles b ts 1)]) ∧
    (r.valid = true → EmitsEnd (.rwait h k n l) s [.hold { what := if k then .free h n.toNat else .fill h n.toNat, lim := lim, rem := lim }]) ∧
    (r.valid = true → n.toNat ≤ (if k then r.free else r.filled) → exec (.radv h k n) s =
      .next (passed.foldl (fun u t => u.emitDue (s.tilesLand r.wmem [t]) (.tiles r.wmem [t] 1)) (s.emit 1 (.ring h (if k then { r with tail := x } else { r with head := x }))))) ∧
    (r.valid = false → Raises (.rwait h k n l) s (accessFault 0x03 0 h.toNat) ∧ Raises (.radv h k n) s (accessFault 0x03 0 h.toNat))

/-- R233 to R236: barriers. Where the job holds the barrier, `barr` leaves an arrival in the store queue, `bwait` a hold for the end of its bundle, `breset` and `bfree` their writes; where it does not, they take ACCESS_FAULT, subcode 0x04. `barr` to another die is judged by the die number alone. `balloc` is judged where it lands, in order with the other cores' and after the cycle's frees: it takes the barrier that is free there, at zero, and says whether it did, and touches no other. -/
def Obligations.BarrierForms : Prop :=
  ∀ (s : State) (n : BitVec 6) (d l c : BitVec 5) (k : BitVec 8) (p : BitVec 4),
    let lim := (s.rs l).toNat % 2 ^ 32
    let die := (s.rs d).toNat % 2 ^ 23
    let held := (s.barrier s.die n.toNat).job = some s.jcb
    (held →
      Emits (.barr n false d) s [(1, .queue false true (.barr n false d) [s.die] 0 0)] ∧
      EmitsEnd (.bwait n l c) s [.hold { what := .barrier n ((s.rs c).toNat % 2 ^ 32), lim := lim, rem := lim }] ∧
      EmitsEnd (.bwaitImm n l k) s [.hold { what := .barrier n k.toNat, lim := lim, rem := lim }] ∧
      Emits (.breset n) s [(1, .barReset n)] ∧ Emits (.bfree n) s [(1, .barFree n)]) ∧
    (¬held → ∀ i ∈ [Instr.barr n false d, .bwait n l c, .bwaitImm n l k, .breset n, .bfree n], Raises i s (accessFault 0x04 0 0)) ∧
    (s.dieOk die = true → Emits (.barr n true d) s [(1, .queue false true (.barr n true d) [die] 0 0)]) ∧
    (s.dieOk die = false → Raises (.barr n true d) s (accessFault 0x04 0 0)) ∧
    Emits (.balloc p n) s [(1, .barAlloc n p)] ∧
    (let t := s.land (.barAlloc n p)
     ((s.barrier s.die n.toNat).job = none → t.barrier s.die n.toNat = { count := 0, job := some s.jcb } ∧ t.rp p = true ∧ t.mem = s.mem ∧
       (∀ q, q ≠ p → t.rp q = s.rp q) ∧ ∀ e m, e * 64 + m ≠ s.die * 64 + n.toNat → t.barrier e m = s.barrier e m) ∧
     ((s.barrier s.die n.toNat).job ≠ none → t = s.wp p false))

/-- R220, R225, R237, R240 to R246: an engine command leaves one entry in the store queue (`rsload` one in both) that holds its operands as read at issue, and takes the tiles it works on: `ecopy` to state E, `hxch` to state L, `reshard` its entry and its slot. In a stage continuation they take ACCESS_FAULT, subcode 0x04 (R263), except `rsload`, which runs there (log entry 67). -/
def Obligations.EngineCommandForms : Prop :=
  ∀ (s : State) (f : EcopyF) (n a : BitVec 5) (g b : BitVec 6) (e v : BitVec 4),
    let A := (s.rs a).toNat % 2 ^ 56
    let ga := (s.rs f.a).toNat % 2 ^ 56 / 256 * 256
    let ts := rowTiles f.row.toNat f.rows.toNat
    let r := s.rh f.h
    let st := s.rst n
    let slot := s.vslot s.die v.toNat
    let halo := (s.emits (if st.checked then [] else [(1, Eff.checked n)])).emits
      [(1, .queue false true (.hxch n g b) (st.lygen.toNat :: st.lyent.toNat :: st.blockTiles) (st.img.setWidth 1024) 0), (1, .tiles false st.blockTiles 2)]
    (s.inStage = false →
      (f.ring = false → f.row.toNat + f.rows.toNat ≤ 8192 → s.tilesMine f.wmem ts = none →
        Emits (.ecopy f) s [(1, .queue false true (.ecopy f) [ga, 0, 0, 0, b2n f.wmem] 0 0), (1, .tiles f.wmem ts 1)]) ∧
      (f.ring = true → r.valid = true → f.rows.toNat % 64 = 0 → (s.ecopyRings.find? fun x => x.1 == r.wmem && x.2.any r.tiles.contains) = none →
        Emits (.ecopy f) s [(1, .queue false true (.ecopy f) [ga, r.start s.core f.out, r.first.toNat, r.count.toNat, b2n r.wmem] 0 0)]) ∧
      (slot.loaded = true → slot.inUse = false → s.pendOn (fun _ i => match i with | .reshard _ w => w == v | _ => false) = false → slot.f 0 4 = (s.layEnt s.die s.jcb e.toNat).handle.toNat →
        Emits (.reshard e v b) s [(1, .queue false true (.reshard e v b) [] 0 0), (1, .reshard e v)]) ∧
      Emits (.coll a b) s [(1, .queue false true (.coll a b) [A / 128 * 128] 0 0)] ∧ Emits (.edisp a b) s [(1, .queue false true (.edisp a b) [A / 128 * 128] 0 0)] ∧
      Emits (.ecomb a b) s [(1, .queue false true (.ecomb a b) [A / 128 * 128] 0 0)] ∧ Emits (.put a b) s [(1, .queue false true (.put a b) [A / 64 * 64] 0 0)] ∧
      Emits (.get a b) s [(1, .queue false true (.get a b) [A / 64 * 64] 0 0)]) ∧
    (s.inStage = true → ∀ i ∈ [Instr.ecopy f, .hxch n g b, .reshard e v b, .coll a b, .edisp a b, .ecomb a b, .put a b, .get a b], Raises i s (accessFault 0x04 0 0)) ∧
    (s.hxchTrap n g = none → exec (.hxch n g b) s = .next halo) ∧
    (slot.inUse = false → Emits (.rsload v a) s [(1, .queue true true (.rsload v a) [A, 0] 0 0)]) ∧
    (slot.inUse = true → Raises (.rsload v a) s (accessFault 0x04 0 0))

/-- R249 to R257: tasks and job counts at issue. `spawn` names the child's die, argument, deadline, PC and descriptor; `done` ends the continuation with its bundle and, with `.j`, posts once; POSTED is set by the operation that issues the post (log entry 52); `jraise` and `cpost` leave their entries; `slice` sets DEADLINE and BUDGET at the end of the bundle and may yield; `yield` ends the slice; `trap` and `brk` take BREAKPOINT, `brk` resumably. -/
def Obligations.TaskForms : Prop :=
  ∀ (s : State) (f : SpawnF) (a b : BitVec 5) (sc : Scope) (j : Bool) (lo hi : BitVec 32) (c : Cont),
    s.self = some c →
    let die := if f.remote then (s.rs f.g).toNat % 2 ^ 23 else s.die
    let deadline := if f.d = 0 then s.ctl.deadline.toNat else (s.rs f.d).toNat
    let n := (s.rs a).toNat % 2 ^ 32
    let idx := (s.rs b).toNat % 2 ^ 32
    let word := ((s.rs a).toNat + 8 * (idx / 64)) % 2 ^ 56 / 8 * 8
    (c.record = none → s.dieOk die = true → (f.raise = true → c.posted = false) →
      Emits (.spawn f) s [(1, .queue false true (.spawn f) [die, (s.rs f.a).toNat, deadline, (s.selfKdesc.code + 4 * f.entry.toNat) % 2 ^ 56, c.kdesc.toNat] 0 0)]) ∧
    (c.record = none → s.dieOk die = true → f.raise = true → c.posted = true → Raises (.spawn f) s { cause := cLate, info0 := 1 }) ∧
    (c.handlerOf = none → (j = false ∨ c.posted = true ∨ c.record.isSome = true) →
      exec (.done j) s = .next ((s.emit 1 (.queue false true (.done j) [0, 0, 0, 0, 0] 0 0)).emitEnd (.ends false))) ∧
    (c.handlerOf = none → j = true → c.posted = false → c.record = none →
      exec (.done j) s = .next (((s.emit 1 (.queue false true (.done j) [1, 0, 0, 0, 0] 0 0)).emitEnd (.ends true)).emit 1 .posted)) ∧
    (∀ rec target resumable, c.handlerOf = some (rec, target, resumable) → (j = false ∨ c.posted = true ∨ c.record.isSome = true) →
      exec (.done j) s = .next ((s.emit 1 (.queue false true (.done j) [0, 1, rec, target.elim 0 (· + 1), b2n resumable] 0 0)).emitEnd (.ends false))) ∧
    (c.record = none → c.posted = false → Emits (.jraise a) s [(1, .queue false true (.jraise a) [n] 0 0)]) ∧
    (c.record = none → c.posted = true → Raises (.jraise a) s { cause := cLate, info0 := n }) ∧
    (c.record = none → (j = false ∨ c.posted = true) → Emits (.cpost a b sc j) s [(1, .queue false true (.cpost a b sc j) [word, idx % 64, 0, b2n (a != 0)] 0 0)]) ∧
    (c.record = none → j = true → c.posted = false → Emits (.cpost a b sc j) s [(1, .queue false true (.cpost a b sc j) [word, idx % 64, 1, b2n (a != 0)] 0 0), (1, .posted)]) ∧
    EmitsEnd (.slice b j lo hi) s ([.ctl 0x08 (hi ++ lo)] ++ (if b = 0 then [] else [.ctl 0x09 (s.rs b)]) ++ if j then [.yield] else []) ∧
    EmitsEnd .yield s [.yield] ∧
    Raises (.trap a) s { cause := cBreak, sub := 0x01, info0 := (s.rs a).toNat } ∧ Raises .brk s { cause := cBreak, resumable := true }

/-- R258 to R264: the router forms. `tsub` reserves the lowest free place of a set its job holds, or says there is none; `rverd` and `tlog` act on the record whose stage runs, `rverd` ending the continuation; `tsload` takes a free set or the job's own one with no admitted record, or with A = 0 frees it, and says so; `tsstat` reads the set's counters. On a set that another job holds, or takes in this cycle, they take ACCESS_FAULT, subcode 0x04, `tsload` too (log entry 96). That `tlog` judges and raises the count of its log at issue is log entry 53. -/
def Obligations.RouterForms : Prop :=
  ∀ (s : State) (n g sl : BitVec 3) (d a b : BitVec 5) (br : BitVec 6) (p : BitVec 4) (v : BitVec 2),
    let t := s.tset s.die n.toNat
    let hdr := (s.rs a).toNat % 2 ^ 56 / 64 * 64
    let va := (s.rs a).toNat % 2 ^ 56 / 256 * 256
    let e := t.stages.getD g.toNat { kdesc := 0, pass := 0, cost := 0 }
    let known := decide (g.toNat < t.nstg)
    let taken := s.pendOn fun j e => match e with | .setTake m _ _ => m == n.toNat && j != s.jcb | _ => false
    let stat := fun k x => sl.toNat = k → Emits (.tsstat d n g sl) s [(1, .sreg d (BitVec.ofNat 64 x))]
    (s.inStage = false → t.holder = some s.jcb →
      (∀ i, s.freePlace n.toNat = some i → Emits (.tsub n a br p) s [(1, .preg p true), (1, .place n.toNat i hdr br s.ctl.deadline), (1, .queue false true (.tsub n a br p) [i, hdr] 0 0)]) ∧
      (s.freePlace n.toNat = none → Emits (.tsub n a br p) s [(1, .preg p false)])) ∧
    (∀ c r, s.self = some c → c.record = some r → exec (.rverd v) s =
      .next (((s.emit 1 (.queue false true (.rverd v) [r.1, r.2, c.stage.toNat, c.charged + s.core.charged + 1] 0 0)).emitEnd .unrecord).emitEnd (.ends false))) ∧
    (∀ c r x, s.self = some c → c.record = some r → fget none (s.tset s.die r.1).places r.2 = some x → x.lcnt.getD c.stage.toNat 0 < x.lcap →
      Emits (.tlog a b) s [(1, .logAppend r.1 r.2 c.stage.toNat),
        (1, .queue false true (.tlog a b) [(x.log + 16 * (x.lcap * c.stage.toNat + x.lcnt.getD c.stage.toNat 0)) % 2 ^ 56, (s.rs a).toNat % 2 ^ 56 / 8 * 8, (s.rs b).toNat] 0 0)]) ∧
    (s.self.bind Cont.record = none → Raises (.rverd v) s (accessFault 0x04 0 0) ∧ Raises (.tlog a b) s (accessFault 0x04 0 0)) ∧
    ((t.holder = none ∨ t.holder = some s.jcb) → taken = false →
      (t.flight = 0 → a = 0 → Emits (.tsload n a p) s [(1, .preg p true), (1, .setFree n.toNat), (1, .queue true true .mark [] 0 0)]) ∧
      (t.flight = 0 → a ≠ 0 → Emits (.tsload n a p) s [(1, .preg p true), (1, .setTake n.toNat va s.clk.nextId), (1, .queue true true (.tsload n a p) [va, s.clk.nextId] 0 0)]) ∧
      (t.flight ≠ 0 → Emits (.tsload n a p) s [(1, .preg p false), (1, .queue true true .mark [] 0 0)])) ∧
    ((t.holder ≠ none ∧ t.holder ≠ some s.jcb) ∨ taken = true → Raises (.tsload n a p) s (accessFault 0x04 0 0)) ∧
    (t.holder = some s.jcb →
      stat 0 (if known then e.pass.toNat else 0) ∧ stat 1 (if known then e.cost.toNat else 0) ∧ stat 2 (if known then s.depth s.die n.toNat g.toNat else 0) ∧
      stat 3 t.acc.toNat ∧ stat 4 t.rej.toNat ∧ stat 5 t.flight ∧ stat 6 t.draws.toNat) ∧
    (t.holder ≠ some s.jcb → Raises (.tsstat d n g sl) s (accessFault 0x04 0 0) ∧ (s.inStage = false → Raises (.tsub n a br p) s (accessFault 0x04 0 0)))

/-- R265 to R270: sequence cursors and the layout table at issue. `sqapp` reserves room and says where; `sqacc` and `sqrej` commit the first k of the tentative tokens and drop the rest; each checks its cursor and its range. `lyrd` reads a field; `lywr` writes one at the end of its bundle, unless the entry is RESHARDING or would become so (whatever put it there, log entry 22), and the write is dropped where a re-sharding of the entry has begun since the issue, over or not. R271 to R273: the system forms leave their entries for a privileged job; from another job they take PRIVILEGE with their opcode, and nothing else happens. That `ckpt` holds its continuation from the end of its bundle is log entry 59. -/
def Obligations.CursorLayoutAndSystemForms : Prop :=
  (∀ (s : State) (n : BitVec 3) (d a : BitVec 5) (c : BitVec 8) (e : BitVec 4) (sl : BitVec 3),
      let q := s.rsq n
      let endd := q.clen.toNat + q.tlen.toNat
      let k := (s.rs a).toNat % 2 ^ 32
      let x := s.layEnt s.die s.jcb e.toNat
      Emits (.sqset n a) s [(1, .queue true false (.sqset n a) [(s.rs a).toNat % 2 ^ 56 / 64 * 64] 0 0)] ∧
      (q.valid = true → endd + c.toNat ≤ q.cap.toNat → Emits (.sqapp n d c) s [(1, .sreg d (BitVec.ofNat 64 endd)), (1, .cursor n { q with tlen := q.tlen + c.setWidth 32 })]) ∧
      (q.valid = true → q.cap.toNat < endd + c.toNat → Raises (.sqapp n d c) s { cause := cCursor, info0 := n.toNat, info1 := c.toNat }) ∧
      (s.inStage = false → q.valid = true → k ≤ q.tlen.toNat → Emits (.sqacc n a) s
        [(1, .cursor n { q with clen := q.clen + BitVec.ofNat 32 k, tlen := 0 }), (1, .queue false true (.sqacc n a) [q.region.toNat, q.clen.toNat + k, endd] 0 0)]) ∧
      (s.inStage = false → q.valid = true → q.tlen.toNat < k → Raises (.sqacc n a) s { cause := cCursor, info0 := n.toNat, info1 := k }) ∧
      (s.inStage = false → q.valid = true → Emits (.sqrej n) s
        [(1, .cursor n { q with tlen := 0 }), (1, .queue false true (.sqrej n) [q.region.toNat, q.clen.toNat, endd] 0 0)]) ∧
      (s.inStage = false → q.valid = false → ∀ i ∈ [Instr.sqapp n d c, .sqacc n a, .sqrej n], Raises i s (accessFault 0x03 0 n.toNat)) ∧
      Emits (.lyrd d e sl) s [(1, .sreg d (if sl = 0 then x.handle.setWidth 64 else if sl = 1 then x.kind.setWidth 64 else if sl = 2 then x.gen.setWidth 64 else x.shape.setWidth 64))] ∧
      (x.kind ≠ 3 → (sl = 1 → (s.rs a).setWidth 2 ≠ 3#2) → EmitsEnd (.lywr e a sl) s [.layWrite e sl.toNat (s.rs a) x.began]) ∧
      ((x.kind = 3 ∨ (sl = 1 ∧ (s.rs a).setWidth 2 = 3#2)) → Raises (.lywr e a sl) s (accessFault 0x04 0 0)) ∧
      (∀ u : State, u.die = s.die → u.jcb = s.jcb →
        let y := u.layEnt u.die u.jcb e.toNat
        let after := (u.land (.layWrite e sl.toNat (s.rs a) x.began)).layEnt u.die u.jcb e.toNat
        ((y.busy = true ∨ y.began ≠ x.began) → after = y) ∧
        (y.busy = false → y.began = x.began → (∃ l, u.layCopy u.die u.jcb = some l ∧ e.toNat < l.ents.length) → after = (let z := { y with gen := y.gen + 1 }
          if sl = 0 then { z with handle := (s.rs a).setWidth 32 } else if sl = 1 then { z with kind := (s.rs a).setWidth 2 } else { z with shape := (s.rs a).setWidth 48 })))) ∧
  (∀ (s : State) (k : BitVec 2) (a b : BitVec 5) (br : BitVec 6),
      (jcbPriv s s.jcb = true →
        Emits (.tlbinv k a b) s [(1, .queue true true (.tlbinv k a b) [(s.rs a).toNat % 4096, (s.rs b).toNat % 2 ^ 56] 0 0)] ∧
        ((s.rs a).toNat ≤ 63 → Emits (.aclwr a b) s [(1, .queue true true (.aclwr a b) [(s.rs a).toNat, (s.rs b).toNat] 0 0)]) ∧
        ((s.rs a).toNat > 63 → Raises (.aclwr a b) s (accessFault 0x04 0 0)) ∧
        exec (.ckpt a br) s = .next ((s.emit 1 (.queue false true (.ckpt a br) [(s.rs a).toNat % 2 ^ 56 / 64 * 64] 0 0)).emitEnd .quiesce)) ∧
      (jcbPriv s s.jcb = false →
        Raises (.tlbinv k a b) s { cause := cPriv, info0 := 0x30 } ∧ Raises (.aclwr a b) s { cause := cPriv, info0 := 0x31 } ∧ Raises (.ckpt a br) s { cause := cPriv, info0 := 0x32 }))

/-! What happens without an instruction: landings, waits, queues (R91, R153, R231). -/

/-- R91, R195: a result due in this cycle lands in its destination and is no longer in flight; `s0` and `p0` discard. Of two results for one register the one of the higher slot stands (R10). A matrix result lands by its own event, where MRFCAP still holds it (log entry 31). -/
def Obligations.ResultLandings : Prop :=
  ∀ (s : State) (p : Pend),
    let own := fun (e : Eff) => !e.isMx && !e.isShared && !e.isTiles
    let due := fun mx => s.core.pend.filter fun x => decide (x.due ≤ s.now) && (if mx then x.eff.isMx else own x.eff)
    (due false = [p] → s.effFlaw p.eff = none → ∃ t, exec .resultLanding s = .next t ∧
      t.core.pend = s.core.pend.filter (fun x => !(decide (x.due ≤ s.now) && own x.eff)) ∧
      (∀ n v, p.eff = .sreg n v → t.rs n = (if n = 0 then 0 else v) ∧ ∀ m, m ≠ n → t.rs m = s.rs m) ∧
      (∀ n v, p.eff = .preg n v → t.rp n = (n == 0 || v) ∧ ∀ m, m ≠ n → t.rp m = s.rp m) ∧
      (∀ n m v, p.eff = .vreg n m v → t.rv n = mixBits m v (s.rv n) ∧ ∀ k, k ≠ n → t.rv k = s.rv k) ∧
      (∀ f, p.eff = .flags f → t.ctl.vflags = s.ctl.vflags ||| f) ∧
      (∀ r m v, p.eff = .amem r m v → t.arow false r = mixBits m v (s.arow false r)) ∧
      (∀ r m v, p.eff = .acc r m v → t.racc r = mixBits m v (s.racc r)) ∧ ((∀ c v, p.eff ≠ .ctl c v) → t.mem = s.mem)) ∧
    (∀ q n v w, due false = [p, q] ∨ due false = [q, p] → p.eff = .sreg n v → q.eff = .sreg n w → p.slot < q.slot → n ≠ 0 →
      ∃ t, exec .resultLanding s = .next t ∧ t.rs n = w) ∧
    (due true = [p] → ∃ t, exec .matrixResultLanding s = .next t ∧
      t.core.pend = s.core.pend.filter (fun x => !(decide (x.due ≤ s.now) && x.eff.isMx)) ∧
      (∀ n l a, p.eff = .mctl n l a → t.rm n = { s.rm n with limit := l, ad := a }) ∧
      (∀ n b, p.eff = .mreg n b → s.mrfOcc - (s.rm n).body.granules + b.granules ≤ s.core.mrfCap → t.rm n = { s.rm n with body := b }))

/-- R231, R235, R236: a held wait whose condition stands ends: the continuation runs on, and a satisfied barrier wait empties the L1. One that still fails counts a cycle, or after its last one takes WAIT_TIMEOUT, resumable (of a handler terminating, R350), with the wait's limit restored; one whose barrier was freed takes ACCESS_FAULT; what stands earlier in R342, a mark at a safe point among it, is left to be taken first. -/
def Obligations.HeldWaits : Prop :=
  ∀ (s : State) (w : Wait), s.core.mode = .held w →
    let u := s.waitUpdate w
    let back := (u.onCont u.selfKey fun c => { c with state := stRunning, held := none }).setMode .run
    let gone := match w.what with
      | .barrier b _ => decide ((s.barrier s.die b.toNat).job ≠ some s.jcb)
      | _ => false
    let before := s.boundaryTrap.isSome || (s.atSafePoint && (s.ctl.budget == 0 || s.marked.isSome))
    (u.waitHolds w = true → exec .waitConditionMet s = .next (match w.what with
      | .barrier _ _ => back.dropL1
      | _ => back)) ∧ back.dropL1.core.l1d = [] ∧
    (u.waitHolds w = false → exec .waitConditionMet s = .next u) ∧
    (s.waitHolds w = false → before = true → exec .waitTimeout s = .next s) ∧
    (s.waitHolds w = false → before = false → gone = false → w.rem ≠ 0 → exec .waitTimeout s = .next (s.setMode (.held { w with rem := w.rem - 1 }))) ∧
    (∀ c, s.self = some c → s.waitHolds w = false → before = false → gone = false → w.rem = 0 → ∃ t d, exec .waitTimeout s = .next t ∧
      (c.handlerOf = none → t.core.mode = .stopping whyTrap ∧ t.cont s.selfKey = some d ∧ d.reports = s.timeoutTrap w :: c.reports ∧ d.held = some { w with rem := w.lim }) ∧
      (c.handlerOf ≠ none → t.core.mode = .stopping whyFault)) ∧
    (s.waitHolds w = false → before = false → gone = true → ∃ t, exec .waitTimeout s = .next t ∧ t.core.mode = .stopping whyFault)

/-- R332 to R335, R342: at a safe point, BUDGET at zero takes BUDGET_EXHAUSTED, resumable; else a marked continuation leaves for its save. A count above SPBOUND takes SAFEPOINT_OVERDUE, terminating, where the next bundle would issue. A save whose time is over writes the slot, frees the core, and leaves a pre-empted continuation SAVED. -/
def Obligations.SafePoints : Prop :=
  ∀ (s : State) (c : Cont), s.self = some c →
    (s.atSafePoint = true → s.ctl.budget = 0 → c.handlerOf = none → ∃ t d, exec .budgetExhausted s = .next t ∧ t.core.mode = .stopping whyTrap ∧ t.cont s.selfKey = some d ∧
      d.reports = { cause := cBudget, pc := s.core.ctx.pc.toNat, resumable := true } :: c.reports) ∧
    (∀ m k, s.atSafePoint = true → s.ctl.budget ≠ 0 → c.mark = some m → s.sideMask = .ok (some k) → m < markCkpt →
      ∃ t, exec .safePoint s = .next t ∧ t.core.mode = .stopping whyPreempt ∧ t.core.ctx = s.core.ctx) ∧
    (s.core.mode = .run → s.core.rep = 0 → s.core.issueAt ≤ s.now → s.ctl.spbound.toNat < s.core.spCount → s.boundaryTrap = none → s.waitOver = true → s.wouldHold = false →
      ∃ t d, exec .safepointOverdue s = .next t ∧ t.core.mode = .stopping whyFault ∧ t.cont s.selfKey = some d ∧
        d.reports = { cause := cOverdue, pc := s.core.ctx.pc.toNat, info0 := s.core.spCount, info1 := s.ctl.spbound.toNat } :: c.reports) ∧
    (∀ u, s.core.mode = .saving whyPreempt → s.core.saveDone ≤ s.now → c.gang = none → s.saveFlaw = none → s.writePieces s.ctl.asid.toNat (slotAddr s s.jcb s.mySlot) s.savePieces = (u, none) →
      ∃ t d, exec .save s = .next t ∧ t.core.res = none ∧ t.core.mode = .idle ∧ t.mem = u.mem ∧ t.cont s.selfKey = some d ∧ d.state = stSaved ∧
        d.pc = s.core.ctx.pc ∧ d.budget = s.ctl.budget ∧ d.deadline = s.ctl.deadline)

/-- R153 to R158, R250, R356: the head of a queue performs where nothing holds it, and leaves: a store homed on this die writes the 8 bytes of its word and no other byte; a load that misses the L1 is under way with the value of its home; `l1inv` empties the L1; a local `spawn` without `.r` whose kernel descriptor has been read creates its child where the die has room; a `tsub` whose header has been read puts a sound record in flight. R10, R93, R154: the response of a load is among the results of its cycle, and its destination is free again; a failed access is reported to its continuation and no part of it writes; behind one that ends the continuation, no later load writes. -/
def Obligations.OffCoreAccesses : Prop :=
  (∀ (s : State) (e : QEnt), s.acqBlocked e = false →
      let va := e.args.getD 0 0 / 8 * 8
      let home := fun (k : Acc) (pa : Nat) => ∃ x, leafHit s.core.tc s.die e.asid (va % 2 ^ 56) = some x ∧ s.leafPa x.entry.toNat x.level (va % 2 ^ 56) k = .ok pa ∧
        inWindow pa = false ∧ paDie pa = s.die
      (∀ d a o pa, s.headOf true = some e → e.both = false → e.i = .st d a o → home .write pa → ∃ t, exec (.queueEntryPerform true) s = .next t ∧
        t.core.storeQ = s.core.storeQ.drop 1 ∧ t.core.loadQ = s.core.loadQ ∧ t.rdBytes pa 8 = natLe 8 (e.args.getD 1 0) ∧ ∀ x, x < pa ∨ pa + 8 ≤ x → t.rdByte x = s.rdByte x) ∧
      (∀ d a o pa, s.headOf false = some e → e.both = false → e.i = .ld d a o → lineHit s.core.l1d e.asid va = none → home .read pa → s.flawed (pa / 64 * 64) 64 = false → s.flawed pa 8 = false → (∀ o ∈ s.core.outst, o.dest ≠ .head) →
        ∃ t x, exec (.queueEntryPerform false) s = .next t ∧ t.core.loadQ = s.core.loadQ.drop 1 ∧ t.core.outst = s.core.outst ++ [x] ∧
          x.dest = (if d = 0 then .none else .sreg d) ∧ x.resp = .value (s.rd pa 8) ∧ x.q = e ∧ t.mem = s.mem) ∧
      (s.headOf false = some e → e.both = false → e.i = .l1inv → ∃ t, exec (.queueEntryPerform false) s = .next t ∧ t.core.loadQ = s.core.loadQ.drop 1 ∧ t.core.l1d = [] ∧ t.mem = s.mem) ∧
      (∀ f o, s.headOf true = some e → s.core.outst.find? (fun x => x.dest == .head && x.q.id == e.id) = some o → o.q = e → o.resp = .remote → o.buf.length = 64 →
        (e.i = .spawn f → f.remote = false → f.raise = false → e.args.length ≤ 5 → e.args.getD 0 0 = s.die → s.dieLevelFree s.die = true →
          exec .spawnEnqueue s = .next ((s.create s.die (e.child f (parseKdesc o.buf))).1.leaveQueue e true)) ∧
        (∀ n a br p x, e.i = .tsub n a br p → headerRefused o.buf = false → (s.tset s.die n.toNat).holder = some e.jcb → fget none (s.tset s.die n.toNat).places (e.args.getD 0 0) = some x →
          ∃ t y, exec (.recordAdmission e.id) s = .next t ∧ t.core.storeQ = s.core.storeQ.drop 1 ∧ fget none (t.tset s.die n.toNat).places (e.args.getD 0 0) = some y ∧
            y.admitted = true ∧ y.sub = e.handle ∧ y.log = bits (leNat o.buf) 128 56 ∧ y.lcap = bits (leNat o.buf) 192 16 ∧ t.mem = s.mem))) ∧
  (∀ (s : State) (o : Outst), s.core.outst.find? (fun x => x.id == o.id) = some o →
      let rest := s.core.outst.filter fun x => x.id ≠ o.id
      let others := rest.map fun x => if x.q.id = o.q.id then { x with resp := .drop } else x
      (∀ n v, o.resp = .value v → o.dest = .sreg n → o.acq = false → o.q.handle = s.selfKey → (∀ k, s.core.dropFrom = some k → o.q.id ≤ k) →
        ∃ t p, exec (.offCoreLoadResponse o.id) s = .next t ∧ t.core.outst = rest ∧ t.core.pend = s.core.pend ++ [p] ∧ p.due = s.now ∧ p.eff = .sreg n (BitVec.ofNat 64 v) ∧
          t.core.ctx = s.core.ctx ∧ t.mem = s.mem) ∧
      (∀ n v k, o.resp = .value v → o.dest = .sreg n → o.acq = false → s.core.dropFrom = some k → k < o.q.id →
        exec (.offCoreLoadResponse o.id) s = .next (s.onCore fun c => { c with outst := rest })) ∧
      (∀ f c, o.resp = .fault f → (∀ n, o.dest ≠ .set n) → (∀ n, o.dest ≠ .slot n) → s.cont o.q.handle = some c → ∃ t d, exec (.offCoreFaultReport o.id) s = .next t ∧
        t.core.outst = others ∧ t.core.ctx = s.core.ctx ∧ t.core.pend = s.core.pend ∧ t.cont o.q.handle = some d ∧ d.reports = c.reports ++ [{ f with report := true }] ∧
        (f.resumable = true → t.core.dropFrom = s.core.dropFrom) ∧ (f.resumable = false → s.core.res = some o.q.handle → ∃ k, t.core.dropFrom = some k ∧ k ≤ o.q.id)))

/-! Engines and the router (R223 to R239, R316, R363, R393). -/

/-- R223, R224: a command that ends without failure and has no status word returns its tiles and arrives once on its barrier where the job holds it; one that failed returns them, reports its trap to its issuer and arrives on nothing. -/
def Obligations.CommandEnds : Prop :=
  ∀ (s : State) (c : Cmd), s.cmd c.id = some c → s.canEnd c = true →
    let back := fun (t : State) => c.isRing = false → ∀ n ∈ c.tiles, ((s.coreAt c.core).tile c.tilesW n).jtag = s.jtag c.die c.jcb → ((t.coreAt c.core).tile c.tilesW n).owner = 0
    (c.fail = none → c.status = none → c.byFaces = false → (s.barrier c.die (barOf c.i).toNat).job = some c.jcb →
      ∃ t, exec (.engineCommandCompletion c.id) s = .next t ∧ t.cmd c.id = none ∧ t.mem = s.mem ∧ back t ∧
        t.bar = fput Barrier.reset (c.die * 64 + (barOf c.i).toNat) { job := some c.jcb, count := if (s.barrier c.die (barOf c.i).toNat).count = BitVec.allOnes 32 then BitVec.allOnes 32 else (s.barrier c.die (barOf c.i).toNat).count + 1 } s.bar) ∧
    (∀ f k, c.fail = some f → s.cont c.handle = some k → ∃ t d, exec (.engineFailureReport c.id) s = .next t ∧ t.cmd c.id = none ∧ t.bar = s.bar ∧ t.mem = s.mem ∧ back t ∧
      t.cont c.handle = some d ∧ d.reports = k.reports ++ [{ f with pc := c.pc, opc := opcOf c.i, report := true }])

/-- R316: a ready pipe copies the 64 rows of the producer's tile into the consumer's, and both tiles return to T; nothing else of either AMEM changes. R228, R427: a ring command's block moves row by row, each row to or from its global address, and with its 64th its tile is in state T; that one event moves one row is log entry 34. R239: a halo face of the receiver's generation is written into the border and counted, the last one ends the exchange that has sent its own; one of another generation is discarded and its sender told. R393: a step of a re-sharding whose peer is no member fails it, whatever the step moves (log entry 72); it reads its data, sends them, and goes on once they are acknowledged; the last step gives the layout entry the image's KIND and SHAPE and a new GEN, and frees the slot. -/
def Obligations.EngineSteps : Prop :=
  (∀ (s : State) (g : Gang) (p : Pipe) (n a b : Nat), s.sched.gangs.find? (fun x => x.id == g.id) = some g → g.pipes[n]? = some p →
      g.cores[p.fromStage]? = some a → g.cores[p.toStage]? = some b → a ≠ b → s.pipeReady g p = true → (s.coreAt a).padBad = [] →
      let x := p.ptile + p.prod % p.depth
      let y := p.ctile + p.cons % p.depth
      ∃ t, exec (.pipeTileCopy g.id n) s = .next t ∧ (∀ i, i < 64 → fget 0 (t.coreAt b).amem (64 * y + i) = fget 0 (s.coreAt a).amem (64 * x + i)) ∧
        (∀ r, r < 64 * y ∨ 64 * y + 64 ≤ r → fget 0 (t.coreAt b).amem r = fget 0 (s.coreAt b).amem r) ∧ (t.coreAt a).amem = (s.coreAt a).amem ∧
        ((t.coreAt a).tile false x).owner = 0 ∧ ((t.coreAt b).tile false y).owner = 0 ∧ t.mem = s.mem) ∧
  (∀ (s : State) (c : Cmd) (f : EcopyF) (x : Leaf) (pa : Nat), s.cmd c.id = some c → c.i = .ecopy f → s.ringReady c = true → c.buf = [] → c.sent = 0 → (s.coreAt c.core).padBad = [] →
      let row := 64 * c.ringTile + c.pos % 64
      let va := rowVa (c.args.getD 0 0) f.stride c.pos
      let file := fun (u : State) (r : Nat) => fget 0 (if c.tilesW then (u.coreAt c.core).wmem else (u.coreAt c.core).amem) r
      leafHit s.xl.leaf c.die c.asid va = some x → s.leafPa x.entry.toNat x.level va (if f.out then .write else .read) = .ok pa → inWindow pa = false → paDie pa = c.die →
      (f.out = false → s.flawed pa 256 = false) →
      ∃ t y, exec (.ringBlockTransfer c.id) s = .next t ∧ t.cmd c.id = some y ∧ y.pos = c.pos + 1 ∧ y.finished = decide (f.rows.toNat ≤ c.pos + 1) ∧
        (f.out = true → t.rdBytes pa 256 = natLe 256 (file s row).toNat ∧ (∀ a, a < pa ∨ pa + 256 ≤ a → t.rdByte a = s.rdByte a) ∧ ∀ r, file t r = file s r) ∧
        (f.out = false → t.mem = s.mem ∧ file t row = BitVec.ofNat 2048 (s.rd pa 256) ∧ ∀ r, r ≠ row → file t r = file s r) ∧
        (c.pos % 64 = 63 → ((t.coreAt c.core).tile c.tilesW c.ringTile).owner = 0) ∧
        (c.pos % 64 ≠ 63 → (t.coreAt c.core).tile c.tilesW c.ringTile = (s.coreAt c.core).tile c.tilesW c.ringTile)) ∧
    (∀ (s : State) (f : Face) (c : Cmd), s.faces.find? (fun x => x.id == f.id) = some f → s.faceTarget f = some c → s.faceHere f = true →
      let rest := { s with faces := s.faces.filter fun x => x.id ≠ f.id }
      let u := (rest.onCoreAt c.core fun k => c.st.writeFace k f.dir f.bytes).onCmd c.id fun x => { x with aux := x.aux ++ [f.dir] }
      ((s.layEnt f.dst f.jcb (c.args.getD 1 0)).gen ≠ f.gen →
        exec (.haloFaceArrival f.id) s = .next (rest.report f.handle f.jcb { remoteFault 0x04 0 f.dst with pc := f.pc, opc := opcOf c.i })) ∧
      ((s.layEnt f.dst f.jcb (c.args.getD 1 0)).gen = f.gen → c.aux.length + 1 < (hxFaces c.i).length → exec (.haloFaceArrival f.id) s = .next (u.arriveCmd c)) ∧
      ((s.layEnt f.dst f.jcb (c.args.getD 1 0)).gen = f.gen → (hxFaces c.i).length ≤ c.aux.length + 1 →
        exec (.haloFaceArrival f.id) s = .next (if u.facesSent c then ((u.handBack c).finishCmd c.id).arriveCmd c else u.onCmd c.id fun x => { x with pos := 2 }))) ∧
    (∀ (s u : State) (c : Cmd) (e v : BitVec 4) (br : BitVec 6), s.cmd c.id = some c → c.i = .reshard e v br → s.stepReady c = true →
      let x := s.vslot c.die v.toNat
      let st := x.step c.pos
      let phase := c.aux.getD 0 0
      (phase = 0 → s.groupOk x.group = false ∨ x.group.size ≤ st.peer → exec (.reshardStep c.id) s = .next (s.failCmd c.id (accessFault 0x04 0 0))) ∧
      (phase = 1 → s.engFetch c [(st.src % 2 ^ 56, st.len)] = .done u → exec (.reshardStep c.id) s = .next (u.onCmd c.id fun y => { y with aux := [2] })) ∧
      (phase = 2 → s.engWrite c [(st.dst % 2 ^ 56, st.len)] c.buf = .done u → exec (.reshardStep c.id) s = .next (u.onCmd c.id fun y => { y with aux := [3] })) ∧
      (3 ≤ phase → s.cmdIdle c.id = false → exec (.reshardStep c.id) s = .next s) ∧
      (3 ≤ phase → s.cmdIdle c.id = true → st.tstep = 0xFFFF → c.pos + 1 < x.nstep →
        exec (.reshardStep c.id) s = .next (s.onCmd c.id fun y => { y with pos := c.pos + 1, aux := [0], buf := [], sent := 0 })) ∧
      (3 ≤ phase → s.cmdIdle c.id = true → st.tstep = 0xFFFF → x.nstep ≤ c.pos + 1 → ∃ t y, exec (.reshardStep c.id) s = .next t ∧ t.cmd c.id = some y ∧ y.finished = true ∧
        (t.vslot c.die v.toNat).inUse = false ∧ t.mem = s.mem ∧ ∀ l, s.layCopy c.die c.jcb = some l → e.toNat < l.ents.length →
          t.layEnt c.die c.jcb e.toNat = { s.layEnt c.die c.jcb e.toNat with kind := BitVec.ofNat 2 (x.f 4 1), shape := BitVec.ofNat 48 (x.f 8 6), gen := (s.layEnt c.die c.jcb e.toNat).gen + 1, busy := false }))

/-- R235, R393: an arrival that reaches a barrier of its job adds one to the count, which saturates; one that reaches a barrier of no job or of another is discarded and its issuer told. A step token is counted at its step of the slot that holds its handle. -/
def Obligations.CriticalArrivals : Prop :=
  ∀ (s : State) (m : Msg), s.msg m.id = some m → m.here s.now = true →
    (∀ b die, m.crit = .arrival b die →
      ((s.barrier die b).job = some m.jcb → ∃ t, exec (.barrierArrival m.id) s = .next t ∧ t.msg m.id = none ∧ t.mem = s.mem ∧
        (t.barrier die b).job = some m.jcb ∧ (t.barrier die b).count.toNat = Nat.min ((s.barrier die b).count.toNat + 1) (2 ^ 32 - 1) ∧
        ∀ n e, e * 64 + n ≠ die * 64 + b → t.barrier e n = s.barrier e n) ∧
      ((s.barrier die b).job ≠ some m.jcb → ∃ t, exec (.barrierArrival m.id) s = .next t ∧ t.msg m.id = none ∧ t.bar = s.bar ∧
        ∀ c, s.cont m.issuer = some c → ∃ d, t.cont m.issuer = some d ∧ d.reports = c.reports ++ [{ remoteFault 0x03 0 m.dst with pc := m.pc, opc := m.opc, report := true }])) ∧
    (∀ h k v, m.crit = .token h k → s.slotOf m.dst h = some v → k < (s.vslot m.dst v).nstep →
      ∃ t, exec (.stepTokenArrival m.id) s = .next t ∧ t.msg m.id = none ∧ fget 0 (t.vslot m.dst v).tok k = fget 0 (s.vslot m.dst v).tok k + 1 ∧ t.bar = s.bar ∧ t.mem = s.mem)

/-- R363, R364, R367: a record whose stages are over completes, where no earlier record of its die has still to commit: its writes go out as far as the fabric takes them, and the rest once it takes more (log entry 57); once all have, its place is free, ACC or REJ counts it, and its barrier gets one arrival. Of a record that did not pass those are one write of its header, which a home on the set's die gets at once: STAT, DONE, VERD, FSTG, DRAWS, DEADLINE at its start and LCNT at 0x20. The record of a job that has completed stays as it is. -/
def Obligations.RecordCompletions : Prop :=
  ∀ (s : State) (set place jcb o : Nat) (p : Place),
    let die := set / 8
    let t := s.tset die (set % 8)
    let acts := p.acts o
    fget none t.places place = some p → t.holder = some jcb → p.final t s.now = some o →
    ((s.isEnding jcb = true ∨ s.laterThan die p.since = true) → exec (.recordCompletion set place) s = .next s) ∧
    ∀ u n, s.isEnding jcb = false → s.laterThan die p.since = false → s.routerActs die jcb p (acts.drop p.step) p.step = (u, n) →
      (n < acts.length → exec (.recordCompletion set place) s = .next (u.onPlace die (set % 8) place fun x => { x with step := n })) ∧
      (acts.length ≤ n → (s.barrier die p.bar.toNat).job = some jcb → ∃ x, exec (.recordCompletion set place) s = .next x ∧ fget none (x.tset die (set % 8)).places place = none ∧
        x.mem = u.mem ∧ (x.tset die (set % 8)).acc = (if o = 1 then t.acc + 1 else t.acc) ∧ (x.tset die (set % 8)).rej = (if o = 1 then t.rej else t.rej + 1) ∧
        (x.barrier die p.bar.toNat).count.toNat = Nat.min ((s.barrier die p.bar.toNat).count.toNat + 1) (2 ^ 32 - 1)) ∧
      (∀ a, o ≠ 1 → p.step = 0 → s.writable die (jcbAsid s jcb) p.hdr = .ok a → paDie a = die →
        let head := natLe 1 (o * 64) ++ natLe 1 p.done.toNat ++ natLe 1 p.verd.toNat ++ natLe 1 (p.fstg.elim 0 fun f => 0x80 + f.toNat) ++ natLe 4 p.draws.toNat ++ natLe 8 p.deadline.toNat
        n = acts.length ∧ u.mem = ((s.wrBytes a head).wrBytes (a + 0x20) (p.lcnt.flatMap (natLe 1))).mem)

/-! Traps, scheduling, jobs (R317 to R350). -/

/-- R349: the action that a handler leaves in its record. RESUME makes the continuation SAVED under a new SEQ, with NBUDGET and NDEADLINE where they are not zero; FAULT and every unnamed action take it out, as END and ENDPOST do; ENDPOST adds one to the completed count where POSTED is clear. R346 to R348, R350: a trap on its way claims the lowest record whose RSTATE is 0 and writes its 64 bytes there; without one LOST counts it and the trapped continuation is FAULTED. A terminating trap, and a resumable one without a handler (HKDESC 0 among them), faults it too, and its record shows no slot; the reports it had not delivered go on as deferred ones. A resumable one leaves it, with a handler that knows its record. -/
def Obligations.TrapRecordsAndActions : Prop :=
  (∀ (s : State) (h : Nat) (c : Cont) (a nb nd : Nat), s.cont h = some c → c.action = some (a, nb, nd) → c.record = none → c.handlerOf = none →
      (a = 0 → ∃ t d, exec (.resume h) s = .next t ∧ t.cont h = some d ∧ d.state = stSaved ∧ d.seq = fget 0 s.sched.seq (keyDie h) ∧ d.action = none ∧
        d.budget = (if nb = 0 then c.budget else BitVec.ofNat 32 nb) ∧ d.deadline = (if nd = 0 then c.deadline else BitVec.ofNat 64 nd) ∧ d.pc = c.pc ∧ d.slot = c.slot ∧ t.mem = s.mem) ∧
      (a ≠ 0 → a ≠ 2 → a ≠ 3 → ∃ t, exec (.fault h) s = .next t ∧ t.cont h = none ∧ t.mem = s.mem) ∧
      (a = 2 → ∃ t, exec (.endTrapped h) s = .next t ∧ t.cont h = none ∧ t.mem = s.mem) ∧
      (a = 3 → s.flawed c.jcb 16 = false → ∃ t, exec (.endPost h) s = .next t ∧ t.cont h = none ∧
        t.mem = (if c.posted = false ∧ jcbComplete s c.jcb = false ∧ (s.sched.ending.any fun e => e.jcb == c.jcb) = false
          then (s.wr (c.jcb + 4) 4 ((jcbDone s c.jcb + 1) % 2 ^ 32)).mem else s.mem))) ∧
  (∀ (s : State) (tj : TrapJob) (k : Nat) (c : Cont), s.sched.traps = [tj] → tj.key = some k → tj.deferred = false → s.cont k = some c → c.record = none → c.handlerOf = none →
      s.flawed (tj.jcb + 0x28) 16 = false → contKey tj.die (fget 0 s.sched.nextHandle tj.die) ≠ k →
      let asid := jcbAsid s tj.jcb
      let tb := jcbTrapbase s tj.jcb
      let area := tb % 2 ^ 56 / 64 * 64
      let faulted := fun (m : FMap (BitVec 8)) => ∃ t, exec .trapRecordClaim s = .next t ∧ t.cont k = none ∧ t.sched.traps.map TrapJob.trap = c.reports.filter Trap.report ∧ t.mem = m
      (s.freeRecord tj.die asid area (tb / 2 ^ 56) 0 = none → faulted (s.countLost tj.die asid area tj.trap.cause).mem) ∧
      ∀ rec u, s.freeRecord tj.die asid area (tb / 2 ^ 56) 0 = some rec →
        (s.wrVirt tj.die asid rec (natLe 64 (trapRecord { tj with sslot := none } false)) = (u, none) →
          (tj.trap.resumable = false → faulted u.mem) ∧ (s.handler tj 0 = none → u.handler tj rec = none → faulted u.mem)) ∧
        (∀ d, s.wrVirt tj.die asid rec (natLe 64 (trapRecord tj false)) = (u, none) → tj.trap.resumable = true → (s.handler tj 0).isSome = true → u.handler tj rec = some d →
          ∃ t e, exec .trapRecordClaim s = .next t ∧ t.mem = u.mem ∧ t.sched.traps = [] ∧ (∃ x, t.cont k = some x ∧ x.state = c.state ∧ x.slot = c.slot) ∧
            t.cont (contKey tj.die (fget 0 s.sched.nextHandle tj.die)) = some e ∧ e.traprec = BitVec.ofNat 64 rec ∧ e.arg0 = BitVec.ofNat 64 rec ∧
            e.arg1 = BitVec.ofNat 64 tj.trap.cause ∧ e.deadline = tj.deadline ∧ e.handlerOf = some (rec, some k, true)))

/-- R311, R317, R320: the queue whose turn it is gives its first packet. A packet that cannot launch lowers PENDING and leaves its cause in STATUS; a sound one raises EXPECT by its count of continuations, lowers PENDING and stands in the ready queue of its die with its deadline and the next SEQ; one whose JCB is no memory does neither. -/
def Obligations.PacketExpansions : Prop :=
  ∀ (s : State) (die q : Nat) (p : BitVec 512) (r : List (BitVec 512)), s.dieLevelFree die = true → s.nextQueue die = some q → s.launchQ die q = p :: r →
    ∃ t, exec (.packetExpansion die) s = .next t ∧ t.launchQ die q = r ∧ fget 0 t.sched.rr die = (q + 1) % 16 ∧
      (s.paBad (pktJcb p) = false → inWindow (pktJcb p) = false → paDie (pktJcb p) = die →
        (∀ c, s.launchCheck die p = .error c → t.mem = ((s.lowerPending (pktJcb p)).setStatus (pktJcb p) c).mem) ∧
        (∀ m, s.launchCheck die p = .ok m → s.rd (pktJcb p + 0x48) 8 ≠ 0 →
          t.mem = ((s.wr (pktJcb p) 4 (jcbExpect s (pktJcb p) + pktCount p * m)).lowerPending (pktJcb p)).mem) ∧
        (∀ m, s.launchCheck die p = .ok m → pktCount p ≠ 0 → pktGang p = false → (∀ e ∈ t.sched.ending, e.jcb ≠ pktJcb p) →
          ∃ r ∈ t.sched.ready, r.die = die ∧ r.level = .die ∧ r.item = .packet p 0 ∧ r.deadline = pktDeadline p ∧ r.seq = fget 0 s.sched.seq die)) ∧
      (s.paBad (pktJcb p) = true ∨ inWindow (pktJcb p) = true → t.mem = s.mem ∧ t.sched.ready = s.sched.ready)

/-- R325, R328, R330, R331: an idle core takes the first entry that is eligible on it, which leaves the ready queue and begins after the delay of its level; a gang that fits claims the lowest cluster; a claiming gang whose cores are idle is admitted; a parked one resumes when all its cores are idle, those of members that have ended among them. The order of the dispatcher's work in a cycle (log entries 23, 25) and which cores of a cluster a gang takes (log entry 62) are deduced. -/
def Obligations.DispatchAndGangs : Prop :=
  (∀ s : State, exec .dispatch s = .next (s.schedDies.foldl (fun u die => (((((dieCores die).foldl State.dispatchCore u)).refill die).dropMarks die).markDie die) s)) ∧
  (∀ (s : State) (cid h : Nat) (r : Ready) (c : Cont) (k : Kdesc), s.idleCore cid = true → s.claimed cid = false → s.running.contains (dieOf cid) = true →
    s.sched.ready.find? (fun x => s.itemOk x cid) = some r → r.item = .cont h → s.cont h = some c → c.state = stReady →
    s.kdesc (dieOf cid) (jcbAsid s c.jcb) c.kdesc.toNat = .ok k → (s.layCopy (dieOf cid) c.jcb).isSome = true →
    let t := s.dispatchCore cid
    (t.coreAt cid).res = some h ∧ (t.coreAt cid).mode = .starting ∧ (t.coreAt cid).issueAt = s.now + r.level.delay ∧ (t.coreAt cid).ctx = firstCtx s c k ∧
      (∀ x ∈ t.sched.ready, x.item ≠ .cont h) ∧ (∃ d, t.cont h = some d ∧ d.state = stRunning) ∧ t.mem = s.mem) ∧
  (∀ (s : State) (g : Gang), s.gang g.id = some g →
    (∀ cl rest, g.state = .pending → g.members.length ≤ s.freeSlots (pktJcb g.packet) → (s.sched.ckpts.any fun k => k.die == g.die && s.ckptJob k == some (pktJcb g.packet)) = false →
      (List.range 8).filter (fun x => s.gangFits g x) = cl :: rest → s.gangLeast g cl = true → pktCount g.packet ≤ g.unit + 1 →
      exec (.gangClaim g.id) s = .next ((s.onGang g.id fun x => { x with state := .claiming, cores := (s.gangCores g cl).take g.members.length }).onSched fun c => { c with ready := c.ready.filter fun r => r.item != .gang g.id })) ∧
    (g.state = .claiming → s.gangIdle g = true → s.needSlots g ≤ s.freeSlots (pktJcb g.packet) →
      exec (.gangAdmission g.id) s = .next (g.pipes.foldl (fun u p => u.setPipe g p) ((s.onGang g.id fun x => { x with state := .admitted }).startMembers (g.members.zip g.cores)))) ∧
    (g.state = .parked → (s.sched.ckpts.any fun k => k.die == g.die && s.ckptJob k == some (pktJcb g.packet)) = false →
      (∀ c ∈ g.cores, s.idleCore c = true ∧ s.claimed c = false ∧ s.firstOn c (s.gangEntry g) = true) → (∀ m ∈ g.members.zip g.cores, (s.cont m.1).isSome = true → m ∈ s.savedMembers g) →
      exec (.gangResume g.id) s = .next ((s.onGang g.id fun x => { x with state := .admitted }).startMembers (s.savedMembers g))) ∧
    (g.state = .parked → (∃ c ∈ g.cores, s.idleCore c = false) ∨ (∃ m ∈ g.members.zip g.cores, (s.cont m.1).isSome = true ∧ m ∉ s.savedMembers g) → exec (.gangResume g.id) s = .next s))

/-- R337: at the completion condition every continuation of the job that is on no core is removed, its ready entries and its traps with it. Once nothing of the job remains its holdings are freed, COMPLETE is set, TDONE written and SIGVAL stored at SIGADDR. -/
def Obligations.JobEnds : Prop :=
  ∀ (s : State) (jcb : Nat), (s.sched.ending.any fun e => e.jcb == jcb) = true →
    (∃ t, exec (.jobCompletion jcb) s = .next t ∧ (∀ k c, t.cont k = some c → c.jcb = jcb → (s.residentOn k).isSome = true) ∧
      (∀ x ∈ t.sched.traps, x.jcb ≠ jcb) ∧ (∀ r ∈ t.sched.ready, ∀ p n, r.item = .packet p n → pktJcb p ≠ jcb) ∧ t.mem = s.mem) ∧
    (s.jobDrained jcb = true →
      let u := s.freeJob jcb
      let v := (u.wr (jcb + 0xA) 1 (jcbFlags u jcb ||| 2))
      let w := v.wr (jcb + 0x50) 8 s.timeb
      ∃ t, exec (.completionSignal jcb) s = .next t ∧ t.mem = (w.wrVirt (paDie jcb) (jcbAsid w jcb) (jcbSigaddr w jcb) (natLe 8 (jcbSigval w jcb))).1.mem ∧
        (t.sched.ending.any fun e => e.jcb == jcb) = false ∧ (∀ n, (fget Barrier.reset t.bar n).job ≠ some jcb) ∧
        (∀ l ∈ t.lay, l.jcb ≠ jcb) ∧ ∀ x ∈ t.sched.jtags, x.jcb ≠ jcb)

/-! The fabric (R374 to R385). -/

/-- R378: a request that has come to its destination and is first in its order is performed once and answered; the number of one that was performed is answered again as before, and nothing else happens. An acknowledgement that is back, with the data of an answer or as a critical flit of its own, ends its request and tells its owner. -/
def Obligations.Requests : Prop :=
  ∀ (s : State) (r : Req), s.req r.id = some r →
    (r.away s.now = false → r.arrived = false → s.reqBehind r = false →
      (∀ x a, s.fab.recorded.find? (fun x => x.src == r.src && x.dst == r.dst && x.seq == r.seq) = some x → x.answer = some a → exec (.requestArrival r.id) s = .next (s.sendAck r a)) ∧
      (∀ u a, s.fab.recorded.find? (fun x => x.src == r.src && x.dst == r.dst && x.seq == r.seq) = none → s.performReq r = some (u, a) →
        exec (.requestArrival r.id) s = .next ((u.onFab fun x => { x with recorded := recordAnswer x.recorded { src := r.src, dst := r.dst, seq := r.seq, answer := some a } }).sendAck r a))) ∧
    (∀ a, r.answer = some a → (if r.kind.answers then r.arrived = true ∧ r.away s.now = false ∧ s.comesBehind r = false else s.ackHere r.id = true) →
      (∃ t, exec (.acknowledgement r.id) s = .next t ∧ t.req r.id = none) ∧
      (∀ cid q, r.owner = .store cid q → a.1 = 0 → exec (.acknowledgement r.id) s = .next (s.dropReq r.id)) ∧
      (∀ cid q, r.owner = .store cid q → a.1 ≠ 0 → exec (.acknowledgement r.id) s = .next ((s.dropReq r.id).storeReport r cid q (answerTrap a.1 r.va r.src r.dst))))

/-- R380, R385, of a single request or critical flit in flight: a request is sent again 8 µs after its latest send, at most 4 times, and reported with an unknown outcome 40 µs after its first, wherever it is (log entry 77); a critical flit that was lost is sent again after 1 µs, and its issuer told after 40 µs; a receipt is neither. The times are those of the unthrottled clock, 2,100 cycles to the µs (log entry 88). Requests and flits whose time has not come stay as they are. -/
def Obligations.Resends : Prop :=
  ∀ s : State,
    (∀ r, s.fab.reqs = [r] → r.held = false →
      (r.toResend s.now = true → exec .endToEndResend s = .next (s.resendReq r)) ∧ (r.toResend s.now = false → exec .endToEndResend s = .next s) ∧
      (r.first + 84000 ≤ s.now → exec .fabricOutcomeUnknown s = .next (s.unknownReq r) ∧ ∀ cid q c, r.owner = .store cid q → r.told = false → s.cont q.handle = some c →
        ∃ t d, exec .fabricOutcomeUnknown s = .next t ∧ t.req r.id = none ∧ t.cont q.handle = some d ∧ d.reports = c.reports ++ [{ q.trap (unknownTrap r.va r.dst) with report := true }]) ∧
      (s.now < r.first + 84000 → exec .fabricOutcomeUnknown s = .next s)) ∧
    (∀ m, s.fab.msgs = [m] →
      (m.isReceipt = false → m.lost = true → m.sent + 2100 ≤ s.now → s.now < m.first + 84000 → exec .criticalResend s = .next (s.resendMsg m)) ∧
      (m.lost = false → exec .criticalResend s = .next s ∧ exec .criticalFlitLost s = .next s) ∧ (m.isReceipt = true → exec .criticalResend s = .next s) ∧
      (m.lost = true → m.first + 84000 ≤ s.now → ∃ t, exec .criticalFlitLost s = .next t ∧ t.msg m.id = none ∧
        ((∀ n, m.crit ≠ .reduceTag n) → (∀ n, m.crit ≠ .ack n) → m.isReceipt = false → ∀ c, s.cont m.issuer = some c → ∃ d, t.cont m.issuer = some d ∧
          d.reports = c.reports ++ [{ remoteFault 0x01 0 m.dst with pc := m.pc, opc := m.opc, report := true }])))

/-- R375, R382 to R384: a flit slot advances the counters of both ends whether it is intact or not, and a failed one is counted; one event is one slot (log entry 35); a plane that fails is down, and where its port is dead with it what was crossing the link is lost (log entry 78); one that rejoins is up with new keys; training gives both ends new keys and counters that begin again (log entry 79); after 2^40 slots a rekey gives new keys without losing a slot. A port that the variant lacks does none of these. -/
def Obligations.Links : Prop :=
  ∀ (s : State) (port : Nat) (pl : Bool), s.peerPort port ≠ port →
    let P := s.plane port pl
    (s.portThere port = true →
      (∀ c ok, ∃ t, exec (.flitArrival port pl c ok) s = .next t ∧ (t.plane port pl).recvCtr = P.recvCtr + 1 ∧ (t.plane port pl).slots = P.slots + 1 ∧
        (t.plane port pl).fails = (if ok then 0 else P.fails + 1) ∧ (t.plane (s.peerPort port) pl).sendCtr = (s.plane (s.peerPort port) pl).sendCtr + 1 ∧ t.mem = s.mem) ∧
      (∃ t, exec (.planeFailure port pl) s = .next t ∧ t.plane port pl = { P with down := true } ∧ t.mem = s.mem ∧ (t.portDead port = false → t.fab.reqs = s.fab.reqs ∧ t.fab.msgs = s.fab.msgs) ∧
        (t.portDead port = true → (∀ r ∈ s.fab.reqs, r.onWay s.now (s.hopIs port) = true → { r with lost := true } ∈ t.fab.reqs) ∧
          ∀ m ∈ s.fab.msgs, m.onWay s.now (s.hopIs port) = true → { m with lost := true } ∈ t.fab.msgs)) ∧
      (∃ t, exec (.planeRejoin port pl) s = .next t ∧ t.plane port pl = { P with down := false, fails := 0, epoch := P.epoch + 1, sendCtr := 0, recvCtr := 0, slots := 0 } ∧ t.fab.reqs = s.fab.reqs) ∧
      (∃ t, exec (.linkTraining port pl) s = .next t ∧ (∀ q ∈ [port, s.peerPort port], (t.plane q pl).sendCtr = 0 ∧ (t.plane q pl).recvCtr = 0 ∧ (t.plane q pl).epoch = (s.plane q pl).epoch + 1) ∧
        t.fab.reqs = s.fab.reqs) ∧
      (2 ^ 40 ≤ P.slots → ∃ t, exec (.rekey port pl) s = .next t ∧ (t.plane port pl).epoch = P.epoch + 1 ∧ (t.plane port pl).slots = 0 ∧ (t.plane port pl).recvCtr = P.recvCtr ∧ t.fab.reqs = s.fab.reqs) ∧
      (P.slots < 2 ^ 40 → exec (.rekey port pl) s = .next s) ∧
      (∃ t, exec (.slotAlignmentLoss port pl) s = .next t ∧ (t.plane port pl).epoch = P.epoch + 1 ∧ (t.plane port pl).recvCtr = 0 ∧ t.fab.reqs.map Req.id = s.fab.reqs.map Req.id ∧ t.mem = s.mem)) ∧
    (s.portThere port = false → ∀ i ∈ [Instr.planeFailure port pl, .planeRejoin port pl, .linkTraining port pl, .rekey port pl, .slotAlignmentLoss port pl] ++
        [FlitClass.idle, .ordered, .bulk, .critical].flatMap fun c => [Instr.flitArrival port pl c true, .flitArrival port pl c false], exec i s = .next s)

/-! Translation (R290 to R293). -/

/-- R289 to R293: a walk that is due ends with what the tables hold, and what it read is cached unless an invalidation covers it; one that has come to a table homed elsewhere asks that die for the entry (R376). An invalidation of kind 0 completes once no earlier walk of the die is in flight, and leaves no cached entry of the die. -/
def Obligations.Translations : Prop :=
  (∀ (s : State) (m : Miss), s.xl.miss = [m] → m.ended = none → m.due ≠ 0 → m.due ≤ s.now →
    let ends := fun (u : State) => u.onXl fun x => { x with miss := [{ m with ended := some (s.missWalk m).res }] }
    ((∀ pa, (s.missWalk m).res ≠ .error (xfNeed pa)) → exec .translationWalk s = .next (ends (if m.stale then s else s.cacheWalk m.die m.asid (m.region * 2 ^ 16) (s.missWalk m)))) ∧
    (∀ pa u, (s.missWalk m).res = .error (xfNeed pa) → reqFull s m.die (paDie pa) = false →
      s.sendReq m.die (paDie pa) 0 (m.region * 2 ^ 16) false (.read pa 8) (.walk m.die m.asid m.region) = (u, true) →
      exec .translationWalk s = .next (u.onXl fun x => { x with miss := [{ m with due := 0, asked := some pa }] }))) ∧
  (∀ (s : State) (die n at_ : Nat) (e : QEnt) (a b : BitVec 5), s.xl.inval = [(die, n, at_)] → (s.xl.miss.any fun m => m.die == die && m.ended.isNone && decide (m.started ≤ at_)) = false →
    s.invEntry n = some e → e.i = .tlbinv 0 a b → ∃ t, exec .tlbinvCompletion s = .next t ∧ t.xl.inval = [] ∧ (∀ l ∈ t.xl.leaf, l.die ≠ die) ∧ (∀ x ∈ t.xl.node, x.die ≠ die) ∧
      (∀ l ∈ s.xl.leaf, l.die ≠ die → l ∈ t.xl.leaf) ∧ (∀ c ∈ s.coreIds, dieOf c = die → (t.coreAt c).tc = []) ∧ t.mem = s.mem)

/-! Checkpoints (R407 to R413). -/

/-- R410 to R413: a checkpoint whose job is quiet writes its tables back and clears COMPLETE of its half; then the records and the regions are copied; once every sector is acknowledged the entries and the header go out, then COMPLETE, each once the one before is acknowledged; then the continuations go on and the command completes. A write to a half on this die changes its bytes and no other. The order of the stages and what the records hold are log entry 59. Resumption without a complete half changes nothing; with one it writes the regions back and every continuation of the job is SAVED, or READY as it was captured; it finds the job by the tags that the die remembers (log entry 76). -/
def Obligations.Checkpoints : Prop :=
  (∀ (s : State) (c : Cmd), s.cmd c.id = some c → c.active s.now = true →
    let d := c.ckDesc
    let rs := c.ckRegions
    let idle := s.cmdIdle c.id
    let goes := fun (i : Instr) (f : Cmd → Cmd) => exec i s = .next (s.onCmd c.id f)
    (c.pos = 2 → s.ckQuiet c = true → goes (.checkpointCopy c.id) fun x => { x with pos := 3, items := s.ckWriteBack c }) ∧
    (c.pos = 2 → s.ckQuiet c = false → exec (.checkpointCopy c.id) s = .next s) ∧
    (c.pos = 3 → c.items = [] → idle = true → goes (.checkpointCopy c.id) fun x => { x with pos := 4, items := [(s.halfPa d + 0xC, [0])] }) ∧
    (c.pos = 4 → c.items = [] → idle = true → exec (.checkpointCopy c.id) s = .next (s.ckRecords c d rs)) ∧
    (c.pos = 5 → c.items = [] → goes (.checkpointCopy c.id) fun x => { x with pos := 6 }) ∧
    (∀ va pa u w, c.pos = 6 → (regionPieces rs)[c.aux.getD 0 0]? = some va → s.ckPage c va = .at u pa → u.flawed pa (2 ^ 16) = false →
      u.safeWrite c (u.halfPa d + dataOff d.nreg (c.aux.getD 1 0) + 2 ^ 16 * c.aux.getD 0 0) (2 ^ 16) (fun p m => u.rdBytes (pa + p) m) = .done w →
      exec (.checkpointCopy c.id) s = .next (w.onCmd c.id fun x => { x with aux := [c.aux.getD 0 0 + 1, c.aux.getD 1 0] })) ∧
    (c.pos = 6 → (regionPieces rs)[c.aux.getD 0 0]? = none → goes (.checkpointCopy c.id) fun x => { x with pos := 7 }) ∧
    (c.pos = 7 → idle = true → goes (.checkpointCommit c.id) fun x => { x with pos := 8, items := s.ckEntries c d rs }) ∧
    (c.pos = 7 → idle = false → exec (.checkpointCommit c.id) s = .next s) ∧
    (c.pos = 8 → c.items = [] → idle = true → goes (.checkpointCommit c.id) fun x => { x with pos := 9, items := [(s.halfPa d + 0xC, [1])] }) ∧
    (c.pos = 9 → c.items = [] → idle = true → ∃ t y, exec (.checkpointCommit c.id) s = .next t ∧ t.cmd c.id = some y ∧ y.finished = true ∧ (∀ k ∈ t.sched.ckpts, k.die ≠ c.die) ∧ t.mem = s.mem) ∧
    (∀ i a b r, (c.pos = 4 ∨ c.pos = 5) ∧ i = .checkpointCopy c.id ∨ (c.pos = 8 ∨ c.pos = 9) ∧ i = .checkpointCommit c.id → c.items = (a, b) :: r → c.sent = 0 → (∀ j, j < b.length → paDie (a + j) = c.die) →
      ∃ t y, exec i s = .next t ∧ t.mem = (s.wrBytes a b).mem ∧ t.cmd c.id = some y ∧ y.items = r ∧ y.pos = c.pos)) ∧
  (∀ (s : State) (die : Nat), s.newestHalf die = none → exec (.resumption die) s = .next s) ∧
  (∀ (s : State) (die half jcb : Nat), s.newestHalf die = some half → (∀ c ∈ s.coreIds, dieOf c = die → (s.coreAt c).res = none) →
    (∃ i, i < s.rd (half + 0x14) 4 ∧ ∃ t ∈ s.sched.lostTags ++ s.sched.jtags, t.die = die ∧ t.jcb = jcb ∧
      t.tag.toNat = leNat (((s.rdBytes (half + s.rd (half + 0x28) 8 + 64 * i) 64).drop 0x14).take 2)) → (∀ t ∈ s.sched.lostTags ++ s.sched.jtags, t.jcb = jcb) →
    ∃ t, exec (.resumption die) s = .next t ∧ (∀ k c, t.cont k = some c → keyDie k = die → c.jcb = jcb → c.state = stSaved ∨ c.state = stReady) ∧
      t.mem = (s.reloadPages die (jcbAsid s jcb) (half + s.rd (half + 0x30) 8) (regionPieces (parseRegions (s.rdBytes (half + 0x1000) (16 * s.rd (half + 0x10) 4)) (s.rd (half + 0x10) 4)))).mem)

/-! The host and the chassis (R399 to R406, R415). -/

/-- R400 to R403, R406, R407: what a master's access does. A push of 64 aligned bytes is judged, queued and answered; a write of the owner's reaches its register, which reads back, and another's does not; a first claim, and one of the management controller at any time, takes ownership at once, of two in one cycle the lower KIND's; a target accepts its hand-over, which renames the old owner's entries; a link that goes down leaves OWNER 3; a write through the window performs at its home unless that is no memory or the safe tier, and a read brings its bytes; an attestation writes one quote. Claims in the cycle of an election and the lapse of an offer 10^9 ns on (log entry 80), a quote to an address outside memory (81), the order in which a push is judged (82) and a refused write through the window (95) are deduced. -/
def Obligations.HostAccesses : Prop :=
  ∀ (s : State) (pkg : Nat) (kind : BitVec 2) (v : BitVec 64),
    let h := s.hostAt pkg
    let reads := fun (u : State) (off : Nat) => u.bar0Read pkg kind off
    (∀ die q off bytes, pkgOf die = pkg → kind ≠ 3 → q < 16 → s.dieOk die = true → s.dark.contains pkg = false → bytes.length = 64 → off % 64 = 0 →
      let u := s.pushTo kind.toNat 0 die q (BitVec.ofNat 512 (leNat bytes))
      exec (.push kind die q off bytes) s =
        .next (u.1.onHost pkg fun x => { x with answers := x.answers ++ [((fget 0 x.ansaddr kind.toNat).toNat + 8 * (16 * pkgIndex die + q), u.2)] })) ∧
    (h.owner = kind → kind ≠ 3 →
      (let t := s.onHost pkg fun x => { x with ansaddr := fput 0 kind.toNat (v &&& 0xFFFFFFFFFFFFFC00) x.ansaddr }
       exec (.bar0Write pkg kind 0x18 v) s = .next t ∧ reads t 0x18 = v &&& 0xFFFFFFFFFFFFFC00) ∧
      (let t := s.onHost pkg fun x => { x with winbase := fput 0 kind.toNat (v &&& 0xFFFFFFFC00000000) x.winbase }
       exec (.bar0Write pkg kind 0x20 v) s = .next t ∧ reads t 0x20 = v &&& 0xFFFFFFFC00000000) ∧
      (let t := s.onHost pkg fun x => { x with errcnt := v }
       exec (.bar0Write pkg kind 0x28 v) s = .next t ∧ reads t 0x28 = v) ∧
      (let t := s.onHost pkg fun x => { x with handover := v.setWidth 3, offer := v.getLsbD 2, handoverDue := s.timeb + 1000000000 }
       exec (.handover pkg kind v) s = .next t ∧ reads t 0x10 = (v.setWidth 3).setWidth 64) ∧
      (h.quoting = false → exec (.attest pkg kind v) s = .next (s.onHost pkg fun x => { x with attest := v &&& 0x00FFFFFFFFFFFFFF, quoting := true })) ∧
      (∀ off bytes, off + bytes.length ≤ 2 ^ 34 →
        (s.paWritable (s.windowPa pkg kind off) bytes.length = true → exec (.bar4Write pkg kind off bytes) s = .next (s.wrBytes (s.windowPa pkg kind off) bytes)) ∧
        (s.paWritable (s.windowPa pkg kind off) bytes.length = false → ∃ t, exec (.bar4Write pkg kind off bytes) s = .next t ∧ t.mem = s.mem))) ∧
    (h.owner ≠ kind → ∀ off, off < 0x10000 → exec (.bar0Write pkg kind off v) s = .next s ∧ exec (.handover pkg kind v) s = .next s ∧ exec (.attest pkg kind v) s = .next s ∧
      ∀ o bytes, exec (.bar4Write pkg kind o bytes) s = .next s) ∧
    (∀ off n, off + n ≤ 2 ^ 34 → s.paMemory (s.windowPa pkg kind off) = true → s.paMemory (s.windowPa pkg kind off + n - 1) = true →
      exec (.bar4Read pkg kind off n) s = .next (s.onHost pkg fun x => { x with reads := s.rdBytes (s.windowPa pkg kind off) n })) ∧
    (kind ≠ 3 →
      (h.owner = 3 ∨ (kind = 2 ∧ h.wonAt ≠ some s.now ∧ s.offered pkg kind = false) → ∃ t, exec (.claim pkg kind) s = .next t ∧ (t.hostAt pkg).owner = kind ∧ (t.hostAt pkg).handover = h.handover ∧
        reads t 0 = kind.setWidth 64 ∧ ∀ d ∈ s.pkgDies pkg, fget 0 t.sched.acl (d * 64) = BitVec.ofNat 64 (2 ^ 63 + kind.toNat * 2 ^ 61 + 0xFFFF)) ∧
      (h.owner ≠ 3 → h.wonAt = some s.now → exec (.claim pkg kind) s = .next (if kind < h.owner then s.elect pkg kind else s)) ∧
      (h.owner ≠ 3 → h.wonAt ≠ some s.now → s.offered pkg kind = true →
        exec (.claim pkg kind) s = .next ((s.renameOwner pkg h.owner kind).onHost pkg fun x => { x with owner := kind, offer := false })) ∧
      (h.owner ≠ 3 → h.wonAt ≠ some s.now → kind ≠ 2 → s.offered pkg kind = false → exec (.claim pkg kind) s = .next s)) ∧
    (exec (.ownerLinkDown pkg) s = .next (s.onHost pkg fun x => { x with owner := 3, wonAt := none })) ∧
    (fkeys s.host = [pkg] →
      (h.offer = true → h.handoverDue < s.timeb → exec .handoverLapse s = .next (s.onHost pkg fun x => { x with offer := false })) ∧
      (h.quoting = true → s.paWritable h.attest.toNat 0x160 = true → ∃ t, exec .quoteCompletion s = .next t ∧ (t.hostAt pkg).quoting = false ∧
        t.rd h.attest.toNat 8 = 0x51544F4D5A380001 ∧ t.rd (h.attest.toNat + 8) 8 = h.rollback.toNat ∧ t.rdBytes (h.attest.toNat + 0x10) 0x30 = s.rdBytes (h.attest.toNat + 0x10) 0x30))

/-- R279, R352, R399, R404, R405, R415: a die that boots from a signed image of a version not below the fused counter runs, its access-control table empty but for the entry of an owner already elected; a rejected one says so. A memory error in state that nobody holds is counted; a word of a tile that a job holds, or of memory, stays bad until it is written; a granule is retired. The first die to boot loads the time base, which never falls; a later one leaves it. Heat moves the die's clock, and no other's, a step down or up; THERM holds the hottest junction and the lowest clock of the package (log entry 33); 120 °C removes its power. A package without power loses everything but its fused counter. That a bad place is bad until it is written or retired is log entries 83 and 90. -/
def Obligations.ChassisEvents : Prop :=
  ∀ (s : State) (die : Nat),
    let pkg := pkgOf die
    let h := s.hostAt pkg
    (s.dieOk die = true → s.cfg.bootable = true → s.running.contains die = false →
      (∀ v r, h.rollback ≤ v → ∃ t, exec (.boot die true v r) s = .next t ∧ t.running = s.running ++ [die] ∧ s.timeb ≤ t.timeb ∧ (s.running ≠ [] → t.timeb = s.timeb) ∧ (t.hostAt pkg).bootst = 1 ∧
        fget 0 t.xl.root die = BitVec.ofNat 64 (r % 2 ^ 59) ∧ (h.owner = 3 → ∀ e ∈ t.sched.acl, e.1 / 64 ≠ die) ∧
        (h.owner ≠ 3 → fget 0 t.sched.acl (die * 64) = BitVec.ofNat 64 (2 ^ 63 + h.owner.toNat * 2 ^ 61 + 0xFFFF) ∧ ∀ e ∈ t.sched.acl, e.1 / 64 = die → e.1 = die * 64)) ∧
      (∀ v r, exec (.boot die false v r) s = .next (s.onHost pkg fun x => { x with bootst := 2 })) ∧
      (∀ v r, v < h.rollback → exec (.boot die true v r) s = .next (s.onHost pkg fun x => { x with bootst := 3 }))) ∧
    (∃ t, exec (.correctedError die) s = .next t ∧ (t.hostAt pkg).errcnt.toNat = h.errcnt.toNat / 2 ^ 32 * 2 ^ 32 + Nat.min (h.errcnt.toNat % 2 ^ 32 + 1) (2 ^ 32 - 1) ∧ t.mem = s.mem) ∧
    (∀ cid, dieOf cid = die →
      (∃ t, exec (.uncorrectableError cid .unheld) s = .next t ∧
        (t.hostAt pkg).errcnt.toNat = Nat.min (h.errcnt.toNat / 2 ^ 32 + 1) (2 ^ 32 - 1) * 2 ^ 32 + h.errcnt.toNat % 2 ^ 32 ∧ t.mem = s.mem) ∧
      (∀ w n, n < 2 ^ 18 → (s.tileJob cid w (n / 32)).isSome = true →
        exec (.uncorrectableError cid (.pad w n)) s = .next (s.onCoreAt cid fun c => { c with padBad := c.padBad ++ [(w, n)] })) ∧
      (∀ pa, ∃ t, exec (.uncorrectableError cid (.mem pa)) s = .next t ∧ t.flawed pa 1 = true ∧ (∀ bs, bs ≠ [] → (t.wrBytes pa bs).flawed pa 1 = false) ∧ t.mem = s.mem) ∧
      (448 < (s.coreAt cid).mrfCap → exec (.uncorrectableError cid (.mrf none)) s = .next (s.onCoreAt cid fun c => { c with mrfCap := c.mrfCap - 1 }))) ∧
    (∀ deg, let step := fget 0 h.steps die
      let next := if 105 < deg ∧ step < 7 then step + 1 else if deg < 100 ∧ 0 < step then step - 1 else step
      let temps := fput 0 die deg h.temps
      let steps := fput 0 die next h.steps
      let most := fun (l : FMap Nat) => l.foldl (fun m t => Nat.max m t.2) 0
      (deg < 120 → exec (.throttle die deg) s = .next (s.onHost pkg fun x => { x with temps := temps, steps := steps, therm := BitVec.ofNat 16 (most steps * 256 + Nat.min (most temps) 255) })) ∧
      (120 ≤ deg → exec (.throttle die deg) s = exec (.powerRemoval pkg) s)) ∧
    (∃ t, exec (.powerRemoval pkg) s = .next t ∧ t.hostAt pkg = { HostSt.reset with rollback := h.rollback } ∧ t.dark.contains pkg = true ∧ ∀ d ∈ s.pkgDies pkg,
      (∀ c ∈ t.mem, paDie c.1 ≠ d) ∧ d ∉ t.running ∧ (∀ r ∈ t.sched.ready, r.die ≠ d) ∧ (∀ c ∈ s.coreIds, dieOf c = d → t.coreAt c = Core.reset))

/-! What holds of every instruction and of every step. -/

/-- R11: `s0` reads 0, `p0` reads 1 and `k0` reads all ones, and each ignores writes; every other register reads what was written to it last, in the bits that the write's mask names, and a write changes no other register. R20, R26, R29: a control register that is RO keeps its value, `crwr` to VFLAGS clears the flags written as one, and the others read back what was written in their defined bits. -/
def Obligations.RegistersReadAndWrite : Prop :=
  ∀ (s : State) (n m : BitVec 5) (v : BitVec 64) (p q : BitVec 4) (b : Bool) (k l : BitVec 3) (u w : BitVec 128) (x y : BitVec 1024),
    s.rs 0 = 0 ∧ s.rp 0 = true ∧ s.rk 0 = BitVec.allOnes 128 ∧ s.ws 0 v = s ∧ s.wp 0 b = s ∧
    (n ≠ 0 → (s.ws n v).rs n = v) ∧ (m ≠ n → (s.ws n v).rs m = s.rs m) ∧ (p ≠ 0 → (s.wp p b).rp p = b) ∧ (q ≠ p → (s.wp p b).rp q = s.rp q) ∧
    s.wk 0 w u = s ∧ (k ≠ 0 → (s.wk k w u).rk k = (u &&& w) ||| (s.rk k &&& ~~~w)) ∧ (l ≠ k → (s.wk k w u).rk l = s.rk l) ∧
    (s.wv n x y).rv n = (y &&& x) ||| (s.rv n &&& ~~~x) ∧ (m ≠ n → (s.wv n x y).rv m = s.rv m) ∧
    (∀ c ∈ [0x00#8, 0x01#8, 0x02#8, 0x03#8, 0x12#8, 0x13#8, 0x14#8, 0x29#8], s.crWrite c v = s) ∧
    (∀ c ∈ [0x08#8, 0x22#8, 0x23#8], (s.crWrite c v).crRead c = v) ∧
    (∀ c ∈ [0x09#8, 0x10#8, 0x20#8, 0x21#8], (s.crWrite c v).crRead c = (v.setWidth 32).setWidth 64) ∧
    (s.crWrite 0x0A v).crRead 0x0A = (v.setWidth 16).setWidth 64 ∧ (s.crWrite 0x11 v).crRead 0x11 = (v.setWidth 1).setWidth 64 ∧
    (s.crWrite 0x28 v).crRead 0x28 = (v.setWidth 12).setWidth 64 ∧ (s.crWrite 0x2A v).crRead 0x2A = v &&& 0x00FFFFFFFFFFFE00#64 ∧
    (s.crWrite 0x18 v).crRead 0x18 = s.crRead 0x18 &&& ~~~v

/-- R12: lane-mask bit i governs element i: where a vector result of n lanes lands, lane i is the result's where the bit is set and keeps its prior value where it is clear; mask bits from n on are ignored; element 0 is the least significant; bits above the last lane keep theirs. An FP32 operation at width 1,024 has 32 lanes and an INT8 one 128. -/
def Obligations.MaskedLanes : Prop :=
  (∀ (s : State) (f : VF) (k k' : BitVec 128) (l : List Nat), l.length = lanesIn f.w f.t →
    let e := f.t.bits
    let lane := fun (x : BitVec 1024) (i : Nat) => x.toNat / 2 ^ (e * i) % 2 ^ e
    let t := s.land (putLanes f k l)
    (∀ i, i < l.length → lane (t.rv f.d) i = if k.getLsbD i then l.getD i 0 % 2 ^ e else lane (s.rv f.d) i) ∧
    (∀ j, e * l.length ≤ j → (t.rv f.d).getLsbD j = (s.rv f.d).getLsbD j) ∧ (∀ n, n ≠ f.d → t.rv n = s.rv n) ∧
    ((∀ i, i < l.length → k.getLsbD i = k'.getLsbD i) → putLanes f k l = putLanes f k' l)) ∧
  lanesIn .w1024 .f32 = 32 ∧ lanesIn .w1024 .i8 = 128

/-- R54, R169 to R171: the element operations of the lane forms. On integer types an exact result is narrowed as MOD says: 0b00 wraps it modulo 2^n and raises nothing, 0b01 clamps it to the range of the type and raises SAT exactly where it was outside; a sum, a difference, a product, a product with a sum, a magnitude and a negation are such results; minimum, maximum, clamp and compare go by the number. On floating types they have one rounding (R53 to R55); minimum, maximum and clamp go by the order of the numbers with −0 below +0, `vabs` and `vneg` change the sign bit alone, and a compare by that order, a NaN unequal to all, with NV for a signalling NaN and, of `lt` and `le`, for every NaN. The NaN they make is the canonical one of the type. Whether ∞·0 beside a quiet NaN sets NV is left open (log entry 38). -/
def Obligations.LaneArithmetic : Prop :=
  (∀ (t : ETy) (a b d : Nat), t.isF = false →
    (∀ v : Int, (etNarrow t 0 v).2 = 0 ∧ (etNarrow t 0 v).1 < 2 ^ t.bits ∧ ((etNarrow t 0 v).1 : Int) % (2 ^ t.bits : Nat) = v % (2 ^ t.bits : Nat) ∧
      etIval t (etNarrow t 1 v).1 = max (etLo t) (min (etHi t) v) ∧ ((etNarrow t 1 v).2 = flSAT ↔ (v < etLo t ∨ etHi t < v)) ∧ ((etNarrow t 1 v).2 = 0 ↔ ¬(v < etLo t ∨ etHi t < v))) ∧
    (∀ md, eltAdd t md a b = etNarrow t md (etIval t a + etIval t b) ∧ eltSub t md a b = etNarrow t md (etIval t a - etIval t b) ∧
      eltMul t md a b = etNarrow t md (etIval t a * etIval t b) ∧ eltFma t md a b d = etNarrow t md (etIval t a * etIval t b + etIval t d) ∧
      eltFms t md a b d = etNarrow t md (etIval t a * etIval t b - etIval t d) ∧ eltFnma t md a b d = etNarrow t md (etIval t d - etIval t a * etIval t b) ∧
      eltAbs t md a = etNarrow t md |etIval t a| ∧ eltNeg t md a = etNarrow t md (-(etIval t a))) ∧
    (∃ m n r, eltMin t a b = (m, 0) ∧ eltMax t a b = (n, 0) ∧ eltClamp t a b d = (r, 0) ∧ etIval t m = min (etIval t a) (etIval t b) ∧ etIval t n = max (etIval t a) (etIval t b) ∧
      etIval t r = min (max (etIval t a) (etIval t d)) (etIval t b)) ∧
    eltRel 0 t a b = (decide (etIval t a = etIval t b), 0) ∧ eltRel 1 t a b = (decide (etIval t a ≠ etIval t b), 0) ∧
    eltRel 2 t a b = (decide (etIval t a < etIval t b), 0) ∧ eltRel 3 t a b = (decide (etIval t a ≤ etIval t b), 0) ∧
    etLo t ≤ etIval t a ∧ etIval t a ≤ etHi t) ∧
  (∀ (t : ETy) (md a b d : Nat), t.isF = true → md < 4 →
    let F := etFmt t
    let x := unpack F a
    let y := unpack F b
    let z := unpack F d
    SumIs F md x y (eltAdd t md a b) ∧ SumIs F md x y.neg (eltSub t md a b) ∧ ProdIs F md F x y (eltMul t md a b) ∧
    FmaIs F md x y z (eltFma t md a b d) ∧ FmaIs F md x y z.neg (eltFms t md a b d) ∧ FmaIs F md x.neg y z (eltFnma t md a b d) ∧
    PickIs F min a b (eltMin t a b) ∧ PickIs F max a b (eltMax t a b) ∧ IntegralIs F md x (rndF F md a) ∧
    (∃ m r, PickIs F max d a m ∧ PickIs F min m.1 b r ∧ eltClamp t a b d = (r.1, m.2 ||| r.2)) ∧
    eltAbs t md a = (a % 2 ^ (F.p - 1 + F.ew), 0) ∧ eltNeg t md a = (a ^^^ 2 ^ (F.p - 1 + F.ew), 0) ∧
    ((x.isNan || y.isNan) = true → ∀ r, r < 4 → (eltRel r t a b).1 = decide (r = 1)) ∧
    ((x.isNan || y.isNan) = false → (eltRel 0 t a b).1 = decide (F.orderKey a = F.orderKey b) ∧ (eltRel 1 t a b).1 = decide (F.orderKey a ≠ F.orderKey b) ∧
      (eltRel 2 t a b).1 = decide (F.orderKey a < F.orderKey b) ∧ (eltRel 3 t a b).1 = decide (F.orderKey a ≤ F.orderKey b)) ∧
    (∀ r, r < 4 → (eltRel r t a b).2 = if (if r ≤ 1 then x.isSig || y.isSig else x.isNan || y.isNan) = true then flNV else 0)) ∧
  nanOf f32 = 0x7FC00000 ∧ nanOf bf16 = 0x7FC0 ∧ nanOf f16 = 0x7E00

/-- R172 to R175, R190, R191: what the conversion forms compute, element by element, and where each result stands. `vcvt` and `vcvt8` convert a part under the mask of the destination lanes; `vquant` writes the image of its blocks, elements packed from byte b·BB and the scale in byte 96 + b, all else zero, with QUANT of each block and its flags; `vdequant` reads such an image; `vpack` and `vunpk` narrow and widen integers; `vtopk` sets the bits of the first K eligible lanes by rank, and no flag (log entry 48); `vtemp` multiplies by the reciprocal of a positive temperature and gives the canonical NaN with NV for any other. -/
def Obligations.LaneConversions : Prop :=
  (∀ (ts td : ETy) (md x : Nat), md < 4 → Converted ts td md x (eltCvt ts td md x)) ∧
  (∀ (t : ETy) (md x : Nat), t.isF = true → md < 4 →
    let F := etFmt t
    CvtE4M3Is md F (unpack F x) (toE4M3 md (unpack F x)) ∧ CvtIs e5m2 md F (unpack F x) (toE5M2 md (unpack F x)) ∧
    CvtIs F 0 e4m3 (unpackE4M3 x) (cvtV F 0 (unpackE4M3 x)) ∧ CvtIs F 0 e5m2 (unpack e5m2 x) (cvtV F 0 (unpack e5m2 x)) ∧
    ∀ temp,
      let T := unpack f32 temp
      ((T.isNan = true ∨ T = .inf true ∨ T.isFin = true ∧ f32.units T ≤ 0) → vtempLane t md temp x = (nanOf F, flNV)) ∧
      (T = .inf false → ProdIs F md f32 (unpack F x) (.fin false 0 0) (vtempLane t md temp x)) ∧
      (T.isFin = true → 0 < f32.units T → ProdIs F md f32 (unpack F x) (unpack f32 (recip temp).1) (vtempLane t md temp x))) ∧
  (∀ c ∈ [0, 1, 2, 3, 6, 7, 8], (∀ (ts : Nat) (xs : List Nat), xs.length = 16 → Quantised c ts xs (quant xs c ts)) ∧
    ∀ (ts scale q : Nat) (els : List Nat), Dequantised c ts scale q (cvtV f32 0 (elemValue { fmt := c, els := els, scale := scaleOf c scale ts } q))) ∧
  ∀ (f : VF) (c : Cap),
    let e := f.t.bits
    let n := lanesIn f.w f.t
    let md := f.md.toNat
    let p := f.b.toNat / 8
    let a := c.a.toNat
    let under := fun (off n : Nat) (r : Nat → Nat × Nat) (i : Nat) => if off ≤ i ∧ i < off + n ∧ c.k.getLsbD i = true then some (r (i - off)) else none
    (∀ ts, (Instr.vcvt f).wf = true → etyOf (f.b.toNat % 8) = some ts →
      let m := f.w.bits / Nat.max ts.bits e
      WritesLanes (vcvtGo f c) f.d e (under (if e < ts.bits then p * m else 0) m fun j => eltCvt ts f.t md (laneAt ts.bits (j + if ts.bits < e then p * m else 0) a))) ∧
    ((Instr.vcvt8 f).wf = true →
      let dir := f.b.toNat % 4
      let whole := fun j => laneAt e j a
      let byte := fun j => laneAt 8 (p * n + j) a
      let F := etFmt f.t
      (dir = 0 → WritesLanes (vcvt8Go f c) f.d 8 (under (p * n) n fun j => toE4M3 md (unpack F (whole j)))) ∧
      (dir = 1 → WritesLanes (vcvt8Go f c) f.d 8 (under (p * n) n fun j => toE5M2 md (unpack F (whole j)))) ∧
      (dir = 2 → WritesLanes (vcvt8Go f c) f.d e (under 0 n fun j => cvtV F 0 (unpackE4M3 (byte j)))) ∧
      (dir = 3 → WritesLanes (vcvt8Go f c) f.d e (under 0 n fun j => cvtV F 0 (unpack e5m2 (byte j))))) ∧
    ((Instr.vquant f).wf = true →
      let code := f.b.toNat
      let w := fmtBits code
      let nb := f.w.bits / 512
      let block := fun b => quant ((List.range 16).map fun i => laneAt 32 (16 * b + i) a) code (c.d.toNat % 2 ^ 32)
      ∃ (v : BitVec 1024) (fl : BitVec 6), vquantGo f c = [.vreg f.d (BitVec.allOnes 1024) v, .flags fl] ∧
        (∀ b, b < nb → laneAt 8 (96 + b) v.toNat = (block b).1 % 2 ^ 8 ∧ ∀ i, i < 16 → laneAt w (16 * b + i) v.toNat = (block b).2.1.getD i 0 % 2 ^ w) ∧
        (∀ i, i < 128 → 2 * w * nb ≤ i → (i < 96 ∨ 96 + nb ≤ i) → laneAt 8 i v.toNat = 0) ∧
        ∀ k, k < 6 → (fl.getLsbD k = true ↔ ∃ b, b < nb ∧ (block b).2.2.testBit k = true)) ∧
    ((Instr.vdequant f).wf = true →
      let code := f.b.toNat
      let elem := fun i => laneAt (fmtBits code) i a
      let scale := fun i => scaleOf code (laneAt 8 (96 + i / 16) a) (c.d.toNat % 2 ^ 32)
      WritesLanes (vdequantGo f c) f.d 32 (under 0 (f.w.bits / 32) fun i => cvtV f32 0 (elemValue { fmt := code, els := (List.range 16).map fun j => elem (i / 16 * 16 + j), scale := scale i } (elem i)))) ∧
    ((Instr.vpack f).wf = true → WritesLanes (vpackGo f c) f.d e (under 0 n fun i =>
      etNarrow f.t md (sval (2 * e) (if i < n / 2 then laneAt (2 * e) i a else laneAt (2 * e) (i - n / 2) c.b.toNat)))) ∧
    ((Instr.vunpk f).wf = true →
      let m := f.w.bits / (2 * e)
      WritesLanes (vunpkGo f c) f.d (2 * e) (under 0 m fun i => (wrapN (2 * e) (etIval f.t (laneAt e (i + if f.md.getLsbD 0 then m else 0) a)), 0))) ∧
    let lane := fun i => laneAt e i a
    let ok := fun i => c.k.getLsbD i && !(f.t.isF && (unpack (etFmt f.t) (lane i)).isNan)
    let before := fun j i => decide (eltRank f.t (lane i) < eltRank f.t (lane j) ∨ (eltRank f.t (lane i) = eltRank f.t (lane j) ∧ j < i))
    ∀ i, (((topk f c).map fun i => 2 ^ i).sum).testBit i = decide ((i < n ∧ ok i = true) ∧ ((List.range n).countP fun j => ok j && before j i) < c.sb.toNat)

/-- R77: a slot operation or a branch tree does nothing at its issue but fill the issue buffer: no register, no flag, no control register, no byte of memory, no row of a scratchpad, and nothing of another core, a die or the fabric changes before its effects land. -/
def Obligations.SlotOperationsOnlyIssue : Prop :=
  ∀ (i : Instr) (s : State), (i.classes ≠ [] ∨ i.tree.isSome = true) → IssuesOnly i s ∧
    ∀ t, exec i s = .next t → t.mem = s.mem ∧ t.core.ctx = s.core.ctx ∧ t.core.amem = s.core.amem ∧ t.core.wmem = s.core.wmem ∧ t.core.pend = s.core.pend ∧
      t.sched = s.sched ∧ t.fab = s.fab ∧ t.bar = s.bar ∧ t.cmds = s.cmds ∧ t.clk = s.clk ∧ t.cores = s.cores

/-- R94, R95, R81, R83, R77: a resumable trap withholds its repetition whole, also in a handler, which it ends (log entry 112, with R350); a terminating trap retires it without the faulting slot; with no trap the last repetition retires the bundle, which goes on at the tree's target, two cycles later where that is taken, or at the next bundle. -/
def Obligations.RepetitionSettles : Prop :=
  ∀ s : State, s.queuesFull = false →
    let i := s.core.iss
    let t := s.settle
    (∀ k f, i.raised = [(k, f)] → f.resumable = true → t.core.pend = s.core.pend ∧ t.core.ctx = s.core.ctx ∧ t.core.loadQ = s.core.loadQ ∧ t.core.storeQ = s.core.storeQ ∧
      t.core.rep = s.core.rep ∧ t.core.mode = .stopping (if (s.self.bind Cont.handlerOf).isSome then whyFault else whyTrap) ∧ t.mem = s.mem) ∧
    (∀ k f, i.raised = [(k, f)] → f.resumable = false → t.core.mode = .stopping whyFault ∧ (∀ p ∈ t.core.pend, p ∈ s.core.pend ∨ p.slot ≠ k) ∧
      (∀ p ∈ i.effs, p.slot ≠ k → p.slot ≠ 10 → p.eff ≠ .posted → p.eff.isQueue = false → p ∈ t.core.pend) ∧ t.core.ctx = s.core.ctx ∧ t.mem = s.mem) ∧
    (i.raised = [] → i.rep = i.lastRep → s.ending = false → t.core.ctx.pc = i.target.getD s.nextPc ∧ t.core.lastPc = s.core.ctx.pc ∧ t.core.rep = 0 ∧
      t.core.issueAt = s.now + (if i.target.isSome then 3 else 1) ∧ (∀ p ∈ i.effs, p.eff.isQueue = false → p ∈ t.core.pend) ∧ t.mem = s.mem) ∧
    (i.raised = [] → i.rep < i.lastRep → t.core.ctx = s.core.ctx ∧ t.core.rep = s.core.rep + 1 ∧ t.core.issueAt = s.now + 1 ∧ t.mem = s.mem)

/-- R87: execution that goes on outside the code image, off its words, at a word whose bit is clear, or with a bundle that would pass the image's end takes BUNDLE_ALIGN, terminating, which names the bundle that led there and the rejected address. R77, R93: a repetition whose time has come, whose boundary raises nothing and which no interlock holds, goes into the issue buffer as its plan has it; its slots stand there in the order in which they issue. -/
def Obligations.BundleBoundary : Prop :=
  (∀ s : State,
      let k := s.selfKdesc
      let pc := s.core.ctx.pc.toNat
      let w := (pc - k.code) / 4
      let bad : Trap := { cause := cAlign, pc := s.core.lastPc.toNat, addr := pc }
      s.core.mode = .run → s.core.issueAt ≤ s.now → s.core.rep = 0 →
      (pc < k.code ∨ (pc - k.code) % 4 ≠ 0 ∨ k.clen ≤ w ∨
        ∃ b, s.rdV s.die s.ctl.asid.toNat ((k.bmap + w / 8) % 2 ^ 56) 1 = .ok b ∧
          (b.testBit (w % 8) = false ∨ ∃ h, s.fetchWord pc = .ok h ∧ k.clen < w + bundleLen h.toNat)) →
      s.boundaryTrap = some bad ∧ ∃ t, exec .repetitionIssue s = .next t ∧ t.core.mode = .stopping whyFault ∧ t.core.ctx = s.core.ctx ∧ t.core.pend = s.core.pend ∧ t.mem = s.mem ∧
        ∀ c, s.self = some c → c.reports = [] → ∃ d, t.cont s.selfKey = some d ∧ d.reports = [bad]) ∧
  (∀ (s : State) (ws : List (BitVec 32)) (p : Plan),
      s.core.mode = .run → s.core.issueAt ≤ s.now → s.core.rep = 0 → s.core.words = [] → s.boundaryTrap = none → s.nextWords = .ok ws →
      (s.fillCode ws.length).waitOver = true → (s.fillCode ws.length).plan ws = .ok p → (s.fillCode ws.length).planTrap ws p = none →
      (s.fillCode ws.length).planHold p = false →
      ∃ t, exec .repetitionIssue s = .next t ∧ t.core.iss.todo = p.ops ∧ t.core.iss.len = p.bundle.len ∧ t.core.iss.rep = 0 ∧
        t.core.iss.lastRep = p.bundle.rep ∧ t.core.words = ws ∧ t.core.iss.effs = [] ∧ t.mem = s.mem ∧ t.core.ctx = s.core.ctx)

/-- R6, R284: bytes written at a physical address are read back there, least significant first, and every other byte reads as before; the write keeps memory in its canonical form. A write of the bytes that a range already holds changes nothing of the state, where no word of it is bad (a write also repairs a word, log entry 90). -/
def Obligations.MemoryReadsWhatWasWritten : Prop :=
  ∀ (s : State) (pa n v : Nat) (bs : List (BitVec 8)),
    (s.wrBytes pa bs).rdBytes pa bs.length = bs ∧ (∀ x, x < pa ∨ pa + bs.length ≤ x → (s.wrBytes pa bs).rdByte x = s.rdByte x) ∧
    (s.wr pa n v).rd pa n = v % 2 ^ (8 * n) ∧ (s.MemOk → (s.wrBytes pa bs).MemOk ∧ (s.wr pa n v).MemOk) ∧
    (s.MemOk → s.flawed pa n = false → s.wrBytes pa (s.rdBytes pa n) = s)

/-- The machine right after reset, R11, R15, R20, R37, R277, R399: registers at the values of the register tables, every barrier free and at zero, every tile unassigned, no continuation on any core, OWNER 3 and BOOTST 0, nothing in flight. That memory reads 0x00 is the model's choice (log entry 1). -/
def Obligations.ResetState : Prop :=
  let s := State.reset
  (∀ n, s.rs n = 0) ∧ (∀ n, s.rp n = (n == 0)) ∧ (∀ n, s.rv n = 0) ∧ (∀ n, s.rk n = if n = 0 then BitVec.allOnes 128 else 0) ∧ (∀ n, (s.rst n).valid = false) ∧
  (∀ n, s.rm n = { ad := false, limit := 64, body := .empty }) ∧ (∀ n, s.rq n = 0) ∧ (∀ n, (s.rh n).valid = false) ∧ (∀ n, (s.rsq n).valid = false) ∧
  (∀ c ∈ [0x10#8, 0x11#8, 0x12#8, 0x14#8, 0x18#8, 0x20#8, 0x21#8, 0x22#8, 0x23#8, 0x29#8], s.crRead c = 0) ∧ s.crRead 0x0A = 2048 ∧ s.crRead 0x13 = 512 ∧
  (∀ die n, s.barrier die n = { count := 0, job := none }) ∧ (∀ cid w t, (s.coreAt cid).tile w t = { jtag := 0xFFFF, owner := 0 }) ∧ (∀ cid, (s.coreAt cid).res = none) ∧
  (∀ pkg, (s.hostAt pkg).owner = 3 ∧ (s.hostAt pkg).bootst = 0 ∧ (s.hostAt pkg).errcnt = 0) ∧ s.sched.conts = [] ∧ s.fab.reqs = [] ∧ s.cmds = [] ∧ ∀ pa, s.rdByte pa = 0

/-- A STEP RUNS THE DECODED BUNDLE (R69 to R77, R153): where it is a core's turn, its queues are empty, the pages of its code are translated and nothing else holds or traps, a step fetches the words at the pc, and each operation that they decode to is carried out by exec, in the order tree, S0, S1, LS, V0, V1, RD, MX, AP0, AP1, EC; the repetition is settled, and the end of the core's cycle follows. For a bundle of one slot and no standing operation that is exec of that operation, and MACHINE_CHECK where what it reads is bad (R352). -/
def Obligations.StepRunsTheDecodedBundle : Prop :=
  ∀ (s : State) (c : Nat) (r : List Nat) (ws : List (BitVec 32)) (p : Plan),
    let u := (s.onClk fun x => { x with turn := r }).focus c
    let v := u.fillCode ws.length
    s.allDark = false → s.clk.turn = c :: r → u.core.mode = .run → u.fetchGate = u → u.core.issueAt ≤ u.now → u.core.rep = 0 → u.core.words = [] → u.core.loadQ = [] → u.core.storeQ = [] →
    u.core.spCount ≤ u.ctl.spbound.toNat → u.ctl.budget ≠ 0 → u.marked = none → u.boundaryTrap = none → u.nextWords = .ok ws → v.waitOver = true → v.plan ws = .ok p → 0 < p.bundle.len →
    v.planTrap ws p = none → v.planHold p = false →
    step s = thenDo (runSlots exec p.ops (v.arm ws p)) (fun t => coreTail exec t.settle) ∧
    (∀ k i, v.standing (presentSlots (ws.getD 0 0).toNat) = [] → p.bundle.tree = none → p.bundle.slots = [(k, i)] → decodeBundle (ws.map BitVec.toNat) = .ok p.bundle →
      step s = thenDo (exec i (enterSlot k i (v.arm ws p))) (fun t => coreTail exec (raiseFlaw i t).settle)) ∧
    ∀ (i : Instr) (t : State), t.core.padBad = [] → t.core.accBad = [] → raiseFlaw i t = t

/-- A step stops only where no package has power (R415): every operation and every event has a next state, and so has every other step. That a machine without power stops is the model's form of it (log entry 7). -/
def Obligations.StepNeverStopsUnderPower : Prop :=
  (∀ (i : Instr) (s : State), ∃ t, exec i s = .next t) ∧ (∀ s : State, s.allDark = false → Steps s) ∧ ∀ s : State, s.allDark = true → step s = .fault .noPower

/-- The spec's own words: the words of the examples that stand after R84, R113, R124, R135, R159, R191, R219 and R268, and one word of the reduction and the port class from their formats. -/
def Obligations.SpecWordsDecode : Prop :=
  decodeSlot .scalar 0x04611000 [] = .ok (.add 3 1 2) ∧ decodeSlot .scalar 0x98800001 [0x89ABCDEF, 0x01234567] = .ok (.lix 4 true 0x89ABCDEF 0x01234567) ∧
  decodeSlot .scalar 0x90200003 [] = .ok (.movi 1 3) ∧ decodeSlot .scalar 0xA8410402 [] = .ok (.cmpltImm 1 1 2) ∧
  decodeSlot .ls 0x08410000 [] = .ok (.st 2 1 0) ∧ decodeSlot .ls 0x04610000 [] = .ok (.ld 3 1 0) ∧ decodeSlot .ls 0x18000000 [] = .ok .mark ∧
  decodeSlot .vec 0xE5030000 [] = .ok (.vunif { w := .w512, t := .f32, d := 3, a := 0, b := 0, sb := false, k := 0, md := 0 }) ∧
  decodeSlot .red 0x058A6000 [] = .ok (.rsum { w := .w512, latch := 2, va := 5, sa := false, k := 3, mode := 0 }) ∧
  decodeSlot .mx 0x24048C08 [] = .ok (.mmacs { md := 0, ma := 1, mb := 2, bank := 3, fmt := 0, mods := 8 }) ∧
  decodeSlot .ap 0x04C07000 [] = .ok (.accld { bank := 3, stream := 0, vreg := 7, x := 0, hist := false, mods := 0 }) ∧
  decodeSlot .ec 0xA4981000 [] = .ok (.sqapp 1 6 4) ∧ decodeSlot .ec 0xA89C0000 [] = .ok (.sqacc 1 7) ∧ decodeSlot .ec 0xF0000000 [] = .error .opcode ∧
  decodeTree true [0x11D40000, 0x00100000, 0x0050FFC0, 0x00000000] =
    some (.br { full := true, nt := 1, t0 := 3, t1 := 21, t2 := 0, t3 := 0, path := 0x100000, e0 := 0xFFC0, e1 := 0x0050, e2 := 0, e3 := 0 }) ∧
  decodeTree false [0x08800000, 0x0000FFFD] = some (.br { full := false, nt := 0, t0 := 17, t1 := 0, t2 := 0, t3 := 0, path := 0, e0 := 0xFFFD, e1 := 0, e2 := 0, e3 := 0 }) ∧
  decodeBundle [0xD6010000, 0x04611000, 0x00000000] = .ok { slots := [(0, .add 3 1 2), (9, .nop)], tree := none, rep := 0, drain := false, safe := false, len := 3 } ∧
  decodeBundle [0xD6010000, 0x04611000, 0xF0000000] = .error (subOpcode, some 9)

/-- DECODE AND ENCODE AGREE, for every operation and every operand its form accepts, in every class that holds it: the words that encode writes decode to it; and a word decodes to nothing but a well-formed operation whose encoding is that word, so no bit of a word is dropped (R72 to R74, R79 to R85). -/
def Obligations.DecodeAndEncodeAgree : Prop :=
  (∀ i : Instr, (∀ c ∈ i.classes, i.wf = true → decodeSlot c (encodeWord i) (encodeExt i) = .ok i) ∧ ∀ t, i.tree = some t → i.wf = true → decodeTree t.full (encodeTree i) = some i) ∧
  (∀ c w ext i, decodeSlot c w ext = .ok i → i.wf = true ∧ encodeWord i = w ∧ encodeExt i = ext ∧ opAssigned c (w / 2 ^ 26) = true) ∧
  (∀ full ws i, decodeTree full ws = some i → i.wf = true ∧ encodeTree i = ws ∧ i.tree.isSome = true)

/-- At reset physical memory is in its canonical form. -/
def Obligations.ResetMemoryIsCanonical : Prop := State.reset.MemOk

/-- AN INVARIANT: every step that answers a next state keeps physical memory in its canonical form. -/
def Obligations.EveryStepKeepsMemoryCanonical : Prop := ∀ s t : State, s.MemOk → step s = .next t → t.MemOk
end

