-- ==== Sys2Proof/Laws/Exec.lean ====
section
/-! SUPPORT. exec, arm by arm: each operation is its meaning. -/

namespace Sys2Proof.Machine
set_option Elab.async false

@[simp] theorem exec_add (d a b : BitVec 5) (u : State) : exec (.add d a b) u = execAdd d a b u := rfl
@[simp] theorem exec_sub (d a b : BitVec 5) (u : State) : exec (.sub d a b) u = execSub d a b u := rfl
@[simp] theorem exec_mul (d a b : BitVec 5) (u : State) : exec (.mul d a b) u = execMul d a b u := rfl
@[simp] theorem exec_mulh (d a b : BitVec 5) (f : MulhKind) (u : State) : exec (.mulh d a b f) u = execMulh d a b f u := rfl
@[simp] theorem exec_div (d a b : BitVec 5) (u : Bool) (st : State) : exec (.div d a b u) st = execDiv d a b u st := rfl
@[simp] theorem exec_rem (d a b : BitVec 5) (u : Bool) (st : State) : exec (.rem d a b u) st = execRem d a b u st := rfl
@[simp] theorem exec_and (d a b : BitVec 5) (u : State) : exec (.and d a b) u = execAnd d a b u := rfl
@[simp] theorem exec_or (d a b : BitVec 5) (u : State) : exec (.or d a b) u = execOr d a b u := rfl
@[simp] theorem exec_xor (d a b : BitVec 5) (u : State) : exec (.xor d a b) u = execXor d a b u := rfl
@[simp] theorem exec_sll (d a b : BitVec 5) (u : State) : exec (.sll d a b) u = execSll d a b u := rfl
@[simp] theorem exec_srl (d a b : BitVec 5) (u : State) : exec (.srl d a b) u = execSrl d a b u := rfl
@[simp] theorem exec_sra (d a b : BitVec 5) (u : State) : exec (.sra d a b) u = execSra d a b u := rfl
@[simp] theorem exec_slli (d a : BitVec 5) (n : BitVec 6) (u : State) : exec (.slli d a n) u = execSlli d a n u := rfl
@[simp] theorem exec_srli (d a : BitVec 5) (n : BitVec 6) (u : State) : exec (.srli d a n) u = execSrli d a n u := rfl
@[simp] theorem exec_srai (d a : BitVec 5) (n : BitVec 6) (u : State) : exec (.srai d a n) u = execSrai d a n u := rfl
@[simp] theorem exec_min (d a b : BitVec 5) (u : Bool) (st : State) : exec (.min d a b u) st = execMin d a b u st := rfl
@[simp] theorem exec_max (d a b : BitVec 5) (u : Bool) (st : State) : exec (.max d a b u) st = execMax d a b u st := rfl
@[simp] theorem exec_clz (d a : BitVec 5) (u : State) : exec (.clz d a) u = execClz d a u := rfl
@[simp] theorem exec_ctz (d a : BitVec 5) (u : State) : exec (.ctz d a) u = execCtz d a u := rfl
@[simp] theorem exec_popc (d a : BitVec 5) (u : State) : exec (.popc d a) u = execPopc d a u := rfl
@[simp] theorem exec_bext (d a : BitVec 5) (l p : BitVec 6) (x : Bool) (u : State) : exec (.bext d a l p x) u = execBext d a l p x u := rfl
@[simp] theorem exec_bins (d a : BitVec 5) (l p : BitVec 6) (u : State) : exec (.bins d a l p) u = execBins d a l p u := rfl
@[simp] theorem exec_sel (d a b : BitVec 5) (i : Bool) (n : BitVec 4) (u : State) : exec (.sel d a b i n) u = execSel d a b i n u := rfl
@[simp] theorem exec_addsh (d a b : BitVec 5) (h : BitVec 3) (u : State) : exec (.addsh d a b h) u = execAddsh d a b h u := rfl
@[simp] theorem exec_kset (k : BitVec 3) (a : BitVec 5) (h : Bool) (u : State) : exec (.kset k a h) u = execKset k a h u := rfl
@[simp] theorem exec_kget (d : BitVec 5) (k : BitVec 3) (h : Bool) (u : State) : exec (.kget d k h) u = execKget d k h u := rfl
@[simp] theorem exec_crrd (d : BitVec 5) (c : BitVec 8) (u : State) : exec (.crrd d c) u = execCrrd d c u := rfl
@[simp] theorem exec_crwr (a : BitVec 5) (c : BitVec 8) (u : State) : exec (.crwr a c) u = execCrwr a c u := rfl
@[simp] theorem exec_fadd (d a b : BitVec 5) (m : BitVec 2) (u : State) : exec (.fadd d a b m) u = execFadd d a b m u := rfl
@[simp] theorem exec_fmul (d a b : BitVec 5) (m : BitVec 2) (u : State) : exec (.fmul d a b m) u = execFmul d a b m u := rfl
@[simp] theorem exec_fcvt (d a : BitVec 5) (k : BitVec 3) (m : BitVec 2) (u : State) : exec (.fcvt d a k m) u = execFcvt d a k m u := rfl
@[simp] theorem exec_addi (d a : BitVec 5) (i : BitVec 16) (u : State) : exec (.addi d a i) u = execAddi d a i u := rfl
@[simp] theorem exec_andi (d a : BitVec 5) (i : BitVec 16) (u : State) : exec (.andi d a i) u = execAndi d a i u := rfl
@[simp] theorem exec_ori (d a : BitVec 5) (i : BitVec 16) (u : State) : exec (.ori d a i) u = execOri d a i u := rfl
@[simp] theorem exec_xori (d a : BitVec 5) (i : BitVec 16) (u : State) : exec (.xori d a i) u = execXori d a i u := rfl
@[simp] theorem exec_movi (d : BitVec 5) (i : BitVec 16) (u : State) : exec (.movi d i) u = execMovi d i u := rfl
@[simp] theorem exec_movh (d a : BitVec 5) (i : BitVec 16) (u : State) : exec (.movh d a i) u = execMovh d a i u := rfl
@[simp] theorem exec_lix (d : BitVec 5) (long : Bool) (lo hi : BitVec 32) (u : State) : exec (.lix d long lo hi) u = execLix d long lo hi u := rfl
@[simp] theorem exec_cmpeq (p : BitVec 4) (a b : BitVec 5) (u : State) : exec (.cmpeq p a b) u = execCmpeq p a b u := rfl
@[simp] theorem exec_cmpeqImm (p : BitVec 4) (a : BitVec 5) (i : BitVec 10) (u : State) : exec (.cmpeqImm p a i) u = execCmpeqImm p a i u := rfl
@[simp] theorem exec_cmpne (p : BitVec 4) (a b : BitVec 5) (u : State) : exec (.cmpne p a b) u = execCmpne p a b u := rfl
@[simp] theorem exec_cmpneImm (p : BitVec 4) (a : BitVec 5) (i : BitVec 10) (u : State) : exec (.cmpneImm p a i) u = execCmpneImm p a i u := rfl
@[simp] theorem exec_cmplt (p : BitVec 4) (a b : BitVec 5) (u : State) : exec (.cmplt p a b) u = execCmplt p a b u := rfl
@[simp] theorem exec_cmpltImm (p : BitVec 4) (a : BitVec 5) (i : BitVec 10) (u : State) : exec (.cmpltImm p a i) u = execCmpltImm p a i u := rfl
@[simp] theorem exec_cmple (p : BitVec 4) (a b : BitVec 5) (u : State) : exec (.cmple p a b) u = execCmple p a b u := rfl
@[simp] theorem exec_cmpleImm (p : BitVec 4) (a : BitVec 5) (i : BitVec 10) (u : State) : exec (.cmpleImm p a i) u = execCmpleImm p a i u := rfl
@[simp] theorem exec_cmpltu (p : BitVec 4) (a b : BitVec 5) (u : State) : exec (.cmpltu p a b) u = execCmpltu p a b u := rfl
@[simp] theorem exec_cmpltuImm (p : BitVec 4) (a : BitVec 5) (i : BitVec 10) (u : State) : exec (.cmpltuImm p a i) u = execCmpltuImm p a i u := rfl
@[simp] theorem exec_cmpleu (p : BitVec 4) (a b : BitVec 5) (u : State) : exec (.cmpleu p a b) u = execCmpleu p a b u := rfl
@[simp] theorem exec_cmpleuImm (p : BitVec 4) (a : BitVec 5) (i : BitVec 10) (u : State) : exec (.cmpleuImm p a i) u = execCmpleuImm p a i u := rfl
@[simp] theorem exec_fcmp (p : BitVec 4) (a b : BitVec 5) (r : BitVec 2) (u : State) : exec (.fcmp p a b r) u = execFcmp p a b r u := rfl
@[simp] theorem exec_pand (p : BitVec 4) (x : Bool) (a : BitVec 4) (y : Bool) (b : BitVec 4) (u : State) : exec (.pand p x a y b) u = execPand p x a y b u := rfl
@[simp] theorem exec_por (p : BitVec 4) (x : Bool) (a : BitVec 4) (y : Bool) (b : BitVec 4) (u : State) : exec (.por p x a y b) u = execPor p x a y b u := rfl
@[simp] theorem exec_pxor (p : BitVec 4) (x : Bool) (a : BitVec 4) (y : Bool) (b : BitVec 4) (u : State) : exec (.pxor p x a y b) u = execPxor p x a y b u := rfl
@[simp] theorem exec_br (t : Tree) (u : State) : exec (.br t) u = execBr t u := rfl
@[simp] theorem exec_call (t : Tree) (u : State) : exec (.call t) u = execCall t u := rfl
@[simp] theorem exec_brx (t : Tree) (u : State) : exec (.brx t) u = execBrx t u := rfl
@[simp] theorem exec_ld (d a : BitVec 5) (o : BitVec 16) (u : State) : exec (.ld d a o) u = execLd d a o u := rfl
@[simp] theorem exec_st (v a : BitVec 5) (o : BitVec 16) (u : State) : exec (.st v a o) u = execSt v a o u := rfl
@[simp] theorem exec_ldacq (d a : BitVec 5) (s : Scope) (o : BitVec 13) (u : State) : exec (.ldacq d a s o) u = execLdacq d a s o u := rfl
@[simp] theorem exec_strel (v a : BitVec 5) (s : Scope) (o : BitVec 13) (u : State) : exec (.strel v a s o) u = execStrel v a s o u := rfl
@[simp] theorem exec_pf (h : Bool) (a : BitVec 5) (o : BitVec 16) (u : State) : exec (.pf h a o) u = execPf h a o u := rfl
@[simp] theorem exec_fence (s : Scope) (k : BitVec 2) (u : State) : exec (.fence s k) u = execFence s k u := rfl
@[simp] theorem exec_amoadd (d a b : BitVec 5) (s : Scope) (o : BitVec 2) (u : State) : exec (.amoadd d a b s o) u = execAmoadd d a b s o u := rfl
@[simp] theorem exec_amoand (d a b : BitVec 5) (s : Scope) (o : BitVec 2) (u : State) : exec (.amoand d a b s o) u = execAmoand d a b s o u := rfl
@[simp] theorem exec_amoor (d a b : BitVec 5) (s : Scope) (o : BitVec 2) (u : State) : exec (.amoor d a b s o) u = execAmoor d a b s o u := rfl
@[simp] theorem exec_amoxor (d a b : BitVec 5) (s : Scope) (o : BitVec 2) (u : State) : exec (.amoxor d a b s o) u = execAmoxor d a b s o u := rfl
@[simp] theorem exec_amomin (d a b : BitVec 5) (s : Scope) (o : BitVec 2) (u : Bool) (st : State) : exec (.amomin d a b s o u) st = execAmomin d a b s o u st := rfl
@[simp] theorem exec_amomax (d a b : BitVec 5) (s : Scope) (o : BitVec 2) (u : Bool) (st : State) : exec (.amomax d a b s o u) st = execAmomax d a b s o u st := rfl
@[simp] theorem exec_amoswap (d a b : BitVec 5) (s : Scope) (o : BitVec 2) (u : State) : exec (.amoswap d a b s o) u = execAmoswap d a b s o u := rfl
@[simp] theorem exec_amocas (d a b : BitVec 5) (s : Scope) (o : BitVec 2) (u : State) : exec (.amocas d a b s o) u = execAmocas d a b s o u := rfl
@[simp] theorem exec_stld (n a : BitVec 5) (o : BitVec 16) (u : State) : exec (.stld n a o) u = execStld n a o u := rfl
@[simp] theorem exec_stset (n a : BitVec 5) (s : BitVec 3) (u : State) : exec (.stset n a s) u = execStset n a s u := rfl
@[simp] theorem exec_stget (d n : BitVec 5) (s : BitVec 3) (u : State) : exec (.stget d n s) u = execStget d n s u := rfl
@[simp] theorem exec_stadv (n a : BitVec 5) (u : State) : exec (.stadv n a) u = execStadv n a u := rfl
@[simp] theorem exec_vld (f : LF) (u : State) : exec (.vld f) u = execVld f u := rfl
@[simp] theorem exec_vst (f : LF) (u : State) : exec (.vst f) u = execVst f u := rfl
@[simp] theorem exec_vldb (f : LF) (u : State) : exec (.vldb f) u = execVldb f u := rfl
@[simp] theorem exec_vpf (f : LF) (u : State) : exec (.vpf f) u = execVpf f u := rfl
@[simp] theorem exec_vscat (f : LF) (u : State) : exec (.vscat f) u = execVscat f u := rfl
@[simp] theorem exec_vscadd (f : LF) (u : State) : exec (.vscadd f) u = execVscadd f u := rfl
@[simp] theorem exec_vscmax (f : LF) (u : State) : exec (.vscmax f) u = execVscmax f u := rfl
@[simp] theorem exec_vredst (f : LF) (u : State) : exec (.vredst f) u = execVredst f u := rfl
@[simp] theorem exec_vadd (f : VF) (u : State) : exec (.vadd f) u = execVadd f u := rfl
@[simp] theorem exec_vsub (f : VF) (u : State) : exec (.vsub f) u = execVsub f u := rfl
@[simp] theorem exec_vmul (f : VF) (u : State) : exec (.vmul f) u = execVmul f u := rfl
@[simp] theorem exec_vfma (f : VF) (u : State) : exec (.vfma f) u = execVfma f u := rfl
@[simp] theorem exec_vfms (f : VF) (u : State) : exec (.vfms f) u = execVfms f u := rfl
@[simp] theorem exec_vfnma (f : VF) (u : State) : exec (.vfnma f) u = execVfnma f u := rfl
@[simp] theorem exec_vmulh (f : VF) (u : State) : exec (.vmulh f) u = execVmulh f u := rfl
@[simp] theorem exec_vmin (f : VF) (u : State) : exec (.vmin f) u = execVmin f u := rfl
@[simp] theorem exec_vmax (f : VF) (u : State) : exec (.vmax f) u = execVmax f u := rfl
@[simp] theorem exec_vabs (f : VF) (u : State) : exec (.vabs f) u = execVabs f u := rfl
@[simp] theorem exec_vneg (f : VF) (u : State) : exec (.vneg f) u = execVneg f u := rfl
@[simp] theorem exec_vclamp (f : VF) (u : State) : exec (.vclamp f) u = execVclamp f u := rfl
@[simp] theorem exec_vrnd (f : VF) (u : State) : exec (.vrnd f) u = execVrnd f u := rfl
@[simp] theorem exec_vand (f : VF) (u : State) : exec (.vand f) u = execVand f u := rfl
@[simp] theorem exec_vor (f : VF) (u : State) : exec (.vor f) u = execVor f u := rfl
@[simp] theorem exec_vxor (f : VF) (u : State) : exec (.vxor f) u = execVxor f u := rfl
@[simp] theorem exec_vnot (f : VF) (u : State) : exec (.vnot f) u = execVnot f u := rfl
@[simp] theorem exec_vsll (f : VF) (u : State) : exec (.vsll f) u = execVsll f u := rfl
@[simp] theorem exec_vsrl (f : VF) (u : State) : exec (.vsrl f) u = execVsrl f u := rfl
@[simp] theorem exec_vsra (f : VF) (u : State) : exec (.vsra f) u = execVsra f u := rfl
@[simp] theorem exec_vcmpeq (f : VF) (u : State) : exec (.vcmpeq f) u = execVcmpeq f u := rfl
@[simp] theorem exec_vcmpne (f : VF) (u : State) : exec (.vcmpne f) u = execVcmpne f u := rfl
@[simp] theorem exec_vcmplt (f : VF) (u : State) : exec (.vcmplt f) u = execVcmplt f u := rfl
@[simp] theorem exec_vcmple (f : VF) (u : State) : exec (.vcmple f) u = execVcmple f u := rfl
@[simp] theorem exec_vclass (f : VF) (u : State) : exec (.vclass f) u = execVclass f u := rfl
@[simp] theorem exec_vsel (f : VF) (u : State) : exec (.vsel f) u = execVsel f u := rfl
@[simp] theorem exec_vmov (f : VF) (u : State) : exec (.vmov f) u = execVmov f u := rfl
@[simp] theorem exec_vbcast (f : VF) (u : State) : exec (.vbcast f) u = execVbcast f u := rfl
@[simp] theorem exec_vins (f : VF) (u : State) : exec (.vins f) u = execVins f u := rfl
@[simp] theorem exec_vext (f : VF) (u : State) : exec (.vext f) u = execVext f u := rfl
@[simp] theorem exec_vgath (f : VF) (u : State) : exec (.vgath f) u = execVgath f u := rfl
@[simp] theorem exec_vcvt (f : VF) (u : State) : exec (.vcvt f) u = execVcvt f u := rfl
@[simp] theorem exec_vcvt8 (f : VF) (u : State) : exec (.vcvt8 f) u = execVcvt8 f u := rfl
@[simp] theorem exec_vquant (f : VF) (u : State) : exec (.vquant f) u = execVquant f u := rfl
@[simp] theorem exec_vdequant (f : VF) (u : State) : exec (.vdequant f) u = execVdequant f u := rfl
@[simp] theorem exec_vpack (f : VF) (u : State) : exec (.vpack f) u = execVpack f u := rfl
@[simp] theorem exec_vunpk (f : VF) (u : State) : exec (.vunpk f) u = execVunpk f u := rfl
@[simp] theorem exec_vshuf (f : VF) (u : State) : exec (.vshuf f) u = execVshuf f u := rfl
@[simp] theorem exec_vrotm (f : VF) (u : State) : exec (.vrotm f) u = execVrotm f u := rfl
@[simp] theorem exec_vzip (f : VF) (u : State) : exec (.vzip f) u = execVzip f u := rfl
@[simp] theorem exec_vuzp (f : VF) (u : State) : exec (.vuzp f) u = execVuzp f u := rfl
@[simp] theorem exec_vrev (f : VF) (u : State) : exec (.vrev f) u = execVrev f u := rfl
@[simp] theorem exec_vslide (f : VF) (u : State) : exec (.vslide f) u = execVslide f u := rfl
@[simp] theorem exec_vpark (f : VF) (u : State) : exec (.vpark f) u = execVpark f u := rfl
@[simp] theorem exec_vunpark (f : VF) (u : State) : exec (.vunpark f) u = execVunpark f u := rfl
@[simp] theorem exec_vexp2 (f : VF) (u : State) : exec (.vexp2 f) u = execVexp2 f u := rfl
@[simp] theorem exec_vlog2 (f : VF) (u : State) : exec (.vlog2 f) u = execVlog2 f u := rfl
@[simp] theorem exec_vrcp (f : VF) (u : State) : exec (.vrcp f) u = execVrcp f u := rfl
@[simp] theorem exec_vrsqrt (f : VF) (u : State) : exec (.vrsqrt f) u = execVrsqrt f u := rfl
@[simp] theorem exec_vsin (f : VF) (u : State) : exec (.vsin f) u = execVsin f u := rfl
@[simp] theorem exec_vcos (f : VF) (u : State) : exec (.vcos f) u = execVcos f u := rfl
@[simp] theorem exec_vtanh (f : VF) (u : State) : exec (.vtanh f) u = execVtanh f u := rfl
@[simp] theorem exec_vqraw (f : VF) (u : State) : exec (.vqraw f) u = execVqraw f u := rfl
@[simp] theorem exec_vunif (f : VF) (u : State) : exec (.vunif f) u = execVunif f u := rfl
@[simp] theorem exec_vnorm (f : VF) (u : State) : exec (.vnorm f) u = execVnorm f u := rfl
@[simp] theorem exec_vcat (f : VF) (u : State) : exec (.vcat f) u = execVcat f u := rfl
@[simp] theorem exec_vtopk (f : VF) (u : State) : exec (.vtopk f) u = execVtopk f u := rfl
@[simp] theorem exec_vtemp (f : VF) (u : State) : exec (.vtemp f) u = execVtemp f u := rfl
@[simp] theorem exec_rsum (f : RF) (u : State) : exec (.rsum f) u = execRsum f u := rfl
@[simp] theorem exec_rmax (f : RF) (u : State) : exec (.rmax f) u = execRmax f u := rfl
@[simp] theorem exec_rmin (f : RF) (u : State) : exec (.rmin f) u = execRmin f u := rfl
@[simp] theorem exec_rsumsq (f : RF) (u : State) : exec (.rsumsq f) u = execRsumsq f u := rfl
@[simp] theorem exec_rmov (f : RF) (u : State) : exec (.rmov f) u = execRmov f u := rfl
@[simp] theorem exec_rclr (f : RF) (u : State) : exec (.rclr f) u = execRclr f u := rfl
@[simp] theorem exec_mld (f : MF) (u : State) : exec (.mld f) u = execMld f u := rfl
@[simp] theorem exec_mldu (f : MF) (u : State) : exec (.mldu f) u = execMldu f u := rfl
@[simp] theorem exec_mldv (f : MF) (u : State) : exec (.mldv f) u = execMldv f u := rfl
@[simp] theorem exec_mst (f : MF) (u : State) : exec (.mst f) u = execMst f u := rfl
@[simp] theorem exec_mstu (f : MF) (u : State) : exec (.mstu f) u = execMstu f u := rfl
@[simp] theorem exec_mstv (f : MF) (u : State) : exec (.mstv f) u = execMstv f u := rfl
@[simp] theorem exec_mmov (f : MF) (u : State) : exec (.mmov f) u = execMmov f u := rfl
@[simp] theorem exec_mmac (f : MF) (u : State) : exec (.mmac f) u = execMmac f u := rfl
@[simp] theorem exec_mmacs (f : MF) (u : State) : exec (.mmacs f) u = execMmacs f u := rfl
@[simp] theorem exec_mmacr (f : MF) (u : State) : exec (.mmacr f) u = execMmacr f u := rfl
@[simp] theorem exec_mmacm (f : MF) (u : State) : exec (.mmacm f) u = execMmacm f u := rfl
@[simp] theorem exec_mmul (f : MF) (u : State) : exec (.mmul f) u = execMmul f u := rfl
@[simp] theorem exec_madd (f : MF) (u : State) : exec (.madd f) u = execMadd f u := rfl
@[simp] theorem exec_msub (f : MF) (u : State) : exec (.msub f) u = execMsub f u := rfl
@[simp] theorem exec_mscale (f : MF) (u : State) : exec (.mscale f) u = execMscale f u := rfl
@[simp] theorem exec_mtr (f : MF) (u : State) : exec (.mtr f) u = execMtr f u := rfl
@[simp] theorem exec_recomp (f : MF) (u : State) : exec (.recomp f) u = execRecomp f u := rfl
@[simp] theorem exec_densify (f : MF) (u : State) : exec (.densify f) u = execDensify f u := rfl
@[simp] theorem exec_mctl (d : BitVec 4) (l : BitVec 7) (x : Bool) (u : State) : exec (.mctl d l x) u = execMctl d l x u := rfl
@[simp] theorem exec_mfree (f : MF) (u : State) : exec (.mfree f) u = execMfree f u := rfl
@[simp] theorem exec_macrd (f : MF) (u : State) : exec (.macrd f) u = execMacrd f u := rfl
@[simp] theorem exec_macwr (f : MF) (u : State) : exec (.macwr f) u = execMacwr f u := rfl
@[simp] theorem exec_accld (f : AF) (u : State) : exec (.accld f) u = execAccld f u := rfl
@[simp] theorem exec_accwr (f : AF) (u : State) : exec (.accwr f) u = execAccwr f u := rfl
@[simp] theorem exec_accadd (f : AF) (u : State) : exec (.accadd f) u = execAccadd f u := rfl
@[simp] theorem exec_accst (f : AF) (u : State) : exec (.accst f) u = execAccst f u := rfl
@[simp] theorem exec_accqst (f : AF) (u : State) : exec (.accqst f) u = execAccqst f u := rfl
@[simp] theorem exec_accclr (f : AF) (u : State) : exec (.accclr f) u = execAccclr f u := rfl
@[simp] theorem exec_accmv (f : AF) (u : State) : exec (.accmv f) u = execAccmv f u := rfl
@[simp] theorem exec_accscl (f : AF) (u : State) : exec (.accscl f) u = execAccscl f u := rfl
@[simp] theorem exec_ecopy (f : EcopyF) (u : State) : exec (.ecopy f) u = execEcopy f u := rfl
@[simp] theorem exec_own (s : BitVec 2) (b : Bool) (f c : BitVec 7) (u : State) : exec (.own s b f c) u = execOwn s b f c u := rfl
@[simp] theorem exec_rset (n : BitVec 3) (b : Bool) (f c : BitVec 7) (d : Bool) (u : State) : exec (.rset n b f c d) u = execRset n b f c d u := rfl
@[simp] theorem exec_rwait (h : BitVec 3) (k : Bool) (n : BitVec 8) (l : BitVec 5) (u : State) : exec (.rwait h k n l) u = execRwait h k n l u := rfl
@[simp] theorem exec_radv (h : BitVec 3) (i : Bool) (n : BitVec 8) (u : State) : exec (.radv h i n) u = execRadv h i n u := rfl
@[simp] theorem exec_barr (n : BitVec 6) (r : Bool) (d : BitVec 5) (u : State) : exec (.barr n r d) u = execBarr n r d u := rfl
@[simp] theorem exec_bwait (n : BitVec 6) (l : BitVec 5) (c : BitVec 5) (u : State) : exec (.bwait n l c) u = execBwait n l c u := rfl
@[simp] theorem exec_bwaitImm (n : BitVec 6) (l : BitVec 5) (c : BitVec 8) (u : State) : exec (.bwaitImm n l c) u = execBwaitImm n l c u := rfl
@[simp] theorem exec_breset (n : BitVec 6) (u : State) : exec (.breset n) u = execBreset n u := rfl
@[simp] theorem exec_balloc (p : BitVec 4) (n : BitVec 6) (u : State) : exec (.balloc p n) u = execBalloc p n u := rfl
@[simp] theorem exec_bfree (n : BitVec 6) (u : State) : exec (.bfree n) u = execBfree n u := rfl
@[simp] theorem exec_hxch (n : BitVec 5) (f b : BitVec 6) (u : State) : exec (.hxch n f b) u = execHxch n f b u := rfl
@[simp] theorem exec_reshard (e v : BitVec 4) (b : BitVec 6) (u : State) : exec (.reshard e v b) u = execReshard e v b u := rfl
@[simp] theorem exec_rsload (v : BitVec 4) (a : BitVec 5) (u : State) : exec (.rsload v a) u = execRsload v a u := rfl
@[simp] theorem exec_coll (a : BitVec 5) (b : BitVec 6) (u : State) : exec (.coll a b) u = execColl a b u := rfl
@[simp] theorem exec_edisp (a : BitVec 5) (b : BitVec 6) (u : State) : exec (.edisp a b) u = execEdisp a b u := rfl
@[simp] theorem exec_ecomb (a : BitVec 5) (b : BitVec 6) (u : State) : exec (.ecomb a b) u = execEcomb a b u := rfl
@[simp] theorem exec_put (a : BitVec 5) (b : BitVec 6) (u : State) : exec (.put a b) u = execPut a b u := rfl
@[simp] theorem exec_get (a : BitVec 5) (b : BitVec 6) (u : State) : exec (.get a b) u = execGet a b u := rfl
@[simp] theorem exec_spawn (f : SpawnF) (u : State) : exec (.spawn f) u = execSpawn f u := rfl
@[simp] theorem exec_done (j : Bool) (u : State) : exec (.done j) u = execDone j u := rfl
@[simp] theorem exec_jraise (a : BitVec 5) (u : State) : exec (.jraise a) u = execJraise a u := rfl
@[simp] theorem exec_cpost (a b : BitVec 5) (s : Scope) (j : Bool) (u : State) : exec (.cpost a b s j) u = execCpost a b s j u := rfl
@[simp] theorem exec_slice (b : BitVec 5) (y : Bool) (lo hi : BitVec 32) (u : State) : exec (.slice b y lo hi) u = execSlice b y lo hi u := rfl
@[simp] theorem exec_trap (a : BitVec 5) (u : State) : exec (.trap a) u = execTrap a u := rfl
@[simp] theorem exec_tsub (n : BitVec 3) (a : BitVec 5) (b : BitVec 6) (p : BitVec 4) (u : State) : exec (.tsub n a b p) u = execTsub n a b p u := rfl
@[simp] theorem exec_rverd (v : BitVec 2) (u : State) : exec (.rverd v) u = execRverd v u := rfl
@[simp] theorem exec_tlog (a b : BitVec 5) (u : State) : exec (.tlog a b) u = execTlog a b u := rfl
@[simp] theorem exec_tsload (n : BitVec 3) (a : BitVec 5) (p : BitVec 4) (u : State) : exec (.tsload n a p) u = execTsload n a p u := rfl
@[simp] theorem exec_tsstat (d : BitVec 5) (n g s : BitVec 3) (u : State) : exec (.tsstat d n g s) u = execTsstat d n g s u := rfl
@[simp] theorem exec_sqset (n : BitVec 3) (a : BitVec 5) (u : State) : exec (.sqset n a) u = execSqset n a u := rfl
@[simp] theorem exec_sqapp (n : BitVec 3) (d : BitVec 5) (c : BitVec 8) (u : State) : exec (.sqapp n d c) u = execSqapp n d c u := rfl
@[simp] theorem exec_sqacc (n : BitVec 3) (a : BitVec 5) (u : State) : exec (.sqacc n a) u = execSqacc n a u := rfl
@[simp] theorem exec_sqrej (n : BitVec 3) (u : State) : exec (.sqrej n) u = execSqrej n u := rfl
@[simp] theorem exec_lyrd (d : BitVec 5) (e : BitVec 4) (s : BitVec 3) (u : State) : exec (.lyrd d e s) u = execLyrd d e s u := rfl
@[simp] theorem exec_lywr (e : BitVec 4) (a : BitVec 5) (s : BitVec 3) (u : State) : exec (.lywr e a s) u = execLywr e a s u := rfl
@[simp] theorem exec_tlbinv (k : BitVec 2) (a b : BitVec 5) (u : State) : exec (.tlbinv k a b) u = execTlbinv k a b u := rfl
@[simp] theorem exec_aclwr (a b : BitVec 5) (u : State) : exec (.aclwr a b) u = execAclwr a b u := rfl
@[simp] theorem exec_ckpt (a : BitVec 5) (b : BitVec 6) (u : State) : exec (.ckpt a b) u = execCkpt a b u := rfl
@[simp] theorem exec_offCoreLoadResponse (id : Nat) (u : State) : exec (.offCoreLoadResponse id) u = execOffCoreLoadResponse id u := rfl
@[simp] theorem exec_queueEntryPerform (store : Bool) (u : State) : exec (.queueEntryPerform store) u = execQueueEntryPerform store u := rfl
@[simp] theorem exec_offCoreFaultReport (id : Nat) (u : State) : exec (.offCoreFaultReport id) u = execOffCoreFaultReport id u := rfl
@[simp] theorem exec_engineCommandCompletion (id : Nat) (u : State) : exec (.engineCommandCompletion id) u = execEngineCommandCompletion id u := rfl
@[simp] theorem exec_engineFailureReport (id : Nat) (u : State) : exec (.engineFailureReport id) u = execEngineFailureReport id u := rfl
@[simp] theorem exec_ringBlockTransfer (id : Nat) (u : State) : exec (.ringBlockTransfer id) u = execRingBlockTransfer id u := rfl
@[simp] theorem exec_pipeTileCopy (gang : Nat) (pipe : Nat) (u : State) : exec (.pipeTileCopy gang pipe) u = execPipeTileCopy gang pipe u := rfl
@[simp] theorem exec_haloFaceArrival (id : Nat) (u : State) : exec (.haloFaceArrival id) u = execHaloFaceArrival id u := rfl
@[simp] theorem exec_reshardStep (id : Nat) (u : State) : exec (.reshardStep id) u = execReshardStep id u := rfl
@[simp] theorem exec_stepTokenArrival (id : Nat) (u : State) : exec (.stepTokenArrival id) u = execStepTokenArrival id u := rfl
@[simp] theorem exec_barrierArrival (id : Nat) (u : State) : exec (.barrierArrival id) u = execBarrierArrival id u := rfl
@[simp] theorem exec_recordAdmission (id : Nat) (u : State) : exec (.recordAdmission id) u = execRecordAdmission id u := rfl
@[simp] theorem exec_recordCompletion (set : Nat) (place : Nat) (u : State) : exec (.recordCompletion set place) u = execRecordCompletion set place u := rfl
@[simp] theorem exec_packetExpansion (die : Nat) (u : State) : exec (.packetExpansion die) u = execPacketExpansion die u := rfl
@[simp] theorem exec_gangClaim (gang : Nat) (u : State) : exec (.gangClaim gang) u = execGangClaim gang u := rfl
@[simp] theorem exec_gangAdmission (gang : Nat) (u : State) : exec (.gangAdmission gang) u = execGangAdmission gang u := rfl
@[simp] theorem exec_gangResume (gang : Nat) (u : State) : exec (.gangResume gang) u = execGangResume gang u := rfl
@[simp] theorem exec_jobCompletion (jcb : Nat) (u : State) : exec (.jobCompletion jcb) u = execJobCompletion jcb u := rfl
@[simp] theorem exec_completionSignal (jcb : Nat) (u : State) : exec (.completionSignal jcb) u = execCompletionSignal jcb u := rfl
@[simp] theorem exec_resume (handle : Nat) (u : State) : exec (.resume handle) u = execResume handle u := rfl
@[simp] theorem exec_fault (handle : Nat) (u : State) : exec (.fault handle) u = execFault handle u := rfl
@[simp] theorem exec_endTrapped (handle : Nat) (u : State) : exec (.endTrapped handle) u = execEndTrapped handle u := rfl
@[simp] theorem exec_endPost (handle : Nat) (u : State) : exec (.endPost handle) u = execEndPost handle u := rfl
@[simp] theorem exec_requestArrival (id : Nat) (u : State) : exec (.requestArrival id) u = execRequestArrival id u := rfl
@[simp] theorem exec_acknowledgement (id : Nat) (u : State) : exec (.acknowledgement id) u = execAcknowledgement id u := rfl
@[simp] theorem exec_checkpointCopy (id : Nat) (u : State) : exec (.checkpointCopy id) u = execCheckpointCopy id u := rfl
@[simp] theorem exec_checkpointCommit (id : Nat) (u : State) : exec (.checkpointCommit id) u = execCheckpointCommit id u := rfl
@[simp] theorem exec_push (kind : BitVec 2) (die : Nat) (queue : Nat) (off : Nat) (bytes : List (BitVec 8)) (u : State) : exec (.push kind die queue off bytes) u = execPush kind die queue off bytes u := rfl
@[simp] theorem exec_uncorrectableError (cid : Nat) (e : ErrSite) (u : State) : exec (.uncorrectableError cid e) u = execUncorrectableError cid e u := rfl
@[simp] theorem exec_correctedError (die : Nat) (u : State) : exec (.correctedError die) u = execCorrectedError die u := rfl
@[simp] theorem exec_flitArrival (port : Nat) (plane : Bool) (c : FlitClass) (intact : Bool) (u : State) : exec (.flitArrival port plane c intact) u = execFlitArrival port plane c intact u := rfl
@[simp] theorem exec_planeFailure (port : Nat) (plane : Bool) (u : State) : exec (.planeFailure port plane) u = execPlaneFailure port plane u := rfl
@[simp] theorem exec_planeRejoin (port : Nat) (plane : Bool) (u : State) : exec (.planeRejoin port plane) u = execPlaneRejoin port plane u := rfl
@[simp] theorem exec_linkTraining (port : Nat) (plane : Bool) (u : State) : exec (.linkTraining port plane) u = execLinkTraining port plane u := rfl
@[simp] theorem exec_rekey (port : Nat) (plane : Bool) (u : State) : exec (.rekey port plane) u = execRekey port plane u := rfl
@[simp] theorem exec_slotAlignmentLoss (port : Nat) (plane : Bool) (u : State) : exec (.slotAlignmentLoss port plane) u = execSlotAlignmentLoss port plane u := rfl
@[simp] theorem exec_bar0Write (pkg : Nat) (kind : BitVec 2) (off : Nat) (v : BitVec 64) (u : State) : exec (.bar0Write pkg kind off v) u = execBar0Write pkg kind off v u := rfl
@[simp] theorem exec_claim (pkg : Nat) (kind : BitVec 2) (u : State) : exec (.claim pkg kind) u = execClaim pkg kind u := rfl
@[simp] theorem exec_handover (pkg : Nat) (kind : BitVec 2) (v : BitVec 64) (u : State) : exec (.handover pkg kind v) u = execHandover pkg kind v u := rfl
@[simp] theorem exec_attest (pkg : Nat) (kind : BitVec 2) (v : BitVec 64) (u : State) : exec (.attest pkg kind v) u = execAttest pkg kind v u := rfl
@[simp] theorem exec_bar4Write (pkg : Nat) (kind : BitVec 2) (off : Nat) (bytes : List (BitVec 8)) (u : State) : exec (.bar4Write pkg kind off bytes) u = execBar4Write pkg kind off bytes u := rfl
@[simp] theorem exec_bar4Read (pkg : Nat) (kind : BitVec 2) (off : Nat) (n : Nat) (u : State) : exec (.bar4Read pkg kind off n) u = execBar4Read pkg kind off n u := rfl
@[simp] theorem exec_boot (die : Nat) (signed : Bool) (version : BitVec 64) (root : Nat) (u : State) : exec (.boot die signed version root) u = execBoot die signed version root u := rfl
@[simp] theorem exec_resumption (die : Nat) (u : State) : exec (.resumption die) u = execResumption die u := rfl
@[simp] theorem exec_throttle (die : Nat) (celsius : Nat) (u : State) : exec (.throttle die celsius) u = execThrottle die celsius u := rfl
@[simp] theorem exec_ownerLinkDown (pkg : Nat) (u : State) : exec (.ownerLinkDown pkg) u = execOwnerLinkDown pkg u := rfl
@[simp] theorem exec_powerRemoval (pkg : Nat) (u : State) : exec (.powerRemoval pkg) u = execPowerRemoval pkg u := rfl
@[simp] theorem exec_nop (u : State) : exec (.nop) u = execNop u := rfl
@[simp] theorem exec_idle (u : State) : exec (.idle) u = execIdle u := rfl
@[simp] theorem exec_mark (u : State) : exec (.mark) u = execMark u := rfl
@[simp] theorem exec_l1inv (u : State) : exec (.l1inv) u = execL1inv u := rfl
@[simp] theorem exec_yield (u : State) : exec (.yield) u = execYield u := rfl
@[simp] theorem exec_brk (u : State) : exec (.brk) u = execBrk u := rfl
@[simp] theorem exec_repetitionIssue (u : State) : exec (.repetitionIssue) u = execRepetitionIssue u := rfl
@[simp] theorem exec_resultLanding (u : State) : exec (.resultLanding) u = execResultLanding u := rfl
@[simp] theorem exec_matrixResultLanding (u : State) : exec (.matrixResultLanding) u = execMatrixResultLanding u := rfl
@[simp] theorem exec_waitConditionMet (u : State) : exec (.waitConditionMet) u = execWaitConditionMet u := rfl
@[simp] theorem exec_waitTimeout (u : State) : exec (.waitTimeout) u = execWaitTimeout u := rfl
@[simp] theorem exec_safePoint (u : State) : exec (.safePoint) u = execSafePoint u := rfl
@[simp] theorem exec_save (u : State) : exec (.save) u = execSave u := rfl
@[simp] theorem exec_budgetExhausted (u : State) : exec (.budgetExhausted) u = execBudgetExhausted u := rfl
@[simp] theorem exec_safepointOverdue (u : State) : exec (.safepointOverdue) u = execSafepointOverdue u := rfl
@[simp] theorem exec_spawnEnqueue (u : State) : exec (.spawnEnqueue) u = execSpawnEnqueue u := rfl
@[simp] theorem exec_dispatch (u : State) : exec (.dispatch) u = execDispatch u := rfl
@[simp] theorem exec_trapRecordClaim (u : State) : exec (.trapRecordClaim) u = execTrapRecordClaim u := rfl
@[simp] theorem exec_translationWalk (u : State) : exec (.translationWalk) u = execTranslationWalk u := rfl
@[simp] theorem exec_tlbinvCompletion (u : State) : exec (.tlbinvCompletion) u = execTlbinvCompletion u := rfl
@[simp] theorem exec_criticalResend (u : State) : exec (.criticalResend) u = execCriticalResend u := rfl
@[simp] theorem exec_criticalFlitLost (u : State) : exec (.criticalFlitLost) u = execCriticalFlitLost u := rfl
@[simp] theorem exec_endToEndResend (u : State) : exec (.endToEndResend) u = execEndToEndResend u := rfl
@[simp] theorem exec_fabricOutcomeUnknown (u : State) : exec (.fabricOutcomeUnknown) u = execFabricOutcomeUnknown u := rfl
@[simp] theorem exec_handoverLapse (u : State) : exec (.handoverLapse) u = execHandoverLapse u := rfl
@[simp] theorem exec_quoteCompletion (u : State) : exec (.quoteCompletion) u = execQuoteCompletion u := rfl

end Sys2Proof.Machine
end

