-- ==== Sys2Proof/Laws/Float.lean ====
section
/-! SUPPORT. What the rounding operations do: the model's computation of a rounding, held against what rounding means (R44, R53 to R56). -/

namespace Sys2Proof.Machine

/-- The sign of a value as a factor. -/
def sgn (neg : Bool) : Int := if neg then -1 else 1

theorem sgn_cases (neg : Bool) : (neg = true ∧ sgn neg = -1) ∨ (neg = false ∧ sgn neg = 1) := by cases neg <;> simp [sgn]

/-- A value that d divides rounds to the quotient, in every direction. -/
theorem roundsTo_exact (mode : Nat) (v : Int) (d : Nat) (hd : 0 < d) : RoundsTo mode v (v * d) d := by
  refine ⟨fun _ => by simp; omega, fun _ => ⟨le_refl _, by omega, ?_⟩, fun _ => by omega, fun _ => by omega⟩
  rw [← mul_assoc]
  exact mul_nonneg (mul_self_nonneg v) (by omega)

/-- A common factor of a value and its unit changes no rounding. -/
theorem roundsTo_scale {mode : Nat} {v x : Int} {d : Nat} (c : Nat) (hc : 0 < c) (h : RoundsTo mode v x d) : RoundsTo mode v (x * c) (d * c) := by
  have e : v * ((d * c : Nat) : Int) = v * d * c := by push_cast; ring
  have cp : (0 : Int) < c := by exact_mod_cast hc
  obtain ⟨h0, h1, h2, h3⟩ := h
  refine ⟨fun m => ?_, fun m => ?_, fun m => ?_, fun m => ?_⟩
  · obtain ⟨a, b⟩ := h0 m
    rw [e, ← sub_mul, Int.natAbs_mul, Int.natAbs_natCast]
    refine ⟨by nlinarith, fun k => b ?_⟩
    exact Nat.eq_of_mul_eq_mul_right hc (by linarith)
  · obtain ⟨a, b, s⟩ := h1 m
    rw [e, Int.natAbs_mul, Int.natAbs_mul x, Int.natAbs_natCast]
    exact ⟨Nat.mul_le_mul_right _ a, by nlinarith, by rw [← mul_assoc]; exact mul_nonneg s cp.le⟩
  · obtain ⟨a, b⟩ := h2 m
    rw [e]
    push_cast
    exact ⟨mul_le_mul_of_nonneg_right a cp.le, by nlinarith⟩
  · obtain ⟨a, b⟩ := h3 m
    rw [e]
    push_cast
    exact ⟨mul_le_mul_of_nonneg_right a cp.le, by nlinarith⟩

/-- A quotient with a remainder, taken one further where `up` says, rounds as its direction asks. -/
theorem roundsTo_up {mode : Nat} {neg up : Bool} {q r D : Nat} (hr : 0 < r) (hrD : r < D) (h0 : mode = 0 → up = (decide (2 * r > D) || (decide (2 * r = D) && decide (q % 2 = 1))))
    (h1 : mode = 1 → up = false) (h2 : mode = 2 → up = !neg) (h3 : mode = 3 → up = neg) :
    RoundsTo mode (sgn neg * ((if up then q + 1 else q : Nat) : Int)) (sgn neg * ((q * D + r : Nat) : Int)) D := by
  have hX : (0 : Int) ≤ q * D := by positivity
  have hv : sgn neg * ((if up then q + 1 else q : Nat) : Int) * D = sgn neg * ((q : Int) * D + if up then (D : Int) else 0) := by
    cases up <;> simp <;> ring
  have hq : (0 : Int) ≤ q := by positivity
  have hx : sgn neg * ((q * D + r : Nat) : Int) = sgn neg * ((q : Int) * D + r) := by push_cast; ring
  have hw : (sgn neg * ((if up then q + 1 else q : Nat) : Int)) % 2 = 0 ↔ (q + if up then 1 else 0) % 2 = 0 := by
    rcases sgn_cases neg with ⟨-, e⟩ | ⟨-, e⟩ <;> rw [e] <;> cases up <;> simp <;> omega
  refine ⟨fun h => ?_, fun h => ?_, fun h => ?_, fun h => ?_⟩
  · have hu := h0 h
    rw [hv, hx, hw]
    generalize (q : Int) * D = X at hX ⊢
    rcases sgn_cases neg with ⟨-, e⟩ | ⟨-, e⟩ <;> rw [e] <;> cases up <;> simp at hu ⊢ <;> omega
  · have hu := h1 h
    subst hu
    refine ⟨?_, ?_, ?_⟩
    · rw [hv, hx]
      generalize (q : Int) * D = X at hX ⊢
      rcases sgn_cases neg with ⟨-, e⟩ | ⟨-, e⟩ <;> rw [e] <;> simp <;> omega
    · rw [hv, hx]
      generalize (q : Int) * D = X at hX ⊢
      rcases sgn_cases neg with ⟨-, e⟩ | ⟨-, e⟩ <;> rw [e] <;> simp <;> omega
    · rw [hx]
      have : (0 : Int) ≤ q * (q * D + r) := by positivity
      rcases sgn_cases neg with ⟨-, e⟩ | ⟨-, e⟩ <;> rw [e] <;> simp <;> linarith
  · have hu := h2 h
    rw [hv, hx]
    generalize (q : Int) * D = X at hX ⊢
    rcases sgn_cases neg with ⟨rfl, e⟩ | ⟨rfl, e⟩ <;> rw [e] <;> subst hu <;> simp <;> omega
  · have hu := h3 h
    rw [hv, hx]
    generalize (q : Int) * D = X at hX ⊢
    rcases sgn_cases neg with ⟨rfl, e⟩ | ⟨rfl, e⟩ <;> rw [e] <;> subst hu <;> simp <;> omega
/-- Division by a power of two rounds in the direction asked, and says whether it was exact. -/
theorem roundShift_roundsTo (mode : Nat) (hm : mode < 4) (neg : Bool) (m sh : Nat) :
    RoundsTo mode (sgn neg * (roundShift mode neg m sh).1) (sgn neg * m) (2 ^ sh) ∧
      (roundShift mode neg m sh).2 = decide ((roundShift mode neg m sh).1 * 2 ^ sh ≠ m) := by
  have hD : 0 < 2 ^ sh := Nat.two_pow_pos sh
  unfold roundShift
  generalize 2 ^ sh = D at hD ⊢
  have hq := Nat.div_add_mod m D
  have hr := Nat.mod_lt m hD
  generalize m / D = q at hq ⊢
  generalize m % D = r at hq hr ⊢
  have hm' : m = q * D + r := by rw [Nat.mul_comm]; exact hq.symm
  dsimp only
  by_cases r0 : r = 0
  · rw [if_pos r0]
    have e : q * D = m := by omega
    refine ⟨?_, by simp [e]⟩
    have : sgn neg * (m : Int) = sgn neg * (q : Int) * (D : Int) := by rw [mul_assoc, ← Nat.cast_mul, e]
    rw [this]
    exact roundsTo_exact mode _ _ hD
  · rw [if_neg r0]
    have hne : ∀ up : Bool, (if up then q + 1 else q) * D ≠ m := by
      intro up h
      cases up
      · simp at h; omega
      · simp [add_mul] at h; omega
    refine ⟨?_, by simpa using hne _⟩
    have key := fun up => @roundsTo_up mode neg up q r D (by omega) hr
    rw [← hm'] at key
    interval_cases mode
    · exact key _ (fun _ => rfl) (by simp) (by simp) (by simp)
    · exact key _ (by simp) (fun _ => rfl) (by simp) (by simp)
    · exact key _ (by simp) (by simp) (fun _ => rfl) (by simp)
    · exact key _ (by simp) (by simp) (by simp) (fun _ => rfl)

theorem nbitsOf_eq {m : Nat} (h : m ≠ 0) : nbitsOf m = Nat.log2 m + 1 := by simp [nbitsOf, h]

/-- A value rounded at a quantum, in units where it is m·2^K and the quantum 2^D. -/
theorem atQuantum_roundsTo {mode : Nat} (hm : mode < 4) (neg : Bool) (m : Nat) (e q : Int) {K D : Nat} (h : q - e = (D : Int) - K) :
    RoundsTo mode (sgn neg * (atQuantum mode neg m e q).1) (sgn neg * (m * 2 ^ K : Nat)) (2 ^ D) ∧
      (atQuantum mode neg m e q).2 = decide ((atQuantum mode neg m e q).1 * 2 ^ D ≠ m * 2 ^ K) := by
  unfold atQuantum
  by_cases c : q ≤ e
  · rw [if_pos c]
    have hk : K = (e - q).toNat + D := by omega
    have e1 : m * 2 ^ (e - q).toNat * 2 ^ D = m * 2 ^ K := by rw [hk, pow_add, mul_assoc]
    refine ⟨?_, by simp [e1]⟩
    rw [← e1, Nat.cast_mul _ (2 ^ D), ← mul_assoc]
    exact roundsTo_exact mode _ _ (Nat.two_pow_pos D)
  · rw [if_neg c]
    have hd : D = (q - e).toNat + K := by omega
    obtain ⟨r, x⟩ := roundShift_roundsTo mode hm neg m (q - e).toNat
    have r' := roundsTo_scale (2 ^ K) (Nat.two_pow_pos K) r
    rw [← pow_add, ← hd, mul_assoc, ← Nat.cast_mul] at r'
    refine ⟨r', x.trans ?_⟩
    rw [hd, pow_add, ← mul_assoc]
    congr 1
    rw [Ne, Ne, Nat.mul_left_inj (by positivity)]

theorem log2_mul_pow {m : Nat} (h : m ≠ 0) (K : Nat) : Nat.log2 (m * 2 ^ K) = Nat.log2 m + K := by
  have h2 : m * 2 ^ K ≠ 0 := by positivity
  have a := Nat.log2_self_le h
  have b := Nat.lt_log2_self (n := m)
  refine le_antisymm ?_ ?_
  · refine Nat.lt_succ_iff.1 ((Nat.log2_lt h2).2 ?_)
    calc m * 2 ^ K < 2 ^ (m.log2 + 1) * 2 ^ K := Nat.mul_lt_mul_of_pos_right b (Nat.two_pow_pos K)
      _ = 2 ^ (m.log2 + K).succ := by rw [← pow_add]; congr 1; omega
  · refine (Nat.le_log2 h2).2 ?_
    rw [pow_add]
    exact Nat.mul_le_mul_right _ a
/-- A rounded quotient lies between the floor and one more. -/
theorem roundShift_bounds (mode : Nat) (neg : Bool) (m sh : Nat) : m / 2 ^ sh ≤ (roundShift mode neg m sh).1 ∧ (roundShift mode neg m sh).1 ≤ (m + 2 ^ sh - 1) / 2 ^ sh := by
  have hD := Nat.two_pow_pos sh
  unfold roundShift
  generalize 2 ^ sh = D at hD ⊢
  have hq := Nat.div_add_mod m D
  have up : m % D ≠ 0 → (m + D - 1) / D = m / D + 1 := by
    intro h
    rw [Nat.div_eq_iff hD]
    have := Nat.mod_lt m hD
    rw [Nat.add_mul]
    rw [Nat.mul_comm] at hq
    omega
  have le : m / D ≤ (m + D - 1) / D := Nat.div_le_div_right (by omega)
  dsimp only
  by_cases r0 : m % D = 0
  · rw [if_pos r0]; exact ⟨le_refl _, le⟩
  · rw [if_neg r0]
    dsimp only
    rw [up r0]
    have key : ∀ b : Bool, m / D ≤ (if b then m / D + 1 else m / D) ∧ (if b then m / D + 1 else m / D) ≤ m / D + 1 := by intro b; cases b <;> simp
    exact key _
/-- A significand at the quantum of its leading bit keeps it, or becomes the next power of two. -/
theorem atQuantum_normal {mode : Nat} {neg : Bool} {m : Nat} (hm : m ≠ 0) {p : Nat} (hp : 1 ≤ p) (e : Int) :
    2 ^ (p - 1) ≤ (atQuantum mode neg m e (e + nbitsOf m - 1 - (p - 1 : Nat))).1 ∧ (atQuantum mode neg m e (e + nbitsOf m - 1 - (p - 1 : Nat))).1 ≤ 2 ^ p := by
  have a := Nat.log2_self_le hm
  have b := Nat.lt_log2_self (n := m)
  rw [nbitsOf_eq hm]
  unfold atQuantum
  generalize Nat.log2 m = l at a b ⊢
  split
  · rename_i c
    dsimp only
    have hk : p - 1 = l + (e - (e + (l + 1 : Nat) - 1 - (p - 1 : Nat))).toNat := by omega
    generalize (e - (e + (l + 1 : Nat) - 1 - (p - 1 : Nat))).toNat = k at hk ⊢
    constructor
    · rw [hk, pow_add]; exact Nat.mul_le_mul_right _ a
    · have : p = l + 1 + k := by omega
      rw [this, pow_add]
      exact Nat.mul_le_mul_right _ b.le
  · rename_i c
    have hk : (e + (l + 1 : Nat) - 1 - (p - 1 : Nat) - e).toNat = l - (p - 1) := by omega
    rw [hk]
    have hl : l = l - (p - 1) + (p - 1) := by omega
    obtain ⟨lo, hi⟩ := roundShift_bounds mode neg m (l - (p - 1))
    constructor
    · refine le_trans ?_ lo
      rw [Nat.le_div_iff_mul_le (Nat.two_pow_pos _), ← pow_add, show p - 1 + (l - (p - 1)) = l by omega]
      exact a
    · refine le_trans hi ?_
      rw [Nat.div_le_iff_le_mul_add_pred (Nat.two_pow_pos _), ← pow_add, show l - (p - 1) + p = l + 1 by omega]
      omega
theorem sgn_natAbs (neg : Bool) (n : Nat) : (sgn neg * (n : Int)).natAbs = n := by rcases sgn_cases neg with ⟨-, e⟩ | ⟨-, e⟩ <;> rw [e] <;> simp
/-- At a coarser quantum than that of its leading bit a significand stays below the normal ones, or becomes the least of them. -/
theorem atQuantum_sub {mode : Nat} {neg : Bool} {m : Nat} (hm : m ≠ 0) {p : Nat} (e q : Int) (h : e + nbitsOf m - 1 - (p - 1 : Nat) < q) :
    (atQuantum mode neg m e q).1 ≤ 2 ^ (p - 1) := by
  have b := Nat.lt_log2_self (n := m)
  rw [nbitsOf_eq hm] at h
  unfold atQuantum
  generalize Nat.log2 m = l at b h
  split
  · dsimp only
    have hk : l + 1 + (e - q).toNat ≤ p - 1 := by omega
    calc m * 2 ^ (e - q).toNat ≤ 2 ^ (l + 1) * 2 ^ (e - q).toNat := Nat.mul_le_mul_right _ b.le
      _ = 2 ^ (l + 1 + (e - q).toNat) := (pow_add ..).symm
      _ ≤ _ := Nat.pow_le_pow_right (by norm_num) hk
  · obtain ⟨-, hi⟩ := roundShift_bounds mode neg m (q - e).toNat
    refine le_trans hi ?_
    rw [Nat.div_le_iff_le_mul_add_pred (Nat.two_pow_pos _), ← pow_add]
    have : 2 ^ (l + 1) ≤ 2 ^ ((q - e).toNat + (p - 1)) := Nat.pow_le_pow_right (by norm_num) (by omega)
    omega
/-- A significand is beyond the largest finite value exactly when its quantum is, or it is at the same quantum. -/
theorem ovf_iff {p r a b M : Nat} (hp : 1 ≤ p) (hr : r < 2 ^ p) (hn : r < 2 ^ (p - 1) → a = 0) (hM : 2 ^ (p - 1) ≤ M) (hM' : M < 2 ^ p) :
    (r ≠ 0 ∧ (b < a ∨ (a = b ∧ M < r))) ↔ M * 2 ^ b < r * 2 ^ a := by
  have e2 : 2 ^ p = 2 ^ (p - 1) * 2 := by rw [← pow_succ]; congr 1; omega
  rcases lt_trichotomy a b with c | c | c
  · constructor
    · rintro ⟨-, c' | ⟨c', -⟩⟩ <;> omega
    · intro h
      exfalso
      have : 2 ^ (a + 1) ≤ 2 ^ b := Nat.pow_le_pow_right (by norm_num) c
      have h1 : r * 2 ^ a ≤ 2 ^ p * 2 ^ a := Nat.mul_le_mul_right _ hr.le
      have h2 : 2 ^ (p - 1) * 2 ^ (a + 1) ≤ M * 2 ^ b := Nat.mul_le_mul hM this
      have h3 : 2 ^ p * 2 ^ a = 2 ^ (p - 1) * 2 ^ (a + 1) := by rw [e2, pow_succ]; ring
      omega
  · subst c
    rw [Nat.mul_lt_mul_right (Nat.two_pow_pos a)]
    constructor
    · rintro ⟨-, c' | ⟨-, c'⟩⟩ <;> omega
    · exact fun h => ⟨by omega, .inr ⟨rfl, h⟩⟩
  · refine ⟨fun _ => ?_, fun h => ⟨fun r0 => by simp [r0] at h, .inl c⟩⟩
    have hr' : 2 ^ (p - 1) ≤ r := by by_contra h; have := hn (by omega); omega
    have : 2 ^ (b + 1) ≤ 2 ^ a := Nat.pow_le_pow_right (by norm_num) c
    have h2 : 2 ^ (p - 1) * 2 ^ (b + 1) ≤ r * 2 ^ a := Nat.mul_le_mul hr' this
    have h3 : M * 2 ^ b < 2 ^ p * 2 ^ b := Nat.mul_lt_mul_of_pos_right hM' (Nat.two_pow_pos b)
    have h4 : 2 ^ p * 2 ^ b = 2 ^ (p - 1) * 2 ^ (b + 1) := by rw [e2, pow_succ]; ring
    omega
/-- What rounding to a precision does, in units of 2^-ue, of which the least subnormal is one: the value is m·2^K over 2^j. -/
theorem roundTo_spec {mode p : Nat} (hm : mode < 4) (hp : 1 ≤ p) {em maxQ : Int} {ue maxM : Nat} (hem : em + ue = (p - 1 : Nat)) (hQ : 0 ≤ maxQ + ue)
    (hM : 2 ^ (p - 1) ≤ maxM) (hM' : maxM < 2 ^ p) (neg : Bool) {m : Nat} (h0 : m ≠ 0) (e : Int) {K j : Nat} (hK : e + ue + j = K) :
    let R := roundTo mode p em maxM maxQ neg m e
    let P : Int := sgn neg * (m * 2 ^ K : Nat)
    let top := Nat.log2 P.natAbs
    let q := top - j - (p - 1)
    ∃ v u : Int, RoundsTo mode v P (2 ^ (q + j)) ∧ RoundsTo mode u P (2 ^ (top - (p - 1))) ∧
      R.inexact = decide (v * (2 ^ (q + j) : Nat) ≠ P) ∧ R.tiny = decide (u.natAbs * 2 ^ (top - (p - 1)) < 2 ^ (p - 1 + j)) ∧
      R.ovf = decide (maxM * 2 ^ (maxQ + ue).toNat < v.natAbs * 2 ^ q) ∧
      R.m < 2 ^ p ∧ 0 ≤ R.q + ue ∧ (R.m < 2 ^ (p - 1) → R.q + ue = 0) ∧ v * (2 ^ q : Nat) = sgn neg * (R.m * 2 ^ (R.q + ue).toNat : Nat) ∧
      (R.ovf = false → R.m ≠ 0 → R.q < maxQ ∨ (R.q = maxQ ∧ R.m ≤ maxM)) := by
  intro R P top q
  have hP : P.natAbs = m * 2 ^ K := sgn_natAbs _ _
  have htop : top = Nat.log2 m + K := by show Nat.log2 P.natAbs = _; rw [hP, log2_mul_pow h0]
  have hnb := nbitsOf_eq h0
  have e2 : 2 ^ p = 2 ^ (p - 1) * 2 := by rw [← pow_succ]; congr 1; omega
  have hq : max (e + nbitsOf m - 1) em - (p - 1 : Nat) + ue = (q : Int) := by
    show _ = ((top - j - (p - 1) : Nat) : Int)
    rw [htop, hnb]; omega
  generalize hq0 : max (e + nbitsOf m - 1) em - (p - 1 : Nat) = q0 at hq
  obtain ⟨rt, ix⟩ := atQuantum_roundsTo hm neg m e q0 (K := K) (D := q + j) (by omega)
  have hA : (atQuantum mode neg m e q0).1 ≤ 2 ^ p ∧ ((atQuantum mode neg m e q0).1 < 2 ^ (p - 1) → q = 0) := by
    by_cases c : em ≤ e + nbitsOf m - 1
    · rw [max_eq_left c] at hq0
      obtain ⟨a, b⟩ := @atQuantum_normal mode neg m h0 p hp e
      rw [hq0] at a b
      exact ⟨b, fun h => by omega⟩
    · have := @atQuantum_sub mode neg m h0 p e q0 (by omega)
      exact ⟨by omega, fun _ => by omega⟩
  -- the significand and quantum after a carry out of the significand
  generalize hAe : atQuantum mode neg m e q0 = A at rt ix hA
  have hu : ∃ u : Int, RoundsTo mode u P (2 ^ (top - (p - 1))) ∧ R.tiny = decide (u.natAbs * 2 ^ (top - (p - 1)) < 2 ^ (p - 1 + j)) := by
    have ht : R.tiny = decide ((if (atQuantum mode neg m e (e + nbitsOf m - 1 - (p - 1 : Nat))).1 = 2 ^ p then e + nbitsOf m - 1 + 1 else e + nbitsOf m - 1) < em) := by
      have ht0 : R.tiny = (decide (m ≠ 0) && decide ((if (atQuantum mode neg m e (e + nbitsOf m - 1 - (p - 1 : Nat))).1 = 2 ^ p then e + nbitsOf m - 1 + 1 else e + nbitsOf m - 1) < em)) := rfl
      rw [ht0, decide_eq_true h0, Bool.true_and]
    obtain ⟨lo, hi⟩ := @atQuantum_normal mode neg m h0 p hp e
    by_cases c : p - 1 ≤ top
    · obtain ⟨rt', -⟩ := atQuantum_roundsTo hm neg m e (e + nbitsOf m - 1 - (p - 1 : Nat)) (K := K) (D := top - (p - 1)) (by omega)
      refine ⟨_, rt', ?_⟩
      rw [ht, sgn_natAbs]
      generalize (atQuantum mode neg m e (e + nbitsOf m - 1 - (p - 1 : Nat))).1 = B at lo hi
      have key : ∀ x, (2 : Nat) ^ x < 2 ^ (p - 1 + j) ↔ x < p - 1 + j := fun x => Nat.pow_lt_pow_iff_right (by norm_num)
      congr 1
      by_cases cB : B = 2 ^ p
      · rw [if_pos cB, cB, ← pow_add, key]
        exact propext ⟨fun h => by omega, fun h => by omega⟩
      · rw [if_neg cB]
        have b1 : 2 ^ top ≤ B * 2 ^ (top - (p - 1)) := by
          calc 2 ^ top = 2 ^ (p - 1) * 2 ^ (top - (p - 1)) := by rw [← pow_add]; congr 1; omega
            _ ≤ _ := Nat.mul_le_mul_right _ lo
        have b2 : B * 2 ^ (top - (p - 1)) < 2 ^ (top + 1) := by
          calc B * 2 ^ (top - (p - 1)) < 2 ^ p * 2 ^ (top - (p - 1)) := Nat.mul_lt_mul_of_pos_right (by omega) (Nat.two_pow_pos _)
            _ = _ := by rw [← pow_add]; congr 1; omega
        refine propext ⟨fun h => ?_, fun h => ?_⟩
        · have : 2 ^ (top + 1) ≤ 2 ^ (p - 1 + j) := Nat.pow_le_pow_right (by norm_num) (by omega)
          omega
        · have := (key _).1 (lt_of_le_of_lt b1 h)
          omega
    · refine ⟨P, ?_, ?_⟩
      · have h1 := roundsTo_exact mode P 1 (by norm_num)
        rw [show top - (p - 1) = 0 by omega, pow_zero]
        simpa using h1
      · have hb : (atQuantum mode neg m e (e + nbitsOf m - 1 - (p - 1 : Nat))).1 ≠ 2 ^ p := by
          unfold atQuantum
          rw [if_pos (by omega)]
          have b := Nat.lt_log2_self (n := m)
          have hk : (e - (e + nbitsOf m - 1 - (p - 1 : Nat))).toNat = p - 1 - Nat.log2 m := by omega
          dsimp only
          rw [hk]
          have : m * 2 ^ (p - 1 - Nat.log2 m) < 2 ^ (Nat.log2 m + 1) * 2 ^ (p - 1 - Nat.log2 m) := Nat.mul_lt_mul_of_pos_right b (Nat.two_pow_pos _)
          rw [← pow_add, show Nat.log2 m + 1 + (p - 1 - Nat.log2 m) = p by omega] at this
          omega
        rw [ht, if_neg hb, hP, show top - (p - 1) = 0 by omega, pow_zero, mul_one]
        have b : m * 2 ^ K < 2 ^ (top + 1) := by
          rw [htop, show Nat.log2 m + K + 1 = Nat.log2 m + 1 + K by omega, pow_add]
          exact Nat.mul_lt_mul_of_pos_right Nat.lt_log2_self (Nat.two_pow_pos _)
        have : 2 ^ (top + 1) ≤ 2 ^ (p - 1 + j) := Nat.pow_le_pow_right (by norm_num) (by omega)
        rw [decide_eq_true (show m * 2 ^ K < 2 ^ (p - 1 + j) by omega), decide_eq_true (by omega)]
  obtain ⟨u, ur, ut⟩ := hu
  refine ⟨sgn neg * A.1, u, rt, ur, ?_, ut, ?_⟩
  · show (atQuantum mode neg m e (max (e + nbitsOf m - 1) em - (p - 1 : Nat))).2 = _
    rw [hq0, hAe, ix]
    congr 1
    show _ = (sgn neg * (A.1 : Int) * _ ≠ sgn neg * (m * 2 ^ K : Nat))
    rw [mul_assoc, ← Nat.cast_mul]
    have sn : sgn neg ≠ 0 := by rcases sgn_cases neg with ⟨-, h⟩ | ⟨-, h⟩ <;> rw [h] <;> decide
    rw [Ne, Ne, mul_right_inj' sn, Nat.cast_inj]
  · have hR : R.m = (if A.1 = 2 ^ p then (2 ^ (p - 1), q0 + 1) else (A.1, q0)).1 ∧ R.q = (if A.1 = 2 ^ p then (2 ^ (p - 1), q0 + 1) else (A.1, q0)).2 := by
      have h2 : (R.m, R.q) = (if (atQuantum mode neg m e (max (e + nbitsOf m - 1) em - (p - 1 : Nat))).1 = 2 ^ p then (2 ^ (p - 1), max (e + nbitsOf m - 1) em - (p - 1 : Nat) + 1)
          else ((atQuantum mode neg m e (max (e + nbitsOf m - 1) em - (p - 1 : Nat))).1, max (e + nbitsOf m - 1) em - (p - 1 : Nat))) := rfl
      rw [hq0, hAe] at h2
      exact ⟨congrArg Prod.fst h2, congrArg Prod.snd h2⟩
    have ho : R.ovf = (decide (R.m ≠ 0) && (decide (R.q > maxQ) || (decide (R.q = maxQ) && decide (R.m > maxM)))) := rfl
    have h1 : R.m < 2 ^ p ∧ 0 ≤ R.q + ue ∧ (R.m < 2 ^ (p - 1) → R.q + ue = 0) ∧ A.1 * 2 ^ q = R.m * 2 ^ (R.q + ue).toNat := by
      rw [hR.1, hR.2]
      by_cases cA : A.1 = 2 ^ p
      · rw [if_pos cA]
        refine ⟨by have := Nat.two_pow_pos (p - 1); omega, by dsimp only; omega, fun h => absurd h (lt_irrefl _), ?_⟩
        rw [cA, show (q0 + 1 + ue).toNat = q + 1 by omega, pow_succ, e2]
        ring
      · rw [if_neg cA]
        refine ⟨by dsimp only; omega, by dsimp only; omega, fun h => ?_, ?_⟩
        · have := hA.2 h; dsimp only; omega
        · rw [show (q0 + ue).toNat = q by omega]
    obtain ⟨a, b, c, d⟩ := h1
    have io := ovf_iff (a := (R.q + ue).toNat) (b := (maxQ + ue).toNat) hp a (fun h => by have := c h; omega) hM hM'
    rw [← d] at io
    refine ⟨?_, a, b, c, ?_, ?_⟩
    · rw [ho, sgn_natAbs, Bool.eq_iff_iff]
      simp only [Bool.and_eq_true, Bool.or_eq_true, decide_eq_true_eq]
      rw [← io]
      omega
    · rw [mul_assoc, ← Nat.cast_mul, d]
    · intro o z
      rw [ho] at o
      simp [z] at o
      omega
/-- A pattern put together from its fields gives them back. -/
theorem fields_of {p w be fr : Nat} (neg : Bool) (hf : fr < 2 ^ p) (hb : be < 2 ^ w) :
    let x := b2n neg * 2 ^ (p + w) + be * 2 ^ p + fr
    x % 2 ^ p = fr ∧ x / 2 ^ p % 2 ^ w = be ∧ x.testBit (p + w) = neg ∧ x < 2 ^ (p + w + 1) ∧ x % 2 ^ (p + w) = be * 2 ^ p + fr := by
  intro x
  have hp := Nat.two_pow_pos p
  have hx : x = (b2n neg * 2 ^ w + be) * 2 ^ p + fr := by simp only [x]; rw [pow_add]; ring
  have hy : be * 2 ^ p + fr < 2 ^ (p + w) := by
    calc be * 2 ^ p + fr < (be + 1) * 2 ^ p := by rw [Nat.add_mul]; omega
      _ ≤ 2 ^ w * 2 ^ p := Nat.mul_le_mul_right _ hb
      _ = _ := by rw [← pow_add, Nat.add_comm]
  have hx' : x = b2n neg * 2 ^ (p + w) + (be * 2 ^ p + fr) := by simp only [x]; omega
  have hn : b2n neg ≤ 1 := by cases neg <;> simp [b2n]
  have hd : x / 2 ^ p = b2n neg * 2 ^ w + be := by
    rw [hx, Nat.add_comm, Nat.add_mul_div_right _ _ hp, Nat.div_eq_of_lt hf, Nat.zero_add]
  have hd2 : x / 2 ^ (p + w) = b2n neg := by
    rw [hx', Nat.add_comm, Nat.add_mul_div_right _ _ (Nat.two_pow_pos _), Nat.div_eq_of_lt hy, Nat.zero_add]
  refine ⟨?_, ?_, ?_, ?_, ?_⟩
  · rw [hx, Nat.add_comm, Nat.add_mul_mod_self_right, Nat.mod_eq_of_lt hf]
  · rw [hd, Nat.add_comm, Nat.add_mul_mod_self_right, Nat.mod_eq_of_lt hb]
  · rw [Nat.testBit_eq_decide_div_mod_eq, hd2]; cases neg <;> rfl
  · rw [hx', pow_succ]
    have : b2n neg * 2 ^ (p + w) ≤ 1 * 2 ^ (p + w) := Nat.mul_le_mul_right _ hn
    omega
  · rw [hx', Nat.add_comm, Nat.add_mul_mod_self_right, Nat.mod_eq_of_lt hy]
/-- The fields of a packed significand. -/
theorem packFin_fields {f : Fmt} {neg : Bool} {m : Nat} {q : Int} (hp : 2 ≤ f.p) (hb : 1 ≤ f.bias) (hm : m < 2 ^ f.p) (hq : 0 ≤ q + f.unitExp)
    (hw : 2 ^ (f.p - 1) ≤ m → (q + f.unitExp).toNat + 1 < 2 ^ f.ew) :
    ∃ be fr, fr < 2 ^ (f.p - 1) ∧ be < 2 ^ f.ew ∧ packFin f neg m q = b2n neg * 2 ^ (f.p - 1 + f.ew) + be * 2 ^ (f.p - 1) + fr ∧
      (m < 2 ^ (f.p - 1) → be = 0 ∧ fr = m) ∧ (2 ^ (f.p - 1) ≤ m → be = (q + f.unitExp).toNat + 1 ∧ m = 2 ^ (f.p - 1) + fr) := by
  unfold packFin
  have e2 : 2 ^ f.p = 2 ^ (f.p - 1) * 2 := by rw [← pow_succ]; congr 1; omega
  by_cases c : m < 2 ^ (f.p - 1)
  · rw [if_pos c]
    exact ⟨0, m, c, Nat.two_pow_pos _, by omega, fun _ => ⟨rfl, rfl⟩, fun h => by omega⟩
  · rw [if_neg c]
    refine ⟨(q + f.unitExp).toNat + 1, m - 2 ^ (f.p - 1), by omega, hw (by omega), ?_, fun h => absurd h c, fun _ => ⟨rfl, by omega⟩⟩
    have : (q + (f.p - 1 : Nat) + f.bias).toNat = (q + f.unitExp).toNat + 1 := by
      have : (f.unitExp : Int) = f.bias + f.p - 2 := by unfold Fmt.unitExp; omega
      omega
    rw [this]
/-- A packed significand decodes to itself. -/
theorem unpackSmall_packFin {f : Fmt} {neg : Bool} {m : Nat} {q : Int} (hp : 2 ≤ f.p) (hb : 1 ≤ f.bias) (he : 1 ≤ f.ew) (hm : m < 2 ^ f.p) (hq : 0 ≤ q + f.unitExp)
    (hs : m < 2 ^ (f.p - 1) → q + f.unitExp = 0) (hw : 2 ^ (f.p - 1) ≤ m → (q + f.unitExp).toNat + 1 < 2 ^ f.ew) :
    unpackSmall f (packFin f neg m q) = .fin neg m q ∧ packFin f neg m q < 2 ^ (f.p + f.ew) ∧
      ((2 ^ (f.p - 1) ≤ m → (q + f.unitExp).toNat + 1 < 2 ^ f.ew - 1) → unpack f (packFin f neg m q) = .fin neg m q) := by
  obtain ⟨be, fr, hf, hbe, e, h1, h2⟩ := packFin_fields (neg := neg) hp hb hm hq hw
  obtain ⟨a, b, c, d, -⟩ := fields_of neg hf hbe
  have hu : (f.unitExp : Int) = f.bias + f.p - 2 := by unfold Fmt.unitExp; omega
  rw [e]
  have key : (if be = 0 then FV.fin neg fr (1 - f.bias - (f.p - 1)) else .fin neg (2 ^ (f.p - 1) + fr) ((be : Int) - f.bias - (f.p - 1))) = .fin neg m q := by
    by_cases cm : m < 2 ^ (f.p - 1)
    · obtain ⟨rfl, rfl⟩ := h1 cm
      rw [if_pos rfl]
      have := hs cm
      congr 1
      omega
    · obtain ⟨hb', hm'⟩ := h2 (by omega)
      rw [if_neg (by omega), ← hm']
      congr 1
      omega
  refine ⟨?_, ?_, fun hw' => ?_⟩
  · unfold unpackSmall
    dsimp only
    rw [a, b, c]
    exact key
  · rw [show f.p + f.ew = f.p - 1 + f.ew + 1 by omega]; exact d
  · unfold unpack
    dsimp only
    rw [a, b, c, if_neg, key]
    intro h
    have e1 : 2 ^ 1 ≤ 2 ^ f.ew := Nat.pow_le_pow_right (by norm_num) he
    by_cases cm : m < 2 ^ (f.p - 1)
    · obtain ⟨rfl, rfl⟩ := h1 cm; omega
    · have := hw' (by omega); obtain ⟨h3, -⟩ := h2 (by omega); omega
theorem units_fin (f : Fmt) (neg : Bool) (m : Nat) (q : Int) : f.units (.fin neg m q) = sgn neg * (m * 2 ^ (q + f.unitExp).toNat : Nat) := rfl


theorem sgn_neg_iff {neg : Bool} {n : Nat} (h : 0 < n) : (sgn neg * (n : Int) < 0 ↔ neg = true) ∧ (0 < sgn neg * (n : Int) ↔ neg = false) := by
  rcases sgn_cases neg with ⟨rfl, e⟩ | ⟨rfl, e⟩ <;> rw [e] <;> simp <;> omega
/-- A format fit for these lemmas: its field widths, and that its largest finite value lies among its codes. -/
structure Fmt.Ok (f : Fmt) : Prop where
  p : 2 ≤ f.p
  bias : 1 ≤ f.bias
  ew : 1 ≤ f.ew
theorem Fmt.Ok.ue {f : Fmt} (h : f.Ok) : (f.unitExp : Int) = f.bias + f.p - 2 := by unfold Fmt.unitExp; have := h.bias; have := h.p; omega
theorem Fmt.Ok.emin_ue {f : Fmt} (h : f.Ok) : emin f + f.unitExp = (f.p - 1 : Nat) := by have := h.ue; have := h.p; unfold emin; omega
/-- Rounding to a precision and packing is what RoundsAt says, for a decoder that reads the packed significands. -/
theorem roundTo_roundsAt {f : Fmt} (ok : f.Ok) {mode : Nat} (hm : mode < 4) {M : Nat} {Q : Int} (hQ : 0 ≤ Q + f.unitExp) (hM : 2 ^ (f.p - 1) ≤ M) (hM' : M < 2 ^ f.p)
    {dec : Nat → FV} (hd : ∀ neg m (q : Int), m < 2 ^ f.p → 0 ≤ q + f.unitExp → (m < 2 ^ (f.p - 1) → q + f.unitExp = 0) → (m ≠ 0 → q < Q ∨ (q = Q ∧ m ≤ M)) →
      dec (packFin f neg m q) = .fin neg m q ∧ packFin f neg m q < 2 ^ (f.p + f.ew))
    (neg : Bool) {m : Nat} (h0 : m ≠ 0) {e : Int} {K j : Nat} (hK : e + f.unitExp + j = K) {x : Nat}
    (hx : (roundTo mode f.p (emin f) M Q neg m e).ovf = false → x = packFin f neg (roundTo mode f.p (emin f) M Q neg m e).m (roundTo mode f.p (emin f) M Q neg m e).q) :
    RoundsAt f dec (M * 2 ^ (Q + f.unitExp).toNat) mode (sgn neg * (m * 2 ^ K : Nat)) j x
      (roundTo mode f.p (emin f) M Q neg m e).inexact (roundTo mode f.p (emin f) M Q neg m e).tiny (roundTo mode f.p (emin f) M Q neg m e).ovf := by
  obtain ⟨v, u, rv, ru, ix, ty, ov, rm, rq, rs, rr, rn⟩ := roundTo_spec hm (by have := ok.p; omega : 1 ≤ f.p) ok.emin_ue hQ hM hM' neg h0 e hK
  refine ⟨v, u, rv, ru, ix, ty, ov, fun o => ?_⟩
  obtain ⟨d, lt⟩ := hd neg _ _ rm rq rs (rn o)
  rw [hx o]
  have hs : decide (sgn neg * ((m * 2 ^ K : Nat) : Int) < 0) = neg := by rw [Bool.eq_iff_iff, decide_eq_true_iff]; exact (sgn_neg_iff (by positivity)).1
  exact ⟨lt, ⟨_, _, d.trans (by rw [hs])⟩, by rw [d, units_fin, rr]⟩
/-- The formats with infinities. -/
structure Fmt.Ieee (f : Fmt) : Prop extends f.Ok where
  ew2 : 2 ≤ f.ew
theorem Fmt.Ieee.maxQ_ue {f : Fmt} (h : f.Ieee) : maxQ f + f.unitExp = (2 ^ f.ew - 3 : Nat) := by
  have e4 : 2 ^ 2 ≤ 2 ^ f.ew := Nat.pow_le_pow_right (by norm_num) h.ew2
  have := h.ue; have := h.p
  unfold maxQ; omega
theorem Fmt.Ok.maxM_bounds {f : Fmt} (h : f.Ok) : 2 ^ (f.p - 1) ≤ maxM f ∧ maxM f < 2 ^ f.p := by
  have e2 : 2 ^ f.p = 2 ^ (f.p - 1) * 2 := by rw [← pow_succ]; congr 1; have := h.p; omega
  have := Nat.two_pow_pos (f.p - 1)
  unfold maxM; omega
/-- The formats with infinities round as RoundsIn says. -/
theorem roundF_roundsIn {f : Fmt} (ok : f.Ieee) {mode : Nat} (hm : mode < 4) (neg : Bool) {m : Nat} (h0 : m ≠ 0) {e : Int} {K j : Nat} (hK : e + f.unitExp + j = K) :
    RoundsIn f mode (sgn neg * (m * 2 ^ K : Nat)) j (roundF f mode neg m e) := by
  have hQ := ok.maxQ_ue
  have e4 : 2 ^ 2 ≤ 2 ^ f.ew := Nat.pow_le_pow_right (by norm_num) ok.ew2
  obtain ⟨lo, hi⟩ := ok.maxM_bounds
  have key := fun x => @roundTo_roundsAt f ok.toOk mode hm (maxM f) (maxQ f) (by omega) lo hi (unpack f) (fun neg m q a b c d => by
    obtain ⟨-, lt, h⟩ := unpackSmall_packFin (neg := neg) ok.p ok.bias ok.ew a b c (by intro h; have := Nat.two_pow_pos (f.p - 1); have := d (by omega); omega)
    exact ⟨h (by intro h; have := Nat.two_pow_pos (f.p - 1); have := d (by omega); omega), lt⟩) neg m h0 e K j hK x
  rw [hQ] at key
  obtain ⟨n1, n2⟩ := @sgn_neg_iff neg (m * 2 ^ K) (by positivity)
  unfold roundF
  rw [if_neg h0]
  dsimp only
  generalize roundTo mode f.p (emin f) (maxM f) (maxQ f) neg m e = R at key ⊢
  cases o : R.ovf
  · rw [if_neg (by simp)]
    refine ⟨_, _, _, o ▸ key _ (fun _ => rfl), fun _ => ?_, fun h => (by cases h)⟩
    dsimp only [roundFlags]
    rw [Bool.and_comm]
  · rw [if_pos rfl]
    refine ⟨_, _, _, o ▸ key _ (fun h => (by rw [o] at h; cases h)), fun h => (by cases h), fun _ => ?_⟩
    simp only [n1, n2, Bool.decide_eq_true]
    interval_cases mode <;> cases neg <;> simp [maxFin]
theorem f32_ieee : f32.Ieee := by constructor <;> first | decide | constructor <;> decide
theorem bf16_ieee : bf16.Ieee := by constructor <;> first | decide | constructor <;> decide
theorem f16_ieee : f16.Ieee := by constructor <;> first | decide | constructor <;> decide
theorem e5m2_ieee : e5m2.Ieee := by constructor <;> first | decide | constructor <;> decide
theorem e4m3_ok : e4m3.Ok := by constructor <;> decide
/-- Every value of the format is a whole number of units. -/
def Fmt.Holds (f : Fmt) (a : FV) : Prop := ∀ n m e, a = .fin n m e → 0 ≤ e + f.unitExp
theorem Fmt.Ok.small {f : Fmt} (ok : f.Ok) (x : Nat) : f.Holds (unpackSmall f x) := by
  intro n m e h
  have := ok.ue
  have := ok.p
  unfold unpackSmall at h
  dsimp only at h
  split at h
  · injection h with _ _ h; omega
  · injection h with _ _ h; omega
theorem Fmt.Ok.holds {f : Fmt} (ok : f.Ok) (x : Nat) : f.Holds (unpack f x) := by
  intro n m e h
  have := ok.ue
  have := ok.p
  unfold unpack at h
  dsimp only at h
  split at h
  · split at h <;> cases h
  · split at h
    · injection h with _ _ h; omega
    · injection h with _ _ h; omega
theorem Fmt.Holds.neg {f : Fmt} {a : FV} (h : f.Holds a) : f.Holds a.neg := by
  intro n m e he
  cases a with
  | nan => cases he
  | inf => cases he
  | fin n' m' e' => injection he with _ hm he; subst he; exact h _ _ _ rfl
/-- A signed integer as sign and magnitude. -/
theorem sgn_natAbs_self (v : Int) : sgn (decide (v < 0)) * (v.natAbs : Int) = v := by
  unfold sgn
  by_cases h : v < 0
  · rw [decide_eq_true h, if_pos rfl]; omega
  · rw [decide_eq_false h, if_neg (by simp)]; omega
theorem roundInt_roundsIn {f : Fmt} (ok : f.Ieee) {mode : Nat} (hm : mode < 4) {v q : Int} (h0 : v ≠ 0) (zs : Bool) {K j : Nat} (hK : q + f.unitExp + j = K) :
    RoundsIn f mode (v * (2 ^ K : Nat)) j (roundInt f mode v q zs) := by
  have h := roundF_roundsIn ok hm (decide (v < 0)) (m := v.natAbs) (by omega) hK
  rw [Nat.cast_mul, ← mul_assoc, sgn_natAbs_self] at h
  unfold roundInt
  rwa [if_neg h0]
/-- The exact sum, in units of 2^-k. -/
theorem addExact_units {an bn : Bool} {am bm : Nat} {ae be : Int} {k : Nat} (ha : 0 ≤ ae + k) (hb : 0 ≤ be + k) :
    (addExact an am ae bn bm be).1 * (2 ^ ((addExact an am ae bn bm be).2 + k).toNat : Nat) =
      sgn an * (am * 2 ^ (ae + k).toNat : Nat) + sgn bn * (bm * 2 ^ (be + k).toNat : Nat) ∧ 0 ≤ (addExact an am ae bn bm be).2 + k := by
  unfold addExact
  dsimp only
  refine ⟨?_, by omega⟩
  have e1 : (ae + k).toNat = (ae - min ae be).toNat + (min ae be + k).toNat := by omega
  have e2 : (be + k).toNat = (be - min ae be).toNat + (min ae be + k).toNat := by omega
  rw [e1, e2, pow_add, pow_add]
  push_cast
  cases an <;> cases bn <;> simp [sgn] <;> ring
theorem int_pow_pos (k : Nat) : (0 : Int) < ((2 ^ k : Nat) : Int) := by exact_mod_cast Nat.two_pow_pos k
theorem addV_sumIs {f : Fmt} (ok : f.Ieee) {mode : Nat} (hm : mode < 4) {a b : FV} (ha : f.Holds a) (hb : f.Holds b) : SumIs f mode a b (addV f mode a b) := by
  unfold SumIs nanResult
  cases a with
  | nan s => cases b <;> cases s <;> simp [addV, FV.isNan, FV.isSig, nanRes]
  | inf n =>
    cases b with
    | nan s => simp [addV, FV.isNan, FV.isSig, nanRes]
    | inf n' => cases n <;> cases n' <;> simp [addV, FV.isNan, FV.isFin, nanRes]
    | fin => simp [addV, FV.isNan, FV.isFin]
  | fin an am ae =>
    cases b with
    | nan s => simp [addV, FV.isNan, FV.isSig, nanRes]
    | inf n => simp [addV, FV.isNan, FV.isFin]
    | fin bn bm be =>
      obtain ⟨h, hq⟩ := addExact_units (an := an) (am := am) (bn := bn) (bm := bm) (ha _ _ _ rfl) (hb _ _ _ rfl)
      simp only [FV.isNan, FV.isFin, FV.sign, Bool.or_false, Bool.and_true, Bool.false_eq_true, reduceCtorEq, false_implies, implies_true, true_and, forall_const]
      rw [units_fin, units_fin, ← h]
      unfold addV
      dsimp only
      generalize addExact an am ae bn bm be = x at hq ⊢
      have p := int_pow_pos (x.2 + f.unitExp).toNat
      refine ⟨fun n0 => ?_, fun e0 => ?_⟩
      · exact roundInt_roundsIn ok hm (fun z => n0 (by rw [z, zero_mul])) _ (by simp; omega)
      · rcases mul_eq_zero.1 e0 with z | z
        · unfold roundInt; rw [if_pos z]; rfl
        · omega
theorem mulV_prodIs {f g : Fmt} (ok : f.Ieee) {mode : Nat} (hm : mode < 4) {a b : FV} (ha : f.Holds a) (hb : g.Holds b) : ProdIs f mode g a b (mulV f mode a b) := by
  have u0 : ∀ (f : Fmt) n m e, f.units (.fin n m e) = 0 ↔ m = 0 := fun f n m e => by
    rw [units_fin]
    have := Nat.two_pow_pos (e + f.unitExp).toNat
    rcases sgn_cases n with ⟨-, h⟩ | ⟨-, h⟩ <;> rw [h] <;> simp
  unfold ProdIs nanResult
  cases a with
  | nan s => cases b <;> cases s <;> simp [mulV, FV.isNan, FV.isSig, nanRes]
  | inf n =>
    cases b with
    | nan s => simp [mulV, FV.isNan, FV.isSig, nanRes]
    | inf n' => simp [mulV, FV.isNan, FV.isFin, FV.sign]
    | fin bn bm be => by_cases z : bm = 0 <;> simp [mulV, FV.isNan, FV.isFin, FV.sign, nanRes, u0, z]
  | fin an am ae =>
    cases b with
    | nan s => simp [mulV, FV.isNan, FV.isSig, nanRes]
    | inf n => by_cases z : am = 0 <;> simp [mulV, FV.isNan, FV.isFin, FV.sign, nanRes, u0, z]
    | fin bn bm be =>
      have h1 := ha _ _ _ rfl
      have h2 := hb _ _ _ rfl
      simp only [FV.isNan, FV.isFin, FV.sign, Bool.or_false, Bool.and_true, Bool.true_eq_false, Bool.false_eq_true, false_implies, true_and, forall_const]
      have e : f.units (.fin an am ae) * g.units (.fin bn bm be) = sgn (an != bn) * (am * bm * 2 ^ ((ae + f.unitExp).toNat + (be + g.unitExp).toNat) : Nat) := by
        rw [units_fin, units_fin, pow_add]
        cases an <;> cases bn <;> simp [sgn] <;> ring
      rw [e]
      show (_ → RoundsIn f mode _ _ (roundF f mode (an != bn) (am * bm) (ae + be))) ∧ (_ → roundF f mode (an != bn) (am * bm) (ae + be) = _)
      refine ⟨fun n0 => roundF_roundsIn ok hm _ (fun z => n0 (by rw [z]; simp)) (by omega), fun e0 => ?_⟩
      have : am * bm = 0 := by
        rcases sgn_cases (an != bn) with ⟨-, h⟩ | ⟨-, h⟩ <;> rw [h] at e0 <;> simpa using e0
      unfold roundF
      rw [if_pos this]
theorem units_eq_zero (f : Fmt) (n : Bool) (m : Nat) (e : Int) : f.units (.fin n m e) = 0 ↔ m = 0 := by
  rw [units_fin]
  have := Nat.two_pow_pos (e + f.unitExp).toNat
  rcases sgn_cases n with ⟨-, h⟩ | ⟨-, h⟩ <;> rw [h] <;> simp
theorem fmaV_fmaIs {f : Fmt} (ok : f.Ieee) {mode : Nat} (hm : mode < 4) {a b c : FV} (ha : f.Holds a) (hb : f.Holds b) (hc : f.Holds c) :
    FmaIs f mode a b c (fmaV f mode a b c) := by
  have nr : ∀ x : Bool, nanRes f x = (nanOf f, if x then flNV else 0) := fun _ => rfl
  unfold FmaIs
  dsimp only
  cases nn : (a.isNan || b.isNan || c.isNan)
  · refine ⟨fun h => (by cases h), fun _ => ?_⟩
    cases a with
    | nan => simp [FV.isNan] at nn
    | inf na =>
      cases b with
      | nan => simp [FV.isNan] at nn
      | inf nb =>
        cases c with
        | nan => simp [FV.isNan] at nn
        | inf nc => cases na <;> cases nb <;> cases nc <;> simp [fmaV, FV.isNan, FV.isFin, FV.sign, nr]
        | fin nc mc ec => cases na <;> cases nb <;> simp [fmaV, FV.isNan, FV.isFin, FV.sign]
      | fin nb mb eb =>
        cases c with
        | nan => simp [FV.isNan] at nn
        | inf nc => by_cases z : mb = 0 <;> cases na <;> cases nb <;> cases nc <;> simp [fmaV, FV.isNan, FV.isFin, FV.sign, nr, units_eq_zero, z]
        | fin nc mc ec => by_cases z : mb = 0 <;> cases na <;> cases nb <;> simp [fmaV, FV.isNan, FV.isFin, FV.sign, nr, units_eq_zero, z]
    | fin na ma ea =>
      cases b with
      | nan => simp [FV.isNan] at nn
      | inf nb =>
        cases c with
        | nan => simp [FV.isNan] at nn
        | inf nc => by_cases z : ma = 0 <;> cases na <;> cases nb <;> cases nc <;> simp [fmaV, FV.isNan, FV.isFin, FV.sign, nr, units_eq_zero, z]
        | fin nc mc ec => by_cases z : ma = 0 <;> cases na <;> cases nb <;> simp [fmaV, FV.isNan, FV.isFin, FV.sign, nr, units_eq_zero, z]
      | fin nb mb eb =>
        cases c with
        | nan => simp [FV.isNan] at nn
        | inf nc => simp [fmaV, FV.isNan, FV.isFin, FV.sign]
        | fin nc mc ec =>
          have h1 := ha _ _ _ rfl
          have h2 := hb _ _ _ rfl
          have h3 := hc _ _ _ rfl
          obtain ⟨h, hq⟩ := addExact_units (an := na != nb) (am := ma * mb) (ae := ea + eb) (bn := nc) (bm := mc) (be := ec) (k := f.unitExp + f.unitExp) (by push_cast; omega) (by push_cast; omega)
          have e : f.units (.fin na ma ea) * f.units (.fin nb mb eb) + f.units (.fin nc mc ec) * (2 ^ f.unitExp : Nat) =
              sgn (na != nb) * (ma * mb * 2 ^ (ea + eb + (f.unitExp + f.unitExp : Nat)).toNat : Nat) + sgn nc * (mc * 2 ^ (ec + (f.unitExp + f.unitExp : Nat)).toNat : Nat) := by
            rw [units_fin, units_fin, units_fin, show (ea + eb + (f.unitExp + f.unitExp : Nat)).toNat = (ea + f.unitExp).toNat + (eb + f.unitExp).toNat by push_cast; omega,
              show (ec + (f.unitExp + f.unitExp : Nat)).toNat = (ec + f.unitExp).toNat + f.unitExp by push_cast; omega, pow_add, pow_add]
            cases na <;> cases nb <;> simp [sgn] <;> ring_nf
          simp only [FV.isFin, FV.sign, Bool.and_true, Bool.true_eq_false, false_implies, true_and, forall_const]
          rw [e, ← h]
          have he : fmaV f mode (.fin na ma ea) (.fin nb mb eb) (.fin nc mc ec) =
              roundInt f mode (addExact (na != nb) (ma * mb) (ea + eb) nc mc ec).1 (addExact (na != nb) (ma * mb) (ea + eb) nc mc ec).2 (zeroSign mode (na != nb) nc) := rfl
          rw [he]
          generalize addExact (na != nb) (ma * mb) (ea + eb) nc mc ec = x at hq ⊢
          have p := int_pow_pos (x.2 + (f.unitExp + f.unitExp : Nat)).toNat
          refine ⟨fun n0 => roundInt_roundsIn ok hm (fun z => n0 (by rw [z, zero_mul])) _ (by push_cast at hq ⊢; omega), fun e0 => ?_⟩
          rcases mul_eq_zero.1 e0 with z | z
          · unfold roundInt; rw [if_pos z]; rfl
          · omega
  · refine ⟨fun _ => ?_, fun h => (by cases h)⟩
    unfold fmaV
    dsimp only
    rw [nn, if_pos rfl]
    cases sg : (a.isSig || b.isSig || c.isSig)
    · cases a <;> cases b <;> cases Config.fmaInvalidQuietNan <;> simp_all [FV.isNan, FV.isFin, units_eq_zero] <;> split <;> simp_all
    · simp [nr]
theorem cvtV_cvtIs {f g : Fmt} (ok : f.Ieee) {mode : Nat} (hm : mode < 4) {a : FV} (ha : g.Holds a) : CvtIs f mode g a (cvtV f mode a) := by
  unfold CvtIs nanResult
  cases a with
  | nan s => simp [cvtV, FV.isNan, FV.isFin, FV.isSig, nanRes]
  | inf n => simp [cvtV, FV.isNan, FV.isFin]
  | fin n m e =>
    have h := ha _ _ _ rfl
    have hu : g.units (.fin n m e) * (2 ^ f.unitExp : Nat) = sgn n * (m * 2 ^ ((e + g.unitExp).toNat + f.unitExp) : Nat) := by
      rw [units_fin, pow_add]; push_cast; ring
    rw [hu, units_eq_zero, Ne, units_eq_zero]
    refine ⟨fun h => (by cases h), fun _ h => (by cases h), fun _ => ⟨fun z => roundF_roundsIn ok hm n z (by omega), fun z => ?_⟩⟩
    subst z
    rfl
theorem toInt_roundsTo {g : Fmt} {mode : Nat} (hm : mode < 4) {n : Bool} {m : Nat} {e : Int} (h : 0 ≤ e + g.unitExp) :
    RoundsTo mode (toInt mode n m e).1 (g.units (.fin n m e)) (2 ^ g.unitExp) ∧
      (toInt mode n m e).2 = decide ((toInt mode n m e).1 * (2 ^ g.unitExp : Nat) ≠ g.units (.fin n m e)) := by
  obtain ⟨r, x⟩ := atQuantum_roundsTo hm n m e 0 (K := (e + g.unitExp).toNat) (D := g.unitExp) (by omega)
  have e1 : toInt mode n m e = (sgn n * ((atQuantum mode n m e 0).1 : Int), (atQuantum mode n m e 0).2) := by
    have : (if 0 ≤ e then (m * 2 ^ e.toNat, false) else roundShift mode n m (-e).toNat) = atQuantum mode n m e 0 := by
      unfold atQuantum; rw [Int.sub_zero, Int.zero_sub]
    unfold toInt
    dsimp only
    rw [this]
    cases n <;> simp [sgn]
  rw [e1, units_fin]
  refine ⟨r, x.trans ?_⟩
  rw [Bool.eq_iff_iff, decide_eq_true_iff, decide_eq_true_iff, mul_assoc, ← Nat.cast_mul]
  have sn : sgn n ≠ 0 := by rcases sgn_cases n with ⟨-, h⟩ | ⟨-, h⟩ <;> rw [h] <;> decide
  rw [Ne, Ne, mul_right_inj' sn, Nat.cast_inj]
theorem toIntSat_cvtIntIs {g : Fmt} {mode : Nat} (hm : mode < 4) {lo hi : Int} {a : FV} (ha : g.Holds a) : CvtIntIs mode lo hi g a (toIntSat mode lo hi a) := by
  unfold CvtIntIs
  cases a with
  | nan s => simp [toIntSat, FV.isNan, FV.isFin]
  | inf n => simp [toIntSat, FV.isNan, FV.isFin]
  | fin n m e =>
    refine ⟨fun h => (by cases h), fun _ h => (by cases h), fun _ => ?_⟩
    obtain ⟨r, x⟩ := toInt_roundsTo (g := g) hm (ha _ _ _ rfl)
    refine ⟨_, r, fun l => ?_, fun l h => ?_, fun l h => ?_⟩ <;> unfold toIntSat <;> dsimp only
    · rw [if_pos l]
    · rw [if_neg (by omega), if_pos h]
    · rw [if_neg (by omega), if_neg (by omega), x]
      by_cases z : (toInt mode n m e).1 * (2 ^ g.unitExp : Nat) = g.units (.fin n m e) <;> simp
theorem ofInt_fromIntIs {f : Fmt} (ok : f.Ieee) {mode : Nat} (hm : mode < 4) (v : Int) : FromIntIs f mode v (ofInt f mode v) := by
  refine ⟨fun h => by rw [h]; simp [ofInt, roundInt, zeroOf, b2n], fun h => ?_⟩
  exact roundInt_roundsIn ok hm h _ (by omega)
/-- The number of units that a magnitude names. -/
def Fmt.magUnits (f : Fmt) (x : Nat) : Nat := if x / 2 ^ (f.p - 1) = 0 then x else (2 ^ (f.p - 1) + x % 2 ^ (f.p - 1)) * 2 ^ (x / 2 ^ (f.p - 1) - 1)
theorem Fmt.magUnits_strictMono {f : Fmt} (ok : f.Ok) : StrictMono f.magUnits := by
  intro x y h
  unfold Fmt.magUnits
  have e2 : 2 ^ f.p = 2 ^ (f.p - 1) * 2 := by rw [← pow_succ]; congr 1; have := ok.p; omega
  have hD := Nat.two_pow_pos (f.p - 1)
  generalize 2 ^ (f.p - 1) = D at hD ⊢
  have hx := Nat.div_add_mod x D
  have hy := Nat.div_add_mod y D
  have rx := Nat.mod_lt x hD
  have ry := Nat.mod_lt y hD
  have hq : x / D ≤ y / D := Nat.div_le_div_right h.le
  generalize x / D = a at hx hq ⊢
  generalize y / D = b at hy hq ⊢
  generalize x % D = r at hx rx ⊢
  generalize y % D = s at hy ry ⊢
  rcases Nat.lt_or_ge a b with c | c
  · have hb : b ≠ 0 := by omega
    have lo : D * 2 ^ (b - 1) ≤ (D + s) * 2 ^ (b - 1) := Nat.mul_le_mul_right _ (by omega)
    have one : 1 ≤ 2 ^ (b - 1) := Nat.two_pow_pos _
    rw [if_neg hb]
    by_cases ha : a = 0
    · rw [if_pos ha]
      subst ha
      have : x < D := by omega
      nlinarith
    · rw [if_neg ha]
      have h1 : (D + r) * 2 ^ (a - 1) < D * 2 * 2 ^ (a - 1) := Nat.mul_lt_mul_of_pos_right (by omega) (Nat.two_pow_pos _)
      have h2 : D * 2 * 2 ^ (a - 1) = D * 2 ^ a := by rw [mul_assoc, ← pow_succ', Nat.sub_add_cancel (by omega)]
      have h3 : D * 2 ^ a ≤ D * 2 ^ (b - 1) := Nat.mul_le_mul_left _ (Nat.pow_le_pow_right (by norm_num) (by omega))
      omega
  · have hab : a = b := by omega
    subst hab
    by_cases ha : a = 0
    · rw [if_pos ha, if_pos ha]; exact h
    · rw [if_neg ha, if_neg ha]
      exact Nat.mul_lt_mul_of_pos_right (by omega) (Nat.two_pow_pos _)
theorem Fmt.magUnits_zero (f : Fmt) : f.magUnits 0 = 0 := by simp [Fmt.magUnits]
/-- The fields of a magnitude. -/
theorem mag_fields (p w x : Nat) : x % 2 ^ (p + w) / 2 ^ p = x / 2 ^ p % 2 ^ w ∧ x % 2 ^ (p + w) % 2 ^ p = x % 2 ^ p := by
  constructor
  · rw [pow_add, Nat.mod_mul_right_div_self]
  · rw [pow_add, Nat.mod_mul_right_mod]
theorem unpackSmall_units {f : Fmt} (ok : f.Ok) (x : Nat) :
    f.units (unpackSmall f x) = sgn (x.testBit (f.p - 1 + f.ew)) * (f.magUnits (x % 2 ^ (f.p - 1 + f.ew)) : Nat) ∧ (unpackSmall f x).sign = x.testBit (f.p - 1 + f.ew) ∧
      (unpackSmall f x).isFin = true := by
  have hu := ok.ue
  have hp := ok.p
  obtain ⟨h1, h2⟩ := mag_fields (f.p - 1) f.ew x
  unfold unpackSmall Fmt.magUnits
  dsimp only
  rw [h1, h2]
  by_cases c : x / 2 ^ (f.p - 1) % 2 ^ f.ew = 0
  · rw [if_pos c, if_pos c, units_fin]
    refine ⟨?_, rfl, rfl⟩
    have h3 : x % 2 ^ (f.p - 1 + f.ew) = x % 2 ^ (f.p - 1) := by
      have h4 := Nat.div_add_mod (x % 2 ^ (f.p - 1 + f.ew)) (2 ^ (f.p - 1))
      rw [h1, h2, c] at h4
      omega
    rw [h3, show (1 - (f.bias : Int) - (f.p - 1) + f.unitExp).toNat = 0 by omega, pow_zero, mul_one]
  · rw [if_neg c, if_neg c, units_fin]
    refine ⟨?_, rfl, rfl⟩
    congr 4
    omega
theorem unpack_small {f : Fmt} {x : Nat} (h : x / 2 ^ (f.p - 1) % 2 ^ f.ew ≠ 2 ^ f.ew - 1) : unpack f x = unpackSmall f x := by
  unfold unpack unpackSmall
  dsimp only
  rw [if_neg h]
theorem signed_lt {M : Nat → Nat} (hM : StrictMono M) (h0 : M 0 = 0) (n n' : Bool) (a b : Nat) :
    sgn n * (M a : Int) < sgn n' * (M b : Int) ↔ sgn n * (a : Int) < sgn n' * (b : Int) := by
  have h1 := hM.lt_iff_lt (a := a) (b := b)
  have h2 := hM.lt_iff_lt (a := b) (b := a)
  have h3 := hM.lt_iff_lt (a := 0) (b := a)
  have h4 := hM.lt_iff_lt (a := 0) (b := b)
  cases n <;> cases n' <;> simp only [sgn, if_true, Bool.false_eq_true, if_false] <;> omega
theorem orderKey_eq (f : Fmt) (x : Nat) : f.orderKey x = sgn (x.testBit (f.p - 1 + f.ew)) * (x % 2 ^ (f.p - 1 + f.ew) : Nat) := by
  unfold Fmt.orderKey sgn
  split <;> simp
/-- What a pattern of a format with infinities decodes to. -/
theorem unpack_cases (f : Fmt) (x : Nat) :
    (unpack f x = unpackSmall f x ∧ x % 2 ^ (f.p - 1 + f.ew) < (2 ^ f.ew - 1) * 2 ^ (f.p - 1)) ∨
    (unpack f x = .inf (x.testBit (f.p - 1 + f.ew)) ∧ x % 2 ^ (f.p - 1 + f.ew) = (2 ^ f.ew - 1) * 2 ^ (f.p - 1)) ∨
    (∃ s, unpack f x = .nan s) := by
  obtain ⟨h1, h2⟩ := mag_fields (f.p - 1) f.ew x
  have hd := Nat.div_add_mod (x % 2 ^ (f.p - 1 + f.ew)) (2 ^ (f.p - 1))
  rw [h1, h2] at hd
  have hr := Nat.mod_lt x (Nat.two_pow_pos (f.p - 1))
  have hb := Nat.mod_lt (x / 2 ^ (f.p - 1)) (Nat.two_pow_pos f.ew)
  by_cases c : x / 2 ^ (f.p - 1) % 2 ^ f.ew = 2 ^ f.ew - 1
  · right
    by_cases z : x % 2 ^ (f.p - 1) = 0
    · left
      unfold unpack
      dsimp only
      rw [if_pos c, if_pos z]
      exact ⟨rfl, by rw [c, z] at hd; rw [Nat.mul_comm]; omega⟩
    · right
      unfold unpack
      dsimp only
      rw [if_pos c, if_neg z]
      exact ⟨_, rfl⟩
  · left
    refine ⟨unpack_small c, ?_⟩
    have : (x / 2 ^ (f.p - 1) % 2 ^ f.ew + 1) * 2 ^ (f.p - 1) ≤ (2 ^ f.ew - 1) * 2 ^ (f.p - 1) := Nat.mul_le_mul_right _ (by omega)
    rw [Nat.add_mul, Nat.mul_comm] at this
    omega
theorem cmpV_fin {f : Fmt} {an bn : Bool} {am bm : Nat} {ae be : Int} (ha : 0 ≤ ae + f.unitExp) (hb : 0 ≤ be + f.unitExp) :
    cmpV (.fin an am ae) (.fin bn bm be) = some (if f.units (.fin an am ae) = f.units (.fin bn bm be) then .eq
      else if f.units (.fin an am ae) < f.units (.fin bn bm be) then .lt else .gt) := by
  obtain ⟨h, -⟩ := addExact_units (an := an) (am := am) (bn := !bn) (bm := bm) ha hb
  have e : sgn (!bn) * ((bm * 2 ^ (be + f.unitExp).toNat : Nat) : Int) = -f.units (.fin bn bm be) := by
    rw [units_fin]; cases bn <;> simp [sgn]
  rw [e, ← units_fin] at h
  have p := int_pow_pos ((addExact an am ae (!bn) bm be).2 + f.unitExp).toNat
  unfold cmpV
  dsimp only
  generalize (addExact an am ae (!bn) bm be).1 = v at h ⊢
  generalize ((2 ^ ((addExact an am ae (!bn) bm be).2 + f.unitExp).toNat : Nat) : Int) = D at h p
  have z : v = 0 ↔ f.units (.fin an am ae) = f.units (.fin bn bm be) := by
    constructor
    · intro v0; rw [v0, zero_mul] at h; omega
    · intro e0; rw [e0] at h; rcases mul_eq_zero.1 (h.trans (by omega)) with h | h <;> omega
  have l : v < 0 ↔ f.units (.fin an am ae) < f.units (.fin bn bm be) := by
    constructor
    · intro v0; have := mul_neg_of_neg_of_pos v0 p; omega
    · intro e0; by_contra c; have := mul_nonneg (not_lt.1 c) p.le; omega
  simp only [z, l]
/-- Numbers of a format with infinities compare as their places in its order. -/
theorem cmpV_orderKey {f : Fmt} (ok : f.Ieee) (x y : Nat) :
    cmpV (unpack f x) (unpack f y) = if (unpack f x).isNan || (unpack f y).isNan then none
      else some (if f.orderKey x = f.orderKey y then .eq else if f.orderKey x < f.orderKey y then .lt else .gt) := by
  have fin : ∀ z, unpack f z = unpackSmall f z → ∃ m e, unpack f z = .fin (z.testBit (f.p - 1 + f.ew)) m e := fun z h => by
    obtain ⟨-, h2, h3⟩ := unpackSmall_units ok.toOk z
    rw [h]
    cases hc : unpackSmall f z with
    | nan => rw [hc] at h3; cases h3
    | inf => rw [hc] at h3; cases h3
    | fin n m e => rw [hc] at h2; subst h2; exact ⟨_, _, rfl⟩
  have key : ∀ z, unpack f z = unpackSmall f z → f.units (unpack f z) = sgn (z.testBit (f.p - 1 + f.ew)) * (f.magUnits (z % 2 ^ (f.p - 1 + f.ew)) : Nat) := fun z h => by
    rw [h]; exact (unpackSmall_units ok.toOk z).1
  have top : 0 < (2 ^ f.ew - 1) * 2 ^ (f.p - 1) := by
    have : 2 ^ 2 ≤ 2 ^ f.ew := Nat.pow_le_pow_right (by norm_num) ok.ew2
    exact Nat.mul_pos (by omega) (Nat.two_pow_pos _)
  have kx := orderKey_eq f x
  have ky := orderKey_eq f y
  rcases unpack_cases f x with ⟨ux, mx⟩ | ⟨ux, mx⟩ | ⟨s, ux⟩
  · obtain ⟨am, ae, hx⟩ := fin x ux
    have Ux := key x ux
    rcases unpack_cases f y with ⟨uy, my⟩ | ⟨uy, my⟩ | ⟨s, uy⟩
    · obtain ⟨bm, be, hy⟩ := fin y uy
      have Uy := key y uy
      have l := signed_lt (Fmt.magUnits_strictMono ok.toOk) f.magUnits_zero (x.testBit (f.p - 1 + f.ew)) (y.testBit (f.p - 1 + f.ew)) (x % 2 ^ (f.p - 1 + f.ew)) (y % 2 ^ (f.p - 1 + f.ew))
      have l' := signed_lt (Fmt.magUnits_strictMono ok.toOk) f.magUnits_zero (y.testBit (f.p - 1 + f.ew)) (x.testBit (f.p - 1 + f.ew)) (y % 2 ^ (f.p - 1 + f.ew)) (x % 2 ^ (f.p - 1 + f.ew))
      rw [← Ux, ← Uy, ← kx, ← ky] at l
      rw [← Ux, ← Uy, ← kx, ← ky] at l'
      have e : f.units (unpack f x) = f.units (unpack f y) ↔ f.orderKey x = f.orderKey y := by omega
      have c := cmpV_fin (an := x.testBit (f.p - 1 + f.ew)) (bn := y.testBit (f.p - 1 + f.ew)) (am := am) (bm := bm) (ok.toOk.holds x _ _ _ hx) (ok.toOk.holds y _ _ _ hy)
      rw [← hx, ← hy] at c
      simp only [l, e] at c
      have nn : ((unpack f x).isNan || (unpack f y).isNan) = false := by rw [hx, hy]; rfl
      rw [c, nn]
      rfl
    · rw [hx, uy, kx, ky, my]
      generalize x.testBit (f.p - 1 + f.ew) = n
      generalize (2 ^ f.ew - 1) * 2 ^ (f.p - 1) = T at mx top ⊢
      cases n <;> cases y.testBit (f.p - 1 + f.ew) <;> simp only [cmpV, FV.isNan, sgn, Bool.or_false, Bool.false_eq_true, if_false, if_true, Option.some.injEq] <;>
        (first | rw [if_neg (by omega), if_pos (by omega)] | rw [if_neg (by omega), if_neg (by omega)])
    · rw [uy, hx]; simp [cmpV, FV.isNan]
  · rcases unpack_cases f y with ⟨uy, my⟩ | ⟨uy, my⟩ | ⟨s, uy⟩
    · obtain ⟨bm, be, hy⟩ := fin y uy
      rw [hy, ux, kx, ky, mx]
      generalize y.testBit (f.p - 1 + f.ew) = n
      generalize (2 ^ f.ew - 1) * 2 ^ (f.p - 1) = T at my top ⊢
      cases n <;> cases x.testBit (f.p - 1 + f.ew) <;> simp only [cmpV, FV.isNan, sgn, Bool.or_false, Bool.false_eq_true, if_false, if_true, Option.some.injEq] <;>
        (first | rw [if_neg (by omega), if_pos (by omega)] | rw [if_neg (by omega), if_neg (by omega)])
    · rw [ux, uy, kx, ky, mx, my]
      generalize (2 ^ f.ew - 1) * 2 ^ (f.p - 1) = T at top ⊢
      cases x.testBit (f.p - 1 + f.ew) <;> cases y.testBit (f.p - 1 + f.ew) <;> simp only [cmpV, FV.isNan, sgn, Bool.or_false, Bool.false_eq_true, if_false, if_true, Option.some.injEq, Bool.true_eq_false] <;>
        (first | done | rw [if_neg (by omega), if_pos (by omega)] | rw [if_neg (by omega), if_neg (by omega)])
    · rw [uy, ux]; simp [cmpV, FV.isNan]
  · rw [ux]; simp [cmpV, FV.isNan]
theorem rankKey_eq (f : Fmt) (x : Nat) : f.rankKey x = f.orderKey x - if x.testBit (f.p - 1 + f.ew) then 1 else 0 := by
  unfold Fmt.rankKey Fmt.orderKey; split <;> simp
theorem maxF_pickIs {f : Fmt} (ok : f.Ieee) (a b : Nat) : PickIs f max a b (maxF f a b) := by
  have h := cmpV_orderKey ok a b
  have ra := rankKey_eq f a
  have rb := rankKey_eq f b
  unfold PickIs nanResult
  dsimp only
  cases nn : (unpack f a).isNan || (unpack f b).isNan
  · refine ⟨fun h => (by cases h), fun _ => ?_⟩
    rw [nn] at h
    simp only [Bool.false_eq_true, if_false] at h
    unfold maxF
    dsimp only
    rw [h]
    rcases lt_trichotomy (f.orderKey a) (f.orderKey b) with c | c | c
    · rw [if_neg (by omega), if_pos c]
      refine ⟨rfl, .inr rfl, (max_eq_right ?_).symm⟩
      rw [ra, rb]; split <;> split <;> omega
    · rw [if_pos c]
      cases sa : a.testBit (f.p - 1 + f.ew)
      · rw [sa] at ra
        refine ⟨rfl, .inl rfl, (max_eq_left ?_).symm⟩
        show f.rankKey b ≤ f.rankKey a
        rw [ra, rb]; split <;> simp <;> omega
      · rw [sa] at ra
        refine ⟨rfl, .inr rfl, (max_eq_right ?_).symm⟩
        show f.rankKey a ≤ f.rankKey b
        rw [ra, rb, if_pos rfl]; split <;> omega
    · rw [if_neg (by omega), if_neg (by omega)]
      refine ⟨rfl, .inl rfl, (max_eq_left ?_).symm⟩
      rw [ra, rb]; split <;> split <;> omega
  · refine ⟨fun _ => ?_, fun h => (by cases h)⟩
    rw [nn] at h
    unfold maxF
    dsimp only
    rw [h]
    simp [nanRes]
theorem minF_pickIs {f : Fmt} (ok : f.Ieee) (a b : Nat) : PickIs f min a b (minF f a b) := by
  have h := cmpV_orderKey ok a b
  have ra := rankKey_eq f a
  have rb := rankKey_eq f b
  unfold PickIs nanResult
  dsimp only
  cases nn : (unpack f a).isNan || (unpack f b).isNan
  · refine ⟨fun h => (by cases h), fun _ => ?_⟩
    rw [nn] at h
    simp only [Bool.false_eq_true, if_false] at h
    unfold minF
    dsimp only
    rw [h]
    rcases lt_trichotomy (f.orderKey a) (f.orderKey b) with c | c | c
    · rw [if_neg (by omega), if_pos c]
      refine ⟨rfl, .inl rfl, (min_eq_left ?_).symm⟩
      rw [ra, rb]; split <;> split <;> omega
    · rw [if_pos c]
      cases sa : a.testBit (f.p - 1 + f.ew)
      · rw [sa] at ra
        refine ⟨rfl, .inr rfl, (min_eq_right ?_).symm⟩
        show f.rankKey b ≤ f.rankKey a
        rw [ra, rb]; split <;> simp <;> omega
      · rw [sa] at ra
        refine ⟨rfl, .inl rfl, (min_eq_left ?_).symm⟩
        show f.rankKey a ≤ f.rankKey b
        rw [ra, rb, if_pos rfl]; split <;> omega
    · rw [if_neg (by omega), if_neg (by omega)]
      refine ⟨rfl, .inr rfl, (min_eq_right ?_).symm⟩
      rw [ra, rb]; split <;> split <;> omega
  · refine ⟨fun _ => ?_, fun h => (by cases h)⟩
    rw [nn] at h
    unfold minF
    dsimp only
    rw [h]
    simp [nanRes]
theorem sgn_mul_units {g : Fmt} {n : Bool} {m : Nat} {e : Int} (d : Nat) : g.units (.fin n m e) * (2 ^ d : Nat) = sgn n * (m * 2 ^ ((e + g.unitExp).toNat + d) : Nat) := by
  rw [units_fin, pow_add]; push_cast; ring
/-- Decoding a packed significand of E4M3, up to 448. -/
theorem unpackE4M3_packFin (neg : Bool) (m : Nat) (q : Int) (hm : m < 16) (hq : 0 ≤ q + 9) (hs : m < 8 → q + 9 = 0) (hn : m ≠ 0 → q < 5 ∨ (q = 5 ∧ m ≤ 14)) :
    unpackE4M3 (packFin e4m3 neg m q) = .fin neg m q ∧ packFin e4m3 neg m q < 256 := by
  have u9 : e4m3.unitExp = 9 := rfl
  obtain ⟨h1, h2, -⟩ := @unpackSmall_packFin e4m3 neg m q (by decide) (by decide) (by decide) hm (by rw [u9]; exact hq) (by rw [u9]; exact hs)
    (by rw [u9]; intro h; have : e4m3.ew = 4 := rfl; have h8 : 2 ^ (e4m3.p - 1) = 8 := rfl; rw [this]; have := hn (by omega); omega)
  refine ⟨?_, h2⟩
  unfold unpackE4M3
  rw [if_neg, h1]
  intro h
  obtain ⟨be, fr, hf, hbe, e, h3, h4⟩ := @packFin_fields e4m3 neg m q (by decide) (by decide) hm (by rw [u9]; exact hq)
    (by rw [u9]; intro h; have : e4m3.ew = 4 := rfl; have h8 : 2 ^ (e4m3.p - 1) = 8 := rfl; rw [this]; have := hn (by omega); omega)
  have h8 : 2 ^ (e4m3.p - 1) = 8 := rfl
  have h7 : e4m3.p - 1 + e4m3.ew = 7 := rfl
  have h16 : 2 ^ e4m3.ew = 16 := rfl
  rw [e, h7, h8] at h
  rw [h8] at hf h3 h4
  rw [h16] at hbe
  rw [u9] at h4
  have : b2n neg * 2 ^ 7 % 128 = 0 := by cases neg <;> rfl
  by_cases c : m < 8
  · have := h3 c; omega
  · have := h4 (by omega); have := hn (by omega); omega
theorem toE4M3_cvtE4M3Is {g : Fmt} {mode : Nat} (hm : mode < 4) {a : FV} (ha : g.Holds a) : CvtE4M3Is mode g a (toE4M3 mode a) := by
  unfold CvtE4M3Is
  cases a with
  | nan s => cases s <;> simp [toE4M3, FV.isNan, FV.isFin, FV.isSig]
  | inf n => simp [toE4M3, FV.isNan, FV.isFin]
  | fin n m e =>
    refine ⟨fun h => (by cases h), fun _ h => (by cases h), fun _ => ⟨fun z => ?_, fun z => ?_⟩⟩
    · rw [units_eq_zero] at z; subst z; rfl
    · rw [Ne, units_eq_zero] at z
      have h := ha _ _ _ rfl
      have key := fun x => @roundTo_roundsAt e4m3 e4m3_ok mode hm 14 5 (by decide) (by decide) (by decide) unpackE4M3 (fun neg m q a b c d => unpackE4M3_packFin neg m q a b c d)
        n m z e ((e + g.unitExp).toNat + e4m3.unitExp) g.unitExp (by push_cast; omega) x
      rw [← sgn_mul_units] at key
      have ht : toE4M3 mode (.fin n m e) = if (roundTo mode e4m3.p (emin e4m3) 14 5 n m e).ovf then (b2n n * 128 + 0x7E, flOF + flNX)
          else (packFin e4m3 n (roundTo mode e4m3.p (emin e4m3) 14 5 n m e).m (roundTo mode e4m3.p (emin e4m3) 14 5 n m e).q,
            (if (roundTo mode e4m3.p (emin e4m3) 14 5 n m e).inexact then flNX else 0) + (if (roundTo mode e4m3.p (emin e4m3) 14 5 n m e).tiny && (roundTo mode e4m3.p (emin e4m3) 14 5 n m e).inexact then flUF else 0)) := by
        unfold toE4M3
        dsimp only
        rw [if_neg z]
        rfl
      rw [ht]
      generalize roundTo mode e4m3.p (emin e4m3) 14 5 n m e = R at key ⊢
      cases o : R.ovf
      · rw [if_neg (by simp)]
        refine ⟨_, _, _, o ▸ key _ (fun _ => rfl), fun _ => ?_, fun h => (by cases h)⟩
        dsimp only [roundFlags]
        rw [Bool.and_comm]
      · rw [if_pos rfl]
        exact ⟨_, _, _, o ▸ key _ (fun h => (by rw [o] at h; cases h)), fun h => (by cases h), fun _ => rfl⟩
/-- A multiple of the unit rounds to nearest to its own quotient. -/
theorem roundsTo_nearest_exact {w x : Int} {d : Nat} (hd : 0 < d) (h : RoundsTo 0 w x d) (hx : (d : Int) ∣ x) : w * d = x := by
  obtain ⟨c, rfl⟩ := hx
  obtain ⟨h1, -⟩ := h.1 rfl
  have e : w * d - d * c = (w - c) * d := by ring
  rw [e, Int.natAbs_mul, Int.natAbs_natCast] at h1
  have : (w - c).natAbs = 0 := by
    by_contra z
    have : 1 * d ≤ (w - c).natAbs * d := Nat.mul_le_mul_right _ (by omega)
    omega
  have : w = c := by omega
  rw [this, mul_comm]
/-- What a decoded number looks like. -/
theorem unpack_fin {f : Fmt} (ok : f.Ieee) {x : Nat} {n : Bool} {m : Nat} {e : Int} (h : unpack f x = .fin n m e) :
    m < 2 ^ f.p ∧ 0 ≤ e + f.unitExp ∧ e + f.unitExp ≤ (2 ^ f.ew - 3 : Nat) := by
  have hu := ok.ue
  have hp := ok.p
  have e4 : 2 ^ 2 ≤ 2 ^ f.ew := Nat.pow_le_pow_right (by norm_num) ok.ew2
  have e2 : 2 ^ f.p = 2 ^ (f.p - 1) * 2 := by rw [← pow_succ]; congr 1; omega
  have hr := Nat.mod_lt x (Nat.two_pow_pos (f.p - 1))
  have hb := Nat.mod_lt (x / 2 ^ (f.p - 1)) (Nat.two_pow_pos f.ew)
  unfold unpack at h
  dsimp only at h
  split at h
  · split at h <;> cases h
  · split at h
    · injection h with _ hm he; omega
    · injection h with _ hm he; omega
theorem rndF_integralIs {f : Fmt} (ok : f.Ieee) (hmx : f.unitExp ≤ 2 ^ f.ew - 3) {mode : Nat} (hm : mode < 4) (a : Nat) : IntegralIs f mode (unpack f a) (rndF f mode a) := by
  unfold IntegralIs nanResult
  cases ha : unpack f a with
  | nan s => simp [rndF, ha, FV.isNan, FV.isFin, FV.isSig, nanRes]
  | inf n => simp [rndF, ha, FV.isNan, FV.isFin]
  | fin n m e =>
    refine ⟨fun h => (by cases h), fun _ h => (by cases h), fun _ => ?_⟩
    obtain ⟨hm2, he0, he1⟩ := unpack_fin ok ha
    have hp := ok.p
    obtain ⟨rt, ix⟩ := toInt_roundsTo (g := f) (m := m) (n := n) hm he0
    have hr : rndF f mode a = if (toInt mode n m e).1 = 0 then (zeroOf f n, 0) else ((roundInt f 0 (toInt mode n m e).1 0 n).1, 0) := by
      unfold rndF; rw [ha]
    rw [hr]
    -- the integral value is a sign and a magnitude of at most p bits times a power of two
    have hv : ∃ r k : Nat, (toInt mode n m e).1 = sgn n * (r * 2 ^ k : Nat) ∧ r ≤ 2 ^ f.p ∧ (r * 2 ^ (k + f.unitExp) ≤ (2 ^ f.p - 1) * 2 ^ (2 ^ f.ew - 3)) ∧ (r = 2 ^ f.p → False) := by
      by_cases c : 0 ≤ e
      · refine ⟨m, e.toNat, ?_, hm2.le, ?_, by omega⟩
        · unfold toInt; dsimp only; rw [if_pos c]; cases n <;> simp [sgn]
        · exact Nat.mul_le_mul (by omega) (Nat.pow_le_pow_right (by norm_num) (by omega))
      · obtain ⟨-, hi⟩ := roundShift_bounds mode n m (-e).toNat
        have hle : (roundShift mode n m (-e).toNat).1 ≤ 2 ^ (f.p - 1) := by
          refine le_trans hi ?_
          rw [Nat.div_le_iff_le_mul_add_pred (Nat.two_pow_pos _), ← pow_add]
          have : 2 ^ f.p ≤ 2 ^ ((-e).toNat + (f.p - 1)) := Nat.pow_le_pow_right (by norm_num) (by omega)
          omega
        have e2 : 2 ^ f.p = 2 ^ (f.p - 1) * 2 := by rw [← pow_succ]; congr 1; omega
        have := Nat.two_pow_pos (f.p - 1)
        refine ⟨(roundShift mode n m (-e).toNat).1, 0, ?_, by omega, ?_, by omega⟩
        · unfold toInt; dsimp only; rw [if_neg c]; cases n <;> simp [sgn]
        · exact Nat.mul_le_mul (by omega) (Nat.pow_le_pow_right (by norm_num) (by omega))
    obtain ⟨r, k, hv, hr1, hr2, hr3⟩ := hv
    by_cases z : (toInt mode n m e).1 = 0
    · rw [if_pos z]
      have hz : unpack f (zeroOf f n) = .fin n 0 (1 - f.bias - (f.p - 1)) := by
        obtain ⟨a, b, c, -, -⟩ := @fields_of (f.p - 1) f.ew 0 0 n (Nat.two_pow_pos _) (Nat.two_pow_pos _)
        simp only [Nat.zero_mul, Nat.add_zero] at a b c
        unfold unpack zeroOf
        dsimp only
        have e4 : 2 ^ 2 ≤ 2 ^ f.ew := Nat.pow_le_pow_right (by norm_num) ok.ew2
        rw [a, b, c, if_neg (by omega), if_pos rfl]
      refine ⟨rfl, by rw [hz]; rfl, by rw [hz]; rfl, _, rt, ?_⟩
      rw [hz, z, zero_mul, units_eq_zero]
    · rw [if_neg z]
      obtain ⟨ix, ty, lg, ⟨w, u, rw', -, -, -, hl, hd⟩, -, -⟩ := roundInt_roundsIn ok (mode := 0) (by norm_num) z n (q := 0) (K := f.unitExp) (j := 0) (by simp)
      have hr0 : r ≠ 0 := by rintro rfl; exact z (by rw [hv]; simp)
      have hP : (toInt mode n m e).1 * (2 ^ f.unitExp : Nat) = sgn n * (r * 2 ^ (k + f.unitExp) : Nat) := by rw [hv, pow_add]; push_cast; ring
      rw [hP] at rw' hl hd
      rw [sgn_natAbs, log2_mul_pow hr0, Nat.sub_zero, Nat.add_zero] at rw'
      rw [sgn_natAbs, log2_mul_pow hr0, Nat.sub_zero] at hl hd
      have hlog : Nat.log2 r ≤ f.p - 1 := by
        have : Nat.log2 r < f.p := (Nat.log2_lt hr0).2 (lt_of_le_of_ne hr1 hr3)
        omega
      have hdv : ((2 ^ (Nat.log2 r + (k + f.unitExp) - (f.p - 1)) : Nat) : Int) ∣ sgn n * (r * 2 ^ (k + f.unitExp) : Nat) := by
        refine Dvd.dvd.mul_left ?_ _
        exact_mod_cast Dvd.dvd.mul_left (pow_dvd_pow 2 (by omega)) r
      have hw := roundsTo_nearest_exact (Nat.two_pow_pos _) rw' hdv
      have hlf : lg = false := by
        rw [hl, decide_eq_false_iff_not, not_lt]
        have : w.natAbs * 2 ^ (Nat.log2 r + (k + f.unitExp) - (f.p - 1)) = r * 2 ^ (k + f.unitExp) := by
          have := congrArg Int.natAbs hw
          rwa [Int.natAbs_mul, Int.natAbs_natCast, sgn_natAbs] at this
        rw [this]
        exact hr2
      obtain ⟨-, ⟨m', e', hx⟩, hun⟩ := hd hlf
      refine ⟨rfl, by rw [hx]; rfl, ?_, _, rt, ?_⟩
      · rw [hx]
        show decide _ = n
        rw [Bool.eq_iff_iff, decide_eq_true_iff]
        exact (sgn_neg_iff (by positivity)).1
      · rw [hun, hw, hP]
end Sys2Proof.Machine
end

