-- ==== Sys2Proof/Laws/Lanes.lean ====
section
/-! SUPPORT. Lanes of a register: what a list of lanes, a lane mask and a masked write hold at each lane (R12, R29, R166). -/

namespace Sys2Proof.Machine
theorem fromLanes_lane (e : Nat) (l : List Nat) (i : Nat) : laneAt e i (fromLanes e l) = l.getD i 0 % 2 ^ e := by
  have hp := Nat.two_pow_pos e
  induction l generalizing i with
  | nil => simp [fromLanes, laneAt]
  | cons x r ih =>
    cases i with
    | zero => simp [fromLanes, laneAt]
    | succ i =>
      have := ih i
      unfold laneAt at this ⊢
      rw [List.getD_cons_succ, ← this, fromLanes, Nat.mul_succ, Nat.add_comm (e * i) e, pow_add, ← Nat.div_div_eq_div_mul, Nat.add_mul_div_left _ _ hp, Nat.div_eq_of_lt (Nat.mod_lt _ hp), Nat.zero_add]
theorem laneAt_shift (e i off x : Nat) : laneAt e i (x * 2 ^ (e * off)) = if off ≤ i then laneAt e (i - off) x else 0 := by
  unfold laneAt
  split
  · rename_i h
    rw [show e * i = e * (i - off) + e * off by rw [← Nat.mul_add]; congr 1; omega, pow_add, Nat.mul_div_mul_right _ _ (Nat.two_pow_pos _)]
  · rename_i h
    have h1 : e * off = e * (off - i - 1) + e + e * i := by
      have : off = off - i - 1 + 1 + i := by omega
      conv_lhs => rw [this]
      ring
    rw [h1, pow_add, ← mul_assoc, Nat.mul_div_cancel _ (Nat.two_pow_pos _), pow_add, ← mul_assoc, Nat.mul_mod_left]
theorem laneAt_ofNat {e i : Nat} (h : e * (i + 1) ≤ 1024) (x : Nat) : laneAt e i (BitVec.ofNat 1024 x).toNat = laneAt e i x := by
  unfold laneAt
  rw [BitVec.toNat_ofNat, show 1024 = e * i + (e + (1024 - e * (i + 1))) by rw [Nat.mul_succ] at h ⊢; omega, pow_add, Nat.mod_mul_right_div_self, pow_add, Nat.mod_mul_right_mod]
theorem toLanes_length (e n x : Nat) : (toLanes e n x).length = n := by
  induction n generalizing x with
  | zero => rfl
  | succ n ih => simp [toLanes, ih]
theorem toLanes_getD (e n x i : Nat) (h : i < n) : (toLanes e n x).getD i 0 = laneAt e i x := by
  induction n generalizing x i with
  | zero => omega
  | succ n ih =>
    cases i with
    | zero => simp [toLanes, laneAt]
    | succ i =>
      rw [toLanes, List.getD_cons_succ, ih _ _ (by omega)]
      unfold laneAt
      rw [Nat.div_div_eq_div_mul, ← pow_add, Nat.mul_succ, Nat.add_comm e]
theorem laneMask_lane {e n k i : Nat} : laneAt e i (laneMask e n k) = if i < n ∧ k.testBit i = true then 2 ^ e - 1 else 0 := by
  have := Nat.two_pow_pos e
  unfold laneMask
  rw [fromLanes_lane]
  by_cases h : i < n
  · simp only [h, true_and, List.getD_eq_getElem?_getD, List.getElem?_map, List.getElem?_range, Option.map_some, Option.getD_some]
    split
    · exact Nat.mod_eq_of_lt (by omega)
    · rfl
  · simp [h, List.getD_eq_getElem?_getD]
theorem laneFlags_testBit (k : BitVec 128) (rs : List EltRes) (b : Nat) :
    (laneFlags k rs).testBit b = true ↔ ∃ i, i < rs.length ∧ k.getLsbD i = true ∧ (rs.getD i (0, 0)).2.testBit b = true := by
  have gen : ∀ (l : List EltRes) (o a : Nat), (List.foldl (fun a p => if k.getLsbD p.2 then orF a p.1.2 else a) a (l.zipIdx o)).testBit b = true ↔
      a.testBit b = true ∨ ∃ i, i < l.length ∧ k.getLsbD (o + i) = true ∧ (l.getD i (0, 0)).2.testBit b = true := by
    intro l
    induction l with
    | nil => intro o a; simp
    | cons x r ih =>
      intro o a
      rw [List.zipIdx_cons, List.foldl_cons, ih]
      have step : (if k.getLsbD o then orF a x.2 else a).testBit b = true ↔ a.testBit b = true ∨ (k.getLsbD o = true ∧ x.2.testBit b = true) := by
        cases k.getLsbD o <;> simp [orF]
      dsimp only
      rw [step]
      constructor
      · rintro ((h | h) | ⟨i, h1, h2, h3⟩)
        · exact .inl h
        · exact .inr ⟨0, by simp, by simpa using h.1, by simpa using h.2⟩
        · exact .inr ⟨i + 1, by simp; omega, by rw [← h2]; congr 1; omega, by simpa using h3⟩
      · rintro (h | ⟨i, h1, h2, h3⟩)
        · exact .inl (.inl h)
        · cases i with
          | zero => exact .inl (.inr ⟨by simpa using h2, by simpa using h3⟩)
          | succ i => exact .inr ⟨i, by simp at h1; omega, by rw [← h2]; congr 1; omega, by simpa using h3⟩
  unfold laneFlags
  simpa using gen rs 0 0
theorem flagBits_getLsbD {b : Nat} (h : b < 6) (x : Nat) : (flagBits x).getLsbD b = x.testBit b := by
  unfold flagBits
  rw [BitVec.getLsbD_ofNat]
  simp [h]
/-- Elements put into a register from element off on, each under its own mask bit. -/
theorem putElems_writes (d : BitVec 5) {e off : Nat} (k : BitVec 128) (rs : List EltRes) (he : 0 < e) (h : e * (off + rs.length) ≤ 1024) :
    WritesLanes (putElems d e off k rs) d e (fun i => if off ≤ i ∧ i < off + rs.length ∧ k.getLsbD i = true then some (rs.getD (i - off) (0, 0)) else none) := by
  refine ⟨_, _, _, rfl, fun i hi => ?_, fun b hb => ?_⟩
  · have hi' : e * (i + 1) ≤ 1024 := by
      have := (Nat.le_div_iff_mul_le he).1 hi
      rw [Nat.mul_comm]; exact this
    rw [laneAt_ofNat hi', laneAt_ofNat hi', laneAt_shift, laneAt_shift, laneMask_lane, fromLanes_lane]
    have hk : off ≤ i → (k >>> off).toNat.testBit (i - off) = k.getLsbD i := fun h => by
      rw [BitVec.testBit_toNat, BitVec.getLsbD_ushiftRight]; congr 1; omega
    by_cases c : off ≤ i
    · simp only [c, if_true, true_and, hk c]
      by_cases c2 : i < off + rs.length
      · have c3 : i - off < rs.length := by omega
        cases hb : k.getLsbD i
        · simp
        · simp only [c2, c3, and_self, if_true, Option.some.injEq, reduceCtorEq, false_implies, and_true]
          rintro x rfl
          refine ⟨trivial, ?_⟩
          simp [List.getD_eq_getElem?_getD, c3]
      · have c3 : ¬i - off < rs.length := by omega
        simp [c2, c3]
    · simp [c]
  · rw [flagBits_getLsbD hb, laneFlags_testBit]
    have hk : ∀ j, (k >>> off).getLsbD j = k.getLsbD (off + j) := fun j => BitVec.getLsbD_ushiftRight ..
    constructor
    · rintro ⟨j, h1, h2, h3⟩
      refine ⟨off + j, _, ?_, if_pos ⟨by omega, by omega, by rw [← hk]; exact h2⟩, by rw [Nat.add_sub_cancel_left]; exact h3⟩
      rw [Nat.lt_iff_add_one_le, Nat.le_div_iff_mul_le he, Nat.mul_comm]
      exact le_trans (Nat.mul_le_mul_left _ (by omega)) h
    · rintro ⟨i, x, hi, hx, h3⟩
      dsimp only at hx
      split at hx
      · rename_i c
        injection hx with hx
        subst hx
        exact ⟨i - off, by omega, by rw [hk, show off + (i - off) = i by omega]; exact c.2.2, h3⟩
      · cases hx
theorem putRes_eq (f : VF) (k : BitVec 128) (rs : List EltRes) : putRes f k rs = putElems f.d f.t.bits 0 k rs := by
  unfold putRes putElems putLanes
  simp
end Sys2Proof.Machine
end

