-- ==== Sys2Proof/Laws/Map.lean ====
section
/-! SUPPORT. Sparse maps and physical memory: what is read after a write, and the canonical form kept. -/

namespace Sys2Proof.Machine
set_option Elab.async false

/-! Sparse maps. -/

theorem fget_dropLe_le {α : Type} (d : α) (k j : Nat) (h : j ≤ k) (m : FMap α) : fget d (dropLe k m) j = d := by
  induction m with
  | nil => rfl
  | cons e r ih =>
    obtain ⟨k', v'⟩ := e
    unfold dropLe
    split
    · exact ih
    · unfold fget
      rw [if_pos (by omega)]

theorem fget_dropLe_gt {α : Type} (d : α) (k j : Nat) (h : k < j) (m : FMap α) : fget d (dropLe k m) j = fget d m j := by
  induction m with
  | nil => rfl
  | cons e r ih =>
    obtain ⟨k', v'⟩ := e
    unfold dropLe
    split
    · rw [ih, fget, if_neg (by omega), if_neg (by omega)]
    · rfl

/-- A read of the key that was set. -/
theorem fget_fput {α : Type} [DecidableEq α] (d : α) (k : Nat) (v : α) (m : FMap α) : fget d (fput d k v m) k = v := by
  induction m with
  | nil =>
    unfold fput
    split
    · rename_i h; rw [h]; rfl
    · simp [fget]
  | cons e r ih =>
    obtain ⟨k', v'⟩ := e
    unfold fput
    split_ifs with h1 h2 h3 h4
    · simp [fget, h1, h2]
    · simp [fget]
    · rw [fget_dropLe_le d k k (le_refl _), h4]
    · simp [fget]
    · rw [fget, if_neg h1, if_neg h3, ih]

/-- A read of any other key. -/
theorem fget_fput_ne {α : Type} [DecidableEq α] (d : α) (k j : Nat) (v : α) (m : FMap α) (h : j ≠ k) : fget d (fput d k v m) j = fget d m j := by
  induction m with
  | nil =>
    unfold fput
    split
    · rfl
    · simp only [fget, if_neg h, ite_self]
  | cons e r ih =>
    obtain ⟨k', v'⟩ := e
    unfold fput
    split_ifs with h1 h2 h3 h4
    · rfl
    · rw [fget]
      split_ifs with h5
      · rw [fget, if_pos (by omega)]
      · rfl
    · rcases Nat.lt_or_ge j k with h5 | h5
      · rw [fget_dropLe_le d k j (by omega), fget, if_pos (by omega)]
      · rw [fget_dropLe_gt d k j (by omega), fget, if_neg (by omega), if_neg (by omega)]
    · rw [fget]
      split_ifs with h5
      · rw [fget, if_pos (by omega)]
      · rw [fget_dropLe_gt d k j (by omega), fget, if_neg (by omega), if_neg (by omega)]
    · rw [fget, fget, ih]

theorem fget_fmod {α : Type} [DecidableEq α] (d : α) (k : Nat) (f : α → α) (m : FMap α) : fget d (fmod d k f m) k = f (fget d m k) := fget_fput _ _ _ _
theorem fget_fmod_ne {α : Type} [DecidableEq α] (d : α) (k j : Nat) (f : α → α) (m : FMap α) (h : j ≠ k) : fget d (fmod d k f m) j = fget d m j :=
  fget_fput_ne _ _ _ _ _ h

/-- Above lo: the bound that the canonical form keeps. -/
def above (lo : Option Nat) (k : Nat) : Bool :=
  match lo with
  | none => true
  | some l => decide (l < k)

theorem fwfFrom_cons {α : Type} [DecidableEq α] (d : α) (lo : Option Nat) (k : Nat) (v : α) (r : FMap α) :
    fwfFrom d lo ((k, v) :: r) = (above lo k && decide (v ≠ d) && fwfFrom d (some k) r) := by
  cases lo <;> simp [fwfFrom, above]

theorem fwfFrom_weaken {α : Type} [DecidableEq α] (d : α) (lo : Option Nat) (k : Nat) (hk : above lo k = true) (m : FMap α)
    (h : fwfFrom d (some k) m = true) : fwfFrom d lo m = true := by
  cases m with
  | nil => rfl
  | cons e r =>
    obtain ⟨k', v'⟩ := e
    rw [fwfFrom_cons] at h ⊢
    simp only [Bool.and_eq_true, above, decide_eq_true_eq] at h ⊢
    refine ⟨⟨?_, h.1.2⟩, h.2⟩
    cases lo with
    | none => rfl
    | some l => simp [above] at hk ⊢; omega

theorem fwfFrom_dropLe {α : Type} [DecidableEq α] (d : α) (k : Nat) (m : FMap α) (lo : Option Nat) (h : fwfFrom d lo m = true) :
    fwfFrom d (some k) (dropLe k m) = true := by
  induction m generalizing lo with
  | nil => rfl
  | cons e r ih =>
    obtain ⟨k', v'⟩ := e
    rw [fwfFrom_cons] at h
    simp only [Bool.and_eq_true, decide_eq_true_eq] at h
    unfold dropLe
    split
    · exact ih _ h.2
    · rw [fwfFrom_cons]
      simp only [Bool.and_eq_true, above, decide_eq_true_eq]
      exact ⟨⟨by omega, h.1.2⟩, h.2⟩

theorem fwfFrom_fput {α : Type} [DecidableEq α] (d : α) (k : Nat) (v : α) (m : FMap α) (lo : Option Nat) (hk : above lo k = true)
    (h : fwfFrom d lo m = true) : fwfFrom d lo (fput d k v m) = true := by
  induction m generalizing lo with
  | nil =>
    unfold fput
    split
    · rfl
    · rename_i hv; rw [fwfFrom_cons]; simp [hk, hv, fwfFrom]
  | cons e r ih =>
    obtain ⟨k', v'⟩ := e
    have h0 := h
    rw [fwfFrom_cons] at h
    simp only [Bool.and_eq_true, decide_eq_true_eq] at h
    unfold fput
    split_ifs with h1 h2 h3 h4
    · exact h0
    · rw [fwfFrom_cons, fwfFrom_cons]
      simp only [Bool.and_eq_true, decide_eq_true_eq]
      exact ⟨⟨hk, h2⟩, ⟨by simpa [above] using h1, h.1.2⟩, h.2⟩
    · exact fwfFrom_weaken d lo k hk _ (fwfFrom_dropLe d k r _ h.2)
    · rw [fwfFrom_cons]
      simp only [Bool.and_eq_true, decide_eq_true_eq]
      exact ⟨⟨hk, h4⟩, fwfFrom_dropLe d k r _ h.2⟩
    · rw [fwfFrom_cons]
      simp only [Bool.and_eq_true, decide_eq_true_eq]
      exact ⟨h.1, ih _ (by simp [above]; omega) h.2⟩

/-- A write keeps the canonical form. -/
theorem fwf_fput {α : Type} [DecidableEq α] (d : α) (k : Nat) (v : α) (m : FMap α) (h : fwf d m = true) : fwf d (fput d k v m) = true :=
  fwfFrom_fput d k v m none rfl h

theorem fget_low {α : Type} [DecidableEq α] (d : α) (k : Nat) (m : FMap α) (lo : Nat) (hk : k ≤ lo) (h : fwfFrom d (some lo) m = true) : fget d m k = d := by
  cases m with
  | nil => rfl
  | cons e r =>
    obtain ⟨k', v'⟩ := e
    rw [fwfFrom_cons] at h
    simp only [Bool.and_eq_true, above, decide_eq_true_eq] at h
    rw [fget, if_pos (by omega)]

theorem dropLe_id {α : Type} [DecidableEq α] (d : α) (k : Nat) (m : FMap α) (h : fwfFrom d (some k) m = true) : dropLe k m = m := by
  cases m with
  | nil => rfl
  | cons e r =>
    obtain ⟨k', v'⟩ := e
    rw [fwfFrom_cons] at h
    simp only [Bool.and_eq_true, above, decide_eq_true_eq] at h
    rw [dropLe, if_neg (by omega)]

theorem fput_fget_from {α : Type} [DecidableEq α] (d : α) (k : Nat) (m : FMap α) (lo : Option Nat) (h : fwfFrom d lo m = true) : fput d k (fget d m k) m = m := by
  induction m generalizing lo with
  | nil => simp [fget, fput]
  | cons e r ih =>
    obtain ⟨k', v'⟩ := e
    rw [fwfFrom_cons] at h
    simp only [Bool.and_eq_true, decide_eq_true_eq] at h
    unfold fget fput
    split_ifs with h1 h2 h3 h4
    · rfl
    · exact absurd rfl h2
    · exact absurd h4 h.1.2
    · rw [dropLe_id d k r (by rw [h3]; exact h.2), h3]
    · rw [ih _ h.2]

/-- Writing back what is read changes nothing. -/
theorem fput_fget {α : Type} [DecidableEq α] (d : α) (k : Nat) (m : FMap α) (h : fwf d m = true) : fput d k (fget d m k) m = m := fput_fget_from d k m none h

/-- Dropping entries keeps the canonical form. -/
theorem fwfFrom_filter {α : Type} [DecidableEq α] (d : α) (p : Nat × α → Bool) (m : FMap α) (lo : Option Nat) (h : fwfFrom d lo m = true) :
    fwfFrom d lo (m.filter p) = true := by
  induction m generalizing lo with
  | nil => rfl
  | cons e r ih =>
    obtain ⟨k', v'⟩ := e
    rw [fwfFrom_cons] at h
    simp only [Bool.and_eq_true, decide_eq_true_eq] at h
    rw [List.filter_cons]
    split
    · rw [fwfFrom_cons]
      simp only [Bool.and_eq_true, decide_eq_true_eq]
      exact ⟨h.1, ih _ h.2⟩
    · exact ih _ (fwfFrom_weaken d lo k' h.1.1 r h.2)

theorem fwf_filter {α : Type} [DecidableEq α] (d : α) (p : Nat × α → Bool) (m : FMap α) (h : fwf d m = true) : fwf d (m.filter p) = true :=
  fwfFrom_filter d p m none h

/-! Bytes and numbers. -/

theorem natLe_length (n x : Nat) : (natLe n x).length = n := by
  induction n generalizing x with
  | zero => rfl
  | succ n ih => simp [natLe, ih]

theorem leNat_natLe (n x : Nat) : leNat (natLe n x) = x % 2 ^ (8 * n) := by
  induction n generalizing x with
  | zero => simp [natLe, leNat, Nat.mod_one]
  | succ n ih =>
    simp only [natLe, leNat, ih, BitVec.toNat_ofNat]
    have h : 2 ^ (8 * (n + 1)) = 256 * 2 ^ (8 * n) := by rw [show 8 * (n + 1) = 8 + 8 * n by omega, Nat.pow_add]
    rw [h, Nat.mod_mul]

theorem leNat_lt (l : List (BitVec 8)) : leNat l < 2 ^ (8 * l.length) := by
  induction l with
  | nil => simp [leNat]
  | cons b r ih =>
    have h : 2 ^ (8 * (r.length + 1)) = 256 * 2 ^ (8 * r.length) := by rw [show 8 * (r.length + 1) = 8 + 8 * r.length by omega, Nat.pow_add]
    simp only [leNat, List.length_cons, h]
    have := b.isLt
    omega

theorem natLe_leNat (l : List (BitVec 8)) : natLe l.length (leNat l) = l := by
  induction l with
  | nil => rfl
  | cons b r ih =>
    simp only [List.length_cons, natLe, leNat]
    have hb := b.isLt
    congr 1
    · apply BitVec.eq_of_toNat_eq; simp; omega
    · rw [show (b.toNat + 256 * leNat r) / 256 = leNat r by omega, ih]

/-! Physical memory. -/

theorem memRead_length (m : List Host.Cell) (pa n : Nat) : (memRead m pa n).length = n := by
  induction n generalizing pa with
  | zero => rfl
  | succ n ih => simp [memRead, ih]

theorem memWrite_below (m : List Host.Cell) (pa : Nat) (bs : List (BitVec 8)) (x : Nat) (h : x < pa) : fget 0 (memWrite m pa bs) x = fget 0 m x := by
  induction bs generalizing m pa with
  | nil => rfl
  | cons b r ih => rw [memWrite, ih _ _ (by omega), fget_fput_ne _ _ _ _ _ (by omega)]

theorem memWrite_above (m : List Host.Cell) (pa : Nat) (bs : List (BitVec 8)) (x : Nat) (h : pa + bs.length ≤ x) : fget 0 (memWrite m pa bs) x = fget 0 m x := by
  induction bs generalizing m pa with
  | nil => rfl
  | cons b r ih =>
    simp only [List.length_cons] at h
    rw [memWrite, ih _ _ (by omega), fget_fput_ne _ _ _ _ _ (by omega)]

/-- Every byte outside a write reads as before. -/
theorem memWrite_frame (m : List Host.Cell) (pa : Nat) (bs : List (BitVec 8)) (x : Nat) (h : x < pa ∨ pa + bs.length ≤ x) :
    fget 0 (memWrite m pa bs) x = fget 0 m x := by
  rcases h with h | h
  · exact memWrite_below m pa bs x h
  · exact memWrite_above m pa bs x h

theorem memRead_memWrite (m : List Host.Cell) (pa : Nat) (bs : List (BitVec 8)) : memRead (memWrite m pa bs) pa bs.length = bs := by
  induction bs generalizing m pa with
  | nil => rfl
  | cons b r ih =>
    simp only [List.length_cons, memRead, memWrite]
    rw [memWrite_below _ _ _ _ (by omega), fget_fput, ih]

theorem memRead_congr (m m' : List Host.Cell) (pa n : Nat) (h : ∀ x, pa ≤ x → x < pa + n → fget 0 m x = fget 0 m' x) : memRead m pa n = memRead m' pa n := by
  induction n generalizing pa with
  | zero => rfl
  | succ n ih =>
    simp only [memRead]
    rw [h pa (by omega) (by omega), ih (pa + 1) (fun x h1 h2 => h x (by omega) (by omega))]

/-- A read that no written byte overlaps. -/
theorem memRead_memWrite_disjoint (m : List Host.Cell) (pa : Nat) (bs : List (BitVec 8)) (q n : Nat) (h : q + n ≤ pa ∨ pa + bs.length ≤ q) :
    memRead (memWrite m pa bs) q n = memRead m q n :=
  memRead_congr _ _ _ _ fun x h1 h2 => memWrite_frame m pa bs x (by omega)

theorem memWrite_wf (m : List Host.Cell) (pa : Nat) (bs : List (BitVec 8)) (h : Memory.wf m = true) : Memory.wf (memWrite m pa bs) = true := by
  induction bs generalizing m pa with
  | nil => exact h
  | cons b r ih => exact ih _ _ (fwf_fput 0 pa b m h)

theorem memWrite_memRead (m : List Host.Cell) (pa n : Nat) (h : Memory.wf m = true) : memWrite m pa (memRead m pa n) = m := by
  induction n generalizing pa with
  | zero => rfl
  | succ n ih => rw [memRead, memWrite, fput_fget 0 pa m h, ih]

theorem rdBytes_wrBytes (s : State) (pa : Nat) (bs : List (BitVec 8)) : (s.wrBytes pa bs).rdBytes pa bs.length = bs := memRead_memWrite _ _ _
theorem rdByte_wrBytes (s : State) (pa : Nat) (bs : List (BitVec 8)) (x : Nat) (h : x < pa ∨ pa + bs.length ≤ x) :
    (s.wrBytes pa bs).rdByte x = s.rdByte x := memWrite_frame _ _ _ _ h
theorem rd_wr (s : State) (pa n v : Nat) : (s.wr pa n v).rd pa n = v % 2 ^ (8 * n) := by
  have h := rdBytes_wrBytes s pa (natLe n v)
  rw [natLe_length] at h
  rw [State.rd, State.wr, h, leNat_natLe]
theorem rd_wr_disjoint (s : State) (pa n v q k : Nat) (h : q + k ≤ pa ∨ pa + n ≤ q) : (s.wr pa n v).rd q k = s.rd q k := by
  unfold State.rd State.wr State.rdBytes State.wrBytes
  rw [memRead_memWrite_disjoint _ _ _ _ _ (by rw [natLe_length]; exact h)]

end Sys2Proof.Machine
end

