-- ==== Sys2Proof/Laws/MemOk.lean ====
section
/-! SUPPORT. Physical memory keeps its canonical form under every operation of the machine: one lemma for each operation that yields a state, each citing those of the operations it calls. -/
namespace Sys2Proof.Machine
set_option Elab.async false
/-- An outcome's next state keeps the memory's form. -/
def OutOk (o : Out) : Prop := ∀ t, o = .next t → t.MemOk
theorem next_memOk {s : State} (h : s.MemOk) : OutOk (.next s) := by intro t e; cases e; exact h
theorem fault_memOk {f : Fault} : OutOk (.fault f) := by intro t e; cases e
theorem refused_memOk {f : Refusal} : OutOk (.refused f) := by intro t e; cases e
theorem thenDo_memOk {o : Out} {f : State → Out} (h : OutOk o) (hf : ∀ s, s.MemOk → OutOk (f s)) : OutOk (thenDo o f) := by
  cases o with
  | next s => exact hf s (h s rfl)
  | fault f => exact fault_memOk
  | refused f => exact refused_memOk
theorem have_memOk {P : Prop} {t : State} (h : t.MemOk) (k : t.MemOk → P) : P := k h
theorem mk_memOk {s : State} {cfg : SysCfg} {clk : Clk} {cid : Nat} {core : Core} {cores : FMap Core} {bar : FMap Barrier} {lay : List LayCopy} {sets : FMap TSet} {via : FMap VSlot}
    {cmds : List Cmd} {faces : List Face} {sched : Sched} {xl : Xl} {fab : Fab} {host : FMap HostSt} {running dark bad : List Nat} (h : s.MemOk) :
    State.MemOk ⟨cfg, clk, cid, core, cores, s.mem, bar, lay, sets, via, cmds, faces, sched, xl, fab, host, running, dark, bad⟩ := h
theorem foldl_memOk {α : Type} {f : State → α → State} {l : List α} {s : State} (h : s.MemOk) (hf : ∀ s x, s.MemOk → (f s x).MemOk) : (l.foldl f s).MemOk := by
  induction l generalizing s with
  | nil => exact h
  | cons x r ih => exact ih (hf s x h)
theorem foldl_fst_memOk {α β : Type} {f : State × β → α → State × β} {l : List α} {p : State × β} (h : p.1.MemOk) (hf : ∀ p x, p.1.MemOk → (f p x).1.MemOk) : (l.foldl f p).1.MemOk := by
  induction l generalizing p with
  | nil => exact h
  | cons x r ih => exact ih (hf p x h)
theorem pair_memOk {β : Type} {s : State} {b : β} (h : s.MemOk) : (s, b).1.MemOk := h
theorem ite_memOk {c : Prop} [Decidable c] {a b : State} (ha : a.MemOk) (hb : b.MemOk) : (if c then a else b).MemOk := by
  split
  · exact ha
  · exact hb
theorem eq_memOk {β : Type} {p : State × β} {s : State} {b : β} (e : p = (s, b)) (h : p.1.MemOk) : s.MemOk := by rw [e] at h; exact h
/-- What a cycle's work leaves, and what a translation leaves, keep the memory's form. -/
def WorkOk (w : Work) : Prop := ∀ t, w = .done t ∨ w = .wait t ∨ (∃ f, w = .bad t f) → t.MemOk
def HomeOk (h : Home) : Prop := ∀ t, (∃ pa, h = .at t pa) ∨ h = .wait t → t.MemOk
def OptOk (o : Option State) : Prop := ∀ t, o = some t → t.MemOk
theorem done_ok {s : State} (h : s.MemOk) : WorkOk (.done s) := by rintro t (e | e | ⟨_, e⟩) <;> cases e; exact h
theorem wait_ok {s : State} (h : s.MemOk) : WorkOk (.wait s) := by rintro t (e | e | ⟨_, e⟩) <;> cases e; exact h
theorem bad_ok {s : State} {f : Trap} (h : s.MemOk) : WorkOk (.bad s f) := by rintro t (e | e | ⟨_, e⟩) <;> cases e; exact h
theorem home_at_ok {s : State} {pa : Nat} (h : s.MemOk) : HomeOk (.at s pa) := by rintro t (⟨_, e⟩ | e) <;> cases e; exact h
theorem home_wait_ok {s : State} (h : s.MemOk) : HomeOk (.wait s) := by rintro t (⟨_, e⟩ | e) <;> cases e; exact h
theorem home_bad_ok {f : Trap} : HomeOk (.bad f) := by rintro t (⟨_, e⟩ | e) <;> cases e
theorem some_ok {s : State} (h : s.MemOk) : OptOk (some s) := by intro t e; cases e; exact h
theorem none_ok : OptOk none := by intro t e; cases e
theorem done_memOk {w : Work} {t : State} (e : w = .done t) (h : WorkOk w) : t.MemOk := h t (.inl e)
theorem wait_memOk {w : Work} {t : State} (e : w = .wait t) (h : WorkOk w) : t.MemOk := h t (.inr (.inl e))
theorem bad_memOk {w : Work} {t : State} {f : Trap} (e : w = .bad t f) (h : WorkOk w) : t.MemOk := h t (.inr (.inr ⟨f, e⟩))
theorem at_memOk {h : Home} {t : State} {pa : Nat} (e : h = .at t pa) (k : HomeOk h) : t.MemOk := k t (.inl ⟨pa, e⟩)
theorem stall_memOk {h : Home} {t : State} (e : h = .wait t) (k : HomeOk h) : t.MemOk := k t (.inr e)
theorem opt_memOk {o : Option State} {t : State} (e : o = some t) (h : OptOk o) : t.MemOk := h t e
theorem elim_memOk {α : Type} {o : Option α} {s : State} {f : α → State} (h : s.MemOk) (hf : ∀ x, (f x).MemOk) : (o.elim s f).MemOk := by
  cases o with
  | none => exact h
  | some x => exact hf x
theorem State.wrByte_memOk (s : State) (pa : Nat) (b : BitVec 8) (h0 : s.MemOk) : (s.wrByte pa b).MemOk := fwf_fput 0 pa b s.mem h0
theorem State.wrBytes_memOk (s : State) (pa : Nat) (bs : List (BitVec 8)) (h0 : s.MemOk) : (s.wrBytes pa bs).MemOk := memWrite_wf s.mem pa bs h0
theorem State.wr_memOk (s : State) (pa n v : Nat) (h0 : s.MemOk) : (State.wr s pa n v).MemOk := by
  unfold State.wr
  repeat' (first | with_reducible assumption | with_reducible apply State.wrBytes_memOk)
theorem State.cacheWalk_memOk (s : State) (die asid va : Nat) (w : Walk) (h0 : s.MemOk) : (State.cacheWalk s die asid va w).MemOk := by
  unfold State.cacheWalk
  repeat' (first | with_reducible assumption | (unfold State.MemOk; dsimp only; change State.MemOk _))
theorem State.wrVirt_go_memOk (die asid : Nat) : ∀ (f : Nat) (s : State) (va : Nat) (bs : List (BitVec 8)), s.MemOk → (State.wrVirt.go die asid f s va bs).1.MemOk
  | 0, _, _, _, h => h
  | f + 1, s, va, bs, h => by
    unfold State.wrVirt.go
    split
    · exact h
    · dsimp only
      split
      · exact h
      · exact State.wrVirt_go_memOk die asid f _ _ _ (State.wrBytes_memOk _ _ _ h)
theorem State.wrVirt_memOk (s : State) (die asid va : Nat) (bs : List (BitVec 8)) (h0 : s.MemOk) : (s.wrVirt die asid va bs).1.MemOk := State.wrVirt_go_memOk die asid _ s va bs h0
theorem State.onCore_memOk (s : State) (f : Core → Core) (h0 : s.MemOk) : (State.onCore s f).MemOk := by
  unfold State.onCore
  repeat' (first | with_reducible assumption | (unfold State.MemOk; dsimp only; change State.MemOk _))
theorem State.onCtx_memOk (s : State) (f : Ctx → Ctx) (h0 : s.MemOk) : (State.onCtx s f).MemOk := by
  unfold State.onCtx
  repeat' (first | with_reducible assumption | with_reducible apply State.onCore_memOk)
theorem State.onCtl_memOk (s : State) (f : Ctl → Ctl) (h0 : s.MemOk) : (State.onCtl s f).MemOk := by
  unfold State.onCtl
  repeat' (first | with_reducible assumption | with_reducible apply State.onCtx_memOk)
theorem State.onIss_memOk (s : State) (f : Iss → Iss) (h0 : s.MemOk) : (State.onIss s f).MemOk := by
  unfold State.onIss
  repeat' (first | with_reducible assumption | with_reducible apply State.onCore_memOk)
theorem State.onSched_memOk (s : State) (f : Sched → Sched) (h0 : s.MemOk) : (State.onSched s f).MemOk := by
  unfold State.onSched
  repeat' (first | with_reducible assumption | (unfold State.MemOk; dsimp only; change State.MemOk _))
theorem State.onFab_memOk (s : State) (f : Fab → Fab) (h0 : s.MemOk) : (State.onFab s f).MemOk := by
  unfold State.onFab
  repeat' (first | with_reducible assumption | (unfold State.MemOk; dsimp only; change State.MemOk _))
theorem State.onXl_memOk (s : State) (f : Xl → Xl) (h0 : s.MemOk) : (State.onXl s f).MemOk := by
  unfold State.onXl
  repeat' (first | with_reducible assumption | (unfold State.MemOk; dsimp only; change State.MemOk _))
theorem State.onHost_memOk (s : State) (pkg : Nat) (f : HostSt → HostSt) (h0 : s.MemOk) : (State.onHost s pkg f).MemOk := by
  unfold State.onHost
  repeat' (first | with_reducible assumption | (unfold State.MemOk; dsimp only; change State.MemOk _))
theorem State.onClk_memOk (s : State) (f : Clk → Clk) (h0 : s.MemOk) : (State.onClk s f).MemOk := by
  unfold State.onClk
  repeat' (first | with_reducible assumption | (unfold State.MemOk; dsimp only; change State.MemOk _))
theorem State.fresh_memOk (s : State) (h0 : s.MemOk) : (State.fresh s).1.MemOk := by
  unfold State.fresh
  repeat' (first | with_reducible assumption | with_reducible apply State.onClk_memOk)
theorem State.takeSlack_memOk (s : State) (h0 : s.MemOk) : (State.takeSlack s).1.MemOk := by
  unfold State.takeSlack
  repeat' (first | with_reducible assumption | with_reducible apply State.onClk_memOk | split)
theorem State.focus_memOk (s : State) (cid : Nat) (h0 : s.MemOk) : (State.focus s cid).MemOk := by
  unfold State.focus
  repeat' (first | with_reducible assumption | (unfold State.MemOk; dsimp only; change State.MemOk _) | split)
theorem State.onCoreAt_memOk (s : State) (cid : Nat) (f : Core → Core) (h0 : s.MemOk) : (State.onCoreAt s cid f).MemOk := by
  unfold State.onCoreAt
  repeat' (first | with_reducible assumption | with_reducible apply State.onCore_memOk | (unfold State.MemOk; dsimp only; change State.MemOk _) | split)
theorem State.ws_memOk (s : State) (n : BitVec 5) (v : BitVec 64) (h0 : s.MemOk) : (State.ws s n v).MemOk := by
  unfold State.ws
  repeat' (first | with_reducible assumption | with_reducible apply State.onCtx_memOk | split)
theorem State.wp_memOk (s : State) (n : BitVec 4) (v : Bool) (h0 : s.MemOk) : (State.wp s n v).MemOk := by
  unfold State.wp
  repeat' (first | with_reducible assumption | with_reducible apply State.onCtx_memOk | split)
theorem State.wk_memOk (s : State) (n : BitVec 3) (mask v : BitVec 128) (h0 : s.MemOk) : (State.wk s n mask v).MemOk := by
  unfold State.wk
  repeat' (first | with_reducible assumption | with_reducible apply State.onCtx_memOk | split)
theorem State.wv_memOk (s : State) (n : BitVec 5) (mask v : BitVec 1024) (h0 : s.MemOk) : (State.wv s n mask v).MemOk := by
  unfold State.wv
  repeat' (first | with_reducible assumption | with_reducible apply State.onCtx_memOk)
theorem State.wst_memOk (s : State) (n : BitVec 5) (f : Stream → Stream) (h0 : s.MemOk) : (State.wst s n f).MemOk := by
  unfold State.wst
  repeat' (first | with_reducible assumption | with_reducible apply State.onCtx_memOk)
theorem State.wm_memOk (s : State) (n : BitVec 4) (f : MReg → MReg) (h0 : s.MemOk) : (State.wm s n f).MemOk := by
  unfold State.wm
  repeat' (first | with_reducible assumption | with_reducible apply State.onCtx_memOk)
theorem State.wq_memOk (s : State) (n : BitVec 2) (v : BitVec 256) (h0 : s.MemOk) : (State.wq s n v).MemOk := by
  unfold State.wq
  repeat' (first | with_reducible assumption | with_reducible apply State.onCtx_memOk)
theorem State.wh_memOk (s : State) (n : BitVec 3) (r : Ring) (h0 : s.MemOk) : (State.wh s n r).MemOk := by
  unfold State.wh
  repeat' (first | with_reducible assumption | with_reducible apply State.onCtx_memOk)
theorem State.wsq_memOk (s : State) (n : BitVec 3) (r : Cursor) (h0 : s.MemOk) : (State.wsq s n r).MemOk := by
  unfold State.wsq
  repeat' (first | with_reducible assumption | with_reducible apply State.onCtx_memOk)
theorem State.wacc_memOk (s : State) (row : Nat) (mask v : BitVec 2048) (h0 : s.MemOk) : (State.wacc s row mask v).MemOk := by
  unfold State.wacc
  repeat' (first | with_reducible assumption | with_reducible apply State.onCore_memOk | with_reducible apply State.onCtx_memOk)
theorem State.orFlags_memOk (s : State) (f : BitVec 6) (h0 : s.MemOk) : (State.orFlags s f).MemOk := by
  unfold State.orFlags
  repeat' (first | with_reducible assumption | with_reducible apply State.onCtl_memOk)
theorem State.wrow_memOk (s : State) (wmem : Bool) (row : Nat) (mask v : BitVec 2048) (h0 : s.MemOk) : (State.wrow s wmem row mask v).MemOk := by
  unfold State.wrow
  repeat' (first | with_reducible assumption | with_reducible apply State.onCore_memOk)
theorem State.emit_memOk (s : State) (L : Nat) (e : Eff) (h0 : s.MemOk) : (State.emit s L e).MemOk := by
  unfold State.emit
  repeat' (first | with_reducible assumption | with_reducible apply State.onIss_memOk)
theorem State.emitEnd_memOk (s : State) (e : Eff) (h0 : s.MemOk) : (State.emitEnd s e).MemOk := by
  unfold State.emitEnd
  repeat' (first | with_reducible assumption | with_reducible apply State.onIss_memOk)
theorem State.raise_memOk (s : State) (t : Trap) (h0 : s.MemOk) : (State.raise s t).MemOk := by
  unfold State.raise
  repeat' (first | with_reducible assumption | with_reducible apply State.onIss_memOk)
theorem State.onBarrier_memOk (s : State) (die n : Nat) (f : Barrier → Barrier) (h0 : s.MemOk) : (State.onBarrier s die n f).MemOk := by
  unfold State.onBarrier
  repeat' (first | with_reducible assumption | (unfold State.MemOk; dsimp only; change State.MemOk _))
theorem State.arrive_memOk (s : State) (die n jcb : Nat) (h0 : s.MemOk) : (State.arrive s die n jcb).MemOk := by
  unfold State.arrive
  repeat' (first | with_reducible assumption | with_reducible apply State.onBarrier_memOk | split)
theorem State.onLayEnt_memOk (s : State) (die jcb e : Nat) (f : LyEnt → LyEnt) (h0 : s.MemOk) : (State.onLayEnt s die jcb e f).MemOk := by
  unfold State.onLayEnt
  repeat' (first | with_reducible assumption | (unfold State.MemOk; dsimp only; change State.MemOk _))
theorem State.onTset_memOk (s : State) (die n : Nat) (f : TSet → TSet) (h0 : s.MemOk) : (State.onTset s die n f).MemOk := by
  unfold State.onTset
  repeat' (first | with_reducible assumption | (unfold State.MemOk; dsimp only; change State.MemOk _))
theorem State.onVslot_memOk (s : State) (die n : Nat) (f : VSlot → VSlot) (h0 : s.MemOk) : (State.onVslot s die n f).MemOk := by
  unfold State.onVslot
  repeat' (first | with_reducible assumption | (unfold State.MemOk; dsimp only; change State.MemOk _))
theorem State.onCmd_memOk (s : State) (id : Nat) (f : Cmd → Cmd) (h0 : s.MemOk) : (State.onCmd s id f).MemOk := by
  unfold State.onCmd
  repeat' (first | with_reducible assumption | (unfold State.MemOk; dsimp only; change State.MemOk _))
theorem State.giveJtag_memOk (s : State) (die jcb : Nat) (h0 : s.MemOk) : (State.giveJtag s die jcb).MemOk := by
  unfold State.giveJtag
  repeat' (first | with_reducible assumption | with_reducible apply State.onSched_memOk | (unfold State.MemOk; dsimp only; change State.MemOk _) | split)
theorem State.setCont_memOk (s : State) (k : Nat) (c : Option Cont) (h0 : s.MemOk) : (State.setCont s k c).MemOk := by
  unfold State.setCont
  repeat' (first | with_reducible assumption | with_reducible apply State.onSched_memOk)
theorem State.onCont_memOk (s : State) (k : Nat) (f : Cont → Cont) (h0 : s.MemOk) : (State.onCont s k f).MemOk := by
  unfold State.onCont
  repeat' (first | with_reducible assumption | with_reducible apply State.setCont_memOk | split)
theorem State.nextSeq_memOk (s : State) (die : Nat) (h0 : s.MemOk) : (State.nextSeq s die).1.MemOk := by
  unfold State.nextSeq
  repeat' (first | with_reducible assumption | with_reducible apply State.onSched_memOk)
theorem State.insertReady_memOk (s : State) (r : Ready) (h0 : s.MemOk) : (State.insertReady s r).MemOk := by
  unfold State.insertReady
  repeat' (first | with_reducible assumption | with_reducible apply State.onSched_memOk)
theorem State.enqueue_memOk (s : State) (key : Nat) (h0 : s.MemOk) : (State.enqueue s key).MemOk := by
  unfold State.enqueue
  repeat' (first | with_reducible assumption | with_reducible apply State.insertReady_memOk | (unfold State.MemOk; dsimp only; change State.MemOk _) | split)
theorem State.create_memOk (s : State) (die : Nat) (c : Cont) (h0 : s.MemOk) : (State.create s die c).1.MemOk := by
  unfold State.create
  repeat' (first | with_reducible assumption | (lift_lets; intro t; apply have_memOk (t := t); on_goal 1 => subst t) | with_reducible apply State.onSched_memOk | with_reducible apply State.giveJtag_memOk | with_reducible apply State.setCont_memOk | with_reducible apply State.nextSeq_memOk | with_reducible apply State.enqueue_memOk | dsimp only | split | intro _)
theorem State.tilesTake_memOk (s : State) (cid : Nat) (k : Kdesc) (tag : BitVec 16) (h0 : s.MemOk) : (State.tilesTake s cid k tag).MemOk := by
  unfold State.tilesTake
  repeat' (first | with_reducible assumption | with_reducible apply State.onCoreAt_memOk)
theorem State.tilesFreed_memOk (s : State) (cid : Nat) (k : Kdesc) (h0 : s.MemOk) : (State.tilesFreed s cid k).MemOk := by
  unfold State.tilesFreed
  repeat' (first | with_reducible assumption | with_reducible apply State.onCoreAt_memOk)
theorem State.release_memOk (s : State) (key : Nat) (h0 : s.MemOk) : (State.release s key).MemOk := by
  unfold State.release
  repeat' (first | with_reducible assumption | with_reducible apply State.onSched_memOk | with_reducible apply State.setCont_memOk | with_reducible apply State.tilesFreed_memOk | dsimp only | split)
theorem State.judgeJob_memOk (s : State) (jcb : Nat) (h0 : s.MemOk) : (State.judgeJob s jcb).MemOk := by
  unfold State.judgeJob
  repeat' (first | with_reducible assumption | with_reducible apply State.onSched_memOk | split)
theorem State.post_memOk (s : State) (jcb : Nat) (h0 : s.MemOk) : (State.post s jcb).MemOk := by
  unfold State.post
  repeat' (first | with_reducible assumption | with_reducible apply State.wr_memOk | with_reducible apply State.judgeJob_memOk | split)
theorem State.raiseExpect_memOk (s : State) (jcb n : Nat) (h0 : s.MemOk) : (State.raiseExpect s jcb n).1.MemOk := by
  unfold State.raiseExpect
  repeat' (first | with_reducible assumption | with_reducible apply State.wr_memOk | with_reducible apply State.judgeJob_memOk | split)
theorem State.toTraps_memOk (s : State) (t : TrapJob) (h0 : s.MemOk) : (State.toTraps s t).MemOk := by
  unfold State.toTraps
  repeat' (first | with_reducible assumption | with_reducible apply State.onSched_memOk)
theorem State.report_memOk (s : State) (key jcb : Nat) (t : Trap) (h0 : s.MemOk) : (State.report s key jcb t).MemOk := by
  unfold State.report
  repeat' (first | with_reducible assumption | with_reducible apply State.onCont_memOk | with_reducible apply State.toTraps_memOk | (unfold State.MemOk; dsimp only; change State.MemOk _) | split)
theorem State.padRecord_memOk (s : State) (cid : Nat) (wmem : Bool) (t : Trap) (h0 : s.MemOk) : (State.padRecord s cid wmem t).MemOk := by
  unfold State.padRecord
  repeat' (first | with_reducible assumption | with_reducible apply State.toTraps_memOk | dsimp only | split)
theorem State.takeTrap_memOk (s : State) (t : Trap) (h0 : s.MemOk) : (State.takeTrap s t).MemOk := by
  unfold State.takeTrap
  repeat' (first | with_reducible assumption | (lift_lets; intro t; apply have_memOk (t := t); on_goal 1 => subst t) | with_reducible apply State.onCore_memOk | with_reducible apply State.onCont_memOk)
theorem State.stageError_memOk (s : State) (die set place stage : Nat) (h0 : s.MemOk) : (State.stageError s die set place stage).MemOk := by
  unfold State.stageError
  repeat' (first | with_reducible assumption | with_reducible apply State.onTset_memOk)
theorem State.deferReports_memOk (s : State) (key : Nat) (h0 : s.MemOk) : (State.deferReports s key).MemOk := by
  unfold State.deferReports
  repeat' (first | with_reducible assumption | with_reducible apply State.onSched_memOk | with_reducible apply State.onCont_memOk | split)
theorem State.faultOne_memOk (s : State) (key : Nat) (h0 : s.MemOk) : (State.faultOne s key).MemOk := by
  unfold State.faultOne
  repeat' (first | with_reducible assumption | (lift_lets; intro t; apply have_memOk (t := t); on_goal 1 => subst t) | with_reducible apply State.release_memOk | with_reducible apply State.deferReports_memOk | with_reducible apply State.stageError_memOk | dsimp only | split | intro _)
theorem State.faultCont_memOk (s : State) (key : Nat) (h0 : s.MemOk) : (State.faultCont s key).MemOk := by
  unfold State.faultCont
  repeat' (first | with_reducible assumption | (lift_lets; intro t; apply have_memOk (t := t); on_goal 1 => subst t) | with_reducible apply State.wrVirt_memOk | with_reducible apply State.toTraps_memOk | with_reducible apply State.faultOne_memOk | dsimp only | split | intro _)
theorem State.countLost_memOk (s : State) (die asid area cause : Nat) (h0 : s.MemOk) : (State.countLost s die asid area cause).MemOk := by
  unfold State.countLost
  repeat' (first | with_reducible assumption | with_reducible apply State.wrVirt_memOk | split)
theorem State.claimRecord_memOk (s : State) (tj : TrapJob) (h0 : s.MemOk) : (s.claimRecord tj).MemOk := by
  unfold State.claimRecord
  extract_lets asid tb area self nested faults tj1 tj2 lost u
  subst lost u
  clear_value tj2 tj1 faults nested self area tb asid
  have hc : ∀ u : State, u.MemOk → ((if self.isSome = true then u.faultCont (tj2.key.getD 0) else u)).MemOk := fun u hu => by
    split
    · exact State.faultCont_memOk _ _ hu
    · exact hu
  split
  · refine hc _ ?_
    split
    · exact h0
    · exact State.countLost_memOk _ _ _ _ _ h0
  · rename_i rec _
    have h1 := State.wrVirt_memOk s tj2.die asid rec (natLe 64 (trapRecord tj2 nested)) h0
    generalize s.wrVirt tj2.die asid rec (natLe 64 (trapRecord tj2 nested)) = w at h1 ⊢
    dsimp only
    split
    · exact hc _ (State.countLost_memOk _ _ _ _ _ h0)
    · generalize hp : (if nested = true then _ else _ : State × Bool) = p
      have h2 : p.1.MemOk := by
        rw [← hp]
        split
        · exact h1
        · split
          · exact State.create_memOk _ _ _ h1
          · exact h1
      split
      · exact State.faultCont_memOk _ _ h2
      · exact h2
theorem State.handlerDone_memOk (s : State) (die jcb rec : Nat) (target : Option Nat) (resumable : Bool) (h0 : s.MemOk) : (State.handlerDone s die jcb rec target resumable).MemOk := by
  unfold State.handlerDone
  repeat' (first | with_reducible assumption | with_reducible apply State.wrVirt_memOk | with_reducible apply State.onCont_memOk | (unfold State.MemOk; dsimp only; change State.MemOk _) | split)
theorem State.resumeCont_memOk (s : State) (key nbudget ndeadline : Nat) (h0 : s.MemOk) : (State.resumeCont s key nbudget ndeadline).MemOk := by
  unfold State.resumeCont
  repeat' (first | with_reducible assumption | with_reducible apply State.onCont_memOk | with_reducible apply State.nextSeq_memOk | with_reducible apply State.enqueue_memOk | (unfold State.MemOk; dsimp only; change State.MemOk _) | split)
theorem State.endCont_memOk (s : State) (key : Nat) (post : Bool) (h0 : s.MemOk) : (State.endCont s key post).MemOk := by
  unfold State.endCont
  repeat' (first | with_reducible assumption | (lift_lets; intro t; apply have_memOk (t := t); on_goal 1 => subst t) | with_reducible apply State.release_memOk | with_reducible apply State.post_memOk | with_reducible apply State.toTraps_memOk | with_reducible apply State.report_memOk | with_reducible apply State.stageError_memOk | dsimp only | split | intro _)
theorem State.touch_memOk (s : State) (n : BitVec 5) (unit : Nat) (h0 : s.MemOk) : (State.touch s n unit).MemOk := by
  unfold State.touch
  repeat' (first | with_reducible assumption | (lift_lets; intro t; apply have_memOk (t := t); on_goal 1 => subst t) | with_reducible apply State.emit_memOk | split)
theorem State.emitDue_memOk (s : State) (due : Nat) (e : Eff) (h0 : s.MemOk) : (State.emitDue s due e).MemOk := by
  unfold State.emitDue
  repeat' (first | with_reducible assumption | with_reducible apply State.onIss_memOk)
theorem State.emitAll_memOk (s : State) (due : Nat) (es : List Eff) (h0 : s.MemOk) : (State.emitAll s due es).MemOk := by
  unfold State.emitAll
  repeat' (first | with_reducible assumption | with_reducible apply State.emitDue_memOk | with_reducible apply foldl_memOk | intro _)
theorem State.wrJcbAsid_memOk (s : State) (a : BitVec 12) (h0 : s.MemOk) : (State.wrJcbAsid s a).MemOk := by
  unfold State.wrJcbAsid
  repeat' (first | with_reducible assumption | with_reducible apply State.wr_memOk)
theorem State.wrJcbLaybase_memOk (s : State) (a : BitVec 56) (h0 : s.MemOk) : (State.wrJcbLaybase s a).MemOk := by
  unfold State.wrJcbLaybase
  repeat' (first | with_reducible assumption | with_reducible apply State.wr_memOk)
theorem State.crWrite_memOk (s : State) (c : BitVec 8) (v : BitVec 64) (h0 : s.MemOk) : (State.crWrite s c v).MemOk := by
  unfold State.crWrite
  repeat' (first | with_reducible assumption | with_reducible apply State.onCtl_memOk | with_reducible apply State.onCont_memOk | with_reducible apply State.wrJcbAsid_memOk | with_reducible apply State.wrJcbLaybase_memOk | (unfold State.MemOk; dsimp only; change State.MemOk _) | split)
theorem State.putS_memOk (s : State) (d : BitVec 5) (v : BitVec 64) (h0 : s.MemOk) : OutOk (State.putS s d v) := by
  unfold State.putS
  repeat' (first | with_reducible assumption | with_reducible apply State.emit_memOk | with_reducible apply next_memOk)
theorem State.putP_memOk (s : State) (p : BitVec 4) (v : Bool) (h0 : s.MemOk) : OutOk (State.putP s p v) := by
  unfold State.putP
  repeat' (first | with_reducible assumption | with_reducible apply State.emit_memOk | with_reducible apply next_memOk)
theorem State.putF_memOk (s : State) (d : BitVec 5) (r : Nat × Nat) (h0 : s.MemOk) : OutOk (State.putF s d r) := by
  unfold State.putF
  repeat' (first | with_reducible assumption | with_reducible apply State.emit_memOk | with_reducible apply next_memOk)
theorem execNop_memOk (s : State) (h0 : s.MemOk) : OutOk (execNop s) := by
  unfold execNop
  repeat' (first | with_reducible assumption | with_reducible apply next_memOk)
theorem execIdle_memOk (s : State) (h0 : s.MemOk) : OutOk (execIdle s) := by
  unfold execIdle
  repeat' (first | with_reducible assumption | with_reducible apply next_memOk)
theorem execAdd_memOk (d a b : BitVec 5) (s : State) (h0 : s.MemOk) : OutOk (execAdd d a b s) := by
  unfold execAdd
  repeat' (first | with_reducible assumption | with_reducible apply State.putS_memOk)
theorem execSub_memOk (d a b : BitVec 5) (s : State) (h0 : s.MemOk) : OutOk (execSub d a b s) := by
  unfold execSub
  repeat' (first | with_reducible assumption | with_reducible apply State.putS_memOk)
theorem execMul_memOk (d a b : BitVec 5) (s : State) (h0 : s.MemOk) : OutOk (execMul d a b s) := by
  unfold execMul
  repeat' (first | with_reducible assumption | with_reducible apply State.putS_memOk)
theorem execMulh_memOk (d a b : BitVec 5) (f : MulhKind) (s : State) (h0 : s.MemOk) : OutOk (execMulh d a b f s) := by
  unfold execMulh
  repeat' (first | with_reducible assumption | with_reducible apply State.putS_memOk)
theorem execDiv_memOk (d a b : BitVec 5) (u : Bool) (s : State) (h0 : s.MemOk) : OutOk (execDiv d a b u s) := by
  unfold execDiv
  repeat' (first | with_reducible assumption | with_reducible apply State.putS_memOk)
theorem execRem_memOk (d a b : BitVec 5) (u : Bool) (s : State) (h0 : s.MemOk) : OutOk (execRem d a b u s) := by
  unfold execRem
  repeat' (first | with_reducible assumption | with_reducible apply State.putS_memOk)
theorem execAnd_memOk (d a b : BitVec 5) (s : State) (h0 : s.MemOk) : OutOk (execAnd d a b s) := by
  unfold execAnd
  repeat' (first | with_reducible assumption | with_reducible apply State.putS_memOk)
theorem execOr_memOk (d a b : BitVec 5) (s : State) (h0 : s.MemOk) : OutOk (execOr d a b s) := by
  unfold execOr
  repeat' (first | with_reducible assumption | with_reducible apply State.putS_memOk)
theorem execXor_memOk (d a b : BitVec 5) (s : State) (h0 : s.MemOk) : OutOk (execXor d a b s) := by
  unfold execXor
  repeat' (first | with_reducible assumption | with_reducible apply State.putS_memOk)
theorem execSll_memOk (d a b : BitVec 5) (s : State) (h0 : s.MemOk) : OutOk (execSll d a b s) := by
  unfold execSll
  repeat' (first | with_reducible assumption | with_reducible apply State.putS_memOk)
theorem execSrl_memOk (d a b : BitVec 5) (s : State) (h0 : s.MemOk) : OutOk (execSrl d a b s) := by
  unfold execSrl
  repeat' (first | with_reducible assumption | with_reducible apply State.putS_memOk)
theorem execSra_memOk (d a b : BitVec 5) (s : State) (h0 : s.MemOk) : OutOk (execSra d a b s) := by
  unfold execSra
  repeat' (first | with_reducible assumption | with_reducible apply State.putS_memOk)
theorem execSlli_memOk (d a : BitVec 5) (n : BitVec 6) (s : State) (h0 : s.MemOk) : OutOk (execSlli d a n s) := by
  unfold execSlli
  repeat' (first | with_reducible assumption | with_reducible apply State.putS_memOk)
theorem execSrli_memOk (d a : BitVec 5) (n : BitVec 6) (s : State) (h0 : s.MemOk) : OutOk (execSrli d a n s) := by
  unfold execSrli
  repeat' (first | with_reducible assumption | with_reducible apply State.putS_memOk)
theorem execSrai_memOk (d a : BitVec 5) (n : BitVec 6) (s : State) (h0 : s.MemOk) : OutOk (execSrai d a n s) := by
  unfold execSrai
  repeat' (first | with_reducible assumption | with_reducible apply State.putS_memOk)
theorem execMin_memOk (d a b : BitVec 5) (u : Bool) (s : State) (h0 : s.MemOk) : OutOk (execMin d a b u s) := by
  unfold execMin
  repeat' (first | with_reducible assumption | with_reducible apply State.putS_memOk)
theorem execMax_memOk (d a b : BitVec 5) (u : Bool) (s : State) (h0 : s.MemOk) : OutOk (execMax d a b u s) := by
  unfold execMax
  repeat' (first | with_reducible assumption | with_reducible apply State.putS_memOk)
theorem execClz_memOk (d a : BitVec 5) (s : State) (h0 : s.MemOk) : OutOk (execClz d a s) := by
  unfold execClz
  repeat' (first | with_reducible assumption | with_reducible apply State.putS_memOk)
theorem execCtz_memOk (d a : BitVec 5) (s : State) (h0 : s.MemOk) : OutOk (execCtz d a s) := by
  unfold execCtz
  repeat' (first | with_reducible assumption | with_reducible apply State.putS_memOk)
theorem execPopc_memOk (d a : BitVec 5) (s : State) (h0 : s.MemOk) : OutOk (execPopc d a s) := by
  unfold execPopc
  repeat' (first | with_reducible assumption | with_reducible apply State.putS_memOk)
theorem execBext_memOk (d a : BitVec 5) (l p : BitVec 6) (x : Bool) (s : State) (h0 : s.MemOk) : OutOk (execBext d a l p x s) := by
  unfold execBext
  repeat' (first | with_reducible assumption | with_reducible apply State.putS_memOk)
theorem execBins_memOk (d a : BitVec 5) (l p : BitVec 6) (s : State) (h0 : s.MemOk) : OutOk (execBins d a l p s) := by
  unfold execBins
  repeat' (first | with_reducible assumption | with_reducible apply State.putS_memOk)
theorem execSel_memOk (d a b : BitVec 5) (i : Bool) (n : BitVec 4) (s : State) (h0 : s.MemOk) : OutOk (execSel d a b i n s) := by
  unfold execSel
  repeat' (first | with_reducible assumption | with_reducible apply State.putS_memOk)
theorem execAddsh_memOk (d a b : BitVec 5) (h : BitVec 3) (s : State) (h0 : s.MemOk) : OutOk (execAddsh d a b h s) := by
  unfold execAddsh
  repeat' (first | with_reducible assumption | with_reducible apply State.putS_memOk)
theorem execKset_memOk (k : BitVec 3) (a : BitVec 5) (h : Bool) (s : State) (h0 : s.MemOk) : OutOk (execKset k a h s) := by
  unfold execKset
  repeat' (first | with_reducible assumption | with_reducible apply State.emit_memOk | with_reducible apply next_memOk)
theorem execKget_memOk (d : BitVec 5) (k : BitVec 3) (h : Bool) (s : State) (h0 : s.MemOk) : OutOk (execKget d k h s) := by
  unfold execKget
  repeat' (first | with_reducible assumption | with_reducible apply State.putS_memOk)
theorem execCrrd_memOk (d : BitVec 5) (c : BitVec 8) (s : State) (h0 : s.MemOk) : OutOk (execCrrd d c s) := by
  unfold execCrrd
  repeat' (first | with_reducible assumption | with_reducible apply State.putS_memOk)
theorem execCrwr_memOk (a : BitVec 5) (c : BitVec 8) (s : State) (h0 : s.MemOk) : OutOk (execCrwr a c s) := by
  unfold execCrwr
  repeat' (first | with_reducible assumption | with_reducible apply State.emitEnd_memOk | with_reducible apply State.raise_memOk | with_reducible apply next_memOk | split)
theorem execFadd_memOk (d a b : BitVec 5) (m : BitVec 2) (s : State) (h0 : s.MemOk) : OutOk (execFadd d a b m s) := by
  unfold execFadd
  repeat' (first | with_reducible assumption | with_reducible apply State.putF_memOk)
theorem execFmul_memOk (d a b : BitVec 5) (m : BitVec 2) (s : State) (h0 : s.MemOk) : OutOk (execFmul d a b m s) := by
  unfold execFmul
  repeat' (first | with_reducible assumption | with_reducible apply State.putF_memOk)
theorem execFcvt_memOk (d a : BitVec 5) (k : BitVec 3) (m : BitVec 2) (s : State) (h0 : s.MemOk) : OutOk (execFcvt d a k m s) := by
  unfold execFcvt
  repeat' (first | with_reducible assumption | with_reducible apply State.putF_memOk)
theorem execAddi_memOk (d a : BitVec 5) (i : BitVec 16) (s : State) (h0 : s.MemOk) : OutOk (execAddi d a i s) := by
  unfold execAddi
  repeat' (first | with_reducible assumption | with_reducible apply State.putS_memOk)
theorem execAndi_memOk (d a : BitVec 5) (i : BitVec 16) (s : State) (h0 : s.MemOk) : OutOk (execAndi d a i s) := by
  unfold execAndi
  repeat' (first | with_reducible assumption | with_reducible apply State.putS_memOk)
theorem execOri_memOk (d a : BitVec 5) (i : BitVec 16) (s : State) (h0 : s.MemOk) : OutOk (execOri d a i s) := by
  unfold execOri
  repeat' (first | with_reducible assumption | with_reducible apply State.putS_memOk)
theorem execXori_memOk (d a : BitVec 5) (i : BitVec 16) (s : State) (h0 : s.MemOk) : OutOk (execXori d a i s) := by
  unfold execXori
  repeat' (first | with_reducible assumption | with_reducible apply State.putS_memOk)
theorem execMovi_memOk (d : BitVec 5) (i : BitVec 16) (s : State) (h0 : s.MemOk) : OutOk (execMovi d i s) := by
  unfold execMovi
  repeat' (first | with_reducible assumption | with_reducible apply State.putS_memOk)
theorem execMovh_memOk (d a : BitVec 5) (i : BitVec 16) (s : State) (h0 : s.MemOk) : OutOk (execMovh d a i s) := by
  unfold execMovh
  repeat' (first | with_reducible assumption | with_reducible apply State.putS_memOk)
theorem execLix_memOk (d : BitVec 5) (long : Bool) (lo hi : BitVec 32) (s : State) (h0 : s.MemOk) : OutOk (execLix d long lo hi s) := by
  unfold execLix
  repeat' (first | with_reducible assumption | with_reducible apply State.putS_memOk)
theorem execCmpeq_memOk (p : BitVec 4) (a b : BitVec 5) (s : State) (h0 : s.MemOk) : OutOk (execCmpeq p a b s) := by
  unfold execCmpeq
  repeat' (first | with_reducible assumption | with_reducible apply State.putP_memOk)
theorem execCmpeqImm_memOk (p : BitVec 4) (a : BitVec 5) (i : BitVec 10) (s : State) (h0 : s.MemOk) : OutOk (execCmpeqImm p a i s) := by
  unfold execCmpeqImm
  repeat' (first | with_reducible assumption | with_reducible apply State.putP_memOk)
theorem execCmpne_memOk (p : BitVec 4) (a b : BitVec 5) (s : State) (h0 : s.MemOk) : OutOk (execCmpne p a b s) := by
  unfold execCmpne
  repeat' (first | with_reducible assumption | with_reducible apply State.putP_memOk)
theorem execCmpneImm_memOk (p : BitVec 4) (a : BitVec 5) (i : BitVec 10) (s : State) (h0 : s.MemOk) : OutOk (execCmpneImm p a i s) := by
  unfold execCmpneImm
  repeat' (first | with_reducible assumption | with_reducible apply State.putP_memOk)
theorem execCmplt_memOk (p : BitVec 4) (a b : BitVec 5) (s : State) (h0 : s.MemOk) : OutOk (execCmplt p a b s) := by
  unfold execCmplt
  repeat' (first | with_reducible assumption | with_reducible apply State.putP_memOk)
theorem execCmpltImm_memOk (p : BitVec 4) (a : BitVec 5) (i : BitVec 10) (s : State) (h0 : s.MemOk) : OutOk (execCmpltImm p a i s) := by
  unfold execCmpltImm
  repeat' (first | with_reducible assumption | with_reducible apply State.putP_memOk)
theorem execCmple_memOk (p : BitVec 4) (a b : BitVec 5) (s : State) (h0 : s.MemOk) : OutOk (execCmple p a b s) := by
  unfold execCmple
  repeat' (first | with_reducible assumption | with_reducible apply State.putP_memOk)
theorem execCmpleImm_memOk (p : BitVec 4) (a : BitVec 5) (i : BitVec 10) (s : State) (h0 : s.MemOk) : OutOk (execCmpleImm p a i s) := by
  unfold execCmpleImm
  repeat' (first | with_reducible assumption | with_reducible apply State.putP_memOk)
theorem execCmpltu_memOk (p : BitVec 4) (a b : BitVec 5) (s : State) (h0 : s.MemOk) : OutOk (execCmpltu p a b s) := by
  unfold execCmpltu
  repeat' (first | with_reducible assumption | with_reducible apply State.putP_memOk)
theorem execCmpltuImm_memOk (p : BitVec 4) (a : BitVec 5) (i : BitVec 10) (s : State) (h0 : s.MemOk) : OutOk (execCmpltuImm p a i s) := by
  unfold execCmpltuImm
  repeat' (first | with_reducible assumption | with_reducible apply State.putP_memOk)
theorem execCmpleu_memOk (p : BitVec 4) (a b : BitVec 5) (s : State) (h0 : s.MemOk) : OutOk (execCmpleu p a b s) := by
  unfold execCmpleu
  repeat' (first | with_reducible assumption | with_reducible apply State.putP_memOk)
theorem execCmpleuImm_memOk (p : BitVec 4) (a : BitVec 5) (i : BitVec 10) (s : State) (h0 : s.MemOk) : OutOk (execCmpleuImm p a i s) := by
  unfold execCmpleuImm
  repeat' (first | with_reducible assumption | with_reducible apply State.putP_memOk)
theorem execFcmp_memOk (p : BitVec 4) (a b : BitVec 5) (r : BitVec 2) (s : State) (h0 : s.MemOk) : OutOk (execFcmp p a b r s) := by
  unfold execFcmp
  repeat' (first | with_reducible assumption | with_reducible apply State.emit_memOk | with_reducible apply next_memOk)
theorem execPand_memOk (p : BitVec 4) (x : Bool) (a : BitVec 4) (y : Bool) (b : BitVec 4) (s : State) (h0 : s.MemOk) : OutOk (execPand p x a y b s) := by
  unfold execPand
  repeat' (first | with_reducible assumption | with_reducible apply State.putP_memOk)
theorem execPor_memOk (p : BitVec 4) (x : Bool) (a : BitVec 4) (y : Bool) (b : BitVec 4) (s : State) (h0 : s.MemOk) : OutOk (execPor p x a y b s) := by
  unfold execPor
  repeat' (first | with_reducible assumption | with_reducible apply State.putP_memOk)
theorem execPxor_memOk (p : BitVec 4) (x : Bool) (a : BitVec 4) (y : Bool) (b : BitVec 4) (s : State) (h0 : s.MemOk) : OutOk (execPxor p x a y b s) := by
  unfold execPxor
  repeat' (first | with_reducible assumption | with_reducible apply State.putP_memOk)
theorem State.choose_memOk (s : State) (o : Nat) (target : Option (BitVec 56)) (h0 : s.MemOk) : (State.choose s o target).MemOk := by
  unfold State.choose
  repeat' (first | with_reducible assumption | with_reducible apply State.onIss_memOk)
theorem execBr_memOk (t : Tree) (s : State) (h0 : s.MemOk) : OutOk (execBr t s) := by
  unfold execBr
  repeat' (first | with_reducible assumption | with_reducible apply State.choose_memOk | with_reducible apply next_memOk)
theorem execCall_memOk (t : Tree) (s : State) (h0 : s.MemOk) : OutOk (execCall t s) := by
  unfold execCall
  repeat' (first | with_reducible assumption | with_reducible apply State.emit_memOk | with_reducible apply State.choose_memOk | with_reducible apply next_memOk | dsimp only | split)
theorem execBrx_memOk (t : Tree) (s : State) (h0 : s.MemOk) : OutOk (execBrx t s) := by
  unfold execBrx
  repeat' (first | with_reducible assumption | with_reducible apply State.choose_memOk | with_reducible apply next_memOk)
theorem State.onPlane_memOk (s : State) (port : Nat) (plane : Bool) (f : Plane → Plane) (h0 : s.MemOk) : (State.onPlane s port plane f).MemOk := by
  unfold State.onPlane
  repeat' (first | with_reducible assumption | with_reducible apply State.onFab_memOk)
theorem State.sendReq_memOk (s : State) (src dst jcb va : Nat) (bulk : Bool) (k : ReqKind) (o : ReqOwner) (h0 : s.MemOk) : (State.sendReq s src dst jcb va bulk k o).1.MemOk := by
  unfold State.sendReq
  repeat' (first | with_reducible assumption | with_reducible apply State.onFab_memOk | with_reducible apply State.fresh_memOk | dsimp only | split)
theorem State.enterHop_memOk (s : State) (m : Msg) (here lead : Nat) (h0 : s.MemOk) : (State.enterHop s m here lead).1.MemOk := by
  unfold State.enterHop
  repeat' (first | with_reducible assumption | with_reducible apply State.onFab_memOk | dsimp only | split)
theorem State.sendCrit_memOk (s : State) (src dst : Nat) (c : Crit) (jcb issuer pc opc core : Nat) (h0 : s.MemOk) : (State.sendCrit s src dst c jcb issuer pc opc core).MemOk := by
  unfold State.sendCrit
  repeat' (first | with_reducible assumption | with_reducible apply State.onFab_memOk | with_reducible apply State.fresh_memOk | with_reducible apply State.enterHop_memOk)
theorem State.reduceLanes_memOk (pa op : Nat) (t : ETy) : ∀ (l : List (Nat × BitVec 32)) (s : State), s.MemOk → (s.reduceLanes pa op t l).MemOk
  | [], _, h => h
  | (_, _) :: r, _, h => State.reduceLanes_memOk pa op t r _ (State.wr_memOk _ _ _ _ h)
theorem State.wrPlaces_memOk : ∀ (pas : List Nat) (bs : List (BitVec 8)) (s : State), s.MemOk → (s.wrPlaces pas bs).MemOk
  | [], _, _, h => h
  | _ :: _, [], _, h => h
  | a :: r, b :: bs, s, h => State.wrPlaces_memOk r bs _ (State.wrByte_memOk s a b h)
theorem State.credit_memOk (s : State) (id n : Nat) (h0 : s.MemOk) : (State.credit s id n).MemOk := by
  unfold State.credit
  repeat' (first | with_reducible assumption | with_reducible apply State.onFab_memOk)
theorem State.holdHandler_memOk (s : State) (id die : Nat) (h : Cont) (len : Nat) (h0 : s.MemOk) : (State.holdHandler s id die h len).MemOk := by
  unfold State.holdHandler
  repeat' (first | with_reducible assumption | with_reducible apply State.onFab_memOk)
theorem State.performAccess_memOk (s : State) (jcb : Nat) (k : ReqKind) (h0 : s.MemOk) : (State.performAccess s jcb k).1.MemOk := by
  unfold State.performAccess
  repeat' (first | with_reducible assumption | with_reducible apply State.wrByte_memOk | with_reducible apply State.wrBytes_memOk | with_reducible apply State.wr_memOk | with_reducible apply State.onFab_memOk | with_reducible apply State.reduceLanes_memOk | with_reducible apply State.wrPlaces_memOk | with_reducible apply foldl_memOk | dsimp only | split | intro _)
theorem State.fillTc_memOk (s : State) (x : Leaf) (h0 : s.MemOk) : (State.fillTc s x).MemOk := by
  unfold State.fillTc
  repeat' (first | with_reducible assumption | with_reducible apply State.onCore_memOk)
theorem State.tuXlate_memOk (s : State) (die asid va : Nat) (k : Acc) (h0 : s.MemOk) : (State.tuXlate s die asid va k).1.MemOk := by
  unfold State.tuXlate
  repeat' (first | with_reducible assumption | with_reducible apply State.onXl_memOk | dsimp only | split)
theorem State.coreXlate_memOk (s : State) (asid va : Nat) (k : Acc) (h0 : s.MemOk) : (State.coreXlate s asid va k).1.MemOk := by
  unfold State.coreXlate
  repeat' (first | with_reducible assumption | with_reducible apply State.fillTc_memOk | with_reducible apply State.tuXlate_memOk | dsimp only | split | refine eq_memOk (by assumption) ?_)
theorem State.startWalks_memOk (s : State) (die : Nat) (h0 : s.MemOk) : (State.startWalks s die).MemOk := by
  unfold State.startWalks
  repeat' (first | with_reducible assumption | with_reducible apply State.onXl_memOk)
theorem State.onMiss_memOk (s : State) (m : Miss) (f : Miss → Miss) (h0 : s.MemOk) : (State.onMiss s m f).MemOk := by
  unfold State.onMiss
  repeat' (first | with_reducible assumption | with_reducible apply State.onXl_memOk)
theorem State.endWalk_memOk (s : State) (m : Miss) (h0 : s.MemOk) : (State.endWalk s m).MemOk := by
  unfold State.endWalk
  repeat' (first | with_reducible assumption | (lift_lets; intro t; apply have_memOk (t := t); on_goal 1 => subst t) | with_reducible apply State.cacheWalk_memOk | with_reducible apply State.sendReq_memOk | with_reducible apply State.onMiss_memOk | dsimp only | split | refine eq_memOk (by assumption) ?_)
theorem State.walkGets_memOk (s : State) (die asid region : Nat) (v : Option Nat) (h0 : s.MemOk) : (State.walkGets s die asid region v).MemOk := by
  unfold State.walkGets
  repeat' (first | with_reducible assumption | with_reducible apply State.onXl_memOk)
theorem execTranslationWalk_memOk (s : State) (h0 : s.MemOk) : OutOk (execTranslationWalk s) := by
  unfold execTranslationWalk
  repeat' (first | with_reducible assumption | (lift_lets; intro t; apply have_memOk (t := t); on_goal 1 => subst t) | with_reducible apply State.onXl_memOk | with_reducible apply State.startWalks_memOk | with_reducible apply State.endWalk_memOk | with_reducible apply next_memOk | with_reducible apply foldl_memOk | intro _)
theorem State.staleWalks_memOk (s : State) (die kind asid va : Nat) (h0 : s.MemOk) : (State.staleWalks s die kind asid va).MemOk := by
  unfold State.staleWalks
  repeat' (first | with_reducible assumption | with_reducible apply State.onXl_memOk)
theorem State.invalidate_memOk (s : State) (die kind asid va : Nat) (h0 : s.MemOk) : (State.invalidate s die kind asid va).MemOk := by
  unfold State.invalidate
  repeat' (first | with_reducible assumption | (lift_lets; intro t; apply have_memOk (t := t); on_goal 1 => subst t) | with_reducible apply State.onXl_memOk | with_reducible apply State.onCoreAt_memOk | with_reducible apply foldl_memOk | intro _)
theorem State.finishInv_memOk (s : State) (v : Nat × Nat × Nat) (h0 : s.MemOk) : (State.finishInv s v).MemOk := by
  unfold State.finishInv
  repeat' (first | with_reducible assumption | (lift_lets; intro t; apply have_memOk (t := t); on_goal 1 => subst t) | with_reducible apply State.onXl_memOk | with_reducible apply State.staleWalks_memOk | with_reducible apply State.invalidate_memOk | dsimp only | split | intro _)
theorem execTlbinvCompletion_memOk (s : State) (h0 : s.MemOk) : OutOk (execTlbinvCompletion s) := by
  unfold execTlbinvCompletion
  repeat' (first | with_reducible assumption | with_reducible apply State.finishInv_memOk | with_reducible apply next_memOk | with_reducible apply foldl_memOk)
theorem State.enq_memOk (s : State) (load store : Bool) (i : Instr) (args : List Nat) (h0 : s.MemOk) : (State.enq s load store i args).MemOk := by
  unfold State.enq
  repeat' (first | with_reducible assumption | with_reducible apply State.emit_memOk)
theorem execLd_memOk (d a : BitVec 5) (o : BitVec 16) (s : State) (h0 : s.MemOk) : OutOk (execLd d a o s) := by
  unfold execLd
  repeat' (first | with_reducible assumption | with_reducible apply State.enq_memOk | with_reducible apply next_memOk)
theorem State.unstaged_memOk (s : State) (o : Out) (h0 : s.MemOk) (h1 : OutOk o) : OutOk (s.unstaged o) := by
  unfold State.unstaged
  split
  · exact next_memOk (State.raise_memOk _ _ h0)
  · exact h1
theorem execSt_memOk (v a : BitVec 5) (o : BitVec 16) (s : State) (h0 : s.MemOk) : OutOk (execSt v a o s) := by
  unfold execSt
  repeat' (first | with_reducible assumption | with_reducible apply State.enq_memOk | with_reducible apply State.unstaged_memOk | with_reducible apply next_memOk)
theorem execLdacq_memOk (d a : BitVec 5) (sc : Scope) (o : BitVec 13) (s : State) (h0 : s.MemOk) : OutOk (execLdacq d a sc o s) := by
  unfold execLdacq
  repeat' (first | with_reducible assumption | with_reducible apply State.enq_memOk | with_reducible apply next_memOk)
theorem execStrel_memOk (v a : BitVec 5) (sc : Scope) (o : BitVec 13) (s : State) (h0 : s.MemOk) : OutOk (execStrel v a sc o s) := by
  unfold execStrel
  repeat' (first | with_reducible assumption | with_reducible apply State.enq_memOk | with_reducible apply State.unstaged_memOk | with_reducible apply next_memOk)
theorem execPf_memOk (h : Bool) (a : BitVec 5) (o : BitVec 16) (s : State) (h0 : s.MemOk) : OutOk (execPf h a o s) := by
  unfold execPf
  repeat' (first | with_reducible assumption | with_reducible apply State.enq_memOk | with_reducible apply next_memOk)
theorem execMark_memOk (s : State) (h0 : s.MemOk) : OutOk (execMark s) := by
  unfold execMark
  repeat' (first | with_reducible assumption | with_reducible apply State.enq_memOk | with_reducible apply next_memOk)
theorem execFence_memOk (sc : Scope) (k : BitVec 2) (s : State) (h0 : s.MemOk) : OutOk (execFence sc k s) := by
  unfold execFence
  repeat' (first | with_reducible assumption | with_reducible apply State.enq_memOk | with_reducible apply next_memOk)
theorem execL1inv_memOk (s : State) (h0 : s.MemOk) : OutOk (execL1inv s) := by
  unfold execL1inv
  repeat' (first | with_reducible assumption | with_reducible apply State.enq_memOk | with_reducible apply next_memOk)
theorem State.amo_memOk (s : State) (i : Instr) (d a b : BitVec 5) (h0 : s.MemOk) : OutOk (State.amo s i d a b) := by
  unfold State.amo
  repeat' (first | with_reducible assumption | with_reducible apply State.enq_memOk | with_reducible apply State.unstaged_memOk | with_reducible apply next_memOk)
theorem execAmoadd_memOk (d a b : BitVec 5) (sc : Scope) (o : BitVec 2) (s : State) (h0 : s.MemOk) : OutOk (execAmoadd d a b sc o s) := by
  unfold execAmoadd
  repeat' (first | with_reducible assumption | with_reducible apply State.amo_memOk)
theorem execAmoand_memOk (d a b : BitVec 5) (sc : Scope) (o : BitVec 2) (s : State) (h0 : s.MemOk) : OutOk (execAmoand d a b sc o s) := by
  unfold execAmoand
  repeat' (first | with_reducible assumption | with_reducible apply State.amo_memOk)
theorem execAmoor_memOk (d a b : BitVec 5) (sc : Scope) (o : BitVec 2) (s : State) (h0 : s.MemOk) : OutOk (execAmoor d a b sc o s) := by
  unfold execAmoor
  repeat' (first | with_reducible assumption | with_reducible apply State.amo_memOk)
theorem execAmoxor_memOk (d a b : BitVec 5) (sc : Scope) (o : BitVec 2) (s : State) (h0 : s.MemOk) : OutOk (execAmoxor d a b sc o s) := by
  unfold execAmoxor
  repeat' (first | with_reducible assumption | with_reducible apply State.amo_memOk)
theorem execAmomin_memOk (d a b : BitVec 5) (sc : Scope) (o : BitVec 2) (u : Bool) (s : State) (h0 : s.MemOk) : OutOk (execAmomin d a b sc o u s) := by
  unfold execAmomin
  repeat' (first | with_reducible assumption | with_reducible apply State.amo_memOk)
theorem execAmomax_memOk (d a b : BitVec 5) (sc : Scope) (o : BitVec 2) (u : Bool) (s : State) (h0 : s.MemOk) : OutOk (execAmomax d a b sc o u s) := by
  unfold execAmomax
  repeat' (first | with_reducible assumption | with_reducible apply State.amo_memOk)
theorem execAmoswap_memOk (d a b : BitVec 5) (sc : Scope) (o : BitVec 2) (s : State) (h0 : s.MemOk) : OutOk (execAmoswap d a b sc o s) := by
  unfold execAmoswap
  repeat' (first | with_reducible assumption | with_reducible apply State.amo_memOk)
theorem execAmocas_memOk (d a b : BitVec 5) (sc : Scope) (o : BitVec 2) (s : State) (h0 : s.MemOk) : OutOk (execAmocas d a b sc o s) := by
  unfold execAmocas
  repeat' (first | with_reducible assumption | with_reducible apply State.amo_memOk)
theorem execStld_memOk (n a : BitVec 5) (o : BitVec 16) (s : State) (h0 : s.MemOk) : OutOk (execStld n a o s) := by
  unfold execStld
  repeat' (first | with_reducible assumption | with_reducible apply State.enq_memOk | with_reducible apply next_memOk)
theorem execStset_memOk (n a : BitVec 5) (sel : BitVec 3) (s : State) (h0 : s.MemOk) : OutOk (execStset n a sel s) := by
  unfold execStset
  repeat' (first | with_reducible assumption | with_reducible apply State.emit_memOk | with_reducible apply State.raise_memOk | with_reducible apply next_memOk | split)
theorem execStget_memOk (d n : BitVec 5) (sel : BitVec 3) (s : State) (h0 : s.MemOk) : OutOk (execStget d n sel s) := by
  unfold execStget
  repeat' (first | with_reducible assumption | with_reducible apply State.emit_memOk | with_reducible apply next_memOk)
theorem execStadv_memOk (n a : BitVec 5) (s : State) (h0 : s.MemOk) : OutOk (execStadv n a s) := by
  unfold execStadv
  repeat' (first | with_reducible assumption | with_reducible apply State.emit_memOk | with_reducible apply State.raise_memOk | with_reducible apply next_memOk | split)
theorem State.enqV_memOk (s : State) (load : Bool) (i : Instr) (f : LF) (args : List Nat) (h0 : s.MemOk) : (State.enqV s load i f args).MemOk := by
  unfold State.enqV
  repeat' (first | with_reducible assumption | with_reducible apply State.emit_memOk)
theorem execVld_memOk (f : LF) (s : State) (h0 : s.MemOk) : OutOk (execVld f s) := by
  unfold execVld
  repeat' (first | with_reducible assumption | with_reducible apply State.emit_memOk | with_reducible apply State.raise_memOk | with_reducible apply State.touch_memOk | with_reducible apply State.emitDue_memOk | with_reducible apply State.enqV_memOk | with_reducible apply next_memOk | dsimp only | split)
theorem execVldb_memOk (f : LF) (s : State) (h0 : s.MemOk) : OutOk (execVldb f s) := by
  unfold execVldb
  repeat' (first | with_reducible assumption | with_reducible apply State.emit_memOk | with_reducible apply State.raise_memOk | with_reducible apply State.touch_memOk | with_reducible apply State.emitDue_memOk | with_reducible apply State.enqV_memOk | with_reducible apply next_memOk | dsimp only | split)
theorem execVst_memOk (f : LF) (s : State) (h0 : s.MemOk) : OutOk (execVst f s) := by
  unfold execVst
  repeat' (first | with_reducible assumption | with_reducible apply State.emit_memOk | with_reducible apply State.raise_memOk | with_reducible apply State.touch_memOk | with_reducible apply State.enqV_memOk | with_reducible apply next_memOk | dsimp only | split)
theorem execVpf_memOk (f : LF) (s : State) (h0 : s.MemOk) : OutOk (execVpf f s) := by
  unfold execVpf
  repeat' (first | with_reducible assumption | with_reducible apply State.emit_memOk | with_reducible apply State.raise_memOk | with_reducible apply State.enqV_memOk | with_reducible apply next_memOk | dsimp only | split)
theorem State.scatter_memOk (s : State) (op : Nat) (i : Instr) (f : LF) (h0 : s.MemOk) : OutOk (State.scatter s op i f) := by
  unfold State.scatter
  repeat' (first | with_reducible assumption | with_reducible apply State.raise_memOk | with_reducible apply State.touch_memOk | with_reducible apply State.emitAll_memOk | with_reducible apply State.enqV_memOk | with_reducible apply next_memOk | dsimp only | split)
theorem execVscat_memOk (f : LF) (s : State) (h0 : s.MemOk) : OutOk (execVscat f s) := by
  unfold execVscat
  repeat' (first | with_reducible assumption | with_reducible apply State.scatter_memOk)
theorem execVscadd_memOk (f : LF) (s : State) (h0 : s.MemOk) : OutOk (execVscadd f s) := by
  unfold execVscadd
  repeat' (first | with_reducible assumption | with_reducible apply State.scatter_memOk)
theorem execVscmax_memOk (f : LF) (s : State) (h0 : s.MemOk) : OutOk (execVscmax f s) := by
  unfold execVscmax
  repeat' (first | with_reducible assumption | with_reducible apply State.scatter_memOk)
theorem execVredst_memOk (f : LF) (s : State) (h0 : s.MemOk) : OutOk (execVredst f s) := by
  unfold execVredst
  repeat' (first | with_reducible assumption | with_reducible apply State.raise_memOk | with_reducible apply State.touch_memOk | with_reducible apply State.enqV_memOk | with_reducible apply next_memOk | dsimp only | split)
theorem State.vrun_memOk (s : State) (f : VF) (i : Instr) (L : Nat) (go : Cap → List Eff) (h0 : s.MemOk) : OutOk (State.vrun s f i L go) := by
  unfold State.vrun
  repeat' (first | with_reducible assumption | with_reducible apply State.emit_memOk | with_reducible apply State.raise_memOk | with_reducible apply State.touch_memOk | with_reducible apply State.emitAll_memOk | with_reducible apply next_memOk | dsimp only | split)
theorem execVadd_memOk (f : VF) (s : State) (h0 : s.MemOk) : OutOk (execVadd f s) := by
  unfold execVadd
  repeat' (first | with_reducible assumption | with_reducible apply State.vrun_memOk)
theorem execVsub_memOk (f : VF) (s : State) (h0 : s.MemOk) : OutOk (execVsub f s) := by
  unfold execVsub
  repeat' (first | with_reducible assumption | with_reducible apply State.vrun_memOk)
theorem execVmul_memOk (f : VF) (s : State) (h0 : s.MemOk) : OutOk (execVmul f s) := by
  unfold execVmul
  repeat' (first | with_reducible assumption | with_reducible apply State.vrun_memOk)
theorem execVfma_memOk (f : VF) (s : State) (h0 : s.MemOk) : OutOk (execVfma f s) := by
  unfold execVfma
  repeat' (first | with_reducible assumption | with_reducible apply State.vrun_memOk)
theorem execVfms_memOk (f : VF) (s : State) (h0 : s.MemOk) : OutOk (execVfms f s) := by
  unfold execVfms
  repeat' (first | with_reducible assumption | with_reducible apply State.vrun_memOk)
theorem execVfnma_memOk (f : VF) (s : State) (h0 : s.MemOk) : OutOk (execVfnma f s) := by
  unfold execVfnma
  repeat' (first | with_reducible assumption | with_reducible apply State.vrun_memOk)
theorem execVmulh_memOk (f : VF) (s : State) (h0 : s.MemOk) : OutOk (execVmulh f s) := by
  unfold execVmulh
  repeat' (first | with_reducible assumption | with_reducible apply State.vrun_memOk)
theorem execVmin_memOk (f : VF) (s : State) (h0 : s.MemOk) : OutOk (execVmin f s) := by
  unfold execVmin
  repeat' (first | with_reducible assumption | with_reducible apply State.vrun_memOk)
theorem execVmax_memOk (f : VF) (s : State) (h0 : s.MemOk) : OutOk (execVmax f s) := by
  unfold execVmax
  repeat' (first | with_reducible assumption | with_reducible apply State.vrun_memOk)
theorem execVabs_memOk (f : VF) (s : State) (h0 : s.MemOk) : OutOk (execVabs f s) := by
  unfold execVabs
  repeat' (first | with_reducible assumption | with_reducible apply State.vrun_memOk)
theorem execVneg_memOk (f : VF) (s : State) (h0 : s.MemOk) : OutOk (execVneg f s) := by
  unfold execVneg
  repeat' (first | with_reducible assumption | with_reducible apply State.vrun_memOk)
theorem execVclamp_memOk (f : VF) (s : State) (h0 : s.MemOk) : OutOk (execVclamp f s) := by
  unfold execVclamp
  repeat' (first | with_reducible assumption | with_reducible apply State.vrun_memOk)
theorem execVrnd_memOk (f : VF) (s : State) (h0 : s.MemOk) : OutOk (execVrnd f s) := by
  unfold execVrnd
  repeat' (first | with_reducible assumption | with_reducible apply State.vrun_memOk)
theorem execVand_memOk (f : VF) (s : State) (h0 : s.MemOk) : OutOk (execVand f s) := by
  unfold execVand
  repeat' (first | with_reducible assumption | with_reducible apply State.vrun_memOk)
theorem execVor_memOk (f : VF) (s : State) (h0 : s.MemOk) : OutOk (execVor f s) := by
  unfold execVor
  repeat' (first | with_reducible assumption | with_reducible apply State.vrun_memOk)
theorem execVxor_memOk (f : VF) (s : State) (h0 : s.MemOk) : OutOk (execVxor f s) := by
  unfold execVxor
  repeat' (first | with_reducible assumption | with_reducible apply State.vrun_memOk)
theorem execVnot_memOk (f : VF) (s : State) (h0 : s.MemOk) : OutOk (execVnot f s) := by
  unfold execVnot
  repeat' (first | with_reducible assumption | with_reducible apply State.vrun_memOk)
theorem execVsll_memOk (f : VF) (s : State) (h0 : s.MemOk) : OutOk (execVsll f s) := by
  unfold execVsll
  repeat' (first | with_reducible assumption | with_reducible apply State.vrun_memOk)
theorem execVsrl_memOk (f : VF) (s : State) (h0 : s.MemOk) : OutOk (execVsrl f s) := by
  unfold execVsrl
  repeat' (first | with_reducible assumption | with_reducible apply State.vrun_memOk)
theorem execVsra_memOk (f : VF) (s : State) (h0 : s.MemOk) : OutOk (execVsra f s) := by
  unfold execVsra
  repeat' (first | with_reducible assumption | with_reducible apply State.vrun_memOk)
theorem execVcmpeq_memOk (f : VF) (s : State) (h0 : s.MemOk) : OutOk (execVcmpeq f s) := by
  unfold execVcmpeq
  repeat' (first | with_reducible assumption | with_reducible apply State.vrun_memOk)
theorem execVcmpne_memOk (f : VF) (s : State) (h0 : s.MemOk) : OutOk (execVcmpne f s) := by
  unfold execVcmpne
  repeat' (first | with_reducible assumption | with_reducible apply State.vrun_memOk)
theorem execVcmplt_memOk (f : VF) (s : State) (h0 : s.MemOk) : OutOk (execVcmplt f s) := by
  unfold execVcmplt
  repeat' (first | with_reducible assumption | with_reducible apply State.vrun_memOk)
theorem execVcmple_memOk (f : VF) (s : State) (h0 : s.MemOk) : OutOk (execVcmple f s) := by
  unfold execVcmple
  repeat' (first | with_reducible assumption | with_reducible apply State.vrun_memOk)
theorem execVclass_memOk (f : VF) (s : State) (h0 : s.MemOk) : OutOk (execVclass f s) := by
  unfold execVclass
  repeat' (first | with_reducible assumption | with_reducible apply State.vrun_memOk)
theorem execVsel_memOk (f : VF) (s : State) (h0 : s.MemOk) : OutOk (execVsel f s) := by
  unfold execVsel
  repeat' (first | with_reducible assumption | with_reducible apply State.vrun_memOk)
theorem execVmov_memOk (f : VF) (s : State) (h0 : s.MemOk) : OutOk (execVmov f s) := by
  unfold execVmov
  repeat' (first | with_reducible assumption | with_reducible apply State.vrun_memOk)
theorem execVbcast_memOk (f : VF) (s : State) (h0 : s.MemOk) : OutOk (execVbcast f s) := by
  unfold execVbcast
  repeat' (first | with_reducible assumption | with_reducible apply State.vrun_memOk)
theorem execVins_memOk (f : VF) (s : State) (h0 : s.MemOk) : OutOk (execVins f s) := by
  unfold execVins
  repeat' (first | with_reducible assumption | with_reducible apply State.vrun_memOk)
theorem execVext_memOk (f : VF) (s : State) (h0 : s.MemOk) : OutOk (execVext f s) := by
  unfold execVext
  repeat' (first | with_reducible assumption | with_reducible apply State.vrun_memOk)
theorem execVcvt_memOk (f : VF) (s : State) (h0 : s.MemOk) : OutOk (execVcvt f s) := by
  unfold execVcvt
  repeat' (first | with_reducible assumption | with_reducible apply State.vrun_memOk)
theorem execVcvt8_memOk (f : VF) (s : State) (h0 : s.MemOk) : OutOk (execVcvt8 f s) := by
  unfold execVcvt8
  repeat' (first | with_reducible assumption | with_reducible apply State.vrun_memOk)
theorem execVquant_memOk (f : VF) (s : State) (h0 : s.MemOk) : OutOk (execVquant f s) := by
  unfold execVquant
  repeat' (first | with_reducible assumption | with_reducible apply State.vrun_memOk)
theorem execVdequant_memOk (f : VF) (s : State) (h0 : s.MemOk) : OutOk (execVdequant f s) := by
  unfold execVdequant
  repeat' (first | with_reducible assumption | with_reducible apply State.vrun_memOk)
theorem execVpack_memOk (f : VF) (s : State) (h0 : s.MemOk) : OutOk (execVpack f s) := by
  unfold execVpack
  repeat' (first | with_reducible assumption | with_reducible apply State.vrun_memOk)
theorem execVunpk_memOk (f : VF) (s : State) (h0 : s.MemOk) : OutOk (execVunpk f s) := by
  unfold execVunpk
  repeat' (first | with_reducible assumption | with_reducible apply State.vrun_memOk)
theorem execVshuf_memOk (f : VF) (s : State) (h0 : s.MemOk) : OutOk (execVshuf f s) := by
  unfold execVshuf
  repeat' (first | with_reducible assumption | with_reducible apply State.vrun_memOk)
theorem execVzip_memOk (f : VF) (s : State) (h0 : s.MemOk) : OutOk (execVzip f s) := by
  unfold execVzip
  repeat' (first | with_reducible assumption | with_reducible apply State.vrun_memOk)
theorem execVuzp_memOk (f : VF) (s : State) (h0 : s.MemOk) : OutOk (execVuzp f s) := by
  unfold execVuzp
  repeat' (first | with_reducible assumption | with_reducible apply State.vrun_memOk)
theorem execVrev_memOk (f : VF) (s : State) (h0 : s.MemOk) : OutOk (execVrev f s) := by
  unfold execVrev
  repeat' (first | with_reducible assumption | with_reducible apply State.vrun_memOk)
theorem execVslide_memOk (f : VF) (s : State) (h0 : s.MemOk) : OutOk (execVslide f s) := by
  unfold execVslide
  repeat' (first | with_reducible assumption | with_reducible apply State.vrun_memOk)
theorem execVgath_memOk (f : VF) (s : State) (h0 : s.MemOk) : OutOk (execVgath f s) := by
  unfold execVgath
  repeat' (first | with_reducible assumption | with_reducible apply State.emit_memOk | with_reducible apply State.raise_memOk | with_reducible apply State.touch_memOk | with_reducible apply State.emitDue_memOk | with_reducible apply next_memOk | dsimp only | split)
theorem execVrotm_memOk (f : VF) (s : State) (h0 : s.MemOk) : OutOk (execVrotm f s) := by
  unfold execVrotm
  repeat' (first | with_reducible assumption | with_reducible apply State.emit_memOk | with_reducible apply State.raise_memOk | with_reducible apply State.touch_memOk | with_reducible apply State.emitDue_memOk | with_reducible apply next_memOk | dsimp only | split)
theorem execVpark_memOk (f : VF) (s : State) (h0 : s.MemOk) : OutOk (execVpark f s) := by
  unfold execVpark
  repeat' (first | with_reducible assumption | with_reducible apply State.emit_memOk | with_reducible apply State.raise_memOk | with_reducible apply next_memOk | dsimp only | split)
theorem execVunpark_memOk (f : VF) (s : State) (h0 : s.MemOk) : OutOk (execVunpark f s) := by
  unfold execVunpark
  repeat' (first | with_reducible assumption | with_reducible apply State.emit_memOk | with_reducible apply State.raise_memOk | with_reducible apply State.emitDue_memOk | with_reducible apply next_memOk | dsimp only | split)
theorem execVexp2_memOk (f : VF) (s : State) (h0 : s.MemOk) : OutOk (execVexp2 f s) := by
  unfold execVexp2
  repeat' (first | with_reducible assumption | with_reducible apply State.vrun_memOk)
theorem execVlog2_memOk (f : VF) (s : State) (h0 : s.MemOk) : OutOk (execVlog2 f s) := by
  unfold execVlog2
  repeat' (first | with_reducible assumption | with_reducible apply State.vrun_memOk)
theorem execVrcp_memOk (f : VF) (s : State) (h0 : s.MemOk) : OutOk (execVrcp f s) := by
  unfold execVrcp
  repeat' (first | with_reducible assumption | with_reducible apply State.vrun_memOk)
theorem execVrsqrt_memOk (f : VF) (s : State) (h0 : s.MemOk) : OutOk (execVrsqrt f s) := by
  unfold execVrsqrt
  repeat' (first | with_reducible assumption | with_reducible apply State.vrun_memOk)
theorem execVsin_memOk (f : VF) (s : State) (h0 : s.MemOk) : OutOk (execVsin f s) := by
  unfold execVsin
  repeat' (first | with_reducible assumption | with_reducible apply State.vrun_memOk)
theorem execVcos_memOk (f : VF) (s : State) (h0 : s.MemOk) : OutOk (execVcos f s) := by
  unfold execVcos
  repeat' (first | with_reducible assumption | with_reducible apply State.vrun_memOk)
theorem execVtanh_memOk (f : VF) (s : State) (h0 : s.MemOk) : OutOk (execVtanh f s) := by
  unfold execVtanh
  repeat' (first | with_reducible assumption | with_reducible apply State.vrun_memOk)
theorem State.draw_memOk (s : State) (f : VF) (L : Nat) (g : Nat → Nat) (h0 : s.MemOk) : OutOk (State.draw s f L g) := by
  unfold State.draw
  repeat' (first | with_reducible assumption | with_reducible apply State.emit_memOk | with_reducible apply State.emitDue_memOk | with_reducible apply next_memOk)
theorem execVqraw_memOk (f : VF) (s : State) (h0 : s.MemOk) : OutOk (execVqraw f s) := by
  unfold execVqraw
  repeat' (first | with_reducible assumption | with_reducible apply State.draw_memOk)
theorem execVunif_memOk (f : VF) (s : State) (h0 : s.MemOk) : OutOk (execVunif f s) := by
  unfold execVunif
  repeat' (first | with_reducible assumption | with_reducible apply State.draw_memOk)
theorem execVnorm_memOk (f : VF) (s : State) (h0 : s.MemOk) : OutOk (execVnorm f s) := by
  unfold execVnorm
  repeat' (first | with_reducible assumption | with_reducible apply State.draw_memOk)
theorem execVcat_memOk (f : VF) (s : State) (h0 : s.MemOk) : OutOk (execVcat f s) := by
  unfold execVcat
  repeat' (first | with_reducible assumption | with_reducible apply State.emit_memOk | with_reducible apply State.raise_memOk | with_reducible apply State.touch_memOk | with_reducible apply State.emitDue_memOk | with_reducible apply next_memOk | dsimp only | split)
theorem execVtopk_memOk (f : VF) (s : State) (h0 : s.MemOk) : OutOk (execVtopk f s) := by
  unfold execVtopk
  repeat' (first | with_reducible assumption | with_reducible apply State.vrun_memOk)
theorem execVtemp_memOk (f : VF) (s : State) (h0 : s.MemOk) : OutOk (execVtemp f s) := by
  unfold execVtemp
  repeat' (first | with_reducible assumption | with_reducible apply State.vrun_memOk)
theorem State.reduce_memOk (s : State) (f : RF) (i : Instr) (kind : Nat) (square : Bool) (h0 : s.MemOk) : OutOk (State.reduce s f i kind square) := by
  unfold State.reduce
  repeat' (first | with_reducible assumption | with_reducible apply State.emit_memOk | with_reducible apply State.raise_memOk | with_reducible apply State.touch_memOk | with_reducible apply State.emitAll_memOk | with_reducible apply next_memOk | dsimp only | split)
theorem execRsum_memOk (f : RF) (s : State) (h0 : s.MemOk) : OutOk (execRsum f s) := by
  unfold execRsum
  repeat' (first | with_reducible assumption | with_reducible apply State.reduce_memOk)
theorem execRmax_memOk (f : RF) (s : State) (h0 : s.MemOk) : OutOk (execRmax f s) := by
  unfold execRmax
  repeat' (first | with_reducible assumption | with_reducible apply State.reduce_memOk)
theorem execRmin_memOk (f : RF) (s : State) (h0 : s.MemOk) : OutOk (execRmin f s) := by
  unfold execRmin
  repeat' (first | with_reducible assumption | with_reducible apply State.reduce_memOk)
theorem execRsumsq_memOk (f : RF) (s : State) (h0 : s.MemOk) : OutOk (execRsumsq f s) := by
  unfold execRsumsq
  repeat' (first | with_reducible assumption | with_reducible apply State.reduce_memOk)
theorem execRmov_memOk (f : RF) (s : State) (h0 : s.MemOk) : OutOk (execRmov f s) := by
  unfold execRmov
  repeat' (first | with_reducible assumption | (lift_lets; intro t; apply have_memOk (t := t); on_goal 1 => subst t) | with_reducible apply State.emit_memOk | with_reducible apply next_memOk | split | intro _)
theorem execRclr_memOk (f : RF) (s : State) (h0 : s.MemOk) : OutOk (execRclr f s) := by
  unfold execRclr
  repeat' (first | with_reducible assumption | with_reducible apply State.emit_memOk | with_reducible apply next_memOk)
theorem State.mxLand_memOk (s : State) (cost : Nat) (e : Eff) (h0 : s.MemOk) : (State.mxLand s cost e).MemOk := by
  unfold State.mxLand
  repeat' (first | with_reducible assumption | with_reducible apply State.emit_memOk | with_reducible apply State.emitDue_memOk)
theorem State.mxResult_memOk (s : State) (md : BitVec 4) (b : MBody) (cost : Nat → Nat) (claim : Option Nat) (h0 : s.MemOk) : OutOk (State.mxResult s md b cost claim) := by
  unfold State.mxResult
  repeat' (first | with_reducible assumption | with_reducible apply State.raise_memOk | with_reducible apply State.mxLand_memOk | with_reducible apply next_memOk | dsimp only | split)
theorem State.clearZ_memOk (s : State) (f : MF) (mk : MF → Instr) (h0 : s.MemOk) : (State.clearZ s f mk).MemOk := by
  unfold State.clearZ
  repeat' (first | with_reducible assumption | with_reducible apply State.emit_memOk | split)
theorem State.mload_memOk (s : State) (i : Instr) (f : MF) (rowsN : Nat) (claim : Nat) (body : List (List Nat) → MBody → Nat → MBody) (h0 : s.MemOk) : OutOk (State.mload s i f rowsN claim body) := by
  unfold State.mload
  repeat' (first | with_reducible assumption | with_reducible apply State.emit_memOk | with_reducible apply State.raise_memOk | with_reducible apply State.touch_memOk | with_reducible apply State.emitDue_memOk | with_reducible apply next_memOk | dsimp only | split)
theorem execMld_memOk (f : MF) (s : State) (h0 : s.MemOk) : OutOk (execMld f s) := by
  unfold execMld
  repeat' (first | with_reducible assumption | with_reducible apply State.mload_memOk)
theorem execMldu_memOk (f : MF) (s : State) (h0 : s.MemOk) : OutOk (execMldu f s) := by
  unfold execMldu
  repeat' (first | with_reducible assumption | with_reducible apply State.mload_memOk)
theorem execMldv_memOk (f : MF) (s : State) (h0 : s.MemOk) : OutOk (execMldv f s) := by
  unfold execMldv
  repeat' (first | with_reducible assumption | with_reducible apply State.mload_memOk)
theorem execMst_memOk (f : MF) (s : State) (h0 : s.MemOk) : OutOk (execMst f s) := by
  unfold execMst
  repeat' (first | with_reducible assumption | with_reducible apply State.mxLand_memOk | with_reducible apply next_memOk)
theorem execMstu_memOk (f : MF) (s : State) (h0 : s.MemOk) : OutOk (execMstu f s) := by
  unfold execMstu
  repeat' (first | with_reducible assumption | with_reducible apply State.mxLand_memOk | with_reducible apply next_memOk)
theorem execMstv_memOk (f : MF) (s : State) (h0 : s.MemOk) : OutOk (execMstv f s) := by
  unfold execMstv
  repeat' (first | with_reducible assumption | with_reducible apply State.mxLand_memOk | with_reducible apply next_memOk)
theorem execMmov_memOk (f : MF) (s : State) (h0 : s.MemOk) : OutOk (execMmov f s) := by
  unfold execMmov
  repeat' (first | with_reducible assumption | with_reducible apply State.emit_memOk | with_reducible apply State.mxResult_memOk | with_reducible apply next_memOk | dsimp only | split)
theorem execMmac_memOk (f : MF) (s : State) (h0 : s.MemOk) : OutOk (execMmac f s) := by
  unfold execMmac
  repeat' (first | with_reducible assumption | with_reducible apply State.mxLand_memOk | with_reducible apply State.clearZ_memOk | with_reducible apply next_memOk | (unfold State.MemOk; dsimp only; change State.MemOk _) | split)
theorem State.mstream_memOk (s : State) (i : Instr) (mk : MF → Instr) (f : MF) (remoteOk : Bool) (h0 : s.MemOk) : OutOk (State.mstream s i mk f remoteOk) := by
  unfold State.mstream
  repeat' (first | with_reducible assumption | with_reducible apply State.emit_memOk | with_reducible apply State.raise_memOk | with_reducible apply State.touch_memOk | with_reducible apply State.emitDue_memOk | with_reducible apply State.clearZ_memOk | with_reducible apply next_memOk | dsimp only | split)
theorem execMmacs_memOk (f : MF) (s : State) (h0 : s.MemOk) : OutOk (execMmacs f s) := by
  unfold execMmacs
  repeat' (first | with_reducible assumption | with_reducible apply State.mstream_memOk)
theorem execMmacr_memOk (f : MF) (s : State) (h0 : s.MemOk) : OutOk (execMmacr f s) := by
  unfold execMmacr
  repeat' (first | with_reducible assumption | with_reducible apply State.mstream_memOk)
theorem execMmacm_memOk (f : MF) (s : State) (h0 : s.MemOk) : OutOk (execMmacm f s) := by
  unfold execMmacm
  repeat' (first | with_reducible assumption | with_reducible apply State.mstream_memOk)
theorem execMmul_memOk (f : MF) (s : State) (h0 : s.MemOk) : OutOk (execMmul f s) := by
  unfold execMmul
  repeat' (first | with_reducible assumption | with_reducible apply State.mxResult_memOk)
theorem execMadd_memOk (f : MF) (s : State) (h0 : s.MemOk) : OutOk (execMadd f s) := by
  unfold execMadd
  repeat' (first | with_reducible assumption | with_reducible apply State.mxResult_memOk)
theorem execMsub_memOk (f : MF) (s : State) (h0 : s.MemOk) : OutOk (execMsub f s) := by
  unfold execMsub
  repeat' (first | with_reducible assumption | with_reducible apply State.mxResult_memOk)
theorem execMscale_memOk (f : MF) (s : State) (h0 : s.MemOk) : OutOk (execMscale f s) := by
  unfold execMscale
  repeat' (first | with_reducible assumption | with_reducible apply State.mxResult_memOk)
theorem execMtr_memOk (f : MF) (s : State) (h0 : s.MemOk) : OutOk (execMtr f s) := by
  unfold execMtr
  repeat' (first | with_reducible assumption | with_reducible apply State.mxResult_memOk)
theorem execRecomp_memOk (f : MF) (s : State) (h0 : s.MemOk) : OutOk (execRecomp f s) := by
  unfold execRecomp
  repeat' (first | with_reducible assumption | with_reducible apply State.mxResult_memOk)
theorem execDensify_memOk (f : MF) (s : State) (h0 : s.MemOk) : OutOk (execDensify f s) := by
  unfold execDensify
  repeat' (first | with_reducible assumption | with_reducible apply State.mxResult_memOk)
theorem execMctl_memOk (d : BitVec 4) (l : BitVec 7) (x : Bool) (s : State) (h0 : s.MemOk) : OutOk (execMctl d l x s) := by
  unfold execMctl
  repeat' (first | with_reducible assumption | with_reducible apply State.mxLand_memOk | with_reducible apply next_memOk)
theorem execMfree_memOk (f : MF) (s : State) (h0 : s.MemOk) : OutOk (execMfree f s) := by
  unfold execMfree
  repeat' (first | with_reducible assumption | with_reducible apply State.mxLand_memOk | with_reducible apply next_memOk)
theorem execMacrd_memOk (f : MF) (s : State) (h0 : s.MemOk) : OutOk (execMacrd f s) := by
  unfold execMacrd
  repeat' (first | with_reducible assumption | with_reducible apply State.raise_memOk | with_reducible apply State.mxLand_memOk | with_reducible apply next_memOk | split)
theorem execMacwr_memOk (f : MF) (s : State) (h0 : s.MemOk) : OutOk (execMacwr f s) := by
  unfold execMacwr
  repeat' (first | with_reducible assumption | with_reducible apply State.mxLand_memOk | with_reducible apply next_memOk)
theorem State.nextRow_memOk (s : State) (f : AF) (mk : AF → Instr) (h0 : s.MemOk) : (State.nextRow s f mk).MemOk := by
  unfold State.nextRow
  repeat' (first | with_reducible assumption | with_reducible apply State.emit_memOk)
theorem State.nextHalf_memOk (s : State) (f : AF) (mk : AF → Instr) (h0 : s.MemOk) : (State.nextHalf s f mk).MemOk := by
  unfold State.nextHalf
  repeat' (first | with_reducible assumption | with_reducible apply State.emit_memOk)
theorem execAccld_memOk (f : AF) (s : State) (h0 : s.MemOk) : OutOk (execAccld f s) := by
  unfold execAccld
  repeat' (first | with_reducible assumption | with_reducible apply State.emit_memOk | with_reducible apply State.nextHalf_memOk | with_reducible apply next_memOk)
theorem execAccwr_memOk (f : AF) (s : State) (h0 : s.MemOk) : OutOk (execAccwr f s) := by
  unfold execAccwr
  repeat' (first | with_reducible assumption | with_reducible apply State.emit_memOk | with_reducible apply State.nextHalf_memOk | with_reducible apply next_memOk)
theorem execAccadd_memOk (f : AF) (s : State) (h0 : s.MemOk) : OutOk (execAccadd f s) := by
  unfold execAccadd
  repeat' (first | with_reducible assumption | with_reducible apply State.emit_memOk | with_reducible apply State.nextHalf_memOk | with_reducible apply next_memOk)
theorem execAccclr_memOk (f : AF) (s : State) (h0 : s.MemOk) : OutOk (execAccclr f s) := by
  unfold execAccclr
  repeat' (first | with_reducible assumption | with_reducible apply State.emit_memOk | with_reducible apply State.nextRow_memOk | with_reducible apply next_memOk)
theorem execAccmv_memOk (f : AF) (s : State) (h0 : s.MemOk) : OutOk (execAccmv f s) := by
  unfold execAccmv
  repeat' (first | with_reducible assumption | with_reducible apply State.emit_memOk | with_reducible apply State.nextRow_memOk | with_reducible apply next_memOk)
theorem execAccscl_memOk (f : AF) (s : State) (h0 : s.MemOk) : OutOk (execAccscl f s) := by
  unfold execAccscl
  repeat' (first | with_reducible assumption | with_reducible apply State.emit_memOk | with_reducible apply State.nextRow_memOk | with_reducible apply next_memOk)
theorem State.portStore_memOk (s : State) (f : AF) (okFmt : Nat → Bool) (enc : Stream → List Nat → List Eff × Nat × Nat) (mk : AF → Instr) (h0 : s.MemOk) : OutOk (State.portStore s f okFmt enc mk) := by
  unfold State.portStore
  repeat' (first | with_reducible assumption | with_reducible apply State.raise_memOk | with_reducible apply State.touch_memOk | with_reducible apply State.emitAll_memOk | with_reducible apply State.nextRow_memOk | with_reducible apply next_memOk | dsimp only | split)
theorem execAccst_memOk (f : AF) (s : State) (h0 : s.MemOk) : OutOk (execAccst f s) := by
  unfold execAccst
  repeat' (first | with_reducible assumption | with_reducible apply State.portStore_memOk)
theorem execAccqst_memOk (f : AF) (s : State) (h0 : s.MemOk) : OutOk (execAccqst f s) := by
  unfold execAccqst
  repeat' (first | with_reducible assumption | with_reducible apply State.portStore_memOk)
theorem State.enqS_memOk (s : State) (i : Instr) (args : List Nat) (h0 : s.MemOk) : (State.enqS s i args).MemOk := by
  unfold State.enqS
  repeat' (first | with_reducible assumption | with_reducible apply State.emit_memOk)
theorem State.checked_memOk (s : State) (t : Option Trap) (f : State → State) (h0 : s.MemOk) (h1 : (f s).MemOk) : OutOk (s.checked t f) := by
  unfold State.checked
  split
  · exact next_memOk (State.raise_memOk _ _ h0)
  · exact next_memOk h1
theorem execRset_memOk (n : BitVec 3) (b : Bool) (f c : BitVec 7) (d : Bool) (s : State) (h0 : s.MemOk) : OutOk (execRset n b f c d s) := by
  unfold execRset
  repeat' (first | with_reducible assumption | (lift_lets; intro t; apply have_memOk (t := t); on_goal 1 => subst t) | with_reducible apply State.emit_memOk | with_reducible apply State.emitDue_memOk | with_reducible apply State.checked_memOk | split | intro _)
theorem execRwait_memOk (h : BitVec 3) (k : Bool) (n : BitVec 8) (l : BitVec 5) (s : State) (h0 : s.MemOk) : OutOk (execRwait h k n l s) := by
  unfold execRwait
  repeat' (first | with_reducible assumption | with_reducible apply State.emitEnd_memOk | with_reducible apply State.checked_memOk)
theorem execRadv_memOk (h : BitVec 3) (i : Bool) (n : BitVec 8) (s : State) (h0 : s.MemOk) : OutOk (execRadv h i n s) := by
  unfold execRadv
  repeat' (first | with_reducible assumption | with_reducible apply State.emit_memOk | with_reducible apply State.emitDue_memOk | with_reducible apply State.checked_memOk | with_reducible apply next_memOk | with_reducible apply foldl_memOk | with_reducible apply foldl_fst_memOk | dsimp only | split | exact fun _ h => h | intro _)
theorem execOwn_memOk (st : BitVec 2) (b : Bool) (f c : BitVec 7) (s : State) (h0 : s.MemOk) : OutOk (execOwn st b f c s) := by
  unfold execOwn
  repeat' (first | with_reducible assumption | with_reducible apply State.emit_memOk | with_reducible apply State.emitDue_memOk | with_reducible apply State.checked_memOk | split)
theorem execBarr_memOk (n : BitVec 6) (r : Bool) (d : BitVec 5) (s : State) (h0 : s.MemOk) : OutOk (execBarr n r d s) := by
  unfold execBarr
  repeat' (first | with_reducible assumption | with_reducible apply State.enqS_memOk | with_reducible apply State.checked_memOk)
theorem State.bwaitFor_memOk (s : State) (n : BitVec 6) (l : BitVec 5) (k : Nat) (h0 : s.MemOk) : OutOk (State.bwaitFor s n l k) := by
  unfold State.bwaitFor
  repeat' (first | with_reducible assumption | with_reducible apply State.emitEnd_memOk | with_reducible apply State.checked_memOk)
theorem execBwait_memOk (n : BitVec 6) (l c : BitVec 5) (s : State) (h0 : s.MemOk) : OutOk (execBwait n l c s) := by
  unfold execBwait
  repeat' (first | with_reducible assumption | with_reducible apply State.bwaitFor_memOk)
theorem execBwaitImm_memOk (n : BitVec 6) (l : BitVec 5) (c : BitVec 8) (s : State) (h0 : s.MemOk) : OutOk (execBwaitImm n l c s) := by
  unfold execBwaitImm
  repeat' (first | with_reducible assumption | with_reducible apply State.bwaitFor_memOk)
theorem execBreset_memOk (n : BitVec 6) (s : State) (h0 : s.MemOk) : OutOk (execBreset n s) := by
  unfold execBreset
  repeat' (first | with_reducible assumption | with_reducible apply State.emit_memOk | with_reducible apply State.checked_memOk)
theorem execBfree_memOk (n : BitVec 6) (s : State) (h0 : s.MemOk) : OutOk (execBfree n s) := by
  unfold execBfree
  repeat' (first | with_reducible assumption | with_reducible apply State.emit_memOk | with_reducible apply State.checked_memOk)
theorem execBalloc_memOk (p : BitVec 4) (n : BitVec 6) (s : State) (h0 : s.MemOk) : OutOk (execBalloc p n s) := by
  unfold execBalloc
  repeat' (first | with_reducible assumption | with_reducible apply State.emit_memOk | with_reducible apply next_memOk)
theorem execEcopy_memOk (f : EcopyF) (s : State) (h0 : s.MemOk) : OutOk (execEcopy f s) := by
  unfold execEcopy
  repeat' (first | with_reducible assumption | with_reducible apply State.emit_memOk | with_reducible apply State.enqS_memOk | with_reducible apply State.checked_memOk | dsimp only | split)
theorem execHxch_memOk (n : BitVec 5) (f b : BitVec 6) (s : State) (h0 : s.MemOk) : OutOk (execHxch n f b s) := by
  unfold execHxch
  repeat' (first | with_reducible assumption | with_reducible apply State.emit_memOk | with_reducible apply State.checked_memOk | split)
theorem execReshard_memOk (e v : BitVec 4) (b : BitVec 6) (s : State) (h0 : s.MemOk) : OutOk (execReshard e v b s) := by
  unfold execReshard
  repeat' (first | with_reducible assumption | with_reducible apply State.emit_memOk | with_reducible apply State.enqS_memOk | with_reducible apply State.checked_memOk)
theorem execRsload_memOk (v : BitVec 4) (a : BitVec 5) (s : State) (h0 : s.MemOk) : OutOk (execRsload v a s) := by
  unfold execRsload
  repeat' (first | with_reducible assumption | with_reducible apply State.emit_memOk | with_reducible apply State.checked_memOk)
theorem execColl_memOk (a : BitVec 5) (b : BitVec 6) (s : State) (h0 : s.MemOk) : OutOk (execColl a b s) := by
  unfold execColl
  repeat' (first | with_reducible assumption | with_reducible apply State.enqS_memOk | with_reducible apply State.checked_memOk)
theorem execEdisp_memOk (a : BitVec 5) (b : BitVec 6) (s : State) (h0 : s.MemOk) : OutOk (execEdisp a b s) := by
  unfold execEdisp
  repeat' (first | with_reducible assumption | with_reducible apply State.enqS_memOk | with_reducible apply State.checked_memOk)
theorem execEcomb_memOk (a : BitVec 5) (b : BitVec 6) (s : State) (h0 : s.MemOk) : OutOk (execEcomb a b s) := by
  unfold execEcomb
  repeat' (first | with_reducible assumption | with_reducible apply State.enqS_memOk | with_reducible apply State.checked_memOk)
theorem execPut_memOk (a : BitVec 5) (b : BitVec 6) (s : State) (h0 : s.MemOk) : OutOk (execPut a b s) := by
  unfold execPut
  repeat' (first | with_reducible assumption | with_reducible apply State.enqS_memOk | with_reducible apply State.checked_memOk)
theorem execGet_memOk (a : BitVec 5) (b : BitVec 6) (s : State) (h0 : s.MemOk) : OutOk (execGet a b s) := by
  unfold execGet
  repeat' (first | with_reducible assumption | with_reducible apply State.enqS_memOk | with_reducible apply State.checked_memOk)
theorem execSpawn_memOk (f : SpawnF) (s : State) (h0 : s.MemOk) : OutOk (execSpawn f s) := by
  unfold execSpawn
  repeat' (first | with_reducible assumption | with_reducible apply State.enqS_memOk | with_reducible apply State.checked_memOk)
theorem execYield_memOk (s : State) (h0 : s.MemOk) : OutOk (execYield s) := by
  unfold execYield
  repeat' (first | with_reducible assumption | with_reducible apply State.emitEnd_memOk | with_reducible apply next_memOk)
theorem execDone_memOk (j : Bool) (s : State) (h0 : s.MemOk) : OutOk (execDone j s) := by
  unfold execDone
  repeat' (first | with_reducible assumption | with_reducible apply State.emit_memOk | with_reducible apply State.emitEnd_memOk | with_reducible apply State.enqS_memOk | with_reducible apply next_memOk | split)
theorem execJraise_memOk (a : BitVec 5) (s : State) (h0 : s.MemOk) : OutOk (execJraise a s) := by
  unfold execJraise
  repeat' (first | with_reducible assumption | with_reducible apply State.enqS_memOk | with_reducible apply State.checked_memOk)
theorem execCpost_memOk (a b : BitVec 5) (sc : Scope) (j : Bool) (s : State) (h0 : s.MemOk) : OutOk (execCpost a b sc j s) := by
  unfold execCpost
  repeat' (first | with_reducible assumption | with_reducible apply State.emit_memOk | with_reducible apply State.enqS_memOk | with_reducible apply State.checked_memOk | (unfold State.MemOk; dsimp only; change State.MemOk _) | split)
theorem execSlice_memOk (b : BitVec 5) (y : Bool) (lo hi : BitVec 32) (s : State) (h0 : s.MemOk) : OutOk (execSlice b y lo hi s) := by
  unfold execSlice
  repeat' (first | with_reducible assumption | (lift_lets; intro t; apply have_memOk (t := t); on_goal 1 => subst t) | with_reducible apply State.emitEnd_memOk | with_reducible apply next_memOk | split | intro _)
theorem execTrap_memOk (a : BitVec 5) (s : State) (h0 : s.MemOk) : OutOk (execTrap a s) := by
  unfold execTrap
  repeat' (first | with_reducible assumption | with_reducible apply State.raise_memOk | with_reducible apply next_memOk)
theorem execBrk_memOk (s : State) (h0 : s.MemOk) : OutOk (execBrk s) := by
  unfold execBrk
  repeat' (first | with_reducible assumption | with_reducible apply State.raise_memOk | with_reducible apply next_memOk)
theorem execSqset_memOk (n : BitVec 3) (a : BitVec 5) (s : State) (h0 : s.MemOk) : OutOk (execSqset n a s) := by
  unfold execSqset
  repeat' (first | with_reducible assumption | with_reducible apply State.emit_memOk | with_reducible apply next_memOk)
theorem execSqapp_memOk (n : BitVec 3) (d : BitVec 5) (c : BitVec 8) (s : State) (h0 : s.MemOk) : OutOk (execSqapp n d c s) := by
  unfold execSqapp
  repeat' (first | with_reducible assumption | with_reducible apply State.emit_memOk | with_reducible apply State.checked_memOk)
theorem State.commit_memOk (s : State) (i : Instr) (n : BitVec 3) (k : Nat) (h0 : s.MemOk) : OutOk (State.commit s i n k) := by
  unfold State.commit
  repeat' (first | with_reducible assumption | with_reducible apply State.emit_memOk | with_reducible apply State.enqS_memOk | with_reducible apply State.checked_memOk)
theorem execSqacc_memOk (n : BitVec 3) (a : BitVec 5) (s : State) (h0 : s.MemOk) : OutOk (execSqacc n a s) := by
  unfold execSqacc
  repeat' (first | with_reducible assumption | with_reducible apply State.commit_memOk)
theorem execSqrej_memOk (n : BitVec 3) (s : State) (h0 : s.MemOk) : OutOk (execSqrej n s) := by
  unfold execSqrej
  repeat' (first | with_reducible assumption | with_reducible apply State.commit_memOk)
theorem execTsub_memOk (n : BitVec 3) (a : BitVec 5) (b : BitVec 6) (p : BitVec 4) (s : State) (h0 : s.MemOk) : OutOk (execTsub n a b p s) := by
  unfold execTsub
  repeat' (first | with_reducible assumption | with_reducible apply State.emit_memOk | with_reducible apply State.enqS_memOk | with_reducible apply State.checked_memOk | (unfold State.MemOk; dsimp only; change State.MemOk _) | split)
theorem execRverd_memOk (v : BitVec 2) (s : State) (h0 : s.MemOk) : OutOk (execRverd v s) := by
  unfold execRverd
  repeat' (first | with_reducible assumption | with_reducible apply State.emitEnd_memOk | with_reducible apply State.raise_memOk | with_reducible apply State.enqS_memOk | with_reducible apply next_memOk | split)
theorem execTlog_memOk (a b : BitVec 5) (s : State) (h0 : s.MemOk) : OutOk (execTlog a b s) := by
  unfold execTlog
  repeat' (first | with_reducible assumption | with_reducible apply State.emit_memOk | with_reducible apply State.raise_memOk | with_reducible apply State.enqS_memOk | with_reducible apply State.checked_memOk | with_reducible apply next_memOk | dsimp only | split)
theorem execTsload_memOk (n : BitVec 3) (a : BitVec 5) (p : BitVec 4) (s : State) (h0 : s.MemOk) : OutOk (execTsload n a p s) := by
  unfold execTsload
  repeat' (first | with_reducible assumption | (lift_lets; intro t; apply have_memOk (t := t); on_goal 1 => subst t) | with_reducible apply State.emit_memOk | with_reducible apply State.checked_memOk | dsimp only | split | intro _)
theorem execTsstat_memOk (d : BitVec 5) (n g sl : BitVec 3) (s : State) (h0 : s.MemOk) : OutOk (execTsstat d n g sl s) := by
  unfold execTsstat
  repeat' (first | with_reducible assumption | with_reducible apply State.emit_memOk | with_reducible apply State.checked_memOk)
theorem execLyrd_memOk (d : BitVec 5) (e : BitVec 4) (sl : BitVec 3) (s : State) (h0 : s.MemOk) : OutOk (execLyrd d e sl s) := by
  unfold execLyrd
  repeat' (first | with_reducible assumption | with_reducible apply State.emit_memOk | with_reducible apply next_memOk)
theorem execLywr_memOk (e : BitVec 4) (a : BitVec 5) (sl : BitVec 3) (s : State) (h0 : s.MemOk) : OutOk (execLywr e a sl s) := by
  unfold execLywr
  repeat' (first | with_reducible assumption | with_reducible apply State.emitEnd_memOk | with_reducible apply State.checked_memOk)
theorem execTlbinv_memOk (k : BitVec 2) (a b : BitVec 5) (s : State) (h0 : s.MemOk) : OutOk (execTlbinv k a b s) := by
  unfold execTlbinv
  repeat' (first | with_reducible assumption | with_reducible apply State.emit_memOk | with_reducible apply State.checked_memOk)
theorem execAclwr_memOk (a b : BitVec 5) (s : State) (h0 : s.MemOk) : OutOk (execAclwr a b s) := by
  unfold execAclwr
  repeat' (first | with_reducible assumption | with_reducible apply State.emit_memOk | with_reducible apply State.checked_memOk)
theorem execCkpt_memOk (a : BitVec 5) (b : BitVec 6) (s : State) (h0 : s.MemOk) : OutOk (execCkpt a b s) := by
  unfold execCkpt
  repeat' (first | with_reducible assumption | with_reducible apply State.emitEnd_memOk | with_reducible apply State.enqS_memOk | with_reducible apply State.checked_memOk)
theorem State.landBlocks_memOk (s : State) (tile : Nat) (z : Bool) (blocks : List (List (BitVec 32))) (h0 : s.MemOk) : (State.landBlocks s tile z blocks).MemOk := by
  unfold State.landBlocks
  repeat' (first | with_reducible assumption | with_reducible apply State.wacc_memOk | (unfold State.MemOk; dsimp only; change State.MemOk _) | with_reducible apply foldl_memOk | split | intro _)
theorem State.landRows_memOk (s : State) (tile : Nat) (rows : List (BitVec 2048)) (h0 : s.MemOk) : (State.landRows s tile rows).MemOk := by
  unfold State.landRows
  repeat' (first | with_reducible assumption | with_reducible apply State.wacc_memOk | with_reducible apply foldl_memOk | intro _)
theorem State.landAdd_memOk (s : State) (tile : Nat) (z : Bool) (rows : List (BitVec 2048)) (h0 : s.MemOk) : (State.landAdd s tile z rows).MemOk := by
  unfold State.landAdd
  repeat' (first | with_reducible assumption | with_reducible apply State.wacc_memOk | (unfold State.MemOk; dsimp only; change State.MemOk _) | with_reducible apply foldl_memOk | split | intro _)
theorem State.landMreg_memOk (s : State) (n : BitVec 4) (b : MBody) (h0 : s.MemOk) : (State.landMreg s n b).MemOk := by
  unfold State.landMreg
  repeat' (first | with_reducible assumption | with_reducible apply State.onCore_memOk | with_reducible apply State.wm_memOk | with_reducible apply State.onCont_memOk | dsimp only | split)
theorem State.enterQueue_memOk (s : State) (load store : Bool) (i : Instr) (args : List Nat) (vec : BitVec 1024) (mask : BitVec 128) (h0 : s.MemOk) : (State.enterQueue s load store i args vec mask).MemOk := by
  unfold State.enterQueue
  repeat' (first | with_reducible assumption | with_reducible apply State.onCore_memOk | with_reducible apply State.fresh_memOk)
theorem State.landLay_memOk (s : State) (e : BitVec 4) (sel : Nat) (v : BitVec 64) (began : Nat) (h0 : s.MemOk) : (State.landLay s e sel v began).MemOk := by
  unfold State.landLay
  repeat' (first | with_reducible assumption | with_reducible apply State.onLayEnt_memOk)
theorem State.onPlace_memOk (s : State) (die set idx : Nat) (f : Place → Place) (h0 : s.MemOk) : (State.onPlace s die set idx f).MemOk := by
  unfold State.onPlace
  repeat' (first | with_reducible assumption | with_reducible apply State.onTset_memOk)
theorem State.landVerdict_memOk (s : State) (set idx st : Nat) (pass : Bool) (cycles handle : Nat) (h0 : s.MemOk) : (State.landVerdict s set idx st pass cycles handle).MemOk := by
  unfold State.landVerdict
  repeat' (first | with_reducible assumption | (lift_lets; intro t; apply have_memOk (t := t); on_goal 1 => subst t) | with_reducible apply State.onTset_memOk | with_reducible apply State.onPlace_memOk | dsimp only | split)
theorem State.dropL1_memOk (s : State) (h0 : s.MemOk) : (State.dropL1 s).MemOk := by
  unfold State.dropL1
  repeat' (first | with_reducible assumption | with_reducible apply State.onCore_memOk)
theorem State.setMode_memOk (s : State) (m : Mode) (h0 : s.MemOk) : (State.setMode s m).MemOk := by
  unfold State.setMode
  repeat' (first | with_reducible assumption | with_reducible apply State.onCore_memOk)
theorem State.land_memOk (s : State) (e : Eff) (h0 : s.MemOk) : (State.land s e).MemOk := by
  unfold State.land
  repeat' (first | with_reducible assumption | with_reducible apply State.onCore_memOk | with_reducible apply State.onCtx_memOk | with_reducible apply State.onCtl_memOk | with_reducible apply State.onIss_memOk | with_reducible apply State.ws_memOk | with_reducible apply State.wp_memOk | with_reducible apply State.wk_memOk | with_reducible apply State.wv_memOk | with_reducible apply State.wst_memOk | with_reducible apply State.wm_memOk | with_reducible apply State.wq_memOk | with_reducible apply State.wh_memOk | with_reducible apply State.wsq_memOk | with_reducible apply State.wacc_memOk | with_reducible apply State.orFlags_memOk | with_reducible apply State.wrow_memOk | with_reducible apply State.onBarrier_memOk | with_reducible apply State.arrive_memOk | with_reducible apply State.onLayEnt_memOk | with_reducible apply State.onTset_memOk | with_reducible apply State.onVslot_memOk | with_reducible apply State.onCont_memOk | with_reducible apply State.crWrite_memOk | with_reducible apply State.landBlocks_memOk | with_reducible apply State.landRows_memOk | with_reducible apply State.landAdd_memOk | with_reducible apply State.landMreg_memOk | with_reducible apply State.enterQueue_memOk | with_reducible apply State.landLay_memOk | with_reducible apply State.onPlace_memOk | with_reducible apply State.landVerdict_memOk | with_reducible apply State.setMode_memOk | dsimp only | split)
theorem State.landList_memOk : ∀ (l : List Pend) (s : State) (fl : Nat), s.MemOk → (s.landList fl l).MemOk
  | [], s, _, h => State.orFlags_memOk s _ h
  | p :: r, s, fl, h => by
    unfold State.landList
    split
    · exact State.landList_memOk r _ _ (State.land_memOk _ _ h)
    · exact State.landList_memOk r _ _ (State.report_memOk _ _ _ _ h)
theorem State.landAll_memOk (s : State) (l : List Pend) (h0 : s.MemOk) : (s.landAll l).MemOk := State.landList_memOk _ _ _ h0
theorem State.landDue_memOk (s : State) (t : Eff → Bool) (h0 : s.MemOk) : (State.landDue s t).MemOk := by
  unfold State.landDue
  repeat' (first | with_reducible assumption | with_reducible apply State.onCore_memOk | with_reducible apply State.landAll_memOk)
theorem execResultLanding_memOk (s : State) (h0 : s.MemOk) : OutOk (execResultLanding s) := by
  unfold execResultLanding
  repeat' (first | with_reducible assumption | with_reducible apply State.landDue_memOk | with_reducible apply next_memOk)
theorem execMatrixResultLanding_memOk (s : State) (h0 : s.MemOk) : OutOk (execMatrixResultLanding s) := by
  unfold execMatrixResultLanding
  repeat' (first | with_reducible assumption | with_reducible apply State.landDue_memOk | with_reducible apply next_memOk)
theorem State.entryReport_memOk (s : State) (e : QEnt) (t : Trap) (h0 : s.MemOk) : (State.entryReport s e t).MemOk := by
  unfold State.entryReport
  repeat' (first | with_reducible assumption | with_reducible apply State.report_memOk)
theorem State.addOutst_memOk (s : State) (e : QEnt) (d : Dest) (r : Resp) (due : Nat) (load acq : Bool) (h0 : s.MemOk) : (State.addOutst s e d r due load acq).1.MemOk := by
  unfold State.addOutst
  repeat' (first | with_reducible assumption | with_reducible apply State.onCore_memOk | with_reducible apply State.fresh_memOk)
theorem State.failEntry_memOk (s : State) (e : QEnt) (d : Dest) (t : Trap) (h0 : s.MemOk) : (State.failEntry s e d t).MemOk := by
  unfold State.failEntry
  repeat' (first | with_reducible assumption | with_reducible apply State.addOutst_memOk)
theorem State.sourceOf_memOk (s : State) (e : QEnt) (k : Acc) (p : Part) (h0 : s.MemOk) : (State.sourceOf s e k p).1.MemOk := by
  unfold State.sourceOf
  repeat' (first | with_reducible assumption | with_reducible apply State.coreXlate_memOk | (unfold State.MemOk; dsimp only; change State.MemOk _) | split | refine eq_memOk (by assumption) ?_)
theorem State.loadSource_memOk (s : State) (e : QEnt) (bypass : Bool) (p : Part) (h0 : s.MemOk) : (State.loadSource s e bypass p).1.MemOk := by
  unfold State.loadSource
  repeat' (first | with_reducible assumption | with_reducible apply State.sourceOf_memOk | split)
theorem resolveParts_memOk (f : State → Part → State × Src) (hf : ∀ s p, s.MemOk → (f s p).1.MemOk) : ∀ (l : List Part) (s : State), s.MemOk → (resolveParts f l s).1.MemOk
  | [], _, h => h
  | p :: r, s, h => resolveParts_memOk f hf r _ (hf s p h)
theorem State.fillLines_memOk (s : State) (asid : Nat) (l : List (Part × Src)) (h0 : s.MemOk) : (State.fillLines s asid l).MemOk := by
  unfold State.fillLines
  repeat' (first | with_reducible assumption | with_reducible apply State.onCore_memOk | (unfold State.MemOk; dsimp only; change State.MemOk _) | with_reducible apply foldl_memOk | split | intro _)
theorem State.sendRead_memOk (s : State) (e : QEnt) (d : Dest) (bypass load acq : Bool) (x : Part × Nat × Nat × Bool) (h0 : s.MemOk) : (State.sendRead s e d bypass load acq x).MemOk := by
  unfold State.sendRead
  repeat' (first | with_reducible assumption | with_reducible apply State.sendReq_memOk | with_reducible apply State.addOutst_memOk)
theorem State.performLoad_memOk (s : State) (e : QEnt) (d : Dest) (parts : List Part) (bypass load acq : Bool) (h0 : s.MemOk) : (State.performLoad s e d parts bypass load acq).1.MemOk := by
  unfold State.performLoad
  repeat' (first | with_reducible assumption | with_reducible apply State.addOutst_memOk | with_reducible apply State.failEntry_memOk | with_reducible apply State.loadSource_memOk | with_reducible apply resolveParts_memOk | with_reducible apply State.fillLines_memOk | with_reducible apply State.sendRead_memOk | (unfold State.MemOk; dsimp only; change State.MemOk _) | with_reducible apply foldl_memOk | split | intro _)
theorem State.storeLine_memOk (s : State) (asid : Nat) (w : Wr) (h0 : s.MemOk) : (State.storeLine s asid w).MemOk := by
  unfold State.storeLine
  repeat' (first | with_reducible assumption | (lift_lets; intro t; apply have_memOk (t := t); on_goal 1 => subst t) | with_reducible apply State.onCore_memOk | split)
theorem State.doWrite_memOk (s : State) (e : QEnt) (w : Wr) (pa next : Nat) (h0 : s.MemOk) : (State.doWrite s e w pa next).MemOk := by
  unfold State.doWrite
  repeat' (first | with_reducible assumption | (lift_lets; intro t; apply have_memOk (t := t); on_goal 1 => subst t) | with_reducible apply State.onFab_memOk | with_reducible apply State.sendReq_memOk | with_reducible apply State.performAccess_memOk | with_reducible apply State.failEntry_memOk | with_reducible apply State.storeLine_memOk | split | refine eq_memOk (by assumption) ?_ | intro _)
theorem State.doWrites_memOk (e : QEnt) : ∀ (ws : List Wr) (l : List (Part × Src)) (s : State), s.MemOk → (s.doWrites e ws l).MemOk
  | [], _, _, h => h
  | _ :: _, [], _, h => h
  | w :: ws, x :: l, s, h => by
    unfold State.doWrites
    split
    · exact State.doWrites_memOk e ws _ _ (State.doWrite_memOk s e w _ _ h)
    · exact State.doWrites_memOk e ws _ _ (State.doWrite_memOk s e w _ _ h)
theorem State.performStore_memOk (s : State) (e : QEnt) (k : Acc) (ws : List Wr) (h0 : s.MemOk) : (State.performStore s e k ws).1.MemOk := by
  unfold State.performStore
  repeat' (first | with_reducible assumption | with_reducible apply State.failEntry_memOk | with_reducible apply State.sourceOf_memOk | with_reducible apply resolveParts_memOk | with_reducible apply State.doWrites_memOk | dsimp only | split | intro _)
theorem State.performAtomic_memOk (s : State) (e : QEnt) (code : Nat) (sc : Scope) (o : BitVec 2) (h0 : s.MemOk) : (State.performAtomic s e code sc o).1.MemOk := by
  unfold State.performAtomic
  repeat' (first | with_reducible assumption | with_reducible apply State.sendReq_memOk | with_reducible apply State.performAccess_memOk | with_reducible apply State.addOutst_memOk | with_reducible apply State.failEntry_memOk | with_reducible apply State.sourceOf_memOk | with_reducible apply State.storeLine_memOk | dsimp only | split | refine eq_memOk (by assumption) ?_)
theorem State.onRead_memOk (s : State) (id : Nat) (f : Outst → Outst) (h0 : s.MemOk) : (State.onRead s id f).MemOk := by
  unfold State.onRead
  repeat' (first | with_reducible assumption | with_reducible apply State.onCore_memOk)
theorem State.readOn_memOk (id : Nat) : ∀ (f : Nat) (s : State), s.MemOk → (s.readOn id f).MemOk
  | 0, _, h => h
  | f + 1, s, h => by
    have ih := fun (u : State) (hu : u.MemOk) => State.readOn_memOk id f u hu
    unfold State.readOn
    repeat' (first | with_reducible apply ih | with_reducible assumption | (lift_lets; intro t; apply have_memOk (t := t); on_goal 1 => subst t) | with_reducible apply State.onRead_memOk | with_reducible apply State.sendReq_memOk | with_reducible apply State.tuXlate_memOk | dsimp only | split | refine eq_memOk (by assumption) ?_ | intro _)
theorem State.workDevices_memOk (s : State) (h0 : s.MemOk) : (State.workDevices s).MemOk := by
  unfold State.workDevices
  repeat' (first | with_reducible assumption | with_reducible apply State.readOn_memOk | with_reducible apply foldl_memOk | intro _)
theorem State.startRead_memOk (s : State) (e : QEnt) (d : Dest) (load : Bool) (h0 : s.MemOk) : (State.startRead s e d load).MemOk := by
  unfold State.startRead
  repeat' (first | with_reducible assumption | with_reducible apply State.addOutst_memOk | with_reducible apply State.readOn_memOk)
theorem State.headBytes_memOk (s : State) (e : QEnt) (h0 : s.MemOk) : (State.headBytes s e).1.MemOk := by
  unfold State.headBytes
  repeat' (first | with_reducible assumption | with_reducible apply State.startRead_memOk | dsimp only | split)
theorem State.setHead_memOk (s : State) (e : QEnt) (h0 : s.MemOk) : (State.setHead s e).MemOk := by
  unfold State.setHead
  repeat' (first | with_reducible assumption | with_reducible apply State.onCore_memOk)
theorem State.setBoth_memOk (s : State) (e : QEnt) (h0 : s.MemOk) : (State.setBoth s e).MemOk := by
  unfold State.setBoth
  repeat' (first | with_reducible assumption | with_reducible apply State.onCore_memOk | with_reducible apply State.setHead_memOk)
theorem State.performDevice_memOk (s : State) (e : QEnt) (d : Dest) (h0 : s.MemOk) : (State.performDevice s e d).1.MemOk := by
  unfold State.performDevice
  repeat' (first | with_reducible assumption | with_reducible apply State.tuXlate_memOk | with_reducible apply State.startRead_memOk | with_reducible apply State.setBoth_memOk | dsimp only | split | refine eq_memOk (by assumption) ?_)
theorem State.startCmd_memOk (s : State) (e : QEnt) (tilesW : Bool) (tiles : List Nat) (put : Option PutCap) (fail : Option Trap) (h0 : s.MemOk) : (State.startCmd s e tilesW tiles put fail).1.MemOk := by
  unfold State.startCmd
  repeat' (first | with_reducible assumption | (lift_lets; intro t; apply have_memOk (t := t); on_goal 1 => subst t) | with_reducible apply State.fresh_memOk | with_reducible apply State.takeSlack_memOk | (unfold State.MemOk; dsimp only; change State.MemOk _))
theorem State.performPut_memOk (s : State) (e : QEnt) (sc : Scope) (h0 : s.MemOk) : (s.performPut e sc).1.MemOk := by
  unfold State.performPut
  have hb := State.headBytes_memOk s e h0
  generalize s.headBytes e = w at hb ⊢
  obtain ⟨u, r⟩ := w
  have hg : ∀ (v : State) (p : PutCap), v.MemOk → (if sc = .sys && p.handler.isSome && !v.released e.handle .sys then (v, false) else v.startCmd e false [] (some p) none).1.MemOk := fun v p hv => by
    split
    · exact hv
    · exact State.startCmd_memOk _ _ _ _ _ _ hv
  repeat' (first | with_reducible assumption | with_reducible apply State.startCmd_memOk | with_reducible apply State.tuXlate_memOk | with_reducible apply hg | dsimp only | split | refine eq_memOk (by assumption) ?_)
theorem State.startCkpt_memOk (s : State) (e : QEnt) (h0 : s.MemOk) : (State.startCkpt s e).1.MemOk := by
  unfold State.startCkpt
  repeat' (first | with_reducible assumption | (lift_lets; intro t; apply have_memOk (t := t); on_goal 1 => subst t) | with_reducible apply State.onSched_memOk | with_reducible apply State.startCmd_memOk | dsimp only | split)
theorem State.postFrom_memOk (s : State) (e : QEnt) (h0 : s.MemOk) : (State.postFrom s e).MemOk := by
  unfold State.postFrom
  repeat' (first | with_reducible assumption | with_reducible apply State.post_memOk | with_reducible apply State.entryReport_memOk | split)
theorem State.raiseFrom_memOk (s : State) (e : QEnt) (n : Nat) (h0 : s.MemOk) : (State.raiseFrom s e n).1.MemOk := by
  unfold State.raiseFrom
  repeat' (first | with_reducible assumption | with_reducible apply State.raiseExpect_memOk | with_reducible apply State.entryReport_memOk | dsimp only | split | refine eq_memOk (by assumption) ?_)
theorem State.performJraise_memOk (s : State) (e : QEnt) (h0 : s.MemOk) : (State.performJraise s e).1.MemOk := by
  unfold State.performJraise
  repeat' (first | with_reducible assumption | with_reducible apply State.raiseFrom_memOk)
theorem State.performDone_memOk (s : State) (e : QEnt) (h0 : s.MemOk) : (State.performDone s e).1.MemOk := by
  unfold State.performDone
  repeat' (first | with_reducible assumption | (lift_lets; intro t; apply have_memOk (t := t); on_goal 1 => subst t) | with_reducible apply State.handlerDone_memOk | with_reducible apply State.postFrom_memOk | dsimp only | split | intro _)
theorem State.performCpost_memOk (s : State) (e : QEnt) (sc : Scope) (h0 : s.MemOk) : (State.performCpost s e sc).1.MemOk := by
  unfold State.performCpost
  repeat' (first | with_reducible assumption | with_reducible apply State.sendReq_memOk | with_reducible apply State.performAccess_memOk | with_reducible apply State.failEntry_memOk | with_reducible apply State.sourceOf_memOk | with_reducible apply State.storeLine_memOk | with_reducible apply State.setHead_memOk | with_reducible apply State.postFrom_memOk | dsimp only | split | refine eq_memOk (by assumption) ?_)
theorem State.commitFrom_memOk (e : QEnt) : ∀ (x0 : List (Nat × (BitVec 64 ⊕ List (BitVec 8)))) (x1 : Nat) (s : State), s.MemOk → (s.commitFrom e x0 x1).1.MemOk
  | [], _, s, h => by
    unfold State.commitFrom
    repeat' (first | with_reducible assumption)
  | (va, act) :: r, k, s, h => by
    have ih := fun (y1 : Nat) (u : State) (hu : u.MemOk) => State.commitFrom_memOk e r y1 u hu
    unfold State.commitFrom
    repeat' (first | with_reducible apply ih | with_reducible assumption | with_reducible apply State.sendReq_memOk | with_reducible apply State.performAccess_memOk | with_reducible apply State.sourceOf_memOk | with_reducible apply State.storeLine_memOk | dsimp only | split | refine eq_memOk (by assumption) ?_)
theorem State.performCommit_memOk (s : State) (e : QEnt) (h0 : s.MemOk) : (s.performCommit e).1.MemOk := by
  unfold State.performCommit
  have hb := State.headBytes_memOk s e h0
  generalize s.headBytes e = w at hb ⊢
  obtain ⟨u, r⟩ := w
  repeat' (first | with_reducible assumption | with_reducible apply State.commitFrom_memOk | with_reducible apply State.failEntry_memOk | with_reducible apply State.setHead_memOk | dsimp only | split | refine eq_memOk (by assumption) ?_)
theorem State.effNow_memOk (s : State) (e : Eff) (h0 : s.MemOk) : (State.effNow s e).MemOk := by
  unfold State.effNow
  repeat' (first | with_reducible assumption | with_reducible apply State.onCore_memOk)
theorem State.performBarr_memOk (s : State) (e : QEnt) (n : BitVec 6) (remote : Bool) (h0 : s.MemOk) : (State.performBarr s e n remote).1.MemOk := by
  unfold State.performBarr
  repeat' (first | with_reducible assumption | with_reducible apply State.arrive_memOk | with_reducible apply State.sendCrit_memOk | with_reducible apply State.effNow_memOk | dsimp only | split)
theorem State.performRverd_memOk (s : State) (e : QEnt) (v : BitVec 2) (h0 : s.MemOk) : (State.performRverd s e v).1.MemOk := by
  unfold State.performRverd
  repeat' (first | with_reducible assumption | (lift_lets; intro t; apply have_memOk (t := t); on_goal 1 => subst t) | with_reducible apply State.toTraps_memOk | with_reducible apply State.stageError_memOk | with_reducible apply State.onPlace_memOk | with_reducible apply State.effNow_memOk | dsimp only | split)
theorem State.performTlbinv_memOk (s : State) (e : QEnt) (k : BitVec 2) (h0 : s.MemOk) : (State.performTlbinv s e k).1.MemOk := by
  unfold State.performTlbinv
  repeat' (first | with_reducible assumption | (lift_lets; intro t; apply have_memOk (t := t); on_goal 1 => subst t) | with_reducible apply State.onXl_memOk | with_reducible apply State.staleWalks_memOk | with_reducible apply State.setBoth_memOk | dsimp only | split)
theorem State.perform_memOk (s : State) (e : QEnt) (h0 : s.MemOk) : (s.perform e).1.MemOk := by
  unfold State.perform
  generalize e.i = i
  cases i
  all_goals
    dsimp only
    repeat' (first | with_reducible assumption | with_reducible apply State.performLoad_memOk | with_reducible apply State.performStore_memOk | with_reducible apply State.dropL1_memOk | with_reducible apply State.startCmd_memOk | with_reducible apply State.performPut_memOk | with_reducible apply State.performBarr_memOk | with_reducible apply State.performDone_memOk | with_reducible apply State.performJraise_memOk | with_reducible apply State.performCpost_memOk | with_reducible apply State.performDevice_memOk | with_reducible apply State.performCommit_memOk | with_reducible apply State.performRverd_memOk | with_reducible apply State.performTlbinv_memOk | with_reducible apply State.onSched_memOk | with_reducible apply State.startCkpt_memOk | with_reducible apply State.performAtomic_memOk | split)
theorem State.leaveQueue_memOk (s : State) (e : QEnt) (store : Bool) (h0 : s.MemOk) : (State.leaveQueue s e store).MemOk := by
  unfold State.leaveQueue
  repeat' (first | with_reducible assumption | with_reducible apply State.onCore_memOk)
theorem execQueueEntryPerform_memOk (store : Bool) (s : State) (h0 : s.MemOk) : OutOk (execQueueEntryPerform store s) := by
  unfold execQueueEntryPerform
  repeat' (first | with_reducible assumption | with_reducible apply State.perform_memOk | with_reducible apply State.leaveQueue_memOk | with_reducible apply next_memOk | dsimp only | split)
theorem State.performSpawn_memOk (s : State) (e : QEnt) (f : SpawnF) (h0 : s.MemOk) : (State.performSpawn s e f).1.MemOk := by
  unfold State.performSpawn
  repeat' (first | with_reducible assumption | with_reducible apply State.create_memOk | with_reducible apply State.sendReq_memOk | with_reducible apply State.entryReport_memOk | with_reducible apply State.headBytes_memOk | with_reducible apply State.setHead_memOk | with_reducible apply State.raiseFrom_memOk | dsimp only | split | refine eq_memOk (by assumption) ?_)
theorem execSpawnEnqueue_memOk (s : State) (h0 : s.MemOk) : OutOk (execSpawnEnqueue s) := by
  unfold execSpawnEnqueue
  repeat' (first | with_reducible assumption | with_reducible apply State.leaveQueue_memOk | with_reducible apply State.performSpawn_memOk | with_reducible apply next_memOk | dsimp only | split)
theorem State.admitRecord_memOk (s : State) (e : QEnt) (set : Nat) (r : Except Trap (List (BitVec 8))) (h0 : s.MemOk) : (State.admitRecord s e set r).MemOk := by
  unfold State.admitRecord
  repeat' (first | with_reducible assumption | with_reducible apply State.onTset_memOk | with_reducible apply State.onPlace_memOk | with_reducible apply State.entryReport_memOk | dsimp only | split)
theorem execRecordAdmission_memOk (id : Nat) (s : State) (h0 : s.MemOk) : OutOk (execRecordAdmission id s) := by
  unfold execRecordAdmission
  repeat' (first | with_reducible assumption | with_reducible apply State.headBytes_memOk | with_reducible apply State.leaveQueue_memOk | with_reducible apply State.admitRecord_memOk | with_reducible apply next_memOk | split | refine eq_memOk (by assumption) ?_)
theorem State.landStream_memOk (s : State) (n : BitVec 5) (jcb v : Nat) (h0 : s.MemOk) : (State.landStream s n jcb v).MemOk := by
  unfold State.landStream
  repeat' (first | with_reducible assumption | with_reducible apply State.wst_memOk)
theorem State.loadEff_memOk (s : State) (id : Nat) (e : Eff) (h0 : s.MemOk) : (State.loadEff s id e).MemOk := by
  unfold State.loadEff
  repeat' (first | with_reducible assumption | with_reducible apply State.onCore_memOk)
theorem State.landLoad_memOk (s : State) (o : Outst) (h0 : s.MemOk) : (State.landLoad s o).MemOk := by
  unfold State.landLoad
  repeat' (first | with_reducible assumption | with_reducible apply State.wsq_memOk | with_reducible apply State.onTset_memOk | with_reducible apply State.onVslot_memOk | with_reducible apply State.landStream_memOk | with_reducible apply State.loadEff_memOk | dsimp only | split)
theorem execOffCoreLoadResponse_memOk (id : Nat) (s : State) (h0 : s.MemOk) : OutOk (execOffCoreLoadResponse id s) := by
  unfold execOffCoreLoadResponse
  repeat' (first | with_reducible assumption | (lift_lets; intro t; apply have_memOk (t := t); on_goal 1 => subst t) | with_reducible apply State.onCore_memOk | with_reducible apply State.dropL1_memOk | with_reducible apply State.landLoad_memOk | with_reducible apply next_memOk | dsimp only | split | intro _)
theorem execOffCoreFaultReport_memOk (id : Nat) (s : State) (h0 : s.MemOk) : OutOk (execOffCoreFaultReport id s) := by
  unfold execOffCoreFaultReport
  repeat' (first | with_reducible assumption | with_reducible apply State.onCore_memOk | with_reducible apply State.onTset_memOk | with_reducible apply State.onVslot_memOk | with_reducible apply State.report_memOk | with_reducible apply next_memOk | dsimp only | split)
theorem State.writePieces_memOk (asid base : Nat) : ∀ (l : List (Nat × List (BitVec 8))) (s : State), s.MemOk → (s.writePieces asid base l).1.MemOk
  | [], _, h => h
  | (o, b) :: r, s, h => by
    have k := State.wrVirt_memOk s s.die asid (base + o) b h
    unfold State.writePieces
    split
    · rename_i e
      rw [e] at k
      exact State.writePieces_memOk asid base r _ k
    · rename_i e
      rw [e] at k
      exact k
theorem State.fetchGate_memOk (s : State) (h0 : s.MemOk) : (State.fetchGate s).MemOk := by
  unfold State.fetchGate
  repeat' (first | with_reducible assumption | with_reducible apply State.onCore_memOk | with_reducible apply State.tuXlate_memOk | with_reducible apply foldl_memOk | with_reducible apply foldl_fst_memOk | dsimp only | split | exact fun _ h => h | intro _)
theorem State.fillCode_memOk (s : State) (n : Nat) (h0 : s.MemOk) : (State.fillCode s n).MemOk := by
  unfold State.fillCode
  repeat' (first | with_reducible assumption | with_reducible apply State.onCore_memOk | (unfold State.MemOk; dsimp only; change State.MemOk _) | with_reducible apply foldl_memOk | split | intro _)
theorem State.takeBoundary_memOk (s : State) (t : Trap) (h0 : s.MemOk) : (State.takeBoundary s t).MemOk := by
  unfold State.takeBoundary
  repeat' (first | with_reducible assumption | with_reducible apply State.onIss_memOk | with_reducible apply State.onCont_memOk | with_reducible apply State.takeTrap_memOk | split)
theorem State.leave_memOk (s : State) (why : Nat) (atSafe : Bool) (h0 : s.MemOk) : (State.leave s why atSafe).MemOk := by
  unfold State.leave
  repeat' (first | with_reducible assumption | (lift_lets; intro t; apply have_memOk (t := t); on_goal 1 => subst t) | with_reducible apply State.onIss_memOk | with_reducible apply State.onCont_memOk | with_reducible apply State.setMode_memOk | split | intro _)
theorem execBudgetExhausted_memOk (s : State) (h0 : s.MemOk) : OutOk (execBudgetExhausted s) := by
  unfold execBudgetExhausted
  repeat' (first | with_reducible assumption | with_reducible apply State.onIss_memOk | with_reducible apply State.takeBoundary_memOk | with_reducible apply next_memOk | (unfold State.MemOk; dsimp only; change State.MemOk _) | split)
theorem execSafePoint_memOk (s : State) (h0 : s.MemOk) : OutOk (execSafePoint s) := by
  unfold execSafePoint
  repeat' (first | with_reducible assumption | with_reducible apply State.takeBoundary_memOk | with_reducible apply State.leave_memOk | with_reducible apply next_memOk | (unfold State.MemOk; dsimp only; change State.MemOk _) | split)
theorem execSafepointOverdue_memOk (s : State) (h0 : s.MemOk) : OutOk (execSafepointOverdue s) := by
  unfold execSafepointOverdue
  repeat' (first | with_reducible assumption | with_reducible apply State.takeBoundary_memOk | with_reducible apply next_memOk | split)
theorem State.arm_memOk (s : State) (ws : List (BitVec 32)) (p : Plan) (h0 : s.MemOk) : (State.arm s ws p).MemOk := by
  unfold State.arm
  repeat' (first | with_reducible assumption | with_reducible apply State.onCore_memOk)
theorem execRepetitionIssue_memOk (s : State) (h0 : s.MemOk) : OutOk (execRepetitionIssue s) := by
  unfold execRepetitionIssue
  repeat' (first | with_reducible assumption | with_reducible apply State.fillCode_memOk | with_reducible apply State.takeBoundary_memOk | with_reducible apply State.arm_memOk | with_reducible apply next_memOk | dsimp only | split)
theorem State.waitUpdate_memOk (s : State) (w : Wait) (h0 : s.MemOk) : (State.waitUpdate s w).MemOk := by
  unfold State.waitUpdate
  repeat' (first | with_reducible assumption | with_reducible apply State.wh_memOk | split)
theorem execWaitConditionMet_memOk (s : State) (h0 : s.MemOk) : OutOk (execWaitConditionMet s) := by
  unfold execWaitConditionMet
  repeat' (first | with_reducible assumption | (lift_lets; intro t; apply have_memOk (t := t); on_goal 1 => subst t) | with_reducible apply State.onCont_memOk | with_reducible apply State.dropL1_memOk | with_reducible apply State.setMode_memOk | with_reducible apply State.waitUpdate_memOk | with_reducible apply next_memOk | dsimp only | split)
theorem execWaitTimeout_memOk (s : State) (h0 : s.MemOk) : OutOk (execWaitTimeout s) := by
  unfold execWaitTimeout
  repeat' (first | with_reducible assumption | with_reducible apply State.onIss_memOk | with_reducible apply State.setMode_memOk | with_reducible apply State.takeBoundary_memOk | with_reducible apply next_memOk | dsimp only | split)
theorem State.handTrap_memOk (s : State) (key : Nat) (sslot : Option Nat) (h0 : s.MemOk) : (State.handTrap s key sslot).MemOk := by
  unfold State.handTrap
  repeat' (first | with_reducible assumption | with_reducible apply State.onCont_memOk | with_reducible apply State.toTraps_memOk | split)
theorem State.toRecord_memOk (s : State) (h0 : s.MemOk) : (State.toRecord s).MemOk := by
  unfold State.toRecord
  repeat' (first | with_reducible assumption | with_reducible apply State.onCont_memOk)
theorem State.vacate_memOk (s : State) (h0 : s.MemOk) : (State.vacate s).MemOk := by
  unfold State.vacate
  repeat' (first | with_reducible assumption | with_reducible apply State.onCore_memOk)
theorem State.saveFails_memOk (s : State) (why : Nat) (t : Trap) (h0 : s.MemOk) : (State.saveFails s why t).MemOk := by
  unfold State.saveFails
  repeat' (first | with_reducible assumption | (lift_lets; intro t; apply have_memOk (t := t); on_goal 1 => subst t) | with_reducible apply State.onCont_memOk | with_reducible apply State.deferReports_memOk | with_reducible apply State.handTrap_memOk | with_reducible apply State.toRecord_memOk | with_reducible apply State.vacate_memOk | dsimp only | split)
theorem execSave_memOk (s : State) (h0 : s.MemOk) : OutOk (execSave s) := by
  unfold execSave
  repeat' (first | with_reducible assumption | (lift_lets; intro t; apply have_memOk (t := t); on_goal 1 => subst t) | with_reducible apply State.onCont_memOk | with_reducible apply State.nextSeq_memOk | with_reducible apply State.enqueue_memOk | with_reducible apply State.writePieces_memOk | with_reducible apply State.handTrap_memOk | with_reducible apply State.toRecord_memOk | with_reducible apply State.vacate_memOk | with_reducible apply State.saveFails_memOk | with_reducible apply next_memOk | dsimp only | split | refine eq_memOk (by assumption) ?_)
theorem State.settleStop_memOk (s : State) (h0 : s.MemOk) : (State.settleStop s).MemOk := by
  unfold State.settleStop
  repeat' (first | with_reducible assumption | with_reducible apply State.onCore_memOk | with_reducible apply State.onIss_memOk | with_reducible apply State.release_memOk | with_reducible apply State.endCont_memOk | with_reducible apply State.setMode_memOk | with_reducible apply State.deferReports_memOk | with_reducible apply State.handTrap_memOk | with_reducible apply State.toRecord_memOk | with_reducible apply State.vacate_memOk | (unfold State.MemOk; dsimp only; change State.MemOk _) | split)
theorem State.pushTo_memOk (s : State) (kind pusher die q : Nat) (p : BitVec 512) (h0 : s.MemOk) : (State.pushTo s kind pusher die q p).1.MemOk := by
  unfold State.pushTo
  repeat' (first | with_reducible assumption | with_reducible apply State.onSched_memOk | (unfold State.MemOk; dsimp only; change State.MemOk _) | split)
theorem State.createAt_memOk (s : State) (die seq : Nat) (c : Cont) (h0 : s.MemOk) : (State.createAt s die seq c).1.MemOk := by
  unfold State.createAt
  repeat' (first | with_reducible assumption | (lift_lets; intro t; apply have_memOk (t := t); on_goal 1 => subst t) | with_reducible apply State.onSched_memOk | with_reducible apply State.giveJtag_memOk | with_reducible apply State.setCont_memOk | dsimp only | intro _)
theorem State.createGang_memOk (s : State) (die : Nat) (p : BitVec 512) (i seq : Nat) (h0 : s.MemOk) : (State.createGang s die p i seq).MemOk := by
  unfold State.createGang
  repeat' (first | with_reducible assumption | with_reducible apply State.onSched_memOk | with_reducible apply State.fresh_memOk | with_reducible apply State.insertReady_memOk | with_reducible apply State.createAt_memOk | (unfold State.MemOk; dsimp only; change State.MemOk _) | with_reducible apply foldl_fst_memOk | split | intro _)
theorem State.lowerPending_memOk (s : State) (j : Nat) (h0 : s.MemOk) : (State.lowerPending s j).MemOk := by
  unfold State.lowerPending
  repeat' (first | with_reducible assumption | with_reducible apply State.wr_memOk)
theorem State.setStatus_memOk (s : State) (j cause : Nat) (h0 : s.MemOk) : (State.setStatus s j cause).MemOk := by
  unfold State.setStatus
  repeat' (first | with_reducible assumption | with_reducible apply State.wr_memOk | split)
theorem State.reserveSeq_memOk (s : State) (die n : Nat) (h0 : s.MemOk) : (State.reserveSeq s die n).1.MemOk := by
  unfold State.reserveSeq
  repeat' (first | with_reducible assumption | with_reducible apply State.onSched_memOk)
theorem State.expand_memOk (s : State) (die : Nat) (p : BitVec 512) (h0 : s.MemOk) : (State.expand s die p).MemOk := by
  unfold State.expand
  repeat' (first | with_reducible assumption | with_reducible apply State.wr_memOk | with_reducible apply State.giveJtag_memOk | with_reducible apply State.insertReady_memOk | with_reducible apply State.judgeJob_memOk | with_reducible apply State.createGang_memOk | with_reducible apply State.lowerPending_memOk | with_reducible apply State.setStatus_memOk | with_reducible apply State.reserveSeq_memOk | (unfold State.MemOk; dsimp only; change State.MemOk _) | split)
theorem execPacketExpansion_memOk (die : Nat) (s : State) (h0 : s.MemOk) : OutOk (execPacketExpansion die s) := by
  unfold execPacketExpansion
  repeat' (first | with_reducible assumption | with_reducible apply State.onSched_memOk | with_reducible apply State.expand_memOk | with_reducible apply next_memOk | split)
theorem State.loadLayout_memOk (s : State) (die jcb : Nat) (h0 : s.MemOk) : (State.loadLayout s die jcb).1.MemOk := by
  unfold State.loadLayout
  repeat' (first | with_reducible assumption | (unfold State.MemOk; dsimp only; change State.MemOk _) | split)
theorem State.failStart_memOk (s : State) (key : Nat) (t : Trap) (h0 : s.MemOk) : (State.failStart s key t).MemOk := by
  unfold State.failStart
  repeat' (first | with_reducible assumption | with_reducible apply State.onCont_memOk | with_reducible apply State.toTraps_memOk | with_reducible apply State.deferReports_memOk | split)
theorem State.seat_memOk (s : State) (key cid : Nat) (c : Cont) (ctx : Ctx) (rep delay load : Nat) (h0 : s.MemOk) : (State.seat s key cid c ctx rep delay load).MemOk := by
  unfold State.seat
  repeat' (first | with_reducible assumption | (lift_lets; intro t; apply have_memOk (t := t); on_goal 1 => subst t) | with_reducible apply State.onCoreAt_memOk | with_reducible apply State.onCont_memOk | with_reducible apply State.dropL1_memOk | dsimp only | split | exact fun _ h => h | intro _)
theorem State.startOn_memOk (s : State) (key cid delay : Nat) (h0 : s.MemOk) : (State.startOn s key cid delay).MemOk := by
  unfold State.startOn
  repeat' (first | with_reducible assumption | (lift_lets; intro t; apply have_memOk (t := t); on_goal 1 => subst t) | with_reducible apply State.onSched_memOk | with_reducible apply State.focus_memOk | with_reducible apply State.onCont_memOk | with_reducible apply State.tilesTake_memOk | with_reducible apply State.padRecord_memOk | with_reducible apply State.loadLayout_memOk | with_reducible apply State.failStart_memOk | with_reducible apply State.seat_memOk | with_reducible apply foldl_memOk | dsimp only | split | refine eq_memOk (by assumption) ?_ | exact fun _ h => h | intro _)
theorem State.refillLevel_memOk (s : State) (die : Nat) (lo up : Level) (could : Ready → Bool) (h0 : s.MemOk) : (State.refillLevel s die lo up could).MemOk := by
  unfold State.refillLevel
  repeat' (first | with_reducible assumption | with_reducible apply State.onSched_memOk | (unfold State.MemOk; dsimp only; change State.MemOk _) | split)
theorem State.refill_memOk (s : State) (die : Nat) (h0 : s.MemOk) : (s.refill die).MemOk :=
  foldl_memOk (foldl_memOk h0 fun s _ h => State.refillLevel_memOk s _ _ _ _ h) fun s _ h => State.refillLevel_memOk s _ _ _ _ h
theorem State.take_memOk (s : State) (r : Ready) (cid : Nat) (h0 : s.MemOk) : (State.take s r cid).MemOk := by
  unfold State.take
  repeat' (first | with_reducible assumption | with_reducible apply State.onSched_memOk | with_reducible apply State.createAt_memOk | with_reducible apply State.failStart_memOk | with_reducible apply State.startOn_memOk | with_reducible apply State.refill_memOk | (unfold State.MemOk; dsimp only; change State.MemOk _) | split)
theorem State.dispatchCore_memOk (s : State) (cid : Nat) (h0 : s.MemOk) : (State.dispatchCore s cid).MemOk := by
  unfold State.dispatchCore
  repeat' (first | with_reducible assumption | with_reducible apply State.take_memOk | split)
theorem State.dropMarks_memOk (s : State) (die : Nat) (h0 : s.MemOk) : (State.dropMarks s die).MemOk := by
  unfold State.dropMarks
  repeat' (first | with_reducible assumption | with_reducible apply State.onSched_memOk | with_reducible apply State.onCont_memOk | with_reducible apply foldl_memOk | split | intro _)
theorem State.markFor_memOk (s : State) (key m : Nat) (h0 : s.MemOk) : (State.markFor s key m).MemOk := by
  unfold State.markFor
  repeat' (first | with_reducible assumption | with_reducible apply State.onSched_memOk | with_reducible apply State.onCont_memOk | with_reducible apply foldl_memOk | dsimp only | split | intro _)
theorem State.markDie_memOk (s : State) (die : Nat) (h0 : s.MemOk) : (State.markDie s die).MemOk := by
  unfold State.markDie
  repeat' (first | with_reducible assumption | with_reducible apply State.markFor_memOk | with_reducible apply foldl_memOk | split | intro _)
theorem execDispatch_memOk (s : State) (h0 : s.MemOk) : OutOk (execDispatch s) := by
  unfold execDispatch
  repeat' (first | with_reducible assumption | with_reducible apply State.refill_memOk | with_reducible apply State.dispatchCore_memOk | with_reducible apply State.dropMarks_memOk | with_reducible apply State.markDie_memOk | with_reducible apply next_memOk | with_reducible apply foldl_memOk | with_reducible apply foldl_fst_memOk | dsimp only | split | exact fun _ h => h | intro _)
theorem State.onGang_memOk (s : State) (g : Nat) (f : Gang → Gang) (h0 : s.MemOk) : (State.onGang s g f).MemOk := by
  unfold State.onGang
  repeat' (first | with_reducible assumption | with_reducible apply State.onSched_memOk)
theorem execGangClaim_memOk (gang : Nat) (s : State) (h0 : s.MemOk) : OutOk (execGangClaim gang s) := by
  unfold execGangClaim
  repeat' (first | with_reducible assumption | with_reducible apply State.onSched_memOk | with_reducible apply State.createGang_memOk | with_reducible apply State.onGang_memOk | with_reducible apply next_memOk | (unfold State.MemOk; dsimp only; change State.MemOk _) | split)
theorem State.setPipe_memOk (s : State) (g : Gang) (p : Pipe) (h0 : s.MemOk) : (State.setPipe s g p).MemOk := by
  unfold State.setPipe
  repeat' (first | with_reducible assumption | with_reducible apply State.onCoreAt_memOk | dsimp only | split)
theorem State.startMembers_memOk (s : State) (l : List (Nat × Nat)) (h0 : s.MemOk) : (State.startMembers s l).MemOk := by
  unfold State.startMembers
  repeat' (first | with_reducible assumption | with_reducible apply State.startOn_memOk | with_reducible apply foldl_memOk | intro _)
theorem execGangAdmission_memOk (gang : Nat) (s : State) (h0 : s.MemOk) : OutOk (execGangAdmission gang s) := by
  unfold execGangAdmission
  repeat' (first | with_reducible assumption | with_reducible apply State.onGang_memOk | with_reducible apply State.setPipe_memOk | with_reducible apply State.startMembers_memOk | with_reducible apply next_memOk | with_reducible apply foldl_memOk | split | intro _)
theorem execGangResume_memOk (gang : Nat) (s : State) (h0 : s.MemOk) : OutOk (execGangResume gang s) := by
  unfold execGangResume
  repeat' (first | with_reducible assumption | with_reducible apply State.onGang_memOk | with_reducible apply State.startMembers_memOk | with_reducible apply next_memOk | dsimp only | split)
theorem State.gangStates_memOk (s : State) (h0 : s.MemOk) : (State.gangStates s).MemOk := by
  unfold State.gangStates
  repeat' (first | with_reducible assumption | with_reducible apply State.onSched_memOk)
theorem execTrapRecordClaim_memOk (s : State) (h0 : s.MemOk) : OutOk (execTrapRecordClaim s) := by
  unfold execTrapRecordClaim
  repeat' (first | with_reducible assumption | with_reducible apply State.onSched_memOk | with_reducible apply State.claimRecord_memOk | with_reducible apply next_memOk | with_reducible apply foldl_memOk)
theorem State.secondRecord_memOk (s : State) (key : Nat) (h0 : s.MemOk) : (State.secondRecord s key).MemOk := by
  unfold State.secondRecord
  repeat' (first | with_reducible assumption | with_reducible apply State.toTraps_memOk | split)
theorem execResume_memOk (handle : Nat) (s : State) (h0 : s.MemOk) : OutOk (execResume handle s) := by
  unfold execResume
  repeat' (first | with_reducible assumption | with_reducible apply State.resumeCont_memOk | with_reducible apply next_memOk | split)
theorem execFault_memOk (handle : Nat) (s : State) (h0 : s.MemOk) : OutOk (execFault handle s) := by
  unfold execFault
  repeat' (first | with_reducible assumption | with_reducible apply State.faultCont_memOk | with_reducible apply State.deferReports_memOk | with_reducible apply State.secondRecord_memOk | with_reducible apply next_memOk | split)
theorem execEndTrapped_memOk (handle : Nat) (s : State) (h0 : s.MemOk) : OutOk (execEndTrapped handle s) := by
  unfold execEndTrapped
  repeat' (first | with_reducible assumption | with_reducible apply State.endCont_memOk | with_reducible apply State.deferReports_memOk | with_reducible apply next_memOk | split)
theorem execEndPost_memOk (handle : Nat) (s : State) (h0 : s.MemOk) : OutOk (execEndPost handle s) := by
  unfold execEndPost
  repeat' (first | with_reducible assumption | with_reducible apply State.endCont_memOk | with_reducible apply State.deferReports_memOk | with_reducible apply next_memOk | split)
theorem State.stopResident_memOk (s : State) (jcb cid : Nat) (h0 : s.MemOk) : (State.stopResident s jcb cid).MemOk := by
  unfold State.stopResident
  repeat' (first | with_reducible assumption | with_reducible apply State.onCoreAt_memOk | (unfold State.MemOk; dsimp only; change State.MemOk _) | split)
theorem execJobCompletion_memOk (jcb : Nat) (s : State) (h0 : s.MemOk) : OutOk (execJobCompletion jcb s) := by
  unfold execJobCompletion
  repeat' (first | with_reducible assumption | (lift_lets; intro t; apply have_memOk (t := t); on_goal 1 => subst t) | with_reducible apply State.onSched_memOk | with_reducible apply State.release_memOk | with_reducible apply State.stopResident_memOk | with_reducible apply next_memOk | (unfold State.MemOk; dsimp only; change State.MemOk _) | with_reducible apply foldl_memOk | with_reducible apply foldl_fst_memOk | dsimp only | split | with_reducible apply elim_memOk | exact fun _ h => h | intro _)
theorem State.freeJob_memOk (s : State) (jcb : Nat) (h0 : s.MemOk) : (State.freeJob s jcb).MemOk := by
  unfold State.freeJob
  repeat' (first | with_reducible assumption | (lift_lets; intro t; apply have_memOk (t := t); on_goal 1 => subst t) | with_reducible apply State.wrVirt_memOk | with_reducible apply State.onSched_memOk | with_reducible apply State.onFab_memOk | with_reducible apply State.onCoreAt_memOk | (unfold State.MemOk; dsimp only; change State.MemOk _) | with_reducible apply foldl_memOk | dsimp only | split | intro _)
theorem execCompletionSignal_memOk (jcb : Nat) (s : State) (h0 : s.MemOk) : OutOk (execCompletionSignal jcb s) := by
  unfold execCompletionSignal
  refine next_memOk ?_
  split
  · exact h0
  · exact State.onSched_memOk _ _ (State.wrVirt_memOk _ _ _ _ _ (State.wr_memOk _ _ _ _ (State.wr_memOk _ _ _ _ (State.freeJob_memOk _ _ h0))))
theorem State.chooseStage_memOk (s : State) (die set idx : Nat) (p : Place) (h0 : s.MemOk) : (State.chooseStage s die set idx p).1.MemOk := by
  unfold State.chooseStage
  repeat' (first | with_reducible assumption | with_reducible apply State.onTset_memOk | with_reducible apply State.onPlace_memOk | (unfold State.MemOk; dsimp only; change State.MemOk _) | split)
theorem State.failHandoff_memOk (s : State) (die set idx stage jcb : Nat) (p : Place) (h0 : s.MemOk) : (State.failHandoff s die set idx stage jcb p).MemOk := by
  unfold State.failHandoff
  repeat' (first | with_reducible assumption | with_reducible apply State.toTraps_memOk | with_reducible apply State.stageError_memOk)
theorem State.handOff_memOk (s : State) (die set idx stage jcb : Nat) (p : Place) (h0 : s.MemOk) : (State.handOff s die set idx stage jcb p).MemOk := by
  unfold State.handOff
  repeat' (first | with_reducible assumption | with_reducible apply State.create_memOk | with_reducible apply State.onPlace_memOk | with_reducible apply State.failHandoff_memOk | (unfold State.MemOk; dsimp only; change State.MemOk _) | split)
theorem State.routeRecord_memOk (s : State) (die set idx : Nat) (h0 : s.MemOk) : (State.routeRecord s die set idx).MemOk := by
  unfold State.routeRecord
  repeat' (first | with_reducible assumption | with_reducible apply State.chooseStage_memOk | with_reducible apply State.handOff_memOk | (unfold State.MemOk; dsimp only; change State.MemOk _) | split)
theorem State.routeAll_memOk (s : State) (h0 : s.MemOk) : (State.routeAll s).MemOk := by
  unfold State.routeAll
  repeat' (first | with_reducible assumption | with_reducible apply State.routeRecord_memOk | with_reducible apply foldl_memOk | intro _)
theorem State.recordFault_memOk (s : State) (jcb : Nat) (p : Place) (t : Trap) (h0 : s.MemOk) : (State.recordFault s jcb p t).MemOk := by
  unfold State.recordFault
  repeat' (first | with_reducible assumption | with_reducible apply State.report_memOk)
theorem State.routerWrite_memOk (s : State) (die jcb : Nat) (p : Place) (va : Nat) (k : Nat → ReqKind) (h0 : s.MemOk) : OptOk (State.routerWrite s die jcb p va k) := by
  unfold State.routerWrite
  repeat' (first | with_reducible assumption | with_reducible apply State.sendReq_memOk | with_reducible apply State.performAccess_memOk | with_reducible apply State.recordFault_memOk | with_reducible apply some_ok | with_reducible apply none_ok | split)
theorem State.commitEntry_memOk (s : State) (die jcb : Nat) (p : Place) (va : Nat) (h0 : s.MemOk) : OptOk (State.commitEntry s die jcb p va) := by
  unfold State.commitEntry
  repeat' (first | with_reducible assumption | with_reducible apply State.recordFault_memOk | with_reducible apply State.routerWrite_memOk | with_reducible apply some_ok | split)
theorem State.routerActs_memOk (die : Nat) (jcb : Nat) (p : Place) : ∀ (x0 : List (Nat ⊕ List (Nat × BitVec 8))) (x1 : Nat) (s : State), s.MemOk → (s.routerActs die jcb p x0 x1).1.MemOk
  | [], _, s, h => h
  | a :: r, n, s, h => by
    have ih := fun (y1 : Nat) (u : State) (hu : u.MemOk) => State.routerActs_memOk die jcb p r y1 u hu
    unfold State.routerActs
    repeat' (first | with_reducible apply ih | with_reducible assumption | with_reducible apply State.routerWrite_memOk | with_reducible apply State.commitEntry_memOk | split | refine opt_memOk (by assumption) ?_)
theorem State.endRecord_memOk (s : State) (die set idx jcb : Nat) (p : Place) (outcome : Nat) (h0 : s.MemOk) : (State.endRecord s die set idx jcb p outcome).MemOk := by
  unfold State.endRecord
  repeat' (first | with_reducible assumption | (lift_lets; intro t; apply have_memOk (t := t); on_goal 1 => subst t) | with_reducible apply State.arrive_memOk | with_reducible apply State.onTset_memOk | with_reducible apply State.recordFault_memOk | dsimp only | split)
theorem execRecordCompletion_memOk (set place : Nat) (s : State) (h0 : s.MemOk) : OutOk (execRecordCompletion set place s) := by
  unfold execRecordCompletion
  repeat' (first | with_reducible assumption | with_reducible apply State.onPlace_memOk | with_reducible apply State.routerActs_memOk | with_reducible apply State.endRecord_memOk | with_reducible apply next_memOk | dsimp only | split)
theorem State.freeReshard_memOk (s : State) (die jcb : Nat) (i : Instr) (h0 : s.MemOk) : (State.freeReshard s die jcb i).MemOk := by
  unfold State.freeReshard
  repeat' (first | with_reducible assumption | with_reducible apply State.onLayEnt_memOk | with_reducible apply State.onVslot_memOk | dsimp only | split)
theorem State.dropHandler_memOk (s : State) (c : Cmd) (h0 : s.MemOk) : (State.dropHandler s c).MemOk := by
  unfold State.dropHandler
  repeat' (first | with_reducible assumption | with_reducible apply State.onFab_memOk | split)
theorem State.failCmd_memOk (s : State) (id : Nat) (t : Trap) (h0 : s.MemOk) : (State.failCmd s id t).MemOk := by
  unfold State.failCmd
  repeat' (first | with_reducible assumption | with_reducible apply State.onCmd_memOk | with_reducible apply State.freeReshard_memOk | with_reducible apply State.dropHandler_memOk | dsimp only | split)
theorem State.finishCmd_memOk (s : State) (id : Nat) (h0 : s.MemOk) : (State.finishCmd s id).MemOk := by
  unfold State.finishCmd
  repeat' (first | with_reducible assumption | with_reducible apply State.onCmd_memOk)
theorem State.reportCmd_memOk (s : State) (c : Cmd) (t : Trap) (h0 : s.MemOk) : (State.reportCmd s c t).MemOk := by
  unfold State.reportCmd
  repeat' (first | with_reducible assumption | with_reducible apply State.report_memOk)
theorem State.handBack_memOk (s : State) (c : Cmd) (h0 : s.MemOk) : (State.handBack s c).MemOk := by
  unfold State.handBack
  repeat' (first | with_reducible assumption | with_reducible apply State.onCoreAt_memOk | (unfold State.MemOk; dsimp only; change State.MemOk _) | split)
theorem State.dropCmd_memOk (s : State) (id : Nat) (h0 : s.MemOk) : (State.dropCmd s id).MemOk := by
  unfold State.dropCmd
  repeat' (first | with_reducible assumption | (unfold State.MemOk; dsimp only; change State.MemOk _))
theorem State.arriveCmd_memOk (s : State) (c : Cmd) (h0 : s.MemOk) : (State.arriveCmd s c).MemOk := by
  unfold State.arriveCmd
  repeat' (first | with_reducible assumption | with_reducible apply State.arrive_memOk | with_reducible apply State.reportCmd_memOk | split)
theorem State.engHome_memOk (s : State) (c : Cmd) (k : Acc) (bulk : Bool) (va : Nat) (h0 : s.MemOk) : HomeOk (State.engHome s c k bulk va) := by
  unfold State.engHome
  repeat' (first | with_reducible assumption | with_reducible apply State.tuXlate_memOk | with_reducible apply home_at_ok | with_reducible apply home_wait_ok | with_reducible apply home_bad_ok | dsimp only | split | refine eq_memOk (by assumption) ?_)
theorem State.fetchGo_memOk (c : Cmd) (rs : List (Nat × Nat)) : ∀ (x0 : Nat) (x1 : List (BitVec 8)) (s : State), s.MemOk → WorkOk (s.fetchGo c rs x0 x1)
  | 0, _, s, h => by
    unfold State.fetchGo
    repeat' (first | with_reducible assumption | with_reducible apply State.onCmd_memOk | with_reducible apply State.sendReq_memOk | with_reducible apply State.engHome_memOk | with_reducible apply done_ok | with_reducible apply wait_ok)
  | f + 1, buf, s, h => by
    have ih := fun (y1 : List (BitVec 8)) (u : State) (hu : u.MemOk) => State.fetchGo_memOk c rs f y1 u hu
    unfold State.fetchGo
    repeat' (first | with_reducible apply ih | with_reducible assumption | (lift_lets; intro t; apply have_memOk (t := t); on_goal 1 => subst t) | with_reducible apply State.onCmd_memOk | with_reducible apply State.sendReq_memOk | with_reducible apply State.engHome_memOk | with_reducible apply done_ok | with_reducible apply wait_ok | with_reducible apply bad_ok | dsimp only | split | refine eq_memOk (by assumption) ?_ | refine at_memOk (by assumption) ?_ | refine stall_memOk (by assumption) ?_)
theorem State.engFetch_memOk (s : State) (c : Cmd) (rs : List (Nat × Nat)) (h0 : s.MemOk) : WorkOk (State.engFetch s c rs) := by
  unfold State.engFetch
  repeat' (first | with_reducible assumption | with_reducible apply State.fetchGo_memOk)
theorem State.writeGo_memOk (c : Cmd) (rs : List (Nat × Nat)) (bs : List (BitVec 8)) : ∀ (x0 : Nat) (x1 : Nat) (s : State), s.MemOk → WorkOk (s.writeGo c rs bs x0 x1)
  | 0, _, s, h => by
    unfold State.writeGo
    exact wait_ok h
  | f + 1, p, s, h => by
    have ih := fun (y1 : Nat) (u : State) (hu : u.MemOk) => State.writeGo_memOk c rs bs f y1 u hu
    unfold State.writeGo
    repeat' (first | with_reducible apply ih | with_reducible assumption | with_reducible apply State.wrBytes_memOk | with_reducible apply State.onCmd_memOk | with_reducible apply State.sendReq_memOk | with_reducible apply State.credit_memOk | with_reducible apply State.engHome_memOk | with_reducible apply done_ok | with_reducible apply wait_ok | with_reducible apply bad_ok | dsimp only | split | refine at_memOk (by assumption) ?_ | refine stall_memOk (by assumption) ?_)
theorem State.engWrite_memOk (s : State) (c : Cmd) (rs : List (Nat × Nat)) (bs : List (BitVec 8)) (h0 : s.MemOk) : WorkOk (State.engWrite s c rs bs) := by
  unfold State.engWrite
  repeat' (first | with_reducible assumption | with_reducible apply State.writeGo_memOk)
theorem Work.andThen_memOk (w : Work) (id : Nat) (f : State → State) (hw : WorkOk w) (hf : ∀ t : State, t.MemOk → (f t).MemOk) : (w.andThen id f).MemOk := by
  cases w with
  | done s => exact hf s (done_memOk rfl hw)
  | wait s => exact wait_memOk rfl hw
  | bad s t => exact State.failCmd_memOk s id t (bad_memOk rfl hw)
theorem execEngineCommandCompletion_memOk (id : Nat) (s : State) (h0 : s.MemOk) : OutOk (execEngineCommandCompletion id s) := by
  unfold execEngineCommandCompletion
  repeat' (first | with_reducible assumption | (lift_lets; intro t; apply have_memOk (t := t); on_goal 1 => subst t) | with_reducible apply State.onCmd_memOk | with_reducible apply State.handBack_memOk | with_reducible apply State.dropCmd_memOk | with_reducible apply State.arriveCmd_memOk | with_reducible apply State.engWrite_memOk | with_reducible apply Work.andThen_memOk | with_reducible apply next_memOk | dsimp only | split | refine eq_memOk (by assumption) ?_ | refine done_memOk (by assumption) ?_ | refine wait_memOk (by assumption) ?_ | refine bad_memOk (by assumption) ?_ | exact fun _ h => h)
theorem execEngineFailureReport_memOk (id : Nat) (s : State) (h0 : s.MemOk) : OutOk (execEngineFailureReport id s) := by
  unfold execEngineFailureReport
  repeat' (first | with_reducible assumption | (lift_lets; intro t; apply have_memOk (t := t); on_goal 1 => subst t) | with_reducible apply State.reportCmd_memOk | with_reducible apply State.handBack_memOk | with_reducible apply State.dropCmd_memOk | with_reducible apply next_memOk | (unfold State.MemOk; dsimp only; change State.MemOk _) | dsimp only | split | refine eq_memOk (by assumption) ?_ | exact fun _ h => h | intro _)
theorem State.copyRow_memOk (s : State) (c : Cmd) (out : Bool) (row va : Nat) (h0 : s.MemOk) : WorkOk (State.copyRow s c out row va) := by
  unfold State.copyRow
  repeat' (first | with_reducible assumption | with_reducible apply State.onCoreAt_memOk | with_reducible apply State.padRecord_memOk | with_reducible apply State.engFetch_memOk | with_reducible apply State.engWrite_memOk | with_reducible apply done_ok | with_reducible apply wait_ok | with_reducible apply bad_ok | dsimp only | split | refine eq_memOk (by assumption) ?_ | refine done_memOk (by assumption) ?_)
theorem State.stepCopy_memOk (s : State) (c : Cmd) (f : EcopyF) (row : Nat) (after : State → State) (hafter : ∀ t : State, t.MemOk → (after t).MemOk) (h0 : s.MemOk) : (State.stepCopy s c f row after).MemOk := by
  unfold State.stepCopy
  repeat' (first | with_reducible assumption | with_reducible apply State.onCmd_memOk | with_reducible apply State.finishCmd_memOk | with_reducible apply Work.andThen_memOk | with_reducible apply State.copyRow_memOk | with_reducible apply hafter | dsimp only | split | intro _)
theorem State.workCopy_memOk (s : State) (c : Cmd) (f : EcopyF) (h0 : s.MemOk) : (State.workCopy s c f).MemOk := by
  unfold State.workCopy
  repeat' (first | with_reducible assumption | with_reducible apply State.stepCopy_memOk | split | exact fun _ h => h)
theorem execRingBlockTransfer_memOk (id : Nat) (s : State) (h0 : s.MemOk) : OutOk (execRingBlockTransfer id s) := by
  unfold execRingBlockTransfer
  repeat' (first | with_reducible assumption | with_reducible apply State.onCoreAt_memOk | with_reducible apply State.stepCopy_memOk | with_reducible apply State.setOwner_memOk | with_reducible apply next_memOk | dsimp only | split | refine eq_memOk (by assumption) ?_ | exact fun _ h => h | intro _)
theorem execPipeTileCopy_memOk (gang pipe : Nat) (s : State) (h0 : s.MemOk) : OutOk (execPipeTileCopy gang pipe s) := by
  unfold execPipeTileCopy
  repeat' (first | with_reducible assumption | (lift_lets; intro t; apply have_memOk (t := t); on_goal 1 => subst t) | with_reducible apply State.onSched_memOk | with_reducible apply State.onCoreAt_memOk | with_reducible apply State.padRecord_memOk | with_reducible apply State.setOwner_memOk | with_reducible apply next_memOk | with_reducible apply foldl_memOk | with_reducible apply foldl_fst_memOk | dsimp only | split | refine eq_memOk (by assumption) ?_ | exact fun _ h => h | intro _)
theorem State.readFaces_memOk (s : State) (c : Cmd) (h0 : s.MemOk) : (State.readFaces s c).MemOk := by
  unfold State.readFaces
  repeat' (first | with_reducible assumption | (lift_lets; intro t; apply have_memOk (t := t); on_goal 1 => subst t) | with_reducible apply State.fresh_memOk | with_reducible apply State.onCmd_memOk | with_reducible apply State.padRecord_memOk | (unfold State.MemOk; dsimp only; change State.MemOk _) | with_reducible apply foldl_memOk | with_reducible apply foldl_fst_memOk | dsimp only | split | refine eq_memOk (by assumption) ?_ | exact fun _ h => h | intro _)
theorem State.sendFaces_memOk (s : State) (c : Cmd) (h0 : s.MemOk) : (State.sendFaces s c).MemOk := by
  unfold State.sendFaces
  repeat' (first | with_reducible assumption | with_reducible apply State.sendReq_memOk | with_reducible apply State.failCmd_memOk | (unfold State.MemOk; dsimp only; change State.MemOk _) | with_reducible apply foldl_memOk | with_reducible apply foldl_fst_memOk | dsimp only | split | refine eq_memOk (by assumption) ?_ | exact fun _ h => h | intro _)
theorem execHaloFaceArrival_memOk (id : Nat) (s : State) (h0 : s.MemOk) : OutOk (execHaloFaceArrival id s) := by
  unfold execHaloFaceArrival
  repeat' (first | with_reducible assumption | (lift_lets; intro t; apply have_memOk (t := t); on_goal 1 => subst t) | with_reducible apply State.onCoreAt_memOk | with_reducible apply State.onCmd_memOk | with_reducible apply State.report_memOk | with_reducible apply State.finishCmd_memOk | with_reducible apply State.handBack_memOk | with_reducible apply State.arriveCmd_memOk | with_reducible apply next_memOk | (unfold State.MemOk; dsimp only; change State.MemOk _) | dsimp only | split | intro _)
theorem State.workHalo_memOk (s : State) (c : Cmd) (h0 : s.MemOk) : (State.workHalo s c).MemOk := by
  unfold State.workHalo
  repeat' (first | with_reducible assumption | with_reducible apply State.finishCmd_memOk | with_reducible apply State.handBack_memOk | with_reducible apply State.arriveCmd_memOk | with_reducible apply State.readFaces_memOk | with_reducible apply State.sendFaces_memOk | dsimp only | split)
theorem State.nextStep_memOk (s : State) (c : Cmd) (e v : BitVec 4) (k : Nat) (h0 : s.MemOk) : (State.nextStep s c e v k).MemOk := by
  unfold State.nextStep
  repeat' (first | with_reducible assumption | with_reducible apply State.onLayEnt_memOk | with_reducible apply State.onVslot_memOk | with_reducible apply State.onCmd_memOk | with_reducible apply State.finishCmd_memOk | (unfold State.MemOk; dsimp only; change State.MemOk _) | split)
theorem State.endStep_memOk (s : State) (c : Cmd) (e v : BitVec 4) (st : VStep) (peer : Nat) (h0 : s.MemOk) : (State.endStep s c e v st peer).MemOk := by
  unfold State.endStep
  repeat' (first | with_reducible assumption | (lift_lets; intro t; apply have_memOk (t := t); on_goal 1 => subst t) | with_reducible apply State.sendCrit_memOk | with_reducible apply State.nextStep_memOk | split)
theorem State.homesOf_memOk (c : Cmd) : ∀ (x0 : List Nat) (s : State), s.MemOk → (s.homesOf c x0).1.MemOk
  | [], s, h => by
    unfold State.homesOf
    repeat' (first | with_reducible assumption)
  | va :: r, s, h => by
    have ih := fun  (u : State) (hu : u.MemOk) => State.homesOf_memOk c r u hu
    unfold State.homesOf
    repeat' (first | with_reducible apply ih | with_reducible assumption | with_reducible apply State.engHome_memOk | dsimp only | split | refine eq_memOk (by assumption) ?_ | refine at_memOk (by assumption) ?_ | refine stall_memOk (by assumption) ?_)
theorem State.goStep_memOk (s : State) (c : Cmd) (e v : BitVec 4) (st : VStep) (g : Group) (h0 : s.MemOk) : (State.goStep s c e v st g).MemOk := by
  unfold State.goStep
  repeat' (first | with_reducible assumption | with_reducible apply State.onCmd_memOk | with_reducible apply State.failCmd_memOk | with_reducible apply State.engFetch_memOk | with_reducible apply State.engWrite_memOk | with_reducible apply Work.andThen_memOk | with_reducible apply State.endStep_memOk | with_reducible apply State.homesOf_memOk | dsimp only | split | refine eq_memOk (by assumption) ?_ | refine done_memOk (by assumption) ?_ | refine wait_memOk (by assumption) ?_ | refine bad_memOk (by assumption) ?_ | exact fun _ h => h)
theorem execReshardStep_memOk (id : Nat) (s : State) (h0 : s.MemOk) : OutOk (execReshardStep id s) := by
  unfold execReshardStep
  repeat' (first | with_reducible assumption | with_reducible apply State.goStep_memOk | with_reducible apply step_memOk | with_reducible apply next_memOk | dsimp only | split)
theorem State.dropMsg_memOk (s : State) (id : Nat) (h0 : s.MemOk) : (State.dropMsg s id).MemOk := by
  unfold State.dropMsg
  repeat' (first | with_reducible assumption | with_reducible apply State.onFab_memOk)
theorem State.reportMsg_memOk (s : State) (m : Msg) (sub : Nat) (h0 : s.MemOk) : (State.reportMsg s m sub).MemOk := by
  unfold State.reportMsg
  repeat' (first | with_reducible assumption | with_reducible apply State.report_memOk)
theorem execStepTokenArrival_memOk (id : Nat) (s : State) (h0 : s.MemOk) : OutOk (execStepTokenArrival id s) := by
  unfold execStepTokenArrival
  repeat' (first | with_reducible assumption | (lift_lets; intro t; apply have_memOk (t := t); on_goal 1 => subst t) | with_reducible apply State.onVslot_memOk | with_reducible apply State.dropMsg_memOk | with_reducible apply State.reportMsg_memOk | with_reducible apply next_memOk | split | intro _)
theorem execBarrierArrival_memOk (id : Nat) (s : State) (h0 : s.MemOk) : OutOk (execBarrierArrival id s) := by
  unfold execBarrierArrival
  repeat' (first | with_reducible assumption | (lift_lets; intro t; apply have_memOk (t := t); on_goal 1 => subst t) | with_reducible apply State.arrive_memOk | with_reducible apply State.dropMsg_memOk | with_reducible apply State.reportMsg_memOk | with_reducible apply next_memOk | split | intro _)
theorem State.unperformed_memOk (s : State) (id m : Nat) (h0 : s.MemOk) : (State.unperformed s id m).MemOk := by
  unfold State.unperformed
  repeat' (first | with_reducible assumption | with_reducible apply State.onCmd_memOk)
theorem State.multiGo_memOk (c : Cmd) (p : PutCap) (g : Group) (base : Nat) : ∀ (x0 : Nat) (x1 : Nat) (s : State), s.MemOk → (s.multiGo c p g base x0 x1).MemOk
  | 0, _, s, h => by
    unfold State.multiGo
    repeat' (first | with_reducible assumption | with_reducible apply State.wrBytes_memOk | with_reducible apply State.onCmd_memOk)
  | f + 1, k, s, h => by
    have ih := fun (y1 : Nat) (u : State) (hu : u.MemOk) => State.multiGo_memOk c p g base f y1 u hu
    unfold State.multiGo
    repeat' (first | with_reducible apply ih | with_reducible assumption | (lift_lets; intro t; apply have_memOk (t := t); on_goal 1 => subst t) | with_reducible apply State.wrBytes_memOk | with_reducible apply State.onCmd_memOk | with_reducible apply State.sendReq_memOk | with_reducible apply State.take_memOk | with_reducible apply State.unperformed_memOk | dsimp only | split | refine eq_memOk (by assumption) ?_)
theorem State.sendHandler_memOk (s : State) (c : Cmd) (h : Cont) (die len : Nat) (h0 : s.MemOk) : (State.sendHandler s c h die len).MemOk := by
  unfold State.sendHandler
  repeat' (first | with_reducible assumption | with_reducible apply State.onCmd_memOk | with_reducible apply State.sendReq_memOk | with_reducible apply State.holdHandler_memOk | with_reducible apply State.failCmd_memOk | split | refine eq_memOk (by assumption) ?_)
theorem State.sendPut_memOk (s : State) (c : Cmd) (p : PutCap) (push : State → Nat → Nat → BitVec 512 → State × BitVec 64) (hp : ∀ s d q p, s.MemOk → (push s d q p).1.MemOk) (h0 : s.MemOk) : (State.sendPut s c p push).MemOk := by
  unfold State.sendPut
  repeat' (first | with_reducible assumption | with_reducible apply State.onCmd_memOk | with_reducible apply State.sendReq_memOk | with_reducible apply State.tuXlate_memOk | with_reducible apply State.failCmd_memOk | with_reducible apply State.engWrite_memOk | with_reducible apply Work.andThen_memOk | with_reducible apply State.multiGo_memOk | with_reducible apply State.sendHandler_memOk | with_reducible apply hp | dsimp only | split | refine eq_memOk (by assumption) ?_ | exact fun _ h => h)
theorem State.startHandler_memOk (s : State) (c : Cmd) (h : Cont) (h0 : s.MemOk) : (State.startHandler s c h).MemOk := by
  unfold State.startHandler
  repeat' (first | with_reducible assumption | with_reducible apply State.onCmd_memOk | with_reducible apply State.create_memOk | split)
theorem State.endPut_memOk (s : State) (c : Cmd) (h0 : s.MemOk) : (s.endPut c).MemOk := by
  unfold State.endPut
  repeat' (first | with_reducible assumption | refine done_memOk (by assumption) ?_ | with_reducible apply State.engWrite_memOk | with_reducible apply State.onCmd_memOk | with_reducible apply State.failCmd_memOk | with_reducible apply State.finishCmd_memOk | with_reducible apply State.startHandler_memOk | split)
theorem State.workPut_memOk (s : State) (c : Cmd) (push : State → Nat → Nat → BitVec 512 → State × BitVec 64) (hp : ∀ s d q p, s.MemOk → (push s d q p).1.MemOk) (h0 : s.MemOk) : (State.workPut s c push).MemOk := by
  unfold State.workPut
  repeat' (first | with_reducible assumption | with_reducible apply State.engFetch_memOk | with_reducible apply State.engWrite_memOk | with_reducible apply Work.andThen_memOk | with_reducible apply State.sendPut_memOk | with_reducible apply State.endPut_memOk | split | exact fun _ h => h)
theorem State.workGet_memOk (s : State) (c : Cmd) (h0 : s.MemOk) : (State.workGet s c).MemOk := by
  unfold State.workGet
  repeat' (first | with_reducible assumption | with_reducible apply State.engFetch_memOk | with_reducible apply State.engWrite_memOk | with_reducible apply Work.andThen_memOk | with_reducible apply State.startHandler_memOk | with_reducible apply State.endPut_memOk | with_reducible apply elim_memOk | split | exact fun _ h => h | intro _)
theorem State.endColl_memOk (s : State) (id code count : Nat) (h0 : s.MemOk) : (State.endColl s id code count).MemOk := by
  unfold State.endColl
  repeat' (first | with_reducible assumption | with_reducible apply State.onCmd_memOk)
theorem State.loseMember_memOk (s : State) (id : Nat) (h0 : s.MemOk) : (State.loseMember s id).MemOk := by
  unfold State.loseMember
  repeat' (first | with_reducible assumption | with_reducible apply State.onFab_memOk | with_reducible apply foldl_memOk | dsimp only | split | exact fun _ h => h | intro _)
theorem State.failColl_memOk (s : State) (c : Cmd) (t : Trap) (h0 : s.MemOk) : (State.failColl s c t).MemOk := by
  unfold State.failColl
  repeat' (first | with_reducible assumption | with_reducible apply State.failCmd_memOk | with_reducible apply State.endColl_memOk | with_reducible apply foldl_memOk | with_reducible apply foldl_fst_memOk | dsimp only | split | exact fun _ h => h | intro _)
theorem State.collThen_memOk (w : Work) (c : Cmd) (f : State → State) (hw : WorkOk w) (hf : ∀ t : State, t.MemOk → (f t).MemOk) : (State.collThen w c f).MemOk := by
  cases w with
  | done s => exact hf s (done_memOk rfl hw)
  | wait s => exact wait_memOk rfl hw
  | bad s t => exact State.failColl_memOk s c t (bad_memOk rfl hw)
theorem State.startColl_memOk (s : State) (c : Cmd) (h0 : s.MemOk) : (State.startColl s c).MemOk := by
  unfold State.startColl
  repeat' (first | with_reducible assumption | (lift_lets; intro t; apply have_memOk (t := t); on_goal 1 => subst t) | with_reducible apply State.onFab_memOk | with_reducible apply State.onCmd_memOk | with_reducible apply State.sendCrit_memOk | with_reducible apply State.failCmd_memOk | with_reducible apply State.engFetch_memOk | with_reducible apply Work.andThen_memOk | with_reducible apply State.endColl_memOk | with_reducible apply foldl_memOk | with_reducible apply foldl_fst_memOk | dsimp only | split | refine eq_memOk (by assumption) ?_ | refine done_memOk (by assumption) ?_ | refine wait_memOk (by assumption) ?_ | refine bad_memOk (by assumption) ?_ | exact fun _ h => h | intro _)
theorem State.bindColl_memOk (s : State) (ps : List Cmd) (h0 : s.MemOk) : (State.bindColl s ps).MemOk := by
  unfold State.bindColl
  repeat' (first | with_reducible assumption | with_reducible apply State.onCmd_memOk | with_reducible apply State.endColl_memOk | with_reducible apply foldl_memOk | with_reducible apply foldl_fst_memOk | dsimp only | split | refine eq_memOk (by assumption) ?_ | exact fun _ h => h | intro _)
theorem State.takeOuts_memOk (s : State) (ps : List Cmd) (h0 : s.MemOk) : (State.takeOuts s ps).MemOk := by
  unfold State.takeOuts
  repeat' (first | with_reducible assumption | with_reducible apply State.onCmd_memOk | with_reducible apply foldl_memOk | with_reducible apply foldl_fst_memOk | dsimp only | split | exact fun _ h => h | intro _)
theorem State.startSend_memOk (s : State) (c : Cmd) (ps : List Cmd) (m : Nat) (h0 : s.MemOk) : (State.startSend s c ps m).MemOk := by
  unfold State.startSend
  repeat' (first | with_reducible assumption | with_reducible apply State.onCmd_memOk)
theorem State.sendData_memOk (s : State) (c : Cmd) (h0 : s.MemOk) : (State.sendData s c).MemOk := by
  unfold State.sendData
  repeat' (first | with_reducible assumption | with_reducible apply State.onCmd_memOk | with_reducible apply State.sendReq_memOk | with_reducible apply State.loseMember_memOk | split | refine eq_memOk (by assumption) ?_)
theorem State.workColl_memOk (s : State) (c : Cmd) (h0 : s.MemOk) : (State.workColl s c).MemOk := by
  unfold State.workColl
  repeat' (first | with_reducible assumption | with_reducible apply State.onCmd_memOk | with_reducible apply State.engFetch_memOk | with_reducible apply State.engWrite_memOk | with_reducible apply State.loseMember_memOk | with_reducible apply State.collThen_memOk | with_reducible apply State.startColl_memOk | with_reducible apply State.bindColl_memOk | with_reducible apply State.takeOuts_memOk | with_reducible apply State.startSend_memOk | with_reducible apply State.sendData_memOk | with_reducible apply foldl_memOk | dsimp only | split | exact fun _ h => h | intro _)
theorem State.dropTags_memOk (s : State) (h0 : s.MemOk) : (State.dropTags s).MemOk := by
  unfold State.dropTags
  repeat' (first | with_reducible assumption | with_reducible apply State.onFab_memOk)
theorem State.onReq_memOk (s : State) (id : Nat) (f : Req → Req) (h0 : s.MemOk) : (State.onReq s id f).MemOk := by
  unfold State.onReq
  repeat' (first | with_reducible assumption | with_reducible apply State.onFab_memOk)
theorem State.dropReq_memOk (s : State) (id : Nat) (h0 : s.MemOk) : (State.dropReq s id).MemOk := by
  unfold State.dropReq
  repeat' (first | with_reducible assumption | with_reducible apply State.onFab_memOk)
theorem State.performReq_memOk (s : State) (r : Req) (h0 : s.MemOk) : ∀ t a, s.performReq r = some (t, a) → t.MemOk := by
  intro t a e
  unfold State.performReq at e
  have ha : ∀ k, some (s.performAccess r.jcb k) = some (t, a) → t.MemOk := fun k e => by
    have h := State.performAccess_memOk s r.jcb k h0
    rw [Option.some.inj e] at h
    exact h
  split at e
  · split at e
    · cases e; exact State.create_memOk _ _ _ h0
    · cases e
  · split at e <;> cases e
    · exact State.holdHandler_memOk _ _ _ _ _ h0
    · exact h0
  · cases e; exact State.pushTo_memOk _ _ _ _ _ _ h0
  · split at e
    · exact ha _ e
    · cases e
  · split at e
    · cases e
    · split at e
      · rename_i pa bs _ _ _ _ _
        have h : t = _ := (congrArg Prod.fst (Option.some.inj e)).symm
        rw [h]
        exact State.credit_memOk _ _ _ (State.performAccess_memOk s r.jcb (.write pa bs) h0)
      · exact ha _ e
  · exact ha _ e
theorem State.sendAnswer_memOk (s : State) (r : Req) (h0 : s.MemOk) : (State.sendAnswer s r).MemOk := by
  unfold State.sendAnswer
  repeat' (first | with_reducible assumption | with_reducible apply State.fresh_memOk | with_reducible apply State.onReq_memOk | dsimp only | split)
theorem State.sendAck_memOk (s : State) (r : Req) (a : Nat × Nat) (h0 : s.MemOk) : (State.sendAck s r a).MemOk := by
  unfold State.sendAck
  repeat' (first | with_reducible assumption | (lift_lets; intro t; apply have_memOk (t := t); on_goal 1 => subst t) | with_reducible apply State.sendCrit_memOk | with_reducible apply State.onReq_memOk | with_reducible apply State.sendAnswer_memOk | split)
theorem execRequestArrival_memOk (id : Nat) (s : State) (h0 : s.MemOk) : OutOk (execRequestArrival id s) := by
  unfold execRequestArrival
  repeat' (first | with_reducible assumption | with_reducible apply State.onFab_memOk | refine State.performReq_memOk _ _ ?_ _ _ (by assumption) | with_reducible apply State.sendAck_memOk | with_reducible apply next_memOk | split)
theorem State.onOutst_memOk (s : State) (cid id : Nat) (f : Outst → Outst) (h0 : s.MemOk) : (State.onOutst s cid id f).MemOk := by
  unfold State.onOutst
  repeat' (first | with_reducible assumption | with_reducible apply State.onCoreAt_memOk)
theorem State.loadReturns_memOk (s : State) (cid id v n : Nat) (h0 : s.MemOk) : (State.loadReturns s cid id v n).MemOk := by
  unfold State.loadReturns
  repeat' (first | with_reducible assumption | with_reducible apply State.onCoreAt_memOk | with_reducible apply State.onOutst_memOk | dsimp only | split)
theorem State.loadFails_memOk (s : State) (cid id : Nat) (t : Trap) (h0 : s.MemOk) : (State.loadFails s cid id t).MemOk := by
  unfold State.loadFails
  repeat' (first | with_reducible assumption | with_reducible apply State.onOutst_memOk)
theorem State.storeReport_memOk (s : State) (r : Req) (cid : Nat) (q : QEnt) (t : Trap) (h0 : s.MemOk) : (State.storeReport s r cid q t).MemOk := by
  unfold State.storeReport
  repeat' (first | with_reducible assumption | (lift_lets; intro t; apply have_memOk (t := t); on_goal 1 => subst t) | with_reducible apply State.onFab_memOk | with_reducible apply State.onCoreAt_memOk | with_reducible apply State.report_memOk | dsimp only | split | refine eq_memOk (by assumption) ?_ | exact fun _ h => h | intro _)
theorem State.cmdFails_memOk (s : State) (id : Nat) (t : Trap) (h0 : s.MemOk) : (State.cmdFails s id t).MemOk := by
  unfold State.cmdFails
  repeat' (first | with_reducible assumption | with_reducible apply State.failCmd_memOk | with_reducible apply State.failColl_memOk | split)
theorem State.ackOwner_memOk (s : State) (r : Req) (a : Nat × Nat) (h0 : s.MemOk) : (State.ackOwner s r a).MemOk := by
  unfold State.ackOwner
  repeat' (first | with_reducible assumption | with_reducible apply State.onCmd_memOk | with_reducible apply State.report_memOk | with_reducible apply State.walkGets_memOk | with_reducible apply State.loadReturns_memOk | with_reducible apply State.loadFails_memOk | with_reducible apply State.storeReport_memOk | with_reducible apply State.cmdFails_memOk | dsimp only | split)
theorem execAcknowledgement_memOk (id : Nat) (s : State) (h0 : s.MemOk) : OutOk (execAcknowledgement id s) := by
  unfold execAcknowledgement
  repeat' (first | with_reducible assumption | with_reducible apply State.dropReq_memOk | with_reducible apply State.ackOwner_memOk | with_reducible apply next_memOk | split)
theorem State.resendReq_memOk (s : State) (r : Req) (h0 : s.MemOk) : (State.resendReq s r).MemOk := by
  unfold State.resendReq
  repeat' (first | with_reducible assumption | with_reducible apply State.onReq_memOk)
theorem execEndToEndResend_memOk (s : State) (h0 : s.MemOk) : OutOk (execEndToEndResend s) := by
  unfold execEndToEndResend
  repeat' (first | with_reducible assumption | with_reducible apply State.resendReq_memOk | with_reducible apply next_memOk | with_reducible apply foldl_memOk)
theorem State.undoEntry_memOk (s : State) (cid : Nat) (e : QEnt) (h0 : s.MemOk) : (State.undoEntry s cid e).MemOk := by
  unfold State.undoEntry
  repeat' (first | with_reducible assumption | with_reducible apply State.onCoreAt_memOk | with_reducible apply State.onTset_memOk | with_reducible apply State.freeReshard_memOk | dsimp only | split)
theorem State.dropBehind_memOk (s : State) (cid handle src dst : Nat) (h0 : s.MemOk) : (State.dropBehind s cid handle src dst).MemOk := by
  unfold State.dropBehind
  repeat' (first | with_reducible assumption | (lift_lets; intro t; apply have_memOk (t := t); on_goal 1 => subst t) | with_reducible apply State.onCoreAt_memOk | with_reducible apply State.undoEntry_memOk | with_reducible apply foldl_memOk | with_reducible apply foldl_fst_memOk | dsimp only | split | refine eq_memOk (by assumption) ?_ | exact fun _ h => h | intro _)
theorem State.cmdUnknown_memOk (s : State) (r : Req) (c : Cmd) (h0 : s.MemOk) : (State.cmdUnknown s r c).MemOk := by
  unfold State.cmdUnknown
  repeat' (first | with_reducible assumption | with_reducible apply State.failCmd_memOk | with_reducible apply State.unperformed_memOk | with_reducible apply State.loseMember_memOk | with_reducible apply State.failColl_memOk | split)
theorem State.dropPayload_memOk (s : State) (r : Req) (h0 : s.MemOk) : (State.dropPayload s r).MemOk := by
  unfold State.dropPayload
  repeat' (first | with_reducible assumption | with_reducible apply State.onFab_memOk | split)
theorem State.unknownReq_memOk (s : State) (r : Req) (h0 : s.MemOk) : (State.unknownReq s r).MemOk := by
  unfold State.unknownReq
  repeat' (first | with_reducible assumption | (lift_lets; intro t; apply have_memOk (t := t); on_goal 1 => subst t) | with_reducible apply State.onCoreAt_memOk | with_reducible apply State.report_memOk | with_reducible apply State.walkGets_memOk | with_reducible apply State.dropReq_memOk | with_reducible apply State.loadFails_memOk | with_reducible apply State.storeReport_memOk | with_reducible apply State.dropBehind_memOk | with_reducible apply State.cmdUnknown_memOk | with_reducible apply State.dropPayload_memOk | dsimp only | split | intro _)
theorem State.unreachReq_memOk (s : State) (r : Req) (h0 : s.MemOk) : (State.unreachReq s r).MemOk := by
  unfold State.unreachReq
  repeat' (first | with_reducible assumption | with_reducible apply State.onCoreAt_memOk | with_reducible apply State.report_memOk | with_reducible apply State.walkGets_memOk | with_reducible apply State.dropReq_memOk | with_reducible apply State.loadFails_memOk | with_reducible apply State.storeReport_memOk | with_reducible apply State.cmdFails_memOk | with_reducible apply State.dropPayload_memOk | dsimp only | split)
theorem execFabricOutcomeUnknown_memOk (s : State) (h0 : s.MemOk) : OutOk (execFabricOutcomeUnknown s) := by
  unfold execFabricOutcomeUnknown
  refine next_memOk (foldl_memOk h0 fun s r h => ?_)
  cases s.req r.id with
  | none => exact h
  | some x => exact State.unknownReq_memOk s x h
theorem State.putMsg_memOk (s : State) (m : Msg) (h0 : s.MemOk) : (State.putMsg s m).MemOk := by
  unfold State.putMsg
  repeat' (first | with_reducible assumption | with_reducible apply State.onFab_memOk)
theorem State.resendMsg_memOk (s : State) (m : Msg) (h0 : s.MemOk) : (State.resendMsg s m).MemOk := by
  unfold State.resendMsg
  repeat' (first | with_reducible assumption | with_reducible apply State.enterHop_memOk | with_reducible apply State.putMsg_memOk | dsimp only | split)
theorem execCriticalResend_memOk (s : State) (h0 : s.MemOk) : OutOk (execCriticalResend s) := by
  unfold execCriticalResend
  repeat' (first | with_reducible assumption | with_reducible apply State.resendMsg_memOk | with_reducible apply next_memOk | with_reducible apply foldl_memOk)
theorem execCriticalFlitLost_memOk (s : State) (h0 : s.MemOk) : OutOk (execCriticalFlitLost s) := by
  unfold execCriticalFlitLost
  repeat' (first | with_reducible assumption | with_reducible apply State.dropMsg_memOk | with_reducible apply State.reportMsg_memOk | with_reducible apply State.loseMember_memOk | with_reducible apply next_memOk | with_reducible apply foldl_memOk | dsimp only | split | intro _)
theorem State.slotPasses_memOk (s : State) (port : Nat) (plane : Bool) (h0 : s.MemOk) : (State.slotPasses s port plane).MemOk := by
  unfold State.slotPasses
  repeat' (first | with_reducible assumption | with_reducible apply State.onPlane_memOk)
theorem State.delayOne_memOk (s : State) (port : Nat) (bulk : Bool) (h0 : s.MemOk) : (State.delayOne s port bulk).MemOk := by
  unfold State.delayOne
  repeat' (first | with_reducible assumption | with_reducible apply State.onReq_memOk | split)
theorem State.spoilMsg_memOk (s : State) (port : Nat) (plane : Bool) (h0 : s.MemOk) : (State.spoilMsg s port plane).MemOk := by
  unfold State.spoilMsg
  repeat' (first | with_reducible assumption | with_reducible apply State.putMsg_memOk | split)
theorem State.noteCrit_memOk (s : State) (port n : Nat) (h0 : s.MemOk) : (State.noteCrit s port n).MemOk := by
  unfold State.noteCrit
  repeat' (first | with_reducible assumption | with_reducible apply State.onFab_memOk)
theorem State.sendReceipt_memOk (s : State) (m : Msg) (port : Nat) (h0 : s.MemOk) : (State.sendReceipt s m port).MemOk := by
  unfold State.sendReceipt
  repeat' (first | with_reducible assumption | with_reducible apply State.onFab_memOk | with_reducible apply State.fresh_memOk | dsimp only | split)
theorem State.forward_memOk (s : State) (m : Msg) (here : Nat) (h0 : s.MemOk) : (State.forward s m here).MemOk := by
  unfold State.forward
  repeat' (first | with_reducible assumption | with_reducible apply State.onFab_memOk | with_reducible apply State.fresh_memOk | with_reducible apply State.enterHop_memOk | split)
theorem State.endHop_memOk (s : State) (m : Msg) (h0 : s.MemOk) : (State.endHop s m).MemOk := by
  unfold State.endHop
  repeat' (first | with_reducible assumption | with_reducible apply State.dropMsg_memOk | with_reducible apply State.putMsg_memOk | with_reducible apply State.noteCrit_memOk | with_reducible apply State.sendReceipt_memOk | with_reducible apply State.forward_memOk | dsimp only | split)
theorem State.hopMsgs_memOk (s : State) (h0 : s.MemOk) : (State.hopMsgs s).MemOk := by
  unfold State.hopMsgs
  repeat' (first | with_reducible assumption | (lift_lets; intro t; apply have_memOk (t := t); on_goal 1 => subst t) | with_reducible apply State.onFab_memOk | with_reducible apply State.endHop_memOk | with_reducible apply foldl_memOk | intro _)
theorem State.sendHeld_memOk (s : State) (r : Req) (h0 : s.MemOk) : (State.sendHeld s r).MemOk := by
  unfold State.sendHeld
  repeat' (first | with_reducible assumption | with_reducible apply State.onReq_memOk | with_reducible apply State.unreachReq_memOk | split)
theorem State.releaseHeld_memOk (s : State) (h0 : s.MemOk) : (State.releaseHeld s).MemOk := by
  unfold State.releaseHeld
  repeat' (first | with_reducible assumption | with_reducible apply State.sendHeld_memOk | with_reducible apply foldl_memOk)
theorem State.startHandlers_memOk (s : State) (h0 : s.MemOk) : (State.startHandlers s).MemOk := by
  unfold State.startHandlers
  repeat' (first | with_reducible assumption | with_reducible apply State.onFab_memOk | with_reducible apply State.create_memOk | with_reducible apply foldl_memOk | dsimp only | split | intro _)
theorem execFlitArrival_memOk (port : Nat) (plane : Bool) (c : FlitClass) (intact : Bool) (s : State) (h0 : s.MemOk) : OutOk (execFlitArrival port plane c intact s) := by
  unfold execFlitArrival
  repeat' (first | with_reducible assumption | (lift_lets; intro t; apply have_memOk (t := t); on_goal 1 => subst t) | with_reducible apply State.onPlane_memOk | with_reducible apply State.slotPasses_memOk | with_reducible apply State.delayOne_memOk | with_reducible apply State.spoilMsg_memOk | with_reducible apply next_memOk | split | intro _)
theorem State.failPlane_memOk (s : State) (port : Nat) (plane : Bool) (h0 : s.MemOk) : (State.failPlane s port plane).MemOk := by
  unfold State.failPlane
  repeat' (first | with_reducible assumption | with_reducible apply State.onFab_memOk | with_reducible apply State.onPlane_memOk | dsimp only | split)
theorem execPlaneFailure_memOk (port : Nat) (plane : Bool) (s : State) (h0 : s.MemOk) : OutOk (execPlaneFailure port plane s) := by
  unfold execPlaneFailure
  repeat' (first | with_reducible assumption | with_reducible apply State.failPlane_memOk | with_reducible apply next_memOk)
theorem State.newKeys_memOk (s : State) (port : Nat) (plane : Bool) (h0 : s.MemOk) : (State.newKeys s port plane).MemOk := by
  unfold State.newKeys
  repeat' (first | with_reducible assumption | with_reducible apply State.onPlane_memOk | (unfold State.MemOk; dsimp only; change State.MemOk _) | split)
theorem execPlaneRejoin_memOk (port : Nat) (plane : Bool) (s : State) (h0 : s.MemOk) : OutOk (execPlaneRejoin port plane s) := by
  unfold execPlaneRejoin
  repeat' (first | with_reducible assumption | with_reducible apply State.onPlane_memOk | with_reducible apply State.newKeys_memOk | with_reducible apply next_memOk | dsimp only | split)
theorem execLinkTraining_memOk (port : Nat) (plane : Bool) (s : State) (h0 : s.MemOk) : OutOk (execLinkTraining port plane s) := by
  unfold execLinkTraining
  repeat' (first | with_reducible assumption | with_reducible apply State.newKeys_memOk | with_reducible apply next_memOk | dsimp only | split)
theorem State.rekey_memOk (s : State) (port : Nat) (plane : Bool) (h0 : s.MemOk) : (State.rekey s port plane).MemOk := by
  unfold State.rekey
  repeat' (first | with_reducible assumption | with_reducible apply State.onPlane_memOk | dsimp only | split)
theorem execRekey_memOk (port : Nat) (plane : Bool) (s : State) (h0 : s.MemOk) : OutOk (execRekey port plane s) := by
  unfold execRekey
  repeat' (first | with_reducible assumption | with_reducible apply State.rekey_memOk | with_reducible apply next_memOk)
theorem execSlotAlignmentLoss_memOk (port : Nat) (plane : Bool) (s : State) (h0 : s.MemOk) : OutOk (execSlotAlignmentLoss port plane s) := by
  unfold execSlotAlignmentLoss
  repeat' (first | with_reducible assumption | with_reducible apply State.onFab_memOk | with_reducible apply State.onPlane_memOk | with_reducible apply State.newKeys_memOk | with_reducible apply next_memOk | dsimp only | split)
theorem State.movePlane_memOk (s : State) (k : Nat) (h0 : s.MemOk) : (State.movePlane s k).MemOk := by
  unfold State.movePlane
  repeat' (first | with_reducible assumption | with_reducible apply State.failPlane_memOk | with_reducible apply State.rekey_memOk | dsimp only | split)
theorem State.moveFabric_memOk (s : State) (h0 : s.MemOk) : (State.moveFabric s).MemOk := by
  unfold State.moveFabric
  repeat' (first | with_reducible assumption | with_reducible apply State.hopMsgs_memOk | with_reducible apply State.releaseHeld_memOk | with_reducible apply State.startHandlers_memOk | with_reducible apply State.movePlane_memOk | with_reducible apply foldl_memOk)
theorem State.ckRead_memOk (s : State) (c : Cmd) (h0 : s.MemOk) : (State.ckRead s c).MemOk := by
  unfold State.ckRead
  repeat' (first | with_reducible assumption | with_reducible apply State.onCmd_memOk | with_reducible apply State.failCmd_memOk | with_reducible apply State.engFetch_memOk | with_reducible apply Work.andThen_memOk | dsimp only | split | refine eq_memOk (by assumption) ?_ | refine done_memOk (by assumption) ?_ | refine wait_memOk (by assumption) ?_ | refine bad_memOk (by assumption) ?_ | exact fun _ h => h | intro _)
theorem State.ckPage_memOk (s : State) (c : Cmd) (va : Nat) (h0 : s.MemOk) : HomeOk (State.ckPage s c va) := by
  unfold State.ckPage
  repeat' (first | with_reducible assumption | with_reducible apply State.tuXlate_memOk | with_reducible apply home_at_ok | with_reducible apply home_wait_ok | with_reducible apply home_bad_ok | dsimp only | split | refine eq_memOk (by assumption) ?_)
theorem State.ckMark_memOk (s : State) (c : Cmd) (h0 : s.MemOk) : (State.ckMark s c).MemOk := by
  unfold State.ckMark
  repeat' (first | with_reducible assumption | (lift_lets; intro t; apply have_memOk (t := t); on_goal 1 => subst t) | with_reducible apply State.onCmd_memOk | with_reducible apply State.markFor_memOk | with_reducible apply foldl_memOk | with_reducible apply foldl_fst_memOk | dsimp only | split | exact fun _ h => h | intro _)
theorem State.ckJudge_memOk (c : Cmd) : ∀ (x0 : List Nat) (x1 : Nat) (s : State), s.MemOk → (s.ckJudge c x0 x1).MemOk
  | [], _, s, h => by
    unfold State.ckJudge
    repeat' (first | with_reducible assumption | with_reducible apply State.onCmd_memOk | with_reducible apply State.failCmd_memOk | with_reducible apply State.ckPage_memOk | with_reducible apply State.ckMark_memOk)
  | va :: r, i, s, h => by
    have ih := fun (y1 : Nat) (u : State) (hu : u.MemOk) => State.ckJudge_memOk c r y1 u hu
    unfold State.ckJudge
    repeat' (first | with_reducible apply ih | with_reducible assumption | with_reducible apply State.onCmd_memOk | with_reducible apply State.failCmd_memOk | with_reducible apply State.ckPage_memOk | with_reducible apply State.ckMark_memOk | dsimp only | split | refine eq_memOk (by assumption) ?_ | refine at_memOk (by assumption) ?_ | refine stall_memOk (by assumption) ?_)
theorem State.safeGo_memOk (c : Cmd) (pa : Nat) (len : Nat) (src : Nat → Nat → List (BitVec 8)) : ∀ (x0 : Nat) (x1 : Nat) (s : State), s.MemOk → WorkOk (s.safeGo c pa len src x0 x1)
  | 0, _, s, h => by
    unfold State.safeGo
    repeat' (first | with_reducible assumption | with_reducible apply State.wrBytes_memOk | with_reducible apply State.onCmd_memOk | with_reducible apply State.sendReq_memOk | with_reducible apply done_ok | with_reducible apply wait_ok)
  | f + 1, p, s, h => by
    have ih := fun (y1 : Nat) (u : State) (hu : u.MemOk) => State.safeGo_memOk c pa len src f y1 u hu
    unfold State.safeGo
    repeat' (first | with_reducible apply ih | with_reducible assumption | with_reducible apply State.wrBytes_memOk | with_reducible apply State.onCmd_memOk | with_reducible apply State.sendReq_memOk | with_reducible apply done_ok | with_reducible apply wait_ok | with_reducible apply bad_ok | dsimp only | split | refine eq_memOk (by assumption) ?_)
theorem State.safeWrite_memOk (s : State) (c : Cmd) (pa len : Nat) (src : Nat → Nat → List (BitVec 8)) (h0 : s.MemOk) : WorkOk (State.safeWrite s c pa len src) := by
  unfold State.safeWrite
  repeat' (first | with_reducible assumption | with_reducible apply State.safeGo_memOk)
theorem State.ckItems_memOk (s : State) (c : Cmd) (safe : Bool) (next : State → State) (hnext : ∀ t : State, t.MemOk → (next t).MemOk) (h0 : s.MemOk) : (State.ckItems s c safe next).MemOk := by
  unfold State.ckItems
  repeat' (first | with_reducible assumption | with_reducible apply hnext | with_reducible apply State.onCmd_memOk | with_reducible apply State.take_memOk | with_reducible apply State.engWrite_memOk | with_reducible apply Work.andThen_memOk | with_reducible apply State.safeWrite_memOk | dsimp only | split | refine eq_memOk (by assumption) ?_ | refine done_memOk (by assumption) ?_ | refine wait_memOk (by assumption) ?_ | refine bad_memOk (by assumption) ?_ | exact fun _ h => h)
theorem State.ckSettled_memOk (s : State) (c : Cmd) (safe : Bool) (next : State → State) (hnext : ∀ t : State, t.MemOk → (next t).MemOk) (h0 : s.MemOk) : (State.ckSettled s c safe next).MemOk := by
  unfold State.ckSettled
  repeat' (first | with_reducible assumption | with_reducible apply hnext | with_reducible apply State.ckItems_memOk | dsimp only | split | exact fun _ h => h | intro _)
theorem State.ckRecords_memOk (s : State) (c : Cmd) (d : CkDesc) (rs : List (Nat × Nat)) (h0 : s.MemOk) : (s.ckRecords c d rs).MemOk := by
  unfold State.ckRecords
  exact ite_memOk (State.failCmd_memOk _ _ _ h0) (State.onCmd_memOk _ _ _ h0)
theorem State.ckCopy_memOk (s : State) (c : Cmd) (d : CkDesc) (rs : List (Nat × Nat)) (h0 : s.MemOk) : (State.ckCopy s c d rs).MemOk := by
  unfold State.ckCopy
  repeat' (first | with_reducible assumption | with_reducible apply State.onCmd_memOk | with_reducible apply State.failCmd_memOk | with_reducible apply Work.andThen_memOk | with_reducible apply State.ckPage_memOk | with_reducible apply State.safeWrite_memOk | dsimp only | split | refine eq_memOk (by assumption) ?_ | refine done_memOk (by assumption) ?_ | refine wait_memOk (by assumption) ?_ | refine bad_memOk (by assumption) ?_ | refine at_memOk (by assumption) ?_ | refine stall_memOk (by assumption) ?_ | exact fun _ h => h)
theorem execCheckpointCopy_memOk (id : Nat) (s : State) (h0 : s.MemOk) : OutOk (execCheckpointCopy id s) := by
  unfold execCheckpointCopy
  repeat' (first | with_reducible assumption | with_reducible apply State.onCmd_memOk | with_reducible apply State.ckItems_memOk | with_reducible apply State.ckSettled_memOk | with_reducible apply State.ckRecords_memOk | with_reducible apply State.ckCopy_memOk | with_reducible apply next_memOk | dsimp only | split | refine eq_memOk (by assumption) ?_ | exact fun _ h => h | intro _)
theorem State.releaseCkpt_memOk (s : State) (die jcb : Nat) (h0 : s.MemOk) : (State.releaseCkpt s die jcb).MemOk := by
  unfold State.releaseCkpt
  repeat' (first | with_reducible assumption | (lift_lets; intro t; apply have_memOk (t := t); on_goal 1 => subst t) | with_reducible apply State.onSched_memOk | with_reducible apply State.onCont_memOk | with_reducible apply State.enqueue_memOk | with_reducible apply foldl_memOk | dsimp only | split | intro _)
theorem execCheckpointCommit_memOk (id : Nat) (s : State) (h0 : s.MemOk) : OutOk (execCheckpointCommit id s) := by
  unfold execCheckpointCommit
  repeat' (first | with_reducible assumption | with_reducible apply State.onCmd_memOk | with_reducible apply State.finishCmd_memOk | with_reducible apply State.ckSettled_memOk | with_reducible apply State.releaseCkpt_memOk | with_reducible apply next_memOk | dsimp only | split | refine eq_memOk (by assumption) ?_ | exact fun _ h => h | intro _)
theorem State.failedCkpts_memOk (s : State) (h0 : s.MemOk) : (State.failedCkpts s).MemOk := by
  unfold State.failedCkpts
  repeat' (first | with_reducible assumption | with_reducible apply State.onSched_memOk | with_reducible apply State.releaseCkpt_memOk | with_reducible apply foldl_memOk | split | intro _)
theorem State.workCkpt_memOk (s : State) (c : Cmd) (h0 : s.MemOk) : (State.workCkpt s c).MemOk := by
  unfold State.workCkpt
  repeat' (first | with_reducible assumption | with_reducible apply State.ckRead_memOk | with_reducible apply State.ckJudge_memOk | dsimp only | split)
theorem State.reloadPages_memOk (die asid : Nat) : ∀ (l : List Nat) (src : Nat) (s : State), s.MemOk → (s.reloadPages die asid src l).MemOk
  | [], _, _, h => h
  | va :: r, src, s, h => by
    unfold State.reloadPages
    split
    · exact State.reloadPages_memOk die asid r _ _ h
    · exact State.reloadPages_memOk die asid r _ _ (State.wrBytes_memOk _ _ _ h)
theorem State.reloadSet_memOk (s : State) (die asid n : Nat) (h0 : s.MemOk) : (State.reloadSet s die asid n).MemOk := by
  unfold State.reloadSet
  repeat' (first | with_reducible assumption | with_reducible apply State.onTset_memOk | (unfold State.MemOk; dsimp only; change State.MemOk _) | split)
theorem State.reloadConts_memOk (s : State) (die : Nat) (l : List Cont) (h0 : s.MemOk) : (State.reloadConts s die l).MemOk := by
  unfold State.reloadConts
  repeat' (first | with_reducible assumption | (lift_lets; intro t; apply have_memOk (t := t); on_goal 1 => subst t) | with_reducible apply State.onSched_memOk | with_reducible apply State.setCont_memOk | with_reducible apply State.nextSeq_memOk | with_reducible apply State.enqueue_memOk | with_reducible apply State.onPlace_memOk | with_reducible apply foldl_memOk | with_reducible apply foldl_fst_memOk | dsimp only | split | refine eq_memOk (by assumption) ?_ | exact fun _ h => h | intro _)
theorem execResumption_memOk (die : Nat) (s : State) (h0 : s.MemOk) : OutOk (execResumption die s) := by
  unfold execResumption
  repeat' (first | with_reducible assumption | with_reducible apply State.onSched_memOk | with_reducible apply State.onTset_memOk | with_reducible apply State.giveJtag_memOk | with_reducible apply State.release_memOk | with_reducible apply State.loadLayout_memOk | with_reducible apply State.reloadPages_memOk | with_reducible apply State.reloadSet_memOk | with_reducible apply State.reloadConts_memOk | with_reducible apply next_memOk | with_reducible apply foldl_memOk | dsimp only | split | (unfold State.MemOk; dsimp only; change State.MemOk _) | intro _)
theorem State.unsupported_memOk (s : State) (pkg : Nat) (h0 : s.MemOk) : (State.unsupported s pkg).MemOk := by
  unfold State.unsupported
  repeat' (first | with_reducible assumption | with_reducible apply State.onHost_memOk)
theorem execPush_memOk (kind : BitVec 2) (die queue off : Nat) (bytes : List (BitVec 8)) (s : State) (h0 : s.MemOk) : OutOk (execPush kind die queue off bytes s) := by
  unfold execPush
  repeat' (first | with_reducible assumption | with_reducible apply State.onHost_memOk | with_reducible apply State.pushTo_memOk | with_reducible apply State.unsupported_memOk | with_reducible apply next_memOk | (unfold State.MemOk; dsimp only; change State.MemOk _) | split)
theorem execBar0Write_memOk (pkg : Nat) (kind : BitVec 2) (off : Nat) (v : BitVec 64) (s : State) (h0 : s.MemOk) : OutOk (execBar0Write pkg kind off v s) := by
  unfold execBar0Write
  repeat' (first | with_reducible assumption | with_reducible apply State.onHost_memOk | with_reducible apply State.unsupported_memOk | with_reducible apply next_memOk | split)
theorem State.setOwner_memOk (s : State) (pkg : Nat) (kind : BitVec 2) (h0 : s.MemOk) : (State.setOwner s pkg kind).MemOk := by
  unfold State.setOwner
  repeat' (first | with_reducible assumption | with_reducible apply State.onHost_memOk)
theorem State.ownerEntries_memOk (s : State) (dies : List Nat) (kind : BitVec 2) (h0 : s.MemOk) : (State.ownerEntries s dies kind).MemOk := by
  unfold State.ownerEntries
  repeat' (first | with_reducible assumption | with_reducible apply State.onSched_memOk)
theorem State.elect_memOk (s : State) (pkg : Nat) (kind : BitVec 2) (h0 : s.MemOk) : (State.elect s pkg kind).MemOk := by
  unfold State.elect
  repeat' (first | with_reducible assumption | with_reducible apply State.setOwner_memOk | with_reducible apply State.ownerEntries_memOk)
theorem State.renameOwner_memOk (s : State) (pkg : Nat) (old new : BitVec 2) (h0 : s.MemOk) : (State.renameOwner s pkg old new).MemOk := by
  unfold State.renameOwner
  repeat' (first | with_reducible assumption | with_reducible apply State.onSched_memOk)
theorem execClaim_memOk (pkg : Nat) (kind : BitVec 2) (s : State) (h0 : s.MemOk) : OutOk (execClaim pkg kind s) := by
  unfold execClaim
  repeat' (first | with_reducible assumption | with_reducible apply State.onHost_memOk | with_reducible apply State.setOwner_memOk | with_reducible apply State.elect_memOk | with_reducible apply State.renameOwner_memOk | with_reducible apply next_memOk | dsimp only | split)
theorem execHandover_memOk (pkg : Nat) (kind : BitVec 2) (v : BitVec 64) (s : State) (h0 : s.MemOk) : OutOk (execHandover pkg kind v s) := by
  unfold execHandover
  repeat' (first | with_reducible assumption | with_reducible apply State.onHost_memOk | with_reducible apply next_memOk | split)
theorem execHandoverLapse_memOk (s : State) (h0 : s.MemOk) : OutOk (execHandoverLapse s) := by
  unfold execHandoverLapse
  repeat' (first | with_reducible assumption | with_reducible apply State.onHost_memOk | with_reducible apply next_memOk | with_reducible apply foldl_memOk | split | intro _)
theorem execOwnerLinkDown_memOk (pkg : Nat) (s : State) (h0 : s.MemOk) : OutOk (execOwnerLinkDown pkg s) := by
  unfold execOwnerLinkDown
  repeat' (first | with_reducible assumption | with_reducible apply State.onHost_memOk | with_reducible apply next_memOk)
theorem execAttest_memOk (pkg : Nat) (kind : BitVec 2) (v : BitVec 64) (s : State) (h0 : s.MemOk) : OutOk (execAttest pkg kind v s) := by
  unfold execAttest
  repeat' (first | with_reducible assumption | with_reducible apply State.onHost_memOk | with_reducible apply next_memOk | split)
theorem State.writeQuote_memOk (s : State) (pkg : Nat) (h0 : s.MemOk) : (State.writeQuote s pkg).MemOk := by
  unfold State.writeQuote
  repeat' (first | with_reducible assumption | with_reducible apply State.wrBytes_memOk | with_reducible apply State.wr_memOk | with_reducible apply State.onHost_memOk | with_reducible apply State.onClk_memOk | (unfold State.MemOk; dsimp only; change State.MemOk _) | split)
theorem execQuoteCompletion_memOk (s : State) (h0 : s.MemOk) : OutOk (execQuoteCompletion s) := by
  unfold execQuoteCompletion
  repeat' (first | with_reducible assumption | with_reducible apply State.writeQuote_memOk | with_reducible apply next_memOk | with_reducible apply foldl_memOk | split | intro _)
theorem execBar4Write_memOk (pkg : Nat) (kind : BitVec 2) (off : Nat) (bytes : List (BitVec 8)) (s : State) (h0 : s.MemOk) : OutOk (execBar4Write pkg kind off bytes s) := by
  unfold execBar4Write
  repeat' (first | with_reducible assumption | with_reducible apply State.wrBytes_memOk | with_reducible apply State.unsupported_memOk | with_reducible apply next_memOk | (unfold State.MemOk; dsimp only; change State.MemOk _) | split)
theorem execBar4Read_memOk (pkg : Nat) (kind : BitVec 2) (off n : Nat) (s : State) (h0 : s.MemOk) : OutOk (execBar4Read pkg kind off n s) := by
  unfold execBar4Read
  repeat' (first | with_reducible assumption | with_reducible apply State.onHost_memOk | with_reducible apply State.unsupported_memOk | with_reducible apply next_memOk | (unfold State.MemOk; dsimp only; change State.MemOk _) | split)
theorem State.loadTimeb_memOk (s : State) (h0 : s.MemOk) : (State.loadTimeb s).MemOk := by
  unfold State.loadTimeb
  repeat' (first | with_reducible assumption | with_reducible apply State.onClk_memOk)
theorem execBoot_memOk (die : Nat) (signed : Bool) (version : BitVec 64) (root : Nat) (s : State) (h0 : s.MemOk) : OutOk (execBoot die signed version root s) := by
  have hw : ∀ (u : State) (r d : List Nat), u.MemOk → State.MemOk { u with running := r, dark := d } := fun _ _ _ h => h
  unfold execBoot
  refine next_memOk (ite_memOk h0 (ite_memOk (State.onHost_memOk _ _ _ h0) (ite_memOk (State.onHost_memOk _ _ _ h0) ?_)))
  refine hw _ _ _ (State.onHost_memOk _ _ _ ?_)
  repeat' (first | with_reducible assumption | with_reducible apply ite_memOk | with_reducible apply State.loadTimeb_memOk | with_reducible apply State.ownerEntries_memOk | with_reducible apply State.onSched_memOk | with_reducible apply State.onXl_memOk | with_reducible apply foldl_memOk | with_reducible apply State.onPlane_memOk | with_reducible apply State.newKeys_memOk | intro _)
theorem State.countError_memOk (s : State) (die : Nat) (corrected : Bool) (h0 : s.MemOk) : (State.countError s die corrected).MemOk := by
  unfold State.countError
  repeat' (first | with_reducible assumption | with_reducible apply State.onHost_memOk)
theorem State.checkResident_memOk (s : State) (cid sub addr : Nat) (h0 : s.MemOk) : (State.checkResident s cid sub addr).MemOk := by
  unfold State.checkResident
  repeat' (first | with_reducible assumption | with_reducible apply State.report_memOk | with_reducible apply State.countError_memOk | (unfold State.MemOk; dsimp only; change State.MemOk _) | split)
theorem execUncorrectableError_memOk (cid : Nat) (e : ErrSite) (s : State) (h0 : s.MemOk) : OutOk (execUncorrectableError cid e s) := by
  unfold execUncorrectableError
  repeat' (first | with_reducible assumption | with_reducible apply State.onXl_memOk | with_reducible apply State.onCoreAt_memOk | with_reducible apply State.countError_memOk | with_reducible apply State.checkResident_memOk | with_reducible apply next_memOk | dsimp only | split | (unfold State.MemOk; dsimp only; change State.MemOk _))
theorem execCorrectedError_memOk (die : Nat) (s : State) (h0 : s.MemOk) : OutOk (execCorrectedError die s) := by
  unfold execCorrectedError
  repeat' (first | with_reducible assumption | with_reducible apply State.countError_memOk | with_reducible apply next_memOk)
theorem execPowerRemoval_memOk (pkg : Nat) (s : State) (h0 : s.MemOk) : OutOk (execPowerRemoval pkg s) := by
  unfold execPowerRemoval
  repeat' (first | with_reducible apply next_memOk | intro _ | with_reducible assumption | with_reducible apply State.onHost_memOk | with_reducible apply State.onFab_memOk | with_reducible apply State.onXl_memOk | with_reducible apply State.onSched_memOk | with_reducible apply State.onCoreAt_memOk | with_reducible apply State.onPlane_memOk | with_reducible apply foldl_memOk | (refine fwf_filter 0 _ _ ?_) | (change State.MemOk _))
theorem execThrottle_memOk (die celsius : Nat) (s : State) (h0 : s.MemOk) : OutOk (execThrottle die celsius s) := by
  unfold execThrottle
  repeat' (first | with_reducible assumption | with_reducible apply State.onHost_memOk | with_reducible apply execPowerRemoval_memOk | with_reducible apply next_memOk | dsimp only | split)
theorem enterSlot_memOk (k : Nat) (i : Instr) (s : State) (h0 : s.MemOk) : (enterSlot k i s).MemOk := by
  unfold enterSlot
  repeat' (first | with_reducible assumption | (lift_lets; intro t; apply have_memOk (t := t); on_goal 1 => subst t) | with_reducible apply State.onIss_memOk | with_reducible apply State.emit_memOk | split | intro _)
theorem raiseFlaw_memOk (i : Instr) (s : State) (h0 : s.MemOk) : (raiseFlaw i s).MemOk := by
  unfold raiseFlaw
  repeat' (first | with_reducible assumption | with_reducible apply State.raise_memOk | split)
theorem State.clearIss_memOk (s : State) (keep : Pend → Bool) (h0 : s.MemOk) : (State.clearIss s keep).MemOk := by
  unfold State.clearIss
  repeat' (first | with_reducible assumption | with_reducible apply State.onIss_memOk)
theorem State.commitEffs_memOk (s : State) (l : List Pend) (h0 : s.MemOk) : (State.commitEffs s l).MemOk := by
  unfold State.commitEffs
  repeat' (first | with_reducible assumption | (lift_lets; intro t; apply have_memOk (t := t); on_goal 1 => subst t) | with_reducible apply State.onCore_memOk | with_reducible apply State.land_memOk | with_reducible apply foldl_memOk)
theorem State.retire_memOk (s : State) (effs atEnd : List Pend) (target : Option (BitVec 56)) (h0 : s.MemOk) : (State.retire s effs atEnd target).MemOk := by
  unfold State.retire
  repeat' (first | with_reducible assumption | with_reducible apply State.onCore_memOk | with_reducible apply State.commitEffs_memOk)
theorem State.settle_memOk (s : State) (h0 : s.MemOk) : (State.settle s).MemOk := by
  unfold State.settle
  repeat' (first | with_reducible assumption | with_reducible apply State.onCore_memOk | with_reducible apply State.onIss_memOk | with_reducible apply State.onClk_memOk | with_reducible apply State.onCont_memOk | with_reducible apply State.takeTrap_memOk | with_reducible apply State.clearIss_memOk | with_reducible apply State.commitEffs_memOk | with_reducible apply State.retire_memOk | (unfold State.MemOk; dsimp only; change State.MemOk _) | split)
theorem State.reportCalc_memOk (s : State) (c : Cap) (t : Trap) (h0 : s.MemOk) : (State.reportCalc s c t).MemOk := by
  unfold State.reportCalc
  repeat' (first | with_reducible assumption | with_reducible apply State.report_memOk)
theorem State.begin_memOk (s : State) (h0 : s.MemOk) : (State.begin s).MemOk := by
  unfold State.begin
  repeat' (first | with_reducible assumption | with_reducible apply State.onCont_memOk | with_reducible apply State.setMode_memOk | split)
theorem State.charge_memOk (s : State) (h0 : s.MemOk) : (State.charge s).MemOk := by
  unfold State.charge
  repeat' (first | with_reducible assumption | with_reducible apply State.onCore_memOk | with_reducible apply State.onCtl_memOk | (unfold State.MemOk; dsimp only; change State.MemOk _) | split)
theorem State.landOver_memOk (s : State) (t : Eff → Bool) (h0 : s.MemOk) : (State.landOver s t).MemOk := by
  unfold State.landOver
  repeat' (first | with_reducible assumption | (lift_lets; intro t; apply have_memOk (t := t); on_goal 1 => subst t) | with_reducible apply State.focus_memOk | with_reducible apply State.onCoreAt_memOk | with_reducible apply State.land_memOk | with_reducible apply foldl_memOk | with_reducible apply foldl_fst_memOk | dsimp only | split | exact fun _ h => h | intro _)
theorem State.stretchDie_memOk (s : State) (die : Nat) (h0 : s.MemOk) : (State.stretchDie s die).MemOk := by
  unfold State.stretchDie
  repeat' (first | with_reducible assumption | (lift_lets; intro t; apply have_memOk (t := t); on_goal 1 => subst t) | with_reducible apply State.onCoreAt_memOk | with_reducible apply foldl_memOk | (unfold State.MemOk; dsimp only; change State.MemOk _) | exact fun _ h => h | intro _)
theorem State.tick_memOk (s : State) (h0 : s.MemOk) : (State.tick s).MemOk := by
  unfold State.tick
  repeat' (first | with_reducible assumption | (lift_lets; intro t; apply have_memOk (t := t); on_goal 1 => subst t) | with_reducible apply State.onClk_memOk | with_reducible apply State.stretchDie_memOk | with_reducible apply foldl_memOk | intro _)
theorem State.workCmd_memOk (s : State) (id : Nat) (h0 : s.MemOk) : (State.workCmd s id).MemOk := by
  unfold State.workCmd
  repeat' (first | with_reducible assumption | with_reducible apply State.pushTo_memOk | with_reducible apply State.workCopy_memOk | with_reducible apply State.workHalo_memOk | with_reducible apply State.workPut_memOk | with_reducible apply State.workGet_memOk | with_reducible apply State.workColl_memOk | with_reducible apply State.workCkpt_memOk | split | intro _)
theorem State.workEngines_memOk (s : State) (h0 : s.MemOk) : (State.workEngines s).MemOk := by
  unfold State.workEngines
  repeat' (first | with_reducible assumption | with_reducible apply State.dropTags_memOk | with_reducible apply State.failedCkpts_memOk | with_reducible apply State.workCmd_memOk | with_reducible apply foldl_memOk)
theorem State.placeImage_memOk (s : State) (d : Nat) (ws : List Nat) (h0 : s.MemOk) : (s.placeImage d ws).MemOk :=
  State.wrBytes_memOk _ _ _ (State.wr_memOk _ _ _ _ (State.wr_memOk _ _ _ _ (State.wr_memOk _ _ _ _ (State.wr_memOk _ _ _ _ (State.wr_memOk _ _ _ _ (State.wr_memOk _ _ _ _ (State.wr_memOk _ _ _ _ (State.wr_memOk _ _ _ _ (State.wr_memOk _ _ _ _ (State.wr_memOk _ _ _ _ (State.wr_memOk _ _ _ _ (State.wr_memOk _ _ _ _ (State.wr_memOk _ _ _ _ h0)))))))))))))
theorem State.placeKernel_memOk (s : State) (ws : List Nat) (h0 : s.MemOk) : (State.placeKernel s ws).MemOk := by
  unfold State.placeKernel
  repeat' (first | with_reducible assumption | with_reducible apply State.onCore_memOk | with_reducible apply State.onSched_memOk | with_reducible apply State.onXl_memOk | with_reducible apply State.onHost_memOk | with_reducible apply State.onClk_memOk | with_reducible apply State.giveJtag_memOk | with_reducible apply State.setCont_memOk | with_reducible apply State.placeImage_memOk | (unfold State.MemOk; dsimp only; change State.MemOk _))
theorem exec_memOk (i : Instr) (s : State) (h0 : s.MemOk) : OutOk (exec i s) := by
  unfold exec
  repeat' (first
    | with_reducible assumption
    | with_reducible apply execNop_memOk
    | with_reducible apply execIdle_memOk
    | with_reducible apply execAdd_memOk
    | with_reducible apply execSub_memOk
    | with_reducible apply execMul_memOk
    | with_reducible apply execMulh_memOk
    | with_reducible apply execDiv_memOk
    | with_reducible apply execRem_memOk
    | with_reducible apply execAnd_memOk
    | with_reducible apply execOr_memOk
    | with_reducible apply execXor_memOk
    | with_reducible apply execSll_memOk
    | with_reducible apply execSrl_memOk
    | with_reducible apply execSra_memOk
    | with_reducible apply execSlli_memOk
    | with_reducible apply execSrli_memOk
    | with_reducible apply execSrai_memOk
    | with_reducible apply execMin_memOk
    | with_reducible apply execMax_memOk
    | with_reducible apply execClz_memOk
    | with_reducible apply execCtz_memOk
    | with_reducible apply execPopc_memOk
    | with_reducible apply execBext_memOk
    | with_reducible apply execBins_memOk
    | with_reducible apply execSel_memOk
    | with_reducible apply execAddsh_memOk
    | with_reducible apply execKset_memOk
    | with_reducible apply execKget_memOk
    | with_reducible apply execCrrd_memOk
    | with_reducible apply execCrwr_memOk
    | with_reducible apply execFadd_memOk
    | with_reducible apply execFmul_memOk
    | with_reducible apply execFcvt_memOk
    | with_reducible apply execAddi_memOk
    | with_reducible apply execAndi_memOk
    | with_reducible apply execOri_memOk
    | with_reducible apply execXori_memOk
    | with_reducible apply execMovi_memOk
    | with_reducible apply execMovh_memOk
    | with_reducible apply execLix_memOk
    | with_reducible apply execCmpeq_memOk
    | with_reducible apply execCmpeqImm_memOk
    | with_reducible apply execCmpne_memOk
    | with_reducible apply execCmpneImm_memOk
    | with_reducible apply execCmplt_memOk
    | with_reducible apply execCmpltImm_memOk
    | with_reducible apply execCmple_memOk
    | with_reducible apply execCmpleImm_memOk
    | with_reducible apply execCmpltu_memOk
    | with_reducible apply execCmpltuImm_memOk
    | with_reducible apply execCmpleu_memOk
    | with_reducible apply execCmpleuImm_memOk
    | with_reducible apply execFcmp_memOk
    | with_reducible apply execPand_memOk
    | with_reducible apply execPor_memOk
    | with_reducible apply execPxor_memOk
    | with_reducible apply execBr_memOk
    | with_reducible apply execCall_memOk
    | with_reducible apply execBrx_memOk
    | with_reducible apply execTranslationWalk_memOk
    | with_reducible apply execTlbinvCompletion_memOk
    | with_reducible apply execLd_memOk
    | with_reducible apply execSt_memOk
    | with_reducible apply execLdacq_memOk
    | with_reducible apply execStrel_memOk
    | with_reducible apply execPf_memOk
    | with_reducible apply execMark_memOk
    | with_reducible apply execFence_memOk
    | with_reducible apply execL1inv_memOk
    | with_reducible apply execAmoadd_memOk
    | with_reducible apply execAmoand_memOk
    | with_reducible apply execAmoor_memOk
    | with_reducible apply execAmoxor_memOk
    | with_reducible apply execAmomin_memOk
    | with_reducible apply execAmomax_memOk
    | with_reducible apply execAmoswap_memOk
    | with_reducible apply execAmocas_memOk
    | with_reducible apply execStld_memOk
    | with_reducible apply execStset_memOk
    | with_reducible apply execStget_memOk
    | with_reducible apply execStadv_memOk
    | with_reducible apply execVld_memOk
    | with_reducible apply execVldb_memOk
    | with_reducible apply execVst_memOk
    | with_reducible apply execVpf_memOk
    | with_reducible apply execVscat_memOk
    | with_reducible apply execVscadd_memOk
    | with_reducible apply execVscmax_memOk
    | with_reducible apply execVredst_memOk
    | with_reducible apply execVadd_memOk
    | with_reducible apply execVsub_memOk
    | with_reducible apply execVmul_memOk
    | with_reducible apply execVfma_memOk
    | with_reducible apply execVfms_memOk
    | with_reducible apply execVfnma_memOk
    | with_reducible apply execVmulh_memOk
    | with_reducible apply execVmin_memOk
    | with_reducible apply execVmax_memOk
    | with_reducible apply execVabs_memOk
    | with_reducible apply execVneg_memOk
    | with_reducible apply execVclamp_memOk
    | with_reducible apply execVrnd_memOk
    | with_reducible apply execVand_memOk
    | with_reducible apply execVor_memOk
    | with_reducible apply execVxor_memOk
    | with_reducible apply execVnot_memOk
    | with_reducible apply execVsll_memOk
    | with_reducible apply execVsrl_memOk
    | with_reducible apply execVsra_memOk
    | with_reducible apply execVcmpeq_memOk
    | with_reducible apply execVcmpne_memOk
    | with_reducible apply execVcmplt_memOk
    | with_reducible apply execVcmple_memOk
    | with_reducible apply execVclass_memOk
    | with_reducible apply execVsel_memOk
    | with_reducible apply execVmov_memOk
    | with_reducible apply execVbcast_memOk
    | with_reducible apply execVins_memOk
    | with_reducible apply execVext_memOk
    | with_reducible apply execVcvt_memOk
    | with_reducible apply execVcvt8_memOk
    | with_reducible apply execVquant_memOk
    | with_reducible apply execVdequant_memOk
    | with_reducible apply execVpack_memOk
    | with_reducible apply execVunpk_memOk
    | with_reducible apply execVshuf_memOk
    | with_reducible apply execVzip_memOk
    | with_reducible apply execVuzp_memOk
    | with_reducible apply execVrev_memOk
    | with_reducible apply execVslide_memOk
    | with_reducible apply execVgath_memOk
    | with_reducible apply execVrotm_memOk
    | with_reducible apply execVpark_memOk
    | with_reducible apply execVunpark_memOk
    | with_reducible apply execVexp2_memOk
    | with_reducible apply execVlog2_memOk
    | with_reducible apply execVrcp_memOk
    | with_reducible apply execVrsqrt_memOk
    | with_reducible apply execVsin_memOk
    | with_reducible apply execVcos_memOk
    | with_reducible apply execVtanh_memOk
    | with_reducible apply execVqraw_memOk
    | with_reducible apply execVunif_memOk
    | with_reducible apply execVnorm_memOk
    | with_reducible apply execVcat_memOk
    | with_reducible apply execVtopk_memOk
    | with_reducible apply execVtemp_memOk
    | with_reducible apply execRsum_memOk
    | with_reducible apply execRmax_memOk
    | with_reducible apply execRmin_memOk
    | with_reducible apply execRsumsq_memOk
    | with_reducible apply execRmov_memOk
    | with_reducible apply execRclr_memOk
    | with_reducible apply execMld_memOk
    | with_reducible apply execMldu_memOk
    | with_reducible apply execMldv_memOk
    | with_reducible apply execMst_memOk
    | with_reducible apply execMstu_memOk
    | with_reducible apply execMstv_memOk
    | with_reducible apply execMmov_memOk
    | with_reducible apply execMmac_memOk
    | with_reducible apply execMmacs_memOk
    | with_reducible apply execMmacr_memOk
    | with_reducible apply execMmacm_memOk
    | with_reducible apply execMmul_memOk
    | with_reducible apply execMadd_memOk
    | with_reducible apply execMsub_memOk
    | with_reducible apply execMscale_memOk
    | with_reducible apply execMtr_memOk
    | with_reducible apply execRecomp_memOk
    | with_reducible apply execDensify_memOk
    | with_reducible apply execMctl_memOk
    | with_reducible apply execMfree_memOk
    | with_reducible apply execMacrd_memOk
    | with_reducible apply execMacwr_memOk
    | with_reducible apply execAccld_memOk
    | with_reducible apply execAccwr_memOk
    | with_reducible apply execAccadd_memOk
    | with_reducible apply execAccclr_memOk
    | with_reducible apply execAccmv_memOk
    | with_reducible apply execAccscl_memOk
    | with_reducible apply execAccst_memOk
    | with_reducible apply execAccqst_memOk
    | with_reducible apply execRset_memOk
    | with_reducible apply execRwait_memOk
    | with_reducible apply execRadv_memOk
    | with_reducible apply execOwn_memOk
    | with_reducible apply execBarr_memOk
    | with_reducible apply execBwait_memOk
    | with_reducible apply execBwaitImm_memOk
    | with_reducible apply execBreset_memOk
    | with_reducible apply execBfree_memOk
    | with_reducible apply execBalloc_memOk
    | with_reducible apply execEcopy_memOk
    | with_reducible apply execHxch_memOk
    | with_reducible apply execReshard_memOk
    | with_reducible apply execRsload_memOk
    | with_reducible apply execColl_memOk
    | with_reducible apply execEdisp_memOk
    | with_reducible apply execEcomb_memOk
    | with_reducible apply execPut_memOk
    | with_reducible apply execGet_memOk
    | with_reducible apply execSpawn_memOk
    | with_reducible apply execYield_memOk
    | with_reducible apply execDone_memOk
    | with_reducible apply execJraise_memOk
    | with_reducible apply execCpost_memOk
    | with_reducible apply execSlice_memOk
    | with_reducible apply execTrap_memOk
    | with_reducible apply execBrk_memOk
    | with_reducible apply execSqset_memOk
    | with_reducible apply execSqapp_memOk
    | with_reducible apply execSqacc_memOk
    | with_reducible apply execSqrej_memOk
    | with_reducible apply execTsub_memOk
    | with_reducible apply execRverd_memOk
    | with_reducible apply execTlog_memOk
    | with_reducible apply execTsload_memOk
    | with_reducible apply execTsstat_memOk
    | with_reducible apply execLyrd_memOk
    | with_reducible apply execLywr_memOk
    | with_reducible apply execTlbinv_memOk
    | with_reducible apply execAclwr_memOk
    | with_reducible apply execCkpt_memOk
    | with_reducible apply execResultLanding_memOk
    | with_reducible apply execMatrixResultLanding_memOk
    | with_reducible apply execQueueEntryPerform_memOk
    | with_reducible apply execSpawnEnqueue_memOk
    | with_reducible apply execRecordAdmission_memOk
    | with_reducible apply execOffCoreLoadResponse_memOk
    | with_reducible apply execOffCoreFaultReport_memOk
    | with_reducible apply execBudgetExhausted_memOk
    | with_reducible apply execSafePoint_memOk
    | with_reducible apply execSafepointOverdue_memOk
    | with_reducible apply execRepetitionIssue_memOk
    | with_reducible apply execWaitConditionMet_memOk
    | with_reducible apply execWaitTimeout_memOk
    | with_reducible apply execSave_memOk
    | with_reducible apply execPacketExpansion_memOk
    | with_reducible apply execDispatch_memOk
    | with_reducible apply execGangClaim_memOk
    | with_reducible apply execGangAdmission_memOk
    | with_reducible apply execGangResume_memOk
    | with_reducible apply execTrapRecordClaim_memOk
    | with_reducible apply execResume_memOk
    | with_reducible apply execFault_memOk
    | with_reducible apply execEndTrapped_memOk
    | with_reducible apply execEndPost_memOk
    | with_reducible apply execJobCompletion_memOk
    | with_reducible apply execCompletionSignal_memOk
    | with_reducible apply execRecordCompletion_memOk
    | with_reducible apply execEngineCommandCompletion_memOk
    | with_reducible apply execEngineFailureReport_memOk
    | with_reducible apply execRingBlockTransfer_memOk
    | with_reducible apply execPipeTileCopy_memOk
    | with_reducible apply execHaloFaceArrival_memOk
    | with_reducible apply execReshardStep_memOk
    | with_reducible apply execStepTokenArrival_memOk
    | with_reducible apply execBarrierArrival_memOk
    | with_reducible apply execRequestArrival_memOk
    | with_reducible apply execAcknowledgement_memOk
    | with_reducible apply execEndToEndResend_memOk
    | with_reducible apply execFabricOutcomeUnknown_memOk
    | with_reducible apply execCriticalResend_memOk
    | with_reducible apply execCriticalFlitLost_memOk
    | with_reducible apply execFlitArrival_memOk
    | with_reducible apply execPlaneFailure_memOk
    | with_reducible apply execPlaneRejoin_memOk
    | with_reducible apply execLinkTraining_memOk
    | with_reducible apply execRekey_memOk
    | with_reducible apply execSlotAlignmentLoss_memOk
    | with_reducible apply execCheckpointCopy_memOk
    | with_reducible apply execCheckpointCommit_memOk
    | with_reducible apply execResumption_memOk
    | with_reducible apply execPush_memOk
    | with_reducible apply execBar0Write_memOk
    | with_reducible apply execClaim_memOk
    | with_reducible apply execHandover_memOk
    | with_reducible apply execHandoverLapse_memOk
    | with_reducible apply execOwnerLinkDown_memOk
    | with_reducible apply execAttest_memOk
    | with_reducible apply execQuoteCompletion_memOk
    | with_reducible apply execBar4Write_memOk
    | with_reducible apply execBar4Read_memOk
    | with_reducible apply execBoot_memOk
    | with_reducible apply execUncorrectableError_memOk
    | with_reducible apply execCorrectedError_memOk
    | with_reducible apply execThrottle_memOk
    | with_reducible apply execPowerRemoval_memOk
    | split)
theorem State.withFetchWord_memOk (s : State) (nbits w : Nat) (h0 : s.MemOk) : (State.withFetchWord s nbits w).MemOk := by
  unfold State.withFetchWord
  repeat' (first | with_reducible assumption | with_reducible apply State.placeKernel_memOk)

/-! The runners of a cycle, for any executor that keeps the form. -/

variable {ex : Instr → State → Out}

theorem runAll_memOk (hx : ∀ i s, s.MemOk → OutOk (ex i s)) : ∀ (l : List Instr) (s : State), s.MemOk → OutOk (runAll ex l s)
  | [], _, h => next_memOk h
  | i :: r, s, h => thenDo_memOk (hx i s h) (runAll_memOk hx r)
theorem runStages_memOk (hx : ∀ i s, s.MemOk → OutOk (ex i s)) : ∀ (l : List Stage) (s : State), (∀ p ∈ l, ∀ s : State, s.MemOk → (p.prepare s).MemOk) → s.MemOk → OutOk (runStages ex l s)
  | [], _, _, h => next_memOk h
  | p :: r, s, hp, h =>
    thenDo_memOk (runAll_memOk hx _ _ (hp p (List.mem_cons_self ..) s h)) fun s h => runStages_memOk hx r s (fun q hq => hp q (List.mem_cons_of_mem p hq)) h
theorem runSlots_memOk (hx : ∀ i s, s.MemOk → OutOk (ex i s)) : ∀ (l : List (Nat × Instr)) (s : State), s.MemOk → OutOk (runSlots ex l s)
  | [], _, h => next_memOk h
  | (k, i) :: r, s, h => thenDo_memOk (hx i _ (enterSlot_memOk k i s h)) fun s h => runSlots_memOk hx r _ (raiseFlaw_memOk i s h)
theorem issueRepetition_memOk (hx : ∀ i s, s.MemOk → OutOk (ex i s)) (s : State) (h : s.MemOk) : OutOk (issueRepetition ex s) := by
  unfold issueRepetition
  split
  · exact next_memOk h
  · exact thenDo_memOk (runSlots_memOk hx _ s h) fun s h => next_memOk (State.settle_memOk s h)
theorem runCalc_memOk (hx : ∀ i s, s.MemOk → OutOk (ex i s)) (p : Pend) (s : State) (h : s.MemOk) : OutOk (runCalc ex p s) := by
  unfold runCalc
  split
  · have h1 : ∀ f : Core → Core, (s.onCore f).MemOk := fun f => State.onCore_memOk s f h
    dsimp only
    split
    · exact next_memOk (State.reportCalc_memOk _ _ _ (State.onIss_memOk _ _ (h1 _)))
    · exact thenDo_memOk (hx _ _ (h1 _)) fun s h => next_memOk (foldl_memOk (State.onCore_memOk _ _ h) fun s _ h => State.reportCalc_memOk s _ _ h)
  · exact next_memOk h
theorem runCalcs_memOk (hx : ∀ i s, s.MemOk → OutOk (ex i s)) : ∀ (l : List Pend) (s : State), s.MemOk → OutOk (runCalcs ex l s)
  | [], _, h => next_memOk h
  | p :: r, s, h => thenDo_memOk (runCalc_memOk hx p s h) (runCalcs_memOk hx r)
theorem coreHead_memOk (hx : ∀ i s, s.MemOk → OutOk (ex i s)) (s : State) (h : s.MemOk) : OutOk (coreHead ex s) := runAll_memOk hx _ _ (State.workDevices_memOk _ (State.fetchGate_memOk _ (State.begin_memOk s h)))
theorem coreTail_memOk (hx : ∀ i s, s.MemOk → OutOk (ex i s)) (s : State) (h : s.MemOk) : OutOk (coreTail ex s) :=
  thenDo_memOk (runCalcs_memOk hx _ _ (State.charge_memOk s h)) fun s h =>
  thenDo_memOk (runAll_memOk hx _ s h) fun s h =>
  thenDo_memOk (runAll_memOk hx _ s h) fun s h =>
  thenDo_memOk (hx _ s h) fun s h => next_memOk (State.settleStop_memOk s h)
theorem coreCycle_memOk (hx : ∀ i s, s.MemOk → OutOk (ex i s)) (s : State) (h : s.MemOk) : OutOk (coreCycle ex s) :=
  thenDo_memOk (coreHead_memOk hx s h) fun s h => thenDo_memOk (issueRepetition_memOk hx s h) fun s h => coreTail_memOk hx s h
theorem runWaits_memOk (hx : ∀ i s, s.MemOk → OutOk (ex i s)) : ∀ (l : List Nat) (s : State), s.MemOk → OutOk (runWaits ex l s)
  | [], _, h => next_memOk h
  | c :: r, s, h => thenDo_memOk (runAll_memOk hx _ _ (State.focus_memOk s c h)) (runWaits_memOk hx r)
theorem sharedCycle_memOk (hx : ∀ i s, s.MemOk → OutOk (ex i s)) (l : List Stage) (hl : ∀ p ∈ l, ∀ s : State, s.MemOk → (p.prepare s).MemOk) (s : State) (h : s.MemOk) :
    OutOk (sharedCycle ex l s) :=
  thenDo_memOk (runStages_memOk hx l _ hl (State.landOver_memOk s _ h)) fun s h =>
    thenDo_memOk (runWaits_memOk hx _ _ (State.landOver_memOk s _ h)) fun s h => next_memOk (State.routeAll_memOk _ (State.tick_memOk s h))

end Sys2Proof.Machine
end

