-- ==== Sys2Proof/Laws/PerInstr.lean ====
section
/-! SUPPORT. Per-instruction statements: encoding a well-formed operation and reading the words back gives the operation, in every slot class that holds it (R72 to R74, R79 to R82, R104 to R111). -/

namespace Sys2Proof.Laws
set_option Elab.async false

/-- Reading back what was encoded gives the operation: in every class that holds it, and as a tree. -/
def RoundTrip.Statement (i : Instr) : Prop :=
  (∀ c ∈ i.classes, i.wf = true → decodeSlot c (encodeWord i) (encodeExt i) = .ok i) ∧
    ∀ t, i.tree = some t → i.wf = true → decodeTree t.full (encodeTree i) = some i

/-! Fields. -/

theorem fld_eq {w lo n : Nat} {x : BitVec n} (h : w / 2 ^ lo % 2 ^ n = x.toNat) : fld w lo n = x := by
  apply BitVec.eq_of_toNat_eq; simp [fld, BitVec.toNat_ofNat, h]
theorem bit_eq {w i : Nat} {b : Bool} (h : w / 2 ^ i % 2 = b.toNat) : bit w i = b := by
  unfold bit; cases b <;> simp_all
theorem scope_code_lt (s : Scope) : s.code < 8 := by cases s <;> decide
theorem scope_ofCode_code (s : Scope) : Scope.ofCode s.code = some s := by cases s <;> rfl
theorem mulh_code_lt (s : MulhKind) : s.code < 4 := by cases s <;> decide
theorem mulh_ofCode_code (s : MulhKind) : MulhKind.ofCode s.code = some s := by cases s <;> rfl
theorem width_code_lt (s : Width) : s.code < 4 := by cases s <;> decide
theorem width_ofCode_code (s : Width) : Width.ofCode s.code = some s := by cases s <;> rfl
theorem ety_code_lt (s : ETy) : s.code < 8 := by cases s <;> decide
theorem etyOf_code (s : ETy) : etyOf s.code = some s := by cases s <;> rfl

/-! Records of fields. -/

theorem lf_bits_lt (f : LF) : f.bits < 2 ^ 26 := by
  have := f.v.isLt; have := f.st.isLt; have := width_code_lt f.w; have := f.k.isLt; have := ety_code_lt f.t; have := f.form.isLt
  unfold LF.bits; omega
theorem readLF_bits (f : LF) (w : Nat) (h : w % 2 ^ 26 = f.bits) : readLF w = some f := by
  have := f.v.isLt; have := f.st.isLt; have := width_code_lt f.w; have := f.k.isLt; have := ety_code_lt f.t; have := f.form.isLt
  unfold LF.bits at h
  unfold readLF
  rw [show w / 2 ^ 14 % 4 = f.w.code by omega, width_ofCode_code, show w / 2 ^ 8 % 8 = f.t.code by omega, etyOf_code]
  simp only [show fld w 21 5 = f.v from fld_eq (by omega), show fld w 16 5 = f.st from fld_eq (by omega), show fld w 11 3 = f.k from fld_eq (by omega),
    show fld w 0 8 = f.form from fld_eq (by omega)]
theorem vf_bits_lt (f : VF) : f.bits < 2 ^ 26 := by
  have := width_code_lt f.w; have := ety_code_lt f.t; have := f.d.isLt; have := f.a.isLt; have := f.b.isLt; have := Bool.toNat_lt f.sb
  have := f.k.isLt; have := f.md.isLt
  unfold VF.bits; omega
theorem readVF_bits (f : VF) (w : Nat) (h : w % 2 ^ 26 = f.bits) : readVF w = some f := by
  have := width_code_lt f.w; have := ety_code_lt f.t; have := f.d.isLt; have := f.a.isLt; have := f.b.isLt; have := Bool.toNat_lt f.sb
  have := f.k.isLt; have := f.md.isLt
  unfold VF.bits at h
  unfold readVF
  rw [show w / 2 ^ 24 % 4 = f.w.code by omega, width_ofCode_code, show w / 2 ^ 21 % 8 = f.t.code by omega, etyOf_code]
  simp only [show fld w 16 5 = f.d from fld_eq (by omega), show fld w 11 5 = f.a from fld_eq (by omega), show fld w 6 5 = f.b from fld_eq (by omega),
    show bit w 5 = f.sb from bit_eq (by omega), show fld w 2 3 = f.k from fld_eq (by omega), show fld w 0 2 = f.md from fld_eq (by omega)]
theorem rf_bits_lt (f : RF) : f.bits < 2 ^ 26 := by
  have := width_code_lt f.w; have := f.latch.isLt; have := f.va.isLt; have := Bool.toNat_lt f.sa; have := f.k.isLt; have := f.mode.isLt
  unfold RF.bits; omega
theorem readRF_bits (f : RF) (w : Nat) (h : w % 2 ^ 26 = f.bits) : readRF w = some f := by
  have := width_code_lt f.w; have := f.latch.isLt; have := f.va.isLt; have := Bool.toNat_lt f.sa; have := f.k.isLt; have := f.mode.isLt
  unfold RF.bits at h
  unfold readRF
  rw [show w / 2 ^ 24 % 4 = f.w.code by omega, width_ofCode_code]
  simp only [show fld w 22 2 = f.latch from fld_eq (by omega), show fld w 17 5 = f.va from fld_eq (by omega), show bit w 16 = f.sa from bit_eq (by omega),
    show fld w 13 3 = f.k from fld_eq (by omega), show fld w 11 2 = f.mode from fld_eq (by omega)]
theorem mf_bits_lt (f : MF) : f.bits < 2 ^ 26 := by
  have := f.md.isLt; have := f.ma.isLt; have := f.mb.isLt; have := f.bank.isLt; have := f.fmt.isLt; have := f.mods.isLt
  unfold MF.bits; omega
theorem readMF_bits (f : MF) (w : Nat) (h : w % 2 ^ 26 = f.bits) : readMF w = f := by
  have := f.md.isLt; have := f.ma.isLt; have := f.mb.isLt; have := f.bank.isLt; have := f.fmt.isLt; have := f.mods.isLt
  unfold MF.bits at h
  simp only [readMF, show fld w 22 4 = f.md from fld_eq (by omega), show fld w 18 4 = f.ma from fld_eq (by omega), show fld w 14 4 = f.mb from fld_eq (by omega),
    show fld w 10 4 = f.bank from fld_eq (by omega), show fld w 5 5 = f.fmt from fld_eq (by omega), show fld w 0 5 = f.mods from fld_eq (by omega)]
theorem af_bits_lt (f : AF) : f.bits < 2 ^ 26 := by
  have := f.bank.isLt; have := f.stream.isLt; have := f.vreg.isLt; have := f.x.isLt; have := Bool.toNat_lt f.hist; have := f.mods.isLt
  unfold AF.bits; omega
theorem readAF_bits (f : AF) (w : Nat) (h : w % 2 ^ 26 = f.bits) : readAF w = f := by
  have := f.bank.isLt; have := f.stream.isLt; have := f.vreg.isLt; have := f.x.isLt; have := Bool.toNat_lt f.hist; have := f.mods.isLt
  unfold AF.bits at h
  simp only [readAF, show fld w 22 4 = f.bank from fld_eq (by omega), show fld w 17 5 = f.stream from fld_eq (by omega), show fld w 12 5 = f.vreg from fld_eq (by omega),
    show fld w 8 4 = f.x from fld_eq (by omega), show bit w 7 = f.hist from bit_eq (by omega), show fld w 0 7 = f.mods from fld_eq (by omega)]

/-! Slots. -/

theorem decodeSlot_eq {c : Cls} {i : Instr} {o : Nat} (ho : encodeWord i / 2 ^ 26 = o) (ha : opAssigned c o = true)
    (hr : raw c (encodeWord i) (encodeExt i) = .ok i) (hw : i.wf = true) : decodeSlot c (encodeWord i) (encodeExt i) = .ok i := by
  rw [decodeSlot, ho, if_pos ha, hr]; exact if_pos ⟨rfl, rfl, hw⟩
/-- An operation that one class holds. -/
theorem RoundTrip.Statement.slot {c : Cls} {i : Instr} (hc : i.classes = [c]) (ht : i.tree = none)
    (h : i.wf = true → decodeSlot c (encodeWord i) (encodeExt i) = .ok i) : RoundTrip.Statement i :=
  ⟨fun d hd hw => by rw [hc] at hd; rw [List.mem_singleton.mp hd]; exact h hw, fun t h' => by rw [ht] at h'; cases h'⟩
/-- An event: no class holds it and it is no tree. -/
theorem RoundTrip.Statement.event {i : Instr} (hc : i.classes = []) (ht : i.tree = none) : RoundTrip.Statement i :=
  ⟨fun d hd => by (rw [hc] at hd; cases hd), fun t h' => by (rw [ht] at h'; cases h')⟩
/-- The quotient and the remainder of a word of an opcode and the fields below it. -/
theorem word_parts {w b o : Nat} (h : w = b * 2 ^ 0 + o * 2 ^ 26) (hb : b < 2 ^ 26) : w / 2 ^ 26 = o ∧ w % 2 ^ 26 = b := by omega
theorem vec_round {i : Instr} {f : VF} {o : Nat} (he : encodeWord i = f.bits * 2 ^ 0 + o * 2 ^ 26) (hw : i.wf = true)
    (ha : opAssigned .vec o = true ∧ o ≠ 0) (hf : vecForm o f = some i) : decodeSlot .vec (encodeWord i) (encodeExt i) = .ok i := by
  have ⟨h1, h2⟩ := word_parts he (vf_bits_lt f)
  refine decodeSlot_eq h1 ha.1 ?_ hw
  simp only [raw, rawVec, h1, if_neg ha.2, readVF_bits f _ h2, hf]
theorem red_round {i : Instr} {f : RF} {o : Nat} (he : encodeWord i = f.bits * 2 ^ 0 + o * 2 ^ 26) (hw : i.wf = true)
    (ha : opAssigned .red o = true ∧ o ≠ 0) (hf : redForm o f = some i) : decodeSlot .red (encodeWord i) (encodeExt i) = .ok i := by
  have ⟨h1, h2⟩ := word_parts he (rf_bits_lt f)
  refine decodeSlot_eq h1 ha.1 ?_ hw
  simp only [raw, rawRed, h1, if_neg ha.2, readRF_bits f _ h2, hf]
theorem ls_round {i : Instr} {f : LF} {o : Nat} (he : encodeWord i = f.bits * 2 ^ 0 + o * 2 ^ 26) (hw : i.wf = true) (ha : opAssigned .ls o = true)
    (hf : ∀ w, w / 2 ^ 26 = o → readLF w = some f → rawLs w = .ok i) : decodeSlot .ls (encodeWord i) (encodeExt i) = .ok i := by
  have ⟨h1, h2⟩ := word_parts he (lf_bits_lt f)
  exact decodeSlot_eq h1 ha (hf _ h1 (readLF_bits f _ h2)) hw
theorem mx_round {i : Instr} {f : MF} {o : Nat} (he : encodeWord i = f.bits * 2 ^ 0 + o * 2 ^ 26) (hw : i.wf = true) (ha : opAssigned .mx o = true)
    (hf : ∀ w, w / 2 ^ 26 = o → readMF w = f → rawMx w = .ok i) : decodeSlot .mx (encodeWord i) (encodeExt i) = .ok i := by
  have ⟨h1, h2⟩ := word_parts he (mf_bits_lt f)
  exact decodeSlot_eq h1 ha (hf _ h1 (readMF_bits f _ h2)) hw
theorem ap_round {i : Instr} {f : AF} {o : Nat} (he : encodeWord i = f.bits * 2 ^ 0 + o * 2 ^ 26) (hw : i.wf = true) (ha : opAssigned .ap o = true)
    (hf : ∀ w, w / 2 ^ 26 = o → readAF w = f → rawAp w = .ok i) : decodeSlot .ap (encodeWord i) (encodeExt i) = .ok i := by
  have ⟨h1, h2⟩ := word_parts he (af_bits_lt f)
  exact decodeSlot_eq h1 ha (hf _ h1 (readAF_bits f _ h2)) hw

/-! One lemma for each constructor. -/

theorem RoundTrip.add (d a b : BitVec 5) : RoundTrip.Statement (.add d a b) := by
  refine .slot (c := .scalar) rfl rfl fun hw => ?_
  have := d.isLt; have := a.isLt; have := b.isLt
  have he : encodeWord (.add d a b) = 1 * 2 ^ 26 + d.toNat * 2 ^ 21 + a.toNat * 2 ^ 16 + b.toNat * 2 ^ 11 + 0 := rfl
  have ho : encodeWord (.add d a b) / 2 ^ 26 = 1 := by rw [he]; omega
  refine decodeSlot_eq ho (by decide) ?_ hw
  generalize encodeWord (.add d a b) = w at he ho
  simp only [raw, rawScalar, ho]
  rw [show fld w 21 5 = d from fld_eq (by omega), show fld w 16 5 = a from fld_eq (by omega), show fld w 11 5 = b from fld_eq (by omega)]

theorem RoundTrip.sub (d a b : BitVec 5) : RoundTrip.Statement (.sub d a b) := by
  refine .slot (c := .scalar) rfl rfl fun hw => ?_
  have := d.isLt; have := a.isLt; have := b.isLt
  have he : encodeWord (.sub d a b) = 2 * 2 ^ 26 + d.toNat * 2 ^ 21 + a.toNat * 2 ^ 16 + b.toNat * 2 ^ 11 + 0 := rfl
  have ho : encodeWord (.sub d a b) / 2 ^ 26 = 2 := by rw [he]; omega
  refine decodeSlot_eq ho (by decide) ?_ hw
  generalize encodeWord (.sub d a b) = w at he ho
  simp only [raw, rawScalar, ho]
  rw [show fld w 21 5 = d from fld_eq (by omega), show fld w 16 5 = a from fld_eq (by omega), show fld w 11 5 = b from fld_eq (by omega)]

theorem RoundTrip.mul (d a b : BitVec 5) : RoundTrip.Statement (.mul d a b) := by
  refine .slot (c := .scalar) rfl rfl fun hw => ?_
  have := d.isLt; have := a.isLt; have := b.isLt
  have he : encodeWord (.mul d a b) = 3 * 2 ^ 26 + d.toNat * 2 ^ 21 + a.toNat * 2 ^ 16 + b.toNat * 2 ^ 11 + 0 := rfl
  have ho : encodeWord (.mul d a b) / 2 ^ 26 = 3 := by rw [he]; omega
  refine decodeSlot_eq ho (by decide) ?_ hw
  generalize encodeWord (.mul d a b) = w at he ho
  simp only [raw, rawScalar, ho]
  rw [show fld w 21 5 = d from fld_eq (by omega), show fld w 16 5 = a from fld_eq (by omega), show fld w 11 5 = b from fld_eq (by omega)]

theorem RoundTrip.mulh (d a b : BitVec 5) (f : MulhKind) : RoundTrip.Statement (.mulh d a b f) := by
  refine .slot (c := .scalar) rfl rfl fun hw => ?_
  have := d.isLt; have := a.isLt; have := b.isLt; have := mulh_code_lt f
  have he : encodeWord (.mulh d a b f) = 4 * 2 ^ 26 + d.toNat * 2 ^ 21 + a.toNat * 2 ^ 16 + b.toNat * 2 ^ 11 + f.code := rfl
  have ho : encodeWord (.mulh d a b f) / 2 ^ 26 = 4 := by rw [he]; omega
  refine decodeSlot_eq ho (by decide) ?_ hw
  generalize encodeWord (.mulh d a b f) = w at he ho
  simp only [raw, rawScalar, ho]
  rw [show w % 4 = f.code from by omega, mulh_ofCode_code, show fld w 21 5 = d from fld_eq (by omega), show fld w 16 5 = a from fld_eq (by omega), show fld w 11 5 = b from fld_eq (by omega)]

theorem RoundTrip.div (d a b : BitVec 5) (u : Bool) : RoundTrip.Statement (.div d a b u) := by
  refine .slot (c := .scalar) rfl rfl fun hw => ?_
  have := d.isLt; have := a.isLt; have := b.isLt; have := Bool.toNat_lt u
  have he : encodeWord (.div d a b u) = 5 * 2 ^ 26 + d.toNat * 2 ^ 21 + a.toNat * 2 ^ 16 + b.toNat * 2 ^ 11 + u.toNat := rfl
  have ho : encodeWord (.div d a b u) / 2 ^ 26 = 5 := by rw [he]; omega
  refine decodeSlot_eq ho (by decide) ?_ hw
  generalize encodeWord (.div d a b u) = w at he ho
  simp only [raw, rawScalar, ho]
  rw [show fld w 21 5 = d from fld_eq (by omega), show fld w 16 5 = a from fld_eq (by omega), show fld w 11 5 = b from fld_eq (by omega), show bit w 0 = u from bit_eq (by omega)]

theorem RoundTrip.rem (d a b : BitVec 5) (u : Bool) : RoundTrip.Statement (.rem d a b u) := by
  refine .slot (c := .scalar) rfl rfl fun hw => ?_
  have := d.isLt; have := a.isLt; have := b.isLt; have := Bool.toNat_lt u
  have he : encodeWord (.rem d a b u) = 6 * 2 ^ 26 + d.toNat * 2 ^ 21 + a.toNat * 2 ^ 16 + b.toNat * 2 ^ 11 + u.toNat := rfl
  have ho : encodeWord (.rem d a b u) / 2 ^ 26 = 6 := by rw [he]; omega
  refine decodeSlot_eq ho (by decide) ?_ hw
  generalize encodeWord (.rem d a b u) = w at he ho
  simp only [raw, rawScalar, ho]
  rw [show fld w 21 5 = d from fld_eq (by omega), show fld w 16 5 = a from fld_eq (by omega), show fld w 11 5 = b from fld_eq (by omega), show bit w 0 = u from bit_eq (by omega)]

theorem RoundTrip.and (d a b : BitVec 5) : RoundTrip.Statement (.and d a b) := by
  refine .slot (c := .scalar) rfl rfl fun hw => ?_
  have := d.isLt; have := a.isLt; have := b.isLt
  have he : encodeWord (.and d a b) = 7 * 2 ^ 26 + d.toNat * 2 ^ 21 + a.toNat * 2 ^ 16 + b.toNat * 2 ^ 11 + 0 := rfl
  have ho : encodeWord (.and d a b) / 2 ^ 26 = 7 := by rw [he]; omega
  refine decodeSlot_eq ho (by decide) ?_ hw
  generalize encodeWord (.and d a b) = w at he ho
  simp only [raw, rawScalar, ho]
  rw [show fld w 21 5 = d from fld_eq (by omega), show fld w 16 5 = a from fld_eq (by omega), show fld w 11 5 = b from fld_eq (by omega)]

theorem RoundTrip.or (d a b : BitVec 5) : RoundTrip.Statement (.or d a b) := by
  refine .slot (c := .scalar) rfl rfl fun hw => ?_
  have := d.isLt; have := a.isLt; have := b.isLt
  have he : encodeWord (.or d a b) = 8 * 2 ^ 26 + d.toNat * 2 ^ 21 + a.toNat * 2 ^ 16 + b.toNat * 2 ^ 11 + 0 := rfl
  have ho : encodeWord (.or d a b) / 2 ^ 26 = 8 := by rw [he]; omega
  refine decodeSlot_eq ho (by decide) ?_ hw
  generalize encodeWord (.or d a b) = w at he ho
  simp only [raw, rawScalar, ho]
  rw [show fld w 21 5 = d from fld_eq (by omega), show fld w 16 5 = a from fld_eq (by omega), show fld w 11 5 = b from fld_eq (by omega)]

theorem RoundTrip.xor (d a b : BitVec 5) : RoundTrip.Statement (.xor d a b) := by
  refine .slot (c := .scalar) rfl rfl fun hw => ?_
  have := d.isLt; have := a.isLt; have := b.isLt
  have he : encodeWord (.xor d a b) = 9 * 2 ^ 26 + d.toNat * 2 ^ 21 + a.toNat * 2 ^ 16 + b.toNat * 2 ^ 11 + 0 := rfl
  have ho : encodeWord (.xor d a b) / 2 ^ 26 = 9 := by rw [he]; omega
  refine decodeSlot_eq ho (by decide) ?_ hw
  generalize encodeWord (.xor d a b) = w at he ho
  simp only [raw, rawScalar, ho]
  rw [show fld w 21 5 = d from fld_eq (by omega), show fld w 16 5 = a from fld_eq (by omega), show fld w 11 5 = b from fld_eq (by omega)]

theorem RoundTrip.sll (d a b : BitVec 5) : RoundTrip.Statement (.sll d a b) := by
  refine .slot (c := .scalar) rfl rfl fun hw => ?_
  have := d.isLt; have := a.isLt; have := b.isLt
  have he : encodeWord (.sll d a b) = 10 * 2 ^ 26 + d.toNat * 2 ^ 21 + a.toNat * 2 ^ 16 + b.toNat * 2 ^ 11 + 0 := rfl
  have ho : encodeWord (.sll d a b) / 2 ^ 26 = 10 := by rw [he]; omega
  refine decodeSlot_eq ho (by decide) ?_ hw
  generalize encodeWord (.sll d a b) = w at he ho
  simp only [raw, rawScalar, ho]
  rw [show fld w 21 5 = d from fld_eq (by omega), show fld w 16 5 = a from fld_eq (by omega), show fld w 11 5 = b from fld_eq (by omega)]

theorem RoundTrip.srl (d a b : BitVec 5) : RoundTrip.Statement (.srl d a b) := by
  refine .slot (c := .scalar) rfl rfl fun hw => ?_
  have := d.isLt; have := a.isLt; have := b.isLt
  have he : encodeWord (.srl d a b) = 11 * 2 ^ 26 + d.toNat * 2 ^ 21 + a.toNat * 2 ^ 16 + b.toNat * 2 ^ 11 + 0 := rfl
  have ho : encodeWord (.srl d a b) / 2 ^ 26 = 11 := by rw [he]; omega
  refine decodeSlot_eq ho (by decide) ?_ hw
  generalize encodeWord (.srl d a b) = w at he ho
  simp only [raw, rawScalar, ho]
  rw [show fld w 21 5 = d from fld_eq (by omega), show fld w 16 5 = a from fld_eq (by omega), show fld w 11 5 = b from fld_eq (by omega)]

theorem RoundTrip.sra (d a b : BitVec 5) : RoundTrip.Statement (.sra d a b) := by
  refine .slot (c := .scalar) rfl rfl fun hw => ?_
  have := d.isLt; have := a.isLt; have := b.isLt
  have he : encodeWord (.sra d a b) = 12 * 2 ^ 26 + d.toNat * 2 ^ 21 + a.toNat * 2 ^ 16 + b.toNat * 2 ^ 11 + 0 := rfl
  have ho : encodeWord (.sra d a b) / 2 ^ 26 = 12 := by rw [he]; omega
  refine decodeSlot_eq ho (by decide) ?_ hw
  generalize encodeWord (.sra d a b) = w at he ho
  simp only [raw, rawScalar, ho]
  rw [show fld w 21 5 = d from fld_eq (by omega), show fld w 16 5 = a from fld_eq (by omega), show fld w 11 5 = b from fld_eq (by omega)]

theorem RoundTrip.slli (d a : BitVec 5) (n : BitVec 6) : RoundTrip.Statement (.slli d a n) := by
  refine .slot (c := .scalar) rfl rfl fun hw => ?_
  have := d.isLt; have := a.isLt; have := n.isLt
  have he : encodeWord (.slli d a n) = 13 * 2 ^ 26 + d.toNat * 2 ^ 21 + a.toNat * 2 ^ 16 + (0#5).toNat * 2 ^ 11 + n.toNat := rfl
  have ho : encodeWord (.slli d a n) / 2 ^ 26 = 13 := by rw [he]; simp only [BitVec.toNat_ofNat]; omega
  refine decodeSlot_eq ho (by decide) ?_ hw
  simp only [BitVec.toNat_ofNat] at he
  generalize encodeWord (.slli d a n) = w at he ho
  simp only [raw, rawScalar, ho]
  rw [show fld w 21 5 = d from fld_eq (by omega), show fld w 16 5 = a from fld_eq (by omega), show fld w 0 6 = n from fld_eq (by omega)]

theorem RoundTrip.srli (d a : BitVec 5) (n : BitVec 6) : RoundTrip.Statement (.srli d a n) := by
  refine .slot (c := .scalar) rfl rfl fun hw => ?_
  have := d.isLt; have := a.isLt; have := n.isLt
  have he : encodeWord (.srli d a n) = 14 * 2 ^ 26 + d.toNat * 2 ^ 21 + a.toNat * 2 ^ 16 + (0#5).toNat * 2 ^ 11 + n.toNat := rfl
  have ho : encodeWord (.srli d a n) / 2 ^ 26 = 14 := by rw [he]; simp only [BitVec.toNat_ofNat]; omega
  refine decodeSlot_eq ho (by decide) ?_ hw
  simp only [BitVec.toNat_ofNat] at he
  generalize encodeWord (.srli d a n) = w at he ho
  simp only [raw, rawScalar, ho]
  rw [show fld w 21 5 = d from fld_eq (by omega), show fld w 16 5 = a from fld_eq (by omega), show fld w 0 6 = n from fld_eq (by omega)]

theorem RoundTrip.srai (d a : BitVec 5) (n : BitVec 6) : RoundTrip.Statement (.srai d a n) := by
  refine .slot (c := .scalar) rfl rfl fun hw => ?_
  have := d.isLt; have := a.isLt; have := n.isLt
  have he : encodeWord (.srai d a n) = 15 * 2 ^ 26 + d.toNat * 2 ^ 21 + a.toNat * 2 ^ 16 + (0#5).toNat * 2 ^ 11 + n.toNat := rfl
  have ho : encodeWord (.srai d a n) / 2 ^ 26 = 15 := by rw [he]; simp only [BitVec.toNat_ofNat]; omega
  refine decodeSlot_eq ho (by decide) ?_ hw
  simp only [BitVec.toNat_ofNat] at he
  generalize encodeWord (.srai d a n) = w at he ho
  simp only [raw, rawScalar, ho]
  rw [show fld w 21 5 = d from fld_eq (by omega), show fld w 16 5 = a from fld_eq (by omega), show fld w 0 6 = n from fld_eq (by omega)]

theorem RoundTrip.min (d a b : BitVec 5) (u : Bool) : RoundTrip.Statement (.min d a b u) := by
  refine .slot (c := .scalar) rfl rfl fun hw => ?_
  have := d.isLt; have := a.isLt; have := b.isLt; have := Bool.toNat_lt u
  have he : encodeWord (.min d a b u) = 16 * 2 ^ 26 + d.toNat * 2 ^ 21 + a.toNat * 2 ^ 16 + b.toNat * 2 ^ 11 + u.toNat := rfl
  have ho : encodeWord (.min d a b u) / 2 ^ 26 = 16 := by rw [he]; omega
  refine decodeSlot_eq ho (by decide) ?_ hw
  generalize encodeWord (.min d a b u) = w at he ho
  simp only [raw, rawScalar, ho]
  rw [show fld w 21 5 = d from fld_eq (by omega), show fld w 16 5 = a from fld_eq (by omega), show fld w 11 5 = b from fld_eq (by omega), show bit w 0 = u from bit_eq (by omega)]

theorem RoundTrip.max (d a b : BitVec 5) (u : Bool) : RoundTrip.Statement (.max d a b u) := by
  refine .slot (c := .scalar) rfl rfl fun hw => ?_
  have := d.isLt; have := a.isLt; have := b.isLt; have := Bool.toNat_lt u
  have he : encodeWord (.max d a b u) = 17 * 2 ^ 26 + d.toNat * 2 ^ 21 + a.toNat * 2 ^ 16 + b.toNat * 2 ^ 11 + u.toNat := rfl
  have ho : encodeWord (.max d a b u) / 2 ^ 26 = 17 := by rw [he]; omega
  refine decodeSlot_eq ho (by decide) ?_ hw
  generalize encodeWord (.max d a b u) = w at he ho
  simp only [raw, rawScalar, ho]
  rw [show fld w 21 5 = d from fld_eq (by omega), show fld w 16 5 = a from fld_eq (by omega), show fld w 11 5 = b from fld_eq (by omega), show bit w 0 = u from bit_eq (by omega)]

theorem RoundTrip.clz (d a : BitVec 5) : RoundTrip.Statement (.clz d a) := by
  refine .slot (c := .scalar) rfl rfl fun hw => ?_
  have := d.isLt; have := a.isLt
  have he : encodeWord (.clz d a) = 18 * 2 ^ 26 + d.toNat * 2 ^ 21 + a.toNat * 2 ^ 16 + (0#5).toNat * 2 ^ 11 + 0 := rfl
  have ho : encodeWord (.clz d a) / 2 ^ 26 = 18 := by rw [he]; simp only [BitVec.toNat_ofNat]; omega
  refine decodeSlot_eq ho (by decide) ?_ hw
  simp only [BitVec.toNat_ofNat] at he
  generalize encodeWord (.clz d a) = w at he ho
  simp only [raw, rawScalar, ho]
  rw [show fld w 21 5 = d from fld_eq (by omega), show fld w 16 5 = a from fld_eq (by omega)]

theorem RoundTrip.ctz (d a : BitVec 5) : RoundTrip.Statement (.ctz d a) := by
  refine .slot (c := .scalar) rfl rfl fun hw => ?_
  have := d.isLt; have := a.isLt
  have he : encodeWord (.ctz d a) = 19 * 2 ^ 26 + d.toNat * 2 ^ 21 + a.toNat * 2 ^ 16 + (0#5).toNat * 2 ^ 11 + 0 := rfl
  have ho : encodeWord (.ctz d a) / 2 ^ 26 = 19 := by rw [he]; simp only [BitVec.toNat_ofNat]; omega
  refine decodeSlot_eq ho (by decide) ?_ hw
  simp only [BitVec.toNat_ofNat] at he
  generalize encodeWord (.ctz d a) = w at he ho
  simp only [raw, rawScalar, ho]
  rw [show fld w 21 5 = d from fld_eq (by omega), show fld w 16 5 = a from fld_eq (by omega)]

theorem RoundTrip.popc (d a : BitVec 5) : RoundTrip.Statement (.popc d a) := by
  refine .slot (c := .scalar) rfl rfl fun hw => ?_
  have := d.isLt; have := a.isLt
  have he : encodeWord (.popc d a) = 20 * 2 ^ 26 + d.toNat * 2 ^ 21 + a.toNat * 2 ^ 16 + (0#5).toNat * 2 ^ 11 + 0 := rfl
  have ho : encodeWord (.popc d a) / 2 ^ 26 = 20 := by rw [he]; simp only [BitVec.toNat_ofNat]; omega
  refine decodeSlot_eq ho (by decide) ?_ hw
  simp only [BitVec.toNat_ofNat] at he
  generalize encodeWord (.popc d a) = w at he ho
  simp only [raw, rawScalar, ho]
  rw [show fld w 21 5 = d from fld_eq (by omega), show fld w 16 5 = a from fld_eq (by omega)]

theorem RoundTrip.bext (d a : BitVec 5) (l p : BitVec 6) (x : Bool) : RoundTrip.Statement (.bext d a l p x) := by
  refine .slot (c := .scalar) rfl rfl fun hw => ?_
  have := d.isLt; have := a.isLt; have := l.isLt; have := p.isLt; have := Bool.toNat_lt x
  have he : encodeWord (.bext d a l p x) = (x.toNat) * 2 ^ 0 + ((p.toNat) * 2 ^ 4 + ((l.toNat) * 2 ^ 10 + ((a.toNat) * 2 ^ 16 + ((d.toNat) * 2 ^ 21 + (21 * 2 ^ 26))))) := rfl
  have ho : encodeWord (.bext d a l p x) / 2 ^ 26 = 21 := by rw [he]; omega
  refine decodeSlot_eq ho (by decide) ?_ hw
  generalize encodeWord (.bext d a l p x) = w at he ho
  simp only [raw, rawScalar, ho]
  rw [show fld w 21 5 = d from fld_eq (by omega), show fld w 16 5 = a from fld_eq (by omega), show fld w 10 6 = l from fld_eq (by omega), show fld w 4 6 = p from fld_eq (by omega), show bit w 0 = x from bit_eq (by omega)]

theorem RoundTrip.bins (d a : BitVec 5) (l p : BitVec 6) : RoundTrip.Statement (.bins d a l p) := by
  refine .slot (c := .scalar) rfl rfl fun hw => ?_
  have := d.isLt; have := a.isLt; have := l.isLt; have := p.isLt
  have he : encodeWord (.bins d a l p) = (p.toNat) * 2 ^ 4 + ((l.toNat) * 2 ^ 10 + ((a.toNat) * 2 ^ 16 + ((d.toNat) * 2 ^ 21 + (22 * 2 ^ 26)))) := rfl
  have ho : encodeWord (.bins d a l p) / 2 ^ 26 = 22 := by rw [he]; omega
  refine decodeSlot_eq ho (by decide) ?_ hw
  generalize encodeWord (.bins d a l p) = w at he ho
  simp only [raw, rawScalar, ho]
  rw [show fld w 21 5 = d from fld_eq (by omega), show fld w 16 5 = a from fld_eq (by omega), show fld w 10 6 = l from fld_eq (by omega), show fld w 4 6 = p from fld_eq (by omega)]

theorem RoundTrip.sel (d a b : BitVec 5) (i : Bool) (n : BitVec 4) : RoundTrip.Statement (.sel d a b i n) := by
  refine .slot (c := .scalar) rfl rfl fun hw => ?_
  have := d.isLt; have := a.isLt; have := b.isLt; have := Bool.toNat_lt i; have := n.isLt
  have he : encodeWord (.sel d a b i n) = 23 * 2 ^ 26 + d.toNat * 2 ^ 21 + a.toNat * 2 ^ 16 + b.toNat * 2 ^ 11 + (i.toNat * 16 + n.toNat) := rfl
  have ho : encodeWord (.sel d a b i n) / 2 ^ 26 = 23 := by rw [he]; omega
  refine decodeSlot_eq ho (by decide) ?_ hw
  generalize encodeWord (.sel d a b i n) = w at he ho
  simp only [raw, rawScalar, ho]
  rw [show fld w 21 5 = d from fld_eq (by omega), show fld w 16 5 = a from fld_eq (by omega), show fld w 11 5 = b from fld_eq (by omega), show bit w 4 = i from bit_eq (by omega), show fld w 0 4 = n from fld_eq (by omega)]

theorem RoundTrip.addsh (d a b : BitVec 5) (h : BitVec 3) : RoundTrip.Statement (.addsh d a b h) := by
  refine .slot (c := .scalar) rfl rfl fun hw => ?_
  have := d.isLt; have := a.isLt; have := b.isLt; have := h.isLt
  have he : encodeWord (.addsh d a b h) = 24 * 2 ^ 26 + d.toNat * 2 ^ 21 + a.toNat * 2 ^ 16 + b.toNat * 2 ^ 11 + h.toNat := rfl
  have ho : encodeWord (.addsh d a b h) / 2 ^ 26 = 24 := by rw [he]; omega
  refine decodeSlot_eq ho (by decide) ?_ hw
  generalize encodeWord (.addsh d a b h) = w at he ho
  simp only [raw, rawScalar, ho]
  rw [show fld w 21 5 = d from fld_eq (by omega), show fld w 16 5 = a from fld_eq (by omega), show fld w 11 5 = b from fld_eq (by omega), show fld w 0 3 = h from fld_eq (by omega)]

theorem RoundTrip.kset (k : BitVec 3) (a : BitVec 5) (h : Bool) : RoundTrip.Statement (.kset k a h) := by
  refine .slot (c := .scalar) rfl rfl fun hw => ?_
  have := k.isLt; have := a.isLt; have := Bool.toNat_lt h
  have he : encodeWord (.kset k a h) = (h.toNat) * 2 ^ 0 + ((a.toNat) * 2 ^ 16 + ((k.toNat) * 2 ^ 21 + (25 * 2 ^ 26))) := rfl
  have ho : encodeWord (.kset k a h) / 2 ^ 26 = 25 := by rw [he]; omega
  refine decodeSlot_eq ho (by decide) ?_ hw
  generalize encodeWord (.kset k a h) = w at he ho
  simp only [raw, rawScalar, ho]
  rw [show fld w 21 3 = k from fld_eq (by omega), show fld w 16 5 = a from fld_eq (by omega), show bit w 0 = h from bit_eq (by omega)]

theorem RoundTrip.kget (d : BitVec 5) (k : BitVec 3) (h : Bool) : RoundTrip.Statement (.kget d k h) := by
  refine .slot (c := .scalar) rfl rfl fun hw => ?_
  have := d.isLt; have := k.isLt; have := Bool.toNat_lt h
  have he : encodeWord (.kget d k h) = (h.toNat) * 2 ^ 0 + ((k.toNat) * 2 ^ 16 + ((d.toNat) * 2 ^ 21 + (26 * 2 ^ 26))) := rfl
  have ho : encodeWord (.kget d k h) / 2 ^ 26 = 26 := by rw [he]; omega
  refine decodeSlot_eq ho (by decide) ?_ hw
  generalize encodeWord (.kget d k h) = w at he ho
  simp only [raw, rawScalar, ho]
  rw [show fld w 21 5 = d from fld_eq (by omega), show fld w 16 3 = k from fld_eq (by omega), show bit w 0 = h from bit_eq (by omega)]

theorem RoundTrip.crrd (d : BitVec 5) (c : BitVec 8) : RoundTrip.Statement (.crrd d c) := by
  refine .slot (c := .scalar) rfl rfl fun hw => ?_
  have := d.isLt; have := c.isLt
  have he : encodeWord (.crrd d c) = (c.toNat) * 2 ^ 0 + ((d.toNat) * 2 ^ 21 + (27 * 2 ^ 26)) := rfl
  have ho : encodeWord (.crrd d c) / 2 ^ 26 = 27 := by rw [he]; omega
  refine decodeSlot_eq ho (by decide) ?_ hw
  generalize encodeWord (.crrd d c) = w at he ho
  simp only [raw, rawScalar, ho]
  rw [show fld w 21 5 = d from fld_eq (by omega), show fld w 0 8 = c from fld_eq (by omega)]

theorem RoundTrip.crwr (a : BitVec 5) (c : BitVec 8) : RoundTrip.Statement (.crwr a c) := by
  refine .slot (c := .scalar) rfl rfl fun hw => ?_
  have := a.isLt; have := c.isLt
  have he : encodeWord (.crwr a c) = (c.toNat) * 2 ^ 0 + ((a.toNat) * 2 ^ 16 + (28 * 2 ^ 26)) := rfl
  have ho : encodeWord (.crwr a c) / 2 ^ 26 = 28 := by rw [he]; omega
  refine decodeSlot_eq ho (by decide) ?_ hw
  generalize encodeWord (.crwr a c) = w at he ho
  simp only [raw, rawScalar, ho]
  rw [show fld w 16 5 = a from fld_eq (by omega), show fld w 0 8 = c from fld_eq (by omega)]

theorem RoundTrip.fadd (d a b : BitVec 5) (m : BitVec 2) : RoundTrip.Statement (.fadd d a b m) := by
  refine .slot (c := .scalar) rfl rfl fun hw => ?_
  have := d.isLt; have := a.isLt; have := b.isLt; have := m.isLt
  have he : encodeWord (.fadd d a b m) = 29 * 2 ^ 26 + d.toNat * 2 ^ 21 + a.toNat * 2 ^ 16 + b.toNat * 2 ^ 11 + m.toNat := rfl
  have ho : encodeWord (.fadd d a b m) / 2 ^ 26 = 29 := by rw [he]; omega
  refine decodeSlot_eq ho (by decide) ?_ hw
  generalize encodeWord (.fadd d a b m) = w at he ho
  simp only [raw, rawScalar, ho]
  rw [show fld w 21 5 = d from fld_eq (by omega), show fld w 16 5 = a from fld_eq (by omega), show fld w 11 5 = b from fld_eq (by omega), show fld w 0 2 = m from fld_eq (by omega)]

theorem RoundTrip.fmul (d a b : BitVec 5) (m : BitVec 2) : RoundTrip.Statement (.fmul d a b m) := by
  refine .slot (c := .scalar) rfl rfl fun hw => ?_
  have := d.isLt; have := a.isLt; have := b.isLt; have := m.isLt
  have he : encodeWord (.fmul d a b m) = 30 * 2 ^ 26 + d.toNat * 2 ^ 21 + a.toNat * 2 ^ 16 + b.toNat * 2 ^ 11 + m.toNat := rfl
  have ho : encodeWord (.fmul d a b m) / 2 ^ 26 = 30 := by rw [he]; omega
  refine decodeSlot_eq ho (by decide) ?_ hw
  generalize encodeWord (.fmul d a b m) = w at he ho
  simp only [raw, rawScalar, ho]
  rw [show fld w 21 5 = d from fld_eq (by omega), show fld w 16 5 = a from fld_eq (by omega), show fld w 11 5 = b from fld_eq (by omega), show fld w 0 2 = m from fld_eq (by omega)]

theorem RoundTrip.fcvt (d a : BitVec 5) (k : BitVec 3) (m : BitVec 2) : RoundTrip.Statement (.fcvt d a k m) := by
  refine .slot (c := .scalar) rfl rfl fun hw => ?_
  have := d.isLt; have := a.isLt; have := k.isLt; have := m.isLt
  have he : encodeWord (.fcvt d a k m) = 31 * 2 ^ 26 + d.toNat * 2 ^ 21 + a.toNat * 2 ^ 16 + (0#5).toNat * 2 ^ 11 + (k.toNat * 4 + m.toNat) := rfl
  have ho : encodeWord (.fcvt d a k m) / 2 ^ 26 = 31 := by rw [he]; simp only [BitVec.toNat_ofNat]; omega
  refine decodeSlot_eq ho (by decide) ?_ hw
  simp only [BitVec.toNat_ofNat] at he
  generalize encodeWord (.fcvt d a k m) = w at he ho
  simp only [raw, rawScalar, ho]
  rw [show fld w 21 5 = d from fld_eq (by omega), show fld w 16 5 = a from fld_eq (by omega), show fld w 2 3 = k from fld_eq (by omega), show fld w 0 2 = m from fld_eq (by omega)]

theorem RoundTrip.addi (d a : BitVec 5) (i : BitVec 16) : RoundTrip.Statement (.addi d a i) := by
  refine .slot (c := .scalar) rfl rfl fun hw => ?_
  have := d.isLt; have := a.isLt; have := i.isLt
  have he : encodeWord (.addi d a i) = (i.toNat) * 2 ^ 0 + ((a.toNat) * 2 ^ 16 + ((d.toNat) * 2 ^ 21 + (32 * 2 ^ 26))) := rfl
  have ho : encodeWord (.addi d a i) / 2 ^ 26 = 32 := by rw [he]; omega
  refine decodeSlot_eq ho (by decide) ?_ hw
  generalize encodeWord (.addi d a i) = w at he ho
  simp only [raw, rawScalar, ho]
  rw [show fld w 21 5 = d from fld_eq (by omega), show fld w 16 5 = a from fld_eq (by omega), show fld w 0 16 = i from fld_eq (by omega)]

theorem RoundTrip.andi (d a : BitVec 5) (i : BitVec 16) : RoundTrip.Statement (.andi d a i) := by
  refine .slot (c := .scalar) rfl rfl fun hw => ?_
  have := d.isLt; have := a.isLt; have := i.isLt
  have he : encodeWord (.andi d a i) = (i.toNat) * 2 ^ 0 + ((a.toNat) * 2 ^ 16 + ((d.toNat) * 2 ^ 21 + (33 * 2 ^ 26))) := rfl
  have ho : encodeWord (.andi d a i) / 2 ^ 26 = 33 := by rw [he]; omega
  refine decodeSlot_eq ho (by decide) ?_ hw
  generalize encodeWord (.andi d a i) = w at he ho
  simp only [raw, rawScalar, ho]
  rw [show fld w 21 5 = d from fld_eq (by omega), show fld w 16 5 = a from fld_eq (by omega), show fld w 0 16 = i from fld_eq (by omega)]

theorem RoundTrip.ori (d a : BitVec 5) (i : BitVec 16) : RoundTrip.Statement (.ori d a i) := by
  refine .slot (c := .scalar) rfl rfl fun hw => ?_
  have := d.isLt; have := a.isLt; have := i.isLt
  have he : encodeWord (.ori d a i) = (i.toNat) * 2 ^ 0 + ((a.toNat) * 2 ^ 16 + ((d.toNat) * 2 ^ 21 + (34 * 2 ^ 26))) := rfl
  have ho : encodeWord (.ori d a i) / 2 ^ 26 = 34 := by rw [he]; omega
  refine decodeSlot_eq ho (by decide) ?_ hw
  generalize encodeWord (.ori d a i) = w at he ho
  simp only [raw, rawScalar, ho]
  rw [show fld w 21 5 = d from fld_eq (by omega), show fld w 16 5 = a from fld_eq (by omega), show fld w 0 16 = i from fld_eq (by omega)]

theorem RoundTrip.xori (d a : BitVec 5) (i : BitVec 16) : RoundTrip.Statement (.xori d a i) := by
  refine .slot (c := .scalar) rfl rfl fun hw => ?_
  have := d.isLt; have := a.isLt; have := i.isLt
  have he : encodeWord (.xori d a i) = (i.toNat) * 2 ^ 0 + ((a.toNat) * 2 ^ 16 + ((d.toNat) * 2 ^ 21 + (35 * 2 ^ 26))) := rfl
  have ho : encodeWord (.xori d a i) / 2 ^ 26 = 35 := by rw [he]; omega
  refine decodeSlot_eq ho (by decide) ?_ hw
  generalize encodeWord (.xori d a i) = w at he ho
  simp only [raw, rawScalar, ho]
  rw [show fld w 21 5 = d from fld_eq (by omega), show fld w 16 5 = a from fld_eq (by omega), show fld w 0 16 = i from fld_eq (by omega)]

theorem RoundTrip.movi (d : BitVec 5) (i : BitVec 16) : RoundTrip.Statement (.movi d i) := by
  refine .slot (c := .scalar) rfl rfl fun hw => ?_
  have := d.isLt; have := i.isLt
  have he : encodeWord (.movi d i) = (i.toNat) * 2 ^ 0 + ((d.toNat) * 2 ^ 21 + (36 * 2 ^ 26)) := rfl
  have ho : encodeWord (.movi d i) / 2 ^ 26 = 36 := by rw [he]; omega
  refine decodeSlot_eq ho (by decide) ?_ hw
  generalize encodeWord (.movi d i) = w at he ho
  simp only [raw, rawScalar, ho]
  rw [show fld w 21 5 = d from fld_eq (by omega), show fld w 0 16 = i from fld_eq (by omega)]

theorem RoundTrip.movh (d a : BitVec 5) (i : BitVec 16) : RoundTrip.Statement (.movh d a i) := by
  refine .slot (c := .scalar) rfl rfl fun hw => ?_
  have := d.isLt; have := a.isLt; have := i.isLt
  have he : encodeWord (.movh d a i) = (i.toNat) * 2 ^ 0 + ((a.toNat) * 2 ^ 16 + ((d.toNat) * 2 ^ 21 + (37 * 2 ^ 26))) := rfl
  have ho : encodeWord (.movh d a i) / 2 ^ 26 = 37 := by rw [he]; omega
  refine decodeSlot_eq ho (by decide) ?_ hw
  generalize encodeWord (.movh d a i) = w at he ho
  simp only [raw, rawScalar, ho]
  rw [show fld w 21 5 = d from fld_eq (by omega), show fld w 16 5 = a from fld_eq (by omega), show fld w 0 16 = i from fld_eq (by omega)]

theorem RoundTrip.cmpeq (p : BitVec 4) (a b : BitVec 5) : RoundTrip.Statement (.cmpeq p a b) := by
  refine .slot (c := .scalar) rfl rfl fun hw => ?_
  have := p.isLt; have := a.isLt; have := b.isLt
  have he : encodeWord (.cmpeq p a b) = (b.toNat) * 2 ^ 11 + ((a.toNat) * 2 ^ 16 + ((p.toNat) * 2 ^ 22 + (40 * 2 ^ 26))) := rfl
  have ho : encodeWord (.cmpeq p a b) / 2 ^ 26 = 40 := by rw [he]; omega
  refine decodeSlot_eq ho (by decide) ?_ hw
  generalize encodeWord (.cmpeq p a b) = w at he ho
  simp only [raw, rawScalar, ho]
  rw [show bit w 10 = false from bit_eq (by simp only [Bool.toNat_false]; omega), show fld w 22 4 = p from fld_eq (by omega), show fld w 16 5 = a from fld_eq (by omega), show fld w 11 5 = b from fld_eq (by omega)]
  rfl

theorem RoundTrip.cmpeqImm (p : BitVec 4) (a : BitVec 5) (i : BitVec 10) : RoundTrip.Statement (.cmpeqImm p a i) := by
  refine .slot (c := .scalar) rfl rfl fun hw => ?_
  have := p.isLt; have := a.isLt; have := i.isLt
  have he : encodeWord (.cmpeqImm p a i) = (i.toNat) * 2 ^ 0 + (1 * 2 ^ 10 + ((a.toNat) * 2 ^ 16 + ((p.toNat) * 2 ^ 22 + (40 * 2 ^ 26)))) := rfl
  have ho : encodeWord (.cmpeqImm p a i) / 2 ^ 26 = 40 := by rw [he]; omega
  refine decodeSlot_eq ho (by decide) ?_ hw
  generalize encodeWord (.cmpeqImm p a i) = w at he ho
  simp only [raw, rawScalar, ho]
  rw [show bit w 10 = true from bit_eq (by simp only [Bool.toNat_true]; omega), show fld w 22 4 = p from fld_eq (by omega), show fld w 16 5 = a from fld_eq (by omega), show fld w 0 10 = i from fld_eq (by omega)]
  rfl

theorem RoundTrip.cmpne (p : BitVec 4) (a b : BitVec 5) : RoundTrip.Statement (.cmpne p a b) := by
  refine .slot (c := .scalar) rfl rfl fun hw => ?_
  have := p.isLt; have := a.isLt; have := b.isLt
  have he : encodeWord (.cmpne p a b) = (b.toNat) * 2 ^ 11 + ((a.toNat) * 2 ^ 16 + ((p.toNat) * 2 ^ 22 + (41 * 2 ^ 26))) := rfl
  have ho : encodeWord (.cmpne p a b) / 2 ^ 26 = 41 := by rw [he]; omega
  refine decodeSlot_eq ho (by decide) ?_ hw
  generalize encodeWord (.cmpne p a b) = w at he ho
  simp only [raw, rawScalar, ho]
  rw [show bit w 10 = false from bit_eq (by simp only [Bool.toNat_false]; omega), show fld w 22 4 = p from fld_eq (by omega), show fld w 16 5 = a from fld_eq (by omega), show fld w 11 5 = b from fld_eq (by omega)]
  rfl

theorem RoundTrip.cmpneImm (p : BitVec 4) (a : BitVec 5) (i : BitVec 10) : RoundTrip.Statement (.cmpneImm p a i) := by
  refine .slot (c := .scalar) rfl rfl fun hw => ?_
  have := p.isLt; have := a.isLt; have := i.isLt
  have he : encodeWord (.cmpneImm p a i) = (i.toNat) * 2 ^ 0 + (1 * 2 ^ 10 + ((a.toNat) * 2 ^ 16 + ((p.toNat) * 2 ^ 22 + (41 * 2 ^ 26)))) := rfl
  have ho : encodeWord (.cmpneImm p a i) / 2 ^ 26 = 41 := by rw [he]; omega
  refine decodeSlot_eq ho (by decide) ?_ hw
  generalize encodeWord (.cmpneImm p a i) = w at he ho
  simp only [raw, rawScalar, ho]
  rw [show bit w 10 = true from bit_eq (by simp only [Bool.toNat_true]; omega), show fld w 22 4 = p from fld_eq (by omega), show fld w 16 5 = a from fld_eq (by omega), show fld w 0 10 = i from fld_eq (by omega)]
  rfl

theorem RoundTrip.cmplt (p : BitVec 4) (a b : BitVec 5) : RoundTrip.Statement (.cmplt p a b) := by
  refine .slot (c := .scalar) rfl rfl fun hw => ?_
  have := p.isLt; have := a.isLt; have := b.isLt
  have he : encodeWord (.cmplt p a b) = (b.toNat) * 2 ^ 11 + ((a.toNat) * 2 ^ 16 + ((p.toNat) * 2 ^ 22 + (42 * 2 ^ 26))) := rfl
  have ho : encodeWord (.cmplt p a b) / 2 ^ 26 = 42 := by rw [he]; omega
  refine decodeSlot_eq ho (by decide) ?_ hw
  generalize encodeWord (.cmplt p a b) = w at he ho
  simp only [raw, rawScalar, ho]
  rw [show bit w 10 = false from bit_eq (by simp only [Bool.toNat_false]; omega), show fld w 22 4 = p from fld_eq (by omega), show fld w 16 5 = a from fld_eq (by omega), show fld w 11 5 = b from fld_eq (by omega)]
  rfl

theorem RoundTrip.cmpltImm (p : BitVec 4) (a : BitVec 5) (i : BitVec 10) : RoundTrip.Statement (.cmpltImm p a i) := by
  refine .slot (c := .scalar) rfl rfl fun hw => ?_
  have := p.isLt; have := a.isLt; have := i.isLt
  have he : encodeWord (.cmpltImm p a i) = (i.toNat) * 2 ^ 0 + (1 * 2 ^ 10 + ((a.toNat) * 2 ^ 16 + ((p.toNat) * 2 ^ 22 + (42 * 2 ^ 26)))) := rfl
  have ho : encodeWord (.cmpltImm p a i) / 2 ^ 26 = 42 := by rw [he]; omega
  refine decodeSlot_eq ho (by decide) ?_ hw
  generalize encodeWord (.cmpltImm p a i) = w at he ho
  simp only [raw, rawScalar, ho]
  rw [show bit w 10 = true from bit_eq (by simp only [Bool.toNat_true]; omega), show fld w 22 4 = p from fld_eq (by omega), show fld w 16 5 = a from fld_eq (by omega), show fld w 0 10 = i from fld_eq (by omega)]
  rfl

theorem RoundTrip.cmple (p : BitVec 4) (a b : BitVec 5) : RoundTrip.Statement (.cmple p a b) := by
  refine .slot (c := .scalar) rfl rfl fun hw => ?_
  have := p.isLt; have := a.isLt; have := b.isLt
  have he : encodeWord (.cmple p a b) = (b.toNat) * 2 ^ 11 + ((a.toNat) * 2 ^ 16 + ((p.toNat) * 2 ^ 22 + (43 * 2 ^ 26))) := rfl
  have ho : encodeWord (.cmple p a b) / 2 ^ 26 = 43 := by rw [he]; omega
  refine decodeSlot_eq ho (by decide) ?_ hw
  generalize encodeWord (.cmple p a b) = w at he ho
  simp only [raw, rawScalar, ho]
  rw [show bit w 10 = false from bit_eq (by simp only [Bool.toNat_false]; omega), show fld w 22 4 = p from fld_eq (by omega), show fld w 16 5 = a from fld_eq (by omega), show fld w 11 5 = b from fld_eq (by omega)]
  rfl

theorem RoundTrip.cmpleImm (p : BitVec 4) (a : BitVec 5) (i : BitVec 10) : RoundTrip.Statement (.cmpleImm p a i) := by
  refine .slot (c := .scalar) rfl rfl fun hw => ?_
  have := p.isLt; have := a.isLt; have := i.isLt
  have he : encodeWord (.cmpleImm p a i) = (i.toNat) * 2 ^ 0 + (1 * 2 ^ 10 + ((a.toNat) * 2 ^ 16 + ((p.toNat) * 2 ^ 22 + (43 * 2 ^ 26)))) := rfl
  have ho : encodeWord (.cmpleImm p a i) / 2 ^ 26 = 43 := by rw [he]; omega
  refine decodeSlot_eq ho (by decide) ?_ hw
  generalize encodeWord (.cmpleImm p a i) = w at he ho
  simp only [raw, rawScalar, ho]
  rw [show bit w 10 = true from bit_eq (by simp only [Bool.toNat_true]; omega), show fld w 22 4 = p from fld_eq (by omega), show fld w 16 5 = a from fld_eq (by omega), show fld w 0 10 = i from fld_eq (by omega)]
  rfl

theorem RoundTrip.cmpltu (p : BitVec 4) (a b : BitVec 5) : RoundTrip.Statement (.cmpltu p a b) := by
  refine .slot (c := .scalar) rfl rfl fun hw => ?_
  have := p.isLt; have := a.isLt; have := b.isLt
  have he : encodeWord (.cmpltu p a b) = (b.toNat) * 2 ^ 11 + ((a.toNat) * 2 ^ 16 + ((p.toNat) * 2 ^ 22 + (44 * 2 ^ 26))) := rfl
  have ho : encodeWord (.cmpltu p a b) / 2 ^ 26 = 44 := by rw [he]; omega
  refine decodeSlot_eq ho (by decide) ?_ hw
  generalize encodeWord (.cmpltu p a b) = w at he ho
  simp only [raw, rawScalar, ho]
  rw [show bit w 10 = false from bit_eq (by simp only [Bool.toNat_false]; omega), show fld w 22 4 = p from fld_eq (by omega), show fld w 16 5 = a from fld_eq (by omega), show fld w 11 5 = b from fld_eq (by omega)]
  rfl

theorem RoundTrip.cmpltuImm (p : BitVec 4) (a : BitVec 5) (i : BitVec 10) : RoundTrip.Statement (.cmpltuImm p a i) := by
  refine .slot (c := .scalar) rfl rfl fun hw => ?_
  have := p.isLt; have := a.isLt; have := i.isLt
  have he : encodeWord (.cmpltuImm p a i) = (i.toNat) * 2 ^ 0 + (1 * 2 ^ 10 + ((a.toNat) * 2 ^ 16 + ((p.toNat) * 2 ^ 22 + (44 * 2 ^ 26)))) := rfl
  have ho : encodeWord (.cmpltuImm p a i) / 2 ^ 26 = 44 := by rw [he]; omega
  refine decodeSlot_eq ho (by decide) ?_ hw
  generalize encodeWord (.cmpltuImm p a i) = w at he ho
  simp only [raw, rawScalar, ho]
  rw [show bit w 10 = true from bit_eq (by simp only [Bool.toNat_true]; omega), show fld w 22 4 = p from fld_eq (by omega), show fld w 16 5 = a from fld_eq (by omega), show fld w 0 10 = i from fld_eq (by omega)]
  rfl

theorem RoundTrip.cmpleu (p : BitVec 4) (a b : BitVec 5) : RoundTrip.Statement (.cmpleu p a b) := by
  refine .slot (c := .scalar) rfl rfl fun hw => ?_
  have := p.isLt; have := a.isLt; have := b.isLt
  have he : encodeWord (.cmpleu p a b) = (b.toNat) * 2 ^ 11 + ((a.toNat) * 2 ^ 16 + ((p.toNat) * 2 ^ 22 + (45 * 2 ^ 26))) := rfl
  have ho : encodeWord (.cmpleu p a b) / 2 ^ 26 = 45 := by rw [he]; omega
  refine decodeSlot_eq ho (by decide) ?_ hw
  generalize encodeWord (.cmpleu p a b) = w at he ho
  simp only [raw, rawScalar, ho]
  rw [show bit w 10 = false from bit_eq (by simp only [Bool.toNat_false]; omega), show fld w 22 4 = p from fld_eq (by omega), show fld w 16 5 = a from fld_eq (by omega), show fld w 11 5 = b from fld_eq (by omega)]
  rfl

theorem RoundTrip.cmpleuImm (p : BitVec 4) (a : BitVec 5) (i : BitVec 10) : RoundTrip.Statement (.cmpleuImm p a i) := by
  refine .slot (c := .scalar) rfl rfl fun hw => ?_
  have := p.isLt; have := a.isLt; have := i.isLt
  have he : encodeWord (.cmpleuImm p a i) = (i.toNat) * 2 ^ 0 + (1 * 2 ^ 10 + ((a.toNat) * 2 ^ 16 + ((p.toNat) * 2 ^ 22 + (45 * 2 ^ 26)))) := rfl
  have ho : encodeWord (.cmpleuImm p a i) / 2 ^ 26 = 45 := by rw [he]; omega
  refine decodeSlot_eq ho (by decide) ?_ hw
  generalize encodeWord (.cmpleuImm p a i) = w at he ho
  simp only [raw, rawScalar, ho]
  rw [show bit w 10 = true from bit_eq (by simp only [Bool.toNat_true]; omega), show fld w 22 4 = p from fld_eq (by omega), show fld w 16 5 = a from fld_eq (by omega), show fld w 0 10 = i from fld_eq (by omega)]
  rfl

theorem RoundTrip.fcmp (p : BitVec 4) (a b : BitVec 5) (r : BitVec 2) : RoundTrip.Statement (.fcmp p a b r) := by
  refine .slot (c := .scalar) rfl rfl fun hw => ?_
  have := p.isLt; have := a.isLt; have := b.isLt; have := r.isLt
  have he : encodeWord (.fcmp p a b r) = (r.toNat) * 2 ^ 0 + ((b.toNat) * 2 ^ 11 + ((a.toNat) * 2 ^ 16 + ((p.toNat) * 2 ^ 22 + (46 * 2 ^ 26)))) := rfl
  have ho : encodeWord (.fcmp p a b r) / 2 ^ 26 = 46 := by rw [he]; omega
  refine decodeSlot_eq ho (by decide) ?_ hw
  generalize encodeWord (.fcmp p a b r) = w at he ho
  simp only [raw, rawScalar, ho]
  rw [show fld w 22 4 = p from fld_eq (by omega), show fld w 16 5 = a from fld_eq (by omega), show fld w 11 5 = b from fld_eq (by omega), show fld w 0 2 = r from fld_eq (by omega)]

theorem RoundTrip.pand (p : BitVec 4) (x : Bool) (a : BitVec 4) (y : Bool) (b : BitVec 4) : RoundTrip.Statement (.pand p x a y b) := by
  refine .slot (c := .scalar) rfl rfl fun hw => ?_
  have := p.isLt; have := Bool.toNat_lt x; have := a.isLt; have := Bool.toNat_lt y; have := b.isLt
  have he : encodeWord (.pand p x a y b) = (b.toNat) * 2 ^ 11 + ((y.toNat) * 2 ^ 15 + ((a.toNat) * 2 ^ 16 + ((x.toNat) * 2 ^ 20 + ((p.toNat) * 2 ^ 22 + (48 * 2 ^ 26))))) := rfl
  have ho : encodeWord (.pand p x a y b) / 2 ^ 26 = 48 := by rw [he]; omega
  refine decodeSlot_eq ho (by decide) ?_ hw
  generalize encodeWord (.pand p x a y b) = w at he ho
  simp only [raw, rawScalar, ho]
  rw [show fld w 22 4 = p from fld_eq (by omega), show bit w 20 = x from bit_eq (by omega), show fld w 16 4 = a from fld_eq (by omega), show bit w 15 = y from bit_eq (by omega), show fld w 11 4 = b from fld_eq (by omega)]

theorem RoundTrip.por (p : BitVec 4) (x : Bool) (a : BitVec 4) (y : Bool) (b : BitVec 4) : RoundTrip.Statement (.por p x a y b) := by
  refine .slot (c := .scalar) rfl rfl fun hw => ?_
  have := p.isLt; have := Bool.toNat_lt x; have := a.isLt; have := Bool.toNat_lt y; have := b.isLt
  have he : encodeWord (.por p x a y b) = (b.toNat) * 2 ^ 11 + ((y.toNat) * 2 ^ 15 + ((a.toNat) * 2 ^ 16 + ((x.toNat) * 2 ^ 20 + ((p.toNat) * 2 ^ 22 + (49 * 2 ^ 26))))) := rfl
  have ho : encodeWord (.por p x a y b) / 2 ^ 26 = 49 := by rw [he]; omega
  refine decodeSlot_eq ho (by decide) ?_ hw
  generalize encodeWord (.por p x a y b) = w at he ho
  simp only [raw, rawScalar, ho]
  rw [show fld w 22 4 = p from fld_eq (by omega), show bit w 20 = x from bit_eq (by omega), show fld w 16 4 = a from fld_eq (by omega), show bit w 15 = y from bit_eq (by omega), show fld w 11 4 = b from fld_eq (by omega)]

theorem RoundTrip.pxor (p : BitVec 4) (x : Bool) (a : BitVec 4) (y : Bool) (b : BitVec 4) : RoundTrip.Statement (.pxor p x a y b) := by
  refine .slot (c := .scalar) rfl rfl fun hw => ?_
  have := p.isLt; have := Bool.toNat_lt x; have := a.isLt; have := Bool.toNat_lt y; have := b.isLt
  have he : encodeWord (.pxor p x a y b) = (b.toNat) * 2 ^ 11 + ((y.toNat) * 2 ^ 15 + ((a.toNat) * 2 ^ 16 + ((x.toNat) * 2 ^ 20 + ((p.toNat) * 2 ^ 22 + (50 * 2 ^ 26))))) := rfl
  have ho : encodeWord (.pxor p x a y b) / 2 ^ 26 = 50 := by rw [he]; omega
  refine decodeSlot_eq ho (by decide) ?_ hw
  generalize encodeWord (.pxor p x a y b) = w at he ho
  simp only [raw, rawScalar, ho]
  rw [show fld w 22 4 = p from fld_eq (by omega), show bit w 20 = x from bit_eq (by omega), show fld w 16 4 = a from fld_eq (by omega), show bit w 15 = y from bit_eq (by omega), show fld w 11 4 = b from fld_eq (by omega)]

theorem RoundTrip.ld (d a : BitVec 5) (o : BitVec 16) : RoundTrip.Statement (.ld d a o) := by
  refine .slot (c := .ls) rfl rfl fun hw => ?_
  have := d.isLt; have := a.isLt; have := o.isLt
  have he : encodeWord (.ld d a o) = (o.toNat) * 2 ^ 0 + ((a.toNat) * 2 ^ 16 + ((d.toNat) * 2 ^ 21 + (1 * 2 ^ 26))) := rfl
  have ho : encodeWord (.ld d a o) / 2 ^ 26 = 1 := by rw [he]; omega
  refine decodeSlot_eq ho (by decide) ?_ hw
  generalize encodeWord (.ld d a o) = w at he ho
  simp only [raw, rawLs, ho]
  rw [show fld w 21 5 = d from fld_eq (by omega), show fld w 16 5 = a from fld_eq (by omega), show fld w 0 16 = o from fld_eq (by omega)]

theorem RoundTrip.st (v a : BitVec 5) (o : BitVec 16) : RoundTrip.Statement (.st v a o) := by
  refine .slot (c := .ls) rfl rfl fun hw => ?_
  have := v.isLt; have := a.isLt; have := o.isLt
  have he : encodeWord (.st v a o) = (o.toNat) * 2 ^ 0 + ((a.toNat) * 2 ^ 16 + ((v.toNat) * 2 ^ 21 + (2 * 2 ^ 26))) := rfl
  have ho : encodeWord (.st v a o) / 2 ^ 26 = 2 := by rw [he]; omega
  refine decodeSlot_eq ho (by decide) ?_ hw
  generalize encodeWord (.st v a o) = w at he ho
  simp only [raw, rawLs, ho]
  rw [show fld w 21 5 = v from fld_eq (by omega), show fld w 16 5 = a from fld_eq (by omega), show fld w 0 16 = o from fld_eq (by omega)]

theorem RoundTrip.ldacq (d a : BitVec 5) (s : Scope) (o : BitVec 13) : RoundTrip.Statement (.ldacq d a s o) := by
  refine .slot (c := .ls) rfl rfl fun hw => ?_
  have := d.isLt; have := a.isLt; have := scope_code_lt s; have := o.isLt
  have he : encodeWord (.ldacq d a s o) = (o.toNat) * 2 ^ 0 + ((s.code) * 2 ^ 13 + ((a.toNat) * 2 ^ 16 + ((d.toNat) * 2 ^ 21 + (3 * 2 ^ 26)))) := rfl
  have ho : encodeWord (.ldacq d a s o) / 2 ^ 26 = 3 := by rw [he]; omega
  refine decodeSlot_eq ho (by decide) ?_ hw
  generalize encodeWord (.ldacq d a s o) = w at he ho
  simp only [raw, rawLs, ho]
  rw [show w / 2 ^ 13 % 8 = s.code from by omega, scope_ofCode_code, show fld w 21 5 = d from fld_eq (by omega), show fld w 16 5 = a from fld_eq (by omega), show fld w 0 13 = o from fld_eq (by omega)]

theorem RoundTrip.strel (v a : BitVec 5) (s : Scope) (o : BitVec 13) : RoundTrip.Statement (.strel v a s o) := by
  refine .slot (c := .ls) rfl rfl fun hw => ?_
  have := v.isLt; have := a.isLt; have := scope_code_lt s; have := o.isLt
  have he : encodeWord (.strel v a s o) = (o.toNat) * 2 ^ 0 + ((s.code) * 2 ^ 13 + ((a.toNat) * 2 ^ 16 + ((v.toNat) * 2 ^ 21 + (4 * 2 ^ 26)))) := rfl
  have ho : encodeWord (.strel v a s o) / 2 ^ 26 = 4 := by rw [he]; omega
  refine decodeSlot_eq ho (by decide) ?_ hw
  generalize encodeWord (.strel v a s o) = w at he ho
  simp only [raw, rawLs, ho]
  rw [show w / 2 ^ 13 % 8 = s.code from by omega, scope_ofCode_code, show fld w 21 5 = v from fld_eq (by omega), show fld w 16 5 = a from fld_eq (by omega), show fld w 0 13 = o from fld_eq (by omega)]

theorem RoundTrip.pf (h : Bool) (a : BitVec 5) (o : BitVec 16) : RoundTrip.Statement (.pf h a o) := by
  refine .slot (c := .ls) rfl rfl fun hw => ?_
  have := Bool.toNat_lt h; have := a.isLt; have := o.isLt
  have he : encodeWord (.pf h a o) = (o.toNat) * 2 ^ 0 + ((a.toNat) * 2 ^ 16 + ((h.toNat) * 2 ^ 21 + (5 * 2 ^ 26))) := rfl
  have ho : encodeWord (.pf h a o) / 2 ^ 26 = 5 := by rw [he]; omega
  refine decodeSlot_eq ho (by decide) ?_ hw
  generalize encodeWord (.pf h a o) = w at he ho
  simp only [raw, rawLs, ho]
  rw [show bit w 21 = h from bit_eq (by omega), show fld w 16 5 = a from fld_eq (by omega), show fld w 0 16 = o from fld_eq (by omega)]

theorem RoundTrip.fence (s : Scope) (k : BitVec 2) : RoundTrip.Statement (.fence s k) := by
  refine .slot (c := .ls) rfl rfl fun hw => ?_
  have := scope_code_lt s; have := k.isLt
  have he : encodeWord (.fence s k) = (k.toNat) * 2 ^ 21 + ((s.code) * 2 ^ 23 + (7 * 2 ^ 26)) := rfl
  have ho : encodeWord (.fence s k) / 2 ^ 26 = 7 := by rw [he]; omega
  refine decodeSlot_eq ho (by decide) ?_ hw
  generalize encodeWord (.fence s k) = w at he ho
  simp only [raw, rawLs, ho]
  rw [show w / 2 ^ 23 % 8 = s.code from by omega, scope_ofCode_code, show fld w 21 2 = k from fld_eq (by omega)]

theorem RoundTrip.amoadd (d a b : BitVec 5) (s : Scope) (o : BitVec 2) : RoundTrip.Statement (.amoadd d a b s o) := by
  refine .slot (c := .ls) rfl rfl fun hw => ?_
  have := d.isLt; have := a.isLt; have := b.isLt; have := scope_code_lt s; have := o.isLt
  have he : encodeWord (.amoadd d a b s o) = (o.toNat) * 2 ^ 6 + ((s.code) * 2 ^ 8 + ((b.toNat) * 2 ^ 11 + ((a.toNat) * 2 ^ 16 + ((d.toNat) * 2 ^ 21 + (8 * 2 ^ 26))))) := rfl
  have ho : encodeWord (.amoadd d a b s o) / 2 ^ 26 = 8 := by rw [he]; omega
  refine decodeSlot_eq ho (by decide) ?_ hw
  generalize encodeWord (.amoadd d a b s o) = w at he ho
  simp only [raw, rawLs, ho]
  rw [show w / 2 ^ 8 % 8 = s.code from by omega, scope_ofCode_code, show fld w 21 5 = d from fld_eq (by omega), show fld w 16 5 = a from fld_eq (by omega), show fld w 11 5 = b from fld_eq (by omega), show fld w 6 2 = o from fld_eq (by omega)]

theorem RoundTrip.amoand (d a b : BitVec 5) (s : Scope) (o : BitVec 2) : RoundTrip.Statement (.amoand d a b s o) := by
  refine .slot (c := .ls) rfl rfl fun hw => ?_
  have := d.isLt; have := a.isLt; have := b.isLt; have := scope_code_lt s; have := o.isLt
  have he : encodeWord (.amoand d a b s o) = (o.toNat) * 2 ^ 6 + ((s.code) * 2 ^ 8 + ((b.toNat) * 2 ^ 11 + ((a.toNat) * 2 ^ 16 + ((d.toNat) * 2 ^ 21 + (9 * 2 ^ 26))))) := rfl
  have ho : encodeWord (.amoand d a b s o) / 2 ^ 26 = 9 := by rw [he]; omega
  refine decodeSlot_eq ho (by decide) ?_ hw
  generalize encodeWord (.amoand d a b s o) = w at he ho
  simp only [raw, rawLs, ho]
  rw [show w / 2 ^ 8 % 8 = s.code from by omega, scope_ofCode_code, show fld w 21 5 = d from fld_eq (by omega), show fld w 16 5 = a from fld_eq (by omega), show fld w 11 5 = b from fld_eq (by omega), show fld w 6 2 = o from fld_eq (by omega)]

theorem RoundTrip.amoor (d a b : BitVec 5) (s : Scope) (o : BitVec 2) : RoundTrip.Statement (.amoor d a b s o) := by
  refine .slot (c := .ls) rfl rfl fun hw => ?_
  have := d.isLt; have := a.isLt; have := b.isLt; have := scope_code_lt s; have := o.isLt
  have he : encodeWord (.amoor d a b s o) = (o.toNat) * 2 ^ 6 + ((s.code) * 2 ^ 8 + ((b.toNat) * 2 ^ 11 + ((a.toNat) * 2 ^ 16 + ((d.toNat) * 2 ^ 21 + (10 * 2 ^ 26))))) := rfl
  have ho : encodeWord (.amoor d a b s o) / 2 ^ 26 = 10 := by rw [he]; omega
  refine decodeSlot_eq ho (by decide) ?_ hw
  generalize encodeWord (.amoor d a b s o) = w at he ho
  simp only [raw, rawLs, ho]
  rw [show w / 2 ^ 8 % 8 = s.code from by omega, scope_ofCode_code, show fld w 21 5 = d from fld_eq (by omega), show fld w 16 5 = a from fld_eq (by omega), show fld w 11 5 = b from fld_eq (by omega), show fld w 6 2 = o from fld_eq (by omega)]

theorem RoundTrip.amoxor (d a b : BitVec 5) (s : Scope) (o : BitVec 2) : RoundTrip.Statement (.amoxor d a b s o) := by
  refine .slot (c := .ls) rfl rfl fun hw => ?_
  have := d.isLt; have := a.isLt; have := b.isLt; have := scope_code_lt s; have := o.isLt
  have he : encodeWord (.amoxor d a b s o) = (o.toNat) * 2 ^ 6 + ((s.code) * 2 ^ 8 + ((b.toNat) * 2 ^ 11 + ((a.toNat) * 2 ^ 16 + ((d.toNat) * 2 ^ 21 + (11 * 2 ^ 26))))) := rfl
  have ho : encodeWord (.amoxor d a b s o) / 2 ^ 26 = 11 := by rw [he]; omega
  refine decodeSlot_eq ho (by decide) ?_ hw
  generalize encodeWord (.amoxor d a b s o) = w at he ho
  simp only [raw, rawLs, ho]
  rw [show w / 2 ^ 8 % 8 = s.code from by omega, scope_ofCode_code, show fld w 21 5 = d from fld_eq (by omega), show fld w 16 5 = a from fld_eq (by omega), show fld w 11 5 = b from fld_eq (by omega), show fld w 6 2 = o from fld_eq (by omega)]

theorem RoundTrip.amomin (d a b : BitVec 5) (s : Scope) (o : BitVec 2) (u : Bool) : RoundTrip.Statement (.amomin d a b s o u) := by
  refine .slot (c := .ls) rfl rfl fun hw => ?_
  have := d.isLt; have := a.isLt; have := b.isLt; have := scope_code_lt s; have := o.isLt; have := Bool.toNat_lt u
  have he : encodeWord (.amomin d a b s o u) = (u.toNat) * 2 ^ 5 + ((o.toNat) * 2 ^ 6 + ((s.code) * 2 ^ 8 + ((b.toNat) * 2 ^ 11 + ((a.toNat) * 2 ^ 16 + ((d.toNat) * 2 ^ 21 + (12 * 2 ^ 26)))))) := rfl
  have ho : encodeWord (.amomin d a b s o u) / 2 ^ 26 = 12 := by rw [he]; omega
  refine decodeSlot_eq ho (by decide) ?_ hw
  generalize encodeWord (.amomin d a b s o u) = w at he ho
  simp only [raw, rawLs, ho]
  rw [show w / 2 ^ 8 % 8 = s.code from by omega, scope_ofCode_code, show fld w 21 5 = d from fld_eq (by omega), show fld w 16 5 = a from fld_eq (by omega), show fld w 11 5 = b from fld_eq (by omega), show fld w 6 2 = o from fld_eq (by omega), show bit w 5 = u from bit_eq (by omega)]

theorem RoundTrip.amomax (d a b : BitVec 5) (s : Scope) (o : BitVec 2) (u : Bool) : RoundTrip.Statement (.amomax d a b s o u) := by
  refine .slot (c := .ls) rfl rfl fun hw => ?_
  have := d.isLt; have := a.isLt; have := b.isLt; have := scope_code_lt s; have := o.isLt; have := Bool.toNat_lt u
  have he : encodeWord (.amomax d a b s o u) = (u.toNat) * 2 ^ 5 + ((o.toNat) * 2 ^ 6 + ((s.code) * 2 ^ 8 + ((b.toNat) * 2 ^ 11 + ((a.toNat) * 2 ^ 16 + ((d.toNat) * 2 ^ 21 + (13 * 2 ^ 26)))))) := rfl
  have ho : encodeWord (.amomax d a b s o u) / 2 ^ 26 = 13 := by rw [he]; omega
  refine decodeSlot_eq ho (by decide) ?_ hw
  generalize encodeWord (.amomax d a b s o u) = w at he ho
  simp only [raw, rawLs, ho]
  rw [show w / 2 ^ 8 % 8 = s.code from by omega, scope_ofCode_code, show fld w 21 5 = d from fld_eq (by omega), show fld w 16 5 = a from fld_eq (by omega), show fld w 11 5 = b from fld_eq (by omega), show fld w 6 2 = o from fld_eq (by omega), show bit w 5 = u from bit_eq (by omega)]

theorem RoundTrip.amoswap (d a b : BitVec 5) (s : Scope) (o : BitVec 2) : RoundTrip.Statement (.amoswap d a b s o) := by
  refine .slot (c := .ls) rfl rfl fun hw => ?_
  have := d.isLt; have := a.isLt; have := b.isLt; have := scope_code_lt s; have := o.isLt
  have he : encodeWord (.amoswap d a b s o) = (o.toNat) * 2 ^ 6 + ((s.code) * 2 ^ 8 + ((b.toNat) * 2 ^ 11 + ((a.toNat) * 2 ^ 16 + ((d.toNat) * 2 ^ 21 + (14 * 2 ^ 26))))) := rfl
  have ho : encodeWord (.amoswap d a b s o) / 2 ^ 26 = 14 := by rw [he]; omega
  refine decodeSlot_eq ho (by decide) ?_ hw
  generalize encodeWord (.amoswap d a b s o) = w at he ho
  simp only [raw, rawLs, ho]
  rw [show w / 2 ^ 8 % 8 = s.code from by omega, scope_ofCode_code, show fld w 21 5 = d from fld_eq (by omega), show fld w 16 5 = a from fld_eq (by omega), show fld w 11 5 = b from fld_eq (by omega), show fld w 6 2 = o from fld_eq (by omega)]

theorem RoundTrip.amocas (d a b : BitVec 5) (s : Scope) (o : BitVec 2) : RoundTrip.Statement (.amocas d a b s o) := by
  refine .slot (c := .ls) rfl rfl fun hw => ?_
  have := d.isLt; have := a.isLt; have := b.isLt; have := scope_code_lt s; have := o.isLt
  have he : encodeWord (.amocas d a b s o) = (o.toNat) * 2 ^ 6 + ((s.code) * 2 ^ 8 + ((b.toNat) * 2 ^ 11 + ((a.toNat) * 2 ^ 16 + ((d.toNat) * 2 ^ 21 + (15 * 2 ^ 26))))) := rfl
  have ho : encodeWord (.amocas d a b s o) / 2 ^ 26 = 15 := by rw [he]; omega
  refine decodeSlot_eq ho (by decide) ?_ hw
  generalize encodeWord (.amocas d a b s o) = w at he ho
  simp only [raw, rawLs, ho]
  rw [show w / 2 ^ 8 % 8 = s.code from by omega, scope_ofCode_code, show fld w 21 5 = d from fld_eq (by omega), show fld w 16 5 = a from fld_eq (by omega), show fld w 11 5 = b from fld_eq (by omega), show fld w 6 2 = o from fld_eq (by omega)]

theorem RoundTrip.stld (n a : BitVec 5) (o : BitVec 16) : RoundTrip.Statement (.stld n a o) := by
  refine .slot (c := .ls) rfl rfl fun hw => ?_
  have := n.isLt; have := a.isLt; have := o.isLt
  have he : encodeWord (.stld n a o) = (o.toNat) * 2 ^ 0 + ((a.toNat) * 2 ^ 16 + ((n.toNat) * 2 ^ 21 + (16 * 2 ^ 26))) := rfl
  have ho : encodeWord (.stld n a o) / 2 ^ 26 = 16 := by rw [he]; omega
  refine decodeSlot_eq ho (by decide) ?_ hw
  generalize encodeWord (.stld n a o) = w at he ho
  simp only [raw, rawLs, ho]
  rw [show fld w 21 5 = n from fld_eq (by omega), show fld w 16 5 = a from fld_eq (by omega), show fld w 0 16 = o from fld_eq (by omega)]

theorem RoundTrip.stset (n a : BitVec 5) (s : BitVec 3) : RoundTrip.Statement (.stset n a s) := by
  refine .slot (c := .ls) rfl rfl fun hw => ?_
  have := n.isLt; have := a.isLt; have := s.isLt
  have he : encodeWord (.stset n a s) = (s.toNat) * 2 ^ 13 + ((a.toNat) * 2 ^ 16 + ((n.toNat) * 2 ^ 21 + (17 * 2 ^ 26))) := rfl
  have ho : encodeWord (.stset n a s) / 2 ^ 26 = 17 := by rw [he]; omega
  refine decodeSlot_eq ho (by decide) ?_ hw
  generalize encodeWord (.stset n a s) = w at he ho
  simp only [raw, rawLs, ho]
  rw [show fld w 21 5 = n from fld_eq (by omega), show fld w 16 5 = a from fld_eq (by omega), show fld w 13 3 = s from fld_eq (by omega)]

theorem RoundTrip.stget (d n : BitVec 5) (s : BitVec 3) : RoundTrip.Statement (.stget d n s) := by
  refine .slot (c := .ls) rfl rfl fun hw => ?_
  have := d.isLt; have := n.isLt; have := s.isLt
  have he : encodeWord (.stget d n s) = (s.toNat) * 2 ^ 13 + ((n.toNat) * 2 ^ 16 + ((d.toNat) * 2 ^ 21 + (18 * 2 ^ 26))) := rfl
  have ho : encodeWord (.stget d n s) / 2 ^ 26 = 18 := by rw [he]; omega
  refine decodeSlot_eq ho (by decide) ?_ hw
  generalize encodeWord (.stget d n s) = w at he ho
  simp only [raw, rawLs, ho]
  rw [show fld w 21 5 = d from fld_eq (by omega), show fld w 16 5 = n from fld_eq (by omega), show fld w 13 3 = s from fld_eq (by omega)]

theorem RoundTrip.stadv (n a : BitVec 5) : RoundTrip.Statement (.stadv n a) := by
  refine .slot (c := .ls) rfl rfl fun hw => ?_
  have := n.isLt; have := a.isLt
  have he : encodeWord (.stadv n a) = (a.toNat) * 2 ^ 16 + ((n.toNat) * 2 ^ 21 + (19 * 2 ^ 26)) := rfl
  have ho : encodeWord (.stadv n a) / 2 ^ 26 = 19 := by rw [he]; omega
  refine decodeSlot_eq ho (by decide) ?_ hw
  generalize encodeWord (.stadv n a) = w at he ho
  simp only [raw, rawLs, ho]
  rw [show fld w 21 5 = n from fld_eq (by omega), show fld w 16 5 = a from fld_eq (by omega)]

theorem RoundTrip.vld (f : LF) : RoundTrip.Statement (.vld f) := .slot rfl rfl fun hw => ls_round (o := 24) rfl hw (by decide) (fun w h1 h2 => by simp only [rawLs, h1, h2]; rfl)

theorem RoundTrip.vst (f : LF) : RoundTrip.Statement (.vst f) := .slot rfl rfl fun hw => ls_round (o := 25) rfl hw (by decide) (fun w h1 h2 => by simp only [rawLs, h1, h2]; rfl)

theorem RoundTrip.vldb (f : LF) : RoundTrip.Statement (.vldb f) := .slot rfl rfl fun hw => ls_round (o := 26) rfl hw (by decide) (fun w h1 h2 => by simp only [rawLs, h1, h2]; rfl)

theorem RoundTrip.vpf (f : LF) : RoundTrip.Statement (.vpf f) := .slot rfl rfl fun hw => ls_round (o := 27) rfl hw (by decide) (fun w h1 h2 => by simp only [rawLs, h1, h2]; rfl)

theorem RoundTrip.vscat (f : LF) : RoundTrip.Statement (.vscat f) := .slot rfl rfl fun hw => ls_round (o := 28) rfl hw (by decide) (fun w h1 h2 => by simp only [rawLs, h1, h2]; rfl)

theorem RoundTrip.vscadd (f : LF) : RoundTrip.Statement (.vscadd f) := .slot rfl rfl fun hw => ls_round (o := 29) rfl hw (by decide) (fun w h1 h2 => by simp only [rawLs, h1, h2]; rfl)

theorem RoundTrip.vscmax (f : LF) : RoundTrip.Statement (.vscmax f) := .slot rfl rfl fun hw => ls_round (o := 30) rfl hw (by decide) (fun w h1 h2 => by simp only [rawLs, h1, h2]; rfl)

theorem RoundTrip.vredst (f : LF) : RoundTrip.Statement (.vredst f) := .slot rfl rfl fun hw => ls_round (o := 31) rfl hw (by decide) (fun w h1 h2 => by simp only [rawLs, h1, h2]; rfl)

theorem RoundTrip.vadd (f : VF) : RoundTrip.Statement (.vadd f) := .slot rfl rfl fun hw => vec_round (o := 1) rfl hw (by decide) rfl

theorem RoundTrip.vsub (f : VF) : RoundTrip.Statement (.vsub f) := .slot rfl rfl fun hw => vec_round (o := 2) rfl hw (by decide) rfl

theorem RoundTrip.vmul (f : VF) : RoundTrip.Statement (.vmul f) := .slot rfl rfl fun hw => vec_round (o := 3) rfl hw (by decide) rfl

theorem RoundTrip.vfma (f : VF) : RoundTrip.Statement (.vfma f) := .slot rfl rfl fun hw => vec_round (o := 4) rfl hw (by decide) rfl

theorem RoundTrip.vfms (f : VF) : RoundTrip.Statement (.vfms f) := .slot rfl rfl fun hw => vec_round (o := 5) rfl hw (by decide) rfl

theorem RoundTrip.vfnma (f : VF) : RoundTrip.Statement (.vfnma f) := .slot rfl rfl fun hw => vec_round (o := 6) rfl hw (by decide) rfl

theorem RoundTrip.vmulh (f : VF) : RoundTrip.Statement (.vmulh f) := .slot rfl rfl fun hw => vec_round (o := 7) rfl hw (by decide) rfl

theorem RoundTrip.vmin (f : VF) : RoundTrip.Statement (.vmin f) := .slot rfl rfl fun hw => vec_round (o := 8) rfl hw (by decide) rfl

theorem RoundTrip.vmax (f : VF) : RoundTrip.Statement (.vmax f) := .slot rfl rfl fun hw => vec_round (o := 9) rfl hw (by decide) rfl

theorem RoundTrip.vabs (f : VF) : RoundTrip.Statement (.vabs f) := .slot rfl rfl fun hw => vec_round (o := 10) rfl hw (by decide) rfl

theorem RoundTrip.vneg (f : VF) : RoundTrip.Statement (.vneg f) := .slot rfl rfl fun hw => vec_round (o := 11) rfl hw (by decide) rfl

theorem RoundTrip.vclamp (f : VF) : RoundTrip.Statement (.vclamp f) := .slot rfl rfl fun hw => vec_round (o := 12) rfl hw (by decide) rfl

theorem RoundTrip.vrnd (f : VF) : RoundTrip.Statement (.vrnd f) := .slot rfl rfl fun hw => vec_round (o := 13) rfl hw (by decide) rfl

theorem RoundTrip.vand (f : VF) : RoundTrip.Statement (.vand f) := .slot rfl rfl fun hw => vec_round (o := 14) rfl hw (by decide) rfl

theorem RoundTrip.vor (f : VF) : RoundTrip.Statement (.vor f) := .slot rfl rfl fun hw => vec_round (o := 15) rfl hw (by decide) rfl

theorem RoundTrip.vxor (f : VF) : RoundTrip.Statement (.vxor f) := .slot rfl rfl fun hw => vec_round (o := 16) rfl hw (by decide) rfl

theorem RoundTrip.vnot (f : VF) : RoundTrip.Statement (.vnot f) := .slot rfl rfl fun hw => vec_round (o := 17) rfl hw (by decide) rfl

theorem RoundTrip.vsll (f : VF) : RoundTrip.Statement (.vsll f) := .slot rfl rfl fun hw => vec_round (o := 18) rfl hw (by decide) rfl

theorem RoundTrip.vsrl (f : VF) : RoundTrip.Statement (.vsrl f) := .slot rfl rfl fun hw => vec_round (o := 19) rfl hw (by decide) rfl

theorem RoundTrip.vsra (f : VF) : RoundTrip.Statement (.vsra f) := .slot rfl rfl fun hw => vec_round (o := 20) rfl hw (by decide) rfl

theorem RoundTrip.vcmpeq (f : VF) : RoundTrip.Statement (.vcmpeq f) := .slot rfl rfl fun hw => vec_round (o := 21) rfl hw (by decide) rfl

theorem RoundTrip.vcmpne (f : VF) : RoundTrip.Statement (.vcmpne f) := .slot rfl rfl fun hw => vec_round (o := 22) rfl hw (by decide) rfl

theorem RoundTrip.vcmplt (f : VF) : RoundTrip.Statement (.vcmplt f) := .slot rfl rfl fun hw => vec_round (o := 23) rfl hw (by decide) rfl

theorem RoundTrip.vcmple (f : VF) : RoundTrip.Statement (.vcmple f) := .slot rfl rfl fun hw => vec_round (o := 24) rfl hw (by decide) rfl

theorem RoundTrip.vclass (f : VF) : RoundTrip.Statement (.vclass f) := .slot rfl rfl fun hw => vec_round (o := 25) rfl hw (by decide) rfl

theorem RoundTrip.vsel (f : VF) : RoundTrip.Statement (.vsel f) := .slot rfl rfl fun hw => vec_round (o := 26) rfl hw (by decide) rfl

theorem RoundTrip.vmov (f : VF) : RoundTrip.Statement (.vmov f) := .slot rfl rfl fun hw => vec_round (o := 27) rfl hw (by decide) rfl

theorem RoundTrip.vbcast (f : VF) : RoundTrip.Statement (.vbcast f) := .slot rfl rfl fun hw => vec_round (o := 28) rfl hw (by decide) rfl

theorem RoundTrip.vins (f : VF) : RoundTrip.Statement (.vins f) := .slot rfl rfl fun hw => vec_round (o := 29) rfl hw (by decide) rfl

theorem RoundTrip.vext (f : VF) : RoundTrip.Statement (.vext f) := .slot rfl rfl fun hw => vec_round (o := 30) rfl hw (by decide) rfl

theorem RoundTrip.vgath (f : VF) : RoundTrip.Statement (.vgath f) := .slot rfl rfl fun hw => vec_round (o := 31) rfl hw (by decide) rfl

theorem RoundTrip.vcvt (f : VF) : RoundTrip.Statement (.vcvt f) := .slot rfl rfl fun hw => vec_round (o := 32) rfl hw (by decide) rfl

theorem RoundTrip.vcvt8 (f : VF) : RoundTrip.Statement (.vcvt8 f) := .slot rfl rfl fun hw => vec_round (o := 33) rfl hw (by decide) rfl

theorem RoundTrip.vquant (f : VF) : RoundTrip.Statement (.vquant f) := .slot rfl rfl fun hw => vec_round (o := 34) rfl hw (by decide) rfl

theorem RoundTrip.vdequant (f : VF) : RoundTrip.Statement (.vdequant f) := .slot rfl rfl fun hw => vec_round (o := 35) rfl hw (by decide) rfl

theorem RoundTrip.vpack (f : VF) : RoundTrip.Statement (.vpack f) := .slot rfl rfl fun hw => vec_round (o := 36) rfl hw (by decide) rfl

theorem RoundTrip.vunpk (f : VF) : RoundTrip.Statement (.vunpk f) := .slot rfl rfl fun hw => vec_round (o := 37) rfl hw (by decide) rfl

theorem RoundTrip.vshuf (f : VF) : RoundTrip.Statement (.vshuf f) := .slot rfl rfl fun hw => vec_round (o := 40) rfl hw (by decide) rfl

theorem RoundTrip.vrotm (f : VF) : RoundTrip.Statement (.vrotm f) := .slot rfl rfl fun hw => vec_round (o := 41) rfl hw (by decide) rfl

theorem RoundTrip.vzip (f : VF) : RoundTrip.Statement (.vzip f) := .slot rfl rfl fun hw => vec_round (o := 42) rfl hw (by decide) rfl

theorem RoundTrip.vuzp (f : VF) : RoundTrip.Statement (.vuzp f) := .slot rfl rfl fun hw => vec_round (o := 43) rfl hw (by decide) rfl

theorem RoundTrip.vrev (f : VF) : RoundTrip.Statement (.vrev f) := .slot rfl rfl fun hw => vec_round (o := 44) rfl hw (by decide) rfl

theorem RoundTrip.vslide (f : VF) : RoundTrip.Statement (.vslide f) := .slot rfl rfl fun hw => vec_round (o := 45) rfl hw (by decide) rfl

theorem RoundTrip.vpark (f : VF) : RoundTrip.Statement (.vpark f) := .slot rfl rfl fun hw => vec_round (o := 46) rfl hw (by decide) rfl

theorem RoundTrip.vunpark (f : VF) : RoundTrip.Statement (.vunpark f) := .slot rfl rfl fun hw => vec_round (o := 47) rfl hw (by decide) rfl

theorem RoundTrip.vexp2 (f : VF) : RoundTrip.Statement (.vexp2 f) := .slot rfl rfl fun hw => vec_round (o := 48) rfl hw (by decide) rfl

theorem RoundTrip.vlog2 (f : VF) : RoundTrip.Statement (.vlog2 f) := .slot rfl rfl fun hw => vec_round (o := 49) rfl hw (by decide) rfl

theorem RoundTrip.vrcp (f : VF) : RoundTrip.Statement (.vrcp f) := .slot rfl rfl fun hw => vec_round (o := 50) rfl hw (by decide) rfl

theorem RoundTrip.vrsqrt (f : VF) : RoundTrip.Statement (.vrsqrt f) := .slot rfl rfl fun hw => vec_round (o := 51) rfl hw (by decide) rfl

theorem RoundTrip.vsin (f : VF) : RoundTrip.Statement (.vsin f) := .slot rfl rfl fun hw => vec_round (o := 52) rfl hw (by decide) rfl

theorem RoundTrip.vcos (f : VF) : RoundTrip.Statement (.vcos f) := .slot rfl rfl fun hw => vec_round (o := 53) rfl hw (by decide) rfl

theorem RoundTrip.vtanh (f : VF) : RoundTrip.Statement (.vtanh f) := .slot rfl rfl fun hw => vec_round (o := 54) rfl hw (by decide) rfl

theorem RoundTrip.vqraw (f : VF) : RoundTrip.Statement (.vqraw f) := .slot rfl rfl fun hw => vec_round (o := 56) rfl hw (by decide) rfl

theorem RoundTrip.vunif (f : VF) : RoundTrip.Statement (.vunif f) := .slot rfl rfl fun hw => vec_round (o := 57) rfl hw (by decide) rfl

theorem RoundTrip.vnorm (f : VF) : RoundTrip.Statement (.vnorm f) := .slot rfl rfl fun hw => vec_round (o := 58) rfl hw (by decide) rfl

theorem RoundTrip.vcat (f : VF) : RoundTrip.Statement (.vcat f) := .slot rfl rfl fun hw => vec_round (o := 59) rfl hw (by decide) rfl

theorem RoundTrip.vtopk (f : VF) : RoundTrip.Statement (.vtopk f) := .slot rfl rfl fun hw => vec_round (o := 60) rfl hw (by decide) rfl

theorem RoundTrip.vtemp (f : VF) : RoundTrip.Statement (.vtemp f) := .slot rfl rfl fun hw => vec_round (o := 61) rfl hw (by decide) rfl

theorem RoundTrip.rsum (f : RF) : RoundTrip.Statement (.rsum f) := .slot rfl rfl fun hw => red_round (o := 1) rfl hw (by decide) rfl

theorem RoundTrip.rmax (f : RF) : RoundTrip.Statement (.rmax f) := .slot rfl rfl fun hw => red_round (o := 2) rfl hw (by decide) rfl

theorem RoundTrip.rmin (f : RF) : RoundTrip.Statement (.rmin f) := .slot rfl rfl fun hw => red_round (o := 3) rfl hw (by decide) rfl

theorem RoundTrip.rsumsq (f : RF) : RoundTrip.Statement (.rsumsq f) := .slot rfl rfl fun hw => red_round (o := 4) rfl hw (by decide) rfl

theorem RoundTrip.rmov (f : RF) : RoundTrip.Statement (.rmov f) := .slot rfl rfl fun hw => red_round (o := 5) rfl hw (by decide) rfl

theorem RoundTrip.rclr (f : RF) : RoundTrip.Statement (.rclr f) := .slot rfl rfl fun hw => red_round (o := 6) rfl hw (by decide) rfl

theorem RoundTrip.mld (f : MF) : RoundTrip.Statement (.mld f) := .slot rfl rfl fun hw => mx_round (o := 1) rfl hw (by decide) (fun w h1 h2 => by simp only [rawMx, h1, h2])

theorem RoundTrip.mldu (f : MF) : RoundTrip.Statement (.mldu f) := .slot rfl rfl fun hw => mx_round (o := 2) rfl hw (by decide) (fun w h1 h2 => by simp only [rawMx, h1, h2])

theorem RoundTrip.mldv (f : MF) : RoundTrip.Statement (.mldv f) := .slot rfl rfl fun hw => mx_round (o := 3) rfl hw (by decide) (fun w h1 h2 => by simp only [rawMx, h1, h2])

theorem RoundTrip.mst (f : MF) : RoundTrip.Statement (.mst f) := .slot rfl rfl fun hw => mx_round (o := 4) rfl hw (by decide) (fun w h1 h2 => by simp only [rawMx, h1, h2])

theorem RoundTrip.mstu (f : MF) : RoundTrip.Statement (.mstu f) := .slot rfl rfl fun hw => mx_round (o := 5) rfl hw (by decide) (fun w h1 h2 => by simp only [rawMx, h1, h2])

theorem RoundTrip.mstv (f : MF) : RoundTrip.Statement (.mstv f) := .slot rfl rfl fun hw => mx_round (o := 6) rfl hw (by decide) (fun w h1 h2 => by simp only [rawMx, h1, h2])

theorem RoundTrip.mmov (f : MF) : RoundTrip.Statement (.mmov f) := .slot rfl rfl fun hw => mx_round (o := 7) rfl hw (by decide) (fun w h1 h2 => by simp only [rawMx, h1, h2])

theorem RoundTrip.mmac (f : MF) : RoundTrip.Statement (.mmac f) := .slot rfl rfl fun hw => mx_round (o := 8) rfl hw (by decide) (fun w h1 h2 => by simp only [rawMx, h1, h2])

theorem RoundTrip.mmacs (f : MF) : RoundTrip.Statement (.mmacs f) := .slot rfl rfl fun hw => mx_round (o := 9) rfl hw (by decide) (fun w h1 h2 => by simp only [rawMx, h1, h2])

theorem RoundTrip.mmacr (f : MF) : RoundTrip.Statement (.mmacr f) := .slot rfl rfl fun hw => mx_round (o := 10) rfl hw (by decide) (fun w h1 h2 => by simp only [rawMx, h1, h2])

theorem RoundTrip.mmacm (f : MF) : RoundTrip.Statement (.mmacm f) := .slot rfl rfl fun hw => mx_round (o := 11) rfl hw (by decide) (fun w h1 h2 => by simp only [rawMx, h1, h2])

theorem RoundTrip.mmul (f : MF) : RoundTrip.Statement (.mmul f) := .slot rfl rfl fun hw => mx_round (o := 16) rfl hw (by decide) (fun w h1 h2 => by simp only [rawMx, h1, h2])

theorem RoundTrip.madd (f : MF) : RoundTrip.Statement (.madd f) := .slot rfl rfl fun hw => mx_round (o := 17) rfl hw (by decide) (fun w h1 h2 => by simp only [rawMx, h1, h2])

theorem RoundTrip.msub (f : MF) : RoundTrip.Statement (.msub f) := .slot rfl rfl fun hw => mx_round (o := 18) rfl hw (by decide) (fun w h1 h2 => by simp only [rawMx, h1, h2])

theorem RoundTrip.mscale (f : MF) : RoundTrip.Statement (.mscale f) := .slot rfl rfl fun hw => mx_round (o := 19) rfl hw (by decide) (fun w h1 h2 => by simp only [rawMx, h1, h2])

theorem RoundTrip.mtr (f : MF) : RoundTrip.Statement (.mtr f) := .slot rfl rfl fun hw => mx_round (o := 20) rfl hw (by decide) (fun w h1 h2 => by simp only [rawMx, h1, h2])

theorem RoundTrip.recomp (f : MF) : RoundTrip.Statement (.recomp f) := .slot rfl rfl fun hw => mx_round (o := 24) rfl hw (by decide) (fun w h1 h2 => by simp only [rawMx, h1, h2])

theorem RoundTrip.densify (f : MF) : RoundTrip.Statement (.densify f) := .slot rfl rfl fun hw => mx_round (o := 25) rfl hw (by decide) (fun w h1 h2 => by simp only [rawMx, h1, h2])

theorem RoundTrip.mctl (d : BitVec 4) (l : BitVec 7) (x : Bool) : RoundTrip.Statement (.mctl d l x) := by
  refine .slot (c := .mx) rfl rfl fun hw => ?_
  have := d.isLt; have := l.isLt; have := Bool.toNat_lt x
  have he : encodeWord (.mctl d l x) = (x.toNat) * 2 ^ 14 + ((l.toNat) * 2 ^ 15 + ((d.toNat) * 2 ^ 22 + (26 * 2 ^ 26))) := rfl
  have ho : encodeWord (.mctl d l x) / 2 ^ 26 = 26 := by rw [he]; omega
  refine decodeSlot_eq ho (by decide) ?_ hw
  generalize encodeWord (.mctl d l x) = w at he ho
  simp only [raw, rawMx, ho]
  rw [show fld w 22 4 = d from fld_eq (by omega), show fld w 15 7 = l from fld_eq (by omega), show bit w 14 = x from bit_eq (by omega)]

theorem RoundTrip.mfree (f : MF) : RoundTrip.Statement (.mfree f) := .slot rfl rfl fun hw => mx_round (o := 27) rfl hw (by decide) (fun w h1 h2 => by simp only [rawMx, h1, h2])

theorem RoundTrip.macrd (f : MF) : RoundTrip.Statement (.macrd f) := .slot rfl rfl fun hw => mx_round (o := 28) rfl hw (by decide) (fun w h1 h2 => by simp only [rawMx, h1, h2])

theorem RoundTrip.macwr (f : MF) : RoundTrip.Statement (.macwr f) := .slot rfl rfl fun hw => mx_round (o := 29) rfl hw (by decide) (fun w h1 h2 => by simp only [rawMx, h1, h2])

theorem RoundTrip.accld (f : AF) : RoundTrip.Statement (.accld f) := .slot rfl rfl fun hw => ap_round (o := 1) rfl hw (by decide) (fun w h1 h2 => by simp only [rawAp, h1, h2])

theorem RoundTrip.accwr (f : AF) : RoundTrip.Statement (.accwr f) := .slot rfl rfl fun hw => ap_round (o := 2) rfl hw (by decide) (fun w h1 h2 => by simp only [rawAp, h1, h2])

theorem RoundTrip.accadd (f : AF) : RoundTrip.Statement (.accadd f) := .slot rfl rfl fun hw => ap_round (o := 3) rfl hw (by decide) (fun w h1 h2 => by simp only [rawAp, h1, h2])

theorem RoundTrip.accst (f : AF) : RoundTrip.Statement (.accst f) := .slot rfl rfl fun hw => ap_round (o := 4) rfl hw (by decide) (fun w h1 h2 => by simp only [rawAp, h1, h2])

theorem RoundTrip.accqst (f : AF) : RoundTrip.Statement (.accqst f) := .slot rfl rfl fun hw => ap_round (o := 5) rfl hw (by decide) (fun w h1 h2 => by simp only [rawAp, h1, h2])

theorem RoundTrip.accclr (f : AF) : RoundTrip.Statement (.accclr f) := .slot rfl rfl fun hw => ap_round (o := 6) rfl hw (by decide) (fun w h1 h2 => by simp only [rawAp, h1, h2])

theorem RoundTrip.accmv (f : AF) : RoundTrip.Statement (.accmv f) := .slot rfl rfl fun hw => ap_round (o := 7) rfl hw (by decide) (fun w h1 h2 => by simp only [rawAp, h1, h2])

theorem RoundTrip.accscl (f : AF) : RoundTrip.Statement (.accscl f) := .slot rfl rfl fun hw => ap_round (o := 8) rfl hw (by decide) (fun w h1 h2 => by simp only [rawAp, h1, h2])

theorem RoundTrip.own (s : BitVec 2) (b : Bool) (f c : BitVec 7) : RoundTrip.Statement (.own s b f c) := by
  refine .slot (c := .ec) rfl rfl fun hw => ?_
  have := s.isLt; have := Bool.toNat_lt b; have := f.isLt; have := c.isLt
  have he : encodeWord (.own s b f c) = (c.toNat) * 2 ^ 9 + ((f.toNat) * 2 ^ 16 + ((b.toNat) * 2 ^ 23 + ((s.toNat) * 2 ^ 24 + (2 * 2 ^ 26)))) := rfl
  have ho : encodeWord (.own s b f c) / 2 ^ 26 = 2 := by rw [he]; omega
  refine decodeSlot_eq ho (by decide) ?_ hw
  generalize encodeWord (.own s b f c) = w at he ho
  simp only [raw, rawEc, ho]
  rw [show fld w 24 2 = s from fld_eq (by omega), show bit w 23 = b from bit_eq (by omega), show fld w 16 7 = f from fld_eq (by omega), show fld w 9 7 = c from fld_eq (by omega)]

theorem RoundTrip.rset (n : BitVec 3) (b : Bool) (f c : BitVec 7) (d : Bool) : RoundTrip.Statement (.rset n b f c d) := by
  refine .slot (c := .ec) rfl rfl fun hw => ?_
  have := n.isLt; have := Bool.toNat_lt b; have := f.isLt; have := c.isLt; have := Bool.toNat_lt d
  have he : encodeWord (.rset n b f c d) = (d.toNat) * 2 ^ 7 + ((c.toNat) * 2 ^ 8 + ((f.toNat) * 2 ^ 15 + ((b.toNat) * 2 ^ 22 + ((n.toNat) * 2 ^ 23 + (3 * 2 ^ 26))))) := rfl
  have ho : encodeWord (.rset n b f c d) / 2 ^ 26 = 3 := by rw [he]; omega
  refine decodeSlot_eq ho (by decide) ?_ hw
  generalize encodeWord (.rset n b f c d) = w at he ho
  simp only [raw, rawEc, ho]
  rw [show fld w 23 3 = n from fld_eq (by omega), show bit w 22 = b from bit_eq (by omega), show fld w 15 7 = f from fld_eq (by omega), show fld w 8 7 = c from fld_eq (by omega), show bit w 7 = d from bit_eq (by omega)]

theorem RoundTrip.rwait (h : BitVec 3) (k : Bool) (n : BitVec 8) (l : BitVec 5) : RoundTrip.Statement (.rwait h k n l) := by
  refine .slot (c := .ec) rfl rfl fun hw => ?_
  have := h.isLt; have := Bool.toNat_lt k; have := n.isLt; have := l.isLt
  have he : encodeWord (.rwait h k n l) = (l.toNat) * 2 ^ 9 + ((n.toNat) * 2 ^ 14 + ((k.toNat) * 2 ^ 22 + ((h.toNat) * 2 ^ 23 + (4 * 2 ^ 26)))) := rfl
  have ho : encodeWord (.rwait h k n l) / 2 ^ 26 = 4 := by rw [he]; omega
  refine decodeSlot_eq ho (by decide) ?_ hw
  generalize encodeWord (.rwait h k n l) = w at he ho
  simp only [raw, rawEc, ho]
  rw [show fld w 23 3 = h from fld_eq (by omega), show bit w 22 = k from bit_eq (by omega), show fld w 14 8 = n from fld_eq (by omega), show fld w 9 5 = l from fld_eq (by omega)]

theorem RoundTrip.radv (h : BitVec 3) (i : Bool) (n : BitVec 8) : RoundTrip.Statement (.radv h i n) := by
  refine .slot (c := .ec) rfl rfl fun hw => ?_
  have := h.isLt; have := Bool.toNat_lt i; have := n.isLt
  have he : encodeWord (.radv h i n) = (n.toNat) * 2 ^ 14 + ((i.toNat) * 2 ^ 22 + ((h.toNat) * 2 ^ 23 + (5 * 2 ^ 26))) := rfl
  have ho : encodeWord (.radv h i n) / 2 ^ 26 = 5 := by rw [he]; omega
  refine decodeSlot_eq ho (by decide) ?_ hw
  generalize encodeWord (.radv h i n) = w at he ho
  simp only [raw, rawEc, ho]
  rw [show fld w 23 3 = h from fld_eq (by omega), show bit w 22 = i from bit_eq (by omega), show fld w 14 8 = n from fld_eq (by omega)]

theorem RoundTrip.barr (n : BitVec 6) (r : Bool) (d : BitVec 5) : RoundTrip.Statement (.barr n r d) := by
  refine .slot (c := .ec) rfl rfl fun hw => ?_
  have := n.isLt; have := Bool.toNat_lt r; have := d.isLt
  have he : encodeWord (.barr n r d) = (d.toNat) * 2 ^ 14 + ((r.toNat) * 2 ^ 19 + ((n.toNat) * 2 ^ 20 + (8 * 2 ^ 26))) := rfl
  have ho : encodeWord (.barr n r d) / 2 ^ 26 = 8 := by rw [he]; omega
  refine decodeSlot_eq ho (by decide) ?_ hw
  generalize encodeWord (.barr n r d) = w at he ho
  simp only [raw, rawEc, ho]
  rw [show fld w 20 6 = n from fld_eq (by omega), show bit w 19 = r from bit_eq (by omega), show fld w 14 5 = d from fld_eq (by omega)]

theorem RoundTrip.bwait (n : BitVec 6) (l : BitVec 5) (c : BitVec 5) : RoundTrip.Statement (.bwait n l c) := by
  refine .slot (c := .ec) rfl rfl fun hw => ?_
  have := n.isLt; have := l.isLt; have := c.isLt
  have he : encodeWord (.bwait n l c) = (c.toNat) * 2 ^ 9 + ((l.toNat) * 2 ^ 15 + ((n.toNat) * 2 ^ 20 + (9 * 2 ^ 26))) := rfl
  have ho : encodeWord (.bwait n l c) / 2 ^ 26 = 9 := by rw [he]; omega
  refine decodeSlot_eq ho (by decide) ?_ hw
  generalize encodeWord (.bwait n l c) = w at he ho
  simp only [raw, rawEc, ho]
  rw [show bit w 14 = false from bit_eq (by simp only [Bool.toNat_false]; omega), show fld w 20 6 = n from fld_eq (by omega), show fld w 15 5 = l from fld_eq (by omega), show fld w 9 5 = c from fld_eq (by omega)]
  rfl

theorem RoundTrip.bwaitImm (n : BitVec 6) (l : BitVec 5) (c : BitVec 8) : RoundTrip.Statement (.bwaitImm n l c) := by
  refine .slot (c := .ec) rfl rfl fun hw => ?_
  have := n.isLt; have := l.isLt; have := c.isLt
  have he : encodeWord (.bwaitImm n l c) = (c.toNat) * 2 ^ 6 + (1 * 2 ^ 14 + ((l.toNat) * 2 ^ 15 + ((n.toNat) * 2 ^ 20 + (9 * 2 ^ 26)))) := rfl
  have ho : encodeWord (.bwaitImm n l c) / 2 ^ 26 = 9 := by rw [he]; omega
  refine decodeSlot_eq ho (by decide) ?_ hw
  generalize encodeWord (.bwaitImm n l c) = w at he ho
  simp only [raw, rawEc, ho]
  rw [show bit w 14 = true from bit_eq (by simp only [Bool.toNat_true]; omega), show fld w 20 6 = n from fld_eq (by omega), show fld w 15 5 = l from fld_eq (by omega), show fld w 6 8 = c from fld_eq (by omega)]
  rfl

theorem RoundTrip.breset (n : BitVec 6) : RoundTrip.Statement (.breset n) := by
  refine .slot (c := .ec) rfl rfl fun hw => ?_
  have := n.isLt
  have he : encodeWord (.breset n) = (n.toNat) * 2 ^ 20 + (10 * 2 ^ 26) := rfl
  have ho : encodeWord (.breset n) / 2 ^ 26 = 10 := by rw [he]; omega
  refine decodeSlot_eq ho (by decide) ?_ hw
  generalize encodeWord (.breset n) = w at he ho
  simp only [raw, rawEc, ho]
  rw [show fld w 20 6 = n from fld_eq (by omega)]

theorem RoundTrip.balloc (p : BitVec 4) (n : BitVec 6) : RoundTrip.Statement (.balloc p n) := by
  refine .slot (c := .ec) rfl rfl fun hw => ?_
  have := p.isLt; have := n.isLt
  have he : encodeWord (.balloc p n) = (n.toNat) * 2 ^ 16 + ((p.toNat) * 2 ^ 22 + (11 * 2 ^ 26)) := rfl
  have ho : encodeWord (.balloc p n) / 2 ^ 26 = 11 := by rw [he]; omega
  refine decodeSlot_eq ho (by decide) ?_ hw
  generalize encodeWord (.balloc p n) = w at he ho
  simp only [raw, rawEc, ho]
  rw [show fld w 22 4 = p from fld_eq (by omega), show fld w 16 6 = n from fld_eq (by omega)]

theorem RoundTrip.bfree (n : BitVec 6) : RoundTrip.Statement (.bfree n) := by
  refine .slot (c := .ec) rfl rfl fun hw => ?_
  have := n.isLt
  have he : encodeWord (.bfree n) = (n.toNat) * 2 ^ 20 + (12 * 2 ^ 26) := rfl
  have ho : encodeWord (.bfree n) / 2 ^ 26 = 12 := by rw [he]; omega
  refine decodeSlot_eq ho (by decide) ?_ hw
  generalize encodeWord (.bfree n) = w at he ho
  simp only [raw, rawEc, ho]
  rw [show fld w 20 6 = n from fld_eq (by omega)]

theorem RoundTrip.hxch (n : BitVec 5) (f b : BitVec 6) : RoundTrip.Statement (.hxch n f b) := by
  refine .slot (c := .ec) rfl rfl fun hw => ?_
  have := n.isLt; have := f.isLt; have := b.isLt
  have he : encodeWord (.hxch n f b) = (b.toNat) * 2 ^ 9 + ((f.toNat) * 2 ^ 15 + ((n.toNat) * 2 ^ 21 + (16 * 2 ^ 26))) := rfl
  have ho : encodeWord (.hxch n f b) / 2 ^ 26 = 16 := by rw [he]; omega
  refine decodeSlot_eq ho (by decide) ?_ hw
  generalize encodeWord (.hxch n f b) = w at he ho
  simp only [raw, rawEc, ho]
  rw [show fld w 21 5 = n from fld_eq (by omega), show fld w 15 6 = f from fld_eq (by omega), show fld w 9 6 = b from fld_eq (by omega)]

theorem RoundTrip.reshard (e v : BitVec 4) (b : BitVec 6) : RoundTrip.Statement (.reshard e v b) := by
  refine .slot (c := .ec) rfl rfl fun hw => ?_
  have := e.isLt; have := v.isLt; have := b.isLt
  have he : encodeWord (.reshard e v b) = (b.toNat) * 2 ^ 12 + ((v.toNat) * 2 ^ 18 + ((e.toNat) * 2 ^ 22 + (17 * 2 ^ 26))) := rfl
  have ho : encodeWord (.reshard e v b) / 2 ^ 26 = 17 := by rw [he]; omega
  refine decodeSlot_eq ho (by decide) ?_ hw
  generalize encodeWord (.reshard e v b) = w at he ho
  simp only [raw, rawEc, ho]
  rw [show fld w 22 4 = e from fld_eq (by omega), show fld w 18 4 = v from fld_eq (by omega), show fld w 12 6 = b from fld_eq (by omega)]

theorem RoundTrip.rsload (v : BitVec 4) (a : BitVec 5) : RoundTrip.Statement (.rsload v a) := by
  refine .slot (c := .ec) rfl rfl fun hw => ?_
  have := v.isLt; have := a.isLt
  have he : encodeWord (.rsload v a) = (a.toNat) * 2 ^ 17 + ((v.toNat) * 2 ^ 22 + (18 * 2 ^ 26)) := rfl
  have ho : encodeWord (.rsload v a) / 2 ^ 26 = 18 := by rw [he]; omega
  refine decodeSlot_eq ho (by decide) ?_ hw
  generalize encodeWord (.rsload v a) = w at he ho
  simp only [raw, rawEc, ho]
  rw [show fld w 22 4 = v from fld_eq (by omega), show fld w 17 5 = a from fld_eq (by omega)]

theorem RoundTrip.coll (a : BitVec 5) (b : BitVec 6) : RoundTrip.Statement (.coll a b) := by
  refine .slot (c := .ec) rfl rfl fun hw => ?_
  have := a.isLt; have := b.isLt
  have he : encodeWord (.coll a b) = (b.toNat) * 2 ^ 15 + ((a.toNat) * 2 ^ 21 + (19 * 2 ^ 26)) := rfl
  have ho : encodeWord (.coll a b) / 2 ^ 26 = 19 := by rw [he]; omega
  refine decodeSlot_eq ho (by decide) ?_ hw
  generalize encodeWord (.coll a b) = w at he ho
  simp only [raw, rawEc, ho]
  rw [show fld w 21 5 = a from fld_eq (by omega), show fld w 15 6 = b from fld_eq (by omega)]

theorem RoundTrip.edisp (a : BitVec 5) (b : BitVec 6) : RoundTrip.Statement (.edisp a b) := by
  refine .slot (c := .ec) rfl rfl fun hw => ?_
  have := a.isLt; have := b.isLt
  have he : encodeWord (.edisp a b) = (b.toNat) * 2 ^ 15 + ((a.toNat) * 2 ^ 21 + (20 * 2 ^ 26)) := rfl
  have ho : encodeWord (.edisp a b) / 2 ^ 26 = 20 := by rw [he]; omega
  refine decodeSlot_eq ho (by decide) ?_ hw
  generalize encodeWord (.edisp a b) = w at he ho
  simp only [raw, rawEc, ho]
  rw [show fld w 21 5 = a from fld_eq (by omega), show fld w 15 6 = b from fld_eq (by omega)]

theorem RoundTrip.ecomb (a : BitVec 5) (b : BitVec 6) : RoundTrip.Statement (.ecomb a b) := by
  refine .slot (c := .ec) rfl rfl fun hw => ?_
  have := a.isLt; have := b.isLt
  have he : encodeWord (.ecomb a b) = (b.toNat) * 2 ^ 15 + ((a.toNat) * 2 ^ 21 + (21 * 2 ^ 26)) := rfl
  have ho : encodeWord (.ecomb a b) / 2 ^ 26 = 21 := by rw [he]; omega
  refine decodeSlot_eq ho (by decide) ?_ hw
  generalize encodeWord (.ecomb a b) = w at he ho
  simp only [raw, rawEc, ho]
  rw [show fld w 21 5 = a from fld_eq (by omega), show fld w 15 6 = b from fld_eq (by omega)]

theorem RoundTrip.put (a : BitVec 5) (b : BitVec 6) : RoundTrip.Statement (.put a b) := by
  refine .slot (c := .ec) rfl rfl fun hw => ?_
  have := a.isLt; have := b.isLt
  have he : encodeWord (.put a b) = (b.toNat) * 2 ^ 15 + ((a.toNat) * 2 ^ 21 + (22 * 2 ^ 26)) := rfl
  have ho : encodeWord (.put a b) / 2 ^ 26 = 22 := by rw [he]; omega
  refine decodeSlot_eq ho (by decide) ?_ hw
  generalize encodeWord (.put a b) = w at he ho
  simp only [raw, rawEc, ho]
  rw [show fld w 21 5 = a from fld_eq (by omega), show fld w 15 6 = b from fld_eq (by omega)]

theorem RoundTrip.get (a : BitVec 5) (b : BitVec 6) : RoundTrip.Statement (.get a b) := by
  refine .slot (c := .ec) rfl rfl fun hw => ?_
  have := a.isLt; have := b.isLt
  have he : encodeWord (.get a b) = (b.toNat) * 2 ^ 15 + ((a.toNat) * 2 ^ 21 + (23 * 2 ^ 26)) := rfl
  have ho : encodeWord (.get a b) / 2 ^ 26 = 23 := by rw [he]; omega
  refine decodeSlot_eq ho (by decide) ?_ hw
  generalize encodeWord (.get a b) = w at he ho
  simp only [raw, rawEc, ho]
  rw [show fld w 21 5 = a from fld_eq (by omega), show fld w 15 6 = b from fld_eq (by omega)]

theorem RoundTrip.done (j : Bool) : RoundTrip.Statement (.done j) := by
  refine .slot (c := .ec) rfl rfl fun hw => ?_
  have := Bool.toNat_lt j
  have he : encodeWord (.done j) = (j.toNat) * 2 ^ 25 + (26 * 2 ^ 26) := rfl
  have ho : encodeWord (.done j) / 2 ^ 26 = 26 := by rw [he]; omega
  refine decodeSlot_eq ho (by decide) ?_ hw
  generalize encodeWord (.done j) = w at he ho
  simp only [raw, rawEc, ho]
  rw [show bit w 25 = j from bit_eq (by omega)]

theorem RoundTrip.jraise (a : BitVec 5) : RoundTrip.Statement (.jraise a) := by
  refine .slot (c := .ec) rfl rfl fun hw => ?_
  have := a.isLt
  have he : encodeWord (.jraise a) = (a.toNat) * 2 ^ 21 + (27 * 2 ^ 26) := rfl
  have ho : encodeWord (.jraise a) / 2 ^ 26 = 27 := by rw [he]; omega
  refine decodeSlot_eq ho (by decide) ?_ hw
  generalize encodeWord (.jraise a) = w at he ho
  simp only [raw, rawEc, ho]
  rw [show fld w 21 5 = a from fld_eq (by omega)]

theorem RoundTrip.cpost (a b : BitVec 5) (s : Scope) (j : Bool) : RoundTrip.Statement (.cpost a b s j) := by
  refine .slot (c := .ec) rfl rfl fun hw => ?_
  have := a.isLt; have := b.isLt; have := scope_code_lt s; have := Bool.toNat_lt j
  have he : encodeWord (.cpost a b s j) = (j.toNat) * 2 ^ 12 + ((s.code) * 2 ^ 13 + ((b.toNat) * 2 ^ 16 + ((a.toNat) * 2 ^ 21 + (28 * 2 ^ 26)))) := rfl
  have ho : encodeWord (.cpost a b s j) / 2 ^ 26 = 28 := by rw [he]; omega
  refine decodeSlot_eq ho (by decide) ?_ hw
  generalize encodeWord (.cpost a b s j) = w at he ho
  simp only [raw, rawEc, ho]
  rw [show w / 2 ^ 13 % 8 = s.code from by omega, scope_ofCode_code, show fld w 21 5 = a from fld_eq (by omega), show fld w 16 5 = b from fld_eq (by omega), show bit w 12 = j from bit_eq (by omega)]

theorem RoundTrip.trap (a : BitVec 5) : RoundTrip.Statement (.trap a) := by
  refine .slot (c := .ec) rfl rfl fun hw => ?_
  have := a.isLt
  have he : encodeWord (.trap a) = (a.toNat) * 2 ^ 21 + (30 * 2 ^ 26) := rfl
  have ho : encodeWord (.trap a) / 2 ^ 26 = 30 := by rw [he]; omega
  refine decodeSlot_eq ho (by decide) ?_ hw
  generalize encodeWord (.trap a) = w at he ho
  simp only [raw, rawEc, ho]
  rw [show fld w 21 5 = a from fld_eq (by omega)]

theorem RoundTrip.tsub (n : BitVec 3) (a : BitVec 5) (b : BitVec 6) (p : BitVec 4) : RoundTrip.Statement (.tsub n a b p) := by
  refine .slot (c := .ec) rfl rfl fun hw => ?_
  have := n.isLt; have := a.isLt; have := b.isLt; have := p.isLt
  have he : encodeWord (.tsub n a b p) = (p.toNat) * 2 ^ 8 + ((b.toNat) * 2 ^ 12 + ((a.toNat) * 2 ^ 18 + ((n.toNat) * 2 ^ 23 + (32 * 2 ^ 26)))) := rfl
  have ho : encodeWord (.tsub n a b p) / 2 ^ 26 = 32 := by rw [he]; omega
  refine decodeSlot_eq ho (by decide) ?_ hw
  generalize encodeWord (.tsub n a b p) = w at he ho
  simp only [raw, rawEc, ho]
  rw [show fld w 23 3 = n from fld_eq (by omega), show fld w 18 5 = a from fld_eq (by omega), show fld w 12 6 = b from fld_eq (by omega), show fld w 8 4 = p from fld_eq (by omega)]

theorem RoundTrip.rverd (v : BitVec 2) : RoundTrip.Statement (.rverd v) := by
  refine .slot (c := .ec) rfl rfl fun hw => ?_
  have := v.isLt
  have he : encodeWord (.rverd v) = (v.toNat) * 2 ^ 24 + (33 * 2 ^ 26) := rfl
  have ho : encodeWord (.rverd v) / 2 ^ 26 = 33 := by rw [he]; omega
  refine decodeSlot_eq ho (by decide) ?_ hw
  generalize encodeWord (.rverd v) = w at he ho
  simp only [raw, rawEc, ho]
  rw [show fld w 24 2 = v from fld_eq (by omega)]

theorem RoundTrip.tlog (a b : BitVec 5) : RoundTrip.Statement (.tlog a b) := by
  refine .slot (c := .ec) rfl rfl fun hw => ?_
  have := a.isLt; have := b.isLt
  have he : encodeWord (.tlog a b) = (b.toNat) * 2 ^ 16 + ((a.toNat) * 2 ^ 21 + (34 * 2 ^ 26)) := rfl
  have ho : encodeWord (.tlog a b) / 2 ^ 26 = 34 := by rw [he]; omega
  refine decodeSlot_eq ho (by decide) ?_ hw
  generalize encodeWord (.tlog a b) = w at he ho
  simp only [raw, rawEc, ho]
  rw [show fld w 21 5 = a from fld_eq (by omega), show fld w 16 5 = b from fld_eq (by omega)]

theorem RoundTrip.tsload (n : BitVec 3) (a : BitVec 5) (p : BitVec 4) : RoundTrip.Statement (.tsload n a p) := by
  refine .slot (c := .ec) rfl rfl fun hw => ?_
  have := n.isLt; have := a.isLt; have := p.isLt
  have he : encodeWord (.tsload n a p) = (p.toNat) * 2 ^ 14 + ((a.toNat) * 2 ^ 18 + ((n.toNat) * 2 ^ 23 + (35 * 2 ^ 26))) := rfl
  have ho : encodeWord (.tsload n a p) / 2 ^ 26 = 35 := by rw [he]; omega
  refine decodeSlot_eq ho (by decide) ?_ hw
  generalize encodeWord (.tsload n a p) = w at he ho
  simp only [raw, rawEc, ho]
  rw [show fld w 23 3 = n from fld_eq (by omega), show fld w 18 5 = a from fld_eq (by omega), show fld w 14 4 = p from fld_eq (by omega)]

theorem RoundTrip.tsstat (d : BitVec 5) (n g s : BitVec 3) : RoundTrip.Statement (.tsstat d n g s) := by
  refine .slot (c := .ec) rfl rfl fun hw => ?_
  have := d.isLt; have := n.isLt; have := g.isLt; have := s.isLt
  have he : encodeWord (.tsstat d n g s) = (s.toNat) * 2 ^ 12 + ((g.toNat) * 2 ^ 15 + ((n.toNat) * 2 ^ 18 + ((d.toNat) * 2 ^ 21 + (36 * 2 ^ 26)))) := rfl
  have ho : encodeWord (.tsstat d n g s) / 2 ^ 26 = 36 := by rw [he]; omega
  refine decodeSlot_eq ho (by decide) ?_ hw
  generalize encodeWord (.tsstat d n g s) = w at he ho
  simp only [raw, rawEc, ho]
  rw [show fld w 21 5 = d from fld_eq (by omega), show fld w 18 3 = n from fld_eq (by omega), show fld w 15 3 = g from fld_eq (by omega), show fld w 12 3 = s from fld_eq (by omega)]

theorem RoundTrip.sqset (n : BitVec 3) (a : BitVec 5) : RoundTrip.Statement (.sqset n a) := by
  refine .slot (c := .ec) rfl rfl fun hw => ?_
  have := n.isLt; have := a.isLt
  have he : encodeWord (.sqset n a) = (a.toNat) * 2 ^ 18 + ((n.toNat) * 2 ^ 23 + (40 * 2 ^ 26)) := rfl
  have ho : encodeWord (.sqset n a) / 2 ^ 26 = 40 := by rw [he]; omega
  refine decodeSlot_eq ho (by decide) ?_ hw
  generalize encodeWord (.sqset n a) = w at he ho
  simp only [raw, rawEc, ho]
  rw [show fld w 23 3 = n from fld_eq (by omega), show fld w 18 5 = a from fld_eq (by omega)]

theorem RoundTrip.sqapp (n : BitVec 3) (d : BitVec 5) (c : BitVec 8) : RoundTrip.Statement (.sqapp n d c) := by
  refine .slot (c := .ec) rfl rfl fun hw => ?_
  have := n.isLt; have := d.isLt; have := c.isLt
  have he : encodeWord (.sqapp n d c) = (c.toNat) * 2 ^ 10 + ((d.toNat) * 2 ^ 18 + ((n.toNat) * 2 ^ 23 + (41 * 2 ^ 26))) := rfl
  have ho : encodeWord (.sqapp n d c) / 2 ^ 26 = 41 := by rw [he]; omega
  refine decodeSlot_eq ho (by decide) ?_ hw
  generalize encodeWord (.sqapp n d c) = w at he ho
  simp only [raw, rawEc, ho]
  rw [show fld w 23 3 = n from fld_eq (by omega), show fld w 18 5 = d from fld_eq (by omega), show fld w 10 8 = c from fld_eq (by omega)]

theorem RoundTrip.sqacc (n : BitVec 3) (a : BitVec 5) : RoundTrip.Statement (.sqacc n a) := by
  refine .slot (c := .ec) rfl rfl fun hw => ?_
  have := n.isLt; have := a.isLt
  have he : encodeWord (.sqacc n a) = (a.toNat) * 2 ^ 18 + ((n.toNat) * 2 ^ 23 + (42 * 2 ^ 26)) := rfl
  have ho : encodeWord (.sqacc n a) / 2 ^ 26 = 42 := by rw [he]; omega
  refine decodeSlot_eq ho (by decide) ?_ hw
  generalize encodeWord (.sqacc n a) = w at he ho
  simp only [raw, rawEc, ho]
  rw [show fld w 23 3 = n from fld_eq (by omega), show fld w 18 5 = a from fld_eq (by omega)]

theorem RoundTrip.sqrej (n : BitVec 3) : RoundTrip.Statement (.sqrej n) := by
  refine .slot (c := .ec) rfl rfl fun hw => ?_
  have := n.isLt
  have he : encodeWord (.sqrej n) = (n.toNat) * 2 ^ 23 + (43 * 2 ^ 26) := rfl
  have ho : encodeWord (.sqrej n) / 2 ^ 26 = 43 := by rw [he]; omega
  refine decodeSlot_eq ho (by decide) ?_ hw
  generalize encodeWord (.sqrej n) = w at he ho
  simp only [raw, rawEc, ho]
  rw [show fld w 23 3 = n from fld_eq (by omega)]

theorem RoundTrip.lyrd (d : BitVec 5) (e : BitVec 4) (s : BitVec 3) : RoundTrip.Statement (.lyrd d e s) := by
  refine .slot (c := .ec) rfl rfl fun hw => ?_
  have := d.isLt; have := e.isLt; have := s.isLt
  have he : encodeWord (.lyrd d e s) = (s.toNat) * 2 ^ 14 + ((e.toNat) * 2 ^ 17 + ((d.toNat) * 2 ^ 21 + (44 * 2 ^ 26))) := rfl
  have ho : encodeWord (.lyrd d e s) / 2 ^ 26 = 44 := by rw [he]; omega
  refine decodeSlot_eq ho (by decide) ?_ hw
  generalize encodeWord (.lyrd d e s) = w at he ho
  simp only [raw, rawEc, ho]
  rw [show fld w 21 5 = d from fld_eq (by omega), show fld w 17 4 = e from fld_eq (by omega), show fld w 14 3 = s from fld_eq (by omega)]

theorem RoundTrip.lywr (e : BitVec 4) (a : BitVec 5) (s : BitVec 3) : RoundTrip.Statement (.lywr e a s) := by
  refine .slot (c := .ec) rfl rfl fun hw => ?_
  have := e.isLt; have := a.isLt; have := s.isLt
  have he : encodeWord (.lywr e a s) = (s.toNat) * 2 ^ 14 + ((a.toNat) * 2 ^ 17 + ((e.toNat) * 2 ^ 22 + (45 * 2 ^ 26))) := rfl
  have ho : encodeWord (.lywr e a s) / 2 ^ 26 = 45 := by rw [he]; omega
  refine decodeSlot_eq ho (by decide) ?_ hw
  generalize encodeWord (.lywr e a s) = w at he ho
  simp only [raw, rawEc, ho]
  rw [show fld w 22 4 = e from fld_eq (by omega), show fld w 17 5 = a from fld_eq (by omega), show fld w 14 3 = s from fld_eq (by omega)]

theorem RoundTrip.tlbinv (k : BitVec 2) (a b : BitVec 5) : RoundTrip.Statement (.tlbinv k a b) := by
  refine .slot (c := .ec) rfl rfl fun hw => ?_
  have := k.isLt; have := a.isLt; have := b.isLt
  have he : encodeWord (.tlbinv k a b) = (b.toNat) * 2 ^ 14 + ((a.toNat) * 2 ^ 19 + ((k.toNat) * 2 ^ 24 + (48 * 2 ^ 26))) := rfl
  have ho : encodeWord (.tlbinv k a b) / 2 ^ 26 = 48 := by rw [he]; omega
  refine decodeSlot_eq ho (by decide) ?_ hw
  generalize encodeWord (.tlbinv k a b) = w at he ho
  simp only [raw, rawEc, ho]
  rw [show fld w 24 2 = k from fld_eq (by omega), show fld w 19 5 = a from fld_eq (by omega), show fld w 14 5 = b from fld_eq (by omega)]

theorem RoundTrip.aclwr (a b : BitVec 5) : RoundTrip.Statement (.aclwr a b) := by
  refine .slot (c := .ec) rfl rfl fun hw => ?_
  have := a.isLt; have := b.isLt
  have he : encodeWord (.aclwr a b) = (b.toNat) * 2 ^ 16 + ((a.toNat) * 2 ^ 21 + (49 * 2 ^ 26)) := rfl
  have ho : encodeWord (.aclwr a b) / 2 ^ 26 = 49 := by rw [he]; omega
  refine decodeSlot_eq ho (by decide) ?_ hw
  generalize encodeWord (.aclwr a b) = w at he ho
  simp only [raw, rawEc, ho]
  rw [show fld w 21 5 = a from fld_eq (by omega), show fld w 16 5 = b from fld_eq (by omega)]

theorem RoundTrip.ckpt (a : BitVec 5) (b : BitVec 6) : RoundTrip.Statement (.ckpt a b) := by
  refine .slot (c := .ec) rfl rfl fun hw => ?_
  have := a.isLt; have := b.isLt
  have he : encodeWord (.ckpt a b) = (b.toNat) * 2 ^ 15 + ((a.toNat) * 2 ^ 21 + (50 * 2 ^ 26)) := rfl
  have ho : encodeWord (.ckpt a b) / 2 ^ 26 = 50 := by rw [he]; omega
  refine decodeSlot_eq ho (by decide) ?_ hw
  generalize encodeWord (.ckpt a b) = w at he ho
  simp only [raw, rawEc, ho]
  rw [show fld w 21 5 = a from fld_eq (by omega), show fld w 15 6 = b from fld_eq (by omega)]

theorem RoundTrip.mark : RoundTrip.Statement (.mark) := by
  refine .slot (c := .ls) rfl rfl fun hw => ?_
  have he : encodeWord (.mark) = 6 * 2 ^ 26 := rfl
  have ho : encodeWord (.mark) / 2 ^ 26 = 6 := by rw [he]; omega
  refine decodeSlot_eq ho (by decide) ?_ hw
  generalize encodeWord (.mark) = w at he ho
  simp only [raw, rawLs, ho]

theorem RoundTrip.l1inv : RoundTrip.Statement (.l1inv) := by
  refine .slot (c := .ls) rfl rfl fun hw => ?_
  have he : encodeWord (.l1inv) = 20 * 2 ^ 26 := rfl
  have ho : encodeWord (.l1inv) / 2 ^ 26 = 20 := by rw [he]; omega
  refine decodeSlot_eq ho (by decide) ?_ hw
  generalize encodeWord (.l1inv) = w at he ho
  simp only [raw, rawLs, ho]

theorem RoundTrip.yield : RoundTrip.Statement (.yield) := by
  refine .slot (c := .ec) rfl rfl fun hw => ?_
  have he : encodeWord (.yield) = 25 * 2 ^ 26 := rfl
  have ho : encodeWord (.yield) / 2 ^ 26 = 25 := by rw [he]; omega
  refine decodeSlot_eq ho (by decide) ?_ hw
  generalize encodeWord (.yield) = w at he ho
  simp only [raw, rawEc, ho]

theorem RoundTrip.brk : RoundTrip.Statement (.brk) := by
  refine .slot (c := .ec) rfl rfl fun hw => ?_
  have he : encodeWord (.brk) = 31 * 2 ^ 26 := rfl
  have ho : encodeWord (.brk) / 2 ^ 26 = 31 := by rw [he]; omega
  refine decodeSlot_eq ho (by decide) ?_ hw
  generalize encodeWord (.brk) = w at he ho
  simp only [raw, rawEc, ho]
theorem RoundTrip.lix (d : BitVec 5) (long : Bool) (lo hi : BitVec 32) : RoundTrip.Statement (.lix d long lo hi) := by
  refine .slot (c := .scalar) rfl rfl fun hw => ?_
  have := d.isLt
  cases long
  · have hh : hi = 0 := by simpa [Instr.wf] using hw
    subst hh
    have he : encodeWord (.lix d false lo 0) = 0 * 2 ^ 0 + (d.toNat * 2 ^ 21 + (38 * 2 ^ 26)) := rfl
    have ho : encodeWord (.lix d false lo 0) / 2 ^ 26 = 38 := by rw [he]; omega
    refine decodeSlot_eq ho (by decide) ?_ hw
    generalize encodeWord (.lix d false lo 0) = w at he ho
    simp only [raw, rawScalar, ho]
    rw [show fld w 21 5 = d from fld_eq (by omega), show bit w 0 = false from bit_eq (by simp only [Bool.toNat_false]; omega)]
    simp [encodeExt, extWord, extNat]
  · have he : encodeWord (.lix d true lo hi) = 1 * 2 ^ 0 + (d.toNat * 2 ^ 21 + (38 * 2 ^ 26)) := rfl
    have ho : encodeWord (.lix d true lo hi) / 2 ^ 26 = 38 := by rw [he]; omega
    refine decodeSlot_eq ho (by decide) ?_ hw
    generalize encodeWord (.lix d true lo hi) = w at he ho
    simp only [raw, rawScalar, ho]
    rw [show fld w 21 5 = d from fld_eq (by omega), show bit w 0 = true from bit_eq (by simp only [Bool.toNat_true]; omega)]
    simp [encodeExt, extWord, extNat]

theorem RoundTrip.ecopy (f : EcopyF) : RoundTrip.Statement (.ecopy f) := by
  refine .slot (c := .ec) rfl rfl fun hw => ?_
  have := f.a.isLt; have := Bool.toNat_lt f.out; have := Bool.toNat_lt f.wmem; have := Bool.toNat_lt f.ring; have := f.bar.isLt
  have := f.row.isLt; have := f.rows.isLt; have := f.h.isLt
  have he : encodeWord (.ecopy f) = f.bar.toNat * 2 ^ 12 + (f.ring.toNat * 2 ^ 18 + (f.wmem.toNat * 2 ^ 19 + (f.out.toNat * 2 ^ 20 + (f.a.toNat * 2 ^ 21 + (1 * 2 ^ 26))))) := rfl
  have hx : encodeExt (.ecopy f) = [f.row.toNat * 2 ^ 17 + f.rows.toNat * 2 ^ 3 + f.h.toNat, f.stride.toNat] := rfl
  have ho : encodeWord (.ecopy f) / 2 ^ 26 = 1 := by rw [he]; omega
  refine decodeSlot_eq ho (by decide) ?_ hw
  rw [hx]
  generalize encodeWord (.ecopy f) = w at he ho
  simp only [raw, rawEc, ho, extNat, extWord, List.getD_cons_zero, List.getD_cons_succ, BitVec.ofNat_toNat, BitVec.setWidth_eq]
  rw [show fld w 21 5 = f.a from fld_eq (by omega), show bit w 20 = f.out from bit_eq (by omega), show bit w 19 = f.wmem from bit_eq (by omega),
    show bit w 18 = f.ring from bit_eq (by omega), show fld w 12 6 = f.bar from fld_eq (by omega), fld_eq (x := f.row) (by omega), fld_eq (x := f.rows) (by omega),
    fld_eq (x := f.h) (by omega)]

theorem RoundTrip.spawn (f : SpawnF) : RoundTrip.Statement (.spawn f) := by
  refine .slot (c := .ec) rfl rfl fun hw => ?_
  have := f.a.isLt; have := f.d.isLt; have := f.g.isLt; have := Bool.toNat_lt f.remote; have := Bool.toNat_lt f.raise; have := f.stage.isLt
  have he : encodeWord (.spawn f) = f.stage.toNat * 2 ^ 6 + (f.raise.toNat * 2 ^ 9 + (f.remote.toNat * 2 ^ 10 + (f.g.toNat * 2 ^ 11 + (f.d.toNat * 2 ^ 16 + (f.a.toNat * 2 ^ 21 + (24 * 2 ^ 26)))))) := rfl
  have hx : encodeExt (.spawn f) = [f.entry.toNat] := rfl
  have ho : encodeWord (.spawn f) / 2 ^ 26 = 24 := by rw [he]; omega
  refine decodeSlot_eq ho (by decide) ?_ hw
  rw [hx]
  generalize encodeWord (.spawn f) = w at he ho
  simp only [raw, rawEc, ho, extNat, extWord, List.getD_cons_zero, BitVec.ofNat_toNat, BitVec.setWidth_eq]
  rw [show fld w 21 5 = f.a from fld_eq (by omega), show fld w 16 5 = f.d from fld_eq (by omega), show fld w 11 5 = f.g from fld_eq (by omega),
    show bit w 10 = f.remote from bit_eq (by omega), show bit w 9 = f.raise from bit_eq (by omega), show fld w 6 3 = f.stage from fld_eq (by omega)]

theorem RoundTrip.slice (b : BitVec 5) (y : Bool) (lo hi : BitVec 32) : RoundTrip.Statement (.slice b y lo hi) := by
  refine .slot (c := .ec) rfl rfl fun hw => ?_
  have := b.isLt; have := Bool.toNat_lt y
  have he : encodeWord (.slice b y lo hi) = y.toNat * 2 ^ 20 + (b.toNat * 2 ^ 21 + (29 * 2 ^ 26)) := rfl
  have hx : encodeExt (.slice b y lo hi) = [lo.toNat, hi.toNat] := rfl
  have ho : encodeWord (.slice b y lo hi) / 2 ^ 26 = 29 := by rw [he]; omega
  refine decodeSlot_eq ho (by decide) ?_ hw
  rw [hx]
  generalize encodeWord (.slice b y lo hi) = w at he ho
  simp only [raw, rawEc, ho, extNat, extWord, List.getD_cons_zero, List.getD_cons_succ, BitVec.ofNat_toNat, BitVec.setWidth_eq]
  rw [show fld w 21 5 = b from fld_eq (by omega), show bit w 20 = y from bit_eq (by omega)]

/-- A tree of KIND k read back from its words. -/
theorem readTree_treeWords (k : Nat) (hk : k < 3) (t : Tree) (h : t.full = true ∨ t.path = 0 ∧ t.e2 = 0 ∧ t.e3 = 0) :
    readTree t.full (treeWords k t) = t ∧ (treeWords k t).getD 0 0 / 2 ^ 30 % 4 = k := by
  have := t.nt.isLt; have := t.t0.isLt; have := t.t1.isLt; have := t.t2.isLt; have := t.t3.isLt; have := t.path.isLt
  have := t.e0.isLt; have := t.e1.isLt; have := t.e2.isLt; have := t.e3.isLt
  have h1 : ∀ b : Bool, fld (treeWord k t) 28 2 = t.nt := fun _ => fld_eq (by unfold treeWord; omega)
  have h2 : fld (treeWord k t) 23 5 = t.t0 := fld_eq (by unfold treeWord; omega)
  have h3 : fld (treeWord k t) 18 5 = t.t1 := fld_eq (by unfold treeWord; omega)
  have h4 : fld (treeWord k t) 13 5 = t.t2 := fld_eq (by unfold treeWord; omega)
  have h5 : fld (treeWord k t) 8 5 = t.t3 := fld_eq (by unfold treeWord; omega)
  have h6 : treeWord k t / 2 ^ 30 % 4 = k := by unfold treeWord; omega
  have h7 : fld (t.e0.toNat + t.e1.toNat * 2 ^ 16) 0 16 = t.e0 := fld_eq (by omega)
  have h8 : fld (t.e0.toNat + t.e1.toNat * 2 ^ 16) 16 16 = t.e1 := fld_eq (by omega)
  have h9 : fld (t.e2.toNat + t.e3.toNat * 2 ^ 16) 0 16 = t.e2 := fld_eq (by omega)
  have h10 : fld (t.e2.toNat + t.e3.toNat * 2 ^ 16) 16 16 = t.e3 := fld_eq (by omega)
  have h11 : fld t.path.toNat 0 30 = t.path := fld_eq (by omega)
  obtain ⟨full, nt, t0, t1, t2, t3, path, e0, e1, e2, e3⟩ := t
  cases full
  · obtain ⟨rfl, rfl, rfl⟩ := h.resolve_left (by simp)
    refine ⟨?_, h6⟩
    simp only [readTree, treeWords, Bool.false_eq_true, if_false, List.getD_cons_zero, List.getD_cons_succ]
    rw [h1 true, h2, h3, h4, h5, h7, h8]
    rfl
  · refine ⟨?_, h6⟩
    simp only [readTree, treeWords, if_true, List.getD_cons_zero, List.getD_cons_succ]
    rw [h1 true, h2, h3, h4, h5, h7, h8, h9, h10, h11]
/-- A short tree has at most two tests: its other entries are zero. -/
theorem tree_wf_short {t : Tree} {b : Bool} (h : t.wf b = true) : t.full = true ∨ t.path = 0 ∧ t.e2 = 0 ∧ t.e3 = 0 := by
  cases hf : t.full
  · right
    simp only [Tree.wf, hf, Bool.false_or, Bool.and_eq_true, Bool.or_eq_true, decide_eq_true_eq, beq_iff_eq] at h
    obtain ⟨⟨⟨⟨⟨⟨h0, hp⟩, -⟩, h2⟩, h3⟩, -⟩, -⟩ := h
    refine ⟨hp, ?_, ?_⟩
    · exact (h2.resolve_left (by omega)).2
    · exact (h3.resolve_left (by omega)).2
  · exact .inl rfl
/-- A branch-tree kind: its words are those of its KIND. -/
theorem tree_round {i : Instr} {t : Tree} {b : Bool} (hc : i.classes = []) (ht : i.tree = some t) (hw : i.wf = t.wf b)
    (hi : i = .br t ∨ i = .call t ∨ i = .brx t) : RoundTrip.Statement i := by
  refine ⟨fun d hd => (List.not_mem_nil (hc ▸ hd)).elim, fun u hu h => ?_⟩
  obtain rfl : t = u := Option.some.inj (ht ▸ hu)
  have hs := tree_wf_short (hw ▸ h)
  unfold decodeTree
  rcases hi with rfl | rfl | rfl
  · have hr := readTree_treeWords 0 (by decide) t hs
    simp only [show encodeTree (.br t) = treeWords 0 t from rfl, hr.1, hr.2, h, and_self, if_true]
  · have hr := readTree_treeWords 1 (by decide) t hs
    simp only [show encodeTree (.call t) = treeWords 1 t from rfl, hr.1, hr.2, h, and_self, if_true]
  · have hr := readTree_treeWords 2 (by decide) t hs
    simp only [show encodeTree (.brx t) = treeWords 2 t from rfl, hr.1, hr.2, h, and_self, if_true]
theorem RoundTrip.br (t : Tree) : RoundTrip.Statement (.br t) := tree_round rfl rfl rfl (by simp)

theorem RoundTrip.call (t : Tree) : RoundTrip.Statement (.call t) := tree_round rfl rfl rfl (by simp)

theorem RoundTrip.brx (t : Tree) : RoundTrip.Statement (.brx t) := tree_round rfl rfl rfl (by simp)

theorem RoundTrip.nop : RoundTrip.Statement .nop := by
  refine ⟨fun c hc _ => ?_, fun t h => by cases h⟩
  have h : c = .scalar ∨ c = .ec := by simpa using (show c ∈ [Cls.scalar, .ec] from hc)
  rcases h with rfl | rfl <;> rfl

theorem RoundTrip.idle : RoundTrip.Statement .idle := by
  refine ⟨fun c hc _ => ?_, fun t h => by cases h⟩
  have h : c = .ls ∨ c = .vec ∨ c = .red ∨ c = .mx ∨ c = .ap := by simpa using (show c ∈ [Cls.ls, .vec, .red, .mx, .ap] from hc)
  rcases h with rfl | rfl | rfl | rfl | rfl <;> rfl

theorem RoundTrip.offCoreLoadResponse (id : Nat) : RoundTrip.Statement (.offCoreLoadResponse id) := .event rfl rfl

theorem RoundTrip.queueEntryPerform (store : Bool) : RoundTrip.Statement (.queueEntryPerform store) := .event rfl rfl

theorem RoundTrip.offCoreFaultReport (id : Nat) : RoundTrip.Statement (.offCoreFaultReport id) := .event rfl rfl

theorem RoundTrip.engineCommandCompletion (id : Nat) : RoundTrip.Statement (.engineCommandCompletion id) := .event rfl rfl

theorem RoundTrip.engineFailureReport (id : Nat) : RoundTrip.Statement (.engineFailureReport id) := .event rfl rfl

theorem RoundTrip.ringBlockTransfer (id : Nat) : RoundTrip.Statement (.ringBlockTransfer id) := .event rfl rfl

theorem RoundTrip.pipeTileCopy (gang : Nat) (pipe : Nat) : RoundTrip.Statement (.pipeTileCopy gang pipe) := .event rfl rfl

theorem RoundTrip.haloFaceArrival (id : Nat) : RoundTrip.Statement (.haloFaceArrival id) := .event rfl rfl

theorem RoundTrip.reshardStep (id : Nat) : RoundTrip.Statement (.reshardStep id) := .event rfl rfl

theorem RoundTrip.stepTokenArrival (id : Nat) : RoundTrip.Statement (.stepTokenArrival id) := .event rfl rfl

theorem RoundTrip.barrierArrival (id : Nat) : RoundTrip.Statement (.barrierArrival id) := .event rfl rfl

theorem RoundTrip.recordAdmission (id : Nat) : RoundTrip.Statement (.recordAdmission id) := .event rfl rfl

theorem RoundTrip.recordCompletion (set : Nat) (place : Nat) : RoundTrip.Statement (.recordCompletion set place) := .event rfl rfl

theorem RoundTrip.packetExpansion (die : Nat) : RoundTrip.Statement (.packetExpansion die) := .event rfl rfl

theorem RoundTrip.gangClaim (gang : Nat) : RoundTrip.Statement (.gangClaim gang) := .event rfl rfl

theorem RoundTrip.gangAdmission (gang : Nat) : RoundTrip.Statement (.gangAdmission gang) := .event rfl rfl

theorem RoundTrip.gangResume (gang : Nat) : RoundTrip.Statement (.gangResume gang) := .event rfl rfl

theorem RoundTrip.jobCompletion (jcb : Nat) : RoundTrip.Statement (.jobCompletion jcb) := .event rfl rfl

theorem RoundTrip.completionSignal (jcb : Nat) : RoundTrip.Statement (.completionSignal jcb) := .event rfl rfl

theorem RoundTrip.resume (handle : Nat) : RoundTrip.Statement (.resume handle) := .event rfl rfl

theorem RoundTrip.fault (handle : Nat) : RoundTrip.Statement (.fault handle) := .event rfl rfl

theorem RoundTrip.endTrapped (handle : Nat) : RoundTrip.Statement (.endTrapped handle) := .event rfl rfl

theorem RoundTrip.endPost (handle : Nat) : RoundTrip.Statement (.endPost handle) := .event rfl rfl

theorem RoundTrip.requestArrival (id : Nat) : RoundTrip.Statement (.requestArrival id) := .event rfl rfl

theorem RoundTrip.acknowledgement (id : Nat) : RoundTrip.Statement (.acknowledgement id) := .event rfl rfl

theorem RoundTrip.checkpointCopy (id : Nat) : RoundTrip.Statement (.checkpointCopy id) := .event rfl rfl

theorem RoundTrip.checkpointCommit (id : Nat) : RoundTrip.Statement (.checkpointCommit id) := .event rfl rfl

theorem RoundTrip.push (kind : BitVec 2) (die : Nat) (queue : Nat) (off : Nat) (bytes : List (BitVec 8)) : RoundTrip.Statement (.push kind die queue off bytes) := .event rfl rfl

theorem RoundTrip.uncorrectableError (cid : Nat) (e : ErrSite) : RoundTrip.Statement (.uncorrectableError cid e) := .event rfl rfl

theorem RoundTrip.correctedError (die : Nat) : RoundTrip.Statement (.correctedError die) := .event rfl rfl

theorem RoundTrip.flitArrival (port : Nat) (plane : Bool) (c : FlitClass) (intact : Bool) : RoundTrip.Statement (.flitArrival port plane c intact) := .event rfl rfl

theorem RoundTrip.planeFailure (port : Nat) (plane : Bool) : RoundTrip.Statement (.planeFailure port plane) := .event rfl rfl

theorem RoundTrip.planeRejoin (port : Nat) (plane : Bool) : RoundTrip.Statement (.planeRejoin port plane) := .event rfl rfl

theorem RoundTrip.linkTraining (port : Nat) (plane : Bool) : RoundTrip.Statement (.linkTraining port plane) := .event rfl rfl

theorem RoundTrip.rekey (port : Nat) (plane : Bool) : RoundTrip.Statement (.rekey port plane) := .event rfl rfl

theorem RoundTrip.slotAlignmentLoss (port : Nat) (plane : Bool) : RoundTrip.Statement (.slotAlignmentLoss port plane) := .event rfl rfl

theorem RoundTrip.bar0Write (pkg : Nat) (kind : BitVec 2) (off : Nat) (v : BitVec 64) : RoundTrip.Statement (.bar0Write pkg kind off v) := .event rfl rfl

theorem RoundTrip.claim (pkg : Nat) (kind : BitVec 2) : RoundTrip.Statement (.claim pkg kind) := .event rfl rfl

theorem RoundTrip.handover (pkg : Nat) (kind : BitVec 2) (v : BitVec 64) : RoundTrip.Statement (.handover pkg kind v) := .event rfl rfl

theorem RoundTrip.attest (pkg : Nat) (kind : BitVec 2) (v : BitVec 64) : RoundTrip.Statement (.attest pkg kind v) := .event rfl rfl

theorem RoundTrip.bar4Write (pkg : Nat) (kind : BitVec 2) (off : Nat) (bytes : List (BitVec 8)) : RoundTrip.Statement (.bar4Write pkg kind off bytes) := .event rfl rfl

theorem RoundTrip.bar4Read (pkg : Nat) (kind : BitVec 2) (off : Nat) (n : Nat) : RoundTrip.Statement (.bar4Read pkg kind off n) := .event rfl rfl

theorem RoundTrip.boot (die : Nat) (signed : Bool) (version : BitVec 64) (root : Nat) : RoundTrip.Statement (.boot die signed version root) := .event rfl rfl

theorem RoundTrip.resumption (die : Nat) : RoundTrip.Statement (.resumption die) := .event rfl rfl

theorem RoundTrip.throttle (die : Nat) (celsius : Nat) : RoundTrip.Statement (.throttle die celsius) := .event rfl rfl

theorem RoundTrip.ownerLinkDown (pkg : Nat) : RoundTrip.Statement (.ownerLinkDown pkg) := .event rfl rfl

theorem RoundTrip.powerRemoval (pkg : Nat) : RoundTrip.Statement (.powerRemoval pkg) := .event rfl rfl

theorem RoundTrip.repetitionIssue : RoundTrip.Statement (.repetitionIssue) := .event rfl rfl

theorem RoundTrip.resultLanding : RoundTrip.Statement (.resultLanding) := .event rfl rfl

theorem RoundTrip.matrixResultLanding : RoundTrip.Statement (.matrixResultLanding) := .event rfl rfl

theorem RoundTrip.waitConditionMet : RoundTrip.Statement (.waitConditionMet) := .event rfl rfl

theorem RoundTrip.waitTimeout : RoundTrip.Statement (.waitTimeout) := .event rfl rfl

theorem RoundTrip.safePoint : RoundTrip.Statement (.safePoint) := .event rfl rfl

theorem RoundTrip.save : RoundTrip.Statement (.save) := .event rfl rfl

theorem RoundTrip.budgetExhausted : RoundTrip.Statement (.budgetExhausted) := .event rfl rfl

theorem RoundTrip.safepointOverdue : RoundTrip.Statement (.safepointOverdue) := .event rfl rfl

theorem RoundTrip.spawnEnqueue : RoundTrip.Statement (.spawnEnqueue) := .event rfl rfl

theorem RoundTrip.dispatch : RoundTrip.Statement (.dispatch) := .event rfl rfl

theorem RoundTrip.trapRecordClaim : RoundTrip.Statement (.trapRecordClaim) := .event rfl rfl

theorem RoundTrip.translationWalk : RoundTrip.Statement (.translationWalk) := .event rfl rfl

theorem RoundTrip.tlbinvCompletion : RoundTrip.Statement (.tlbinvCompletion) := .event rfl rfl

theorem RoundTrip.criticalResend : RoundTrip.Statement (.criticalResend) := .event rfl rfl

theorem RoundTrip.criticalFlitLost : RoundTrip.Statement (.criticalFlitLost) := .event rfl rfl

theorem RoundTrip.endToEndResend : RoundTrip.Statement (.endToEndResend) := .event rfl rfl

theorem RoundTrip.fabricOutcomeUnknown : RoundTrip.Statement (.fabricOutcomeUnknown) := .event rfl rfl

theorem RoundTrip.handoverLapse : RoundTrip.Statement (.handoverLapse) := .event rfl rfl

theorem RoundTrip.quoteCompletion : RoundTrip.Statement (.quoteCompletion) := .event rfl rfl

end Sys2Proof.Laws
end

