-- ==== Sys2Proof/Laws/Quant.lean ====
section
/-! SUPPORT. Quantisation: the model's QUANT and dequantisation, held against what R57 and R174 say of their values. -/

namespace Sys2Proof.Machine

/-- The largest magnitude of a list, as QUANT finds it. -/
theorem maxAbs_units (f : Fmt) : ∀ l : List FV, (∀ a ∈ l, a.isFin = true ∧ f.Holds a) →
    ((maxAbs l).1 * 2 ^ ((maxAbs l).2 + f.unitExp).toNat = l.foldr (fun a m => Nat.max (f.units a).natAbs m) 0 ∧ 0 ≤ (maxAbs l).2 + f.unitExp) := by
  intro l
  induction l with
  | nil => intro _; simp [maxAbs]
  | cons a r ih =>
    intro h
    obtain ⟨ih1, ih2⟩ := ih fun b hb => h b (List.mem_cons_of_mem _ hb)
    obtain ⟨hf, hh⟩ := h a (List.mem_cons_self ..)
    cases a with
    | nan => cases hf
    | inf => cases hf
    | fin n m e =>
      have h0 := hh _ _ _ rfl
      obtain ⟨hx, -⟩ := addExact_units (an := false) (am := m) (ae := e) (bn := true) (bm := (maxAbs r).1) (be := (maxAbs r).2) h0 ih2
      have hu : (f.units (.fin n m e)).natAbs = m * 2 ^ (e + f.unitExp).toNat := by rw [units_fin, sgn_natAbs]
      have p := int_pow_pos ((addExact false m e true (maxAbs r).1 (maxAbs r).2).2 + f.unitExp).toNat
      have key : 0 < (addExact false m e true (maxAbs r).1 (maxAbs r).2).1 ↔ (maxAbs r).1 * 2 ^ ((maxAbs r).2 + f.unitExp).toNat < m * 2 ^ (e + f.unitExp).toNat := by
        rw [← mul_pos_iff_of_pos_right p, hx]
        simp only [sgn, if_true, Bool.false_eq_true, if_false]
        omega
      rw [List.foldr_cons, ← ih1, hu]
      have hm : maxAbs (.fin n m e :: r) = if 0 < (addExact false m e true (maxAbs r).1 (maxAbs r).2).1 then (m, e) else maxAbs r := rfl
      rw [hm]
      by_cases c : 0 < (addExact false m e true (maxAbs r).1 (maxAbs r).2).1
      · rw [if_pos c]
        exact ⟨(max_eq_left (key.1 c).le).symm, h0⟩
      · rw [if_neg c]
        exact ⟨(max_eq_right (not_lt.1 fun h => c (key.2 h))).symm, ih2⟩
/-- A fraction with its remainder kept as one low bit rounds as the fraction does. -/
theorem roundShift_sticky (N D sh : Nat) (hD : 0 < D) (hs : 2 ≤ sh) :
    RoundsTo 0 ((roundShift 0 false (2 * (N / D) + if N % D = 0 then 0 else 1) sh).1 : Nat) (N : Nat) (D * 2 ^ (sh - 1)) := by
  obtain ⟨s, rfl⟩ : ∃ s, sh = s + 2 := ⟨sh - 2, by omega⟩
  have hN := Nat.div_add_mod N D
  have hR := Nat.mod_lt N hD
  generalize N / D = X at hN ⊢
  generalize N % D = R at hN hR ⊢
  have hh := Nat.two_pow_pos s
  rw [show s + 2 - 1 = s + 1 by omega]
  have e1 : 2 ^ (s + 2) = 4 * 2 ^ s := by rw [pow_add]; omega
  have e2 : 2 ^ (s + 1) = 2 * 2 ^ s := by rw [pow_succ]; omega
  unfold roundShift
  rw [e1, e2]
  generalize 2 ^ s = h at hh
  -- X = 2h·a + b
  have hX := Nat.div_add_mod X (2 * h)
  have hb := Nat.mod_lt X (show 0 < 2 * h by omega)
  generalize X / (2 * h) = a at hX
  generalize X % (2 * h) = b at hX hb
  generalize hst : (if R = 0 then 0 else 1 : Nat) = st
  have st1 : st ≤ 1 := by rw [← hst]; split <;> omega
  have hx2 : 2 * X + st = (4 * h) * a + (2 * b + st) := by rw [← hX]; ring
  have hq : (2 * X + st) / (4 * h) = a := by rw [hx2, Nat.mul_add_div (by omega), Nat.div_eq_of_lt (by omega), Nat.add_zero]
  have hr : (2 * X + st) % (4 * h) = 2 * b + st := by rw [hx2, Nat.mul_add_mod, Nat.mod_eq_of_lt (by omega)]
  rw [hq, hr]
  -- N = 2Dh·a + (D·b + R)
  have hN2 : N = a * (D * (2 * h)) + (D * b + R) := by rw [← hN, ← hX]; ring
  have hlt : D * b + R < D * (2 * h) := by
    calc D * b + R < D * (b + 1) := by rw [Nat.mul_succ]; omega
      _ ≤ _ := Nat.mul_le_mul_left _ hb
  have hDh : 2 * (D * h) = D * (2 * h) := by ring
  have lo : b < h → D * b + R < D * h := fun c => by
    calc D * b + R < D * (b + 1) := by rw [Nat.mul_succ]; omega
      _ ≤ _ := Nat.mul_le_mul_left _ c
  have hi : h < b → D * h < D * b + R := fun c => by
    have := Nat.mul_lt_mul_of_pos_left c hD; omega
  have tie : h = b → D * h + R = D * b + R := fun c => by rw [c]
  have st0 : st = 0 ↔ R = 0 := by rw [← hst]; by_cases z : R = 0 <;> simp [z]
  have zz : ∀ v : Nat, (2 * (((v : Nat) : Int) * (D * (2 * h) : Nat) - (N : Nat)).natAbs ≤ D * (2 * h) ∧ (2 * (((v : Nat) : Int) * (D * (2 * h) : Nat) - (N : Nat)).natAbs = D * (2 * h) → (v : Int) % 2 = 0)) →
      RoundsTo 0 (v : Nat) (N : Nat) (D * (2 * h)) := fun v hv => ⟨fun _ => hv, by simp, by simp, by simp⟩
  have ea : ∀ v : Nat, ((v : Int) * ((D * (2 * h) : Nat) : Int)) = ((v * (D * (2 * h)) : Nat) : Int) := fun v => by push_cast; ring
  have e3 : (a + 1) * (D * (2 * h)) = a * (D * (2 * h)) + D * (2 * h) := by ring
  by_cases r0 : 2 * b + st = 0
  · rw [if_pos r0]
    have b0 : b = 0 := by omega
    have R0 := st0.1 (by omega)
    apply zz
    rw [ea, hN2, b0, R0]
    have := Nat.mul_pos hD hh
    constructor <;> simp <;> omega
  · rw [if_neg r0]
    show RoundsTo 0 ((if (decide (2 * (2 * b + st) > 4 * h) || decide (2 * (2 * b + st) = 4 * h) && decide (a % 2 = 1)) = true then a + 1 else a : Nat) : Int) _ _
    apply zz
    rw [ea]
    by_cases up : (decide (2 * (2 * b + st) > 4 * h) || decide (2 * (2 * b + st) = 4 * h) && decide (a % 2 = 1)) = true
    · rw [if_pos up, e3, hN2]
      simp only [Bool.or_eq_true, Bool.and_eq_true, decide_eq_true_eq] at up
      generalize a * (D * (2 * h)) = Y
      rcases lt_trichotomy b h with c | c | c
      · omega
      · have := tie c.symm
        constructor <;> omega
      · have := hi c
        constructor <;> omega
    · rw [if_neg up, hN2]
      simp only [Bool.or_eq_true, Bool.and_eq_true, decide_eq_true_eq] at up
      generalize a * (D * (2 * h)) = Y
      rcases lt_trichotomy b h with c | c | c
      · have := lo c
        constructor <;> omega
      · have := tie c.symm
        constructor <;> omega
      · omega
/-- Rounding to an integer, in any unit. -/
theorem toInt_at {mode : Nat} (hm : mode < 4) (n : Bool) (m : Nat) {e : Int} {K D : Nat} (h : -e = (D : Int) - K) :
    RoundsTo mode (toInt mode n m e).1 (sgn n * (m * 2 ^ K : Nat)) (2 ^ D) ∧
      (toInt mode n m e).2 = decide ((toInt mode n m e).1 * (2 ^ D : Nat) ≠ sgn n * (m * 2 ^ K : Nat)) := by
  obtain ⟨r, x⟩ := atQuantum_roundsTo hm n m e 0 (K := K) (D := D) (by omega)
  have e1 : toInt mode n m e = (sgn n * ((atQuantum mode n m e 0).1 : Int), (atQuantum mode n m e 0).2) := by
    have : (if 0 ≤ e then (m * 2 ^ e.toNat, false) else roundShift mode n m (-e).toNat) = atQuantum mode n m e 0 := by
      unfold atQuantum; rw [Int.sub_zero, Int.zero_sub]
    unfold toInt
    dsimp only
    rw [this]
    cases n <;> simp [sgn]
  rw [e1]
  refine ⟨r, x.trans ?_⟩
  rw [Bool.eq_iff_iff, decide_eq_true_iff, decide_eq_true_iff, mul_assoc, ← Nat.cast_mul]
  have sn : sgn n ≠ 0 := by rcases sgn_cases n with ⟨-, h⟩ | ⟨-, h⟩ <;> rw [h] <;> decide
  rw [Ne, Ne, mul_right_inj' sn, Nat.cast_inj]
theorem clampInt_eq {hi v : Int} (h : 0 ≤ hi) : clampInt (-hi) hi v = max (-hi) (min hi v) := by
  unfold clampInt; split <;> [skip; split] <;> omega
theorem clamped_iff {hi v : Int} : (decide (v < -hi) || decide (hi < v)) = decide (hi < (v.natAbs : Int)) := by
  rw [Bool.eq_iff_iff]; simp only [Bool.or_eq_true, decide_eq_true_eq]; omega
/-- An element of an integer block. -/
theorem mxint_elem {n : Bool} {m : Nat} {e : Int} (h : 0 ≤ e + f32.unitExp) (X : Nat) :
    RoundsTo 0 (toInt 0 n m (e + (127 - (X : Int)))).1 (f32.units (.fin n m e)) (2 ^ (22 + X)) ∧
      (toInt 0 n m (e + (127 - (X : Int)))).2 = decide ((toInt 0 n m (e + (127 - (X : Int)))).1 * (2 ^ (22 + X) : Nat) ≠ f32.units (.fin n m e)) := by
  have : f32.unitExp = 149 := rfl
  rw [units_fin]
  exact toInt_at (by norm_num) n m (by omega)
/-- An element of a small floating block. -/
theorem toSmall_elem {f : Fmt} (ok : f.Ok) {M : Nat} {Q : Int} (hQ : 0 ≤ Q + f.unitExp) (hM : 2 ^ (f.p - 1) ≤ M) (hM' : M < 2 ^ f.p) (hw : (Q + f.unitExp).toNat + 1 < 2 ^ f.ew)
    {n : Bool} {m : Nat} {e : Int} (h : 0 ≤ e + f32.unitExp) (X : Nat) :
    let r := toSmall f M Q n m (e + (127 - (X : Int)))
    (f32.units (.fin n m e) = 0 → r = (zeroOf f n, false, false)) ∧
    (f32.units (.fin n m e) ≠ 0 → ∃ ix tiny, RoundsAt f (unpackSmall f) (M * 2 ^ (Q + f.unitExp).toNat) 0 (f32.units (.fin n m e) * (2 ^ f.unitExp : Nat)) (22 + X) r.1 ix tiny r.2.2 ∧
      (ix || r.2.2) = (r.2.1 || r.2.2) ∧ (r.2.2 = true → r.1 = packFin f n M Q)) := by
  have u149 : f32.unitExp = 149 := rfl
  have hp := ok.p
  intro r
  constructor
  · intro z
    rw [units_eq_zero] at z
    show toSmall f M Q n m _ = _
    unfold toSmall
    rw [if_pos z]
    rfl
  · intro z
    rw [Ne, units_eq_zero] at z
    have key := fun x => @roundTo_roundsAt f ok 0 (by norm_num) M Q hQ hM hM' (unpackSmall f) (fun neg m q a b c d => by
      obtain ⟨h1, h2, -⟩ := unpackSmall_packFin (neg := neg) ok.p ok.bias ok.ew a b c (by intro h; have := Nat.two_pow_pos (f.p - 1); have := d (by omega); omega)
      exact ⟨h1, h2⟩) n m z (e + (127 - (X : Int))) ((e + f32.unitExp).toNat + f.unitExp) (22 + X) (by push_cast; omega) x
    rw [← sgn_mul_units] at key
    have hr : r = if (roundTo 0 f.p (emin f) M Q n m (e + (127 - (X : Int)))).ovf then (packFin f n M Q, true, true)
        else (packFin f n (roundTo 0 f.p (emin f) M Q n m (e + (127 - (X : Int)))).m (roundTo 0 f.p (emin f) M Q n m (e + (127 - (X : Int)))).q, (roundTo 0 f.p (emin f) M Q n m (e + (127 - (X : Int)))).inexact, false) := by
      show toSmall f M Q n m _ = _
      unfold toSmall
      rw [if_neg z]
    rw [hr]
    generalize roundTo 0 f.p (emin f) M Q n m (e + (127 - (X : Int))) = R at key ⊢
    cases o : R.ovf
    · rw [if_neg (by simp)]
      exact ⟨_, _, o ▸ key _ (fun _ => rfl), rfl, fun h => (by cases h)⟩
    · rw [if_pos rfl]
      exact ⟨_, _, o ▸ key _ (fun h => (by rw [o] at h; cases h)), by simp, fun _ => rfl⟩
/-- A quotient rounded to an integer. -/
theorem divInt_roundsTo (n : Bool) (m : Nat) (e : Int) {bm : Nat} (hb : 0 < bm) (be : Int) {K L : Nat} (h : e - be = (K : Int) - L) :
    RoundsTo 0 (divInt n m e bm be).1 (sgn n * (m * 2 ^ K : Nat)) (bm * 2 ^ L) ∧
      (divInt n m e bm be).2 = decide ((divInt n m e bm be).1 * (bm * 2 ^ L : Nat) ≠ sgn n * (m * 2 ^ K : Nat)) := by
  -- numerator and denominator in a common unit
  obtain ⟨num, den, c, hc, hd, e1, e2, e3⟩ : ∃ num den c : Nat, 0 < c ∧ 0 < den ∧ num * c = m * 2 ^ K ∧ den * c = bm * 2 ^ L ∧
      divInt n m e bm be = (if n then -((if 2 * (num % den) > den ∨ (2 * (num % den) = den ∧ num / den % 2 = 1) then num / den + 1 else num / den : Nat) : Int)
        else ((if 2 * (num % den) > den ∨ (2 * (num % den) = den ∧ num / den % 2 = 1) then num / den + 1 else num / den : Nat) : Int), decide (num % den ≠ 0)) := by
    by_cases c : 0 ≤ e - be
    · refine ⟨m * 2 ^ (e - be).toNat, bm, 2 ^ L, by positivity, hb, ?_, rfl, ?_⟩
      · rw [mul_assoc, ← pow_add]; congr 2; omega
      · unfold divInt; dsimp only; rw [if_pos c, if_pos c]
    · refine ⟨m, bm * 2 ^ (-(e - be)).toNat, 2 ^ K, by positivity, by positivity, rfl, ?_, ?_⟩
      · rw [mul_assoc, ← pow_add]; congr 2; omega
      · unfold divInt; dsimp only; rw [if_neg c, if_neg c]
  rw [e3, ← e1, ← e2]
  have hq := Nat.div_add_mod num den
  have hr := Nat.mod_lt num hd
  generalize num / den = q at hq ⊢
  generalize num % den = r at hq hr ⊢
  have hnum : num = q * den + r := by rw [← hq, Nat.mul_comm]
  have base : RoundsTo 0 (sgn n * ((if 2 * r > den ∨ (2 * r = den ∧ q % 2 = 1) then q + 1 else q : Nat) : Int)) (sgn n * (num : Nat)) den := by
    by_cases r0 : r = 0
    · have : ¬(2 * r > den ∨ (2 * r = den ∧ q % 2 = 1)) := by omega
      rw [if_neg this, hnum, r0, Nat.add_zero, Nat.cast_mul, ← mul_assoc]
      exact roundsTo_exact _ _ _ hd
    · have := @roundsTo_up 0 n (decide (2 * r > den) || (decide (2 * r = den) && decide (q % 2 = 1))) q r den (by omega) hr (fun _ => rfl) (by simp) (by simp) (by simp)
      rw [← hnum] at this
      convert this using 4
      simp
  have e4 : (if n then -((if 2 * r > den ∨ (2 * r = den ∧ q % 2 = 1) then q + 1 else q : Nat) : Int) else ((if 2 * r > den ∨ (2 * r = den ∧ q % 2 = 1) then q + 1 else q : Nat) : Int)) =
      sgn n * ((if 2 * r > den ∨ (2 * r = den ∧ q % 2 = 1) then q + 1 else q : Nat) : Int) := by
    generalize (if 2 * r > den ∨ (2 * r = den ∧ q % 2 = 1) then q + 1 else q : Nat) = w
    cases n <;> simp [sgn]
  rw [e4]
  refine ⟨?_, ?_⟩
  · have := roundsTo_scale c hc base
    rwa [mul_assoc, ← Nat.cast_mul] at this
  · dsimp only
    have sn : sgn n ≠ 0 := by rcases sgn_cases n with ⟨-, h⟩ | ⟨-, h⟩ <;> rw [h] <;> decide
    rw [Bool.eq_iff_iff, decide_eq_true_iff, decide_eq_true_iff, mul_assoc, ← Nat.cast_mul, Ne, Ne, mul_right_inj' sn, Nat.cast_inj, ← mul_assoc, Nat.mul_left_inj (by omega), hnum]
    by_cases up : 2 * r > den ∨ (2 * r = den ∧ q % 2 = 1)
    · rw [if_pos up, Nat.add_mul]; omega
    · rw [if_neg up]; omega
theorem roundsTo_nearest_iff {v x : Int} {d : Nat} : RoundsTo 0 v x d ↔ (2 * (v * d - x).natAbs ≤ d ∧ (2 * (v * d - x).natAbs = d → v % 2 = 0)) :=
  ⟨fun h => h.1 rfl, fun h => ⟨fun _ => h, by simp, by simp, by simp⟩⟩
/-- Rounding to nearest has one result. -/
theorem roundsTo_nearest_unique {v w x : Int} {d : Nat} (hd : 0 < d) (hv : RoundsTo 0 v x d) (hw : RoundsTo 0 w x d) : v = w := by
  rw [roundsTo_nearest_iff] at hv hw
  obtain ⟨h1, h2⟩ := hv
  obtain ⟨h3, h4⟩ := hw
  rcases lt_trichotomy v w with c | c | c
  · have : (v + 1) * d ≤ w * d := mul_le_mul_of_nonneg_right (by omega) (by omega)
    rw [add_mul, one_mul] at this
    have e : w * d = v * d + d := by omega
    have : w = v + 1 := by
      have : (w - (v + 1)) * (d : Int) = 0 := by rw [sub_mul, add_mul, one_mul]; omega
      rcases mul_eq_zero.1 this with h | h <;> omega
    have := h2 (by omega); have := h4 (by omega); omega
  · exact c
  · have : (w + 1) * d ≤ v * d := mul_le_mul_of_nonneg_right (by omega) (by omega)
    rw [add_mul, one_mul] at this
    have e : v * d = w * d + d := by omega
    have : v = w + 1 := by
      have : (v - (w + 1)) * (d : Int) = 0 := by rw [sub_mul, add_mul, one_mul]; omega
      rcases mul_eq_zero.1 this with h | h <;> omega
    have := h2 (by omega); have := h4 (by omega); omega
theorem roundsTo_nearest_unscale {v x : Int} {d c : Nat} (hc : 0 < c) (h : RoundsTo 0 v (x * c) (d * c)) : RoundsTo 0 v x d := by
  rw [roundsTo_nearest_iff] at h ⊢
  have e : v * ((d * c : Nat) : Int) - x * c = (v * d - x) * c := by push_cast; ring
  rw [e, Int.natAbs_mul, Int.natAbs_natCast, ← mul_assoc] at h
  exact ⟨Nat.le_of_mul_le_mul_right h.1 hc, fun k => h.2 (by rw [k])⟩
/-- A rounding of one fraction is the rounding of the same fraction in lower or higher terms. -/
theorem roundsTo_nearest_rescale {v : Int} {m b i j k l : Nat} (h : RoundsTo 0 v (m * 2 ^ i : Nat) (b * 2 ^ j)) (e : i + l = j + k) : RoundsTo 0 v (m * 2 ^ k : Nat) (b * 2 ^ l) := by
  rcases Nat.le_total i k with c | c
  · have := roundsTo_scale (2 ^ (k - i)) (Nat.two_pow_pos _) h
    rw [← Nat.cast_mul, mul_assoc, ← pow_add, mul_assoc, ← pow_add] at this
    rwa [show k = i + (k - i) by omega, show l = j + (k - i) by omega]
  · refine roundsTo_nearest_unscale (c := 2 ^ (i - k)) (Nat.two_pow_pos _) ?_
    rw [← Nat.cast_mul, mul_assoc, ← pow_add, mul_assoc, ← pow_add]
    rwa [show k + (i - k) = i by omega, show l + (i - k) = j by omega]
/-- The integer part of a fraction, times a power of two, keeps its leading bit. -/
theorem log2_fraction {m b i k l : Nat} (hb : 0 < b) (hx : 1 ≤ m * 2 ^ i / b) :
    Nat.log2 (m * 2 ^ k / (b * 2 ^ l)) = Nat.log2 (m * 2 ^ i / b) + k - (i + l) := by
  have h1 := Nat.log2_self_le (n := m * 2 ^ i / b) (by omega)
  have h2 := Nat.lt_log2_self (n := m * 2 ^ i / b)
  generalize Nat.log2 (m * 2 ^ i / b) = L at h1 h2 ⊢
  rw [Nat.le_div_iff_mul_le hb] at h1
  rw [Nat.div_lt_iff_lt_mul hb] at h2
  by_cases c : i + l ≤ L + k
  · have hlo : 2 ^ (L + k - (i + l)) ≤ m * 2 ^ k / (b * 2 ^ l) := by
      rw [Nat.le_div_iff_mul_le (by positivity)]
      refine Nat.le_of_mul_le_mul_right (c := 2 ^ i) ?_ (Nat.two_pow_pos _)
      calc 2 ^ (L + k - (i + l)) * (b * 2 ^ l) * 2 ^ i = 2 ^ L * b * 2 ^ k := by
            have : 2 ^ (L + k - (i + l)) * 2 ^ l * 2 ^ i = 2 ^ L * 2 ^ k := by rw [← pow_add, ← pow_add, ← pow_add]; congr 1; omega
            calc 2 ^ (L + k - (i + l)) * (b * 2 ^ l) * 2 ^ i = b * (2 ^ (L + k - (i + l)) * 2 ^ l * 2 ^ i) := by ring
              _ = _ := by rw [this]; ring
        _ ≤ m * 2 ^ i * 2 ^ k := Nat.mul_le_mul_right _ h1
        _ = _ := by ring
    have hhi : m * 2 ^ k / (b * 2 ^ l) < 2 ^ (L + k - (i + l) + 1) := by
      rw [Nat.div_lt_iff_lt_mul (by positivity)]
      refine Nat.lt_of_mul_lt_mul_right (a := 2 ^ i) ?_
      calc m * 2 ^ k * 2 ^ i = m * 2 ^ i * 2 ^ k := by ring
        _ < 2 ^ (L + 1) * b * 2 ^ k := Nat.mul_lt_mul_of_pos_right h2 (Nat.two_pow_pos _)
        _ = _ := by
            have : 2 ^ (L + k - (i + l) + 1) * 2 ^ l * 2 ^ i = 2 ^ (L + 1) * 2 ^ k := by rw [← pow_add, ← pow_add, ← pow_add]; congr 1; omega
            calc 2 ^ (L + 1) * b * 2 ^ k = b * (2 ^ (L + 1) * 2 ^ k) := by ring
              _ = _ := by rw [← this]; ring
    have hn : m * 2 ^ k / (b * 2 ^ l) ≠ 0 := by have := Nat.two_pow_pos (L + k - (i + l)); omega
    exact le_antisymm (Nat.lt_succ_iff.1 ((Nat.log2_lt hn).2 hhi)) ((Nat.le_log2 hn).2 hlo)
  · have hz : m * 2 ^ k / (b * 2 ^ l) = 0 := by
      rw [Nat.div_eq_zero_iff]
      right
      refine Nat.lt_of_mul_lt_mul_right (a := 2 ^ i) ?_
      calc m * 2 ^ k * 2 ^ i = m * 2 ^ i * 2 ^ k := by ring
        _ < 2 ^ (L + 1) * b * 2 ^ k := Nat.mul_lt_mul_of_pos_right h2 (Nat.two_pow_pos _)
        _ = b * 2 ^ (L + 1 + k) := by rw [pow_add 2 (L + 1) k]; ring
        _ ≤ b * 2 ^ (l + i) := Nat.mul_le_mul_left _ (Nat.pow_le_pow_right (by norm_num) (by omega))
        _ = _ := by rw [pow_add]; ring
    rw [hz]
    simp
    omega
/-- A fraction whose quotient has bits to spare, rounded to E4M3. -/
theorem e4m3_fraction {am D ex ka kt qm L : Nat} {e : Int} (he : e = (ka : Int) - kt - ex - 1) (hD : 0 < D) (hX : 2 ^ 16 ≤ am * 2 ^ ex / D) (hL : L = Nat.log2 (am * 2 ^ ex / D))
    (hqm : qm = 2 * (am * 2 ^ ex / D) + if am * 2 ^ ex % D = 0 then 0 else 1) {sb q : Nat} (hsb : sb = (toE4M3 0 (.fin false qm e)).1)
    (hq : q = Nat.log2 (am * 2 ^ (ka + 9) / (D * 2 ^ kt)) - 3) :
    sb < 127 ∧ ∃ v sm : Nat, ∃ se : Int, unpackE4M3 sb = .fin false sm se ∧ 0 ≤ se + 9 ∧ RoundsTo 0 v (am * 2 ^ (ka + 9) : Nat) (D * 2 ^ (kt + q)) ∧
      sm * 2 ^ (se + 9).toNat = Nat.min (v * 2 ^ q) (14 * 2 ^ 14) := by
  have h16 : (1 : Nat) ≤ 2 ^ 16 := Nat.two_pow_pos 16
  have hL16 : 16 ≤ L := by rw [hL]; exact (Nat.le_log2 (by omega)).2 hX
  have hst : (if am * 2 ^ ex % D = 0 then 0 else 1 : Nat) ≤ 1 := by split <;> omega
  have hm0 : qm ≠ 0 := by omega
  have hlog : Nat.log2 qm = L + 1 := by
    have h1 := Nat.log2_self_le (n := am * 2 ^ ex / D) (by omega)
    have h2 := Nat.lt_log2_self (n := am * 2 ^ ex / D)
    rw [← hL] at h1 h2
    rw [pow_succ] at h2
    refine le_antisymm (Nat.lt_succ_iff.1 ((Nat.log2_lt hm0).2 ?_)) ((Nat.le_log2 hm0).2 ?_)
    · rw [hqm, Nat.succ_eq_add_one, pow_succ, pow_succ]; omega
    · rw [hqm, pow_succ]; omega
  have hq' : q = L + (ka + 9) - (ex + kt) - 3 := by rw [hq, log2_fraction (i := ex) hD (by omega), ← hL]
  obtain ⟨B, hB⟩ : ∃ B, B = (-e).toNat := ⟨_, rfl⟩
  have hg : Fmt.unitExp { p := 2, ew := 1, bias := B } = B := by unfold Fmt.unitExp; simp
  obtain ⟨-, -, hc⟩ := @toE4M3_cvtE4M3Is { p := 2, ew := 1, bias := B } 0 (by norm_num) (.fin false qm e) (fun n m e' h => by
    injection h with _ _ he'
    rw [hg, ← he']; omega)
  obtain ⟨-, hc⟩ := hc rfl
  rw [← hsb] at hc
  obtain ⟨ix, ty, lg, ⟨v, u, rv, -, -, -, hl, hx⟩, -, ho⟩ := hc (by rw [Ne, units_eq_zero]; exact hm0)
  have one : sgn false = 1 := rfl
  have h9 : e4m3.unitExp = 9 := rfl
  have h3 : e4m3.p - 1 = 3 := rfl
  rw [sgn_mul_units, hg, one, one_mul, h9] at rv hl hx
  rw [h3] at rv hl hx
  rw [Int.natAbs_natCast, log2_mul_pow hm0, hlog] at rv hl hx
  have hq2 : L + 1 + ((e + B).toNat + 9) - B - 3 = q := by omega
  rw [hq2] at rv hl hx
  obtain ⟨sh, hsh⟩ : ∃ sh : Nat, sh = ((q : Int) - 9 - e).toNat := ⟨_, rfl⟩
  have r1 := (roundShift_roundsTo 0 (by norm_num) false qm sh).1
  rw [one, one_mul, one_mul] at r1
  have r2 := roundsTo_nearest_rescale (b := 1) (i := 0) (j := sh) (k := (e + B).toNat + 9) (l := q + B) (m := qm) (by simpa using r1) (by omega)
  rw [one_mul] at r2
  have hv := roundsTo_nearest_unique (Nat.two_pow_pos _) rv r2
  have r3 := roundShift_sticky (am * 2 ^ ex) D sh hD (by omega)
  rw [← hqm] at r3
  have r4 := roundsTo_nearest_rescale (k := ka + 9) (l := kt + q) r3 (by omega)
  generalize (roundShift 0 false qm sh).1 = w at hv r4
  subst hv
  rw [Int.natAbs_natCast] at hl
  cases hlg : lg
  · obtain ⟨lt, ⟨sm, se, hxx⟩, hun⟩ := hx hlg
    have hneg : decide (((qm * 2 ^ ((e + B).toNat + 9) : Nat) : Int) < 0) = false := by simp
    rw [hneg] at hxx
    have hu : unpackE4M3 sb = unpackSmall e4m3 sb ∧ sb % 128 ≠ 127 := by
      unfold unpackE4M3 at hxx ⊢
      split at hxx
      · cases hxx
      · rename_i h; exact ⟨if_neg h, h⟩
    have hse : 0 ≤ se + 9 := e4m3_ok.small sb _ _ _ (hu.1 ▸ hxx)
    have hlow : sb < 127 := by
      have hs := (unpackSmall_units e4m3_ok sb).2.1
      rw [← hu.1, hxx] at hs
      have h256 : sb < 256 := lt
      have h7 : sb.testBit 7 = false := hs.symm
      rw [Nat.testBit_eq_decide_div_mod_eq] at h7
      have := of_decide_eq_false h7
      have := hu.2
      omega
    refine ⟨hlow, w, sm, se, hxx, hse, r4, ?_⟩
    rw [hxx, units_fin, h9, one, one_mul, ← Nat.cast_mul, Nat.cast_inj] at hun
    rw [hlg] at hl
    have := of_decide_eq_false hl.symm
    rw [← hun] at this ⊢
    exact (min_eq_left (not_lt.1 this)).symm
  · have hs := ho hlg
    have hsb' : sb = 126 := by rw [hsb, hs]; rfl
    rw [hlg] at hl
    have := of_decide_eq_true hl.symm
    exact ⟨by omega, w, 14, 5, by rw [hsb']; decide, by norm_num, r4, (min_eq_right this.le).symm⟩
/-- The scale of an SCINT4 block. -/
theorem scint4_scale {am tm : Nat} (ht : 0 < tm) {ae te : Int} {ka kt : Nat} (hka : ae + 149 = ka) (hkt : te + 149 = kt) {sb q : Nat}
    (hsb : sb = (toE4M3 0 (.fin false (divBits am (7 * tm) (nbitsOf (7 * tm) + 16)).1 (ae - te + (divBits am (7 * tm) (nbitsOf (7 * tm) + 16)).2))).1)
    (hq : q = Nat.log2 (am * 2 ^ ka * 512 / (7 * (tm * 2 ^ kt))) - 3) :
    sb < 127 ∧ ∃ v sm : Nat, ∃ se : Int, unpackE4M3 sb = .fin false sm se ∧ 0 ≤ se + 9 ∧ RoundsTo 0 v (am * 2 ^ ka * 512 : Nat) (7 * (tm * 2 ^ kt) * 2 ^ q) ∧
      sm * 2 ^ (se + 9).toNat = Nat.min (v * 2 ^ q) (14 * 2 ^ 14) := by
  by_cases a0 : am = 0
  · subst a0
    have hd : (divBits 0 (7 * tm) (nbitsOf (7 * tm) + 16)).1 = 0 := by unfold divBits; simp
    rw [hd] at hsb
    have hsb' : sb = 0 := hsb
    subst hsb'
    refine ⟨by norm_num, 0, 0, -9, rfl, by norm_num, ?_, by simp⟩
    exact roundsTo_nearest_iff.2 (by simp)
  · have hD : 0 < 7 * tm := by omega
    have e1 : am * 2 ^ ka * 512 = am * 2 ^ (ka + 9) := by rw [pow_add]; ring
    have e2 : 7 * (tm * 2 ^ kt) = 7 * tm * 2 ^ kt := by ring
    have hex : 2 ^ 16 ≤ am * 2 ^ (nbitsOf (7 * tm) + 16) / (7 * tm) := by
      rw [Nat.le_div_iff_mul_le hD, nbitsOf_eq (by omega)]
      calc 2 ^ 16 * (7 * tm) ≤ 2 ^ 16 * 2 ^ (Nat.log2 (7 * tm) + 1) := Nat.mul_le_mul_left _ Nat.lt_log2_self.le
        _ = 2 ^ (Nat.log2 (7 * tm) + 1 + 16) := by rw [← pow_add]; congr 1; omega
        _ ≤ _ := Nat.le_mul_of_pos_left _ (by omega)
    rw [e1, e2] at hq ⊢
    rw [mul_assoc (7 * tm), ← pow_add]
    have h1 : (divBits am (7 * tm) (nbitsOf (7 * tm) + 16)).1 = 2 * (am * 2 ^ (nbitsOf (7 * tm) + 16) / (7 * tm)) + if am * 2 ^ (nbitsOf (7 * tm) + 16) % (7 * tm) = 0 then 0 else 1 := rfl
    have h2 : (divBits am (7 * tm) (nbitsOf (7 * tm) + 16)).2 = -((nbitsOf (7 * tm) + 16 : Nat) : Int) - 1 := rfl
    exact e4m3_fraction (ex := nbitsOf (7 * tm) + 16) (by rw [h2]; omega) hD hex rfl h1 hsb hq
theorem range_map_getD {xs : List Nat} (h : xs.length = 16) : xs = (List.range 16).map fun i => xs.getD i 0 := by
  apply List.ext_getElem?
  intro i
  rw [List.getElem?_map]
  by_cases c : i < 16
  · rw [List.getElem?_range c, List.getElem?_eq_getElem (by omega)]
    simp [List.getD_eq_getElem?_getD, List.getElem?_eq_getElem (show i < xs.length by omega)]
  · rw [List.getElem?_eq_none (by omega), List.getElem?_eq_none (by simp; omega)]; rfl
theorem foldl_max_eq (g : Nat → Nat) (l : List Nat) (a : Nat) : l.foldl (fun m i => Nat.max m (g i)) a = Nat.max a ((l.map g).foldr Nat.max 0) := by
  induction l generalizing a with
  | nil => simp
  | cons x r ih => rw [List.foldl_cons, ih, List.map_cons, List.foldr_cons]; exact max_assoc _ _ _
theorem any_map_range {α : Type} (g : Nat → α) (p : α → Bool) (n : Nat) : ((List.range n).map g).any p = (List.range n).any fun i => p (g i) := by
  rw [List.any_map]; rfl
/-- The fold over a block, as QUANT finds it. -/
theorem block_max {e0 : Nat → Nat} (h : ∀ i, i < 16 → (unpack f32 (e0 i)).isFin = true) :
    ∃ am ae, ∃ ka : Nat, maxAbs ((List.range 16).map fun i => unpack f32 (e0 i)) = (am, ae) ∧ ae + 149 = ka ∧
      (List.range 16).foldl (fun m i => Nat.max m (f32.units (unpack f32 (e0 i))).natAbs) 0 = am * 2 ^ ka := by
  obtain ⟨h1, h2⟩ := maxAbs_units f32 ((List.range 16).map fun i => unpack f32 (e0 i)) (by
    intro a ha
    obtain ⟨i, hi, rfl⟩ := List.mem_map.1 ha
    exact ⟨h i (List.mem_range.1 hi), f32_ieee.toOk.holds _⟩)
  have u149 : f32.unitExp = 149 := rfl
  rw [u149] at h1 h2
  refine ⟨_, _, _, rfl, (Int.toNat_of_nonneg h2).symm, ?_⟩
  rw [foldl_max_eq, h1, List.foldr_map, List.foldr_map]
  exact max_eq_right (Nat.zero_le _)
theorem block_scale {am : Nat} (h0 : am ≠ 0) {ae : Int} {ka : Nat} (hka : ae + 149 = ka) (emax : Nat) :
    (clampInt 0 254 (flog2 am ae - emax + 127)).toNat = Nat.min 254 (Nat.log2 (am * 2 ^ ka) - (22 + emax)) := by
  have : flog2 am ae = Nat.log2 am + ae := by unfold flog2; rw [nbitsOf_eq h0]; push_cast; omega
  rw [this, log2_mul_pow h0]
  show _ = min _ _
  unfold clampInt
  split <;> [skip; split] <;> omega
/-- An element of the block that the operation gives. -/
def numOp {α : Type} (none : α) (op : Bool → Nat → Int → α × Bool × Bool) : FV → α × Bool × Bool
  | .fin n m e => op n m e
  | _ => (none, false, false)
theorem overBlock_range {α : Type} (none : α) (op : Bool → Nat → Int → α × Bool × Bool) (g : Nat → FV) :
    overBlock none op ((List.range 16).map g) = (List.range 16).map fun i => numOp none op (g i) := by
  unfold overBlock
  rw [List.map_map]
  refine List.map_congr_left fun i _ => ?_
  show _ = numOp none op (g i)
  unfold numOp Function.comp
  cases g i <;> rfl
theorem blockFlags_range {α : Type} (q : Nat → α × Bool × Bool) {inexact clamped : Nat → Bool} (h1 : ∀ i, i < 16 → ((q i).2.1 || (q i).2.2) = (inexact i || clamped i))
    (h2 : ∀ i, i < 16 → (q i).2.2 = clamped i) (h3 : ∀ i, i < 16 → (q i).2.2 = true → (q i).2.1 = true) :
    blockFlags ((List.range 16).map q) = quantFlags inexact clamped := by
  have e1 : (List.range 16).any (fun i => (q i).2.1) = (List.range 16).any fun i => inexact i || clamped i := by
    rw [Bool.eq_iff_iff, List.any_eq_true, List.any_eq_true]
    refine exists_congr fun i => and_congr_right fun hi => ?_
    have hi := List.mem_range.1 hi
    rw [← h1 i hi]
    have := h3 i hi
    cases h : (q i).2.2
    · rw [Bool.or_false]
    · rw [this h, Bool.or_true]
  have e2 : (List.range 16).any (fun i => (q i).2.2) = (List.range 16).any clamped := by
    rw [Bool.eq_iff_iff, List.any_eq_true, List.any_eq_true]
    refine exists_congr fun i => and_congr_right fun hi => ?_
    rw [h2 i (List.mem_range.1 hi)]
  unfold blockFlags quantFlags
  rw [List.any_map, List.any_map]
  show (if (List.range 16).any (fun i => (q i).2.1) = true then flNX else 0) + (if (List.range 16).any (fun i => (q i).2.2) = true then flSAT else 0) = _
  rw [e1, e2]
/-- Integer elements from a rounding that answers what RoundsTo asks of it. -/
theorem quantInts_spec {w : Nat} {hi : Int} (hh : 0 ≤ hi) {op : Bool → Nat → Int → Int × Bool} {D : Nat} {scale : Int} {g : Nat → FV} (hf : ∀ i, i < 16 → (g i).isFin = true ∧ f32.Holds (g i))
    (hop : ∀ n m (e : Int), 0 ≤ e + f32.unitExp → RoundsTo 0 (op n m e).1 (f32.units (.fin n m e) * scale) D ∧ (op n m e).2 = decide ((op n m e).1 * D ≠ f32.units (.fin n m e) * scale)) :
    QuantInts w hi D scale (fun i => f32.units (g i)) (quantInts w hi op ((List.range 16).map g)).1 (quantInts w hi op ((List.range 16).map g)).2 := by
  have num : ∀ i, i < 16 → ∃ n m e, g i = .fin n m e ∧ 0 ≤ e + f32.unitExp := fun i hi => by
    obtain ⟨h1, h2⟩ := hf i hi
    cases hg : g i with
    | nan => rw [hg] at h1; cases h1
    | inf => rw [hg] at h1; cases h1
    | fin n m e => exact ⟨n, m, e, rfl, h2 _ _ _ hg⟩
  refine ⟨fun i => (op (g i).sign (g i).signif (g i).expo).1, fun i hi => ?_, ?_, ?_⟩
  · obtain ⟨n, m, e, hg, he⟩ := num i hi
    dsimp only
    rw [hg]
    exact (hop n m e he).1
  · unfold quantInts
    dsimp only
    rw [overBlock_range, List.map_map]
    refine List.map_congr_left fun i hi => ?_
    obtain ⟨n, m, e, hg, he⟩ := num i (List.mem_range.1 hi)
    show wrapN w (numOp _ _ (g i)).1 = _
    rw [hg]
    show wrapN w (clampInt _ _ _) = _
    rw [clampInt_eq hh]
    rfl
  · unfold quantInts
    dsimp only
    rw [overBlock_range]
    refine blockFlags_range _ (fun i hi => ?_) (fun i hi => ?_) (fun i hi => ?_) <;> obtain ⟨n, m, e, hg, he⟩ := num i hi <;> simp only [hg, numOp, clampElem, FV.sign, FV.signif, FV.expo, clamped_iff]
    · rw [(hop n m e he).2, Bool.or_assoc, Bool.or_self]
    · intro h; rw [h, Bool.or_true]
/-- Elements of a small format. -/
theorem quantFloats_spec {f : Fmt} (ok : f.Ok) {M top : Nat} {Q : Int} (hQ : 0 ≤ Q + f.unitExp) (hM : 2 ^ (f.p - 1) ≤ M) (hM' : M < 2 ^ f.p) (hw : (Q + f.unitExp).toNat + 1 < 2 ^ f.ew)
    (htop : ∀ n, packFin f n M Q = zeroOf f n + top) {mx : Nat} (hmx : mx = M * 2 ^ (Q + f.unitExp).toNat) {g : Nat → FV} (hf : ∀ i, i < 16 → (g i).isFin = true ∧ f32.Holds (g i)) (X : Nat) :
    QuantFloats f mx top X (fun i => (g i).sign) (fun i => f32.units (g i)) (quantFloats f M Q (127 - (X : Int)) ((List.range 16).map g)).1 (quantFloats f M Q (127 - (X : Int)) ((List.range 16).map g)).2 := by
  subst hmx
  have num : ∀ i, i < 16 → ∃ n m e, g i = .fin n m e ∧ 0 ≤ e + f32.unitExp := fun i hi => by
    obtain ⟨h1, h2⟩ := hf i hi
    cases hg : g i with
    | nan => rw [hg] at h1; cases h1
    | inf => rw [hg] at h1; cases h1
    | fin n m e => exact ⟨n, m, e, rfl, h2 _ _ _ hg⟩
  -- what each element gives
  let q : Nat → Nat × Bool × Bool := fun i => numOp 0 (fun n m e => toSmall f M Q n m (e + (127 - (X : Int)))) (g i)
  have hel : ∀ i, i < 16 → ∃ ix : Bool, (f32.units (g i) = 0 → (q i).1 = zeroOf f (g i).sign ∧ ix = false ∧ (q i).2.2 = false) ∧
      (f32.units (g i) ≠ 0 → (∃ tiny, RoundsAt f (unpackSmall f) (M * 2 ^ (Q + f.unitExp).toNat) 0 (f32.units (g i) * (2 ^ f.unitExp : Nat)) (22 + X) (q i).1 ix tiny (q i).2.2) ∧
        ((q i).2.2 = true → (q i).1 = zeroOf f (g i).sign + top)) ∧ ((q i).2.1 || (q i).2.2) = (ix || (q i).2.2) ∧ ((q i).2.2 = true → (q i).2.1 = true) := by
    intro i hi
    obtain ⟨n, m, e, hg, he⟩ := num i hi
    obtain ⟨h1, h2⟩ := toSmall_elem ok hQ hM hM' hw (n := n) (m := m) he X
    show ∃ ix : Bool, _ ∧ _ ∧ _
    simp only [q]
    rw [hg]
    dsimp only [numOp, FV.sign]
    have h3 : (toSmall f M Q n m (e + (127 - (X : Int)))).2.2 = true → (toSmall f M Q n m (e + (127 - (X : Int)))).2.1 = true := by
      unfold toSmall
      split
      · intro h; cases h
      · dsimp only; split
        · intro _; rfl
        · intro h; cases h
    by_cases z : f32.units (.fin n m e) = 0
    · rw [h1 z]
      exact ⟨false, fun _ => ⟨rfl, rfl, rfl⟩, fun h => absurd z h, rfl, fun h => by cases h⟩
    · obtain ⟨ix, ty, hr, ho, ht⟩ := h2 z
      exact ⟨ix, fun h => absurd h z, fun _ => ⟨⟨ty, hr⟩, fun h => (ht h).trans (htop n)⟩, ho.symm, h3⟩
  choose! ix hix using hel
  refine ⟨ix, fun i => (q i).2.2, ?_, ?_, fun i hi => ?_⟩
  · unfold quantFloats
    dsimp only
    rw [overBlock_range]
    exact blockFlags_range q (fun i hi => (hix i hi).2.2.1) (fun _ _ => rfl) (fun i hi => (hix i hi).2.2.2)
  · unfold quantFloats
    dsimp only
    rw [overBlock_range]
    simp
  · have hget : (quantFloats f M Q (127 - (X : Int)) ((List.range 16).map g)).1.getD i 0 = (q i).1 := by
      unfold quantFloats
      dsimp only
      rw [overBlock_range, List.map_map, List.getD_eq_getElem?_getD, List.getElem?_map, List.getElem?_range hi]
      rfl
    rw [hget]
    obtain ⟨a, b, -, -⟩ := hix i hi
    exact ⟨a, b⟩
theorem e2m1_ok : e2m1.Ok := by constructor <;> decide
theorem e3m2_ok : e3m2.Ok := by constructor <;> decide
/-- Numbers of a block. -/
theorem block_nums {e0 : Nat → Nat} (h : ((List.range 16).all fun i => (unpack f32 (e0 i)).isFin) = true) :
    ∀ i, i < 16 → (unpack f32 (e0 i)).isFin = true ∧ f32.Holds (unpack f32 (e0 i)) :=
  fun i hi => ⟨List.all_eq_true.1 h i (List.mem_range.2 hi), f32_ieee.toOk.holds _⟩
/-- A tensor scale of SCINT4 that is positive and finite. -/
theorem tsOk_iff (t : FV) (ht : f32.Holds t) : (t.isFin && !t.sign && t.signif != 0) = (t.isFin && decide (0 < (f32.units t).toNat)) := by
  cases t with
  | nan => rfl
  | inf => rfl
  | fin n m e =>
    have p := Nat.two_pow_pos (e + f32.unitExp).toNat
    rw [units_fin]
    cases n
    · by_cases z : m = 0
      · subst z; simp [FV.isFin, FV.sign, FV.signif, sgn]
      · have : 0 < m * 2 ^ (e + f32.unitExp).toNat := Nat.mul_pos (by omega) p
        have e1 : (sgn false * ((m * 2 ^ (e + f32.unitExp).toNat : Nat) : Int)).toNat = m * 2 ^ (e + f32.unitExp).toNat := by rw [show sgn false = 1 from rfl, one_mul]; exact Int.toNat_natCast _
        rw [e1, decide_eq_true this]
        simp [FV.isFin, FV.sign, FV.signif, z]
    · have e1 : (sgn true * ((m * 2 ^ (e + f32.unitExp).toNat : Nat) : Int)).toNat = 0 := by rw [show sgn true = -1 from rfl]; omega
      rw [e1]
      simp [FV.isFin, FV.sign]
theorem not_all_fin (g : Nat → FV) : (List.range 16).any (fun i => !(g i).isFin) = !((List.range 16).all fun i => (g i).isFin) := by
  rw [List.all_eq_not_any_not, Bool.not_not]
/-- An SCINT4 block of numbers. -/
theorem quantScint_spec {tm : Nat} (ht : 0 < tm) {te : Int} {kt : Nat} (hkt : te + 149 = kt) {am ka : Nat} {ae : Int} (hka : ae + 149 = ka) {g : Nat → FV}
    (hf : ∀ i, i < 16 → (g i).isFin = true ∧ f32.Holds (g i)) :
    let r := quantScint tm te am ae ((List.range 16).map g)
    let A := am * 2 ^ ka
    let t := tm * 2 ^ kt
    let u := (e4m3.units (unpackE4M3 r.1)).toNat
    let q := Nat.log2 (A * 512 / (7 * t)) - 3
    r.1 < 127 ∧ (∃ v : Nat, RoundsTo 0 v (A * 512 : Nat) (7 * t * 2 ^ q) ∧ u = Nat.min (v * 2 ^ q) (14 * 2 ^ 14)) ∧
      (u = 0 → r.2 = (List.replicate 16 0, if A = 0 then 0 else flNX)) ∧ (u ≠ 0 → QuantInts 4 7 (u * t) 512 (fun i => f32.units (g i)) r.2.1 r.2.2) := by
  intro r A t u q
  obtain ⟨sb, hsb⟩ : ∃ sb, sb = (toE4M3 0 (.fin false (divBits am (7 * tm) (nbitsOf (7 * tm) + 16)).1 (ae - te + (divBits am (7 * tm) (nbitsOf (7 * tm) + 16)).2))).1 := ⟨_, rfl⟩
  obtain ⟨lt, v, sm, se, hun, hse, hv, hu⟩ := scint4_scale ht hka hkt hsb rfl
  have hr : r = if sm = 0 then (sb, List.replicate 16 0, if am = 0 then 0 else flNX)
      else (sb, quantInts 4 7 (fun n m e => divInt n m e (sm * tm) (se + te)) ((List.range 16).map g)) := by
    show quantScint tm te am ae ((List.range 16).map g) = _
    unfold quantScint
    dsimp only
    rw [← hsb, hun]
    dsimp only
    rw [List.map_map, show ((fun _ => 0) ∘ g : Nat → Nat) = fun _ => 0 from rfl, List.map_const', List.length_range]
  have h1 : r.1 = sb := by rw [hr]; split <;> rfl
  have h9 : e4m3.unitExp = 9 := rfl
  have huu : u = sm * 2 ^ (se + 9).toNat := by
    show (e4m3.units (unpackE4M3 r.1)).toNat = _
    rw [h1, hun, units_fin, h9, show sgn false = 1 from rfl, one_mul]; exact Int.toNat_natCast _
  have hA : A = 0 ↔ am = 0 := by show am * 2 ^ ka = 0 ↔ _; have := Nat.two_pow_pos ka; simp
  have hu0 : u = 0 ↔ sm = 0 := by rw [huu]; have := Nat.two_pow_pos (se + 9).toNat; simp
  refine ⟨by rw [h1]; exact lt, ⟨v, hv, huu.trans hu⟩, fun z => ?_, fun z => ?_⟩
  · rw [hr, if_pos (hu0.1 z)]
    simp only [hA]
  · have s0 : sm ≠ 0 := fun h => z (hu0.2 h)
    rw [hr, if_neg s0]
    dsimp only
    refine quantInts_spec (by norm_num) hf fun n m e he => ?_
    have u149 : f32.unitExp = 149 := rfl
    rw [u149] at he
    have hd := divInt_roundsTo n m e (Nat.mul_pos (Nat.pos_of_ne_zero s0) ht) (se + te) (K := (e + 149).toNat + 9) (L := (se + 9).toNat + kt) (by push_cast; omega)
    have e1 : sm * tm * 2 ^ ((se + 9).toNat + kt) = u * t := by rw [huu, pow_add]; show _ = sm * 2 ^ (se + 9).toNat * (tm * 2 ^ kt); ring
    have e2 : sgn n * ((m * 2 ^ ((e + 149).toNat + 9) : Nat) : Int) = f32.units (.fin n m e) * 512 := by rw [units_fin, u149, pow_add]; push_cast; ring
    rw [e1, e2] at hd
    exact hd
/-- QUANT as the model computes it is QUANT as R57 and R174 say it. -/
theorem quant_quantised {c : Nat} (hc : c ≤ 3 ∨ c = 6 ∨ c = 7 ∨ c = 8) (ts : Nat) {xs : List Nat} (hl : xs.length = 16) : Quantised c ts xs (quant xs c ts) := by
  obtain ⟨e0, he⟩ : ∃ e0 : Nat → Nat, ∀ i, xs.getD i 0 = e0 i := ⟨_, fun _ => rfl⟩
  have hx := range_map_getD hl
  simp only [he] at hx
  have ht := tsOk_iff (unpack f32 ts) (f32_ieee.toOk.holds ts)
  obtain ⟨zeros, hz⟩ : ∃ z, z = List.replicate 16 0 := ⟨_, rfl⟩
  have hq : quant xs c ts = if c = 6 ∧ !((unpack f32 ts).isFin && !(unpack f32 ts).sign && (unpack f32 ts).signif != 0) then (0x7F, zeros, flNV)
      else if (!((List.range 16).all fun i => (unpack f32 (e0 i)).isFin)) = true then
        (if c = 6 then 0x7F else 0xFF, zeros, if (List.range 16).any (fun i => !(unpack f32 (e0 i)).isFin && (!(unpack f32 (e0 i)).isNan || (unpack f32 (e0 i)).isSig)) then flNV else 0)
      else
        let m := maxAbs ((List.range 16).map fun i => unpack f32 (e0 i))
        if c = 6 then quantScint (unpack f32 ts).signif (unpack f32 ts).expo m.1 m.2 ((List.range 16).map fun i => unpack f32 (e0 i))
        else if m.1 = 0 then (127, zeros, 0)
        else
          let x := (clampInt 0 254 (flog2 m.1 m.2 - (if c = 7 then 2 else if c = 8 then 4 else ((fmtBits c : Nat) : Int) - 2) + 127)).toNat
          (x, if c = 7 then quantFloats e2m1 3 1 (127 - (x : Int)) ((List.range 16).map fun i => unpack f32 (e0 i))
            else if c = 8 then quantFloats e3m2 7 2 (127 - (x : Int)) ((List.range 16).map fun i => unpack f32 (e0 i))
            else quantInts (fmtBits c) (2 ^ (fmtBits c - 1) - 1) (fun n m e => toInt 0 n m (e + (127 - (x : Int)))) ((List.range 16).map fun i => unpack f32 (e0 i))) := by
    have hm : xs.map (unpack f32) = (List.range 16).map fun i => unpack f32 (e0 i) := by rw [hx, List.map_map]; rfl
    have hz' : xs.map (fun _ => 0) = zeros := by rw [hz, List.map_const', hl]
    unfold quant
    dsimp only
    rw [hm, hz', any_map_range, any_map_range, not_all_fin]
  unfold Quantised
  simp only [he]
  rw [← ht, ← hz, hq]
  refine ⟨fun h6 hts => ?_, fun h6 hfin => ?_, fun hfin hA h6 => ?_, fun hfin hA h3 => ?_, fun hfin hA h7 => ?_, fun hfin hA h8 => ?_, fun hfin hts h6 => ?_⟩
  · rw [if_pos ⟨h6, by rw [hts]; rfl⟩]
  · rw [if_neg (fun h => by have := h6 h.1; have := h.2; simp_all), if_pos (by rw [hfin]; rfl)]
  all_goals obtain ⟨am, ae, ka, hmax, hka, hfold⟩ := block_max (fun i hi => (block_nums hfin i hi).1)
  all_goals simp only [hfold] at *
  all_goals rw [hmax]
  · have a0 : am = 0 := by have := Nat.two_pow_pos ka; rcases Nat.mul_eq_zero.1 hA with h | h <;> omega
    rw [if_neg (fun h => h6 h.1), if_neg (by rw [hfin]; simp)]
    dsimp only
    rw [if_neg h6, if_pos a0]
  · have a0 : am ≠ 0 := fun h => hA (by rw [h, Nat.zero_mul])
    have hw : 2 ≤ fmtBits c ∧ fmtBits c ≤ 8 := by interval_cases c <;> decide
    have hX := block_scale a0 hka (fmtBits c - 2)
    rw [show 22 + (fmtBits c - 2) = 20 + fmtBits c by omega, show ((fmtBits c - 2 : Nat) : Int) = (fmtBits c : Int) - 2 by omega] at hX
    rw [if_neg (fun h => by omega), if_neg (by rw [hfin]; simp)]
    dsimp only
    rw [if_neg (by omega), if_neg a0, if_neg (by omega), if_neg (by omega), if_neg (by omega), if_neg (by omega), hX]
    refine ⟨rfl, quantInts_spec ?_ (block_nums hfin) fun n m e h => ?_⟩
    · have : (1 : Int) ≤ 2 ^ (fmtBits c - 1) := one_le_pow₀ (by norm_num)
      omega
    · have := mxint_elem (n := n) (m := m) h (Nat.min 254 (Nat.log2 (am * 2 ^ ka) - (20 + fmtBits c)))
      rw [mul_one]
      exact this
  · subst h7
    have a0 : am ≠ 0 := fun h => hA (by rw [h, Nat.zero_mul])
    have hX := block_scale a0 hka 2
    rw [if_neg (fun h => by omega), if_neg (by rw [hfin]; simp)]
    dsimp only
    rw [if_neg (by omega), if_neg a0, if_pos rfl, if_pos rfl, show (2 : Int) = ((2 : Nat) : Int) from rfl, hX]
    exact ⟨rfl, quantFloats_spec e2m1_ok (by decide) (by decide) (by decide) (by decide) (by decide) (by decide) (block_nums hfin) _⟩
  · subst h8
    have a0 : am ≠ 0 := fun h => hA (by rw [h, Nat.zero_mul])
    have hX := block_scale a0 hka 4
    rw [if_neg (fun h => by omega), if_neg (by rw [hfin]; simp)]
    dsimp only
    rw [if_neg (by omega), if_neg a0, if_neg (by omega), if_pos rfl, if_neg (by omega), if_pos rfl, show (4 : Int) = ((4 : Nat) : Int) from rfl, hX]
    exact ⟨rfl, quantFloats_spec e3m2_ok (by decide) (by decide) (by decide) (by decide) (by decide) (by decide) (block_nums hfin) _⟩
  · subst h6
    rw [if_neg (fun h => by have := h.2; rw [hts] at this; cases this), if_neg (by rw [hfin]; simp)]
    dsimp only
    rw [if_pos rfl]
    cases htt : unpack f32 ts with
    | nan => rw [htt] at hts; cases hts
    | inf => rw [htt] at hts; cases hts
    | fin tn tm te =>
      rw [htt] at hts
      have h0 := f32_ieee.toOk.holds ts _ _ _ htt
      have u149 : f32.unitExp = 149 := rfl
      rw [u149] at h0
      have htn : tn = false ∧ tm ≠ 0 := by cases tn <;> simp [FV.isFin, FV.sign, FV.signif] at hts ⊢; exact hts
      obtain ⟨rfl, tm0⟩ := htn
      have e1 : (f32.units (.fin false tm te)).toNat = tm * 2 ^ (te + 149).toNat := by rw [units_fin, u149, show sgn false = 1 from rfl, one_mul]; exact Int.toNat_natCast _
      rw [e1, hz]
      have hk : te + 149 = ((te + 149).toNat : Nat) := by omega
      generalize (te + 149).toNat = kt at hk ⊢
      have h := quantScint_spec (am := am) (Nat.pos_of_ne_zero tm0) hk hka (block_nums hfin)
      dsimp only [FV.signif, FV.expo] at h ⊢
      exact h
theorem unpackE4M3_cases (x : Nat) : unpackE4M3 x = .nan false ∨ unpackE4M3 x = unpackSmall e4m3 x := by
  unfold unpackE4M3; split <;> simp
/-- A product of an integer element and a scale. -/
theorem cvt_int {v : Int} {e : Int} {K j : Nat} (h : e + 149 + j = K) :
    (v = 0 → cvtV f32 0 (.fin (decide (v < 0)) v.natAbs e) = (0, 0)) ∧ (v ≠ 0 → RoundsIn f32 0 (v * (2 ^ K : Nat)) j (cvtV f32 0 (.fin (decide (v < 0)) v.natAbs e))) := by
  refine ⟨fun z => by subst z; rfl, fun z => ?_⟩
  have := roundF_roundsIn f32_ieee (mode := 0) (by norm_num) (decide (v < 0)) (m := v.natAbs) (by omega) (show e + f32.unitExp + j = K from h)
  rw [Nat.cast_mul, ← mul_assoc, sgn_natAbs_self] at this
  exact this
/-- A block element as the model gives it is RNE32(q·σ) as R174 says it. -/
theorem elem_dequantised {c : Nat} (hc : c ≤ 3 ∨ c = 6 ∨ c = 7 ∨ c = 8) (ts scale q : Nat) (els : List Nat) :
    Dequantised c ts scale q (cvtV f32 0 (elemValue { fmt := c, els := els, scale := scaleOf c scale ts } q)) := by
  have nan : cvtV f32 0 (.nan false) = (nanOf f32, 0) := rfl
  refine ⟨fun h6 hs => ?_, fun h3 hs => ?_, fun h78 hs => ?_, fun h6 hn => ?_, fun h6 hn => ?_⟩
  · have : scaleOf c scale ts = none := by
      unfold scaleOf
      rw [if_neg h6]
      have : fmtScaled c = true := by rcases hc with h | h | h | h <;> [interval_cases c; omega; subst h; subst h] <;> rfl
      rw [if_pos this, if_pos hs]
    unfold elemValue
    rw [this]
    exact nan
  · have hsc : scaleOf c scale ts = some (1, (scale : Int) - 127) := by
      unfold scaleOf
      rw [if_neg (by omega), if_pos (by interval_cases c <;> rfl), if_neg hs]
    have hv : elemValue { fmt := c, els := els, scale := scaleOf c scale ts } q = .fin (decide (sval (fmtBits c) q < 0)) (sval (fmtBits c) q).natAbs ((scale : Int) - 127) := by
      unfold elemValue
      rw [hsc]
      have hi : fmtIsInt c = true := by interval_cases c <;> rfl
      simp only [hi, if_true, mul_one, show ¬c = 5 by omega, if_false]
    rw [hv]
    exact cvt_int (K := scale + 22) (j := 0) (by push_cast; omega)
  · have hsc : scaleOf c scale ts = some (1, (scale : Int) - 127) := by
      unfold scaleOf
      rw [if_neg (by omega), if_pos (by rcases h78 with h | h <;> subst h <;> rfl), if_neg hs]
    have key : ∀ g : Fmt, g.Ok → fmtIsInt c = false → fmtDecode c q = unpackSmall g q → (g.units (unpackSmall g q) = 0 → cvtV f32 0 (elemValue { fmt := c, els := els, scale := scaleOf c scale ts } q) = (zeroOf f32 (unpackSmall g q).sign, 0)) ∧
        (g.units (unpackSmall g q) ≠ 0 → RoundsIn f32 0 (g.units (unpackSmall g q) * (2 ^ (scale + 22) : Nat)) g.unitExp (cvtV f32 0 (elemValue { fmt := c, els := els, scale := scaleOf c scale ts } q))) := by
      intro g ok hi hd
      have hf := (unpackSmall_units ok q).2.2
      have hh := ok.small q
      cases hu : unpackSmall g q with
      | nan => rw [hu] at hf; cases hf
      | inf => rw [hu] at hf; cases hf
      | fin n m ee =>
        have h0 := hh _ _ _ hu
        have hv : elemValue { fmt := c, els := els, scale := scaleOf c scale ts } q = .fin n m (ee + ((scale : Int) - 127)) := by
          unfold elemValue
          rw [hsc]
          simp only [hi, Bool.false_eq_true, if_false, hd, hu]
        rw [hv, sgn_mul_units, Ne, units_eq_zero]
        refine ⟨fun z => by subst z; rfl, fun z => ?_⟩
        have u149 : f32.unitExp = 149 := rfl
        exact roundF_roundsIn f32_ieee (by norm_num) n z (by rw [u149]; push_cast; omega)
    rcases h78 with h | h <;> subst h
    · exact key e2m1 e2m1_ok rfl rfl
    · exact key e3m2 e3m2_ok rfl rfl
  · subst h6
    have : scaleOf 6 scale ts = none := by
      unfold scaleOf
      rw [if_pos rfl]

      rcases unpackE4M3_cases scale with h | h
      · rw [h]
      · have hf := (unpackSmall_units e4m3_ok scale).2.2
        rw [h] at hn ⊢
        cases hu : unpackSmall e4m3 scale with
        | nan => exact absurd (hu ▸ hf) (by simp [FV.isFin])
        | inf => exact absurd (hu ▸ hf) (by simp [FV.isFin])
        | fin => cases ht : unpack f32 ts <;> simp_all [FV.isNan, FV.isFin]
    unfold elemValue
    rw [this]
    exact nan
  · subst h6

    rcases unpackE4M3_cases scale with h | h
    · rw [h] at hn; cases hn
    · have hf := (unpackSmall_units e4m3_ok scale).2.2
      have hh := e4m3_ok.small scale
      rw [h] at hn ⊢
      cases hu : unpackSmall e4m3 scale with
      | nan => rw [hu] at hf; cases hf
      | inf => rw [hu] at hf; cases hf
      | fin n m e =>
        cases ht : unpack f32 ts with
        | nan => rw [hu, ht] at hn; cases hn
        | inf => rw [hu, ht] at hn; cases hn
        | fin tn tm te =>
          have h0 := hh _ _ _ hu
          have h1 := f32_ieee.toOk.holds ts _ _ _ ht
          have u149 : f32.unitExp = 149 := rfl
          have u9 : e4m3.unitExp = 9 := rfl
          rw [u149] at h1
          rw [u9] at h0
          have hv : elemValue { fmt := 6, els := els, scale := scaleOf 6 scale ts } q =
              .fin (decide (sval 4 q * (if n != tn then -((m * tm : Nat) : Int) else ((m * tm : Nat) : Int)) < 0)) (sval 4 q * (if n != tn then -((m * tm : Nat) : Int) else ((m * tm : Nat) : Int))).natAbs (e + te) := by
            unfold elemValue scaleOf
            rw [if_pos rfl, h, hu, ht]
            rfl
          have hP : sval 4 q * e4m3.units (.fin n m e) * f32.units (.fin tn tm te) =
              sval 4 q * (if n != tn then -((m * tm : Nat) : Int) else ((m * tm : Nat) : Int)) * (2 ^ ((e + 9).toNat + (te + 149).toNat) : Nat) := by
            rw [units_fin, units_fin, u149, u9, pow_add]
            cases n <;> cases tn <;> simp [sgn] <;> ring
          rw [hv, hP]
          have := cvt_int (v := sval 4 q * (if n != tn then -((m * tm : Nat) : Int) else ((m * tm : Nat) : Int))) (e := e + te) (K := (e + 9).toNat + (te + 149).toNat) (j := 9) (by push_cast; omega)
          refine ⟨fun z => this.1 ?_, fun z => this.2 fun k => z (by rw [k, zero_mul])⟩
          have p := int_pow_pos ((e + 9).toNat + (te + 149).toNat)
          rcases mul_eq_zero.1 z with k | k
          · exact k
          · omega
end Sys2Proof.Machine
end

