-- ==== Sys2Proof/Laws/State.lean ====
section
/-! SUPPORT. What each update of the state changes, field by field: no later proof unfolds a record update. -/

namespace Sys2Proof.Machine
set_option Elab.async false


/-! `State.onCore`. -/

@[simp] theorem State.onCore_cfg (s : State) (f : Core → Core) : (s.onCore f).cfg = s.cfg := rfl
@[simp] theorem State.onCore_clk (s : State) (f : Core → Core) : (s.onCore f).clk = s.clk := rfl
@[simp] theorem State.onCore_cid (s : State) (f : Core → Core) : (s.onCore f).cid = s.cid := rfl
@[simp] theorem State.onCore_core (s : State) (f : Core → Core) : (s.onCore f).core = f s.core := rfl
@[simp] theorem State.onCore_cores (s : State) (f : Core → Core) : (s.onCore f).cores = s.cores := rfl
@[simp] theorem State.onCore_mem (s : State) (f : Core → Core) : (s.onCore f).mem = s.mem := rfl
@[simp] theorem State.onCore_bar (s : State) (f : Core → Core) : (s.onCore f).bar = s.bar := rfl
@[simp] theorem State.onCore_lay (s : State) (f : Core → Core) : (s.onCore f).lay = s.lay := rfl
@[simp] theorem State.onCore_sets (s : State) (f : Core → Core) : (s.onCore f).sets = s.sets := rfl
@[simp] theorem State.onCore_via (s : State) (f : Core → Core) : (s.onCore f).via = s.via := rfl
@[simp] theorem State.onCore_cmds (s : State) (f : Core → Core) : (s.onCore f).cmds = s.cmds := rfl
@[simp] theorem State.onCore_faces (s : State) (f : Core → Core) : (s.onCore f).faces = s.faces := rfl
@[simp] theorem State.onCore_sched (s : State) (f : Core → Core) : (s.onCore f).sched = s.sched := rfl
@[simp] theorem State.onCore_xl (s : State) (f : Core → Core) : (s.onCore f).xl = s.xl := rfl
@[simp] theorem State.onCore_fab (s : State) (f : Core → Core) : (s.onCore f).fab = s.fab := rfl
@[simp] theorem State.onCore_host (s : State) (f : Core → Core) : (s.onCore f).host = s.host := rfl
@[simp] theorem State.onCore_running (s : State) (f : Core → Core) : (s.onCore f).running = s.running := rfl
@[simp] theorem State.onCore_dark (s : State) (f : Core → Core) : (s.onCore f).dark = s.dark := rfl
@[simp] theorem State.onCore_bad (s : State) (f : Core → Core) : (s.onCore f).bad = s.bad := rfl

/-! `State.onCtx`. -/

@[simp] theorem State.onCtx_cfg (s : State) (f : Ctx → Ctx) : (s.onCtx f).cfg = s.cfg := rfl
@[simp] theorem State.onCtx_clk (s : State) (f : Ctx → Ctx) : (s.onCtx f).clk = s.clk := rfl
@[simp] theorem State.onCtx_cid (s : State) (f : Ctx → Ctx) : (s.onCtx f).cid = s.cid := rfl
@[simp] theorem State.onCtx_core (s : State) (f : Ctx → Ctx) : (s.onCtx f).core = { s.core with ctx := f s.core.ctx } := rfl
@[simp] theorem State.onCtx_cores (s : State) (f : Ctx → Ctx) : (s.onCtx f).cores = s.cores := rfl
@[simp] theorem State.onCtx_mem (s : State) (f : Ctx → Ctx) : (s.onCtx f).mem = s.mem := rfl
@[simp] theorem State.onCtx_bar (s : State) (f : Ctx → Ctx) : (s.onCtx f).bar = s.bar := rfl
@[simp] theorem State.onCtx_lay (s : State) (f : Ctx → Ctx) : (s.onCtx f).lay = s.lay := rfl
@[simp] theorem State.onCtx_sets (s : State) (f : Ctx → Ctx) : (s.onCtx f).sets = s.sets := rfl
@[simp] theorem State.onCtx_via (s : State) (f : Ctx → Ctx) : (s.onCtx f).via = s.via := rfl
@[simp] theorem State.onCtx_cmds (s : State) (f : Ctx → Ctx) : (s.onCtx f).cmds = s.cmds := rfl
@[simp] theorem State.onCtx_faces (s : State) (f : Ctx → Ctx) : (s.onCtx f).faces = s.faces := rfl
@[simp] theorem State.onCtx_sched (s : State) (f : Ctx → Ctx) : (s.onCtx f).sched = s.sched := rfl
@[simp] theorem State.onCtx_xl (s : State) (f : Ctx → Ctx) : (s.onCtx f).xl = s.xl := rfl
@[simp] theorem State.onCtx_fab (s : State) (f : Ctx → Ctx) : (s.onCtx f).fab = s.fab := rfl
@[simp] theorem State.onCtx_host (s : State) (f : Ctx → Ctx) : (s.onCtx f).host = s.host := rfl
@[simp] theorem State.onCtx_running (s : State) (f : Ctx → Ctx) : (s.onCtx f).running = s.running := rfl
@[simp] theorem State.onCtx_dark (s : State) (f : Ctx → Ctx) : (s.onCtx f).dark = s.dark := rfl
@[simp] theorem State.onCtx_bad (s : State) (f : Ctx → Ctx) : (s.onCtx f).bad = s.bad := rfl

/-! `State.onCtl`. -/

@[simp] theorem State.onCtl_cfg (s : State) (f : Ctl → Ctl) : (s.onCtl f).cfg = s.cfg := rfl
@[simp] theorem State.onCtl_clk (s : State) (f : Ctl → Ctl) : (s.onCtl f).clk = s.clk := rfl
@[simp] theorem State.onCtl_cid (s : State) (f : Ctl → Ctl) : (s.onCtl f).cid = s.cid := rfl
@[simp] theorem State.onCtl_core (s : State) (f : Ctl → Ctl) : (s.onCtl f).core = { s.core with ctx := { s.core.ctx with ctl := f s.core.ctx.ctl } } := rfl
@[simp] theorem State.onCtl_cores (s : State) (f : Ctl → Ctl) : (s.onCtl f).cores = s.cores := rfl
@[simp] theorem State.onCtl_mem (s : State) (f : Ctl → Ctl) : (s.onCtl f).mem = s.mem := rfl
@[simp] theorem State.onCtl_bar (s : State) (f : Ctl → Ctl) : (s.onCtl f).bar = s.bar := rfl
@[simp] theorem State.onCtl_lay (s : State) (f : Ctl → Ctl) : (s.onCtl f).lay = s.lay := rfl
@[simp] theorem State.onCtl_sets (s : State) (f : Ctl → Ctl) : (s.onCtl f).sets = s.sets := rfl
@[simp] theorem State.onCtl_via (s : State) (f : Ctl → Ctl) : (s.onCtl f).via = s.via := rfl
@[simp] theorem State.onCtl_cmds (s : State) (f : Ctl → Ctl) : (s.onCtl f).cmds = s.cmds := rfl
@[simp] theorem State.onCtl_faces (s : State) (f : Ctl → Ctl) : (s.onCtl f).faces = s.faces := rfl
@[simp] theorem State.onCtl_sched (s : State) (f : Ctl → Ctl) : (s.onCtl f).sched = s.sched := rfl
@[simp] theorem State.onCtl_xl (s : State) (f : Ctl → Ctl) : (s.onCtl f).xl = s.xl := rfl
@[simp] theorem State.onCtl_fab (s : State) (f : Ctl → Ctl) : (s.onCtl f).fab = s.fab := rfl
@[simp] theorem State.onCtl_host (s : State) (f : Ctl → Ctl) : (s.onCtl f).host = s.host := rfl
@[simp] theorem State.onCtl_running (s : State) (f : Ctl → Ctl) : (s.onCtl f).running = s.running := rfl
@[simp] theorem State.onCtl_dark (s : State) (f : Ctl → Ctl) : (s.onCtl f).dark = s.dark := rfl
@[simp] theorem State.onCtl_bad (s : State) (f : Ctl → Ctl) : (s.onCtl f).bad = s.bad := rfl

/-! `State.onIss`. -/

@[simp] theorem State.onIss_cfg (s : State) (f : Iss → Iss) : (s.onIss f).cfg = s.cfg := rfl
@[simp] theorem State.onIss_clk (s : State) (f : Iss → Iss) : (s.onIss f).clk = s.clk := rfl
@[simp] theorem State.onIss_cid (s : State) (f : Iss → Iss) : (s.onIss f).cid = s.cid := rfl
@[simp] theorem State.onIss_core (s : State) (f : Iss → Iss) : (s.onIss f).core = { s.core with iss := f s.core.iss } := rfl
@[simp] theorem State.onIss_cores (s : State) (f : Iss → Iss) : (s.onIss f).cores = s.cores := rfl
@[simp] theorem State.onIss_mem (s : State) (f : Iss → Iss) : (s.onIss f).mem = s.mem := rfl
@[simp] theorem State.onIss_bar (s : State) (f : Iss → Iss) : (s.onIss f).bar = s.bar := rfl
@[simp] theorem State.onIss_lay (s : State) (f : Iss → Iss) : (s.onIss f).lay = s.lay := rfl
@[simp] theorem State.onIss_sets (s : State) (f : Iss → Iss) : (s.onIss f).sets = s.sets := rfl
@[simp] theorem State.onIss_via (s : State) (f : Iss → Iss) : (s.onIss f).via = s.via := rfl
@[simp] theorem State.onIss_cmds (s : State) (f : Iss → Iss) : (s.onIss f).cmds = s.cmds := rfl
@[simp] theorem State.onIss_faces (s : State) (f : Iss → Iss) : (s.onIss f).faces = s.faces := rfl
@[simp] theorem State.onIss_sched (s : State) (f : Iss → Iss) : (s.onIss f).sched = s.sched := rfl
@[simp] theorem State.onIss_xl (s : State) (f : Iss → Iss) : (s.onIss f).xl = s.xl := rfl
@[simp] theorem State.onIss_fab (s : State) (f : Iss → Iss) : (s.onIss f).fab = s.fab := rfl
@[simp] theorem State.onIss_host (s : State) (f : Iss → Iss) : (s.onIss f).host = s.host := rfl
@[simp] theorem State.onIss_running (s : State) (f : Iss → Iss) : (s.onIss f).running = s.running := rfl
@[simp] theorem State.onIss_dark (s : State) (f : Iss → Iss) : (s.onIss f).dark = s.dark := rfl
@[simp] theorem State.onIss_bad (s : State) (f : Iss → Iss) : (s.onIss f).bad = s.bad := rfl

/-! `State.onSched`. -/

@[simp] theorem State.onSched_cfg (s : State) (f : Sched → Sched) : (s.onSched f).cfg = s.cfg := rfl
@[simp] theorem State.onSched_clk (s : State) (f : Sched → Sched) : (s.onSched f).clk = s.clk := rfl
@[simp] theorem State.onSched_cid (s : State) (f : Sched → Sched) : (s.onSched f).cid = s.cid := rfl
@[simp] theorem State.onSched_core (s : State) (f : Sched → Sched) : (s.onSched f).core = s.core := rfl
@[simp] theorem State.onSched_cores (s : State) (f : Sched → Sched) : (s.onSched f).cores = s.cores := rfl
@[simp] theorem State.onSched_mem (s : State) (f : Sched → Sched) : (s.onSched f).mem = s.mem := rfl
@[simp] theorem State.onSched_bar (s : State) (f : Sched → Sched) : (s.onSched f).bar = s.bar := rfl
@[simp] theorem State.onSched_lay (s : State) (f : Sched → Sched) : (s.onSched f).lay = s.lay := rfl
@[simp] theorem State.onSched_sets (s : State) (f : Sched → Sched) : (s.onSched f).sets = s.sets := rfl
@[simp] theorem State.onSched_via (s : State) (f : Sched → Sched) : (s.onSched f).via = s.via := rfl
@[simp] theorem State.onSched_cmds (s : State) (f : Sched → Sched) : (s.onSched f).cmds = s.cmds := rfl
@[simp] theorem State.onSched_faces (s : State) (f : Sched → Sched) : (s.onSched f).faces = s.faces := rfl
@[simp] theorem State.onSched_sched (s : State) (f : Sched → Sched) : (s.onSched f).sched = f s.sched := rfl
@[simp] theorem State.onSched_xl (s : State) (f : Sched → Sched) : (s.onSched f).xl = s.xl := rfl
@[simp] theorem State.onSched_fab (s : State) (f : Sched → Sched) : (s.onSched f).fab = s.fab := rfl
@[simp] theorem State.onSched_host (s : State) (f : Sched → Sched) : (s.onSched f).host = s.host := rfl
@[simp] theorem State.onSched_running (s : State) (f : Sched → Sched) : (s.onSched f).running = s.running := rfl
@[simp] theorem State.onSched_dark (s : State) (f : Sched → Sched) : (s.onSched f).dark = s.dark := rfl
@[simp] theorem State.onSched_bad (s : State) (f : Sched → Sched) : (s.onSched f).bad = s.bad := rfl

/-! `State.onFab`. -/

@[simp] theorem State.onFab_cfg (s : State) (f : Fab → Fab) : (s.onFab f).cfg = s.cfg := rfl
@[simp] theorem State.onFab_clk (s : State) (f : Fab → Fab) : (s.onFab f).clk = s.clk := rfl
@[simp] theorem State.onFab_cid (s : State) (f : Fab → Fab) : (s.onFab f).cid = s.cid := rfl
@[simp] theorem State.onFab_core (s : State) (f : Fab → Fab) : (s.onFab f).core = s.core := rfl
@[simp] theorem State.onFab_cores (s : State) (f : Fab → Fab) : (s.onFab f).cores = s.cores := rfl
@[simp] theorem State.onFab_mem (s : State) (f : Fab → Fab) : (s.onFab f).mem = s.mem := rfl
@[simp] theorem State.onFab_bar (s : State) (f : Fab → Fab) : (s.onFab f).bar = s.bar := rfl
@[simp] theorem State.onFab_lay (s : State) (f : Fab → Fab) : (s.onFab f).lay = s.lay := rfl
@[simp] theorem State.onFab_sets (s : State) (f : Fab → Fab) : (s.onFab f).sets = s.sets := rfl
@[simp] theorem State.onFab_via (s : State) (f : Fab → Fab) : (s.onFab f).via = s.via := rfl
@[simp] theorem State.onFab_cmds (s : State) (f : Fab → Fab) : (s.onFab f).cmds = s.cmds := rfl
@[simp] theorem State.onFab_faces (s : State) (f : Fab → Fab) : (s.onFab f).faces = s.faces := rfl
@[simp] theorem State.onFab_sched (s : State) (f : Fab → Fab) : (s.onFab f).sched = s.sched := rfl
@[simp] theorem State.onFab_xl (s : State) (f : Fab → Fab) : (s.onFab f).xl = s.xl := rfl
@[simp] theorem State.onFab_fab (s : State) (f : Fab → Fab) : (s.onFab f).fab = f s.fab := rfl
@[simp] theorem State.onFab_host (s : State) (f : Fab → Fab) : (s.onFab f).host = s.host := rfl
@[simp] theorem State.onFab_running (s : State) (f : Fab → Fab) : (s.onFab f).running = s.running := rfl
@[simp] theorem State.onFab_dark (s : State) (f : Fab → Fab) : (s.onFab f).dark = s.dark := rfl
@[simp] theorem State.onFab_bad (s : State) (f : Fab → Fab) : (s.onFab f).bad = s.bad := rfl

/-! `State.onXl`. -/

@[simp] theorem State.onXl_cfg (s : State) (f : Xl → Xl) : (s.onXl f).cfg = s.cfg := rfl
@[simp] theorem State.onXl_clk (s : State) (f : Xl → Xl) : (s.onXl f).clk = s.clk := rfl
@[simp] theorem State.onXl_cid (s : State) (f : Xl → Xl) : (s.onXl f).cid = s.cid := rfl
@[simp] theorem State.onXl_core (s : State) (f : Xl → Xl) : (s.onXl f).core = s.core := rfl
@[simp] theorem State.onXl_cores (s : State) (f : Xl → Xl) : (s.onXl f).cores = s.cores := rfl
@[simp] theorem State.onXl_mem (s : State) (f : Xl → Xl) : (s.onXl f).mem = s.mem := rfl
@[simp] theorem State.onXl_bar (s : State) (f : Xl → Xl) : (s.onXl f).bar = s.bar := rfl
@[simp] theorem State.onXl_lay (s : State) (f : Xl → Xl) : (s.onXl f).lay = s.lay := rfl
@[simp] theorem State.onXl_sets (s : State) (f : Xl → Xl) : (s.onXl f).sets = s.sets := rfl
@[simp] theorem State.onXl_via (s : State) (f : Xl → Xl) : (s.onXl f).via = s.via := rfl
@[simp] theorem State.onXl_cmds (s : State) (f : Xl → Xl) : (s.onXl f).cmds = s.cmds := rfl
@[simp] theorem State.onXl_faces (s : State) (f : Xl → Xl) : (s.onXl f).faces = s.faces := rfl
@[simp] theorem State.onXl_sched (s : State) (f : Xl → Xl) : (s.onXl f).sched = s.sched := rfl
@[simp] theorem State.onXl_xl (s : State) (f : Xl → Xl) : (s.onXl f).xl = f s.xl := rfl
@[simp] theorem State.onXl_fab (s : State) (f : Xl → Xl) : (s.onXl f).fab = s.fab := rfl
@[simp] theorem State.onXl_host (s : State) (f : Xl → Xl) : (s.onXl f).host = s.host := rfl
@[simp] theorem State.onXl_running (s : State) (f : Xl → Xl) : (s.onXl f).running = s.running := rfl
@[simp] theorem State.onXl_dark (s : State) (f : Xl → Xl) : (s.onXl f).dark = s.dark := rfl
@[simp] theorem State.onXl_bad (s : State) (f : Xl → Xl) : (s.onXl f).bad = s.bad := rfl

/-! `State.onClk`. -/

@[simp] theorem State.onClk_cfg (s : State) (f : Clk → Clk) : (s.onClk f).cfg = s.cfg := rfl
@[simp] theorem State.onClk_clk (s : State) (f : Clk → Clk) : (s.onClk f).clk = f s.clk := rfl
@[simp] theorem State.onClk_cid (s : State) (f : Clk → Clk) : (s.onClk f).cid = s.cid := rfl
@[simp] theorem State.onClk_core (s : State) (f : Clk → Clk) : (s.onClk f).core = s.core := rfl
@[simp] theorem State.onClk_cores (s : State) (f : Clk → Clk) : (s.onClk f).cores = s.cores := rfl
@[simp] theorem State.onClk_mem (s : State) (f : Clk → Clk) : (s.onClk f).mem = s.mem := rfl
@[simp] theorem State.onClk_bar (s : State) (f : Clk → Clk) : (s.onClk f).bar = s.bar := rfl
@[simp] theorem State.onClk_lay (s : State) (f : Clk → Clk) : (s.onClk f).lay = s.lay := rfl
@[simp] theorem State.onClk_sets (s : State) (f : Clk → Clk) : (s.onClk f).sets = s.sets := rfl
@[simp] theorem State.onClk_via (s : State) (f : Clk → Clk) : (s.onClk f).via = s.via := rfl
@[simp] theorem State.onClk_cmds (s : State) (f : Clk → Clk) : (s.onClk f).cmds = s.cmds := rfl
@[simp] theorem State.onClk_faces (s : State) (f : Clk → Clk) : (s.onClk f).faces = s.faces := rfl
@[simp] theorem State.onClk_sched (s : State) (f : Clk → Clk) : (s.onClk f).sched = s.sched := rfl
@[simp] theorem State.onClk_xl (s : State) (f : Clk → Clk) : (s.onClk f).xl = s.xl := rfl
@[simp] theorem State.onClk_fab (s : State) (f : Clk → Clk) : (s.onClk f).fab = s.fab := rfl
@[simp] theorem State.onClk_host (s : State) (f : Clk → Clk) : (s.onClk f).host = s.host := rfl
@[simp] theorem State.onClk_running (s : State) (f : Clk → Clk) : (s.onClk f).running = s.running := rfl
@[simp] theorem State.onClk_dark (s : State) (f : Clk → Clk) : (s.onClk f).dark = s.dark := rfl
@[simp] theorem State.onClk_bad (s : State) (f : Clk → Clk) : (s.onClk f).bad = s.bad := rfl

/-! `State.onHost`. -/

@[simp] theorem State.onHost_cfg (s : State) (pkg : Nat) (f : HostSt → HostSt) : (s.onHost pkg f).cfg = s.cfg := rfl
@[simp] theorem State.onHost_clk (s : State) (pkg : Nat) (f : HostSt → HostSt) : (s.onHost pkg f).clk = s.clk := rfl
@[simp] theorem State.onHost_cid (s : State) (pkg : Nat) (f : HostSt → HostSt) : (s.onHost pkg f).cid = s.cid := rfl
@[simp] theorem State.onHost_core (s : State) (pkg : Nat) (f : HostSt → HostSt) : (s.onHost pkg f).core = s.core := rfl
@[simp] theorem State.onHost_cores (s : State) (pkg : Nat) (f : HostSt → HostSt) : (s.onHost pkg f).cores = s.cores := rfl
@[simp] theorem State.onHost_mem (s : State) (pkg : Nat) (f : HostSt → HostSt) : (s.onHost pkg f).mem = s.mem := rfl
@[simp] theorem State.onHost_bar (s : State) (pkg : Nat) (f : HostSt → HostSt) : (s.onHost pkg f).bar = s.bar := rfl
@[simp] theorem State.onHost_lay (s : State) (pkg : Nat) (f : HostSt → HostSt) : (s.onHost pkg f).lay = s.lay := rfl
@[simp] theorem State.onHost_sets (s : State) (pkg : Nat) (f : HostSt → HostSt) : (s.onHost pkg f).sets = s.sets := rfl
@[simp] theorem State.onHost_via (s : State) (pkg : Nat) (f : HostSt → HostSt) : (s.onHost pkg f).via = s.via := rfl
@[simp] theorem State.onHost_cmds (s : State) (pkg : Nat) (f : HostSt → HostSt) : (s.onHost pkg f).cmds = s.cmds := rfl
@[simp] theorem State.onHost_faces (s : State) (pkg : Nat) (f : HostSt → HostSt) : (s.onHost pkg f).faces = s.faces := rfl
@[simp] theorem State.onHost_sched (s : State) (pkg : Nat) (f : HostSt → HostSt) : (s.onHost pkg f).sched = s.sched := rfl
@[simp] theorem State.onHost_xl (s : State) (pkg : Nat) (f : HostSt → HostSt) : (s.onHost pkg f).xl = s.xl := rfl
@[simp] theorem State.onHost_fab (s : State) (pkg : Nat) (f : HostSt → HostSt) : (s.onHost pkg f).fab = s.fab := rfl
@[simp] theorem State.onHost_host (s : State) (pkg : Nat) (f : HostSt → HostSt) : (s.onHost pkg f).host = fmod HostSt.reset pkg f s.host := rfl
@[simp] theorem State.onHost_running (s : State) (pkg : Nat) (f : HostSt → HostSt) : (s.onHost pkg f).running = s.running := rfl
@[simp] theorem State.onHost_dark (s : State) (pkg : Nat) (f : HostSt → HostSt) : (s.onHost pkg f).dark = s.dark := rfl
@[simp] theorem State.onHost_bad (s : State) (pkg : Nat) (f : HostSt → HostSt) : (s.onHost pkg f).bad = s.bad := rfl

/-! `State.onBarrier`. -/

@[simp] theorem State.onBarrier_cfg (s : State) (die n : Nat) (f : Barrier → Barrier) : (s.onBarrier die n f).cfg = s.cfg := rfl
@[simp] theorem State.onBarrier_clk (s : State) (die n : Nat) (f : Barrier → Barrier) : (s.onBarrier die n f).clk = s.clk := rfl
@[simp] theorem State.onBarrier_cid (s : State) (die n : Nat) (f : Barrier → Barrier) : (s.onBarrier die n f).cid = s.cid := rfl
@[simp] theorem State.onBarrier_core (s : State) (die n : Nat) (f : Barrier → Barrier) : (s.onBarrier die n f).core = s.core := rfl
@[simp] theorem State.onBarrier_cores (s : State) (die n : Nat) (f : Barrier → Barrier) : (s.onBarrier die n f).cores = s.cores := rfl
@[simp] theorem State.onBarrier_mem (s : State) (die n : Nat) (f : Barrier → Barrier) : (s.onBarrier die n f).mem = s.mem := rfl
@[simp] theorem State.onBarrier_bar (s : State) (die n : Nat) (f : Barrier → Barrier) : (s.onBarrier die n f).bar = fmod Barrier.reset (die * 64 + n) f s.bar := rfl
@[simp] theorem State.onBarrier_lay (s : State) (die n : Nat) (f : Barrier → Barrier) : (s.onBarrier die n f).lay = s.lay := rfl
@[simp] theorem State.onBarrier_sets (s : State) (die n : Nat) (f : Barrier → Barrier) : (s.onBarrier die n f).sets = s.sets := rfl
@[simp] theorem State.onBarrier_via (s : State) (die n : Nat) (f : Barrier → Barrier) : (s.onBarrier die n f).via = s.via := rfl
@[simp] theorem State.onBarrier_cmds (s : State) (die n : Nat) (f : Barrier → Barrier) : (s.onBarrier die n f).cmds = s.cmds := rfl
@[simp] theorem State.onBarrier_faces (s : State) (die n : Nat) (f : Barrier → Barrier) : (s.onBarrier die n f).faces = s.faces := rfl
@[simp] theorem State.onBarrier_sched (s : State) (die n : Nat) (f : Barrier → Barrier) : (s.onBarrier die n f).sched = s.sched := rfl
@[simp] theorem State.onBarrier_xl (s : State) (die n : Nat) (f : Barrier → Barrier) : (s.onBarrier die n f).xl = s.xl := rfl
@[simp] theorem State.onBarrier_fab (s : State) (die n : Nat) (f : Barrier → Barrier) : (s.onBarrier die n f).fab = s.fab := rfl
@[simp] theorem State.onBarrier_host (s : State) (die n : Nat) (f : Barrier → Barrier) : (s.onBarrier die n f).host = s.host := rfl
@[simp] theorem State.onBarrier_running (s : State) (die n : Nat) (f : Barrier → Barrier) : (s.onBarrier die n f).running = s.running := rfl
@[simp] theorem State.onBarrier_dark (s : State) (die n : Nat) (f : Barrier → Barrier) : (s.onBarrier die n f).dark = s.dark := rfl
@[simp] theorem State.onBarrier_bad (s : State) (die n : Nat) (f : Barrier → Barrier) : (s.onBarrier die n f).bad = s.bad := rfl

/-! `State.onLayEnt`. -/

@[simp] theorem State.onLayEnt_cfg (s : State) (die jcb e : Nat) (f : LyEnt → LyEnt) : (s.onLayEnt die jcb e f).cfg = s.cfg := rfl
@[simp] theorem State.onLayEnt_clk (s : State) (die jcb e : Nat) (f : LyEnt → LyEnt) : (s.onLayEnt die jcb e f).clk = s.clk := rfl
@[simp] theorem State.onLayEnt_cid (s : State) (die jcb e : Nat) (f : LyEnt → LyEnt) : (s.onLayEnt die jcb e f).cid = s.cid := rfl
@[simp] theorem State.onLayEnt_core (s : State) (die jcb e : Nat) (f : LyEnt → LyEnt) : (s.onLayEnt die jcb e f).core = s.core := rfl
@[simp] theorem State.onLayEnt_cores (s : State) (die jcb e : Nat) (f : LyEnt → LyEnt) : (s.onLayEnt die jcb e f).cores = s.cores := rfl
@[simp] theorem State.onLayEnt_mem (s : State) (die jcb e : Nat) (f : LyEnt → LyEnt) : (s.onLayEnt die jcb e f).mem = s.mem := rfl
@[simp] theorem State.onLayEnt_bar (s : State) (die jcb e : Nat) (f : LyEnt → LyEnt) : (s.onLayEnt die jcb e f).bar = s.bar := rfl
@[simp] theorem State.onLayEnt_sets (s : State) (die jcb e : Nat) (f : LyEnt → LyEnt) : (s.onLayEnt die jcb e f).sets = s.sets := rfl
@[simp] theorem State.onLayEnt_via (s : State) (die jcb e : Nat) (f : LyEnt → LyEnt) : (s.onLayEnt die jcb e f).via = s.via := rfl
@[simp] theorem State.onLayEnt_cmds (s : State) (die jcb e : Nat) (f : LyEnt → LyEnt) : (s.onLayEnt die jcb e f).cmds = s.cmds := rfl
@[simp] theorem State.onLayEnt_faces (s : State) (die jcb e : Nat) (f : LyEnt → LyEnt) : (s.onLayEnt die jcb e f).faces = s.faces := rfl
@[simp] theorem State.onLayEnt_sched (s : State) (die jcb e : Nat) (f : LyEnt → LyEnt) : (s.onLayEnt die jcb e f).sched = s.sched := rfl
@[simp] theorem State.onLayEnt_xl (s : State) (die jcb e : Nat) (f : LyEnt → LyEnt) : (s.onLayEnt die jcb e f).xl = s.xl := rfl
@[simp] theorem State.onLayEnt_fab (s : State) (die jcb e : Nat) (f : LyEnt → LyEnt) : (s.onLayEnt die jcb e f).fab = s.fab := rfl
@[simp] theorem State.onLayEnt_host (s : State) (die jcb e : Nat) (f : LyEnt → LyEnt) : (s.onLayEnt die jcb e f).host = s.host := rfl
@[simp] theorem State.onLayEnt_running (s : State) (die jcb e : Nat) (f : LyEnt → LyEnt) : (s.onLayEnt die jcb e f).running = s.running := rfl
@[simp] theorem State.onLayEnt_dark (s : State) (die jcb e : Nat) (f : LyEnt → LyEnt) : (s.onLayEnt die jcb e f).dark = s.dark := rfl
@[simp] theorem State.onLayEnt_bad (s : State) (die jcb e : Nat) (f : LyEnt → LyEnt) : (s.onLayEnt die jcb e f).bad = s.bad := rfl

/-! `State.onTset`. -/

@[simp] theorem State.onTset_cfg (s : State) (die n : Nat) (f : TSet → TSet) : (s.onTset die n f).cfg = s.cfg := rfl
@[simp] theorem State.onTset_clk (s : State) (die n : Nat) (f : TSet → TSet) : (s.onTset die n f).clk = s.clk := rfl
@[simp] theorem State.onTset_cid (s : State) (die n : Nat) (f : TSet → TSet) : (s.onTset die n f).cid = s.cid := rfl
@[simp] theorem State.onTset_core (s : State) (die n : Nat) (f : TSet → TSet) : (s.onTset die n f).core = s.core := rfl
@[simp] theorem State.onTset_cores (s : State) (die n : Nat) (f : TSet → TSet) : (s.onTset die n f).cores = s.cores := rfl
@[simp] theorem State.onTset_mem (s : State) (die n : Nat) (f : TSet → TSet) : (s.onTset die n f).mem = s.mem := rfl
@[simp] theorem State.onTset_bar (s : State) (die n : Nat) (f : TSet → TSet) : (s.onTset die n f).bar = s.bar := rfl
@[simp] theorem State.onTset_lay (s : State) (die n : Nat) (f : TSet → TSet) : (s.onTset die n f).lay = s.lay := rfl
@[simp] theorem State.onTset_sets (s : State) (die n : Nat) (f : TSet → TSet) : (s.onTset die n f).sets = fmod TSet.reset (die * 8 + n) f s.sets := rfl
@[simp] theorem State.onTset_via (s : State) (die n : Nat) (f : TSet → TSet) : (s.onTset die n f).via = s.via := rfl
@[simp] theorem State.onTset_cmds (s : State) (die n : Nat) (f : TSet → TSet) : (s.onTset die n f).cmds = s.cmds := rfl
@[simp] theorem State.onTset_faces (s : State) (die n : Nat) (f : TSet → TSet) : (s.onTset die n f).faces = s.faces := rfl
@[simp] theorem State.onTset_sched (s : State) (die n : Nat) (f : TSet → TSet) : (s.onTset die n f).sched = s.sched := rfl
@[simp] theorem State.onTset_xl (s : State) (die n : Nat) (f : TSet → TSet) : (s.onTset die n f).xl = s.xl := rfl
@[simp] theorem State.onTset_fab (s : State) (die n : Nat) (f : TSet → TSet) : (s.onTset die n f).fab = s.fab := rfl
@[simp] theorem State.onTset_host (s : State) (die n : Nat) (f : TSet → TSet) : (s.onTset die n f).host = s.host := rfl
@[simp] theorem State.onTset_running (s : State) (die n : Nat) (f : TSet → TSet) : (s.onTset die n f).running = s.running := rfl
@[simp] theorem State.onTset_dark (s : State) (die n : Nat) (f : TSet → TSet) : (s.onTset die n f).dark = s.dark := rfl
@[simp] theorem State.onTset_bad (s : State) (die n : Nat) (f : TSet → TSet) : (s.onTset die n f).bad = s.bad := rfl

/-! `State.onVslot`. -/

@[simp] theorem State.onVslot_cfg (s : State) (die n : Nat) (f : VSlot → VSlot) : (s.onVslot die n f).cfg = s.cfg := rfl
@[simp] theorem State.onVslot_clk (s : State) (die n : Nat) (f : VSlot → VSlot) : (s.onVslot die n f).clk = s.clk := rfl
@[simp] theorem State.onVslot_cid (s : State) (die n : Nat) (f : VSlot → VSlot) : (s.onVslot die n f).cid = s.cid := rfl
@[simp] theorem State.onVslot_core (s : State) (die n : Nat) (f : VSlot → VSlot) : (s.onVslot die n f).core = s.core := rfl
@[simp] theorem State.onVslot_cores (s : State) (die n : Nat) (f : VSlot → VSlot) : (s.onVslot die n f).cores = s.cores := rfl
@[simp] theorem State.onVslot_mem (s : State) (die n : Nat) (f : VSlot → VSlot) : (s.onVslot die n f).mem = s.mem := rfl
@[simp] theorem State.onVslot_bar (s : State) (die n : Nat) (f : VSlot → VSlot) : (s.onVslot die n f).bar = s.bar := rfl
@[simp] theorem State.onVslot_lay (s : State) (die n : Nat) (f : VSlot → VSlot) : (s.onVslot die n f).lay = s.lay := rfl
@[simp] theorem State.onVslot_sets (s : State) (die n : Nat) (f : VSlot → VSlot) : (s.onVslot die n f).sets = s.sets := rfl
@[simp] theorem State.onVslot_via (s : State) (die n : Nat) (f : VSlot → VSlot) : (s.onVslot die n f).via = fmod VSlot.reset (die * 16 + n) f s.via := rfl
@[simp] theorem State.onVslot_cmds (s : State) (die n : Nat) (f : VSlot → VSlot) : (s.onVslot die n f).cmds = s.cmds := rfl
@[simp] theorem State.onVslot_faces (s : State) (die n : Nat) (f : VSlot → VSlot) : (s.onVslot die n f).faces = s.faces := rfl
@[simp] theorem State.onVslot_sched (s : State) (die n : Nat) (f : VSlot → VSlot) : (s.onVslot die n f).sched = s.sched := rfl
@[simp] theorem State.onVslot_xl (s : State) (die n : Nat) (f : VSlot → VSlot) : (s.onVslot die n f).xl = s.xl := rfl
@[simp] theorem State.onVslot_fab (s : State) (die n : Nat) (f : VSlot → VSlot) : (s.onVslot die n f).fab = s.fab := rfl
@[simp] theorem State.onVslot_host (s : State) (die n : Nat) (f : VSlot → VSlot) : (s.onVslot die n f).host = s.host := rfl
@[simp] theorem State.onVslot_running (s : State) (die n : Nat) (f : VSlot → VSlot) : (s.onVslot die n f).running = s.running := rfl
@[simp] theorem State.onVslot_dark (s : State) (die n : Nat) (f : VSlot → VSlot) : (s.onVslot die n f).dark = s.dark := rfl
@[simp] theorem State.onVslot_bad (s : State) (die n : Nat) (f : VSlot → VSlot) : (s.onVslot die n f).bad = s.bad := rfl

/-! `State.onCmd`. -/

@[simp] theorem State.onCmd_cfg (s : State) (id : Nat) (f : Cmd → Cmd) : (s.onCmd id f).cfg = s.cfg := rfl
@[simp] theorem State.onCmd_clk (s : State) (id : Nat) (f : Cmd → Cmd) : (s.onCmd id f).clk = s.clk := rfl
@[simp] theorem State.onCmd_cid (s : State) (id : Nat) (f : Cmd → Cmd) : (s.onCmd id f).cid = s.cid := rfl
@[simp] theorem State.onCmd_core (s : State) (id : Nat) (f : Cmd → Cmd) : (s.onCmd id f).core = s.core := rfl
@[simp] theorem State.onCmd_cores (s : State) (id : Nat) (f : Cmd → Cmd) : (s.onCmd id f).cores = s.cores := rfl
@[simp] theorem State.onCmd_mem (s : State) (id : Nat) (f : Cmd → Cmd) : (s.onCmd id f).mem = s.mem := rfl
@[simp] theorem State.onCmd_bar (s : State) (id : Nat) (f : Cmd → Cmd) : (s.onCmd id f).bar = s.bar := rfl
@[simp] theorem State.onCmd_lay (s : State) (id : Nat) (f : Cmd → Cmd) : (s.onCmd id f).lay = s.lay := rfl
@[simp] theorem State.onCmd_sets (s : State) (id : Nat) (f : Cmd → Cmd) : (s.onCmd id f).sets = s.sets := rfl
@[simp] theorem State.onCmd_via (s : State) (id : Nat) (f : Cmd → Cmd) : (s.onCmd id f).via = s.via := rfl
@[simp] theorem State.onCmd_faces (s : State) (id : Nat) (f : Cmd → Cmd) : (s.onCmd id f).faces = s.faces := rfl
@[simp] theorem State.onCmd_sched (s : State) (id : Nat) (f : Cmd → Cmd) : (s.onCmd id f).sched = s.sched := rfl
@[simp] theorem State.onCmd_xl (s : State) (id : Nat) (f : Cmd → Cmd) : (s.onCmd id f).xl = s.xl := rfl
@[simp] theorem State.onCmd_fab (s : State) (id : Nat) (f : Cmd → Cmd) : (s.onCmd id f).fab = s.fab := rfl
@[simp] theorem State.onCmd_host (s : State) (id : Nat) (f : Cmd → Cmd) : (s.onCmd id f).host = s.host := rfl
@[simp] theorem State.onCmd_running (s : State) (id : Nat) (f : Cmd → Cmd) : (s.onCmd id f).running = s.running := rfl
@[simp] theorem State.onCmd_dark (s : State) (id : Nat) (f : Cmd → Cmd) : (s.onCmd id f).dark = s.dark := rfl
@[simp] theorem State.onCmd_bad (s : State) (id : Nat) (f : Cmd → Cmd) : (s.onCmd id f).bad = s.bad := rfl

/-! `State.wrByte`. -/

@[simp] theorem State.wrByte_cfg (s : State) (pa : Nat) (b : BitVec 8) : (s.wrByte pa b).cfg = s.cfg := rfl
@[simp] theorem State.wrByte_clk (s : State) (pa : Nat) (b : BitVec 8) : (s.wrByte pa b).clk = s.clk := rfl
@[simp] theorem State.wrByte_cid (s : State) (pa : Nat) (b : BitVec 8) : (s.wrByte pa b).cid = s.cid := rfl
@[simp] theorem State.wrByte_core (s : State) (pa : Nat) (b : BitVec 8) : (s.wrByte pa b).core = s.core := rfl
@[simp] theorem State.wrByte_cores (s : State) (pa : Nat) (b : BitVec 8) : (s.wrByte pa b).cores = s.cores := rfl
@[simp] theorem State.wrByte_mem (s : State) (pa : Nat) (b : BitVec 8) : (s.wrByte pa b).mem = fput 0 pa b s.mem := rfl
@[simp] theorem State.wrByte_bar (s : State) (pa : Nat) (b : BitVec 8) : (s.wrByte pa b).bar = s.bar := rfl
@[simp] theorem State.wrByte_lay (s : State) (pa : Nat) (b : BitVec 8) : (s.wrByte pa b).lay = s.lay := rfl
@[simp] theorem State.wrByte_sets (s : State) (pa : Nat) (b : BitVec 8) : (s.wrByte pa b).sets = s.sets := rfl
@[simp] theorem State.wrByte_via (s : State) (pa : Nat) (b : BitVec 8) : (s.wrByte pa b).via = s.via := rfl
@[simp] theorem State.wrByte_cmds (s : State) (pa : Nat) (b : BitVec 8) : (s.wrByte pa b).cmds = s.cmds := rfl
@[simp] theorem State.wrByte_faces (s : State) (pa : Nat) (b : BitVec 8) : (s.wrByte pa b).faces = s.faces := rfl
@[simp] theorem State.wrByte_sched (s : State) (pa : Nat) (b : BitVec 8) : (s.wrByte pa b).sched = s.sched := rfl
@[simp] theorem State.wrByte_xl (s : State) (pa : Nat) (b : BitVec 8) : (s.wrByte pa b).xl = s.xl := rfl
@[simp] theorem State.wrByte_fab (s : State) (pa : Nat) (b : BitVec 8) : (s.wrByte pa b).fab = s.fab := rfl
@[simp] theorem State.wrByte_host (s : State) (pa : Nat) (b : BitVec 8) : (s.wrByte pa b).host = s.host := rfl
@[simp] theorem State.wrByte_running (s : State) (pa : Nat) (b : BitVec 8) : (s.wrByte pa b).running = s.running := rfl
@[simp] theorem State.wrByte_dark (s : State) (pa : Nat) (b : BitVec 8) : (s.wrByte pa b).dark = s.dark := rfl
@[simp] theorem State.wrByte_bad (s : State) (pa : Nat) (b : BitVec 8) : (s.wrByte pa b).bad = repaired s.bad pa 1 := rfl

/-! `State.wrBytes`. -/

@[simp] theorem State.wrBytes_cfg (s : State) (pa : Nat) (bs : List (BitVec 8)) : (s.wrBytes pa bs).cfg = s.cfg := rfl
@[simp] theorem State.wrBytes_clk (s : State) (pa : Nat) (bs : List (BitVec 8)) : (s.wrBytes pa bs).clk = s.clk := rfl
@[simp] theorem State.wrBytes_cid (s : State) (pa : Nat) (bs : List (BitVec 8)) : (s.wrBytes pa bs).cid = s.cid := rfl
@[simp] theorem State.wrBytes_core (s : State) (pa : Nat) (bs : List (BitVec 8)) : (s.wrBytes pa bs).core = s.core := rfl
@[simp] theorem State.wrBytes_cores (s : State) (pa : Nat) (bs : List (BitVec 8)) : (s.wrBytes pa bs).cores = s.cores := rfl
@[simp] theorem State.wrBytes_mem (s : State) (pa : Nat) (bs : List (BitVec 8)) : (s.wrBytes pa bs).mem = memWrite s.mem pa bs := rfl
@[simp] theorem State.wrBytes_bar (s : State) (pa : Nat) (bs : List (BitVec 8)) : (s.wrBytes pa bs).bar = s.bar := rfl
@[simp] theorem State.wrBytes_lay (s : State) (pa : Nat) (bs : List (BitVec 8)) : (s.wrBytes pa bs).lay = s.lay := rfl
@[simp] theorem State.wrBytes_sets (s : State) (pa : Nat) (bs : List (BitVec 8)) : (s.wrBytes pa bs).sets = s.sets := rfl
@[simp] theorem State.wrBytes_via (s : State) (pa : Nat) (bs : List (BitVec 8)) : (s.wrBytes pa bs).via = s.via := rfl
@[simp] theorem State.wrBytes_cmds (s : State) (pa : Nat) (bs : List (BitVec 8)) : (s.wrBytes pa bs).cmds = s.cmds := rfl
@[simp] theorem State.wrBytes_faces (s : State) (pa : Nat) (bs : List (BitVec 8)) : (s.wrBytes pa bs).faces = s.faces := rfl
@[simp] theorem State.wrBytes_sched (s : State) (pa : Nat) (bs : List (BitVec 8)) : (s.wrBytes pa bs).sched = s.sched := rfl
@[simp] theorem State.wrBytes_xl (s : State) (pa : Nat) (bs : List (BitVec 8)) : (s.wrBytes pa bs).xl = s.xl := rfl
@[simp] theorem State.wrBytes_fab (s : State) (pa : Nat) (bs : List (BitVec 8)) : (s.wrBytes pa bs).fab = s.fab := rfl
@[simp] theorem State.wrBytes_host (s : State) (pa : Nat) (bs : List (BitVec 8)) : (s.wrBytes pa bs).host = s.host := rfl
@[simp] theorem State.wrBytes_running (s : State) (pa : Nat) (bs : List (BitVec 8)) : (s.wrBytes pa bs).running = s.running := rfl
@[simp] theorem State.wrBytes_dark (s : State) (pa : Nat) (bs : List (BitVec 8)) : (s.wrBytes pa bs).dark = s.dark := rfl
@[simp] theorem State.wrBytes_bad (s : State) (pa : Nat) (bs : List (BitVec 8)) : (s.wrBytes pa bs).bad = repaired s.bad pa bs.length := rfl

/-! `State.wr`. -/

@[simp] theorem State.wr_cfg (s : State) (pa n v : Nat) : (s.wr pa n v).cfg = s.cfg := rfl
@[simp] theorem State.wr_clk (s : State) (pa n v : Nat) : (s.wr pa n v).clk = s.clk := rfl
@[simp] theorem State.wr_cid (s : State) (pa n v : Nat) : (s.wr pa n v).cid = s.cid := rfl
@[simp] theorem State.wr_core (s : State) (pa n v : Nat) : (s.wr pa n v).core = s.core := rfl
@[simp] theorem State.wr_cores (s : State) (pa n v : Nat) : (s.wr pa n v).cores = s.cores := rfl
@[simp] theorem State.wr_mem (s : State) (pa n v : Nat) : (s.wr pa n v).mem = memWrite s.mem pa (natLe n v) := rfl
@[simp] theorem State.wr_bar (s : State) (pa n v : Nat) : (s.wr pa n v).bar = s.bar := rfl
@[simp] theorem State.wr_lay (s : State) (pa n v : Nat) : (s.wr pa n v).lay = s.lay := rfl
@[simp] theorem State.wr_sets (s : State) (pa n v : Nat) : (s.wr pa n v).sets = s.sets := rfl
@[simp] theorem State.wr_via (s : State) (pa n v : Nat) : (s.wr pa n v).via = s.via := rfl
@[simp] theorem State.wr_cmds (s : State) (pa n v : Nat) : (s.wr pa n v).cmds = s.cmds := rfl
@[simp] theorem State.wr_faces (s : State) (pa n v : Nat) : (s.wr pa n v).faces = s.faces := rfl
@[simp] theorem State.wr_sched (s : State) (pa n v : Nat) : (s.wr pa n v).sched = s.sched := rfl
@[simp] theorem State.wr_xl (s : State) (pa n v : Nat) : (s.wr pa n v).xl = s.xl := rfl
@[simp] theorem State.wr_fab (s : State) (pa n v : Nat) : (s.wr pa n v).fab = s.fab := rfl
@[simp] theorem State.wr_host (s : State) (pa n v : Nat) : (s.wr pa n v).host = s.host := rfl
@[simp] theorem State.wr_running (s : State) (pa n v : Nat) : (s.wr pa n v).running = s.running := rfl
@[simp] theorem State.wr_dark (s : State) (pa n v : Nat) : (s.wr pa n v).dark = s.dark := rfl
@[simp] theorem State.wr_bad (s : State) (pa n v : Nat) : (s.wr pa n v).bad = repaired s.bad pa (natLe n v).length := rfl

/-! `State.emit`. -/

@[simp] theorem State.emit_cfg (s : State) (L : Nat) (e : Eff) : (s.emit L e).cfg = s.cfg := rfl
@[simp] theorem State.emit_clk (s : State) (L : Nat) (e : Eff) : (s.emit L e).clk = s.clk := rfl
@[simp] theorem State.emit_cid (s : State) (L : Nat) (e : Eff) : (s.emit L e).cid = s.cid := rfl
@[simp] theorem State.emit_cores (s : State) (L : Nat) (e : Eff) : (s.emit L e).cores = s.cores := rfl
@[simp] theorem State.emit_mem (s : State) (L : Nat) (e : Eff) : (s.emit L e).mem = s.mem := rfl
@[simp] theorem State.emit_bar (s : State) (L : Nat) (e : Eff) : (s.emit L e).bar = s.bar := rfl
@[simp] theorem State.emit_lay (s : State) (L : Nat) (e : Eff) : (s.emit L e).lay = s.lay := rfl
@[simp] theorem State.emit_sets (s : State) (L : Nat) (e : Eff) : (s.emit L e).sets = s.sets := rfl
@[simp] theorem State.emit_via (s : State) (L : Nat) (e : Eff) : (s.emit L e).via = s.via := rfl
@[simp] theorem State.emit_cmds (s : State) (L : Nat) (e : Eff) : (s.emit L e).cmds = s.cmds := rfl
@[simp] theorem State.emit_faces (s : State) (L : Nat) (e : Eff) : (s.emit L e).faces = s.faces := rfl
@[simp] theorem State.emit_sched (s : State) (L : Nat) (e : Eff) : (s.emit L e).sched = s.sched := rfl
@[simp] theorem State.emit_xl (s : State) (L : Nat) (e : Eff) : (s.emit L e).xl = s.xl := rfl
@[simp] theorem State.emit_fab (s : State) (L : Nat) (e : Eff) : (s.emit L e).fab = s.fab := rfl
@[simp] theorem State.emit_host (s : State) (L : Nat) (e : Eff) : (s.emit L e).host = s.host := rfl
@[simp] theorem State.emit_running (s : State) (L : Nat) (e : Eff) : (s.emit L e).running = s.running := rfl
@[simp] theorem State.emit_dark (s : State) (L : Nat) (e : Eff) : (s.emit L e).dark = s.dark := rfl
@[simp] theorem State.emit_bad (s : State) (L : Nat) (e : Eff) : (s.emit L e).bad = s.bad := rfl

/-! `State.emitEnd`. -/

@[simp] theorem State.emitEnd_cfg (s : State) (e : Eff) : (s.emitEnd e).cfg = s.cfg := rfl
@[simp] theorem State.emitEnd_clk (s : State) (e : Eff) : (s.emitEnd e).clk = s.clk := rfl
@[simp] theorem State.emitEnd_cid (s : State) (e : Eff) : (s.emitEnd e).cid = s.cid := rfl
@[simp] theorem State.emitEnd_cores (s : State) (e : Eff) : (s.emitEnd e).cores = s.cores := rfl
@[simp] theorem State.emitEnd_mem (s : State) (e : Eff) : (s.emitEnd e).mem = s.mem := rfl
@[simp] theorem State.emitEnd_bar (s : State) (e : Eff) : (s.emitEnd e).bar = s.bar := rfl
@[simp] theorem State.emitEnd_lay (s : State) (e : Eff) : (s.emitEnd e).lay = s.lay := rfl
@[simp] theorem State.emitEnd_sets (s : State) (e : Eff) : (s.emitEnd e).sets = s.sets := rfl
@[simp] theorem State.emitEnd_via (s : State) (e : Eff) : (s.emitEnd e).via = s.via := rfl
@[simp] theorem State.emitEnd_cmds (s : State) (e : Eff) : (s.emitEnd e).cmds = s.cmds := rfl
@[simp] theorem State.emitEnd_faces (s : State) (e : Eff) : (s.emitEnd e).faces = s.faces := rfl
@[simp] theorem State.emitEnd_sched (s : State) (e : Eff) : (s.emitEnd e).sched = s.sched := rfl
@[simp] theorem State.emitEnd_xl (s : State) (e : Eff) : (s.emitEnd e).xl = s.xl := rfl
@[simp] theorem State.emitEnd_fab (s : State) (e : Eff) : (s.emitEnd e).fab = s.fab := rfl
@[simp] theorem State.emitEnd_host (s : State) (e : Eff) : (s.emitEnd e).host = s.host := rfl
@[simp] theorem State.emitEnd_running (s : State) (e : Eff) : (s.emitEnd e).running = s.running := rfl
@[simp] theorem State.emitEnd_dark (s : State) (e : Eff) : (s.emitEnd e).dark = s.dark := rfl
@[simp] theorem State.emitEnd_bad (s : State) (e : Eff) : (s.emitEnd e).bad = s.bad := rfl

/-! `State.emitDue`. -/

@[simp] theorem State.emitDue_cfg (s : State) (due : Nat) (e : Eff) : (s.emitDue due e).cfg = s.cfg := rfl
@[simp] theorem State.emitDue_clk (s : State) (due : Nat) (e : Eff) : (s.emitDue due e).clk = s.clk := rfl
@[simp] theorem State.emitDue_cid (s : State) (due : Nat) (e : Eff) : (s.emitDue due e).cid = s.cid := rfl
@[simp] theorem State.emitDue_cores (s : State) (due : Nat) (e : Eff) : (s.emitDue due e).cores = s.cores := rfl
@[simp] theorem State.emitDue_mem (s : State) (due : Nat) (e : Eff) : (s.emitDue due e).mem = s.mem := rfl
@[simp] theorem State.emitDue_bar (s : State) (due : Nat) (e : Eff) : (s.emitDue due e).bar = s.bar := rfl
@[simp] theorem State.emitDue_lay (s : State) (due : Nat) (e : Eff) : (s.emitDue due e).lay = s.lay := rfl
@[simp] theorem State.emitDue_sets (s : State) (due : Nat) (e : Eff) : (s.emitDue due e).sets = s.sets := rfl
@[simp] theorem State.emitDue_via (s : State) (due : Nat) (e : Eff) : (s.emitDue due e).via = s.via := rfl
@[simp] theorem State.emitDue_cmds (s : State) (due : Nat) (e : Eff) : (s.emitDue due e).cmds = s.cmds := rfl
@[simp] theorem State.emitDue_faces (s : State) (due : Nat) (e : Eff) : (s.emitDue due e).faces = s.faces := rfl
@[simp] theorem State.emitDue_sched (s : State) (due : Nat) (e : Eff) : (s.emitDue due e).sched = s.sched := rfl
@[simp] theorem State.emitDue_xl (s : State) (due : Nat) (e : Eff) : (s.emitDue due e).xl = s.xl := rfl
@[simp] theorem State.emitDue_fab (s : State) (due : Nat) (e : Eff) : (s.emitDue due e).fab = s.fab := rfl
@[simp] theorem State.emitDue_host (s : State) (due : Nat) (e : Eff) : (s.emitDue due e).host = s.host := rfl
@[simp] theorem State.emitDue_running (s : State) (due : Nat) (e : Eff) : (s.emitDue due e).running = s.running := rfl
@[simp] theorem State.emitDue_dark (s : State) (due : Nat) (e : Eff) : (s.emitDue due e).dark = s.dark := rfl
@[simp] theorem State.emitDue_bad (s : State) (due : Nat) (e : Eff) : (s.emitDue due e).bad = s.bad := rfl

/-! `State.raise`. -/

@[simp] theorem State.raise_cfg (s : State) (t : Trap) : (s.raise t).cfg = s.cfg := rfl
@[simp] theorem State.raise_clk (s : State) (t : Trap) : (s.raise t).clk = s.clk := rfl
@[simp] theorem State.raise_cid (s : State) (t : Trap) : (s.raise t).cid = s.cid := rfl
@[simp] theorem State.raise_cores (s : State) (t : Trap) : (s.raise t).cores = s.cores := rfl
@[simp] theorem State.raise_mem (s : State) (t : Trap) : (s.raise t).mem = s.mem := rfl
@[simp] theorem State.raise_bar (s : State) (t : Trap) : (s.raise t).bar = s.bar := rfl
@[simp] theorem State.raise_lay (s : State) (t : Trap) : (s.raise t).lay = s.lay := rfl
@[simp] theorem State.raise_sets (s : State) (t : Trap) : (s.raise t).sets = s.sets := rfl
@[simp] theorem State.raise_via (s : State) (t : Trap) : (s.raise t).via = s.via := rfl
@[simp] theorem State.raise_cmds (s : State) (t : Trap) : (s.raise t).cmds = s.cmds := rfl
@[simp] theorem State.raise_faces (s : State) (t : Trap) : (s.raise t).faces = s.faces := rfl
@[simp] theorem State.raise_sched (s : State) (t : Trap) : (s.raise t).sched = s.sched := rfl
@[simp] theorem State.raise_xl (s : State) (t : Trap) : (s.raise t).xl = s.xl := rfl
@[simp] theorem State.raise_fab (s : State) (t : Trap) : (s.raise t).fab = s.fab := rfl
@[simp] theorem State.raise_host (s : State) (t : Trap) : (s.raise t).host = s.host := rfl
@[simp] theorem State.raise_running (s : State) (t : Trap) : (s.raise t).running = s.running := rfl
@[simp] theorem State.raise_dark (s : State) (t : Trap) : (s.raise t).dark = s.dark := rfl
@[simp] theorem State.raise_bad (s : State) (t : Trap) : (s.raise t).bad = s.bad := rfl

/-! `State.choose`. -/

@[simp] theorem State.choose_cfg (s : State) (o : Nat) (x : Option (BitVec 56)) : (s.choose o x).cfg = s.cfg := rfl
@[simp] theorem State.choose_clk (s : State) (o : Nat) (x : Option (BitVec 56)) : (s.choose o x).clk = s.clk := rfl
@[simp] theorem State.choose_cid (s : State) (o : Nat) (x : Option (BitVec 56)) : (s.choose o x).cid = s.cid := rfl
@[simp] theorem State.choose_cores (s : State) (o : Nat) (x : Option (BitVec 56)) : (s.choose o x).cores = s.cores := rfl
@[simp] theorem State.choose_mem (s : State) (o : Nat) (x : Option (BitVec 56)) : (s.choose o x).mem = s.mem := rfl
@[simp] theorem State.choose_bar (s : State) (o : Nat) (x : Option (BitVec 56)) : (s.choose o x).bar = s.bar := rfl
@[simp] theorem State.choose_lay (s : State) (o : Nat) (x : Option (BitVec 56)) : (s.choose o x).lay = s.lay := rfl
@[simp] theorem State.choose_sets (s : State) (o : Nat) (x : Option (BitVec 56)) : (s.choose o x).sets = s.sets := rfl
@[simp] theorem State.choose_via (s : State) (o : Nat) (x : Option (BitVec 56)) : (s.choose o x).via = s.via := rfl
@[simp] theorem State.choose_cmds (s : State) (o : Nat) (x : Option (BitVec 56)) : (s.choose o x).cmds = s.cmds := rfl
@[simp] theorem State.choose_faces (s : State) (o : Nat) (x : Option (BitVec 56)) : (s.choose o x).faces = s.faces := rfl
@[simp] theorem State.choose_sched (s : State) (o : Nat) (x : Option (BitVec 56)) : (s.choose o x).sched = s.sched := rfl
@[simp] theorem State.choose_xl (s : State) (o : Nat) (x : Option (BitVec 56)) : (s.choose o x).xl = s.xl := rfl
@[simp] theorem State.choose_fab (s : State) (o : Nat) (x : Option (BitVec 56)) : (s.choose o x).fab = s.fab := rfl
@[simp] theorem State.choose_host (s : State) (o : Nat) (x : Option (BitVec 56)) : (s.choose o x).host = s.host := rfl
@[simp] theorem State.choose_running (s : State) (o : Nat) (x : Option (BitVec 56)) : (s.choose o x).running = s.running := rfl
@[simp] theorem State.choose_dark (s : State) (o : Nat) (x : Option (BitVec 56)) : (s.choose o x).dark = s.dark := rfl
@[simp] theorem State.choose_bad (s : State) (o : Nat) (x : Option (BitVec 56)) : (s.choose o x).bad = s.bad := rfl

/-! `State.setCont`. -/

@[simp] theorem State.setCont_cfg (s : State) (key : Nat) (c : Option Cont) : (s.setCont key c).cfg = s.cfg := rfl
@[simp] theorem State.setCont_clk (s : State) (key : Nat) (c : Option Cont) : (s.setCont key c).clk = s.clk := rfl
@[simp] theorem State.setCont_cid (s : State) (key : Nat) (c : Option Cont) : (s.setCont key c).cid = s.cid := rfl
@[simp] theorem State.setCont_core (s : State) (key : Nat) (c : Option Cont) : (s.setCont key c).core = s.core := rfl
@[simp] theorem State.setCont_cores (s : State) (key : Nat) (c : Option Cont) : (s.setCont key c).cores = s.cores := rfl
@[simp] theorem State.setCont_mem (s : State) (key : Nat) (c : Option Cont) : (s.setCont key c).mem = s.mem := rfl
@[simp] theorem State.setCont_bar (s : State) (key : Nat) (c : Option Cont) : (s.setCont key c).bar = s.bar := rfl
@[simp] theorem State.setCont_lay (s : State) (key : Nat) (c : Option Cont) : (s.setCont key c).lay = s.lay := rfl
@[simp] theorem State.setCont_sets (s : State) (key : Nat) (c : Option Cont) : (s.setCont key c).sets = s.sets := rfl
@[simp] theorem State.setCont_via (s : State) (key : Nat) (c : Option Cont) : (s.setCont key c).via = s.via := rfl
@[simp] theorem State.setCont_cmds (s : State) (key : Nat) (c : Option Cont) : (s.setCont key c).cmds = s.cmds := rfl
@[simp] theorem State.setCont_faces (s : State) (key : Nat) (c : Option Cont) : (s.setCont key c).faces = s.faces := rfl
@[simp] theorem State.setCont_xl (s : State) (key : Nat) (c : Option Cont) : (s.setCont key c).xl = s.xl := rfl
@[simp] theorem State.setCont_fab (s : State) (key : Nat) (c : Option Cont) : (s.setCont key c).fab = s.fab := rfl
@[simp] theorem State.setCont_host (s : State) (key : Nat) (c : Option Cont) : (s.setCont key c).host = s.host := rfl
@[simp] theorem State.setCont_running (s : State) (key : Nat) (c : Option Cont) : (s.setCont key c).running = s.running := rfl
@[simp] theorem State.setCont_dark (s : State) (key : Nat) (c : Option Cont) : (s.setCont key c).dark = s.dark := rfl
@[simp] theorem State.setCont_bad (s : State) (key : Nat) (c : Option Cont) : (s.setCont key c).bad = s.bad := rfl

/-! `State.onCont`. -/

@[simp] theorem State.onCont_cfg (s : State) (key : Nat) (f : Cont → Cont) : (s.onCont key f).cfg = s.cfg := by unfold State.onCont; split <;> rfl
@[simp] theorem State.onCont_clk (s : State) (key : Nat) (f : Cont → Cont) : (s.onCont key f).clk = s.clk := by unfold State.onCont; split <;> rfl
@[simp] theorem State.onCont_cid (s : State) (key : Nat) (f : Cont → Cont) : (s.onCont key f).cid = s.cid := by unfold State.onCont; split <;> rfl
@[simp] theorem State.onCont_core (s : State) (key : Nat) (f : Cont → Cont) : (s.onCont key f).core = s.core := by unfold State.onCont; split <;> rfl
@[simp] theorem State.onCont_cores (s : State) (key : Nat) (f : Cont → Cont) : (s.onCont key f).cores = s.cores := by unfold State.onCont; split <;> rfl
@[simp] theorem State.onCont_mem (s : State) (key : Nat) (f : Cont → Cont) : (s.onCont key f).mem = s.mem := by unfold State.onCont; split <;> rfl
@[simp] theorem State.onCont_bar (s : State) (key : Nat) (f : Cont → Cont) : (s.onCont key f).bar = s.bar := by unfold State.onCont; split <;> rfl
@[simp] theorem State.onCont_lay (s : State) (key : Nat) (f : Cont → Cont) : (s.onCont key f).lay = s.lay := by unfold State.onCont; split <;> rfl
@[simp] theorem State.onCont_sets (s : State) (key : Nat) (f : Cont → Cont) : (s.onCont key f).sets = s.sets := by unfold State.onCont; split <;> rfl
@[simp] theorem State.onCont_via (s : State) (key : Nat) (f : Cont → Cont) : (s.onCont key f).via = s.via := by unfold State.onCont; split <;> rfl
@[simp] theorem State.onCont_cmds (s : State) (key : Nat) (f : Cont → Cont) : (s.onCont key f).cmds = s.cmds := by unfold State.onCont; split <;> rfl
@[simp] theorem State.onCont_faces (s : State) (key : Nat) (f : Cont → Cont) : (s.onCont key f).faces = s.faces := by unfold State.onCont; split <;> rfl
@[simp] theorem State.onCont_xl (s : State) (key : Nat) (f : Cont → Cont) : (s.onCont key f).xl = s.xl := by unfold State.onCont; split <;> rfl
@[simp] theorem State.onCont_fab (s : State) (key : Nat) (f : Cont → Cont) : (s.onCont key f).fab = s.fab := by unfold State.onCont; split <;> rfl
@[simp] theorem State.onCont_host (s : State) (key : Nat) (f : Cont → Cont) : (s.onCont key f).host = s.host := by unfold State.onCont; split <;> rfl
@[simp] theorem State.onCont_running (s : State) (key : Nat) (f : Cont → Cont) : (s.onCont key f).running = s.running := by unfold State.onCont; split <;> rfl
@[simp] theorem State.onCont_dark (s : State) (key : Nat) (f : Cont → Cont) : (s.onCont key f).dark = s.dark := by unfold State.onCont; split <;> rfl
@[simp] theorem State.onCont_bad (s : State) (key : Nat) (f : Cont → Cont) : (s.onCont key f).bad = s.bad := by unfold State.onCont; split <;> rfl

/-! `State.setMode`. -/

@[simp] theorem State.setMode_cfg (s : State) (m : Mode) : (s.setMode m).cfg = s.cfg := rfl
@[simp] theorem State.setMode_clk (s : State) (m : Mode) : (s.setMode m).clk = s.clk := rfl
@[simp] theorem State.setMode_cid (s : State) (m : Mode) : (s.setMode m).cid = s.cid := rfl
@[simp] theorem State.setMode_core (s : State) (m : Mode) : (s.setMode m).core = { s.core with mode := m } := rfl
@[simp] theorem State.setMode_cores (s : State) (m : Mode) : (s.setMode m).cores = s.cores := rfl
@[simp] theorem State.setMode_mem (s : State) (m : Mode) : (s.setMode m).mem = s.mem := rfl
@[simp] theorem State.setMode_bar (s : State) (m : Mode) : (s.setMode m).bar = s.bar := rfl
@[simp] theorem State.setMode_lay (s : State) (m : Mode) : (s.setMode m).lay = s.lay := rfl
@[simp] theorem State.setMode_sets (s : State) (m : Mode) : (s.setMode m).sets = s.sets := rfl
@[simp] theorem State.setMode_via (s : State) (m : Mode) : (s.setMode m).via = s.via := rfl
@[simp] theorem State.setMode_cmds (s : State) (m : Mode) : (s.setMode m).cmds = s.cmds := rfl
@[simp] theorem State.setMode_faces (s : State) (m : Mode) : (s.setMode m).faces = s.faces := rfl
@[simp] theorem State.setMode_sched (s : State) (m : Mode) : (s.setMode m).sched = s.sched := rfl
@[simp] theorem State.setMode_xl (s : State) (m : Mode) : (s.setMode m).xl = s.xl := rfl
@[simp] theorem State.setMode_fab (s : State) (m : Mode) : (s.setMode m).fab = s.fab := rfl
@[simp] theorem State.setMode_host (s : State) (m : Mode) : (s.setMode m).host = s.host := rfl
@[simp] theorem State.setMode_running (s : State) (m : Mode) : (s.setMode m).running = s.running := rfl
@[simp] theorem State.setMode_dark (s : State) (m : Mode) : (s.setMode m).dark = s.dark := rfl
@[simp] theorem State.setMode_bad (s : State) (m : Mode) : (s.setMode m).bad = s.bad := rfl

/-! The core after `State.emit`. -/

@[simp] theorem State.emit_core_res (s : State) (L : Nat) (e : Eff) : (s.emit L e).core.res = s.core.res := rfl
@[simp] theorem State.emit_core_jcb (s : State) (L : Nat) (e : Eff) : (s.emit L e).core.jcb = s.core.jcb := rfl
@[simp] theorem State.emit_core_mode (s : State) (L : Nat) (e : Eff) : (s.emit L e).core.mode = s.core.mode := rfl
@[simp] theorem State.emit_core_ctx (s : State) (L : Nat) (e : Eff) : (s.emit L e).core.ctx = s.core.ctx := rfl
@[simp] theorem State.emit_core_amem (s : State) (L : Nat) (e : Eff) : (s.emit L e).core.amem = s.core.amem := rfl
@[simp] theorem State.emit_core_wmem (s : State) (L : Nat) (e : Eff) : (s.emit L e).core.wmem = s.core.wmem := rfl
@[simp] theorem State.emit_core_atile (s : State) (L : Nat) (e : Eff) : (s.emit L e).core.atile = s.core.atile := rfl
@[simp] theorem State.emit_core_wtile (s : State) (L : Nat) (e : Eff) : (s.emit L e).core.wtile = s.core.wtile := rfl
@[simp] theorem State.emit_core_mrfCap (s : State) (L : Nat) (e : Eff) : (s.emit L e).core.mrfCap = s.core.mrfCap := rfl
@[simp] theorem State.emit_core_l1d (s : State) (L : Nat) (e : Eff) : (s.emit L e).core.l1d = s.core.l1d := rfl
@[simp] theorem State.emit_core_l1i (s : State) (L : Nat) (e : Eff) : (s.emit L e).core.l1i = s.core.l1i := rfl
@[simp] theorem State.emit_core_tc (s : State) (L : Nat) (e : Eff) : (s.emit L e).core.tc = s.core.tc := rfl
@[simp] theorem State.emit_core_loadQ (s : State) (L : Nat) (e : Eff) : (s.emit L e).core.loadQ = s.core.loadQ := rfl
@[simp] theorem State.emit_core_storeQ (s : State) (L : Nat) (e : Eff) : (s.emit L e).core.storeQ = s.core.storeQ := rfl
@[simp] theorem State.emit_core_outst (s : State) (L : Nat) (e : Eff) : (s.emit L e).core.outst = s.core.outst := rfl
@[simp] theorem State.emit_core_pend (s : State) (L : Nat) (e : Eff) : (s.emit L e).core.pend = s.core.pend := rfl
@[simp] theorem State.emit_core_rep (s : State) (L : Nat) (e : Eff) : (s.emit L e).core.rep = s.core.rep := rfl
@[simp] theorem State.emit_core_words (s : State) (L : Nat) (e : Eff) : (s.emit L e).core.words = s.core.words := rfl
@[simp] theorem State.emit_core_lastPc (s : State) (L : Nat) (e : Eff) : (s.emit L e).core.lastPc = s.core.lastPc := rfl
@[simp] theorem State.emit_core_issueAt (s : State) (L : Nat) (e : Eff) : (s.emit L e).core.issueAt = s.core.issueAt := rfl
@[simp] theorem State.emit_core_saveDone (s : State) (L : Nat) (e : Eff) : (s.emit L e).core.saveDone = s.core.saveDone := rfl
@[simp] theorem State.emit_core_mxFree (s : State) (L : Nat) (e : Eff) : (s.emit L e).core.mxFree = s.core.mxFree := rfl
@[simp] theorem State.emit_core_spCount (s : State) (L : Nat) (e : Eff) : (s.emit L e).core.spCount = s.core.spCount := rfl
@[simp] theorem State.emit_core_charged (s : State) (L : Nat) (e : Eff) : (s.emit L e).core.charged = s.core.charged := rfl
@[simp] theorem State.emit_core_padBad (s : State) (L : Nat) (e : Eff) : (s.emit L e).core.padBad = s.core.padBad := rfl
@[simp] theorem State.emit_core_accBad (s : State) (L : Nat) (e : Eff) : (s.emit L e).core.accBad = s.core.accBad := rfl
@[simp] theorem State.emit_core_dropFrom (s : State) (L : Nat) (e : Eff) : (s.emit L e).core.dropFrom = s.core.dropFrom := rfl

/-! The core after `State.emitEnd`. -/

@[simp] theorem State.emitEnd_core_res (s : State) (e : Eff) : (s.emitEnd e).core.res = s.core.res := rfl
@[simp] theorem State.emitEnd_core_jcb (s : State) (e : Eff) : (s.emitEnd e).core.jcb = s.core.jcb := rfl
@[simp] theorem State.emitEnd_core_mode (s : State) (e : Eff) : (s.emitEnd e).core.mode = s.core.mode := rfl
@[simp] theorem State.emitEnd_core_ctx (s : State) (e : Eff) : (s.emitEnd e).core.ctx = s.core.ctx := rfl
@[simp] theorem State.emitEnd_core_amem (s : State) (e : Eff) : (s.emitEnd e).core.amem = s.core.amem := rfl
@[simp] theorem State.emitEnd_core_wmem (s : State) (e : Eff) : (s.emitEnd e).core.wmem = s.core.wmem := rfl
@[simp] theorem State.emitEnd_core_atile (s : State) (e : Eff) : (s.emitEnd e).core.atile = s.core.atile := rfl
@[simp] theorem State.emitEnd_core_wtile (s : State) (e : Eff) : (s.emitEnd e).core.wtile = s.core.wtile := rfl
@[simp] theorem State.emitEnd_core_mrfCap (s : State) (e : Eff) : (s.emitEnd e).core.mrfCap = s.core.mrfCap := rfl
@[simp] theorem State.emitEnd_core_l1d (s : State) (e : Eff) : (s.emitEnd e).core.l1d = s.core.l1d := rfl
@[simp] theorem State.emitEnd_core_l1i (s : State) (e : Eff) : (s.emitEnd e).core.l1i = s.core.l1i := rfl
@[simp] theorem State.emitEnd_core_tc (s : State) (e : Eff) : (s.emitEnd e).core.tc = s.core.tc := rfl
@[simp] theorem State.emitEnd_core_loadQ (s : State) (e : Eff) : (s.emitEnd e).core.loadQ = s.core.loadQ := rfl
@[simp] theorem State.emitEnd_core_storeQ (s : State) (e : Eff) : (s.emitEnd e).core.storeQ = s.core.storeQ := rfl
@[simp] theorem State.emitEnd_core_outst (s : State) (e : Eff) : (s.emitEnd e).core.outst = s.core.outst := rfl
@[simp] theorem State.emitEnd_core_pend (s : State) (e : Eff) : (s.emitEnd e).core.pend = s.core.pend := rfl
@[simp] theorem State.emitEnd_core_rep (s : State) (e : Eff) : (s.emitEnd e).core.rep = s.core.rep := rfl
@[simp] theorem State.emitEnd_core_words (s : State) (e : Eff) : (s.emitEnd e).core.words = s.core.words := rfl
@[simp] theorem State.emitEnd_core_lastPc (s : State) (e : Eff) : (s.emitEnd e).core.lastPc = s.core.lastPc := rfl
@[simp] theorem State.emitEnd_core_issueAt (s : State) (e : Eff) : (s.emitEnd e).core.issueAt = s.core.issueAt := rfl
@[simp] theorem State.emitEnd_core_saveDone (s : State) (e : Eff) : (s.emitEnd e).core.saveDone = s.core.saveDone := rfl
@[simp] theorem State.emitEnd_core_mxFree (s : State) (e : Eff) : (s.emitEnd e).core.mxFree = s.core.mxFree := rfl
@[simp] theorem State.emitEnd_core_spCount (s : State) (e : Eff) : (s.emitEnd e).core.spCount = s.core.spCount := rfl
@[simp] theorem State.emitEnd_core_charged (s : State) (e : Eff) : (s.emitEnd e).core.charged = s.core.charged := rfl
@[simp] theorem State.emitEnd_core_padBad (s : State) (e : Eff) : (s.emitEnd e).core.padBad = s.core.padBad := rfl
@[simp] theorem State.emitEnd_core_accBad (s : State) (e : Eff) : (s.emitEnd e).core.accBad = s.core.accBad := rfl
@[simp] theorem State.emitEnd_core_dropFrom (s : State) (e : Eff) : (s.emitEnd e).core.dropFrom = s.core.dropFrom := rfl

/-! The core after `State.emitDue`. -/

@[simp] theorem State.emitDue_core_res (s : State) (due : Nat) (e : Eff) : (s.emitDue due e).core.res = s.core.res := rfl
@[simp] theorem State.emitDue_core_jcb (s : State) (due : Nat) (e : Eff) : (s.emitDue due e).core.jcb = s.core.jcb := rfl
@[simp] theorem State.emitDue_core_mode (s : State) (due : Nat) (e : Eff) : (s.emitDue due e).core.mode = s.core.mode := rfl
@[simp] theorem State.emitDue_core_ctx (s : State) (due : Nat) (e : Eff) : (s.emitDue due e).core.ctx = s.core.ctx := rfl
@[simp] theorem State.emitDue_core_amem (s : State) (due : Nat) (e : Eff) : (s.emitDue due e).core.amem = s.core.amem := rfl
@[simp] theorem State.emitDue_core_wmem (s : State) (due : Nat) (e : Eff) : (s.emitDue due e).core.wmem = s.core.wmem := rfl
@[simp] theorem State.emitDue_core_atile (s : State) (due : Nat) (e : Eff) : (s.emitDue due e).core.atile = s.core.atile := rfl
@[simp] theorem State.emitDue_core_wtile (s : State) (due : Nat) (e : Eff) : (s.emitDue due e).core.wtile = s.core.wtile := rfl
@[simp] theorem State.emitDue_core_mrfCap (s : State) (due : Nat) (e : Eff) : (s.emitDue due e).core.mrfCap = s.core.mrfCap := rfl
@[simp] theorem State.emitDue_core_l1d (s : State) (due : Nat) (e : Eff) : (s.emitDue due e).core.l1d = s.core.l1d := rfl
@[simp] theorem State.emitDue_core_l1i (s : State) (due : Nat) (e : Eff) : (s.emitDue due e).core.l1i = s.core.l1i := rfl
@[simp] theorem State.emitDue_core_tc (s : State) (due : Nat) (e : Eff) : (s.emitDue due e).core.tc = s.core.tc := rfl
@[simp] theorem State.emitDue_core_loadQ (s : State) (due : Nat) (e : Eff) : (s.emitDue due e).core.loadQ = s.core.loadQ := rfl
@[simp] theorem State.emitDue_core_storeQ (s : State) (due : Nat) (e : Eff) : (s.emitDue due e).core.storeQ = s.core.storeQ := rfl
@[simp] theorem State.emitDue_core_outst (s : State) (due : Nat) (e : Eff) : (s.emitDue due e).core.outst = s.core.outst := rfl
@[simp] theorem State.emitDue_core_pend (s : State) (due : Nat) (e : Eff) : (s.emitDue due e).core.pend = s.core.pend := rfl
@[simp] theorem State.emitDue_core_rep (s : State) (due : Nat) (e : Eff) : (s.emitDue due e).core.rep = s.core.rep := rfl
@[simp] theorem State.emitDue_core_words (s : State) (due : Nat) (e : Eff) : (s.emitDue due e).core.words = s.core.words := rfl
@[simp] theorem State.emitDue_core_lastPc (s : State) (due : Nat) (e : Eff) : (s.emitDue due e).core.lastPc = s.core.lastPc := rfl
@[simp] theorem State.emitDue_core_issueAt (s : State) (due : Nat) (e : Eff) : (s.emitDue due e).core.issueAt = s.core.issueAt := rfl
@[simp] theorem State.emitDue_core_saveDone (s : State) (due : Nat) (e : Eff) : (s.emitDue due e).core.saveDone = s.core.saveDone := rfl
@[simp] theorem State.emitDue_core_mxFree (s : State) (due : Nat) (e : Eff) : (s.emitDue due e).core.mxFree = s.core.mxFree := rfl
@[simp] theorem State.emitDue_core_spCount (s : State) (due : Nat) (e : Eff) : (s.emitDue due e).core.spCount = s.core.spCount := rfl
@[simp] theorem State.emitDue_core_charged (s : State) (due : Nat) (e : Eff) : (s.emitDue due e).core.charged = s.core.charged := rfl
@[simp] theorem State.emitDue_core_padBad (s : State) (due : Nat) (e : Eff) : (s.emitDue due e).core.padBad = s.core.padBad := rfl
@[simp] theorem State.emitDue_core_accBad (s : State) (due : Nat) (e : Eff) : (s.emitDue due e).core.accBad = s.core.accBad := rfl
@[simp] theorem State.emitDue_core_dropFrom (s : State) (due : Nat) (e : Eff) : (s.emitDue due e).core.dropFrom = s.core.dropFrom := rfl

/-! The core after `State.raise`. -/

@[simp] theorem State.raise_core_res (s : State) (t : Trap) : (s.raise t).core.res = s.core.res := rfl
@[simp] theorem State.raise_core_jcb (s : State) (t : Trap) : (s.raise t).core.jcb = s.core.jcb := rfl
@[simp] theorem State.raise_core_mode (s : State) (t : Trap) : (s.raise t).core.mode = s.core.mode := rfl
@[simp] theorem State.raise_core_ctx (s : State) (t : Trap) : (s.raise t).core.ctx = s.core.ctx := rfl
@[simp] theorem State.raise_core_amem (s : State) (t : Trap) : (s.raise t).core.amem = s.core.amem := rfl
@[simp] theorem State.raise_core_wmem (s : State) (t : Trap) : (s.raise t).core.wmem = s.core.wmem := rfl
@[simp] theorem State.raise_core_atile (s : State) (t : Trap) : (s.raise t).core.atile = s.core.atile := rfl
@[simp] theorem State.raise_core_wtile (s : State) (t : Trap) : (s.raise t).core.wtile = s.core.wtile := rfl
@[simp] theorem State.raise_core_mrfCap (s : State) (t : Trap) : (s.raise t).core.mrfCap = s.core.mrfCap := rfl
@[simp] theorem State.raise_core_l1d (s : State) (t : Trap) : (s.raise t).core.l1d = s.core.l1d := rfl
@[simp] theorem State.raise_core_l1i (s : State) (t : Trap) : (s.raise t).core.l1i = s.core.l1i := rfl
@[simp] theorem State.raise_core_tc (s : State) (t : Trap) : (s.raise t).core.tc = s.core.tc := rfl
@[simp] theorem State.raise_core_loadQ (s : State) (t : Trap) : (s.raise t).core.loadQ = s.core.loadQ := rfl
@[simp] theorem State.raise_core_storeQ (s : State) (t : Trap) : (s.raise t).core.storeQ = s.core.storeQ := rfl
@[simp] theorem State.raise_core_outst (s : State) (t : Trap) : (s.raise t).core.outst = s.core.outst := rfl
@[simp] theorem State.raise_core_pend (s : State) (t : Trap) : (s.raise t).core.pend = s.core.pend := rfl
@[simp] theorem State.raise_core_rep (s : State) (t : Trap) : (s.raise t).core.rep = s.core.rep := rfl
@[simp] theorem State.raise_core_words (s : State) (t : Trap) : (s.raise t).core.words = s.core.words := rfl
@[simp] theorem State.raise_core_lastPc (s : State) (t : Trap) : (s.raise t).core.lastPc = s.core.lastPc := rfl
@[simp] theorem State.raise_core_issueAt (s : State) (t : Trap) : (s.raise t).core.issueAt = s.core.issueAt := rfl
@[simp] theorem State.raise_core_saveDone (s : State) (t : Trap) : (s.raise t).core.saveDone = s.core.saveDone := rfl
@[simp] theorem State.raise_core_mxFree (s : State) (t : Trap) : (s.raise t).core.mxFree = s.core.mxFree := rfl
@[simp] theorem State.raise_core_spCount (s : State) (t : Trap) : (s.raise t).core.spCount = s.core.spCount := rfl
@[simp] theorem State.raise_core_charged (s : State) (t : Trap) : (s.raise t).core.charged = s.core.charged := rfl
@[simp] theorem State.raise_core_padBad (s : State) (t : Trap) : (s.raise t).core.padBad = s.core.padBad := rfl
@[simp] theorem State.raise_core_accBad (s : State) (t : Trap) : (s.raise t).core.accBad = s.core.accBad := rfl
@[simp] theorem State.raise_core_dropFrom (s : State) (t : Trap) : (s.raise t).core.dropFrom = s.core.dropFrom := rfl

/-! The core after `State.choose`. -/

@[simp] theorem State.choose_core_res (s : State) (o : Nat) (x : Option (BitVec 56)) : (s.choose o x).core.res = s.core.res := rfl
@[simp] theorem State.choose_core_jcb (s : State) (o : Nat) (x : Option (BitVec 56)) : (s.choose o x).core.jcb = s.core.jcb := rfl
@[simp] theorem State.choose_core_mode (s : State) (o : Nat) (x : Option (BitVec 56)) : (s.choose o x).core.mode = s.core.mode := rfl
@[simp] theorem State.choose_core_ctx (s : State) (o : Nat) (x : Option (BitVec 56)) : (s.choose o x).core.ctx = s.core.ctx := rfl
@[simp] theorem State.choose_core_amem (s : State) (o : Nat) (x : Option (BitVec 56)) : (s.choose o x).core.amem = s.core.amem := rfl
@[simp] theorem State.choose_core_wmem (s : State) (o : Nat) (x : Option (BitVec 56)) : (s.choose o x).core.wmem = s.core.wmem := rfl
@[simp] theorem State.choose_core_atile (s : State) (o : Nat) (x : Option (BitVec 56)) : (s.choose o x).core.atile = s.core.atile := rfl
@[simp] theorem State.choose_core_wtile (s : State) (o : Nat) (x : Option (BitVec 56)) : (s.choose o x).core.wtile = s.core.wtile := rfl
@[simp] theorem State.choose_core_mrfCap (s : State) (o : Nat) (x : Option (BitVec 56)) : (s.choose o x).core.mrfCap = s.core.mrfCap := rfl
@[simp] theorem State.choose_core_l1d (s : State) (o : Nat) (x : Option (BitVec 56)) : (s.choose o x).core.l1d = s.core.l1d := rfl
@[simp] theorem State.choose_core_l1i (s : State) (o : Nat) (x : Option (BitVec 56)) : (s.choose o x).core.l1i = s.core.l1i := rfl
@[simp] theorem State.choose_core_tc (s : State) (o : Nat) (x : Option (BitVec 56)) : (s.choose o x).core.tc = s.core.tc := rfl
@[simp] theorem State.choose_core_loadQ (s : State) (o : Nat) (x : Option (BitVec 56)) : (s.choose o x).core.loadQ = s.core.loadQ := rfl
@[simp] theorem State.choose_core_storeQ (s : State) (o : Nat) (x : Option (BitVec 56)) : (s.choose o x).core.storeQ = s.core.storeQ := rfl
@[simp] theorem State.choose_core_outst (s : State) (o : Nat) (x : Option (BitVec 56)) : (s.choose o x).core.outst = s.core.outst := rfl
@[simp] theorem State.choose_core_pend (s : State) (o : Nat) (x : Option (BitVec 56)) : (s.choose o x).core.pend = s.core.pend := rfl
@[simp] theorem State.choose_core_rep (s : State) (o : Nat) (x : Option (BitVec 56)) : (s.choose o x).core.rep = s.core.rep := rfl
@[simp] theorem State.choose_core_words (s : State) (o : Nat) (x : Option (BitVec 56)) : (s.choose o x).core.words = s.core.words := rfl
@[simp] theorem State.choose_core_lastPc (s : State) (o : Nat) (x : Option (BitVec 56)) : (s.choose o x).core.lastPc = s.core.lastPc := rfl
@[simp] theorem State.choose_core_issueAt (s : State) (o : Nat) (x : Option (BitVec 56)) : (s.choose o x).core.issueAt = s.core.issueAt := rfl
@[simp] theorem State.choose_core_saveDone (s : State) (o : Nat) (x : Option (BitVec 56)) : (s.choose o x).core.saveDone = s.core.saveDone := rfl
@[simp] theorem State.choose_core_mxFree (s : State) (o : Nat) (x : Option (BitVec 56)) : (s.choose o x).core.mxFree = s.core.mxFree := rfl
@[simp] theorem State.choose_core_spCount (s : State) (o : Nat) (x : Option (BitVec 56)) : (s.choose o x).core.spCount = s.core.spCount := rfl
@[simp] theorem State.choose_core_charged (s : State) (o : Nat) (x : Option (BitVec 56)) : (s.choose o x).core.charged = s.core.charged := rfl
@[simp] theorem State.choose_core_padBad (s : State) (o : Nat) (x : Option (BitVec 56)) : (s.choose o x).core.padBad = s.core.padBad := rfl
@[simp] theorem State.choose_core_accBad (s : State) (o : Nat) (x : Option (BitVec 56)) : (s.choose o x).core.accBad = s.core.accBad := rfl
@[simp] theorem State.choose_core_dropFrom (s : State) (o : Nat) (x : Option (BitVec 56)) : (s.choose o x).core.dropFrom = s.core.dropFrom := rfl

/-! Register writes: `s0`, `p0` and `k0` discard. -/

@[simp] theorem State.ws_cfg (s : State) (n : BitVec 5) (v : BitVec 64) : (s.ws n v).cfg = s.cfg := by unfold State.ws; split <;> rfl
@[simp] theorem State.ws_clk (s : State) (n : BitVec 5) (v : BitVec 64) : (s.ws n v).clk = s.clk := by unfold State.ws; split <;> rfl
@[simp] theorem State.ws_cid (s : State) (n : BitVec 5) (v : BitVec 64) : (s.ws n v).cid = s.cid := by unfold State.ws; split <;> rfl
@[simp] theorem State.ws_cores (s : State) (n : BitVec 5) (v : BitVec 64) : (s.ws n v).cores = s.cores := by unfold State.ws; split <;> rfl
@[simp] theorem State.ws_mem (s : State) (n : BitVec 5) (v : BitVec 64) : (s.ws n v).mem = s.mem := by unfold State.ws; split <;> rfl
@[simp] theorem State.ws_bar (s : State) (n : BitVec 5) (v : BitVec 64) : (s.ws n v).bar = s.bar := by unfold State.ws; split <;> rfl
@[simp] theorem State.ws_lay (s : State) (n : BitVec 5) (v : BitVec 64) : (s.ws n v).lay = s.lay := by unfold State.ws; split <;> rfl
@[simp] theorem State.ws_sets (s : State) (n : BitVec 5) (v : BitVec 64) : (s.ws n v).sets = s.sets := by unfold State.ws; split <;> rfl
@[simp] theorem State.ws_via (s : State) (n : BitVec 5) (v : BitVec 64) : (s.ws n v).via = s.via := by unfold State.ws; split <;> rfl
@[simp] theorem State.ws_cmds (s : State) (n : BitVec 5) (v : BitVec 64) : (s.ws n v).cmds = s.cmds := by unfold State.ws; split <;> rfl
@[simp] theorem State.ws_faces (s : State) (n : BitVec 5) (v : BitVec 64) : (s.ws n v).faces = s.faces := by unfold State.ws; split <;> rfl
@[simp] theorem State.ws_sched (s : State) (n : BitVec 5) (v : BitVec 64) : (s.ws n v).sched = s.sched := by unfold State.ws; split <;> rfl
@[simp] theorem State.ws_xl (s : State) (n : BitVec 5) (v : BitVec 64) : (s.ws n v).xl = s.xl := by unfold State.ws; split <;> rfl
@[simp] theorem State.ws_fab (s : State) (n : BitVec 5) (v : BitVec 64) : (s.ws n v).fab = s.fab := by unfold State.ws; split <;> rfl
@[simp] theorem State.ws_host (s : State) (n : BitVec 5) (v : BitVec 64) : (s.ws n v).host = s.host := by unfold State.ws; split <;> rfl
@[simp] theorem State.ws_running (s : State) (n : BitVec 5) (v : BitVec 64) : (s.ws n v).running = s.running := by unfold State.ws; split <;> rfl
@[simp] theorem State.ws_dark (s : State) (n : BitVec 5) (v : BitVec 64) : (s.ws n v).dark = s.dark := by unfold State.ws; split <;> rfl
@[simp] theorem State.ws_bad (s : State) (n : BitVec 5) (v : BitVec 64) : (s.ws n v).bad = s.bad := by unfold State.ws; split <;> rfl
@[simp] theorem State.ws_core_res (s : State) (n : BitVec 5) (v : BitVec 64) : (s.ws n v).core.res = s.core.res := by unfold State.ws; split <;> rfl
@[simp] theorem State.ws_core_jcb (s : State) (n : BitVec 5) (v : BitVec 64) : (s.ws n v).core.jcb = s.core.jcb := by unfold State.ws; split <;> rfl
@[simp] theorem State.ws_core_mode (s : State) (n : BitVec 5) (v : BitVec 64) : (s.ws n v).core.mode = s.core.mode := by unfold State.ws; split <;> rfl
@[simp] theorem State.ws_core_amem (s : State) (n : BitVec 5) (v : BitVec 64) : (s.ws n v).core.amem = s.core.amem := by unfold State.ws; split <;> rfl
@[simp] theorem State.ws_core_wmem (s : State) (n : BitVec 5) (v : BitVec 64) : (s.ws n v).core.wmem = s.core.wmem := by unfold State.ws; split <;> rfl
@[simp] theorem State.ws_core_loadQ (s : State) (n : BitVec 5) (v : BitVec 64) : (s.ws n v).core.loadQ = s.core.loadQ := by unfold State.ws; split <;> rfl
@[simp] theorem State.ws_core_storeQ (s : State) (n : BitVec 5) (v : BitVec 64) : (s.ws n v).core.storeQ = s.core.storeQ := by unfold State.ws; split <;> rfl
@[simp] theorem State.ws_core_outst (s : State) (n : BitVec 5) (v : BitVec 64) : (s.ws n v).core.outst = s.core.outst := by unfold State.ws; split <;> rfl
@[simp] theorem State.ws_core_pend (s : State) (n : BitVec 5) (v : BitVec 64) : (s.ws n v).core.pend = s.core.pend := by unfold State.ws; split <;> rfl
@[simp] theorem State.ws_core_iss (s : State) (n : BitVec 5) (v : BitVec 64) : (s.ws n v).core.iss = s.core.iss := by unfold State.ws; split <;> rfl
@[simp] theorem State.wp_cfg (s : State) (n : BitVec 4) (v : Bool) : (s.wp n v).cfg = s.cfg := by unfold State.wp; split <;> rfl
@[simp] theorem State.wp_clk (s : State) (n : BitVec 4) (v : Bool) : (s.wp n v).clk = s.clk := by unfold State.wp; split <;> rfl
@[simp] theorem State.wp_cid (s : State) (n : BitVec 4) (v : Bool) : (s.wp n v).cid = s.cid := by unfold State.wp; split <;> rfl
@[simp] theorem State.wp_cores (s : State) (n : BitVec 4) (v : Bool) : (s.wp n v).cores = s.cores := by unfold State.wp; split <;> rfl
@[simp] theorem State.wp_mem (s : State) (n : BitVec 4) (v : Bool) : (s.wp n v).mem = s.mem := by unfold State.wp; split <;> rfl
@[simp] theorem State.wp_bar (s : State) (n : BitVec 4) (v : Bool) : (s.wp n v).bar = s.bar := by unfold State.wp; split <;> rfl
@[simp] theorem State.wp_lay (s : State) (n : BitVec 4) (v : Bool) : (s.wp n v).lay = s.lay := by unfold State.wp; split <;> rfl
@[simp] theorem State.wp_sets (s : State) (n : BitVec 4) (v : Bool) : (s.wp n v).sets = s.sets := by unfold State.wp; split <;> rfl
@[simp] theorem State.wp_via (s : State) (n : BitVec 4) (v : Bool) : (s.wp n v).via = s.via := by unfold State.wp; split <;> rfl
@[simp] theorem State.wp_cmds (s : State) (n : BitVec 4) (v : Bool) : (s.wp n v).cmds = s.cmds := by unfold State.wp; split <;> rfl
@[simp] theorem State.wp_faces (s : State) (n : BitVec 4) (v : Bool) : (s.wp n v).faces = s.faces := by unfold State.wp; split <;> rfl
@[simp] theorem State.wp_sched (s : State) (n : BitVec 4) (v : Bool) : (s.wp n v).sched = s.sched := by unfold State.wp; split <;> rfl
@[simp] theorem State.wp_xl (s : State) (n : BitVec 4) (v : Bool) : (s.wp n v).xl = s.xl := by unfold State.wp; split <;> rfl
@[simp] theorem State.wp_fab (s : State) (n : BitVec 4) (v : Bool) : (s.wp n v).fab = s.fab := by unfold State.wp; split <;> rfl
@[simp] theorem State.wp_host (s : State) (n : BitVec 4) (v : Bool) : (s.wp n v).host = s.host := by unfold State.wp; split <;> rfl
@[simp] theorem State.wp_running (s : State) (n : BitVec 4) (v : Bool) : (s.wp n v).running = s.running := by unfold State.wp; split <;> rfl
@[simp] theorem State.wp_dark (s : State) (n : BitVec 4) (v : Bool) : (s.wp n v).dark = s.dark := by unfold State.wp; split <;> rfl
@[simp] theorem State.wp_bad (s : State) (n : BitVec 4) (v : Bool) : (s.wp n v).bad = s.bad := by unfold State.wp; split <;> rfl
@[simp] theorem State.wp_core_res (s : State) (n : BitVec 4) (v : Bool) : (s.wp n v).core.res = s.core.res := by unfold State.wp; split <;> rfl
@[simp] theorem State.wp_core_jcb (s : State) (n : BitVec 4) (v : Bool) : (s.wp n v).core.jcb = s.core.jcb := by unfold State.wp; split <;> rfl
@[simp] theorem State.wp_core_mode (s : State) (n : BitVec 4) (v : Bool) : (s.wp n v).core.mode = s.core.mode := by unfold State.wp; split <;> rfl
@[simp] theorem State.wp_core_amem (s : State) (n : BitVec 4) (v : Bool) : (s.wp n v).core.amem = s.core.amem := by unfold State.wp; split <;> rfl
@[simp] theorem State.wp_core_wmem (s : State) (n : BitVec 4) (v : Bool) : (s.wp n v).core.wmem = s.core.wmem := by unfold State.wp; split <;> rfl
@[simp] theorem State.wp_core_loadQ (s : State) (n : BitVec 4) (v : Bool) : (s.wp n v).core.loadQ = s.core.loadQ := by unfold State.wp; split <;> rfl
@[simp] theorem State.wp_core_storeQ (s : State) (n : BitVec 4) (v : Bool) : (s.wp n v).core.storeQ = s.core.storeQ := by unfold State.wp; split <;> rfl
@[simp] theorem State.wp_core_outst (s : State) (n : BitVec 4) (v : Bool) : (s.wp n v).core.outst = s.core.outst := by unfold State.wp; split <;> rfl
@[simp] theorem State.wp_core_pend (s : State) (n : BitVec 4) (v : Bool) : (s.wp n v).core.pend = s.core.pend := by unfold State.wp; split <;> rfl
@[simp] theorem State.wp_core_iss (s : State) (n : BitVec 4) (v : Bool) : (s.wp n v).core.iss = s.core.iss := by unfold State.wp; split <;> rfl
@[simp] theorem State.wk_cfg (s : State) (n : BitVec 3) (mask v : BitVec 128) : (s.wk n mask v).cfg = s.cfg := by unfold State.wk; split <;> rfl
@[simp] theorem State.wk_clk (s : State) (n : BitVec 3) (mask v : BitVec 128) : (s.wk n mask v).clk = s.clk := by unfold State.wk; split <;> rfl
@[simp] theorem State.wk_cid (s : State) (n : BitVec 3) (mask v : BitVec 128) : (s.wk n mask v).cid = s.cid := by unfold State.wk; split <;> rfl
@[simp] theorem State.wk_cores (s : State) (n : BitVec 3) (mask v : BitVec 128) : (s.wk n mask v).cores = s.cores := by unfold State.wk; split <;> rfl
@[simp] theorem State.wk_mem (s : State) (n : BitVec 3) (mask v : BitVec 128) : (s.wk n mask v).mem = s.mem := by unfold State.wk; split <;> rfl
@[simp] theorem State.wk_bar (s : State) (n : BitVec 3) (mask v : BitVec 128) : (s.wk n mask v).bar = s.bar := by unfold State.wk; split <;> rfl
@[simp] theorem State.wk_lay (s : State) (n : BitVec 3) (mask v : BitVec 128) : (s.wk n mask v).lay = s.lay := by unfold State.wk; split <;> rfl
@[simp] theorem State.wk_sets (s : State) (n : BitVec 3) (mask v : BitVec 128) : (s.wk n mask v).sets = s.sets := by unfold State.wk; split <;> rfl
@[simp] theorem State.wk_via (s : State) (n : BitVec 3) (mask v : BitVec 128) : (s.wk n mask v).via = s.via := by unfold State.wk; split <;> rfl
@[simp] theorem State.wk_cmds (s : State) (n : BitVec 3) (mask v : BitVec 128) : (s.wk n mask v).cmds = s.cmds := by unfold State.wk; split <;> rfl
@[simp] theorem State.wk_faces (s : State) (n : BitVec 3) (mask v : BitVec 128) : (s.wk n mask v).faces = s.faces := by unfold State.wk; split <;> rfl
@[simp] theorem State.wk_sched (s : State) (n : BitVec 3) (mask v : BitVec 128) : (s.wk n mask v).sched = s.sched := by unfold State.wk; split <;> rfl
@[simp] theorem State.wk_xl (s : State) (n : BitVec 3) (mask v : BitVec 128) : (s.wk n mask v).xl = s.xl := by unfold State.wk; split <;> rfl
@[simp] theorem State.wk_fab (s : State) (n : BitVec 3) (mask v : BitVec 128) : (s.wk n mask v).fab = s.fab := by unfold State.wk; split <;> rfl
@[simp] theorem State.wk_host (s : State) (n : BitVec 3) (mask v : BitVec 128) : (s.wk n mask v).host = s.host := by unfold State.wk; split <;> rfl
@[simp] theorem State.wk_running (s : State) (n : BitVec 3) (mask v : BitVec 128) : (s.wk n mask v).running = s.running := by unfold State.wk; split <;> rfl
@[simp] theorem State.wk_dark (s : State) (n : BitVec 3) (mask v : BitVec 128) : (s.wk n mask v).dark = s.dark := by unfold State.wk; split <;> rfl
@[simp] theorem State.wk_bad (s : State) (n : BitVec 3) (mask v : BitVec 128) : (s.wk n mask v).bad = s.bad := by unfold State.wk; split <;> rfl
@[simp] theorem State.wk_core_res (s : State) (n : BitVec 3) (mask v : BitVec 128) : (s.wk n mask v).core.res = s.core.res := by unfold State.wk; split <;> rfl
@[simp] theorem State.wk_core_jcb (s : State) (n : BitVec 3) (mask v : BitVec 128) : (s.wk n mask v).core.jcb = s.core.jcb := by unfold State.wk; split <;> rfl
@[simp] theorem State.wk_core_mode (s : State) (n : BitVec 3) (mask v : BitVec 128) : (s.wk n mask v).core.mode = s.core.mode := by unfold State.wk; split <;> rfl
@[simp] theorem State.wk_core_amem (s : State) (n : BitVec 3) (mask v : BitVec 128) : (s.wk n mask v).core.amem = s.core.amem := by unfold State.wk; split <;> rfl
@[simp] theorem State.wk_core_wmem (s : State) (n : BitVec 3) (mask v : BitVec 128) : (s.wk n mask v).core.wmem = s.core.wmem := by unfold State.wk; split <;> rfl
@[simp] theorem State.wk_core_loadQ (s : State) (n : BitVec 3) (mask v : BitVec 128) : (s.wk n mask v).core.loadQ = s.core.loadQ := by unfold State.wk; split <;> rfl
@[simp] theorem State.wk_core_storeQ (s : State) (n : BitVec 3) (mask v : BitVec 128) : (s.wk n mask v).core.storeQ = s.core.storeQ := by unfold State.wk; split <;> rfl
@[simp] theorem State.wk_core_outst (s : State) (n : BitVec 3) (mask v : BitVec 128) : (s.wk n mask v).core.outst = s.core.outst := by unfold State.wk; split <;> rfl
@[simp] theorem State.wk_core_pend (s : State) (n : BitVec 3) (mask v : BitVec 128) : (s.wk n mask v).core.pend = s.core.pend := by unfold State.wk; split <;> rfl
@[simp] theorem State.wk_core_iss (s : State) (n : BitVec 3) (mask v : BitVec 128) : (s.wk n mask v).core.iss = s.core.iss := by unfold State.wk; split <;> rfl
@[simp] theorem State.wv_cfg (s : State) (n : BitVec 5) (mask v : BitVec 1024) : (s.wv n mask v).cfg = s.cfg := rfl
@[simp] theorem State.wv_clk (s : State) (n : BitVec 5) (mask v : BitVec 1024) : (s.wv n mask v).clk = s.clk := rfl
@[simp] theorem State.wv_cid (s : State) (n : BitVec 5) (mask v : BitVec 1024) : (s.wv n mask v).cid = s.cid := rfl
@[simp] theorem State.wv_cores (s : State) (n : BitVec 5) (mask v : BitVec 1024) : (s.wv n mask v).cores = s.cores := rfl
@[simp] theorem State.wv_mem (s : State) (n : BitVec 5) (mask v : BitVec 1024) : (s.wv n mask v).mem = s.mem := rfl
@[simp] theorem State.wv_bar (s : State) (n : BitVec 5) (mask v : BitVec 1024) : (s.wv n mask v).bar = s.bar := rfl
@[simp] theorem State.wv_lay (s : State) (n : BitVec 5) (mask v : BitVec 1024) : (s.wv n mask v).lay = s.lay := rfl
@[simp] theorem State.wv_sets (s : State) (n : BitVec 5) (mask v : BitVec 1024) : (s.wv n mask v).sets = s.sets := rfl
@[simp] theorem State.wv_via (s : State) (n : BitVec 5) (mask v : BitVec 1024) : (s.wv n mask v).via = s.via := rfl
@[simp] theorem State.wv_cmds (s : State) (n : BitVec 5) (mask v : BitVec 1024) : (s.wv n mask v).cmds = s.cmds := rfl
@[simp] theorem State.wv_faces (s : State) (n : BitVec 5) (mask v : BitVec 1024) : (s.wv n mask v).faces = s.faces := rfl
@[simp] theorem State.wv_sched (s : State) (n : BitVec 5) (mask v : BitVec 1024) : (s.wv n mask v).sched = s.sched := rfl
@[simp] theorem State.wv_xl (s : State) (n : BitVec 5) (mask v : BitVec 1024) : (s.wv n mask v).xl = s.xl := rfl
@[simp] theorem State.wv_fab (s : State) (n : BitVec 5) (mask v : BitVec 1024) : (s.wv n mask v).fab = s.fab := rfl
@[simp] theorem State.wv_host (s : State) (n : BitVec 5) (mask v : BitVec 1024) : (s.wv n mask v).host = s.host := rfl
@[simp] theorem State.wv_running (s : State) (n : BitVec 5) (mask v : BitVec 1024) : (s.wv n mask v).running = s.running := rfl
@[simp] theorem State.wv_dark (s : State) (n : BitVec 5) (mask v : BitVec 1024) : (s.wv n mask v).dark = s.dark := rfl
@[simp] theorem State.wv_bad (s : State) (n : BitVec 5) (mask v : BitVec 1024) : (s.wv n mask v).bad = s.bad := rfl
@[simp] theorem State.wv_core_res (s : State) (n : BitVec 5) (mask v : BitVec 1024) : (s.wv n mask v).core.res = s.core.res := rfl
@[simp] theorem State.wv_core_jcb (s : State) (n : BitVec 5) (mask v : BitVec 1024) : (s.wv n mask v).core.jcb = s.core.jcb := rfl
@[simp] theorem State.wv_core_mode (s : State) (n : BitVec 5) (mask v : BitVec 1024) : (s.wv n mask v).core.mode = s.core.mode := rfl
@[simp] theorem State.wv_core_amem (s : State) (n : BitVec 5) (mask v : BitVec 1024) : (s.wv n mask v).core.amem = s.core.amem := rfl
@[simp] theorem State.wv_core_wmem (s : State) (n : BitVec 5) (mask v : BitVec 1024) : (s.wv n mask v).core.wmem = s.core.wmem := rfl
@[simp] theorem State.wv_core_loadQ (s : State) (n : BitVec 5) (mask v : BitVec 1024) : (s.wv n mask v).core.loadQ = s.core.loadQ := rfl
@[simp] theorem State.wv_core_storeQ (s : State) (n : BitVec 5) (mask v : BitVec 1024) : (s.wv n mask v).core.storeQ = s.core.storeQ := rfl
@[simp] theorem State.wv_core_outst (s : State) (n : BitVec 5) (mask v : BitVec 1024) : (s.wv n mask v).core.outst = s.core.outst := rfl
@[simp] theorem State.wv_core_pend (s : State) (n : BitVec 5) (mask v : BitVec 1024) : (s.wv n mask v).core.pend = s.core.pend := rfl
@[simp] theorem State.wv_core_iss (s : State) (n : BitVec 5) (mask v : BitVec 1024) : (s.wv n mask v).core.iss = s.core.iss := rfl
@[simp] theorem State.wst_cfg (s : State) (n : BitVec 5) (f : Stream → Stream) : (s.wst n f).cfg = s.cfg := rfl
@[simp] theorem State.wst_clk (s : State) (n : BitVec 5) (f : Stream → Stream) : (s.wst n f).clk = s.clk := rfl
@[simp] theorem State.wst_cid (s : State) (n : BitVec 5) (f : Stream → Stream) : (s.wst n f).cid = s.cid := rfl
@[simp] theorem State.wst_cores (s : State) (n : BitVec 5) (f : Stream → Stream) : (s.wst n f).cores = s.cores := rfl
@[simp] theorem State.wst_mem (s : State) (n : BitVec 5) (f : Stream → Stream) : (s.wst n f).mem = s.mem := rfl
@[simp] theorem State.wst_bar (s : State) (n : BitVec 5) (f : Stream → Stream) : (s.wst n f).bar = s.bar := rfl
@[simp] theorem State.wst_lay (s : State) (n : BitVec 5) (f : Stream → Stream) : (s.wst n f).lay = s.lay := rfl
@[simp] theorem State.wst_sets (s : State) (n : BitVec 5) (f : Stream → Stream) : (s.wst n f).sets = s.sets := rfl
@[simp] theorem State.wst_via (s : State) (n : BitVec 5) (f : Stream → Stream) : (s.wst n f).via = s.via := rfl
@[simp] theorem State.wst_cmds (s : State) (n : BitVec 5) (f : Stream → Stream) : (s.wst n f).cmds = s.cmds := rfl
@[simp] theorem State.wst_faces (s : State) (n : BitVec 5) (f : Stream → Stream) : (s.wst n f).faces = s.faces := rfl
@[simp] theorem State.wst_sched (s : State) (n : BitVec 5) (f : Stream → Stream) : (s.wst n f).sched = s.sched := rfl
@[simp] theorem State.wst_xl (s : State) (n : BitVec 5) (f : Stream → Stream) : (s.wst n f).xl = s.xl := rfl
@[simp] theorem State.wst_fab (s : State) (n : BitVec 5) (f : Stream → Stream) : (s.wst n f).fab = s.fab := rfl
@[simp] theorem State.wst_host (s : State) (n : BitVec 5) (f : Stream → Stream) : (s.wst n f).host = s.host := rfl
@[simp] theorem State.wst_running (s : State) (n : BitVec 5) (f : Stream → Stream) : (s.wst n f).running = s.running := rfl
@[simp] theorem State.wst_dark (s : State) (n : BitVec 5) (f : Stream → Stream) : (s.wst n f).dark = s.dark := rfl
@[simp] theorem State.wst_bad (s : State) (n : BitVec 5) (f : Stream → Stream) : (s.wst n f).bad = s.bad := rfl
@[simp] theorem State.wst_core_res (s : State) (n : BitVec 5) (f : Stream → Stream) : (s.wst n f).core.res = s.core.res := rfl
@[simp] theorem State.wst_core_jcb (s : State) (n : BitVec 5) (f : Stream → Stream) : (s.wst n f).core.jcb = s.core.jcb := rfl
@[simp] theorem State.wst_core_mode (s : State) (n : BitVec 5) (f : Stream → Stream) : (s.wst n f).core.mode = s.core.mode := rfl
@[simp] theorem State.wst_core_amem (s : State) (n : BitVec 5) (f : Stream → Stream) : (s.wst n f).core.amem = s.core.amem := rfl
@[simp] theorem State.wst_core_wmem (s : State) (n : BitVec 5) (f : Stream → Stream) : (s.wst n f).core.wmem = s.core.wmem := rfl
@[simp] theorem State.wst_core_loadQ (s : State) (n : BitVec 5) (f : Stream → Stream) : (s.wst n f).core.loadQ = s.core.loadQ := rfl
@[simp] theorem State.wst_core_storeQ (s : State) (n : BitVec 5) (f : Stream → Stream) : (s.wst n f).core.storeQ = s.core.storeQ := rfl
@[simp] theorem State.wst_core_outst (s : State) (n : BitVec 5) (f : Stream → Stream) : (s.wst n f).core.outst = s.core.outst := rfl
@[simp] theorem State.wst_core_pend (s : State) (n : BitVec 5) (f : Stream → Stream) : (s.wst n f).core.pend = s.core.pend := rfl
@[simp] theorem State.wst_core_iss (s : State) (n : BitVec 5) (f : Stream → Stream) : (s.wst n f).core.iss = s.core.iss := rfl
@[simp] theorem State.wm_cfg (s : State) (n : BitVec 4) (f : MReg → MReg) : (s.wm n f).cfg = s.cfg := rfl
@[simp] theorem State.wm_clk (s : State) (n : BitVec 4) (f : MReg → MReg) : (s.wm n f).clk = s.clk := rfl
@[simp] theorem State.wm_cid (s : State) (n : BitVec 4) (f : MReg → MReg) : (s.wm n f).cid = s.cid := rfl
@[simp] theorem State.wm_cores (s : State) (n : BitVec 4) (f : MReg → MReg) : (s.wm n f).cores = s.cores := rfl
@[simp] theorem State.wm_mem (s : State) (n : BitVec 4) (f : MReg → MReg) : (s.wm n f).mem = s.mem := rfl
@[simp] theorem State.wm_bar (s : State) (n : BitVec 4) (f : MReg → MReg) : (s.wm n f).bar = s.bar := rfl
@[simp] theorem State.wm_lay (s : State) (n : BitVec 4) (f : MReg → MReg) : (s.wm n f).lay = s.lay := rfl
@[simp] theorem State.wm_sets (s : State) (n : BitVec 4) (f : MReg → MReg) : (s.wm n f).sets = s.sets := rfl
@[simp] theorem State.wm_via (s : State) (n : BitVec 4) (f : MReg → MReg) : (s.wm n f).via = s.via := rfl
@[simp] theorem State.wm_cmds (s : State) (n : BitVec 4) (f : MReg → MReg) : (s.wm n f).cmds = s.cmds := rfl
@[simp] theorem State.wm_faces (s : State) (n : BitVec 4) (f : MReg → MReg) : (s.wm n f).faces = s.faces := rfl
@[simp] theorem State.wm_sched (s : State) (n : BitVec 4) (f : MReg → MReg) : (s.wm n f).sched = s.sched := rfl
@[simp] theorem State.wm_xl (s : State) (n : BitVec 4) (f : MReg → MReg) : (s.wm n f).xl = s.xl := rfl
@[simp] theorem State.wm_fab (s : State) (n : BitVec 4) (f : MReg → MReg) : (s.wm n f).fab = s.fab := rfl
@[simp] theorem State.wm_host (s : State) (n : BitVec 4) (f : MReg → MReg) : (s.wm n f).host = s.host := rfl
@[simp] theorem State.wm_running (s : State) (n : BitVec 4) (f : MReg → MReg) : (s.wm n f).running = s.running := rfl
@[simp] theorem State.wm_dark (s : State) (n : BitVec 4) (f : MReg → MReg) : (s.wm n f).dark = s.dark := rfl
@[simp] theorem State.wm_bad (s : State) (n : BitVec 4) (f : MReg → MReg) : (s.wm n f).bad = s.bad := rfl
@[simp] theorem State.wm_core_res (s : State) (n : BitVec 4) (f : MReg → MReg) : (s.wm n f).core.res = s.core.res := rfl
@[simp] theorem State.wm_core_jcb (s : State) (n : BitVec 4) (f : MReg → MReg) : (s.wm n f).core.jcb = s.core.jcb := rfl
@[simp] theorem State.wm_core_mode (s : State) (n : BitVec 4) (f : MReg → MReg) : (s.wm n f).core.mode = s.core.mode := rfl
@[simp] theorem State.wm_core_amem (s : State) (n : BitVec 4) (f : MReg → MReg) : (s.wm n f).core.amem = s.core.amem := rfl
@[simp] theorem State.wm_core_wmem (s : State) (n : BitVec 4) (f : MReg → MReg) : (s.wm n f).core.wmem = s.core.wmem := rfl
@[simp] theorem State.wm_core_loadQ (s : State) (n : BitVec 4) (f : MReg → MReg) : (s.wm n f).core.loadQ = s.core.loadQ := rfl
@[simp] theorem State.wm_core_storeQ (s : State) (n : BitVec 4) (f : MReg → MReg) : (s.wm n f).core.storeQ = s.core.storeQ := rfl
@[simp] theorem State.wm_core_outst (s : State) (n : BitVec 4) (f : MReg → MReg) : (s.wm n f).core.outst = s.core.outst := rfl
@[simp] theorem State.wm_core_pend (s : State) (n : BitVec 4) (f : MReg → MReg) : (s.wm n f).core.pend = s.core.pend := rfl
@[simp] theorem State.wm_core_iss (s : State) (n : BitVec 4) (f : MReg → MReg) : (s.wm n f).core.iss = s.core.iss := rfl
@[simp] theorem State.wq_cfg (s : State) (n : BitVec 2) (v : BitVec 256) : (s.wq n v).cfg = s.cfg := rfl
@[simp] theorem State.wq_clk (s : State) (n : BitVec 2) (v : BitVec 256) : (s.wq n v).clk = s.clk := rfl
@[simp] theorem State.wq_cid (s : State) (n : BitVec 2) (v : BitVec 256) : (s.wq n v).cid = s.cid := rfl
@[simp] theorem State.wq_cores (s : State) (n : BitVec 2) (v : BitVec 256) : (s.wq n v).cores = s.cores := rfl
@[simp] theorem State.wq_mem (s : State) (n : BitVec 2) (v : BitVec 256) : (s.wq n v).mem = s.mem := rfl
@[simp] theorem State.wq_bar (s : State) (n : BitVec 2) (v : BitVec 256) : (s.wq n v).bar = s.bar := rfl
@[simp] theorem State.wq_lay (s : State) (n : BitVec 2) (v : BitVec 256) : (s.wq n v).lay = s.lay := rfl
@[simp] theorem State.wq_sets (s : State) (n : BitVec 2) (v : BitVec 256) : (s.wq n v).sets = s.sets := rfl
@[simp] theorem State.wq_via (s : State) (n : BitVec 2) (v : BitVec 256) : (s.wq n v).via = s.via := rfl
@[simp] theorem State.wq_cmds (s : State) (n : BitVec 2) (v : BitVec 256) : (s.wq n v).cmds = s.cmds := rfl
@[simp] theorem State.wq_faces (s : State) (n : BitVec 2) (v : BitVec 256) : (s.wq n v).faces = s.faces := rfl
@[simp] theorem State.wq_sched (s : State) (n : BitVec 2) (v : BitVec 256) : (s.wq n v).sched = s.sched := rfl
@[simp] theorem State.wq_xl (s : State) (n : BitVec 2) (v : BitVec 256) : (s.wq n v).xl = s.xl := rfl
@[simp] theorem State.wq_fab (s : State) (n : BitVec 2) (v : BitVec 256) : (s.wq n v).fab = s.fab := rfl
@[simp] theorem State.wq_host (s : State) (n : BitVec 2) (v : BitVec 256) : (s.wq n v).host = s.host := rfl
@[simp] theorem State.wq_running (s : State) (n : BitVec 2) (v : BitVec 256) : (s.wq n v).running = s.running := rfl
@[simp] theorem State.wq_dark (s : State) (n : BitVec 2) (v : BitVec 256) : (s.wq n v).dark = s.dark := rfl
@[simp] theorem State.wq_bad (s : State) (n : BitVec 2) (v : BitVec 256) : (s.wq n v).bad = s.bad := rfl
@[simp] theorem State.wq_core_res (s : State) (n : BitVec 2) (v : BitVec 256) : (s.wq n v).core.res = s.core.res := rfl
@[simp] theorem State.wq_core_jcb (s : State) (n : BitVec 2) (v : BitVec 256) : (s.wq n v).core.jcb = s.core.jcb := rfl
@[simp] theorem State.wq_core_mode (s : State) (n : BitVec 2) (v : BitVec 256) : (s.wq n v).core.mode = s.core.mode := rfl
@[simp] theorem State.wq_core_amem (s : State) (n : BitVec 2) (v : BitVec 256) : (s.wq n v).core.amem = s.core.amem := rfl
@[simp] theorem State.wq_core_wmem (s : State) (n : BitVec 2) (v : BitVec 256) : (s.wq n v).core.wmem = s.core.wmem := rfl
@[simp] theorem State.wq_core_loadQ (s : State) (n : BitVec 2) (v : BitVec 256) : (s.wq n v).core.loadQ = s.core.loadQ := rfl
@[simp] theorem State.wq_core_storeQ (s : State) (n : BitVec 2) (v : BitVec 256) : (s.wq n v).core.storeQ = s.core.storeQ := rfl
@[simp] theorem State.wq_core_outst (s : State) (n : BitVec 2) (v : BitVec 256) : (s.wq n v).core.outst = s.core.outst := rfl
@[simp] theorem State.wq_core_pend (s : State) (n : BitVec 2) (v : BitVec 256) : (s.wq n v).core.pend = s.core.pend := rfl
@[simp] theorem State.wq_core_iss (s : State) (n : BitVec 2) (v : BitVec 256) : (s.wq n v).core.iss = s.core.iss := rfl
@[simp] theorem State.wh_cfg (s : State) (n : BitVec 3) (r : Ring) : (s.wh n r).cfg = s.cfg := rfl
@[simp] theorem State.wh_clk (s : State) (n : BitVec 3) (r : Ring) : (s.wh n r).clk = s.clk := rfl
@[simp] theorem State.wh_cid (s : State) (n : BitVec 3) (r : Ring) : (s.wh n r).cid = s.cid := rfl
@[simp] theorem State.wh_cores (s : State) (n : BitVec 3) (r : Ring) : (s.wh n r).cores = s.cores := rfl
@[simp] theorem State.wh_mem (s : State) (n : BitVec 3) (r : Ring) : (s.wh n r).mem = s.mem := rfl
@[simp] theorem State.wh_bar (s : State) (n : BitVec 3) (r : Ring) : (s.wh n r).bar = s.bar := rfl
@[simp] theorem State.wh_lay (s : State) (n : BitVec 3) (r : Ring) : (s.wh n r).lay = s.lay := rfl
@[simp] theorem State.wh_sets (s : State) (n : BitVec 3) (r : Ring) : (s.wh n r).sets = s.sets := rfl
@[simp] theorem State.wh_via (s : State) (n : BitVec 3) (r : Ring) : (s.wh n r).via = s.via := rfl
@[simp] theorem State.wh_cmds (s : State) (n : BitVec 3) (r : Ring) : (s.wh n r).cmds = s.cmds := rfl
@[simp] theorem State.wh_faces (s : State) (n : BitVec 3) (r : Ring) : (s.wh n r).faces = s.faces := rfl
@[simp] theorem State.wh_sched (s : State) (n : BitVec 3) (r : Ring) : (s.wh n r).sched = s.sched := rfl
@[simp] theorem State.wh_xl (s : State) (n : BitVec 3) (r : Ring) : (s.wh n r).xl = s.xl := rfl
@[simp] theorem State.wh_fab (s : State) (n : BitVec 3) (r : Ring) : (s.wh n r).fab = s.fab := rfl
@[simp] theorem State.wh_host (s : State) (n : BitVec 3) (r : Ring) : (s.wh n r).host = s.host := rfl
@[simp] theorem State.wh_running (s : State) (n : BitVec 3) (r : Ring) : (s.wh n r).running = s.running := rfl
@[simp] theorem State.wh_dark (s : State) (n : BitVec 3) (r : Ring) : (s.wh n r).dark = s.dark := rfl
@[simp] theorem State.wh_bad (s : State) (n : BitVec 3) (r : Ring) : (s.wh n r).bad = s.bad := rfl
@[simp] theorem State.wh_core_res (s : State) (n : BitVec 3) (r : Ring) : (s.wh n r).core.res = s.core.res := rfl
@[simp] theorem State.wh_core_jcb (s : State) (n : BitVec 3) (r : Ring) : (s.wh n r).core.jcb = s.core.jcb := rfl
@[simp] theorem State.wh_core_mode (s : State) (n : BitVec 3) (r : Ring) : (s.wh n r).core.mode = s.core.mode := rfl
@[simp] theorem State.wh_core_amem (s : State) (n : BitVec 3) (r : Ring) : (s.wh n r).core.amem = s.core.amem := rfl
@[simp] theorem State.wh_core_wmem (s : State) (n : BitVec 3) (r : Ring) : (s.wh n r).core.wmem = s.core.wmem := rfl
@[simp] theorem State.wh_core_loadQ (s : State) (n : BitVec 3) (r : Ring) : (s.wh n r).core.loadQ = s.core.loadQ := rfl
@[simp] theorem State.wh_core_storeQ (s : State) (n : BitVec 3) (r : Ring) : (s.wh n r).core.storeQ = s.core.storeQ := rfl
@[simp] theorem State.wh_core_outst (s : State) (n : BitVec 3) (r : Ring) : (s.wh n r).core.outst = s.core.outst := rfl
@[simp] theorem State.wh_core_pend (s : State) (n : BitVec 3) (r : Ring) : (s.wh n r).core.pend = s.core.pend := rfl
@[simp] theorem State.wh_core_iss (s : State) (n : BitVec 3) (r : Ring) : (s.wh n r).core.iss = s.core.iss := rfl
@[simp] theorem State.wsq_cfg (s : State) (n : BitVec 3) (r : Cursor) : (s.wsq n r).cfg = s.cfg := rfl
@[simp] theorem State.wsq_clk (s : State) (n : BitVec 3) (r : Cursor) : (s.wsq n r).clk = s.clk := rfl
@[simp] theorem State.wsq_cid (s : State) (n : BitVec 3) (r : Cursor) : (s.wsq n r).cid = s.cid := rfl
@[simp] theorem State.wsq_cores (s : State) (n : BitVec 3) (r : Cursor) : (s.wsq n r).cores = s.cores := rfl
@[simp] theorem State.wsq_mem (s : State) (n : BitVec 3) (r : Cursor) : (s.wsq n r).mem = s.mem := rfl
@[simp] theorem State.wsq_bar (s : State) (n : BitVec 3) (r : Cursor) : (s.wsq n r).bar = s.bar := rfl
@[simp] theorem State.wsq_lay (s : State) (n : BitVec 3) (r : Cursor) : (s.wsq n r).lay = s.lay := rfl
@[simp] theorem State.wsq_sets (s : State) (n : BitVec 3) (r : Cursor) : (s.wsq n r).sets = s.sets := rfl
@[simp] theorem State.wsq_via (s : State) (n : BitVec 3) (r : Cursor) : (s.wsq n r).via = s.via := rfl
@[simp] theorem State.wsq_cmds (s : State) (n : BitVec 3) (r : Cursor) : (s.wsq n r).cmds = s.cmds := rfl
@[simp] theorem State.wsq_faces (s : State) (n : BitVec 3) (r : Cursor) : (s.wsq n r).faces = s.faces := rfl
@[simp] theorem State.wsq_sched (s : State) (n : BitVec 3) (r : Cursor) : (s.wsq n r).sched = s.sched := rfl
@[simp] theorem State.wsq_xl (s : State) (n : BitVec 3) (r : Cursor) : (s.wsq n r).xl = s.xl := rfl
@[simp] theorem State.wsq_fab (s : State) (n : BitVec 3) (r : Cursor) : (s.wsq n r).fab = s.fab := rfl
@[simp] theorem State.wsq_host (s : State) (n : BitVec 3) (r : Cursor) : (s.wsq n r).host = s.host := rfl
@[simp] theorem State.wsq_running (s : State) (n : BitVec 3) (r : Cursor) : (s.wsq n r).running = s.running := rfl
@[simp] theorem State.wsq_dark (s : State) (n : BitVec 3) (r : Cursor) : (s.wsq n r).dark = s.dark := rfl
@[simp] theorem State.wsq_bad (s : State) (n : BitVec 3) (r : Cursor) : (s.wsq n r).bad = s.bad := rfl
@[simp] theorem State.wsq_core_res (s : State) (n : BitVec 3) (r : Cursor) : (s.wsq n r).core.res = s.core.res := rfl
@[simp] theorem State.wsq_core_jcb (s : State) (n : BitVec 3) (r : Cursor) : (s.wsq n r).core.jcb = s.core.jcb := rfl
@[simp] theorem State.wsq_core_mode (s : State) (n : BitVec 3) (r : Cursor) : (s.wsq n r).core.mode = s.core.mode := rfl
@[simp] theorem State.wsq_core_amem (s : State) (n : BitVec 3) (r : Cursor) : (s.wsq n r).core.amem = s.core.amem := rfl
@[simp] theorem State.wsq_core_wmem (s : State) (n : BitVec 3) (r : Cursor) : (s.wsq n r).core.wmem = s.core.wmem := rfl
@[simp] theorem State.wsq_core_loadQ (s : State) (n : BitVec 3) (r : Cursor) : (s.wsq n r).core.loadQ = s.core.loadQ := rfl
@[simp] theorem State.wsq_core_storeQ (s : State) (n : BitVec 3) (r : Cursor) : (s.wsq n r).core.storeQ = s.core.storeQ := rfl
@[simp] theorem State.wsq_core_outst (s : State) (n : BitVec 3) (r : Cursor) : (s.wsq n r).core.outst = s.core.outst := rfl
@[simp] theorem State.wsq_core_pend (s : State) (n : BitVec 3) (r : Cursor) : (s.wsq n r).core.pend = s.core.pend := rfl
@[simp] theorem State.wsq_core_iss (s : State) (n : BitVec 3) (r : Cursor) : (s.wsq n r).core.iss = s.core.iss := rfl
@[simp] theorem State.wacc_cfg (s : State) (row : Nat) (mask v : BitVec 2048) : (s.wacc row mask v).cfg = s.cfg := rfl
@[simp] theorem State.wacc_clk (s : State) (row : Nat) (mask v : BitVec 2048) : (s.wacc row mask v).clk = s.clk := rfl
@[simp] theorem State.wacc_cid (s : State) (row : Nat) (mask v : BitVec 2048) : (s.wacc row mask v).cid = s.cid := rfl
@[simp] theorem State.wacc_cores (s : State) (row : Nat) (mask v : BitVec 2048) : (s.wacc row mask v).cores = s.cores := rfl
@[simp] theorem State.wacc_mem (s : State) (row : Nat) (mask v : BitVec 2048) : (s.wacc row mask v).mem = s.mem := rfl
@[simp] theorem State.wacc_bar (s : State) (row : Nat) (mask v : BitVec 2048) : (s.wacc row mask v).bar = s.bar := rfl
@[simp] theorem State.wacc_lay (s : State) (row : Nat) (mask v : BitVec 2048) : (s.wacc row mask v).lay = s.lay := rfl
@[simp] theorem State.wacc_sets (s : State) (row : Nat) (mask v : BitVec 2048) : (s.wacc row mask v).sets = s.sets := rfl
@[simp] theorem State.wacc_via (s : State) (row : Nat) (mask v : BitVec 2048) : (s.wacc row mask v).via = s.via := rfl
@[simp] theorem State.wacc_cmds (s : State) (row : Nat) (mask v : BitVec 2048) : (s.wacc row mask v).cmds = s.cmds := rfl
@[simp] theorem State.wacc_faces (s : State) (row : Nat) (mask v : BitVec 2048) : (s.wacc row mask v).faces = s.faces := rfl
@[simp] theorem State.wacc_sched (s : State) (row : Nat) (mask v : BitVec 2048) : (s.wacc row mask v).sched = s.sched := rfl
@[simp] theorem State.wacc_xl (s : State) (row : Nat) (mask v : BitVec 2048) : (s.wacc row mask v).xl = s.xl := rfl
@[simp] theorem State.wacc_fab (s : State) (row : Nat) (mask v : BitVec 2048) : (s.wacc row mask v).fab = s.fab := rfl
@[simp] theorem State.wacc_host (s : State) (row : Nat) (mask v : BitVec 2048) : (s.wacc row mask v).host = s.host := rfl
@[simp] theorem State.wacc_running (s : State) (row : Nat) (mask v : BitVec 2048) : (s.wacc row mask v).running = s.running := rfl
@[simp] theorem State.wacc_dark (s : State) (row : Nat) (mask v : BitVec 2048) : (s.wacc row mask v).dark = s.dark := rfl
@[simp] theorem State.wacc_bad (s : State) (row : Nat) (mask v : BitVec 2048) : (s.wacc row mask v).bad = s.bad := rfl
@[simp] theorem State.wacc_core_res (s : State) (row : Nat) (mask v : BitVec 2048) : (s.wacc row mask v).core.res = s.core.res := rfl
@[simp] theorem State.wacc_core_jcb (s : State) (row : Nat) (mask v : BitVec 2048) : (s.wacc row mask v).core.jcb = s.core.jcb := rfl
@[simp] theorem State.wacc_core_mode (s : State) (row : Nat) (mask v : BitVec 2048) : (s.wacc row mask v).core.mode = s.core.mode := rfl
@[simp] theorem State.wacc_core_amem (s : State) (row : Nat) (mask v : BitVec 2048) : (s.wacc row mask v).core.amem = s.core.amem := rfl
@[simp] theorem State.wacc_core_wmem (s : State) (row : Nat) (mask v : BitVec 2048) : (s.wacc row mask v).core.wmem = s.core.wmem := rfl
@[simp] theorem State.wacc_core_loadQ (s : State) (row : Nat) (mask v : BitVec 2048) : (s.wacc row mask v).core.loadQ = s.core.loadQ := rfl
@[simp] theorem State.wacc_core_storeQ (s : State) (row : Nat) (mask v : BitVec 2048) : (s.wacc row mask v).core.storeQ = s.core.storeQ := rfl
@[simp] theorem State.wacc_core_outst (s : State) (row : Nat) (mask v : BitVec 2048) : (s.wacc row mask v).core.outst = s.core.outst := rfl
@[simp] theorem State.wacc_core_pend (s : State) (row : Nat) (mask v : BitVec 2048) : (s.wacc row mask v).core.pend = s.core.pend := rfl
@[simp] theorem State.wacc_core_iss (s : State) (row : Nat) (mask v : BitVec 2048) : (s.wacc row mask v).core.iss = s.core.iss := rfl
@[simp] theorem State.orFlags_cfg (s : State) (x : BitVec 6) : (s.orFlags x).cfg = s.cfg := rfl
@[simp] theorem State.orFlags_clk (s : State) (x : BitVec 6) : (s.orFlags x).clk = s.clk := rfl
@[simp] theorem State.orFlags_cid (s : State) (x : BitVec 6) : (s.orFlags x).cid = s.cid := rfl
@[simp] theorem State.orFlags_cores (s : State) (x : BitVec 6) : (s.orFlags x).cores = s.cores := rfl
@[simp] theorem State.orFlags_mem (s : State) (x : BitVec 6) : (s.orFlags x).mem = s.mem := rfl
@[simp] theorem State.orFlags_bar (s : State) (x : BitVec 6) : (s.orFlags x).bar = s.bar := rfl
@[simp] theorem State.orFlags_lay (s : State) (x : BitVec 6) : (s.orFlags x).lay = s.lay := rfl
@[simp] theorem State.orFlags_sets (s : State) (x : BitVec 6) : (s.orFlags x).sets = s.sets := rfl
@[simp] theorem State.orFlags_via (s : State) (x : BitVec 6) : (s.orFlags x).via = s.via := rfl
@[simp] theorem State.orFlags_cmds (s : State) (x : BitVec 6) : (s.orFlags x).cmds = s.cmds := rfl
@[simp] theorem State.orFlags_faces (s : State) (x : BitVec 6) : (s.orFlags x).faces = s.faces := rfl
@[simp] theorem State.orFlags_sched (s : State) (x : BitVec 6) : (s.orFlags x).sched = s.sched := rfl
@[simp] theorem State.orFlags_xl (s : State) (x : BitVec 6) : (s.orFlags x).xl = s.xl := rfl
@[simp] theorem State.orFlags_fab (s : State) (x : BitVec 6) : (s.orFlags x).fab = s.fab := rfl
@[simp] theorem State.orFlags_host (s : State) (x : BitVec 6) : (s.orFlags x).host = s.host := rfl
@[simp] theorem State.orFlags_running (s : State) (x : BitVec 6) : (s.orFlags x).running = s.running := rfl
@[simp] theorem State.orFlags_dark (s : State) (x : BitVec 6) : (s.orFlags x).dark = s.dark := rfl
@[simp] theorem State.orFlags_bad (s : State) (x : BitVec 6) : (s.orFlags x).bad = s.bad := rfl
@[simp] theorem State.orFlags_core_res (s : State) (x : BitVec 6) : (s.orFlags x).core.res = s.core.res := rfl
@[simp] theorem State.orFlags_core_jcb (s : State) (x : BitVec 6) : (s.orFlags x).core.jcb = s.core.jcb := rfl
@[simp] theorem State.orFlags_core_mode (s : State) (x : BitVec 6) : (s.orFlags x).core.mode = s.core.mode := rfl
@[simp] theorem State.orFlags_core_amem (s : State) (x : BitVec 6) : (s.orFlags x).core.amem = s.core.amem := rfl
@[simp] theorem State.orFlags_core_wmem (s : State) (x : BitVec 6) : (s.orFlags x).core.wmem = s.core.wmem := rfl
@[simp] theorem State.orFlags_core_loadQ (s : State) (x : BitVec 6) : (s.orFlags x).core.loadQ = s.core.loadQ := rfl
@[simp] theorem State.orFlags_core_storeQ (s : State) (x : BitVec 6) : (s.orFlags x).core.storeQ = s.core.storeQ := rfl
@[simp] theorem State.orFlags_core_outst (s : State) (x : BitVec 6) : (s.orFlags x).core.outst = s.core.outst := rfl
@[simp] theorem State.orFlags_core_pend (s : State) (x : BitVec 6) : (s.orFlags x).core.pend = s.core.pend := rfl
@[simp] theorem State.orFlags_core_iss (s : State) (x : BitVec 6) : (s.orFlags x).core.iss = s.core.iss := rfl

end Sys2Proof.Machine
end

