-- ==== Sys2Proof/Laws/Topk.lean ====
section
/-! SUPPORT. Sorting by a strict order, and the lanes that `vtopk` chooses (R190). -/

namespace Sys2Proof.Machine
theorem insertByFront_perm {α : Type} (lt : α → α → Bool) (x : α) (l : List α) : (sortBy.insertByFront lt x l).Perm (x :: l) := by
  induction l with
  | nil => exact List.Perm.refl _
  | cons y r ih =>
    unfold sortBy.insertByFront
    split
    · exact (List.Perm.cons _ ih).trans (List.Perm.swap _ _ _)
    · exact List.Perm.refl _
theorem sortBy_perm {α : Type} (lt : α → α → Bool) (l : List α) : (sortBy lt l).Perm l := by
  induction l with
  | nil => exact List.Perm.refl _
  | cons x r ih => exact (insertByFront_perm lt x _).trans (List.Perm.cons _ ih)
/-- Sorting by a strict order that compares any two distinct elements. -/
theorem insertByFront_sorted {α : Type} {lt : α → α → Bool} (tr : ∀ a b c, lt a b = true → lt b c = true → lt a c = true) (x : α) (l : List α) (hl : l.Pairwise fun a b => lt a b = true)
    (tot : ∀ a ∈ l, lt a x = true ∨ lt x a = true) : (sortBy.insertByFront lt x l).Pairwise fun a b => lt a b = true := by
  induction l with
  | nil => simp [sortBy.insertByFront]
  | cons y r ih =>
    rw [List.pairwise_cons] at hl
    unfold sortBy.insertByFront
    split
    · rename_i c
      rw [List.pairwise_cons]
      refine ⟨fun a ha => ?_, ih hl.2 fun a h => tot a (List.mem_cons_of_mem _ h)⟩
      rcases List.mem_cons.1 ((insertByFront_perm lt x r).mem_iff.1 ha) with h | h
      · rw [h]; exact c
      · exact hl.1 a h
    · rename_i c
      have hy : lt x y = true := (tot y (List.mem_cons_self ..)).resolve_left c
      rw [List.pairwise_cons, List.pairwise_cons]
      refine ⟨fun a ha => ?_, hl⟩
      rcases List.mem_cons.1 ha with h | h
      · rw [h]; exact hy
      · exact tr _ _ _ hy (hl.1 a h)
theorem sortBy_sorted {α : Type} {lt : α → α → Bool} (tr : ∀ a b c, lt a b = true → lt b c = true → lt a c = true) (tot : ∀ a b, a ≠ b → lt a b = true ∨ lt b a = true) (l : List α) (hl : l.Nodup) :
    (sortBy lt l).Pairwise fun a b => lt a b = true := by
  induction l with
  | nil => exact List.Pairwise.nil
  | cons x r ih =>
    rw [List.nodup_cons] at hl
    refine insertByFront_sorted tr x _ (ih hl.2) fun a ha => ?_
    have := (sortBy_perm lt r).mem_iff.1 ha
    exact tot a x fun e => hl.1 (e ▸ this)
theorem insertByFront_congr {α : Type} {lt lt' : α → α → Bool} (x : α) (l : List α) (h : ∀ a ∈ l, lt a x = lt' a x) : sortBy.insertByFront lt x l = sortBy.insertByFront lt' x l := by
  induction l with
  | nil => rfl
  | cons y r ih =>
    unfold sortBy.insertByFront
    rw [h y (List.mem_cons_self ..), ih fun a ha => h a (List.mem_cons_of_mem _ ha)]
theorem sortBy_congr {α : Type} {lt lt' : α → α → Bool} (l : List α) (h : ∀ a ∈ l, ∀ b ∈ l, lt a b = lt' a b) : sortBy lt l = sortBy lt' l := by
  induction l with
  | nil => rfl
  | cons x r ih =>
    have e := ih fun a ha b hb => h a (List.mem_cons_of_mem _ ha) b (List.mem_cons_of_mem _ hb)
    unfold sortBy
    rw [e]
    exact insertByFront_congr x _ fun a ha => h a (List.mem_cons_of_mem _ ((sortBy_perm lt' r).mem_iff.1 ha)) x (List.mem_cons_self ..)
theorem insertByFront_map {α β : Type} (g : α → β) (lt : β → β → Bool) (x : α) (l : List α) :
    sortBy.insertByFront lt (g x) (l.map g) = (sortBy.insertByFront (fun a b => lt (g a) (g b)) x l).map g := by
  induction l with
  | nil => rfl
  | cons y r ih =>
    rw [List.map_cons]
    unfold sortBy.insertByFront
    rw [ih]
    split <;> rfl
theorem sortBy_map {α β : Type} (g : α → β) (lt : β → β → Bool) (l : List α) : sortBy lt (l.map g) = (sortBy (fun a b => lt (g a) (g b)) l).map g := by
  induction l with
  | nil => rfl
  | cons x r ih =>
    rw [List.map_cons]
    unfold sortBy
    rw [ih, insertByFront_map]
/-- An element stands among the first K of a strictly sorted list exactly when fewer than K come before it. -/
theorem mem_take_sorted {α : Type} {lt : α → α → Bool} (ir : ∀ a, lt a a = false) (asym : ∀ a b, lt a b = true → lt b a = false) {l : List α} (hl : l.Pairwise fun a b => lt a b = true) (K : Nat) (x : α) :
    x ∈ l.take K ↔ x ∈ l ∧ (l.countP fun a => lt a x) < K := by
  induction l generalizing K with
  | nil => simp
  | cons y r ih =>
    rw [List.pairwise_cons] at hl
    cases K with
    | zero => simp
    | succ K =>
      rw [List.take_succ_cons, List.mem_cons, List.mem_cons, ih hl.2, List.countP_cons]
      constructor
      · rintro (h | ⟨h1, h2⟩)
        · subst h
          refine ⟨.inl rfl, ?_⟩
          have : r.countP (fun a => lt a x) = 0 := List.countP_eq_zero.2 fun a ha => by simp [asym _ _ (hl.1 a ha)]
          rw [this, ir]; simp
        · refine ⟨.inr h1, ?_⟩
          split <;> omega
      · rintro ⟨h | h, h2⟩
        · exact .inl h
        · rw [hl.1 x h, if_pos rfl] at h2
          exact .inr ⟨h, by omega⟩
/-- A power of two that a number lacks sets its one bit. -/
theorem two_pow_add_testBit (x S i : Nat) (h : S.testBit x = false) : (2 ^ x + S).testBit i = (decide (i = x) || S.testBit i) := by
  induction x generalizing S i with
  | zero =>
    have hS : S % 2 = 0 := Nat.mod_two_eq_zero_iff_testBit_zero.2 h
    cases i with
    | zero => simp [Nat.testBit_zero]; omega
    | succ i =>
      rw [Nat.testBit_succ, Nat.testBit_succ, show (2 ^ 0 + S) / 2 = S / 2 by omega]
      simp
  | succ x ih =>
    rw [Nat.testBit_succ] at h
    cases i with
    | zero =>
      rw [Nat.testBit_zero, Nat.testBit_zero, pow_succ]
      simp
    | succ i =>
      rw [Nat.testBit_succ, Nat.testBit_succ, show (2 ^ (x + 1) + S) / 2 = 2 ^ x + S / 2 by rw [pow_succ]; omega, ih _ _ h]
      simp
/-- Bit i of a sum of distinct powers of two. -/
theorem sum_pow_testBit (l : List Nat) (hl : l.Nodup) (i : Nat) : ((l.map fun j => 2 ^ j).sum).testBit i = decide (i ∈ l) := by
  induction l generalizing i with
  | nil => simp
  | cons x r ih =>
    rw [List.nodup_cons] at hl
    rw [List.map_cons, List.sum_cons, two_pow_add_testBit x _ i (by rw [ih hl.2]; simpa using hl.1), ih hl.2]
    simp
/-- The lanes of a register, by their places. -/
theorem lanesV_eq (f : VF) (x : BitVec 1024) : lanesV f x = (List.range (lanesIn f.w f.t)).map fun i => laneAt f.t.bits i x.toNat := by
  apply List.ext_getElem?
  intro i
  unfold lanesV
  by_cases h : i < lanesIn f.w f.t
  · rw [List.getElem?_map, List.getElem?_range h, List.getElem?_eq_getElem (by rw [toLanes_length]; exact h)]
    have := toLanes_getD f.t.bits (lanesIn f.w f.t) x.toNat i h
    rw [List.getD_eq_getElem?_getD, List.getElem?_eq_getElem (by rw [toLanes_length]; exact h)] at this
    simpa using this
  · rw [List.getElem?_eq_none (by rw [toLanes_length]; omega), List.getElem?_eq_none (by simp; omega)]
theorem etFmt_ieee (t : ETy) : (etFmt t).Ieee := by cases t <;> first | exact f32_ieee | exact bf16_ieee | exact f16_ieee
theorem ranksBefore_eq {t : ETy} {a b : Nat × Nat} (ha : t.isF = true → (unpack (etFmt t) a.1).isNan = false) (hb : t.isF = true → (unpack (etFmt t) b.1).isNan = false) :
    ranksBefore t a b = decide (eltRank t b.1 < eltRank t a.1 ∨ (eltRank t b.1 = eltRank t a.1 ∧ a.2 < b.2)) := by
  have gt : ∀ x y, (t.isF = true → (unpack (etFmt t) x).isNan = false) → (t.isF = true → (unpack (etFmt t) y).isNan = false) →
      (if t.isF then (match cmpV (unpack (etFmt t) x) (unpack (etFmt t) y) with | some .gt => true | some .eq => !x.testBit (t.bits - 1) && y.testBit (t.bits - 1) | _ => false)
        else decide (etIval t y < etIval t x)) = decide (eltRank t y < eltRank t x) := by
    intro x y hx hy
    unfold eltRank
    by_cases c : t.isF = true
    · rw [if_pos c, if_pos c, if_pos c, cmpV_orderKey (etFmt_ieee t), hx c, hy c, rankKey_eq, rankKey_eq]
      have hb : t.bits - 1 = (etFmt t).p - 1 + (etFmt t).ew := by cases t <;> first | rfl | cases c
      rw [hb]
      simp only [Bool.or_self, Bool.false_eq_true, if_false]
      rcases lt_trichotomy ((etFmt t).orderKey x) ((etFmt t).orderKey y) with k | k | k
      · rw [if_neg (by omega), if_pos k]
        refine (decide_eq_false ?_).symm
        split <;> split <;> omega
      · rw [if_pos k, k]
        cases x.testBit ((etFmt t).p - 1 + (etFmt t).ew) <;> cases y.testBit ((etFmt t).p - 1 + (etFmt t).ew) <;> simp
      · rw [if_neg (by omega), if_neg (by omega)]
        refine (decide_eq_true ?_).symm
        have kx := orderKey_eq (etFmt t) x
        have ky := orderKey_eq (etFmt t) y
        cases sx : x.testBit ((etFmt t).p - 1 + (etFmt t).ew) <;> cases sy : y.testBit ((etFmt t).p - 1 + (etFmt t).ew) <;> rw [sx, sgn] at kx <;> rw [sy, sgn] at ky <;> simp at kx ky ⊢ <;> omega
    · rw [if_neg c, if_neg c, if_neg c]
  have e1 := gt a.1 b.1 ha hb
  have e2 := gt b.1 a.1 hb ha
  have hr : ranksBefore t a b = (decide (eltRank t b.1 < eltRank t a.1) || (!decide (eltRank t a.1 < eltRank t b.1) && decide (a.2 < b.2))) := by
    rw [← e1, ← e2]; rfl
  rw [hr, Bool.eq_iff_iff]
  simp only [Bool.or_eq_true, Bool.and_eq_true, Bool.not_eq_true', decide_eq_true_eq, decide_eq_false_iff_not]
  omega
/-- The lanes `vtopk` chooses: those eligible before which fewer than K eligible ones rank. -/
theorem topk_testBit (f : VF) (c : Cap) (i : Nat) :
    let x := fun i => laneAt f.t.bits i c.a.toNat
    let ok := fun i => c.k.getLsbD i && !(f.t.isF && (unpack (etFmt f.t) (x i)).isNan)
    let before := fun j i => decide (eltRank f.t (x i) < eltRank f.t (x j) ∨ (eltRank f.t (x i) = eltRank f.t (x j) ∧ j < i))
    (((topk f c).map fun i => 2 ^ i).sum).testBit i = decide ((i < lanesIn f.w f.t ∧ ok i = true) ∧ ((List.range (lanesIn f.w f.t)).countP fun j => ok j && before j i) < c.sb.toNat) := by
  intro x ok before
  obtain ⟨l, hl⟩ : ∃ l, l = (List.range (lanesIn f.w f.t)).filter ok := ⟨_, rfl⟩
  have hok : ∀ j ∈ l, f.t.isF = true → (unpack (etFmt f.t) (x j)).isNan = false := fun j hj h => by
    rw [hl] at hj
    have := (List.mem_filter.1 hj).2
    simp only [ok, h, Bool.true_and, Bool.and_eq_true, Bool.not_eq_true'] at this
    exact this.2
  have ht : topk f c = (sortBy before l).take c.sb.toNat := by
    have hz : List.zipIdx (lanesV f c.a) = (List.range (lanesIn f.w f.t)).map fun i => (x i, i) := by
      rw [lanesV_eq]
      apply List.ext_getElem?
      intro j
      simp only [List.getElem?_zipIdx, List.getElem?_map]
      by_cases h : j < lanesIn f.w f.t
      · rw [List.getElem?_range h]; simp [x]
      · rw [List.getElem?_eq_none (by simp; omega)]; rfl
    unfold topk
    dsimp only
    rw [hz, List.filter_map, sortBy_map, ← List.map_take, List.map_map]
    have hid : (Prod.snd ∘ fun i => (x i, i)) = id := rfl
    rw [hid, List.map_id]
    have hf : (List.range (lanesIn f.w f.t)).filter ((fun p : Nat × Nat => c.k.getLsbD p.2 && !(f.t.isF && (unpack (etFmt f.t) p.1).isNan)) ∘ fun i => (x i, i)) = l := hl.symm
    rw [hf, sortBy_congr l (fun a ha b hb => ranksBefore_eq (hok a ha) (hok b hb))]
  have nd : l.Nodup := hl ▸ List.Nodup.filter _ List.nodup_range
  have so := sortBy_sorted (lt := before) (fun a b c h1 h2 => by simp only [before, decide_eq_true_eq] at h1 h2 ⊢; omega)
    (fun a b h => by simp only [before, decide_eq_true_eq]; omega) l nd
  have pm := sortBy_perm before l
  rw [ht, sum_pow_testBit _ ((pm.nodup_iff.2 nd).sublist (List.take_sublist _ _)), Bool.eq_iff_iff, decide_eq_true_iff, decide_eq_true_iff,
    mem_take_sorted (fun a => by simp [before]) (fun a b h => by simp only [before, decide_eq_true_eq, decide_eq_false_iff_not] at h ⊢; omega) so, pm.mem_iff, pm.countP_eq, hl, List.mem_filter, List.mem_range, List.countP_filter]
  have hc : (fun a => before a i && ok a) = fun j => ok j && before j i := funext fun a => Bool.and_comm ..
  rw [hc]
end Sys2Proof.Machine
end

