-- ==== Sys2Proof/Tests/Slice0.lean ====
section
/-! SUPPORT. The smoke test of the well-formedness check: for each of its conditions ill-formed operations, each of which it refuses. -/

namespace Sys2Proof.Tests
set_option Elab.async false

/-! An ill-formed term for each check of WellFormed: the check refuses it. -/

theorem test_ill_formed_scalar : ∀ i ∈ ([
    .fcvt 0 0 5 1,
    .fcvt 0 0 7 2,
    .crrd 0 0x04,
    .crwr 0 0x2B,
    .lix 0 false 0 1] : List Instr), i.wf = false := by decide +kernel

theorem test_ill_formed_trees : ∀ i ∈ ([
    .br { full := false, nt := 2, t0 := 0, t1 := 0, t2 := 0, t3 := 0, path := 0, e0 := 0, e1 := 0, e2 := 0, e3 := 0 },
    .br { full := false, nt := 0, t0 := 0, t1 := 0, t2 := 0, t3 := 0, path := 7, e0 := 0, e1 := 0, e2 := 0, e3 := 0 },
    .br { full := true, nt := 0, t0 := 0, t1 := 1, t2 := 0, t3 := 0, path := 0, e0 := 0, e1 := 0, e2 := 0, e3 := 0 },
    .call { full := true, nt := 0, t0 := 0, t1 := 0, t2 := 0, t3 := 0, path := 0, e0 := 0, e1 := 1, e2 := 0, e3 := 0 },
    .call { full := true, nt := 1, t0 := 0, t1 := 0, t2 := 1, t3 := 0, path := 0, e0 := 0, e1 := 0, e2 := 0, e3 := 0 },
    .br { full := true, nt := 1, t0 := 0, t1 := 0, t2 := 0, t3 := 0, path := 0, e0 := 0, e1 := 0, e2 := 1, e3 := 0 },
    .br { full := true, nt := 2, t0 := 0, t1 := 0, t2 := 0, t3 := 1, path := 0, e0 := 0, e1 := 0, e2 := 0, e3 := 0 },
    .br { full := true, nt := 2, t0 := 0, t1 := 0, t2 := 0, t3 := 0, path := 0, e0 := 0, e1 := 0, e2 := 0, e3 := 1 },
    .brx { full := true, nt := 0, t0 := 0, t1 := 0, t2 := 0, t3 := 0, path := 0, e0 := 32, e1 := 0, e2 := 0, e3 := 0 },
    .br { full := true, nt := 0, t0 := 0, t1 := 0, t2 := 0, t3 := 0, path := 5, e0 := 0, e1 := 0, e2 := 0, e3 := 0 },
    .br { full := true, nt := 0, t0 := 0, t1 := 0, t2 := 0, t3 := 0, path := 0x30000000, e0 := 0, e1 := 0, e2 := 0, e3 := 0 }] : List Instr), i.wf = false := by decide +kernel

theorem test_ill_formed_ls : ∀ i ∈ ([
    .fence .die 0,
    .amoadd 0 0 0 .clus 0,
    .amoand 0 0 0 .clus 0,
    .amoor 0 0 0 .clus 0,
    .amoxor 0 0 0 .clus 0,
    .amoswap 0 0 0 .clus 0,
    .amocas 0 0 0 .clus 0,
    .amomin 0 0 0 .sys 0 false,
    .amomax 0 0 0 .sys 0 true,
    .stset 0 0 6,
    .stset 0 1 5,
    .stget 0 0 7,
    .vld { v := 0, st := 0, w := .w1024, k := 0, t := .f32, form := 1 },
    .vst { v := 0, st := 0, w := .w1024, k := 0, t := .f32, form := 1 },
    .vldb { v := 0, st := 0, w := .w1024, k := 0, t := .f32, form := 1 },
    .vpf { v := 0, st := 0, w := .w1024, k := 0, t := .f32, form := 1 },
    .vscat { v := 0, st := 0, w := .w1024, k := 0, t := .f32, form := 1 },
    .vscadd { v := 0, st := 0, w := .w1024, k := 0, t := .f32, form := 1 },
    .vscmax { v := 0, st := 0, w := .w1024, k := 0, t := .f32, form := 1 },
    .vredst { v := 0, st := 0, w := .w1024, k := 0, t := .f32, form := 1 },
    .vredst { v := 0, st := 0, w := .w1024, k := 0, t := .f32, form := 6 },
    .vredst { v := 0, st := 0, w := .w1024, k := 0, t := .f16, form := 0 }] : List Instr), i.wf = false := by decide +kernel

theorem test_ill_formed_vector_1 : ∀ i ∈ ([
    .vadd { w := .w1024, t := .i16, d := 0, a := 0, b := 0, sb := false, k := 0, md := 2 },
    .vsub { w := .w1024, t := .i16, d := 0, a := 0, b := 0, sb := false, k := 0, md := 2 },
    .vmul { w := .w1024, t := .i16, d := 0, a := 0, b := 0, sb := false, k := 0, md := 2 },
    .vfma { w := .w1024, t := .i16, d := 0, a := 0, b := 0, sb := false, k := 0, md := 2 },
    .vfms { w := .w1024, t := .i16, d := 0, a := 0, b := 0, sb := false, k := 0, md := 2 },
    .vfnma { w := .w1024, t := .i16, d := 0, a := 0, b := 0, sb := false, k := 0, md := 2 },
    .vmulh { w := .w1024, t := .f32, d := 0, a := 0, b := 0, sb := false, k := 0, md := 0 },
    .vmulh { w := .w1024, t := .i8, d := 0, a := 0, b := 0, sb := false, k := 0, md := 1 },
    .vmin { w := .w1024, t := .f32, d := 0, a := 0, b := 0, sb := false, k := 0, md := 1 },
    .vmax { w := .w1024, t := .f32, d := 0, a := 0, b := 0, sb := false, k := 0, md := 1 },
    .vclamp { w := .w1024, t := .f32, d := 0, a := 0, b := 0, sb := false, k := 0, md := 1 },
    .vand { w := .w1024, t := .f32, d := 0, a := 0, b := 0, sb := false, k := 0, md := 1 },
    .vor { w := .w1024, t := .f32, d := 0, a := 0, b := 0, sb := false, k := 0, md := 1 },
    .vxor { w := .w1024, t := .f32, d := 0, a := 0, b := 0, sb := false, k := 0, md := 1 },
    .vsel { w := .w1024, t := .f32, d := 0, a := 0, b := 0, sb := false, k := 0, md := 1 },
    .vmov { w := .w1024, t := .f32, d := 0, a := 0, b := 0, sb := false, k := 0, md := 1 },
    .vbcast { w := .w1024, t := .f32, d := 0, a := 0, b := 0, sb := false, k := 0, md := 1 },
    .vins { w := .w1024, t := .f32, d := 0, a := 0, b := 0, sb := false, k := 0, md := 1 },
    .vext { w := .w1024, t := .f32, d := 0, a := 0, b := 0, sb := false, k := 0, md := 1 },
    .vshuf { w := .w1024, t := .f32, d := 0, a := 0, b := 0, sb := false, k := 0, md := 1 },
    .vrev { w := .w1024, t := .f32, d := 0, a := 0, b := 0, sb := false, k := 0, md := 1 },
    .vslide { w := .w1024, t := .f32, d := 0, a := 0, b := 0, sb := false, k := 0, md := 1 },
    .vnot { w := .w1024, t := .f32, d := 0, a := 0, b := 0, sb := false, k := 0, md := 1 },
    .vabs { w := .w1024, t := .f32, d := 0, a := 0, b := 1, sb := false, k := 0, md := 0 }] : List Instr), i.wf = false := by decide +kernel

theorem test_ill_formed_vector_2 : ∀ i ∈ ([
    .vabs { w := .w1024, t := .f32, d := 0, a := 0, b := 0, sb := false, k := 0, md := 1 },
    .vabs { w := .w1024, t := .i8, d := 0, a := 0, b := 0, sb := false, k := 0, md := 2 },
    .vneg { w := .w1024, t := .f32, d := 0, a := 0, b := 1, sb := false, k := 0, md := 0 },
    .vneg { w := .w1024, t := .f32, d := 0, a := 0, b := 0, sb := false, k := 0, md := 1 },
    .vneg { w := .w1024, t := .i8, d := 0, a := 0, b := 0, sb := false, k := 0, md := 2 },
    .vrnd { w := .w1024, t := .i32, d := 0, a := 0, b := 0, sb := false, k := 0, md := 0 },
    .vrnd { w := .w1024, t := .f32, d := 0, a := 0, b := 0, sb := true, k := 0, md := 0 },
    .vnot { w := .w1024, t := .f32, d := 0, a := 0, b := 1, sb := false, k := 0, md := 0 },
    .vsll { w := .w1024, t := .f32, d := 0, a := 0, b := 0, sb := false, k := 0, md := 0 },
    .vsll { w := .w1024, t := .i8, d := 0, a := 0, b := 0, sb := false, k := 0, md := 1 },
    .vsrl { w := .w1024, t := .f32, d := 0, a := 0, b := 0, sb := false, k := 0, md := 0 },
    .vsrl { w := .w1024, t := .i8, d := 0, a := 0, b := 0, sb := false, k := 0, md := 1 },
    .vsra { w := .w1024, t := .f32, d := 0, a := 0, b := 0, sb := false, k := 0, md := 0 },
    .vsra { w := .w1024, t := .i8, d := 0, a := 0, b := 0, sb := false, k := 0, md := 1 },
    .vcmpeq { w := .w1024, t := .f32, d := 8, a := 0, b := 0, sb := false, k := 0, md := 0 },
    .vcmpeq { w := .w1024, t := .f32, d := 0, a := 0, b := 0, sb := false, k := 0, md := 1 },
    .vcmpne { w := .w1024, t := .f32, d := 8, a := 0, b := 0, sb := false, k := 0, md := 0 },
    .vcmpne { w := .w1024, t := .f32, d := 0, a := 0, b := 0, sb := false, k := 0, md := 1 },
    .vcmplt { w := .w1024, t := .f32, d := 8, a := 0, b := 0, sb := false, k := 0, md := 0 },
    .vcmplt { w := .w1024, t := .f32, d := 0, a := 0, b := 0, sb := false, k := 0, md := 1 },
    .vcmple { w := .w1024, t := .f32, d := 8, a := 0, b := 0, sb := false, k := 0, md := 0 },
    .vcmple { w := .w1024, t := .f32, d := 0, a := 0, b := 0, sb := false, k := 0, md := 1 },
    .vclass { w := .w1024, t := .u8, d := 0, a := 0, b := 0, sb := false, k := 0, md := 0 },
    .vclass { w := .w1024, t := .f32, d := 0, a := 0, b := 1, sb := false, k := 0, md := 0 }] : List Instr), i.wf = false := by decide +kernel

theorem test_ill_formed_vector_3 : ∀ i ∈ ([
    .vmov { w := .w1024, t := .f32, d := 0, a := 1, b := 0, sb := false, k := 0, md := 0 },
    .vbcast { w := .w1024, t := .f32, d := 0, a := 0, b := 0, sb := true, k := 0, md := 0 },
    .vins { w := .w1024, t := .f32, d := 0, a := 0, b := 0, sb := true, k := 0, md := 0 },
    .vext { w := .w1024, t := .f32, d := 0, a := 0, b := 0, sb := true, k := 0, md := 0 },
    .vgath { w := .w1024, t := .f32, d := 0, a := 0, b := 0, sb := false, k := 0, md := 0 },
    .vgath { w := .w1024, t := .f32, d := 0, a := 1, b := 0, sb := true, k := 0, md := 0 },
    .vrotm { w := .w1024, t := .f32, d := 0, a := 0, b := 0, sb := false, k := 0, md := 0 },
    .vrotm { w := .w1024, t := .f32, d := 0, a := 1, b := 0, sb := true, k := 0, md := 0 },
    .vcvt { w := .w1024, t := .f32, d := 0, a := 0, b := 7, sb := false, k := 0, md := 0 },
    .vcvt { w := .w1024, t := .f32, d := 0, a := 0, b := 0, sb := false, k := 0, md := 0 },
    .vcvt { w := .w1024, t := .f32, d := 0, a := 0, b := 1, sb := true, k := 0, md := 0 },
    .vcvt { w := .w1024, t := .bf16, d := 0, a := 0, b := 10, sb := false, k := 0, md := 0 },
    .vcvt { w := .w1024, t := .i32, d := 0, a := 0, b := 8, sb := false, k := 0, md := 0 },
    .vcvt { w := .w1024, t := .i16, d := 0, a := 0, b := 3, sb := false, k := 0, md := 2 },
    .vcvt8 { w := .w1024, t := .i8, d := 0, a := 0, b := 0, sb := false, k := 0, md := 0 },
    .vcvt8 { w := .w1024, t := .f32, d := 0, a := 0, b := 4, sb := false, k := 0, md := 0 },
    .vcvt8 { w := .w1024, t := .f32, d := 0, a := 0, b := 2, sb := false, k := 0, md := 1 },
    .vcvt8 { w := .w1024, t := .bf16, d := 0, a := 0, b := 16, sb := false, k := 0, md := 0 },
    .vquant { w := .w256, t := .f32, d := 0, a := 0, b := 0, sb := false, k := 0, md := 0 },
    .vquant { w := .w1024, t := .bf16, d := 0, a := 0, b := 0, sb := false, k := 0, md := 0 },
    .vquant { w := .w1024, t := .f32, d := 0, a := 0, b := 0, sb := false, k := 1, md := 0 },
    .vquant { w := .w1024, t := .f32, d := 0, a := 0, b := 4, sb := false, k := 0, md := 0 },
    .vquant { w := .w1024, t := .f32, d := 0, a := 0, b := 0, sb := false, k := 0, md := 1 },
    .vdequant { w := .w256, t := .f32, d := 0, a := 0, b := 0, sb := false, k := 0, md := 0 }] : List Instr), i.wf = false := by decide +kernel

theorem test_ill_formed_vector_4 : ∀ i ∈ ([
    .vdequant { w := .w1024, t := .bf16, d := 0, a := 0, b := 0, sb := false, k := 0, md := 0 },
    .vdequant { w := .w1024, t := .f32, d := 0, a := 0, b := 0, sb := false, k := 1, md := 0 },
    .vdequant { w := .w1024, t := .f32, d := 0, a := 0, b := 4, sb := false, k := 0, md := 0 },
    .vdequant { w := .w1024, t := .f32, d := 0, a := 0, b := 0, sb := false, k := 0, md := 1 },
    .vpack { w := .w1024, t := .f32, d := 0, a := 0, b := 0, sb := false, k := 0, md := 0 },
    .vpack { w := .w1024, t := .i8, d := 0, a := 0, b := 0, sb := false, k := 0, md := 2 },
    .vunpk { w := .w1024, t := .f32, d := 0, a := 0, b := 0, sb := false, k := 0, md := 0 },
    .vunpk { w := .w1024, t := .i8, d := 0, a := 0, b := 1, sb := false, k := 0, md := 0 },
    .vzip { w := .w1024, t := .f32, d := 0, a := 0, b := 0, sb := false, k := 0, md := 2 },
    .vuzp { w := .w1024, t := .f32, d := 0, a := 0, b := 0, sb := false, k := 0, md := 3 },
    .vslide { w := .w1024, t := .f32, d := 0, a := 0, b := 0, sb := true, k := 0, md := 0 },
    .vpark { w := .w512, t := .f32, d := 0, a := 0, b := 0, sb := false, k := 0, md := 0 },
    .vpark { w := .w1024, t := .f32, d := 1, a := 0, b := 0, sb := false, k := 0, md := 0 },
    .vpark { w := .w1024, t := .f32, d := 0, a := 0, b := 0, sb := false, k := 0, md := 2 },
    .vunpark { w := .w1024, t := .f32, d := 0, a := 1, b := 0, sb := false, k := 0, md := 0 },
    .vunpark { w := .w1024, t := .f32, d := 0, a := 0, b := 0, sb := false, k := 1, md := 0 },
    .vexp2 { w := .w1024, t := .i32, d := 0, a := 0, b := 0, sb := false, k := 0, md := 0 },
    .vexp2 { w := .w1024, t := .f32, d := 0, a := 0, b := 1, sb := false, k := 0, md := 0 },
    .vlog2 { w := .w1024, t := .i32, d := 0, a := 0, b := 0, sb := false, k := 0, md := 0 },
    .vlog2 { w := .w1024, t := .f32, d := 0, a := 0, b := 1, sb := false, k := 0, md := 0 },
    .vrcp { w := .w1024, t := .i32, d := 0, a := 0, b := 0, sb := false, k := 0, md := 0 },
    .vrcp { w := .w1024, t := .f32, d := 0, a := 0, b := 1, sb := false, k := 0, md := 0 },
    .vrsqrt { w := .w1024, t := .i32, d := 0, a := 0, b := 0, sb := false, k := 0, md := 0 },
    .vrsqrt { w := .w1024, t := .f32, d := 0, a := 0, b := 1, sb := false, k := 0, md := 0 }] : List Instr), i.wf = false := by decide +kernel

theorem test_ill_formed_vector_5 : ∀ i ∈ ([
    .vsin { w := .w1024, t := .i32, d := 0, a := 0, b := 0, sb := false, k := 0, md := 0 },
    .vsin { w := .w1024, t := .f32, d := 0, a := 0, b := 1, sb := false, k := 0, md := 0 },
    .vcos { w := .w1024, t := .i32, d := 0, a := 0, b := 0, sb := false, k := 0, md := 0 },
    .vcos { w := .w1024, t := .f32, d := 0, a := 0, b := 1, sb := false, k := 0, md := 0 },
    .vtanh { w := .w1024, t := .i32, d := 0, a := 0, b := 0, sb := false, k := 0, md := 0 },
    .vtanh { w := .w1024, t := .f32, d := 0, a := 0, b := 1, sb := false, k := 0, md := 0 },
    .vqraw { w := .w1024, t := .f32, d := 0, a := 0, b := 0, sb := false, k := 0, md := 0 },
    .vunif { w := .w1024, t := .i32, d := 0, a := 0, b := 0, sb := false, k := 0, md := 0 },
    .vnorm { w := .w1024, t := .f32, d := 0, a := 0, b := 1, sb := false, k := 0, md := 0 },
    .vcat { w := .w1024, t := .f32, d := 0, a := 1, b := 0, sb := false, k := 0, md := 0 },
    .vcat { w := .w1024, t := .bf16, d := 0, a := 0, b := 0, sb := false, k := 0, md := 0 },
    .vtopk { w := .w1024, t := .f32, d := 0, a := 0, b := 0, sb := true, k := 0, md := 0 },
    .vtopk { w := .w1024, t := .f32, d := 9, a := 0, b := 0, sb := false, k := 0, md := 0 },
    .vtemp { w := .w1024, t := .i32, d := 0, a := 0, b := 0, sb := false, k := 0, md := 0 },
    .vtemp { w := .w1024, t := .f32, d := 0, a := 0, b := 0, sb := true, k := 0, md := 0 }] : List Instr), i.wf = false := by decide +kernel

theorem test_ill_formed_reduction : ∀ i ∈ ([
    .rsum { w := .w256, latch := 0, va := 0, sa := false, k := 0, mode := 2 },
    .rmax { w := .w256, latch := 0, va := 0, sa := false, k := 0, mode := 2 },
    .rmin { w := .w256, latch := 0, va := 0, sa := false, k := 0, mode := 2 },
    .rsumsq { w := .w256, latch := 0, va := 0, sa := false, k := 0, mode := 2 },
    .rmov { w := .w256, latch := 0, va := 0, sa := false, k := 0, mode := 2 },
    .rmov { w := .w512, latch := 0, va := 0, sa := false, k := 0, mode := 0 },
    .rmov { w := .w256, latch := 0, va := 0, sa := true, k := 0, mode := 0 },
    .rclr { w := .w256, latch := 0, va := 1, sa := false, k := 0, mode := 0 },
    .rclr { w := .w256, latch := 0, va := 0, sa := false, k := 1, mode := 0 },
    .rclr { w := .w256, latch := 0, va := 0, sa := false, k := 0, mode := 1 }] : List Instr), i.wf = false := by decide +kernel

theorem test_ill_formed_matrix : ∀ i ∈ ([
    .mld { md := 0, ma := 0, mb := 0, bank := 0, fmt := 0, mods := 2 },
    .mldu { md := 0, ma := 0, mb := 0, bank := 0, fmt := 0, mods := 2 },
    .mldv { md := 0, ma := 0, mb := 0, bank := 0, fmt := 0, mods := 2 },
    .mst { md := 1, ma := 0, mb := 0, bank := 0, fmt := 0, mods := 0 },
    .mstu { md := 1, ma := 0, mb := 0, bank := 0, fmt := 0, mods := 0 },
    .mstv { md := 1, ma := 0, mb := 0, bank := 0, fmt := 0, mods := 0 },
    .macwr { md := 1, ma := 0, mb := 0, bank := 0, fmt := 0, mods := 0 },
    .mmov { md := 0, ma := 0, mb := 0, bank := 0, fmt := 1, mods := 0 },
    .mmac { md := 0, ma := 0, mb := 0, bank := 0, fmt := 4, mods := 0 },
    .mmac { md := 1, ma := 0, mb := 0, bank := 0, fmt := 0, mods := 0 },
    .mmul { md := 0, ma := 0, mb := 0, bank := 1, fmt := 0, mods := 0 },
    .mmul { md := 0, ma := 0, mb := 0, bank := 0, fmt := 14, mods := 0 },
    .mmacs { md := 0, ma := 0, mb := 0, bank := 0, fmt := 0, mods := 4 },
    .mmacr { md := 0, ma := 0, mb := 0, bank := 0, fmt := 0, mods := 4 },
    .mmacm { md := 0, ma := 0, mb := 0, bank := 0, fmt := 0, mods := 4 },
    .madd { md := 0, ma := 0, mb := 0, bank := 0, fmt := 1, mods := 0 },
    .msub { md := 0, ma := 0, mb := 0, bank := 0, fmt := 1, mods := 0 },
    .mscale { md := 0, ma := 0, mb := 1, bank := 0, fmt := 0, mods := 0 },
    .mtr { md := 0, ma := 0, mb := 0, bank := 0, fmt := 0, mods := 1 },
    .recomp { md := 0, ma := 0, mb := 1, bank := 0, fmt := 0, mods := 0 },
    .densify { md := 0, ma := 0, mb := 0, bank := 1, fmt := 0, mods := 0 },
    .mctl 0 0 false,
    .mctl 0 65 true,
    .mfree { md := 0, ma := 1, mb := 0, bank := 0, fmt := 0, mods := 0 },
    .macrd { md := 0, ma := 1, mb := 0, bank := 0, fmt := 0, mods := 0 }] : List Instr), i.wf = false := by decide +kernel

theorem test_ill_formed_port : ∀ i ∈ ([
    .accld { bank := 0, stream := 0, vreg := 0, x := 2, hist := false, mods := 0 },
    .accwr { bank := 0, stream := 0, vreg := 0, x := 2, hist := false, mods := 0 },
    .accadd { bank := 0, stream := 0, vreg := 0, x := 2, hist := false, mods := 0 },
    .accld { bank := 0, stream := 1, vreg := 0, x := 0, hist := false, mods := 0 },
    .accst { bank := 0, stream := 0, vreg := 1, x := 0, hist := false, mods := 0 },
    .accst { bank := 0, stream := 0, vreg := 0, x := 6, hist := false, mods := 0 },
    .accqst { bank := 0, stream := 0, vreg := 0, x := 7, hist := false, mods := 0 },
    .accclr { bank := 0, stream := 0, vreg := 0, x := 0, hist := true, mods := 0 },
    .accmv { bank := 0, stream := 0, vreg := 0, x := 0, hist := false, mods := 0 },
    .accmv { bank := 0, stream := 16, vreg := 0, x := 0, hist := false, mods := 0 },
    .accscl { bank := 0, stream := 2, vreg := 0, x := 0, hist := false, mods := 0 }] : List Instr), i.wf = false := by decide +kernel

theorem test_ill_formed_engine : ∀ i ∈ ([
    .ecopy { a := 0, out := false, wmem := false, ring := false, bar := 0, row := 0, rows := 0, h := 0, stride := 0 },
    .ecopy { a := 0, out := false, wmem := false, ring := true, bar := 0, row := 1, rows := 64, h := 0, stride := 0 },
    .ecopy { a := 0, out := false, wmem := true, ring := true, bar := 0, row := 0, rows := 64, h := 0, stride := 0 },
    .ecopy { a := 0, out := false, wmem := false, ring := false, bar := 0, row := 0, rows := 64, h := 1, stride := 0 },
    .own 1 false 0 0,
    .hxch 0 0 0,
    .cpost 0 0 .sys false,
    .cpost 0 1 .sys true,
    .rverd 3,
    .tsstat 0 0 0 7,
    .sqapp 0 0 0,
    .lyrd 0 0 4,
    .lywr 0 0 2,
    .tlbinv 3 0 0] : List Instr), i.wf = false := by decide +kernel

end Sys2Proof.Tests
end

