-- ==== Sys2Proof/Tests/Values.lean ====
section
/-! SUPPORT. Values of the worked examples that the spec prints, against the operations that compute them. -/

namespace Sys2Proof.Tests
set_option Elab.async false
open Sys2Proof Sys2Proof.Machine

/-- 02_numbers.md, after R48: a BF16 block of five elements against sixteen copies of 1.0 gives 3.25. -/
theorem test_block_product :
    bdotB [{ fmt := 11, els := [0x4040, 0x3E20, 0x3D81, 0x3D04, 0x3700] ++ List.replicate 11 0, scale := some (1, 0) }]
      [{ fmt := 11, els := List.replicate 16 0x3F80, scale := some (1, 0) }] = 0x40500000 := by decide +kernel
/-- 02_numbers.md, after R65: the tree sum of eight lanes is 5.0, inexact; the exact sum is 6. -/
theorem test_reduction_tree :
    treeFold (redOp 0) 8 [0x4B800000, 0x3F800000, 0x3F800000, 0x3F800000, 0xCB800000, 0x3F800000, 0x3F800000, 0x3F800000] = (0x40A00000, flNX) := by decide +kernel
/-- 02_numbers.md, after R67: QUANT of the two calls of the error-feedback example: the scale byte and the INT4 codes. -/
theorem test_quant_int4 :
    (let r := quant ([0x3F800000, 0x3EC00000, 0xBF600000] ++ List.replicate 13 0) 2 0; (r.1, r.2.1.take 3)) = (0x7D, [4, 2, 12]) ∧
    (let r := quant ([0x3F800000, 0x3E800000, 0xBF400000] ++ List.replicate 13 0) 2 0; (r.1, r.2.1.take 3)) = (0x7D, [4, 1, 13]) := by decide +kernel
/-- 06_memory_streams.md, after R144: the map of the west-neighbour example, and its five addresses. -/
def westStream : Stream := { Stream.reset with
  valid := true,
  img := BitVec.ofNat 512 (0x10000 + 32 * 2 ^ 64 + 192 * 2 ^ 96 + 1152 * 2 ^ 128 + 4 * 2 ^ 160 + 4 * 2 ^ 176 + 4 * 2 ^ 192 + 32 * 2 ^ 208 + 0x0B * 2 ^ 240 + 0x0C * 2 ^ 248 + 0x00F * 2 ^ 400) }
theorem test_stream_walk :
    (tileStreams westStream 32 5).map (fun s => s.addrOf 0) = [0x10540, 0x10560, 0x10580, 0x105A0, 0x10600] ∧
    (let e := (List.range 5).foldl (fun s _ => s.step 32) westStream; (e.posd 0, e.posd 1, e.posd 2)) = (1, 1, 0) ∧
    westStream.inRange = true ∧ (westStream.setField 0x32 2 0x00E).inRange = false := by decide +kernel
/-- 07_vector_reduction_sampling.md, after R186: UNIF at the ends and in the middle. -/
theorem test_unif : [0, 0x80000000, 0xFFFFFFFF].map unif = [0x33800000, 0x3F000001, 0x3F7FFFFF] := by decide +kernel
/-- 08_matrix_lowrank.md, after R205: the rank-1 product, the sum, its recompression and its densified form. -/
def unitCol (n v : Nat) : BitVec 2048 := BitVec.ofNat 2048 (v * 2 ^ (32 * n))
def lowA : MBody := .factored [unitCol 0 0x40000000] [unitCol 1 0x3F800000]
def lowB : MBody := .factored [unitCol 1 0x40400000] [unitCol 5 0x3F800000]
def lowC : MBody := .factored [unitCol 0 0x40000000] [unitCol 5 0x40400000]
def lowD : MBody := .factored [unitCol 0 0x40800000] [unitCol 1 0x3F800000]
theorem test_lowrank_product : bodyOf (prodM 13 (matOf lowA) (matOf lowB)) = lowC := by decide +kernel
theorem test_lowrank_recompression : recompM 0x3A83126F false 64 (bodyOf (sumM false (matOf lowA) (matOf lowA))) = lowD := by decide +kernel
theorem test_lowrank_densify :
    (let d := densifyM (sumM false (matOf lowD) (matOf lowC)); ((d.getD 0 []).getD 1 0, (d.getD 0 []).getD 5 0, (d.getD 1 []).getD 1 0)) = (0x40800000, 0x40C00000, 0) := by decide +kernel
/-- 11_memories_translation.md, after R294: the five entries of the walk and the physical address. -/
def walkS : State := { State.reset with cfg := { State.reset.cfg with sx := 16 } }
theorem test_walk :
    (let s := ((((walkS.wr 0x0F000050 8 0x10000001).wr 0x10000000 8 0x10010001).wr 0x10010820 8 0x10020001).wr 0x100208D0 8 0x10021001).wr 0x10021028 8 0x92ABCD000F
     (s.onXl fun x => { x with root := [(0, 0x0F000000)] }).xlate 0 0x00A 0x4123456789 .read) = .ok 0x92ABCD6789 := by decide +kernel
/-- 16_fabric.md, after R373: the neighbours of die (3, 1, 0) in extents 4, 2, 2, and which links stay in the package. -/
theorem test_neighbours :
    (let s : State := { State.reset with cfg := { State.reset.cfg with sx := 4 } }
     (List.range 6).map (fun d => (s.neighbour 259 d, s.onPkg 259 d))) = [(256, false), (258, true), (3, true), (3, true), (65795, true), (65795, true)] := by decide +kernel

end Sys2Proof.Tests
end

