-- ==== Sys2Proof/Tests/Witnesses.lean ====
section
/-! SUPPORT. For each statement with hypotheses, small states and operands that meet them, clause by clause, at the ends of their ranges where there are any. -/

namespace Sys2Proof.Tests
set_option Elab.async false
open Sys2Proof Sys2Proof.Machine

/-! Small states. -/

/-- A kernel of one bundle with a `nop`, resident on core 0 and about to issue, with three free tiles of its own in either buffer. -/
def kern : State := (State.reset.withFetchWord 32 0).onCore fun c => [0, 1, 2].foldl (fun c t => (c.setTile false t fun _ => { jtag := 0, owner := 0 }).setTile true t fun _ => { jtag := 0, owner := 0 }) c
/-- The same kernel as the first stage of a record. -/
def stage : State := (kern.onCont 0 fun c => { c with record := some (0, 0) }).onTset 0 0 fun t => { t with
  holder := some 0x1000, nstg := 1, qcap := 1, stages := [{ kdesc := 0x1000, pass := 0, cost := 0 }],
  places := [(0, some {
    hdr := 0x9000, deadline := 0, bar := 0, done := 0, verd := 0, fstg := none, draws := 0, lcnt := [0], log := 0x9100, lcap := 1, outcome := 0,
    running := some (0, 0), sub := 0, pc := 0, admitted := true, since := 0, step := 0 })] }
/-- A valid stream of extents e0, 1, 1 and channel extent 256 at the start of a space. -/
def flat (space fmt ctlb e0 : Nat) : Stream := { Stream.reset with
  valid := true,
  img := BitVec.ofNat 512 (space * 2 ^ 62 + e0 * 2 ^ (8 * 0x14) + 2 ^ (8 * 0x16) + 2 ^ (8 * 0x18) + 256 * 2 ^ (8 * 0x1A) + fmt * 2 ^ (8 * 0x1E) + ctlb * 2 ^ (8 * 0x1F)) }
def withStream (n : BitVec 5) (st : Stream) (s : State) : State := s.wst n fun _ => st
def withPhase (p : Phase) (s : State) : State := s.onIss fun i => { i with phase := p }
def afterExec (i : Instr) (s : State) : State := match exec i s with
  | .next t => t
  | _ => s
/-- An entry at the head of a queue of core 0. -/
def entryOf (i : Instr) (args : List Nat) : QEnt := { id := 0, both := false, pc := 0x3000, i := i, args := args, vec := 0, mask := 0, handle := 0, jcb := 0x1000, asid := 0 }
def pendOf (slot : Nat) (e : Eff) : Pend := { due := 0, slot := slot, seq := 0, pc := 0, rep := 0, eff := e }
/-- An effect of the same cycle on core 1, of a continuation of another job. -/
def onOther (e : Eff) (s : State) : State := s.onCoreAt 1 fun c => { c with jcb := 0x2000, pend := [pendOf 9 e] }

/-! Scalar forms, trees, streams. -/

theorem witness_DivisionForms :
    (State.reset.ws 1 5).rs 2 = 0 ∧
    (((State.reset.ws 1 (BitVec.ofInt 64 (-2 ^ 63))).ws 2 (BitVec.allOnes 64)).rs 1).toInt = -2 ^ 63 ∧ (((State.reset.ws 1 (BitVec.ofInt 64 (-2 ^ 63))).ws 2 (BitVec.allOnes 64)).rs 2).toInt = -1 ∧
    (State.reset.ws 2 1).rs 2 ≠ 0 ∧ ¬(((State.reset.ws 2 1).rs 1).toInt = -2 ^ 63 ∧ ((State.reset.ws 2 1).rs 2).toInt = -1) := by decide +kernel
theorem witness_ComparesAndPredicates :
    ((unpack f32 ((State.reset.ws 1 0x7FC00000).rs32 1)).isNan || (unpack f32 ((State.reset.ws 1 0x7FC00000).rs32 2)).isNan) = true ∧
    ((unpack f32 (State.reset.rs32 1)).isNan || (unpack f32 (State.reset.rs32 2)).isNan) = false := by decide +kernel
theorem witness_ControlAndFloatForms :
    crPriv 0x20 = false ∧ jcbPriv kern kern.jcb = true ∧ (∃ c : BitVec 8, crPriv c = true) ∧ jcbPriv State.reset State.reset.jcb = false := by
  exact ⟨by decide +kernel, by decide +kernel, ⟨0x28, by decide +kernel⟩, by decide +kernel⟩
def treeA : Tree := { full := true, nt := 3, t0 := 16, t1 := 17, t2 := 16, t3 := 16, path := 0, e0 := 0, e1 := 0, e2 := 0, e3 := 0 }
def treeB : Tree := { treeA with t1 := 16, t3 := 0 }
theorem witness_TreeOutcome : State.reset.outcome { treeA with t1 := 16 } = 4 ∧ State.reset.outcome treeA = 1 ∧ State.reset.outcome treeB = 3 := by decide +kernel
theorem witness_TreeForms : State.reset.outcome { treeA with t1 := 16 } = 4 ∧ State.reset.outcome treeA ≠ 4 := by decide +kernel
theorem witness_OffCoreScalarForms : kern.inStage = false ∧ stage.inStage = true := by decide +kernel
theorem witness_StreamForms :
    let g := withStream 1 (flat 0 12 0 1) kern
    let z := withStream 1 (flat 0 12 0 0) kern
    (g.rst 1).valid = true ∧ (g.rst 1).selZero 0 = false ∧ (g.rst 1).selZero 3 = false ∧ (g.rst 1).zeroMod = false ∧ (kern.rst 1).valid = false ∧
    (z.rst 1).valid = true ∧ (z.rst 1).selZero 0 = true ∧ (z.rst 1).zeroMod = true := by decide +kernel
theorem witness_StreamStep :
    let a := (flat 0 12 0 2).setCpos 255
    let b := flat 0 12 0x20 2
    a.zeroMod = false ∧ a.idx = false ∧ a.cpos < a.cext ∧ a.posd 0 < a.ext 0 ∧ a.posd 1 < a.ext 1 ∧ a.posd 2 < a.ext 2 ∧ b.zeroMod = false ∧ b.idx = true := by decide +kernel

/-! Vector, reduction and port forms. -/

def lf : LF := { v := 3, st := 1, w := .w1024, k := 0, t := .f32, form := 0 }
def vf : VF := { w := .w1024, t := .f32, d := 1, a := 2, b := 1, sb := true, k := 0, md := 0 }
def amemS : State := withStream 1 (flat 0 12 0 1) kern
/-- A stream at the last byte row of tile 2 and one just behind it, in a tile that is not the job's. -/
def lastRow : State := withStream 1 ((flat 0 12 0 1).setField 0 8 (3 * 2 ^ 14 - 256)) kern
def behind : State := withStream 1 ((flat 0 12 0 1).setField 0 8 (3 * 2 ^ 14)) kern
def globalS : State := withStream 1 (flat 2 12 0 1) kern
def listS (space : Nat) : State := withStream 1 (flat space 12 0x20 128) kern
/-- An index stream whose elements lie in a tile that is not the job's. -/
def listBehind : State := withStream 1 ((flat 0 12 0x20 128).setField 0 8 (3 * 2 ^ 14)) kern
theorem witness_VectorMemoryForms :
    lastRow.core.iss.phase = .issue ∧ (lastRow.rst 1).idx = false ∧ (lastRow.rst 1).space = 0 ∧ lastRow.sectTrap 1 .lsRead 128 = none ∧ lastRow.sectTrap 1 .lsRead 4 = none ∧
    lastRow.sectTrap 1 .lsWrite 128 = none ∧ (lastRow.rst 1).zeroed = false ∧ (behind.rst 1).idx = false ∧ (behind.rst 1).space = 0 ∧
    (behind.sectTrap 1 .lsRead 128).isSome = true ∧ (behind.sectTrap 1 .lsRead 4).isSome = true ∧ (behind.sectTrap 1 .lsWrite 128).isSome = true ∧
    ((listS 0).rst 1).valid = true ∧ ((listS 0).rst 1).idx = true ∧ ((listS 0).rst 1).space = 0 ∧ (listS 0).idxTrap 1 .lsRead 4 ((listS 0).lfLanes lf) = none ∧
    (listS 0).streamTrap 1 .lsRead = none ∧ (listS 0).streamTrap 1 .lsWrite = none ∧ (listBehind.rst 1).valid = true ∧ (listBehind.rst 1).idx = true ∧ (listBehind.idxTrap 1 .lsRead 4 (listBehind.lfLanes lf)).isSome = true ∧
    (withPhase (.compute Cap.blank) amemS).core.iss.phase = .compute Cap.blank := by decide +kernel
theorem witness_GlobalVectorForms :
    globalS.core.iss.phase = .issue ∧ globalS.inStage = false ∧ (globalS.rst 1).idx = false ∧ (globalS.rst 1).space = 2 ∧ globalS.sectTrap 1 .lsRead 128 = none ∧
    globalS.sectTrap 1 .lsWrite 128 = none ∧ (globalS.rst 1).valid = true ∧ (globalS.rst 1).zeroMod = false ∧ (globalS.rst 1).mapBad false = false ∧ (listS 2).idxTrap 1 .lsRead (lfE lf) ((listS 2).lfLanes lf) = none ∧ ((listS 2).rst 1).mapBad false = false ∧ ((listS 2).rst 1).valid = true ∧
    ((listS 2).rst 1).zeroMod = false ∧ amemS.inStage = false ∧ (amemS.rst 1).valid = true ∧ (amemS.rst 1).zeroMod = false ∧ (amemS.rst 1).space ≠ 2 ∧ (kern.rst 1).valid = false ∧
    ((withStream 1 (flat 2 12 0 0) kern).rst 1).valid = true ∧ ((withStream 1 (flat 2 12 0 0) kern).rst 1).zeroMod = true ∧
    ((listS 2).rst 1).idx = true ∧ ((listS 2).rst 1).space = 2 ∧ (listS 2).inStage = false ∧ (listS 2).idxTrap 1 .lsWrite (lfE lf) ((listS 2).lfLanes lf) = none ∧
    ((listS 0).rst 1).space = 0 ∧ (listS 0).idxTrap 1 .lsWrite (lfE lf) ((listS 0).lfLanes lf) = none := by decide +kernel
theorem witness_VectorForm :
    amemS.core.iss.phase = .issue ∧ ({ vf with sb := false } : VF).sb = false ∧ vf.sb = true ∧ amemS.sectTrap vf.b .vec 128 = none ∧
    (behind.sectTrap vf.b .vec 128).isSome = true ∧ (withPhase (.compute Cap.blank) amemS).core.iss.phase = .compute Cap.blank := by decide +kernel
def parkedS : State := kern.onCtl fun c => { c with park := { amem := true, base := 0, rows := 2, regs := 2 } }
theorem witness_VectorGatherAndParkForms :
    (listS 0).core.iss.phase = .issue ∧ (listS 0).idxTrap vf.b .vec 4 (lanesOf ((listS 0).rk vf.k) 32) = none ∧ amemS.sectTrap vf.b .vec 128 = none ∧ (amemS.rst vf.b).zeroed = false ∧
    amemS.ownerTrap amemS.cid false ((sectionOf ((amemS.rst vf.b).addrOf 0) 128 + 128) % 2 ^ 21) false false = none ∧
    parkedS.parkIssued.regs ≠ 0 ∧ parkedS.parkTrap parkedS.parkIssued.amem (parkedS.parkIssued.base.toNat + 1) = none ∧
    (withPhase (.compute Cap.blank) kern).core.iss.phase = .compute Cap.blank ∧ kern.parkIssued.regs = 0 ∧ ((kern.ws 1 2032).rs 1).toNat ≤ 2032 ∧ (kern.ws 1 2032).parkTrap false (2032 + 15) = none ∧ kern.parkTrap true 1 = none ∧
    kern.ctl.park.regs.getLsbD 1 = false ∧ parkedS.ctl.park.regs.getLsbD 1 = true ∧ parkedS.parkTrap parkedS.ctl.park.amem (parkedS.ctl.park.base.toNat + 0) = none := by decide +kernel
def chainS : State := (kern.onCtx fun c => { c with vcat0 := some { vd := 1, bs := 0, bi := 0, nb := 0 } }).onIss fun i => { i with slot := 3 }
theorem witness_SamplingForms :
    chainS.core.iss.phase = .issue ∧ (∃ v, chainS.core.ctx.chain chainS.core.iss.slot = some v ∧ v.vd = 1) ∧ kern.core.ctx.chain kern.core.iss.slot = none := by
  exact ⟨by decide +kernel, ⟨{ vd := 1, bs := 0, bi := 0, nb := 0 }, by decide +kernel⟩, by decide +kernel⟩
theorem witness_SamplingForms_streams :
    let c := { Cap.blank with words := List.replicate 32 0 }
    amemS.core.iss.phase = .issue ∧ amemS.sectTrap 1 .vec 128 = none ∧ (behind.sectTrap 1 .vec 128).isSome = true ∧ amemS.core.ctx.chain amemS.core.iss.slot = none ∧
    ((withStream 1 (flat 0 12 0 1) chainS).sectTrap 1 .vec 128) = none ∧ (withPhase (.compute c) amemS).core.iss.phase = .compute c ∧ c.words.length = lanesIn vf.w vf.t := by decide +kernel
theorem witness_ReductionAndPortForms_reductions :
    amemS.core.iss.phase = .issue ∧ amemS.sectTrap 1 .vec 64 = none ∧ (redTy (amemS.rst 1).fmt).isSome = true := by decide +kernel
def af : AF := { bank := 0, stream := 1, vreg := 0, x := 0, hist := false, mods := 0 }
theorem witness_ReductionAndPortForms_ports :
    (withStream 1 (flat 0 9 0 1) kern).portTrap af (fun c => [9, 10, 11, 12, 13].contains c) = none ∧
    (withStream 1 (((flat 0 0 0 1).setField 0x30 2 4).setField 0x28 8 1024) kern).portTrap af fmtScaled = none ∧
    (behind.portTrap af (fun c => [9, 10, 11, 12, 13].contains c)).isSome = true ∧ (kern.portTrap af fmtScaled).isSome = true := by decide +kernel
theorem witness_LaneArithmetic :
    ETy.i8.isF = false ∧ ETy.u8.isF = false ∧ ETy.f32.isF = true ∧ ((unpack (etFmt .f32) 0x7FC00000).isNan || (unpack (etFmt .f32) 0).isNan) = true ∧
    ((unpack (etFmt .f32) 0x80000000).isNan || (unpack (etFmt .f32) 0).isNan) = false := by decide +kernel
theorem witness_LaneConversions :
    (∀ b ∈ [(1 : BitVec 5), 9], (Instr.vcvt { vf with sb := false, w := .w512, b := b }).wf = true) ∧ (Instr.vcvt { vf with sb := false, w := .w512, t := .bf16, b := 8 }).wf = true ∧
    etyOf (9 % 8) = some .bf16 ∧ etyOf (8 % 8) = some .f32 ∧
    (∀ b ∈ [(0 : BitVec 5), 1, 2, 3, 24], (Instr.vcvt8 { vf with sb := false, b := b }).wf = true) ∧
    (∀ b ∈ [(0 : BitVec 5), 1, 2, 3, 6, 7, 8], (Instr.vquant { vf with sb := false, b := b }).wf = true ∧ (Instr.vdequant { vf with sb := false, b := b }).wf = true) ∧
    (Instr.vpack { vf with sb := false, t := .i8 }).wf = true ∧ (Instr.vunpk { vf with sb := false, t := .u8, b := 0, md := 1 }).wf = true ∧
    (List.replicate 16 0).length = 16 ∧ (unpack f32 0x7FC00000).isNan = true ∧ unpack f32 0xFF800000 = .inf true ∧ unpack f32 0x7F800000 = .inf false ∧
    (unpack f32 0x3F800000).isFin = true ∧ 0 < f32.units (unpack f32 0x3F800000) ∧ f32.units (unpack f32 0x80000000) ≤ 0 := by decide +kernel
theorem witness_MaskedLanes : (List.replicate 32 0).length = lanesIn vf.w vf.t ∧ (kern.rk 0).getLsbD 31 = true ∧ (kern.rk 1).getLsbD 31 = false := by decide +kernel

/-! Matrix forms. -/

def mf : MF := { md := 1, ma := 1, mb := 1, bank := 0, fmt := 0, mods := 0 }
def dense0 : MBody := .dense (List.replicate 64 0)
def fact (r : Nat) : MBody := .factored (List.replicate r 0) (List.replicate r 0)
def withBody (n : BitVec 4) (b : MBody) (s : State) : State := s.wm n fun r => { r with body := b }
/-- A matrix register file with no room: 512 granules held by registers 0 and 2 to 15. -/
def fullMrf : State := (List.range 16).foldl (fun s n => withBody (BitVec.ofNat 4 n) dense0 s) kern
/-- A stream of core 1 of the cluster, whose tile 0 no job holds, and then this one in state L. -/
def farS (l : Bool) : State := withStream 1 ((flat 0 9 0 64).setField 0x22 1 0x81) (if l then kern.onCoreAt 1 fun c => c.setTile false 0 fun _ => { jtag := 0, owner := 2 } else kern)
def computing (s : State) : State := withPhase (.compute { Cap.blank with streams := [s.rst 1, s.rst 1] }) s
theorem witness_MatrixStreamForms :
    let s := withStream 1 (flat 0 9 0 64) kern
    (∀ u ∈ [s, farS true, farS false], (computing u).core.iss.phase = .compute { Cap.blank with streams := [u.rst 1, u.rst 1] }) ∧
    (computing s).remoteTrap (s.rst 1) 64 = none ∧ (computing (farS true)).remoteTrap ((farS true).rst 1) 64 = none ∧ ((computing (farS false)).remoteTrap ((farS false).rst 1) 64).isSome = true ∧
    s.core.iss.phase = .issue ∧ s.tileTrap 1 false false 64 = none ∧ s.mrfTrap 1 32 = none ∧ s.mrfTrap 1 64 = none ∧ s.tileTrap 1 true false 64 = none := by decide +kernel
/-- A product of two factored registers whose rank is above LIMIT. -/
def ranked (ad : Bool) : State := (withBody 2 (fact 2) kern).wm 1 fun r => { r with limit := 1, ad := ad }
theorem witness_MatrixStreamForms_factors :
    let c := fun (b : MBody) => { Cap.blank with streams := [Stream.reset], ma := b, aux := [1, 64, 2] }
    (∀ b ∈ [fact 2, fact 1, dense0], (withPhase (.compute (c b)) kern).core.iss.phase = .compute (c b)) ∧ (fact 2) = .factored (List.replicate 2 0) (List.replicate 2 0) ∧
    (List.replicate 2 (0 : BitVec 2048)).length = (c (fact 2)).aux.getD 2 0 ∧ (List.replicate 1 (0 : BitVec 2048)).length ≠ (c (fact 1)).aux.getD 2 0 := by decide +kernel
theorem witness_MatrixRegisterForms :
    let e := fun (s : State) (n : BitVec 4) => decide (isFact (s.rm n).body = true)
    ((mf.md = mf.ma) ∧ (2 : BitVec 4) ≠ mf.ma) ∧ (e kern 1 = false) ∧ kern.mrfTrap 1 0 = none ∧ kern.mrfTrap 1 32 = none ∧
    (fullMrf.onCore fun c => { c with mrfCap := 511 }).mrfTrap 1 32 ≠ none ∧
    isFact (ranked false).core.ctx.m[2].body = true ∧ ((ranked false).rm 1).limit.toNat < rankOf ((ranked false).rm 2).body ∧ ((ranked false).rm 1).ad = false ∧
    ((ranked true).rm 1).ad = true ∧ (ranked true).mrfTrap 1 32 = none ∧ ((ranked true).onCore fun c => { c with mrfCap := 0 }).mrfTrap 1 32 ≠ none := by decide +kernel
theorem witness_MatrixAccForms :
    (∃ p, matOf dense0 = .dense p) ∧ isFact (fact 1) = true ∧ kern.mrfTrap 1 32 = none ∧ ((kern.onCore fun c => { c with mrfCap := 31 }).mrfTrap 1 32).isSome = true := by
  exact ⟨⟨_, rfl⟩, by decide +kernel, by decide +kernel, by decide +kernel⟩

/-! The engine and control slot. -/

def ecf : EcopyF := { a := 1, out := false, wmem := false, ring := false, bar := 0, row := 0, rows := 64, h := 0, stride := 0 }
def ringS : State := kern.wh 0 { valid := true, wmem := false, first := 0, count := 2, head := 0, tail := 1 }
theorem witness_RingAndTileForms :
    (125 : Nat) + 2 ≤ 127 ∧ firstTrap ([0, 1, 2].map (kern.ownTrap false)) = none ∧ kern.tilesMine true [0, 1, 2] = none ∧
    (ringS.rh 0).valid = true ∧ (1 : Nat) ≤ (ringS.rh 0).filled ∧ (1 : Nat) ≤ (ringS.rh 0).free ∧ (ringS.rh 1).valid = false := by decide +kernel
def barrierS (job : Option Nat) : State := kern.onBarrier 0 63 fun _ => { count := 0, job := job }
theorem witness_BarrierForms :
    ((barrierS (some 0x1000)).barrier (barrierS (some 0x1000)).die 63).job = some (barrierS (some 0x1000)).jcb ∧ (kern.barrier kern.die 63).job ≠ some kern.jcb ∧
    (kern.barrier kern.die 63).job = none ∧ kern.dieOk (mkDie 1 1 1) = true ∧ kern.dieOk (mkDie 2 0 0) = false := by decide +kernel
def haloS : State := withStream 1 ((flat 0 12 12 2).setField 0x1A 2 32) kern
theorem witness_EngineCommandForms :
    kern.inStage = false ∧ stage.inStage = true ∧ kern.tilesMine false (rowTiles 0 64) = none ∧ ecf.row.toNat + ecf.rows.toNat ≤ 8192 ∧
    (ringS.rh 0).valid = true ∧ (ringS.ecopyRings.find? fun x => x.1 == (ringS.rh 0).wmem && x.2.any (ringS.rh 0).tiles.contains) = none ∧
    (let v := kern.onVslot 0 15 fun x => { x with loaded := true }
     (v.vslot v.die 15).loaded = true ∧ (v.vslot v.die 15).inUse = false ∧ (v.vslot v.die 15).f 0 4 = (v.layEnt v.die v.jcb 3).handle.toNat) ∧
    kern.pendOn (fun _ i => match i with | .reshard _ w => w == 15 | _ => false) = false ∧ ((kern.onVslot 0 15 fun x => { x with inUse := true }).vslot 0 15).inUse = true ∧ haloS.hxchTrap 1 63 = none := by decide +kernel
def contOf (s : State) : Cont := s.self.getD (Cont.blank 0)
theorem witness_TaskForms :
    (kern.self = some (contOf kern) ∧ (contOf kern).record = none ∧ (contOf kern).posted = false ∧ (contOf kern).handlerOf = none) ∧ kern.dieOk kern.die = true ∧
    (let s := kern.onCont 0 fun c => { c with posted := true }
     s.self = some (contOf s) ∧ (contOf s).posted = true ∧ (contOf s).record = none ∧ (contOf s).handlerOf = none) ∧
    (let s := kern.onCont 0 fun c => { c with handlerOf := some (0x2000, some 1, true) }
     s.self = some (contOf s) ∧ (contOf s).handlerOf = some (0x2000, some 1, true)) ∧
    stage.self = some (contOf stage) ∧ (contOf stage).record.isSome = true := by decide +kernel
theorem witness_RouterForms :
    let own := kern.onTset 0 7 fun t => { t with holder := some 0x1000, nstg := 1, qcap := 0, stages := [{ kdesc := 0x1000, pass := 0, cost := 0 }] }
    let room := kern.onTset 0 7 fun t => { t with holder := some 0x1000, nstg := 1, qcap := 4095, stages := [{ kdesc := 0x1000, pass := 0, cost := 0 }] }
    let taken := fun (s : State) => s.pendOn fun j e => match e with | .setTake m _ _ => m == 7 && j != s.jcb | _ => false
    taken kern = false ∧ taken (onOther (.setTake 7 0 0) kern) = true ∧ kern.inStage = false ∧ (room.tset room.die 7).holder = some room.jcb ∧ room.freePlace 7 = some 0 ∧ (own.tset own.die 7).holder = some own.jcb ∧
    own.freePlace 7 = none ∧ stage.self = some (contOf stage) ∧ (contOf stage).record = some (0, 0) ∧
    ((fget none (stage.tset stage.die 0).places 0).any fun x => decide (x.lcnt.getD 0 0 < x.lcap)) = true ∧ kern.self.bind Cont.record = none ∧
    (kern.tset kern.die 7).holder = none ∧ (own.tset own.die 7).flight = 0 ∧ (kern.tset kern.die 7).flight = 0 ∧ (stage.tset stage.die 0).flight ≠ 0 ∧ (stage.tset stage.die 0).holder = some stage.jcb ∧ (kern.tset kern.die 7).holder ≠ some kern.jcb ∧
    ((kern.onTset 0 7 fun t => { t with holder := some 1 }).tset 0 7).holder ≠ none := by decide +kernel
theorem witness_CursorLayoutAndSystemForms :
    let q := kern.wsq 2 { valid := true, region := 0x100, cap := 255, clen := 0, tlen := 0 }
    let r := kern.wsq 2 { valid := true, region := 0x100, cap := 254, clen := 0, tlen := 0 }
    (q.rsq 2).valid = true ∧ (q.rsq 2).clen.toNat + (q.rsq 2).tlen.toNat + 255 ≤ (q.rsq 2).cap.toNat ∧ (r.rsq 2).valid = true ∧
    (r.rsq 2).cap.toNat < (r.rsq 2).clen.toNat + (r.rsq 2).tlen.toNat + 255 ∧ q.inStage = false ∧ (q.rs 1).toNat % 2 ^ 32 ≤ (q.rsq 2).tlen.toNat ∧
    (q.rsq 2).tlen.toNat < ((q.ws 1 1).rs 1).toNat % 2 ^ 32 ∧ (kern.rsq 2).valid = false ∧ (kern.layEnt 0 kern.jcb 15).kind ≠ 3 ∧
    ((kern.onLayEnt 0 0x1000 15 fun e => { e with kind := 3 }).layEnt 0 0x1000 15).kind = 3 ∧ (kern.layCopy 0 0x1000).map (fun l => decide (15 < l.ents.length)) = some true ∧
    ((kern.onLayEnt 0 0x1000 15 fun e => { e with busy := true }).layEnt 0 0x1000 15).busy = true ∧ ((kern.onLayEnt 0 0x1000 15 fun e => { e with began := 1 }).layEnt 0 0x1000 15).began ≠ (kern.layEnt 0 0x1000 15).began ∧
    (kern.layEnt 0 0x1000 15).busy = false ∧ jcbPriv kern kern.jcb = true ∧ jcbPriv State.reset State.reset.jcb = false ∧
    ((kern.ws 1 63).rs 1).toNat ≤ 63 ∧ ((kern.ws 1 64).rs 1).toNat > 63 := by decide +kernel

/-! Landings, waits, queues. -/

def landS (l : List Pend) : State := kern.onCore fun c => { c with pend := l }
theorem witness_ResultLandings :
    let due := fun (s : State) mx => s.core.pend.filter fun x => decide (x.due ≤ s.now) && (if mx then x.eff.isMx else !x.eff.isMx && !x.eff.isShared && !x.eff.isTiles)
    (∀ e ∈ [Eff.sreg 31 1, .preg 15 true, .vreg 31 1 1, .flags 63, .amem 0 1 1, .acc 1023 1 1], due (landS [pendOf 0 e]) false = [pendOf 0 e] ∧ (landS [pendOf 0 e]).effFlaw e = none) ∧
    due (landS [pendOf 1 (.sreg 31 1), pendOf 0 (.sreg 31 2)]) false = [pendOf 1 (.sreg 31 1), pendOf 0 (.sreg 31 2)] ∧
    (∀ e ∈ [Eff.mctl 15 0 true, .mreg 15 dense0], due (landS [pendOf 6 e]) true = [pendOf 6 e]) ∧ kern.mrfOcc - (kern.rm 15).body.granules + dense0.granules ≤ kern.core.mrfCap := by
  decide +kernel
def heldS (k : Nat) (rem : Nat) : State := (barrierS (some 0x1000)).onCore fun c => { c with mode := .held { what := .barrier 63 k, lim := 5, rem := rem } }
def waitOf (k rem : Nat) : Wait := { what := .barrier 63 k, lim := 5, rem := rem }
theorem witness_HeldWaits :
    let before := fun (s : State) => s.boundaryTrap.isSome || (s.atSafePoint && (s.ctl.budget == 0 || s.marked.isSome))
    let told := (heldS 1 0).onCont 0 fun c => { c with reports := [accessFault 0x11 0 0] }
    let handler := (heldS 1 0).onCont 0 fun c => { c with handlerOf := some (0x2000, none, false) }
    before (heldS 1 1) = false ∧ before (heldS 1 0) = false ∧ before told = true ∧ told.waitHolds (waitOf 1 0) = false ∧ told.core.mode = .held (waitOf 1 0) ∧
    (contOf (heldS 1 0)).handlerOf = none ∧ before handler = false ∧ handler.waitHolds (waitOf 1 0) = false ∧ handler.self = some (contOf handler) ∧ (contOf handler).handlerOf ≠ none ∧
    ((heldS 1 0).barrier (heldS 1 0).die 63).job = some (heldS 1 0).jcb ∧
    (heldS 0 5).core.mode = .held (waitOf 0 5) ∧ ((heldS 0 5).waitUpdate (waitOf 0 5)).waitHolds (waitOf 0 5) = true ∧ ((heldS 1 5).waitUpdate (waitOf 1 5)).waitHolds (waitOf 1 5) = false ∧
    (heldS 1 1).waitHolds (waitOf 1 1) = false ∧ ((heldS 1 1).barrier (heldS 1 1).die 63).job = some (heldS 1 1).jcb ∧ (waitOf 1 1).rem ≠ 0 ∧ (waitOf 1 0).rem = 0 ∧
    (heldS 1 0).waitHolds (waitOf 1 0) = false ∧ (heldS 1 0).self = some (contOf (heldS 1 0)) ∧
    (let f := (heldS 1 1).onBarrier 0 63 fun _ => Barrier.reset
     before f = false ∧ f.core.mode = .held (waitOf 1 1) ∧ f.waitHolds (waitOf 1 1) = false ∧ (f.barrier f.die 63).job ≠ some f.jcb) := by decide +kernel
/-- The kernel with a SAFE bundle and a side table that names its word offset 0. -/
def safeS (budget : BitVec 32) : State :=
  (((State.reset.placeKernel [0x35 * 2 ^ 26 + 2 ^ 16 + 2 ^ 8, 0]).wr (ldPage 0 + ldSide) 4 1).onCtl fun c => { c with budget := budget }).onCont 0 fun c => { c with mark := some 0 }
def maskOf (s : State) : Mask := match s.sideMask with
  | .ok (some k) => k
  | _ => Mask.all 0
def overdueS : State := kern.onCore fun c => { c with spCount := 2049 }
def savingS : State := ((safeS 1).onCore fun c => { c with mode := .saving whyPreempt, iss := { c.iss with safe := true } }).onXl fun x => { x with leaf := [{ die := 0, asid := 0, page := 0, level := 1, entry := BitVec.ofNat 64 (ldPage 0 + 0x1F) }] }
def saved (s : State) : State × Option (Nat × Nat) := s.writePieces s.ctl.asid.toNat (slotAddr s s.jcb s.mySlot) s.savePieces
theorem witness_SafePoints :
    (contOf (safeS 0)).handlerOf = none ∧ savingS.self = some (contOf savingS) ∧ savingS.saveFlaw = none ∧ (safeS 0).self = some (contOf (safeS 0)) ∧ (safeS 0).atSafePoint = true ∧ (safeS 0).ctl.budget = 0 ∧
    (safeS 1).self = some (contOf (safeS 1)) ∧ (safeS 1).atSafePoint = true ∧ (safeS 1).ctl.budget ≠ 0 ∧ (contOf (safeS 1)).mark = some 0 ∧
    (match (safeS 1).sideMask with | .ok (some _) => true | _ => false) = true ∧ 0 < markCkpt ∧
    overdueS.self = some (contOf overdueS) ∧ overdueS.core.mode = .run ∧ overdueS.core.rep = 0 ∧ overdueS.core.issueAt ≤ overdueS.now ∧
    overdueS.ctl.spbound.toNat < overdueS.core.spCount ∧ overdueS.boundaryTrap = none ∧ overdueS.waitOver = true ∧ overdueS.wouldHold = false ∧
    savingS.core.mode = .saving whyPreempt ∧ savingS.core.saveDone ≤ savingS.now ∧ (contOf savingS).gang = none ∧ (saved savingS).2 = none := by decide +kernel
def stE (va v : Nat) : QEnt := entryOf (.st 1 1 0) [va, v]
/-- A translation of ASID 0 in the core's own cache: the 1 GiB leaf of the loaded kernel. -/
def queueS (load store : List QEnt) : State := kern.onCore fun c => { c with loadQ := load, storeQ := store, tc := [{ die := 0, asid := 0, page := 0, level := 1, entry := BitVec.ofNat 64 (ldPage 0 + 0x1F) }] }
def homeOf (s : State) (va : Nat) (k : Acc) (pa : Nat) : Prop := ∃ x, leafHit s.core.tc s.die 0 (va % 2 ^ 56) = some x ∧ s.leafPa x.entry.toNat x.level (va % 2 ^ 56) k = .ok pa ∧ inWindow pa = false ∧ paDie pa = s.die
def spawnF : SpawnF := { a := 0, d := 0, g := 0, remote := false, raise := false, stage := 0, entry := 0 }
def spawnE : QEnt := entryOf (.spawn spawnF) [0, 7, 0, 0x3000, 0x1000]
/-- The read of what the entry at the head performs with, come back whole. -/
def headRead (e : QEnt) : Outst := { id := 9, q := e, dest := .head, resp := .remote, due := 0, load := false, acq := false, buf := List.replicate 64 0 }
def withHead (e : QEnt) (s : State) : State := s.onCore fun c => { c with outst := [headRead e] }
/-- A record submitted at place 0 of set 0, its header at 0x9000 in the loaded page. -/
def tsubE : QEnt := entryOf (.tsub 0 1 5 1) [0, 0x9000]
def tsubS : State := (withHead tsubE (queueS [] [tsubE])).onTset 0 0 fun t => { t with
  holder := some 0x1000, places := [(0, some {
    hdr := 0x9000, deadline := 0, bar := 5, done := 0, verd := 0, fstg := none, draws := 0, lcnt := [], log := 0, lcap := 0, outcome := 0,
    running := none, sub := 0, pc := 0, admitted := false, since := 0, step := 0 })] }
def outstS (r : Resp) : State := kern.onCore fun c => { c with outst := [{ id := 9, q := entryOf (.ld 1 1 0) [0], dest := .sreg 1, resp := r, due := 0, load := true, acq := false, buf := [] }] }
theorem witness_OffCoreAccesses :
    (queueS [] [stE 0x9007 5]).acqBlocked (stE 0x9007 5) = false ∧ (queueS [] []).core.outst = [] ∧ (queueS [] [stE 0x9007 5]).headOf true = some (stE 0x9007 5) ∧ homeOf (queueS [] []) 0x9000 .write (ldPage 0 + 0x9000) ∧
    (queueS [entryOf (.ld 1 1 0) [0x9000]] []).headOf false = some (entryOf (.ld 1 1 0) [0x9000]) ∧ lineHit (queueS [] []).core.l1d 0 0x9000 = none ∧
    homeOf (queueS [] []) 0x9000 .read (ldPage 0 + 0x9000) ∧ (queueS [entryOf .l1inv []] []).headOf false = some (entryOf .l1inv []) ∧
    (∀ p ∈ [(spawnE, withHead spawnE (queueS [] [spawnE])), (tsubE, tsubS)], p.2.acqBlocked p.1 = false ∧ p.2.headOf true = some p.1 ∧ p.2.core.outst.find? (fun x => x.dest == .head && x.q.id == p.1.id) = some (headRead p.1)) ∧
    (headRead spawnE).q = spawnE ∧ (headRead tsubE).resp = .remote ∧ (headRead tsubE).buf.length = 64 ∧ (withHead spawnE (queueS [] [spawnE])).dieLevelFree 0 = true ∧
    headerRefused (headRead tsubE).buf = false ∧ (tsubS.tset tsubS.die 0).holder = some tsubE.jcb ∧
    (fget none (tsubS.tset tsubS.die 0).places 0).isSome = true ∧
    (∀ r ∈ [Resp.value 5, .fault (accessFault 0x11 0 0), .fault { accessFault 0x11 0 0 with resumable := true }],
      ((outstS r).core.outst.find? fun x => x.id == 9) = some { id := 9, q := entryOf (.ld 1 1 0) [0], dest := .sreg 1, resp := r, due := 0, load := true, acq := false, buf := [] }) ∧
    (outstS (.value 5)).selfKey = 0 ∧ (kern.cont 0).isSome = true ∧
    (stE 0x9007 5).both = false ∧ spawnE.args.length ≤ 5 ∧ spawnE.both = false ∧ (queueS [] []).flawed ((ldPage 0 + 0x9000) / 64 * 64) 64 = false ∧ (queueS [] []).flawed (ldPage 0 + 0x9000) 8 = false ∧
    (outstS (.value 5)).core.dropFrom = none ∧ ((outstS (.value 5)).onCore fun c => { c with dropFrom := some 0 }).core.dropFrom = some 0 ∧ (entryOf (.ld 1 1 0) [0]).id ≤ 0 ∧
    (let o : Outst := { id := 9, q := { entryOf (.ld 1 1 0) [0] with id := 1 }, dest := .sreg 1, resp := .value 5, due := 0, load := true, acq := false, buf := [] }
     let s := kern.onCore fun c => { c with outst := [o], dropFrom := some 0 }
     (s.core.outst.find? fun x => x.id == 9) = some o ∧ s.core.dropFrom = some 0 ∧ 0 < o.q.id) ∧ (outstS (.value 5)).core.res = some 0 := by
  have h : ∀ k ∈ [Acc.write, .read], homeOf (queueS [] []) 0x9000 k (ldPage 0 + 0x9000) := fun k hk =>
    ⟨{ die := 0, asid := 0, page := 0, level := 1, entry := BitVec.ofNat 64 (ldPage 0 + 0x1F) }, by revert k; decide +kernel⟩
  refine ⟨by decide +kernel, by decide +kernel, by decide +kernel, h _ (by simp), by decide +kernel, by decide +kernel, h _ (by simp), ?_⟩
  decide +kernel

/-! Engines and the router. -/

/-- A command of the resident kernel that has nothing left to do. -/
def cmdOf (i : Instr) (args : List Nat) (tiles : List Nat) (fail : Option Trap) : Cmd :=
  { id := 3, die := 0, core := 0, handle := 0, jcb := 0x1000, asid := 0, pc := 0x3000, i := i, args := args, st := Stream.reset, tilesW := false, tiles := tiles,
    since := 0, due := 0, pos := 0, aux := [], buf := [], sent := 0, items := [], put := none, fail := fail, finished := true, status := none }
def cmdS (c : Cmd) : State := { (barrierS (some 0x1000)) with cmds := [c] }
def putI : Instr := .put 1 63
theorem witness_CommandEnds :
    (cmdS (cmdOf putI [0] [] none)).cmd 3 = some (cmdOf putI [0] [] none) ∧ (cmdS (cmdOf putI [0] [] none)).canEnd (cmdOf putI [0] [] none) = true ∧
    (cmdOf putI [0] [] none).status = none ∧ (cmdOf putI [0] [] none).byFaces = false ∧ ((cmdS (cmdOf putI [0] [] none)).barrier 0 (barOf putI).toNat).job = some 0x1000 ∧
    (cmdS (cmdOf putI [0] [] (some (accessFault 0x11 0 0)))).canEnd (cmdOf putI [0] [] (some (accessFault 0x11 0 0))) = true ∧ (kern.cont 0).isSome = true ∧
    (let c := cmdOf (.ecopy { ecf with bar := 63 }) [0x9000, 0, 0, 0, 0] [0] none
     (cmdS c).canEnd c = true ∧ c.isRing = false ∧ (((cmdS c).coreAt 0).tile false 0).jtag = (cmdS c).jtag 0 0x1000) := by decide +kernel
def hit (s : State) : State := s.onXl fun x => { x with leaf := [{ die := 0, asid := 0, page := 0, level := 1, entry := BitVec.ofNat 64 (ldPage 0 + 0x1F) }] }
def pipe0 : Pipe := { fromStage := 0, toStage := 1, ptile := 0, ctile := 127, depth := 1, ph := 0, ch := 0, prod := 0, cons := 0 }
def gangOf (st : GangState) (ms cs : List Nat) : Gang := { id := 5, die := 0, state := st, members := ms, cores := cs, pipes := [pipe0], packet := BitVec.ofNat 512 (0x1000 * 2 ^ 64), unit := 0 }
def pipeS : State := (({ kern with sched := { kern.sched with gangs := [gangOf .admitted [0, 0] [0, 1]] } }).onCoreAt 0 fun k => k.setTile false 0 fun _ => { jtag := 0, owner := 1 }).onCoreAt 1
  fun k => k.setTile false 127 fun _ => { jtag := 0, owner := 1 }
def ringF (out : Bool) : EcopyF := { ecf with out := out, ring := true, rows := 64, bar := 63, stride := 256 }
def ringC (out : Bool) (pos : Nat) : Cmd := { cmdOf (.ecopy (ringF out)) [0x10000, 0, 2, 1, 0] [] none with finished := false, pos := pos }
def ringCmdS (c : Cmd) : State := hit ((cmdS c).onCoreAt 0 fun k => k.setTile false 2 fun _ => { jtag := 0, owner := 1 })
/-- Where a row of the ring lies: in the loaded page. -/
def ringPa (pos : Nat) : Nat := ldPage 0 + 0x10000 + 256 * pos
def leaf0 : Leaf := { die := 0, asid := 0, page := 0, level := 1, entry := BitVec.ofNat 64 (ldPage 0 + 0x1F) }
def faceOf (gen : BitVec 16) (dir : Nat) : Face := { id := 8, dst := 0, core := 0, st := 1, dir := dir, gen := gen, cmd := 3, jcb := 0x1000, handle := 0, pc := 0, bytes := [(0, 5)], len := 1, out := 1 }
/-- An exchange of all six faces that has had those of `got`. -/
def haloC (got : List Nat) : Cmd := { cmdOf (.hxch 1 63 63) [0, 0] [] none with finished := false, pos := 1, aux := got }
def faceS (f : Face) (got : List Nat) : State := { (cmdS (haloC got)) with faces := [f] }
def reshC (pos phase : Nat) : Cmd := { cmdOf (.reshard 1 2 63) [] [] none with finished := false, pos := pos, aux := [phase], buf := if phase = 2 then List.replicate 16 7 else [] }
/-- Two steps that move 16 bytes each to the member `peer` of a group of one, the die itself, and send no token. -/
def reshS (peer : Nat) (c : Cmd) : State := hit ((cmdS c).onVslot 0 2 fun x => { x with
  loaded := true, inUse := true,
  image := natLe 6 0 ++ natLe 2 2 ++ natLe 8 0 ++ natLe 4 0 ++ natLe 2 1 ++ natLe 2 1 ++ natLe 2 1 ++ List.replicate 38 0 ++
    (List.replicate 2 (natLe 8 0x10000 ++ natLe 8 0x20000 ++ natLe 4 16 ++ natLe 2 peer ++ natLe 2 0 ++ natLe 2 0xFFFF ++ List.replicate 6 0)).flatten })
def Work.isDone (w : Work) : Bool := match w with
  | .done _ => true
  | _ => false
theorem witness_EngineSteps_pipes :
    (pipeS.sched.gangs.find? fun x => x.id == 5) = some (gangOf .admitted [0, 0] [0, 1]) ∧ (gangOf .admitted [0, 0] [0, 1]).pipes[0]? = some pipe0 ∧
    pipeS.pipeReady (gangOf .admitted [0, 0] [0, 1]) pipe0 = true := by decide +kernel
theorem witness_EngineSteps_pipeCores : (gangOf .admitted [0, 0] [0, 1]).cores[0]? = some 0 ∧ (gangOf .admitted [0, 0] [0, 1]).cores[1]? = some 1 ∧ (pipeS.coreAt 0).padBad = [] := by decide +kernel
theorem witness_EngineSteps_faces :
    (∀ p ∈ [(0, 0, []), (1, 0, []), (0, 5, [0, 1, 2, 3, 4])], let f := faceOf (BitVec.ofNat 16 p.1) p.2.1; let s := faceS f p.2.2
      (s.faces.find? fun x => x.id == 8) = some f ∧ s.faceTarget f = some (haloC p.2.2) ∧ s.faceHere f = true ∧ (s.layEnt 0 0x1000 0).gen = 0) ∧
    (haloC []).aux.length + 1 < (hxFaces (haloC []).i).length ∧ (hxFaces (haloC []).i).length ≤ (haloC [0, 1, 2, 3, 4]).aux.length + 1 := by decide +kernel
theorem witness_EngineSteps_resharding :
    (∀ c ∈ [reshC 0 0, reshC 0 1, reshC 0 2, reshC 0 3, reshC 1 3], (reshS 0 c).cmd 3 = some c ∧ (reshS 0 c).stepReady c = true ∧ (reshS 0 c).cmdIdle 3 = true) ∧
    (reshS 1 (reshC 0 0)).stepReady (reshC 0 0) = true ∧ ((reshS 1 (reshC 0 0)).vslot 0 2).group.size ≤ (((reshS 1 (reshC 0 0)).vslot 0 2).step 0).peer ∧
    Work.isDone ((reshS 0 (reshC 0 1)).engFetch (reshC 0 1) [(0x10000, 16)]) = true ∧ Work.isDone ((reshS 0 (reshC 0 2)).engWrite (reshC 0 2) [(0x20000, 16)] (List.replicate 16 7)) = true ∧
    (let x := (reshS 0 (reshC 0 3)).vslot 0 2
     x.nstep = 2 ∧ [(x.step 0).src, (x.step 0).dst, (x.step 0).len, (x.step 0).tstep, (x.step 1).tstep] = [0x10000, 0x20000, 16, 0xFFFF, 0xFFFF]) ∧
    ((reshS 0 (reshC 1 3)).layCopy 0 0x1000).map (fun l => decide (1 < l.ents.length)) = some true := by decide +kernel
theorem witness_EngineSteps_rings :
    (∀ out ∈ [false, true], ∀ pos ∈ [0, 63], let c := ringC out pos; let s := ringCmdS c
      s.cmd 3 = some c ∧ s.ringReady c = true ∧ c.buf = [] ∧ c.sent = 0 ∧ (s.coreAt 0).padBad = [] ∧ rowVa 0x10000 (ringF out).stride pos = 0x10000 + 256 * pos ∧
      leafHit s.xl.leaf 0 0 (0x10000 + 256 * pos) = some leaf0 ∧ (s.leafPa leaf0.entry.toNat leaf0.level (0x10000 + 256 * pos) (if out then .write else .read)).toOption = some (ringPa pos) ∧
      s.flawed (ringPa pos) 256 = false) ∧
    (∀ pos ∈ [0, 63], inWindow (ringPa pos) = false ∧ paDie (ringPa pos) = 0) := by decide +kernel
/-- A request of die 1 for the die of the kernel. -/
def reqOf (arrived lost : Bool) (a : Option (Nat × Nat)) : Req :=
  { id := 6, src := mkDie 1 0 0, dst := 0, seq := 9, bulk := false, jcb := 0x1000, va := 0x9000, kind := .write (ldPage 0 + 0x9000) [1], owner := .store 0 (stE 0x9000 1), first := 0, sent := 0,
    tries := 0, arrived := arrived, lost := lost, answer := a, due := 0, path := [], held := false, told := false, back := 0, bpath := [], bsent := 0 }
def reqS (r : Req) (s : State) : State := s.onFab fun f => { f with reqs := [r] }
theorem witness_EngineSteps_reshardingWaits : (reqS { reqOf false false none with owner := .cmd 3 } (reshS 0 (reshC 0 3))).cmdIdle 3 = false := by decide +kernel
def msgOf (c : Crit) : Msg :=
  { id := 4, src := 1, dst := 0, crit := c, jcb := 0x1000, issuer := 0, pc := 0x3000, opc := 1, core := 0, path := [], number := 0, first := 0, sent := 0, due := 0, lost := false, heard := false, spoilt := none }
def msgS (c : Crit) (s : State) : State := s.onFab fun f => { f with msgs := [msgOf c] }
theorem witness_CriticalArrivals :
    (∀ c ∈ [Crit.arrival 63 0, .token 7 1], (msgS c kern).msg 4 = some (msgOf c) ∧ (msgOf c).here (msgS c kern).now = true) ∧
    ((msgS (.arrival 63 0) (barrierS (some 0x1000))).barrier 0 63).job = some 0x1000 ∧ ((msgS (.arrival 63 0) kern).barrier 0 63).job ≠ some 0x1000 ∧ (kern.cont 0).isSome = true ∧
    (let s := msgS (.token 7 1) (kern.onVslot 0 15 fun x => { x with loaded := true, image := natLe 6 7 ++ natLe 2 2 })
     s.slotOf 0 7 = some 15 ∧ 1 < (s.vslot 0 15).nstep) := by decide +kernel
def placeOf (outcome : Nat) : Place := {
  hdr := 0x9000, deadline := 0, bar := 63, done := 0, verd := 0, fstg := none, draws := 0, lcnt := [], log := 0, lcap := 0, outcome := outcome,
  running := none, sub := 0, pc := 0, admitted := true, since := 0, step := 0 }
def placeS (outcome : Nat) : State := hit (((barrierS (some 0x1000)).onTset 0 7 fun t => { t with holder := some 0x1000, places := [(9, some (placeOf outcome))] }).onClk fun k => { k with now := 1 })
def endingJob (s : State) : State := s.onSched fun x => { x with ending := [{ jcb := 0x1000 }] }
/-- The header lies on die 1, and the die has no request number left for it. -/
def fullS : State := ((placeS 2).onXl fun x => { x with leaf := [{ leaf0 with entry := BitVec.ofNat 64 (ldPage 1 + 0x1F) }] }).onFab fun f =>
  { f with reqs := List.replicate Config.maxUnacked { reqOf false false none with src := 0, dst := 1 } }
theorem witness_RecordCompletions :
    (∀ o ∈ [0, 2], let q := if o = 0 then 1 else o; let s := placeS o; let p := placeOf o
      fget none (s.tset 0 7).places 9 = some p ∧ (s.tset 0 7).holder = some 0x1000 ∧ p.final (s.tset 0 7) s.now = some q ∧ s.isEnding 0x1000 = false ∧ (endingJob s).isEnding 0x1000 = true ∧
      (p.acts q).length ≤ (s.routerActs 0 0x1000 p (p.acts q) 0).2 ∧ (s.barrier 0 63).job = some 0x1000) ∧
    (∀ o ∈ [0, 2], (placeS o).laterThan 0 0 = false) ∧ ((placeS 2).writable 0 (jcbAsid (placeS 2) 0x1000) 0x9000).toOption = some (ldPage 0 + 0x9000) ∧ paDie (ldPage 0 + 0x9000) = 0 ∧
    (let s := (placeS 2).onTset 0 7 fun t => { t with places := [(8, some (placeOf 2)), (9, some { placeOf 2 with since := 1 })] }
     let u := s.onClk fun k => { k with now := 2 }
     ({ placeOf 2 with since := 1 }).final (u.tset 0 7) u.now = some 2 ∧ u.laterThan 0 1 = true) := by decide +kernel
theorem witness_RecordCompletions_waits :
    fget none (fullS.tset 0 7).places 9 = some (placeOf 2) ∧ (placeOf 2).final (fullS.tset 0 7) fullS.now = some 2 ∧ fullS.isEnding 0x1000 = false ∧ fullS.laterThan 0 0 = false ∧
    (fullS.routerActs 0 0x1000 (placeOf 2) ((placeOf 2).acts 2) 0).2 < ((placeOf 2).acts 2).length := by decide +kernel

/-! Traps, scheduling, jobs. -/

def actionS (a : Nat) : State := kern.onCont 0 fun c => { c with state := stSuspended, action := some (a, 0, 0) }
def trapOf (r : Bool) : TrapJob := { die := 0, key := some 0, jcb := 0x1000, deadline := 0, trap := { cause := cBreak, pc := 0x3000, resumable := r }, deferred := false, sslot := some 0 }
/-- A trap on its way; HKDESC names the kernel's own descriptor; the trap area has n records. -/
def trapS (r : Bool) (n : Nat) : State := hit (((kern.wr (ldJcb 0 + 0x28) 8 ldKdesc).wr (ldJcb 0 + 0x30) 8 (n * 2 ^ 56 + ldTrap)).toTraps (trapOf r))
def recordAt : Nat := ldTrap + 64
theorem witness_TrapRecordsAndActions :
    (actionS 0).cont 0 = some (contOf (actionS 0)) ∧ (contOf (actionS 0)).action = some (0, 0, 0) ∧ (contOf (actionS 3)).action = some (3, 0, 0) ∧ (contOf (actionS 0)).record = none ∧
    (contOf (actionS 0)).handlerOf = none ∧ (trapS false 1).freeRecord 0 0 ldTrap 1 0 = some recordAt ∧ (trapS true 1).sched.traps = [trapOf true] ∧ (trapS true 1).cont 0 = some (contOf (trapS true 1)) ∧
    (trapS true 0).freeRecord 0 0 ldTrap 0 0 = none ∧ jcbTrapbase (trapS true 0) 0x1000 / 2 ^ 56 = 0 ∧ jcbTrapbase (trapS true 1) 0x1000 / 2 ^ 56 = 1 ∧
    (trapS true 1).freeRecord 0 0 ldTrap 1 0 = some recordAt ∧ ((trapS true 1).wrVirt 0 0 recordAt (natLe 64 (trapRecord (trapOf true) false))).2 = none ∧
    (((trapS true 1).wrVirt 0 0 recordAt (natLe 64 (trapRecord (trapOf true) false))).1.handler (trapOf true) recordAt).isSome = true ∧ ((trapS true 1).handler (trapOf true) 0).isSome = true ∧
    (trapS true 1).flawed (0x1000 + 0x28) 16 = false ∧ (actionS 3).flawed 0x1000 16 = false ∧ ((trapS false 1).wrVirt 0 0 recordAt (natLe 64 (trapRecord { trapOf false with sslot := none } false))).2 = none ∧
    (let s := (trapS true 1).wr (ldJcb 0 + 0x28) 8 0
     s.handler (trapOf true) 0 = none ∧ s.freeRecord 0 0 ldTrap 1 0 = some recordAt ∧ (s.wrVirt 0 0 recordAt (natLe 64 (trapRecord { trapOf true with sslot := none } false))).2 = none ∧
       ((s.wrVirt 0 0 recordAt (natLe 64 (trapRecord { trapOf true with sslot := none } false))).1.handler (trapOf true) recordAt) = none) ∧ contKey 0 (fget 0 (trapS true 1).sched.nextHandle 0) ≠ 0 := by
  decide +kernel
def packetOf (count kdesc : Nat) : BitVec 512 := BitVec.ofNat 512 (ldJcb 0 + kdesc * 2 ^ 64 + count * 2 ^ (8 * 0x20))
def packetS (p : BitVec 512) : State := (kern.wr (ldJcb 0 + 0x48) 8 1).onSched fun x => { x with launch := [(15, [p])] }
theorem witness_PacketExpansions :
    (packetS (packetOf 3 ldKdesc)).dieLevelFree 0 = true ∧ (packetS (packetOf 3 ldKdesc)).nextQueue 0 = some 15 ∧ (packetS (packetOf 3 ldKdesc)).launchQ 0 15 = [packetOf 3 ldKdesc] ∧
    (packetS (packetOf 3 ldKdesc)).paBad (pktJcb (packetOf 3 ldKdesc)) = false ∧ inWindow (pktJcb (packetOf 3 ldKdesc)) = false ∧ paDie (pktJcb (packetOf 3 ldKdesc)) = 0 ∧
    (packetS (packetOf 3 ldKdesc)).launchCheck 0 (packetOf 3 ldKdesc) = .ok 1 ∧ (packetS (packetOf 3 ldKdesc)).rd (ldJcb 0 + 0x48) 8 ≠ 0 ∧
    pktCount (packetOf 3 ldKdesc) ≠ 0 ∧ pktGang (packetOf 3 ldKdesc) = false ∧ (afterExec (.packetExpansion 0) (packetS (packetOf 3 ldKdesc))).sched.ending = [] ∧ inWindow (pktJcb (BitVec.ofNat 512 windowOff)) = true ∧
    (packetS (packetOf (2 ^ 32 - 1) ldKdesc)).launchCheck 0 (packetOf (2 ^ 32 - 1) ldKdesc) = .error cRange := by decide +kernel
def readyOf (i : ReadyItem) : Ready := { die := 0, level := .die, deadline := 0, seq := 0, item := i }
/-- A second continuation of the kernel, ready, with a free save slot. -/
def readyC : Cont := { Cont.blank 0x1000 with jtag := 0, pc := 0x3000, kdesc := 0x1000 }
def readyS : State := (hit (kern.wr (ldJcb 0 + 0x40) 4 3)).onSched fun x => { x with conts := x.conts ++ [(1, some readyC)], ready := [readyOf (.cont 1)] }
def gangS (g : Gang) (members : FMap (Option Cont)) : State := (hit (kern.wr (ldJcb 0 + 0x40) 4 3)).onSched fun x => { x with gangs := [g], conts := x.conts ++ members, ready := [readyOf (.gang 5)] }
def gangG (st : GangState) : Gang := { gangOf st [1] [2] with pipes := [], packet := packetOf 1 ldKdesc }
def memberC (st : Nat) : Cont := { readyC with gang := some (5, 0), state := st }
theorem witness_DispatchAndGangs :
    readyS.idleCore 63 = true ∧ readyS.claimed 63 = false ∧ readyS.running.contains (dieOf 63) = true ∧ (readyS.sched.ready.find? fun x => readyS.itemOk x 63) = some (readyOf (.cont 1)) ∧
    readyS.cont 1 = some readyC ∧ readyC.state = stReady ∧ (readyS.kdesc 0 0 readyC.kdesc.toNat).isOk = true ∧ (readyS.layCopy 0 0x1000).isSome = true := by decide +kernel
theorem witness_DispatchAndGangs_gangs :
    (let s := gangS (gangG .pending) [(1, some (memberC 1))]
     s.gang 5 = some (gangG .pending) ∧ (gangG .pending).members.length ≤ s.freeSlots 0x1000 ∧ s.sched.ckpts = [] ∧ ((List.range 8).filter fun x => s.gangFits (gangG .pending) x).head? = some 0 ∧
     s.gangLeast (gangG .pending) 0 = true ∧ pktCount (gangG .pending).packet ≤ (gangG .pending).unit + 1) ∧
    (let s := gangS (gangG .claiming) [(1, some (memberC 1))]
     s.gang 5 = some (gangG .claiming) ∧ s.gangIdle (gangG .claiming) = true ∧ s.needSlots (gangG .claiming) ≤ s.freeSlots 0x1000) ∧
    (let s := gangS (gangG .parked) [(1, some (memberC stSuspended))]
     s.gang 5 = some (gangG .parked) ∧ (s.cont 1).isSome = true ∧ (1, 2) ∈ (gangG .parked).members.zip (gangG .parked).cores ∧ (1, 2) ∉ s.savedMembers (gangG .parked)) ∧
    (let g := { gangG .parked with cores := [0] }
     (gangS g [(1, some (memberC stSaved))]).gang 5 = some g ∧ (gangS g [(1, some (memberC stSaved))]).idleCore 0 = false) ∧
    (let s := gangS (gangG .parked) [(1, some (memberC stSaved))]
     s.gang 5 = some (gangG .parked) ∧ (∀ m ∈ (gangG .parked).members.zip (gangG .parked).cores, m ∈ s.savedMembers (gangG .parked)) ∧ s.sched.ckpts = [] ∧ s.idleCore 2 = true ∧ s.claimed 2 = false ∧ s.firstOn 2 (s.gangEntry (gangG .parked)) = true ∧
     s.storesQuiet 1 = true) := by decide +kernel
def endingS : State := { (kern.onCore Core.vacate).onSched fun x => { x with ending := [{ jcb := 0x1000 }], conts := [] } with cmds := [] }
theorem witness_JobEnds : (endingS.sched.ending.any fun e => e.jcb == 0x1000) = true ∧ endingS.jobDrained 0x1000 = true := by decide +kernel

/-! Fabric, translation, checkpoints. -/

def at_ (n : Nat) (s : State) : State := s.onClk fun k => { k with now := n }
/-- A request of die 1, arrived and answered; one that only reads; the flit that brings a write's acknowledgement. -/
def answered (a : Nat × Nat) : Req := reqOf true false (some a)
def readReq : Req := { answered (0, 7) with kind := .read (ldPage 0 + 0x9000) 8, owner := .load 0 9 }
def ackOf : Msg := { msgOf (.ack 6) with dst := mkDie 1 0 0, src := 0 }
def recordedS : State := (reqS (reqOf false false none) kern).onFab fun f => { f with recorded := [{ src := mkDie 1 0 0, dst := 0, seq := 9, answer := some (0, 0) }] }
theorem witness_Requests :
    (recordedS.req 6 = some (reqOf false false none) ∧ (reqOf false false none).away kern.now = false ∧ recordedS.reqBehind (reqOf false false none) = false ∧
      (recordedS.fab.recorded.find? fun x => x.src == mkDie 1 0 0 && x.dst == 0 && x.seq == 9) = some { src := mkDie 1 0 0, dst := 0, seq := 9, answer := some (0, 0) }) ∧
    ((reqS (reqOf false false none) kern).fab.recorded = [] ∧ ((reqS (reqOf false false none) kern).performReq (reqOf false false none)).isSome = true) ∧
    (∀ a ∈ [(0, 0), (1, 0)], let s := (reqS (answered a) kern).onFab fun f => { f with msgs := [ackOf] }
      s.req 6 = some (answered a) ∧ (answered a).kind.answers = false ∧ s.ackHere 6 = true) ∧
    (reqS readReq kern).req 6 = some readReq ∧ readReq.kind.answers = true ∧ readReq.away kern.now = false ∧ readReq.arrived = true ∧ (reqS readReq kern).comesBehind readReq = false := by decide +kernel
theorem witness_Resends :
    (reqOf false true none).toResend (at_ 16800 (reqS (reqOf false true none) kern)).now = true ∧ (reqOf false true none).toResend (at_ 16799 (reqS (reqOf false true none) kern)).now = false ∧
    (reqOf false true none).first + 84000 ≤ (at_ 84000 (reqS (reqOf false true none) kern)).now ∧ (at_ 83999 kern).now < (reqOf false true none).first + 84000 ∧ (kern.cont 0).isSome = true ∧
    (reqOf false true none).held = false ∧ (msgOf (.receipt 1)).isReceipt = true ∧ (msgOf (.arrival 63 0)).isReceipt = false ∧ (reqOf false true none).told = false ∧ (∃ q, (reqOf false true none).owner = .store 0 q ∧ q.handle = 0) ∧
    (let m := { msgOf (.arrival 63 0) with lost := true }
     m.sent + 2100 ≤ (at_ 2100 kern).now ∧ (at_ 83999 kern).now < m.first + 84000 ∧ m.first + 84000 ≤ (at_ 84000 kern).now) ∧ (msgOf (.arrival 63 0)).lost = false := by
  refine ⟨by decide +kernel, by decide +kernel, by decide +kernel, by decide +kernel, by decide +kernel, by decide +kernel, by decide +kernel, by decide +kernel, by decide +kernel, ⟨_, rfl, rfl⟩, ?_⟩
  decide +kernel
/-- The other plane of port 0 of die 0 is down, and a request is on its way across that port. -/
def crossing : Req := { reqOf false false none with src := 0, dst := mkDie 1 0 0, due := 5, path := (kern.route 0 (mkDie 1 0 0)).getD [] }
def halfDead : State := (reqS crossing kern).onFab fun f => { f with planes := fput Plane.reset 1 { Plane.reset with down := true } f.planes }
theorem witness_Links :
    kern.peerPort 0 ≠ 0 ∧ kern.portDead 0 = false ∧ kern.portThere 0 = true ∧ (kern.plane 0 true).slots < 2 ^ 40 ∧
    (let s := { kern with cfg := { kern.cfg with sz := 1 } }
     s.peerPort 4 ≠ 4 ∧ s.portThere 4 = false) ∧
    ((∃ t, exec (.planeFailure 0 false) halfDead = .next t ∧ t.portDead 0 = true) ∧ halfDead.portThere 0 = true ∧ crossing.onWay halfDead.now (halfDead.hopIs 0) = true ∧ halfDead.peerPort 0 ≠ 0) ∧
    2 ^ 40 ≤ ((kern.onFab fun f => { f with planes := fput Plane.reset 1 { Plane.reset with slots := 2 ^ 40 } (fput Plane.reset 0 { Plane.reset with slots := 2 ^ 40 } f.planes) }).plane 0 true).slots := by
  refine ⟨by decide +kernel, by decide +kernel, by decide +kernel, by decide +kernel, by decide +kernel, ⟨⟨_, rfl, by decide +kernel⟩, ?_⟩, ?_⟩ <;> decide +kernel
def missOf0 (stale : Bool) : Miss := { die := 0, asid := 0, region := 0, started := 1, due := 5, stale := stale, got := [], asked := none, timed := 0, ended := none }
/-- A walk of die 0; with `far` its tables from level 0 on are homed on die 1. -/
def missS (far stale : Bool) : State := (at_ 5 (if far then kern.wr (ldRoot 0) 8 (ldL0 1 + 1) else kern)).onXl fun x => { x with miss := [missOf0 stale] }
def invE : QEnt := entryOf (.tlbinv 0 1 1) [0, 0]
def invS : State := (queueS [invE] []).onXl fun x => { x with inval := [(0, 0, 3)], miss := [{ missOf0 false with started := 4 }] }
theorem witness_Translations :
    (∀ b ∈ [false, true], (missS false b).xl.miss = [missOf0 b] ∧ (missOf0 b).ended = none ∧ (missOf0 b).due ≠ 0 ∧ (missOf0 b).due ≤ (missS false b).now ∧
      (match ((missS false b).missWalk (missOf0 b)).res with | .ok _ => true | .error _ => false) = true) ∧
    (match ((missS true false).missWalk (missOf0 false)).res with | .ok _ => false | .error c => c == xfNeed (ldL0 1)) = true ∧ reqFull (missS true false) 0 (paDie (ldL0 1)) = false ∧
    ((missS true false).sendReq 0 (paDie (ldL0 1)) 0 0 false (.read (ldL0 1) 8) (.walk 0 0 0)).2 = true ∧ invS.xl.inval = [(0, 0, 3)] ∧
    (invS.xl.miss.any fun m => m.die == 0 && m.ended.isNone && decide (m.started ≤ 3)) = false ∧ invS.invEntry 0 = some invE := by decide +kernel
/-- A checkpoint of the kernel's job that has read its descriptor and its list: one region of one page, the buddy the die itself. -/
def ckC (pos done : Nat) (items : List (Nat × List (BitVec 8))) : Cmd := { cmdOf (.ckpt 1 63) [0x9000] [] none with
  finished := false, pos := pos, aux := [done, 1], items := items,
  buf := natLe 4 0 ++ natLe 4 1 ++ natLe 8 0 ++ natLe 8 0xA000 ++ List.replicate 40 0 ++ natLe 8 0x10000 ++ natLe 8 0x10000 }
def ckS (c : Cmd) : State :=
  hit { ({ kern.onCore Core.vacate with cfg := { kern.cfg with safeGiB := 1 } }).onSched (fun x => { x with ckpts := [{ die := 0, cmd := 3 }] }) with cmds := [c] }
/-- The first byte of the half that the checkpoint writes. -/
def halfAt : Nat := windowOff - 2 ^ 30
theorem witness_Checkpoints :
    (∀ c ∈ [ckC 2 0 [], ckC 3 0 [], ckC 4 0 [], ckC 4 0 [(halfAt + 0xC, [0])], ckC 5 0 [], ckC 6 0 [], ckC 6 1 [], ckC 7 0 [], ckC 8 0 [], ckC 8 0 [(halfAt, [1, 2])], ckC 9 0 []],
      (ckS c).cmd 3 = some c ∧ c.active (ckS c).now = true ∧ (ckS c).cmdIdle 3 = true ∧ c.sent = 0) ∧
    (ckS (ckC 2 0 [])).ckQuiet (ckC 2 0 []) = true ∧ kern.ckQuiet (ckC 2 0 []) = false ∧ (reqS { reqOf false false none with owner := .cmd 3 } (ckS (ckC 7 0 []))).cmdIdle 3 = false ∧
    (ckS (ckC 4 0 [])).halfPa (ckC 4 0 []).ckDesc = halfAt ∧ (∀ j, j < 2 → paDie (halfAt + j) = 0) ∧ paDie (halfAt + 0xC + 0) = 0 ∧ (ckC 6 0 []).ckRegions = [(0x10000, 0x10000)] ∧
    (regionPieces (ckC 6 0 []).ckRegions)[0]? = some 0x10000 ∧ (regionPieces (ckC 6 1 []).ckRegions)[1]? = none := by decide +kernel
/-- The page of the region is reached, and goes into the half. -/
def ckEmpty : State := { ckS (ckC 6 0 []) with mem := [] }
theorem witness_Checkpoints_pages :
    (match ckEmpty.ckPage (ckC 6 0 []) 0x10000 with
      | .at u pa => !u.flawed pa (2 ^ 16) && Work.isDone (u.safeWrite (ckC 6 0 []) (u.halfPa (ckC 6 0 []).ckDesc + dataOff 1 1) (2 ^ 16) fun p m => u.rdBytes (pa + p) m)
      | _ => false) = true := by decide +kernel
/-- A complete half that holds one continuation of the job, tag 0. -/
def resumeS : State := ((((((ckS (ckC 6 0 [])).wr (halfAt + 0xC) 4 1).wr (halfAt + 0x10) 4 1).wr (halfAt + 0x14) 4 1).wr (halfAt + 0x28) 8 0x2000).wr (halfAt + 0x30) 8 0x10000).wr (halfAt + 0x2017) 1 4
theorem witness_Checkpoints_resumption :
    kern.newestHalf 0 = none ∧ resumeS.newestHalf 0 = some halfAt ∧ (∀ c ∈ resumeS.coreIds, dieOf c = 0 → (resumeS.coreAt c).res = none) ∧
    0 < resumeS.rd (halfAt + 0x14) 4 ∧ resumeS.sched.lostTags ++ resumeS.sched.jtags = [{ die := 0, jcb := 0x1000, tag := 0 }] ∧
    leNat (((resumeS.rdBytes (halfAt + resumeS.rd (halfAt + 0x28) 8 + 64 * 0) 64).drop 0x14).take 2) = 0 := by decide +kernel

/-! The host, the chassis, every step. -/

def hostS (f : HostSt → HostSt) : State := (at_ 2100000000 kern).onHost 0 f
theorem witness_HostAccesses :
    pkgOf 0 = 0 ∧ kern.dieOk 0 = true ∧ kern.dark.contains 0 = false ∧ (List.replicate 64 (0 : BitVec 8)).length = 64 ∧ ((hostS fun h => { h with owner := 2 }).hostAt 0).owner = 2 ∧
    ((hostS fun h => { h with owner := 2 }).hostAt 0).quoting = false ∧ (2 ^ 34 - 8) + (List.replicate 8 (0 : BitVec 8)).length ≤ 2 ^ 34 ∧
    kern.paMemory (kern.windowPa 0 0 (2 ^ 34 - 8)) = true ∧ kern.paMemory (kern.windowPa 0 0 (2 ^ 34 - 8) + 8 - 1) = true ∧ (kern.hostAt 0).owner = 3 ∧
    (kern.hostAt 0).owner ≠ 0 ∧ ((hostS fun h => { h with owner := 1 }).hostAt 0).owner ≠ 3 ∧ (hostS fun h => { h with owner := 1 }).offered 0 0 = false ∧
    (let s := hostS fun h => { h with owner := 0, handover := 5, offer := true }
     fkeys s.host = [0] ∧ (s.hostAt 0).offer = true ∧ (s.hostAt 0).handoverDue < s.timeb) ∧
    (let s := hostS fun h => { h with owner := 0, handover := 5, offer := true, handoverDue := 1000000000 }
     (s.hostAt 0).owner ≠ 3 ∧ (s.hostAt 0).wonAt ≠ some s.now ∧ s.offered 0 1 = true ∧ s.offered 0 2 = false) ∧
    (let s := hostS fun h => { h with owner := 1, wonAt := some 2100000000 }
     (s.hostAt 0).owner ≠ 3 ∧ (s.hostAt 0).wonAt = some s.now ∧ (0 : BitVec 2) < (s.hostAt 0).owner ∧ ¬(2 : BitVec 2) < (s.hostAt 0).owner) ∧
    kern.paWritable (kern.windowPa 0 0 (2 ^ 34 - 8)) 8 = true ∧ ((hostS fun h => { h with winbase := [(0, 0x7FFFFFFC00000000)] }).paWritable ((hostS fun h => { h with winbase := [(0, 0x7FFFFFFC00000000)] }).windowPa 0 0 0) 8 = false) ∧
    ((hostS fun h => { h with quoting := true, attest := 0x1000 }).hostAt 0).quoting = true ∧
    (hostS fun h => { h with quoting := true, attest := 0x1000 }).paWritable ((hostS fun h => { h with quoting := true, attest := 0x1000 }).hostAt 0).attest.toNat 0x160 = true := by decide +kernel
theorem witness_ChassisEvents :
    State.reset.dieOk 0 = true ∧ State.reset.cfg.bootable = true ∧ State.reset.running.contains 0 = false ∧ State.reset.dark.contains 0 = false ∧ (State.reset.hostAt 0).rollback ≤ 0 ∧
    ((hostS fun h => { h with rollback := 1 }).hostAt 0).rollback = 1 ∧ dieOf 0 = 0 ∧ (kern.tileJob 0 false (0 / 32)).isSome = true ∧ 448 < (kern.coreAt 0).mrfCap ∧
    ((State.reset.onHost 0 fun h => { h with owner := 1 }).hostAt 0).owner ≠ 3 ∧ (State.reset.hostAt 0).owner = 3 ∧ (kern.coreAt 0).res = some 0 ∧ (kern.cont 0).isSome = true := by decide +kernel
def settleS (i : Iss) : State := kern.onIss fun _ => i
theorem witness_RepetitionSettles :
    let q := (kern.raise { cause := cGather, resumable := true })
    let r := (kern.raise { cause := cBreak })
    let l := kern.onIss fun i => { i with lastRep := 63 }
    q.queuesFull = false ∧ q.core.iss.raised.map (fun x => x.2.resumable) = [true] ∧ q.self.bind Cont.handlerOf = none ∧
    ((q.onCont 0 fun c => { c with handlerOf := some (0x2000, none, false) }).self.bind Cont.handlerOf).isSome = true ∧ r.queuesFull = false ∧ r.core.iss.raised.map (fun x => x.2.resumable) = [false] ∧
    kern.queuesFull = false ∧ kern.core.iss.raised = [] ∧ kern.core.iss.rep = kern.core.iss.lastRep ∧ kern.ending = false ∧ l.queuesFull = false ∧ l.core.iss.raised = [] ∧
    l.core.iss.rep < l.core.iss.lastRep := by decide +kernel
def atPc (pc : BitVec 56) : State := kern.onCtx fun c => { c with pc := pc }
def wordsOf (s : State) : List (BitVec 32) := match s.nextWords with
  | .ok ws => ws
  | .error _ => []
def blankPlan : Plan := { bundle := { slots := [], tree := none, rep := 0, drain := false, safe := false, len := 0 }, ops := [], outcome := 4 }
def planOf (s : State) : Plan := match (s.fillCode (wordsOf s).length).plan (wordsOf s) with
  | .ok p => p
  | .error _ => blankPlan
/-- The state in which the step of the statement fetches: the same core, its turn taken, with a slice left. -/
def turned : State := ((kern.onCtl fun c => { c with budget := 1 }).onClk fun x => { x with turn := [] }).focus 0
/-- A word whose bitmap bit is clear, and a bundle that would pass the end of its image. -/
def shortS : State := kern.wr (ldPage 0 + ldKdesc + 8) 4 1
theorem witness_BundleBoundary :
    kern.core.mode = .run ∧ kern.core.issueAt ≤ kern.now ∧ kern.core.rep = 0 ∧ kern.selfKdesc.code = 0x3000 ∧ kern.selfKdesc.clen = 2 ∧
    (atPc 0x2FFC).core.ctx.pc.toNat < (atPc 0x2FFC).selfKdesc.code ∧ ((atPc 0x3001).core.ctx.pc.toNat - (atPc 0x3001).selfKdesc.code) % 4 ≠ 0 ∧
    (atPc 0x3008).selfKdesc.clen ≤ ((atPc 0x3008).core.ctx.pc.toNat - (atPc 0x3008).selfKdesc.code) / 4 ∧
    (match (atPc 0x3004).rdV 0 0 0x2000 1 with | .ok b => b.testBit 1 | .error _ => true) = false ∧
    (match shortS.fetchWord 0x3000 with | .ok h => decide (shortS.selfKdesc.clen < 0 + bundleLen h.toNat) | .error _ => false) = true ∧
    (match shortS.rdV 0 0 0x2000 1 with | .ok _ => true | .error _ => false) = true := by decide +kernel
def fetched : State := turned.fillCode 2
theorem witness_BundleBoundary_issue :
    turned.core.mode = .run ∧ turned.core.issueAt ≤ turned.now ∧ turned.core.rep = 0 ∧ turned.core.words = [] ∧ turned.boundaryTrap = none ∧ 
    turned.nextWords = .ok (wordsOf turned) ∧ fetched.waitOver = true ∧ fetched.plan (wordsOf turned) = .ok (planOf turned) ∧ fetched.planTrap (wordsOf turned) (planOf turned) = none ∧
    fetched.planHold (planOf turned) = false ∧ (planOf turned).bundle.slots = [(5, .idle)] ∧ (planOf turned).bundle.tree = none ∧ (planOf turned).bundle.len = 2 := by decide +kernel
theorem witness_StepRunsTheDecodedBundle :
    kern.allDark = false ∧ kern.clk.turn = [0] ∧ turned.fetchGate = turned ∧ turned.core.padBad = [] ∧ turned.core.accBad = [] ∧ 0 < (planOf turned).bundle.len ∧ turned.core.loadQ = [] ∧ turned.core.storeQ = [] ∧ turned.core.spCount ≤ turned.ctl.spbound.toNat ∧ turned.ctl.budget ≠ 0 ∧ turned.marked = none ∧
    fetched.standing (presentSlots ((wordsOf turned).getD 0 0).toNat) = [] ∧ (match decodeBundle ((wordsOf turned).map BitVec.toNat) with | .ok b => b == (planOf turned).bundle | .error _ => false) = true := by
  decide +kernel
def dark : State := { State.reset with dark := [0] }
theorem witness_MemoryReadsWhatWasWritten : Memory.wf kern.mem = true ∧ kern.flawed (ldPage 0) 64 = false := by decide +kernel
theorem witness_whole_machine :
    State.reset.allDark = false ∧ dark.allDark = true ∧ Memory.wf kern.mem = true ∧ (match step kern with | .next _ => true | _ => false) = true ∧ ETy.i8.isF = false ∧
    etLo .i8 = -128 ∧ etHi .i8 = 127 ∧ Instr.nop.classes ≠ [] ∧ Instr.nop.wf = true ∧ (Instr.brx treeA).tree.isSome = true ∧ (Instr.brx treeA).wf = true ∧
    (Instr.br { treeA with nt := 0, t0 := 16, t1 := 0, t2 := 0, t3 := 0 }).wf = true := by decide +kernel

end Sys2Proof.Tests
end

