-- ==== Sys2Proof/Tests/Words.lean ====
section
/-! SUPPORT. One word of every slot operation and branch tree, written out from the formats of R73, R79 to R82 and R111 and the opcode grids of R104 to R110, decodes to the operation it stands for. -/

namespace Sys2Proof.Tests
set_option Elab.async false

/-! Scalar forms (R104, R117 to R131): operand values chosen so that no two fields of a word agree where the form leaves them free. -/

theorem test_words_scalar_1 :
    decodeSlot .scalar 0x07BDB800 [] = .ok (.add 29 29 23) ∧
    decodeSlot .scalar 0x0B9E7800 [] = .ok (.sub 28 30 15) ∧
    decodeSlot .scalar 0x0FF99800 [] = .ok (.mul 31 25 19) ∧
    decodeSlot .scalar 0x13FFC800 [] = .ok (.mulh 31 31 25 .ss) ∧
    decodeSlot .scalar 0x14DEE801 [] = .ok (.div 6 30 29 true) ∧
    decodeSlot .scalar 0x1BAFE001 [] = .ok (.rem 29 15 28 true) ∧
    decodeSlot .scalar 0x1FEBF800 [] = .ok (.and 31 11 31) ∧
    decodeSlot .scalar 0x23EFF800 [] = .ok (.or 31 15 31) ∧
    decodeSlot .scalar 0x2763F800 [] = .ok (.xor 27 3 31) ∧
    decodeSlot .scalar 0x2AEF7000 [] = .ok (.sll 23 15 14) ∧
    decodeSlot .scalar 0x2CFDF800 [] = .ok (.srl 7 29 31) ∧
    decodeSlot .scalar 0x33FDD800 [] = .ok (.sra 31 29 27) ∧
    decodeSlot .scalar 0x36EF0033 [] = .ok (.slli 23 15 51) ∧
    decodeSlot .scalar 0x3BEE003A [] = .ok (.srli 31 14 58) ∧
    decodeSlot .scalar 0x3D3F003D [] = .ok (.srai 9 31 61) ∧
    decodeSlot .scalar 0x43EDB001 [] = .ok (.min 31 13 22 true) ∧
    decodeSlot .scalar 0x46FF7801 [] = .ok (.max 23 31 15 true) ∧
    decodeSlot .scalar 0x4BCF0000 [] = .ok (.clz 30 15) ∧
    decodeSlot .scalar 0x4FAF0000 [] = .ok (.ctz 29 15) ∧
    decodeSlot .scalar 0x53F70000 [] = .ok (.popc 31 23) := by decide +kernel

theorem test_words_scalar_2 :
    decodeSlot .scalar 0x57A7F5C1 [] = .ok (.bext 29 7 61 28 true) ∧
    decodeSlot .scalar 0x5BFE59D0 [] = .ok (.bins 31 30 22 29) ∧
    decodeSlot .scalar 0x5DFFB80D [] = .ok (.sel 15 31 23 false 13) ∧
    decodeSlot .scalar 0x62F3B805 [] = .ok (.addsh 23 19 23 5) ∧
    decodeSlot .scalar 0x64FF0001 [] = .ok (.kset 7 31 true) ∧
    decodeSlot .scalar 0x6BC70001 [] = .ok (.kget 30 7 true) ∧
    decodeSlot .scalar 0x6F600023 [] = .ok (.crrd 27 35) ∧
    decodeSlot .scalar 0x70190010 [] = .ok (.crwr 25 16) ∧
    decodeSlot .scalar 0x75FB7802 [] = .ok (.fadd 15 27 15 2) ∧
    decodeSlot .scalar 0x7BB3F803 [] = .ok (.fmul 29 19 31 3) ∧
    decodeSlot .scalar 0x7FF70007 [] = .ok (.fcvt 31 23 1 3) ∧
    decodeSlot .scalar 0x80EDDF9D [] = .ok (.addi 7 13 57245) ∧
    decodeSlot .scalar 0x862BEF7A [] = .ok (.andi 17 11 61306) ∧
    decodeSlot .scalar 0x8BF6FF24 [] = .ok (.ori 31 22 65316) ∧
    decodeSlot .scalar 0x8DFFAEB6 [] = .ok (.xori 15 31 44726) ∧
    decodeSlot .scalar 0x9160D7CE [] = .ok (.movi 11 55246) ∧
    decodeSlot .scalar 0x9747B0EF [] = .ok (.movh 26 7 45295) ∧
    decodeSlot .scalar 0xA35F057D [] = .ok (.cmpeqImm 13 31 381) ∧
    decodeSlot .scalar 0xA3DBD000 [] = .ok (.cmpeq 15 27 26) ∧
    decodeSlot .scalar 0xA7CF07E9 [] = .ok (.cmpneImm 15 15 1001) := by decide +kernel

theorem test_words_scalar_3 :
    decodeSlot .scalar 0xA65FF800 [] = .ok (.cmpne 9 31 31) ∧
    decodeSlot .scalar 0xA8DD077B [] = .ok (.cmpltImm 3 29 891) ∧
    decodeSlot .scalar 0xAB53F800 [] = .ok (.cmplt 13 19 31) ∧
    decodeSlot .scalar 0xAECF073F [] = .ok (.cmpleImm 11 15 831) ∧
    decodeSlot .scalar 0xAC5F7800 [] = .ok (.cmple 1 31 15) ∧
    decodeSlot .scalar 0xB3D7079F [] = .ok (.cmpltuImm 15 23 927) ∧
    decodeSlot .scalar 0xB3D7F800 [] = .ok (.cmpltu 15 23 31) ∧
    decodeSlot .scalar 0xB79D07FB [] = .ok (.cmpleuImm 14 29 1019) ∧
    decodeSlot .scalar 0xB7DFF000 [] = .ok (.cmpleu 15 31 30) ∧
    decodeSlot .scalar 0xBB5FE800 [] = .ok (.fcmp 13 31 29 0) ∧
    decodeSlot .scalar 0xC3CDE000 [] = .ok (.pand 15 false 13 true 12) ∧
    decodeSlot .scalar 0xC78BF800 [] = .ok (.por 14 false 11 true 15) ∧
    decodeSlot .scalar 0xCB9DF000 [] = .ok (.pxor 14 true 13 true 14) := by decide +kernel

/-! Load/store forms (R105, R149 to R165): operand values chosen so that no two fields of a word agree where the form leaves them free. -/

theorem test_words_ls_1 :
    decodeSlot .ls 0x07D7F6FB [] = .ok (.ld 30 23 63227) ∧
    decodeSlot .ls 0x0A7B5EE5 [] = .ok (.st 19 27 24293) ∧
    decodeSlot .ls 0x0F6F7B54 [] = .ok (.ldacq 27 15 .pkg 6996) ∧
    decodeSlot .ls 0x11BC77D8 [] = .ok (.strel 13 28 .pkg 6104) ∧
    decodeSlot .ls 0x14277DFA [] = .ok (.pf true 7 32250) ∧
    decodeSlot .ls 0x18000000 [] = .ok .mark ∧
    decodeSlot .ls 0x1DE00000 [] = .ok (.fence .pkg 3) ∧
    decodeSlot .ls 0x238F5B40 [] = .ok (.amoadd 28 15 11 .pkg 1) ∧
    decodeSlot .ls 0x27F7CB40 [] = .ok (.amoand 31 23 25 .pkg 1) ∧
    decodeSlot .ls 0x29DF4CC0 [] = .ok (.amoor 14 31 9 .sys 3) ∧
    decodeSlot .ls 0x2FE3BBC0 [] = .ok (.amoxor 31 3 23 .pkg 3) ∧
    decodeSlot .ls 0x339EABC0 [] = .ok (.amomin 28 30 21 .pkg 3 false) ∧
    decodeSlot .ls 0x36BBEA60 [] = .ok (.amomax 21 27 29 .die 1 true) ∧
    decodeSlot .ls 0x39DEA8C0 [] = .ok (.amoswap 14 30 21 .core 3) ∧
    decodeSlot .ls 0x3FBFF800 [] = .ok (.amocas 29 31 31 .core 0) ∧
    decodeSlot .ls 0x437EF9B9 [] = .ok (.stld 27 30 63929) ∧
    decodeSlot .ls 0x45EE6000 [] = .ok (.stset 15 14 3) ∧
    decodeSlot .ls 0x48FE6000 [] = .ok (.stget 7 30 3) ∧
    decodeSlot .ls 0x4F5F0000 [] = .ok (.stadv 26 31) ∧
    decodeSlot .ls 0x50000000 [] = .ok .l1inv := by decide +kernel

theorem test_words_ls_2 :
    decodeSlot .ls 0x61F76B00 [] = .ok (.vld { v := 15, st := 23, w := .w512, k := 5, t := .i32, form := 0 }) ∧
    decodeSlot .ls 0x67D3AA00 [] = .ok (.vst { v := 30, st := 19, w := .w1024, k := 5, t := .f16, form := 0 }) ∧
    decodeSlot .ls 0x6AF83B00 [] = .ok (.vldb { v := 23, st := 24, w := .w256, k := 7, t := .i32, form := 0 }) ∧
    decodeSlot .ls 0x6F73A900 [] = .ok (.vpf { v := 27, st := 19, w := .w1024, k := 5, t := .bf16, form := 0 }) ∧
    decodeSlot .ls 0x70EE7B00 [] = .ok (.vscat { v := 7, st := 14, w := .w512, k := 7, t := .i32, form := 0 }) ∧
    decodeSlot .ls 0x777E3D00 [] = .ok (.vscadd { v := 27, st := 30, w := .w256, k := 7, t := .i8, form := 0 }) ∧
    decodeSlot .ls 0x7B767B00 [] = .ok (.vscmax { v := 27, st := 22, w := .w512, k := 7, t := .i32, form := 0 }) ∧
    decodeSlot .ls 0x7EF35B82 [] = .ok (.vredst { v := 23, st := 19, w := .w512, k := 3, t := .i32, form := 130 }) := by decide +kernel

/-! Vector forms (R106): operand values chosen so that no two fields of a word agree where the form leaves them free. -/

theorem test_words_vec_1 :
    decodeSlot .vec 0x063CAFFB [] = .ok (.vadd { w := .w1024, t := .bf16, d := 28, a := 21, b := 31, sb := true, k := 6, md := 3 }) ∧
    decodeSlot .vec 0x0999D6E9 [] = .ok (.vsub { w := .w512, t := .i16, d := 25, a := 26, b := 27, sb := true, k := 2, md := 1 }) ∧
    decodeSlot .vec 0x0EA5EABC [] = .ok (.vmul { w := .w1024, t := .i8, d := 5, a := 29, b := 10, sb := true, k := 7, md := 0 }) ∧
    decodeSlot .vec 0x111D65F8 [] = .ok (.vfma { w := .w512, t := .f32, d := 29, a := 12, b := 23, sb := true, k := 6, md := 0 }) ∧
    decodeSlot .vec 0x16D55FAD [] = .ok (.vfms { w := .w1024, t := .u8, d := 21, a := 11, b := 30, sb := true, k := 3, md := 1 }) ∧
    decodeSlot .vec 0x1A43FDAF [] = .ok (.vfnma { w := .w1024, t := .f16, d := 3, a := 31, b := 22, sb := true, k := 3, md := 3 }) ∧
    decodeSlot .vec 0x1C72F774 [] = .ok (.vmulh { w := .w256, t := .i32, d := 18, a := 30, b := 29, sb := true, k := 5, md := 0 }) ∧
    decodeSlot .vec 0x21DD9CDC [] = .ok (.vmin { w := .w512, t := .u8, d := 29, a := 19, b := 19, sb := false, k := 7, md := 0 }) ∧
    decodeSlot .vec 0x24DFB5A4 [] = .ok (.vmax { w := .w256, t := .u8, d := 31, a := 22, b := 22, sb := true, k := 1, md := 0 }) ∧
    decodeSlot .vec 0x2ACBE005 [] = .ok (.vabs { w := .w1024, t := .u8, d := 11, a := 28, b := 0, sb := false, k := 1, md := 1 }) ∧
    decodeSlot .vec 0x2EAAE814 [] = .ok (.vneg { w := .w1024, t := .i8, d := 10, a := 29, b := 0, sb := false, k := 5, md := 0 }) ∧
    decodeSlot .vec 0x30BF9FF8 [] = .ok (.vclamp { w := .w256, t := .i8, d := 31, a := 19, b := 31, sb := true, k := 6, md := 0 }) ∧
    decodeSlot .vec 0x363E781C [] = .ok (.vrnd { w := .w1024, t := .bf16, d := 30, a := 15, b := 0, sb := false, k := 7, md := 0 }) ∧
    decodeSlot .vec 0x3973FAE8 [] = .ok (.vand { w := .w512, t := .i32, d := 19, a := 31, b := 11, sb := true, k := 2, md := 0 }) ∧
    decodeSlot .vec 0x3E9D5E6C [] = .ok (.vor { w := .w1024, t := .i16, d := 29, a := 11, b := 25, sb := true, k := 3, md := 0 }) ∧
    decodeSlot .vec 0x40B7FFE4 [] = .ok (.vxor { w := .w256, t := .i8, d := 23, a := 31, b := 31, sb := true, k := 1, md := 0 }) ∧
    decodeSlot .vec 0x447B781C [] = .ok (.vnot { w := .w256, t := .i32, d := 27, a := 15, b := 0, sb := false, k := 7, md := 0 }) ∧
    decodeSlot .vec 0x4AAFFEE8 [] = .ok (.vsll { w := .w1024, t := .i8, d := 15, a := 31, b := 27, sb := true, k := 2, md := 0 }) ∧
    decodeSlot .vec 0x4EC6E5DC [] = .ok (.vsrl { w := .w1024, t := .u8, d := 6, a := 28, b := 23, sb := false, k := 7, md := 0 }) ∧
    decodeSlot .vec 0x527C7DDC [] = .ok (.vsra { w := .w1024, t := .i32, d := 28, a := 15, b := 23, sb := false, k := 7, md := 0 }) := by decide +kernel

theorem test_words_vec_2 :
    decodeSlot .vec 0x5506BFBC [] = .ok (.vcmpeq { w := .w512, t := .f32, d := 6, a := 23, b := 30, sb := true, k := 7, md := 0 }) ∧
    decodeSlot .vec 0x5A234BFC [] = .ok (.vcmpne { w := .w1024, t := .bf16, d := 3, a := 9, b := 15, sb := true, k := 7, md := 0 }) ∧
    decodeSlot .vec 0x5CC7F37C [] = .ok (.vcmplt { w := .w256, t := .u8, d := 7, a := 30, b := 13, sb := true, k := 7, md := 0 }) ∧
    decodeSlot .vec 0x61A2AEFC [] = .ok (.vcmple { w := .w512, t := .i8, d := 2, a := 21, b := 27, sb := true, k := 7, md := 0 }) ∧
    decodeSlot .vec 0x6616D814 [] = .ok (.vclass { w := .w1024, t := .f32, d := 22, a := 27, b := 0, sb := false, k := 5, md := 0 }) ∧
    decodeSlot .vec 0x6ADDDDA8 [] = .ok (.vsel { w := .w1024, t := .u8, d := 29, a := 27, b := 22, sb := true, k := 2, md := 0 }) ∧
    decodeSlot .vec 0x6ECE07F4 [] = .ok (.vmov { w := .w1024, t := .u8, d := 14, a := 0, b := 31, sb := true, k := 5, md := 0 }) ∧
    decodeSlot .vec 0x713DF004 [] = .ok (.vbcast { w := .w512, t := .bf16, d := 29, a := 30, b := 0, sb := false, k := 1, md := 0 }) ∧
    decodeSlot .vec 0x75D77CC4 [] = .ok (.vins { w := .w512, t := .u8, d := 23, a := 15, b := 19, sb := false, k := 1, md := 0 }) ∧
    decodeSlot .vec 0x7A976ED4 [] = .ok (.vext { w := .w1024, t := .i16, d := 23, a := 13, b := 27, sb := false, k := 5, md := 0 }) ∧
    decodeSlot .vec 0x7DAE07E4 [] = .ok (.vgath { w := .w512, t := .i8, d := 14, a := 0, b := 31, sb := true, k := 1, md := 0 }) ∧
    decodeSlot .vec 0x81DBE887 [] = .ok (.vcvt { w := .w512, t := .u8, d := 27, a := 29, b := 2, sb := false, k := 1, md := 3 }) ∧
    decodeSlot .vec 0x865FF853 [] = .ok (.vcvt8 { w := .w1024, t := .f16, d := 31, a := 31, b := 1, sb := false, k := 4, md := 3 }) ∧
    decodeSlot .vec 0x890CC840 [] = .ok (.vquant { w := .w512, t := .f32, d := 12, a := 25, b := 1, sb := false, k := 0, md := 0 }) ∧
    decodeSlot .vec 0x8E1719C0 [] = .ok (.vdequant { w := .w1024, t := .f32, d := 23, a := 3, b := 7, sb := false, k := 0, md := 0 }) ∧
    decodeSlot .vec 0x92D2F2E1 [] = .ok (.vpack { w := .w1024, t := .u8, d := 18, a := 30, b := 11, sb := true, k := 0, md := 1 }) ∧
    decodeSlot .vec 0x95DEF819 [] = .ok (.vunpk { w := .w512, t := .u8, d := 30, a := 31, b := 0, sb := false, k := 6, md := 1 }) ∧
    decodeSlot .vec 0xA02BBFF4 [] = .ok (.vshuf { w := .w256, t := .bf16, d := 11, a := 23, b := 31, sb := true, k := 5, md := 0 }) ∧
    decodeSlot .vec 0xA67A07FC [] = .ok (.vrotm { w := .w1024, t := .i32, d := 26, a := 0, b := 31, sb := true, k := 7, md := 0 }) ∧
    decodeSlot .vec 0xAAA3FF49 [] = .ok (.vzip { w := .w1024, t := .i8, d := 3, a := 31, b := 29, sb := false, k := 2, md := 1 }) := by decide +kernel

theorem test_words_vec_3 :
    decodeSlot .vec 0xADADBF5D [] = .ok (.vuzp { w := .w512, t := .i8, d := 13, a := 23, b := 29, sb := false, k := 7, md := 1 }) ∧
    decodeSlot .vec 0xB2BD5810 [] = .ok (.vrev { w := .w1024, t := .i8, d := 29, a := 11, b := 0, sb := false, k := 4, md := 0 }) ∧
    decodeSlot .vec 0xB5BCDEDC [] = .ok (.vslide { w := .w512, t := .i8, d := 28, a := 27, b := 27, sb := false, k := 7, md := 0 }) ∧
    decodeSlot .vec 0xBA00CF81 [] = .ok (.vpark { w := .w1024, t := .f32, d := 0, a := 25, b := 30, sb := false, k := 0, md := 1 }) ∧
    decodeSlot .vec 0xBE1F0000 [] = .ok (.vunpark { w := .w1024, t := .f32, d := 31, a := 0, b := 0, sb := false, k := 0, md := 0 }) ∧
    decodeSlot .vec 0xC2582018 [] = .ok (.vexp2 { w := .w1024, t := .f16, d := 24, a := 4, b := 0, sb := false, k := 6, md := 0 }) ∧
    decodeSlot .vec 0xC63D7014 [] = .ok (.vlog2 { w := .w1024, t := .bf16, d := 29, a := 14, b := 0, sb := false, k := 5, md := 0 }) ∧
    decodeSlot .vec 0xC84D481C [] = .ok (.vrcp { w := .w256, t := .f16, d := 13, a := 9, b := 0, sb := false, k := 7, md := 0 }) ∧
    decodeSlot .vec 0xCD25E81C [] = .ok (.vrsqrt { w := .w512, t := .bf16, d := 5, a := 29, b := 0, sb := false, k := 7, md := 0 }) ∧
    decodeSlot .vec 0xD10FF818 [] = .ok (.vsin { w := .w512, t := .f32, d := 15, a := 31, b := 0, sb := false, k := 6, md := 0 }) ∧
    decodeSlot .vec 0xD65FF81C [] = .ok (.vcos { w := .w1024, t := .f16, d := 31, a := 31, b := 0, sb := false, k := 7, md := 0 }) ∧
    decodeSlot .vec 0xD85F700C [] = .ok (.vtanh { w := .w256, t := .f16, d := 31, a := 14, b := 0, sb := false, k := 3, md := 0 }) ∧
    decodeSlot .vec 0xE179001C [] = .ok (.vqraw { w := .w512, t := .i32, d := 25, a := 0, b := 0, sb := false, k := 7, md := 0 }) ∧
    decodeSlot .vec 0xE51B001C [] = .ok (.vunif { w := .w512, t := .f32, d := 27, a := 0, b := 0, sb := false, k := 7, md := 0 }) ∧
    decodeSlot .vec 0xE91B0014 [] = .ok (.vnorm { w := .w512, t := .f32, d := 27, a := 0, b := 0, sb := false, k := 5, md := 0 }) ∧
    decodeSlot .vec 0xEC1506F8 [] = .ok (.vcat { w := .w256, t := .f32, d := 21, a := 0, b := 27, sb := true, k := 6, md := 0 }) ∧
    decodeSlot .vec 0xF224FF58 [] = .ok (.vtopk { w := .w1024, t := .bf16, d := 4, a := 31, b := 29, sb := false, k := 6, md := 0 }) ∧
    decodeSlot .vec 0xF55DBDCC [] = .ok (.vtemp { w := .w512, t := .f16, d := 29, a := 23, b := 23, sb := false, k := 3, md := 0 }) := by decide +kernel

/-! Reduction forms (R107): operand values chosen so that no two fields of a word agree where the form leaves them free. -/

theorem test_words_red_1 :
    decodeSlot .red 0x062F6800 [] = .ok (.rsum { w := .w1024, latch := 0, va := 23, sa := true, k := 3, mode := 1 }) ∧
    decodeSlot .red 0x08FFC000 [] = .ok (.rmax { w := .w256, latch := 3, va := 31, sa := true, k := 6, mode := 0 }) ∧
    decodeSlot .red 0x0DFE2000 [] = .ok (.rmin { w := .w512, latch := 3, va := 31, sa := false, k := 1, mode := 0 }) ∧
    decodeSlot .red 0x10EAE800 [] = .ok (.rsumsq { w := .w256, latch := 3, va := 21, sa := false, k := 7, mode := 1 }) ∧
    decodeSlot .red 0x147E8800 [] = .ok (.rmov { w := .w256, latch := 1, va := 31, sa := false, k := 4, mode := 1 }) ∧
    decodeSlot .red 0x18C00000 [] = .ok (.rclr { w := .w256, latch := 3, va := 0, sa := false, k := 0, mode := 0 }) := by decide +kernel

/-! Matrix forms (R108, R194): operand values chosen so that no two fields of a word agree where the form leaves them free. -/

theorem test_words_mx_1 :
    decodeSlot .mx 0x07F80001 [] = .ok (.mld { md := 15, ma := 14, mb := 0, bank := 0, fmt := 0, mods := 1 }) ∧
    decodeSlot .mx 0x0B6C0001 [] = .ok (.mldu { md := 13, ma := 11, mb := 0, bank := 0, fmt := 0, mods := 1 }) ∧
    decodeSlot .mx 0x0FEC0001 [] = .ok (.mldv { md := 15, ma := 11, mb := 0, bank := 0, fmt := 0, mods := 1 }) ∧
    decodeSlot .mx 0x103C1810 [] = .ok (.mst { md := 0, ma := 15, mb := 0, bank := 6, fmt := 0, mods := 16 }) ∧
    decodeSlot .mx 0x14383C10 [] = .ok (.mstu { md := 0, ma := 14, mb := 0, bank := 15, fmt := 0, mods := 16 }) ∧
    decodeSlot .mx 0x182C3C10 [] = .ok (.mstv { md := 0, ma := 11, mb := 0, bank := 15, fmt := 0, mods := 16 }) ∧
    decodeSlot .mx 0x1FBC0000 [] = .ok (.mmov { md := 14, ma := 15, mb := 0, bank := 0, fmt := 0, mods := 0 }) ∧
    decodeSlot .mx 0x2037F5B8 [] = .ok (.mmac { md := 0, ma := 13, mb := 15, bank := 13, fmt := 13, mods := 24 }) ∧
    decodeSlot .mx 0x241FD41A [] = .ok (.mmacs { md := 0, ma := 7, mb := 15, bank := 5, fmt := 0, mods := 26 }) ∧
    decodeSlot .mx 0x2827FC03 [] = .ok (.mmacr { md := 0, ma := 9, mb := 15, bank := 15, fmt := 0, mods := 3 }) ∧
    decodeSlot .mx 0x2C39AC13 [] = .ok (.mmacm { md := 0, ma := 14, mb := 6, bank := 11, fmt := 0, mods := 19 }) ∧
    decodeSlot .mx 0x43C3C160 [] = .ok (.mmul { md := 15, ma := 0, mb := 15, bank := 0, fmt := 11, mods := 0 }) ∧
    decodeSlot .mx 0x46DFC000 [] = .ok (.madd { md := 11, ma := 7, mb := 15, bank := 0, fmt := 0, mods := 0 }) ∧
    decodeSlot .mx 0x4BDEC000 [] = .ok (.msub { md := 15, ma := 7, mb := 11, bank := 0, fmt := 0, mods := 0 }) ∧
    decodeSlot .mx 0x4F7C001D [] = .ok (.mscale { md := 13, ma := 15, mb := 0, bank := 0, fmt := 0, mods := 29 }) ∧
    decodeSlot .mx 0x53F40000 [] = .ok (.mtr { md := 15, ma := 13, mb := 0, bank := 0, fmt := 0, mods := 0 }) ∧
    decodeSlot .mx 0x63BC0000 [] = .ok (.recomp { md := 14, ma := 15, mb := 0, bank := 0, fmt := 0, mods := 0 }) ∧
    decodeSlot .mx 0x676C0000 [] = .ok (.densify { md := 13, ma := 11, mb := 0, bank := 0, fmt := 0, mods := 0 }) ∧
    decodeSlot .mx 0x6FC00000 [] = .ok (.mfree { md := 15, ma := 0, mb := 0, bank := 0, fmt := 0, mods := 0 }) ∧
    decodeSlot .mx 0x73403810 [] = .ok (.macrd { md := 13, ma := 0, mb := 0, bank := 14, fmt := 0, mods := 16 }) := by decide +kernel

theorem test_words_mx_2 :
    decodeSlot .mx 0x74183C10 [] = .ok (.macwr { md := 0, ma := 6, mb := 0, bank := 15, fmt := 0, mods := 16 }) ∧
    decodeSlot .mx 0x68CFC000 [] = .ok (.mctl 3 31 true) := by decide +kernel

/-! Accumulator-port forms (R109, R217): operand values chosen so that no two fields of a word agree where the form leaves them free. -/

theorem test_words_ap_1 :
    decodeSlot .ap 0x0741317B [] = .ok (.accld { bank := 13, stream := 0, vreg := 19, x := 1, hist := false, mods := 123 }) ∧
    decodeSlot .ap 0x0B41516F [] = .ok (.accwr { bank := 13, stream := 0, vreg := 21, x := 1, hist := false, mods := 111 }) ∧
    decodeSlot .ap 0x0CC1D07B [] = .ok (.accadd { bank := 3, stream := 0, vreg := 29, x := 0, hist := false, mods := 123 }) ∧
    decodeSlot .ap 0x139803EC [] = .ok (.accst { bank := 14, stream := 12, vreg := 0, x := 3, hist := true, mods := 108 }) ∧
    decodeSlot .ap 0x15F603BC [] = .ok (.accqst { bank := 7, stream := 27, vreg := 0, x := 3, hist := true, mods := 60 }) ∧
    decodeSlot .ap 0x1AC0007B [] = .ok (.accclr { bank := 11, stream := 0, vreg := 0, x := 0, hist := false, mods := 123 }) ∧
    decodeSlot .ap 0x1EDE006C [] = .ok (.accmv { bank := 11, stream := 15, vreg := 0, x := 0, hist := false, mods := 108 }) ∧
    decodeSlot .ap 0x23C1E049 [] = .ok (.accscl { bank := 15, stream := 0, vreg := 30, x := 0, hist := false, mods := 73 }) := by decide +kernel

/-! Engine and control forms (R110, R220 to R273): operand values chosen so that no two fields of a word agree where the form leaves them free. -/

theorem test_words_ec_1 :
    decodeSlot .ec 0x083BEE00 [] = .ok (.own 0 false 59 119) ∧
    decodeSlot .ec 0x0FB7DF80 [] = .ok (.rset 7 false 111 95 true) ∧
    decodeSlot .ec 0x10F6FA00 [] = .ok (.rwait 1 true 219 29) ∧
    decodeSlot .ec 0x15FD4000 [] = .ok (.radv 3 true 245) ∧
    decodeSlot .ec 0x227F4000 [] = .ok (.barr 39 true 29) ∧
    decodeSlot .ec 0x25F2FAC0 [] = .ok (.bwaitImm 31 5 235) ∧
    decodeSlot .ec 0x26FBBC00 [] = .ok (.bwait 47 23 30) ∧
    decodeSlot .ec 0x29F00000 [] = .ok (.breset 31) ∧
    decodeSlot .ec 0x2EFE0000 [] = .ok (.balloc 11 62) ∧
    decodeSlot .ec 0x32F00000 [] = .ok (.bfree 47) ∧
    decodeSlot .ec 0x41DBFE00 [] = .ok (.hxch 14 55 63) ∧
    decodeSlot .ec 0x45FB7000 [] = .ok (.reshard 7 14 55) ∧
    decodeSlot .ec 0x4B7E0000 [] = .ok (.rsload 13 31) ∧
    decodeSlot .ec 0x4DFF8000 [] = .ok (.coll 15 63) ∧
    decodeSlot .ec 0x53EF8000 [] = .ok (.edisp 31 31) ∧
    decodeSlot .ec 0x57FC0000 [] = .ok (.ecomb 31 56) ∧
    decodeSlot .ec 0x5AEF8000 [] = .ok (.put 23 31) ∧
    decodeSlot .ec 0x5EDF8000 [] = .ok (.get 22 63) ∧
    decodeSlot .ec 0x64000000 [] = .ok .yield ∧
    decodeSlot .ec 0x6A000000 [] = .ok (.done true) := by decide +kernel

theorem test_words_ec_2 :
    decodeSlot .ec 0x6FE00000 [] = .ok (.jraise 31) ∧
    decodeSlot .ec 0x735F9000 [] = .ok (.cpost 26 31 .sys true) ∧
    decodeSlot .ec 0x7AE00000 [] = .ok (.trap 23) ∧
    decodeSlot .ec 0x7C000000 [] = .ok .brk ∧
    decodeSlot .ec 0x83FF1700 [] = .ok (.tsub 7 31 49 7) ∧
    decodeSlot .ec 0x86000000 [] = .ok (.rverd 2) ∧
    decodeSlot .ec 0x8B7F0000 [] = .ok (.tlog 27 31) ∧
    decodeSlot .ec 0x8FDFC000 [] = .ok (.tsload 7 23 15) ∧
    decodeSlot .ec 0x90FDB000 [] = .ok (.tsstat 7 7 3 3) ∧
    decodeSlot .ec 0xA2FC0000 [] = .ok (.sqset 5 31) ∧
    decodeSlot .ec 0xA7E3DC00 [] = .ok (.sqapp 7 24 247) ∧
    decodeSlot .ec 0xABB40000 [] = .ok (.sqacc 7 13) ∧
    decodeSlot .ec 0xAF800000 [] = .ok (.sqrej 7) ∧
    decodeSlot .ec 0xB39EC000 [] = .ok (.lyrd 28 15 3) ∧
    decodeSlot .ec 0xB6D8C000 [] = .ok (.lywr 11 12 3) ∧
    decodeSlot .ec 0xC1DBC000 [] = .ok (.tlbinv 1 27 15) ∧
    decodeSlot .ec 0xC7F60000 [] = .ok (.aclwr 31 22) ∧
    decodeSlot .ec 0xCB7E8000 [] = .ok (.ckpt 27 61) := by decide +kernel

/-! Forms with extension words (R111): `lix` with one word and with two, `ecopy` of rows and of a ring, `spawn`, `slice`. -/

theorem test_words_extended :
    decodeSlot .scalar 0x98800001 [0x89ABCDEF, 0x01234567] = .ok (.lix 4 true 0x89ABCDEF 0x01234567) ∧
    decodeSlot .scalar 0x98E00000 [0xFFFFFFFE] = .ok (.lix 7 false 0xFFFFFFFE 0) ∧
    decodeSlot .ec 0x04B89000 [0x02000200, 0xFFFFFF00] =
      .ok (.ecopy { a := 5, out := true, wmem := true, ring := false, bar := 9, row := 256, rows := 64, h := 0, stride := 0xFFFFFF00 }) ∧
    decodeSlot .ec 0x04C43000 [0x00000403, 0x00000100] =
      .ok (.ecopy { a := 6, out := false, wmem := false, ring := true, bar := 3, row := 0, rows := 128, h := 3, stride := 256 }) ∧
    decodeSlot .ec 0x60A63EC0 [0x00000011] = .ok (.spawn { a := 5, d := 6, g := 7, remote := true, raise := true, stage := 3, entry := 17 }) ∧
    decodeSlot .ec 0x74700000 [0xDEADBEEF, 0x00000001] = .ok (.slice 3 true 0xDEADBEEF 1) := by decide +kernel

/-! Branch trees: a full jump tree of two tests with a path word, a short call tree, a full indirect tree of four tests. -/

theorem test_words_trees :
    decodeTree true [0x11D40000, 0x00100000, 0x0050FFC0, 0x00000000] =
      some (.br { full := true, nt := 1, t0 := 3, t1 := 21, t2 := 0, t3 := 0, path := 0x100000, e0 := 0xFFC0, e1 := 0x0050, e2 := 0, e3 := 0 }) ∧
    decodeTree false [0x48800000, 0x0000FFFD] =
      some (.call { full := false, nt := 0, t0 := 17, t1 := 0, t2 := 0, t3 := 0, path := 0, e0 := 0xFFFD, e1 := 0, e2 := 0, e3 := 0 }) ∧
    decodeTree true [0xB08C7400, 0x00000007, 0x001F0002, 0x00010004] =
      some (.brx { full := true, nt := 3, t0 := 1, t1 := 3, t2 := 3, t3 := 20, path := 7, e0 := 2, e1 := 31, e2 := 4, e3 := 1 }) := by decide +kernel

/-! The words that every class shares (R72, R101). -/

theorem test_words_nop_idle :
    decodeSlot .scalar 0 [] = .ok .nop ∧ decodeSlot .ec 0 [] = .ok .nop ∧ decodeSlot .ls 0 [] = .ok .idle ∧ decodeSlot .vec 0 [] = .ok .idle ∧
    decodeSlot .red 0 [] = .ok .idle ∧ decodeSlot .mx 0 [] = .ok .idle ∧ decodeSlot .ap 0 [] = .ok .idle := by decide +kernel

/-! Words that no form accepts: an unassigned opcode, a reserved field that is not zero, a reserved value (R85). -/

theorem test_words_refused :
    decodeSlot .scalar 0x9C000000 [] = .error .opcode ∧ decodeSlot .ls 0x80000000 [] = .error .opcode ∧ decodeSlot .vec 0xFC000000 [] = .error .opcode ∧
    decodeSlot .red 0x1C000000 [] = .error .opcode ∧ decodeSlot .mx 0x30000000 [] = .error .opcode ∧ decodeSlot .ap 0x24000000 [] = .error .opcode ∧
    decodeSlot .ec 0xCC000000 [] = .error .opcode ∧
    decodeSlot .scalar 0x04611001 [] = .error .reserved ∧ decodeSlot .vec 0x07000000 [] = .error .reserved ∧ decodeSlot .vec 0x04E00000 [] = .error .reserved ∧
    decodeSlot .ec 0x88000000 [] = .ok (.tlog 0 0) ∧ decodeSlot .ec 0x87000000 [] = .error .reserved := by decide +kernel

/-! The table's own numbering: a row's word, its bits above nbits zero. -/

theorem test_table_words :
    decodeTableWord 32 0x10000000 = decodeTableWord 64 0x10000000 ∧ decodeTableWord 32 0x18000000 = some (.rclr { w := .w256, latch := 0, va := 0, sa := false, k := 0, mode := 0 }) := by
  decide +kernel

end Sys2Proof.Tests
end

section
/-! Physical memory: what a write leaves (R6, R284), and its canonical form along every step. -/

namespace Sys2Proof.Machine

/-! A write of what a range already holds. -/

theorem State.rdBytes_length (s : State) (pa n : Nat) : (s.rdBytes pa n).length = n := memRead_length s.mem pa n

/-- A write repairs nothing where no word of its range is bad (log entry 90). -/
theorem repaired_of_not_flawed (s : State) (pa n : Nat) (h : s.flawed pa n = false) : repaired s.bad pa n = s.bad := by
  refine List.filter_eq_self.2 fun w hw => ?_
  have hout := List.any_eq_false.1 h w hw
  rw [Bool.eq_false_iff.2 hout, Bool.not_false]

theorem State.wrBytes_rdBytes (s : State) (pa n : Nat) (hm : s.MemOk) (hf : s.flawed pa n = false) : s.wrBytes pa (s.rdBytes pa n) = s := by
  have hmem : memWrite s.mem pa (s.rdBytes pa n) = s.mem := memWrite_memRead s.mem pa n hm
  have hbad : repaired s.bad pa (s.rdBytes pa n).length = s.bad := by
    rw [s.rdBytes_length, repaired_of_not_flawed s pa n hf]
  rw [State.wrBytes, hmem, hbad]

/-- Settles O53: read after write, frame, canonical form and the write that changes nothing are each a law of memory. -/
theorem memoryReadsWhatWasWritten : Obligations.MemoryReadsWhatWasWritten := by
  unfold Obligations.MemoryReadsWhatWasWritten
  intro s pa n v bs
  refine ⟨rdBytes_wrBytes s pa bs, rdByte_wrBytes s pa bs, rd_wr s pa n v, fun hm => ⟨?_, ?_⟩, State.wrBytes_rdBytes s pa n⟩
  · exact State.wrBytes_memOk s pa bs hm
  · exact State.wr_memOk s pa n v hm

/-! The invariant along a step. -/

/-- What each stage of the shared agents does before its events keeps the memory's form. -/
theorem sharedStages_prepare_memOk : ∀ p ∈ sharedStages, ∀ s : State, s.MemOk → (p.prepare s).MemOk := by
  have hid : ∀ s : State, s.MemOk → (id s).MemOk := fun _ h => h
  simp only [sharedStages, List.forall_mem_cons]
  exact ⟨State.moveFabric_memOk, State.workEngines_memOk, State.failedCkpts_memOk, hid, hid, hid, State.gangStates_memOk, hid, List.forall_mem_nil _⟩

/-- One step, for any executor and stages that keep the form: a machine without power, a core's turn, an event from outside, the shared part of a cycle. -/
theorem stepBy_memOk {ex : Instr → State → Out} (hx : ∀ i s, s.MemOk → OutOk (ex i s)) (l : List Stage)
    (hl : ∀ p ∈ l, ∀ s : State, s.MemOk → (p.prepare s).MemOk) (s : State) (h : s.MemOk) : OutOk (stepBy ex l s) := by
  have hclk : ∀ f : Clk → Clk, (s.onClk f).MemOk := fun f => State.onClk_memOk s f h
  unfold stepBy
  split
  · exact fault_memOk
  · split
    · exact coreCycle_memOk hx _ (State.focus_memOk _ _ (hclk _))
    · split
      · exact hx _ _ (hclk _)
      · exact sharedCycle_memOk hx l hl s h

/-- Settles O60: `exec` keeps the form operation by operation, and so does each way a step runs it. -/
theorem everyStepKeepsMemoryCanonical : Obligations.EveryStepKeepsMemoryCanonical := by
  unfold Obligations.EveryStepKeepsMemoryCanonical
  intro s t hm hstep
  exact stepBy_memOk exec_memOk sharedStages sharedStages_prepare_memOk s hm t hstep

end Sys2Proof.Machine
end

section
/-! The register files: what a read returns after a write to the same register and to another (R11, R12, R20). -/

namespace Sys2Proof.Machine

@[simp] theorem State.rs_zero (s : State) : s.rs 0 = 0 := rfl
@[simp] theorem State.rp_zero (s : State) : s.rp 0 = true := rfl
@[simp] theorem State.rk_zero (s : State) : s.rk 0 = BitVec.allOnes 128 := rfl
@[simp] theorem State.ws_zero (s : State) (v : BitVec 64) : s.ws 0 v = s := rfl
@[simp] theorem State.wp_zero (s : State) (b : Bool) : s.wp 0 b = s := rfl
@[simp] theorem State.wk_zero (s : State) (m v : BitVec 128) : s.wk 0 m v = s := rfl

theorem State.rs_ws (s : State) {n : BitVec 5} (hn : n ≠ 0) (v : BitVec 64) : (s.ws n v).rs n = v := by
  simp only [State.rs, State.ws, hn, if_false, State.onCtx_core, Vector.getElem_set_self]

theorem State.rs_ws_ne (s : State) {n m : BitVec 5} (h : m ≠ n) (v : BitVec 64) : (s.ws n v).rs m = s.rs m := by
  have hne : n.toNat ≠ m.toNat := fun e => h (BitVec.eq_of_toNat_eq e).symm
  by_cases hn : n = 0
  · subst hn; rfl
  · simp only [State.rs, State.ws, hn, if_false, State.onCtx_core, Vector.getElem_set_ne _ _ hne]

/-- Of the predicate file, one bit replaced. -/
theorem getLsbD_setBit (p : BitVec 16) (n m : BitVec 4) (b : Bool) :
    ((p &&& ~~~(1#16 <<< n.toNat)) ||| ((BitVec.ofBool b).setWidth 16 <<< n.toNat)).getLsbD m.toNat = if m = n then b else p.getLsbD m.toNat := by
  have hm : m.toNat < 16 := m.isLt
  have key : m = n ↔ m.toNat = n.toNat := BitVec.toNat_inj.symm
  by_cases h : m = n
  · subst h; simp [hm]
  · have hne : m.toNat ≠ n.toNat := fun e => h (key.2 e)
    by_cases hlt : m.toNat < n.toNat
    · simp [h, hm, hlt]
    · have hpos : m.toNat - n.toNat ≠ 0 := by omega
      simp [h, hm, hlt, hpos]

theorem State.rp_wp (s : State) {n : BitVec 4} (hn : n ≠ 0) (b : Bool) : (s.wp n b).rp n = b := by
  simp only [State.rp, State.wp, hn, if_false, State.onCtx_core, getLsbD_setBit, if_true]

theorem State.rp_wp_ne (s : State) {n m : BitVec 4} (h : m ≠ n) (b : Bool) : (s.wp n b).rp m = s.rp m := by
  by_cases hn : n = 0
  · subst hn; rfl
  · simp only [State.rp, State.wp, hn, if_false, State.onCtx_core, getLsbD_setBit, h]

theorem State.rk_wk (s : State) {k : BitVec 3} (hk : k ≠ 0) (m v : BitVec 128) : (s.wk k m v).rk k = mixBits m v (s.rk k) := by
  simp only [State.rk, State.wk, hk, if_false, State.onCtx_core, Vector.getElem_set_self]

theorem State.rk_wk_ne (s : State) {k l : BitVec 3} (h : l ≠ k) (m v : BitVec 128) : (s.wk k m v).rk l = s.rk l := by
  have hne : k.toNat ≠ l.toNat := fun e => h (BitVec.eq_of_toNat_eq e).symm
  by_cases hk : k = 0
  · subst hk; rfl
  · simp only [State.rk, State.wk, hk, if_false, State.onCtx_core, Vector.getElem_set_ne _ _ hne]

theorem State.rv_wv (s : State) (n : BitVec 5) (m v : BitVec 1024) : (s.wv n m v).rv n = mixBits m v (s.rv n) := by
  simp [State.rv, State.wv]

theorem State.rv_wv_ne (s : State) {n k : BitVec 5} (h : k ≠ n) (m v : BitVec 1024) : (s.wv n m v).rv k = s.rv k := by
  have hne : n.toNat ≠ k.toNat := fun e => h (BitVec.eq_of_toNat_eq e).symm
  simp [State.rv, State.wv, Vector.getElem_set_ne _ _ hne]

/-! Control registers (R20 to R29). -/

@[simp] theorem State.onCtl_ctl (s : State) (f : Ctl → Ctl) : (s.onCtl f).ctl = f s.ctl := rfl
@[simp] theorem State.onCont_ctl (s : State) (k : Nat) (f : Cont → Cont) : (s.onCont k f).ctl = s.ctl := by simp [State.ctl]

/-- LAYBASE is 512-byte aligned: bits [8:0] and [63:56] of the value written are dropped. -/
theorem laybase_bits (v : BitVec 64) : (v.setWidth 56 &&& ~~~0x1FF#56).setWidth 64 = v &&& 0x00FFFFFFFFFFFE00#64 := by
  have mask : ∀ i : Fin 64, (0x00FFFFFFFFFFFE00#64).getLsbD i = (decide (i.1 < 56) && (~~~0x1FF#56).getLsbD i) := by decide
  refine BitVec.eq_of_getLsbD_eq fun i hi => ?_
  rw [BitVec.getLsbD_and, mask ⟨i, hi⟩, BitVec.getLsbD_setWidth, BitVec.getLsbD_and, BitVec.getLsbD_setWidth]
  by_cases h : i < 56 <;> simp only [hi, h, decide_true, decide_false, Bool.true_and, Bool.false_and, Bool.and_false]

/-- What `crwr` leaves of VFLAGS: the flags not written as one. -/
theorem vflags_cleared (f : BitVec 6) (v : BitVec 64) : (f &&& ~~~(v.setWidth 6)).setWidth 64 = f.setWidth 64 &&& ~~~v := by
  refine BitVec.eq_of_getLsbD_eq fun i hi => ?_
  by_cases h : i < 6
  · simp [hi, h]
  · simp [hi, h, BitVec.getLsbD_of_ge f i (by omega)]

theorem tolmode_bit (v : BitVec 64) : (BitVec.ofBool (v.getLsbD 0)).setWidth 64 = (v.setWidth 1).setWidth 64 := by
  congr 1
  refine BitVec.eq_of_getLsbD_eq fun i hi => ?_
  have h0 : i = 0 := by omega
  subst h0; simp

/-- The registers that are RO keep their value. -/
theorem State.crWrite_readOnly (s : State) (v : BitVec 64) : ∀ c ∈ [0x00#8, 0x01#8, 0x02#8, 0x03#8, 0x12#8, 0x13#8, 0x14#8, 0x29#8], s.crWrite c v = s := by
  simp only [List.forall_mem_cons]
  exact ⟨rfl, rfl, rfl, rfl, rfl, rfl, rfl, rfl, List.forall_mem_nil _⟩

theorem State.crRead_crWrite_full (s : State) (v : BitVec 64) : ∀ c ∈ [0x08#8, 0x22#8, 0x23#8], (s.crWrite c v).crRead c = v := by
  simp only [List.forall_mem_cons]
  refine ⟨?_, rfl, rfl, List.forall_mem_nil _⟩
  simp [State.crRead, State.crWrite]

theorem State.crRead_crWrite_word (s : State) (v : BitVec 64) :
    ∀ c ∈ [0x09#8, 0x10#8, 0x20#8, 0x21#8], (s.crWrite c v).crRead c = (v.setWidth 32).setWidth 64 := by
  simp only [List.forall_mem_cons]
  exact ⟨rfl, rfl, rfl, rfl, List.forall_mem_nil _⟩

theorem State.crRead_crWrite_spbound (s : State) (v : BitVec 64) : (s.crWrite 0x0A v).crRead 0x0A = (v.setWidth 16).setWidth 64 := rfl

theorem State.crRead_crWrite_tolmode (s : State) (v : BitVec 64) : (s.crWrite 0x11 v).crRead 0x11 = (v.setWidth 1).setWidth 64 :=
  tolmode_bit v

theorem State.crRead_crWrite_asid (s : State) (v : BitVec 64) : (s.crWrite 0x28 v).crRead 0x28 = (v.setWidth 12).setWidth 64 := rfl

theorem State.crRead_crWrite_laybase (s : State) (v : BitVec 64) : (s.crWrite 0x2A v).crRead 0x2A = v &&& 0x00FFFFFFFFFFFE00#64 :=
  laybase_bits v

theorem State.crRead_crWrite_vflags (s : State) (v : BitVec 64) : (s.crWrite 0x18 v).crRead 0x18 = s.crRead 0x18 &&& ~~~v :=
  vflags_cleared s.ctl.vflags v

/-- Settles O46: each register file reads what was written through its mask, and each control register in its defined bits. -/
theorem registersReadAndWrite : Obligations.RegistersReadAndWrite := by
  unfold Obligations.RegistersReadAndWrite
  intro s n m v p q b k l u w x y
  exact ⟨s.rs_zero, s.rp_zero, s.rk_zero, s.ws_zero v, s.wp_zero b, fun h => s.rs_ws h v, fun h => s.rs_ws_ne h v,
    fun h => s.rp_wp h b, fun h => s.rp_wp_ne h b, s.wk_zero w u, fun h => s.rk_wk h w u, fun h => s.rk_wk_ne h w u,
    s.rv_wv n x y, fun h => s.rv_wv_ne h x y, s.crWrite_readOnly v, s.crRead_crWrite_full v, s.crRead_crWrite_word v,
    s.crRead_crWrite_spbound v, s.crRead_crWrite_tolmode v, s.crRead_crWrite_asid v, s.crRead_crWrite_laybase v, s.crRead_crWrite_vflags v⟩

end Sys2Proof.Machine
end

section
/-! The machine at reset (R11, R15, R20, R37, R277, R399). -/

namespace Sys2Proof.Machine

theorem reset_coreAt (cid : Nat) : State.reset.coreAt cid = Core.reset := by
  unfold State.coreAt
  split <;> rfl

theorem reset_rs (n : BitVec 5) : State.reset.rs n = 0 := by
  have hfile : Ctx.reset.s[n.toNat] = 0 := Vector.getElem_replicate _
  exact (ite_congr rfl (fun _ => rfl) fun _ => hfile).trans (ite_self _)

/-- PRED holds 1: p0 alone is true. -/
theorem reset_rp : ∀ n, State.reset.rp n = (n == 0) := by decide

theorem reset_rv (n : BitVec 5) : State.reset.rv n = 0 := Vector.getElem_replicate _

theorem reset_rk (n : BitVec 3) : State.reset.rk n = if n = 0 then BitVec.allOnes 128 else 0 := by
  refine ite_congr rfl (fun _ => rfl) fun hn => ?_
  have hne : 0 ≠ n.toNat := fun e => hn (BitVec.eq_of_toNat_eq e.symm)
  exact (Vector.getElem_set_ne (by decide) n.isLt hne).trans (Vector.getElem_replicate _)

/-- Streams, matrix registers, latches, rings and cursors hold their tables' values. -/
theorem reset_units : (∀ n, (State.reset.rst n).valid = false) ∧ (∀ n, State.reset.rm n = MReg.reset) ∧ (∀ n, State.reset.rq n = 0) ∧
    (∀ n, (State.reset.rh n).valid = false) ∧ ∀ n, (State.reset.rsq n).valid = false := by
  decide

theorem reset_control : (∀ c ∈ [0x10#8, 0x11#8, 0x12#8, 0x14#8, 0x18#8, 0x20#8, 0x21#8, 0x22#8, 0x23#8, 0x29#8], State.reset.crRead c = 0) ∧
    State.reset.crRead 0x0A = 2048 ∧ State.reset.crRead 0x13 = 512 := by
  decide

theorem reset_tile (cid : Nat) (w : Bool) (t : Nat) : (State.reset.coreAt cid).tile w t = Tile.reset := by
  rw [reset_coreAt]
  cases w <;> rfl

/-- Settles O54: the finite register files by their entries, the maps by holding nothing. -/
theorem resetState : Obligations.ResetState := by
  unfold Obligations.ResetState
  obtain ⟨hst, hm, hq, hh, hsq⟩ := reset_units
  obtain ⟨hzero, hspb, hcap⟩ := reset_control
  have hres : ∀ cid, (State.reset.coreAt cid).res = none := fun cid => by rw [reset_coreAt]; rfl
  exact ⟨reset_rs, reset_rp, reset_rv, reset_rk, hst, hm, hq, hh, hsq, hzero, hspb, hcap, fun _ _ => rfl, reset_tile, hres, fun _ => ⟨rfl, rfl, rfl⟩, rfl, rfl, rfl, fun _ => rfl⟩

end Sys2Proof.Machine
end

section
/-! Lanes of a masked write (R12). -/

namespace Sys2Proof.Machine

theorem laneAt_testBit (e i x j : Nat) : (laneAt e i x).testBit j = (decide (j < e) && x.testBit (e * i + j)) := by
  rw [laneAt, Nat.testBit_mod_two_pow, Nat.testBit_div_two_pow, Nat.add_comm j]

theorem getLsbD_mixBits {w : Nat} (m v o : BitVec w) (j : Nat) : (mixBits m v o).getLsbD j = if m.getLsbD j then v.getLsbD j else o.getLsbD j := by
  by_cases hj : j < w
  · simp only [mixBits, BitVec.getLsbD_or, BitVec.getLsbD_and, BitVec.getLsbD_not, hj, decide_true]
    cases m.getLsbD j <;> simp
  · simp [BitVec.getLsbD_of_ge _ j (Nat.le_of_not_lt hj)]

/-- A lane whose mask bits are alike is taken from one side whole. -/
theorem laneAt_mixBits {w e i : Nat} (m v o : BitVec w) (b : Bool) (hm : ∀ j, j < e → m.getLsbD (e * i + j) = b) :
    laneAt e i (mixBits m v o).toNat = if b then laneAt e i v.toNat else laneAt e i o.toNat := by
  refine Nat.eq_of_testBit_eq fun j => ?_
  rw [laneAt_testBit, BitVec.testBit_toNat, getLsbD_mixBits]
  by_cases hj : j < e
  · rw [hm j hj]
    cases b <;> simp [laneAt_testBit, BitVec.testBit_toNat]
  · cases b <;> simp [laneAt_testBit, hj]

theorem fromLanes_lt (e : Nat) (l : List Nat) : fromLanes e l < 2 ^ (e * l.length) := by
  induction l with
  | nil => exact Nat.one_pos
  | cons x r ih =>
    have hx : x % 2 ^ e < 2 ^ e := Nat.mod_lt _ (Nat.two_pow_pos e)
    have hr : 2 ^ e * (fromLanes e r + 1) ≤ 2 ^ e * 2 ^ (e * r.length) := Nat.mul_le_mul_left _ ih
    rw [fromLanes, List.length_cons, Nat.mul_succ, Nat.add_comm (e * r.length), pow_add]
    rw [Nat.mul_succ] at hr
    omega

theorem laneMask_lt (e n k : Nat) : laneMask e n k < 2 ^ (e * n) := by
  have h := fromLanes_lt e ((List.range n).map fun i => if k.testBit i then 2 ^ e - 1 else 0)
  rwa [List.length_map, List.length_range] at h

/-- A mask is all ones in the lanes whose bit is set, and clear in the others. -/
theorem laneMask_bit {e n k i j : Nat} (hi : i < n) (hj : j < e) (hfit : e * n ≤ 1024) : (BitVec.ofNat 1024 (laneMask e n k)).getLsbD (e * i + j) = k.testBit i := by
  have hlane : e * (i + 1) ≤ 1024 := (Nat.mul_le_mul_left e hi).trans hfit
  have h := laneAt_testBit e i (BitVec.ofNat 1024 (laneMask e n k)).toNat j
  rw [laneAt_ofNat hlane, laneMask_lane, decide_eq_true hj, Bool.true_and, BitVec.testBit_toNat] at h
  rw [← h]
  cases k.testBit i
  · simp
  · simp only [hi, and_self, if_true, Nat.testBit_two_pow_sub_one, hj, decide_true]

/-- The lanes of a form fit the register. -/
theorem lanes_fit (w : Width) (t : ETy) : t.bits * lanesIn w t ≤ 1024 := by
  cases w <;> cases t <;> decide

/-- A mask bit at or above the number of lanes governs nothing. -/
theorem laneMask_congr {e n k k' : Nat} (h : ∀ i, i < n → k.testBit i = k'.testBit i) : laneMask e n k = laneMask e n k' := by
  unfold laneMask
  congr 1
  exact List.map_congr_left fun i hi => by rw [h i (List.mem_range.1 hi)]

/-- Settles O47: a lane's mask bits are alike, so the masked write takes each lane whole. -/
theorem maskedLanes : Obligations.MaskedLanes := by
  unfold Obligations.MaskedLanes
  refine ⟨fun s f k k' l hl => ⟨fun i hi => ?_, fun j hj => ?_, fun n hn => s.rv_wv_ne hn _ _, fun h => ?_⟩, rfl, rfl⟩
  · have hfit : f.t.bits * l.length ≤ 1024 := hl ▸ lanes_fit f.w f.t
    have hlane : f.t.bits * (i + 1) ≤ 1024 := (Nat.mul_le_mul_left _ hi).trans hfit
    have hmix := laneAt_mixBits (BitVec.ofNat 1024 (laneMask f.t.bits l.length k.toNat)) (BitVec.ofNat 1024 (fromLanes f.t.bits l)) (s.rv f.d)
      (k.getLsbD i) fun j hj => laneMask_bit hi hj hfit
    rw [laneAt_ofNat hlane, fromLanes_lane, ← s.rv_wv f.d] at hmix
    exact hmix
  · have hclear : (BitVec.ofNat 1024 (laneMask f.t.bits l.length k.toNat)).getLsbD j = false := by
      rw [BitVec.getLsbD_ofNat, Nat.testBit_lt_two_pow ((laneMask_lt _ _ _).trans_le (Nat.pow_le_pow_right Nat.two_pos hj)), Bool.and_false]
    exact (congrArg (BitVec.getLsbD · j) (s.rv_wv f.d _ _)).trans (by rw [getLsbD_mixBits, hclear]; rfl)
  · unfold putLanes
    rw [laneMask_congr h]

end Sys2Proof.Machine
end

section
/-! Continuation records, reports and barriers: what a change of one leaves of the others (R37, R322, R344). -/

namespace Sys2Proof.Machine

theorem State.cont_setCont (s : State) (k : Nat) (c : Option Cont) : (s.setCont k c).cont k = c := fget_fput _ _ _ _

theorem State.cont_onCont (s : State) (k : Nat) (f : Cont → Cont) : (s.onCont k f).cont k = (s.cont k).map f := by
  unfold State.onCont
  split
  · next c hc => rw [State.cont_setCont, hc]; rfl
  · next hc => rw [hc]; rfl

/-- A report to a live continuation joins its reports. -/
theorem State.report_of_cont {s : State} {key : Nat} {c : Cont} (h : s.cont key = some c) (jcb : Nat) (t : Trap) :
    s.report key jcb t = s.onCont key fun c => { c with reports := c.reports ++ [{ t with report := true }] } := by
  unfold State.report
  rw [h]

theorem State.cont_report {s : State} {key : Nat} {c : Cont} (h : s.cont key = some c) (jcb : Nat) (t : Trap) :
    (s.report key jcb t).cont key = some { c with reports := c.reports ++ [{ t with report := true }] } := by
  rw [State.report_of_cont h, State.cont_onCont, h]
  rfl

@[simp] theorem State.report_core (s : State) (key jcb : Nat) (t : Trap) : (s.report key jcb t).core = s.core := by
  unfold State.report
  split
  · exact State.onCont_core ..
  · rfl
@[simp] theorem State.report_bar (s : State) (key jcb : Nat) (t : Trap) : (s.report key jcb t).bar = s.bar := by
  unfold State.report
  split
  · exact State.onCont_bar ..
  · rfl
@[simp] theorem State.report_fab (s : State) (key jcb : Nat) (t : Trap) : (s.report key jcb t).fab = s.fab := by
  unfold State.report
  split
  · exact State.onCont_fab ..
  · rfl

theorem State.barrier_onBarrier (s : State) (die n : Nat) (f : Barrier → Barrier) : (s.onBarrier die n f).barrier die n = f (s.barrier die n) :=
  fget_fmod _ _ _ _

theorem State.barrier_onBarrier_ne (s : State) {die n e m : Nat} (f : Barrier → Barrier) (h : e * 64 + m ≠ die * 64 + n) :
    (s.onBarrier die n f).barrier e m = s.barrier e m :=
  fget_fmod_ne _ _ _ _ _ h

theorem State.vslot_onVslot (s : State) (die n : Nat) (f : VSlot → VSlot) : (s.onVslot die n f).vslot die n = f (s.vslot die n) :=
  fget_fmod _ _ _ _

/-- R37: the count saturates. -/
theorem saturating_succ (x : BitVec 32) : (if x = BitVec.allOnes 32 then x else x + 1).toNat = Nat.min (x.toNat + 1) (2 ^ 32 - 1) := by
  have hx : x.toNat < 2 ^ 32 := x.isLt
  have hall : x = BitVec.allOnes 32 ↔ x.toNat = 2 ^ 32 - 1 := by rw [← BitVec.toNat_inj, BitVec.toNat_allOnes]
  rw [show Nat.min (x.toNat + 1) (2 ^ 32 - 1) = min (x.toNat + 1) (2 ^ 32 - 1) from rfl]
  split
  · next h => have := hall.1 h; omega
  · next h =>
    have := mt hall.2 h
    rw [BitVec.toNat_add, show BitVec.toNat (1 : BitVec 32) = 1 from rfl]
    omega

/-- R235: an arrival of the job that holds the barrier adds one, up to the largest count, and touches no other barrier. -/
theorem State.arrive_barrier {s : State} {die n jcb : Nat} (h : (s.barrier die n).job = some jcb) :
    ((s.arrive die n jcb).barrier die n).job = some jcb ∧
    ((s.arrive die n jcb).barrier die n).count.toNat = Nat.min ((s.barrier die n).count.toNat + 1) (2 ^ 32 - 1) ∧
    ∀ m e, e * 64 + m ≠ die * 64 + n → (s.arrive die n jcb).barrier e m = s.barrier e m := by
  unfold State.arrive
  rw [if_pos h, State.barrier_onBarrier]
  exact ⟨h, saturating_succ _, fun m e hne => s.barrier_onBarrier_ne _ hne⟩

@[simp] theorem State.arrive_mem (s : State) (die n jcb : Nat) : (s.arrive die n jcb).mem = s.mem := by
  unfold State.arrive
  split <;> rfl
@[simp] theorem State.arrive_fab (s : State) (die n jcb : Nat) : (s.arrive die n jcb).fab = s.fab := by
  unfold State.arrive
  split <;> rfl

/-! Critical flits that arrive (R235, R393). -/

theorem State.msg_of_fab {s t : State} (h : t.fab = s.fab) (id : Nat) : t.msg id = s.msg id := by
  unfold State.msg
  rw [h]

theorem State.msg_dropMsg (s : State) (id : Nat) : (s.dropMsg id).msg id = none := by
  refine List.find?_eq_none.2 fun m hm => ?_
  have hne := (List.mem_filter.1 hm).2
  simpa using hne

/-- An arrival that is here leaves the fabric, and counts or is reported. -/
theorem barrierArrival_here {s : State} {id : Nat} {m : Msg} {b die : Nat} (hm : s.msg id = some m) (hh : m.here s.now = true) (hc : m.crit = .arrival b die) :
    exec (.barrierArrival id) s = .next (if (s.barrier die b).job = some m.jcb then (s.dropMsg id).arrive die b m.jcb else (s.dropMsg id).reportMsg m 0x03) := by
  rw [exec_barrierArrival, execBarrierArrival]
  simp only [hm, hc, hh, Bool.not_true, Bool.false_eq_true, if_false]
  rfl

/-- A token that is here for a step of the slot that holds its handle is counted there. -/
theorem stepTokenArrival_here {s : State} {id : Nat} {m : Msg} {h : BitVec 32} {k v : Nat} (hm : s.msg id = some m) (hh : m.here s.now = true)
    (hc : m.crit = .token h k) (hv : s.slotOf m.dst h = some v) (hk : k < (s.vslot m.dst v).nstep) :
    exec (.stepTokenArrival id) s = .next ((s.dropMsg id).onVslot m.dst v fun x => { x with tok := fmod 0 k (· + 1) x.tok }) := by
  have hv' : (s.dropMsg id).slotOf m.dst h = some v := hv
  have hk' : k < ((s.dropMsg id).vslot m.dst v).nstep := hk
  rw [exec_stepTokenArrival, execStepTokenArrival]
  simp only [hm, hc, hh, hv', hk', Bool.not_true, Bool.false_eq_true, if_false, if_true]

/-- Settles O33: each arrival leaves the fabric and then counts at its barrier or step, or is told to its issuer. -/
theorem criticalArrivals : Obligations.CriticalArrivals := by
  unfold Obligations.CriticalArrivals
  intro s m hm hh
  refine ⟨fun b die hc => ⟨fun hj => ?_, fun hj => ?_⟩, fun h k v hc hv hk => ?_⟩
  · obtain ⟨hjob, hcount, hframe⟩ := State.arrive_barrier (s := s.dropMsg m.id) hj
    refine ⟨(s.dropMsg m.id).arrive die b m.jcb, (barrierArrival_here hm hh hc).trans (by rw [if_pos hj]), ?_, State.arrive_mem .., hjob, hcount, hframe⟩
    rw [State.msg_of_fab (State.arrive_fab ..), State.msg_dropMsg]
  · refine ⟨(s.dropMsg m.id).reportMsg m 0x03, (barrierArrival_here hm hh hc).trans (by rw [if_neg hj]), ?_, State.report_bar .., fun c hcont => ?_⟩
    · rw [State.reportMsg, State.msg_of_fab (State.report_fab ..), State.msg_dropMsg]
    · have hcont' : (s.dropMsg m.id).cont m.issuer = some c := hcont
      exact ⟨_, State.cont_report hcont' _ _, rfl⟩
  · refine ⟨_, stepTokenArrival_here hm hh hc hv hk, State.msg_dropMsg s m.id, ?_, rfl, rfl⟩
    rw [State.vslot_onVslot]
    exact fget_fmod _ _ _ _

/-! Barrier forms at issue and `balloc` at its landing (R233 to R236). -/

theorem State.barTrap_of_held {s : State} {n : BitVec 6} (h : (s.barrier s.die n.toNat).job = some s.jcb) : s.barTrap n = none := by
  have hh : s.holdsBar n = true := beq_iff_eq.2 h
  rw [State.barTrap, hh]
  rfl

theorem State.barTrap_of_not_held {s : State} {n : BitVec 6} (h : (s.barrier s.die n.toNat).job ≠ some s.jcb) : s.barTrap n = some (accessFault 0x04 0 0) := by
  have hh : s.holdsBar n = false := beq_eq_false_iff_ne.2 h
  rw [State.barTrap, hh]
  rfl

/-- R234: at its landing `balloc` takes a free barrier, at zero, and writes its predicate. -/
theorem State.land_barAlloc_free {s : State} {n : BitVec 6} (h : (s.barrier s.die n.toNat).job = none) (p : BitVec 4) :
    s.land (.barAlloc n p) = (s.onBarrier s.die n.toNat fun _ => { count := 0, job := some s.jcb }).wp p true :=
  if_pos (Option.isNone_iff_eq_none.2 h)

theorem State.land_barAlloc_held {s : State} {n : BitVec 6} (h : (s.barrier s.die n.toNat).job ≠ none) (p : BitVec 4) : s.land (.barAlloc n p) = s.wp p false :=
  if_neg fun e => h (Option.isNone_iff_eq_none.1 e)

theorem State.barrier_of_bar {s t : State} (h : t.bar = s.bar) (die n : Nat) : t.barrier die n = s.barrier die n := by
  unfold State.barrier
  rw [h]

theorem State.rp_wp_true (s : State) (p : BitVec 4) : (s.wp p true).rp p = true := by
  by_cases hp : p = 0
  · subst hp; rfl
  · exact s.rp_wp hp true

/-- Settles O22: the forms at issue go by the barrier's check, and the allocation by whether the barrier is free at its landing. -/
theorem barrierForms : Obligations.BarrierForms := by
  unfold Obligations.BarrierForms
  intro s n d l c k p
  refine ⟨fun hheld => ?_, fun hheld => ?_, fun hdie => ?_, fun hdie => ?_, rfl, fun hfree => ?_, fun hheld => State.land_barAlloc_held hheld p⟩
  · have hno := State.barTrap_of_held hheld
    refine ⟨?_, ?_, ?_, ?_, ?_⟩
    all_goals simp [Emits, EmitsEnd, State.emits, execBarr, execBwait, execBwaitImm, execBreset, execBfree, State.bwaitFor, State.checked, State.enqS, hno]
  · have htrap := State.barTrap_of_not_held hheld
    simp [Raises, execBarr, execBwait, execBwaitImm, execBreset, execBfree, State.bwaitFor, State.checked, htrap]
  · have hno : limitIf (!s.dieOk ((s.rs d).toNat % 2 ^ 23)) 0 0 = none := by rw [hdie]; rfl
    rw [Emits, exec_barr, execBarr]
    simp only [if_true, hno]
    rfl
  · have htrap : limitIf (!s.dieOk ((s.rs d).toNat % 2 ^ 23)) 0 0 = some (accessFault 0x04 0 0) := by rw [hdie]; rfl
    rw [Raises, exec_barr, execBarr]
    simp only [if_true, htrap]
    rfl
  · have hbar := State.wp_bar (s.onBarrier s.die n.toNat fun _ => { count := 0, job := some s.jcb }) p true
    rw [State.land_barAlloc_free hfree]
    refine ⟨?_, State.rp_wp_true _ p, State.wp_mem .., fun q hq => State.rp_wp_ne _ hq _, fun e m hne => ?_⟩
    · rw [State.barrier_of_bar hbar, State.barrier_onBarrier]
    · rw [State.barrier_of_bar hbar, State.barrier_onBarrier_ne _ _ hne]

end Sys2Proof.Machine
end

section
/-! Control-register forms and the scalar floating forms at issue (R126 to R128). -/

namespace Sys2Proof.Machine

theorem mode_lt (m : BitVec 2) : m.toNat < 4 := m.isLt

theorem ofNat_wrapN (n : Nat) (v : Int) : BitVec.ofNat n (wrapN n v) = BitVec.ofInt n v := by
  refine BitVec.eq_of_toNat_eq ?_
  have hlt : wrapN n v < 2 ^ n := by
    have := Int.emod_lt_of_pos v (int_pow_pos n)
    unfold wrapN
    omega
  rw [BitVec.toNat_ofNat, Nat.mod_eq_of_lt hlt, BitVec.toNat_ofInt, wrapN]

/-- `crwr` is refused for privilege alone. -/
theorem crwr_allowed {s : State} {a : BitVec 5} {c : BitVec 8} (h : crPriv c = false ∨ jcbPriv s s.jcb = true) : EmitsEnd (.crwr a c) s [.ctl c (s.rs a)] := by
  rw [EmitsEnd, exec_crwr, execCrwr]
  rcases h with h | h <;> simp [h]

theorem crwr_refused {s : State} {a : BitVec 5} {c : BitVec 8} (hc : crPriv c = true) (hj : jcbPriv s s.jcb = false) :
    Raises (.crwr a c) s { cause := cPriv, info0 := 0x1C + 256 * c.toNat } := by
  rw [Raises, exec_crwr, execCrwr, hc, hj]
  rfl

/-- A conversion to a 64-bit integer writes the low 64 bits of its number. -/
theorem fcvt_toInt (s : State) (d a : BitVec 5) (k : BitVec 3) (m : BitVec 2) (r : Int × Nat) (h : fcvtVal k.toNat m.toNat (s.rs a) = (wrapN 64 r.1, r.2)) :
    Emits (.fcvt d a k m) s [(1, .sreg d (BitVec.ofInt 64 r.1)), (1, .flags (flagBits r.2))] := by
  rw [Emits, exec_fcvt, execFcvt, h, ← ofNat_wrapN]
  rfl

/-- Settles O4: each floating form is the rounding that its specification names, and holds the values of its format. -/
theorem controlAndFloatForms : Obligations.ControlAndFloatForms := by
  unfold Obligations.ControlAndFloatForms
  intro s d a b c m
  have hm := mode_lt m
  have hx := f32_ieee.toOk.holds (s.rs32 a)
  have hy := f32_ieee.toOk.holds (s.rs32 b)
  exact ⟨rfl, crwr_allowed, crwr_refused,
    ⟨_, addV_sumIs f32_ieee hm hx hy, rfl⟩,
    ⟨_, mulV_prodIs f32_ieee hm hx hy, rfl⟩,
    ⟨_, toIntSat_cvtIntIs hm hx, fcvt_toInt s d a 0 m _ rfl⟩,
    ⟨_, toIntSat_cvtIntIs hm hx, fcvt_toInt s d a 1 m _ rfl⟩,
    ⟨_, ofInt_fromIntIs f32_ieee hm _, rfl⟩,
    ⟨_, ofInt_fromIntIs f32_ieee hm _, rfl⟩,
    ⟨_, cvtV_cvtIs bf16_ieee hm hx, rfl⟩,
    ⟨_, cvtV_cvtIs f32_ieee (by decide) (bf16_ieee.toOk.holds _), rfl⟩,
    ⟨_, cvtV_cvtIs f16_ieee hm hx, rfl⟩,
    ⟨_, cvtV_cvtIs f32_ieee (by decide) (f16_ieee.toOk.holds _), rfl⟩⟩

end Sys2Proof.Machine
end

section
/-! The matrix slot on registers and on ACC (R192 to R216). -/

namespace Sys2Proof.Machine

/-- The three ways a result ends (R16, R196): it fits its LIMIT, or it is made dense, or it raises RANK_OVERFLOW; and where it stands its claim fits or raises MRF_FULL. -/
theorem matrixResult_of_mxResult {s : State} {i : Instr} {md : BitVec 4} {b : MBody} {cost : Nat → Nat} {claim : Option Nat}
    (h : exec i s = s.mxResult md b cost claim) : MatrixResult s i md b cost claim := by
  unfold MatrixResult
  simp only [Raises, h, State.mxResult]
  cases hb : isFact b && decide ((s.rm md).limit.toNat < rankOf b)
  case false =>
    have hno : ¬(isFact b = true ∧ (s.rm md).limit.toNat < rankOf b) := fun hc => by simp [hc] at hb
    refine ⟨fun _ ht => ?_, fun _ t ht => ?_, fun hc => absurd hc hno, fun hc => absurd hc hno, fun hc => absurd hc hno⟩
    all_goals simp only [Bool.false_and, Bool.false_eq_true, if_false, ht]
  case true =>
    have hyes : isFact b = true ∧ (s.rm md).limit.toNat < rankOf b := by simpa using hb
    refine ⟨fun hc => absurd hyes hc, fun hc => absurd hyes hc, fun _ had => ?_, fun _ had ht => ?_, fun _ had t ht => ?_⟩
    · simp only [had, Bool.not_false, Bool.and_self, if_true]
    all_goals simp only [had, Bool.not_true, Bool.and_false, Bool.false_eq_true, if_false, if_true, ht]

/-- R213: a register moved to itself only occupies the unit. -/
theorem mmov_self {s : State} {f : MF} (h : f.md = f.ma) :
    exec (.mmov f) s = .next (s.emit 1 (.mxBusy (s.now + Nat.max 1 (((s.rm f.ma).body.granules + 7) / 8)))) := by
  rw [exec_mmov, execMmov, if_pos h]
  rfl

theorem mmov_other {s : State} {f : MF} (h : f.md ≠ f.ma) : exec (.mmov f) s = s.mxResult f.md (s.rm f.ma).body (ceilDiv · 8) none := by
  rw [exec_mmov, execMmov, if_neg h]

/-- Settles O19: each form is its result under the rank rule and the occupancy. -/
theorem matrixRegisterForms : Obligations.MatrixRegisterForms := by
  unfold Obligations.MatrixRegisterForms
  intro s f
  refine ⟨mmov_self, fun h => matrixResult_of_mxResult (mmov_other h), matrixResult_of_mxResult rfl, matrixResult_of_mxResult rfl,
    matrixResult_of_mxResult rfl, fun r hr => matrixResult_of_mxResult ?_, fun r hr => matrixResult_of_mxResult ?_,
    matrixResult_of_mxResult rfl, matrixResult_of_mxResult rfl⟩
  · subst hr; rfl
  · subst hr; rfl

theorem matOf_of_isFact {b : MBody} (h : isFact b = true) : ∃ u v, matOf b = .fact u v := by
  cases b with
  | empty => cases h
  | dense rows => cases h
  | factored u v => exact ⟨_, _, rfl⟩

/-- R209: two dense operands are multiplied block by block into ACC. -/
theorem mmac_dense {s : State} {f : MF} {p q : List (List Nat)} (ha : matOf (s.rm f.ma).body = .dense p) (hb : matOf (s.rm f.mb).body = .dense q) :
    exec (.mmac f) s = .next ((s.mxLand (ceilDiv (macs (s.rm f.ma).body (s.rm f.mb).body) (macLanes f.fmt.toNat f.fmt.toNat))
      (.accBlocks (2 * f.bank.toNat + b2n (f.mods.getLsbD 4)) (f.mods.getLsbD 3)
        (p.map fun r => ((transposeL q 64).map (convBlocks f.fmt.toNat)).map fun c =>
          (blockVals (convBlocks f.fmt.toNat r) c).map (BitVec.ofNat 32)).flatten)).clearZ f .mmac) := by
  rw [exec_mmac, execMmac]
  simp only [ha, hb]
  rfl

/-- R209: a product with a factored operand is made dense and added to ACC. -/
theorem mmac_factored {s : State} {f : MF} (h : isFact (s.rm f.ma).body = true ∨ isFact (s.rm f.mb).body = true) :
    let P := prodM f.fmt.toNat (matOf (s.rm f.ma).body) (matOf (s.rm f.mb).body)
    exec (.mmac f) s = .next ((s.mxLand (ceilDiv (macs (s.rm f.ma).body (s.rm f.mb).body) (macLanes f.fmt.toNat f.fmt.toNat) + 8 * rankOf (bodyOf P))
      (.accAdd (2 * f.bank.toNat + b2n (f.mods.getLsbD 4)) (f.mods.getLsbD 3) ((densifyM P).map rowBv))).clearZ f .mmac) := by
  rw [exec_mmac, execMmac]
  rcases h with h | h
  · obtain ⟨u, v, hu⟩ := matOf_of_isFact h
    simp only [hu]
    rfl
  · obtain ⟨u, v, hu⟩ := matOf_of_isFact h
    simp only [hu]
    cases matOf (s.rm f.ma).body <;> rfl

/-- `macrd` goes by its claim alone (R16, R208). -/
theorem macrd_fits {s : State} {f : MF} (h : s.mrfTrap f.md 32 = none) :
    exec (.macrd f) s = .next (s.mxLand 16 (.mregAcc f.md (2 * f.bank.toNat + b2n (f.mods.getLsbD 4)))) := by
  rw [exec_macrd, execMacrd, h]
  rfl

theorem macrd_full {s : State} {f : MF} {t : Trap} (h : s.mrfTrap f.md 32 = some t) : Raises (.macrd f) s t := by
  rw [Raises, exec_macrd, execMacrd, h]

/-- Settles O20: the products go by the forms of their operands, `macrd` by its claim, and each other form lands as it stands. -/
theorem matrixAccForms : Obligations.MatrixAccForms := by
  unfold Obligations.MatrixAccForms
  intro s f d l x
  exact ⟨rfl, rfl, rfl, fun _ _ => mmac_dense, mmac_factored, macrd_fits, fun _ => macrd_full, rfl, rfl, rfl⟩

end Sys2Proof.Machine
end

section
/-! The landing of results (R91, R195): what one landing leaves unchanged, and the landing of what is due. -/

namespace Sys2Proof.Machine

/-- What a result that lands never touches: the results still in flight, and memory. -/
def State.FlightKept (s t : State) : Prop := t.core.pend = s.core.pend ∧ t.mem = s.mem

theorem State.FlightKept.rfl {s : State} : s.FlightKept s := ⟨Eq.refl _, Eq.refl _⟩
theorem State.FlightKept.trans {s t u : State} (h : s.FlightKept t) (k : t.FlightKept u) : s.FlightKept u := ⟨k.1.trans h.1, k.2.trans h.2⟩

theorem State.FlightKept.of_foldl {α : Type} {f : State → α → State} (hf : ∀ (s : State) a, s.FlightKept (f s a)) (l : List α) (s : State) : s.FlightKept (l.foldl f s) := by
  induction l generalizing s with
  | nil => exact .rfl
  | cons a l ih => exact (hf s a).trans (ih _)

theorem State.flightKept_onCont (s : State) (k : Nat) (f : Cont → Cont) : s.FlightKept (s.onCont k f) :=
  ⟨congrArg Core.pend (State.onCont_core ..), State.onCont_mem ..⟩
theorem State.flightKept_ws (s : State) (n : BitVec 5) (v : BitVec 64) : s.FlightKept (s.ws n v) := by
  unfold State.ws
  split <;> exact .rfl
theorem State.flightKept_wp (s : State) (n : BitVec 4) (v : Bool) : s.FlightKept (s.wp n v) := by
  unfold State.wp
  split <;> exact .rfl
theorem State.flightKept_wk (s : State) (n : BitVec 3) (m v : BitVec 128) : s.FlightKept (s.wk n m v) := by
  unfold State.wk
  split <;> exact .rfl
theorem State.flightKept_arrive (s : State) (die n jcb : Nat) : s.FlightKept (s.arrive die n jcb) := by
  unfold State.arrive
  split <;> exact .rfl
theorem State.flightKept_wrow (s : State) (w : Bool) (row : Nat) (m v : BitVec 2048) : s.FlightKept (s.wrow w row m v) := by
  cases w <;> exact .rfl
theorem State.flightKept_wacc (s : State) (row : Nat) (m v : BitVec 2048) : s.FlightKept (s.wacc row m v) := .rfl
theorem State.flightKept_landBlocks (s : State) (tile : Nat) (z : Bool) (b : List (List (BitVec 32))) : s.FlightKept (s.landBlocks tile z b) :=
  .of_foldl (fun s _ => s.flightKept_wacc ..) _ s
theorem State.flightKept_landRows (s : State) (tile : Nat) (rows : List (BitVec 2048)) : s.FlightKept (s.landRows tile rows) :=
  .of_foldl (fun s _ => s.flightKept_wacc ..) _ s
theorem State.flightKept_landAdd (s : State) (tile : Nat) (z : Bool) (rows : List (BitVec 2048)) : s.FlightKept (s.landAdd tile z rows) :=
  .of_foldl (fun s _ => s.flightKept_wacc ..) _ s
theorem State.flightKept_landVerdict (s : State) (set idx st : Nat) (pass : Bool) (k h : Nat) : s.FlightKept (s.landVerdict set idx st pass k h) := by
  unfold State.landVerdict
  extract_lets
  split <;> exact .rfl
theorem State.flightKept_landMreg (s : State) (n : BitVec 4) (b : MBody) : s.FlightKept (s.landMreg n b) := by
  unfold State.landMreg
  extract_lets
  split
  · exact s.flightKept_onCont _ _
  · exact .rfl
theorem Core.setTile_pend (c : Core) (w : Bool) (t : Nat) (f : Tile → Tile) : (c.setTile w t f).pend = c.pend := by
  cases w <;> rfl
theorem Core.foldl_setTile_pend {α : Type} (w : Bool) (t : α → Nat) (f : Tile → Tile) (l : List α) (c : Core) :
    (l.foldl (fun c a => c.setTile w (t a) f) c).pend = c.pend := by
  induction l generalizing c with
  | nil => rfl
  | cons a l ih => exact (ih _).trans (c.setTile_pend ..)

/-- An effect that lands touches no result in flight, and memory only where it writes a control register (R25). -/
theorem State.flightKept_land (s : State) (e : Eff) (h : ∀ c v, e ≠ .ctl c v) : s.FlightKept (s.land e) := by
  cases e with
  | sreg n v => exact s.flightKept_ws n v
  | preg n v => exact s.flightKept_wp n v
  | kreg n m v => exact s.flightKept_wk n m v
  | ctl c v => exact absurd rfl (h c v)
  | vcatNext slot c =>
    simp only [State.land]
    split
    · split <;> exact .rfl
    · exact .rfl
  | amem row m v => exact s.flightKept_wrow false row m v
  | tiles w l o => exact ⟨Core.foldl_setTile_pend w id _ l s.core, rfl⟩
  | tileFree w f n => exact ⟨Core.foldl_setTile_pend w (f + ·) _ _ s.core, rfl⟩
  | tileTake w f n tag => exact ⟨Core.foldl_setTile_pend w (f + ·) _ _ s.core, rfl⟩
  | arrive n jcb => exact s.flightKept_arrive _ n jcb
  | verdict set idx st pass k handle => exact s.flightKept_landVerdict set idx st pass k handle
  | barAlloc n p =>
    simp only [State.land]
    split
    · exact .trans (t := s.onBarrier s.die n.toNat fun _ => { count := 0, job := some s.jcb }) .rfl (State.flightKept_wp ..)
    · exact s.flightKept_wp p false
  | mreg n b => exact s.flightKept_landMreg n b
  | mregAcc n t => exact s.flightKept_landMreg n _
  | accBlocks t z b => exact s.flightKept_landBlocks t z b
  | accRows t r => exact s.flightKept_landRows t r
  | accAdd t z r => exact s.flightKept_landAdd t z r
  | posted => exact s.flightKept_onCont _ _
  | unrecord => exact s.flightKept_onCont _ _
  | hold w => exact s.flightKept_onCont _ _
  | _ => exact .rfl

theorem State.crWrite_pend (s : State) (c : BitVec 8) (v : BitVec 64) : (s.crWrite c v).core.pend = s.core.pend := by
  unfold State.crWrite
  split
  · exact (State.flightKept_onCont ..).1
  all_goals rfl

theorem State.land_pend (s : State) (e : Eff) : (s.land e).core.pend = s.core.pend := by
  by_cases h : ∃ c v, e = .ctl c v
  · obtain ⟨c, v, rfl⟩ := h
    exact s.crWrite_pend c v
  · exact (s.flightKept_land e fun c v hc => h ⟨c, v, hc⟩).1

/-! The landing of what is due. -/

/-- The focused core without the results that are due and satisfy a test. -/
def State.undue (s : State) (T : Eff → Bool) : State :=
  s.onCore fun c => { c with pend := c.pend.filter fun p => !(decide (p.due ≤ s.now) && T p.eff) }

theorem State.landDue_eq {s : State} {T : Eff → Bool} {l : List Pend} (h : s.core.pend.filter (fun p => decide (p.due ≤ s.now) && T p.eff) = l) :
    s.landDue T = (s.undue T).landAll l := by
  rw [← h]
  rfl

theorem lastCtl_singleton (p : Pend) : lastCtl [p] = [p] := by
  simp [lastCtl]

/-- One result that meets no error lands, with the flags of its latch update. -/
theorem State.landAll_singleton {s : State} {p : Pend} (h : s.effFlaw p.eff = none) :
    s.landAll [p] = (s.land p.eff).orFlags (flagBits (orF 0 (s.latchFlags p.eff))) := by
  rw [State.landAll, show sortBy Pend.before [p] = [p] from rfl, lastCtl_singleton, State.landList, h]
  rfl

/-- One result, whatever it meets, leaves those in flight. -/
theorem State.landAll_singleton_pend (s : State) (p : Pend) : (s.landAll [p]).core.pend = s.core.pend := by
  cases h : s.effFlaw p.eff with
  | none =>
    rw [State.landAll_singleton h]
    exact s.land_pend p.eff
  | some t =>
    simp only [State.landAll, show sortBy Pend.before [p] = [p] from rfl, lastCtl_singleton, State.landList, h]
    have hpend := congrArg Core.pend (s.report_core s.selfKey s.jcb { t with pc := p.pc, repidx := p.rep, slot := some p.slot })
    exact hpend

/-- An effect that updates no latch raises no flag of its own. -/
theorem State.landAll_singleton_plain {s : State} {p : Pend} (h : s.effFlaw p.eff = none) (hl : s.latchFlags p.eff = 0) :
    s.landAll [p] = (s.land p.eff).orFlags 0 := by
  rw [State.landAll_singleton h, hl]
  rfl

/-- R10: of two writes of one cycle the one of the higher slot lands last, in whichever order they were noted. -/
theorem sortBy_pair {p q : Pend} (hr : p.eff.rank = q.eff.rank) (hs : p.slot < q.slot) : ∀ l, l = [p, q] ∨ l = [q, p] → sortBy Pend.before l = [p, q] := by
  have hpq : p.before q = true := by simp [Pend.before, hr, hs]
  have hqp : q.before p = false := by
    have h1 : ¬q.slot < p.slot := by omega
    have h2 : q.slot ≠ p.slot := by omega
    simp [Pend.before, hr, h1, h2]
  rintro l (rfl | rfl)
  · simp [sortBy, sortBy.insertByFront, hqp]
  · simp [sortBy, sortBy.insertByFront, hpq]

theorem State.landAll_two_sreg {s : State} {p q : Pend} {n : BitVec 5} {v w : BitVec 64} (hp : p.eff = .sreg n v) (hq : q.eff = .sreg n w) (hs : p.slot < q.slot)
    {l : List Pend} (hl : l = [p, q] ∨ l = [q, p]) : s.landAll l = ((s.ws n v).ws n w).orFlags 0 := by
  have hr : p.eff.rank = q.eff.rank := by rw [hp, hq]; rfl
  rw [State.landAll, sortBy_pair hr hs l hl]
  have hctl : lastCtl [p, q] = [p, q] := by simp [lastCtl, Eff.ctlOf, hp, hq]
  simp only [hctl, State.landList, hp, hq, State.effFlaw, State.land, State.latchFlags]
  rfl

/-! What each register file reads after the landing. -/

theorem State.rs_ws_self (s : State) (n : BitVec 5) (v : BitVec 64) : (s.ws n v).rs n = if n = 0 then 0 else v := by
  by_cases h : n = 0
  · subst h; rfl
  · rw [if_neg h, s.rs_ws h]

theorem State.rp_wp_self (s : State) (n : BitVec 4) (v : Bool) : (s.wp n v).rp n = (n == 0 || v) := by
  by_cases h : n = 0
  · subst h; rfl
  · rw [s.rp_wp h, beq_eq_false_iff_ne.2 h, Bool.false_or]

theorem State.rm_wm (s : State) (n : BitVec 4) (f : MReg → MReg) : (s.wm n f).rm n = f (s.rm n) := by
  simp [State.rm, State.wm]

theorem State.arow_wrow (s : State) (r : Nat) (m v : BitVec 2048) : (s.wrow false r m v).arow false r = mixBits m v (s.arow false r) :=
  fget_fmod _ _ _ _

theorem State.racc_wacc (s : State) (r : Nat) (m v : BitVec 2048) : (s.wacc r m v).racc r = mixBits m v (s.racc r) :=
  fget_fmod _ _ _ _

/-- R16: a body that MRFCAP still holds lands in its register. -/
theorem State.landMreg_fits {s : State} {n : BitVec 4} {b : MBody} (h : s.mrfOcc - (s.rm n).body.granules + b.granules ≤ s.core.mrfCap) :
    (s.landMreg n b).rm n = { s.rm n with body := b } := by
  unfold State.landMreg
  rw [if_neg fun hc => absurd hc.1 (Nat.not_lt.2 h)]
  exact s.rm_wm n fun r => { r with body := b }

/-- RESULT_LANDING takes what is neither a matrix result nor on shared state or tile records. -/
def Eff.isOwn (e : Eff) : Bool := !e.isMx && !e.isShared && !e.isTiles

theorem resultLanding_eq {s u : State} (h : s.landDue Eff.isOwn = u) : exec .resultLanding s = .next u := by
  rw [← h]
  rfl

theorem matrixResultLanding_eq {s u : State} (h : s.landDue Eff.isMx = u) : exec .matrixResultLanding s = .next u := by
  rw [← h]
  rfl

/-- Settles O27: the landing of what is due is the landing of its one or two results, and each register file reads what landed. -/
theorem resultLandings : Obligations.ResultLandings := by
  unfold Obligations.ResultLandings
  intro s p
  refine ⟨fun hdue hflaw => ?_, fun q n v w hdue hp hq hs hn => ?_, fun hdue => ?_⟩
  · have hland := (State.landDue_eq (T := Eff.isOwn) hdue).trans (State.landAll_singleton (s := s.undue _) hflaw)
    refine ⟨_, resultLanding_eq hland, State.land_pend _ p.eff, ?_, ?_, ?_, ?_, ?_, ?_, fun hctl => (State.flightKept_land _ p.eff hctl).2⟩
    · rintro n v hp
      rw [hp]
      exact ⟨State.rs_ws_self _ n v, fun m hm => State.rs_ws_ne _ hm v⟩
    · rintro n v hp
      rw [hp]
      exact ⟨State.rp_wp_self _ n v, fun m hm => State.rp_wp_ne _ hm v⟩
    · rintro n m v hp
      rw [hp]
      exact ⟨State.rv_wv _ n m v, fun k hk => State.rv_wv_ne _ hk m v⟩
    · rintro f hp
      rw [hp]
      have hnone : flagBits (orF 0 0) = 0 := rfl
      exact (congrArg (s.ctl.vflags ||| f ||| ·) hnone).trans BitVec.or_zero
    · rintro r m v hp
      rw [hp]
      exact State.arow_wrow _ r m v
    · rintro r m v hp
      rw [hp]
      exact State.racc_wacc _ r m v
  · have hland := (State.landDue_eq (T := Eff.isOwn) rfl).trans (State.landAll_two_sreg (s := s.undue _) hp hq hs hdue)
    exact ⟨_, resultLanding_eq hland, State.rs_ws _ hn w⟩
  · have hland := State.landDue_eq (T := Eff.isMx) hdue
    refine ⟨_, matrixResultLanding_eq hland, State.landAll_singleton_pend _ p, fun n l a hp => ?_, fun n b hp hfit => ?_⟩
    · rw [State.landAll_singleton_plain (by rw [hp]; rfl) (by rw [hp]; rfl), hp]
      exact State.rm_wm (s.undue _) n fun r => { r with limit := l, ad := a }
    · rw [State.landAll_singleton_plain (by rw [hp]; rfl) (by rw [hp]; rfl), hp]
      exact State.landMreg_fits (s := s.undue _) hfit

end Sys2Proof.Machine
end

section
/-! Off-core accesses (R153 to R158, R250, R356): translation at the core, stores and loads that stay on their die, heads of queues, responses and fault reports. -/

namespace Sys2Proof.Machine

/-! Where a part of an access is served. -/

/-- A page that the core's own translation cache holds is judged there (R290). -/
theorem State.coreXlate_hit {s : State} {asid va : Nat} {x : Leaf} {k : Acc} {pa : Nat} (hx : leafHit s.core.tc s.die asid (va % 2 ^ 56) = some x)
    (hpa : s.leafPa x.entry.toNat x.level (va % 2 ^ 56) k = .ok pa) : s.coreXlate asid va k = (s, .done pa latTc (ptNC x.entry.toNat)) := by
  unfold State.coreXlate
  simp only [hx, State.judged, hpa]

theorem State.sourceOf_home {s : State} {e : QEnt} {k : Acc} {p : Part} {pa lat : Nat} {nc : Bool} (hx : s.coreXlate e.asid p.addr k = (s, .done pa lat nc))
    (hw : inWindow pa = false) : s.sourceOf e k p = (s, .home pa lat nc) := by
  unfold State.sourceOf
  simp only [hx, hw, Bool.not_false, if_true]

/-- A part that misses the L1 is served at its home, whether or not its line is on its way. -/
theorem State.loadSource_miss {s : State} {e : QEnt} {bypass : Bool} {p : Part} (h : lineHit s.core.l1d e.asid p.addr = none) :
    s.loadSource e bypass p = s.sourceOf e .read p := by
  unfold State.loadSource
  split
  · next l hl =>
    split at hl
    · cases hl
    · rw [h] at hl; cases hl
  · rfl

theorem mgroupWord_outside {pa : Nat} (h : inWindow pa = false) : mgroupWord pa = none := by
  have hlow : paOff pa < windowOff := Nat.not_le.1 (of_decide_eq_false h)
  unfold mgroupWord
  exact if_neg fun hc => by omega

theorem resolveParts_one {f : State → Part → State × Src} {p : Part} {s : State} {x : Src} (h : f s p = (s, x)) : resolveParts f [p] s = (s, [(p, x)]) := by
  simp only [resolveParts, h]

theorem State.remoteParts_here {s : State} {p : Part} {pa lat : Nat} {nc : Bool} (h : paDie pa = s.die) : s.remoteParts [(p, .home pa lat nc)] = [] := by
  simp [State.remoteParts, h]

/-! A store that its own die serves. -/

@[simp] theorem State.storeLine_mem (s : State) (asid : Nat) (w : Wr) : (s.storeLine asid w).mem = s.mem := by
  unfold State.storeLine
  extract_lets
  split <;> rfl
@[simp] theorem State.storeLine_cid (s : State) (asid : Nat) (w : Wr) : (s.storeLine asid w).cid = s.cid := by
  unfold State.storeLine
  extract_lets
  split <;> rfl
@[simp] theorem State.storeLine_loadQ (s : State) (asid : Nat) (w : Wr) : (s.storeLine asid w).core.loadQ = s.core.loadQ := by
  unfold State.storeLine
  extract_lets
  split <;> rfl
@[simp] theorem State.storeLine_storeQ (s : State) (asid : Nat) (w : Wr) : (s.storeLine asid w).core.storeQ = s.core.storeQ := by
  unfold State.storeLine
  extract_lets
  split <;> rfl
theorem State.storeLine_die (s : State) (asid : Nat) (w : Wr) : (s.storeLine asid w).die = s.die := by
  unfold State.die
  rw [State.storeLine_cid]

/-- A plain write at its home writes its bytes: it reads nothing, so no error holds it up. -/
theorem State.doWrite_here {s : State} {e : QEnt} {p : Part} {bytes : Nat → List (BitVec 8)} {pa : Nat} (next : Nat) (hw : inWindow pa = false) (hd : paDie pa = s.die) :
    s.doWrite e (wrAt p fun pa => .write pa (bytes pa)) pa next = (s.storeLine e.asid (wrAt p fun pa => .write pa (bytes pa))).wrBytes pa (bytes pa) := by
  have hd' := hd.trans (s.storeLine_die e.asid (wrAt p fun pa => .write pa (bytes pa))).symm
  unfold State.doWrite
  simp only [mgroupWord_outside hw]
  rw [if_pos hd']
  rfl

/-- A store of one part whose home is this die performs whole, and leaves its queue. -/
theorem State.performStore_here {s : State} {e : QEnt} {k : Acc} {p : Part} {bytes : Nat → List (BitVec 8)} {pa lat : Nat} {nc : Bool}
    (hsrc : s.sourceOf e k p = (s, .home pa lat nc)) (hw : inWindow pa = false) (hd : paDie pa = s.die) :
    s.performStore e k [wrAt p fun pa => .write pa (bytes pa)] = ((s.storeLine e.asid (wrAt p fun pa => .write pa (bytes pa))).wrBytes pa (bytes pa), true) := by
  have hparts : [wrAt p fun pa => ReqKind.write pa (bytes pa)].flatMap Wr.parts = [p] := rfl
  have hres : resolveParts (fun s p => s.sourceOf e k p) [p] s = (s, [(p, .home pa lat nc)]) := resolveParts_one hsrc
  unfold State.performStore
  simp only [hparts, hres, State.remoteParts_here hd]
  rw [← State.doWrite_here pa hw hd]
  rfl

/-! A load that misses the L1 and that its own die serves. -/

theorem State.fillLines_one (s : State) (asid : Nat) (p : Part) (x : Src) : ∃ l, s.fillLines asid [(p, x)] = s.onCore fun c => { c with l1d := l } := by
  unfold State.fillLines
  simp only [List.foldl_cons, List.foldl_nil]
  split
  · split
    · exact ⟨_, rfl⟩
    · exact ⟨s.core.l1d, rfl⟩
  · exact ⟨s.core.l1d, rfl⟩

/-- An access as it stands when it has just left its queue. -/
def State.newOutst (s : State) (e : QEnt) (d : Dest) (r : Resp) (due : Nat) (load acq : Bool) : Outst :=
  { id := s.clk.nextId, q := e, dest := d, resp := r, due := due, load := load, acq := acq, buf := [] }

theorem State.addOutst_outst (s : State) (e : QEnt) (d : Dest) (r : Resp) (due : Nat) (load acq : Bool) :
    (s.addOutst e d r due load acq).1.core.outst = s.core.outst ++ [s.newOutst e d r due load acq] := rfl

/-- A load of one part that fails nowhere is under way with the value that its home holds, its line allocated or not. -/
theorem State.performLoad_here {s : State} {e : QEnt} {d : Dest} {p : Part} {bypass load acq : Bool} {pa lat : Nat} {nc : Bool}
    (hsrc : s.loadSource e bypass p = (s, .home pa lat nc)) (hq : quietForm e.i = false) (hok : s.partFail e bypass (p, .home pa lat nc) = none) (hd : paDie pa = s.die) :
    ∃ l, s.performLoad e d [p] bypass load acq =
      ((((s.onCore fun c => { c with l1d := l }).addOutst e (e.destPart d (2 ^ 1024 - 1 - remoteBits [])) (.value (s.rd pa p.n * 2 ^ p.off)) (s.now + Nat.max latL1 lat - 2) load acq).1, true)) := by
  have hres : resolveParts (fun s p => s.loadSource e bypass p) [p] s = (s, [(p, .home pa lat nc)]) := resolveParts_one hsrc
  have hval : s.localValue [(p, .home pa lat nc)] = (s.rd pa p.n * 2 ^ p.off, Nat.max latL1 lat) := by
    simp [State.localValue, hd]
  obtain ⟨l, hl⟩ := s.fillLines_one e.asid p (.home pa lat nc)
  have hfill : ∃ l, (if bypass then s else s.fillLines e.asid [(p, .home pa lat nc)]) = s.onCore fun c => { c with l1d := l } := by
    cases bypass
    · exact ⟨l, hl⟩
    · exact ⟨s.core.l1d, rfl⟩
  obtain ⟨l, hl⟩ := hfill
  refine ⟨l, ?_⟩
  unfold State.performLoad
  simp only [hres, hq, Bool.false_eq_true, if_false, List.map_cons, List.map_nil, hok, State.remoteParts_here hd, hval, hl]
  rfl

/-! The head of a queue (R153). -/

/-- The head of one queue that no acquire holds performs, and leaves where it is done. -/
theorem queueEntryPerform_head {s t : State} {e : QEnt} {store : Bool} (hh : s.headOf store = some e) (ha : s.acqBlocked e = false) (hb : e.both = false)
    (hp : s.perform e = (t, true)) : exec (.queueEntryPerform store) s = .next (t.leaveQueue e store) := by
  rw [exec_queueEntryPerform, execQueueEntryPerform]
  simp only [hh, ha, hb, hp, Bool.false_and, Bool.or_self, Bool.false_eq_true, if_false, if_true]

theorem nextPiece_read {va n : Nat} : nextPiece [(va, n)] n = none := by
  simp [nextPiece]

/-- What an entry at the head has read whole is there to perform with. -/
theorem State.headBytes_read {s : State} {e : QEnt} {o : Outst} (ho : s.core.outst.find? (fun x => x.dest == .head && x.q.id == e.id) = some o)
    (hr : o.resp = .remote) (hn : nextPiece (o.q.reads o.buf) o.buf.length = none) : s.headBytes e = (s, some (.ok o.buf)) := by
  unfold State.headBytes
  simp only [ho, hr, hn, Option.isNone_some, Option.isNone_none, Bool.false_eq_true, if_false, if_true]

/-- R250: a `spawn` on its own die whose descriptor has been read creates its child where the die has room. -/
theorem State.performSpawn_here {s : State} {e : QEnt} {f : SpawnF} {b : List (BitVec 8)} (hb : s.headBytes e = (s, some (.ok b))) (hrem : f.remote = false)
    (hraise : f.raise = false) (hlen : e.args.length ≤ 5) (hdie : e.args.getD 0 0 = s.die) (hroom : s.dieLevelFree s.die = true) :
    s.performSpawn e f = ((s.create s.die (e.child f (parseKdesc b))).1, true) := by
  have hlen' : ¬e.args.length > 5 := Nat.not_lt.2 hlen
  unfold State.performSpawn
  simp only [hb, hrem, hraise, hdie, hroom, if_neg hlen', Bool.false_and, Bool.false_eq_true, if_false, ne_eq, not_true_eq_false, false_and, if_true, Bool.not_true]

theorem spawnEnqueue_head {s t : State} {e : QEnt} {f : SpawnF} (hh : s.headOf true = some e) (ha : s.acqBlocked e = false) (hi : e.i = .spawn f)
    (hp : s.performSpawn e f = (t, true)) : exec .spawnEnqueue s = .next (t.leaveQueue e true) := by
  rw [exec_spawnEnqueue, execSpawnEnqueue]
  simp only [hh, hi, ha, hp, Bool.false_eq_true, if_false, if_true]

theorem recordAdmission_head {s : State} {e : QEnt} {n : BitVec 3} {a : BitVec 5} {br : BitVec 6} {p : BitVec 4} {b : List (BitVec 8)} (hh : s.headOf true = some e)
    (ha : s.acqBlocked e = false) (hi : e.i = .tsub n a br p) (hb : s.headBytes e = (s, some (.ok b))) :
    exec (.recordAdmission e.id) s = .next ((s.admitRecord e n.toNat (.ok b)).leaveQueue e true) := by
  rw [exec_recordAdmission, execRecordAdmission]
  simp only [hh, hi, ha, hb, ne_eq, not_true_eq_false, Bool.false_eq_true, or_self, if_false]

/-- The record that a `tsub` leaves in its place. -/
def Place.inFlight (e : QEnt) (b : List (BitVec 8)) (now : Nat) (p : Place) : Place :=
  { p with log := bits (leNat b) 128 56, lcap := bits (leNat b) 192 16, sub := e.handle, pc := e.pc, admitted := true, since := now }

/-- R356: a sound header of a record whose place stands is admitted. -/
theorem State.admitRecord_sound {s : State} {e : QEnt} {set : Nat} {b : List (BitVec 8)} {x : Place} (hh : (s.tset s.die set).holder = some e.jcb)
    (hx : fget none (s.tset s.die set).places (e.args.getD 0 0) = some x) (hb : headerRefused b = false) :
    s.admitRecord e set (.ok b) = s.onPlace s.die set (e.args.getD 0 0) (Place.inFlight e b s.now) := by
  unfold State.admitRecord
  simp only [hh, hx, hb, ne_eq, not_true_eq_false, Option.isNone_some, Bool.false_eq_true, or_self, if_false]
  rfl

theorem State.place_onPlace (s : State) (die set idx : Nat) (f : Place → Place) :
    fget none ((s.onPlace die set idx f).tset die set).places idx = (fget none (s.tset die set).places idx).map f := by
  have hset : (s.onPlace die set idx f).tset die set = { s.tset die set with places := fmod none idx (fun p => p.map f) (s.tset die set).places } :=
    fget_fmod TSet.reset (die * 8 + set) (fun t => { t with places := fmod none idx (fun p => p.map f) t.places }) s.sets
  rw [hset]
  exact fget_fmod _ _ _ _

/-! Responses (R154). -/

/-- What is left of the accesses under way when one has had its response. -/
def State.restOf (s : State) (id : Nat) : List Outst := s.core.outst.filter fun x => x.id ≠ id

/-- A value for a register of the resident, which no fault before it discards, is among the results of the cycle. -/
theorem offCoreLoadResponse_lands {s : State} {o : Outst} {n : BitVec 5} {v : Nat} (ho : s.core.outst.find? (fun x => x.id == o.id) = some o)
    (hr : o.resp = .value v) (hd : o.dest = .sreg n) (ha : o.acq = false) (hh : o.q.handle = s.selfKey) (hdrop : ∀ k, s.core.dropFrom = some k → o.q.id ≤ k) :
    exec (.offCoreLoadResponse o.id) s = .next ((s.onCore fun c => { c with outst := s.restOf o.id }).loadEff o.id (.sreg n (BitVec.ofNat 64 v))) := by
  have hkeep : (match s.core.dropFrom with
      | some k => decide (k < o.q.id)
      | none => false) = false := by
    split
    · next k hk => exact decide_eq_false (Nat.not_lt.2 (hdrop k hk))
    · rfl
  have hkey : o.q.handle = (s.onCore fun c => { c with outst := s.restOf o.id }).selfKey := hh
  rw [exec_offCoreLoadResponse, execOffCoreLoadResponse]
  simp only [ho, ha, Bool.false_and, Bool.false_eq_true, if_false]
  refine congrArg Host.Outcome.next ((if_neg ?_).trans ?_)
  · rintro (hc | ⟨hc | hc, -⟩)
    · rw [hr] at hc; cases hc
    · exact hc hkey
    · exact absurd (hkeep.symm.trans hc) Bool.false_ne_true
  · unfold State.landLoad
    simp only [hr, hd]
    rfl

/-- A value behind a fault that ends the continuation writes nothing. -/
theorem offCoreLoadResponse_dropped {s : State} {o : Outst} {n : BitVec 5} {k : Nat} (ho : s.core.outst.find? (fun x => x.id == o.id) = some o)
    (hd : o.dest = .sreg n) (ha : o.acq = false) (hk : s.core.dropFrom = some k) (hlt : k < o.q.id) :
    exec (.offCoreLoadResponse o.id) s = .next (s.onCore fun c => { c with outst := s.restOf o.id }) := by
  rw [exec_offCoreLoadResponse, execOffCoreLoadResponse]
  simp only [ho, ha, hd, Bool.false_and, Bool.false_eq_true, if_false, State.onCore_core, hk, hlt, decide_true, or_true, Bool.not_false, and_self, if_true]
  rfl

/-- The core after a failed access: its own parts are set to drop, and where it ends the resident so are later loads. -/
def State.afterFault (s : State) (o : Outst) (t : Trap) : State :=
  let u := s.onCore fun c => { c with outst := (s.restOf o.id).map fun x => if x.q.id = o.q.id then { x with resp := .drop } else x }
  if t.resumable then u else u.onCore fun c => c.dropLater o.q.handle o.q.id

theorem offCoreFaultReport_plain {s : State} {o : Outst} {f : Trap} (ho : s.core.outst.find? (fun x => x.id == o.id) = some o) (hr : o.resp = .fault f)
    (hset : ∀ n, o.dest ≠ .set n) (hslot : ∀ n, o.dest ≠ .slot n) :
    exec (.offCoreFaultReport o.id) s = .next ((s.afterFault o f).report o.q.handle o.q.jcb f) := by
  rw [exec_offCoreFaultReport, execOffCoreFaultReport]
  cases hd : o.dest
  case set n => exact absurd hd (hset n)
  case slot n => exact absurd hd (hslot n)
  all_goals
    simp only [ho, hr, hd]
    rfl

theorem Core.dropLater_kept (c : Core) (h id : Nat) : (c.dropLater h id).outst = c.outst ∧ (c.dropLater h id).ctx = c.ctx ∧ (c.dropLater h id).pend = c.pend := by
  unfold Core.dropLater
  split <;> exact ⟨rfl, rfl, rfl⟩

theorem Core.dropLater_resident {c : Core} {h : Nat} (hres : c.res = some h) (id : Nat) : ∃ k, (c.dropLater h id).dropFrom = some k ∧ k ≤ id := by
  unfold Core.dropLater
  rw [if_pos hres]
  cases c.dropFrom with
  | none => exact ⟨id, rfl, Nat.le_refl id⟩
  | some n => exact ⟨Nat.min n id, rfl, Nat.min_le_right n id⟩

theorem State.afterFault_kept (s : State) (o : Outst) (t : Trap) :
    (s.afterFault o t).core.outst = ((s.restOf o.id).map fun x => if x.q.id = o.q.id then { x with resp := .drop } else x) ∧
    (s.afterFault o t).core.ctx = s.core.ctx ∧ (s.afterFault o t).core.pend = s.core.pend := by
  unfold State.afterFault
  extract_lets u
  split
  · exact ⟨rfl, rfl, rfl⟩
  · obtain ⟨houtst, hctx, hpend⟩ := u.core.dropLater_kept o.q.handle o.q.id
    exact ⟨houtst, hctx, hpend⟩

theorem State.afterFault_cont (s : State) (o : Outst) (t : Trap) (k : Nat) : (s.afterFault o t).cont k = s.cont k := by
  unfold State.afterFault
  extract_lets u
  split <;> rfl

theorem State.afterFault_dropFrom {s : State} {o : Outst} {t : Trap} :
    (t.resumable = true → (s.afterFault o t).core.dropFrom = s.core.dropFrom) ∧
    (t.resumable = false → s.core.res = some o.q.handle → ∃ k, (s.afterFault o t).core.dropFrom = some k ∧ k ≤ o.q.id) := by
  unfold State.afterFault
  extract_lets u
  refine ⟨fun h => ?_, fun h hres => ?_⟩
  · rw [if_pos h]
    rfl
  · rw [h, if_neg Bool.false_ne_true]
    exact Core.dropLater_resident (c := u.core) hres o.q.id

/-! The forms of the queues' heads. -/

theorem State.perform_st {s : State} {e : QEnt} {d a : BitVec 5} {o : BitVec 16} (h : e.i = .st d a o) :
    s.perform e = s.performStore e .write [wordWrite (e.args.getD 0 0) (e.args.getD 1 0)] := by
  unfold State.perform
  rw [h]

/-- The 8 bytes that a `ld` reads. -/
def wordPart (ea : Nat) : Part := { va := ea, addr := ea / 8 * 8, n := 8, off := 0 }

theorem State.perform_ld {s : State} {e : QEnt} {d a : BitVec 5} {o : BitVec 16} (h : e.i = .ld d a o) :
    s.perform e = s.performLoad e (destOf e.i 0) [wordPart (e.args.getD 0 0)] false true false := by
  unfold State.perform
  rw [h]
  rfl

theorem State.perform_l1inv {s : State} {e : QEnt} (h : e.i = .l1inv) : s.perform e = (s.dropL1, true) := by
  unfold State.perform
  rw [h]

/-- An entry that reads nothing at its head takes no access with it. -/
theorem Core.dropHeads_outst {c : Core} (gone : QEnt → Bool) (h : ∀ o ∈ c.outst, o.dest ≠ .head) : (c.dropHeads gone).outst = c.outst := by
  refine List.filter_eq_self.2 fun o ho => ?_
  rw [beq_eq_false_iff_ne.2 (h o ho)]
  rfl

/-- A page of the core's own cache that gives an address of this die, outside the fabric window. -/
def State.HomeHere (s : State) (asid va : Nat) (k : Acc) (pa : Nat) : Prop :=
  ∃ x, leafHit s.core.tc s.die asid (va % 2 ^ 56) = some x ∧ s.leafPa x.entry.toNat x.level (va % 2 ^ 56) k = .ok pa ∧ inWindow pa = false ∧ paDie pa = s.die

theorem State.HomeHere.source {s : State} {e : QEnt} {k : Acc} {p : Part} {pa : Nat} (h : s.HomeHere e.asid p.addr k pa) :
    ∃ nc, s.sourceOf e k p = (s, .home pa latTc nc) ∧ inWindow pa = false ∧ paDie pa = s.die := by
  obtain ⟨x, hx, hpa, hw, hd⟩ := h
  exact ⟨_, State.sourceOf_home (State.coreXlate_hit hx hpa) hw, hw, hd⟩

/-- R153: the 8-byte store at the head of its queue. -/
theorem st_performs {s : State} {e : QEnt} {d a : BitVec 5} {o : BitVec 16} {pa : Nat} (ha : s.acqBlocked e = false) (hh : s.headOf true = some e)
    (hb : e.both = false) (hi : e.i = .st d a o) (home : s.HomeHere e.asid (e.args.getD 0 0 / 8 * 8) .write pa) :
    ∃ t, exec (.queueEntryPerform true) s = .next t ∧ t.core.storeQ = s.core.storeQ.drop 1 ∧ t.core.loadQ = s.core.loadQ ∧
      t.rdBytes pa 8 = natLe 8 (e.args.getD 1 0) ∧ ∀ x, x < pa ∨ pa + 8 ≤ x → t.rdByte x = s.rdByte x := by
  let w := wordWrite (e.args.getD 0 0) (e.args.getD 1 0)
  obtain ⟨nc, hsrc, hw, hd⟩ := State.HomeHere.source (p := w.part) home
  have hperf : s.perform e = ((s.storeLine e.asid w).wrBytes pa (natLe 8 (e.args.getD 1 0)), true) :=
    (State.perform_st hi).trans (State.performStore_here (bytes := fun _ => natLe 8 (e.args.getD 1 0)) hsrc hw hd)
  have hlen : (natLe 8 (e.args.getD 1 0)).length = 8 := natLe_length _ _
  refine ⟨_, queueEntryPerform_head hh ha hb hperf, ?_, ?_, ?_, fun x hx => ?_⟩
  · exact congrArg (List.drop 1) (s.storeLine_storeQ e.asid w)
  · simp only [State.leaveQueue, hb]
    exact s.storeLine_loadQ e.asid w
  · have hread := rdBytes_wrBytes (s.storeLine e.asid w) pa (natLe 8 (e.args.getD 1 0))
    rwa [hlen] at hread
  · have hframe := rdByte_wrBytes (s.storeLine e.asid w) pa (natLe 8 (e.args.getD 1 0)) x (by rwa [hlen])
    exact hframe.trans (congrArg (fget 0 · x) (s.storeLine_mem e.asid w))

theorem ld_dest (e : QEnt) {d a : BitVec 5} {o : BitVec 16} (hi : e.i = .ld d a o) (m : Nat) :
    e.destPart (destOf e.i 0) m = if d = 0 then .none else .sreg d := by
  unfold QEnt.destPart
  rw [hi]
  by_cases hd : d = 0
  · subst hd; rfl
  · simp only [destOf, if_neg hd, Dest.narrow]

/-- R153, R281: the 8-byte load at the head of its queue that misses the L1. -/
theorem ld_performs {s : State} {e : QEnt} {d a : BitVec 5} {o : BitVec 16} {pa : Nat} (ha : s.acqBlocked e = false) (hh : s.headOf false = some e)
    (hb : e.both = false) (hi : e.i = .ld d a o) (hmiss : lineHit s.core.l1d e.asid (e.args.getD 0 0 / 8 * 8) = none)
    (home : s.HomeHere e.asid (e.args.getD 0 0 / 8 * 8) .read pa) (hline : s.flawed (pa / 64 * 64) 64 = false) (hword : s.flawed pa 8 = false)
    (hno : ∀ o ∈ s.core.outst, o.dest ≠ .head) :
    ∃ t x, exec (.queueEntryPerform false) s = .next t ∧ t.core.loadQ = s.core.loadQ.drop 1 ∧ t.core.outst = s.core.outst ++ [x] ∧
      x.dest = (if d = 0 then .none else .sreg d) ∧ x.resp = .value (s.rd pa 8) ∧ x.q = e ∧ t.mem = s.mem := by
  obtain ⟨nc, hsrc, hw, hd⟩ := State.HomeHere.source (p := wordPart (e.args.getD 0 0)) home
  have hq : quietForm e.i = false := by rw [hi]; rfl
  have hok : s.partFail e false (wordPart (e.args.getD 0 0), .home pa latTc nc) = none := by
    simp [State.partFail, hd, hline, hword, wordPart]
  obtain ⟨l, hload⟩ := State.performLoad_here (d := destOf e.i 0) (load := true) (acq := false) ((State.loadSource_miss hmiss).trans hsrc) hq hok hd
  have hdest := ld_dest e hi (2 ^ 1024 - 1 - remoteBits [])
  have hhead : (if d = 0 then Dest.none else .sreg d) ≠ .head := by split <;> exact Dest.noConfusion
  let val := Resp.value (s.rd pa 8 * 2 ^ 0)
  let u := ((s.onCore fun c => { c with l1d := l }).addOutst e (e.destPart (destOf e.i 0) (2 ^ 1024 - 1 - remoteBits [])) val (s.now + Nat.max latL1 latTc - 2) true false).1
  let x := s.newOutst e (e.destPart (destOf e.i 0) (2 ^ 1024 - 1 - remoteBits [])) val (s.now + Nat.max latL1 latTc - 2) true false
  have hout : u.core.outst = s.core.outst ++ [x] := State.addOutst_outst ..
  have hnew : ∀ y ∈ u.core.outst, y.dest ≠ .head := fun y hy => by
    rcases List.mem_append.1 (hout ▸ hy) with hy | hy
    · exact hno y hy
    · rw [List.mem_singleton.1 hy]
      exact ne_of_eq_of_ne hdest hhead
  have hkeep := (Core.dropHeads_outst (fun q => q.id == e.id) hnew).trans hout
  exact ⟨_, x, queueEntryPerform_head hh ha hb ((State.perform_ld hi).trans hload), rfl, hkeep, hdest, congrArg Resp.value (Nat.mul_one _), rfl, rfl⟩

theorem QEnt.reads_spawn {e : QEnt} {f : SpawnF} (h : e.i = .spawn f) (b : List (BitVec 8)) : e.reads b = [(e.args.getD 4 0, 64)] := by
  unfold QEnt.reads
  rw [h]

theorem QEnt.reads_tsub {e : QEnt} {n : BitVec 3} {a : BitVec 5} {br : BitVec 6} {p : BitVec 4} (h : e.i = .tsub n a br p) (b : List (BitVec 8)) :
    e.reads b = [(e.args.getD 1 0, 64)] := by
  unfold QEnt.reads
  rw [h]

/-- An entry that reads 64 bytes and has them performs with them. -/
theorem State.headBytes_of_64 {s : State} {e : QEnt} {o : Outst} {va : Nat} (ho : s.core.outst.find? (fun x => x.dest == .head && x.q.id == e.id) = some o)
    (hq : o.q = e) (hr : o.resp = .remote) (hlen : o.buf.length = 64) (hreads : e.reads o.buf = [(va, 64)]) : s.headBytes e = (s, some (.ok o.buf)) := by
  refine State.headBytes_read ho hr ?_
  rw [hq, hreads, hlen]
  exact nextPiece_read

/-- R356: the `tsub` at the head of the store queue whose header is sound. -/
theorem tsub_admits {s : State} {e : QEnt} {n : BitVec 3} {a : BitVec 5} {br : BitVec 6} {p : BitVec 4} {b : List (BitVec 8)} {x : Place} (ha : s.acqBlocked e = false)
    (hh : s.headOf true = some e) (hi : e.i = .tsub n a br p) (hread : s.headBytes e = (s, some (.ok b))) (hb : headerRefused b = false)
    (hhold : (s.tset s.die n.toNat).holder = some e.jcb) (hx : fget none (s.tset s.die n.toNat).places (e.args.getD 0 0) = some x) :
    ∃ t y, exec (.recordAdmission e.id) s = .next t ∧ t.core.storeQ = s.core.storeQ.drop 1 ∧ fget none (t.tset s.die n.toNat).places (e.args.getD 0 0) = some y ∧
      y.admitted = true ∧ y.sub = e.handle ∧ y.log = bits (leNat b) 128 56 ∧ y.lcap = bits (leNat b) 192 16 ∧ t.mem = s.mem := by
  have hexec := recordAdmission_head hh ha hi hread
  rw [State.admitRecord_sound hhold hx hb] at hexec
  have hplace := s.place_onPlace s.die n.toNat (e.args.getD 0 0) (Place.inFlight e b s.now)
  rw [hx] at hplace
  exact ⟨_, Place.inFlight e b s.now x, hexec, rfl, hplace, rfl, rfl, rfl, rfl, rfl⟩

/-- R154: the report of a failed access whose continuation lives. -/
theorem offCoreFaultReport_reports {s : State} {o : Outst} {f : Trap} {c : Cont} (ho : s.core.outst.find? (fun x => x.id == o.id) = some o) (hr : o.resp = .fault f)
    (hset : ∀ n, o.dest ≠ .set n) (hslot : ∀ n, o.dest ≠ .slot n) (hc : s.cont o.q.handle = some c) :
    ∃ t d, exec (.offCoreFaultReport o.id) s = .next t ∧
      t.core.outst = ((s.restOf o.id).map fun x => if x.q.id = o.q.id then { x with resp := .drop } else x) ∧ t.core.ctx = s.core.ctx ∧ t.core.pend = s.core.pend ∧
      t.cont o.q.handle = some d ∧ d.reports = c.reports ++ [{ f with report := true }] ∧ (f.resumable = true → t.core.dropFrom = s.core.dropFrom) ∧
      (f.resumable = false → s.core.res = some o.q.handle → ∃ k, t.core.dropFrom = some k ∧ k ≤ o.q.id) := by
  have hc' : (s.afterFault o f).cont o.q.handle = some c := (s.afterFault_cont o f _).trans hc
  obtain ⟨houtst, hctx, hpend⟩ := s.afterFault_kept o f
  obtain ⟨hres, hterm⟩ := State.afterFault_dropFrom (s := s) (o := o) (t := f)
  refine ⟨_, _, offCoreFaultReport_plain ho hr hset hslot, ?_, ?_, ?_, State.cont_report hc' _ _, rfl, ?_, ?_⟩
  all_goals rw [State.report_core]
  exacts [houtst, hctx, hpend, hres, hterm]

/-- Settles O30: each clause is one form at the head of its queue, or one response. -/
theorem offCoreAccesses : Obligations.OffCoreAccesses := by
  unfold Obligations.OffCoreAccesses
  refine ⟨fun s e ha => ⟨fun _ _ _ _ hh hb hi home => st_performs ha hh hb hi home,
      fun _ _ _ _ hh hb hi hmiss home hline hword hno => ld_performs ha hh hb hi hmiss home hline hword hno,
      fun hh hb hi => ⟨_, queueEntryPerform_head hh ha hb (State.perform_l1inv hi), rfl, rfl, rfl⟩, fun f o hh ho hq hr hlen => ⟨?_, ?_⟩⟩,
    fun s o ho => ⟨fun n v hr hd hacq hh hdrop => ?_, fun _ _ _ _ hd hacq hk hlt => offCoreLoadResponse_dropped ho hd hacq hk hlt,
      fun _ _ hr hset hslot hc => offCoreFaultReport_reports ho hr hset hslot hc⟩⟩
  · intro hi hrem hraise hargs hdie hroom
    have hread := State.headBytes_of_64 ho hq hr hlen (QEnt.reads_spawn hi _)
    exact spawnEnqueue_head hh ha hi (State.performSpawn_here hread hrem hraise hargs hdie hroom)
  · intro n a br p x hi hb hhold hx
    exact tsub_admits ha hh hi (State.headBytes_of_64 ho hq hr hlen (QEnt.reads_tsub hi _)) hb hhold hx
  · exact ⟨_, _, offCoreLoadResponse_lands ho hr hd hacq hh hdrop, rfl, rfl, rfl, rfl, rfl, rfl⟩

end Sys2Proof.Machine
end

section
/-! Vector arithmetic, logic and shift forms (R54, R167, R169, R170). -/

namespace Sys2Proof.Machine

/-- A form that runs through `vrun` is a vector form of that latency: one clause to each branch of the run. -/
theorem vectorForm_of_vrun {f : VF} {i : Instr} {L : Nat} {go : Cap → List Eff} (h : ∀ s, exec i s = s.vrun f i L go) : VectorForm f i L go := by
  refine fun s => ⟨fun hp hb => ?_, fun hp hb ht => ?_, fun t hp hb ht => ?_, fun c hp => ?_⟩
  · simp [h, State.vrun, hp, hb]
  · simp [h, State.vrun, hp, hb, ht]
  · simp [Raises, h, State.vrun, hp, hb, ht]
  · simp [h, State.vrun, hp]

/-- Settles O12: each of these forms is its element operation run lane by lane. -/
theorem vectorArithmeticForms : Obligations.VectorArithmeticForms := by
  unfold Obligations.VectorArithmeticForms
  exact fun f => ⟨vectorForm_of_vrun (exec_vadd f), vectorForm_of_vrun (exec_vsub f), vectorForm_of_vrun (exec_vmul f), vectorForm_of_vrun (exec_vfma f),
    vectorForm_of_vrun (exec_vfms f), vectorForm_of_vrun (exec_vfnma f), vectorForm_of_vrun (exec_vmulh f), vectorForm_of_vrun (exec_vmin f),
    vectorForm_of_vrun (exec_vmax f), vectorForm_of_vrun (exec_vabs f), vectorForm_of_vrun (exec_vneg f), vectorForm_of_vrun (exec_vclamp f),
    vectorForm_of_vrun (exec_vrnd f), vectorForm_of_vrun (exec_vand f), vectorForm_of_vrun (exec_vor f), vectorForm_of_vrun (exec_vxor f),
    vectorForm_of_vrun (exec_vnot f), vectorForm_of_vrun (exec_vsll f), vectorForm_of_vrun (exec_vsrl f), vectorForm_of_vrun (exec_vsra f)⟩

end Sys2Proof.Machine
end

section
/-! Reductions and the accumulator port (R182, R183, R217 to R219). -/

namespace Sys2Proof.Machine

/-- R182: a reduction of a register adds its group values 10 cycles after issue. -/
theorem State.reduce_register {s : State} {f : RF} (hp : s.core.iss.phase = .issue) (ha : f.sa = false) (i : Instr) (kind : Nat) (square : Bool) :
    s.reduce f i kind square = .next (s.emitAll (s.now + 9) (redGo f kind square .f32 (s.rk f.k) (s.rv f.va).toNat)) := by
  simp [State.reduce, hp, ha]

/-- R182: a reduction of a stream whose checks pass notes its section and steps the stream. -/
theorem State.reduce_stream {s : State} {f : RF} (hp : s.core.iss.phase = .issue) (ha : f.sa = true) (ht : s.sectTrap f.va .vec (f.w.bits / 8) = none)
    (hty : (redTy (s.rst f.va).fmt).isSome = true) (i : Instr) (kind : Nat) (square : Bool) :
    s.reduce f i kind square = .next ((s.emit 2 (.calc i { s.cap0 with k := s.rk f.k, reads := [s.sectRead f.va (f.w.bits / 8)], diag := (s.rst f.va).diag, aux := [(s.rst f.va).fmt] })).touch
      f.va (f.w.bits / 8)) := by
  simp [State.reduce, hp, ha, ht, hty, orTrap]

/-- R182: each reduction form as its group operation, and whether it squares first. -/
theorem exec_reductions (s : State) (f : RF) :
    ∀ p ∈ [(Instr.rsum f, 0, false), (.rmax f, 1, false), (.rmin f, 2, false), (.rsumsq f, 0, true)], exec p.1 s = s.reduce f p.1 p.2.1 p.2.2 := by
  intro p hp
  fin_cases hp <;> rfl

theorem rmov_emits {s : State} {f : RF} (h : f.mode ≠ 1) :
    Emits (.rmov f) s [(2, .vreg f.va (BitVec.ofNat 1024 (laneMask 32 8 (s.rk f.k).toNat)) ((s.rq f.latch).setWidth 1024))] := by
  rw [Emits, exec_rmov, execRmov, if_neg h]; rfl

theorem rmov_clr_emits {s : State} {f : RF} (h : f.mode = 1) :
    Emits (.rmov f) s [(2, .vreg f.va (BitVec.ofNat 1024 (laneMask 32 8 (s.rk f.k).toNat)) ((s.rq f.latch).setWidth 1024)), (1, .latchClear f.latch)] := by
  rw [Emits, exec_rmov, execRmov, if_pos h]; rfl

/-- R219: a port store whose checks pass writes what its encoder gives, steps its stream and leaves the next row. -/
theorem State.portStore_stores {s : State} {f : AF} {ok : Nat → Bool} (ht : s.portTrap f ok = none) (enc : Stream → List Nat → List Eff × Nat × Nat) (mk : AF → Instr) :
    let st := s.rst f.stream
    let o := s.portRow f
    let n := 8 * fmtBits st.fmt
    let r := enc st o
    let es := if st.zeroed then [] else elemEffs st.diag (st.addrOf 0 / 16 * 16) n r.2.1 ++ r.1 ++ (if f.hist then [.hist st.hrow (histCounts st.hbase o)] else [])
    s.portStore f ok enc mk = .next (((s.emitAll (s.now + 3) (es ++ [.flags (flagBits r.2.2)])).touch f.stream n).nextRow f mk) := by
  unfold State.portStore
  rw [ht]

theorem State.portStore_raises {s : State} {f : AF} {ok : Nat → Bool} {t : Trap} (ht : s.portTrap f ok = some t) (enc : Stream → List Nat → List Eff × Nat × Nat) (mk : AF → Instr) :
    s.portStore f ok enc mk = .next (s.raise t) := by
  simp only [State.portStore, ht]

/-- Settles O17: the reductions by where their operand stands, the port forms as they land, the port stores by their checks. -/
theorem reductionAndPortForms : Obligations.ReductionAndPortForms := by
  unfold Obligations.ReductionAndPortForms
  refine ⟨fun s f => ⟨fun p hp => ?_, ⟨rmov_emits, rmov_clr_emits⟩, rfl⟩, fun s f => ⟨rfl, rfl, rfl, rfl, rfl, rfl⟩, fun s f => ⟨fun ht => ?_, fun ht => ?_, fun t ht => ?_, fun t ht => ?_⟩⟩
  · rw [exec_reductions s f p hp]
    exact ⟨fun hp ha => State.reduce_register hp ha .., fun hp ha ht hty => State.reduce_stream hp ha ht hty ..⟩
  · rw [exec_accst, execAccst, State.portStore_stores ht]
    simp only [List.append_nil]
  · rw [exec_accqst, execAccqst, State.portStore_stores ht]
  · rw [Raises, exec_accst, execAccst, State.portStore_raises ht]
  · rw [Raises, exec_accqst, execAccqst, State.portStore_raises ht]

end Sys2Proof.Machine
end

section
/-! The element operations of the lane forms (R53 to R55, R169 to R171): integer narrowing, the sign of a pattern, selection and compares by the order of numbers. -/

namespace Sys2Proof.Machine

/-! Integer elements. -/

theorem wrapN_lt (n : Nat) (v : Int) : wrapN n v < 2 ^ n := by
  have hp := int_pow_pos n
  have := Int.emod_lt_of_pos v hp
  have := Int.emod_nonneg v hp.ne'
  unfold wrapN; omega

theorem wrapN_cast (n : Nat) (v : Int) : (wrapN n v : Int) = v % (2 ^ n : Nat) := Int.toNat_of_nonneg (Int.emod_nonneg v (int_pow_pos n).ne')

theorem two_pow_half {n : Nat} (hn : 0 < n) : 2 ^ n = 2 * 2 ^ (n - 1) := by rw [← pow_succ']; congr 1; omega

theorem sval_bounds {n : Nat} (hn : 0 < n) (x : Nat) : -((2 ^ (n - 1) : Nat) : Int) ≤ sval n x ∧ sval n x < (2 ^ (n - 1) : Nat) := by
  have h2 := two_pow_half hn
  have hx := Nat.mod_lt x (Nat.two_pow_pos n)
  unfold sval
  dsimp only
  split <;> omega

theorem sval_wrapN {n : Nat} (hn : 0 < n) {v : Int} (hlo : -((2 ^ (n - 1) : Nat) : Int) ≤ v) (hhi : v < (2 ^ (n - 1) : Nat)) : sval n (wrapN n v) = v := by
  have h2 := two_pow_half hn
  have hc := wrapN_cast n v
  unfold sval
  dsimp only
  rw [Nat.mod_eq_of_lt (wrapN_lt n v)]
  rcases lt_or_ge v 0 with h | h
  · rw [Int.emod_eq_add_self_emod, Int.emod_eq_of_lt (by omega) (by omega)] at hc
    rw [if_neg (by omega)]; omega
  · rw [Int.emod_eq_of_lt h (by omega)] at hc
    rw [if_pos (by omega)]; omega

theorem etyBits_pos (t : ETy) : 0 < t.bits := by cases t <;> decide

theorem etIval_bounds (t : ETy) (a : Nat) : etLo t ≤ etIval t a ∧ etIval t a ≤ etHi t := by
  have hs := sval_bounds (etyBits_pos t) a
  have hu := Nat.mod_lt a (Nat.two_pow_pos t.bits)
  unfold etLo etIval etHi
  cases t.isSigned
  · simp only [Bool.false_eq_true, if_false]; omega
  · simp only [if_true]; omega

/-- An integer within the range of its type survives its pattern. -/
theorem etIval_wrapN {t : ETy} {v : Int} (hlo : etLo t ≤ v) (hhi : v ≤ etHi t) : etIval t (wrapN t.bits v) = v := by
  unfold etLo at hlo
  unfold etHi at hhi
  unfold etIval
  cases hs : t.isSigned <;> simp only [hs, Bool.false_eq_true, if_false, if_true] at hlo hhi ⊢
  · rw [Nat.mod_eq_of_lt (wrapN_lt _ v), wrapN_cast, Int.emod_eq_of_lt hlo (by omega)]
  · exact sval_wrapN (etyBits_pos t) hlo (by omega)

/-- R54: under MOD 0b01 a result is clamped to the range of its type, with SAT exactly where it was outside. -/
theorem etNarrow_saturate (t : ETy) (v : Int) :
    etIval t (etNarrow t 1 v).1 = max (etLo t) (min (etHi t) v) ∧ (etNarrow t 1 v).2 = if v < etLo t ∨ etHi t < v then flSAT else 0 := by
  have hr : etLo t ≤ etHi t := (etIval_bounds t 0).1.trans (etIval_bounds t 0).2
  unfold etNarrow
  rw [if_neg one_ne_zero]
  by_cases hl : v < etLo t
  · rw [if_pos hl, if_pos (.inl hl), etIval_wrapN le_rfl hr]; exact ⟨by omega, rfl⟩
  · by_cases hh : etHi t < v
    · rw [if_neg hl, if_pos hh, if_pos (.inr hh), etIval_wrapN hr le_rfl]; exact ⟨by omega, rfl⟩
    · rw [if_neg hl, if_neg hh, if_neg (by omega), etIval_wrapN (by omega) (by omega)]; exact ⟨by omega, rfl⟩

/-- R54: narrowing in both directions of MOD. -/
theorem etNarrow_spec (t : ETy) (v : Int) : (etNarrow t 0 v).2 = 0 ∧ (etNarrow t 0 v).1 < 2 ^ t.bits ∧ ((etNarrow t 0 v).1 : Int) % (2 ^ t.bits : Nat) = v % (2 ^ t.bits : Nat) ∧
    etIval t (etNarrow t 1 v).1 = max (etLo t) (min (etHi t) v) ∧ ((etNarrow t 1 v).2 = flSAT ↔ (v < etLo t ∨ etHi t < v)) ∧ ((etNarrow t 1 v).2 = 0 ↔ ¬(v < etLo t ∨ etHi t < v)) := by
  obtain ⟨hv, hf⟩ := etNarrow_saturate t v
  have h0 : etNarrow t 0 v = (wrapN t.bits v, 0) := if_pos rfl
  refine ⟨by rw [h0], by rw [h0]; exact wrapN_lt _ v, by rw [h0, wrapN_cast, Int.emod_emod], hv, ?_, ?_⟩
  all_goals rw [hf]; split <;> simp [*, flSAT]

section IntegerElements
variable {t : ETy} (h : t.isF = false)
include h

/-- R169, R170: on integer types the arithmetic forms narrow an exact result. -/
theorem eltArith_int (md a b d : Nat) :
    eltAdd t md a b = etNarrow t md (etIval t a + etIval t b) ∧ eltSub t md a b = etNarrow t md (etIval t a - etIval t b) ∧
    eltMul t md a b = etNarrow t md (etIval t a * etIval t b) ∧ eltFma t md a b d = etNarrow t md (etIval t a * etIval t b + etIval t d) ∧
    eltFms t md a b d = etNarrow t md (etIval t a * etIval t b - etIval t d) ∧ eltFnma t md a b d = etNarrow t md (etIval t d - etIval t a * etIval t b) ∧
    eltAbs t md a = etNarrow t md |etIval t a| ∧ eltNeg t md a = etNarrow t md (-(etIval t a)) := by
  simp [eltAdd, eltSub, eltMul, eltFma, eltFms, eltFnma, eltAbs, eltNeg, h]

theorem eltMin_int (a b : Nat) : ∃ m, eltMin t a b = (m, 0) ∧ etIval t m = min (etIval t a) (etIval t b) := by
  unfold eltMin
  simp only [h, Bool.false_eq_true, if_false]
  exact ⟨_, rfl, by split <;> omega⟩

theorem eltMax_int (a b : Nat) : ∃ m, eltMax t a b = (m, 0) ∧ etIval t m = max (etIval t a) (etIval t b) := by
  unfold eltMax
  simp only [h, Bool.false_eq_true, if_false]
  exact ⟨_, rfl, by split <;> omega⟩

theorem eltClamp_int (a b d : Nat) : ∃ r, eltClamp t a b d = (r, 0) ∧ etIval t r = min (max (etIval t a) (etIval t d)) (etIval t b) := by
  obtain ⟨m, hm, vm⟩ := eltMax_int h d a
  obtain ⟨r, hr, vr⟩ := eltMin_int h m b
  refine ⟨r, ?_, by rw [vr, vm, max_comm]⟩
  unfold eltClamp
  dsimp only
  rw [hm, hr, orF, Nat.or_self]

theorem eltRel_int (a b : Nat) :
    eltRel 0 t a b = (decide (etIval t a = etIval t b), 0) ∧ eltRel 1 t a b = (decide (etIval t a ≠ etIval t b), 0) ∧
    eltRel 2 t a b = (decide (etIval t a < etIval t b), 0) ∧ eltRel 3 t a b = (decide (etIval t a ≤ etIval t b), 0) := by
  simp [eltRel, h]

end IntegerElements

/-! Floating elements. -/

/-- Inverting the sign bit of a pattern negates its value and changes no field. -/
theorem unpack_negBits (f : Fmt) (x : Nat) : unpack f (negBits f x) = (unpack f x).neg := by
  have hs : (negBits f x).testBit (f.p - 1 + f.ew) = !x.testBit (f.p - 1 + f.ew) := by simp [negBits, Nat.testBit_xor, Nat.testBit_two_pow_self]
  have hm : negBits f x % 2 ^ (f.p - 1 + f.ew) = x % 2 ^ (f.p - 1 + f.ew) := by
    rw [negBits, Nat.xor_mod_two_pow, Nat.mod_self, Nat.xor_zero]
  obtain ⟨he, hf⟩ := mag_fields (f.p - 1) f.ew x
  obtain ⟨he', hf'⟩ := mag_fields (f.p - 1) f.ew (negBits f x)
  rw [hm, he] at he'
  rw [hm, hf] at hf'
  unfold unpack
  rw [hs, ← he', ← hf']
  dsimp only
  split_ifs <;> rfl

/-- The value 1 lies among the exponents of a lane format, as rounding to an integral value asks. -/
theorem etFmt_unitExp_le (t : ETy) : (etFmt t).unitExp ≤ 2 ^ (etFmt t).ew - 3 := by cases t <;> decide

section FloatingElements
variable {t : ETy} (h : t.isF = true)
include h

/-- R53 to R55: on floating types the arithmetic forms have one rounding. -/
theorem eltArith_float {md : Nat} (hm : md < 4) (a b d : Nat) :
    let F := etFmt t
    let x := unpack F a
    let y := unpack F b
    let z := unpack F d
    SumIs F md x y (eltAdd t md a b) ∧ SumIs F md x y.neg (eltSub t md a b) ∧ ProdIs F md F x y (eltMul t md a b) ∧
    FmaIs F md x y z (eltFma t md a b d) ∧ FmaIs F md x y z.neg (eltFms t md a b d) ∧ FmaIs F md x.neg y z (eltFnma t md a b d) := by
  have ok := etFmt_ieee t
  have hx := ok.holds a
  have hy := ok.holds b
  have hz := ok.holds d
  dsimp only
  simp only [eltAdd, eltSub, eltMul, eltFma, eltFms, eltFnma, h, if_true, addF, subF, mulF, fmaF, unpack_negBits]
  exact ⟨addV_sumIs ok hm hx hy, addV_sumIs ok hm hx hy.neg, mulV_prodIs ok hm hx hy, fmaV_fmaIs ok hm hx hy hz, fmaV_fmaIs ok hm hx hy hz.neg,
    fmaV_fmaIs ok hm hx.neg hy hz⟩

theorem eltMin_pickIs (a b : Nat) : PickIs (etFmt t) min a b (eltMin t a b) := by
  rw [eltMin, if_pos h]; exact minF_pickIs (etFmt_ieee t) a b

theorem eltMax_pickIs (a b : Nat) : PickIs (etFmt t) max a b (eltMax t a b) := by
  rw [eltMax, if_pos h]; exact maxF_pickIs (etFmt_ieee t) a b

/-- R170: on floating types the magnitude and the negation change the sign bit alone. -/
theorem eltSign_float (md a : Nat) :
    eltAbs t md a = (a % 2 ^ ((etFmt t).p - 1 + (etFmt t).ew), 0) ∧ eltNeg t md a = (a ^^^ 2 ^ ((etFmt t).p - 1 + (etFmt t).ew), 0) :=
  ⟨if_pos h, if_pos h⟩

/-- R171: NV of a compare is for a signalling NaN and, of `lt` and `le`, for every NaN. -/
theorem eltRel_flags {r : Nat} (hr : r < 4) (a b : Nat) :
    let x := unpack (etFmt t) a
    let y := unpack (etFmt t) b
    (eltRel r t a b).2 = if (if r ≤ 1 then x.isSig || y.isSig else x.isNan || y.isNan) = true then flNV else 0 := by
  unfold eltRel
  simp only [h, if_true]
  interval_cases r <;> rfl

/-- R171: a NaN is unequal to all, and neither below nor above. -/
theorem eltRel_nan {a b : Nat} (hn : ((unpack (etFmt t) a).isNan || (unpack (etFmt t) b).isNan) = true) {r : Nat} (hr : r < 4) : (eltRel r t a b).1 = decide (r = 1) := by
  unfold eltRel
  simp only [h, if_true, cmpV_orderKey (etFmt_ieee t), hn]
  interval_cases r <;> rfl

/-- R171: numbers compare by their order. -/
theorem eltRel_number {a b : Nat} (hn : ((unpack (etFmt t) a).isNan || (unpack (etFmt t) b).isNan) = false) :
    let F := etFmt t
    (eltRel 0 t a b).1 = decide (F.orderKey a = F.orderKey b) ∧ (eltRel 1 t a b).1 = decide (F.orderKey a ≠ F.orderKey b) ∧
      (eltRel 2 t a b).1 = decide (F.orderKey a < F.orderKey b) ∧ (eltRel 3 t a b).1 = decide (F.orderKey a ≤ F.orderKey b) := by
  unfold eltRel
  simp only [h, if_true, cmpV_orderKey (etFmt_ieee t), hn, Bool.false_eq_true, if_false]
  rcases lt_trichotomy ((etFmt t).orderKey a) ((etFmt t).orderKey b) with c | c | c
  · simp [c, c.ne, c.le]
  · simp [c]
  · simp [c.ne', c.not_gt, c.not_ge]

end FloatingElements

/-- Settles O48: the integer element operations narrow exact results, the floating ones are the roundings and orders of their format. -/
theorem laneArithmetic : Obligations.LaneArithmetic := by
  unfold Obligations.LaneArithmetic
  refine ⟨fun t a b d h => ?_, fun t md a b d h hm => ?_, rfl, rfl, rfl⟩
  · obtain ⟨m, hm, vm⟩ := eltMin_int h a b
    obtain ⟨n, hn, vn⟩ := eltMax_int h a b
    obtain ⟨r, hr, vr⟩ := eltClamp_int h a b d
    obtain ⟨heq, hne, hlt, hle⟩ := eltRel_int h a b
    exact ⟨etNarrow_spec t, fun md => eltArith_int h md a b d, ⟨m, n, r, hm, hn, hr, vm, vn, vr⟩, heq, hne, hlt, hle, etIval_bounds t a⟩
  · obtain ⟨hadd, hsub, hmul, hfma, hfms, hfnma⟩ := eltArith_float h hm a b d
    obtain ⟨habs, hneg⟩ := eltSign_float h md a
    exact ⟨hadd, hsub, hmul, hfma, hfms, hfnma, eltMin_pickIs h a b, eltMax_pickIs h a b, rndF_integralIs (etFmt_ieee t) (etFmt_unitExp_le t) hm a,
      ⟨_, _, eltMax_pickIs h d a, eltMin_pickIs h _ b, rfl⟩, habs, hneg, fun hn r hr => eltRel_nan h hn hr, eltRel_number h, fun r hr => eltRel_flags h hr a b⟩

end Sys2Proof.Machine
end

section
/-! The conversion forms (R56, R57, R172 to R175, R190, R191): what each converts an element to, and where its results stand. -/

namespace Sys2Proof.Machine

/-! One element. -/

theorem unpackE4M3_holds (x : Nat) : e4m3.Holds (unpackE4M3 x) := by
  rcases unpackE4M3_cases x with h | h <;> rw [h]
  · intro n m e h; cases h
  · exact e4m3_ok.small x

/-- A conversion to E5M2 is a conversion to a format with infinities (R56). -/
theorem toE5M2_eq_cvtV (mode : Nat) (a : FV) : toE5M2 mode a = cvtV e5m2 mode a := by cases a <;> rfl

theorem eltCvt_converted (ts td : ETy) {md : Nat} (hm : md < 4) (x : Nat) : Converted ts td md x (eltCvt ts td md x) := by
  have hx := (etFmt_ieee ts).holds x
  refine ⟨fun hs hd => ?_, fun hs hd => ?_, fun hs hd => ?_, fun hs hd => ?_⟩ <;> simp only [eltCvt, hs, hd, if_true, Bool.false_eq_true, if_false]
  · exact cvtV_cvtIs (etFmt_ieee td) hm hx
  · exact ⟨_, toIntSat_cvtIntIs hm hx, rfl⟩
  · exact ofInt_fromIntIs (etFmt_ieee td) hm _

/-- A product by zero does not ask at which quantum the zero stands. -/
theorem mulV_zero_expo (f : Fmt) (mode : Nat) (a : FV) (n : Bool) (e e' : Int) : mulV f mode a (.fin n 0 e) = mulV f mode a (.fin n 0 e') := by
  cases a <;> simp [mulV, roundF, FV.isSig]

/-- A number is not positive exactly where its sign is set or its significand is zero. -/
theorem units_nonpos_iff (f : Fmt) (n : Bool) (m : Nat) (e : Int) : f.units (.fin n m e) ≤ 0 ↔ (n || decide (m = 0)) = true := by
  rw [units_fin]
  rcases Nat.eq_zero_or_pos m with h | h
  · simp [h]
  · have hpos : 0 < m * 2 ^ (e + f.unitExp).toNat := by positivity
    obtain ⟨-, hs⟩ := @sgn_neg_iff n _ hpos
    rw [← not_lt, hs]
    simp [h.ne']

/-- R191: a temperature that is no positive number gives the canonical NaN with NV. -/
theorem vtempLane_refused {t : ETy} {md temp x : Nat} (h : (unpack f32 temp).isNan = true ∨ unpack f32 temp = .inf true ∨ (unpack f32 temp).isFin = true ∧ f32.units (unpack f32 temp) ≤ 0) :
    vtempLane t md temp x = (nanOf (etFmt t), flNV) := by
  unfold vtempLane
  cases hT : unpack f32 temp with
  | nan s => rfl
  | inf n =>
    rw [hT] at h
    cases n
    · simp [FV.isNan, FV.isFin] at h
    · rfl
  | fin n m e =>
    rw [hT, units_nonpos_iff] at h
    simp only [FV.isNan, Bool.false_eq_true, reduceCtorEq, false_or] at h
    exact if_pos h.2

/-- R191: by an infinite temperature a lane is multiplied by zero. -/
theorem vtempLane_infinite {t : ETy} {md temp : Nat} (hm : md < 4) (h : unpack f32 temp = .inf false) (x : Nat) :
    ProdIs (etFmt t) md f32 (unpack (etFmt t) x) (.fin false 0 0) (vtempLane t md temp x) := by
  have hv : vtempLane t md temp x = mulV (etFmt t) md (unpack (etFmt t) x) (.fin false 0 0) := by
    unfold vtempLane
    rw [h]
    exact mulV_zero_expo ..
  rw [hv]
  exact mulV_prodIs (etFmt_ieee t) hm ((etFmt_ieee t).holds x) fun _ _ _ h => by injection h with _ _ he; subst he; decide

/-- R191: by a positive temperature a lane is multiplied by its reciprocal. -/
theorem vtempLane_positive {t : ETy} {md temp : Nat} (hm : md < 4) (hfin : (unpack f32 temp).isFin = true) (hpos : 0 < f32.units (unpack f32 temp)) (x : Nat) :
    ProdIs (etFmt t) md f32 (unpack (etFmt t) x) (unpack f32 (recip temp).1) (vtempLane t md temp x) := by
  have hv : vtempLane t md temp x = mulV (etFmt t) md (unpack (etFmt t) x) (unpack f32 (recip temp).1) := by
    unfold vtempLane
    cases hT : unpack f32 temp with
    | nan s => rw [hT] at hfin; cases hfin
    | inf n => rw [hT] at hfin; cases hfin
    | fin n m e => rw [hT, ← not_le, units_nonpos_iff] at hpos; exact if_neg hpos
  rw [hv]
  exact mulV_prodIs (etFmt_ieee t) hm ((etFmt_ieee t).holds x) (f32_ieee.holds _)

/-! Lanes in and out of a register. -/

/-- The lanes of a number, by their places. -/
theorem toLanes_eq_range (e n x : Nat) : toLanes e n x = (List.range n).map fun i => laneAt e i x := by
  refine List.ext_getElem (by simp [toLanes_length]) fun i h _ => ?_
  have hi : i < n := by rwa [toLanes_length] at h
  have := toLanes_getD e n x i hi
  rw [List.getD_eq_getElem _ _ h] at this
  rw [this, List.getElem_map, List.getElem_range]

theorem laneAt_drop (e i off x : Nat) : laneAt e i (x / 2 ^ (e * off)) = laneAt e (i + off) x := by
  rw [laneAt, laneAt, Nat.div_div_eq_div_mul, ← pow_add, ← Nat.mul_add, Nat.add_comm off]

theorem elems_eq_range (e off n : Nat) (x : BitVec 1024) : elems e off n x = (List.range n).map fun i => laneAt e (i + off) x.toNat := by
  simp only [elems, toLanes_eq_range, laneAt_drop]

/-- The lanes that n results from lane off on leave behind, each under its own mask bit. -/
def underMask (k : BitVec 128) (off n : Nat) (r : Nat → Nat × Nat) (i : Nat) : Option (Nat × Nat) :=
  if off ≤ i ∧ i < off + n ∧ k.getLsbD i = true then some (r (i - off)) else none

/-- Results by their places, written from lane off on, leave those lanes behind. -/
theorem putElems_range (d : BitVec 5) {e off n : Nat} (k : BitVec 128) (r : Nat → Nat × Nat) (he : 0 < e) (h : e * (off + n) ≤ 1024) :
    WritesLanes (putElems d e off k ((List.range n).map r)) d e (underMask k off n r) := by
  have hw := putElems_writes d k ((List.range n).map r) he (by simpa using h)
  rw [List.length_map, List.length_range] at hw
  have hr : ∀ i, off ≤ i ∧ i < off + n ∧ k.getLsbD i = true → ((List.range n).map r).getD (i - off) (0, 0) = r (i - off) := fun i hi => by
    rw [List.getD_eq_getElem _ _ (by simp; omega), List.getElem_map, List.getElem_range]
  have hu : underMask k off n r = fun i => if off ≤ i ∧ i < off + n ∧ k.getLsbD i = true then some (((List.range n).map r).getD (i - off) (0, 0)) else none :=
    funext fun i => if_ctx_congr Iff.rfl (fun hi => by rw [hr i hi]) fun _ => rfl
  rwa [hu]

/-- Rows of n results, one after the other. -/
theorem flatten_rows {α : Type} (g : Nat → α) (m n : Nat) : ((List.range m).map fun b => (List.range n).map fun i => g (n * b + i)).flatten = (List.range (n * m)).map g := by
  induction m with
  | zero => simp
  | succ m ih => rw [List.range_succ, List.map_append, List.flatten_append, ih, Nat.mul_succ, List.range_add, List.map_append]; simp

/-- Two rows of results, one after the other. -/
theorem map_range_halves {α : Type} (g h : Nat → α) (m : Nat) : (List.range m).map g ++ (List.range m).map h = (List.range (m + m)).map fun i => if i < m then g i else h (i - m) := by
  rw [List.range_add, List.map_append, List.map_map]
  congr 1
  · exact List.map_congr_left fun i hi => (if_pos (List.mem_range.1 hi)).symm
  · exact List.map_congr_left fun i _ => by simp

/-! Conversions, packing, widening, dequantisation: each form as results by their places. -/

theorem width_le (w : Width) : w.bits ≤ 1024 := by cases w <;> decide

/-- Whole elements of a width fit the register. -/
theorem elems_fit (e : Nat) (w : Width) : e * (0 + w.bits / e) ≤ 1024 := by
  rw [Nat.zero_add]; exact (Nat.mul_div_le _ _).trans (width_le w)

/-- R172: a part that the operands of `vcvt` name fits the register. -/
theorem vcvt_part_fits {f : VF} {ts : ETy} (hwf : (Instr.vcvt f).wf = true) (hts : etyOf (f.b.toNat % 8) = some ts) :
    let m := f.w.bits / Nat.max ts.bits f.t.bits
    f.t.bits * ((if f.t.bits < ts.bits then f.b.toNat / 8 * m else 0) + m) ≤ 1024 := by
  intro m
  by_cases hn : f.t.bits < ts.bits
  · rw [if_pos hn]
    have hok : f.cvtOk = true := hwf
    simp only [VF.cvtOk, hts, Bool.and_eq_true, decide_eq_true_eq] at hok
    have hfit : (f.b.toNat / 8 + 1) * m * Nat.min ts.bits f.t.bits ≤ 1024 := hok.1.1.2
    rwa [Nat.succ_mul, show Nat.min ts.bits f.t.bits = f.t.bits from Nat.min_eq_right hn.le, Nat.mul_comm] at hfit
  · have hmax : Nat.max ts.bits f.t.bits = f.t.bits := Nat.max_eq_right (Nat.le_of_not_lt hn)
    rw [if_neg hn]
    simp only [m, hmax]
    exact elems_fit f.t.bits f.w

theorem vcvtGo_writes {f : VF} (c : Cap) {ts : ETy} (hwf : (Instr.vcvt f).wf = true) (hts : etyOf (f.b.toNat % 8) = some ts) :
    let e := f.t.bits
    let p := f.b.toNat / 8
    let m := f.w.bits / Nat.max ts.bits e
    WritesLanes (vcvtGo f c) f.d e (underMask c.k (if e < ts.bits then p * m else 0) m fun j =>
      eltCvt ts f.t f.md.toNat (laneAt ts.bits (j + if ts.bits < e then p * m else 0) c.a.toNat)) := by
  unfold vcvtGo
  rw [hts]
  dsimp only
  rw [elems_eq_range, List.map_map]
  exact putElems_range f.d c.k _ (etyBits_pos f.t) (vcvt_part_fits hwf hts)

/-- R173: the bytes of the part that `vcvt8` names fit the register. -/
theorem vcvt8_part_fits {f : VF} (hwf : (Instr.vcvt8 f).wf = true) : 8 * (f.b.toNat / 8 * lanesIn f.w f.t + lanesIn f.w f.t) ≤ 1024 := by
  have hok : f.cvt8Ok = true := hwf
  simp only [VF.cvt8Ok, Bool.and_eq_true, decide_eq_true_eq] at hok
  have hfit := hok.1.2
  rw [Nat.succ_mul] at hfit
  unfold lanesIn
  omega

/-- R173: a narrowing `vcvt8` takes whole lanes to the bytes of its part. -/
theorem vcvt8_narrows {f : VF} (c : Cap) (hwf : (Instr.vcvt8 f).wf = true) (r : Nat → Nat × Nat) :
    let n := lanesIn f.w f.t
    let p := f.b.toNat / 8
    WritesLanes (putElems f.d 8 (p * n) c.k ((elems f.t.bits 0 n c.a).map r)) f.d 8 (underMask c.k (p * n) n fun j => r (laneAt f.t.bits j c.a.toNat)) := by
  intro n p
  rw [elems_eq_range, List.map_map]
  exact putElems_range f.d c.k _ (by decide) (vcvt8_part_fits hwf)

/-- R173: a widening `vcvt8` takes the bytes of its part to whole lanes. -/
theorem vcvt8_widens (f : VF) (c : Cap) (r : Nat → Nat × Nat) :
    let n := lanesIn f.w f.t
    let p := f.b.toNat / 8
    WritesLanes (putElems f.d f.t.bits 0 c.k ((elems 8 (p * n) n c.a).map r)) f.d f.t.bits (underMask c.k 0 n fun j => r (laneAt 8 (p * n + j) c.a.toNat)) := by
  intro n p
  simp only [elems_eq_range, List.map_map, Nat.add_comm (p * n)]
  exact putElems_range f.d c.k _ (etyBits_pos f.t) (elems_fit f.t.bits f.w)

theorem vcvt8Go_writes {f : VF} (c : Cap) (hwf : (Instr.vcvt8 f).wf = true) :
    let e := f.t.bits
    let n := lanesIn f.w f.t
    let md := f.md.toNat
    let p := f.b.toNat / 8
    let dir := f.b.toNat % 4
    let whole := fun j => laneAt e j c.a.toNat
    let byte := fun j => laneAt 8 (p * n + j) c.a.toNat
    let F := etFmt f.t
    (dir = 0 → WritesLanes (vcvt8Go f c) f.d 8 (underMask c.k (p * n) n fun j => toE4M3 md (unpack F (whole j)))) ∧
    (dir = 1 → WritesLanes (vcvt8Go f c) f.d 8 (underMask c.k (p * n) n fun j => toE5M2 md (unpack F (whole j)))) ∧
    (dir = 2 → WritesLanes (vcvt8Go f c) f.d e (underMask c.k 0 n fun j => cvtV F 0 (unpackE4M3 (byte j)))) ∧
    (dir = 3 → WritesLanes (vcvt8Go f c) f.d e (underMask c.k 0 n fun j => cvtV F 0 (unpack e5m2 (byte j)))) := by
  refine ⟨fun h => ?_, fun h => ?_, fun h => ?_, fun h => ?_⟩ <;> rw [vcvt8Go, h]
  exacts [vcvt8_narrows c hwf _, vcvt8_narrows c hwf _, vcvt8_widens f c _, vcvt8_widens f c _]

/-- The value of lane i of a quantised image (R174). -/
def dequantLane (f : VF) (c : Cap) (i : Nat) : Nat × Nat :=
  let code := f.b.toNat
  let elem := fun i => laneAt (fmtBits code) i c.a.toNat
  let scale := fun i => scaleOf code (laneAt 8 (96 + i / 16) c.a.toNat) (c.d.toNat % 2 ^ 32)
  cvtV f32 0 (elemValue { fmt := code, els := (List.range 16).map fun j => elem (i / 16 * 16 + j), scale := scale i } (elem i))

/-- The packed elements of block b, by their places. -/
theorem blockElems_eq (code b x : Nat) : toLanes (fmtBits code) 16 (x / 2 ^ (8 * fmtBlock code * b)) = (List.range 16).map fun i => laneAt (fmtBits code) (b * 16 + i) x := by
  rw [toLanes_eq_range, show 8 * fmtBlock code * b = fmtBits code * (b * 16) by unfold fmtBlock; ring]
  exact List.map_congr_left fun i _ => by rw [laneAt_drop, Nat.add_comm]

theorem vdequantGo_eq (f : VF) (c : Cap) : vdequantGo f c = putRes f c.k ((List.range (16 * quantBlocks f)).map (dequantLane f c)) := by
  unfold vdequantGo
  rw [← flatten_rows]
  dsimp only
  congr 2
  refine List.map_congr_left fun b _ => ?_
  rw [blockElems_eq, List.map_map]
  refine List.map_congr_left fun i hi => ?_
  have hb : (16 * b + i) / 16 = b := by have := List.mem_range.1 hi; omega
  rw [dequantLane]
  dsimp only [Function.comp_apply]
  rw [hb, Nat.mul_comm 16 b]
  rfl

/-- R174: the operands that quantisation allows. -/
theorem quantOk_spec {f : VF} (h : f.quantOk = true) : f.t = .f32 ∧ f.w ≠ .w256 ∧ f.b.toNat ∈ [0, 1, 2, 3, 6, 7, 8] := by
  simp only [VF.quantOk, Bool.and_eq_true, beq_iff_eq, bne_iff_ne, List.contains_iff_mem] at h
  exact ⟨h.1.1.1.1.1, h.1.1.1.1.2, h.2⟩

theorem vdequantGo_writes {f : VF} (c : Cap) (hwf : (Instr.vdequant f).wf = true) : WritesLanes (vdequantGo f c) f.d 32 (underMask c.k 0 (f.w.bits / 32) (dequantLane f c)) := by
  obtain ⟨ht, hw, -⟩ := quantOk_spec (show f.quantOk = true from hwf)
  have hn : 16 * quantBlocks f = f.w.bits / 32 := by
    unfold quantBlocks
    cases h : f.w
    · exact absurd h hw
    all_goals rfl
  rw [vdequantGo_eq, putRes_eq, hn, ht]
  exact putElems_range f.d c.k _ (by decide) (elems_fit 32 f.w)

theorem vpackGo_writes {f : VF} (c : Cap) (hwf : (Instr.vpack f).wf = true) :
    let e := f.t.bits
    let n := lanesIn f.w f.t
    WritesLanes (vpackGo f c) f.d e (underMask c.k 0 n fun i =>
      etNarrow f.t f.md.toNat (sval (2 * e) (if i < n / 2 then laneAt (2 * e) i c.a.toNat else laneAt (2 * e) (i - n / 2) c.b.toNat))) := by
  intro e n
  have heven : n / 2 + n / 2 = n := by
    have hok : ([ETy.i16, .i8, .u8].contains f.t && decide (f.md.toNat ≤ 1)) = true := hwf
    simp only [n, lanesIn]
    revert hok
    cases f.t <;> cases f.w <;> simp [ETy.bits, Width.bits]
  unfold vpackGo
  dsimp only
  rw [putRes_eq, toLanes_eq_range, toLanes_eq_range, List.map_map, List.map_map, map_range_halves, heven]
  simp only [Function.comp_apply, apply_ite]
  exact putElems_range f.d c.k _ (etyBits_pos f.t) (elems_fit f.t.bits f.w)

theorem vunpkGo_writes (f : VF) (c : Cap) :
    let e := f.t.bits
    let m := f.w.bits / (2 * e)
    WritesLanes (vunpkGo f c) f.d (2 * e) (underMask c.k 0 m fun i => (wrapN (2 * e) (etIval f.t (laneAt e (i + if f.md.getLsbD 0 then m else 0) c.a.toNat)), 0)) := by
  unfold vunpkGo
  dsimp only
  rw [elems_eq_range, List.map_map]
  exact putElems_range f.d c.k _ (Nat.mul_pos (by decide) (etyBits_pos f.t)) (elems_fit (2 * f.t.bits) f.w)

end Sys2Proof.Machine
end

section
/-! The image that `vquant` writes (R57, R174): packed elements from byte 0, scale bytes from byte 96. -/

namespace Sys2Proof.Machine

/-- A quantised block is a scale byte and 16 elements. -/
theorem Quantised.shape {code ts : Nat} (hc : code ≤ 3 ∨ code = 6 ∨ code = 7 ∨ code = 8) {xs : List Nat} {r : Nat × List Nat × Nat} (h : Quantised code ts xs r) :
    r.1 < 256 ∧ r.2.1.length = 16 := by
  unfold Quantised at h
  extract_lets el U fin t tsOk A zeros u q at h
  obtain ⟨hbad, hinf, hzero, hint, h7, h8, h6⟩ := h
  have hz : zeros.length = 16 := List.length_replicate
  have ofInts : ∀ {w hi D scale fl}, QuantInts w hi D scale U r.2.1 fl → r.2.1.length = 16 := fun ⟨_, _, hq, _⟩ => by rw [hq]; simp
  have ofFloats : ∀ {f max top X sign fl}, QuantFloats f max top X sign U r.2.1 fl → r.2.1.length = 16 := fun ⟨_, _, _, hq, _⟩ => hq
  have hmin : ∀ n, Nat.min 254 n < 256 := fun n => (Nat.min_le_left 254 n).trans_lt (by decide)
  cases hf : fin
  · by_cases hts : code = 6 ∧ tsOk = false
    · rw [hbad hts.1 hts.2]; exact ⟨by decide, hz⟩
    · rw [hinf (fun hc => by simpa [hc] using hts) hf]; exact ⟨by dsimp only; split <;> decide, hz⟩
  · by_cases hc6 : code = 6
    · cases hts : tsOk
      · rw [hbad hc6 hts]; exact ⟨by decide, hz⟩
      · obtain ⟨hr, -, hu0, hu⟩ := h6 hf hts hc6
        refine ⟨hr.trans (by decide), ?_⟩
        by_cases hu' : u = 0
        · rw [hu0 hu']; exact hz
        · exact ofInts (hu hu')
    · by_cases hA : A = 0
      · rw [hzero hf hA hc6]; exact ⟨by decide, hz⟩
      · rcases hc with hc | hc | hc | hc
        · obtain ⟨hr, hq⟩ := hint hf hA hc
          exact ⟨hr ▸ hmin _, ofInts hq⟩
        · exact absurd hc hc6
        · obtain ⟨hr, hq⟩ := h7 hf hA hc
          exact ⟨hr ▸ hmin _, ofFloats hq⟩
        · obtain ⟨hr, hq⟩ := h8 hf hA hc
          exact ⟨hr ▸ hmin _, ofFloats hq⟩

/-- The format codes with a block scale, by their ranges. -/
theorem scaledCode_cases {code : Nat} (h : code ∈ [0, 1, 2, 3, 6, 7, 8]) : code ≤ 3 ∨ code = 6 ∨ code = 7 ∨ code = 8 := by
  simp only [List.mem_cons, List.not_mem_nil, or_false] at h
  omega

theorem fromLanes_append (e : Nat) (l m : List Nat) : fromLanes e (l ++ m) = fromLanes e l + 2 ^ (e * l.length) * fromLanes e m := by
  induction l with
  | nil => simp [fromLanes]
  | cons x r ih => rw [List.cons_append, fromLanes, fromLanes, ih, List.length_cons, Nat.mul_succ, pow_add]; ring

/-- The image of quantised blocks (R174). -/
def quantImage (code : Nat) (r : List (Nat × List Nat × Nat)) : Nat :=
  ((List.zipIdx r).map fun q => fromLanes (fmtBits code) q.1.2.1 * 2 ^ (8 * fmtBlock code * q.2) + q.1.1 * 2 ^ (8 * (96 + q.2))).sum

/-- Blocks placed one after the other are the elements of all of them as lanes of the format, and their scales as bytes from byte S on. -/
theorem blocks_sum {code S : Nat} {r : List (Nat × List Nat × Nat)} (h : ∀ q ∈ r, q.1 < 256 ∧ q.2.1.length = 16) (o : Nat) :
    ((r.zipIdx o).map fun q => fromLanes (fmtBits code) q.1.2.1 * 2 ^ (8 * fmtBlock code * q.2) + q.1.1 * 2 ^ (8 * (S + q.2))).sum =
      2 ^ (fmtBits code * (16 * o)) * fromLanes (fmtBits code) (r.map fun q => q.2.1).flatten + 2 ^ (8 * (S + o)) * fromLanes 8 (r.map Prod.fst) := by
  induction r generalizing o with
  | nil => simp [fromLanes]
  | cons q r ih =>
    obtain ⟨hq, hl⟩ := h q List.mem_cons_self
    rw [List.zipIdx_cons, List.map_cons, List.sum_cons, ih (fun q hq => h q (List.mem_cons_of_mem _ hq)), List.map_cons, List.flatten_cons, List.map_cons, fromLanes_append, hl,
      fromLanes, Nat.mod_eq_of_lt (show q.1 < 2 ^ 8 from hq), fmtBlock]
    ring

theorem quantImage_eq {code : Nat} {r : List (Nat × List Nat × Nat)} (h : ∀ q ∈ r, q.1 < 256 ∧ q.2.1.length = 16) :
    quantImage code r = fromLanes (fmtBits code) (r.map fun q => q.2.1).flatten + 2 ^ (8 * 96) * fromLanes 8 (r.map Prod.fst) := by
  rw [quantImage, blocks_sum h 0, Nat.mul_zero, pow_zero, Nat.one_mul]

/-- A lane below a power of two that a sum adds. -/
theorem laneAt_add_low {e i k x : Nat} (h : e * (i + 1) ≤ k) (y : Nat) : laneAt e i (x + 2 ^ k * y) = laneAt e i x := by
  obtain ⟨c, rfl⟩ : ∃ c, k = e * i + (e + c) := ⟨k - e * (i + 1), by rw [Nat.mul_succ] at h ⊢; omega⟩
  unfold laneAt
  rw [pow_add, mul_assoc, Nat.add_mul_div_left _ _ (Nat.two_pow_pos _), pow_add, mul_assoc, Nat.add_mul_mod_self_left]

/-- A lane at or above a power of two that a sum adds to a lower number. -/
theorem laneAt_add_high {e o x : Nat} (h : x < 2 ^ (e * o)) (i y : Nat) : laneAt e (o + i) (x + 2 ^ (e * o) * y) = laneAt e i y := by
  rw [Nat.add_comm o, ← laneAt_drop, Nat.add_mul_div_left _ _ (Nat.two_pow_pos _), Nat.div_eq_of_lt h, Nat.zero_add]

/-- A number below a lane is zero there. -/
theorem laneAt_of_lt {e i x : Nat} (h : x < 2 ^ (e * i)) : laneAt e i x = 0 := by
  rw [laneAt, Nat.div_eq_of_lt h, Nat.zero_mod]

/-- The union of flags over a list. -/
theorem foldl_orF_testBit {α : Type} (g : α → Nat) (l : List α) (a k : Nat) : (l.foldl (fun a x => orF a (g x)) a).testBit k = true ↔ a.testBit k = true ∨ ∃ x ∈ l, (g x).testBit k = true := by
  induction l generalizing a with
  | nil => simp
  | cons x r ih => rw [List.foldl_cons, ih]; simp [orF, or_assoc]

/-- Rows of n elements, one after the other: element i of row b. -/
theorem flatten_getD {n : Nat} (l : List (List Nat)) (h : ∀ x ∈ l, x.length = n) {b i : Nat} (hi : i < n) : l.flatten.getD (n * b + i) 0 = (l.getD b []).getD i 0 := by
  induction l generalizing b with
  | nil => simp
  | cons x r ih =>
    have hx : x.length = n := h x List.mem_cons_self
    cases b with
    | zero => rw [List.flatten_cons, Nat.mul_zero, Nat.zero_add, List.getD_append _ _ _ _ (by rwa [hx])]; rfl
    | succ b => rw [List.flatten_cons, List.getD_append_right _ _ _ _ (by rw [hx, Nat.mul_succ]; omega), hx, show n * (b + 1) + i - n = n * b + i by rw [Nat.mul_succ]; omega, ih (fun x hx => h x (List.mem_cons_of_mem _ hx)), List.getD_cons_succ]

theorem flatten_length_of_rows {n : Nat} (l : List (List Nat)) (h : ∀ x ∈ l, x.length = n) : l.flatten.length = n * l.length := by
  induction l with
  | nil => rfl
  | cons x r ih => rw [List.flatten_cons, List.length_append, h x List.mem_cons_self, ih fun x hx => h x (List.mem_cons_of_mem _ hx), List.length_cons, Nat.mul_succ, Nat.add_comm]

/-- R174: what stands where in an image of at most two blocks. -/
theorem quantImage_lanes {code nb : Nat} (hw : fmtBits code ≤ 8) (hb : nb ≤ 2) {r : List (Nat × List Nat × Nat)} (hn : r.length = nb) (h : ∀ q ∈ r, q.1 < 256 ∧ q.2.1.length = 16) :
    (∀ b, b < nb → laneAt 8 (96 + b) (quantImage code r) = (r.getD b (0, [], 0)).1 % 2 ^ 8 ∧
      ∀ i, i < 16 → laneAt (fmtBits code) (16 * b + i) (quantImage code r) = (r.getD b (0, [], 0)).2.1.getD i 0 % 2 ^ fmtBits code) ∧
    ∀ i, 2 * fmtBits code * nb ≤ i → (i < 96 ∨ 96 + nb ≤ i) → laneAt 8 i (quantImage code r) = 0 := by
  have hrows : ∀ x ∈ r.map fun q => q.2.1, x.length = 16 := fun x hx => by
    obtain ⟨q, hq, rfl⟩ := List.mem_map.1 hx
    exact (h q hq).2
  have hlow := fromLanes_lt (fmtBits code) (r.map fun q => q.2.1).flatten
  rw [flatten_length_of_rows _ hrows, List.length_map, hn, show fmtBits code * (16 * nb) = 8 * (2 * fmtBits code * nb) by ring] at hlow
  have h96 : 2 * fmtBits code * nb ≤ 96 := (Nat.mul_le_mul (Nat.mul_le_mul_left 2 hw) hb).trans (by decide)
  have hlow' : fromLanes (fmtBits code) (r.map fun q => q.2.1).flatten < 2 ^ (8 * 96) := hlow.trans_le (pow_le_pow_right₀ one_le_two (Nat.mul_le_mul_left 8 h96))
  rw [quantImage_eq h]
  refine ⟨fun b hbn => ⟨?_, fun i hi => ?_⟩, fun i hi ho => ?_⟩
  · rw [laneAt_add_high hlow', fromLanes_lane]
    simp [List.getD_eq_getElem?_getD, hn, hbn]
  · have hfit : fmtBits code * (16 * b + i + 1) ≤ 8 * 96 := (Nat.mul_le_mul hw (show 16 * b + i + 1 ≤ 32 by omega)).trans (by decide)
    rw [laneAt_add_low hfit, fromLanes_lane, flatten_getD _ hrows hi]
    simp [List.getD_eq_getElem?_getD, hn, hbn]
  · rcases Nat.lt_or_ge i 96 with hi96 | hi96
    · rw [laneAt_add_low (by omega), laneAt_of_lt (hlow.trans_le (Nat.pow_le_pow_right (by decide) (by omega)))]
    · obtain ⟨j, rfl⟩ := Nat.exists_eq_add_of_le hi96
      rw [laneAt_add_high hlow', fromLanes_lane, List.getD_eq_default _ _ (by simp; omega), Nat.zero_mod]

/-- Block b of a register as `vquant` quantises it. -/
def quantBlock (f : VF) (c : Cap) (b : Nat) : Nat × List Nat × Nat :=
  quant ((List.range 16).map fun i => laneAt 32 (16 * b + i) c.a.toNat) f.b.toNat (c.d.toNat % 2 ^ 32)

theorem vquantGo_eq (f : VF) (c : Cap) :
    let r := (List.range (quantBlocks f)).map (quantBlock f c)
    vquantGo f c = [.vreg f.d (BitVec.allOnes 1024) (BitVec.ofNat 1024 (quantImage f.b.toNat r)), .flags (flagBits (r.foldl (fun a q => orF a q.2.2) 0))] := by
  have hr : (List.range (quantBlocks f)).map (fun b => quant (toLanes 32 16 (c.a.toNat / 2 ^ (512 * b))) f.b.toNat (c.d.toNat % 2 ^ 32)) = (List.range (quantBlocks f)).map (quantBlock f c) := by
    refine List.map_congr_left fun b _ => ?_
    rw [toLanes_eq_range, show 512 * b = 32 * (16 * b) by ring, quantBlock]
    congr 1
    exact List.map_congr_left fun i _ => by rw [laneAt_drop, Nat.add_comm]
  unfold vquantGo
  dsimp only
  rw [hr]
  rfl

theorem vquantGo_writes {f : VF} (c : Cap) (hwf : (Instr.vquant f).wf = true) :
    let w := fmtBits f.b.toNat
    let nb := f.w.bits / 512
    let block := quantBlock f c
    ∃ (v : BitVec 1024) (fl : BitVec 6), vquantGo f c = [.vreg f.d (BitVec.allOnes 1024) v, .flags fl] ∧
      (∀ b, b < nb → laneAt 8 (96 + b) v.toNat = (block b).1 % 2 ^ 8 ∧ ∀ i, i < 16 → laneAt w (16 * b + i) v.toNat = (block b).2.1.getD i 0 % 2 ^ w) ∧
      (∀ i, i < 128 → 2 * w * nb ≤ i → (i < 96 ∨ 96 + nb ≤ i) → laneAt 8 i v.toNat = 0) ∧
      ∀ k, k < 6 → (fl.getLsbD k = true ↔ ∃ b, b < nb ∧ (block b).2.2.testBit k = true) := by
  obtain ⟨-, -, hc⟩ := quantOk_spec (show f.quantOk = true from hwf)
  have hw : fmtBits f.b.toNat ≤ 8 := by
    revert hc
    generalize f.b.toNat = code
    revert code
    decide
  have hb : f.w.bits / 512 ≤ 2 := Nat.div_le_of_le_mul (width_le f.w)
  have hshape : ∀ q ∈ (List.range (quantBlocks f)).map (quantBlock f c), q.1 < 256 ∧ q.2.1.length = 16 := fun q hq => by
    obtain ⟨b, -, rfl⟩ := List.mem_map.1 hq
    exact (quant_quantised (scaledCode_cases hc) _ (by simp)).shape (scaledCode_cases hc)
  obtain ⟨hin, hout⟩ := quantImage_lanes (code := f.b.toNat) hw hb (by simp [quantBlocks]) hshape
  have hget : ∀ b, b < f.w.bits / 512 → ((List.range (quantBlocks f)).map (quantBlock f c)).getD b (0, [], 0) = quantBlock f c b := fun b hbn => by
    simp [List.getD_eq_getElem?_getD, quantBlocks, hbn]
  refine ⟨_, _, vquantGo_eq f c, fun b hbn => ⟨?_, fun i hi => ?_⟩, fun i hi hlo ho => ?_, fun k hk => ?_⟩
  · rw [laneAt_ofNat (by omega), (hin b hbn).1, hget b hbn]
  · rw [laneAt_ofNat ((Nat.mul_le_mul hw (show 16 * b + i + 1 ≤ 128 by omega)).trans (by decide)), (hin b hbn).2 i hi, hget b hbn]
  · rw [laneAt_ofNat (by omega), hout i hlo ho]
  · rw [flagBits_getLsbD hk, foldl_orF_testBit]
    simp [quantBlocks]

/-- Settles O49: each element is its conversion, and each form is results by their places under the mask. -/
theorem laneConversions : Obligations.LaneConversions := by
  unfold Obligations.LaneConversions
  refine ⟨fun ts td md x hm => eltCvt_converted ts td hm x, fun t md x _ hm => ?_, fun code hc => ⟨fun ts xs hl => quant_quantised (scaledCode_cases hc) ts hl, elem_dequantised (scaledCode_cases hc)⟩,
    fun f c => ⟨fun ts hwf hts => vcvtGo_writes c hwf hts, vcvt8Go_writes c, vquantGo_writes c, vdequantGo_writes c, vpackGo_writes c, fun _ => vunpkGo_writes f c, topk_testBit f c⟩⟩
  have hx := (etFmt_ieee t).holds x
  refine ⟨toE4M3_cvtE4M3Is hm hx, ?_, cvtV_cvtIs (etFmt_ieee t) (by decide) (unpackE4M3_holds x), cvtV_cvtIs (etFmt_ieee t) (by decide) (e5m2_ieee.holds x),
    fun temp => ⟨vtempLane_refused, fun hinf => vtempLane_infinite hm hinf x, fun hfin hpos => vtempLane_positive hm hfin hpos x⟩⟩
  rw [toE5M2_eq_cvtV]
  exact cvtV_cvtIs e5m2_ieee hm hx

end Sys2Proof.Machine
end

section
/-! Decode and encode (R72 to R74, R79 to R85), and the spec's own words. -/

namespace Sys2Proof.Laws

/-- Encoding a well-formed operation and reading its words back gives the operation, whichever it is. -/
theorem roundTrip : ∀ i : Instr, RoundTrip.Statement i
  | .add .. => RoundTrip.add .. | .sub .. => RoundTrip.sub .. | .mul .. => RoundTrip.mul .. | .mulh .. => RoundTrip.mulh ..
  | .div .. => RoundTrip.div .. | .rem .. => RoundTrip.rem .. | .and .. => RoundTrip.and .. | .or .. => RoundTrip.or .. | .xor .. => RoundTrip.xor ..
  | .sll .. => RoundTrip.sll .. | .srl .. => RoundTrip.srl .. | .sra .. => RoundTrip.sra .. | .slli .. => RoundTrip.slli ..
  | .srli .. => RoundTrip.srli .. | .srai .. => RoundTrip.srai .. | .min .. => RoundTrip.min .. | .max .. => RoundTrip.max ..
  | .clz .. => RoundTrip.clz .. | .ctz .. => RoundTrip.ctz .. | .popc .. => RoundTrip.popc .. | .bext .. => RoundTrip.bext ..
  | .bins .. => RoundTrip.bins .. | .sel .. => RoundTrip.sel .. | .addsh .. => RoundTrip.addsh .. | .kset .. => RoundTrip.kset ..
  | .kget .. => RoundTrip.kget .. | .crrd .. => RoundTrip.crrd .. | .crwr .. => RoundTrip.crwr .. | .fadd .. => RoundTrip.fadd ..
  | .fmul .. => RoundTrip.fmul .. | .fcvt .. => RoundTrip.fcvt .. | .addi .. => RoundTrip.addi .. | .andi .. => RoundTrip.andi ..
  | .ori .. => RoundTrip.ori .. | .xori .. => RoundTrip.xori .. | .movi .. => RoundTrip.movi .. | .movh .. => RoundTrip.movh ..
  | .lix .. => RoundTrip.lix .. | .cmpeq .. => RoundTrip.cmpeq .. | .cmpeqImm .. => RoundTrip.cmpeqImm .. | .cmpne .. => RoundTrip.cmpne ..
  | .cmpneImm .. => RoundTrip.cmpneImm .. | .cmplt .. => RoundTrip.cmplt .. | .cmpltImm .. => RoundTrip.cmpltImm .. | .cmple .. => RoundTrip.cmple ..
  | .cmpleImm .. => RoundTrip.cmpleImm .. | .cmpltu .. => RoundTrip.cmpltu .. | .cmpltuImm .. => RoundTrip.cmpltuImm ..
  | .cmpleu .. => RoundTrip.cmpleu .. | .cmpleuImm .. => RoundTrip.cmpleuImm .. | .fcmp .. => RoundTrip.fcmp .. | .pand .. => RoundTrip.pand ..
  | .por .. => RoundTrip.por .. | .pxor .. => RoundTrip.pxor .. | .br .. => RoundTrip.br .. | .call .. => RoundTrip.call ..
  | .brx .. => RoundTrip.brx .. | .ld .. => RoundTrip.ld .. | .st .. => RoundTrip.st .. | .ldacq .. => RoundTrip.ldacq ..
  | .strel .. => RoundTrip.strel .. | .pf .. => RoundTrip.pf .. | .fence .. => RoundTrip.fence .. | .amoadd .. => RoundTrip.amoadd ..
  | .amoand .. => RoundTrip.amoand .. | .amoor .. => RoundTrip.amoor .. | .amoxor .. => RoundTrip.amoxor .. | .amomin .. => RoundTrip.amomin ..
  | .amomax .. => RoundTrip.amomax .. | .amoswap .. => RoundTrip.amoswap .. | .amocas .. => RoundTrip.amocas .. | .stld .. => RoundTrip.stld ..
  | .stset .. => RoundTrip.stset .. | .stget .. => RoundTrip.stget .. | .stadv .. => RoundTrip.stadv .. | .vld .. => RoundTrip.vld ..
  | .vst .. => RoundTrip.vst .. | .vldb .. => RoundTrip.vldb .. | .vpf .. => RoundTrip.vpf .. | .vscat .. => RoundTrip.vscat ..
  | .vscadd .. => RoundTrip.vscadd .. | .vscmax .. => RoundTrip.vscmax .. | .vredst .. => RoundTrip.vredst .. | .vadd .. => RoundTrip.vadd ..
  | .vsub .. => RoundTrip.vsub .. | .vmul .. => RoundTrip.vmul .. | .vfma .. => RoundTrip.vfma .. | .vfms .. => RoundTrip.vfms ..
  | .vfnma .. => RoundTrip.vfnma .. | .vmulh .. => RoundTrip.vmulh .. | .vmin .. => RoundTrip.vmin .. | .vmax .. => RoundTrip.vmax ..
  | .vabs .. => RoundTrip.vabs .. | .vneg .. => RoundTrip.vneg .. | .vclamp .. => RoundTrip.vclamp .. | .vrnd .. => RoundTrip.vrnd ..
  | .vand .. => RoundTrip.vand .. | .vor .. => RoundTrip.vor .. | .vxor .. => RoundTrip.vxor .. | .vnot .. => RoundTrip.vnot ..
  | .vsll .. => RoundTrip.vsll .. | .vsrl .. => RoundTrip.vsrl .. | .vsra .. => RoundTrip.vsra .. | .vcmpeq .. => RoundTrip.vcmpeq ..
  | .vcmpne .. => RoundTrip.vcmpne .. | .vcmplt .. => RoundTrip.vcmplt .. | .vcmple .. => RoundTrip.vcmple .. | .vclass .. => RoundTrip.vclass ..
  | .vsel .. => RoundTrip.vsel .. | .vmov .. => RoundTrip.vmov .. | .vbcast .. => RoundTrip.vbcast .. | .vins .. => RoundTrip.vins ..
  | .vext .. => RoundTrip.vext .. | .vgath .. => RoundTrip.vgath .. | .vcvt .. => RoundTrip.vcvt .. | .vcvt8 .. => RoundTrip.vcvt8 ..
  | .vquant .. => RoundTrip.vquant .. | .vdequant .. => RoundTrip.vdequant .. | .vpack .. => RoundTrip.vpack .. | .vunpk .. => RoundTrip.vunpk ..
  | .vshuf .. => RoundTrip.vshuf .. | .vrotm .. => RoundTrip.vrotm .. | .vzip .. => RoundTrip.vzip .. | .vuzp .. => RoundTrip.vuzp ..
  | .vrev .. => RoundTrip.vrev .. | .vslide .. => RoundTrip.vslide .. | .vpark .. => RoundTrip.vpark .. | .vunpark .. => RoundTrip.vunpark ..
  | .vexp2 .. => RoundTrip.vexp2 .. | .vlog2 .. => RoundTrip.vlog2 .. | .vrcp .. => RoundTrip.vrcp .. | .vrsqrt .. => RoundTrip.vrsqrt ..
  | .vsin .. => RoundTrip.vsin .. | .vcos .. => RoundTrip.vcos .. | .vtanh .. => RoundTrip.vtanh .. | .vqraw .. => RoundTrip.vqraw ..
  | .vunif .. => RoundTrip.vunif .. | .vnorm .. => RoundTrip.vnorm .. | .vcat .. => RoundTrip.vcat .. | .vtopk .. => RoundTrip.vtopk ..
  | .vtemp .. => RoundTrip.vtemp .. | .rsum .. => RoundTrip.rsum .. | .rmax .. => RoundTrip.rmax .. | .rmin .. => RoundTrip.rmin ..
  | .rsumsq .. => RoundTrip.rsumsq .. | .rmov .. => RoundTrip.rmov .. | .rclr .. => RoundTrip.rclr .. | .mld .. => RoundTrip.mld ..
  | .mldu .. => RoundTrip.mldu .. | .mldv .. => RoundTrip.mldv .. | .mst .. => RoundTrip.mst .. | .mstu .. => RoundTrip.mstu ..
  | .mstv .. => RoundTrip.mstv .. | .mmov .. => RoundTrip.mmov .. | .mmac .. => RoundTrip.mmac .. | .mmacs .. => RoundTrip.mmacs ..
  | .mmacr .. => RoundTrip.mmacr .. | .mmacm .. => RoundTrip.mmacm .. | .mmul .. => RoundTrip.mmul .. | .madd .. => RoundTrip.madd ..
  | .msub .. => RoundTrip.msub .. | .mscale .. => RoundTrip.mscale .. | .mtr .. => RoundTrip.mtr .. | .recomp .. => RoundTrip.recomp ..
  | .densify .. => RoundTrip.densify .. | .mctl .. => RoundTrip.mctl .. | .mfree .. => RoundTrip.mfree .. | .macrd .. => RoundTrip.macrd ..
  | .macwr .. => RoundTrip.macwr .. | .accld .. => RoundTrip.accld .. | .accwr .. => RoundTrip.accwr .. | .accadd .. => RoundTrip.accadd ..
  | .accst .. => RoundTrip.accst .. | .accqst .. => RoundTrip.accqst .. | .accclr .. => RoundTrip.accclr .. | .accmv .. => RoundTrip.accmv ..
  | .accscl .. => RoundTrip.accscl .. | .ecopy .. => RoundTrip.ecopy .. | .own .. => RoundTrip.own .. | .rset .. => RoundTrip.rset ..
  | .rwait .. => RoundTrip.rwait .. | .radv .. => RoundTrip.radv .. | .barr .. => RoundTrip.barr .. | .bwait .. => RoundTrip.bwait ..
  | .bwaitImm .. => RoundTrip.bwaitImm .. | .breset .. => RoundTrip.breset .. | .balloc .. => RoundTrip.balloc .. | .bfree .. => RoundTrip.bfree ..
  | .hxch .. => RoundTrip.hxch .. | .reshard .. => RoundTrip.reshard .. | .rsload .. => RoundTrip.rsload .. | .coll .. => RoundTrip.coll ..
  | .edisp .. => RoundTrip.edisp .. | .ecomb .. => RoundTrip.ecomb .. | .put .. => RoundTrip.put .. | .get .. => RoundTrip.get ..
  | .spawn .. => RoundTrip.spawn .. | .done .. => RoundTrip.done .. | .jraise .. => RoundTrip.jraise .. | .cpost .. => RoundTrip.cpost ..
  | .slice .. => RoundTrip.slice .. | .trap .. => RoundTrip.trap .. | .tsub .. => RoundTrip.tsub .. | .rverd .. => RoundTrip.rverd ..
  | .tlog .. => RoundTrip.tlog .. | .tsload .. => RoundTrip.tsload .. | .tsstat .. => RoundTrip.tsstat .. | .sqset .. => RoundTrip.sqset ..
  | .sqapp .. => RoundTrip.sqapp .. | .sqacc .. => RoundTrip.sqacc .. | .sqrej .. => RoundTrip.sqrej .. | .lyrd .. => RoundTrip.lyrd ..
  | .lywr .. => RoundTrip.lywr .. | .tlbinv .. => RoundTrip.tlbinv .. | .aclwr .. => RoundTrip.aclwr .. | .ckpt .. => RoundTrip.ckpt ..
  | .nop => RoundTrip.nop | .idle => RoundTrip.idle | .mark => RoundTrip.mark | .l1inv => RoundTrip.l1inv | .yield => RoundTrip.yield
  | .brk => RoundTrip.brk  | .offCoreLoadResponse .. | .queueEntryPerform .. | .offCoreFaultReport .. | .engineCommandCompletion .. | .engineFailureReport ..
  | .ringBlockTransfer .. | .pipeTileCopy .. | .haloFaceArrival .. | .reshardStep .. | .stepTokenArrival .. | .barrierArrival ..
  | .recordAdmission .. | .recordCompletion .. | .packetExpansion .. | .gangClaim .. | .gangAdmission .. | .gangResume .. | .jobCompletion ..
  | .completionSignal .. | .resume .. | .fault .. | .endTrapped .. | .endPost .. | .requestArrival .. | .acknowledgement .. | .checkpointCopy ..
  | .checkpointCommit .. | .push .. | .uncorrectableError .. | .correctedError .. | .flitArrival .. | .planeFailure .. | .planeRejoin ..
  | .linkTraining .. | .rekey .. | .slotAlignmentLoss .. | .bar0Write .. | .claim .. | .handover .. | .attest .. | .bar4Write .. | .bar4Read ..
  | .boot .. | .resumption .. | .throttle .. | .ownerLinkDown .. | .powerRemoval .. | .repetitionIssue | .resultLanding | .matrixResultLanding
  | .waitConditionMet | .waitTimeout | .safePoint | .save | .budgetExhausted | .safepointOverdue | .spawnEnqueue | .dispatch | .trapRecordClaim
  | .translationWalk | .tlbinvCompletion | .criticalResend | .criticalFlitLost | .endToEndResend | .fabricOutcomeUnknown | .handoverLapse
  | .quoteCompletion => .event rfl rfl

/-- A slot word decodes to nothing but a well-formed operation that is written as that word. -/
theorem encode_decodeSlot {c : Cls} {w : Nat} {ext : List Nat} {i : Instr} (h : decodeSlot c w ext = .ok i) :
    i.wf = true ∧ encodeWord i = w ∧ encodeExt i = ext ∧ opAssigned c (w / 2 ^ 26) = true := by
  unfold decodeSlot at h
  split at h
  case isFalse => cases h
  case isTrue hop =>
    split at h
    · cases h
    · split at h
      case isFalse => cases h
      case isTrue henc =>
        obtain ⟨hword, hext, hwf⟩ := henc
        cases h
        exact ⟨hwf, hword, hext, hop⟩

/-- Tree words decode to nothing but a well-formed tree that is written as those words. -/
theorem encode_decodeTree {full : Bool} {ws : List Nat} {i : Instr} (h : decodeTree full ws = some i) :
    i.wf = true ∧ encodeTree i = ws ∧ i.tree.isSome = true := by
  unfold decodeTree at h
  extract_lets t j at h
  have hkind : ∀ k, j = some k → k.tree.isSome = true := by
    intro k hk
    simp only [j] at hk
    split at hk <;> cases hk <;> rfl
  clear_value j
  split at h
  case h_2 => cases h
  case h_1 k =>
    split at h
    case isFalse => cases h
    case isTrue henc =>
      cases h
      exact ⟨henc.2, henc.1, hkind _ rfl⟩

/-- Settles O58: one round trip for each operation, and a reading that is kept only where it encodes to the words read. -/
theorem decodeAndEncodeAgree : Obligations.DecodeAndEncodeAgree := by
  unfold Obligations.DecodeAndEncodeAgree
  exact ⟨roundTrip, fun _ _ _ _ => encode_decodeSlot, fun _ _ _ => encode_decodeTree⟩

/-- Settles O57: each word is read by the decoder of its class. -/
theorem specWordsDecode : Obligations.SpecWordsDecode := by
  unfold Obligations.SpecWordsDecode
  decide +kernel

end Sys2Proof.Laws
end

section
/-! Branch trees: the decision list, and what each kind leaves in the issue buffer (R80, R81, R83). -/

namespace Sys2Proof.Machine

/-- A search of the first numbers finds the least that passes the test, or none does. -/
theorem range_find?_none_or_least (p : Nat → Bool) (n : Nat) :
    ((List.range n).find? p = none ∧ ∀ i, i < n → p i = false) ∨
      ∃ i, (List.range n).find? p = some i ∧ i < n ∧ p i = true ∧ ∀ j, j < i → p j = false := by
  cases h : (List.range n).find? p with
  | none => exact .inl ⟨rfl, fun i hi => by simpa using List.find?_eq_none.1 h i (List.mem_range.2 hi)⟩
  | some i =>
    obtain ⟨hp, hi, hlt⟩ := List.find?_range_eq_some.1 h
    exact .inr ⟨i, rfl, List.mem_range.1 hi, hp, fun j hj => by simpa using hlt j hj⟩

/-- R80: no test is true and the outcome is NT, or the outcome is the first test that is true. -/
theorem State.outcome_cases (s : State) (t : Tree) :
    (s.outcome t = 4 ∧ ∀ i, i ≤ t.nt.toNat → s.testHolds (treeTest t i) = false) ∨
      (s.outcome t ≤ t.nt.toNat ∧ s.testHolds (treeTest t (s.outcome t)) = true ∧ ∀ i, i < s.outcome t → s.testHolds (treeTest t i) = false) := by
  unfold State.outcome
  obtain ⟨hnone, hall⟩ | ⟨i, hsome, hi, hp, hlt⟩ := range_find?_none_or_least (fun i => s.testHolds (treeTest t i)) (t.nt.toNat + 1)
  · rw [hnone]
    exact .inl ⟨rfl, fun i hi => hall i (Nat.lt_succ_of_le hi)⟩
  · rw [hsome]
    exact .inr ⟨Nat.le_of_lt_succ hi, hp, hlt⟩

/-- Settles O5: the outcome is NT with no test true, or the first test that is true, whose number is below 4. -/
theorem treeOutcome : Obligations.TreeOutcome := by
  unfold Obligations.TreeOutcome
  intro s t holds
  have hnt : t.nt.toNat < 4 := t.nt.isLt
  obtain ⟨ho, hall⟩ | ⟨hle, htrue, hlt⟩ := s.outcome_cases t
  · exact ⟨.inl ho, ⟨fun _ i hi => Bool.eq_false_iff.1 (hall i hi), fun _ => ho⟩, fun hne => absurd ho hne⟩
  · refine ⟨.inr hle, ⟨fun ho => by omega, fun hall => absurd htrue (hall _ hle)⟩, fun _ => ⟨htrue, fun i hi => Bool.eq_false_iff.1 (hlt i hi)⟩⟩

/-- R81: an offset counts words. -/
theorem State.jumpTarget_eq (s : State) (t : Tree) (o : Nat) : s.jumpTarget t o = s.core.ctx.pc + 4 * (treeEntry t o).signExtend 56 := by
  unfold State.jumpTarget
  congr 1
  bv_omega

/-- Settles O6: each kind is its choice of outcome and target, a call with its link. -/
theorem treeForms : Obligations.TreeForms := by
  unfold Obligations.TreeForms
  intro s t o dest
  have hdest : some (s.jumpTarget t o) = dest := congrArg some (s.jumpTarget_eq t o)
  refine ⟨fun ho => ⟨?_, ?_, ?_⟩, fun ho => ⟨?_, ?_, ?_⟩⟩
  · rw [exec_br, execBr]; simp only [show s.outcome t = 4 from ho, if_true]
  · rw [exec_call, execCall]; simp only [show s.outcome t = 4 from ho, if_true]
  · rw [exec_brx, execBrx]; simp only [show s.outcome t = 4 from ho, if_true]
  · rw [exec_br, execBr, ← hdest]; simp only [show s.outcome t ≠ 4 from ho, if_false, o]
  · rw [exec_call, execCall, ← hdest]; simp only [show s.outcome t ≠ 4 from ho, if_false, o, State.nextPc]
  · rw [exec_brx, execBrx]; simp only [show s.outcome t ≠ 4 from ho, if_false, o, State.indirectTarget]

end Sys2Proof.Machine
end

section
/-! What a slot operation does at its issue: it fills the issue buffer (R77, R91). -/

namespace Sys2Proof.Machine

/-! States that differ in the issue buffer alone. -/

/-- The second state is the first with another issue buffer. -/
def State.IssueOnly (s t : State) : Prop := ∃ x, t = s.onIss fun _ => x
/-- The outcome is a next state that differs in the issue buffer alone. -/
def State.Issues (s : State) (o : Out) : Prop := ∃ x, o = .next (s.onIss fun _ => x)

namespace State.IssueOnly
variable {s t u : State}

theorem refl : s.IssueOnly s := ⟨s.core.iss, Eq.refl _⟩
theorem onIss {f : Iss → Iss} (h : s.IssueOnly t) : s.IssueOnly (t.onIss f) := by
  obtain ⟨x, rfl⟩ := h
  exact ⟨f x, rfl⟩
theorem emit {L : Nat} {e : Eff} (h : s.IssueOnly t) : s.IssueOnly (t.emit L e) := h.onIss
theorem emitEnd {e : Eff} (h : s.IssueOnly t) : s.IssueOnly (t.emitEnd e) := h.onIss
theorem emitDue {due : Nat} {e : Eff} (h : s.IssueOnly t) : s.IssueOnly (t.emitDue due e) := h.onIss
theorem choose {o : Nat} {x : Option (BitVec 56)} (h : s.IssueOnly t) : s.IssueOnly (t.choose o x) := h.onIss
theorem foldl {α : Type} {f : State → α → State} {l : List α} (hf : ∀ t a, s.IssueOnly t → s.IssueOnly (f t a)) (h : s.IssueOnly t) : s.IssueOnly (l.foldl f t) := by
  induction l generalizing t with
  | nil => exact h
  | cons a l ih => exact ih (hf t a h)
theorem emitAll {due : Nat} {es : List Eff} (h : s.IssueOnly t) : s.IssueOnly (t.emitAll due es) := foldl (fun _ _ h => h.emitDue) h
theorem ite {c : Prop} [Decidable c] (h : s.IssueOnly t) (k : s.IssueOnly u) : s.IssueOnly (if c then t else u) := by
  split
  · exact h
  · exact k
theorem touch {n : BitVec 5} {unit : Nat} (h : s.IssueOnly t) : s.IssueOnly (t.touch n unit) := (ite h.emit h).emit
theorem mxLand {cost : Nat} {e : Eff} (h : s.IssueOnly t) : s.IssueOnly (t.mxLand cost e) := h.emit.emitDue
theorem clearZ {f : MF} {mk : MF → Instr} (h : s.IssueOnly t) : s.IssueOnly (t.clearZ f mk) := ite h.emit h

end State.IssueOnly

/-! Outcomes of the operations that forms share. -/

namespace State.Issues
variable {s t : State}

theorem next (h : s.IssueOnly t) : s.Issues (.next t) := by
  obtain ⟨x, rfl⟩ := h
  exact ⟨x, rfl⟩
theorem raise {t : Trap} : s.Issues (.next (s.raise t)) := next (IssueOnly.onIss .refl)
theorem ite {c : Prop} [Decidable c] {o p : Out} (h : s.Issues o) (k : s.Issues p) : s.Issues (if c then o else p) := by
  split
  · exact h
  · exact k
/-- The trap that a check finds is raised; where it finds none, the form goes on. -/
theorem trapOr {t : Option Trap} {o : Out} (h : s.Issues o) : s.Issues (match t with | some t => .next (s.raise t) | none => o) := by
  cases t with
  | none => exact h
  | some t => exact raise
/-- The two parts of a form that samples its operand after its issue. -/
theorem phases {o : Out} {g : Cap → Out} (hc : ∀ c, s.Issues (g c)) (hi : s.Issues o) : s.Issues (match s.core.iss.phase with | .compute c => g c | .issue => o) := by
  cases s.core.iss.phase with
  | issue => exact hi
  | compute c => exact hc c
theorem checked {t : Option Trap} {f : State → State} (h : s.IssueOnly (f s)) : s.Issues (s.checked t f) := trapOr (.next h)
theorem unstaged {o : Out} (h : s.Issues o) : s.Issues (s.unstaged o) := trapOr h
theorem amo {i : Instr} {d a b : BitVec 5} : s.Issues (s.amo i d a b) := unstaged (.next (.emit .refl))
theorem vrun {f : VF} {i : Instr} {L : Nat} {go : Cap → List Eff} : s.Issues (s.vrun f i L go) :=
  phases (fun _ => .next (.emitAll .refl)) (ite (trapOr (.next (.touch (.emit .refl)))) (.next (.emitAll .refl)))
theorem reduce {f : RF} {i : Instr} {kind : Nat} {square : Bool} : s.Issues (s.reduce f i kind square) :=
  phases (fun _ => .next (.emitAll .refl)) (ite (trapOr (.next (.touch (.emit .refl)))) (.next (.emitAll .refl)))
theorem draw {f : VF} {L : Nat} {g : Nat → Nat} : s.Issues (s.draw f L g) := .next (.emit (.emitDue .refl))
theorem scatter {op : Nat} {i : Instr} {f : LF} : s.Issues (s.scatter op i f) := trapOr (.next (.touch (.ite (.emit .refl) (.emitAll .refl))))
theorem mxResult {md : BitVec 4} {b : MBody} {cost : Nat → Nat} {claim : Option Nat} : s.Issues (s.mxResult md b cost claim) :=
  ite raise (trapOr (.next (.mxLand .refl)))
theorem mload {i : Instr} {f : MF} {rowsN claim : Nat} {body : List (List Nat) → MBody → Nat → MBody} : s.Issues (s.mload i f rowsN claim body) := by
  refine phases (fun c => ?_) (trapOr (.next (.touch (.emit (.emit .refl)))))
  cases c.streams with
  | nil => exact .next .refl
  | cons st _ => exact .next (.emitDue .refl)
theorem mstream {i : Instr} {mk : MF → Instr} {f : MF} {remoteOk : Bool} : s.Issues (s.mstream i mk f remoteOk) := by
  refine phases (fun c => ?_) (trapOr (.next (.clearZ (.touch (.touch (.emit (.emit .refl)))))))
  match c.streams with
  | [] | [_] => exact .next .refl
  | _ :: _ :: _ => exact trapOr (.next (.emitDue .refl))
theorem portStore {f : AF} {okFmt : Nat → Bool} {enc : Stream → List Nat → List Eff × Nat × Nat} {mk : AF → Instr} : s.Issues (s.portStore f okFmt enc mk) :=
  trapOr (.next (.emit (.touch (.emitAll .refl))))
theorem commit {i : Instr} {n : BitVec 3} {k : Nat} : s.Issues (s.commit i n k) := by
  unfold State.commit
  exact checked (.emit (.emit .refl))

/-! The forms that choose by more than a check. -/

theorem vld {f : LF} : s.Issues (execVld f s) := phases (fun _ => .next (.emitDue .refl)) (trapOr (.next (.touch (.ite (.emit .refl) (.ite (.emit .refl) (.emit .refl))))))
theorem vldb {f : LF} : s.Issues (execVldb f s) := phases (fun _ => .next (.emitDue .refl)) (trapOr (.next (.touch (.ite (.emit .refl) (.emit .refl)))))
theorem vst {f : LF} : s.Issues (execVst f s) := trapOr (.next (.touch (.ite (.emit .refl) (.ite .refl (.emit .refl)))))
theorem vpf {f : LF} : s.Issues (execVpf f s) := trapOr (.next (.emit (.ite (.emit .refl) .refl)))
theorem vredst {f : LF} : s.Issues (execVredst f s) := trapOr (.next (.touch (.emit .refl)))
theorem vgath {f : VF} : s.Issues (execVgath f s) := phases (fun _ => .next (.emitDue .refl)) (trapOr (.next (.touch (.emit .refl))))
theorem vrotm {f : VF} : s.Issues (execVrotm f s) := phases (fun _ => .next (.emitDue .refl)) (trapOr (.next (.touch (.emit .refl))))
theorem vpark {f : VF} : s.Issues (execVpark f s) := ite raise (trapOr (.next (.emit (.emit .refl))))
theorem vunpark {f : VF} : s.Issues (execVunpark f s) := phases (fun _ => .next (.emitDue .refl)) (ite (.next .refl) (trapOr (.next (.emit (.emit .refl)))))
theorem vcat {f : VF} : s.Issues (execVcat f s) :=
  phases (fun _ => .next (.emitDue (.emitDue (.emitDue .refl))))
    (ite (trapOr (.next (.touch (.emit (.ite (.emit .refl) (.emit (.emit .refl))))))) (.next (.emit (.ite (.emit .refl) (.emit (.emit .refl))))))
theorem mmul {f : MF} : s.Issues (execMmul f s) := by
  unfold execMmul
  exact mxResult
theorem madd {f : MF} : s.Issues (execMadd f s) := by
  unfold execMadd
  exact mxResult
theorem msub {f : MF} : s.Issues (execMsub f s) := by
  unfold execMsub
  exact mxResult
theorem mscale {f : MF} : s.Issues (execMscale f s) := by
  unfold execMscale
  exact mxResult
theorem mtr {f : MF} : s.Issues (execMtr f s) := by
  unfold execMtr
  exact mxResult
theorem recomp {f : MF} : s.Issues (execRecomp f s) := by
  unfold execRecomp
  exact mxResult
theorem densify {f : MF} : s.Issues (execDensify f s) := by
  unfold execDensify
  exact mxResult
theorem accst {f : AF} : s.Issues (execAccst f s) := by
  unfold execAccst
  exact portStore
theorem accqst {f : AF} : s.Issues (execAccqst f s) := by
  unfold execAccqst
  exact portStore
theorem mmac {f : MF} : s.Issues (execMmac f s) := by
  unfold execMmac
  refine .next (.clearZ ?_)
  split <;> exact .mxLand .refl
theorem ecopy {f : EcopyF} : s.Issues (execEcopy f s) := ite (checked (.emit .refl)) (checked (.emit (.emit .refl)))
theorem radv {h : BitVec 3} {i : Bool} {n : BitVec 8} : s.Issues (execRadv h i n s) := by
  unfold execRadv
  exact checked (.foldl (fun _ _ h => h.emitDue) (.emit .refl))
theorem tsub {n : BitVec 3} {a : BitVec 5} {b : BitVec 6} {p : BitVec 4} : s.Issues (execTsub n a b p s) := by
  unfold execTsub
  refine checked ?_
  dsimp only
  split
  · exact .emit .refl
  · exact .emit (.emit (.emit .refl))
theorem rverd {v : BitVec 2} : s.Issues (execRverd v s) := by
  unfold execRverd
  split
  · exact .next (.emitEnd (.emitEnd (.emit .refl)))
  · exact raise
theorem tlog {a b : BitVec 5} : s.Issues (execTlog a b s) := by
  unfold execTlog
  split
  · exact checked (.emit (.emit .refl))
  · exact raise

end State.Issues

/-- Every slot operation and every branch tree, at its issue and in the computation of its result, fills the issue buffer and does nothing else. -/
theorem exec_issues (i : Instr) (s : State) (h : i.classes ≠ [] ∨ i.tree.isSome = true) : s.Issues (exec i s) := by
  cases i with
  | nop | idle => exact .next .refl
  | add | sub | mul | mulh | div | rem | and | or | xor | sll | srl | sra | slli | srli | srai | min | max | clz | ctz | popc | bext | bins | sel | addsh
  | kset | kget | crrd | addi | andi | ori | xori | movi | movh | lix | cmpeq | cmpeqImm | cmpne | cmpneImm | cmplt | cmpltImm | cmple | cmpleImm
  | cmpltu | cmpltuImm | cmpleu | cmpleuImm | pand | por | pxor | ld | ldacq | pf | mark | fence | l1inv | stld | stget | rclr | balloc | sqset | lyrd =>
    exact .next (.emit .refl)
  | fadd | fmul | fcvt | fcmp | accld | accwr | accclr | accmv => exact .next (.emit (.emit .refl))
  | accadd | accscl => exact .next (.emit (.emit (.emit .refl)))
  | crwr => exact .ite .raise (.next (.emitEnd .refl))
  | br | brx => exact .next (.choose .refl)
  | call => exact .ite (.next (.choose .refl)) (.next (.emit (.choose .refl)))
  | st | strel => exact .unstaged (.next (.emit .refl))
  | amoadd | amoand | amoor | amoxor | amomin | amomax | amoswap | amocas => exact .amo
  | stset | stadv => exact .trapOr (.next (.emit .refl))
  | vld => exact .vld
  | vldb => exact .vldb
  | vst => exact .vst
  | vpf => exact .vpf
  | vredst => exact .vredst
  | vscat | vscadd | vscmax => exact .scatter
  | vadd | vsub | vmul | vfma | vfms | vfnma | vmulh | vmin | vmax | vabs | vneg | vclamp | vrnd | vand | vor | vxor | vnot | vsll | vsrl | vsra
  | vcmpeq | vcmpne | vcmplt | vcmple | vclass | vsel | vmov | vbcast | vins | vext | vcvt | vcvt8 | vquant | vdequant | vpack | vunpk | vshuf
  | vzip | vuzp | vrev | vslide | vexp2 | vlog2 | vrcp | vrsqrt | vsin | vcos | vtanh | vtopk | vtemp =>
    unfold exec
    exact .vrun
  | vgath => exact .vgath
  | vrotm => exact .vrotm
  | vpark => exact .vpark
  | vunpark => exact .vunpark
  | vqraw | vunif | vnorm => exact .draw
  | vcat => exact .vcat
  | rsum | rmax | rmin | rsumsq => exact .reduce
  | rmov => exact .next (.ite (.emit (.emit .refl)) (.emit .refl))
  | mld | mldu | mldv =>
    unfold exec
    exact .mload
  | mst | mstu | mstv | mctl | mfree | macwr => exact .next (.mxLand .refl)
  | mmov => exact .ite (.next (.emit .refl)) .mxResult
  | mmul => exact .mmul
  | madd => exact .madd
  | msub => exact .msub
  | mscale => exact .mscale
  | mtr => exact .mtr
  | recomp => exact .recomp
  | densify => exact .densify
  | mmac => exact .mmac
  | mmacs | mmacr | mmacm => exact .mstream
  | macrd => exact .trapOr (.next (.mxLand .refl))
  | accst => exact .accst
  | accqst => exact .accqst
  | ecopy => exact .ecopy
  | own =>
    simp only [exec_own, execOwn]
    refine .checked ?_
    exact .ite (.emitDue .refl) (.emit .refl)
  | rset =>
    simp only [exec_rset, execRset]
    refine .checked ?_
    exact .ite (.emit .refl) (.emit (.emit .refl))
  | radv => exact .radv
  | rwait | bwait | bwaitImm | lywr =>
    simp only [exec_rwait, exec_bwait, exec_bwaitImm, exec_lywr, execRwait, execBwait, execBwaitImm, State.bwaitFor]
    refine .checked ?_
    exact .emitEnd .refl
  | barr | breset | bfree | rsload | coll | edisp | ecomb | put | get | spawn | jraise | tsstat | tlbinv | aclwr =>
    simp only [exec_barr, exec_breset, exec_bfree, exec_rsload, exec_coll, exec_edisp, exec_ecomb, exec_put, exec_get, exec_spawn,
      exec_jraise, exec_tsstat, exec_tlbinv, exec_aclwr, execBarr, execSpawn, execJraise]
    refine .checked ?_
    exact .emit .refl
  | hxch =>
    simp only [exec_hxch, execHxch]
    refine .checked ?_
    exact .emit (.emit (.ite .refl (.emit .refl)))
  | reshard | sqapp =>
    simp only [exec_reshard, exec_sqapp, execReshard, execSqapp]
    refine .checked ?_
    exact .emit (.emit .refl)
  | yield => exact .next (.emitEnd .refl)
  | done => exact .next (.ite (.emit (.emitEnd (.emit .refl))) (.emitEnd (.emit .refl)))
  | cpost =>
    simp only [exec_cpost, execCpost]
    refine .checked ?_
    exact .ite (.emit (.emit .refl)) (.emit .refl)
  | slice => exact .next (.ite (.emitEnd (.ite (.emitEnd .refl) (.emitEnd (.emitEnd .refl)))) (.ite (.emitEnd .refl) (.emitEnd (.emitEnd .refl))))
  | trap | brk => exact .raise
  | tsub => exact .tsub
  | rverd => exact .rverd
  | tlog => exact .tlog
  | tsload =>
    simp only [exec_tsload, execTsload]
    refine .checked ?_
    exact .ite (.ite (.emit (.emit (.emit .refl))) (.emit (.emit (.emit .refl)))) (.emit (.emit .refl))
  | sqacc | sqrej =>
    unfold exec
    exact .commit
  | ckpt =>
    simp only [exec_ckpt]
    refine .checked ?_
    exact .emitEnd (.emit .refl)
  -- The rest are events: no class holds them and none is a tree.
  | _ => exact h.elim (fun k => absurd (Eq.refl _) k) nofun

/-- Settles O50: a change of the issue buffer alone leaves every other part of the machine. -/
theorem slotOperationsOnlyIssue : Obligations.SlotOperationsOnlyIssue := by
  unfold Obligations.SlotOperationsOnlyIssue
  intro i s hi
  obtain ⟨x, hx⟩ := exec_issues i s hi
  refine ⟨⟨x, hx⟩, fun t ht => ?_⟩
  obtain rfl : s.onIss (fun _ => x) = t := by
    rw [hx] at ht
    injection ht
  exact ⟨rfl, rfl, rfl, rfl, rfl, rfl, rfl, rfl, rfl, rfl, rfl⟩

end Sys2Proof.Machine
end

section
/-! How a repetition settles (R77, R81, R83, R94, R95). -/

namespace Sys2Proof.Machine

/-! Taking a trap. -/

/-- R350: a handler's trap is terminating, whatever it is. -/
theorem State.takeTrap_core (s : State) (t : Trap) :
    (s.takeTrap t).core = { s.core with mode := .stopping (if t.resumable && (s.self.bind Cont.handlerOf).isNone then whyTrap else whyFault) } := by
  unfold State.takeTrap
  cases hh : s.self.bind Cont.handlerOf <;> cases hr : t.resumable <;> simp [hr]

@[simp] theorem State.takeTrap_mem (s : State) (t : Trap) : (s.takeTrap t).mem = s.mem := by
  unfold State.takeTrap
  exact State.onCont_mem ..

/-! What a repetition commits. -/

/-- The focused core with other queues, the counter of identifiers moved on. -/
def State.queued (s : State) (n : Nat) (l q : List QEnt) : State :=
  (s.onClk fun c => { c with nextId := n }).onCore fun c => { c with loadQ := l, storeQ := q }

/-- Queue entries that land fill the queues and do nothing else (R153). -/
theorem State.foldl_land_queue (es : List Eff) (h : ∀ e ∈ es, e.isQueue = true) (s : State) : ∃ n l q, es.foldl State.land s = s.queued n l q := by
  induction es generalizing s with
  | nil => exact ⟨s.clk.nextId, s.core.loadQ, s.core.storeQ, rfl⟩
  | cons e es ih =>
    obtain ⟨n, l, q, he⟩ : ∃ n l q, s.land e = s.queued n l q := by
      have hq : e.isQueue = true := h e (List.mem_cons_self ..)
      unfold Eff.isQueue at hq
      split at hq
      · exact ⟨_, _, _, rfl⟩
      · cases hq
    obtain ⟨n', l', q', hes⟩ := ih (fun e he => h e (List.mem_cons_of_mem _ he)) (s.land e)
    refine ⟨n', l', q', ?_⟩
    rw [List.foldl_cons, hes, he]
    rfl

/-- What of a committed list stands among the effects in flight: all but the queue entries. -/
def inFlight (es : List Pend) : List Pend := es.filter fun p => !p.eff.isQueue

theorem mem_inFlight {es : List Pend} {p : Pend} : p ∈ inFlight es ↔ p ∈ es ∧ p.eff.isQueue = false := by simp [inFlight]

/-- Effects that are committed enter the queues or the list of what is in flight. -/
theorem State.commitEffs_eq (s : State) (es : List Pend) :
    ∃ n l q, s.commitEffs es = (s.queued n l q).onCore fun c => { c with pend := c.pend ++ inFlight es } := by
  obtain ⟨n, l, q, h⟩ := State.foldl_land_queue ((es.filter fun p => p.eff.isQueue).map Pend.eff)
    (fun e he => by
      obtain ⟨p, hp, rfl⟩ := List.mem_map.1 he
      exact (List.mem_filter.1 hp).2) s
  refine ⟨n, l, q, ?_⟩
  rw [State.commitEffs, h]
  rfl

/-- Effects and end-of-bundle writes that are committed are in flight, whatever becomes of the continuation's record and of the issue buffer. -/
theorem State.committed_frame (s : State) (es atEnd : List Pend) (key : Nat) (g : Cont → Cont) (keep : Pend → Bool) :
    let t := (((s.commitEffs es).onCore fun c => { c with pend := c.pend ++ atEnd }).onCont key g).clearIss keep
    t.core.pend = s.core.pend ++ inFlight es ++ atEnd ∧ t.core.ctx = s.core.ctx ∧ t.mem = s.mem := by
  obtain ⟨n, l, q, h⟩ := s.commitEffs_eq es
  simp [State.clearIss, h, State.queued]

/-- The state to which a repetition without a trap commits its effects: a resumption's checks are over, and a SAFE bundle begins the count of SPBOUND anew (R333). -/
def State.untrapped (s : State) : State :=
  let u := (s.onClk fun c => { c with nextId := c.nextId + 1 }).onCont s.selfKey fun c => { c with fixups := none }
  if s.core.iss.safe && s.core.iss.rep == 0 then u.onCore fun c => { c with spCount := 0 } else u

theorem State.untrapped_core (s : State) : s.untrapped.core = { s.core with spCount := if s.core.iss.safe && s.core.iss.rep == 0 then 0 else s.core.spCount } := by
  unfold State.untrapped
  split <;> simp
theorem State.untrapped_mem (s : State) : s.untrapped.mem = s.mem := by
  unfold State.untrapped
  split <;> simp
theorem State.untrapped_now (s : State) : s.untrapped.now = s.now := by
  unfold State.untrapped
  split <;> simp [State.now]

/-! The ways a repetition settles. -/

section Settle
variable {s : State} (hq : s.queuesFull = false)
include hq

/-- R94: a resumable trap withholds its repetition: the trap is taken with the issue buffer cleared. -/
theorem State.settle_withheld {k : Nat} {f : Trap} (hr : s.core.iss.raised = [(k, f)]) (hf : f.resumable = true) :
    s.settle = (((s.onClk fun c => { c with nextId := c.nextId + 1 }).clearIss fun p => decide (p.seq < s.clk.nextId)).onIss fun x => { x with safe := s.core.iss.safe }).takeTrap f := by
  unfold State.settle
  simp [hq, hr, hf, lowestTrap]

/-- R94: what a terminating trap's slot emitted is dropped, with what ends the bundle and the call link. -/
theorem State.settle_terminated {k : Nat} {f : Trap} (hr : s.core.iss.raised = [(k, f)]) (hf : f.resumable = false) :
    ∃ (effs atEnd : List Pend) (u : State), s.settle = u.takeTrap f ∧ (u.core.pend = s.core.pend ++ inFlight effs ++ atEnd ∧ u.core.ctx = s.core.ctx ∧ u.mem = s.mem) ∧
      (∀ p ∈ effs, p.slot ≠ k) ∧ (∀ p ∈ atEnd, p.slot ≠ k) ∧
      ∀ p ∈ s.core.iss.effs, p.slot ≠ k → p.slot ≠ 10 → p.eff ≠ .posted → p.eff.isQueue = false → p ∈ effs := by
  unfold State.settle
  simp only [hq, hr, hf, Bool.false_eq_true, if_false, Bool.not_false, List.filter_cons, List.filter_nil, if_true, lowestTrap, List.foldl_nil, List.any_cons, List.any_nil, Bool.or_false]
  refine ⟨_, _, _, rfl, State.committed_frame (s.onClk fun c => { c with nextId := c.nextId + 1 }) _ _ _ _ _, ?_, ?_, ?_⟩
  · intro p hp
    simp only [List.mem_filter, Bool.and_eq_true, Bool.not_eq_true', beq_eq_false_iff_ne] at hp
    exact hp.2.1.symm
  · intro p hp
    simp only [List.mem_map, List.mem_filter, Bool.and_eq_true, Bool.not_eq_true', beq_eq_false_iff_ne] at hp
    obtain ⟨q, ⟨-, hk, -⟩, rfl⟩ := hp
    exact hk.symm
  · intro p hp hk hlink hposted hqueue
    simp only [List.mem_filter, Bool.and_eq_true, Bool.not_eq_true', beq_eq_false_iff_ne]
    refine ⟨hp, hk.symm, ?_⟩
    split
    next he => rw [he] at hqueue; cases hqueue
    next he => rw [he] at hqueue; cases hqueue
    next he => exact absurd he hposted
    next => exact beq_eq_false_iff_ne.2 hlink
    next => rfl

/-- R95: an earlier repetition commits its effects, and the next follows in the next cycle. -/
theorem State.settle_repeats (hr : s.core.iss.raised = []) (hl : s.core.iss.rep < s.core.iss.lastRep) :
    s.settle = (s.untrapped.commitEffs s.core.iss.effs).onCore fun c =>
      { c with rep := c.rep + 1, issueAt := s.untrapped.now + 1, iss := { Iss.reset with atEnd := s.core.iss.atEnd, safe := s.core.iss.safe } } := by
  unfold State.settle
  simp only [hq, hr, hl, Bool.false_eq_true, if_false, List.filter_nil, if_true, lowestTrap]
  rfl

/-- R77: the last repetition retires its bundle. -/
theorem State.settle_retires (hr : s.core.iss.raised = []) (hl : s.core.iss.rep = s.core.iss.lastRep) (he : s.ending = false) :
    s.settle = (s.untrapped.retire s.core.iss.effs s.core.iss.atEnd s.core.iss.target).clearIss fun _ => false := by
  have hlast : ¬ s.core.iss.rep < s.core.iss.lastRep := hl ▸ Nat.lt_irrefl _
  have hends : s.untrapped.ending = false := by
    unfold State.ending at he ⊢
    rw [s.untrapped_core]
    exact he
  unfold State.settle
  simp only [hq, hr, hlast, Bool.false_eq_true, if_false, List.filter_nil, lowestTrap]
  change (s.untrapped.retire (if s.untrapped.ending then s.core.iss.effs.filter (fun p => p.slot ≠ 10) else s.core.iss.effs) s.core.iss.atEnd
    (if s.untrapped.ending then none else s.core.iss.target)).clearIss (fun _ => false) = _
  rw [hends]
  rfl

end Settle

/-- R81, R83: a retired bundle goes on at its target, two cycles later, or at the next bundle. -/
theorem State.retire_frame (s : State) (es atEnd : List Pend) (target : Option (BitVec 56)) :
    let t := s.retire es atEnd target
    t.core.ctx.pc = target.getD s.nextPc ∧ t.core.lastPc = s.core.ctx.pc ∧ t.core.rep = 0 ∧ t.core.issueAt = s.now + (if target.isSome then 3 else 1) ∧
      (∀ p ∈ es, p.eff.isQueue = false → p ∈ t.core.pend) ∧ t.mem = s.mem := by
  obtain ⟨n, l, q, h⟩ := s.commitEffs_eq es
  unfold State.retire
  rw [h]
  refine ⟨rfl, rfl, rfl, rfl, fun p hp hqueue => ?_, rfl⟩
  exact List.mem_append_left _ (List.mem_append_right _ (mem_inFlight.2 ⟨hp, hqueue⟩))

/-- Settles O51: the four ways a repetition settles, each with what it keeps. -/
theorem repetitionSettles : Obligations.RepetitionSettles := by
  unfold Obligations.RepetitionSettles
  intro s hq i t
  refine ⟨fun k f hr hf => ?_, fun k f hr hf => ?_, fun hr hl he => ?_, fun hr hl => ?_⟩
  · simp only [t, State.settle_withheld hq hr hf, State.takeTrap_core, State.takeTrap_mem, hf, Bool.true_and]
    refine ⟨rfl, rfl, rfl, rfl, rfl, ?_, rfl⟩
    change Mode.stopping (if (s.self.bind Cont.handlerOf).isNone = true then whyTrap else whyFault) = _
    cases s.self.bind Cont.handlerOf <;> rfl
  · obtain ⟨effs, atEnd, u, hu, ⟨hpend, hctx, hmem⟩, heffs, hend, hkept⟩ := State.settle_terminated hq hr hf
    simp only [t, hu, State.takeTrap_core, State.takeTrap_mem, hf, Bool.false_and, Bool.false_eq_true, if_false, hpend, hctx, hmem, List.mem_append, mem_inFlight]
    refine ⟨trivial, ?_, fun p hp hk hlink hposted hqueue => .inl (.inr ⟨hkept p hp hk hlink hposted hqueue, hqueue⟩), trivial, trivial⟩
    rintro p ((hp | ⟨hp, -⟩) | hp)
    · exact .inl hp
    · exact .inr (heffs p hp)
    · exact .inr (hend p hp)
  · obtain ⟨hpc, hlast, hrep, hissue, hpend, hmem⟩ := s.untrapped.retire_frame i.effs i.atEnd i.target
    rw [show t = _ from State.settle_retires hq hr hl he]
    simp only [State.nextPc, s.untrapped_core] at hpc hlast
    exact ⟨hpc, hlast, hrep, hissue.trans (by rw [s.untrapped_now]), hpend, hmem.trans s.untrapped_mem⟩
  · obtain ⟨n, l, q, h⟩ := s.untrapped.commitEffs_eq i.effs
    rw [show t = _ from State.settle_repeats hq hr hl, h]
    have hctx : s.untrapped.core.ctx = s.core.ctx := by rw [s.untrapped_core]
    have hrep : s.untrapped.core.rep = s.core.rep := by rw [s.untrapped_core]
    exact ⟨hctx, congrArg (· + 1) hrep, congrArg (· + 1) s.untrapped_now, s.untrapped_mem⟩

end Sys2Proof.Machine
end

section
/-! The bundle boundary (R87, R342) and the issue of a repetition (R77, R93). -/

namespace Sys2Proof.Machine

/-! BUNDLE_ALIGN. -/

/-- BUNDLE_ALIGN of the address reached: terminating, it names the bundle that led there. -/
def State.alignFault (s : State) : Trap := { cause := cAlign, pc := s.core.lastPc.toNat, addr := s.core.ctx.pc.toNat }

/-- The address reached is no place where a bundle may begin (R87). -/
def State.AddressBad (s : State) : Prop :=
  let k := s.selfKdesc
  let pc := s.core.ctx.pc.toNat
  let w := (pc - k.code) / 4
  pc < k.code ∨ (pc - k.code) % 4 ≠ 0 ∨ k.clen ≤ w ∨
    ∃ b, s.rdV s.die s.ctl.asid.toNat ((k.bmap + w / 8) % 2 ^ 56) 1 = .ok b ∧
      (b.testBit (w % 8) = false ∨ ∃ h, s.fetchWord pc = .ok h ∧ k.clen < w + bundleLen h.toNat)

theorem State.alignTrap_of_bad {s : State} (h : s.AddressBad) : s.alignTrap = some s.alignFault := by
  unfold State.AddressBad at h
  unfold State.alignTrap
  extract_lets k pc w at h
  by_cases hout : pc < k.code ∨ (pc - k.code) % 4 ≠ 0 ∨ k.clen ≤ (pc - k.code) / 4
  · exact if_pos hout
  · rw [if_neg hout]
    obtain hlow | hoff | hend | ⟨b, hb, hbit⟩ := h
    · exact absurd (.inl hlow) hout
    · exact absurd (.inr (.inl hoff)) hout
    · exact absurd (.inr (.inr hend)) hout
    · simp only [show s.rdV s.die s.ctl.asid.toNat ((s.selfKdesc.bmap + (s.core.ctx.pc.toNat - s.selfKdesc.code) / 4 / 8) % 2 ^ 56) 1 = .ok b from hb]
      obtain hclear | ⟨x, hx, hlen⟩ := hbit
      · rw [if_pos (by simpa using hclear)]
        rfl
      · have hend : s.selfKdesc.clen < (s.core.ctx.pc.toNat - s.selfKdesc.code) / 4 + bundleLen x.toNat := hlen
        simp only [show s.fetchWord s.core.ctx.pc.toNat = .ok x from hx, hend, if_true, ite_self]
        rfl

/-- The first check of a boundary after a whole bundle is that of the address (R342). -/
theorem State.boundaryTrap_of_bad {s : State} (hrep : s.core.rep = 0) (h : s.AddressBad) : s.boundaryTrap = some s.alignFault := by
  simp only [State.boundaryTrap, hrep, decide_true, Bool.true_or, if_true, State.alignTrap_of_bad h, firstTrap]

/-! Taking a trap at the boundary. -/

theorem State.atBoundary_run {s : State} (hm : s.core.mode = .run) (ht : s.core.issueAt ≤ s.now) (hrep : s.core.rep = 0) : s.atBoundary = true := by
  simp only [State.atBoundary, hm, ht, hrep, decide_true, Bool.true_and, Bool.true_or]

/-- A trap taken where no wait is held stops the continuation; the rest of its core but the issue buffer stays. -/
theorem State.takeBoundary_run {s : State} (hm : s.core.mode = .run) (t : Trap) :
    ∃ (u : State) (x : Iss), s.takeBoundary t = (u.onIss fun _ => x).takeTrap t ∧ u.core = s.core ∧ u.mem = s.mem ∧ (s.reportTrap = none → u = s) := by
  unfold State.takeBoundary
  extract_lets key u v waited safe
  have hu : u.core = s.core ∧ u.mem = s.mem ∧ (s.reportTrap = none → u = s) := by
    simp only [u]
    split
    next hrep =>
      refine ⟨State.onCont_core .., State.onCont_mem .., fun hnone => ?_⟩
      rw [hnone] at hrep
      cases hrep
    next => exact ⟨rfl, rfl, fun _ => rfl⟩
  have hv : v = u := by simp only [v, hu.1, hm]
  refine ⟨u, { u.core.iss with safe := safe }, ?_, hu⟩
  rw [hv]
  rfl

/-- The trap taken heads the reports of its continuation. -/
theorem State.cont_takeTrap {s : State} {c : Cont} (hc : s.self = some c) {t : Trap} (ht : t.resumable = false) :
    (s.takeTrap t).cont s.selfKey = some { c with reports := t :: c.reports, lastCause := t.cause } := by
  obtain ⟨k, hk, hck⟩ := Option.bind_eq_some_iff.1 hc
  have hkey : s.selfKey = k := by rw [State.selfKey, hk, Option.getD_some]
  have hterm : { t with resumable := false } = t := by rw [← ht]
  unfold State.takeTrap
  rw [hterm, ite_self]
  change (s.onCont s.selfKey _).cont s.selfKey = _
  rw [State.cont_onCont, hkey, hck]
  rfl

/-- R87, R345: the trap of a boundary is taken there and stops the continuation. -/
theorem repetitionIssue_boundaryTrap {s : State} {t : Trap} (ha : s.atBoundary = true) (hb : s.boundaryTrap = some t) : exec .repetitionIssue s = .next (s.takeBoundary t) := by
  simp only [exec_repetitionIssue, execRepetitionIssue, ha, hb, Option.isSome_some, Bool.and_self, if_true]

theorem repetitionIssue_misaligned {s : State} (hm : s.core.mode = .run) (ht : s.core.issueAt ≤ s.now) (hrep : s.core.rep = 0) (h : s.AddressBad) :
    ∃ t, exec .repetitionIssue s = .next t ∧ t.core.mode = .stopping whyFault ∧ t.core.ctx = s.core.ctx ∧ t.core.pend = s.core.pend ∧ t.mem = s.mem ∧
      ∀ c, s.self = some c → c.reports = [] → ∃ d, t.cont s.selfKey = some d ∧ d.reports = [s.alignFault] := by
  obtain ⟨u, x, htake, hcore, hmem, hu⟩ := State.takeBoundary_run hm s.alignFault
  refine ⟨_, repetitionIssue_boundaryTrap (State.atBoundary_run hm ht hrep) (State.boundaryTrap_of_bad hrep h), ?_⟩
  rw [htake, State.takeTrap_core, State.takeTrap_mem]
  have hctx : u.core.ctx = s.core.ctx := by rw [hcore]
  have hpend : u.core.pend = s.core.pend := by rw [hcore]
  refine ⟨rfl, hctx, hpend, hmem, fun c hc hnone => ?_⟩
  have hreport : s.reportTrap = none := by simp only [State.reportTrap, hc, Option.bind_some, hnone, List.head?_nil, Option.map_none]
  obtain rfl := hu hreport
  exact ⟨_, State.cont_takeTrap (s := u.onIss fun _ => x) hc rfl, by rw [hnone]⟩

/-! The issue of a repetition. -/

/-- The instruction cache alone takes the lines of a fetched bundle (R282). -/
theorem State.fillCode_eq (s : State) (n : Nat) : ∃ l, s.fillCode n = s.onCore fun c => { c with l1i := l } := by
  unfold State.fillCode
  extract_lets pc
  generalize [pc, (pc + 4 * (n - 1)) % 2 ^ 56] = vas
  induction vas generalizing s with
  | nil => exact ⟨s.core.l1i, rfl⟩
  | cons va vas ih =>
    rw [List.foldl_cons]
    split
    · obtain ⟨l, hl⟩ := ih (s.onCore fun c => { c with l1i := _ })
      exact ⟨l, hl⟩
    · exact ih s

/-- A repetition that nothing holds or traps goes into the issue buffer as its plan has it. -/
theorem repetitionIssue_arms {s : State} {ws : List (BitVec 32)} {p : Plan} (hm : s.core.mode = .run) (ht : s.core.issueAt ≤ s.now) (hrep : s.core.rep = 0)
    (hw : s.core.words = []) (hb : s.boundaryTrap = none) (hn : s.nextWords = .ok ws) (ho : (s.fillCode ws.length).waitOver = true)
    (hp : (s.fillCode ws.length).plan ws = .ok p) (htrap : (s.fillCode ws.length).planTrap ws p = none) (hh : (s.fillCode ws.length).planHold p = false) :
    exec .repetitionIssue s = .next ((s.fillCode ws.length).arm ws p) := by
  have hwait : ¬(s.core.mode ≠ .run ∨ s.now < s.core.issueAt) := by
    rintro (h | h)
    · exact h hm
    · omega
  simp [exec_repetitionIssue, execRepetitionIssue, hb, hwait, hrep, hw, hn, ho, hp, htrap, hh]

/-- Settles O52: a bad address is the first check of the boundary; a repetition with nothing against it is armed. -/
theorem bundleBoundary : Obligations.BundleBoundary := by
  unfold Obligations.BundleBoundary
  constructor
  · intro s k pc w bad hm ht hrep h
    exact ⟨State.boundaryTrap_of_bad hrep h, repetitionIssue_misaligned hm ht hrep h⟩
  · intro s ws p hm ht hrep hw hb hn ho hp htrap hh
    obtain ⟨l, hl⟩ := s.fillCode_eq ws.length
    refine ⟨_, repetitionIssue_arms hm ht hrep hw hb hn ho hp htrap hh, ?_⟩
    rw [hl]
    exact ⟨rfl, rfl, hrep, rfl, rfl, rfl, rfl, rfl⟩

end Sys2Proof.Machine
end

section
/-! Vector loads and stores on AMEM (R162, R163, R167). -/

namespace Sys2Proof.Machine

/-- R148: a form that reads one section refuses an index stream, once the stream's own checks pass (log entry 10). -/
theorem State.sectTrap_of_idx {s : State} {n : BitVec 5} {a : Accessor} (hi : (s.rst n).idx = true) (h : s.streamTrap n a = none) (bytes : Nat) :
    s.sectTrap n a bytes = some (accessFault 0x04 (s.rst n).addr n.toNat) := by
  simp only [State.sectTrap, h, hi, firstTrap, if_true]

/-- On AMEM a stage continuation stores as any other (R263). -/
theorem State.stageStore_amem {s : State} {n : BitVec 5} (h : (s.rst n).space = 0) : s.stageStore n = none := by
  simp only [State.stageStore, h, Nat.reduceEqDiff, if_false]

section Issue
variable {s : State} {f : LF}

theorem lfUnit_direct {st : Stream} (h : st.idx = false) : lfUnit st f = f.w.bits / 8 := by
  simp only [lfUnit, h, Bool.false_eq_true, if_false]

theorem lfUnit_index {st : Stream} (h : st.idx = true) : lfUnit st f = lfN f := by
  simp only [lfUnit, h, if_true]

/-- The rows that `vld` notes lane by lane are those of its lanes' addresses. -/
theorem State.laneAddrs_map (s : State) (f : LF) (g : Nat → RowRead) :
    ((s.laneAddrs f).map fun a => if a = 0 then none else some (g (a - 1))) =
      (List.range (lfN f)).map fun j => if (s.rk f.k).getLsbD j then (s.elemAddr (s.rst f.st) (lfE f) j).map g else none := by
  simp only [State.laneAddrs, List.map_map]
  refine List.map_congr_left fun j _ => ?_
  simp only [Function.comp_apply]
  split
  · cases s.elemAddr (s.rst f.st) (lfE f) j with
    | none => rfl
    | some x => simp
  · rfl

variable (hp : s.core.iss.phase = .issue)
include hp

theorem vld_direct (hi : (s.rst f.st).idx = false) (hsp : (s.rst f.st).space = 0) (ht : s.sectTrap f.st .lsRead (f.w.bits / 8) = none) :
    exec (.vld f) s = .next ((s.emit 2 (.calc (.vld f) (s.lfCap f [s.sectRead f.st (f.w.bits / 8)]))).touch f.st (f.w.bits / 8)) := by
  simp [execVld, hp, hi, hsp, ht, lfUnit_direct hi]

theorem vld_index (hv : (s.rst f.st).valid = true) (hi : (s.rst f.st).idx = true) (hsp : (s.rst f.st).space = 0)
    (ht : s.idxTrap f.st .lsRead (f.t.bits / 8) (s.lfLanes f) = none) :
    exec (.vld f) s = .next ((s.emit 2 (.calc (.vld f) { s.lfCap f ((List.range (lfN f)).map fun j =>
      if (s.rk f.k).getLsbD j then (s.elemAddr (s.rst f.st) (f.t.bits / 8) j).map fun a => { wmem := false, core := s.cid, addr := a, bytes := f.t.bits / 8 } else none)
        with aux := [1] })).touch f.st (lfN f)) := by
  have hreads := s.laneAddrs_map f fun a => { wmem := false, core := s.cid, addr := a, bytes := f.t.bits / 8 }
  simp only [lfE] at hreads
  simp [execVld, hp, hv, hi, hsp, ht, hreads, lfUnit_index hi, lfE]

theorem vldb_direct (hsp : (s.rst f.st).space = 0) (ht : s.sectTrap f.st .lsRead (f.t.bits / 8) = none) :
    exec (.vldb f) s = .next ((s.emit 2 (.calc (.vldb f) (s.lfCap f [s.sectRead f.st (f.t.bits / 8)]))).touch f.st (f.t.bits / 8)) := by
  simp [execVldb, hp, hsp, ht, lfE]

theorem vld_sectTrap (hi : ((s.rst f.st).valid && (s.rst f.st).idx) = false) (t : Trap) (ht : s.sectTrap f.st .lsRead (f.w.bits / 8) = some t) : Raises (.vld f) s t := by
  simp [Raises, execVld, hp, hi, ht]

theorem vld_idxTrap (hv : (s.rst f.st).valid = true) (hi : (s.rst f.st).idx = true) (t : Trap) (ht : s.idxTrap f.st .lsRead (f.t.bits / 8) (s.lfLanes f) = some t) :
    Raises (.vld f) s t := by
  simp [Raises, execVld, hp, hv, hi, ht, lfE]

theorem vldb_trap (t : Trap) (ht : s.sectTrap f.st .lsRead (f.t.bits / 8) = some t) : Raises (.vldb f) s t := by
  simp [Raises, execVldb, hp, ht, lfE]

omit hp

theorem vst_trap (t : Trap) (ht : s.sectTrap f.st .lsWrite (f.w.bits / 8) = some t) : Raises (.vst f) s t := by
  simp [Raises, execVst, ht, orTrap]

/-- R147: a store out of range in mode ZERO is discarded, and its stream steps. -/
theorem vst_amem (hi : (s.rst f.st).idx = false) (hsp : (s.rst f.st).space = 0) (ht : s.sectTrap f.st .lsWrite (f.w.bits / 8) = none) :
    exec (.vst f) s = .next ((if (s.rst f.st).zeroed then s else
      s.emit 2 (sectWrite (s.rst f.st).diag ((s.rst f.st).addrOf 0) (f.w.bits / 8) (lfMask f (s.rk f.k)).toNat (s.rv f.v).toNat)).touch f.st (f.w.bits / 8)) := by
  simp [execVst, hsp, ht, orTrap, State.stageStore_amem hsp, lfUnit_direct hi]

end Issue

/-- Settles O10: each form at issue by its checks and its kind of stream, then the two loads that compute from their samples. -/
theorem vectorMemoryForms : Obligations.VectorMemoryForms := by
  unfold Obligations.VectorMemoryForms
  intro s f hp st wb e
  refine ⟨fun hi hsp => ⟨vld_direct hp hi hsp, vldb_direct hp hsp, fun ht hz => ?_, fun ht hz => ?_⟩, fun hi => vld_sectTrap hp hi, vldb_trap hp, vst_trap,
    fun hv hi => ⟨vld_idxTrap hp hv hi, fun ht hsp => vld_index hp hv hi hsp ht, fun ht => vldb_trap hp _ (State.sectTrap_of_idx hi ht _), fun ht => vst_trap _ (State.sectTrap_of_idx hi ht _)⟩,
    fun c u hc => ⟨?_, ?_⟩⟩
  · rw [vst_amem hi hsp ht, if_neg (by simpa using hz)]
  · rw [vst_amem hi hsp ht, if_pos hz]
  · simp only [exec_vld, execVld, hc]
  · simp only [exec_vldb, execVldb, hc, lfN, lanesIn]

end Sys2Proof.Machine
end

section
/-! A step and the errors of matrix registers (R352). -/

namespace Sys2Proof.Machine

open Sys2Proof.Tests

/-- The loader's machine with a slice left. -/
def sliced : State := kern.onCtl fun c => { c with budget := 1 }

/-- A core at reset but for an uncorrectable error in matrix register 0. -/
def mrfFlawed : State := State.reset.onCore fun c => { c with mrfBad := [0] }

/-- An operation that reads the bad register raises MACHINE_CHECK, though no row of a scratchpad or of ACC is bad. -/
theorem raiseFlaw_mrf : (raiseFlaw (.mmov { md := 1, ma := 0, mb := 0, bank := 0, fmt := 0, mods := 0 }) mrfFlawed).core.iss.raised.length = 1 := by decide +kernel

/-- Refutes O55: with no bad row in a scratchpad and in ACC a slot still raises MACHINE_CHECK where it reads a matrix register with an uncorrectable error; the loader's bundle meets every hypothesis. -/
theorem not_stepRunsTheDecodedBundle : ¬ Obligations.StepRunsTheDecodedBundle := by
  unfold Obligations.StepRunsTheDecodedBundle
  intro h
  obtain ⟨hmode, htime, hrep, hwords, hnone, hnext, hwait, hplan, htrap, hhold, -, -, -⟩ := witness_BundleBoundary_issue
  obtain ⟨-, -, hgate, -, -, hlen, hload, hstore, hsp, hbudget, hmark, -, -⟩ := witness_StepRunsTheDecodedBundle
  have htwo : (wordsOf turned).length = 2 := by decide +kernel
  have hfetched : turned.fillCode (wordsOf turned).length = fetched := by rw [htwo, fetched]
  have hall := h sliced 0 [] (wordsOf turned) (planOf turned) (by decide +kernel) (by decide +kernel) hmode hgate htime hrep hwords hload hstore hsp hbudget hmark hnone hnext
    (hfetched ▸ hwait) (hfetched ▸ hplan) hlen (hfetched ▸ htrap) (hfetched ▸ hhold)
  have hsame := hall.2.2 (.mmov { md := 1, ma := 0, mb := 0, bank := 0, fmt := 0, mods := 0 }) mrfFlawed rfl rfl
  exact absurd (raiseFlaw_mrf.symm.trans (congrArg (fun t : State => t.core.iss.raised.length) hsame)) (by decide +kernel)

end Sys2Proof.Machine
end

section
/-! Scalar integer and bit forms, division, compares and predicates at issue (R101, R117 to R125, R129 to R131). -/

namespace Sys2Proof.Machine

/-! One result (R114). -/

/-- A form that lands a scalar emits it, in whatever way its value is written. -/
theorem emits_sreg {s : State} {i : Instr} {d : BitVec 5} {v w : BitVec 64} (h : exec i s = s.putS d v) (e : v = w) : Emits i s [(1, .sreg d w)] := by
  rw [Emits, h, e]
  rfl

/-- A form that lands a predicate emits it, in whatever way its relation is written. -/
theorem emits_preg {s : State} {i : Instr} {p : BitVec 4} {v w : Bool} (h : exec i s = s.putP p v) (e : v = w) : Emits i s [(1, .preg p w)] := by
  rw [Emits, h, e]
  rfl

/-! Division (R118). -/

@[simp] theorem divRem_zero (u : Bool) (a : BitVec 64) : divRem u a 0 = (BitVec.allOnes 64, a) := rfl

theorem divRem_unsigned (a : BitVec 64) {b : BitVec 64} (hb : b ≠ 0) :
    divRem true a b = (BitVec.ofNat 64 (a.toNat / b.toNat), BitVec.ofNat 64 (a.toNat - a.toNat / b.toNat * b.toNat)) := by
  simp only [divRem, hb, if_false, if_true, Nat.mod_eq_sub_div_mul]

theorem divRem_overflow {a b : BitVec 64} (ha : a.toInt = -2 ^ 63) (hb : b.toInt = -1) : divRem false a b = (BitVec.ofInt 64 (-2 ^ 63), 0) := by
  have hne : b ≠ 0 := by
    rintro rfl
    cases hb
  simp only [divRem, hne, ha, hb, and_self, if_true, if_false, Bool.false_eq_true]

theorem divRem_signed {a b : BitVec 64} (hb : b ≠ 0) (h : ¬(a.toInt = -2 ^ 63 ∧ b.toInt = -1)) :
    divRem false a b = (BitVec.ofInt 64 (Int.tdiv a.toInt b.toInt), BitVec.ofInt 64 (a.toInt - Int.tdiv a.toInt b.toInt * b.toInt)) := by
  simp only [divRem, hb, h, if_false, Bool.false_eq_true]

/-- Both forms land their half of one division. -/
theorem emits_div_rem {s : State} {d a b : BitVec 5} {u : Bool} {q r : BitVec 64} (h : divRem u (s.rs a) (s.rs b) = (q, r)) :
    Emits (.div d a b u) s [(1, .sreg d q)] ∧ Emits (.rem d a b u) s [(1, .sreg d r)] :=
  ⟨emits_sreg (exec_div ..) (congrArg Prod.fst h), emits_sreg (exec_rem ..) (congrArg Prod.snd h)⟩

/-- Settles O2: each of the four corners is one value of quotient and remainder. -/
theorem divisionForms : Obligations.DivisionForms := by
  unfold Obligations.DivisionForms
  intro s d a b u
  refine ⟨fun hz => emits_div_rem ?_, fun ha hb => emits_div_rem (divRem_overflow ha hb), fun hb h => ⟨_, rfl, emits_div_rem (divRem_signed hb h)⟩,
    fun hb => ⟨_, rfl, emits_div_rem (divRem_unsigned _ hb)⟩⟩
  rw [hz, divRem_zero]

/-! Arithmetic and order (R117, R122). -/

/-- The unsigned product lies in the naturals, so its high half does. -/
theorem ofInt_mulhProd_uu (a b : BitVec 64) : BitVec.ofInt 64 (mulhProd .uu a b / 2 ^ 64) = BitVec.ofNat 64 (a.toNat * b.toNat / 2 ^ 64) := by
  rw [← BitVec.ofInt_natCast, mulhProd]
  norm_cast

/-- The smaller by either order, the first operand of two alike. -/
theorem min_of_lessU (u : Bool) (a b : BitVec 64) :
    (if lessU u b a then b else a) = if u then (if a.toNat ≤ b.toNat then a else b) else if a.toInt ≤ b.toInt then a else b := by
  cases u <;> simp only [lessU, Bool.false_eq_true, if_false, if_true, decide_eq_true_eq, ← not_le, ite_not]

/-- The larger by either order, the first operand of two alike. -/
theorem max_of_lessU (u : Bool) (a b : BitVec 64) :
    (if lessU u a b then b else a) = if u then (if b.toNat ≤ a.toNat then a else b) else if b.toInt ≤ a.toInt then a else b := by
  cases u <;> simp only [lessU, Bool.false_eq_true, if_false, if_true, decide_eq_true_eq, ← not_le, ite_not]

theorem shiftLeft_eq_mul_two_pow (x : BitVec 64) (n : Nat) : x <<< n = x * 2 ^ n := by
  refine BitVec.eq_of_toNat_eq ?_
  simp [BitVec.toNat_shiftLeft, BitVec.toNat_mul, BitVec.toNat_pow, Nat.shiftLeft_eq]

/-! Counts and bit fields (R119, R120). -/

/-- Both zero counts: the place of the first bit that is set, the number of places where none is. -/
theorem range_find?_getD_spec (p : Nat → Bool) (n : Nat) :
    let k := ((List.range n).find? p).getD n
    k ≤ n ∧ (∀ i, i < k → p i = false) ∧ (k < n → p k = true) := by
  obtain ⟨hnone, hall⟩ | ⟨i, hsome, hi, hp, hlt⟩ := range_find?_none_or_least p n
  · rw [hnone]
    exact ⟨le_rfl, hall, fun h => absurd h (lt_irrefl _)⟩
  · rw [hsome]
    exact ⟨hi.le, hlt, fun _ => hp⟩

theorem popc64_eq_countP (x : BitVec 64) : popc64 x = (List.range 64).countP fun i => x.getLsbD i := List.countP_eq_length_filter.symm

/-- `bins` replaces the field and keeps the bits around it. -/
theorem getLsbD_binsVal (d a : BitVec 64) (l p : BitVec 6) {i : Nat} (hi : i < 64) :
    (binsVal d a l p).getLsbD i = if p.toNat ≤ i ∧ i < p.toNat + fieldLen l p then a.getLsbD (i - p.toNat) else d.getLsbD i := by
  have hmask : (BitVec.ofNat 64 ((2 ^ fieldLen l p - 1) * 2 ^ p.toNat)).getLsbD i = decide (p.toNat ≤ i ∧ i < p.toNat + fieldLen l p) := by
    rw [BitVec.getLsbD_ofNat, Nat.testBit_mul_two_pow, Nat.testBit_two_pow_sub_one]
    grind
  rw [binsVal, getLsbD_mixBits, hmask]
  by_cases h : p.toNat ≤ i ∧ i < p.toNat + fieldLen l p
  · have hin : i - p.toNat < fieldLen l p := by omega
    rw [if_pos (decide_eq_true h), if_pos h, BitVec.getLsbD_ofNat, Nat.testBit_mul_two_pow]
    simp [h, hi, hin, bits, BitVec.testBit_toNat]
  · simp [h]

/-! Halves of a lane mask (R125). -/

theorem emits_kset_low (s : State) (k : BitVec 3) (a : BitVec 5) :
    Emits (.kset k a false) s [(1, .kreg k (BitVec.ofNat 128 (2 ^ 64 - 1)) ((s.rs a).setWidth 128))] := by
  have hmask : (BitVec.allOnes 64).setWidth 128 <<< (64 * b2n false) = BitVec.ofNat 128 (2 ^ 64 - 1) := by decide
  have hval : (s.rs a).setWidth 128 <<< (64 * b2n false) = (s.rs a).setWidth 128 := BitVec.shiftLeft_zero _
  rw [Emits, exec_kset, execKset, hmask, hval]
  rfl

theorem emits_kset_high (s : State) (k : BitVec 3) (a : BitVec 5) :
    Emits (.kset k a true) s [(1, .kreg k (BitVec.ofNat 128 ((2 ^ 64 - 1) * 2 ^ 64)) ((s.rs a).setWidth 128 <<< 64))] := by
  have hmask : (BitVec.allOnes 64).setWidth 128 <<< (64 * b2n true) = BitVec.ofNat 128 ((2 ^ 64 - 1) * 2 ^ 64) := by decide
  rw [Emits, exec_kset, execKset, hmask]
  rfl

/-- Settles O1: most forms are their written value; the others by the product, the order, the counts and the fields. -/
theorem scalarIntegerAndBitForms : Obligations.ScalarIntegerAndBitForms := by
  unfold Obligations.ScalarIntegerAndBitForms
  constructor
  · intro s d a b n
    exact ⟨rfl, rfl, rfl, rfl, emits_sreg (exec_mulh ..) (ofInt_mulhProd_uu ..), rfl, rfl, rfl, rfl, rfl, rfl, rfl, rfl, rfl, rfl,
      emits_sreg (exec_min ..) (min_of_lessU false ..), emits_sreg (exec_min ..) (min_of_lessU true ..),
      emits_sreg (exec_max ..) (max_of_lessU false ..), emits_sreg (exec_max ..) (max_of_lessU true ..)⟩
  · intro s d a b
    exact ⟨⟨clz64 (s.rs a), rfl, range_find?_getD_spec ..⟩, ⟨ctz64 (s.rs a), rfl, range_find?_getD_spec ..⟩, emits_sreg (exec_popc ..) (congrArg _ (popc64_eq_countP _)),
      fun l p => ⟨fieldLen l p, rfl, rfl, rfl, binsVal (s.rs d) (s.rs a) l p, rfl, fun i hi => getLsbD_binsVal _ _ l p hi⟩, fun _ _ => rfl,
      fun h => emits_sreg (exec_addsh ..) (congrArg _ (shiftLeft_eq_mul_two_pow ..)), fun _ => ⟨rfl, rfl, rfl, rfl, rfl, rfl⟩, fun _ _ => ⟨rfl, rfl⟩,
      fun k => ⟨emits_kset_low s k a, emits_kset_high s k a, rfl, rfl⟩⟩

/-! Compares (R129, R130). -/

theorem toInt_signExtend_imm (i : BitVec 10) : (i.signExtend 64).toInt = i.toInt := BitVec.toInt_signExtend_of_le (by decide)

theorem eq_signExtend_imm (a : BitVec 64) (i : BitVec 10) : a = i.signExtend 64 ↔ a.toInt = i.toInt := by
  rw [← BitVec.toInt_inj, toInt_signExtend_imm]

theorem toNat_setWidth_imm (i : BitVec 10) : (i.setWidth 64).toNat = i.toNat := BitVec.toNat_setWidth_of_le (by decide)

/-- R130, R171: three relations of `fcmp` are those of the vector compare on binary32. -/
theorem fcmpVal_eq_eltRel (a b : Nat) : fcmpVal 0 a b = eltRel 0 .f32 a b ∧ fcmpVal 1 a b = eltRel 2 .f32 a b ∧ fcmpVal 2 a b = eltRel 3 .f32 a b :=
  ⟨rfl, rfl, rfl⟩

theorem fcmp_relation_cases (r : BitVec 2) : r = 0 ∨ r = 1 ∨ r = 2 ∨ r = 3 := by
  revert r
  decide

/-- R130: NV is for a signalling NaN and, of `lt` and `le`, for every NaN. -/
theorem fcmpVal_flags (r : BitVec 2) (a b : Nat) :
    let x := unpack f32 a
    let y := unpack f32 b
    flagBits (fcmpVal r.toNat a b).2 = if (if r = 1 ∨ r = 2 then x.isNan || y.isNan else x.isSig || y.isSig) then 1#6 else 0#6 := by
  intro x y
  have hflag (c : Bool) : flagBits (if c then flNV else 0) = if c then 1#6 else 0#6 := by cases c <;> rfl
  rw [← hflag]
  rcases fcmp_relation_cases r with rfl | rfl | rfl | rfl <;> rfl

section FloatingCompare
variable {r : BitVec 2} {a b : Nat} (hr : r ≠ 3)
include hr

/-- R130: with a NaN none of the ordered relations holds. -/
theorem fcmpVal_nan (hn : ((unpack f32 a).isNan || (unpack f32 b).isNan) = true) : (fcmpVal r.toNat a b).1 = false := by
  obtain ⟨heq, hlt, hle⟩ := fcmpVal_eq_eltRel a b
  have hnan {k : Nat} (hk : k < 4) := eltRel_nan (t := .f32) rfl hn hk
  rcases fcmp_relation_cases r with rfl | rfl | rfl | rfl
  · exact (congrArg Prod.fst heq).trans (hnan (by decide))
  · exact (congrArg Prod.fst hlt).trans (hnan (by decide))
  · exact (congrArg Prod.fst hle).trans (hnan (by decide))
  · exact absurd rfl hr

/-- R130: numbers compare by their order. -/
theorem fcmpVal_number (hn : ((unpack f32 a).isNan || (unpack f32 b).isNan) = false) :
    let m := f32.orderKey a
    let n := f32.orderKey b
    (fcmpVal r.toNat a b).1 = if r = 0 then decide (m = n) else if r = 1 then decide (m < n) else decide (m ≤ n) := by
  obtain ⟨heq, hlt, hle⟩ := fcmpVal_eq_eltRel a b
  obtain ⟨hordEq, -, hordLt, hordLe⟩ := eltRel_number (t := .f32) rfl hn
  rcases fcmp_relation_cases r with rfl | rfl | rfl | rfl
  · exact (congrArg Prod.fst heq).trans hordEq
  · exact (congrArg Prod.fst hlt).trans hordLt
  · exact (congrArg Prod.fst hle).trans hordLe
  · exact absurd rfl hr

end FloatingCompare

/-- Settles O3: each compare is its relation on the registers' values, `fcmp` by the order of numbers and its NaN cases. -/
theorem comparesAndPredicates : Obligations.ComparesAndPredicates := by
  unfold Obligations.ComparesAndPredicates
  intro s p a b i
  refine ⟨rfl, rfl, rfl, rfl, rfl, rfl, emits_preg (exec_cmpeqImm ..) (decide_eq_decide.2 (eq_signExtend_imm ..)),
    emits_preg (exec_cmpneImm ..) (decide_eq_decide.2 (not_congr (eq_signExtend_imm ..))), emits_preg (exec_cmpltImm ..) ?_, emits_preg (exec_cmpleImm ..) ?_,
    emits_preg (exec_cmpltuImm ..) ?_, emits_preg (exec_cmpleuImm ..) ?_, fun _ _ _ _ => ⟨rfl, rfl, rfl⟩, fun r => ?_, rfl, rfl⟩
  · rw [toInt_signExtend_imm]
  · rw [toInt_signExtend_imm]
  · rw [toNat_setWidth_imm]
  · rw [toNat_setWidth_imm]
  · refine ⟨(fcmpVal r.toNat (s.rs32 a) (s.rs32 b)).1, _, ?_, ?_, fcmpVal_nan, fcmpVal_number, rfl⟩
    · rw [← fcmpVal_flags]
      rfl
    · rintro rfl
      rfl

end Sys2Proof.Machine
end

section
/-! Fields of a stream image, and STEP as the walk of its position (R139, R142). -/

namespace Sys2Proof.Machine

theorem bits_testBit (x lo n j : Nat) : (bits x lo n).testBit j = (decide (j < n) && x.testBit (lo + j)) := by
  rw [bits, Nat.testBit_mod_two_pow, Nat.testBit_div_two_pow, Nat.add_comm j]

/-- The mask of n bits from bit k on. -/
theorem shiftedOnes_testBit (k n j : Nat) : ((2 ^ n - 1) * 2 ^ k).testBit j = decide (k ≤ j ∧ j < k + n) := by
  rw [Nat.testBit_mul_two_pow, Nat.testBit_two_pow_sub_one, ← Bool.decide_and]
  exact decide_eq_decide.2 (by omega)

/-! Fields. -/

theorem Stream.f_lt (st : Stream) (byte n : Nat) : st.f byte n < 2 ^ (8 * n) := Nat.mod_lt _ (Nat.two_pow_pos _)

theorem Stream.setField_getLsbD (st : Stream) (byte n v j : Nat) : (st.setField byte n v).img.getLsbD j =
    if j < 512 ∧ 8 * byte ≤ j ∧ j < 8 * byte + 8 * n then v.testBit (j - 8 * byte) else st.img.getLsbD j := by
  rw [Stream.setField, getLsbD_mixBits, BitVec.getLsbD_ofNat, BitVec.getLsbD_ofNat, shiftedOnes_testBit, Nat.testBit_mul_two_pow, Nat.testBit_mod_two_pow]
  by_cases h : j < 512 ∧ 8 * byte ≤ j ∧ j < 8 * byte + 8 * n
  · obtain ⟨hj, hlo, hhi⟩ := h
    simp [hj, hlo, hhi, show j - 8 * byte < 8 * n by omega]
  · simp [h]

theorem Stream.f_setField (st : Stream) {byte n : Nat} (h : byte + n ≤ 64) (v : Nat) : (st.setField byte n v).f byte n = v % 2 ^ (8 * n) := by
  refine Nat.eq_of_testBit_eq fun j => ?_
  rw [Stream.f, bits_testBit, BitVec.testBit_toNat, Stream.setField_getLsbD, Nat.testBit_mod_two_pow]
  by_cases hj : j < 8 * n
  · rw [if_pos (by omega), Nat.add_sub_cancel_left]
  · simp [hj]

theorem Stream.f_setField_ne (st : Stream) {byte n b m : Nat} (h : b + m ≤ byte ∨ byte + n ≤ b) (v : Nat) : (st.setField byte n v).f b m = st.f b m := by
  refine Nat.eq_of_testBit_eq fun j => ?_
  rw [Stream.f, Stream.f, bits_testBit, bits_testBit, BitVec.testBit_toNat, BitVec.testBit_toNat, Stream.setField_getLsbD]
  by_cases hj : j < 8 * m
  · rw [if_neg (by omega)]
  · simp [hj]

/-- The last write of a field counts. -/
theorem Stream.setField_setField (st : Stream) (byte n v w : Nat) : ((st.setField byte n v).setField byte n w) = st.setField byte n w := by
  have himg : ((st.setField byte n v).setField byte n w).img = (st.setField byte n w).img := by
    refine BitVec.eq_of_getLsbD_eq fun j _ => ?_
    simp only [Stream.setField_getLsbD]
    split <;> rfl
  exact congrArg (fun x => { st with img := x }) himg

theorem Stream.cpos_setCpos (st : Stream) {v : Nat} (h : v < 2 ^ 16) : (st.setCpos v).cpos = v :=
  (st.f_setField (by decide) v).trans (Nat.mod_eq_of_lt h)

@[simp] theorem Stream.cext_setCpos (st : Stream) (v : Nat) : (st.setCpos v).cext = st.cext := st.f_setField_ne (by decide) v

theorem Stream.ext_setCpos (st : Stream) {d : Nat} (h : d < 3) (v : Nat) : (st.setCpos v).ext d = st.ext d := st.f_setField_ne (by omega) v

/-! STEP. -/

/-- A walk of n from a position p + C · K: the place in the run of C, and the carry into the K above it. -/
theorem add_mul_add_mod {C : Nat} (hC : 0 < C) (p K n M : Nat) : (p + C * K + n) % (C * M) = (p + n) % C + C * ((K + (p + n) / C) % M) := by
  rw [Nat.add_right_comm, Nat.mod_mul, Nat.add_mul_mod_self_left, Nat.add_mul_div_left _ _ hC, Nat.add_comm _ K]

theorem Stream.zeroMod_eq_false {st : Stream} (h : st.zeroMod = false) :
    0 < st.cext ∧ (st.idx = false → 0 < st.ext 0 ∧ 0 < st.ext 1 ∧ 0 < st.ext 2) := by
  simp only [Stream.zeroMod, Bool.or_eq_false_iff, Bool.and_eq_false_iff, beq_eq_false_iff_ne, Bool.not_eq_false'] at h
  obtain ⟨hc, he⟩ := h
  refine ⟨Nat.pos_of_ne_zero hc, fun hi => ?_⟩
  rcases he with he | ⟨⟨h0, h1⟩, h2⟩
  · simp [hi] at he
  · exact ⟨Nat.pos_of_ne_zero h0, Nat.pos_of_ne_zero h1, Nat.pos_of_ne_zero h2⟩

/-- A position below an extent fits its register. -/
theorem Stream.toNat_mod_ext (st : Stream) {d : Nat} (h : 0 < st.ext d) (t : Nat) : (BitVec.ofNat 32 (t % st.ext d)).toNat = t % st.ext d := by
  have hext : st.ext d < 2 ^ 16 := st.f_lt (0x14 + 2 * d) 2
  have ht := Nat.mod_lt t h
  exact Nat.mod_eq_of_lt (by omega)

/-- STEP of an index stream (R142). -/
theorem Stream.step_index {st : Stream} (h : st.idx = true) (n : Nat) : st.step n = { st with pos0 := BitVec.ofNat 32 ((st.posd 0 + n) % st.cext) } := if_pos h

section Direct
variable {st : Stream} (hi : st.idx = false)
include hi

theorem Stream.img_step (n : Nat) : (st.step n).img = (st.setCpos ((st.cpos + n) % st.cext)).img := by
  simp only [Stream.step, hi, Bool.false_eq_true, if_false]

theorem Stream.valid_step (n : Nat) : (st.step n).valid = st.valid := by
  simp only [Stream.step, hi, Bool.false_eq_true, if_false]
  rfl

theorem Stream.lygen_step (n : Nat) : (st.step n).lygen = st.lygen := by
  simp only [Stream.step, hi, Bool.false_eq_true, if_false]
  rfl

theorem Stream.f_step (n byte m : Nat) : (st.step n).f byte m = (st.setCpos ((st.cpos + n) % st.cext)).f byte m := by
  simp only [Stream.f, Stream.img_step hi]

theorem Stream.cext_step (n : Nat) : (st.step n).cext = st.cext := (Stream.f_step hi ..).trans (st.cext_setCpos _)

theorem Stream.ext_step {d : Nat} (h : d < 3) (n : Nat) : (st.step n).ext d = st.ext d := (Stream.f_step hi ..).trans (st.ext_setCpos h _)

theorem Stream.cpos_step (hc : 0 < st.cext) (n : Nat) : (st.step n).cpos = (st.cpos + n) % st.cext :=
  (Stream.f_step hi ..).trans (st.cpos_setCpos ((Nat.mod_lt _ hc).trans (st.f_lt 0x1A 2)))

/-- The counters above the channel run take the carries of the ones below. -/
theorem Stream.posd_step (h0 : 0 < st.ext 0) (h1 : 0 < st.ext 1) (h2 : 0 < st.ext 2) (n : Nat) :
    let t0 := st.posd 0 + (st.cpos + n) / st.cext
    let t1 := st.posd 1 + t0 / st.ext 0
    let t2 := st.posd 2 + t1 / st.ext 1
    (st.step n).posd 0 = t0 % st.ext 0 ∧ (st.step n).posd 1 = t1 % st.ext 1 ∧ (st.step n).posd 2 = t2 % st.ext 2 := by
  simp only [Stream.step, hi, Bool.false_eq_true, if_false]
  exact ⟨st.toNat_mod_ext h0 _, st.toNat_mod_ext h1 _, st.toNat_mod_ext h2 _⟩

end Direct

/-- Settles O9: each counter of a direct stream carries into the next, which is addition of n in the mixed radix of its extents; the image keeps all but CPOS. -/
theorem streamStep : Obligations.StreamStep := by
  unfold Obligations.StreamStep
  intro st n hz
  obtain ⟨hc, hext⟩ := Stream.zeroMod_eq_false hz
  refine ⟨fun hi _ _ _ _ => ?_, fun hi => Stream.step_index hi n⟩
  obtain ⟨h0, h1, h2⟩ := hext hi
  obtain ⟨hp0, hp1, hp2⟩ := Stream.posd_step hi h0 h1 h2 n
  have hcpos := Stream.cpos_step hi hc n
  have himg : ((st.step n).setCpos st.cpos).img = ((st.setCpos ((st.cpos + n) % st.cext)).setCpos st.cpos).img := by
    simp only [Stream.setCpos, Stream.setField, Stream.img_step hi]
  refine ⟨?_, ?_, ?_, ?_, ?_, himg.trans (congrArg Stream.img (st.setField_setField ..)), Stream.valid_step hi n, Stream.lygen_step hi n⟩
  · simp only [Stream.linear, Stream.cext_step hi, Stream.ext_step hi (d := 0) (by decide), Stream.ext_step hi (d := 1) (by decide), hcpos, hp0, hp1, hp2]
    rw [add_mul_add_mod hc, add_mul_add_mod h0, add_mul_add_mod h1]
  · rw [hcpos]
    exact Nat.mod_lt _ hc
  · rw [hp0]
    exact Nat.mod_lt _ h0
  · rw [hp1]
    exact Nat.mod_lt _ h1
  · rw [hp2]
    exact Nat.mod_lt _ h2

end Sys2Proof.Machine
end

section
/-! Scalar memory forms and stream forms at issue (R149 to R161, R263). -/

namespace Sys2Proof.Machine

theorem State.stageTrap_outside {s : State} (h : s.inStage = false) : s.stageTrap? = none := by simp [State.stageTrap?, h]
theorem State.stageTrap_inside {s : State} (h : s.inStage = true) : s.stageTrap? = some (accessFault 0x04 0 0) := by simp [State.stageTrap?, h]

/-- R263: outside a stage a store or an atomic goes on. -/
theorem State.unstaged_outside {s : State} (h : s.inStage = false) (o : Out) : s.unstaged o = o := by simp [State.unstaged, State.stageTrap_outside h]
/-- R263: in a stage it takes its trap. -/
theorem State.unstaged_inside {s : State} (h : s.inStage = true) (o : Out) : s.unstaged o = .next (s.raise (accessFault 0x04 0 0)) := by
  simp [State.unstaged, State.stageTrap_inside h]

/-- R156: the offset of a doubleword form counts 8 bytes. -/
theorem State.ea_doubleword (s : State) (a : BitVec 5) (x : BitVec 64) : s.ea a (x <<< 3) = (s.rs a + x * 8).toNat % 2 ^ 56 := by
  rw [State.ea, shiftLeft_eq_mul_two_pow]
  rfl
/-- R149, R156: the offset of `pf` and of `stld` counts 64 bytes. -/
theorem State.ea_line (s : State) (a : BitVec 5) (x : BitVec 64) : s.ea a (x <<< 6) = (s.rs a + x * 64).toNat % 2 ^ 56 := by
  rw [State.ea, shiftLeft_eq_mul_two_pow]
  rfl

/-- An operation that leaves one queue entry. -/
theorem emits_enq {s : State} {i : Instr} {load store : Bool} {x y : List Nat} (h : exec i s = .next (s.enq load store i x)) (e : x = y) :
    Emits i s [(1, .queue load store i y 0 0)] := by
  subst e
  exact h

/-- The atomics share one outcome (R160, R161). -/
theorem exec_atomics (s : State) (d a b : BitVec 5) (sc : Scope) (o : BitVec 2) (u : Bool) :
    ∀ i ∈ [Instr.amoadd d a b sc o, .amoand d a b sc o, .amoor d a b sc o, .amoxor d a b sc o, .amomin d a b sc o u, .amomax d a b sc o u,
      .amoswap d a b sc o, .amocas d a b sc o], exec i s = s.amo i d a b := by
  simp only [List.forall_mem_cons, List.not_mem_nil, false_implies, implies_true, and_true]
  exact ⟨rfl, rfl, rfl, rfl, rfl, rfl, rfl, rfl⟩

/-- Settles O7: every form is one queue entry at its effective address; in a stage the writing ones trap. -/
theorem offCoreScalarForms : Obligations.OffCoreScalarForms := by
  unfold Obligations.OffCoreScalarForms
  intro s d a b o o13 o2 sc h u ea amo
  have hatomics := exec_atomics s d a b sc o2 u
  refine ⟨emits_enq (exec_ld ..) (congrArg ([·]) (s.ea_doubleword ..)), emits_enq (exec_ldacq ..) (congrArg ([·]) (s.ea_doubleword ..)),
    emits_enq (exec_pf ..) (congrArg ([·]) (s.ea_line ..)), emits_enq (exec_stld ..) (congrArg ([·]) (s.ea_line ..)), rfl, rfl, rfl, fun hs => ⟨?_, ?_, fun i hi => ?_⟩, fun hs i hi => ?_⟩
  · exact emits_enq ((exec_st ..).trans (State.unstaged_outside hs _)) (congrArg ([·, (s.rs d).toNat]) (s.ea_doubleword ..))
  · exact emits_enq ((exec_strel ..).trans (State.unstaged_outside hs _)) (congrArg ([·, (s.rs d).toNat]) (s.ea_doubleword ..))
  · exact emits_enq ((hatomics i hi).trans (State.unstaged_outside hs _)) rfl
  · rw [List.mem_cons, List.mem_cons] at hi
    rcases hi with rfl | rfl | hi
    · exact (exec_st ..).trans (State.unstaged_inside hs _)
    · exact (exec_strel ..).trans (State.unstaged_inside hs _)
    · exact (hatomics i hi).trans (State.unstaged_inside hs _)

/-! The checks of a form that only moves a position (R140, R142, R150, R152). -/

section Position
variable {s : State} {n : BitVec 5}

theorem State.posTrap_invalid (h : (s.rst n).valid = false) (z : Bool) : s.posTrap n z = some (accessFault 0x03 0 n.toNat) := by simp [State.posTrap, h]
theorem State.posTrap_zero (h : (s.rst n).valid = true) : s.posTrap n true = some (accessFault 0x01 (s.rst n).addr n.toNat) := by simp [State.posTrap, h]
theorem State.posTrap_none (h : (s.rst n).valid = true) : s.posTrap n false = none := by simp [State.posTrap, h]

end Position

section StreamForms
variable {s : State} {n a : BitVec 5}

theorem stset_emits {sel : BitVec 3} (h : s.posTrap n ((s.rst n).selZero sel.toNat) = none) : Emits (.stset n a sel) s [(1, .stream n sel.toNat (s.rs a))] := by
  simp only [Emits, exec_stset, execStset, h]
  rfl
theorem stset_raises {sel : BitVec 3} {t : Trap} (h : s.posTrap n ((s.rst n).selZero sel.toNat) = some t) : Raises (.stset n a sel) s t := by
  simp only [Raises, exec_stset, execStset, h]
theorem stadv_emits (h : s.posTrap n (s.rst n).zeroMod = none) : Emits (.stadv n a) s [(1, .adv n ((s.rs a).toNat % 2 ^ 32))] := by
  simp only [Emits, exec_stadv, execStadv, h]
  rfl
theorem stadv_raises {t : Trap} (h : s.posTrap n (s.rst n).zeroMod = some t) : Raises (.stadv n a) s t := by
  simp only [Raises, exec_stadv, execStadv, h]

end StreamForms

/-- Settles O8: `stset` and `stadv` go by the check of VALID and of their modulus; `stget` checks nothing. -/
theorem streamForms : Obligations.StreamForms := by
  unfold Obligations.StreamForms
  intro s d n a sel
  refine ⟨rfl, fun hv hz => stset_emits ?_, fun hv hz => stadv_emits ?_, fun hv => ⟨stset_raises (State.posTrap_invalid hv _), stadv_raises (State.posTrap_invalid hv _)⟩,
    fun hv hz => stset_raises ?_, fun hv hz => stadv_raises ?_⟩
  · rw [hz, State.posTrap_none hv]
  · rw [hz, State.posTrap_none hv]
  · rw [hz, State.posTrap_zero hv]
  · rw [hz, State.posTrap_zero hv]

end Sys2Proof.Machine
end

section
/-! Vector memory forms on global space, and scatters (R163 to R165). -/

namespace Sys2Proof.Machine

/-- A check list that passes passes each of its checks. -/
theorem firstTrap_none {l : List (Option Trap)} (h : firstTrap l = none) : ∀ t ∈ l, t = none := by
  induction l with
  | nil => simp
  | cons t r ih =>
    cases t with
    | some t => cases h
    | none => exact List.forall_mem_cons.2 ⟨rfl, ih h⟩

theorem State.streamTrap_of_sectTrap {s : State} {n : BitVec 5} {a : Accessor} {bytes : Nat} (h : s.sectTrap n a bytes = none) : s.streamTrap n a = none :=
  firstTrap_none h _ (.head _)

/-- A fetch list with its addresses one up is the list of places that are not 0. -/
theorem map_succ_filterMap_pred (l : List Nat) : (l.filterMap fun a => if a = 0 then none else some (a - 1)).map (· + 1) = l.filter (· ≠ 0) := by
  induction l with
  | nil => rfl
  | cons a l ih =>
    cases a with
    | zero => simpa using ih
    | succ a => simpa using ih

/-- R163: the elements that a `vpf` through an index stream prefetches. -/
theorem vpf_index_fetch (s : State) (st : Stream) (e : Nat) (l : List Nat) :
    (l.filterMap fun j => if (s.idxOwner st [j]).isSome || !s.idxIn st j then none else s.elemAddr st e j).map (· + 1) =
      l.filterMap fun j => if (s.idxOwner st [j]).isNone && s.idxIn st j then (s.elemAddr st e j).map (· + 1) else none := by
  rw [List.map_filterMap]
  refine List.filterMap_congr fun j _ => ?_
  cases s.idxOwner st [j] with
  | some _ => rfl
  | none => cases s.idxIn st j <;> rfl

section Global
variable {s : State} {f : LF}

theorem vpf_raises {t : Trap} (h : s.posTrap f.st (s.rst f.st).zeroMod = some t) : Raises (.vpf f) s t := by
  simp only [Raises, exec_vpf, execVpf, h]

section Prefetch
variable (hv : (s.rst f.st).valid = true) (hz : (s.rst f.st).zeroMod = false)
include hv hz

/-- Off global space a `vpf` only steps its stream. -/
theorem vpf_elsewhere (hsp : (s.rst f.st).space ≠ 2) : exec (.vpf f) s = .next (s.emit 1 (.step f.st (lfUnit (s.rst f.st) f))) := by
  simp only [exec_vpf, execVpf, hz, State.posTrap_none hv, hsp, if_false]

variable (hb : (s.rst f.st).mapBad false = false) (hsp : (s.rst f.st).space = 2)
include hb hsp

theorem vpf_direct (hi : (s.rst f.st).idx = false) :
    exec (.vpf f) s = .next ((s.enqV true (.vpf f) f ((s.piecesAt f ((s.rst f.st).addrAt ((s.rst f.st).coord 0) ((s.rst f.st).coord 1) ((s.rst f.st).coord 2) (s.rst f.st).cpos 0)).filter (· ≠ 0))).emit 1
      (.step f.st (f.w.bits / 8))) := by
  rw [← map_succ_filterMap_pred]
  simp [execVpf, hz, State.posTrap_none hv, hb, hsp, hi, lfUnit_direct hi]

theorem vpf_index (hi : (s.rst f.st).idx = true) :
    exec (.vpf f) s = .next ((s.enqV true (.vpf f) f ((s.lfLanes f).filterMap fun j =>
      if (s.idxOwner (s.rst f.st) [j]).isNone && s.idxIn (s.rst f.st) j then (s.elemAddr (s.rst f.st) (lfE f) j).map (· + 1) else none)).emit 1 (.step f.st (lfN f))) := by
  rw [← vpf_index_fetch]
  simp [execVpf, hz, State.posTrap_none hv, hb, hsp, hi, lfUnit_index hi]

end Prefetch

section Enqueued
variable (hsp : (s.rst f.st).space = 2)
include hsp

section Loads
variable (hp : s.core.iss.phase = .issue)
include hp

theorem vld_global (hi : (s.rst f.st).idx = false) (ht : s.sectTrap f.st .lsRead (f.w.bits / 8) = none) :
    exec (.vld f) s = .next ((s.enqV true (.vld f) f (s.pieces f)).touch f.st (f.w.bits / 8)) := by
  simp [execVld, hp, hi, hsp, ht, lfUnit_direct hi]

theorem vld_global_index (hv : (s.rst f.st).valid = true) (hi : (s.rst f.st).idx = true) (ht : s.idxTrap f.st .lsRead (lfE f) (s.lfLanes f) = none) :
    exec (.vld f) s = .next ((s.enqV true (.vld f) f (s.laneAddrs f)).touch f.st (lfN f)) := by
  simp [execVld, hp, hv, hi, hsp, ht, lfUnit_index hi]

end Loads

variable (hs : s.inStage = false)
include hs

theorem vst_global (hi : (s.rst f.st).idx = false) (ht : s.sectTrap f.st .lsWrite (f.w.bits / 8) = none) :
    exec (.vst f) s = .next ((s.enqV false (.vst f) f (s.pieces f)).touch f.st (f.w.bits / 8)) := by
  simp [execVst, hsp, ht, orTrap, State.stageStore, State.stageTrap_outside hs, lfUnit_direct hi]

theorem vredst_global (hi : (s.rst f.st).idx = false) (ht : s.sectTrap f.st .lsWrite (f.w.bits / 8) = none) :
    exec (.vredst f) s = .next ((s.enqV false (.vredst f) f ((s.rs (f.form.extractLsb' 3 5)).toNat :: s.pieces f)).touch f.st (f.w.bits / 8)) := by
  simp [execVredst, hsp, ht, orTrap, firstTrap, State.streamTrap_of_sectTrap ht, State.stageTrap_outside hs, lfUnit_direct hi]

theorem State.scatter_global (hi : (s.rst f.st).idx = true) (ht : s.idxTrap f.st .lsWrite (lfE f) (s.lfLanes f) = none) (op : Nat) (i : Instr) :
    s.scatter op i f = .next ((s.enqV false i f (s.laneAddrs f)).touch f.st (lfN f)) := by
  simp [State.scatter, hsp, ht, orTrap, State.stageStore, State.stageTrap_outside hs, lfUnit_index hi]

end Enqueued

/-- R164, R263: on AMEM a scatter writes lane by lane, a stage continuation's too. -/
theorem State.scatter_amem (hi : (s.rst f.st).idx = true) (hsp : (s.rst f.st).space = 0) (ht : s.idxTrap f.st .lsWrite (lfE f) (s.lfLanes f) = none) (op : Nat) (i : Instr) :
    s.scatter op i f = .next ((s.emitAll (s.now + 1)
      (scatLanes op f.t (s.rst f.st).diag s.now (toLanes f.t.bits (lfN f) (s.rv f.v).toNat) 0 (s.laneAddrs f) s.core)).touch f.st (lfN f)) := by
  simp [State.scatter, hsp, ht, orTrap, State.stageStore_amem hsp, lfUnit_index hi]

end Global

/-- The scatter forms by their element operation (R164). -/
theorem exec_scatters (s : State) (f : LF) : ∀ p ∈ [(0, Instr.vscat f), (1, .vscadd f), (2, .vscmax f)], exec p.2 s = s.scatter p.1 p.2 f := by
  simp only [List.forall_mem_cons, List.not_mem_nil, false_implies, implies_true, and_true]
  exact ⟨rfl, rfl, rfl⟩

/-- Settles O11: each form at issue by its kind of stream; `vpf` by VALID and its modulus alone. -/
theorem globalVectorForms : Obligations.GlobalVectorForms := by
  unfold Obligations.GlobalVectorForms
  intro s f hp hs st entry
  refine ⟨fun hi hsp ht => vld_global hsp hp hi ht, fun hi hsp ht => ⟨vst_global hsp hs hi ht, vredst_global hsp hs hi ht⟩,
    fun hi hv hsp ht => vld_global_index hsp hp hv hi ht, fun hv hz hb hsp => ⟨vpf_direct hv hz hb hsp, vpf_index hv hz hb hsp⟩, fun hv hz hsp => vpf_elsewhere hv hz hsp,
    fun hv => vpf_raises (State.posTrap_invalid hv _), fun hv hz => vpf_raises (hz ▸ State.posTrap_zero hv), fun hi hsp ht i h => ?_, fun hi hsp ht p h => ?_⟩
  · obtain ⟨p, hmem, rfl⟩ := List.mem_map.1 (show i ∈ [(0, Instr.vscat f), (1, .vscadd f), (2, .vscmax f)].map Prod.snd from h)
    exact (exec_scatters s f p hmem).trans (State.scatter_global hsp hs hi ht ..)
  · exact (exec_scatters s f p h).trans (State.scatter_amem hi hsp ht ..)

end Sys2Proof.Machine
end

section
/-! Gather, rotation of a misaligned section, parking (R30, R177 to R179). -/

namespace Sys2Proof.Machine

section Gather
variable {s : State} {f : VF}

theorem vgath_issues (hp : s.core.iss.phase = .issue) (ht : s.idxTrap f.b .vec (f.t.bits / 8) (lanesOf (s.rk f.k) (lanesIn f.w f.t)) = none) :
    exec (.vgath f) s = .next ((s.emit 2 (.calc (.vgath f) { s.capture f with
      reads := (List.range (lanesIn f.w f.t)).map fun j =>
        if (s.rk f.k).getLsbD j then (s.elemAddr (s.rst f.b) (f.t.bits / 8) j).map fun a => { wmem := false, core := s.cid, addr := a, bytes := f.t.bits / 8 } else none,
      diag := (s.rst f.b).diag })).touch f.b (lanesIn f.w f.t)) := by
  simp only [exec_vgath, execVgath, hp, ht]

/-- R178: both sections of the pair are noted, the misalignment with them. -/
theorem vrotm_issues {a1 : Nat} (ha : (sectionOf ((s.rst f.b).addrOf 0) (f.w.bits / 8) + f.w.bits / 8) % 2 ^ 21 = a1) (hp : s.core.iss.phase = .issue)
    (ht : s.sectTrap f.b .vec (f.w.bits / 8) = none) (hz : (s.rst f.b).zeroed = false) (ho : s.ownerTrap s.cid false a1 false false = none) :
    exec (.vrotm f) s = .next ((s.emit 2 (.calc (.vrotm f) { s.capture f with
      reads := [s.sectRead f.b (f.w.bits / 8), (s.sectRead f.b (f.w.bits / 8)).map fun r => { r with addr := a1 }],
      diag := (s.rst f.b).diag, aux := [(s.rst f.b).addrOf 0 % (f.w.bits / 8)] })).touch f.b (f.w.bits / 8)) := by
  subst ha
  simp only [exec_vrotm, execVrotm, hp, ht, hz, ho, orTrap, Bool.false_eq_true, if_false]

theorem vrotm_computes {c : Cap} (hc : s.core.iss.phase = .compute c) {x : Nat}
    (hx : s.sample c.diag (c.issued + 3) (c.reads.getD 0 none) + 2 ^ (8 * (f.w.bits / 8)) * s.sample c.diag (c.issued + 3) (c.reads.getD 1 none) = x) :
    exec (.vrotm f) s = .next (s.emitDue (c.issued + 3) (putLanes f c.k ((List.range (lanesIn f.w f.t)).map fun i => laneAt f.t.bits i (x / 2 ^ (8 * c.aux.getD 0 0))))) := by
  simp only [exec_vrotm, execVrotm, hc, hx, toLanes_eq_range]

end Gather

section Park
variable {s : State} {f : VF}

/-- The effect of a `vpark` on a half of the park row (R179). -/
def parkWrite (s : State) (f : VF) (amem : Bool) (base : Nat) : Eff :=
  let m := BitVec.ofNat 2048 ((2 ^ 1024 - 1) * 2 ^ parkShift f.a)
  let v := BitVec.ofNat 2048 ((s.rv f.a).toNat * 2 ^ parkShift f.a)
  if amem then .amem (parkRow base f.a) m v else .acc (parkRow base f.a) m v

theorem vpark_kept (hr : s.parkIssued.regs ≠ 0) (ht : s.parkTrap s.parkIssued.amem (parkRow s.parkIssued.base.toNat f.a) = none) :
    exec (.vpark f) s = .next ((s.emit 2 (parkWrite s f s.parkIssued.amem s.parkIssued.base.toNat)).emit 2
      (.parkSet s.parkIssued.amem (BitVec.ofNat 13 s.parkIssued.base.toNat) f.a)) := by
  simp only [exec_vpark, execVpark, beq_false_of_ne hr, ht, Bool.false_and, Bool.false_eq_true, if_false, parkWrite]

/-- R179: the first register parked sets BUF and BASE, within the buffer. -/
theorem vpark_first (hr : s.parkIssued.regs = 0) (hb : (s.rs f.b).toNat ≤ if f.md.getLsbD 0 then 8176 else 2032)
    (ht : s.parkTrap (f.md.getLsbD 0) (parkRow (s.rs f.b).toNat f.a) = none) :
    exec (.vpark f) s = .next ((s.emit 2 (parkWrite s f (f.md.getLsbD 0) (s.rs f.b).toNat)).emit 2
      (.parkSet (f.md.getLsbD 0) (BitVec.ofNat 13 (s.rs f.b).toNat) f.a)) := by
  have hbase : (s.rs f.b).toNat % 2 ^ 13 = (s.rs f.b).toNat := Nat.mod_eq_of_lt (by split at hb <;> omega)
  simp only [exec_vpark, execVpark, hr, beq_self_eq_true, if_true, hbase, ht, Bool.true_and, decide_eq_true_eq, Nat.not_lt.2 hb, if_false, parkWrite]

theorem vunpark_notParked (hp : s.core.iss.phase = .issue) (h : s.ctl.park.regs.getLsbD f.d.toNat = false) : exec (.vunpark f) s = .next s := by
  simp only [exec_vunpark, execVunpark, hp, h, Bool.not_false, if_true]

theorem vunpark_parked (hp : s.core.iss.phase = .issue) (h : s.ctl.park.regs.getLsbD f.d.toNat = true)
    (ht : s.parkTrap s.ctl.park.amem (parkRow s.ctl.park.base.toNat f.d) = none) :
    exec (.vunpark f) s = .next ((s.emit 4 (.calc (.vunpark f) { s.capture f with aux := [b2n s.ctl.park.amem, parkRow s.ctl.park.base.toNat f.d] })).emit 2 (.parkClear f.d)) := by
  simp only [exec_vunpark, execVunpark, hp, h, ht, Bool.not_true, Bool.false_eq_true, if_false]

theorem vunpark_computes {c : Cap} (hc : s.core.iss.phase = .compute c) :
    exec (.vunpark f) s = .next (s.emitDue (c.issued + 3) (.vreg f.d (BitVec.allOnes 1024)
      ((if c.aux.getD 0 0 = 1 then s.arow false (c.aux.getD 1 0) else s.racc (c.aux.getD 1 0)).extractLsb' (parkShift f.d) 1024))) := by
  simp only [exec_vunpark, execVunpark, hc, BitVec.extractLsb', Nat.shiftRight_eq_div_pow]

end Park

/-- Settles O15: each form at issue where its checks pass, then what it computes from its samples. -/
theorem vectorGatherAndParkForms : Obligations.VectorGatherAndParkForms := by
  unfold Obligations.VectorGatherAndParkForms
  intro s f wb e lanes a1 park
  refine ⟨vgath_issues, fun c hc => ?_, vrotm_issues rfl, fun c hc => vrotm_computes hc rfl, fun c hc => vunpark_computes hc, vpark_kept, vpark_first, vunpark_notParked, vunpark_parked⟩
  simp only [exec_vgath, execVgath, hc]

end Sys2Proof.Machine
end

section
/-! Vector compares, moves and permutations, conversions and special functions (R167, R171 to R176, R181, R190, R191). -/

namespace Sys2Proof.Machine

/-- Settles O13: each of these forms runs as a vector form of latency 2. -/
theorem vectorMoveForms : Obligations.VectorMoveForms := by
  unfold Obligations.VectorMoveForms
  exact fun f => ⟨vectorForm_of_vrun (exec_vcmpeq f), vectorForm_of_vrun (exec_vcmpne f), vectorForm_of_vrun (exec_vcmplt f), vectorForm_of_vrun (exec_vcmple f),
    vectorForm_of_vrun (exec_vclass f), vectorForm_of_vrun (exec_vsel f), vectorForm_of_vrun (exec_vmov f), vectorForm_of_vrun (exec_vbcast f),
    vectorForm_of_vrun (exec_vins f), vectorForm_of_vrun (exec_vext f), vectorForm_of_vrun (exec_vshuf f), vectorForm_of_vrun (exec_vzip f),
    vectorForm_of_vrun (exec_vuzp f), vectorForm_of_vrun (exec_vrev f), vectorForm_of_vrun (exec_vslide f)⟩

/-- Settles O14: each of these forms runs as a vector form of its latency. -/
theorem vectorConversionForms : Obligations.VectorConversionForms := by
  unfold Obligations.VectorConversionForms
  exact fun f => ⟨vectorForm_of_vrun (exec_vcvt f), vectorForm_of_vrun (exec_vcvt8 f), vectorForm_of_vrun (exec_vquant f), vectorForm_of_vrun (exec_vdequant f),
    vectorForm_of_vrun (exec_vpack f), vectorForm_of_vrun (exec_vunpk f), vectorForm_of_vrun (exec_vexp2 f), vectorForm_of_vrun (exec_vlog2 f),
    vectorForm_of_vrun (exec_vrcp f), vectorForm_of_vrun (exec_vrsqrt f), vectorForm_of_vrun (exec_vsin f), vectorForm_of_vrun (exec_vcos f),
    vectorForm_of_vrun (exec_vtanh f), vectorForm_of_vrun (exec_vtopk f), vectorForm_of_vrun (exec_vtemp f)⟩

end Sys2Proof.Machine
end

section
/-! Sampling forms (R184 to R189): drawing, the chain of a slot, the scan of `vcat`. -/

namespace Sys2Proof.Machine

/-! One lane of a scan, then its lanes in order (R188). -/

/-- The Gumbel noise of a word. -/
def gumbel (w : Nat) : Nat := neg32 (mul32 (log2f (neg32 (mul32 (log2f (unif w)).1 ln2))).1 ln2)

/-- A lane takes the lead: unmasked, a number, its score above the best so far. -/
def vcatTakes (k : BitVec 128) (best : BitVec 32) (j w b : Nat) : Bool :=
  k.getLsbD j && !(unpack f32 b).isNan && lt32 best.toNat (add32 b (gumbel w))

theorem vcatLane_eq (k : BitVec 128) (st : Vcat) (j w b : Nat) :
    vcatLane k st j w b = if vcatTakes k st.bs j w b then { st with bs := BitVec.ofNat 32 (add32 b (gumbel w)), bi := st.nb + BitVec.ofNat 32 j } else st := by
  unfold vcatLane vcatTakes gumbel
  cases hu : unpack f32 b with
  | nan _ => simp [FV.isNan]
  | inf _ => cases k.getLsbD j <;> simp [FV.isNan]
  | fin _ _ _ => cases k.getLsbD j <;> simp [FV.isNan]

/-- The state after j lanes of words w and logits b. -/
def vcatAfter (k : BitVec 128) (st : Vcat) (w b : Nat → Nat) : Nat → Vcat
  | 0 => st
  | j + 1 => vcatLane k (vcatAfter k st w b j) j (w j) (b j)

section Scan
variable (k : BitVec 128) (st : Vcat) (w b : Nat → Nat)

/-- A scan changes the best score and its index alone. -/
theorem vcatAfter_frame (j : Nat) : (vcatAfter k st w b j).vd = st.vd ∧ (vcatAfter k st w b j).nb = st.nb := by
  induction j with
  | zero => exact ⟨rfl, rfl⟩
  | succ j ih =>
    rw [vcatAfter, vcatLane_eq]
    split <;> exact ih

/-- The best score after j lanes, and its index. -/
def vcatBest (j : Nat) : BitVec 32 × BitVec 32 := ((vcatAfter k st w b j).bs, (vcatAfter k st w b j).bi)

/-- Each lane keeps the best so far or takes its place. -/
theorem vcatBest_succ (j : Nat) : vcatBest k st w b (j + 1) =
    if vcatTakes k (vcatBest k st w b j).1 j (w j) (b j) then (BitVec.ofNat 32 (add32 (b j) (gumbel (w j))), st.nb + BitVec.ofNat 32 j) else vcatBest k st w b j := by
  rw [vcatBest, vcatAfter, vcatLane_eq, (vcatAfter_frame k st w b j).2]
  split
  next h => exact (if_pos h).symm
  next h => exact (if_neg h).symm

theorem vcatAfter_eq (j : Nat) : vcatAfter k st w b j = { st with bs := (vcatBest k st w b j).1, bi := (vcatBest k st w b j).2 } := by
  obtain ⟨hvd, hnb⟩ := vcatAfter_frame k st w b j
  rw [← hvd, ← hnb, vcatBest]

theorem vcatScan_from (i n : Nat) :
    vcatScan k (vcatAfter k st w b i) i ((List.range' i n).map w) ((List.range' i n).map b) = vcatAfter k st w b (i + n) := by
  induction n generalizing i with
  | zero => rfl
  | succ n ih =>
    rw [List.range'_succ, List.map_cons, List.map_cons, vcatScan, ← vcatAfter, ih, Nat.succ_add_eq_add_succ]

theorem vcatScan_range (n : Nat) : vcatScan k st 0 ((List.range n).map w) ((List.range n).map b) = vcatAfter k st w b n := by
  have h := vcatScan_from k st w b 0 n
  rwa [← List.range_eq_range', Nat.zero_add] at h

theorem vcatNv_range (n : Nat) : vcatNv k ((List.range n).map b) = (List.range n).any fun j => k.getLsbD j && (unpack f32 (b j)).isNan := by
  rw [vcatNv, Bool.eq_iff_iff, List.any_eq_true, List.any_eq_true, List.exists_mem_zipIdx']
  simp [and_left_comm]

end Scan

/-- The words of a capture, by their places. -/
theorem map_toNat_eq_range {l : List (BitVec 32)} {n : Nat} (h : l.length = n) : l.map BitVec.toNat = (List.range n).map fun j => (l.getD j 0).toNat := by
  refine List.ext_getElem (by simp [h]) fun i hi _ => ?_
  rw [List.length_map] at hi
  rw [List.getElem_map, List.getElem_map, List.getElem_range, List.getD_eq_getElem _ _ hi]

/-! Issue (R185, R189). -/

section Forms
variable {s : State} {f : VF}

/-- The slot's chain goes on: its last issue was a `vcat` to the same register. -/
def State.chained (s : State) (f : VF) : Bool := (s.core.ctx.chain s.core.iss.slot).any fun v => v.vd == f.d

theorem State.chained_of_some (h : ∃ v, s.core.ctx.chain s.core.iss.slot = some v ∧ v.vd = f.d) : s.chained f = true := by
  obtain ⟨v, hv, hd⟩ := h
  rw [State.chained, hv, Option.any_some, hd, beq_self_eq_true]

theorem State.not_chained (h : ∀ v, s.core.ctx.chain s.core.iss.slot = some v → v.vd ≠ f.d) : s.chained f = false := by
  unfold State.chained
  cases hc : s.core.ctx.chain s.core.iss.slot with
  | none => rfl
  | some v => exact beq_false_of_ne (h v hc)

@[simp] theorem State.capture_d (s : State) (f : VF) : (s.capture f).d = s.rv f.d := rfl

/-- What an issue of `vcat` captures: its operands, its words, and whether the chain goes on. -/
def State.vcatCap (s : State) (f : VF) (linked : Bool) : Cap :=
  { s.capture f with words := (s.words (lanesIn f.w f.t)).map (BitVec.ofNat 32), aux := [b2n linked] }

/-- An issue of `vcat`, `mk` adding to its capture what a stream gives: a chain that does not go on begins from the register, and the counter advances. -/
def State.vcatIssue (s : State) (f : VF) (mk : Cap → Cap) : State :=
  let t := s.emit 2 (.calc (.vcat f) (mk (s.vcatCap f (s.chained f))))
  let t := if s.chained f then t else t.emit 1 (.vcat s.core.iss.slot (some (vcatOf f.d (s.rv f.d))))
  t.emit 1 (.qctr (quillCalls (lanesIn f.w f.t)))

theorem State.vcatIssue_chained (h : s.chained f = true) (mk : Cap → Cap) :
    s.vcatIssue f mk = (s.emit 2 (.calc (.vcat f) (mk (s.vcatCap f true)))).emit 1 (.qctr (quillCalls (lanesIn f.w f.t))) := by
  rw [State.vcatIssue, h, if_pos rfl]

theorem State.vcatIssue_begins (h : s.chained f = false) (mk : Cap → Cap) :
    s.vcatIssue f mk = ((s.emit 2 (.calc (.vcat f) (mk (s.vcatCap f false)))).emit 1 (.vcat s.core.iss.slot (some (vcatOf f.d (s.rv f.d))))).emit 1
      (.qctr (quillCalls (lanesIn f.w f.t))) := by
  rw [State.vcatIssue, h, if_neg Bool.false_ne_true]

theorem vcat_register (hp : s.core.iss.phase = .issue) (hb : f.sb = false) : exec (.vcat f) s = .next (s.vcatIssue f id) := by
  unfold State.vcatIssue State.vcatCap State.chained
  cases hc : s.core.ctx.chain s.core.iss.slot <;> simp [execVcat, hp, hb, hc]

theorem vcat_stream (hp : s.core.iss.phase = .issue) (hb : f.sb = true) (ht : s.sectTrap f.b .vec (f.w.bits / 8) = none) :
    exec (.vcat f) s = .next ((s.vcatIssue f fun c => { c with reads := [s.sectRead f.b (f.w.bits / 8)], diag := (s.rst f.b).diag }).touch f.b (f.w.bits / 8)) := by
  unfold State.vcatIssue State.vcatCap State.chained
  cases hc : s.core.ctx.chain s.core.iss.slot <;> simp [execVcat, hp, hb, hc, ht]

theorem vcat_raises (hp : s.core.iss.phase = .issue) (hb : f.sb = true) {t : Trap} (ht : s.sectTrap f.b .vec (f.w.bits / 8) = some t) : Raises (.vcat f) s t := by
  simp only [Raises, exec_vcat, execVcat, hp, hb, ht, if_true]

/-- The forms without operands draw alike (R187). -/
theorem exec_draws (s : State) (f : VF) : ∀ p ∈ [(Instr.vqraw f, 4, id), (.vunif f, 4, unif), (.vnorm f, 8, vnormWord)], exec p.1 s = s.draw f p.2.1 p.2.2 := by
  simp only [List.forall_mem_cons, List.not_mem_nil, false_implies, implies_true, and_true]
  exact ⟨rfl, rfl, rfl⟩

/-- R188: the scan of `vcat`, one cycle after its issue. -/
theorem vcat_computes {c : Cap} (hc : s.core.iss.phase = .compute c) (hw : c.words.length = lanesIn f.w f.t) :
    let n := lanesIn f.w f.t
    let b := if f.sb then s.sample c.diag (c.issued + 3) (c.reads.getD 0 none) else c.b.toNat
    let first := if c.aux.getD 0 0 = 1 then (s.core.ctx.chain c.slot).getD (vcatOf f.d c.d) else vcatOf f.d c.d
    let best := vcatBest c.k first (fun j => (c.words.getD j 0).toNat) (laneAt 32 · b) n
    let nb := first.nb + BitVec.ofNat 32 n
    let nv := (List.range n).any fun j => c.k.getLsbD j && (unpack f32 (laneAt 32 j b)).isNan
    exec (.vcat f) s = .next (((s.emitDue s.now (.vcatNext c.slot { first with bs := best.1, bi := best.2, nb := nb })).emitDue (c.issued + 7)
      (.vreg f.d (BitVec.ofNat 1024 (2 ^ 96 - 1)) ((nb ++ (best.2 ++ best.1)).setWidth 1024))).emitDue (c.issued + 7) (.flags (if nv then flagBits flNV else 0))) := by
  intro n b first best nb nv
  have hscan : vcatScan c.k first 0 (c.words.map BitVec.toNat) (toLanes 32 n b) = { first with bs := best.1, bi := best.2 } := by
    rw [map_toNat_eq_range hw, toLanes_eq_range, vcatScan_range, vcatAfter_eq]
  have hnv : vcatNv c.k (toLanes 32 n b) = nv := by
    rw [toLanes_eq_range, vcatNv_range]
  have hflags : (if nv then flagBits flNV else 0) = flagBits (if nv then flNV else 0) := by
    rw [apply_ite flagBits]
    rfl
  rw [hflags, ← hnv]
  simp only [exec_vcat, execVcat, hc]
  rw [hscan]

end Forms

/-- Settles O16: the drawing forms, the issue of `vcat` by its operand and its chain, and its scan lane by lane. -/
theorem samplingForms : Obligations.SamplingForms := by
  unfold Obligations.SamplingForms
  intro s f n words calls
  refine ⟨exec_draws s f, fun hp hb => ⟨fun h => ?_, fun h => ?_⟩, fun hp hb => ⟨fun t ht => vcat_raises hp hb ht, fun ht => ⟨fun h => ?_, fun h => ?_⟩⟩, fun c hc hw => ?_⟩
  · rw [vcat_register hp hb, State.vcatIssue_chained (State.chained_of_some h)]
    rfl
  · rw [vcat_register hp hb, State.vcatIssue_begins (State.not_chained h)]
    rfl
  · rw [vcat_stream hp hb ht, State.vcatIssue_chained (State.chained_of_some h)]
    rfl
  · rw [vcat_stream hp hb ht, State.vcatIssue_begins (State.not_chained h)]
    rfl
  · exact ⟨vcatBest c.k _ (fun j => (c.words.getD j 0).toNat) _, rfl, fun j _ => vcatBest_succ .., vcat_computes hc hw⟩

end Sys2Proof.Machine
end

section
/-! Tile loads and stream products of the matrix slot (R199, R206, R210, R278): their issue, then what they give once their tiles are sampled. -/

namespace Sys2Proof.Machine

/-! Tile loads (R206). -/

section TileLoad
variable {s : State} {f : MF}

/-- R206: the rows that each tile load reads, the granules that it claims, and the body that it makes. -/
theorem mld_loads (s : State) (f : MF) : exec (.mld f) s = s.mload (.mld f) f 64 32 fun vals _ _ => .dense (vals.map rowBv) := rfl
theorem mldu_loads (s : State) (f : MF) : exec (.mldu f) s = s.mload (.mldu f) f (s.factRows f) (s.rm f.md).limit.toNat (factLoad true) := rfl
theorem mldv_loads (s : State) (f : MF) : exec (.mldv f) s = s.mload (.mldv f) f (s.factRows f) (s.rm f.md).limit.toNat (factLoad false) := rfl

/-- The loads as one operation, whatever body each makes. -/
theorem exec_tileLoads (s : State) (f : MF) :
    ∀ p ∈ [(Instr.mld f, 64, 32), (.mldu f, s.factRows f, (s.rm f.md).limit.toNat), (.mldv f, s.factRows f, (s.rm f.md).limit.toNat)],
      ∃ body, exec p.1 s = s.mload p.1 f p.2.1 p.2.2 body := by
  simp only [List.forall_mem_cons, List.not_mem_nil, false_implies, implies_true, and_true]
  exact ⟨⟨_, mld_loads s f⟩, ⟨_, mldu_loads s f⟩, ⟨_, mldv_loads s f⟩⟩

/-- R206, R216: the issue of a tile load whose checks pass, whatever body it will make. -/
theorem State.mload_issues {rowsN claim : Nat} (hp : s.core.iss.phase = .issue)
    (ht : s.tileTrap (f.ma.setWidth 5) false (f.mods.getLsbD 0) rowsN = none) (hm : s.mrfTrap f.md claim = none) (i : Instr) (body : List (List Nat) → MBody → Nat → MBody) :
    let n := f.ma.setWidth 5
    let st := s.rst n
    let cost := Nat.max 1 (feed false (rowsN * rowBytes st.fmt) + transTime (f.mods.getLsbD 0) st.diag)
    s.mload i f rowsN claim body = .next (((s.emit 2 (.calc i { s.cap0 with streams := [st], ma := (s.rm f.md).body, aux := [cost, rowsN, (s.rm f.md).limit.toNat] })).emit 1
      (.mxBusy (s.now + cost))).touch n (rowsN * rowBytes st.fmt)) := by
  simp only [State.mload, hp, ht, hm, orTrap]

/-- The values of the tile that a load samples, row by row. -/
def State.loadVals (s : State) (c : Cap) (st : Stream) (f : MF) : List (List Nat) := (s.tile st (c.aux.getD 1 0) (c.issued + 3) (f.mods.getLsbD 0)).map rowValues

section Sampled
variable {c : Cap} {st : Stream} {l : List Stream} (hc : s.core.iss.phase = .compute c) (hs : c.streams = st :: l)
include hc hs

/-- R195, R206: the body that a load makes of its tile lands 11 cycles after its cost. -/
theorem State.mload_lands (i : Instr) (rowsN claim : Nat) (body : List (List Nat) → MBody → Nat → MBody) :
    s.mload i f rowsN claim body = .next (s.emitDue (c.issued + c.aux.getD 0 0 + 11) (.mreg f.md (body (s.loadVals c st f) c.ma (c.aux.getD 2 0)))) := by
  simp only [State.mload, State.loadVals, hc, hs]

theorem mld_lands : exec (.mld f) s = .next (s.emitDue (c.issued + c.aux.getD 0 0 + 11) (.mreg f.md (.dense ((s.loadVals c st f).map rowBv)))) := by
  rw [mld_loads, State.mload_lands hc hs]
theorem mldu_lands : exec (.mldu f) s = .next (s.emitDue (c.issued + c.aux.getD 0 0 + 11) (.mreg f.md (factLoad true (s.loadVals c st f) c.ma (c.aux.getD 2 0)))) := by
  rw [mldu_loads, State.mload_lands hc hs]
theorem mldv_lands : exec (.mldv f) s = .next (s.emitDue (c.issued + c.aux.getD 0 0 + 11) (.mreg f.md (factLoad false (s.loadVals c st f) c.ma (c.aux.getD 2 0)))) := by
  rw [mldv_loads, State.mload_lands hc hs]

end Sampled

end TileLoad

/-! The factor pair that a factor load makes (R206). -/

section FactorLoad
variable {vals : List (List Nat)} {old : MBody} {L : Nat}

/-- Where the old body is a factor pair of rank LIMIT, a load replaces one factor and keeps the other. -/
theorem factLoad_keeps {p q : List (BitVec 2048)} (h : p.length = L) :
    factLoad true vals (.factored p q) L = .factored ((vals.map rowBv).take L) q ∧ factLoad false vals (.factored p q) L = .factored p ((vals.map rowBv).take L) := by
  simp only [factLoad, if_pos h, if_true, Bool.false_eq_true, if_false, List.map_take, and_self]

/-- Beside any other body, the factor that is not loaded is zeros. -/
theorem factLoad_zeros (h : ∀ p q, old = .factored p q → p.length ≠ L) :
    factLoad true vals old L = .factored ((vals.map rowBv).take L) (List.replicate L 0) ∧
      factLoad false vals old L = .factored (List.replicate L 0) ((vals.map rowBv).take L) := by
  cases old with
  | empty | dense _ => simp only [factLoad, if_true, Bool.false_eq_true, if_false, List.map_take, and_self]
  | factored p q => simp only [factLoad, if_neg (h p q rfl), if_true, Bool.false_eq_true, if_false, List.map_take, and_self]

end FactorLoad

/-! Stream products (R210). -/

section StreamProduct
variable {s : State} {f : MF}

/-- R200, R210: the stream products are one operation; `mmacr` and `mmacm` may read a remote tile. -/
theorem exec_streamProducts (s : State) (f : MF) :
    ∀ p ∈ [(Instr.mmacs f, Instr.mmacs, false), (.mmacr f, .mmacr, true), (.mmacm f, .mmacm, true)], exec p.1 s = s.mstream p.1 p.2.1 f p.2.2 := by
  simp only [List.forall_mem_cons, List.not_mem_nil, false_implies, implies_true, and_true]
  exact ⟨rfl, rfl, rfl⟩

/-- The same, by the instruction alone. -/
theorem exec_eq_mstream {i : Instr} (hi : i ∈ [Instr.mmacs f, .mmacr f, .mmacm f]) (s : State) : ∃ mk r, exec i s = s.mstream i mk f r := by
  obtain ⟨p, hp, rfl⟩ : ∃ p ∈ [(Instr.mmacs f, Instr.mmacs, false), (.mmacr f, .mmacr, true), (.mmacm f, .mmacm, true)], p.1 = i := List.mem_map.mp hi
  exact ⟨p.2.1, p.2.2, exec_streamProducts s f p hp⟩

/-- R210, R216: the issue of a stream product whose checks pass. -/
theorem State.mstream_issues {r : Bool} (hp : s.core.iss.phase = .issue) (ha : s.tileTrap (f.ma.setWidth 5) r (f.mods.getLsbD 0) 64 = none)
    (hb : s.tileTrap (f.mb.setWidth 5) r (f.mods.getLsbD 1) 64 = none) (i : Instr) (mk : MF → Instr) :
    let sa := s.rst (f.ma.setWidth 5)
    let sb := s.rst (f.mb.setWidth 5)
    let ba := 64 * rowBytes sa.fmt
    let bb := 64 * rowBytes sb.fmt
    let cost := Nat.max 1 (Nat.max (ceilDiv 262144 (macLanes sa.fmt sb.fmt)) (Nat.max (feed sa.remote ba) (feed sb.remote bb)) +
      transTime (f.mods.getLsbD 0) sa.diag + transTime (f.mods.getLsbD 1) sb.diag)
    s.mstream i mk f r = .next (((((s.emit (if sa.remote || sb.remote then 4 else 2) (.calc i { s.cap0 with streams := [sa, sb], aux := [cost] })).emit 1
      (.mxBusy (s.now + cost))).touch (f.ma.setWidth 5) ba).touch (f.mb.setWidth 5) bb).clearZ f mk) := by
  simp only [State.mstream, hp, ha, hb, orTrap]

section Sampled
variable {c : Cap} {sa sb : Stream} {l : List Stream} (hc : s.core.iss.phase = .compute c) (hs : c.streams = sa :: sb :: l)
include hc hs

/-- R195, R210: the product of the tiles as they are sampled lands 11 cycles after its cost. -/
theorem State.mstream_lands (ha : s.remoteTrap sa 64 = none) (hb : s.remoteTrap sb 64 = none) (i : Instr) (mk : MF → Instr) (r : Bool) :
    s.mstream i mk f r = .next (s.emitDue (c.issued + c.aux.getD 0 0 + 11) (.accBlocks (accTile f.bank f.mods) (f.mods.getLsbD 3)
      ((s.tile sa 64 (c.issued + 3) (f.mods.getLsbD 0)).map fun x =>
        (s.tile sb 64 (c.issued + 3) (f.mods.getLsbD 1)).map fun y => (blockVals x y).map (BitVec.ofNat 32)).flatten)) := by
  simp only [State.mstream, hc, hs, ha, hb, orTrap]

/-- R278: the trap of the first tile is raised, and nothing lands. -/
theorem State.mstream_raises {t : Trap} (ha : s.remoteTrap sa 64 = some t) (i : Instr) (mk : MF → Instr) (r : Bool) : s.mstream i mk f r = .next (s.raise t) := by
  simp only [State.mstream, hc, hs, ha, orTrap]

end Sampled

end StreamProduct

/-- Settles O18: the loads and the products by their phases, the factor loads by the body that stood before. -/
theorem matrixStreamForms : Obligations.MatrixStreamForms := by
  unfold Obligations.MatrixStreamForms
  intro s f hp ta tb na nb limit
  refine ⟨fun p hmem ht hm => ?_, fun u c st l hc hs => ⟨?_, fun p q hma hlen => ?_, fun hma => ?_⟩, fun p hmem hta htb => ?_, fun p hmem u c sa sb l hc hs => ?_⟩
  · obtain ⟨body, hbody⟩ := exec_tileLoads s f p hmem
    exact hbody.trans (State.mload_issues hp ht hm p.1 body)
  · exact mld_lands hc hs
  · obtain ⟨hu, hv⟩ := factLoad_keeps (vals := u.loadVals c st f) (q := q) hlen
    rw [← hma] at hu hv
    exact ⟨hu ▸ mldu_lands hc hs, hv ▸ mldv_lands hc hs⟩
  · obtain ⟨hu, hv⟩ := factLoad_zeros (vals := u.loadVals c st f) hma
    exact ⟨hu ▸ mldu_lands hc hs, hv ▸ mldv_lands hc hs⟩
  · rw [exec_streamProducts s f p hmem]
    exact State.mstream_issues hp hta htb ..
  · obtain ⟨mk, r, hexec⟩ := exec_eq_mstream hmem u
    simp only [Raises, hexec]
    exact ⟨fun ha hb => State.mstream_lands hc hs ha hb .., fun t ha => State.mstream_raises hc hs ha ..⟩

end Sys2Proof.Machine
end

section
/-! The engine slot at issue: tile ownership, rings and engine commands (R220 to R231, R237 to R246). -/

namespace Sys2Proof.Machine

/-! The checks of the slot. -/

theorem State.checked_passes {s : State} {t : Option Trap} (h : t = none) (f : State → State) : s.checked t f = .next (f s) := by rw [h]; rfl
theorem State.checked_fails {s : State} {t : Option Trap} {x : Trap} (h : t = some x) (f : State → State) : s.checked t f = .next (s.raise x) := by rw [h]; rfl
theorem orTrap_none {a b : Option Trap} (ha : a = none) (hb : b = none) : orTrap a b = none := by rw [ha, hb]; rfl
theorem orTrap_first {a : Option Trap} {x : Trap} (h : a = some x) (b : Option Trap) : orTrap a b = some x := by rw [h]; rfl
theorem firstTrap_first {a : Option Trap} {x : Trap} (h : a = some x) (l : List (Option Trap)) : firstTrap (a :: l) = some x := by rw [h]; rfl
theorem firstTrap_cons_none {a : Option Trap} {l : List (Option Trap)} (h : a = none) (hl : firstTrap l = none) : firstTrap (a :: l) = none := by rw [h]; exact hl
theorem limitIf_false {b : Bool} (h : b = false) (addr info : Nat) : limitIf b addr info = none := by rw [h]; rfl
theorem limitIf_true {b : Bool} (h : b = true) (addr info : Nat) : limitIf b addr info = some (accessFault 0x04 addr info) := by rw [h]; rfl
theorem limitIf_not {p : Prop} [Decidable p] (h : ¬p) (addr info : Nat) : limitIf (decide p) addr info = none := limitIf_false (decide_eq_false h) addr info
theorem State.ringTrap_valid {s : State} {h : BitVec 3} (hv : (s.rh h).valid = true) : s.ringTrap h = none := by rw [State.ringTrap, hv]; rfl
theorem State.ringTrap_invalid {s : State} {h : BitVec 3} (hv : (s.rh h).valid = false) : s.ringTrap h = some (accessFault 0x03 0 h.toNat) := by rw [State.ringTrap, hv]; rfl

section Checked
variable {i : Instr} {s : State} {t : Option Trap} {f : State → State} (hx : exec i s = s.checked t f)
include hx

theorem emits_of_checked (ht : t = none) {es : List (Nat × Eff)} (hf : f s = s.emits es) : Emits i s es := hx.trans ((State.checked_passes ht f).trans (by rw [hf]))
theorem raises_of_checked {x : Trap} (ht : t = some x) : Raises i s x := hx.trans (State.checked_fails ht f)

end Checked

/-! Tile ownership and rings (R222, R226 to R231). -/

section Tiles
variable {s : State} {h : BitVec 3} {b k : Bool} {f c : BitVec 7} {n : BitVec 8}

theorem own_checked (hr : f.toNat + c.toNat ≤ 127) (hm : firstTrap ((tileRun f.toNat (c.toNat + 1)).map (s.ownTrap b)) = none) (st : BitVec 2) :
    exec (.own st b f c) s = .next (if st = 2 then s.emitDue (s.tilesLand b (tileRun f.toNat (c.toNat + 1))) (.tiles b (tileRun f.toNat (c.toNat + 1)) 2)
      else s.emit 1 (.tiles b (tileRun f.toNat (c.toNat + 1)) 0)) := by
  rw [exec_own, execOwn]
  exact State.checked_passes (orTrap_none (limitIf_not (by omega) ..) hm) _

theorem rset_checked (hr : f.toNat + c.toNat ≤ 127) (hm : s.tilesMine b (tileRun f.toNat (c.toNat + 1)) = none) (d : Bool) :
    let u := s.emit 1 (.ring h { valid := true, wmem := b, first := f, count := BitVec.ofNat 8 (c.toNat + 1), head := 0, tail := 0 })
    exec (.rset h b f c d) s = .next (if d then u else u.emit 1 (.tiles b (tileRun f.toNat (c.toNat + 1)) 1)) := by
  rw [exec_rset, execRset]
  exact State.checked_passes (orTrap_none (limitIf_not (by omega) ..) hm) _

/-- An effect that writes no row of AMEM leaves the cycle at which the writes to tiles have landed. -/
theorem State.tilesLand_emitDue (s : State) (due : Nat) {e : Eff} (ha : ∀ r m v, e ≠ .amem r m v) (hh : ∀ r l, e ≠ .hist r l) (w : Bool) (ts : List Nat) :
    (s.emitDue due e).tilesLand w ts = s.tilesLand w ts := by
  unfold State.tilesLand
  extract_lets hit
  obtain ⟨p, hp, heff⟩ : ∃ p : Pend, (s.emitDue due e).core.iss.effs = s.core.iss.effs ++ [p] ∧ p.eff = e := ⟨_, rfl, rfl⟩
  have hmiss : hit p = false := by
    simp only [hit, heff]
  rw [hp, State.emitDue_core_pend, ← List.append_assoc, List.filter_append, List.filter_singleton, hmiss]
  exact congrArg (List.foldl _ s.now) (List.append_nil _)

/-- R230: the slots passed over go back one after another, each once its own writes have landed: passing one leaves the writes to the others. -/
theorem foldl_returns (w : Bool) (ts : List Nat) (u : State) (hu : ∀ t, u.tilesLand w [t] = s.tilesLand w [t]) :
    ts.foldl (fun v t => v.emitDue (v.tilesLand w [t]) (.tiles w [t] 1)) u = ts.foldl (fun v t => v.emitDue (s.tilesLand w [t]) (.tiles w [t] 1)) u := by
  induction ts generalizing u with
  | nil => rfl
  | cons t ts ih =>
    rw [List.foldl_cons, List.foldl_cons, hu t]
    refine ih _ fun x => ?_
    rw [State.tilesLand_emitDue _ _ (by simp) (by simp), hu x]

theorem rwait_valid (hv : (s.rh h).valid = true) (l : BitVec 5) : let lim := (s.rs l).toNat % 2 ^ 32
    EmitsEnd (.rwait h k n l) s [.hold { what := if k then .free h n.toNat else .fill h n.toNat, lim := lim, rem := lim }] := by
  intro lim
  rw [EmitsEnd, exec_rwait, execRwait]
  exact State.checked_passes (State.ringTrap_valid hv) _

theorem rwait_invalid (hv : (s.rh h).valid = false) (l : BitVec 5) : Raises (.rwait h k n l) s (accessFault 0x03 0 h.toNat) := by
  rw [Raises, exec_rwait, execRwait]
  exact State.checked_fails (State.ringTrap_invalid hv) _

theorem radv_invalid (hv : (s.rh h).valid = false) : Raises (.radv h k n) s (accessFault 0x03 0 h.toNat) := by
  rw [Raises, exec_radv, execRadv]
  exact State.checked_fails (orTrap_first (State.ringTrap_invalid hv) _) _

theorem radv_checked (hv : (s.rh h).valid = true) (hn : n.toNat ≤ if k then (s.rh h).free else (s.rh h).filled) :
    let r := s.rh h
    let start := if k then r.tail.toNat else r.head.toNat
    let x := BitVec.ofNat 16 ((start + n.toNat) % r.modulus)
    exec (.radv h k n) s = .next (((List.range n.toNat).map fun j => r.tileOf (start + j)).foldl (fun v t => v.emitDue (s.tilesLand r.wmem [t]) (.tiles r.wmem [t] 1))
      (s.emit 1 (.ring h (if k then { r with tail := x } else { r with head := x })))) := by
  intro r start x
  have hlimit : ¬(if k then r.free else r.filled) < n.toNat := Nat.not_lt.2 hn
  rw [exec_radv, execRadv]
  refine (State.checked_passes (orTrap_none (State.ringTrap_valid hv) (limitIf_not hlimit ..)) _).trans (congrArg _ ?_)
  exact foldl_returns r.wmem _ _ fun t => State.tilesLand_emitDue s (s.clk.now + 1 - 1) (by simp) (by simp) r.wmem [t]

end Tiles

/-- Settles O21: each form goes by its check of the handle or of its tiles, and what it leaves is its effects. -/
theorem ringAndTileForms : Obligations.RingAndTileForms := by
  unfold Obligations.RingAndTileForms
  intro s h b k f c n l st ts r lim start passed x
  refine ⟨fun hr hm => ⟨fun hst => ?_, fun hst => ?_⟩, fun hr hm => ⟨rset_checked hr hm true, rset_checked hr hm false⟩, fun hv => rwait_valid hv l, radv_checked,
    fun hv => ⟨rwait_invalid hv l, radv_invalid hv⟩⟩
  · exact (own_checked hr hm st).trans (by rw [if_pos hst]; rfl)
  · exact (own_checked hr hm st).trans (by rw [if_neg hst]; rfl)

/-! Engine commands at issue (R220, R225, R237, R240 to R246, R263). -/

section Commands
variable {s : State} {n a : BitVec 5} {b : BitVec 6} {e v : BitVec 4} {f : EcopyF}

/-- R225: a copy of rows of its own. -/
theorem exec_ecopyRows (hf : f.ring = false) :
    let ts := rowTiles f.row.toNat f.rows.toNat
    exec (.ecopy f) s = s.checked (firstTrap [s.stageTrap?, limitIf (decide (8192 < f.row.toNat + f.rows.toNat)) (256 * f.row.toNat) 0, s.tilesMine f.wmem ts]) fun s' =>
      (s'.enqS (.ecopy f) [(s.rs f.a).toNat % 2 ^ 56 / 256 * 256, 0, 0, 0, b2n f.wmem]).emit 1 (.tiles f.wmem ts 1) := by
  rw [exec_ecopy, execEcopy, hf]
  rfl

/-- R228: a copy over a ring's slots. -/
theorem exec_ecopyRing (hf : f.ring = true) : let r := s.rh f.h
    exec (.ecopy f) s = s.checked (firstTrap [s.stageTrap?, s.ringTrap f.h, limitIf (decide (f.rows.toNat % 64 ≠ 0)) 0 f.h.toNat,
        (s.ecopyRings.find? fun x => x.1 == r.wmem && x.2.any r.tiles.contains).map fun x =>
          { cause := cOwner, addr := (x.2.find? r.tiles.contains).getD 0 * 2 ^ 14, info0 := (s.core.tile r.wmem ((x.2.find? r.tiles.contains).getD 0)).word }]) fun s' =>
      s'.enqS (.ecopy f) [(s.rs f.a).toNat % 2 ^ 56 / 256 * 256, r.start s'.core f.out, r.first.toNat, r.count.toNat, b2n r.wmem] := by
  rw [exec_ecopy, execEcopy, hf]
  rfl

theorem ecopyRows_emits (hs : s.inStage = false) (hf : f.ring = false) (hr : f.row.toNat + f.rows.toNat ≤ 8192)
    (hm : s.tilesMine f.wmem (rowTiles f.row.toNat f.rows.toNat) = none) :
    Emits (.ecopy f) s [(1, .queue false true (.ecopy f) [(s.rs f.a).toNat % 2 ^ 56 / 256 * 256, 0, 0, 0, b2n f.wmem] 0 0), (1, .tiles f.wmem (rowTiles f.row.toNat f.rows.toNat) 1)] :=
  emits_of_checked (exec_ecopyRows hf)
    (firstTrap_cons_none (State.stageTrap_outside hs) (firstTrap_cons_none (limitIf_not (by omega) ..) (firstTrap_cons_none hm rfl))) rfl

theorem ecopyRing_emits (hs : s.inStage = false) (hf : f.ring = true) (hv : (s.rh f.h).valid = true) (hr : f.rows.toNat % 64 = 0)
    (ho : (s.ecopyRings.find? fun x => x.1 == (s.rh f.h).wmem && x.2.any (s.rh f.h).tiles.contains) = none) :
    let r := s.rh f.h
    Emits (.ecopy f) s [(1, .queue false true (.ecopy f) [(s.rs f.a).toNat % 2 ^ 56 / 256 * 256, r.start s.core f.out, r.first.toNat, r.count.toNat, b2n r.wmem] 0 0)] :=
  emits_of_checked (exec_ecopyRing hf) (firstTrap_cons_none (State.stageTrap_outside hs) (firstTrap_cons_none (State.ringTrap_valid hv)
    (firstTrap_cons_none (limitIf_not (not_not.2 hr) ..) (firstTrap_cons_none (by rw [ho]; rfl) rfl)))) rfl

theorem reshard_emits (hs : s.inStage = false) (hl : (s.vslot s.die v.toNat).loaded = true) (hu : (s.vslot s.die v.toNat).inUse = false)
    (ht : s.pendOn (fun _ i => match i with | .reshard _ w => w == v | _ => false) = false)
    (hh : (s.vslot s.die v.toNat).f 0 4 = (s.layEnt s.die s.jcb e.toNat).handle.toNat) :
    Emits (.reshard e v b) s [(1, .queue false true (.reshard e v b) [] 0 0), (1, .reshard e v)] := by
  rw [Emits, exec_reshard, execReshard]
  refine State.checked_passes (orTrap_none (State.stageTrap_outside hs) (limitIf_false ?_ ..)) _
  simp only [hl, hu, hh, Bool.not_true, Bool.false_or, ne_eq, not_true_eq_false, decide_false, Bool.or_false]
  exact ht

/-- R263: in a stage continuation the first check of every engine command but `rsload` fails. -/
theorem engineCommands_staged (hs : s.inStage = true) (g : BitVec 6) :
    ∀ i ∈ [Instr.ecopy f, .hxch n g b, .reshard e v b, .coll a b, .edisp a b, .ecomb a b, .put a b, .get a b], Raises i s (accessFault 0x04 0 0) := by
  have hstage := State.stageTrap_inside hs
  have hecopy : Raises (.ecopy f) s (accessFault 0x04 0 0) := by
    cases hf : f.ring with
    | true => exact raises_of_checked (exec_ecopyRing hf) (firstTrap_first hstage _)
    | false => exact raises_of_checked (exec_ecopyRows hf) (firstTrap_first hstage _)
  have hhxch : Raises (.hxch n g b) s (accessFault 0x04 0 0) := by
    rw [Raises, exec_hxch, execHxch]
    exact State.checked_fails (firstTrap_first hstage _) _
  have hreshard : Raises (.reshard e v b) s (accessFault 0x04 0 0) := by
    rw [Raises, exec_reshard, execReshard]
    exact State.checked_fails (orTrap_first hstage _) _
  simp only [List.forall_mem_cons, List.not_mem_nil, false_implies, implies_true, and_true]
  exact ⟨hecopy, hhxch, hreshard, raises_of_checked (exec_coll ..) hstage, raises_of_checked (exec_edisp ..) hstage, raises_of_checked (exec_ecomb ..) hstage,
    raises_of_checked (exec_put ..) hstage, raises_of_checked (exec_get ..) hstage⟩

/-- R237: the exchange takes its tiles to state L; its stream's check against the layout table stands from then on. -/
theorem hxch_checked {g : BitVec 6} (h : s.hxchTrap n g = none) :
    let st := s.rst n
    exec (.hxch n g b) s = .next ((s.emits (if st.checked then [] else [(1, Eff.checked n)])).emits
      [(1, .queue false true (.hxch n g b) (st.lygen.toNat :: st.lyent.toNat :: st.blockTiles) (st.img.setWidth 1024) 0), (1, .tiles false st.blockTiles 2)]) := by
  intro st
  rw [exec_hxch, execHxch]
  refine (State.checked_passes h _).trans ?_
  simp only [st]
  cases (s.rst n).checked with
  | true => rfl
  | false => rfl

end Commands

/-- Settles O23: each command goes by its checks, the stage's the first of them; what passes leaves its entry and the change of its tiles. -/
theorem engineCommandForms : Obligations.EngineCommandForms := by
  unfold Obligations.EngineCommandForms
  intro s f n a g b e v A ga ts r st slot halo
  refine ⟨fun hs => ?_, fun hs => engineCommands_staged hs g, hxch_checked, fun hu => emits_of_checked (exec_rsload ..) (limitIf_false hu ..) rfl,
    fun hu => raises_of_checked (exec_rsload ..) (limitIf_true hu ..)⟩
  have hstage := State.stageTrap_outside hs
  exact ⟨ecopyRows_emits hs, ecopyRing_emits hs, reshard_emits hs, emits_of_checked (exec_coll ..) hstage rfl, emits_of_checked (exec_edisp ..) hstage rfl,
    emits_of_checked (exec_ecomb ..) hstage rfl, emits_of_checked (exec_put ..) hstage rfl, emits_of_checked (exec_get ..) hstage rfl⟩

end Sys2Proof.Machine
end

section
/-! Held waits: the end of one, its count, its timeout (R231, R235, R236). -/

namespace Sys2Proof.Machine

/-! The resident continuation, and a trap taken where its wait is held. -/

theorem State.cont_selfKey {s : State} {c : Cont} (h : s.self = some c) : s.cont s.selfKey = some c := by
  obtain ⟨k, hk, hc⟩ := Option.bind_eq_some_iff.1 h
  rw [State.selfKey, hk, Option.getD_some, hc]

theorem State.self_onCont (s : State) (f : Cont → Cont) : (s.onCont s.selfKey f).self = s.self.map f := by
  unfold State.self
  rw [State.onCont_core]
  cases hk : s.core.res with
  | none => rfl
  | some k =>
    have hkey : s.selfKey = k := by rw [State.selfKey, hk, Option.getD_some]
    rw [Option.bind_some, Option.bind_some, hkey, State.cont_onCont]

/-- A resumable trap of a continuation that is no handler heads its reports (R345). -/
theorem State.cont_takeTrap_resumable {s : State} {c : Cont} (hc : s.self = some c) (hh : c.handlerOf = none) (t : Trap) :
    (s.takeTrap t).cont s.selfKey = some { c with reports := t :: c.reports, lastCause := t.cause } := by
  have hno : (s.self.bind Cont.handlerOf).isSome = false := by rw [hc, Option.bind_some, hh]; rfl
  unfold State.takeTrap
  rw [hno]
  change (s.onCont s.selfKey _).cont s.selfKey = _
  rw [State.cont_onCont, State.cont_selfKey hc]
  rfl

/-- Where no trap stands at the boundary, no report is pending (R342). -/
theorem State.reportTrap_of_boundaryTrap {s : State} (h : s.boundaryTrap = none) : s.reportTrap = none :=
  firstTrap_none h _ (.tail _ (.head _))

section Taken
variable {s : State} {w : Wait} (hm : s.core.mode = .held w) (hr : s.reportTrap = none) (t : Trap)
include hm hr

/-- R231: with no report pending the continuation keeps its wait for its resumption, and then takes the trap. -/
theorem State.takeBoundary_held : ∃ x : Iss, s.takeBoundary t = ((s.onCont s.selfKey fun c => { c with held := some w }).onIss fun _ => x).takeTrap t := by
  have hnone : (s.reportTrap == some t) = false := by rw [hr]; rfl
  unfold State.takeBoundary
  simp only [hnone, Bool.false_eq_true, if_false, hm, State.onCont_core]
  exact ⟨_, rfl⟩

theorem State.takeBoundary_held_mode : (s.takeBoundary t).core.mode = .stopping (if t.resumable && (s.self.bind Cont.handlerOf).isNone then whyTrap else whyFault) := by
  obtain ⟨x, hx⟩ := State.takeBoundary_held hm hr t
  have hself : ((s.onCont s.selfKey fun c => { c with held := some w }).onIss fun _ => x).self = s.self.map fun c => { c with held := some w } := State.self_onCont s _
  rw [hx, State.takeTrap_core, hself, Option.bind_map]
  rfl

theorem State.takeBoundary_held_cont {c : Cont} (hc : s.self = some c) (hh : c.handlerOf = none) :
    (s.takeBoundary t).cont s.selfKey = some { c with reports := t :: c.reports, lastCause := t.cause, held := some w } := by
  obtain ⟨x, hx⟩ := State.takeBoundary_held hm hr t
  have hself : ((s.onCont s.selfKey fun c => { c with held := some w }).onIss fun _ => x).self = some { c with held := some w } := by
    refine (State.self_onCont s _).trans ?_
    rw [hc, Option.map_some]
  have hkey : ((s.onCont s.selfKey fun c => { c with held := some w }).onIss fun _ => x).selfKey = s.selfKey := by
    change (s.onCont s.selfKey _).core.res.getD 0 = s.selfKey
    rw [State.onCont_core, State.selfKey]
  have htaken := State.cont_takeTrap_resumable hself hh t
  rw [hkey] at htaken
  rw [hx]
  exact htaken

end Taken

/-! The judgement of a wait, as the two events make it. -/

/-- What stands earlier in R342 than a wait's timeout: a trap of the boundary, at a safe point the budget at zero or a mark. -/
def State.standsEarlier (s : State) : Bool := s.boundaryTrap.isSome || (s.atSafePoint && (s.ctl.budget == 0 || s.marked.isSome))

theorem State.reportTrap_of_standsEarlier {s : State} (h : s.standsEarlier = false) : s.reportTrap = none :=
  State.reportTrap_of_boundaryTrap (Option.isSome_eq_false_iff.1 (Bool.or_eq_false_iff.1 h).1 |> Option.isNone_iff_eq_none.1)

/-- The barrier that a wait names is no longer the job's (R235). -/
def State.waitGone (s : State) (w : Wait) : Bool :=
  match w.what with
  | .barrier b _ => decide ((s.barrier s.die b.toNat).job ≠ some s.jcb)
  | _ => false

section Judged
variable {s : State} {w : Wait} (hm : s.core.mode = .held w)
include hm

theorem waitConditionMet_held : exec .waitConditionMet s = .next (if (s.waitUpdate w).waitHolds w then
      (match w.what with
        | .barrier _ _ => (((s.waitUpdate w).onCont (s.waitUpdate w).selfKey fun c => { c with state := stRunning, held := none }).setMode .run).dropL1
        | _ => ((s.waitUpdate w).onCont (s.waitUpdate w).selfKey fun c => { c with state := stRunning, held := none }).setMode .run)
    else s.waitUpdate w) := by
  simp only [exec_waitConditionMet, execWaitConditionMet, State.heldWait, hm]
  cases (s.waitUpdate w).waitHolds w with
  | true => rfl
  | false => rfl

variable (hw : s.waitHolds w = false)
include hw

theorem waitTimeout_held : exec .waitTimeout s = .next (if s.standsEarlier then s
    else if s.waitGone w then s.takeBoundary { accessFault 0x04 0 0 with pc := s.core.ctx.pc.toNat }
    else if w.rem = 0 then ((s.setMode (.held { w with rem := w.lim })).takeBoundary (s.timeoutTrap w)).onIss fun i => { i with safe := s.nextSafe }
    else s.setMode (.held { w with rem := w.rem - 1 })) := by
  have hgone : s.waitGone w = match w.what with
      | .barrier b _ => !s.holdsBar b
      | _ => false := by
    unfold State.waitGone
    split
    · rw [State.holdsBar, decide_not, beq_eq_decide]
    · rfl
  simp only [exec_waitTimeout, execWaitTimeout, State.heldWait, hm, hw, hgone]
  rfl

variable (he : s.standsEarlier = false)
include he

theorem waitTimeout_counts (hg : s.waitGone w = false) (hrem : w.rem ≠ 0) : exec .waitTimeout s = .next (s.setMode (.held { w with rem := w.rem - 1 })) := by
  rw [waitTimeout_held hm hw, he, hg, if_neg hrem]
  rfl

/-- R235: the trap of a freed barrier ends the continuation. -/
theorem waitTimeout_gone (hg : s.waitGone w = true) : ∃ t, exec .waitTimeout s = .next t ∧ t.core.mode = .stopping whyFault := by
  refine ⟨s.takeBoundary { accessFault 0x04 0 0 with pc := s.core.ctx.pc.toNat }, ?_, ?_⟩
  · rw [waitTimeout_held hm hw, he, hg]
    rfl
  · exact State.takeBoundary_held_mode hm (State.reportTrap_of_standsEarlier he) _

/-- R231, R350: after its last cycle the wait is kept with its whole limit; the trap is resumable but for a handler. -/
theorem waitTimeout_expires (hg : s.waitGone w = false) (hrem : w.rem = 0) {c : Cont} (hc : s.self = some c) : ∃ t d, exec .waitTimeout s = .next t ∧
    (c.handlerOf = none → t.core.mode = .stopping whyTrap ∧ t.cont s.selfKey = some d ∧ d.reports = s.timeoutTrap w :: c.reports ∧ d.held = some { w with rem := w.lim }) ∧
    (c.handlerOf ≠ none → t.core.mode = .stopping whyFault) := by
  have hreport : (s.setMode (.held { w with rem := w.lim })).reportTrap = none := State.reportTrap_of_standsEarlier (s := s) he
  have hmode := State.takeBoundary_held_mode rfl hreport (s.timeoutTrap w)
  have hcont := State.takeBoundary_held_cont rfl hreport (s.timeoutTrap w) hc
  have hresumable : (s.timeoutTrap w).resumable = true := by
    unfold State.timeoutTrap
    cases w.what with
    | fill => rfl
    | free => rfl
    | barrier => rfl
  have hself : (s.setMode (.held { w with rem := w.lim })).self = some c := hc
  rw [hresumable, hself, Option.bind_some, Bool.true_and] at hmode
  refine ⟨((s.setMode (.held { w with rem := w.lim })).takeBoundary (s.timeoutTrap w)).onIss fun i => { i with safe := s.nextSafe },
    { c with reports := s.timeoutTrap w :: c.reports, lastCause := (s.timeoutTrap w).cause, held := some { w with rem := w.lim } }, ?_, fun hh => ⟨?_, hcont hh, rfl, rfl⟩, fun hh => ?_⟩
  · rw [waitTimeout_held hm hw, he, hg, if_pos hrem]
    rfl
  · exact hmode.trans (by rw [hh]; rfl)
  · exact hmode.trans (by rw [Option.isNone_eq_false_iff.2 (Option.isSome_iff_ne_none.2 hh)]; rfl)

end Judged

/-- Settles O28: the two events judge the wait held; the one that times out goes by what stands earlier, the barrier, the cycles that remain. -/
theorem heldWaits : Obligations.HeldWaits := by
  unfold Obligations.HeldWaits
  intro s w hm u back gone before
  exact ⟨fun hu => (waitConditionMet_held hm).trans (congrArg _ (if_pos hu)), rfl, fun hu => (waitConditionMet_held hm).trans (congrArg _ (if_neg (Bool.eq_false_iff.1 hu))),
    fun hw he => (waitTimeout_held hm hw).trans (congrArg _ (if_pos he)), fun hw he hg hrem => waitTimeout_counts hm hw he hg hrem,
    fun c hc hw he hg hrem => waitTimeout_expires hm hw he hg hrem hc, fun hw he hg => waitTimeout_gone hm hw he hg⟩

end Sys2Proof.Machine
end

section
/-! The scratchpads and tiles of a core by number, and how an engine command ends (R222 to R224, R274, R277). -/

namespace Sys2Proof.Machine

/-! A core by number: what a change of one leaves of it, of the others, of the rest. -/

theorem State.coreAt_onCoreAt (s : State) (k : Nat) (f : Core → Core) : (s.onCoreAt k f).coreAt k = f (s.coreAt k) := by
  unfold State.onCoreAt State.coreAt
  split
  · next h => rw [State.onCore_cid, if_pos h, State.onCore_core]
  · next h => exact fget_fput ..

theorem State.coreAt_onCoreAt_ne (s : State) {k e : Nat} (h : e ≠ k) (f : Core → Core) : (s.onCoreAt k f).coreAt e = s.coreAt e := by
  unfold State.onCoreAt
  split
  · next hk => rw [State.coreAt, State.coreAt, State.onCore_cid, if_neg fun he => h (he.trans hk.symm), if_neg fun he => h (he.trans hk.symm), State.onCore_cores]
  · simp only [State.coreAt, fget_fput_ne _ _ _ _ _ h]

theorem State.coreAt_of_cores {s t : State} (hid : t.cid = s.cid) (hc : t.core = s.core) (hcs : t.cores = s.cores) (k : Nat) : t.coreAt k = s.coreAt k := by
  rw [State.coreAt, State.coreAt, hid, hc, hcs]

@[simp] theorem State.onCoreAt_mem (s : State) (k : Nat) (f : Core → Core) : (s.onCoreAt k f).mem = s.mem := by unfold State.onCoreAt; split <;> rfl
@[simp] theorem State.onCoreAt_bar (s : State) (k : Nat) (f : Core → Core) : (s.onCoreAt k f).bar = s.bar := by unfold State.onCoreAt; split <;> rfl
@[simp] theorem State.onCoreAt_cmds (s : State) (k : Nat) (f : Core → Core) : (s.onCoreAt k f).cmds = s.cmds := by unfold State.onCoreAt; split <;> rfl
@[simp] theorem State.onCoreAt_sched (s : State) (k : Nat) (f : Core → Core) : (s.onCoreAt k f).sched = s.sched := by unfold State.onCoreAt; split <;> rfl

@[simp] theorem State.coreAt_onCont (s : State) (key : Nat) (f : Cont → Cont) (k : Nat) : (s.onCont key f).coreAt k = s.coreAt k :=
  State.coreAt_of_cores (State.onCont_cid ..) (State.onCont_core ..) (State.onCont_cores ..) k

@[simp] theorem State.report_mem (s : State) (key jcb : Nat) (t : Trap) : (s.report key jcb t).mem = s.mem := by
  unfold State.report
  split
  · exact State.onCont_mem ..
  · rfl
@[simp] theorem State.report_cmds (s : State) (key jcb : Nat) (t : Trap) : (s.report key jcb t).cmds = s.cmds := by
  unfold State.report
  split
  · exact State.onCont_cmds ..
  · rfl
@[simp] theorem State.coreAt_report (s : State) (key jcb : Nat) (t : Trap) (k : Nat) : (s.report key jcb t).coreAt k = s.coreAt k := by
  unfold State.report
  split
  · exact State.coreAt_onCont ..
  · rfl

@[simp] theorem State.arrive_cmds (s : State) (die n jcb : Nat) : (s.arrive die n jcb).cmds = s.cmds := by
  unfold State.arrive
  split <;> rfl
@[simp] theorem State.coreAt_arrive (s : State) (die n jcb k : Nat) : (s.arrive die n jcb).coreAt k = s.coreAt k := by
  unfold State.arrive
  split <;> rfl

/-! Rows and tiles of a core. -/

/-- A row of one of a core's scratchpads. -/
def Core.row (k : Core) (w : Bool) (r : Nat) : BitVec 2048 := fget 0 (if w then k.wmem else k.amem) r

theorem mixBits_allOnes {w : Nat} (v o : BitVec w) : mixBits (BitVec.allOnes w) v o = v := by simp [mixBits]

theorem Core.row_putRow (k : Core) (w : Bool) (r : Nat) (v : BitVec 2048) : (k.putRow w r (BitVec.allOnes 2048) v).row w r = v := by
  cases w with
  | true => exact (fget_fmod ..).trans (mixBits_allOnes ..)
  | false => exact (fget_fmod ..).trans (mixBits_allOnes ..)

theorem Core.row_putRow_ne (k : Core) (w : Bool) {r x : Nat} (h : x ≠ r) (m v : BitVec 2048) : (k.putRow w r m v).row w x = k.row w x := by
  cases w with
  | true => exact fget_fmod_ne _ _ _ _ _ h
  | false => exact fget_fmod_ne _ _ _ _ _ h

@[simp] theorem Core.tile_putRow (k : Core) (w : Bool) (r : Nat) (m v : BitVec 2048) (x : Bool) (t : Nat) : (k.putRow w r m v).tile x t = k.tile x t := by
  cases w with
  | true => rfl
  | false => rfl

theorem Core.tile_setTile (k : Core) (w : Bool) (t : Nat) (f : Tile → Tile) : (k.setTile w t f).tile w t = f (k.tile w t) := by
  cases w with
  | true => exact fget_fmod ..
  | false => exact fget_fmod ..

theorem Core.tile_setTile_ne (k : Core) (w : Bool) {t x : Nat} (h : x ≠ t) (f : Tile → Tile) : (k.setTile w t f).tile w x = k.tile w x := by
  cases w with
  | true => exact fget_fmod_ne _ _ _ _ _ h
  | false => exact fget_fmod_ne _ _ _ _ _ h

@[simp] theorem Core.setTile_amem (k : Core) (w : Bool) (t : Nat) (f : Tile → Tile) : (k.setTile w t f).amem = k.amem := by
  unfold Core.setTile
  split <;> rfl
@[simp] theorem Core.setTile_wmem (k : Core) (w : Bool) (t : Nat) (f : Tile → Tile) : (k.setTile w t f).wmem = k.wmem := by
  unfold Core.setTile
  split <;> rfl
@[simp] theorem Core.setOwner_amem (k : Core) (w : Bool) (ts : List Nat) (o : BitVec 2) : (k.setOwner w ts o).amem = k.amem := by
  unfold Core.setOwner
  induction ts generalizing k with
  | nil => rfl
  | cons t ts ih => rw [List.foldl_cons, ih, Core.setTile_amem]
@[simp] theorem Core.setOwner_wmem (k : Core) (w : Bool) (ts : List Nat) (o : BitVec 2) : (k.setOwner w ts o).wmem = k.wmem := by
  unfold Core.setOwner
  induction ts generalizing k with
  | nil => rfl
  | cons t ts ih => rw [List.foldl_cons, ih, Core.setTile_wmem]
@[simp] theorem Core.row_setOwner (k : Core) (w : Bool) (ts : List Nat) (o : BitVec 2) (x : Bool) (r : Nat) : (k.setOwner w ts o).row x r = k.row x r := by
  rw [Core.row, Core.row, Core.setOwner_amem, Core.setOwner_wmem]

theorem Core.owner_setOwner (k : Core) (w : Bool) (ts : List Nat) (o : BitVec 2) (n : Nat) :
    ((k.setOwner w ts o).tile w n).owner = if n ∈ ts then o else (k.tile w n).owner := by
  unfold Core.setOwner
  induction ts generalizing k with
  | nil => rfl
  | cons t ts ih =>
    rw [List.foldl_cons, ih]
    by_cases ht : n = t
    · simp [ht, Core.tile_setTile]
    · simp [ht, Core.tile_setTile_ne]

/-! The end of a command. -/

theorem State.cmd_dropCmd (s : State) (id : Nat) : (s.dropCmd id).cmd id = none := by
  refine List.find?_eq_none.2 fun c hc => ?_
  have hne := (List.mem_filter.1 hc).2
  simpa using hne

theorem State.cmd_of_cmds {s t : State} (h : t.cmds = s.cmds) (id : Nat) : t.cmd id = s.cmd id := by rw [State.cmd, State.cmd, h]

@[simp] theorem State.handBack_mem (s : State) (c : Cmd) : (s.handBack c).mem = s.mem := by
  unfold State.handBack
  split
  · rfl
  · exact State.onCoreAt_mem ..
@[simp] theorem State.handBack_bar (s : State) (c : Cmd) : (s.handBack c).bar = s.bar := by
  unfold State.handBack
  split
  · rfl
  · exact State.onCoreAt_bar ..
@[simp] theorem State.handBack_sched (s : State) (c : Cmd) : (s.handBack c).sched = s.sched := by
  unfold State.handBack
  split
  · rfl
  · exact State.onCoreAt_sched ..

/-- R222: a command that is no ring's leaves every tile that is still its job's in state T. -/
theorem State.handBack_owner {s : State} {c : Cmd} (hr : c.isRing = false) {n : Nat} (hn : n ∈ c.tiles)
    (ht : ((s.coreAt c.core).tile c.tilesW n).jtag = s.jtag c.die c.jcb) : (((s.handBack c).coreAt c.core).tile c.tilesW n).owner = 0 := by
  rw [State.handBack, hr, if_neg Bool.false_ne_true, State.coreAt_onCoreAt, Core.owner_setOwner]
  split
  · rfl
  · next hout =>
    by_contra howner
    refine hout (List.mem_filter.2 ⟨hn, ?_⟩)
    rw [ht, beq_self_eq_true, Bool.true_and]
    exact bne_iff_ne.2 howner

/-- The faces of a failed exchange that are not at their receivers are not sent (R224). -/
def State.dropFaces (s : State) (id : Nat) : State := { s with faces := s.faces.filter fun f => f.cmd != id || s.faceHere f }

section Ends
variable {s : State} {c : Cmd} (hc : s.cmd c.id = some c) (he : s.canEnd c = true)
include hc he

theorem completion_arrives (hf : c.fail = none) (hs : c.status = none) (hb : c.byFaces = false) :
    exec (.engineCommandCompletion c.id) s = .next (((s.handBack c).dropCmd c.id).arriveCmd c) := by
  simp only [exec_engineCommandCompletion, execEngineCommandCompletion, hc, he, hf, hs, hb]
  rfl

theorem failure_reported {t : Trap} (hf : c.fail = some t) :
    exec (.engineFailureReport c.id) s = .next ((((s.dropFaces c.id).handBack c).dropCmd c.id).reportCmd c t) := by
  simp only [exec_engineFailureReport, execEngineFailureReport, hc, he, hf]
  rfl

end Ends

/-- R235: the arrival as a write of the barriers. -/
theorem State.arrive_bar {s : State} {die n jcb : Nat} (h : (s.barrier die n).job = some jcb) :
    (s.arrive die n jcb).bar = fput Barrier.reset (die * 64 + n)
      { job := some jcb, count := if (s.barrier die n).count = BitVec.allOnes 32 then BitVec.allOnes 32 else (s.barrier die n).count + 1 } s.bar := by
  rw [State.arrive, if_pos h, ← h]
  refine congrArg (fput Barrier.reset _ · s.bar) (congrArg (Barrier.mk · _) ?_)
  exact ite_congr rfl id fun _ => rfl

/-- Settles O31: a command without failure returns its tiles and arrives, one with a failure returns them and is reported; neither does more. -/
theorem commandEnds : Obligations.CommandEnds := by
  unfold Obligations.CommandEnds
  intro s c hc he back
  refine ⟨fun hf hs hb hj => ?_, fun f k hf hk => ?_⟩
  · have hbar : ((s.handBack c).dropCmd c.id).bar = s.bar := State.handBack_bar s c
    have hbarrier := State.barrier_of_bar hbar c.die (barOf c.i).toNat
    have hheld : (((s.handBack c).dropCmd c.id).barrier c.die (barOf c.i).toNat).job = some c.jcb := by rw [hbarrier, hj]
    have harrive : ((s.handBack c).dropCmd c.id).arriveCmd c = ((s.handBack c).dropCmd c.id).arrive c.die (barOf c.i).toNat c.jcb := if_pos hheld
    refine ⟨((s.handBack c).dropCmd c.id).arrive c.die (barOf c.i).toNat c.jcb, (completion_arrives hc he hf hs hb).trans (by rw [harrive]), ?_, (State.arrive_mem ..).trans (State.handBack_mem s c), fun hr n hn ht => ?_, ?_⟩
    · rw [State.cmd_of_cmds (State.arrive_cmds ..), State.cmd_dropCmd]
    · rw [State.coreAt_arrive]
      exact State.handBack_owner hr hn ht
    · rw [State.arrive_bar hheld, hbarrier, hbar]
  · have hcont : (((s.dropFaces c.id).handBack c).dropCmd c.id).cont c.handle = some k :=
      (congrArg (fun x : Sched => fget none x.conts c.handle) (State.handBack_sched (s.dropFaces c.id) c)).trans hk
    refine ⟨_, _, failure_reported hc he hf, ?_, (State.report_bar ..).trans (State.handBack_bar ..), (State.report_mem ..).trans (State.handBack_mem ..), fun hr n hn ht => ?_,
      State.cont_report hcont _ _, rfl⟩
    · rw [State.reportCmd, State.cmd_of_cmds (State.report_cmds ..), State.cmd_dropCmd]
    · rw [State.reportCmd, State.coreAt_report]
      exact State.handBack_owner (s := s.dropFaces c.id) hr hn ht

end Sys2Proof.Machine
end

section
/-! Named pipes, ring copies, halo faces and re-shardings step by step (R228, R239, R316, R393, R427). -/

namespace Sys2Proof.Machine

/-! Named pipes (R316): the rows of a tile, one after another. -/

theorem Core.padFlaw_of_good {k : Core} (h : k.padBad = []) (w diag : Bool) (addr n : Nat) : k.padFlaw w diag addr n = none := by
  unfold Core.padFlaw
  rw [h]
  rfl

theorem Core.row_foldl_putRow (k : Core) (w : Bool) (base n : Nat) (g : Nat → BitVec 2048) (r : Nat) :
    ((List.range n).foldl (fun k i => k.putRow w (base + i) (BitVec.allOnes 2048) (g i)) k).row w r = if base ≤ r ∧ r < base + n then g (r - base) else k.row w r := by
  induction n with
  | zero => rw [if_neg (by omega)]; rfl
  | succ n ih =>
    rw [List.range_succ, List.foldl_append, List.foldl_cons, List.foldl_nil]
    by_cases hr : r = base + n
    · rw [hr, Core.row_putRow, if_pos (by omega), Nat.add_sub_cancel_left]
    · rw [Core.row_putRow_ne _ _ hr, ih]
      exact ite_congr (propext ⟨fun h => by omega, fun h => by omega⟩) (fun _ => rfl) fun _ => rfl

section FoldOnCore
variable {α : Type} (b : Nat) (g : α → Core → Core) (l : List α) (s : State)

theorem State.coreAt_foldl_onCoreAt : (l.foldl (fun u i => u.onCoreAt b (g i)) s).coreAt b = l.foldl (fun k i => g i k) (s.coreAt b) := by
  induction l generalizing s with
  | nil => rfl
  | cons i l ih => rw [List.foldl_cons, ih, State.coreAt_onCoreAt, List.foldl_cons]

theorem State.coreAt_foldl_onCoreAt_ne {a : Nat} (h : a ≠ b) : (l.foldl (fun u i => u.onCoreAt b (g i)) s).coreAt a = s.coreAt a := by
  induction l generalizing s with
  | nil => rfl
  | cons i l ih => rw [List.foldl_cons, ih, State.coreAt_onCoreAt_ne _ h]

theorem State.foldl_onCoreAt_mem : (l.foldl (fun u i => u.onCoreAt b (g i)) s).mem = s.mem := by
  induction l generalizing s with
  | nil => rfl
  | cons i l ih => rw [List.foldl_cons, ih, State.onCoreAt_mem]

end FoldOnCore

/-- The 64 rows of a tile of core a become those of a tile of core b; both tiles return, the consumer's first (R316). -/
def State.piped (s : State) (a b x y : Nat) : State :=
  (((List.range 64).foldl (fun u i => u.onCoreAt b fun k => k.putRow false (64 * y + i) (BitVec.allOnes 2048) ((s.coreAt a).row false (64 * x + i))) s).onCoreAt
    b fun k => k.setOwner false [y] ownT).onCoreAt a fun k => k.setOwner false [x] ownT

theorem pipeTileCopy_pipes {s : State} {g : Gang} {p : Pipe} {n a b : Nat} (hg : s.sched.gangs.find? (fun x => x.id == g.id) = some g) (hp : g.pipes[n]? = some p)
    (ha : g.cores[p.fromStage]? = some a) (hb : g.cores[p.toStage]? = some b) (hready : s.pipeReady g p = true) (hgood : (s.coreAt a).padBad = []) :
    ∃ f, exec (.pipeTileCopy g.id n) s = .next ((s.piped a b (p.ptile + p.prod % p.depth) (p.ctile + p.cons % p.depth)).onSched f) := by
  simp only [exec_pipeTileCopy, execPipeTileCopy, hg, hp, ha, hb, hready, Core.padFlaw_of_good hgood, Bool.not_true, Bool.false_eq_true, if_false]
  exact ⟨_, rfl⟩

section Piped
variable (s : State) {a b : Nat} (hab : a ≠ b) (x y : Nat)

theorem State.piped_mem : (s.piped a b x y).mem = s.mem :=
  (State.onCoreAt_mem ..).trans ((State.onCoreAt_mem ..).trans (State.foldl_onCoreAt_mem ..))

include hab

theorem State.piped_from : (s.piped a b x y).coreAt a = (s.coreAt a).setOwner false [x] ownT := by
  rw [State.piped, State.coreAt_onCoreAt, State.coreAt_onCoreAt_ne _ hab, State.coreAt_foldl_onCoreAt_ne _ _ _ _ hab]

theorem State.piped_to_row (r : Nat) : ((s.piped a b x y).coreAt b).row false r =
    if 64 * y ≤ r ∧ r < 64 * y + 64 then (s.coreAt a).row false (64 * x + (r - 64 * y)) else (s.coreAt b).row false r := by
  rw [State.piped, State.coreAt_onCoreAt_ne _ hab.symm, State.coreAt_onCoreAt, Core.row_setOwner, State.coreAt_foldl_onCoreAt, Core.row_foldl_putRow]

theorem State.piped_to_owner : (((s.piped a b x y).coreAt b).tile false y).owner = 0 := by
  rw [State.piped, State.coreAt_onCoreAt_ne _ hab.symm, State.coreAt_onCoreAt, Core.owner_setOwner, if_pos (.head _)]
  rfl

theorem State.piped_from_owner : (((s.piped a b x y).coreAt a).tile false x).owner = 0 := by
  rw [State.piped_from s hab, Core.owner_setOwner, if_pos (.head _)]
  rfl

theorem State.piped_from_amem : ((s.piped a b x y).coreAt a).amem = (s.coreAt a).amem := by
  rw [State.piped_from s hab, Core.setOwner_amem]

end Piped

/-! Halo faces (R239). -/

section Faces
variable {s : State} {f : Face} {c : Cmd} (hf : s.faces.find? (fun x => x.id == f.id) = some f) (ht : s.faceTarget f = some c) (hh : s.faceHere f = true)
include hf ht hh

/-- The face leaves; of another generation it is reported, else it is in the border and counted among its exchange's. -/
theorem haloFaceArrival_here :
    let rest := { s with faces := s.faces.filter fun x => x.id ≠ f.id }
    let u := (rest.onCoreAt c.core fun k => c.st.writeFace k f.dir f.bytes).onCmd c.id fun x => { x with aux := x.aux ++ [f.dir] }
    exec (.haloFaceArrival f.id) s = .next (if (s.layEnt f.dst f.jcb (c.args.getD 1 0)).gen ≠ f.gen then
        rest.report f.handle f.jcb { remoteFault 0x04 0 f.dst with pc := f.pc, opc := opcOf c.i }
      else if (hxFaces c.i).length ≤ c.aux.length + 1 then (if u.facesSent c then ((u.handBack c).finishCmd c.id).arriveCmd c else u.onCmd c.id fun x => { x with pos := 2 })
      else u.arriveCmd c) := by
  simp only [exec_haloFaceArrival, execHaloFaceArrival, hf, ht, hh]
  rfl

end Faces

/-! Re-shardings (R393). -/

theorem State.cmd_onCmd (s : State) (id : Nat) {f : Cmd → Cmd} (hf : ∀ x, (f x).id = x.id) : (s.onCmd id f).cmd id = (s.cmd id).map f := by
  unfold State.cmd State.onCmd
  rw [List.find?_map]
  have hp : (fun c : Cmd => c.id == id) ∘ (fun c => if c.id == id then f c else c) = fun c => c.id == id := by
    funext c
    rw [Function.comp_apply]
    split
    · rw [hf]
    · rfl
  rw [hp]
  cases hfind : s.cmds.find? (fun c => c.id == id) with
  | none => rfl
  | some c => rw [Option.map_some, Option.map_some, if_pos (List.find?_some hfind)]

theorem State.cmd_finishCmd {s : State} {id : Nat} {c : Cmd} (h : s.cmd id = some c) : (s.finishCmd id).cmd id = some { c with finished := true } :=
  (State.cmd_onCmd s id (f := fun c => { c with finished := true }) fun _ => rfl).trans (congrArg (Option.map _) h)

theorem State.layEnt_onLayEnt {s : State} {die jcb e : Nat} {l : LayCopy} (hl : s.layCopy die jcb = some l) (he : e < l.ents.length) (f : LyEnt → LyEnt) :
    (s.onLayEnt die jcb e f).layEnt die jcb e = f (s.layEnt die jcb e) := by
  have hcopy : (s.onLayEnt die jcb e f).layCopy die jcb = some { l with ents := l.ents.modify e f } := by
    unfold State.layCopy State.onLayEnt at *
    have hp : (fun l : LayCopy => l.die == die && l.jcb == jcb) ∘ (fun l => if l.die == die && l.jcb == jcb then { l with ents := l.ents.modify e f } else l) =
        fun l => l.die == die && l.jcb == jcb := by
      funext l
      rw [Function.comp_apply]
      split
      · rfl
      · rfl
    rw [List.find?_map, hp, hl, Option.map_some, if_pos (List.find?_some hl)]
  simp only [State.layEnt, hcopy, hl, List.getD_eq_getElem?_getD, List.getElem?_modify, List.getElem?_eq_getElem he, if_true, Option.getD_some]
  rfl

section Resharding
variable {s : State} {c : Cmd} {e v : BitVec 4} {br : BitVec 6} (hc : s.cmd c.id = some c) (hi : c.i = .reshard e v br) (hr : s.stepReady c = true)
include hc hi hr

theorem reshardStep_ready : let x := s.vslot c.die v.toNat
    exec (.reshardStep c.id) s = .next (s.goStep c e v (x.step c.pos) x.group) := by
  have hof : reshardOf c.i = some (e, v) := by rw [hi]; rfl
  simp only [exec_reshardStep, execReshardStep, hc, hof, hr]
  rfl

/-- A step whose peer is no member of the group fails the command. -/
theorem reshardStep_noPeer (hphase : c.aux.getD 0 0 = 0) (hpeer : s.groupOk (s.vslot c.die v.toNat).group = false ∨
      (s.vslot c.die v.toNat).group.size ≤ ((s.vslot c.die v.toNat).step c.pos).peer) :
    exec (.reshardStep c.id) s = .next (s.failCmd c.id (accessFault 0x04 0 0)) := by
  have hbad : (!s.groupOk (s.vslot c.die v.toNat).group) = true ∨ (s.vslot c.die v.toNat).group.size ≤ ((s.vslot c.die v.toNat).step c.pos).peer :=
    hpeer.imp_left fun h => by rw [h]; rfl
  rw [reshardStep_ready hc hi hr]
  simp only [State.goStep, hphase, if_pos hbad]

/-- A step that has read its data goes on to send them. -/
theorem reshardStep_read {u : State} (hphase : c.aux.getD 0 0 = 1)
    (hw : s.engFetch c [(((s.vslot c.die v.toNat).step c.pos).src % 2 ^ 56, ((s.vslot c.die v.toNat).step c.pos).len)] = .done u) :
    exec (.reshardStep c.id) s = .next (u.onCmd c.id fun y => { y with aux := [2] }) := by
  rw [reshardStep_ready hc hi hr]
  simp only [State.goStep, hphase, hw, Work.andThen]

/-- A step that has sent its data awaits their acknowledgement. -/
theorem reshardStep_sent {u : State} (hphase : c.aux.getD 0 0 = 2)
    (hw : s.engWrite c [(((s.vslot c.die v.toNat).step c.pos).dst % 2 ^ 56, ((s.vslot c.die v.toNat).step c.pos).len)] c.buf = .done u) :
    exec (.reshardStep c.id) s = .next (u.onCmd c.id fun y => { y with aux := [3] }) := by
  rw [reshardStep_ready hc hi hr]
  simp only [State.goStep, hphase, hw, Work.andThen]

section Sent
variable (hphase : 3 ≤ c.aux.getD 0 0)
include hphase

theorem reshardStep_awaits : exec (.reshardStep c.id) s = .next (if s.cmdIdle c.id then
      s.endStep c e v ((s.vslot c.die v.toNat).step c.pos) (s.member (s.vslot c.die v.toNat).group ((s.vslot c.die v.toNat).step c.pos).peer) else s) := by
  obtain ⟨k, hk⟩ : ∃ k, c.aux.getD 0 0 = k + 3 := ⟨_, (Nat.sub_add_cancel hphase).symm⟩
  rw [reshardStep_ready hc hi hr]
  simp only [State.goStep, hk]

/-- A step without a token ends as soon as its data are acknowledged. -/
theorem reshardStep_ends (hidle : s.cmdIdle c.id = true) (htoken : ((s.vslot c.die v.toNat).step c.pos).tstep = 0xFFFF) :
    exec (.reshardStep c.id) s = .next (s.nextStep c e v c.pos) := by
  rw [reshardStep_awaits hc hi hr hphase, hidle, if_pos rfl, State.endStep, if_pos htoken]

end Sent

end Resharding

/-- What the end of a re-sharding's schedule leaves: the entry as the image says under a new GEN, the slot free. -/
def State.resharded (s : State) (c : Cmd) (e v : BitVec 4) : State :=
  (s.onLayEnt c.die c.jcb e.toNat fun y => { y with
      kind := BitVec.ofNat 2 ((s.vslot c.die v.toNat).f 4 1), shape := BitVec.ofNat 48 ((s.vslot c.die v.toNat).f 8 6), gen := y.gen + 1, busy := false }).onVslot
    c.die v.toNat fun y => { y with inUse := false }

theorem State.nextStep_last {s : State} {c : Cmd} {v : BitVec 4} (hlast : (s.vslot c.die v.toNat).nstep ≤ c.pos + 1) (e : BitVec 4) :
    s.nextStep c e v c.pos = (s.resharded c e v).finishCmd c.id := if_neg (Nat.not_lt.2 hlast)

theorem State.vslot_resharded (s : State) (c : Cmd) (e v : BitVec 4) : ((s.resharded c e v).vslot c.die v.toNat).inUse = false := by
  rw [State.resharded, State.vslot_onVslot]


/-! Global memory as an engine reaches it: the pieces of a row (R374, R427). -/

section Pieces
variable {s : State} {c : Cmd} {rs : List (Nat × Nat)} {va n pa : Nat} (f : Nat)

theorem State.fetchGo_done {buf : List (BitVec 8)} (hn : nextPiece rs buf.length = none) : s.fetchGo c rs (f + 1) buf = .done (s.onCmd c.id fun x => { x with buf := buf }) := by
  simp only [State.fetchGo, hn]

theorem State.fetchGo_here {buf : List (BitVec 8)} (hn : nextPiece rs buf.length = some (va, n)) (hh : s.engHome c .read false va = .at s pa) (hd : paDie pa = c.die)
    (hf : s.flawed pa n = false) : s.fetchGo c rs (f + 1) buf = s.fetchGo c rs f (buf ++ s.rdBytes pa n) := by
  simp only [State.fetchGo, hn, hh, hd, hf, if_true, Bool.false_eq_true, if_false]

theorem State.writeGo_done {bs : List (BitVec 8)} {p : Nat} (hn : nextPiece rs p = none) : s.writeGo c rs bs (f + 1) p = .done (s.onCmd c.id fun x => { x with sent := 0 }) := by
  simp only [State.writeGo, hn]

theorem State.writeGo_here {bs : List (BitVec 8)} {p : Nat} (hn : nextPiece rs p = some (va, n)) (hh : s.engHome c .write true va = .at s pa) (hd : paDie pa = c.die) :
    s.writeGo c rs bs (f + 1) p = ((s.wrBytes pa ((bs.drop p).take n)).credit c.id n).writeGo c rs bs f (p + n) := by
  simp only [State.writeGo, hn, hh, hd, if_true]

end Pieces

/-! A row of global memory: 256 bytes at a multiple of 256, so in one page, in two pieces. -/

/-- Within a block of 256 bytes nothing crosses a boundary of a larger power of two. -/
theorem block_div_mod {k va d : Nat} (hk : 256 ∣ k) (hal : va % 256 = 0) (hd : d < 256) : (va + d) / k = va / k ∧ (va + d) % k = va % k + d := by
  obtain ⟨m, rfl⟩ := hk
  have hdiv : (va + d) / 256 = va / 256 := by omega
  have hmod : (va + d) % 256 = d := by omega
  exact ⟨by rw [← Nat.div_div_eq_div_mul, ← Nat.div_div_eq_div_mul, hdiv], by rw [Nat.mod_mul, Nat.mod_mul, hdiv, hmod, hal]; omega⟩

theorem pageSize_dvd (l : Nat) : 2 ^ 16 ∣ pageSize l := by
  unfold pageSize lvlLo
  split
  · exact pow_dvd_pow 2 (by omega)
  · exact pow_dvd_pow 2 (by omega)
  · exact pow_dvd_pow 2 (by omega)
  · exact pow_dvd_pow 2 (by omega)

section Address
variable {va d : Nat} (hal : va % 256 = 0) (hd : d < 256)
include hal hd

theorem page_block (l : Nat) : (va + d) / pageSize l = va / pageSize l ∧ (va + d) % pageSize l = va % pageSize l + d :=
  block_div_mod (Dvd.dvd.trans (by decide) (pageSize_dvd l)) hal hd

theorem paDie_block : paDie (va + d) = paDie va := by
  rw [paDie, paDie, (block_div_mod (by decide) hal hd).1]

theorem paOff_block : paOff (va + d) = paOff va + d := (block_div_mod (by decide) hal hd).2

theorem leafHit_block (hlt : va < 2 ^ 56) (l : List Leaf) (die asid : Nat) : leafHit l die asid (va + d) = leafHit l die asid va := by
  unfold leafHit
  rw [Nat.mod_eq_of_lt hlt, Nat.mod_eq_of_lt (by omega : va + d < 2 ^ 56)]
  refine congrArg (List.find? · l) (funext fun x => ?_)
  rw [(page_block hal hd x.level).1]

/-- The fabric window and the safe tier begin at multiples of 256 (R387, R407). -/
theorem inWindow_block (h : inWindow va = false) : inWindow (va + d) = false := by
  have hoff : paOff va % 256 = 0 := by unfold paOff; omega
  unfold inWindow windowOff at *
  rw [decide_eq_false_iff_not] at *
  rw [paOff_block hal hd]
  omega

theorem State.paBad_block {s : State} (hw : inWindow va = false) (h : s.paBad va = false) : s.paBad (va + d) = false := by
  have hoff : paOff va % 256 = 0 := by unfold paOff; omega
  have hwin := inWindow_block hal hd hw
  unfold State.paBad inWindow State.safeBase windowOff at *
  rw [paDie_block hal hd]
  rw [paOff_block hal hd] at *
  rw [Bool.or_eq_false_iff, Bool.and_eq_false_iff] at *
  simp only [decide_eq_false_iff_not] at *
  refine ⟨h.1, .inl ?_⟩
  omega

end Address

theorem State.leafPa_ok {s : State} {e l va pa : Nat} {k : Acc} (h : s.leafPa e l va k = .ok pa) : pa = ptPage e + va % pageSize l ∧ s.paBad pa = false := by
  simp only [State.leafPa] at h
  split_ifs at h with h1 h2 h3 h4
  injection h with h
  exact ⟨h.symm, by rw [← h]; exact Bool.eq_false_iff.2 h4⟩

theorem State.leafPa_aligned {s : State} {e l va pa : Nat} {k : Acc} (h : s.leafPa e l va k = .ok pa) (hal : va % 256 = 0) : pa % 256 = 0 := by
  obtain ⟨m, hm⟩ : 256 ∣ pageSize l := Dvd.dvd.trans (by decide) (pageSize_dvd l)
  have hoff : va % pageSize l % 256 = 0 := by rw [hm, Nat.mod_mul_right_mod, hal]
  rw [(State.leafPa_ok h).1, ptPage]
  omega

theorem State.leafPa_block {s : State} {e l va pa d : Nat} {k : Acc} (h : s.leafPa e l va k = .ok pa) (hw : inWindow pa = false) (hal : va % 256 = 0) (hd : d < 256) :
    s.leafPa e l (va + d) k = .ok (pa + d) := by
  obtain ⟨hpa, hbad⟩ := State.leafPa_ok h
  have hbad' := State.paBad_block (State.leafPa_aligned h hal) hd hw hbad
  have haddr : ptPage e + (va + d) % pageSize l = pa + d := by rw [(page_block hal hd l).2, hpa, Nat.add_assoc]
  simp only [State.leafPa] at h ⊢
  split_ifs at h with h1 h2 h3 h4
  rw [if_neg h1, if_neg h2, if_neg h3, haddr, hbad', if_neg Bool.false_ne_true]

theorem nextPiece_cons {va n p : Nat} (h : p < n) (r : List (Nat × Nat)) : nextPiece ((va, n) :: r) p =
    some ((va + p) % 2 ^ 56, min (n - p) (min (192 - (va + p) % 2 ^ 56 % 64) (2 ^ 16 - (va + p) % 2 ^ 56 % 2 ^ 16))) := if_pos h

theorem nextPiece_row {va : Nat} (hlt : va < 2 ^ 56) (hal : va % 256 = 0) :
    nextPiece [(va, 256)] 0 = some (va, 192) ∧ nextPiece [(va, 256)] 192 = some (va + 192, 64) ∧ nextPiece [(va, 256)] 256 = none := by
  refine ⟨?_, ?_, rfl⟩
  · rw [nextPiece_cons (by decide), Nat.mod_eq_of_lt (by omega)]
    exact congrArg some (Prod.ext rfl (by simp only; omega))
  · rw [nextPiece_cons (by decide), Nat.mod_eq_of_lt (by omega)]
    exact congrArg some (Prod.ext rfl (by simp only; omega))

theorem memRead_append (m : List Host.Cell) (pa n k : Nat) : memRead m pa n ++ memRead m (pa + n) k = memRead m pa (n + k) := by
  induction n generalizing pa with
  | zero => rw [Nat.zero_add]; rfl
  | succ n ih =>
    rw [Nat.succ_add, memRead, memRead, List.cons_append, ← ih (pa + 1), Nat.add_assoc, Nat.add_comm 1]

theorem memWrite_append (m : List Host.Cell) (pa : Nat) (bs cs : List (BitVec 8)) : memWrite (memWrite m pa bs) (pa + bs.length) cs = memWrite m pa (bs ++ cs) := by
  induction bs generalizing m pa with
  | nil => rfl
  | cons b bs ih => rw [memWrite, List.cons_append, memWrite, ← ih, List.length_cons, Nat.add_assoc, Nat.add_comm 1]

/-- A range within one that holds no error holds none (R279). -/
theorem State.flawed_within {s : State} {pa n q k : Nat} (h : s.flawed pa n = false) (hlo : pa ≤ q) (hhi : q + k ≤ pa + n) : s.flawed q k = false := by
  unfold State.flawed at *
  rw [List.any_eq_false] at *
  intro w hw
  have hout := h w hw
  rw [Bool.and_eq_true, decide_eq_true_eq, decide_eq_true_eq] at *
  have := Nat.div_le_div_right (c := 8) hlo
  omega

/-- The fuel an engine has for a row: two pieces and the end take three of it. -/
theorem rangesLen_row (va : Nat) : rangesLen [(va, 256)] + 1 = 254 + 1 + 1 + 1 := rfl

/-- A row as an engine writes it, in two pieces, each counted for a handler that awaits the command's bytes (R247). -/
def State.rowWritten (s : State) (c : Cmd) (pa : Nat) (bs : List (BitVec 8)) : State :=
  (((s.wrBytes pa (bs.take 192)).credit c.id 192).wrBytes (pa + 192) (bs.drop 192)).credit c.id 64

theorem State.rowWritten_mem (s : State) (c : Cmd) (pa : Nat) {bs : List (BitVec 8)} (hl : bs.length = 256) : (s.rowWritten c pa bs).mem = memWrite s.mem pa bs := by
  have htake : (bs.take 192).length = 192 := by rw [List.length_take, hl]; rfl
  have happend := memWrite_append s.mem pa (bs.take 192) (bs.drop 192)
  rw [htake, List.take_append_drop] at happend
  exact happend

section Row
variable {s : State} {c : Cmd} {x : Leaf} {va pa : Nat} {k : Acc} (hlt : va < 2 ^ 56) (hal : va % 256 = 0) (hx : leafHit s.xl.leaf c.die c.asid va = some x)
  (hpa : s.leafPa x.entry.toNat x.level va k = .ok pa) (hw : inWindow pa = false) (hd : paDie pa = c.die)
include hlt hal hx hpa hw hd

/-- A row of a page that the translation unit holds, at home here, is where its page says (R290). -/
theorem State.engHome_row {d : Nat} (hd' : d < 256) (bulk : Bool) : s.engHome c k bulk (va + d) = .at s (pa + d) ∧ paDie (pa + d) = c.die := by
  have hpal := State.leafPa_aligned hpa hal
  have hdie : paDie (pa + d) = c.die := (paDie_block hpal hd').trans hd
  have hmod : (va + d) % 2 ^ 56 = va + d := Nat.mod_eq_of_lt (by omega)
  have hhit := (leafHit_block hal hd' hlt s.xl.leaf c.die c.asid).trans hx
  have hok := State.leafPa_block hpa hw hal hd'
  have hno : ¬(paDie (pa + d) ≠ c.die ∧ (s.routeOf bulk c.die (paDie (pa + d))).isNone = true) := fun h => h.1 hdie
  refine ⟨?_, hdie⟩
  simp only [State.engHome, State.tuXlate, State.judged, hmod, hhit, hok, inWindow_block hpal hd' hw, Bool.false_eq_true, if_false, if_neg hno]

theorem State.engFetch_row (hk : k = .read) (hb : c.buf = []) (hf : s.flawed pa 256 = false) :
    s.engFetch c [(va, 256)] = .done (s.onCmd c.id fun y => { y with buf := s.rdBytes pa 256 }) := by
  subst hk
  obtain ⟨hp0, hp1, hp2⟩ := nextPiece_row hlt hal
  obtain ⟨hh0, -⟩ := State.engHome_row hlt hal hx hpa hw hd (d := 0) (by decide) false
  rw [Nat.add_zero, Nat.add_zero] at hh0
  obtain ⟨hh1, hd1⟩ := State.engHome_row hlt hal hx hpa hw hd (d := 192) (by decide) false
  have hf0 : s.flawed pa 192 = false := State.flawed_within hf (by omega) (by omega)
  have hf1 : s.flawed (pa + 192) 64 = false := State.flawed_within hf (by omega) (by omega)
  have hlen : (s.rdBytes pa 192).length = 192 := State.rdBytes_length ..
  have hall : s.rdBytes pa 192 ++ s.rdBytes (pa + 192) 64 = s.rdBytes pa 256 := memRead_append s.mem pa 192 64
  rw [State.engFetch, rangesLen_row, hb, State.fetchGo_here _ hp0 hh0 hd hf0, List.nil_append, State.fetchGo_here _ (hlen ▸ hp1) hh1 hd1 hf1, hall,
    State.fetchGo_done _ ((State.rdBytes_length s pa 256).symm ▸ hp2)]

theorem State.engWrite_row (hk : k = .write) (hs : c.sent = 0) {bs : List (BitVec 8)} (hl : bs.length = 256) :
    s.engWrite c [(va, 256)] bs = .done ((s.rowWritten c pa bs).onCmd c.id fun y => { y with sent := 0 }) := by
  subst hk
  obtain ⟨hp0, hp1, hp2⟩ := nextPiece_row hlt hal
  obtain ⟨hh0, -⟩ := State.engHome_row hlt hal hx hpa hw hd (d := 0) (by decide) true
  rw [Nat.add_zero, Nat.add_zero] at hh0
  obtain ⟨hh1, hd1⟩ := State.engHome_row (s := (s.wrBytes pa (bs.take 192)).credit c.id 192) hlt hal hx hpa hw hd (d := 192) (by decide) true
  have hrest : (bs.drop 192).take 64 = bs.drop 192 := List.take_of_length_le (by rw [List.length_drop, hl])
  rw [State.engWrite, rangesLen_row, hs, State.writeGo_here _ hp0 hh0 hd, List.drop_zero, State.writeGo_here _ hp1 hh1 hd1, hrest, State.writeGo_done _ hp2]
  rfl

end Row

/-! Ring blocks, row by row (R228). -/

/-- A copy has moved a row. -/
def State.rowMoved (s : State) (c : Cmd) : State := s.onCmd c.id fun x => { x with pos := c.pos + 1, buf := [], sent := 0, due := s.now + 1 }
/-- With the last row of a block its tile is the thread's. -/
def State.blockEnded (s : State) (c : Cmd) : State := if c.pos % 64 = 63 then s.onCoreAt c.core fun k => k.setOwner c.tilesW [c.ringTile] ownT else s
/-- What follows a row of a ring's block. -/
def State.ringStep (s : State) (c : Cmd) (f : EcopyF) : State :=
  if f.rows.toNat ≤ c.pos + 1 then ((s.rowMoved c).blockEnded c).finishCmd c.id else (s.rowMoved c).blockEnded c

theorem rowVa_lt (ga : Nat) (stride : BitVec 32) (i : Nat) : rowVa ga stride i < 2 ^ 56 :=
  (Nat.div_mul_le_self ..).trans_lt (wrapN_lt ..)

theorem rowVa_aligned (ga : Nat) (stride : BitVec 32) (i : Nat) : rowVa ga stride i % 256 = 0 := Nat.mul_mod_left ..

theorem unfinished_of_ringReady {s : State} {c : Cmd} {f : EcopyF} (hi : c.i = .ecopy f) (hr : s.ringReady c = true) : c.finished = false := by
  simp only [State.ringReady, hi, Cmd.active, Bool.and_eq_true, Bool.not_eq_true'] at hr
  exact hr.1.1.1.1.2.1.2

theorem ringBlockTransfer_moves {s u : State} {c : Cmd} {f : EcopyF} (hc : s.cmd c.id = some c) (hi : c.i = .ecopy f) (hr : s.ringReady c = true)
    (hw : s.copyRow c f.out (64 * c.ringTile + c.pos % 64) (rowVa (c.args.getD 0 0) f.stride c.pos) = .done u) :
    exec (.ringBlockTransfer c.id) s = .next (u.ringStep c f) := by
  simp only [exec_ringBlockTransfer, execRingBlockTransfer, hc, hi, hr, State.stepCopy, hw]
  rfl

section RingStep
variable (s : State) (c : Cmd) (f : EcopyF)

theorem State.blockEnded_mem : (s.blockEnded c).mem = s.mem := by
  unfold State.blockEnded
  split
  · exact State.onCoreAt_mem ..
  · rfl

theorem State.blockEnded_cmds : (s.blockEnded c).cmds = s.cmds := by
  unfold State.blockEnded
  split
  · exact State.onCoreAt_cmds ..
  · rfl

theorem State.blockEnded_core : (s.blockEnded c).coreAt c.core = if c.pos % 64 = 63 then (s.coreAt c.core).setOwner c.tilesW [c.ringTile] ownT else s.coreAt c.core := by
  unfold State.blockEnded
  split
  · exact State.coreAt_onCoreAt ..
  · rfl

theorem State.ringStep_mem : (s.ringStep c f).mem = s.mem := by
  unfold State.ringStep
  split
  · exact State.blockEnded_mem (s.rowMoved c) c
  · exact State.blockEnded_mem (s.rowMoved c) c

theorem State.ringStep_core : (s.ringStep c f).coreAt c.core = if c.pos % 64 = 63 then (s.coreAt c.core).setOwner c.tilesW [c.ringTile] ownT else s.coreAt c.core := by
  unfold State.ringStep
  split
  · exact State.blockEnded_core (s.rowMoved c) c
  · exact State.blockEnded_core (s.rowMoved c) c

theorem State.ringStep_row (w : Bool) (r : Nat) : ((s.ringStep c f).coreAt c.core).row w r = (s.coreAt c.core).row w r := by
  rw [State.ringStep_core]
  split
  · exact Core.row_setOwner ..
  · rfl

theorem State.ringStep_owner (h : c.pos % 64 = 63) : (((s.ringStep c f).coreAt c.core).tile c.tilesW c.ringTile).owner = 0 := by
  rw [State.ringStep_core, if_pos h, Core.owner_setOwner, if_pos (.head _)]
  rfl

theorem State.ringStep_tile (h : c.pos % 64 ≠ 63) : ((s.ringStep c f).coreAt c.core).tile c.tilesW c.ringTile = (s.coreAt c.core).tile c.tilesW c.ringTile := by
  rw [State.ringStep_core, if_neg h]

theorem State.ringStep_cmd {s : State} {c z : Cmd} (h : s.cmd c.id = some z) (hz : z.finished = false) (f : EcopyF) :
    ∃ y, (s.ringStep c f).cmd c.id = some y ∧ y.pos = c.pos + 1 ∧ y.finished = decide (f.rows.toNat ≤ c.pos + 1) := by
  have hmoved : ((s.rowMoved c).blockEnded c).cmd c.id = some { z with pos := c.pos + 1, buf := [], sent := 0, due := s.now + 1 } := by
    rw [State.cmd_of_cmds (State.blockEnded_cmds ..), State.rowMoved, State.cmd_onCmd s c.id (f := fun x => { x with pos := c.pos + 1, buf := [], sent := 0, due := s.now + 1 }) fun _ => rfl, h]
    rfl
  unfold State.ringStep
  split
  · next hlast => exact ⟨_, State.cmd_finishCmd hmoved, rfl, (decide_eq_true hlast).symm⟩
  · next hmore => exact ⟨_, hmoved, rfl, hz.trans (decide_eq_false hmore).symm⟩

end RingStep

/-! The row that a copy moves. -/

section CopyRow
variable {s : State} {c : Cmd} {x : Leaf} {va pa : Nat} {k : Acc} (hlt : va < 2 ^ 56) (hal : va % 256 = 0) (hx : leafHit s.xl.leaf c.die c.asid va = some x)
  (hpa : s.leafPa x.entry.toNat x.level va k = .ok pa) (hw : inWindow pa = false) (hd : paDie pa = c.die) (hc : s.cmd c.id = some c) (row : Nat)
include hlt hal hx hpa hw hd hc

/-- A row without an error goes out to memory. -/
theorem State.copyRow_out (hk : k = .write) (hs : c.sent = 0) (hgood : (s.coreAt c.core).padBad = []) : ∃ u z, s.copyRow c true row va = .done u ∧
    u.cmd c.id = some z ∧ z.finished = c.finished ∧ u.mem = memWrite s.mem pa (natLe 256 ((s.coreAt c.core).row c.tilesW row).toNat) ∧ u.coreAt c.core = s.coreAt c.core := by
  have hl : (natLe 256 ((s.coreAt c.core).row c.tilesW row).toNat).length = 256 := natLe_length ..
  generalize hbs : natLe 256 ((s.coreAt c.core).row c.tilesW row).toNat = bs at hl ⊢
  have hmoves : s.copyRow c true row va = s.engWrite c [(va, 256)] bs := by
    rw [← hbs]
    simp only [State.copyRow, if_true, Core.padFlaw_of_good hgood, Core.row]
  have hcmd : (s.rowWritten c pa bs).cmd c.id = some c := hc
  refine ⟨(s.rowWritten c pa bs).onCmd c.id fun y => { y with sent := 0 }, { c with sent := 0 }, hmoves.trans (State.engWrite_row hlt hal hx hpa hw hd hk hs hl), ?_, rfl,
    (State.onCmd_mem ..).trans (State.rowWritten_mem s c pa hl), rfl⟩
  exact (State.cmd_onCmd _ c.id (f := fun y => { y with sent := 0 }) fun _ => rfl).trans (congrArg (Option.map _) hcmd)

/-- A row of memory without an error comes in. -/
theorem State.copyRow_in (hk : k = .read) (hb : c.buf = []) (hf : s.flawed pa 256 = false) : ∃ u z, s.copyRow c false row va = .done u ∧
    u.cmd c.id = some z ∧ z.finished = c.finished ∧ u.mem = s.mem ∧
    u.coreAt c.core = (s.coreAt c.core).putRow c.tilesW row (BitVec.allOnes 2048) (BitVec.ofNat 2048 (s.rd pa 256)) := by
  have hcmd : (s.onCmd c.id fun y => { y with buf := s.rdBytes pa 256 }).cmd c.id = some { c with buf := s.rdBytes pa 256 } :=
    (State.cmd_onCmd s c.id (f := fun y => { y with buf := s.rdBytes pa 256 }) fun _ => rfl).trans (congrArg (Option.map _) hc)
  have hbuf : (s.onCmd c.id fun y => { y with buf := s.rdBytes pa 256 }).cmdBuf c.id = s.rdBytes pa 256 := by
    rw [State.cmdBuf, hcmd]
    rfl
  refine ⟨(s.onCmd c.id fun y => { y with buf := s.rdBytes pa 256 }).onCoreAt c.core fun q => q.putRow c.tilesW row (BitVec.allOnes 2048) (BitVec.ofNat 2048 (s.rd pa 256)),
    { c with buf := s.rdBytes pa 256 }, ?_, (State.cmd_of_cmds (State.onCoreAt_cmds ..) _).trans hcmd, rfl, State.onCoreAt_mem .., State.coreAt_onCoreAt ..⟩
  simp only [State.copyRow, State.engFetch_row hlt hal hx hpa hw hd hk hb hf, hbuf, State.rd, Bool.false_eq_true, if_false]

end CopyRow

/-- Settles O32: pipes by the rows they copy, ring blocks by the one row that moves, faces by their generation, re-shardings phase by phase. -/
theorem engineSteps : Obligations.EngineSteps := by
  unfold Obligations.EngineSteps
  refine ⟨?pipes, ?rings, ?faces, ?reshardings⟩
  case pipes =>
    intro s g p n a b hg hp ha hb hab hready hgood x y
    obtain ⟨h, hexec⟩ := pipeTileCopy_pipes hg hp ha hb hready hgood
    refine ⟨(s.piped a b x y).onSched h, hexec, fun i hi => ?_, fun r hr => ?_, State.piped_from_amem s hab x y, State.piped_from_owner s hab x y, State.piped_to_owner s hab x y,
      State.piped_mem s x y⟩
    · exact (State.piped_to_row s hab x y (64 * y + i)).trans (by rw [if_pos (by omega), Nat.add_sub_cancel_left]; rfl)
    · exact (State.piped_to_row s hab x y r).trans (if_neg (by omega))
  case rings =>
    intro s c f x pa hc hi hr hb hs hgood row va file hx hpa hw hd hf
    have hlt : va < 2 ^ 56 := rowVa_lt ..
    have hal : va % 256 = 0 := rowVa_aligned ..
    have hgoing := unfinished_of_ringReady hi hr
    cases hout : f.out with
    | true =>
      obtain ⟨u, z, hrow, hcmd, hz, hmem, hcore⟩ := State.copyRow_out hlt hal hx hpa hw hd hc row (by rw [hout]; rfl) hs hgood
      obtain ⟨y, hy, hpos, hfin⟩ := State.ringStep_cmd hcmd (hz.trans hgoing) f
      have hmem' := (State.ringStep_mem u c f).trans hmem
      have hl : (natLe 256 ((s.coreAt c.core).row c.tilesW row).toNat).length = 256 := natLe_length ..
      have hread := memRead_memWrite s.mem pa (natLe 256 ((s.coreAt c.core).row c.tilesW row).toNat)
      rw [hl] at hread
      refine ⟨u.ringStep c f, y, ringBlockTransfer_moves hc hi hr (hout ▸ hrow), hy, hpos, hfin, fun _ => ⟨?_, fun a ha => ?_, fun r => ?_⟩, nofun, State.ringStep_owner u c f, fun h => ?_⟩
      · rw [State.rdBytes, hmem']
        exact hread
      · rw [State.rdByte, hmem']
        exact memWrite_frame _ _ _ _ (by rw [hl]; exact ha)
      · exact (State.ringStep_row u c f c.tilesW r).trans (by rw [hcore]; rfl)
      · rw [State.ringStep_tile u c f h, hcore]
    | false =>
      obtain ⟨u, z, hrow, hcmd, hz, hmem, hcore⟩ := State.copyRow_in hlt hal hx hpa hw hd hc row (by rw [hout]; rfl) hb (hf hout)
      obtain ⟨y, hy, hpos, hfin⟩ := State.ringStep_cmd hcmd (hz.trans hgoing) f
      refine ⟨u.ringStep c f, y, ringBlockTransfer_moves hc hi hr (hout ▸ hrow), hy, hpos, hfin, nofun, fun _ => ⟨(State.ringStep_mem u c f).trans hmem, ?_, fun r hr => ?_⟩,
        State.ringStep_owner u c f, fun h => ?_⟩
      · exact (State.ringStep_row u c f c.tilesW row).trans (by rw [hcore, Core.row_putRow])
      · exact (State.ringStep_row u c f c.tilesW r).trans (by rw [hcore, Core.row_putRow_ne _ _ hr]; rfl)
      · rw [State.ringStep_tile u c f h, hcore, Core.tile_putRow]
  case faces =>
    intro s f c hf ht hh rest u
    refine ⟨fun hgen => ?_, fun hgen hmore => ?_, fun hgen hlast => ?_⟩
    · exact (haloFaceArrival_here hf ht hh).trans (congrArg _ (if_pos hgen))
    · exact (haloFaceArrival_here hf ht hh).trans (congrArg _ ((if_neg (not_not.2 hgen)).trans (if_neg (Nat.not_le.2 hmore))))
    · exact (haloFaceArrival_here hf ht hh).trans (congrArg _ ((if_neg (not_not.2 hgen)).trans (if_pos hlast)))
  case reshardings =>
    intro s u c e v br hc hi hr x st phase
    refine ⟨reshardStep_noPeer hc hi hr, reshardStep_read hc hi hr, reshardStep_sent hc hi hr, fun hp hidle => ?_, fun hp hidle htok hmore => ?_, fun hp hidle htok hlast => ?_⟩
    · rw [reshardStep_awaits hc hi hr hp, hidle, if_neg Bool.false_ne_true]
    · exact (reshardStep_ends hc hi hr hp hidle htok).trans (congrArg _ (if_pos hmore))
    · have hcmd : (s.resharded c e v).cmd c.id = some c := hc
      exact ⟨(s.resharded c e v).finishCmd c.id, _, (reshardStep_ends hc hi hr hp hidle htok).trans (congrArg _ (State.nextStep_last hlast e)), State.cmd_finishCmd hcmd, rfl,
        State.vslot_resharded s c e v, rfl, fun l hl he => State.layEnt_onLayEnt hl he _⟩

end Sys2Proof.Machine
end

section
/-! The end of a job: what its completion condition removes, what its signal frees (R337). -/

namespace Sys2Proof.Machine

/-- What a sparse map holds of a key is its default or an entry of the list. -/
theorem fget_eq_default_or_mem {α : Type} (d : α) (k : Nat) (m : FMap α) : fget d m k = d ∨ (k, fget d m k) ∈ m := by
  induction m with
  | nil => exact .inl rfl
  | cons e r ih =>
    obtain ⟨k', v'⟩ := e
    rw [fget]
    split_ifs with hlt heq
    · exact .inl rfl
    · subst heq
      exact .inr (List.mem_cons_self ..)
    · exact ih.imp_right (List.mem_cons_of_mem _)

/-! A step that only takes from the scheduler. -/

/-- The second state has the memory and the traps of the first, and neither a continuation nor a ready entry that the first lacks. -/
structure State.Sheds (s t : State) : Prop where
  mem : t.mem = s.mem
  traps : t.sched.traps = s.sched.traps
  ready : t.sched.ready ⊆ s.sched.ready
  conts : ∀ {k c}, t.cont k = some c → s.cont k = some c

namespace State.Sheds
variable {s t u : State}

theorem refl : s.Sheds s := ⟨.refl _, .refl _, List.Subset.refl _, id⟩
theorem trans (h : s.Sheds t) (k : t.Sheds u) : s.Sheds u := ⟨k.mem.trans h.mem, k.traps.trans h.traps, List.Subset.trans k.ready h.ready, fun hc => h.conts (k.conts hc)⟩
theorem of_sched (hm : t.mem = s.mem) (hs : t.sched = s.sched) : s.Sheds t :=
  ⟨hm, congrArg Sched.traps hs, by rw [hs]; exact List.Subset.refl _, fun {k c} h => (congrArg (fun x : Sched => fget none x.conts k) hs).symm.trans h⟩
theorem foldl {α : Type} {f : State → α → State} (hf : ∀ (u : State) (a : α), u.Sheds (f u a)) (l : List α) (s : State) : s.Sheds (l.foldl f s) := by
  induction l generalizing s with
  | nil => exact refl
  | cons a l ih => exact (hf s a).trans (ih _)

end State.Sheds

/-! Releasing continuations and stopping residents. -/

/-- A continuation that is released is in no ready entry and stands no more; the rest of the scheduler has only its end noted. -/
theorem State.release_some {s : State} {k : Nat} {c : Cont} (h : s.cont k = some c) :
    (s.release k).mem = s.mem ∧ (s.release k).sched = { s.sched with
      ready := s.sched.ready.filter fun r => r.item != .cont k
      ended := s.sched.ended ++ [{ key := k, jcb := c.jcb, deadline := c.deadline }]
      conts := fput none k none s.sched.conts } := by
  cases hb : c.bound with
  | none => simp [State.release, State.setCont, h, hb]
  | some b =>
    cases hk : s.kdesc (keyDie k) (jcbAsid s c.jcb) c.kdesc.toNat with
    | error _ => simp [State.release, State.setCont, h, hb, hk]
    | ok d => simp [State.release, State.setCont, State.tilesFreed, h, hb, hk]

theorem State.release_none {s : State} {k : Nat} (h : s.cont k = none) : s.release k = s := by
  unfold State.release
  rw [h]

theorem State.cont_release (s : State) (k : Nat) : (s.release k).cont k = none := by
  cases h : s.cont k with
  | none => rw [State.release_none h, h]
  | some c => rw [State.cont, (State.release_some h).2, fget_fput]

theorem State.sheds_release (s : State) (k : Nat) : s.Sheds (s.release k) := by
  cases h : s.cont k with
  | none => rw [State.release_none h]; exact .refl
  | some c =>
    obtain ⟨hmem, hsched⟩ := State.release_some h
    refine ⟨hmem, by rw [hsched], by rw [hsched]; exact List.filter_subset_self _, fun {j x} hx => ?_⟩
    by_cases hj : j = k
    · subst hj
      rw [State.cont_release] at hx
      cases hx
    · rwa [State.cont, hsched, fget_fput_ne _ _ _ _ _ hj] at hx

theorem State.cont_foldl_release {ks : List Nat} {k : Nat} (h : k ∈ ks) (s : State) : (ks.foldl State.release s).cont k = none := by
  induction ks generalizing s with
  | nil => cases h
  | cons j ks ih =>
    rcases List.mem_cons.1 h with rfl | h
    · have hsheds := State.Sheds.foldl State.sheds_release ks (s.release k)
      refine Option.eq_none_iff_forall_ne_some.2 fun c hc => ?_
      have hstill := hsheds.conts hc
      rw [State.cont_release] at hstill
      cases hstill
    · exact ih h _

theorem State.sheds_stopResident (s : State) (jcb cid : Nat) : s.Sheds (s.stopResident jcb cid) := by
  have hcore : ∀ f, s.Sheds (s.onCoreAt cid f) := fun f => .of_sched (State.onCoreAt_mem ..) (State.onCoreAt_sched ..)
  unfold State.stopResident
  dsimp only
  split
  · exact .refl
  · split
    · exact hcore _
    · exact hcore _
    · split
      · exact hcore _
      · exact .refl
    · exact .refl

/-! The completion condition (R337, R367). -/

/-- The ready entries, the gangs and the traps of a job are gone. -/
def State.dropJob (s : State) (jcb : Nat) : State :=
  s.onSched fun x => { x with ready := x.ready.filter fun r => !s.itemOf jcb r, gangs := x.gangs.filter fun g => pktJcb g.packet != jcb, traps := x.traps.filter fun t => t.jcb != jcb }

/-- The continuations of a job that are on no core. -/
def State.offCore (s : State) (jcb : Nat) : List Nat :=
  (s.sched.conts.filter fun p => (p.2.elim false fun c => c.jcb == jcb) && (s.residentOn p.1).isNone).map Prod.fst

/-- The records in flight of a job's stage sets are abandoned. -/
def State.abandonRecords (s : State) (jcb : Nat) : State :=
  { s with sets := s.sets.map fun (t : Nat × TSet) => if t.2.holder = some jcb then (t.1, { t.2 with places := [] }) else t }

theorem State.sheds_abandonRecords (s : State) (jcb : Nat) : s.Sheds (s.abandonRecords jcb) := .of_sched rfl rfl

/-- The job at its completion condition: its other continuations released, its records abandoned, its residents to stop. -/
def State.completed (s : State) (jcb : Nat) : State :=
  let u := ((s.offCore jcb).foldl State.release (s.dropJob jcb)).abandonRecords jcb
  u.coreIds.foldl (fun t c => t.stopResident jcb c) u

theorem exec_jobCompletion_of_ending {s : State} {jcb : Nat} (h : (s.sched.ending.any fun e => e.jcb == jcb) = true) :
    exec (.jobCompletion jcb) s = .next (s.completed jcb) := by
  simp only [exec_jobCompletion, execJobCompletion, h, Bool.not_true, Bool.false_eq_true, if_false]
  rfl

/-- After the releases nothing comes back. -/
theorem State.sheds_completed_of_released (s : State) (jcb : Nat) : ((s.offCore jcb).foldl State.release (s.dropJob jcb)).Sheds (s.completed jcb) :=
  (State.sheds_abandonRecords _ jcb).trans (.foldl (fun t c => t.sheds_stopResident jcb c) _ _)

theorem State.sheds_completed (s : State) (jcb : Nat) : (s.dropJob jcb).Sheds (s.completed jcb) :=
  .trans (.foldl State.sheds_release _ _) (s.sheds_completed_of_released jcb)

/-- A continuation of the job that is on no core is one of those released. -/
theorem State.mem_offCore {s : State} {jcb k : Nat} {c : Cont} (hc : s.cont k = some c) (hj : c.jcb = jcb) (hr : s.residentOn k = none) : k ∈ s.offCore jcb := by
  obtain hnone | hmem := fget_eq_default_or_mem none k s.sched.conts
  · rw [State.cont, hnone] at hc
    cases hc
  · change (k, s.cont k) ∈ _ at hmem
    rw [hc] at hmem
    refine List.mem_map.2 ⟨_, List.mem_filter.2 ⟨hmem, ?_⟩, rfl⟩
    simp [hj, hr]

/-! The signal (R337 steps 3 to 5). -/

/-- What a write of memory and a change of a core leave as it was, of what a job's signal frees or reads. -/
def State.books (s : State) : Clk × FMap Barrier × List LayCopy × Sched := (s.clk, s.bar, s.lay, s.sched)

theorem State.books_onCoreAt (s : State) (cid : Nat) (f : Core → Core) : (s.onCoreAt cid f).books = s.books := by
  unfold State.onCoreAt
  split <;> rfl

theorem State.books_wr (s : State) (pa n v : Nat) : (s.wr pa n v).books = s.books := rfl

theorem State.books_wrVirt (s : State) (die asid va : Nat) (bs : List (BitVec 8)) : (s.wrVirt die asid va bs).1.books = s.books := by
  suffices hgo : ∀ (n : Nat) (u : State) (va : Nat) (bs : List (BitVec 8)), (State.wrVirt.go die asid n u va bs).1.books = u.books from hgo ..
  intro n
  induction n with
  | zero => exact fun _ _ _ => rfl
  | succ n ih =>
    intro u va bs
    unfold State.wrVirt.go
    split
    · rfl
    · dsimp only
      split
      · rfl
      · exact ih ..

theorem State.books_foldl {α : Type} {f : State → α → State} (hf : ∀ u a, (f u a).books = u.books) (l : List α) (s : State) : (l.foldl f s).books = s.books := by
  induction l generalizing s with
  | nil => rfl
  | cons a l ih => exact (ih _).trans (hf s a)

/-- The books once a job's barriers, layout copies and tags are free. -/
def freedBooks (jcb : Nat) (b : Clk × FMap Barrier × List LayCopy × Sched) : Clk × FMap Barrier × List LayCopy × Sched :=
  (b.1, b.2.1.filter fun x => x.2.job != some jcb, b.2.2.1.filter fun l => l.jcb != jcb, { b.2.2.2 with
    jtags := b.2.2.2.jtags.filter fun t => t.jcb != jcb
    lostTags := b.2.2.2.lostTags.filter fun t => t.jcb != jcb
    lostSets := b.2.2.2.lostSets.filter fun t => t.2.holder != some jcb
    ended := b.2.2.2.ended.filter fun e => e.jcb != jcb })

theorem State.books_freeJob (s : State) (jcb : Nat) : (s.freeJob jcb).books = freedBooks jcb s.books := by
  unfold State.freeJob
  extract_lets u tags v w
  have himages : u.books = s.books := State.books_foldl (fun _ _ => State.books_wrVirt ..) _ _
  have hcaches : v.books = u.books := State.books_foldl (fun _ _ => State.books_onCoreAt ..) _ _
  have htiles : w.books = v.books := State.books_foldl (fun x cid => by
    split
    · rfl
    · exact State.books_onCoreAt ..) _ _
  exact congrArg (freedBooks jcb) (htiles.trans (hcaches.trans himages))

/-- The job is no longer at its end. -/
def State.strikeEnding (s : State) (jcb : Nat) : State := s.onSched fun x => { x with ending := x.ending.filter fun e => e.jcb != jcb }

/-- With its books freed and its end struck off, no barrier, layout copy or tag is the job's. -/
theorem State.strikeEnding_of_books {s t : State} {jcb : Nat} (h : t.books = freedBooks jcb s.books) : (t.strikeEnding jcb).mem = t.mem ∧
    ((t.strikeEnding jcb).sched.ending.any fun e => e.jcb == jcb) = false ∧ (∀ n, (fget Barrier.reset (t.strikeEnding jcb).bar n).job ≠ some jcb) ∧
    (∀ l ∈ (t.strikeEnding jcb).lay, l.jcb ≠ jcb) ∧ ∀ x ∈ (t.strikeEnding jcb).sched.jtags, x.jcb ≠ jcb := by
  have hbar : (t.strikeEnding jcb).bar = s.bar.filter fun b => b.2.job != some jcb := congrArg (fun b => b.2.1) h
  have hlay : (t.strikeEnding jcb).lay = s.lay.filter fun l => l.jcb != jcb := congrArg (fun b => b.2.2.1) h
  have htags : (t.strikeEnding jcb).sched.jtags = s.sched.jtags.filter fun x => x.jcb != jcb := congrArg (fun b => b.2.2.2.jtags) h
  rw [hbar, hlay, htags]
  refine ⟨rfl, by simp [State.strikeEnding], fun n hn => ?_, fun l hl => bne_iff_ne.1 (List.mem_filter.1 hl).2, fun x hx => bne_iff_ne.1 (List.mem_filter.1 hx).2⟩
  obtain hreset | hmem := fget_eq_default_or_mem Barrier.reset n (s.bar.filter fun b => b.2.job != some jcb)
  · rw [hreset] at hn
    cases hn
  · exact bne_iff_ne.1 (List.mem_filter.1 hmem).2 hn

theorem State.timeb_of_clk {s t : State} (h : t.clk = s.clk) : t.timeb = s.timeb := by rw [State.timeb, State.timeb, h]

/-- R337: the job's holdings go, then COMPLETE, TDONE and SIGVAL are written, in that order, and the job is no longer at its end. -/
theorem exec_completionSignal_of_drained {s : State} {jcb : Nat} (h : (s.sched.ending.any fun e => e.jcb == jcb) = true) (hd : s.jobDrained jcb = true) :
    let u := s.freeJob jcb
    let v := u.wr (jcb + 0xA) 1 (jcbFlags u jcb ||| 2)
    let w := v.wr (jcb + 0x50) 8 s.timeb
    exec (.completionSignal jcb) s = .next ((w.wrVirt (paDie jcb) (jcbAsid w jcb) (jcbSigaddr w jcb) (natLe 8 (jcbSigval w jcb))).1.strikeEnding jcb) := by
  intro u v w
  have htime : v.timeb = s.timeb := State.timeb_of_clk (congrArg Prod.fst (State.books_freeJob s jcb))
  simp only [exec_completionSignal, execCompletionSignal, h, hd, Bool.not_true, Bool.or_false, Bool.false_eq_true, if_false, w, ← htime]
  rfl

/-- Settles O38: what the completion condition leaves is shed by steps that only take away, and what the signal leaves is the freed books with the job's end struck off. -/
theorem jobEnds : Obligations.JobEnds := by
  unfold Obligations.JobEnds
  intro s jcb hend
  refine ⟨?_, fun hd => ?_⟩
  · obtain ⟨hmem, htraps, hready, hconts⟩ := s.sheds_completed jcb
    refine ⟨s.completed jcb, exec_jobCompletion_of_ending hend, fun k c hk hj => ?_, fun x hx => ?_, fun r hr p n hitem hp => ?_, hmem⟩
    · by_contra hres
      have hbefore : s.cont k = some c := hconts hk
      have hgone := State.cont_foldl_release (State.mem_offCore hbefore hj (Option.not_isSome_iff_eq_none.1 hres)) (s.dropJob jcb)
      rw [(s.sheds_completed_of_released jcb).conts hk] at hgone
      cases hgone
    · rw [htraps] at hx
      exact bne_iff_ne.1 (List.mem_filter.1 hx).2
    · have hother := (List.mem_filter.1 (hready hr)).2
      simp [State.itemOf, hitem, hp] at hother
  · intro u v w
    have hbooks : (w.wrVirt (paDie jcb) (jcbAsid w jcb) (jcbSigaddr w jcb) (natLe 8 (jcbSigval w jcb))).1.books = freedBooks jcb s.books :=
      (State.books_wrVirt ..).trans ((State.books_wr ..).trans ((State.books_wr ..).trans (State.books_freeJob s jcb)))
    exact ⟨_, exec_completionSignal_of_drained hend hd, State.strikeEnding_of_books hbooks⟩

end Sys2Proof.Machine
end

section
/-! Tasks, job counts, slices and deliberate traps at issue (R249 to R257, R263). -/

namespace Sys2Proof.Machine

/-- A check that passes leaves the next of the list to be made. -/
theorem firstTrap_next {a : Option Trap} (h : a = none) (l : List (Option Trap)) : firstTrap (a :: l) = firstTrap l := by rw [h]; rfl

/-! What the checks of the slot see of the resident continuation. -/

section Resident
variable {s : State} {c : Cont} (hself : s.self = some c)
include hself

theorem State.inStage_of_self : s.inStage = c.record.isSome := by rw [State.inStage, hself]
theorem State.posted_of_self : s.posted = c.posted := by rw [State.posted, hself]
theorem State.stageTrap_of_self (hr : c.record = none) : s.stageTrap? = none :=
  State.stageTrap_outside ((State.inStage_of_self hself).trans (by rw [hr]; rfl))
/-- R253: before the continuation's own posting a raise goes on. -/
theorem State.lateTrap_unposted (hp : c.posted = false) (n : Nat) : s.lateTrap n = none := by
  rw [State.lateTrap, State.posted_of_self hself, hp, if_neg Bool.false_ne_true]
theorem State.lateTrap_posted (hp : c.posted = true) (n : Nat) : s.lateTrap n = some { cause := cLate, info0 := n } := by
  rw [State.lateTrap, State.posted_of_self hself, hp, if_pos rfl]

end Resident

/-- What the entry of a `done` says of a handler: its record, its target, the class of its trap (R349). -/
def handlerWords : Option (Nat × Option Nat × Bool) → List Nat
  | some (rec, target, resumable) => [1, rec, target.elim 0 (· + 1), b2n resumable]
  | none => [0, 0, 0, 0]

section Tasks
variable {s : State} {c : Cont} {f : SpawnF} {a b : BitVec 5} {sc : Scope} {j : Bool} (hself : s.self = some c)
include hself

/-- R250: the child as the entry of a `spawn` names it. -/
theorem spawn_emits (hr : c.record = none) (hdie : s.dieOk (if f.remote then (s.rs f.g).toNat % 2 ^ 23 else s.die) = true) (hp : f.raise = true → c.posted = false) :
    Emits (.spawn f) s [(1, .queue false true (.spawn f) [if f.remote then (s.rs f.g).toNat % 2 ^ 23 else s.die, (s.rs f.a).toNat,
      if f.d = 0 then s.ctl.deadline.toNat else (s.rs f.d).toNat, (s.selfKdesc.code + 4 * f.entry.toNat) % 2 ^ 56, c.kdesc.toNat] 0 0)] := by
  have hlate : (if f.raise then s.lateTrap 1 else none) = none := by
    split
    · next hraise => exact State.lateTrap_unposted hself (hp hraise) 1
    · rfl
  have hhere : limitIf (!s.dieOk (if f.remote then (s.rs f.g).toNat % 2 ^ 23 else s.die)) 0 0 = none := limitIf_false (by rw [hdie]; rfl) ..
  rw [Emits, exec_spawn, execSpawn]
  refine (State.checked_passes (firstTrap_cons_none (State.stageTrap_of_self hself hr) (firstTrap_cons_none hhere (firstTrap_cons_none hlate rfl))) _).trans ?_
  simp only [hself]
  rfl

theorem spawn_late (hr : c.record = none) (hdie : s.dieOk (if f.remote then (s.rs f.g).toNat % 2 ^ 23 else s.die) = true) (hraise : f.raise = true) (hp : c.posted = true) :
    Raises (.spawn f) s { cause := cLate, info0 := 1 } := by
  have hlate : (if f.raise then s.lateTrap 1 else none) = some { cause := cLate, info0 := 1 } := (if_pos hraise).trans (State.lateTrap_posted hself hp 1)
  have hhere : limitIf (!s.dieOk (if f.remote then (s.rs f.g).toNat % 2 ^ 23 else s.die)) 0 0 = none := limitIf_false (by rw [hdie]; rfl) ..
  rw [Raises, exec_spawn, execSpawn]
  exact State.checked_fails ((firstTrap_next (State.stageTrap_of_self hself hr) _).trans ((firstTrap_next hhere _).trans (firstTrap_first hlate _))) _

/-- R252: whether a `done` posts is judged by the J form, by the posting so far and by the stage; a post sets POSTED (log entry 52). -/
theorem exec_done_of_self (j : Bool) :
    let post := j && !c.posted && !c.record.isSome
    let t := (s.emit 1 (.queue false true (.done j) (b2n post :: handlerWords c.handlerOf) 0 0)).emitEnd (.ends post)
    exec (.done j) s = .next (if post then t.emit 1 .posted else t) := by
  intro post t
  rw [exec_done, execDone, State.posted_of_self hself, State.inStage_of_self hself, hself, Option.bind_some]
  cases hh : c.handlerOf with
  | none => simp only [t, post, hh]; rfl
  | some h =>
    obtain ⟨rec, target, resumable⟩ := h
    simp only [t, post, hh]
    cases target <;> rfl

theorem done_without_post (h : j = false ∨ c.posted = true ∨ c.record.isSome = true) :
    exec (.done j) s = .next ((s.emit 1 (.queue false true (.done j) (0 :: handlerWords c.handlerOf) 0 0)).emitEnd (.ends false)) := by
  have hpost : (j && !c.posted && !c.record.isSome) = false := by
    rcases h with h | h | h
    · simp [h]
    · simp [h]
    · simp [h]
  rw [exec_done_of_self hself, hpost]
  rfl

theorem done_with_post (hj : j = true) (hp : c.posted = false) (hr : c.record = none) :
    exec (.done j) s = .next (((s.emit 1 (.queue false true (.done j) (1 :: handlerWords c.handlerOf) 0 0)).emitEnd (.ends true)).emit 1 .posted) := by
  have hpost : (j && !c.posted && !c.record.isSome) = true := by simp [hj, hp, hr]
  rw [exec_done_of_self hself, hpost]
  rfl

theorem jraise_emits (hr : c.record = none) (hp : c.posted = false) :
    Emits (.jraise a) s [(1, .queue false true (.jraise a) [(s.rs a).toNat % 2 ^ 32] 0 0)] := by
  rw [Emits, exec_jraise, execJraise]
  exact State.checked_passes (orTrap_none (State.stageTrap_of_self hself hr) (State.lateTrap_unposted hself hp _)) _

theorem jraise_late (hr : c.record = none) (hp : c.posted = true) : Raises (.jraise a) s { cause := cLate, info0 := (s.rs a).toNat % 2 ^ 32 } := by
  rw [Raises, exec_jraise, execJraise, State.stageTrap_of_self hself hr]
  exact State.checked_fails (State.lateTrap_posted hself hp _) _

/-- R254: the bit of the word, and the post of `cpost.j`. -/
theorem cpost_checked (hr : c.record = none) :
    let idx := (s.rs b).toNat % 2 ^ 32
    let t := s.emit 1 (.queue false true (.cpost a b sc j) [((s.rs a).toNat + 8 * (idx / 64)) % 2 ^ 56 / 8 * 8, idx % 64, b2n (j && !c.posted), b2n (a != 0)] 0 0)
    exec (.cpost a b sc j) s = .next (if j && !c.posted then t.emit 1 .posted else t) := by
  intro idx t
  rw [exec_cpost, execCpost, State.checked_passes (State.stageTrap_of_self hself hr), State.posted_of_self hself]
  rfl

end Tasks

/-- R256: both writes, then the yield, at the end of the bundle. -/
theorem slice_emitsEnd (s : State) (b : BitVec 5) (j : Bool) (lo hi : BitVec 32) :
    EmitsEnd (.slice b j lo hi) s ([.ctl 0x08 (hi ++ lo)] ++ (if b = 0 then [] else [.ctl 0x09 (s.rs b)]) ++ if j then [.yield] else []) := by
  rw [EmitsEnd, exec_slice, execSlice, List.foldl_append, List.foldl_append]
  have hbudget : (if b = 0 then s.emitEnd (.ctl 0x08 (hi ++ lo)) else (s.emitEnd (.ctl 0x08 (hi ++ lo))).emitEnd (.ctl 0x09 (s.rs b))) =
      (if b = 0 then [] else [Eff.ctl 0x09 (s.rs b)]).foldl State.emitEnd (s.emitEnd (.ctl 0x08 (hi ++ lo))) := by
    split <;> rfl
  cases j with
  | false => exact congrArg Host.Outcome.next hbudget
  | true => exact congrArg (fun t => Host.Outcome.next (State.emitEnd t .yield)) hbudget

/-- Settles O24: each form goes by its checks of the resident continuation, and what it leaves is its entry and its effects. -/
theorem taskForms : Obligations.TaskForms := by
  unfold Obligations.TaskForms
  intro s f a b sc j lo hi c hself die deadline n idx word
  refine ⟨spawn_emits hself, spawn_late hself, fun hh hpost => ?_, fun hh hj hp hr => ?_, fun rec target resumable hh hpost => ?_, jraise_emits hself, jraise_late hself,
    fun hr hpost => ?_, fun hr hj hp => ?_, slice_emitsEnd s b j lo hi, rfl, rfl, rfl⟩
  · rw [done_without_post hself hpost, hh]
    rfl
  · rw [done_with_post hself hj hp hr, hh]
    rfl
  · rw [done_without_post hself hpost, hh]
    rfl
  · have hno : (j && !c.posted) = false := by
      rcases hpost with h | h
      · simp [h]
      · simp [h]
    rw [Emits, cpost_checked hself hr, hno]
    rfl
  · have hyes : (j && !c.posted) = true := by simp [hj, hp]
    rw [Emits, cpost_checked hself hr, hyes]
    rfl

end Sys2Proof.Machine
end

section
/-! The router forms at issue (R258 to R264). -/

namespace Sys2Proof.Machine

section Sets
variable {s : State} {n g sl : BitVec 3} {d a b : BitVec 5} {br : BitVec 6} {p : BitVec 4} {v : BitVec 2}

theorem State.setTrap_held (h : (s.tset s.die n.toNat).holder = some s.jcb) : s.setTrap n = none := by
  rw [State.setTrap, h]
  exact limitIf_false (bne_self_eq_false _) ..
theorem State.setTrap_not_held (h : (s.tset s.die n.toNat).holder ≠ some s.jcb) : s.setTrap n = some (accessFault 0x04 0 0) :=
  limitIf_true (bne_iff_ne.2 h) ..

/-! `tsub` (R260). -/

theorem tsub_reserves {i : Nat} (hs : s.inStage = false) (hh : (s.tset s.die n.toNat).holder = some s.jcb) (hi : s.freePlace n.toNat = some i) :
    let hdr := (s.rs a).toNat % 2 ^ 56 / 64 * 64
    Emits (.tsub n a br p) s [(1, .preg p true), (1, .place n.toNat i hdr br s.ctl.deadline), (1, .queue false true (.tsub n a br p) [i, hdr] 0 0)] :=
  emits_of_checked (exec_tsub ..) (orTrap_none (State.stageTrap_outside hs) (State.setTrap_held hh)) (by simp only [hi]; rfl)

theorem tsub_full (hs : s.inStage = false) (hh : (s.tset s.die n.toNat).holder = some s.jcb) (hi : s.freePlace n.toNat = none) :
    Emits (.tsub n a br p) s [(1, .preg p false)] :=
  emits_of_checked (exec_tsub ..) (orTrap_none (State.stageTrap_outside hs) (State.setTrap_held hh)) (by simp only [hi]; rfl)

theorem tsub_refused (hs : s.inStage = false) (hh : (s.tset s.die n.toNat).holder ≠ some s.jcb) : Raises (.tsub n a br p) s (accessFault 0x04 0 0) :=
  raises_of_checked (exec_tsub ..) (by rw [State.stageTrap_outside hs]; exact State.setTrap_not_held hh)

/-! `rverd` and `tlog`, of the record whose stage runs (R261, R262). -/

theorem State.myRecord_of_self {c : Cont} (hself : s.self = some c) : s.myRecord = c.record := by rw [State.myRecord, hself, Option.bind_some]

theorem rverd_of_record {c : Cont} {r : Nat × Nat} (hself : s.self = some c) (hr : c.record = some r) :
    exec (.rverd v) s = .next (((s.emit 1 (.queue false true (.rverd v) [r.1, r.2, c.stage.toNat, c.charged + s.core.charged + 1] 0 0)).emitEnd .unrecord).emitEnd (.ends false)) := by
  rw [exec_rverd, execRverd, State.myRecord_of_self hself, hself, hr]
  rfl

theorem rverd_without_record (h : s.myRecord = none) : Raises (.rverd v) s (accessFault 0x04 0 0) := by
  rw [Raises, exec_rverd, execRverd, h]

theorem tlog_of_record {c : Cont} {r : Nat × Nat} {x : Place} (hself : s.self = some c) (hr : c.record = some r)
    (hx : fget none (s.tset s.die r.1).places r.2 = some x) (hroom : x.lcnt.getD c.stage.toNat 0 < x.lcap) :
    Emits (.tlog a b) s [(1, .logAppend r.1 r.2 c.stage.toNat),
      (1, .queue false true (.tlog a b) [(x.log + 16 * (x.lcap * c.stage.toNat + x.lcnt.getD c.stage.toNat 0)) % 2 ^ 56, (s.rs a).toNat % 2 ^ 56 / 8 * 8, (s.rs b).toNat] 0 0)] := by
  have hrec : s.myRecord = some r := (State.myRecord_of_self hself).trans hr
  have hplace : s.myPlace = some x := by rw [State.myPlace, hrec, Option.bind_some, hx]
  rw [Emits, exec_tlog, execTlog, hrec, hplace, hself]
  exact State.checked_passes (limitIf_not (Nat.not_le.2 hroom) ..) _

theorem tlog_without_record (h : s.myRecord = none) : Raises (.tlog a b) s (accessFault 0x04 0 0) := by
  rw [Raises, exec_tlog, execTlog, h]

/-! `tsload` (R258, R259; log entry 96). -/

/-- Another core's job takes the set in this cycle. -/
def State.takenHere (s : State) (n : BitVec 3) : Bool :=
  s.pendOn fun j e => match e with
    | .setTake m _ _ => m == n.toNat && j != s.jcb
    | _ => false

/-- The check of a `tsload`. -/
def State.loadTrap (s : State) (n : BitVec 3) : Option Trap :=
  limitIf (((s.tset s.die n.toNat).holder.isSome && (s.tset s.die n.toNat).holder != some s.jcb) || s.takenHere n) 0 0

theorem State.loadTrap_free (hh : (s.tset s.die n.toNat).holder = none ∨ (s.tset s.die n.toNat).holder = some s.jcb) (ht : s.takenHere n = false) : s.loadTrap n = none := by
  refine limitIf_false ?_ ..
  rw [ht, Bool.or_false]
  rcases hh with h | h
  · rw [h]; rfl
  · rw [h]; exact (congrArg _ (bne_self_eq_false _)).trans (Bool.and_false _)

theorem State.loadTrap_refused (h : ((s.tset s.die n.toNat).holder ≠ none ∧ (s.tset s.die n.toNat).holder ≠ some s.jcb) ∨ s.takenHere n = true) :
    s.loadTrap n = some (accessFault 0x04 0 0) := by
  refine limitIf_true ?_ ..
  rcases h with ⟨hnone, hother⟩ | ht
  · rw [Option.isSome_iff_ne_none.2 hnone, bne_iff_ne.2 hother]; rfl
  · rw [ht, Bool.or_true]

theorem tsload_frees (hc : s.loadTrap n = none) (hf : (s.tset s.die n.toNat).flight = 0) (ha : a = 0) :
    Emits (.tsload n a p) s [(1, .preg p true), (1, .setFree n.toNat), (1, .queue true true .mark [] 0 0)] := by
  rw [Emits, exec_tsload, execTsload]
  exact (State.checked_passes hc _).trans (congrArg _ ((if_pos hf).trans (if_pos ha)))

theorem tsload_takes (hc : s.loadTrap n = none) (hf : (s.tset s.die n.toNat).flight = 0) (ha : a ≠ 0) :
    let va := (s.rs a).toNat % 2 ^ 56 / 256 * 256
    Emits (.tsload n a p) s [(1, .preg p true), (1, .setTake n.toNat va s.clk.nextId), (1, .queue true true (.tsload n a p) [va, s.clk.nextId] 0 0)] := by
  intro va
  rw [Emits, exec_tsload, execTsload]
  exact (State.checked_passes hc _).trans (congrArg _ ((if_pos hf).trans (if_neg ha)))

theorem tsload_busy (hc : s.loadTrap n = none) (hf : (s.tset s.die n.toNat).flight ≠ 0) :
    Emits (.tsload n a p) s [(1, .preg p false), (1, .queue true true .mark [] 0 0)] := by
  rw [Emits, exec_tsload, execTsload]
  exact (State.checked_passes hc _).trans (congrArg _ (if_neg hf))

theorem tsload_refused (hc : s.loadTrap n = some (accessFault 0x04 0 0)) : Raises (.tsload n a p) s (accessFault 0x04 0 0) := by
  rw [Raises, exec_tsload, execTsload]
  exact State.checked_fails hc _

/-! `tsstat` (R264). -/

/-- What `tsstat` reads under a selector: of a stage that the set lacks, 0. -/
def State.setStat (s : State) (n g : BitVec 3) (sel : Nat) : Nat :=
  let t := s.tset s.die n.toNat
  let known := decide (g.toNat < t.nstg)
  let e := t.stages.getD g.toNat { kdesc := 0, pass := 0, cost := 0 }
  match sel with
  | 0 => if known then e.pass.toNat else 0
  | 1 => if known then e.cost.toNat else 0
  | 2 => if known then s.depth s.die n.toNat g.toNat else 0
  | 3 => t.acc.toNat
  | 4 => t.rej.toNat
  | 5 => t.flight
  | _ => t.draws.toNat

theorem tsstat_emits {k : Nat} (hh : (s.tset s.die n.toNat).holder = some s.jcb) (hk : sl.toNat = k) :
    Emits (.tsstat d n g sl) s [(1, .sreg d (BitVec.ofNat 64 (s.setStat n g k)))] := by
  subst hk
  exact emits_of_checked (exec_tsstat ..) (State.setTrap_held hh) rfl

theorem tsstat_refused (hh : (s.tset s.die n.toNat).holder ≠ some s.jcb) : Raises (.tsstat d n g sl) s (accessFault 0x04 0 0) :=
  raises_of_checked (exec_tsstat ..) (State.setTrap_not_held hh)

end Sets

/-- Settles O25: each form goes by the holder of its set, or by the record whose stage runs, and by what that set or record holds. -/
theorem routerForms : Obligations.RouterForms := by
  unfold Obligations.RouterForms
  intro s n g sl d a b br p v t hdr va e known taken stat
  refine ⟨fun hs hh => ⟨fun i => tsub_reserves hs hh, tsub_full hs hh⟩, fun c r hself hr => rverd_of_record hself hr, fun c r x hself hr hx => tlog_of_record hself hr hx,
    fun hr => ⟨rverd_without_record hr, tlog_without_record hr⟩, fun hh ht => ?_, fun h => tsload_refused (State.loadTrap_refused h), fun hh => ?_,
    fun hh => ⟨tsstat_refused hh, fun hs => tsub_refused hs hh⟩⟩
  · have hc : s.loadTrap n = none := State.loadTrap_free hh ht
    exact ⟨tsload_frees hc, tsload_takes hc, tsload_busy hc⟩
  · exact ⟨tsstat_emits hh, tsstat_emits hh, tsstat_emits hh, tsstat_emits hh, tsstat_emits hh, tsstat_emits hh, tsstat_emits hh⟩

end Sys2Proof.Machine
end

section
/-! Sequence cursors, the layout table and the privileged system forms at issue (R265 to R273). -/

namespace Sys2Proof.Machine

section Cursors
variable {s : State} {n : BitVec 3} {d a : BitVec 5} {c : BitVec 8} {i : Instr} {k : Nat}

theorem State.cursorTrap_valid (h : (s.rsq n).valid = true) : s.cursorTrap n = none := by rw [State.cursorTrap, if_pos h]
theorem State.cursorTrap_invalid (h : (s.rsq n).valid = false) : s.cursorTrap n = some (accessFault 0x03 0 n.toNat) := by
  rw [State.cursorTrap, h, if_neg Bool.false_ne_true]
theorem rangeTrap_inside {p : Prop} [Decidable p] (h : ¬p) : rangeTrap (decide p) n k = none := by rw [rangeTrap, decide_eq_false h, if_neg Bool.false_ne_true]
theorem rangeTrap_outside {p : Prop} [Decidable p] (h : p) : rangeTrap (decide p) n k = some { cause := cCursor, info0 := n.toNat, info1 := k } := by
  rw [rangeTrap, decide_eq_true h, if_pos rfl]

/-- R267: the room reserved begins at the end of the region's tokens. -/
theorem sqapp_reserves (hv : (s.rsq n).valid = true) (hr : (s.rsq n).clen.toNat + (s.rsq n).tlen.toNat + c.toNat ≤ (s.rsq n).cap.toNat) :
    Emits (.sqapp n d c) s [(1, .sreg d (BitVec.ofNat 64 ((s.rsq n).clen.toNat + (s.rsq n).tlen.toNat))),
      (1, .cursor n { s.rsq n with tlen := (s.rsq n).tlen + c.setWidth 32 })] := by
  rw [Emits, exec_sqapp, execSqapp]
  exact State.checked_passes (orTrap_none (State.cursorTrap_valid hv) (rangeTrap_inside (Nat.not_lt.2 hr))) _

theorem sqapp_out_of_range (hv : (s.rsq n).valid = true) (hr : (s.rsq n).cap.toNat < (s.rsq n).clen.toNat + (s.rsq n).tlen.toNat + c.toNat) :
    Raises (.sqapp n d c) s { cause := cCursor, info0 := n.toNat, info1 := c.toNat } := by
  rw [Raises, exec_sqapp, execSqapp, State.cursorTrap_valid hv]
  exact State.checked_fails (rangeTrap_outside hr) _

theorem sqapp_invalid (hv : (s.rsq n).valid = false) : Raises (.sqapp n d c) s (accessFault 0x03 0 n.toNat) := by
  rw [Raises, exec_sqapp, execSqapp]
  exact State.checked_fails (orTrap_first (State.cursorTrap_invalid hv) _) _

/-! R268: `sqacc` and `sqrej` are one commit, of k tokens and of none. -/

theorem commit_emits (hx : exec i s = s.commit i n k) (hs : s.inStage = false) (hv : (s.rsq n).valid = true) (hk : k ≤ (s.rsq n).tlen.toNat) :
    let q := s.rsq n
    Emits i s [(1, .cursor n { q with clen := q.clen + BitVec.ofNat 32 k, tlen := 0 }),
      (1, .queue false true i [q.region.toNat, q.clen.toNat + k, q.clen.toNat + q.tlen.toNat] 0 0)] := by
  intro q
  rw [Emits, hx, State.commit]
  exact State.checked_passes (firstTrap_cons_none (State.stageTrap_outside hs) (firstTrap_cons_none (State.cursorTrap_valid hv)
    (firstTrap_cons_none (rangeTrap_inside (Nat.not_lt.2 hk)) rfl))) _

theorem commit_out_of_range (hx : exec i s = s.commit i n k) (hs : s.inStage = false) (hv : (s.rsq n).valid = true) (hk : (s.rsq n).tlen.toNat < k) :
    Raises i s { cause := cCursor, info0 := n.toNat, info1 := k } := by
  rw [Raises, hx, State.commit]
  exact State.checked_fails ((firstTrap_next (State.stageTrap_outside hs) _).trans ((firstTrap_next (State.cursorTrap_valid hv) _).trans (firstTrap_first (rangeTrap_outside hk) _))) _

theorem commit_invalid (hx : exec i s = s.commit i n k) (hs : s.inStage = false) (hv : (s.rsq n).valid = false) : Raises i s (accessFault 0x03 0 n.toNat) := by
  rw [Raises, hx, State.commit]
  exact State.checked_fails ((firstTrap_next (State.stageTrap_outside hs) _).trans (firstTrap_first (State.cursorTrap_invalid hv) _)) _

theorem sqrej_emits (hs : s.inStage = false) (hv : (s.rsq n).valid = true) :
    let q := s.rsq n
    Emits (.sqrej n) s [(1, .cursor n { q with tlen := 0 }), (1, .queue false true (.sqrej n) [q.region.toNat, q.clen.toNat, q.clen.toNat + q.tlen.toNat] 0 0)] := by
  have hclen : (s.rsq n).clen + BitVec.ofNat 32 0 = (s.rsq n).clen := BitVec.add_zero _
  have h := commit_emits (exec_sqrej n s) hs hv (Nat.zero_le _)
  simp only [hclen, Nat.add_zero] at h
  exact h

end Cursors

/-! The layout table (R269, R270). -/

section Layout
variable {s : State} {e : BitVec 4} {a d : BitVec 5} {sl : BitVec 3}

/-- The selectors of a layout form: three of their own, and the rest. -/
theorem selector_cases (sl : BitVec 3) : sl = 0 ∨ sl = 1 ∨ sl = 2 ∨ ∃ m, sl.toNat = m + 3 := by
  by_cases h : sl.toNat < 3
  · have : sl.toNat = 0 ∨ sl.toNat = 1 ∨ sl.toNat = 2 := by omega
    rcases this with h | h | h
    · exact .inl (BitVec.eq_of_toNat_eq h)
    · exact .inr (.inl (BitVec.eq_of_toNat_eq h))
    · exact .inr (.inr (.inl (BitVec.eq_of_toNat_eq h)))
  · exact .inr (.inr (.inr ⟨sl.toNat - 3, by omega⟩))

/-- The field of an entry that a selector names, as `lyrd` reads it. -/
def LyEnt.field (x : LyEnt) (sl : BitVec 3) : BitVec 64 :=
  if sl = 0 then x.handle.setWidth 64 else if sl = 1 then x.kind.setWidth 64 else if sl = 2 then x.gen.setWidth 64 else x.shape.setWidth 64

/-- An entry after a `lywr` of a selector. -/
def LyEnt.written (x : LyEnt) (sl : BitVec 3) (v : BitVec 64) : LyEnt :=
  let z := { x with gen := x.gen + 1 }
  if sl = 0 then { z with handle := v.setWidth 32 } else if sl = 1 then { z with kind := v.setWidth 2 } else { z with shape := v.setWidth 48 }

theorem lyrd_emits (s : State) (d : BitVec 5) (e : BitVec 4) (sl : BitVec 3) : Emits (.lyrd d e sl) s [(1, .sreg d ((s.layEnt s.die s.jcb e.toNat).field sl))] := by
  rw [Emits, exec_lyrd, execLyrd]
  rcases selector_cases sl with rfl | rfl | rfl | ⟨m, hm⟩
  · rfl
  · rfl
  · rfl
  · have h0 : sl ≠ 0 := by rintro rfl; cases hm
    have h1 : sl ≠ 1 := by rintro rfl; cases hm
    have h2 : sl ≠ 2 := by rintro rfl; cases hm
    rw [LyEnt.field, if_neg h0, if_neg h1, if_neg h2, hm]
    rfl

theorem lywr_emitsEnd (hk : (s.layEnt s.die s.jcb e.toNat).kind ≠ 3) (hv : sl = 1 → (s.rs a).setWidth 2 ≠ 3#2) :
    EmitsEnd (.lywr e a sl) s [.layWrite e sl.toNat (s.rs a) (s.layEnt s.die s.jcb e.toNat).began] := by
  rw [EmitsEnd, exec_lywr, execLywr]
  refine State.checked_passes (limitIf_false ?_ ..) _
  rw [beq_eq_false_iff_ne.2 hk, Bool.false_or, Bool.and_eq_false_imp]
  exact fun h => beq_eq_false_iff_ne.2 (hv (beq_iff_eq.1 h))

theorem lywr_resharding (h : (s.layEnt s.die s.jcb e.toNat).kind = 3 ∨ (sl = 1 ∧ (s.rs a).setWidth 2 = 3#2)) : Raises (.lywr e a sl) s (accessFault 0x04 0 0) := by
  refine raises_of_checked (exec_lywr ..) (limitIf_true ?_ ..)
  rcases h with h | ⟨rfl, h⟩
  · rw [h]; rfl
  · rw [h]; exact Bool.or_true _

theorem State.layCopy_onLayEnt (u : State) (die jcb e : Nat) (f : LyEnt → LyEnt) :
    (u.onLayEnt die jcb e f).layCopy die jcb = (u.layCopy die jcb).map fun l => { l with ents := l.ents.modify e f } := by
  unfold State.layCopy State.onLayEnt
  have hsame : (fun l : LayCopy => l.die == die && l.jcb == jcb) ∘ (fun l => if l.die == die && l.jcb == jcb then { l with ents := l.ents.modify e f } else l) =
      fun l => l.die == die && l.jcb == jcb := funext fun l => by
    rw [Function.comp_apply]
    split <;> rfl
  rw [List.find?_map, hsame]
  refine Option.map_congr fun l hl => ?_
  exact if_pos (List.find?_some hl)

/-- A change that leaves an entry's value leaves what is read. -/
theorem State.layEnt_onLayEnt_of_fixed {u : State} {die jcb e : Nat} {f : LyEnt → LyEnt} (hf : f (u.layEnt die jcb e) = u.layEnt die jcb e) :
    (u.onLayEnt die jcb e f).layEnt die jcb e = u.layEnt die jcb e := by
  cases hc : u.layCopy die jcb with
  | none => simp only [State.layEnt, State.layCopy_onLayEnt, hc, Option.map_none]
  | some l =>
    by_cases he : e < l.ents.length
    · rw [State.layEnt_onLayEnt hc he, hf]
    · simp [State.layEnt, State.layCopy_onLayEnt, hc, List.getElem?_eq_none (Nat.not_lt.1 he)]

/-- R270: the write is dropped where a re-sharding of the entry is in progress or has begun since the issue. -/
theorem layWrite_dropped {u : State} {v : BitVec 64} {began : Nat} (h : (u.layEnt u.die u.jcb e.toNat).busy = true ∨ (u.layEnt u.die u.jcb e.toNat).began ≠ began) (sel : Nat) :
    (u.land (.layWrite e sel v began)).layEnt u.die u.jcb e.toNat = u.layEnt u.die u.jcb e.toNat :=
  State.layEnt_onLayEnt_of_fixed (if_pos h)

theorem layWrite_written {u : State} {v : BitVec 64} {began : Nat} (hb : (u.layEnt u.die u.jcb e.toNat).busy = false) (hn : (u.layEnt u.die u.jcb e.toNat).began = began)
    {l : LayCopy} (hl : u.layCopy u.die u.jcb = some l) (he : e.toNat < l.ents.length) (sl : BitVec 3) :
    (u.land (.layWrite e sl.toNat v began)).layEnt u.die u.jcb e.toNat = (u.layEnt u.die u.jcb e.toNat).written sl v := by
  have hstands : ¬((u.layEnt u.die u.jcb e.toNat).busy = true ∨ (u.layEnt u.die u.jcb e.toNat).began ≠ began) := by simp [hb, hn]
  refine (State.layEnt_onLayEnt hl he _).trans ((if_neg hstands).trans ?_)
  rcases selector_cases sl with rfl | rfl | rfl | ⟨m, hm⟩
  · rfl
  · rfl
  · rfl
  · have h0 : sl ≠ 0 := by rintro rfl; cases hm
    have h1 : sl ≠ 1 := by rintro rfl; cases hm
    rw [LyEnt.written, if_neg h0, if_neg h1, hm]
    rfl

end Layout

/-! The system forms (R271 to R273). -/

section System
variable {s : State} {o : Nat}

theorem State.privTrap_privileged (h : jcbPriv s s.jcb = true) : s.privTrap o = none := by rw [State.privTrap, if_pos h]
theorem State.privTrap_other (h : jcbPriv s s.jcb = false) : s.privTrap o = some { cause := cPriv, info0 := o } := by
  rw [State.privTrap, h, if_neg Bool.false_ne_true]

end System

/-- Settles O26: the cursor forms and the layout forms go by their checks, a landing `lywr` by the entry it finds; the system forms by the job's privilege. -/
theorem cursorLayoutAndSystemForms : Obligations.CursorLayoutAndSystemForms := by
  unfold Obligations.CursorLayoutAndSystemForms
  refine ⟨fun s n d a c e sl => ?_, fun s k a b br => ⟨fun hp => ?_, fun hp => ?_⟩⟩
  · intro q endd k x
    refine ⟨rfl, sqapp_reserves, sqapp_out_of_range, commit_emits (exec_sqacc n a s), commit_out_of_range (exec_sqacc n a s), sqrej_emits, fun hs hv => ?_, lyrd_emits s d e sl,
      lywr_emitsEnd, lywr_resharding, fun u _ _ => ⟨fun h => layWrite_dropped h _, fun hb hn ⟨_, hl, he⟩ => layWrite_written hb hn hl he sl⟩⟩
    simp only [List.forall_mem_cons, List.not_mem_nil, false_implies, implies_true, and_true]
    exact ⟨sqapp_invalid hv, commit_invalid (exec_sqacc n a s) hs hv, commit_invalid (exec_sqrej n s) hs hv⟩
  · refine ⟨emits_of_checked (exec_tlbinv ..) (State.privTrap_privileged hp) rfl,
      fun ha => emits_of_checked (exec_aclwr ..) (orTrap_none (State.privTrap_privileged hp) (limitIf_not (Nat.not_lt.2 ha) ..)) rfl, fun ha => ?_,
      (exec_ckpt ..).trans (State.checked_passes (State.privTrap_privileged hp) _)⟩
    refine raises_of_checked (exec_aclwr ..) ?_
    rw [State.privTrap_privileged hp]
    exact limitIf_true (decide_eq_true ha) ..
  · exact ⟨raises_of_checked (exec_tlbinv ..) (State.privTrap_other hp), raises_of_checked (exec_aclwr ..) (orTrap_first (State.privTrap_other hp) _),
      raises_of_checked (exec_ckpt ..) (State.privTrap_other hp)⟩

end Sys2Proof.Machine
end

section
/-! Translation walks and invalidations (R289 to R293), and the canonical form of memory at reset (R284). -/

namespace Sys2Proof.Machine

/-- Settles O59: nothing is written at reset. -/
theorem resetMemoryIsCanonical : Obligations.ResetMemoryIsCanonical := rfl

/-! Walks: what a turn of the translation units does with one walk that is due. -/

section Walk
variable {s : State} {m : Miss}

theorem xfNeed_div (pa : Nat) : xfNeed pa / 2 ^ 16 = pa := by
  unfold xfNeed
  omega

theorem State.onXl_miss_self {ms : List Miss} (h : s.xl.miss = ms) : (s.onXl fun x => { x with miss := ms }) = s := by
  subst h
  rfl

/-- A walk that is under way is not started again. -/
theorem State.startWalks_of_due (h : s.xl.miss = [m]) (hdue : m.due ≠ 0) (die : Nat) : s.startWalks die = s := by
  have hrun : (m.due == 0) = false := beq_false_of_ne hdue
  refine Eq.trans ?_ (State.onXl_miss_self h)
  simp only [State.startWalks, State.onXl, h, hrun, List.map_cons, List.map_nil, Bool.and_false, Bool.false_and, Bool.false_eq_true, if_false]

theorem exec_translationWalk_due (h : s.xl.miss = [m]) (hflight : m.ended = none) (hdue : m.due ≠ 0) (hnow : m.due ≤ s.now) : exec .translationWalk s = .next (s.endWalk m) := by
  have hkept : (s.onXl fun x => { x with miss := x.miss.filter fun m => m.ended.isNone }) = s := by
    refine Eq.trans ?_ (State.onXl_miss_self h)
    simp [State.onXl, h, hflight]
  have hlast : (s.xl.miss.filter fun m => m.due != 0 && decide (m.due ≤ s.now)) = [m] := by simp [h, hdue, hnow]
  have hstart : (s.xl.miss.map Miss.die).dedup.foldl State.startWalks s = s := by
    rw [h]
    exact State.startWalks_of_due h hdue m.die
  rw [exec_translationWalk, execTranslationWalk]
  simp only [hkept, hstart, hlast, List.foldl_cons, List.foldl_nil]

theorem State.onMiss_single (h : s.xl.miss = [m]) (f : Miss → Miss) : s.onMiss m f = s.onXl fun x => { x with miss := [f m] } := by
  simp [State.onMiss, State.onXl, h]

/-- A walk that needs no entry from elsewhere ends; it is cached unless an invalidation covers it. -/
theorem State.endWalk_ends (h : ∀ pa, (s.missWalk m).res ≠ .error (xfNeed pa)) :
    s.endWalk m = (if m.stale then s else s.cacheWalk m.die m.asid (m.region * 2 ^ 16) (s.missWalk m)).onMiss m fun y => { y with ended := some (s.missWalk m).res } := by
  simp only [State.endWalk]
  split
  · next c hres => exact if_neg fun hc => h _ (hres.trans (congrArg _ hc))
  · rfl

/-- A walk that needs an entry from elsewhere has sent for it. -/
theorem State.endWalk_asks {pa : Nat} {u : State} (h : (s.missWalk m).res = .error (xfNeed pa)) (hroom : reqFull s m.die (paDie pa) = false)
    (hsent : s.sendReq m.die (paDie pa) 0 (m.region * 2 ^ 16) false (.read pa 8) (.walk m.die m.asid m.region) = (u, true)) :
    s.endWalk m = u.onMiss m fun y => { y with due := 0, asked := some pa } := by
  simp only [State.endWalk, h, xfNeed_div, if_true, hroom, Bool.false_eq_true, if_false, hsent]

theorem State.cacheWalk_miss (die asid va : Nat) (w : Walk) : (s.cacheWalk die asid va w).xl.miss = s.xl.miss := rfl

theorem State.sendReq_xl (src dst jcb va : Nat) (bulk : Bool) (k : ReqKind) (o : ReqOwner) : (s.sendReq src dst jcb va bulk k o).1.xl = s.xl := by
  unfold State.sendReq
  split <;> rfl

end Walk

/-! A change of cores alone: the cores of a list, each by the same function. -/

/-- The second state differs from the first in its cores alone. -/
def State.CoresOnly (s t : State) : Prop := t = { s with core := t.core, cores := t.cores }

theorem State.CoresOnly.eq {s t : State} (h : s.CoresOnly t) : t = { s with core := t.core, cores := t.cores } := h

section
variable {s t : State} (h : s.CoresOnly t)
include h

theorem State.CoresOnly.mem : t.mem = s.mem := (congrArg State.mem h.eq :)
theorem State.CoresOnly.sched : t.sched = s.sched := (congrArg State.sched h.eq :)
theorem State.CoresOnly.xl : t.xl = s.xl := (congrArg State.xl h.eq :)
theorem State.CoresOnly.host : t.host = s.host := (congrArg State.host h.eq :)
theorem State.CoresOnly.running : t.running = s.running := (congrArg State.running h.eq :)
theorem State.CoresOnly.dark : t.dark = s.dark := (congrArg State.dark h.eq :)

end

theorem State.CoresOnly.trans {s t u : State} (h : s.CoresOnly t) (h' : t.CoresOnly u) : s.CoresOnly u :=
  Eq.trans h' (congrArg (fun t => { t with core := u.core, cores := u.cores }) h)

theorem State.onCoreAt_coresOnly (s : State) (k : Nat) (f : Core → Core) : s.CoresOnly (s.onCoreAt k f) := by
  unfold State.onCoreAt
  split <;> rfl

theorem State.foldl_onCoreAt_coresOnly (f : Core → Core) (l : List Nat) (s : State) : s.CoresOnly (l.foldl (fun u c => u.onCoreAt c f) s) := by
  induction l generalizing s with
  | nil => rfl
  | cons c l ih => exact (s.onCoreAt_coresOnly c f).trans (ih _)

/-- A core that has had the function once stays as it is. -/
theorem State.coreAt_foldl_fixed {f : Core → Core} (hf : ∀ k, f (f k) = f k) {c : Nat} (l : List Nat) {s : State} {k : Core} (h : s.coreAt c = f k) :
    (l.foldl (fun u c => u.onCoreAt c f) s).coreAt c = f k := by
  induction l generalizing s with
  | nil => exact h
  | cons d l ih =>
    refine ih ?_
    by_cases hd : c = d
    · subst hd
      rw [State.coreAt_onCoreAt, h, hf]
    · rw [State.coreAt_onCoreAt_ne s hd, h]

theorem State.coreAt_foldl_each {f : Core → Core} (hf : ∀ k, f (f k) = f k) {c : Nat} {l : List Nat} (hc : c ∈ l) (s : State) :
    ∃ k, (l.foldl (fun u c => u.onCoreAt c f) s).coreAt c = f k := by
  obtain ⟨l₁, l₂, rfl⟩ := List.append_of_mem hc
  rw [List.foldl_append, List.foldl_cons]
  exact ⟨_, State.coreAt_foldl_fixed hf l₂ (State.coreAt_onCoreAt ..)⟩

/-! Invalidations. -/

section Invalidation
variable {s : State} {die n at_ : Nat}

theorem Leaf.covered_all (l : Leaf) (asid va : Nat) : l.covered 0 asid va = true := rfl

theorem exec_tlbinvCompletion_single (h : s.xl.inval = [(die, n, at_)]) (hready : (s.xl.miss.any fun m => m.die == die && m.ended.isNone && decide (m.started ≤ at_)) = false) :
    exec .tlbinvCompletion s = .next (s.finishInv (die, n, at_)) := by
  have hone : s.invReady = [(die, n, at_)] := by simp [State.invReady, h, hready]
  rw [exec_tlbinvCompletion, execTlbinvCompletion, hone]
  rfl

/-- The entry of the invalidation says what leaves the die's caches. -/
theorem State.finishInv_all {e : QEnt} {a b : BitVec 5} (h : s.xl.inval = [(die, n, at_)]) (he : s.invEntry n = some e) (hi : e.i = .tlbinv 0 a b) :
    s.finishInv (die, n, at_) = ((s.onXl fun x => { x with inval := [] }).staleWalks die 0 (e.args.getD 0 0) (e.args.getD 1 0)).invalidate die 0 (e.args.getD 0 0) (e.args.getD 1 0) := by
  have hdone : (s.onXl fun x => { x with inval := x.inval.filter (· ≠ (die, n, at_)) }) = s.onXl fun x => { x with inval := [] } := by simp [State.onXl, h]
  have hentry : (s.onXl fun x => { x with inval := [] }).invEntry n = some e := he
  simp only [State.finishInv, hdone, hentry, hi]
  rfl

/-- What an invalidation leaves of the translation units. -/
def Xl.uncached (x : Xl) (die kind asid va : Nat) : Xl :=
  { x with leaf := x.leaf.filter fun l => l.die != die || !l.covered kind asid va, node := x.node.filter fun n => n.die != die || !(kind == 0 || n.asid == asid) }
/-- What an invalidation leaves of a core. -/
def Core.uncached (kind asid va : Nat) (k : Core) : Core := { k with tc := k.tc.filter fun l => !l.covered kind asid va }

theorem Core.uncached_uncached (kind asid va : Nat) (k : Core) : Core.uncached kind asid va (Core.uncached kind asid va k) = Core.uncached kind asid va k := by
  simp [Core.uncached, List.filter_filter]

theorem Core.uncached_all_tc (asid va : Nat) (k : Core) : (Core.uncached 0 asid va k).tc = [] := by simp [Core.uncached, Leaf.covered_all]

theorem Xl.uncached_all (x : Xl) (asid va : Nat) :
    x.uncached die 0 asid va = { x with leaf := x.leaf.filter fun l => l.die != die, node := x.node.filter fun n => n.die != die } := by
  simp [Xl.uncached, Leaf.covered_all]

theorem State.invalidate_eq (kind asid va : Nat) :
    s.invalidate die kind asid va = (s.coreIds.filter fun c => dieOf c = die).foldl (fun u c => u.onCoreAt c (Core.uncached kind asid va)) (s.onXl fun x => x.uncached die kind asid va) := rfl

theorem State.invalidate_coresOnly (kind asid va : Nat) : (s.onXl fun x => x.uncached die kind asid va).CoresOnly (s.invalidate die kind asid va) :=
  State.foldl_onCoreAt_coresOnly (Core.uncached kind asid va) ..

theorem State.invalidate_xl (kind asid va : Nat) : (s.invalidate die kind asid va).xl = s.xl.uncached die kind asid va := (State.invalidate_coresOnly kind asid va).xl
theorem State.invalidate_mem (kind asid va : Nat) : (s.invalidate die kind asid va).mem = s.mem := (State.invalidate_coresOnly kind asid va).mem

/-- An invalidation of kind 0 empties the translation cache of each core of the die. -/
theorem State.invalidate_all_tc (asid va : Nat) {c : Nat} (hc : c ∈ s.coreIds) (hd : dieOf c = die) : ((s.invalidate die 0 asid va).coreAt c).tc = [] := by
  have hmem : c ∈ s.coreIds.filter fun c => dieOf c = die := List.mem_filter.2 ⟨hc, decide_eq_true hd⟩
  obtain ⟨k, hk⟩ := State.coreAt_foldl_each (Core.uncached_uncached 0 asid va) hmem (s.onXl fun x => x.uncached die 0 asid va)
  rw [State.invalidate_eq, hk, Core.uncached_all_tc]

end Invalidation

/-- Settles O42: a walk that is due ends or asks, by what it has come to; an invalidation of kind 0 that is ready covers every entry of its die. -/
theorem translations : Obligations.Translations := by
  unfold Obligations.Translations
  refine ⟨fun s m hm hflight hdue hnow => ⟨fun hres => ?_, fun pa u hres hroom hsent => ?_⟩, fun s die n at_ e a b hinv hready he hi => ?_⟩
  · have hmiss : (if m.stale then s else s.cacheWalk m.die m.asid (m.region * 2 ^ 16) (s.missWalk m)).xl.miss = [m] := by
      split
      · exact hm
      · exact (State.cacheWalk_miss ..).trans hm
    rw [exec_translationWalk_due hm hflight hdue hnow, State.endWalk_ends hres, State.onMiss_single hmiss]
  · have hmiss : u.xl.miss = [m] := by
      rw [← hm, ← State.sendReq_xl (s := s), hsent]
    rw [exec_translationWalk_due hm hflight hdue hnow, State.endWalk_asks hres hroom hsent, State.onMiss_single hmiss]
  · refine ⟨_, (exec_tlbinvCompletion_single hinv hready).trans (congrArg _ (State.finishInv_all hinv he hi)), ?_⟩
    rw [State.invalidate_xl, Xl.uncached_all]
    refine ⟨rfl, fun l hl => bne_iff_ne.1 (List.mem_filter.1 hl).2, fun x hx => bne_iff_ne.1 (List.mem_filter.1 hx).2, fun l hl hd => List.mem_filter.2 ⟨hl, bne_iff_ne.2 hd⟩,
      fun c hc hd => State.invalidate_all_tc _ _ hc hd, State.invalidate_mem ..⟩

end Sys2Proof.Machine
end

section
/-! Boot, memory errors, heat and power (R279, R352, R399, R404, R405, R415). -/

namespace Sys2Proof.Machine

/-! The host attachment of a package. -/

section Host
variable {s : State} {pkg : Nat}

@[simp] theorem State.hostAt_onHost (s : State) (pkg : Nat) (f : HostSt → HostSt) : (s.onHost pkg f).hostAt pkg = f (s.hostAt pkg) := fget_fmod ..

theorem State.onHost_congr {f g : HostSt → HostSt} (h : f (s.hostAt pkg) = g (s.hostAt pkg)) : s.onHost pkg f = s.onHost pkg g := by
  unfold State.hostAt at h
  rw [State.onHost, State.onHost, fmod, fmod, h]

end Host

/-! A change of the fabric alone. -/

/-- The second state differs from the first in its fabric alone. -/
def State.FabOnly (s t : State) : Prop := t = { s with fab := t.fab }

theorem State.FabOnly.eq {s t : State} (h : s.FabOnly t) : t = { s with fab := t.fab } := h

section
variable {s t : State} (h : s.FabOnly t)
include h

theorem State.FabOnly.host : t.host = s.host := (congrArg State.host h.eq :)
theorem State.FabOnly.mem : t.mem = s.mem := (congrArg State.mem h.eq :)
theorem State.FabOnly.clk : t.clk = s.clk := (congrArg State.clk h.eq :)
theorem State.FabOnly.sched : t.sched = s.sched := (congrArg State.sched h.eq :)
theorem State.FabOnly.running : t.running = s.running := (congrArg State.running h.eq :)
theorem State.FabOnly.dark : t.dark = s.dark := (congrArg State.dark h.eq :)
theorem State.FabOnly.coreAt (c : Nat) : t.coreAt c = s.coreAt c := State.coreAt_of_cores (congrArg State.cid h.eq :) (congrArg State.core h.eq :) (congrArg State.cores h.eq :) c

end

theorem State.FabOnly.trans {s t u : State} (h : s.FabOnly t) (h' : t.FabOnly u) : s.FabOnly u := Eq.trans h' (congrArg (fun t => { t with fab := u.fab }) h)

theorem State.FabOnly.foldl {α : Type} {f : State → α → State} (hf : ∀ (u : State) (a : α), u.FabOnly (f u a)) (l : List α) (s : State) : s.FabOnly (l.foldl f s) := by
  induction l generalizing s with
  | nil => rfl
  | cons a l ih => exact (hf s a).trans (ih _)

theorem State.onPlane_fabOnly (s : State) (port : Nat) (plane : Bool) (f : Plane → Plane) : s.FabOnly (s.onPlane port plane f) := rfl

theorem State.newKeys_fabOnly (s : State) (port : Nat) (plane : Bool) : s.FabOnly (s.newKeys port plane) := by
  unfold State.newKeys
  dsimp only
  split <;> rfl

/-! Boot (R404, R405). -/

/-- A link that boots is trained on one plane. -/
def State.trained (s : State) (port : Nat) (plane : Bool) : State := if s.portThere port then (s.newKeys port plane).onPlane port plane fun x => { x with down := false } else s
/-- The links of a die's ports, trained. -/
def State.linksTrained (s : State) (die : Nat) : State := (List.range 6).foldl (fun s p => (s.trained (8 * die + p) false).trained (8 * die + p) true) s

theorem State.trained_fabOnly (s : State) (port : Nat) (plane : Bool) : s.FabOnly (s.trained port plane) := by
  unfold State.trained
  split
  · exact (s.newKeys_fabOnly port plane).trans (State.onPlane_fabOnly ..)
  · rfl

theorem State.linksTrained_fabOnly (s : State) (die : Nat) : s.FabOnly (s.linksTrained die) :=
  State.FabOnly.foldl (fun u _ => (u.trained_fabOnly _ false).trans (State.trained_fabOnly ..)) _ s

/-- The access-control table that a boot of a die leaves: no entry of the die, but for that of an owner already elected. -/
def bootAcl (die : Nat) (owner : BitVec 2) (acl : FMap (BitVec 64)) : FMap (BitVec 64) :=
  let cleared := acl.filter fun p => p.1 / 64 != die
  if owner = 3 then cleared else fput 0 (die * 64) (ownerEntry owner) cleared

theorem State.cleared_owned (s : State) (die : Nat) (owner : BitVec 2) :
    (if owner = 3 then s.onSched fun c => { c with acl := c.acl.filter fun p => p.1 / 64 != die }
      else (s.onSched fun c => { c with acl := c.acl.filter fun p => p.1 / 64 != die }).ownerEntries [die] owner) =
    s.onSched fun c => { c with acl := bootAcl die owner c.acl } := by
  unfold bootAcl
  split <;> rfl

theorem State.timed_eq (s : State) : (if s.running.isEmpty then s.loadTimeb else s) = { s with clk := if s.running.isEmpty then s.loadTimeb.clk else s.clk } := by
  split <;> rfl

/-- What a boot leaves, its links apart. -/
def State.booted (s : State) (die : Nat) (version : BitVec 64) (root : Nat) : State :=
  { s.onHost (pkgOf die) fun h => { h with bootst := 1, firmware := version } with
    xl := { s.xl with root := fput 0 die (BitVec.ofNat 64 (root % 2 ^ 59)) s.xl.root },
    sched := { s.sched with acl := bootAcl die (s.hostAt (pkgOf die)).owner s.sched.acl },
    clk := if s.running.isEmpty then s.loadTimeb.clk else s.clk,
    running := s.running ++ [die], dark := s.dark.filter fun p => p != pkgOf die }

section Boot
variable {s : State} {die : Nat} {version : BitVec 64}

theorem mem_of_mem_dropLe {α : Type} {k : Nat} {m : FMap α} {e : Nat × α} (h : e ∈ dropLe k m) : e ∈ m := by
  induction m with
  | nil => exact h
  | cons a r ih =>
    unfold dropLe at h
    split at h
    · exact List.mem_cons_of_mem _ (ih h)
    · exact h

/-- A sparse map with a key set holds that key's entry and what it held. -/
theorem mem_of_mem_fput {α : Type} [DecidableEq α] {d v : α} {k : Nat} {m : FMap α} {e : Nat × α} (h : e ∈ fput d k v m) : e = (k, v) ∨ e ∈ m := by
  induction m with
  | nil =>
    unfold fput at h
    split at h
    · exact .inr h
    · exact .inl (List.mem_singleton.1 h)
  | cons a r ih =>
    obtain ⟨k', v'⟩ := a
    unfold fput at h
    split_ifs at h
    · exact .inr h
    · exact List.mem_cons.1 h
    · exact .inr (List.mem_cons_of_mem _ (mem_of_mem_dropLe h))
    · exact (List.mem_cons.1 h).imp_right fun h => List.mem_cons_of_mem _ (mem_of_mem_dropLe h)
    · obtain rfl | h := List.mem_cons.1 h
      · exact .inr (List.mem_cons_self ..)
      · exact (ih h).imp_right (List.mem_cons_of_mem _)

theorem bootAcl_unowned (acl : FMap (BitVec 64)) : ∀ e ∈ bootAcl die 3 acl, e.1 / 64 ≠ die := fun _ he => bne_iff_ne.1 (List.mem_filter.1 he).2

theorem bootAcl_owned {owner : BitVec 2} (h : owner ≠ 3) (acl : FMap (BitVec 64)) :
    fget 0 (bootAcl die owner acl) (die * 64) = ownerEntry owner ∧ ∀ e ∈ bootAcl die owner acl, e.1 / 64 = die → e.1 = die * 64 := by
  rw [bootAcl, if_neg h]
  refine ⟨fget_fput .., fun e he hd => ?_⟩
  obtain rfl | hold := mem_of_mem_fput he
  · rfl
  · exact absurd hd (bne_iff_ne.1 (List.mem_filter.1 hold).2)

theorem State.timeb_le_loadTimeb (s : State) : s.timeb ≤ s.loadTimeb.timeb := by
  refine (Nat.le_max_left s.timeb (Config.bootTime s.clk.free).toNat).trans (Nat.le_of_eq ?_)
  simp [State.timeb, State.loadTimeb, State.onClk]

theorem State.timeb_le_booted (version : BitVec 64) (root : Nat) : s.timeb ≤ (s.booted die version root).timeb := by
  by_cases h : s.running.isEmpty
  · rw [State.timeb_of_clk (s := s.loadTimeb) (t := s.booted die version root) (if_pos h)]
    exact s.timeb_le_loadTimeb
  · exact Nat.le_of_eq (State.timeb_of_clk (t := s.booted die version root) (if_neg h)).symm

theorem State.booted_timeb (h : s.running ≠ []) (version : BitVec 64) (root : Nat) : (s.booted die version root).timeb = s.timeb :=
  State.timeb_of_clk (if_neg fun hr => h (List.isEmpty_iff.1 hr))

theorem State.booted_acl (version : BitVec 64) (root : Nat) : (s.booted die version root).sched.acl = bootAcl die (s.hostAt (pkgOf die)).owner s.sched.acl := rfl

theorem State.booted_bootst (version : BitVec 64) (root : Nat) : ((s.booted die version root).hostAt (pkgOf die)).bootst = 1 :=
  congrArg HostSt.bootst (State.hostAt_onHost s (pkgOf die) fun h => { h with bootst := 1, firmware := version })

variable (hok : s.dieOk die = true) (hcfg : s.cfg.bootable = true) (hrun : s.running.contains die = false)
include hok hcfg hrun

/-- What keeps a die from booting: it is no die of the system, its extents are not bootable, or it runs. -/
theorem boot_unblocked : ¬((!s.dieOk die) = true ∨ (!s.cfg.bootable) = true ∨ s.running.contains die = true) := by
  rw [hok, hcfg, hrun]
  decide

theorem exec_boot_unsigned (root : Nat) : exec (.boot die false version root) s = .next (s.onHost (pkgOf die) fun x => { x with bootst := 2 }) := by
  simp only [exec_boot, execBoot, if_neg (boot_unblocked hok hcfg hrun), Bool.not_false, if_true]

theorem exec_boot_older (h : version < (s.hostAt (pkgOf die)).rollback) (root : Nat) :
    exec (.boot die true version root) s = .next (s.onHost (pkgOf die) fun x => { x with bootst := 3 }) := by
  simp only [exec_boot, execBoot, if_neg (boot_unblocked hok hcfg hrun), Bool.not_true, Bool.false_eq_true, if_false, if_pos h]

theorem exec_boot_accepted (h : (s.hostAt (pkgOf die)).rollback ≤ version) (root : Nat) :
    ∃ u, s.FabOnly u ∧ exec (.boot die true version root) s = .next (u.booted die version root) := by
  refine ⟨s.linksTrained die, s.linksTrained_fabOnly die, ?_⟩
  rw [exec_boot, execBoot]
  refine congrArg Host.Outcome.next ((if_neg (boot_unblocked hok hcfg hrun)).trans ((if_neg Bool.false_ne_true).trans ((if_neg (BitVec.not_lt.2 h)).trans ?_)))
  extract_lets train u rooted cleared owned timed
  change _ = u.booted die version root
  clear_value u
  have howned : owned = rooted.onSched fun c => { c with acl := bootAcl die (u.hostAt (pkgOf die)).owner c.acl } := rooted.cleared_owned die _
  have htimed : timed = { owned with clk := if owned.running.isEmpty then owned.loadTimeb.clk else owned.clk } := owned.timed_eq
  clear_value timed
  subst htimed
  clear_value owned
  subst howned
  rfl

end Boot

/-! Memory errors (R279, R352). -/

section Errors
variable {s : State}

theorem satAdd32_lt (x : Nat) : satAdd32 x < 2 ^ 32 := Nat.lt_of_le_of_lt (Nat.min_le_right ..) (by decide)

theorem State.countError_errcnt {die n : Nat} (h : (s.hostAt (pkgOf die)).errcnt.toNat = n) (corrected : Bool) :
    ((s.countError die corrected).hostAt (pkgOf die)).errcnt.toNat =
      if corrected then n / 2 ^ 32 * 2 ^ 32 + satAdd32 (n % 2 ^ 32) else satAdd32 (n / 2 ^ 32) * 2 ^ 32 + n % 2 ^ 32 := by
  have hn : n < 2 ^ 64 := h ▸ BitVec.isLt _
  have hlo := satAdd32_lt (n % 2 ^ 32)
  have hhi := satAdd32_lt (n / 2 ^ 32)
  rw [State.countError, State.hostAt_onHost, BitVec.toNat_ofNat, h]
  refine Nat.mod_eq_of_lt ?_
  split <;> omega

/-- An error of a tile that a job holds is nobody else's: the word is bad and nothing is counted. -/
theorem exec_uncorrectableError_pad {cid : Nat} {w : Bool} {n : Nat} (hn : n < 2 ^ 18) (hjob : (s.tileJob cid w (n / 32)).isSome = true) :
    exec (.uncorrectableError cid (.pad w n)) s = .next (s.onCoreAt cid fun c => { c with padBad := c.padBad ++ [(w, n)] }) := by
  have hheld : (s.onCoreAt cid fun c => { c with padBad := c.padBad ++ [(w, n)] }).tileJob cid w (n / 32) = s.tileJob cid w (n / 32) := by
    rw [State.tileJob, State.tileJob, State.onCoreAt_sched, State.coreAt_onCoreAt]
    rfl
  simp only [exec_uncorrectableError, execUncorrectableError, Nat.mod_eq_of_lt hn, hheld, hjob, if_true]

/-- A granule is retired while more than 448 are left. -/
theorem exec_uncorrectableError_mrf {cid : Nat} (h : 448 < (s.coreAt cid).mrfCap) :
    exec (.uncorrectableError cid (.mrf none)) s = .next (s.onCoreAt cid fun c => { c with mrfCap := c.mrfCap - 1 }) := by
  simp only [exec_uncorrectableError, execUncorrectableError, if_neg (Nat.not_le.2 h)]

theorem State.flawed_of_mem {pa : Nat} (h : pa / 8 ∈ s.bad) : s.flawed pa 1 = true :=
  List.any_eq_true.2 ⟨_, h, Bool.and_eq_true_iff.2 ⟨decide_eq_true le_rfl, decide_eq_true (by omega)⟩⟩

/-- A write of any byte of a word clears its error. -/
theorem State.flawed_wrBytes (s : State) (pa : Nat) {bs : List (BitVec 8)} (h : bs ≠ []) : (s.wrBytes pa bs).flawed pa 1 = false := by
  have hlen : 0 < bs.length := List.length_pos_iff.2 h
  refine List.any_eq_false.2 fun w hw => ?_
  have hout := (List.mem_filter.1 hw).2
  simp only [Bool.not_and, Bool.or_eq_true, Bool.not_eq_true', decide_eq_false_iff_not, Bool.and_eq_true, decide_eq_true_eq] at hout ⊢
  omega

end Errors

/-! Heat and power (R415). -/

/-- What a filter on dies has kept lies on no die that it drops. -/
theorem kept_of_filter {α : Type} {gone : Nat → Bool} {die : α → Nat} {l : List α} {d : Nat} (h : gone d = true) : ∀ a ∈ l.filter fun a => !gone (die a), die a ≠ d := by
  rintro a ha rfl
  have hkept := (List.mem_filter.1 ha).2
  rw [h] at hkept
  cases hkept

/-- The links of a die's ports go down, both planes. -/
def State.linksDown (s : State) (die : Nat) : State :=
  ((List.range 6).filter fun p => s.portThere (8 * die + p)).foldl (fun s p => (s.onPlane (8 * die + p) false fun x => { x with down := true }).onPlane (8 * die + p) true fun x => { x with down := true }) s

theorem State.linksDown_fabOnly (s : State) (die : Nat) : s.FabOnly (s.linksDown die) :=
  State.FabOnly.foldl (fun u _ => (u.onPlane_fabOnly _ false _).trans (State.onPlane_fabOnly ..)) _ s

/-- R415: what a package without power has lost, and the one counter it keeps. -/
theorem exec_powerRemoval_leaves (s : State) (pkg : Nat) :
    let gone := fun d => (s.pkgDies pkg).contains d
    ∃ t, exec (.powerRemoval pkg) s = .next t ∧ t.hostAt pkg = { HostSt.reset with rollback := (s.hostAt pkg).rollback } ∧
      t.dark = (if s.dark.contains pkg then s.dark else s.dark ++ [pkg]) ∧ t.mem = s.mem.filter (fun c => !gone (paDie c.1)) ∧ t.running = s.running.filter (fun d => !gone d) ∧
      t.sched.ready = s.sched.ready.filter (fun r => !gone r.die) ∧ ∀ c ∈ s.coreIds, gone (dieOf c) = true → t.coreAt c = Core.reset := by
  intro gone
  rw [exec_powerRemoval, execPowerRemoval]
  extract_lets dies inDies cores reset tagged emptied unscheduled untranslated silent unlinked
  have hcores : s.CoresOnly reset := State.foldl_onCoreAt_coresOnly (fun _ => Core.reset) cores s
  have hreset : ∀ c ∈ cores, reset.coreAt c = Core.reset := fun c hc => (State.coreAt_foldl_each (f := fun _ => Core.reset) (fun _ => rfl) hc s).elim fun _ h => h
  have hlinks : silent.FabOnly unlinked := State.FabOnly.foldl State.linksDown_fabOnly dies silent
  have hready : reset.sched.ready = s.sched.ready := congrArg Sched.ready hcores.sched
  clear_value reset unlinked
  have hhost : unlinked.hostAt pkg = s.hostAt pkg := congrArg (fget HostSt.reset · pkg) (hlinks.host.trans hcores.host)
  refine ⟨_, rfl, ?_, ?_, hlinks.mem.trans (congrArg (List.filter _) hcores.mem), hlinks.running.trans (congrArg (List.filter _) hcores.running), ?_,
    fun c hc hd => (hlinks.coreAt c).trans (hreset c (List.mem_filter.2 ⟨hc, hd⟩))⟩
  · rw [State.hostAt_onHost, hhost]
  · exact hlinks.dark.trans (congrArg (fun l : List Nat => if l.contains pkg then l else l ++ [pkg]) hcores.dark)
  · exact (congrArg Sched.ready hlinks.sched).trans (congrArg (List.filter _) hready)

theorem exec_throttle_cool {s : State} {die celsius : Nat} (h : celsius < 120) :
    exec (.throttle die celsius) s = .next (s.onHost (pkgOf die) fun h =>
      let h := { h with temps := fput 0 die celsius h.temps, steps := fput 0 die (nextThrottle (fget 0 h.steps die) celsius) h.steps }
      { h with therm := BitVec.ofNat 16 (h.slowest * 256 + Nat.min h.hottest 255) }) := by
  rw [exec_throttle, execThrottle, if_neg (Nat.not_le.2 h)]

theorem exec_throttle_hot {s : State} {die celsius : Nat} (h : 120 ≤ celsius) : exec (.throttle die celsius) s = exec (.powerRemoval (pkgOf die)) s := by
  rw [exec_throttle, execThrottle, if_pos h, exec_powerRemoval]

/-- Settles O45: a boot goes by its image, an error by where it stands, heat by its limits; what power takes is gone from every list of the machine. -/
theorem chassisEvents : Obligations.ChassisEvents := by
  unfold Obligations.ChassisEvents
  intro s die pkg h
  refine ⟨fun hok hcfg hrun => ⟨fun v r hv => ?_, fun v r => exec_boot_unsigned hok hcfg hrun r, fun v r hv => exec_boot_older hok hcfg hrun hv r⟩,
    ⟨_, rfl, State.countError_errcnt rfl true, rfl⟩, fun cid hd => ⟨?_, fun w n hn hj => exec_uncorrectableError_pad hn hj, fun pa => ?_, exec_uncorrectableError_mrf⟩,
    fun deg => ⟨fun hdeg => ?_, exec_throttle_hot⟩, ?_⟩
  · obtain ⟨u, hlinks, hexec⟩ := exec_boot_accepted hok hcfg hrun hv r
    have htime : u.timeb = s.timeb := State.timeb_of_clk hlinks.clk
    have howner : u.hostAt pkg = h := congrArg (fget HostSt.reset · pkg) hlinks.host
    refine ⟨_, hexec, congrArg (· ++ [die]) hlinks.running, htime ▸ State.timeb_le_booted v r,
      fun hr => (State.booted_timeb (hlinks.running ▸ hr) v r).trans htime, State.booted_bootst v r, fget_fput .., fun ho => ?_, fun ho => ?_⟩
    · rw [State.booted_acl, howner, ho]
      exact bootAcl_unowned _
    · rw [State.booted_acl, howner]
      exact bootAcl_owned ho _
  · subst hd
    exact ⟨_, rfl, State.countError_errcnt rfl false, rfl⟩
  · exact ⟨_, rfl, State.flawed_of_mem (List.mem_cons_self ..), fun bs hbs => State.flawed_wrBytes _ pa hbs, rfl⟩
  · exact (exec_throttle_cool hdeg).trans (congrArg Host.Outcome.next (State.onHost_congr rfl))
  · obtain ⟨t, hexec, hhost, hdark, hmem, hrunning, hready, hcores⟩ := exec_powerRemoval_leaves s pkg
    refine ⟨t, hexec, hhost, ?_, fun d hd => ?_⟩
    · rw [hdark]
      split
      · assumption
      · simp
    · have hgone : (s.pkgDies pkg).contains d = true := List.contains_iff_mem.2 hd
      rw [hmem, hrunning, hready]
      exact ⟨kept_of_filter hgone, fun h => kept_of_filter hgone d h rfl, kept_of_filter hgone, fun c hc hcd => hcores c hc (hcd ▸ hgone)⟩

end Sys2Proof.Machine
end

section
/-! No step stops while a package has power (R415). -/

namespace Sys2Proof.Machine

/-- The outcome is a next state. -/
def Goes (o : Out) : Prop := ∃ t, o = .next t

/-! Every operation and every event has a next state. -/

/-- What no class holds and is no tree is an event: its meaning is a change of the state. -/
theorem exec_event_goes (i : Instr) (s : State) (h : ¬(i.classes ≠ [] ∨ i.tree.isSome = true)) : Goes (exec i s) := by
  cases i with
  | offCoreLoadResponse | queueEntryPerform | offCoreFaultReport | engineCommandCompletion | engineFailureReport | ringBlockTransfer | pipeTileCopy
  | haloFaceArrival | reshardStep | stepTokenArrival | barrierArrival | recordAdmission | recordCompletion | packetExpansion | gangClaim | gangAdmission
  | gangResume | jobCompletion | completionSignal | resume | fault | endTrapped | endPost | requestArrival | acknowledgement | checkpointCopy
  | checkpointCommit | push | uncorrectableError | correctedError | flitArrival | planeFailure | planeRejoin | linkTraining | rekey | slotAlignmentLoss
  | bar0Write | claim | handover | attest | bar4Write | bar4Read | boot | resumption | ownerLinkDown | powerRemoval
  | repetitionIssue | resultLanding | matrixResultLanding | waitConditionMet | waitTimeout | safePoint | save | budgetExhausted | safepointOverdue
  | spawnEnqueue | dispatch | trapRecordClaim | translationWalk | tlbinvCompletion | criticalResend | criticalFlitLost | endToEndResend
  | fabricOutcomeUnknown | handoverLapse | quoteCompletion => exact ⟨_, rfl⟩
  | throttle die celsius =>
    by_cases hot : 120 ≤ celsius
    · exact ⟨_, exec_throttle_hot hot⟩
    · exact ⟨_, exec_throttle_cool (Nat.not_le.1 hot)⟩
  | br | call | brx => exact absurd (Or.inr rfl) h
  -- The rest are slot operations, which a class holds.
  | _ => exact absurd (Or.inl nofun) h

theorem exec_goes (i : Instr) (s : State) : Goes (exec i s) := by
  by_cases h : i.classes ≠ [] ∨ i.tree.isSome = true
  · exact (exec_issues i s h).elim fun _ hx => ⟨_, hx⟩
  · exact exec_event_goes i s h

/-! The ways in which a step runs an executor that always goes on. -/

theorem goes_next (s : State) : Goes (.next s) := ⟨s, rfl⟩

theorem thenDo_goes {o : Out} {f : State → Out} (h : Goes o) (hf : ∀ s, Goes (f s)) : Goes (thenDo o f) := by
  obtain ⟨t, rfl⟩ := h
  exact hf t

section Runs
variable {ex : Instr → State → Out} (hex : ∀ i s, Goes (ex i s))
include hex

theorem runAll_goes : ∀ (l : List Instr) (s : State), Goes (runAll ex l s)
  | [], s => goes_next s
  | i :: r, s => thenDo_goes (hex i s) (runAll_goes r)

theorem runStages_goes : ∀ (l : List Stage) (s : State), Goes (runStages ex l s)
  | [], s => goes_next s
  | p :: r, s => thenDo_goes (runAll_goes hex (p.plan (p.prepare s)) (p.prepare s)) (runStages_goes r)

theorem runSlots_goes : ∀ (l : List (Nat × Instr)) (s : State), Goes (runSlots ex l s)
  | [], s => goes_next s
  | (k, i) :: r, s => thenDo_goes (hex i (enterSlot k i s)) fun t => runSlots_goes r (raiseFlaw i t)

theorem runWaits_goes : ∀ (l : List Nat) (s : State), Goes (runWaits ex l s)
  | [], s => goes_next s
  | c :: r, s => thenDo_goes (runAll_goes hex _ (s.focus c)) (runWaits_goes r)

theorem runCalc_goes (p : Pend) (s : State) : Goes (runCalc ex p s) := by
  unfold runCalc
  split
  · dsimp only
    split
    · exact goes_next _
    · exact thenDo_goes (hex _ _) fun _ => goes_next _
  · exact goes_next s

theorem runCalcs_goes : ∀ (l : List Pend) (s : State), Goes (runCalcs ex l s)
  | [], s => goes_next s
  | p :: r, s => thenDo_goes (runCalc_goes hex p s) (runCalcs_goes r)

theorem issueRepetition_goes (s : State) : Goes (issueRepetition ex s) := by
  unfold issueRepetition
  split
  · exact goes_next s
  · exact thenDo_goes (runSlots_goes hex _ s) fun _ => goes_next _

theorem coreTail_goes (s : State) : Goes (coreTail ex s) :=
  thenDo_goes (runCalcs_goes hex _ _) fun t => thenDo_goes (runAll_goes hex _ t) fun t => thenDo_goes (runAll_goes hex _ t) fun t =>
    thenDo_goes (hex .save t) fun _ => goes_next _

theorem coreCycle_goes (s : State) : Goes (coreCycle ex s) :=
  thenDo_goes (runAll_goes hex _ _) fun t => thenDo_goes (issueRepetition_goes hex t) (coreTail_goes hex)

theorem sharedCycle_goes (l : List Stage) (s : State) : Goes (sharedCycle ex l s) :=
  thenDo_goes (runStages_goes hex l _) fun _ => thenDo_goes (runWaits_goes hex _ _) fun _ => goes_next _

/-- One step of a machine with power: a core's turn, an event from outside, the shared part of a cycle. -/
theorem stepBy_goes (l : List Stage) {s : State} (hpower : s.allDark = false) : Goes (stepBy ex l s) := by
  unfold stepBy
  rw [if_neg (Bool.eq_false_iff.1 hpower)]
  split
  · exact coreCycle_goes hex _
  · split
    · exact hex _ _
    · exact sharedCycle_goes hex l s

end Runs

/-- Settles O56: every operation goes on, and so does each way a step runs one; without power a step is the fault. -/
theorem stepNeverStopsUnderPower : Obligations.StepNeverStopsUnderPower := by
  unfold Obligations.StepNeverStopsUnderPower
  exact ⟨exec_goes, fun _ => stepBy_goes exec_goes sharedStages, fun _ hdark => if_pos hdark⟩

end Sys2Proof.Machine
end

section
/-! What a write of memory leaves (R279, R284): memory and its errors are all that it changes. -/

namespace Sys2Proof.Machine

/-- The second state is the first with another memory. -/
def State.MemOnly (s t : State) : Prop := t = { s with mem := t.mem, bad := t.bad }

namespace State.MemOnly
variable {s t u : State}

theorem refl : s.MemOnly s := Eq.refl s
theorem trans (h : s.MemOnly t) (k : t.MemOnly u) : s.MemOnly u := Eq.trans k (congrArg (fun t => { t with mem := u.mem, bad := u.bad }) h)
theorem core (h : s.MemOnly t) : t.core = s.core := (congrArg State.core h :)
theorem cid (h : s.MemOnly t) : t.cid = s.cid := (congrArg State.cid h :)
theorem sched (h : s.MemOnly t) : t.sched = s.sched := (congrArg State.sched h :)
theorem cmds (h : s.MemOnly t) : t.cmds = s.cmds := (congrArg State.cmds h :)
theorem cont (h : s.MemOnly t) (k : Nat) : t.cont k = s.cont k := congrArg (fun x : Sched => fget none x.conts k) h.sched

theorem wrBytes (s : State) (pa : Nat) (bs : List (BitVec 8)) : s.MemOnly (s.wrBytes pa bs) := Eq.refl _
theorem wr (s : State) (pa n v : Nat) : s.MemOnly (s.wr pa n v) := Eq.refl _

theorem wrVirt (s : State) (die asid va : Nat) (bs : List (BitVec 8)) : s.MemOnly (s.wrVirt die asid va bs).1 := by
  suffices hgo : ∀ (n : Nat) (s : State) (va : Nat) (bs : List (BitVec 8)), s.MemOnly (State.wrVirt.go die asid n s va bs).1 from hgo ..
  intro n
  induction n with
  | zero => exact fun _ _ _ => refl
  | succ n ih =>
    intro s va bs
    unfold State.wrVirt.go
    split
    · exact refl
    · dsimp only
      split
      · exact refl
      · exact (wrBytes ..).trans (ih ..)

theorem writePieces (asid base : Nat) (l : List (Nat × List (BitVec 8))) (s : State) : s.MemOnly (s.writePieces asid base l).1 := by
  induction l generalizing s with
  | nil => exact refl
  | cons p r ih =>
    obtain ⟨o, b⟩ := p
    have hpiece := wrVirt s s.die asid (base + o) b
    unfold State.writePieces
    split
    next hw => exact (hw ▸ hpiece).trans (ih _)
    next hw => exact hw ▸ hpiece

end State.MemOnly

end Sys2Proof.Machine
end

section
/-! Safe points: what is taken there, and the save (R332 to R335, R342). -/

namespace Sys2Proof.Machine

/-! A trap taken at a boundary where no report is pending. -/

section Taken
variable {s : State} {c : Cont} (hr : s.reportTrap = none) (hc : s.self = some c) {t : Trap}
include hr hc

theorem State.takeBoundary_run_terminating (hm : s.core.mode = .run) (ht : t.resumable = false) :
    (s.takeBoundary t).core.mode = .stopping whyFault ∧ ∃ d, (s.takeBoundary t).cont s.selfKey = some d ∧ d.reports = t :: c.reports := by
  obtain ⟨u, x, htake, hcore, hmem, hu⟩ := State.takeBoundary_run hm t
  obtain rfl := hu hr
  rw [htake]
  exact ⟨by rw [State.takeTrap_core, ht]; rfl, _, State.cont_takeTrap (s := u.onIss fun _ => x) hc ht, rfl⟩

/-- R342, R345: a resumable trap of a continuation that is no handler, whether it runs or its wait is held. -/
theorem State.takeBoundary_resumable (hb : s.atBoundary = true) (hh : c.handlerOf = none) (ht : t.resumable = true) :
    (s.takeBoundary t).core.mode = .stopping whyTrap ∧ ∃ d, (s.takeBoundary t).cont s.selfKey = some d ∧ d.reports = t :: c.reports := by
  have hself : (s.self.bind Cont.handlerOf).isNone = true := by rw [hc, Option.bind_some, hh]; rfl
  unfold State.atBoundary at hb
  split at hb
  next hm =>
    obtain ⟨u, x, htake, hcore, hmem, hu⟩ := State.takeBoundary_run hm t
    obtain rfl := hu hr
    rw [htake]
    refine ⟨?_, _, State.cont_takeTrap_resumable (s := u.onIss fun _ => x) hc hh t, rfl⟩
    rw [State.takeTrap_core, ht]
    change Mode.stopping (if true && (u.self.bind Cont.handlerOf).isNone then _ else _) = _
    rw [hself]
    rfl
  next hm =>
    refine ⟨?_, _, State.takeBoundary_held_cont hm hr t hc hh, rfl⟩
    rw [State.takeBoundary_held_mode hm hr t, ht, hself]
    rfl
  next => cases hb

end Taken

/-- What a safe point is: a boundary at which no trap stands (R332, R342). -/
theorem State.boundary_of_atSafePoint {s : State} (h : s.atSafePoint = true) : s.atBoundary = true ∧ s.boundaryTrap = none := by
  unfold State.atSafePoint at h
  simp only [Bool.and_eq_true, Option.isNone_iff_eq_none] at h
  exact ⟨h.1.1.1.1, h.1.1.2⟩

/-! The save. -/

/-- The record of a continuation whose slot has been written: SAVED, its mark gone (R335). -/
def Cont.saved (c : Cont) (cid : Nat) (k : Core) : Cont :=
  { c with pc := k.ctx.pc, budget := k.ctx.ctl.budget, deadline := k.ctx.ctl.deadline, savedOn := some cid, charged := c.charged + k.charged, atEnd := k.iss.atEnd,
           fixups := none, state := stSaved, mark := none }

theorem State.cont_insertReady (s : State) (r : Ready) (k : Nat) : (s.insertReady r).cont k = s.cont k := rfl

theorem State.enqueue_of_cont {s : State} {k : Nat} {c : Cont} (h : s.cont k = some c) : ∃ r, s.enqueue k = s.insertReady r := by
  unfold State.enqueue
  rw [h]
  exact ⟨_, rfl⟩

/-- R335: the slot has been written; the continuation, pre-empted and of no gang, is recorded as SAVED and enqueued, and the core is free. -/
theorem exec_save_preempted {s u : State} {c : Cont} (hc : s.self = some c) (hm : s.core.mode = .saving whyPreempt) (hd : s.core.saveDone ≤ s.now)
    (hg : c.gang = none) (hf : s.saveFlaw = none) (hw : s.writePieces s.ctl.asid.toNat (slotAddr s s.jcb s.mySlot) s.savePieces = (u, none)) :
    ∃ t : State, exec .save s = .next t ∧ t.core = s.core.vacate ∧ t.mem = u.mem ∧ t.cont s.selfKey = some (c.saved s.cid s.core) := by
  have hu : s.MemOnly u := by
    have h := State.MemOnly.writePieces s.ctl.asid.toNat (slotAddr s s.jcb s.mySlot) s.savePieces s
    rwa [hw] at h
  have hkey : u.selfKey = s.selfKey := by rw [State.selfKey, State.selfKey, hu.core]
  have hcont : u.cont s.selfKey = some c := (hu.cont _).trans (State.cont_selfKey hc)
  let v := u.toRecord.onCont s.selfKey fun c => { c with state := stSaved, mark := none }
  let w := v.onCont s.selfKey fun c => { c with seq := (v.cont s.selfKey).elim 0 Cont.seq }
  have hv : v.cont s.selfKey = some (c.saved s.cid s.core) := by
    rw [State.cont_onCont, State.toRecord, hkey, State.cont_onCont, hcont, hu.core, hu.cid]
    rfl
  have hwk : w.cont s.selfKey = some (c.saved s.cid s.core) := by
    rw [State.cont_onCont, hv]
    rfl
  have hcore : w.core = s.core := (State.onCont_core ..).trans ((State.onCont_core ..).trans ((State.onCont_core ..).trans hu.core))
  have hmem : w.mem = u.mem := (State.onCont_mem ..).trans ((State.onCont_mem ..).trans (State.onCont_mem ..))
  obtain ⟨r, hr⟩ := State.enqueue_of_cont hwk
  refine ⟨(w.enqueue s.selfKey).vacate, ?_, ?_, ?_, ?_⟩
  · have hgang : ((w.cont s.selfKey).bind Cont.gang).isSome = false := by rw [hwk, Option.bind_some, Cont.saved, hg]; rfl
    simp only [exec_save, execSave, hm, if_neg (Nat.not_lt.2 hd), hf, hw]
    change Host.Outcome.next (if ((w.cont s.selfKey).bind Cont.gang).isSome || false then w else w.enqueue s.selfKey).vacate = _
    rw [hgang]
    rfl
  · rw [hr]
    exact congrArg Core.vacate hcore
  · rw [hr]
    exact hmem
  · rw [hr]
    exact hwk

/-- Settles O29: a safe point is a boundary without a trap, where the trap taken heads the reports; the save goes on to the record. -/
theorem safePoints : Obligations.SafePoints := by
  unfold Obligations.SafePoints
  intro s c hc
  refine ⟨fun hs hbud hh => ?_, fun m k hs hbud hmark hside hlow => ?_, fun hm hrep hissue hcount hnone hover hhold => ?_, fun u hm hd hg hf hw => ?_⟩
  · obtain ⟨hb, hnone⟩ := State.boundary_of_atSafePoint hs
    obtain ⟨hmode, d, hd, hreports⟩ := State.takeBoundary_resumable (State.reportTrap_of_boundaryTrap hnone) hc
      (t := { cause := cBudget, pc := s.core.ctx.pc.toNat, resumable := true }) hb hh rfl
    refine ⟨(s.takeBoundary { cause := cBudget, pc := s.core.ctx.pc.toNat, resumable := true }).onIss fun i => { i with safe := true }, d, ?_, hmode, hd, hreports⟩
    simp only [exec_budgetExhausted, execBudgetExhausted, hs, hbud, beq_self_eq_true, Bool.and_self, if_true]
  · have hgo : (s.ctl.budget != 0) = true := bne_iff_ne.2 hbud
    have hmarked : s.marked = some m := by rw [State.marked, hc, Option.bind_some, hmark]
    refine ⟨s.leave whyPreempt true, ?_, rfl, ?_⟩
    · simp only [exec_safePoint, execSafePoint, hs, hgo, hmarked, hside, Bool.and_self, if_true, if_neg (fun h : markCkpt ≤ m ∧ m < markGang => absurd h.1 (Nat.not_le.2 hlow))]
    · unfold State.leave
      split
      · change (s.onCont s.selfKey _).core.ctx = _
        rw [State.onCont_core]
      · rfl
  · have hb : s.atBoundary = true := State.atBoundary_run hm hissue hrep
    obtain ⟨hmode, d, hd, hreports⟩ := State.takeBoundary_run_terminating (State.reportTrap_of_boundaryTrap hnone) hc
      (t := { cause := cOverdue, pc := s.core.ctx.pc.toNat, info0 := s.core.spCount, info1 := s.ctl.spbound.toNat }) hm rfl
    refine ⟨_, d, ?_, hmode, hd, hreports⟩
    simp only [exec_safepointOverdue, execSafepointOverdue, hb, hm, hcount, hnone, hover, hhold, decide_true, Option.isNone_none, Bool.not_false, Bool.and_self, if_true]
  · obtain ⟨t, hexec, hcore, hmem, hcont⟩ := exec_save_preempted hc hm hd hg hf hw
    exact ⟨t, _, hexec, by rw [hcore]; rfl, by rw [hcore]; rfl, hmem, hcont, rfl, rfl, rfl, rfl⟩

end Sys2Proof.Machine
end

section
/-! What the device reads by virtual address (R285 to R294, R425): it depends on the system's shape, its memory, its translations and its links alone. -/

namespace Sys2Proof.Machine

/-- The two states agree in all that an access by virtual address looks at. -/
structure State.ReadsAlike (s t : State) : Prop where
  cfg : t.cfg = s.cfg
  mem : t.mem = s.mem
  bad : t.bad = s.bad
  xl : t.xl = s.xl
  planes : t.fab.planes = s.fab.planes

namespace State.ReadsAlike
variable {s t u : State}

theorem refl : s.ReadsAlike s := ⟨.refl _, .refl _, .refl _, .refl _, .refl _⟩
theorem trans (h : s.ReadsAlike t) (k : t.ReadsAlike u) : s.ReadsAlike u :=
  ⟨k.cfg.trans h.cfg, k.mem.trans h.mem, k.bad.trans h.bad, k.xl.trans h.xl, k.planes.trans h.planes⟩
theorem onSched (s : State) (f : Sched → Sched) : s.ReadsAlike (s.onSched f) := ⟨rfl, rfl, rfl, rfl, rfl⟩
theorem onCore (s : State) (f : Core → Core) : s.ReadsAlike (s.onCore f) := ⟨rfl, rfl, rfl, rfl, rfl⟩
theorem setCont (s : State) (k : Nat) (c : Option Cont) : s.ReadsAlike (s.setCont k c) := onSched ..
theorem onCont (s : State) (k : Nat) (f : Cont → Cont) : s.ReadsAlike (s.onCont k f) := by
  unfold State.onCont
  split
  · exact setCont ..
  · exact refl
theorem onCoreAt (s : State) (k : Nat) (f : Core → Core) : s.ReadsAlike (s.onCoreAt k f) := by
  unfold State.onCoreAt
  split
  · exact onCore ..
  · exact ⟨rfl, rfl, rfl, rfl, rfl⟩

section Reads
variable (h : s.ReadsAlike t)
include h

theorem rd (pa n : Nat) : t.rd pa n = s.rd pa n := by rw [State.rd, State.rd, State.rdBytes, State.rdBytes, h.mem]
theorem rdBytes (pa n : Nat) : t.rdBytes pa n = s.rdBytes pa n := by rw [State.rdBytes, State.rdBytes, h.mem]
theorem flawed (pa n : Nat) : t.flawed pa n = s.flawed pa n := by rw [State.flawed, State.flawed, h.bad]
theorem dieOk (d : Nat) : t.dieOk d = s.dieOk d := by rw [State.dieOk, State.dieOk, h.cfg]
theorem paBad (pa : Nat) : t.paBad pa = s.paBad pa := by rw [State.paBad, State.paBad, h.dieOk, State.safeBase, State.safeBase, h.cfg]

/-! Routes. -/

theorem extent (dim : Nat) : t.extent dim = s.extent dim := by simp only [State.extent, h.cfg]
theorem neighbour (d dir : Nat) : t.neighbour d dir = s.neighbour d dir := by rw [State.neighbour, State.neighbour, h.extent]
theorem portOf (d dir : Nat) : t.portOf d dir = s.portOf d dir := by rw [State.portOf, State.portOf, h.extent]
theorem portDead (port : Nat) : t.portDead port = s.portDead port := by simp only [State.portDead, State.plane, h.planes]
theorem linkLive (d dir : Nat) : t.linkLive d dir = s.linkLive d dir := by simp only [State.linkLive, h.portDead, h.portOf, h.neighbour]
theorem walkDir (dir n d : Nat) : t.walkDir dir n d = s.walkDir dir n d := by
  induction n generalizing d with
  | zero => rfl
  | succ n ih => simp only [State.walkDir, h.linkLive, h.neighbour, ih]
theorem dimRoute (d dst dim : Nat) : t.dimRoute d dst dim = s.dimRoute d dst dim := by simp only [State.dimRoute, h.extent, h.walkDir]
theorem route (d dst : Nat) : t.route d dst = s.route d dst := by simp only [State.route, h.dimRoute]

/-! Walks and translations. -/

theorem tableBad (die pa : Nat) : t.tableBad die pa = s.tableBad die pa := by simp only [State.tableBad, h.paBad, h.route, h.flawed]
theorem walk (die asid va : Nat) : t.walk die asid va = s.walk die asid va := by
  have hrd : (fun pa => t.rd pa 8) = fun pa => s.rd pa 8 := funext fun pa => h.rd pa 8
  have hbad : t.tableBad die = s.tableBad die := funext (h.tableBad die)
  rw [State.walk, State.walk, hrd, hbad]
  simp only [State.walkWith, h.xl, h.rd, h.flawed]
theorem leafPa (e level va : Nat) (k : Acc) : t.leafPa e level va k = s.leafPa e level va k := by simp only [State.leafPa, h.paBad]
theorem xlate (die asid va : Nat) (k : Acc) : t.xlate die asid va k = s.xlate die asid va k := by simp only [State.xlate, h.xl, h.leafPa, h.walk]
theorem reachable (die asid va : Nat) (k : Acc) : t.reachable die asid va k = s.reachable die asid va k := by
  simp only [State.reachable, State.homeBad, h.xlate, h.route]
theorem writable (die asid va : Nat) : t.writable die asid va = s.writable die asid va := h.reachable die asid va .write
theorem readable (die asid va n : Nat) : t.readable die asid va n = s.readable die asid va n := by simp only [State.readable, h.reachable, h.flawed]

/-! Reads of a job's structures. -/

theorem rdVirt (die asid va n : Nat) : t.rdVirt die asid va n = s.rdVirt die asid va n := by
  suffices hgo : ∀ (f va n : Nat), State.rdVirt.go t die asid f va n = State.rdVirt.go s die asid f va n from hgo ..
  intro f
  induction f with
  | zero => exact fun _ _ => rfl
  | succ f ih => intro va n; simp only [State.rdVirt.go, h.readable, h.rdBytes, ih]
theorem rdV (die asid va n : Nat) : t.rdV die asid va n = s.rdV die asid va n := by rw [State.rdV, State.rdV, h.rdVirt]
theorem kdesc (die asid va : Nat) : t.kdesc die asid va = s.kdesc die asid va := by rw [State.kdesc, State.kdesc, h.rdVirt]
theorem jcbAsid (j : Nat) : jcbAsid t j = Sys2Proof.Machine.jcbAsid s j := by rw [Machine.jcbAsid, Machine.jcbAsid, h.rd]

/-! The same write of two states that read alike. -/

theorem wrBytes (pa : Nat) (bs : List (BitVec 8)) : (s.wrBytes pa bs).ReadsAlike (t.wrBytes pa bs) :=
  ⟨h.cfg, congrArg (memWrite · pa bs) h.mem, congrArg (repaired · pa bs.length) h.bad, h.xl, h.planes⟩
theorem wr (pa n v : Nat) : (s.wr pa n v).ReadsAlike (t.wr pa n v) := h.wrBytes pa (natLe n v)

end Reads

end State.ReadsAlike

end Sys2Proof.Machine
end

section
/-! The expansion of launch packets (R311, R317, R320, R321). -/

namespace Sys2Proof.Machine

/-! What the checks of a packet read. -/

namespace State.ReadsAlike
variable {s t : State} (h : s.ReadsAlike t)
include h

theorem memberDescs (die asid : Nat) (l : List Nat) : t.memberDescs die asid l = s.memberDescs die asid l := by
  induction l with
  | nil => rfl
  | cons a r ih => simp only [State.memberDescs, h.kdesc, ih]

theorem gangDesc (die asid va : Nat) : t.gangDesc die asid va = s.gangDesc die asid va := by simp only [State.gangDesc, h.rdVirt, h.memberDescs]

theorem launchCheck (die : Nat) (p : BitVec 512) : t.launchCheck die p = s.launchCheck die p := by
  simp only [State.launchCheck, State.jcbBad, jcbFlags, jcbExpect, h.flawed, h.rd, h.gangDesc, h.jcbAsid, h.kdesc]
  rfl

theorem lowerPending (j : Nat) : (s.lowerPending j).ReadsAlike (t.lowerPending j) := by
  unfold State.lowerPending
  rw [jcbPending, jcbPending, h.rd]
  exact h.wr ..

theorem setStatus (j c : Nat) : (s.setStatus j c).ReadsAlike (t.setStatus j c) := by
  unfold State.setStatus
  rw [h.rd]
  split
  · exact h.wr ..
  · exact h

/-- EXPECT raised by a number and PENDING lowered. -/
theorem raiseExpect (j n : Nat) : ((s.wr j 4 (jcbExpect s j + n)).lowerPending j).ReadsAlike ((t.wr j 4 (jcbExpect t j + n)).lowerPending j) := by
  rw [jcbExpect, jcbExpect, h.rd]
  exact lowerPending (h.wr ..) j

end State.ReadsAlike

/-! Job tags, and a gang unit's members. -/

/-- A tag given to a job changes the tags alone. -/
theorem State.giveJtag_eq (s : State) (die jcb : Nat) : ∃ l, s.giveJtag die jcb = s.onSched fun c => { c with jtags := l } := by
  unfold State.giveJtag
  split
  · exact ⟨s.sched.jtags, rfl⟩
  · dsimp only
    split
    · exact ⟨_, rfl⟩
    · exact ⟨s.sched.jtags, rfl⟩

/-- Create member m of gang unit i, where its kernel descriptor can be read. -/
def createMember (die : Nat) (p : BitVec 512) (i seq id : Nat) (acc : State × List Nat) (m : Nat × Nat) : State × List Nat :=
  match acc.1.kdesc die (jcbAsid acc.1 (pktJcb p)) (m.1 % 2 ^ 56) with
  | .error _ => acc
  | .ok k =>
    let u := acc.1.createAt die seq { unitCont die p i m.2 (m.1 % 2 ^ 56) k with gang := some (id, m.2), state := stGangwait }
    (u.1, acc.2 ++ [u.2])

theorem State.createGang_none {s : State} {die : Nat} {p : BitVec 512} (h : s.gangDesc die (jcbAsid s (pktJcb p)) (pktKdesc p) = none) (i seq : Nat) :
    s.createGang die p i seq = s := by
  simp only [State.createGang, h]

theorem State.createGang_some {s : State} {die : Nat} {p : BitVec 512} {g : GangDesc} (h : s.gangDesc die (jcbAsid s (pktJcb p)) (pktKdesc p) = some g) (i seq : Nat) :
    ∃ gang r, s.createGang die p i seq =
      (((List.zipIdx g.members).foldl (createMember die p i seq s.fresh.2) (s.fresh.1, [])).1.onSched fun c => { c with gangs := c.gangs ++ [gang] }).insertReady r := by
  simp only [State.createGang, h]
  exact ⟨_, _, rfl⟩

theorem State.ReadsAlike.giveJtag (s : State) (die jcb : Nat) : s.ReadsAlike (s.giveJtag die jcb) := by
  obtain ⟨l, hl⟩ := s.giveJtag_eq die jcb
  rw [hl]
  exact .onSched ..

/-! What the creation of a unit leaves as it was. -/

/-- The second state has the memory, the launch queues and the enqueue numbers of the first. -/
structure State.LaunchKept (s t : State) : Prop where
  mem : t.mem = s.mem
  launch : t.sched.launch = s.sched.launch
  rr : t.sched.rr = s.sched.rr
  seq : t.sched.seq = s.sched.seq

namespace State.LaunchKept
variable {s t u : State}

theorem refl : s.LaunchKept s := ⟨.refl _, .refl _, .refl _, .refl _⟩
theorem trans (h : s.LaunchKept t) (k : t.LaunchKept u) : s.LaunchKept u := ⟨k.mem.trans h.mem, k.launch.trans h.launch, k.rr.trans h.rr, k.seq.trans h.seq⟩

theorem giveJtag (s : State) (die jcb : Nat) : s.LaunchKept (s.giveJtag die jcb) := by
  obtain ⟨l, hl⟩ := s.giveJtag_eq die jcb
  rw [hl]
  exact ⟨rfl, rfl, rfl, rfl⟩

theorem judgeJob (s : State) (jcb : Nat) : s.LaunchKept (s.judgeJob jcb) := by
  unfold State.judgeJob
  split
  · exact ⟨rfl, rfl, rfl, rfl⟩
  · exact refl

theorem createAt (s : State) (die seq : Nat) (c : Cont) : s.LaunchKept (s.createAt die seq c).1 := (giveJtag s die c.jcb).trans ⟨rfl, rfl, rfl, rfl⟩

theorem createMember (die : Nat) (p : BitVec 512) (i seq id : Nat) (acc : State × List Nat) (m : Nat × Nat) :
    acc.1.LaunchKept (createMember die p i seq id acc m).1 := by
  unfold Machine.createMember
  split
  · exact refl
  · exact createAt ..

theorem createGang (s : State) (die : Nat) (p : BitVec 512) (i seq : Nat) : s.LaunchKept (s.createGang die p i seq) := by
  cases hg : s.gangDesc die (jcbAsid s (pktJcb p)) (pktKdesc p) with
  | none => rw [State.createGang_none hg]; exact refl
  | some g =>
    obtain ⟨gang, r, hcreate⟩ := State.createGang_some hg i seq
    rw [hcreate]
    suffices hmembers : ∀ (l : List (Nat × Nat)) (acc : State × List Nat), acc.1.LaunchKept (l.foldl (Machine.createMember die p i seq s.fresh.2) acc).1 from
      have hfresh : s.LaunchKept s.fresh.1 := ⟨rfl, rfl, rfl, rfl⟩
      .trans (hfresh.trans (hmembers _ (s.fresh.1, []))) ⟨rfl, rfl, rfl, rfl⟩
    intro l
    induction l with
    | nil => exact fun _ => refl
    | cons m l ih => exact fun acc => (createMember die p i seq _ acc m).trans (ih _)

end State.LaunchKept

/-! One packet. -/

section Expand
variable {s : State} {die : Nat} {p : BitVec 512}

/-- The JCB is memory that the die reaches. -/
def State.jcbAt (s : State) (die j : Nat) : Bool := !(s.paBad j || inWindow j || (paDie j != die && (s.route die (paDie j)).isNone))

theorem State.expand_nowhere (h : s.jcbAt die (pktJcb p) = false) : s.expand die p = s := by
  rw [State.jcbAt, Bool.not_eq_false'] at h
  simp only [State.expand, h, if_true]

theorem State.expand_fails (h : s.jcbAt die (pktJcb p) = true) {c : Nat} (hc : s.launchCheck die p = .error c) :
    s.expand die p = ((s.lowerPending (pktJcb p)).setStatus (pktJcb p) c).judgeJob (pktJcb p) := by
  rw [State.jcbAt, Bool.not_eq_true'] at h
  simp only [State.expand, h, hc, Bool.false_eq_true, if_false]

/-- The packet is counted in its JCB: EXPECT up, PENDING down, the time of its first launch (R320). -/
def State.counted (s : State) (die : Nat) (p : BitVec 512) (m : Nat) : State :=
  let j := pktJcb p
  let u := ((s.giveJtag die j).wr j 4 (jcbExpect (s.giveJtag die j) j + pktCount p * m)).lowerPending j
  (if u.rd (j + 0x48) 8 = 0 then u.wr (j + 0x48) 8 u.timeb else u).judgeJob j

/-- A counted packet of a job that goes on stands in the ready queue (R326): its first gang unit, or all its units in one entry. -/
def State.launched (s : State) (die : Nat) (p : BitVec 512) : State :=
  if pktCount p = 0 ∨ (s.sched.ending.any fun e => e.jcb == pktJcb p) then s
  else if pktGang p then (s.reserveSeq die (pktCount p)).1.createGang die p 0 (s.reserveSeq die (pktCount p)).2
  else (s.reserveSeq die (pktCount p)).1.insertReady
    { die := die, level := .die, deadline := pktDeadline p, seq := (s.reserveSeq die (pktCount p)).2, item := .packet p 0 }

theorem State.expand_launches (h : s.jcbAt die (pktJcb p) = true) {m : Nat} (hm : s.launchCheck die p = .ok m) :
    s.expand die p = (s.counted die p m).launched die p := by
  rw [State.jcbAt, Bool.not_eq_true'] at h
  unfold State.expand
  dsimp only
  rw [if_neg (Bool.eq_false_iff.1 h), hm]
  dsimp only
  unfold State.launched State.counted
  dsimp only

end Expand

/-! What each part of an expansion leaves. -/

theorem State.lowerPending_memOnly (s : State) (j : Nat) : s.MemOnly (s.lowerPending j) := .wr ..

theorem State.setStatus_memOnly (s : State) (j c : Nat) : s.MemOnly (s.setStatus j c) := by
  unfold State.setStatus
  split
  · exact .wr ..
  · exact .refl

/-- The writes of a count lie in memory: the scheduler has a tag more, and the job may be at its end. -/
theorem State.counted_kept (s : State) (die : Nat) (p : BitVec 512) (m : Nat) :
    (s.counted die p m).sched.launch = s.sched.launch ∧ (s.counted die p m).sched.rr = s.sched.rr ∧ (s.counted die p m).sched.seq = s.sched.seq := by
  unfold State.counted
  extract_lets j u
  have hraised : (s.giveJtag die j).MemOnly u := (State.MemOnly.wr ..).trans (State.lowerPending_memOnly ..)
  have hu : (s.giveJtag die j).MemOnly (if u.rd (j + 0x48) 8 = 0 then u.wr (j + 0x48) 8 u.timeb else u) := by
    split
    · exact hraised.trans (.wr ..)
    · exact hraised
  have htag := State.LaunchKept.giveJtag s die j
  have hjudge := State.LaunchKept.judgeJob (if u.rd (j + 0x48) 8 = 0 then u.wr (j + 0x48) 8 u.timeb else u) j
  rw [hjudge.launch, hjudge.rr, hjudge.seq, hu.sched]
  exact ⟨htag.launch, htag.rr, htag.seq⟩

/-- R320: of a job that has begun the time of its first launch stays. -/
theorem State.counted_mem {s : State} {p : BitVec 512} (hbegun : s.rd (pktJcb p + 0x48) 8 ≠ 0) (die m : Nat) :
    (s.counted die p m).mem = ((s.wr (pktJcb p) 4 (jcbExpect s (pktJcb p) + pktCount p * m)).lowerPending (pktJcb p)).mem := by
  have halike := (State.ReadsAlike.giveJtag s die (pktJcb p)).raiseExpect (pktJcb p) (pktCount p * m)
  have hstill : ((s.wr (pktJcb p) 4 (jcbExpect s (pktJcb p) + pktCount p * m)).lowerPending (pktJcb p)).rd (pktJcb p + 0x48) 8 ≠ 0 := by
    rwa [State.lowerPending, rd_wr_disjoint _ _ _ _ _ _ (.inr (by omega)), rd_wr_disjoint _ _ _ _ _ _ (.inr (by omega))]
  unfold State.counted
  dsimp only
  rw [(State.LaunchKept.judgeJob ..).mem, halike.rd, if_neg hstill, halike.mem]

theorem State.launched_kept (s : State) (die : Nat) (p : BitVec 512) :
    (s.launched die p).mem = s.mem ∧ (s.launched die p).sched.launch = s.sched.launch ∧ (s.launched die p).sched.rr = s.sched.rr := by
  unfold State.launched
  split
  · exact ⟨rfl, rfl, rfl⟩
  · split
    · have hgang := State.LaunchKept.createGang (s.reserveSeq die (pktCount p)).1 die p 0 (s.reserveSeq die (pktCount p)).2
      exact ⟨hgang.mem, hgang.launch, hgang.rr⟩
    · exact ⟨rfl, rfl, rfl⟩

theorem State.expand_queues (s : State) (die : Nat) (p : BitVec 512) : (s.expand die p).sched.launch = s.sched.launch ∧ (s.expand die p).sched.rr = s.sched.rr := by
  cases hat : s.jcbAt die (pktJcb p) with
  | false => rw [State.expand_nowhere hat]; exact ⟨rfl, rfl⟩
  | true =>
    cases hm : s.launchCheck die p with
    | error c =>
      have hjudge := State.LaunchKept.judgeJob ((s.lowerPending (pktJcb p)).setStatus (pktJcb p) c) (pktJcb p)
      rw [State.expand_fails hat hm, hjudge.launch, hjudge.rr, (State.setStatus_memOnly ..).sched]
      exact ⟨rfl, rfl⟩
    | ok m =>
      obtain ⟨_, hlaunch, hrr⟩ := (s.counted die p m).launched_kept die p
      obtain ⟨hlaunch', hrr', _⟩ := s.counted_kept die p m
      rw [State.expand_launches hat hm]
      exact ⟨hlaunch.trans hlaunch', hrr.trans hrr'⟩

theorem mem_insertBy {α : Type} (lt : α → α → Bool) (x : α) (l : List α) : x ∈ insertBy lt x l := by
  induction l with
  | nil => exact List.mem_cons_self ..
  | cons y r ih =>
    unfold insertBy
    split
    · exact List.mem_cons_self ..
    · exact List.mem_cons_of_mem y ih

/-- R326: an inserted entry of the die's level is among the ready ones. -/
theorem State.mem_insertReady {s : State} {r : Ready} (h : r.level = .die) : r ∈ (s.insertReady r).sched.ready := by
  unfold State.insertReady
  simp only [h]
  exact mem_insertBy ..

theorem State.launched_ready {s : State} {die : Nat} {p : BitVec 512} (hcount : pktCount p ≠ 0) (hgang : pktGang p = false)
    (hends : ∀ e ∈ (s.launched die p).sched.ending, e.jcb ≠ pktJcb p) :
    ∃ r ∈ (s.launched die p).sched.ready, r.die = die ∧ r.level = .die ∧ r.item = .packet p 0 ∧ r.deadline = pktDeadline p ∧ r.seq = fget 0 s.sched.seq die := by
  have hgo : ¬(pktCount p = 0 ∨ (s.sched.ending.any fun e => e.jcb == pktJcb p) = true) := by
    rintro (h | h)
    · exact hcount h
    · have hsame : s.launched die p = s := if_pos (.inr h)
      obtain ⟨e, he, hj⟩ := List.any_eq_true.1 h
      rw [hsame] at hends
      exact hends e he (beq_iff_eq.1 hj)
  unfold State.launched
  rw [if_neg hgo, hgang, if_neg Bool.false_ne_true]
  exact ⟨_, State.mem_insertReady rfl, rfl, rfl, rfl, rfl, rfl⟩

/-- A packet leaves the queue whose turn it was; what follows it stays (R311). -/
def State.popped (s : State) (die q : Nat) (r : List (BitVec 512)) : State :=
  s.onSched fun c => { c with launch := fput [] (die * 16 + q) r c.launch, rr := fput 0 die ((q + 1) % 16) c.rr }

theorem exec_packetExpansion_pops {s : State} {die q : Nat} {p : BitVec 512} {r : List (BitVec 512)} (hfree : s.dieLevelFree die = true) (hq : s.nextQueue die = some q)
    (hl : s.launchQ die q = p :: r) : exec (.packetExpansion die) s = .next ((s.popped die q r).expand die p) := by
  simp only [exec_packetExpansion, execPacketExpansion, hfree, hq, hl, Bool.not_true, Bool.false_eq_true, if_false]
  unfold State.popped
  with_reducible rfl

/-- Settles O36: the packet leaves its queue and is expanded: nowhere, with its failure, or counted and launched. -/
theorem packetExpansions : Obligations.PacketExpansions := by
  unfold Obligations.PacketExpansions
  intro s die q p r hfree hq hl
  have halike : s.ReadsAlike (s.popped die q r) := .onSched ..
  obtain ⟨hlaunch, hrr⟩ := (s.popped die q r).expand_queues die p
  refine ⟨_, exec_packetExpansion_pops hfree hq hl, ?_, ?_, fun hbad hwin hhome => ?_, fun hno => ?_⟩
  · rw [State.launchQ, hlaunch]
    exact fget_fput ..
  · rw [hrr]
    exact fget_fput ..
  · have hat : (s.popped die q r).jcbAt die (pktJcb p) = true := by
      rw [State.jcbAt, halike.paBad, hbad, hwin, hhome, bne_self_eq_false]
      rfl
    refine ⟨fun c hc => ?_, fun m hm hbegun => ?_, fun m hm hcount hgang hends => ?_⟩
    · rw [State.expand_fails hat ((halike.launchCheck die p).trans hc), (State.LaunchKept.judgeJob ..).mem]
      exact ((halike.lowerPending _).setStatus _ c).mem
    · rw [State.expand_launches hat ((halike.launchCheck die p).trans hm), (State.launched_kept ..).1, State.counted_mem (by rwa [halike.rd])]
      exact (halike.raiseExpect _ _).mem
    · rw [State.expand_launches hat ((halike.launchCheck die p).trans hm)] at hends ⊢
      obtain ⟨x, hx, hdie, hlevel, hitem, hdeadline, hseq⟩ := State.launched_ready hcount hgang hends
      exact ⟨x, hx, hdie, hlevel, hitem, hdeadline, hseq.trans (by rw [(State.counted_kept ..).2.2]; rfl)⟩
  · have hnot : (s.popped die q r).jcbAt die (pktJcb p) = false := by
      rw [State.jcbAt, halike.paBad, Bool.or_eq_true_iff.2 hno]
      rfl
    rw [State.expand_nowhere hnot]
    exact ⟨rfl, rfl⟩

end Sys2Proof.Machine
end

section
/-! Trap records and the action that a handler leaves (R345 to R350). -/

namespace Sys2Proof.Machine

/-! The same write by virtual address of two states that read alike. -/

namespace State.ReadsAlike
variable {s t : State}

theorem wrVirt (h : s.ReadsAlike t) (die asid va : Nat) (bs : List (BitVec 8)) :
    (s.wrVirt die asid va bs).1.ReadsAlike (t.wrVirt die asid va bs).1 ∧ (t.wrVirt die asid va bs).2 = (s.wrVirt die asid va bs).2 := by
  suffices hgo : ∀ (n : Nat) {s t : State} (_ : s.ReadsAlike t) (va : Nat) (bs : List (BitVec 8)),
      (State.wrVirt.go die asid n s va bs).1.ReadsAlike (State.wrVirt.go die asid n t va bs).1 ∧ (State.wrVirt.go die asid n t va bs).2 = (State.wrVirt.go die asid n s va bs).2 from
    hgo _ h va bs
  intro n
  induction n with
  | zero => exact fun h _ _ => ⟨h, rfl⟩
  | succ n ih =>
    intro s t h va bs
    simp only [State.wrVirt.go, h.writable]
    split
    · exact ⟨h, rfl⟩
    · split
      · exact ⟨h, rfl⟩
      · exact ih (h.wrBytes ..) _ _

theorem freeRecord (h : s.ReadsAlike t) (die asid area n j : Nat) : t.freeRecord die asid area n j = s.freeRecord die asid area n j := by
  induction n generalizing j with
  | zero => rfl
  | succ n ih => simp only [State.freeRecord, h.rdV, ih]

theorem countLost (h : s.ReadsAlike t) (die asid area cause : Nat) : (s.countLost die asid area cause).ReadsAlike (t.countLost die asid area cause) := by
  simp only [State.countLost, h.rdV]
  split
  · exact h
  · exact (h.wrVirt ..).1

theorem handler (h : s.ReadsAlike t) (tj : TrapJob) (rec : Nat) : t.handler tj rec = s.handler tj rec := by
  simp only [State.handler, jcbHkdesc, h.rd, h.jcbAsid, h.kdesc]
  rfl

end State.ReadsAlike

theorem State.countLost_memOnly (s : State) (die asid area cause : Nat) : s.MemOnly (s.countLost die asid area cause) := by
  unfold State.countLost
  split
  · exact .refl
  · exact .wrVirt ..

/-! A continuation that leaves with its reports, and one that is created. -/


theorem State.cont_setCont_ne (s : State) {k j : Nat} (h : j ≠ k) (c : Option Cont) : (s.setCont k c).cont j = s.cont j := fget_fput_ne _ _ _ _ _ h

section Leaves
variable {s : State} {k : Nat} {c : Cont} (hc : s.cont k = some c)
include hc

/-- R345: the reports not yet delivered go on as deferred ones. -/
theorem State.deferReports_leaves : (s.deferReports k).cont k = some { c with reports := [] } ∧ (s.deferReports k).mem = s.mem ∧ (s.deferReports k).sched.ending = s.sched.ending ∧
    (s.deferReports k).sched.traps.map TrapJob.trap = s.sched.traps.map TrapJob.trap ++ c.reports.filter Trap.report := by
  let late := (c.reports.filter Trap.report).map fun t => ({ die := keyDie k, key := some k, jcb := c.jcb, deadline := c.deadline, trap := t, deferred := true, sslot := none } : TrapJob)
  have hlate : late.map TrapJob.trap = c.reports.filter Trap.report := by rw [List.map_map]; exact List.map_id _
  have hout : s.deferReports k = (s.onSched fun x => { x with traps := x.traps ++ late }).setCont k (some { c with reports := [] }) := by
    have hcont : (s.onSched fun x => { x with traps := x.traps ++ late }).cont k = some c := hc
    simp only [State.deferReports, hc, State.onCont]
    rw [hcont]
  rw [hout]
  exact ⟨State.cont_setCont .., rfl, rfl, by rw [← hlate]; exact List.map_append⟩

/-- R323: a FAULTED continuation of no record and no handler is gone, and its reports are on their way. -/
theorem State.faultCont_leaves (hr : c.record = none) (hh : c.handlerOf = none) : (s.faultCont k).cont k = none ∧ (s.faultCont k).mem = s.mem ∧
    (s.faultCont k).sched.traps.map TrapJob.trap = s.sched.traps.map TrapJob.trap ++ c.reports.filter Trap.report := by
  obtain ⟨hcont, hmem, _, htraps⟩ := State.deferReports_leaves hc
  have hout : s.faultCont k = (s.deferReports k).release k := by
    simp only [State.faultCont, State.faultOne, hc, hr, hh]
  have hsheds := (s.deferReports k).sheds_release k
  rw [hout]
  exact ⟨State.cont_release .., hsheds.mem.trans hmem, by rw [hsheds.traps, htraps]⟩

end Leaves

/-- The die has given a job its tag, a handle and an enqueue number. -/
def State.numbered (s : State) (die jcb : Nat) : State :=
  (((s.giveJtag die jcb).onSched fun x => { x with nextHandle := fmod 0 die (· + 1) x.nextHandle }).nextSeq die).1

theorem State.numbered_leaves (s : State) (die jcb : Nat) : (s.numbered die jcb).mem = s.mem ∧ (s.numbered die jcb).sched.traps = s.sched.traps ∧
    (s.numbered die jcb).sched.conts = s.sched.conts := by
  obtain ⟨l, hl⟩ := s.giveJtag_eq die jcb
  rw [State.numbered, hl]
  exact ⟨rfl, rfl, rfl⟩

theorem State.giveJtag_nextHandle (s : State) (die jcb : Nat) : (s.giveJtag die jcb).sched.nextHandle = s.sched.nextHandle := by
  obtain ⟨l, hl⟩ := s.giveJtag_eq die jcb
  rw [hl]
  rfl

/-- R318: a continuation of no gang is created under the die's next handle. -/
theorem State.create_enqueues {c : Cont} (s : State) (die : Nat) (hg : c.gang = none) :
    ∃ tag q, (s.create die c).1 = ((s.numbered die c.jcb).setCont (contKey die (fget 0 s.sched.nextHandle die)) (some { c with jtag := tag, seq := q })).enqueue
      (contKey die (fget 0 s.sched.nextHandle die)) := by
  have hno : ¬(c.gang.isSome = true) := by rw [hg]; exact Bool.false_ne_true
  rw [← s.giveJtag_nextHandle die c.jcb]
  unfold State.create
  exact ⟨_, _, if_neg hno⟩

theorem State.create_leaves {c : Cont} (s : State) (die : Nat) (hg : c.gang = none) :
    (∃ tag q, (s.create die c).1.cont (contKey die (fget 0 s.sched.nextHandle die)) = some { c with jtag := tag, seq := q }) ∧
      (∀ k, k ≠ contKey die (fget 0 s.sched.nextHandle die) → (s.create die c).1.cont k = s.cont k) ∧
      (s.create die c).1.mem = s.mem ∧ (s.create die c).1.sched.traps = s.sched.traps := by
  obtain ⟨tag, q, hout⟩ := s.create_enqueues die hg
  obtain ⟨hmem, htraps, hconts⟩ := s.numbered_leaves die c.jcb
  obtain ⟨r, hr⟩ := State.enqueue_of_cont ((s.numbered die c.jcb).cont_setCont (contKey die (fget 0 s.sched.nextHandle die)) (some { c with jtag := tag, seq := q }))
  rw [hout, hr]
  refine ⟨⟨tag, q, State.cont_setCont ..⟩, fun k hk => ?_, hmem, htraps⟩
  rw [State.cont_insertReady, State.cont_setCont_ne _ hk, State.cont, State.cont, hconts]

theorem State.ReadsAlike.release (s : State) (k : Nat) : s.ReadsAlike (s.release k) := by
  cases hc : s.cont k with
  | none => rw [State.release_none hc]; exact .refl
  | some c =>
    simp only [State.release, hc]
    refine .trans ?_ (.trans (.onSched ..) (.setCont ..))
    split
    · exact .refl
    · split
      · exact .refl
      · exact .onCoreAt ..

theorem State.ReadsAlike.deferReports (s : State) (k : Nat) : s.ReadsAlike (s.deferReports k) := by
  unfold State.deferReports
  split
  · exact .refl
  · exact .trans (.onSched ..) (.onCont ..)

/-! The actions (R349). -/

section Actions
variable {s : State} {h : Nat} {c : Cont}

/-- RESUME: SAVED under a new SEQ, with a budget and a deadline where they are not zero. -/
def Cont.resumed (c : Cont) (seq nb nd : Nat) : Cont :=
  { c with state := stSaved, seq := seq, action := none, budget := if nb = 0 then c.budget else BitVec.ofNat 32 nb, deadline := if nd = 0 then c.deadline else BitVec.ofNat 64 nd }

theorem exec_resume_saves (hc : s.cont h = some c) {nb nd : Nat} (ha : c.action = some (0, nb, nd)) :
    ∃ t, exec (.resume h) s = .next t ∧ t.mem = s.mem ∧ t.cont h = some (c.resumed (fget 0 s.sched.seq (keyDie h)) nb nd) := by
  let d := c.resumed (fget 0 s.sched.seq (keyDie h)) nb nd
  let u := (s.nextSeq (keyDie h)).1.setCont h (some d)
  have hd : u.cont h = some d := State.cont_setCont ..
  have hexec : exec (.resume h) s = .next (if d.gang.isSome then u else u.enqueue h) := by
    have hnumbered : (s.nextSeq (keyDie h)).1.cont h = some c := hc
    simp only [exec_resume, execResume, State.actionOf, hc, Option.bind_some, ha, State.resumeCont, State.onCont, hnumbered]
    rw [State.cont_setCont]
    rfl
  obtain ⟨r, hr⟩ := State.enqueue_of_cont hd
  rw [hr] at hexec
  refine ⟨_, hexec, ?_, ?_⟩
  · split <;> rfl
  · split
    · exact hd
    · exact hd

theorem exec_fault_leaves (hc : s.cont h = some c) {a nb nd : Nat} (ha : c.action = some (a, nb, nd)) (hno : ¬(a = 0 ∨ a = 2 ∨ a = 3)) (hr : c.record = none)
    (hh : c.handlerOf = none) : ∃ t, exec (.fault h) s = .next t ∧ t.cont h = none ∧ t.mem = s.mem := by
  obtain ⟨hcont, hmem, _, _⟩ := State.deferReports_leaves hc
  obtain ⟨hgone, hmem', _⟩ := State.faultCont_leaves hcont hr hh
  refine ⟨(s.deferReports h).faultCont h, ?_, hgone, hmem'.trans hmem⟩
  simp only [exec_fault, execFault, State.actionOf, hc, Option.bind_some, ha, if_neg hno, State.secondRecord, hr]

/-- A trapped continuation of no record is released, whatever its reports; with post it is counted where nothing forbids it (R252). -/
theorem State.endCont_released (hc : s.cont h = some c) (hr : c.record = none) : s.endCont h false = s.release h := by
  simp only [State.endCont, hc, hr, Bool.false_and, Bool.false_eq_true, if_false]

theorem State.endCont_posted (hc : s.cont h = some c) (hr : c.record = none) (hf : s.flawed c.jcb 16 = false) :
    s.endCont h true = if c.posted then s.release h else (s.release h).post c.jcb := by
  have hsound : (s.release h).jcbFlaw (keyDie h) c.jcb = none := by
    rw [State.jcbFlaw, (State.ReadsAlike.release s h).flawed, hf, if_neg Bool.false_ne_true]
  simp only [State.endCont, hc, hr, hsound, Bool.true_and]
  cases c.posted with
  | true => rfl
  | false => rfl

theorem State.post_cont (s : State) (jcb k : Nat) : (s.post jcb).cont k = s.cont k := by
  unfold State.post State.judgeJob
  split
  · rfl
  · split <;> rfl

theorem State.post_mem (s : State) (jcb : Nat) : (s.post jcb).mem =
    if jcbComplete s jcb = false ∧ (s.sched.ending.any fun e => e.jcb == jcb) = false then (s.wr (jcb + 4) 4 ((jcbDone s jcb + 1) % 2 ^ 32)).mem else s.mem := by
  unfold State.post
  rw [apply_ite State.mem, (State.LaunchKept.judgeJob ..).mem]
  simp only [← Bool.or_eq_false_iff]
  cases jcbComplete s jcb || s.sched.ending.any fun e => e.jcb == jcb with
  | true => rfl
  | false => rfl

theorem exec_endTrapped_leaves (hc : s.cont h = some c) {nb nd : Nat} (ha : c.action = some (2, nb, nd)) (hr : c.record = none) :
    ∃ t, exec (.endTrapped h) s = .next t ∧ t.cont h = none ∧ t.mem = s.mem := by
  obtain ⟨hcont, hmem, _, _⟩ := State.deferReports_leaves hc
  refine ⟨(s.deferReports h).release h, ?_, State.cont_release .., ((s.deferReports h).sheds_release h).mem.trans hmem⟩
  rw [← State.endCont_released hcont hr]
  simp only [exec_endTrapped, execEndTrapped, State.actionOf, hc, Option.bind_some, ha]

theorem exec_endPost_leaves (hc : s.cont h = some c) {nb nd : Nat} (ha : c.action = some (3, nb, nd)) (hr : c.record = none) (hf : s.flawed c.jcb 16 = false) :
    ∃ t, exec (.endPost h) s = .next t ∧ t.cont h = none ∧
      t.mem = (if c.posted = false ∧ jcbComplete s c.jcb = false ∧ (s.sched.ending.any fun e => e.jcb == c.jcb) = false
        then (s.wr (c.jcb + 4) 4 ((jcbDone s c.jcb + 1) % 2 ^ 32)).mem else s.mem) := by
  obtain ⟨hcont, hmem, hending, _⟩ := State.deferReports_leaves hc
  have hdefer := State.ReadsAlike.deferReports s h
  have hreads := hdefer.trans (State.ReadsAlike.release (s.deferReports h) h)
  have hending' : ((s.deferReports h).release h).sched.ending = s.sched.ending := (congrArg Sched.ending (State.release_some hcont).2).trans hending
  have hexec : exec (.endPost h) s = .next (if c.posted then (s.deferReports h).release h else ((s.deferReports h).release h).post c.jcb) := by
    rw [← State.endCont_posted hcont hr ((hdefer.flawed ..).trans hf)]
    simp only [exec_endPost, execEndPost, State.actionOf, hc, Option.bind_some, ha]
  refine ⟨_, hexec, ?_, ?_⟩
  · split
    · exact State.cont_release ..
    · rw [State.post_cont, State.cont_release]
  · cases c.posted with
    | true => exact hreads.mem
    | false =>
      have hcomplete : jcbComplete ((s.deferReports h).release h) c.jcb = jcbComplete s c.jcb := by rw [jcbComplete, jcbComplete, jcbFlags, jcbFlags, hreads.rd]
      have hdone : jcbDone ((s.deferReports h).release h) c.jcb = jcbDone s c.jcb := hreads.rd ..
      rw [if_neg Bool.false_ne_true, State.post_mem, hcomplete, hending', hdone, (hreads.wr ..).mem, hreads.mem]
      simp only [true_and]

end Actions

/-! A trap of a plain continuation on its way: neither a record's stage nor a handler (R346 to R350). -/

/-- The record that a job's trap claims. -/
def State.claimed? (s : State) (tj : TrapJob) : Option Nat :=
  s.freeRecord tj.die (jcbAsid s tj.jcb) (jcbTrapbase s tj.jcb % 2 ^ 56 / 64 * 64) (jcbTrapbase s tj.jcb / 2 ^ 56) 0

/-- A job's trap without a record is counted. -/
def State.lost (s : State) (tj : TrapJob) : State := s.countLost tj.die (jcbAsid s tj.jcb) (jcbTrapbase s tj.jcb % 2 ^ 56 / 64 * 64) tj.trap.cause

/-- A trap that faults its continuation: a terminating one, or one that no handler answers. -/
def State.trapFaults (s : State) (tj : TrapJob) : Bool := !tj.trap.resumable || (s.handler tj 0).isNone

/-- The claim of a plain continuation's trap, its record's slot settled: the record is written and the handler created, or the continuation is FAULTED. -/
def State.claimPlain (s : State) (tj : TrapJob) (k : Nat) : State :=
  match s.claimed? tj with
  | none => (s.lost tj).faultCont k
  | some rec =>
    let w := s.wrVirt tj.die (jcbAsid s tj.jcb) rec (natLe 64 (trapRecord tj false))
    if w.2.isSome then (s.lost tj).faultCont k
    else
      match w.1.handler tj rec with
      | some d => if tj.trap.resumable then (w.1.create tj.die d).1 else (w.1.create tj.die d).1.faultCont k
      | none => w.1.faultCont k

theorem State.claimRecord_plain {s : State} {tj : TrapJob} {k : Nat} {c : Cont} (hk : tj.key = some k) (hd : tj.deferred = false) (hc : s.cont k = some c)
    (hr : c.record = none) (hh : c.handlerOf = none) (hf : s.flawed (tj.jcb + 0x28) 16 = false) :
    s.claimRecord tj = s.claimPlain (if s.trapFaults tj then { tj with sslot := none } else tj) k := by
  unfold State.claimRecord
  extract_lets asid tb area self nested faults x y counted lost
  have hself : self = some c := by simp only [self, hd, hk, Bool.false_eq_true, if_false, Option.bind_some, hc]
  have hnested : nested = false := by simp only [nested, hself, hh, Option.isSome_none]
  have hfaults : faults = s.trapFaults tj := by simp only [faults, hnested, Bool.or_false, State.trapFaults]
  have hx : x = tj := by simp only [x, hself, hr]
  have hy : y = if s.trapFaults tj then { tj with sslot := none } else tj := by simp only [y, hx, hfaults]
  have hsame : y.die = tj.die ∧ y.jcb = tj.jcb ∧ y.key = some k := by
    rw [hy]
    split
    · exact ⟨rfl, rfl, hk⟩
    · exact ⟨rfl, rfl, hk⟩
  obtain ⟨hdie, hjcb, hkey⟩ := hsame
  have hasid : jcbAsid s y.jcb = asid := by rw [hjcb]
  have hrecord : s.claimed? y = s.freeRecord y.die asid area (tb / 2 ^ 56) 0 := by simp only [State.claimed?, hdie, hjcb, asid, tb, area]
  have hlost : lost = s.lost y := by simp only [lost, State.lost, hdie, hjcb, asid, tb, area]
  have hcounted : counted = s.lost y := by rw [← hlost]; simp only [counted, lost, hjcb, hf, Bool.false_eq_true, if_false]
  rw [← hy, State.claimPlain, hasid, hcounted, hlost, hself, hnested, hkey, hjcb, hf, if_neg Bool.false_ne_true, ← hrecord]
  clear_value y counted lost
  clear hy hrecord hcounted hlost
  cases s.claimed? y with
  | none => rfl
  | some rec =>
    dsimp only
    refine ite_congr rfl (fun _ => rfl) fun _ => ?_
    cases (s.wrVirt y.die asid rec (natLe 64 (trapRecord y false))).1.handler y rec with
    | none => simp
    | some d => cases y.trap.resumable with
      | true => simp
      | false => simp

/-- A handler is a continuation of no gang, at work on its record for its target (R348). -/
theorem State.handler_fields {s : State} {tj : TrapJob} {rec : Nat} {d : Cont} (h : s.handler tj rec = some d) : d.gang = none ∧ d.traprec = BitVec.ofNat 64 rec ∧
    d.arg0 = BitVec.ofNat 64 rec ∧ d.arg1 = BitVec.ofNat 64 tj.trap.cause ∧ d.deadline = tj.deadline ∧
    d.handlerOf = some (rec, if tj.deferred then none else tj.key, tj.trap.resumable) := by
  unfold State.handler at h
  dsimp only at h
  split at h
  · cases h
  · split at h
    · cases h
    · split at h
      · cases h
      · obtain rfl := Option.some.inj h
        exact ⟨rfl, rfl, rfl, rfl, rfl, rfl⟩

/-- The traps on their way have been taken up. -/
def State.taken (s : State) : State := s.onSched fun x => { x with traps := [] }

theorem State.taken_alike (s : State) : s.ReadsAlike s.taken := .onSched ..

namespace State.ReadsAlike
variable {s t : State} (h : s.ReadsAlike t)
include h

theorem claimed? (tj : TrapJob) : t.claimed? tj = s.claimed? tj := by
  simp only [State.claimed?, jcbTrapbase, h.jcbAsid, h.rd, h.freeRecord]
theorem trapFaults (tj : TrapJob) : t.trapFaults tj = s.trapFaults tj := by rw [State.trapFaults, State.trapFaults, h.handler]
theorem lost (tj : TrapJob) : (s.lost tj).ReadsAlike (t.lost tj) := by
  simp only [State.lost, jcbTrapbase, h.jcbAsid, h.rd]
  exact h.countLost ..

end State.ReadsAlike

/-- Where a trap claims, and where it is counted, does not depend on the slot that its record names. -/
theorem State.claimed?_slotless (s : State) (tj : TrapJob) (b : Bool) : s.claimed? (if b then { tj with sslot := none } else tj) = s.claimed? tj := by
  cases b with
  | true => rfl
  | false => rfl
theorem State.lost_slotless (s : State) (tj : TrapJob) (b : Bool) : s.lost (if b then { tj with sslot := none } else tj) = s.lost tj := by
  cases b with
  | true => rfl
  | false => rfl

theorem State.claimPlain_lost {s : State} {tj : TrapJob} (h : s.claimed? tj = none) (k : Nat) : s.claimPlain tj k = (s.lost tj).faultCont k := by
  rw [State.claimPlain, h]

theorem State.claimPlain_written {s u : State} {tj : TrapJob} {rec : Nat} (h : s.claimed? tj = some rec)
    (hw : s.wrVirt tj.die (jcbAsid s tj.jcb) rec (natLe 64 (trapRecord tj false)) = (u, none)) (k : Nat) :
    s.claimPlain tj k = match u.handler tj rec with
      | some d => if tj.trap.resumable then (u.create tj.die d).1 else (u.create tj.die d).1.faultCont k
      | none => u.faultCont k := by
  rw [State.claimPlain, h]
  simp only [hw, Option.isSome_none, Bool.false_eq_true, if_false]

/-- The record is written in the state whose traps have been taken up as it is in the state before. -/
theorem State.taken_wrVirt {s u : State} {die asid va : Nat} {bs : List (BitVec 8)} (hw : s.wrVirt die asid va bs = (u, none)) :
    ∃ w, s.taken.wrVirt die asid va bs = (w, none) ∧ u.ReadsAlike w ∧ s.taken.MemOnly w := by
  obtain ⟨halike, hnone⟩ := s.taken_alike.wrVirt die asid va bs
  rw [hw] at halike hnone
  exact ⟨_, Prod.ext rfl hnone, halike, .wrVirt ..⟩

section Claims
variable {s u : State} {tj : TrapJob} {k rec : Nat} {c d : Cont} (ht : s.sched.traps = [tj]) (hk : tj.key = some k) (hd : tj.deferred = false) (hc : s.cont k = some c)
  (hr : c.record = none) (hh : c.handlerOf = none) (hf : s.flawed (tj.jcb + 0x28) 16 = false)
include ht hk hd hc hr hh hf

theorem exec_trapRecordClaim_plain : exec .trapRecordClaim s = .next (s.taken.claimPlain (if s.trapFaults tj then { tj with sslot := none } else tj) k) := by
  have hclaim := State.claimRecord_plain (s := s.taken) hk hd hc hr hh ((s.taken_alike.flawed ..).trans hf)
  rw [s.taken_alike.trapFaults] at hclaim
  have hall : s.sched.traps.foldl State.claimRecord s.taken = s.taken.claimRecord tj := by rw [ht, List.foldl_cons, List.foldl_nil]
  rw [← hclaim, ← hall]
  rfl

/-- R323, R350: the one that the claim leaves to be FAULTED goes with its reports. -/
theorem exec_trapRecordClaim_faults {v : State} (hv : s.taken.claimPlain (if s.trapFaults tj then { tj with sslot := none } else tj) k = v.faultCont k)
    (hcont : v.cont k = some c) (htraps : v.sched.traps = []) :
    ∃ t, exec .trapRecordClaim s = .next t ∧ t.cont k = none ∧ t.sched.traps.map TrapJob.trap = c.reports.filter Trap.report ∧ t.mem = v.mem := by
  obtain ⟨hgone, hmem, hreports⟩ := State.faultCont_leaves hcont hr hh
  refine ⟨v.faultCont k, ?_, hgone, ?_, hmem⟩
  · rw [exec_trapRecordClaim_plain ht hk hd hc hr hh hf, hv]
  · rw [hreports, htraps]
    rfl

theorem trapRecordClaim_lost (hno : s.claimed? tj = none) :
    ∃ t, exec .trapRecordClaim s = .next t ∧ t.cont k = none ∧ t.sched.traps.map TrapJob.trap = c.reports.filter Trap.report ∧ t.mem = (s.lost tj).mem := by
  have hcounted : s.taken.MemOnly (s.taken.lost tj) := s.taken.countLost_memOnly ..
  have hclaim : s.taken.claimPlain (if s.trapFaults tj then { tj with sslot := none } else tj) k = (s.taken.lost tj).faultCont k := by
    rw [State.claimPlain_lost (by rw [State.claimed?_slotless, s.taken_alike.claimed?, hno]), State.lost_slotless]
  rw [← (s.taken_alike.lost tj).mem]
  exact exec_trapRecordClaim_faults ht hk hd hc hr hh hf hclaim ((hcounted.cont k).trans hc) (congrArg Sched.traps hcounted.sched)

variable (hrec : s.claimed? tj = some rec)
include hrec

/-- The record shows no slot. A terminating trap's handler, where the job has one, has been created (R348). -/
theorem trapRecordClaim_faults (hw : s.wrVirt tj.die (jcbAsid s tj.jcb) rec (natLe 64 (trapRecord { tj with sslot := none } false)) = (u, none))
    (hfaults : s.trapFaults tj = true) (hno : tj.trap.resumable = false ∨ u.handler tj rec = none) (hkey : contKey tj.die (fget 0 s.sched.nextHandle tj.die) ≠ k) :
    ∃ t, exec .trapRecordClaim s = .next t ∧ t.cont k = none ∧ t.sched.traps.map TrapJob.trap = c.reports.filter Trap.report ∧ t.mem = u.mem := by
  obtain ⟨w, hwrite, halike, honly⟩ := State.taken_wrVirt hw
  have hclaim := State.claimPlain_written (s := s.taken) (tj := { tj with sslot := none }) ((s.taken_alike.claimed? tj).trans hrec)
    ((congrArg (s.taken.wrVirt tj.die · rec _) (s.taken_alike.jcbAsid tj.jcb)).trans hwrite) k
  have hcont : w.cont k = some c := (honly.cont k).trans hc
  have htraps : w.sched.traps = [] := congrArg Sched.traps honly.sched
  have hsame : w.handler { tj with sslot := none } rec = u.handler tj rec := halike.handler tj rec
  rw [hsame] at hclaim
  rw [← halike.mem]
  cases hu : u.handler tj rec with
  | none =>
    rw [hu] at hclaim
    exact exec_trapRecordClaim_faults ht hk hd hc hr hh hf (by rw [hfaults, if_pos rfl, hclaim]) hcont htraps
  | some d =>
    have hterm : tj.trap.resumable = false := hno.resolve_right (by rw [hu]; exact Option.some_ne_none d)
    obtain ⟨_, hothers, hmem, htraps'⟩ := w.create_leaves tj.die (State.handler_fields hu).1
    have hnext : w.sched.nextHandle = s.sched.nextHandle := (congrArg Sched.nextHandle honly.sched :)
    rw [hnext] at hothers
    rw [hu] at hclaim
    rw [← hmem]
    exact exec_trapRecordClaim_faults ht hk hd hc hr hh hf (by rw [hfaults, if_pos rfl, hclaim]; exact if_neg (Bool.eq_false_iff.1 hterm)) ((hothers k hkey.symm).trans hcont)
      (htraps'.trans htraps)

theorem trapRecordClaim_handled (hw : s.wrVirt tj.die (jcbAsid s tj.jcb) rec (natLe 64 (trapRecord tj false)) = (u, none))
    (hresumable : tj.trap.resumable = true) (hfaults : s.trapFaults tj = false) (hhandler : u.handler tj rec = some d)
    (hkey : contKey tj.die (fget 0 s.sched.nextHandle tj.die) ≠ k) :
    ∃ t tag q, exec .trapRecordClaim s = .next t ∧ t.mem = u.mem ∧ t.sched.traps = [] ∧ t.cont k = some c ∧
      t.cont (contKey tj.die (fget 0 s.sched.nextHandle tj.die)) = some { d with jtag := tag, seq := q } := by
  obtain ⟨w, hwrite, halike, honly⟩ := State.taken_wrVirt hw
  have hclaim := State.claimPlain_written (s := s.taken) ((s.taken_alike.claimed? tj).trans hrec)
    ((congrArg (s.taken.wrVirt tj.die · rec _) (s.taken_alike.jcbAsid tj.jcb)).trans hwrite) k
  rw [halike.handler, hhandler, hresumable] at hclaim
  obtain ⟨⟨tag, q, hnew⟩, hothers, hmem, htraps⟩ := w.create_leaves tj.die (State.handler_fields hhandler).1
  have hnext : w.sched.nextHandle = s.sched.nextHandle := (congrArg Sched.nextHandle honly.sched :)
  rw [hnext] at hothers hnew
  refine ⟨(w.create tj.die d).1, tag, q, ?_, hmem.trans halike.mem, htraps.trans (congrArg Sched.traps honly.sched), (hothers k hkey.symm).trans ((honly.cont k).trans hc), hnew⟩
  rw [exec_trapRecordClaim_plain ht hk hd hc hr hh hf, hfaults, if_neg Bool.false_ne_true, hclaim]
  rfl

end Claims

/-- Settles O35: each action is its own way out of the suspension, and a trap's claim by whether a record is free and the trap faults its continuation. -/
theorem trapRecordsAndActions : Obligations.TrapRecordsAndActions := by
  unfold Obligations.TrapRecordsAndActions
  refine ⟨fun s h c a nb nd hc ha hr hh => ⟨fun h0 => ?_, fun h0 h2 h3 => ?_, fun h2 => ?_, fun h3 hf => ?_⟩,
    fun s tj k c ht hk hd hc hr hh hf hkey => ⟨fun hno => ?_, fun rec u hrec => ⟨fun hw => ⟨fun hterm => ?_, fun hnone hno => ?_⟩, fun d hw hresumable hhandler hd' => ?_⟩⟩⟩
  · subst h0
    obtain ⟨t, hexec, hmem, hcont⟩ := exec_resume_saves hc ha
    exact ⟨t, _, hexec, hcont, rfl, rfl, rfl, rfl, rfl, rfl, rfl, hmem⟩
  · exact exec_fault_leaves hc ha (by simp [h0, h2, h3]) hr hh
  · subst h2
    exact exec_endTrapped_leaves hc ha hr
  · subst h3
    exact exec_endPost_leaves hc ha hr hf
  · exact trapRecordClaim_lost ht hk hd hc hr hh hf hno
  · exact trapRecordClaim_faults ht hk hd hc hr hh hf hrec hw (by rw [State.trapFaults, hterm]; rfl) (.inl hterm) hkey
  · exact trapRecordClaim_faults ht hk hd hc hr hh hf hrec hw (by rw [State.trapFaults, hnone]; exact Bool.or_true _) (.inr hno) hkey
  · have hfaults : s.trapFaults tj = false := by rw [State.trapFaults, hresumable, Option.isNone_eq_false_iff.2 hhandler]; rfl
    obtain ⟨t, tag, q, hexec, hmem, htraps, hcont, hnew⟩ := trapRecordClaim_handled ht hk hd hc hr hh hf hrec hw hresumable hfaults hd' hkey
    obtain ⟨_, htraprec, harg0, harg1, hdeadline, htarget⟩ := State.handler_fields hd'
    exact ⟨t, _, hexec, hmem, htraps, ⟨c, hcont, rfl, rfl⟩, hnew, htraprec, harg0, harg1, hdeadline, by simp only [htarget, hd, hk, hresumable, Bool.false_eq_true, if_false]⟩

end Sys2Proof.Machine
end

section
/-! Dispatch of ready continuations and the rounds of gangs (R325 to R331). -/

namespace Sys2Proof.Machine

theorem State.ReadsAlike.focus (s : State) (cid : Nat) : s.ReadsAlike (s.focus cid) := by
  unfold State.focus
  split
  · exact .refl
  · exact ⟨rfl, rfl, rfl, rfl, rfl⟩

theorem State.ReadsAlike.tilesTake (s : State) (cid : Nat) (k : Kdesc) (tag : BitVec 16) : s.ReadsAlike (s.tilesTake cid k tag) := .onCoreAt ..

theorem State.ReadsAlike.jcbLaybase {s t : State} (h : s.ReadsAlike t) (j : Nat) : jcbLaybase t j = jcbLaybase s j := by
  rw [Machine.jcbLaybase, Machine.jcbLaybase, h.rd]

theorem State.ReadsAlike.firstCtx {s t : State} (h : s.ReadsAlike t) (c : Cont) (k : Kdesc) : firstCtx t c k = firstCtx s c k := by
  rw [Machine.firstCtx, Machine.firstCtx, h.jcbAsid, h.jcbLaybase]

theorem State.die_focus (s : State) (cid : Nat) : (s.focus cid).die = dieOf cid := by
  unfold State.focus State.die
  split
  next e => rw [e]
  next => rfl

/-! A continuation of its first round takes its core. -/

/-- A core taken for a continuation: its entries leave the ready queue. -/
def State.entered (s : State) (key cid : Nat) : State :=
  (s.focus cid).onSched fun x => { x with ready := x.ready.filter fun r => r.item != .cont key }

/-- It gets a save slot, and its descriptor's tiles where it has none yet. -/
def State.fitted (s : State) (key cid : Nat) (c : Cont) (k : Kdesc) : State :=
  let binds := c.bound.isNone && (k.acnt != 0 || k.wcnt != 0)
  (if binds then s.tilesTake cid k c.jtag else s).onCont key fun x =>
    { x with slot := c.slot.orElse fun _ => s.freeSlot c.jcb, bound := if binds then some (coreOf cid) else x.bound }

theorem State.entered_reads (s : State) (key cid : Nat) : s.ReadsAlike (s.entered key cid) := (State.ReadsAlike.focus s cid).trans (.onSched ..)
theorem State.die_entered (s : State) (key cid : Nat) : (s.entered key cid).die = dieOf cid := s.die_focus cid
theorem State.cont_entered (s : State) (key cid h : Nat) : (s.entered key cid).cont h = s.cont h := by
  unfold State.entered State.focus
  split <;> rfl
theorem State.now_entered (s : State) (key cid : Nat) : (s.entered key cid).now = s.now := by
  unfold State.entered State.focus
  split <;> rfl
theorem State.lay_entered (s : State) (key cid : Nat) : (s.entered key cid).lay = s.lay := by
  unfold State.entered State.focus
  split <;> rfl
theorem State.ready_entered {s : State} {key cid : Nat} {x : Ready} (h : x ∈ (s.entered key cid).sched.ready) : x.item ≠ .cont key := by
  have hx : (x.item != .cont key) = true := (List.mem_filter.mp h).2
  simpa using hx

theorem State.onCont_ready (s : State) (key : Nat) (f : Cont → Cont) : (s.onCont key f).sched.ready = s.sched.ready := by
  unfold State.onCont
  split <;> rfl

section Fitted
variable (s : State) (key cid : Nat) (c : Cont) (k : Kdesc)

theorem State.fitted_reads : s.ReadsAlike (s.fitted key cid c k) := by
  refine .trans ?_ (.onCont ..)
  split
  · exact .tilesTake ..
  · exact .refl
theorem State.lay_fitted : (s.fitted key cid c k).lay = s.lay := by
  unfold State.fitted State.tilesTake State.onCoreAt
  rw [State.onCont_lay]
  split
  · split <;> rfl
  · rfl
theorem State.die_fitted : (s.fitted key cid c k).die = s.die := by
  unfold State.fitted State.tilesTake State.onCoreAt State.die
  rw [State.onCont_cid]
  split
  · split <;> rfl
  · rfl
theorem State.now_fitted : (s.fitted key cid c k).now = s.now := by
  unfold State.fitted State.tilesTake State.onCoreAt State.now
  rw [State.onCont_clk]
  split
  · split <;> rfl
  · rfl
theorem State.ready_fitted : (s.fitted key cid c k).sched.ready = s.sched.ready := by
  rw [State.fitted, State.onCont_ready, State.tilesTake]
  split
  · rw [State.onCoreAt_sched]
  · rfl
theorem State.cont_fitted (hc : s.cont key = some c) : ∃ d, (s.fitted key cid c k).cont key = some d := by
  have ht : (if (c.bound.isNone && (k.acnt != 0 || k.wcnt != 0)) = true then s.tilesTake cid k c.jtag else s).cont key = some c := by
    split
    · rw [State.tilesTake, State.cont, State.onCoreAt_sched]; exact hc
    · exact hc
  exact ⟨_, by rw [State.fitted, State.cont_onCont, ht]; rfl⟩
end Fitted

theorem State.startOn_first (s : State) (key cid delay : Nat) {c : Cont} {k : Kdesc} (hc : s.cont key = some c) (hst : c.state = stReady)
    (hk : s.kdesc (dieOf cid) (jcbAsid s c.jcb) c.kdesc.toNat = .ok k) (hl : (s.layCopy (dieOf cid) c.jcb).isSome = true) :
    s.startOn key cid delay = ((s.entered key cid).fitted key cid c k).seat key cid c (firstCtx s c k) 0 delay 0 := by
  have hr := (s.entered_reads key cid).trans ((s.entered key cid).fitted_reads key cid c k)
  have hne : c.state ≠ stSaved := by rw [hst]; decide
  obtain ⟨y, hy⟩ := Option.isSome_iff_exists.mp hl
  have hlay : ((s.entered key cid).fitted key cid c k).loadLayout ((s.entered key cid).fitted key cid c k).die c.jcb =
      ((s.entered key cid).fitted key cid c k, none) := by
    rw [State.loadLayout, State.layCopy, State.lay_fitted, State.lay_entered, State.die_fitted, State.die_entered, ← State.layCopy, hy]
  have hk' : (s.entered key cid).kdesc (s.entered key cid).die (jcbAsid (s.entered key cid) c.jcb) c.kdesc.toNat = .ok k := by
    rw [State.die_entered, (s.entered_reads key cid).jcbAsid, (s.entered_reads key cid).kdesc, hk]
  rw [← hr.firstCtx]
  unfold State.startOn
  dsimp only
  rw [← State.entered.eq_1 s key cid]
  rw [(s.cont_entered key cid key).trans hc]
  dsimp only
  rw [hk']
  dsimp only
  rw [← State.fitted, hlay]
  dsimp only
  rw [if_neg hne]

theorem State.clk_onCoreAt (s : State) (cid : Nat) (f : Core → Core) : (s.onCoreAt cid f).clk = s.clk := by
  unfold State.onCoreAt
  split <;> rfl

/-! The core in which a continuation is seated. -/

section Seat
variable (s : State) (key cid : Nat) (c : Cont) (ctx : Ctx) (rep delay load : Nat)

theorem State.coreAt_seat : ((s.seat key cid c ctx rep delay load).coreAt cid).res = some key ∧
    ((s.seat key cid c ctx rep delay load).coreAt cid).mode = .starting ∧ ((s.seat key cid c ctx rep delay load).coreAt cid).ctx = ctx ∧
    ((s.seat key cid c ctx rep delay load).coreAt cid).issueAt = s.now + delay + load := by
  unfold State.seat
  dsimp only
  rw [State.coreAt_onCoreAt]
  refine ⟨rfl, rfl, rfl, ?_⟩
  dsimp only
  split
  · rw [State.now, State.clk_onCoreAt, State.onCont_clk, ← State.now]
  · rw [State.now, State.onCont_clk, ← State.now]
theorem State.sched_seat : (s.seat key cid c ctx rep delay load).sched = (s.onCont key fun x => { x with state := stRunning, acquire := none, atEnd := [] }).sched := by
  unfold State.seat
  dsimp only
  rw [State.onCoreAt_sched]
  split
  · rw [State.onCoreAt_sched]
  · rfl
theorem State.ready_seat : (s.seat key cid c ctx rep delay load).sched.ready = s.sched.ready := by rw [State.sched_seat, State.onCont_ready]
theorem State.cont_seat {d : Cont} (hd : s.cont key = some d) : ∃ e, (s.seat key cid c ctx rep delay load).cont key = some e ∧ e.state = stRunning := by
  refine ⟨{ d with state := stRunning, acquire := none, atEnd := [] }, ?_, rfl⟩
  rw [State.cont, State.sched_seat, ← State.cont, State.cont_onCont, hd]
  rfl
theorem State.seat_reads : s.ReadsAlike (s.seat key cid c ctx rep delay load) := by
  unfold State.seat
  extract_lets u v
  have hu : s.ReadsAlike u := .onCont ..
  have hv : u.ReadsAlike v := by
    simp only [v]
    split
    · exact .onCoreAt ..
    · exact .refl
  exact (hu.trans hv).trans (.onCoreAt ..)
end Seat

theorem State.dispatchCore_takes (s : State) (cid h : Nat) {r : Ready} (hidle : s.idleCore cid = true) (hclaim : s.claimed cid = false)
    (hrun : s.running.contains (dieOf cid) = true) (hr : s.sched.ready.find? (fun x => s.itemOk x cid) = some r) (hi : r.item = .cont h) :
    s.dispatchCore cid = s.startOn h cid r.level.delay := by
  rw [State.dispatchCore, hidle, hclaim, hrun, if_neg (by decide), hr]
  dsimp only
  rw [State.take, hi]

/-- R328: what a core has that has taken a continuation of its first round. -/
theorem State.dispatchCore_first (s : State) (cid h : Nat) {r : Ready} {c : Cont} {k : Kdesc} (hidle : s.idleCore cid = true) (hclaim : s.claimed cid = false)
    (hrun : s.running.contains (dieOf cid) = true) (hr : s.sched.ready.find? (fun x => s.itemOk x cid) = some r) (hi : r.item = .cont h)
    (hc : s.cont h = some c) (hst : c.state = stReady) (hk : s.kdesc (dieOf cid) (jcbAsid s c.jcb) c.kdesc.toNat = .ok k)
    (hl : (s.layCopy (dieOf cid) c.jcb).isSome = true) :
    s.dispatchCore cid = ((s.entered h cid).fitted h cid c k).seat h cid c (firstCtx s c k) 0 r.level.delay 0 := by
  rw [s.dispatchCore_takes cid h hidle hclaim hrun hr hi, s.startOn_first h cid _ hc hst hk hl]

/-! The rounds of a gang (R330, R331). -/

/-- R330: a gang whose packet has no further unit claims the lowest cluster in which it fits. -/
theorem gangClaim_lowest (s : State) (g : Gang) (hg : s.gang g.id = some g) {cl : Nat} {rest : List Nat} (hp : g.state = .pending)
    (hroom : g.members.length ≤ s.freeSlots (pktJcb g.packet)) (hck : (s.sched.ckpts.any fun k => k.die == g.die && s.ckptJob k == some (pktJcb g.packet)) = false)
    (hfit : (List.range 8).filter (fun x => s.gangFits g x) = cl :: rest) (hleast : s.gangLeast g cl = true) (hlast : pktCount g.packet ≤ g.unit + 1) :
    exec (.gangClaim g.id) s = .next ((s.onGang g.id fun x => { x with state := .claiming, cores := (s.gangCores g cl).take g.members.length }).onSched fun c =>
      { c with ready := c.ready.filter fun r => r.item != .gang g.id }) := by
  have hgo : ¬(g.state ≠ .pending ∨ (!(decide (g.members.length ≤ s.freeSlots (pktJcb g.packet)) && !false)) = true ∨ (!((cl :: rest).any fun x => s.gangLeast g x)) = true) := by
    simp [hp, hroom, hleast]
  rw [exec_gangClaim, execGangClaim, hg]
  dsimp only
  rw [hck, hfit, if_neg hgo]
  dsimp only
  rw [if_neg (by omega)]

theorem gangAdmission_starts (s : State) (g : Gang) (hg : s.gang g.id = some g) (hc : g.state = .claiming) (hidle : s.gangIdle g = true)
    (hslots : s.needSlots g ≤ s.freeSlots (pktJcb g.packet)) :
    exec (.gangAdmission g.id) s = .next (g.pipes.foldl (fun u p => u.setPipe g p) ((s.onGang g.id fun x => { x with state := .admitted }).startMembers (g.members.zip g.cores))) := by
  have hgo : ¬(g.state ≠ .claiming ∨ (!s.gangIdle g) = true ∨ s.freeSlots (pktJcb g.packet) < s.needSlots g) := by
    simp [hc, hidle, hslots]
  rw [exec_gangAdmission, execGangAdmission, hg]
  dsimp only
  rw [if_neg hgo]

/-- The cores of a parked gang are idle and every member that has not ended is SAVED. -/
theorem gangResume_starts (s : State) (g : Gang) (hg : s.gang g.id = some g) (hp : g.state = .parked)
    (hck : (s.sched.ckpts.any fun k => k.die == g.die && s.ckptJob k == some (pktJcb g.packet)) = false)
    (hfree : ∀ c ∈ g.cores, s.idleCore c = true ∧ s.claimed c = false ∧ s.firstOn c (s.gangEntry g) = true)
    (hsaved : ∀ m ∈ g.members.zip g.cores, (s.cont m.1).isSome = true → m ∈ s.savedMembers g) :
    exec (.gangResume g.id) s = .next ((s.onGang g.id fun x => { x with state := .admitted }).startMembers (s.savedMembers g)) := by
  have hgo : (g.cores.all (fun c => s.idleCore c && !s.claimed c && s.firstOn c (s.gangEntry g)) &&
      ((g.members.zip g.cores).filter fun m => (s.cont m.1).isSome).all (s.savedMembers g).contains) = true := by
    rw [Bool.and_eq_true, List.all_eq_true, List.all_eq_true]
    refine ⟨fun c hc => ?_, fun m hm => ?_⟩
    · obtain ⟨hi, hcl, hf⟩ := hfree c hc
      rw [hi, hcl, hf]
      rfl
    · obtain ⟨hm, hs⟩ := List.mem_filter.mp hm
      exact List.contains_iff_mem.mpr (hsaved m hm hs)
  rw [exec_gangResume, execGangResume, hg]
  dsimp only
  rw [hck, if_neg (by decide), if_pos hp, if_pos hgo]

theorem gangResume_waits (s : State) (g : Gang) (hg : s.gang g.id = some g) (hp : g.state = .parked)
    (hw : (∃ c ∈ g.cores, s.idleCore c = false) ∨ (∃ m ∈ g.members.zip g.cores, (s.cont m.1).isSome = true ∧ m ∉ s.savedMembers g)) :
    exec (.gangResume g.id) s = .next s := by
  have hno : ¬(g.cores.all (fun c => s.idleCore c && !s.claimed c && s.firstOn c (s.gangEntry g)) &&
      ((g.members.zip g.cores).filter fun m => (s.cont m.1).isSome).all (s.savedMembers g).contains) = true := by
    rw [Bool.and_eq_true, List.all_eq_true, List.all_eq_true]
    rintro ⟨hi, hs⟩
    rcases hw with ⟨c, hc, hb⟩ | ⟨m, hm, hl, hn⟩
    · have := hi c hc
      rw [hb] at this
      exact absurd this (by simp)
    · exact hn (List.contains_iff_mem.mp (hs m (List.mem_filter.mpr ⟨hm, hl⟩)))
  rw [exec_gangResume, execGangResume, hg]
  dsimp only
  rw [if_pos hp, if_neg hno, ite_self]

/-- Settles O37: an entry eligible on an idle core is seated in it, and each round of a gang goes on where its condition holds. -/
theorem dispatchAndGangs : Obligations.DispatchAndGangs := by
  unfold Obligations.DispatchAndGangs
  refine ⟨fun s => by rw [exec_dispatch, execDispatch], fun s cid h r c k hidle hclaim hrun hr hi hc hst hk hl => ?_, fun s g hg => ⟨?_, ?_, ?_, ?_⟩⟩
  · intro t
    have ht : t = ((s.entered h cid).fitted h cid c k).seat h cid c (firstCtx s c k) 0 r.level.delay 0 :=
      s.dispatchCore_first cid h hidle hclaim hrun hr hi hc hst hk hl
    obtain ⟨hres, hmode, hctx, hat⟩ := ((s.entered h cid).fitted h cid c k).coreAt_seat h cid c (firstCtx s c k) 0 r.level.delay 0
    obtain ⟨d, hd⟩ := (s.entered h cid).cont_fitted h cid c k ((s.cont_entered h cid h).trans hc)
    have hmem := ((s.entered_reads h cid).trans ((s.entered h cid).fitted_reads h cid c k)).trans
      (((s.entered h cid).fitted h cid c k).seat_reads h cid c (firstCtx s c k) 0 r.level.delay 0)
    rw [ht]
    refine ⟨hres, hmode, ?_, hctx, fun x hx => ?_, State.cont_seat _ h cid c _ 0 _ 0 hd, hmem.mem⟩
    · rw [hat, State.now_fitted, State.now_entered, Nat.add_zero]
    · rw [State.ready_seat, State.ready_fitted] at hx
      exact State.ready_entered hx
  · exact fun cl rest => gangClaim_lowest s g hg
  · exact gangAdmission_starts s g hg
  · exact gangResume_starts s g hg
  · exact gangResume_waits s g hg

end Sys2Proof.Machine
end

section
/-! Requests: their arrival, and what their acknowledgement brings their owner (R378). -/

namespace Sys2Proof.Machine

/-- Nothing enters the fabric or leaves it: the requests keep their numbers, and the critical flits stay as they are. -/
structure State.Silent (s t : State) : Prop where
  reqs : t.fab.reqs.map Req.id = s.fab.reqs.map Req.id
  msgs : t.fab.msgs = s.fab.msgs

namespace State.Silent
variable {s t u : State}

theorem refl : s.Silent s := ⟨rfl, rfl⟩
theorem trans (h : s.Silent t) (k : t.Silent u) : s.Silent u := ⟨k.reqs.trans h.reqs, k.msgs.trans h.msgs⟩
theorem of_fab (h : t.fab = s.fab) : s.Silent t := ⟨by rw [h], by rw [h]⟩
theorem foldl {α : Type} {f : State → α → State} (hf : ∀ (u : State) (a : α), u.Silent (f u a)) (l : List α) (s : State) : s.Silent (l.foldl f s) := by
  induction l generalizing s with
  | nil => exact refl
  | cons a l ih => exact (hf s a).trans (ih _)

theorem onCoreAt (s : State) (cid : Nat) (f : Core → Core) : s.Silent (s.onCoreAt cid f) := by
  unfold State.onCoreAt
  split <;> exact of_fab rfl
theorem onCmd (s : State) (id : Nat) (f : Cmd → Cmd) : s.Silent (s.onCmd id f) := of_fab rfl
theorem report (s : State) (key jcb : Nat) (t : Trap) : s.Silent (s.report key jcb t) := of_fab (s.report_fab key jcb t)
/-- A request changes in place. -/
theorem onEveryReq (s : State) (f : Req → Req) (hf : ∀ r, (f r).id = r.id) : s.Silent (s.onFab fun x => { x with reqs := x.reqs.map f }) :=
  ⟨(List.map_map ..).trans (List.map_congr_left fun r _ => hf r), rfl⟩

/-! Commands that fail. -/

theorem freeReshard (s : State) (die jcb : Nat) (i : Instr) : s.Silent (s.freeReshard die jcb i) := by
  unfold State.freeReshard
  split
  · exact of_fab rfl
  · exact refl
theorem dropHandler (s : State) (c : Cmd) : s.Silent (s.dropHandler c) := by
  unfold State.dropHandler
  split
  · exact ⟨rfl, rfl⟩
  · exact refl
theorem failCmd (s : State) (id : Nat) (t : Trap) : s.Silent (s.failCmd id t) := by
  unfold State.failCmd
  split
  next => exact refl
  next c _ =>
    dsimp only
    split
    · exact ((freeReshard ..).trans (dropHandler ..)).trans (onCmd ..)
    · exact onCmd ..
theorem endColl (s : State) (id code count : Nat) : s.Silent (s.endColl id code count) := onCmd ..
theorem failColl (s : State) (c : Cmd) (t : Trap) : s.Silent (s.failColl c t) := (failCmd ..).trans (foldl (fun u _ => endColl u ..) _ _)
theorem cmdFails (s : State) (id : Nat) (t : Trap) : s.Silent (s.cmdFails id t) := by
  unfold State.cmdFails
  split
  next => exact refl
  next =>
    split
    · exact failColl ..
    · exact failCmd ..

/-! Loads, stores and walks. -/

theorem onOutst (s : State) (cid id : Nat) (f : Outst → Outst) : s.Silent (s.onOutst cid id f) := onCoreAt ..
theorem loadReturns (s : State) (cid id v n : Nat) : s.Silent (s.loadReturns cid id v n) := by
  unfold State.loadReturns
  split
  next => exact refl
  next =>
    split
    · exact onOutst ..
    · exact (onCoreAt ..).trans (onOutst ..)
theorem loadFails (s : State) (cid id : Nat) (t : Trap) : s.Silent (s.loadFails cid id t) := onOutst ..
theorem storeReport (s : State) (r : Req) (cid : Nat) (q : QEnt) (t : Trap) : s.Silent (s.storeReport r cid q t) := by
  unfold State.storeReport
  split
  · exact refl
  · extract_lets u v
    have hu : s.Silent u := onEveryReq s _ fun y => by
      split
      · split <;> rfl
      · rfl
    have hv : u.Silent v := by
      simp only [v]
      split
      · exact refl
      · exact onCoreAt ..
    exact (hu.trans hv).trans (report ..)
theorem walkGets (s : State) (die asid region : Nat) (v : Option Nat) : s.Silent (s.walkGets die asid region v) := of_fab rfl

/-- An owner that is told sends nothing. -/
theorem ackOwner (s : State) (r : Req) (a : Nat × Nat) : s.Silent (s.ackOwner r a) := by
  unfold State.ackOwner
  dsimp only
  split
  case h_1 =>
    split
    · exact loadReturns ..
    · exact loadFails ..
  case h_2 =>
    split
    · exact refl
    · exact storeReport ..
  case h_3 => exact walkGets ..
  case h_4 =>
    split
    · exact refl
    · exact report ..
  case h_5 =>
    split
    · exact cmdFails ..
    · split
      · exact onCmd ..
      · exact onCmd ..
      · exact onCmd ..
      · exact refl
end State.Silent

/-! A request that is over. -/

theorem State.req_eq_none {s : State} {id : Nat} : s.req id = none ↔ id ∉ s.fab.reqs.map Req.id := by
  rw [State.req, List.find?_eq_none, List.mem_map]
  simp
theorem State.Silent.req_none {s t : State} (h : s.Silent t) {id : Nat} (hs : s.req id = none) : t.req id = none := by
  rw [State.req_eq_none] at hs ⊢
  rwa [h.reqs]
theorem State.req_dropReq (s : State) (id : Nat) : (s.dropReq id).req id = none := by
  rw [State.req, List.find?_eq_none]
  intro r hr
  simpa using (List.mem_filter.mp hr).2

/-! Arrival and acknowledgement. -/

/-- A request that is at its destination, first in its order, has not yet arrived there. -/
theorem requestArrival_waits_not {s : State} {r : Req} (haway : r.away s.now = false) (harr : r.arrived = false) (hfirst : s.reqBehind r = false) :
    ¬(r.arrived = true ∨ r.away s.now = true ∨ s.reqBehind r = true) := by
  rw [haway, harr, hfirst]
  decide

theorem requestArrival_again (s : State) {r : Req} (hr : s.req r.id = some r) (haway : r.away s.now = false) (harr : r.arrived = false)
    (hfirst : s.reqBehind r = false) {x : Recorded} {a : Nat × Nat}
    (hx : s.fab.recorded.find? (fun x => x.src == r.src && x.dst == r.dst && x.seq == r.seq) = some x) (ha : x.answer = some a) :
    exec (.requestArrival r.id) s = .next (s.sendAck r a) := by
  rw [exec_requestArrival, execRequestArrival, hr]
  dsimp only
  rw [if_neg (requestArrival_waits_not haway harr hfirst), hx]
  dsimp only
  rw [ha, Option.getD_some]

theorem requestArrival_performs (s : State) {r : Req} (hr : s.req r.id = some r) (haway : r.away s.now = false) (harr : r.arrived = false)
    (hfirst : s.reqBehind r = false) {u : State} {a : Nat × Nat}
    (hx : s.fab.recorded.find? (fun x => x.src == r.src && x.dst == r.dst && x.seq == r.seq) = none) (hp : s.performReq r = some (u, a)) :
    exec (.requestArrival r.id) s =
      .next ((u.onFab fun x => { x with recorded := recordAnswer x.recorded { src := r.src, dst := r.dst, seq := r.seq, answer := some a } }).sendAck r a) := by
  rw [exec_requestArrival, execRequestArrival, hr]
  dsimp only
  rw [if_neg (requestArrival_waits_not haway harr hfirst), hx, hp]

theorem acknowledgement_ends (s : State) {r : Req} (hr : s.req r.id = some r) {a : Nat × Nat} (ha : r.answer = some a)
    (hback : if r.kind.answers then r.arrived = true ∧ r.away s.now = false ∧ s.comesBehind r = false else s.ackHere r.id = true) :
    exec (.acknowledgement r.id) s = .next ((s.dropReq r.id).ackOwner r a) := by
  have hgo : ¬(if r.kind.answers then !r.arrived || r.away s.now || s.comesBehind r else !s.ackHere r.id) = true := by
    split at hback
    next h =>
      obtain ⟨harr, haway, hbehind⟩ := hback
      rw [if_pos h, harr, haway, hbehind]
      decide
    next h =>
      rw [if_neg h, hback]
      decide
  rw [exec_acknowledgement, execAcknowledgement, hr]
  dsimp only
  rw [ha]
  dsimp only
  rw [if_neg hgo]

theorem State.ackOwner_store (s : State) {r : Req} {cid : Nat} {q : QEnt} (ho : r.owner = .store cid q) (a : Nat × Nat) :
    s.ackOwner r a = if a.1 = 0 then s else s.storeReport r cid q (answerTrap a.1 r.va r.src r.dst) := by
  rw [State.ackOwner, ho]

/-- Settles O39: a request is looked up by its number before it is performed, and its owner sends nothing when it is told. -/
theorem requests : Obligations.Requests := by
  unfold Obligations.Requests
  intro s r hr
  refine ⟨fun haway harr hfirst => ⟨fun x a hx ha => ?_, fun u a hx hp => ?_⟩, fun a ha hback => ?_⟩
  · exact requestArrival_again s hr haway harr hfirst hx ha
  · exact requestArrival_performs s hr haway harr hfirst hx hp
  · have hends := acknowledgement_ends s hr ha hback
    refine ⟨⟨_, hends, (State.Silent.ackOwner _ r a).req_none (s.req_dropReq r.id)⟩, fun cid q ho h0 => ?_, fun cid q ho h0 => ?_⟩
    · rw [hends, State.ackOwner_store _ ho, if_pos h0]
    · rw [hends, State.ackOwner_store _ ho, if_neg h0]
end Sys2Proof.Machine
end

section
/-! Re-sends of requests and critical flits, and the reports of those whose outcome is unknown (R380, R385). -/

namespace Sys2Proof.Machine

/-! Entries that never perform (R306) leave the scheduler and the fabric alone. -/

theorem State.freeReshard_sched (s : State) (die jcb : Nat) (i : Instr) : (s.freeReshard die jcb i).sched = s.sched := by
  unfold State.freeReshard
  split <;> rfl
theorem State.undoEntry_sched (s : State) (cid : Nat) (e : QEnt) : (s.undoEntry cid e).sched = s.sched := by
  unfold State.undoEntry
  extract_lets die tag u v
  have hv : v.sched = s.sched := by simp only [v, u, State.onCoreAt_sched]
  clear_value v
  split
  · rw [State.freeReshard_sched, hv]
  · exact hv
  · exact hv
  · exact hv
theorem State.Silent.undoEntry (s : State) (cid : Nat) (e : QEnt) : s.Silent (s.undoEntry cid e) := by
  unfold State.undoEntry
  extract_lets die tag u v
  have hv : s.Silent v := (State.Silent.onCoreAt s cid _).trans (.onCoreAt u cid _)
  clear_value v
  split
  · exact hv.trans (.freeReshard ..)
  · exact hv.trans (.of_fab rfl)
  · exact hv.trans (.of_fab rfl)
  · exact hv
theorem State.undoEntries_sched (l : List QEnt) (s : State) (cid : Nat) : (l.foldl (fun s q => s.undoEntry cid q) s).sched = s.sched := by
  induction l generalizing s with
  | nil => rfl
  | cons q l ih => rw [List.foldl_cons, ih, State.undoEntry_sched]
theorem State.dropBehind_sched (s : State) (cid handle src dst : Nat) : (s.dropBehind cid handle src dst).sched = s.sched := by
  unfold State.dropBehind
  dsimp only
  split
  · rfl
  · rw [State.undoEntries_sched, State.onCoreAt_sched]
theorem State.Silent.dropBehind (s : State) (cid handle src dst : Nat) : s.Silent (s.dropBehind cid handle src dst) := by
  unfold State.dropBehind
  dsimp only
  split
  · exact .refl
  · exact (State.Silent.onCoreAt ..).trans (.foldl (fun u q => .undoEntry u cid q) _ _)

/-! Requests. -/

/-- A request is over, and a payload whose handler's record is lost with it. -/
def State.overReq (s : State) (r : Req) : State := (s.dropReq r.id).dropPayload r

theorem State.overReq_sched (s : State) (r : Req) : (s.overReq r).sched = s.sched := by
  unfold State.overReq State.dropPayload
  split
  · split <;> rfl
  · rfl
theorem State.req_overReq (s : State) (r : Req) : (s.overReq r).req r.id = none := by
  have h := State.req_eq_none.mp (s.req_dropReq r.id)
  unfold State.overReq State.dropPayload
  split
  · split
    · refine State.req_eq_none.mpr fun hin => h ?_
      obtain ⟨x, hx, hid⟩ := List.mem_map.mp hin
      exact List.mem_map.mpr ⟨x, (List.mem_filter.mp hx).1, hid⟩
    · exact s.req_dropReq r.id
  · exact s.req_dropReq r.id

/-- A store whose outcome is unknown: its queue entry goes, its continuation is told, and a release that waits for it never performs. -/
theorem State.unknownReq_store (s : State) {r : Req} {cid : Nat} {q : QEnt} (ho : r.owner = .store cid q) :
    s.unknownReq r = ((((s.overReq r).onCoreAt cid fun c => { c with storeQ := c.storeQ.filter fun e => e.id ≠ q.id }).storeReport r cid q (unknownTrap r.va r.dst)).dropBehind
      cid q.handle r.src r.dst) := by
  rw [State.unknownReq, ho, State.overReq]

/-- A first report that does not end its continuation stands behind those it already has. -/
theorem State.cont_storeReport (s : State) {r : Req} (cid : Nat) {q : QEnt} {t : Trap} {c : Cont} (htold : r.told = false) (ht : t.resumable = true)
    (hc : s.cont q.handle = some c) : (s.storeReport r cid q t).cont q.handle = some { c with reports := c.reports ++ [{ q.trap t with report := true }] } := by
  rw [State.storeReport, htold, if_neg (by decide)]
  dsimp only
  rw [ht, if_pos rfl]
  exact State.cont_report (s := s.onFab _) hc q.jcb (q.trap t)

theorem unknownReq_tells (s : State) {r : Req} {cid : Nat} {q : QEnt} {c : Cont} (ho : r.owner = .store cid q) (htold : r.told = false)
    (hc : s.cont q.handle = some c) : (s.unknownReq r).req r.id = none ∧
      ∃ d, (s.unknownReq r).cont q.handle = some d ∧ d.reports = c.reports ++ [{ q.trap (unknownTrap r.va r.dst) with report := true }] := by
  rw [s.unknownReq_store ho]
  generalize hv : ((s.overReq r).onCoreAt cid fun c => { c with storeQ := c.storeQ.filter fun e => e.id ≠ q.id }) = v
  have hquiet : (s.overReq r).Silent v := by rw [← hv]; exact .onCoreAt ..
  have hvc : v.cont q.handle = some c := by rw [← hv, State.cont, State.onCoreAt_sched, State.overReq_sched, ← State.cont, hc]
  refine ⟨((hquiet.trans (.storeReport ..)).trans (.dropBehind ..)).req_none (s.req_overReq r),
    { c with reports := c.reports ++ [{ q.trap (unknownTrap r.va r.dst) with report := true }] }, ?_, rfl⟩
  rw [State.cont, State.dropBehind_sched, ← State.cont, v.cont_storeReport cid htold rfl hvc]

section SingleRequest
variable {s : State} {r : Req} (hr : s.fab.reqs = [r])
include hr

theorem req_single : s.req r.id = some r := by
  rw [State.req, hr, List.find?_cons_of_pos (by simp)]
theorem endToEndResend_due (h : r.toResend s.now = true) : exec .endToEndResend s = .next (s.resendReq r) := by
  rw [exec_endToEndResend, execEndToEndResend, hr, List.filter_cons_of_pos (by exact h)]
  rfl
theorem endToEndResend_early (h : r.toResend s.now = false) : exec .endToEndResend s = .next s := by
  rw [exec_endToEndResend, execEndToEndResend, hr, List.filter_cons_of_neg (by simp [h])]
  rfl
theorem fabricOutcomeUnknown_due (hheld : r.held = false) (h : r.first + 84000 ≤ s.now) : exec .fabricOutcomeUnknown s = .next (s.unknownReq r) := by
  rw [exec_fabricOutcomeUnknown, execFabricOutcomeUnknown, hr, List.filter_cons_of_pos (by simp [hheld, unknownAfter, h]), List.filter_nil, List.foldl_cons, List.foldl_nil,
    req_single hr, Option.elim_some]
theorem fabricOutcomeUnknown_early (h : s.now < r.first + 84000) : exec .fabricOutcomeUnknown s = .next s := by
  have hno : ¬((r.arrived || !r.held) && decide (r.first + unknownAfter ≤ s.now)) = true := by
    rw [Bool.and_eq_true, decide_eq_true_eq, unknownAfter]
    omega
  rw [exec_fabricOutcomeUnknown, execFabricOutcomeUnknown, hr, List.filter_cons_of_neg (by exact hno)]
  rfl
end SingleRequest

/-! Critical flits. -/

/-- What the issuer of a critical flit learns of it when it is lost for good. -/
def State.lostMsg (s : State) (m : Msg) : State :=
  match m.crit with
  | .reduceTag id => (s.dropMsg m.id).loseMember id
  | .ack _ | .receipt _ => s.dropMsg m.id
  | _ => (s.dropMsg m.id).reportMsg m 0x01

theorem State.Silent.loseMember (s : State) (id : Nat) : s.Silent (s.loseMember id) := by
  unfold State.loseMember
  split
  · exact .refl
  · split
    · exact .refl
    · split
      · exact .foldl (fun u x => .endColl u ..) _ _
      · exact State.Silent.trans (t := s.onFab _) ⟨rfl, rfl⟩ (.foldl (fun u x => .endColl u ..) _ _)

theorem State.msgs_lostMsg (s : State) (m : Msg) : (s.lostMsg m).fab.msgs = (s.dropMsg m.id).fab.msgs := by
  unfold State.lostMsg
  split
  · exact (State.Silent.loseMember ..).msgs
  · rfl
  · rfl
  · exact (State.Silent.report ..).msgs
theorem State.msg_lostMsg (s : State) (m : Msg) : (s.lostMsg m).msg m.id = none := by
  rw [State.msg, State.msgs_lostMsg, ← State.msg, State.msg_dropMsg]

/-- Arrivals and tokens have an issuer that is told. -/
theorem State.lostMsg_reports (s : State) {m : Msg} (htag : ∀ n, m.crit ≠ .reduceTag n) (hack : ∀ n, m.crit ≠ .ack n) (hrec : m.isReceipt = false) :
    s.lostMsg m = (s.dropMsg m.id).reportMsg m 0x01 := by
  unfold State.lostMsg
  split
  next n h => exact absurd h (htag n)
  next n h => exact absurd h (hack n)
  next n h => simp [Msg.isReceipt, h] at hrec
  next => rfl

section SingleFlit
variable {s : State} {m : Msg} (hm : s.fab.msgs = [m])
include hm

theorem criticalResend_due (hrec : m.isReceipt = false) (hl : m.lost = true) (h : m.sent + 2100 ≤ s.now) (h' : s.now < m.first + 84000) :
    exec .criticalResend s = .next (s.resendMsg m) := by
  rw [exec_criticalResend, execCriticalResend, hm, List.filter_cons_of_pos (by simp [hrec, hl, hopAfter, unknownAfter, h, h'])]
  rfl
theorem criticalResend_leaves (h : m.lost = false ∨ m.isReceipt = true) : exec .criticalResend s = .next s := by
  rw [exec_criticalResend, execCriticalResend, hm, List.filter_cons_of_neg]
  · rfl
  · rcases h with h | h <;> simp [h]
theorem criticalFlitLost_leaves (h : m.lost = false) : exec .criticalFlitLost s = .next s := by
  rw [exec_criticalFlitLost, execCriticalFlitLost, hm, List.filter_cons_of_neg (by simp [h])]
  rfl
theorem criticalFlitLost_due (hl : m.lost = true) (h : m.first + 84000 ≤ s.now) : exec .criticalFlitLost s = .next (s.lostMsg m) := by
  rw [exec_criticalFlitLost, execCriticalFlitLost, hm, List.filter_cons_of_pos (by simp [hl, unknownAfter, h])]
  rfl
end SingleFlit

/-- Settles O40: with one request or flit in flight each event looks at that one's times alone. -/
theorem resends : Obligations.Resends := by
  unfold Obligations.Resends
  refine fun s => ⟨fun r hr hheld => ⟨endToEndResend_due hr, endToEndResend_early hr, fun h => ?_, fabricOutcomeUnknown_early hr⟩,
    fun m hm => ⟨criticalResend_due hm, fun hl => ⟨criticalResend_leaves hm (.inl hl), criticalFlitLost_leaves hm hl⟩, fun hrec => criticalResend_leaves hm (.inr hrec),
      fun hl h => ?_⟩⟩
  · have hexec := fabricOutcomeUnknown_due hr hheld h
    refine ⟨hexec, fun cid q c ho htold hc => ?_⟩
    obtain ⟨hreq, d, hd, hrep⟩ := unknownReq_tells s ho htold hc
    exact ⟨_, d, hexec, hreq, hd, hrep⟩
  · refine ⟨_, criticalFlitLost_due hm hl h, s.msg_lostMsg m, fun htag hack hrec c hc => ?_⟩
    rw [s.lostMsg_reports htag hack hrec]
    exact ⟨_, State.cont_report (s := s.dropMsg m.id) hc m.jcb _, rfl⟩

end Sys2Proof.Machine
end

section
/-! Slots, planes, training and keys of the links (R375, R382 to R384). -/

namespace Sys2Proof.Machine

/-! A plane of a port. -/

theorem State.plane_onPlane (s : State) (port : Nat) (pl : Bool) (f : Plane → Plane) : (s.onPlane port pl f).plane port pl = f (s.plane port pl) := fget_fmod ..
theorem State.plane_onPlane_ne (s : State) {port q : Nat} (h : q ≠ port) (pl : Bool) (f : Plane → Plane) : (s.onPlane port pl f).plane q pl = s.plane q pl :=
  fget_fmod_ne _ _ _ _ _ (by unfold planeKey; omega)
theorem State.plane_onReqs (s : State) (f : List Req → List Req) (port : Nat) (pl : Bool) : (s.onFab fun x => { x with reqs := f x.reqs }).plane port pl = s.plane port pl := rfl

section Port
variable (s : State) (port : Nat) (pl : Bool)

/-! Slots (R375, R383). -/

/-- What a slot changes besides the counters: the requests and the flits on their way, and the memory stays. -/
theorem State.delayOne_leaves (bulk : Bool) (q : Nat) (p : Bool) :
    (s.delayOne port bulk).plane q p = s.plane q p ∧ (s.delayOne port bulk).mem = s.mem := by
  unfold State.delayOne
  split <;> exact ⟨rfl, rfl⟩
theorem State.spoilMsg_leaves (plane : Bool) (q : Nat) (p : Bool) :
    (s.spoilMsg port plane).plane q p = s.plane q p ∧ (s.spoilMsg port plane).mem = s.mem := by
  unfold State.spoilMsg
  split <;> exact ⟨rfl, rfl⟩

/-- A slot counted at both ends, a failed one among the failures. -/
def State.slotCounted (ok : Bool) : State := (s.slotPasses port pl).onPlane port pl fun p => { p with fails := if ok then 0 else p.fails + 1 }

theorem State.plane_slotCounted (hpeer : s.peerPort port ≠ port) (ok : Bool) : (s.slotCounted port pl ok).plane port pl =
    { s.plane port pl with recvCtr := (s.plane port pl).recvCtr + 1, slots := (s.plane port pl).slots + 1, fails := if ok then 0 else (s.plane port pl).fails + 1 } := by
  rw [State.slotCounted, State.plane_onPlane, State.slotPasses, State.plane_onPlane_ne _ hpeer.symm, State.plane_onPlane]
theorem State.plane_slotCounted_peer (hpeer : s.peerPort port ≠ port) (ok : Bool) : (s.slotCounted port pl ok).plane (s.peerPort port) pl =
    { s.plane (s.peerPort port) pl with sendCtr := (s.plane (s.peerPort port) pl).sendCtr + 1 } := by
  rw [State.slotCounted, State.plane_onPlane_ne _ hpeer, State.slotPasses, State.plane_onPlane, State.plane_onPlane_ne _ hpeer]

/-- A slot ends with the counters of both ends advanced, whatever is replayed or lost with it. -/
theorem State.slotEnds (hpeer : s.peerPort port ≠ port) (hthere : s.portThere port = true) (c : FlitClass) (ok : Bool) :
    ∃ t, exec (.flitArrival port pl c ok) s = .next t ∧ t.plane port pl = (s.slotCounted port pl ok).plane port pl ∧
      (t.plane (s.peerPort port) pl).sendCtr = ((s.slotCounted port pl ok).plane (s.peerPort port) pl).sendCtr ∧ t.mem = s.mem := by
  rw [exec_flitArrival, execFlitArrival, hthere, if_neg (by decide)]
  dsimp only
  cases ok with
  | true => exact ⟨s.slotCounted port pl true, rfl, rfl, rfl, rfl⟩
  | false =>
    have hcount : ((s.slotPasses port pl).onPlane port pl fun p => { p with fails := p.fails + 1 }) = s.slotCounted port pl false := rfl
    rw [if_neg (by decide), hcount]
    have hmem : (s.slotCounted port pl false).mem = s.mem := rfl
    have hat : (s.slotCounted port pl false).peerPort port = s.peerPort port := rfl
    generalize s.slotCounted port pl false = u at hmem hat ⊢
    have hreplay : ∀ bulk : Bool, let t := (u.onPlane (u.peerPort port) pl fun p => { p with replays := p.replays + 1 }).delayOne port bulk
        t.plane port pl = u.plane port pl ∧ (t.plane (s.peerPort port) pl).sendCtr = (u.plane (s.peerPort port) pl).sendCtr ∧ t.mem = s.mem := by
      intro bulk t
      obtain ⟨hself, hm⟩ := (u.onPlane (u.peerPort port) pl fun p => { p with replays := p.replays + 1 }).delayOne_leaves port bulk port pl
      obtain ⟨hother, _⟩ := (u.onPlane (u.peerPort port) pl fun p => { p with replays := p.replays + 1 }).delayOne_leaves port bulk (s.peerPort port) pl
      refine ⟨hself.trans (u.plane_onPlane_ne (hat ▸ hpeer.symm) ..), ?_, hm.trans hmem⟩
      rw [hother, hat, State.plane_onPlane]
    cases c with
    | idle => exact ⟨u, rfl, rfl, rfl, hmem⟩
    | ordered => exact ⟨_, rfl, hreplay false⟩
    | bulk => exact ⟨_, rfl, hreplay true⟩
    | critical =>
      refine ⟨_, rfl, (u.spoilMsg_leaves port pl port pl).1, ?_, (u.spoilMsg_leaves port pl port pl).2.trans hmem⟩
      rw [(u.spoilMsg_leaves port pl (s.peerPort port) pl).1]

/-! Planes that fail and rejoin, and keys (R375, R384). -/

/-- What crossed a link that is dead, by the numbers of the requests and flits, is lost. -/
def State.crossingLost (s : State) (reqs msgs : List Nat) : State :=
  s.onFab fun x => { x with reqs := x.reqs.map (fun r => if reqs.contains r.id then { r with lost := true } else r),
                            msgs := x.msgs.map fun m => if msgs.contains m.id then { m with lost := true } else m }

theorem State.failPlane_eq (hthere : s.portThere port = true) : s.failPlane port pl =
    if (s.onPlane port pl fun p => { p with down := true }).portDead port then
      (s.onPlane port pl fun p => { p with down := true }).crossingLost ((s.fab.reqs.filter fun r => r.onWay s.now (s.hopIs port)).map Req.id)
        ((s.fab.msgs.filter fun m => m.onWay s.now (s.hopIs port)).map Msg.id)
    else s.onPlane port pl fun p => { p with down := true } := by
  rw [State.failPlane, hthere]
  rfl
theorem State.lost_crossing (u : State) (reqs msgs : List Nat) :
    (∀ r ∈ u.fab.reqs, r.id ∈ reqs → { r with lost := true } ∈ (u.crossingLost reqs msgs).fab.reqs) ∧
      ∀ m ∈ u.fab.msgs, m.id ∈ msgs → { m with lost := true } ∈ (u.crossingLost reqs msgs).fab.msgs :=
  ⟨fun r hr hid => List.mem_map.mpr ⟨r, hr, if_pos (List.contains_iff_mem.mpr hid)⟩, fun m hm hid => List.mem_map.mpr ⟨m, hm, if_pos (List.contains_iff_mem.mpr hid)⟩⟩

theorem planeFails (hthere : s.portThere port = true) :
    ∃ t, exec (.planeFailure port pl) s = .next t ∧ t.plane port pl = { s.plane port pl with down := true } ∧ t.mem = s.mem ∧
      (t.portDead port = false → t.fab.reqs = s.fab.reqs ∧ t.fab.msgs = s.fab.msgs) ∧
      (t.portDead port = true → (∀ r ∈ s.fab.reqs, r.onWay s.now (s.hopIs port) = true → { r with lost := true } ∈ t.fab.reqs) ∧
        ∀ m ∈ s.fab.msgs, m.onWay s.now (s.hopIs port) = true → { m with lost := true } ∈ t.fab.msgs) := by
  refine ⟨s.failPlane port pl, by rw [exec_planeFailure, execPlaneFailure], ?_⟩
  rw [s.failPlane_eq port pl hthere]
  set u := s.onPlane port pl fun p => { p with down := true } with hu
  have hplane : u.plane port pl = { s.plane port pl with down := true } := State.plane_onPlane ..
  split
  next hdead =>
    obtain ⟨hreq, hmsg⟩ := u.lost_crossing ((s.fab.reqs.filter fun r => r.onWay s.now (s.hopIs port)).map Req.id) ((s.fab.msgs.filter fun m => m.onWay s.now (s.hopIs port)).map Msg.id)
    refine ⟨hplane, rfl, fun h => absurd (hdead.symm.trans h) (by decide), fun _ => ⟨fun r hr hw => hreq r hr ?_, fun m hm hw => hmsg m hm ?_⟩⟩
    · exact List.mem_map_of_mem (List.mem_filter.mpr ⟨hr, hw⟩)
    · exact List.mem_map_of_mem (List.mem_filter.mpr ⟨hm, hw⟩)
  next hlive => exact ⟨hplane, rfl, fun _ => ⟨rfl, rfl⟩, fun h => absurd h hlive⟩

/-- A plane with new keys. -/
def Plane.keyed (p : Plane) : Plane := { p with epoch := p.epoch + 1, sendCtr := 0, recvCtr := 0, slots := 0, fails := 0 }

theorem State.newKeys_eq (hpeer : s.peerPort port ≠ port) : s.newKeys port pl = (s.onPlane port pl Plane.keyed).onPlane (s.peerPort port) pl Plane.keyed := by
  unfold State.newKeys
  exact if_neg hpeer
theorem State.plane_newKeys (hpeer : s.peerPort port ≠ port) : (s.newKeys port pl).plane port pl = (s.plane port pl).keyed := by
  rw [s.newKeys_eq port pl hpeer, State.plane_onPlane_ne _ hpeer.symm, State.plane_onPlane]
theorem State.plane_newKeys_peer (hpeer : s.peerPort port ≠ port) : (s.newKeys port pl).plane (s.peerPort port) pl = (s.plane (s.peerPort port) pl).keyed := by
  rw [s.newKeys_eq port pl hpeer, State.plane_onPlane, State.plane_onPlane_ne _ hpeer]
theorem State.newKeys_leaves (hpeer : s.peerPort port ≠ port) : (s.newKeys port pl).fab.reqs = s.fab.reqs ∧ (s.newKeys port pl).mem = s.mem := by
  rw [s.newKeys_eq port pl hpeer]
  exact ⟨rfl, rfl⟩

theorem planeRejoins (hpeer : s.peerPort port ≠ port) (hthere : s.portThere port = true) :
    ∃ t, exec (.planeRejoin port pl) s = .next t ∧
      t.plane port pl = { s.plane port pl with down := false, fails := 0, epoch := (s.plane port pl).epoch + 1, sendCtr := 0, recvCtr := 0, slots := 0 } ∧
      t.fab.reqs = s.fab.reqs := by
  rw [exec_planeRejoin, execPlaneRejoin, if_pos hthere]
  refine ⟨_, rfl, ?_, (s.newKeys_leaves port pl hpeer).1⟩
  rw [State.plane_onPlane, s.plane_newKeys port pl hpeer, Plane.keyed]

theorem linkTrains (hpeer : s.peerPort port ≠ port) (hthere : s.portThere port = true) :
    ∃ t, exec (.linkTraining port pl) s = .next t ∧
      (∀ q ∈ [port, s.peerPort port], (t.plane q pl).sendCtr = 0 ∧ (t.plane q pl).recvCtr = 0 ∧ (t.plane q pl).epoch = (s.plane q pl).epoch + 1) ∧
      t.fab.reqs = s.fab.reqs := by
  refine ⟨_, by rw [exec_linkTraining, execLinkTraining, if_pos hthere], ?_, (s.newKeys_leaves port pl hpeer).1⟩
  intro q hq
  rcases List.mem_pair.mp hq with rfl | rfl
  · rw [s.plane_newKeys q pl hpeer]
    exact ⟨rfl, rfl, rfl⟩
  · rw [s.plane_newKeys_peer port pl hpeer]
    exact ⟨rfl, rfl, rfl⟩

/-- A plane whose keys change between two slots. -/
def Plane.rekeyed (p : Plane) : Plane := { p with epoch := p.epoch + 1, slots := 0 }

theorem rekey_due (hpeer : s.peerPort port ≠ port) (hthere : s.portThere port = true) (hslots : 2 ^ 40 ≤ (s.plane port pl).slots) :
    ∃ t, exec (.rekey port pl) s = .next t ∧ (t.plane port pl).epoch = (s.plane port pl).epoch + 1 ∧ (t.plane port pl).slots = 0 ∧
      (t.plane port pl).recvCtr = (s.plane port pl).recvCtr ∧ t.fab.reqs = s.fab.reqs := by
  have hgo : ¬((!s.portThere port) = true ∨ (s.plane port pl).slots < 2 ^ 40) := by
    rw [hthere]
    exact not_or.mpr ⟨by decide, Nat.not_lt.mpr hslots⟩
  have hplane : ((s.onPlane port pl Plane.rekeyed).onPlane (s.peerPort port) pl Plane.rekeyed).plane port pl = (s.plane port pl).rekeyed := by
    rw [State.plane_onPlane_ne _ hpeer.symm, State.plane_onPlane]
  refine ⟨(s.onPlane port pl Plane.rekeyed).onPlane (s.peerPort port) pl Plane.rekeyed, ?_, ?_⟩
  · rw [exec_rekey, execRekey, State.rekey, if_neg hgo]
    rfl
  · rw [hplane]
    exact ⟨rfl, rfl, rfl, rfl⟩
theorem rekey_early (hslots : (s.plane port pl).slots < 2 ^ 40) : exec (.rekey port pl) s = .next s := by
  rw [exec_rekey, execRekey, State.rekey, if_pos (.inr hslots)]

theorem alignmentLost (hpeer : s.peerPort port ≠ port) (hthere : s.portThere port = true) :
    ∃ t, exec (.slotAlignmentLoss port pl) s = .next t ∧ (t.plane port pl).epoch = (s.plane port pl).epoch + 1 ∧ (t.plane port pl).recvCtr = 0 ∧
      t.fab.reqs.map Req.id = s.fab.reqs.map Req.id ∧ t.mem = s.mem := by
  obtain ⟨hreqs, hmem⟩ := s.newKeys_leaves port pl hpeer
  have hplane := s.plane_newKeys port pl hpeer
  rw [exec_slotAlignmentLoss, execSlotAlignmentLoss, hthere, if_neg (by decide)]
  dsimp only
  generalize s.newKeys port pl = u at hreqs hmem hplane ⊢
  refine ⟨_, rfl, ?_, ?_, ?_, hmem⟩
  · rw [State.plane_onReqs, State.plane_onPlane, hplane]
    rfl
  · rw [State.plane_onReqs, State.plane_onPlane, hplane]
    rfl
  · rw [← hreqs]
    exact (State.Silent.onEveryReq _ _ fun r => by split <;> rfl).reqs

/-! A port that the variant lacks. -/

theorem flitArrival_absent (hthere : s.portThere port = false) (c : FlitClass) (ok : Bool) : exec (.flitArrival port pl c ok) s = .next s := by
  rw [exec_flitArrival, execFlitArrival, hthere, if_pos (by decide)]
theorem planeFailure_absent (hthere : s.portThere port = false) : exec (.planeFailure port pl) s = .next s := by
  rw [exec_planeFailure, execPlaneFailure, State.failPlane, hthere]
  rfl
theorem planeRejoin_absent (hthere : s.portThere port = false) : exec (.planeRejoin port pl) s = .next s := by
  rw [exec_planeRejoin, execPlaneRejoin, hthere, if_neg (by decide)]
theorem linkTraining_absent (hthere : s.portThere port = false) : exec (.linkTraining port pl) s = .next s := by
  rw [exec_linkTraining, execLinkTraining, hthere, if_neg (by decide)]
theorem rekey_absent (hthere : s.portThere port = false) : exec (.rekey port pl) s = .next s := by
  rw [exec_rekey, execRekey, State.rekey, hthere, if_pos (.inl (by decide))]
theorem slotAlignmentLoss_absent (hthere : s.portThere port = false) : exec (.slotAlignmentLoss port pl) s = .next s := by
  rw [exec_slotAlignmentLoss, execSlotAlignmentLoss, hthere, if_pos (by decide)]

end Port

/-- Settles O41: each event of a link acts on the planes of its two ports, which differ, and on what crosses it. -/
theorem links : Obligations.Links := by
  unfold Obligations.Links
  intro s port pl hpeer P
  refine ⟨fun hthere => ⟨fun c ok => ?_, planeFails s port pl hthere, planeRejoins s port pl hpeer hthere, linkTrains s port pl hpeer hthere,
    rekey_due s port pl hpeer hthere, rekey_early s port pl, alignmentLost s port pl hpeer hthere⟩, fun hthere i hi => ?_⟩
  · obtain ⟨t, hexec, hself, hother, hmem⟩ := s.slotEnds port pl hpeer hthere c ok
    rw [s.plane_slotCounted port pl hpeer] at hself
    rw [s.plane_slotCounted_peer port pl hpeer] at hother
    exact ⟨t, hexec, by rw [hself], by rw [hself], by rw [hself], hother, hmem⟩
  · rcases List.mem_append.mp hi with hi | hi
    · simp only [List.mem_cons, List.not_mem_nil, or_false] at hi
      rcases hi with rfl | rfl | rfl | rfl | rfl
      · exact planeFailure_absent s port pl hthere
      · exact planeRejoin_absent s port pl hthere
      · exact linkTraining_absent s port pl hthere
      · exact rekey_absent s port pl hthere
      · exact slotAlignmentLoss_absent s port pl hthere
    · obtain ⟨c, _, hi⟩ := List.mem_flatMap.mp hi
      simp only [List.mem_cons, List.not_mem_nil, or_false] at hi
      rcases hi with rfl | rfl
      · exact flitArrival_absent s port pl hthere c true
      · exact flitArrival_absent s port pl hthere c false

end Sys2Proof.Machine
end

section
/-! What a host access does (R399 to R403, R406, R407). -/

namespace Sys2Proof.Machine

section Master
variable {s : State} {pkg : Nat} {kind : BitVec 2}

theorem isOwner_of_owner (h : (s.hostAt pkg).owner = kind) (hk : kind ≠ 3) : s.isOwner pkg kind = true := by
  rw [State.isOwner, h, bne_iff_ne.mpr hk, beq_self_eq_true, Bool.and_true]
theorem not_isOwner (h : (s.hostAt pkg).owner ≠ kind) : s.isOwner pkg kind = false := by
  rw [State.isOwner, beq_eq_false_iff_ne.mpr h, Bool.and_false]

/-! Pushes (R400). -/

theorem push_answered {die q off : Nat} {bytes : List (BitVec 8)} (hpkg : pkgOf die = pkg) (hk : kind ≠ 3) (hq : q < 16) (hdie : s.dieOk die = true)
    (hdark : s.dark.contains pkg = false) (hlen : bytes.length = 64) (hoff : off % 64 = 0) :
    exec (.push kind die q off bytes) s =
      .next ((s.pushTo kind.toNat 0 die q (BitVec.ofNat 512 (leNat bytes))).1.onHost pkg fun x =>
        { x with answers := x.answers ++ [((fget 0 x.ansaddr kind.toNat).toNat + 8 * (16 * pkgIndex die + q), (s.pushTo kind.toNat 0 die q (BitVec.ofNat 512 (leNat bytes))).2)] }) := by
  have hgo : ¬(kind = 3 ∨ 16 ≤ q ∨ (!s.dieOk die) = true ∨ s.dark.contains pkg = true) := by
    rw [hdie, hdark]
    simp only [hk, Nat.not_le.mpr hq]
    decide
  rw [exec_push, execPush, hpkg]
  dsimp only
  rw [if_neg hgo, if_pos ⟨hlen, hoff⟩]

/-! The owner's writes (R399, R403, R406, R407). -/

section Owner
variable (hown : (s.hostAt pkg).owner = kind) (hk : kind ≠ 3) (v : BitVec 64)
include hown hk

theorem bar0Write_ansaddr : exec (.bar0Write pkg kind 0x18 v) s = .next (s.onHost pkg fun x => { x with ansaddr := fput 0 kind.toNat (v &&& 0xFFFFFFFFFFFFFC00) x.ansaddr }) := by
  rw [exec_bar0Write, execBar0Write, isOwner_of_owner hown hk]
  rfl
theorem bar0Write_winbase : exec (.bar0Write pkg kind 0x20 v) s = .next (s.onHost pkg fun x => { x with winbase := fput 0 kind.toNat (v &&& 0xFFFFFFFC00000000) x.winbase }) := by
  rw [exec_bar0Write, execBar0Write, isOwner_of_owner hown hk]
  rfl
theorem bar0Write_errcnt : exec (.bar0Write pkg kind 0x28 v) s = .next (s.onHost pkg fun x => { x with errcnt := v }) := by
  rw [exec_bar0Write, execBar0Write, isOwner_of_owner hown hk]
  rfl
theorem handover_offers :
    exec (.handover pkg kind v) s = .next (s.onHost pkg fun x => { x with handover := v.setWidth 3, offer := v.getLsbD 2, handoverDue := s.timeb + 1000000000 }) := by
  rw [exec_handover, execHandover, if_pos (isOwner_of_owner hown hk)]
theorem attest_starts (hq : (s.hostAt pkg).quoting = false) :
    exec (.attest pkg kind v) s = .next (s.onHost pkg fun x => { x with attest := v &&& 0x00FFFFFFFFFFFFFF, quoting := true }) := by
  rw [exec_attest, execAttest, hq, if_pos ⟨isOwner_of_owner hown hk, by decide⟩]
theorem bar4Write_performs {off : Nat} {bytes : List (BitVec 8)} (hlen : off + bytes.length ≤ 2 ^ 34) (hw : s.paWritable (s.windowPa pkg kind off) bytes.length = true) :
    exec (.bar4Write pkg kind off bytes) s = .next (s.wrBytes (s.windowPa pkg kind off) bytes) := by
  have hgo : ¬(2 ^ 34 < off + bytes.length ∨ (!s.paWritable (s.windowPa pkg kind off) bytes.length) = true) := by
    rw [hw]
    exact not_or.mpr ⟨Nat.not_lt.mpr hlen, by decide⟩
  rw [exec_bar4Write, execBar4Write, isOwner_of_owner hown hk]
  dsimp only
  rw [if_neg (by decide), if_neg hgo]
theorem bar4Write_refused {off : Nat} {bytes : List (BitVec 8)} (hw : s.paWritable (s.windowPa pkg kind off) bytes.length = false) :
    exec (.bar4Write pkg kind off bytes) s = .next (s.unsupported pkg) := by
  rw [exec_bar4Write, execBar4Write, isOwner_of_owner hown hk]
  dsimp only
  rw [if_neg (by decide), hw, if_pos (.inr (by decide))]
end Owner

/-! Another's writes. -/

section Other
variable (hown : (s.hostAt pkg).owner ≠ kind)
include hown

theorem bar0Write_discarded (v : BitVec 64) {off : Nat} (hoff : off < 0x10000) : exec (.bar0Write pkg kind off v) s = .next s := by
  rw [exec_bar0Write, execBar0Write, if_neg (Nat.not_le.mpr hoff), not_isOwner hown, if_pos (by decide)]
theorem handover_discarded (v : BitVec 64) : exec (.handover pkg kind v) s = .next s := by
  rw [exec_handover, execHandover, not_isOwner hown, if_neg (by decide)]
theorem attest_discarded (v : BitVec 64) : exec (.attest pkg kind v) s = .next s := by
  rw [exec_attest, execAttest, not_isOwner hown, if_neg (fun h => absurd h.1 (by decide))]
theorem bar4Write_discarded (off : Nat) (bytes : List (BitVec 8)) : exec (.bar4Write pkg kind off bytes) s = .next s := by
  rw [exec_bar4Write, execBar4Write, not_isOwner hown]
  dsimp only
  rw [if_pos (by decide)]
end Other

theorem bar4Read_brings {off n : Nat} (hlen : off + n ≤ 2 ^ 34) (hfirst : s.paMemory (s.windowPa pkg kind off) = true)
    (hlast : s.paMemory (s.windowPa pkg kind off + n - 1) = true) :
    exec (.bar4Read pkg kind off n) s = .next (s.onHost pkg fun x => { x with reads := s.rdBytes (s.windowPa pkg kind off) n }) := by
  have hgo : ¬(2 ^ 34 < off + n ∨ (!s.paMemory (s.windowPa pkg kind off)) = true ∨ (!s.paMemory (s.windowPa pkg kind off + n - 1)) = true) := by
    rw [hfirst, hlast]
    exact not_or.mpr ⟨Nat.not_lt.mpr hlen, by decide⟩
  rw [exec_bar4Read, execBar4Read]
  dsimp only
  rw [if_neg hgo]

/-! Claims (R402, R403, R405). -/

theorem fget_fputs {α : Type} [DecidableEq α] (z v : α) (key : Nat → Nat) {d : Nat} {l : List Nat} (hd : d ∈ l) (m : FMap α) :
    fget z (l.foldl (fun m d => fput z (key d) v m) m) (key d) = v := by
  induction l using List.reverseRecOn with
  | nil => exact absurd hd List.not_mem_nil
  | append_singleton l e ih =>
    rw [List.foldl_append, List.foldl_cons, List.foldl_nil]
    by_cases h : key d = key e
    · rw [h, fget_fput]
    · rw [fget_fput_ne _ _ _ _ _ h]
      rcases List.mem_append.mp hd with hd | hd
      · exact ih hd
      · exact absurd (congrArg key (List.mem_singleton.mp hd)) h

variable (s pkg kind) in
theorem elect_owns : ((s.elect pkg kind).hostAt pkg).owner = kind ∧ ((s.elect pkg kind).hostAt pkg).handover = (s.hostAt pkg).handover ∧
    ∀ d ∈ s.pkgDies pkg, fget 0 (s.elect pkg kind).sched.acl (d * 64) = BitVec.ofNat 64 (2 ^ 63 + kind.toNat * 2 ^ 61 + 0xFFFF) := by
  have hhost : (s.elect pkg kind).hostAt pkg = { s.hostAt pkg with owner := kind, offer := false } :=
    s.hostAt_onHost pkg fun h => { h with owner := kind, offer := false }
  rw [hhost]
  exact ⟨rfl, rfl, fun d hd => fget_fputs 0 (ownerEntry kind) (· * 64) hd _⟩

/-- Nobody owns, or the management controller comes where no hand-over to it stands. -/
theorem claim_elects (hk : kind ≠ 3) (h : (s.hostAt pkg).owner = 3 ∨ (kind = 2 ∧ (s.hostAt pkg).wonAt ≠ some s.now ∧ s.offered pkg kind = false)) :
    ∃ t, exec (.claim pkg kind) s = .next t ∧ (t.hostAt pkg).owner = kind ∧ (t.hostAt pkg).handover = (s.hostAt pkg).handover ∧
      ∀ d ∈ s.pkgDies pkg, fget 0 t.sched.acl (d * 64) = BitVec.ofNat 64 (2 ^ 63 + kind.toNat * 2 ^ 61 + 0xFFFF) := by
  obtain ⟨howner, hover, hacl⟩ := elect_owns s pkg kind
  rw [exec_claim, execClaim]
  dsimp only
  rw [if_neg hk]
  by_cases hfree : (s.hostAt pkg).owner = 3
  · rw [if_pos hfree]
    refine ⟨_, rfl, ?_, ?_, hacl⟩
    · rw [State.hostAt_onHost, howner]
    · rw [State.hostAt_onHost, hover]
  · obtain ⟨rfl, hwon, hoff⟩ := h.resolve_left hfree
    rw [if_neg hfree, if_neg hwon, hoff, if_neg (by decide), if_pos rfl]
    exact ⟨_, rfl, howner, hover, hacl⟩
theorem claim_in_election (hk : kind ≠ 3) (hown : (s.hostAt pkg).owner ≠ 3) (hwon : (s.hostAt pkg).wonAt = some s.now) :
    exec (.claim pkg kind) s = .next (if kind < (s.hostAt pkg).owner then s.elect pkg kind else s) := by
  rw [exec_claim, execClaim]
  dsimp only
  rw [if_neg hk, if_neg hown, if_pos hwon]
theorem claim_accepts (hk : kind ≠ 3) (hown : (s.hostAt pkg).owner ≠ 3) (hwon : (s.hostAt pkg).wonAt ≠ some s.now) (hoff : s.offered pkg kind = true) :
    exec (.claim pkg kind) s = .next ((s.renameOwner pkg (s.hostAt pkg).owner kind).onHost pkg fun x => { x with owner := kind, offer := false }) := by
  rw [exec_claim, execClaim]
  dsimp only
  rw [if_neg hk, if_neg hown, if_neg hwon, if_pos hoff, State.setOwner]
theorem claim_discarded (hk : kind ≠ 3) (hown : (s.hostAt pkg).owner ≠ 3) (hwon : (s.hostAt pkg).wonAt ≠ some s.now) (hmc : kind ≠ 2)
    (hoff : s.offered pkg kind = false) : exec (.claim pkg kind) s = .next s := by
  rw [exec_claim, execClaim]
  dsimp only
  rw [if_neg hk, if_neg hown, if_neg hwon, hoff, if_neg (by decide), if_neg hmc]

/-! The one package with a port: lapses and quotes (R403, R406). -/

theorem handoverLapse_single (hpkg : fkeys s.host = [pkg]) (hoff : (s.hostAt pkg).offer = true) (hdue : (s.hostAt pkg).handoverDue < s.timeb) :
    exec .handoverLapse s = .next (s.onHost pkg fun x => { x with offer := false }) := by
  rw [exec_handoverLapse, execHandoverLapse, hpkg, List.foldl_cons, List.foldl_nil, if_pos ⟨hoff, hdue⟩]

/-- The bytes of a quote: CTR, the measurements and the signature, then MAGIC. -/
def State.quoted (s : State) (pa ctr : Nat) (meas sig : List (BitVec 8)) : State :=
  (((s.wr (pa + 8) 8 ctr).wrBytes (pa + 0x40) meas).wrBytes (pa + 0x100) sig).wr pa 8 quoteMagic

theorem rdBytes_wrBytes_disjoint (s : State) (pa : Nat) (bs : List (BitVec 8)) {q n : Nat} (h : q + n ≤ pa ∨ pa + bs.length ≤ q) :
    (s.wrBytes pa bs).rdBytes q n = s.rdBytes q n := memRead_memWrite_disjoint _ _ _ _ _ h

/-- What the nonce's bytes and CTR read as once a quote stands there. -/
theorem State.rd_quoted (s : State) (pa ctr : Nat) (meas sig : List (BitVec 8)) :
    (s.quoted pa ctr meas sig).rd pa 8 = quoteMagic ∧ (s.quoted pa ctr meas sig).rd (pa + 8) 8 = ctr % 2 ^ 64 ∧
      (s.quoted pa ctr meas sig).rdBytes (pa + 0x10) 0x30 = s.rdBytes (pa + 0x10) 0x30 := by
  unfold State.quoted
  refine ⟨rd_wr .., ?_, ?_⟩
  · rw [rd_wr_disjoint _ _ _ _ _ _ (by omega), State.rd, rdBytes_wrBytes_disjoint _ _ _ (by omega), rdBytes_wrBytes_disjoint _ _ _ (by omega), ← State.rd, rd_wr]
  · rw [State.wr, rdBytes_wrBytes_disjoint _ _ _ (by rw [natLe_length]; omega), rdBytes_wrBytes_disjoint _ _ _ (by omega),
      rdBytes_wrBytes_disjoint _ _ _ (by omega), State.wr, rdBytes_wrBytes_disjoint _ _ _ (by rw [natLe_length]; omega)]

/-- R406: a quote whose bytes all lie in memory that may be written goes there in full. -/
theorem State.writeQuote_writes (hw : s.paWritable (s.hostAt pkg).attest.toNat 0x160 = true) :
    ∃ w meas sig, s.writeQuote pkg = State.quoted w (s.hostAt pkg).attest.toNat (s.hostAt pkg).rollback.toNat meas sig ∧ (w.hostAt pkg).quoting = false ∧ w.mem = s.mem := by
  have hww : ((s.onClk fun c => { c with free := c.free + 1 }).onHost pkg fun h => { h with quoting := false }).paWritable (s.hostAt pkg).attest.toNat 0x160 = true := hw
  rw [State.writeQuote, hww, if_neg (by decide)]
  exact ⟨_, _, _, rfl, congrArg HostSt.quoting (State.hostAt_onHost _ pkg fun h => { h with quoting := false }), rfl⟩

theorem quote_completes (hpkg : fkeys s.host = [pkg]) (hq : (s.hostAt pkg).quoting = true) (hw : s.paWritable (s.hostAt pkg).attest.toNat 0x160 = true) :
    ∃ t, exec .quoteCompletion s = .next t ∧ (t.hostAt pkg).quoting = false ∧ t.rd (s.hostAt pkg).attest.toNat 8 = quoteMagic ∧
      t.rd ((s.hostAt pkg).attest.toNat + 8) 8 = (s.hostAt pkg).rollback.toNat ∧
      t.rdBytes ((s.hostAt pkg).attest.toNat + 0x10) 0x30 = s.rdBytes ((s.hostAt pkg).attest.toNat + 0x10) 0x30 := by
  obtain ⟨w, meas, sig, heq, hquiet, hmem⟩ := State.writeQuote_writes hw
  obtain ⟨hmagic, hctr, hnonce⟩ := w.rd_quoted (s.hostAt pkg).attest.toNat (s.hostAt pkg).rollback.toNat meas sig
  rw [exec_quoteCompletion, execQuoteCompletion, hpkg, List.foldl_cons, List.foldl_nil, if_pos hq, heq]
  refine ⟨_, rfl, hquiet, hmagic, hctr.trans (Nat.mod_eq_of_lt (s.hostAt pkg).rollback.isLt), hnonce.trans ?_⟩
  rw [State.rdBytes, hmem, State.rdBytes]

end Master

/-- Settles O44: every access is decided by the owner of the package alone, or by nothing for a push and a read. -/
theorem hostAccesses : Obligations.HostAccesses := by
  unfold Obligations.HostAccesses
  intro s pkg kind v h reads
  have hreads : ∀ (f : HostSt → HostSt) (off : Nat), reads (s.onHost pkg f) off = (s.onHost pkg f).bar0Read pkg kind off := fun _ _ => rfl
  refine ⟨fun die q off bytes hpkg hk hq hdie hdark hlen hoff => push_answered hpkg hk hq hdie hdark hlen hoff, fun hown hk => ⟨?_, ?_, ?_, ?_, attest_starts hown hk v, ?_⟩,
    fun hown off hoff => ⟨bar0Write_discarded hown v hoff, handover_discarded hown v, attest_discarded hown v, bar4Write_discarded hown⟩,
    fun off n => bar4Read_brings, fun hk => ⟨fun hfree => ?_, claim_in_election hk, claim_accepts hk, claim_discarded hk⟩, ?_, fun hpkg => ⟨handoverLapse_single hpkg, quote_completes hpkg⟩⟩
  · exact ⟨bar0Write_ansaddr hown hk v, by rw [hreads, State.bar0Read, State.hostAt_onHost]; exact fget_fput ..⟩
  · exact ⟨bar0Write_winbase hown hk v, by rw [hreads, State.bar0Read, State.hostAt_onHost]; exact fget_fput ..⟩
  · exact ⟨bar0Write_errcnt hown hk v, by rw [hreads, State.bar0Read, State.hostAt_onHost]⟩
  · exact ⟨handover_offers hown hk v, by rw [hreads, State.bar0Read, State.hostAt_onHost]⟩
  · exact fun off bytes hlen => ⟨bar4Write_performs hown hk hlen, fun hw => ⟨_, bar4Write_refused hown hk hw, rfl⟩⟩
  · obtain ⟨t, hexec, howner, hover, hacl⟩ := claim_elects hk hfree
    exact ⟨t, hexec, howner, hover, congrArg (BitVec.setWidth 64) howner, hacl⟩
  · rw [exec_ownerLinkDown, execOwnerLinkDown]

end Sys2Proof.Machine
end

section
/-! A router record completes: its writes, its place and its barrier (R363, R364, R367). -/

namespace Sys2Proof.Machine

/-! What a write of the router leaves as it is. -/

/-- The sets and the barriers stay. -/
structure State.Aside (s t : State) : Prop where
  sets : t.sets = s.sets
  bar : t.bar = s.bar

namespace State.Aside
variable {s t u : State}

theorem refl : s.Aside s := ⟨rfl, rfl⟩
theorem trans (h : s.Aside t) (k : t.Aside u) : s.Aside u := ⟨k.sets.trans h.sets, k.bar.trans h.bar⟩
theorem tset (h : s.Aside t) (die n : Nat) : t.tset die n = s.tset die n := by rw [State.tset, h.sets, State.tset]
theorem barrier (h : s.Aside t) (die n : Nat) : t.barrier die n = s.barrier die n := by rw [State.barrier, h.bar, State.barrier]

theorem report (s : State) (key jcb : Nat) (t : Trap) : s.Aside (s.report key jcb t) := by
  unfold State.report
  dsimp only
  split
  · exact ⟨State.onCont_sets .., State.onCont_bar ..⟩
  · exact ⟨rfl, rfl⟩
theorem recordFault (s : State) (jcb : Nat) (p : Place) (t : Trap) : s.Aside (s.recordFault jcb p t) := report ..
theorem sendReq (s : State) (src dst jcb va : Nat) (bulk : Bool) (k : ReqKind) (o : ReqOwner) : s.Aside (s.sendReq src dst jcb va bulk k o).1 := by
  unfold State.sendReq
  split <;> exact ⟨rfl, rfl⟩
end State.Aside

/-! Writes at their home. -/

theorem performAccess_cells (s : State) (jcb pa : Nat) (cs : List (Nat × BitVec 8)) :
    s.performAccess jcb (.cells pa cs) = (cs.foldl (fun u c => u.wrByte (pa + c.1) c.2) s, (0, 0)) := rfl

theorem State.Aside.wrCells (s : State) (pa : Nat) (cs : List (Nat × BitVec 8)) : s.Aside (cs.foldl (fun u c => u.wrByte (pa + c.1) c.2) s) := by
  induction cs generalizing s with
  | nil => exact .refl
  | cons c cs ih => exact State.Aside.trans (t := s.wrByte (pa + c.1) c.2) ⟨rfl, rfl⟩ (ih _)

/-- Bytes written one by one from an offset on are one write. -/
theorem mem_wrCells (s : State) (pa off : Nat) (bs : List (BitVec 8)) (k : Nat) :
    (((bs.zipIdx k).map fun b => (off + b.2, b.1)).foldl (fun u c => u.wrByte (pa + c.1) c.2) s).mem = memWrite s.mem (pa + off + k) bs := by
  induction bs generalizing s k with
  | nil => rfl
  | cons b bs ih =>
    rw [List.zipIdx_cons, List.map_cons, List.foldl_cons, ih, memWrite, Nat.add_assoc (pa + off), State.wrByte, Nat.add_assoc pa off k]

/-- The fields at the start of a header (R363). -/
def Place.head (p : Place) (outcome : Nat) : List (BitVec 8) :=
  natLe 1 (outcome * 64) ++ natLe 1 p.done.toNat ++ natLe 1 p.verd.toNat ++ natLe 1 (p.fstg.elim 0 fun f => 0x80 + f.toNat) ++ natLe 4 p.draws.toNat ++ natLe 8 p.deadline.toNat

theorem Place.headerBytes_eq (p : Place) (o : Nat) : p.headerBytes o = [(0, p.head o), (0x20, p.lcnt.flatMap (natLe 1))] := by
  rw [Place.headerBytes, Place.head]
  cases p.fstg <;> rfl

theorem mem_wrHeader (s : State) (pa : Nat) (p : Place) (o : Nat) :
    ((p.headerCells o).foldl (fun u c => u.wrByte (pa + c.1) c.2) s).mem = ((s.wrBytes pa (p.head o)).wrBytes (pa + 0x20) (p.lcnt.flatMap (natLe 1))).mem := by
  rw [Place.headerCells, Place.headerBytes_eq, List.flatMap_cons, List.flatMap_singleton, List.foldl_append, mem_wrCells, mem_wrCells]
  rfl

/-! The router's writes. -/

section Router
variable {s u : State} {die jcb : Nat} {p : Place}

theorem State.routerWrite_aside {va : Nat} {k : Nat → ReqKind} (hk : ∀ pa, (s.Aside (s.performAccess jcb (k pa)).1)) (h : s.routerWrite die jcb p va k = some u) : s.Aside u := by
  unfold State.routerWrite at h
  split at h
  next => cases h; exact .recordFault ..
  next =>
    split at h
    next => cases h; exact hk _
    next =>
      split at h
      next => exact absurd h (by simp)
      next => cases h; exact .sendReq ..
theorem State.commitEntry_aside {va : Nat} (h : s.commitEntry die jcb p va = some u) : s.Aside u := by
  unfold State.commitEntry at h
  split at h
  next => cases h; exact .recordFault ..
  next => exact State.routerWrite_aside (fun _ => ⟨rfl, rfl⟩) h

/-- One write of a completion: a log entry, or the header. -/
def State.routerAct (s : State) (die jcb : Nat) (p : Place) (a : Nat ⊕ List (Nat × BitVec 8)) : Option State :=
  match a with
  | .inl va => s.commitEntry die jcb p va
  | .inr w => s.routerWrite die jcb p p.hdr fun pa => .cells pa w

theorem State.routerAct_aside {a : Nat ⊕ List (Nat × BitVec 8)} (h : s.routerAct die jcb p a = some u) : s.Aside u := by
  cases a with
  | inl va => exact State.commitEntry_aside h
  | inr w => exact State.routerWrite_aside (k := fun pa => .cells pa w) (fun pa => .wrCells s pa w) h

theorem State.routerActs_cons (s : State) (die jcb : Nat) (p : Place) (a : Nat ⊕ List (Nat × BitVec 8)) (r : List (Nat ⊕ List (Nat × BitVec 8))) (n : Nat) :
    s.routerActs die jcb p (a :: r) n = match s.routerAct die jcb p a with
      | none => (s, n)
      | some v => v.routerActs die jcb p r (n + 1) := by
  cases a <;> rfl

theorem State.routerActs_aside (l : List (Nat ⊕ List (Nat × BitVec 8))) (s : State) (n : Nat) : s.Aside (s.routerActs die jcb p l n).1 := by
  induction l generalizing s n with
  | nil => exact .refl
  | cons a l ih =>
    rw [State.routerActs_cons]
    split
    next => exact .refl
    next hv => exact (State.routerAct_aside hv).trans (ih ..)

/-- A header whose home is the set's die is written at once. -/
theorem State.routerActs_header {a o : Nat} (ha : s.writable die (jcbAsid s jcb) p.hdr = .ok a) (hhome : paDie a = die) :
    s.routerActs die jcb p [.inr (p.headerCells o)] 0 = ((p.headerCells o).foldl (fun u c => u.wrByte (a + c.1) c.2) s, 1) := by
  rw [State.routerActs_cons, State.routerAct, State.routerWrite, ha]
  dsimp only
  rw [if_pos hhome, performAccess_cells]
  dsimp only
  rw [State.routerActs]

theorem Place.acts_rejected (p : Place) {o : Nat} (ho : o ≠ 1) : p.acts o = [.inr (p.headerCells o)] := by
  rw [Place.acts, if_neg ho, List.nil_append]
end Router

/-! The end of a record. -/

theorem State.tset_onTset (s : State) (die n : Nat) (f : TSet → TSet) : (s.onTset die n f).tset die n = f (s.tset die n) := fget_fmod ..
theorem State.barrier_onTset (s : State) (die n : Nat) (f : TSet → TSet) (d b : Nat) : (s.onTset die n f).barrier d b = s.barrier d b := rfl
theorem State.tset_arrive (s : State) (die n jcb d b : Nat) : (s.arrive die n jcb).tset d b = s.tset d b := by
  unfold State.arrive
  split <;> rfl

theorem State.endRecord_arrives (u : State) (die set idx jcb : Nat) (p : Place) (o : Nat) (hb : (u.barrier die p.bar.toNat).job = some jcb) :
    fget none ((u.endRecord die set idx jcb p o).tset die set).places idx = none ∧ (u.endRecord die set idx jcb p o).mem = u.mem ∧
      ((u.endRecord die set idx jcb p o).tset die set).acc = (if o = 1 then (u.tset die set).acc + 1 else (u.tset die set).acc) ∧
      ((u.endRecord die set idx jcb p o).tset die set).rej = (if o = 1 then (u.tset die set).rej else (u.tset die set).rej + 1) ∧
      ((u.endRecord die set idx jcb p o).barrier die p.bar.toNat).count.toNat = Nat.min ((u.barrier die p.bar.toNat).count.toNat + 1) (2 ^ 32 - 1) := by
  rw [State.endRecord]
  rw [State.barrier_onTset, if_pos hb]
  obtain ⟨_, hcount, _⟩ := State.arrive_barrier (s := u.onTset die set fun x => { x with
    acc := if o = 1 then x.acc + 1 else x.acc, rej := if o = 1 then x.rej else x.rej + 1, places := fput none idx none x.places }) hb
  rw [State.tset_arrive, State.tset_onTset, State.arrive_mem]
  exact ⟨fget_fput .., rfl, rfl, rfl, hcount⟩

section Completion
variable {s : State} {set place jcb o : Nat} {p : Place} (hp : fget none (s.tset (set / 8) (set % 8)).places place = some p)
  (hj : (s.tset (set / 8) (set % 8)).holder = some jcb) (ho : p.final (s.tset (set / 8) (set % 8)) s.now = some o)
include hp hj ho

theorem recordCompletion_waits (h : s.isEnding jcb = true ∨ s.laterThan (set / 8) p.since = true) : exec (.recordCompletion set place) s = .next s := by
  rw [exec_recordCompletion, execRecordCompletion, hp, hj]
  dsimp only
  rw [ho]
  dsimp only
  rw [if_pos h]
theorem recordCompletion_goes {u : State} {n : Nat} (hend : s.isEnding jcb = false) (hlater : s.laterThan (set / 8) p.since = false)
    (hacts : s.routerActs (set / 8) jcb p ((p.acts o).drop p.step) p.step = (u, n)) :
    exec (.recordCompletion set place) s = .next (if n < (p.acts o).length then u.onPlace (set / 8) (set % 8) place fun x => { x with step := n }
      else u.endRecord (set / 8) (set % 8) place jcb p o) := by
  rw [exec_recordCompletion, execRecordCompletion, hp, hj]
  dsimp only
  rw [ho]
  dsimp only
  rw [hend, hlater, if_neg (by decide), hacts]
end Completion

/-- Settles O34: the router's writes leave the sets and the barriers to the end of the record. -/
theorem recordCompletions : Obligations.RecordCompletions := by
  unfold Obligations.RecordCompletions
  intro s set place jcb o p die t acts hp hj ho
  refine ⟨recordCompletion_waits hp hj ho, fun u n hend hlater hacts => ⟨fun hn => ?_, fun hn hb => ?_, fun a hne hstep ha hhome => ?_⟩⟩
  · rw [recordCompletion_goes hp hj ho hend hlater hacts, if_pos hn]
  · have haside : s.Aside u := by
      have h := State.routerActs_aside (die := die) (jcb := jcb) (p := p) (acts.drop p.step) s p.step
      rwa [hacts] at h
    obtain ⟨hplace, hmem, hacc, hrej, hcount⟩ := u.endRecord_arrives die (set % 8) place jcb p o (by rw [haside.barrier]; exact hb)
    rw [haside.tset] at hacc hrej
    rw [haside.barrier] at hcount
    rw [recordCompletion_goes hp hj ho hend hlater hacts, if_neg (Nat.not_lt.mpr hn)]
    exact ⟨_, rfl, hplace, hmem, hacc, hrej, hcount⟩
  · intro head
    have hone : acts = [.inr (p.headerCells o)] := p.acts_rejected hne
    rw [hone, hstep, List.drop_zero, State.routerActs_header ha hhome] at hacts
    obtain ⟨rfl, rfl⟩ := Prod.mk.inj hacts
    rw [hone]
    exact ⟨rfl, mem_wrHeader s a p o⟩

end Sys2Proof.Machine
end

section
/-! Checkpoints and resumption (R407 to R413). -/

namespace Sys2Proof.Machine

/-! Writes to a half of the safe tier that lies on the command's die (R411). -/

section SafeTier
variable {c : Cmd} {a : Nat} {b : List (BitVec 8)}

/-- What of a write has gone out, and the rest. -/
theorem memWrite_split (m : List Host.Cell) (pa : Nat) (bs : List (BitVec 8)) {n : Nat} (hn : n ≤ bs.length) :
    memWrite (memWrite m pa (bs.take n)) (pa + n) (bs.drop n) = memWrite m pa bs := by
  have h := memWrite_append m pa (bs.take n) (bs.drop n)
  rwa [List.length_take_of_le hn, List.take_append_drop] at h

/-- Every piece of a write on the die goes out at once, so its fuel suffices. -/
theorem State.safeGo_here (hhere : 0 < b.length → paDie a = c.die) (f : Nat) (s : State) {p : Nat} (hp : p ≤ b.length) (hf : b.length < p + f) :
    ∃ u, s.MemOnly u ∧ u.mem = memWrite s.mem (a + p) (b.drop p) ∧
      s.safeGo c a b.length (fun p n => (b.drop p).take n) f p = .done (u.onCmd c.id fun x => { x with sent := 0 }) := by
  induction f generalizing s p with
  | zero => exact absurd hf (by omega)
  | succ f ih =>
    by_cases hend : b.length ≤ p
    · refine ⟨s, .refl, ?_, by rw [State.safeGo, if_pos hend]⟩
      rw [List.drop_eq_nil_of_le hend, memWrite]
    · have hn : 1 ≤ Nat.min (b.length - p) (flitData - (a + p) % 64) ∧ Nat.min (b.length - p) (flitData - (a + p) % 64) ≤ b.length - p := by
        have hflit : flitData = 192 := rfl
        exact ⟨Nat.le_min.mpr ⟨by omega, by omega⟩, Nat.min_le_left ..⟩
      rw [State.safeGo, if_neg hend]
      dsimp only
      rw [if_pos (hhere (by omega))]
      generalize Nat.min (b.length - p) (flitData - (a + p) % 64) = n at hn ⊢
      obtain ⟨u, hu, hmem, hgo⟩ := ih (s.wrBytes (a + p) ((b.drop p).take n)) (p := p + n) (by omega) (by omega)
      refine ⟨u, (State.MemOnly.wrBytes ..).trans hu, ?_, hgo⟩
      rw [hmem, State.wrBytes, ← List.drop_drop, ← Nat.add_assoc]
      exact memWrite_split _ _ _ (by rw [List.length_drop]; omega)

theorem State.safeWrite_here (hhere : 0 < b.length → paDie a = c.die) (hsent : c.sent = 0) (s : State) :
    ∃ u, s.MemOnly u ∧ u.mem = (s.wrBytes a b).mem ∧
      s.safeWrite c a b.length (fun p n => (b.drop p).take n) = .done (u.onCmd c.id fun x => { x with sent := 0 }) := by
  obtain ⟨u, hu, hmem, hgo⟩ := State.safeGo_here hhere (b.length + 1) s (Nat.zero_le _) (by omega)
  exact ⟨u, hu, by rw [hmem, Nat.add_zero, List.drop_zero, State.wrBytes], by rw [State.safeWrite, hsent, hgo]⟩

/-- The first of a command's writes performs, and the others wait. -/
theorem State.ckItems_here (hhere : 0 < b.length → paDie a = c.die) (hsent : c.sent = 0) {r : List (Nat × List (BitVec 8))} (hitems : c.items = (a, b) :: r)
    (s : State) (hc : s.cmd c.id = some c) (next : State → State) :
    (s.ckItems c true next).mem = (s.wrBytes a b).mem ∧ ∃ y, (s.ckItems c true next).cmd c.id = some y ∧ y.items = r ∧ y.pos = c.pos := by
  obtain ⟨u, hu, hmem, hgo⟩ := State.safeWrite_here hhere hsent s
  have hcu : u.cmd c.id = some c := by rw [State.cmd, hu.cmds, ← State.cmd, hc]
  have heq : s.ckItems c true next = (u.onCmd c.id fun x => { x with sent := 0 }).onCmd c.id fun x => { x with items := r } := by
    rw [State.ckItems, hitems]
    dsimp only
    rw [if_pos rfl, hgo]
    rfl
  rw [heq]
  refine ⟨hmem, { c with sent := 0, items := r }, ?_, rfl, rfl⟩
  rw [State.cmd_onCmd _ _ (by exact fun _ => rfl), State.cmd_onCmd _ _ (by exact fun _ => rfl), hcu]
  rfl
end SafeTier

theorem State.ckItems_none (s : State) {c : Cmd} (h : c.items = []) (safe : Bool) (next : State → State) : s.ckItems c safe next = next s := by
  rw [State.ckItems, h]
theorem State.ckSettled_none (s : State) {c : Cmd} (h : c.items = []) (hidle : s.cmdIdle c.id = true) (safe : Bool) (next : State → State) :
    s.ckSettled c safe next = next s := by
  rw [State.ckSettled, State.ckItems_none s h, if_pos hidle]

/-! The stages of a checkpoint (R410). -/

/-- What CHECKPOINT_COPY does for an active command, by its position. -/
def State.copyStage (s : State) (c : Cmd) : State :=
  match c.pos with
  | 2 => if s.ckQuiet c then s.onCmd c.id fun x => { x with pos := 3, items := s.ckWriteBack c } else s
  | 3 => s.ckSettled c false fun s => s.onCmd c.id fun x => { x with pos := 4, items := [(s.halfPa c.ckDesc + 0xC, [0])] }
  | 4 => s.ckSettled c true fun s => s.ckRecords c c.ckDesc c.ckRegions
  | 5 => s.ckItems c true fun s => s.onCmd c.id fun x => { x with pos := 6 }
  | 6 => s.ckCopy c c.ckDesc c.ckRegions
  | _ => s
/-- What CHECKPOINT_COMMIT does for an active command, by its position. -/
def State.commitStage (s : State) (c : Cmd) : State :=
  match c.pos with
  | 7 => if s.cmdIdle c.id then s.onCmd c.id fun x => { x with pos := 8, items := s.ckEntries c c.ckDesc c.ckRegions } else s
  | 8 => s.ckSettled c true fun s => s.onCmd c.id fun x => { x with pos := 9, items := [(s.halfPa c.ckDesc + 0xC, [1])] }
  | 9 => s.ckSettled c true fun s => (s.releaseCkpt c.die c.jcb).finishCmd c.id
  | _ => s

section Stages
variable {s : State} {c : Cmd} (hc : s.cmd c.id = some c) (ha : c.active s.now = true)
include hc ha

theorem checkpointCopy_active : exec (.checkpointCopy c.id) s = .next (s.copyStage c) := by
  rw [exec_checkpointCopy, execCheckpointCopy, hc]
  dsimp only
  rw [ha, if_neg (by decide)]
  rfl
theorem checkpointCommit_active : exec (.checkpointCommit c.id) s = .next (s.commitStage c) := by
  rw [exec_checkpointCommit, execCheckpointCommit, hc]
  dsimp only
  rw [ha, if_neg (by decide)]
  rfl
end Stages

section Positions
variable (s : State) {c : Cmd}

theorem State.copyStage_quiet (h : c.pos = 2) (hq : s.ckQuiet c = true) : s.copyStage c = s.onCmd c.id fun x => { x with pos := 3, items := s.ckWriteBack c } := by
  simp only [State.copyStage, h, hq, if_true]
theorem State.copyStage_busy (h : c.pos = 2) (hq : s.ckQuiet c = false) : s.copyStage c = s := by
  simp only [State.copyStage, h, hq, Bool.false_eq_true, if_false]
theorem State.copyStage_tables (h : c.pos = 3) :
    s.copyStage c = s.ckSettled c false fun s => s.onCmd c.id fun x => { x with pos := 4, items := [(s.halfPa c.ckDesc + 0xC, [0])] } := by
  simp only [State.copyStage, h]
theorem State.copyStage_invalid (h : c.pos = 4) : s.copyStage c = s.ckSettled c true fun s => s.ckRecords c c.ckDesc c.ckRegions := by
  simp only [State.copyStage, h]
theorem State.copyStage_records (h : c.pos = 5) : s.copyStage c = s.ckItems c true fun s => s.onCmd c.id fun x => { x with pos := 6 } := by
  simp only [State.copyStage, h]
theorem State.copyStage_regions (h : c.pos = 6) : s.copyStage c = s.ckCopy c c.ckDesc c.ckRegions := by
  simp only [State.copyStage, h]
theorem State.commitStage_acked (h : c.pos = 7) (hidle : s.cmdIdle c.id = true) :
    s.commitStage c = s.onCmd c.id fun x => { x with pos := 8, items := s.ckEntries c c.ckDesc c.ckRegions } := by
  simp only [State.commitStage, h, hidle, if_true]
theorem State.commitStage_unacked (h : c.pos = 7) (hidle : s.cmdIdle c.id = false) : s.commitStage c = s := by
  simp only [State.commitStage, h, hidle, Bool.false_eq_true, if_false]
theorem State.commitStage_header (h : c.pos = 8) :
    s.commitStage c = s.ckSettled c true fun s => s.onCmd c.id fun x => { x with pos := 9, items := [(s.halfPa c.ckDesc + 0xC, [1])] } := by
  simp only [State.commitStage, h]
theorem State.commitStage_complete (h : c.pos = 9) : s.commitStage c = s.ckSettled c true fun s => (s.releaseCkpt c.die c.jcb).finishCmd c.id := by
  simp only [State.commitStage, h]
end Positions

/-! Step 7: the continuations go on. -/

/-- What the continuations that go on leave as it is. -/
structure State.GoesOn (s t : State) : Prop where
  mem : t.mem = s.mem
  cmds : t.cmds = s.cmds
  ckpts : t.sched.ckpts = s.sched.ckpts

namespace State.GoesOn
variable {s t u : State}

theorem refl : s.GoesOn s := ⟨rfl, rfl, rfl⟩
theorem trans (h : s.GoesOn t) (k : t.GoesOn u) : s.GoesOn u := ⟨k.mem.trans h.mem, k.cmds.trans h.cmds, k.ckpts.trans h.ckpts⟩
theorem foldl {α : Type} {f : State → α → State} (hf : ∀ (u : State) (a : α), u.GoesOn (f u a)) (l : List α) (s : State) : s.GoesOn (l.foldl f s) := by
  induction l generalizing s with
  | nil => exact refl
  | cons a l ih => exact (hf s a).trans (ih _)
theorem onCont (s : State) (key : Nat) (f : Cont → Cont) : s.GoesOn (s.onCont key f) := by
  unfold State.onCont
  split <;> exact ⟨rfl, rfl, rfl⟩
theorem enqueue (s : State) (key : Nat) : s.GoesOn (s.enqueue key) := by
  unfold State.enqueue
  split
  · exact refl
  · exact ⟨rfl, rfl, rfl⟩
end State.GoesOn

theorem State.releaseCkpt_leaves (s : State) (die jcb : Nat) :
    (s.releaseCkpt die jcb).mem = s.mem ∧ (s.releaseCkpt die jcb).cmds = s.cmds ∧ ∀ k ∈ (s.releaseCkpt die jcb).sched.ckpts, k.die ≠ die := by
  unfold State.releaseCkpt
  extract_lets u
  have hu : ∀ k ∈ u.sched.ckpts, k.die ≠ die := fun k hk => bne_iff_ne.mp (List.mem_filter.mp hk).2
  have hmem : u.mem = s.mem := rfl
  have hcmds : u.cmds = s.cmds := rfl
  clear_value u
  have hfold : u.GoesOn ((u.ckConts die jcb).foldl (fun s p =>
      let s := s.onCont p.1 fun c => { c with mark := c.mark.bind fun m => if markCkpt ≤ m ∧ m < markGang then none else some m }
      if p.2.state = stSaved ∧ p.2.gang.isNone ∧ (s.residentOn p.1).isNone ∧ !(s.sched.ready.any fun r => r.item == .cont p.1) then s.enqueue p.1 else s) u) := by
    refine .foldl (fun v p => ?_) _ u
    extract_lets w
    have hw : v.GoesOn w := .onCont ..
    split
    · exact hw.trans (.enqueue ..)
    · exact hw
  exact ⟨hfold.mem.trans hmem, hfold.cmds.trans hcmds, by rw [hfold.ckpts]; exact hu⟩

/-! Resumption (R413): what a record says of a continuation's state. -/

theorem leNat_drop (b : List (BitVec 8)) (k : Nat) : leNat b / 2 ^ (8 * k) = leNat (b.drop k) := by
  induction k generalizing b with
  | zero => rw [Nat.mul_zero, Nat.pow_zero, Nat.div_one, List.drop_zero]
  | succ k ih =>
    cases b with
    | nil => rw [List.drop_nil, leNat, Nat.zero_div]
    | cons x b =>
      have hx := x.isLt
      rw [List.drop_succ_cons, ← ih, leNat, show 8 * (k + 1) = 8 + 8 * k by omega, Nat.pow_add, ← Nat.div_div_eq_div_mul]
      congr 1
      omega
theorem leNat_take_one (b : List (BitVec 8)) : leNat (b.take 1) = leNat b % 2 ^ 8 := by
  cases b with
  | nil => rfl
  | cons x b =>
    have hx := x.isLt
    rw [List.take_succ_cons, List.take_zero, leNat, leNat, leNat]
    omega

theorem contOfRecord_state (jcb : Nat) (b : List (BitVec 8)) : (contOfRecord jcb b).state = leNat ((b.drop 0x17).take 1) % 16 := by
  rw [leNat_take_one, ← leNat_drop]
  rfl

/-! The continuations of the records. -/

/-- The next handle and the next number of a die are taken. -/
def State.handleTaken (s : State) (die : Nat) : State :=
  (s.onSched fun x => { x with nextHandle := fmod 0 die (· + 1) x.nextHandle }).onSched fun x => { x with seq := fmod 0 die (· + 1) x.seq }
/-- The place of a record in flight runs the stage of a continuation. -/
def State.placeRuns (s : State) (die key stage : Nat) (place : Option (Nat × Nat)) : State :=
  match place with
  | some (set, idx) => s.onPlace die set idx fun x => { x with running := some (key, stage) }
  | none => s
/-- A continuation stands under a new handle and number, its record going on with it. -/
def State.reloadOne (s : State) (die : Nat) (c : Cont) : State :=
  let key := contKey die (fget 0 s.sched.nextHandle die)
  let place := (s.handleTaken die).recordOf die c
  let u := (s.handleTaken die).placeRuns die key c.stage.toNat place
  (u.setCont key (some { c with seq := fget 0 s.sched.seq die, jtag := u.jtag die c.jcb, record := place })).enqueue key

theorem State.reloadConts_eq (s : State) (die : Nat) (l : List Cont) :
    s.reloadConts die l = (sortBy (fun (a b : Cont) => decide (a.seq < b.seq)) l).foldl (fun u c => u.reloadOne die c) s := rfl

theorem State.placeRuns_leaves (s : State) (die key stage : Nat) (place : Option (Nat × Nat)) :
    (s.placeRuns die key stage place).mem = s.mem ∧ (s.placeRuns die key stage place).sched = s.sched := by
  unfold State.placeRuns
  split <;> exact ⟨rfl, rfl⟩

/-- One that stands afterwards stood before, or is the one of the record. -/
theorem State.reloadOne_stands (s : State) (die : Nat) (c : Cont) :
    (s.reloadOne die c).mem = s.mem ∧ ∀ k d, (s.reloadOne die c).cont k = some d → s.cont k = some d ∨ d.state = c.state := by
  unfold State.reloadOne
  extract_lets key place u
  obtain ⟨hmem, hsched⟩ := (s.handleTaken die).placeRuns_leaves die key c.stage.toNat place
  have hstands : ∀ k, u.cont k = s.cont k := fun k => (congrArg (fun x : Sched => fget none x.conts k) hsched :).trans rfl
  obtain ⟨r, hr⟩ := State.enqueue_of_cont (u.cont_setCont key (some { c with seq := fget 0 s.sched.seq die, jtag := u.jtag die c.jcb, record := place }))
  rw [hr]
  refine ⟨hmem, fun k d hd => ?_⟩
  rw [State.cont_insertReady] at hd
  by_cases hk : k = key
  · rw [hk, State.cont_setCont] at hd
    exact .inr (by rw [← Option.some.inj hd])
  · rw [State.cont, State.setCont, State.onSched_sched, fget_fput_ne _ _ _ _ _ hk, ← State.cont, hstands] at hd
    exact .inl hd

theorem State.reloadConts_stands (s : State) (die : Nat) (l : List Cont) :
    (s.reloadConts die l).mem = s.mem ∧ ∀ k d, (s.reloadConts die l).cont k = some d → s.cont k = some d ∨ ∃ c ∈ l, d.state = c.state := by
  suffices h : ∀ (l : List Cont) (s : State), (l.foldl (fun u c => u.reloadOne die c) s).mem = s.mem ∧
      ∀ k d, (l.foldl (fun u c => u.reloadOne die c) s).cont k = some d → s.cont k = some d ∨ ∃ c ∈ l, d.state = c.state by
    obtain ⟨hmem, hstands⟩ := h (sortBy (fun (a b : Cont) => decide (a.seq < b.seq)) l) s
    rw [State.reloadConts_eq]
    exact ⟨hmem, fun k d hd => (hstands k d hd).imp_right fun ⟨c, hc, hst⟩ => ⟨c, (sortBy_perm _ l).mem_iff.mp hc, hst⟩⟩
  intro l
  induction l with
  | nil => exact fun s => ⟨rfl, fun k d hd => .inl hd⟩
  | cons c l ih =>
    intro s
    obtain ⟨hone, hstood⟩ := s.reloadOne_stands die c
    obtain ⟨hrest, hstands⟩ := ih (s.reloadOne die c)
    refine ⟨hrest.trans hone, fun k d hd => ?_⟩
    rcases hstands k d hd with hd | ⟨e, he, hst⟩
    · exact (hstood k d hd).imp_right fun hst => ⟨c, List.mem_cons_self .., hst⟩
    · exact .inr ⟨e, List.mem_cons_of_mem _ he, hst⟩

/-! The job of a die that resumes. -/

theorem State.mem_ckConts {s : State} {die jcb k : Nat} {c : Cont} (hc : s.cont k = some c) (hd : keyDie k = die) (hj : c.jcb = jcb) :
    k ∈ (s.ckConts die jcb).map Prod.fst := by
  have hin : (k, some c) ∈ s.sched.conts := by
    rcases fget_eq_default_or_mem none k s.sched.conts with h | h
    · exact absurd (h.symm.trans hc) (by simp)
    · exact hc ▸ h
  exact List.mem_map.mpr ⟨(k, c), List.mem_filterMap.mpr ⟨_, hin, if_pos ⟨hd, hj⟩⟩, rfl⟩

/-- The job's continuations on a die are gone. -/
def State.jobReleased (s : State) (die jcb : Nat) : State := ((s.ckConts die jcb).map Prod.fst).foldl State.release s

theorem State.jobReleased_leaves (s : State) (die jcb : Nat) :
    (s.jobReleased die jcb).mem = s.mem ∧ ∀ k c, (s.jobReleased die jcb).cont k = some c → keyDie k = die → c.jcb ≠ jcb := by
  have hsheds : s.Sheds (s.jobReleased die jcb) := .foldl State.sheds_release _ s
  refine ⟨hsheds.mem, fun k c hc hd hj => ?_⟩
  have hgone := State.cont_foldl_release (State.mem_ckConts (hsheds.conts hc) hd hj) s
  rw [State.jobReleased, hgone] at hc
  exact absurd hc (by simp)

theorem State.loadLayout_mem (s : State) (die jcb : Nat) : (s.loadLayout die jcb).1.mem = s.mem := by
  unfold State.loadLayout
  split
  · rfl
  · split <;> rfl
theorem State.reloadSet_mem (s : State) (die asid n : Nat) : (s.reloadSet die asid n).mem = s.mem := by
  unfold State.reloadSet
  dsimp only
  split <;> rfl
theorem State.giveJtag_mem (s : State) (die jcb : Nat) : (s.giveJtag die jcb).mem = s.mem := by
  unfold State.giveJtag
  split
  · rfl
  · dsimp only
    split <;> rfl

/-- A stage set of a job, as the die held it or held it before it lost power, is loaded again. -/
def State.setReloaded (s : State) (die jcb asid n : Nat) : State :=
  let t := if (s.tset die n).holder = some jcb then s.tset die n else fget TSet.reset s.sched.lostSets (die * 8 + n)
  if t.holder = some jcb then (s.onTset die n fun _ => t).reloadSet die asid n else s

theorem State.setReloaded_mem (s : State) (die jcb asid n : Nat) : (s.setReloaded die jcb asid n).mem = s.mem := by
  unfold State.setReloaded
  extract_lets t
  split
  · rw [State.reloadSet_mem, State.onTset_mem]
  · rfl

/-- The layouts and the stage sets of a job are loaded again, and its tag is given. -/
def State.jobReloaded (s : State) (die jcb asid : Nat) : State :=
  let u := ({ s with lay := s.lay.filter fun l => l.die != die || l.jcb != jcb } : State)
  let v := (List.range 8).foldl (fun s n => s.setReloaded die jcb asid n) (u.loadLayout die jcb).1
  (v.giveJtag die jcb).onSched fun x => { x with lostTags := x.lostTags.filter (fun t => t.die != die), lostSets := x.lostSets.filter fun t => t.1 / 8 != die }

theorem mem_foldl {α : Type} {f : State → α → State} (hf : ∀ (u : State) (a : α), (f u a).mem = u.mem) (l : List α) (s : State) : (l.foldl f s).mem = s.mem := by
  induction l generalizing s with
  | nil => rfl
  | cons a l ih => rw [List.foldl_cons, ih, hf]

theorem State.jobReloaded_mem (s : State) (die jcb asid : Nat) : (s.jobReloaded die jcb asid).mem = s.mem := by
  unfold State.jobReloaded
  dsimp only
  rw [State.onSched_mem, State.giveJtag_mem, mem_foldl fun u n => u.setReloaded_mem die jcb asid n, State.loadLayout_mem]

/-- The job of a record, by the tags that the die remembers (log entry 76). -/
def State.jobOfRecord (s : State) (die : Nat) (b : List (BitVec 8)) : Option Nat :=
  ((s.sched.lostTags ++ s.sched.jtags).find? fun t => t.die == die && t.tag.toNat == leNat ((b.drop 0x14).take 2)).map JTag.jcb

theorem State.jobOfRecord_only {s : State} {die jcb : Nat} (hall : ∀ t ∈ s.sched.lostTags ++ s.sched.jtags, t.jcb = jcb) (b : List (BitVec 8)) :
    s.jobOfRecord die b = none ∨ s.jobOfRecord die b = some jcb := by
  unfold State.jobOfRecord
  cases h : (s.sched.lostTags ++ s.sched.jtags).find? fun t => t.die == die && t.tag.toNat == leNat ((b.drop 0x14).take 2) with
  | none => exact .inl rfl
  | some t => exact .inr (congrArg some (hall t (List.mem_of_find?_eq_some h)))
theorem State.jobOfRecord_of_tag {s : State} {die : Nat} {b : List (BitVec 8)} {t : JTag} (ht : t ∈ s.sched.lostTags ++ s.sched.jtags) (hd : t.die = die)
    (htag : t.tag.toNat = leNat ((b.drop 0x14).take 2)) : s.jobOfRecord die b ≠ none := by
  intro h
  rw [State.jobOfRecord, Option.map_eq_none_iff, List.find?_eq_none] at h
  exact h t ht (by rw [hd, htag, beq_self_eq_true, beq_self_eq_true]; rfl)

/-- One of the records has a tag that the die remembers, and every tag is of one job. -/
theorem State.findJob {s : State} {die jcb : Nat} (hall : ∀ t ∈ s.sched.lostTags ++ s.sched.jtags, t.jcb = jcb) {recs : List (List (BitVec 8))}
    (hrec : ∃ b ∈ recs, s.jobOfRecord die b ≠ none) : recs.findSome? (s.jobOfRecord die) = some jcb := by
  cases h : recs.findSome? (s.jobOfRecord die) with
  | none =>
    obtain ⟨b, hb, hne⟩ := hrec
    exact absurd (List.findSome?_eq_none_iff.mp h b hb) hne
  | some j =>
    obtain ⟨b, _, hj⟩ := List.exists_of_findSome?_eq_some h
    exact ((State.jobOfRecord_only hall b).resolve_left (by rw [hj]; simp)).symm.trans hj |>.symm

/-- The records of a half. -/
def State.halfRecords (s : State) (half : Nat) : List (List (BitVec 8)) :=
  (List.range (s.rd (half + 0x14) 4)).map fun i => s.rdBytes (half + s.rd (half + 0x28) 8 + 64 * i) 64
/-- The regions of a half, written back. -/
def State.regionsBack (s : State) (die half jcb : Nat) : State :=
  s.reloadPages die (jcbAsid s jcb) (half + s.rd (half + 0x30) 8) (regionPieces (parseRegions (s.rdBytes (half + 0x1000) (16 * s.rd (half + 0x10) 4)) (s.rd (half + 0x10) 4)))
/-- The continuations that go on from a half. -/
def State.halfConts (s : State) (half jcb : Nat) : List Cont :=
  ((s.halfRecords half).filter fun b => [stSaved, stReady].contains (leNat ((b.drop 0x17).take 1) % 16)).map (contOfRecord jcb)

theorem State.halfConts_state {s : State} {half jcb : Nat} {c : Cont} (hc : c ∈ s.halfConts half jcb) : c.state = stSaved ∨ c.state = stReady := by
  obtain ⟨b, hb, rfl⟩ := List.mem_map.mp hc
  have hst : leNat ((b.drop 0x17).take 1) % 16 ∈ [stSaved, stReady] := List.contains_iff_mem.mp (List.mem_filter.mp hb).2
  rw [contOfRecord_state]
  exact List.mem_pair.mp hst

theorem resumption_none {s : State} {die : Nat} (h : s.newestHalf die = none) : exec (.resumption die) s = .next s := by
  rw [exec_resumption, execResumption, h]

/-- R413: what is loaded of a half, in its order. -/
theorem resumption_loads {s : State} {die half jcb : Nat} (h : s.newestHalf die = some half) (hidle : ∀ c ∈ s.coreIds, dieOf c = die → (s.coreAt c).res = none)
    (hjob : (s.halfRecords half).findSome? (s.jobOfRecord die) = some jcb) :
    exec (.resumption die) s = .next ((((s.regionsBack die half jcb).jobReloaded die jcb (jcbAsid s jcb)).jobReleased die jcb).reloadConts die (s.halfConts half jcb)) := by
  have hno : ¬((s.coreIds.filter fun c => dieOf c = die).any fun c => (s.coreAt c).res.isSome) = true := by
    rw [List.any_eq_true]
    rintro ⟨c, hc, hres⟩
    obtain ⟨hc, hd⟩ := List.mem_filter.mp hc
    rw [hidle c hc (of_decide_eq_true hd)] at hres
    exact absurd hres (by decide)
  rw [exec_resumption, execResumption, h]
  dsimp only
  rw [if_neg hno]
  unfold State.halfRecords at hjob
  unfold State.jobOfRecord at hjob
  rw [hjob]
  rfl

/-! Pages, and the last write. -/

theorem State.ckCopy_page {s u w : State} {c : Cmd} {d : CkDesc} {rs : List (Nat × Nat)} {va pa : Nat} (hva : (regionPieces rs)[c.aux.getD 0 0]? = some va)
    (hpage : s.ckPage c va = .at u pa) (hok : u.flawed pa (2 ^ 16) = false)
    (hw : u.safeWrite c (u.halfPa d + dataOff d.nreg (c.aux.getD 1 0) + 2 ^ 16 * c.aux.getD 0 0) (2 ^ 16) (fun p m => u.rdBytes (pa + p) m) = .done w) :
    s.ckCopy c d rs = w.onCmd c.id fun x => { x with aux := [c.aux.getD 0 0 + 1, c.aux.getD 1 0] } := by
  rw [State.ckCopy, hva]
  dsimp only
  rw [hpage]
  dsimp only
  rw [hok, if_neg (by decide), hw]
  rfl
theorem State.ckCopy_end {s : State} {c : Cmd} {d : CkDesc} {rs : List (Nat × Nat)} (hva : (regionPieces rs)[c.aux.getD 0 0]? = none) :
    s.ckCopy c d rs = s.onCmd c.id fun x => { x with pos := 7 } := by
  rw [State.ckCopy, hva]

theorem State.checkpointEnds {s : State} {c : Cmd} (hc : s.cmd c.id = some c) :
    ∃ y, ((s.releaseCkpt c.die c.jcb).finishCmd c.id).cmd c.id = some y ∧ y.finished = true ∧
      (∀ k ∈ ((s.releaseCkpt c.die c.jcb).finishCmd c.id).sched.ckpts, k.die ≠ c.die) ∧ ((s.releaseCkpt c.die c.jcb).finishCmd c.id).mem = s.mem := by
  obtain ⟨hmem, hcmds, hckpts⟩ := s.releaseCkpt_leaves c.die c.jcb
  have hcr : (s.releaseCkpt c.die c.jcb).cmd c.id = some c := by rw [State.cmd, hcmds, ← State.cmd, hc]
  exact ⟨_, State.cmd_finishCmd hcr, rfl, hckpts, hmem⟩

/-- The stages of CHECKPOINT_COPY and CHECKPOINT_COMMIT whose writes go to the half. -/
theorem checkpoint_writes {s : State} {c : Cmd} (hc : s.cmd c.id = some c) (ha : c.active s.now = true) {i : Instr}
    (hi : (c.pos = 4 ∨ c.pos = 5) ∧ i = .checkpointCopy c.id ∨ (c.pos = 8 ∨ c.pos = 9) ∧ i = .checkpointCommit c.id) :
    ∃ next, exec i s = .next (s.ckItems c true next) := by
  rcases hi with ⟨hpos | hpos, rfl⟩ | ⟨hpos | hpos, rfl⟩
  · exact ⟨_, by rw [checkpointCopy_active hc ha, s.copyStage_invalid hpos, State.ckSettled]⟩
  · exact ⟨_, by rw [checkpointCopy_active hc ha, s.copyStage_records hpos]⟩
  · exact ⟨_, by rw [checkpointCommit_active hc ha, s.commitStage_header hpos, State.ckSettled]⟩
  · exact ⟨_, by rw [checkpointCommit_active hc ha, s.commitStage_complete hpos, State.ckSettled]⟩

/-- Settles O43: a checkpoint's stage is its command's position, and a resumption loads the half in the order of its parts. -/
theorem checkpoints : Obligations.Checkpoints := by
  unfold Obligations.Checkpoints
  refine ⟨fun s c hc ha => ?_, fun s die => resumption_none, fun s die half jcb hhalf hidle hrec hall => ?_⟩
  · intro d rs idle goes
    have hcopy := checkpointCopy_active hc ha
    have hcommit := checkpointCommit_active hc ha
    refine ⟨fun hpos hq => ?_, fun hpos hq => ?_, fun hpos hitems hidle => ?_, fun hpos hitems hidle => ?_, fun hpos hitems => ?_,
      fun va pa u w hpos hva hpage hok hw => ?_, fun hpos hva => ?_, fun hpos hidle => ?_, fun hpos hidle => ?_, fun hpos hitems hidle => ?_,
      fun hpos hitems hidle => ?_, fun i a b r hi hitems hsent hhere => ?_⟩
    · exact hcopy.trans (by rw [s.copyStage_quiet hpos hq])
    · exact hcopy.trans (by rw [s.copyStage_busy hpos hq])
    · exact hcopy.trans (by rw [s.copyStage_tables hpos, s.ckSettled_none hitems hidle])
    · exact hcopy.trans (by rw [s.copyStage_invalid hpos, s.ckSettled_none hitems hidle])
    · exact hcopy.trans (by rw [s.copyStage_records hpos, s.ckItems_none hitems])
    · exact hcopy.trans (by rw [s.copyStage_regions hpos, State.ckCopy_page hva hpage hok hw])
    · exact hcopy.trans (by rw [s.copyStage_regions hpos, State.ckCopy_end hva])
    · exact hcommit.trans (by rw [s.commitStage_acked hpos hidle])
    · exact hcommit.trans (by rw [s.commitStage_unacked hpos hidle])
    · exact hcommit.trans (by rw [s.commitStage_header hpos, s.ckSettled_none hitems hidle])
    · obtain ⟨y, hy⟩ := State.checkpointEnds hc
      exact ⟨_, y, hcommit.trans (by rw [s.commitStage_complete hpos, s.ckSettled_none hitems hidle]), hy⟩
    · obtain ⟨next, hexec⟩ := checkpoint_writes hc ha hi
      obtain ⟨hmem, y, hy⟩ := State.ckItems_here (fun h => hhere 0 h) hsent hitems s hc next
      exact ⟨_, y, hexec, hmem, hy⟩
  · obtain ⟨i, hi, t, ht, hd, _, htag⟩ := hrec
    have hjob : (s.halfRecords half).findSome? (s.jobOfRecord die) = some jcb :=
      State.findJob hall ⟨_, List.mem_map.mpr ⟨i, List.mem_range.mpr hi, rfl⟩, State.jobOfRecord_of_tag ht hd htag⟩
    obtain ⟨hmem, hstands⟩ := (((s.regionsBack die half jcb).jobReloaded die jcb (jcbAsid s jcb)).jobReleased die jcb).reloadConts_stands die (s.halfConts half jcb)
    obtain ⟨hmem', hgone⟩ := ((s.regionsBack die half jcb).jobReloaded die jcb (jcbAsid s jcb)).jobReleased_leaves die jcb
    refine ⟨_, resumption_loads hhalf hidle hjob, fun k c hc hk hj => ?_, (hmem.trans hmem').trans (State.jobReloaded_mem ..)⟩
    rcases hstands k c hc with hc | ⟨e, he, hst⟩
    · exact absurd hj (hgone k c hc hk)
    · rw [hst]
      exact State.halfConts_state he

end Sys2Proof.Machine
end
